-- ==== Sys2Proof/Word.lean ====
section
/-! DEFINITION. The word types of the module: bytes and words of R2, the numbered things of R13 (strands, stacks,
links), and the sparse map that holds state of which almost every entry is at its default. -/

-- One thread here and in every file: the package as one text would otherwise start more threads than the
-- memory limit lets it.
set_option Elab.async false

namespace Sys2Proof

/-- One byte (R2: the byte at the lowest address holds bits [7:0]). -/
abbrev Byte := BitVec 8
/-- A 32-bit word: a W32 value, an I32 value, or one 4-byte half of a register. -/
abbrev W32 := BitVec 32
/-- A 64-bit register, timestamp or descriptor word. -/
abbrev W64 := BitVec 64

/-- A line number, 0 to 65,535 (R264). -/
abbrev LineNo := BitVec 16
/-- A sequence number of a line (R269). -/
abbrev Seq := BitVec 32
/-- An account, 0 to 255. -/
abbrev Acct := BitVec 8
/-- A strand, 0 to 3 (R13). -/
abbrev StrandNo := Fin 4
/-- A braid array of a strand, 0 to 15 (R76). -/
abbrev ArrayNo := Fin 16
/-- A link, 0 to 23 (R13). -/
abbrev LinkNo := Fin 24
/-- A hitch, 0 to 262,143 (R277). -/
abbrev HitchNo := BitVec 18
/-- A 48-bit device physical address (R182). -/
abbrev DevAddr := BitVec 48
/-- A bank of a channel, 0 to 31. -/
abbrev BankNo := Fin 32
/-- A device ID (R329), carried in 16 bits on the links. -/
abbrev DevId := BitVec 16

/-- A sparse map from numbers: keys strictly rising, and no entry that equals the default of an absent key. -/
abbrev SMap (V : Type) := List (Nat × V)

end Sys2Proof
end

