-- ==== Sys2Proof/Syntax.lean ====
section
/-! DEFINITION. The commands of the module: one constructor of `Instr` for each row of spec/opcode_table.json, with
the operands that the row's rule gives the step. -/

set_option Elab.async false

namespace Sys2Proof

/-- The two BARs whose access widths R361 limits. -/
inductive Bar where
  | bar0 | bar2
deriving DecidableEq, Repr

/-- Where a suspend, resume or cancel request comes from: a CTRL descriptor that its line has taken, or a host write
of LINE_CTRL (R282). -/
inductive CtrlSrc where
  | desc (line : LineNo)
  | host (target : LineNo) (seq : Seq)
deriving DecidableEq, Repr

/-- Where a belay request comes from: a BELAY descriptor that its line has taken, or a host write of CFG_BELAY_CMD
with its BAR_HITCH and BAR_VALUE fields (R387). -/
inductive BelaySrc where
  | desc (line : LineNo)
  | host (barHitch : HitchNo) (barValue : W32)
deriving DecidableEq, Repr

/-- The engine whose lanes run a micro-op: the vector engine of a strand (R99), or the splicer of a global mantle
channel (R226). -/
inductive Engine where
  | vec (strand : StrandNo)
  | spl (chan : BitVec 10)
deriving DecidableEq, Repr

/-- A DRAM stack: kern stack 0 to 3 or mantle stack 0 to 7 (R13). -/
inductive Stack where
  | kern (k : Fin 4)
  | mantle (m : Fin 8)
deriving DecidableEq, Repr

/-- A memory tier (the tier codes of "Memory Tiers, Homes and Moves"). -/
inductive Tier where
  | kern | mantle | host
deriving DecidableEq, Repr

/-- The fault pattern a channel meets when it reads one granule. -/
inductive EccErr where
  | none
  /-- A mantle granule: the XOR pattern of each faulty symbol of the R192 codeword. -/
  | symbols (e : List (Fin 20 × BitVec 16))
  /-- A kern granule: flipped bits in each of its four SEC-DED words and in its metadata field (R191). -/
  | bits (w0 w1 w2 w3 : Nat) (metadata : BitVec 4)
  /-- A kern beat whose bond code failed this many times in a row (R191). -/
  | beat (failures : Nat)
  /-- A kern beat that its bond code corrected (R191). -/
  | beatFixed
deriving DecidableEq, Repr

/-- An error that a unit's read of its operands meets (R78, R175, R193). -/
inductive Found where
  /-- A granule at a device address, or a beat of it, that its code corrects. -/
  | corrected (addr : DevAddr)
  /-- A granule at a device address that its code finds uncorrectable. -/
  | bad (addr : DevAddr)
  /-- An uncorrectable word of the strand's eye space (R78). -/
  | eye (off : BitVec 26)
deriving DecidableEq, Repr

/-- An error of an array between a tile-op's first and last wave (R94): in its accumulator store, or in the control state
of its sweep, so that the affected tiles cannot be named. -/
inductive ArrayErr where
  | parity | control
deriving DecidableEq, Repr

/-- An operand of a command whose unit reads memory, with the errors that those reads meet. -/
structure Met (α : Type) where
  val : α
  found : List Found
deriving DecidableEq, Repr

/-- The array in which a tile-op's last wave passes, with the errors that its reads meet and an error of the array itself. -/
structure WaveEnd where
  array : ArrayNo
  found : List Found
  err : Option ArrayErr
deriving DecidableEq, Repr

/-- A link frame as it arrives from the lanes (R323). -/
structure Frame where
  typ : BitVec 4
  tc : BitVec 4
  vc : BitVec 2
  plen : BitVec 4
  hdim : BitVec 2
  slow : Bool
  draining : Bool
  maint : Bool
  src : DevId
  dst : DevId
  lseq : BitVec 16
  ack : BitVec 16
  tag : W32
  addr : W64
  aux : W32
  crc : W32
  payload : List Byte
deriving DecidableEq, Repr

/-- What asserts THERM_TRIP_N (R438). -/
inductive TripSource where
  | stack (s : Stack)
  | strand (s : StrandNo)
  | ioDie (d : Fin 2)
deriving DecidableEq, Repr

/-- How a device read of a host window failed (R372). -/
inductive ReadFail where
  | unsupported | completerAbort | poisoned | timeout
deriving DecidableEq, Repr

/-- A command of the module, or an event at one of its units: one constructor for each row of the opcode table, in the
table's order. -/
inductive Instr where
  -- host register accesses
  | registerWrite (off : BitVec 26) (size : Nat) (val : W64)
  | coilStageWrite (off : BitVec 26) (size : Nat) (val : W64)
  | readClear (off : BitVec 26) (size : Nat)
  | woHalfLatch (off : BitVec 26) (val : W32)
  | tbNowLowerRead
  | actViewWrite (off : BitVec 26) (size : Nat) (val : W64)
  | badMmioAccess (bar : Bar) (write : Bool) (off : BitVec 26) (size : Nat)
  | homeTableLookup (name : DevAddr)
  | irqCauseClear (val : W32)
  | irqEnableWrite (val : W32)
  | wfcRelease (val : W32)
  | haltedClear (account : Acct) (val : W32)
  | svnCommit (val : W32)
  | peerClear (device : BitVec 14) (val : W32)
  | doorbellTailWrite (line : LineNo) (val : W32)
  | completionHeadWrite (line : LineNo) (val : W32)
  | lineHitchAdd (hitch : HitchNo) (add : W32)
  | restart (line : LineNo)
  | break (line : LineNo)
  | nipRequest (alignLog2 : BitVec 5)
  | nipCapture
  -- the host port
  | hostBar4Read (off : BitVec 41) (len : Met Nat)
  | hostBar4Write (off : BitVec 41) (data : List Byte)
  | cxlMemRead (dpa : Met (BitVec 40))
  | cxlMemWrite (dpa : BitVec 40) (data : List Byte) (mask : BitVec 64)
  | msixUnmask (vector : BitVec 11)
  | flr
  | flrComplete
  | hotReset
  | portLinkDown
  | portLinkUp
  | hostReadFail (addr : DevAddr) (len : Nat) (why : ReadFail)
  | cxlDecoderCommit (commit : Bool)
  -- taking a descriptor, and the dispatch of each opcode
  | lineTake (line : LineNo)
  | brdMm (line : LineNo)
  | vecOp (line : LineNo)
  | bgtFwd (line : LineNo)
  | bgtBwd (line : LineNo)
  | move (line : LineNo)
  | alloc (line : LineNo)
  | free (line : LineNo)
  | attr (line : LineNo)
  | rowSeq (line : LineNo)
  | splUpd (line : LineNo)
  | splAcc (line : LineNo)
  | snapshot (line : LineNo)
  | allReduce (line : LineNo)
  | reduceScatter (line : LineNo)
  | allGather (line : LineNo)
  | allToAll (line : LineNo)
  | send (line : LineNo)
  | recv (line : LineNo)
  | barrier (line : LineNo)
  | verdict (line : LineNo)
  | gather (line : LineNo)
  | broadcast (line : LineNo)
  | stopper (line : LineNo)
  | stopperWaitEnd (line : LineNo)
  | hostFlushReadComplete (line : LineNo) (fail : Option ReadFail)
  | capstanFlushComplete (line : LineNo)
  | hitchWait (line : LineNo)
  | hitchWaitSatisfied (line : LineNo)
  | hitchTimeout (line : LineNo)
  | hitchSig (line : LineNo)
  | knot (line : LineNo)
  | suspend (src : CtrlSrc)
  | resume (src : CtrlSrc)
  | cancel (src : CtrlSrc)
  | resumeTakesEffect (line : LineNo) (seq : Seq)
  | loop (line : LineNo)
  | belayImmediate (src : BelaySrc)
  | belayAtBarrier (src : BelaySrc)
  | belayForce (src : BelaySrc)
  | belayCheck (src : BelaySrc)
  | revert
  | belayBarrierReady
  | belayEngineTake
  | belayDrainEnd
  | belayDrainBudgetExpiry
  | belayPoint
  | quiesceBudgetExpiry
  | operationRetire (line : LineNo) (seq : Seq)
  | operationFailure (line : LineNo) (seq : Seq)
  | safePointSuspend (line : LineNo) (seq : Seq)
  | requestAged (line : LineNo) (seq : Seq)
  -- braid arrays, vector engine, bight unit
  | sweepIssue (strand : StrandNo)
  | tileOpReady (strand : StrandNo) (array : ArrayNo) (found : List Found)
  | firstWave (strand : StrandNo) (array : ArrayNo)
  | lastWave (strand : StrandNo) (array : WaveEnd)
  | tileDrain (strand : StrandNo) (array : ArrayNo)
  | tileOpRetire (strand : StrandNo) (array : ArrayNo)
  | directReadFallback (line : LineNo) (seq : Seq)
  | vecGroup (strand : Met StrandNo)
  | bgtTileIssue (strand : Met StrandNo)
  | pageWaitDeadline (strand : StrandNo) (array : ArrayNo)
  | bightPrefetch (line : LineNo) (seq : Seq)
  -- tiers and moves
  | blockMoveStart (found : List Found)
  | blockMoveRetire (name : DevAddr)
  | frameRelease (tier : Tier) (frame : BitVec 24)
  | allocFillDone (name : DevAddr)
  | eviction (tier : Tier)
  | reserveRefill (tier : Tier)
  | demandMove (line : LineNo) (seq : Seq) (name : DevAddr)
  | landingMove (line : LineNo) (seq : Seq) (name : DevAddr)
  | landingMerge (name : DevAddr)
  | splChunk (chan : Met (BitVec 10))
  -- the fid path
  | fidRead (strand : StrandNo) (account : Acct) (addr : DevAddr) (err : EccErr)
  | fidWrite (strand : StrandNo) (account : Acct) (addr : DevAddr) (data : BitVec 256) (mask : BitVec 32)
  | fidAddI32 (strand : StrandNo) (account : Acct) (addr : DevAddr) (data : BitVec 256) (lanes : BitVec 8)
  | fidAddW32 (strand : StrandNo) (account : Acct) (addr : DevAddr) (data : BitVec 256) (lanes : BitVec 8)
  | fidMaxW32 (strand : StrandNo) (account : Acct) (addr : DevAddr) (data : BitVec 256) (lanes : BitVec 8)
  | fidOr (strand : StrandNo) (account : Acct) (addr : DevAddr) (data : BitVec 256) (lanes : BitVec 8)
  -- row logic
  | atomStart (chan : BitVec 10) (bank : BankNo)
  | atomEnd (chan : BitVec 10) (bank : BankNo)
  | parityRecompute (chan : BitVec 10) (bank : BankNo)
  | rowZero (chan : BitVec 10) (bank : BankNo)
  | rowOnes (chan : BitVec 10) (bank : BankNo)
  | rowCopy (chan : BitVec 10) (bank : BankNo)
  | rowNot (chan : BitVec 10) (bank : BankNo)
  | rowAnd (chan : BitVec 10) (bank : BankNo)
  | rowOr (chan : BitVec 10) (bank : BankNo)
  | rowXor (chan : BitVec 10) (bank : BankNo)
  | maj3 (chan : BitVec 10) (bank : BankNo)
  -- micro-ops of the vector engines and splicers: destination register and sources as their words encode them
  | mov (e : Engine) (dst : BitVec 4) (a : BitVec 5)
  | add (e : Engine) (dst : BitVec 4) (a b : BitVec 5)
  | sub (e : Engine) (dst : BitVec 4) (a b : BitVec 5)
  | mul (e : Engine) (dst : BitVec 4) (a b : BitVec 5)
  | fma (e : Engine) (dst : BitVec 4) (a b c : BitVec 5)
  | max (e : Engine) (dst : BitVec 4) (a b : BitVec 5)
  | min (e : Engine) (dst : BitVec 4) (a b : BitVec 5)
  | abs (e : Engine) (dst : BitVec 4) (a : BitVec 5)
  | neg (e : Engine) (dst : BitVec 4) (a : BitVec 5)
  | cmplt (e : Engine) (dst : BitVec 4) (a b : BitVec 5)
  | cmpeq (e : Engine) (dst : BitVec 4) (a b : BitVec 5)
  | sel (e : Engine) (dst : BitVec 4) (a b c : BitVec 5)
  | exp2 (e : Engine) (dst : BitVec 4) (a : BitVec 5)
  | log2 (e : Engine) (dst : BitVec 4) (a : BitVec 5)
  | rcp (e : Engine) (dst : BitVec 4) (a : BitVec 5)
  | div (e : Engine) (dst : BitVec 4) (a b : BitVec 5)
  | sqrt (e : Engine) (dst : BitVec 4) (a : BitVec 5)
  | rsqrt (e : Engine) (dst : BitVec 4) (a : BitVec 5)
  | tanh (e : Engine) (dst : BitVec 4) (a : BitVec 5)
  | erf (e : Engine) (dst : BitVec 4) (a : BitVec 5)
  | iadd (strand : StrandNo) (dst : BitVec 3) (a b : BitVec 4)
  | isub (strand : StrandNo) (dst : BitVec 3) (a b : BitVec 4)
  | imul (strand : StrandNo) (dst : BitVec 3) (a b : BitVec 4)
  | iand (strand : StrandNo) (dst : BitVec 3) (a b : BitVec 4)
  | ior (strand : StrandNo) (dst : BitVec 3) (a b : BitVec 4)
  | ixor (strand : StrandNo) (dst : BitVec 3) (a b : BitVec 4)
  | ishl (strand : StrandNo) (dst : BitVec 3) (a b : BitVec 4)
  | ishr (strand : StrandNo) (dst : BitVec 3) (a b : BitVec 4)
  | cvtif (strand : StrandNo) (dst : BitVec 3) (a : BitVec 4)
  | cvtfi (strand : StrandNo) (dst : BitVec 3) (a : BitVec 4)
  | ld (chan : BitVec 10) (dst : BitVec 4) (str : Fin 8)
  | st (chan : BitVec 10) (a : BitVec 5) (str : Fin 8)
  | stsr (chan : BitVec 10) (dst : BitVec 4) (a b c : BitVec 5)
  -- channels, scrub, refresh, temperature
  | repairTimeout (name : DevAddr)
  | scrubRead (stack : Stack) (chan : BitVec 7) (granule : BitVec 25) (err : EccErr)
  | rawParityScrub (slot : Fin 16) (chan : BitVec 10) (bank : BankNo) (group : Fin 8)
  | refreshDue (stack : Stack) (chan : BitVec 7) (bank : BankNo)
  | refresh (stack : Stack) (chan : BitVec 7) (bank : BankNo)
  | stackTempReport (stack : Stack) (temp : BitVec 8)
  | sensorTimeout (stack : Stack)
  | slowHoldEnd
  -- governor and timebase
  | governorSample (watts : BitVec 12) (tj : List (BitVec 7))
  | slowRaise
  | slowClear
  | syncPeriod
  | syncReq (link : LinkNo) (f : Frame) (t2 t3 : BitVec 4)
  | syncRsp (link : LinkNo) (f : Frame) (t4 : BitVec 4)
  | tbCopyReload
  | refclkFail
  -- links and the capstan
  | linkTrainingAttempt (link : LinkNo)
  | hello (link : LinkNo) (f : Frame)
  | tugIdleTimer (link : LinkNo)
  | tug (link : LinkNo) (f : Frame)
  | slip (link : LinkNo) (f : Frame)
  | credit (link : LinkNo) (f : Frame)
  | nak (link : LinkNo) (f : Frame)
  | replayTimeout (link : LinkNo)
  | linkSilenceTimeout (link : LinkNo)
  | lossOfSignal (link : LinkNo)
  | notice (link : LinkNo) (f : Frame)
  | repairReq (link : LinkNo) (f : Frame)
  | repairRsp (link : LinkNo) (f : Frame)
  | coll (link : LinkNo) (f : Frame)
  | collSignature (link : LinkNo) (f : Frame)
  | collClear (link : LinkNo) (f : Frame)
  | collAbort (link : LinkNo) (f : Frame)
  | collAck (link : LinkNo) (f : Frame)
  | collectiveTimeout (line : LineNo) (seq : Seq)
  | put (link : LinkNo) (f : Frame)
  | putAck (link : LinkNo) (f : Frame)
  | flush (link : LinkNo) (f : Frame)
  | flushAck (link : LinkNo) (f : Frame)
  | wfcScan
  | summaryPass
  -- power, reset and boot
  | standbyPowerUp (mv : Nat)
  | standbyPowerLoss (mv : Nat)
  | powerUp
  | shutdown
  | inputFault (mv : Nat)
  | inputRecovery (mv : Nat)
  | perstNAssert
  | warmReset
  | bootStart (modId : BitVec 5)
  | stackTrainingDone (tier : Tier) (failedOnce failedTwice : List Stack)
  | linksPhaseEnd
  | thermalTrip (source : TripSource)
  | tripRelease (cool : Bool)
  | mctpMessage (body : List Byte)
  | pldmFirmwareUpdate (image : List Byte)
  | pldmEventRead
  | fecUncorrectableCodeword (link : LinkNo)
  | linkTrainingEnd (link : LinkNo) (ok : Bool)
  | snapshotBlockRead (line : LineNo) (seq : Seq) (block : Met Nat)
deriving DecidableEq, Repr

end Sys2Proof
end

