-- ==== Sys2Proof/Decode.lean ====
section
/-! DEFINITION. Decoding of command words. spec/opcode_table.json gives no row any bits: a command reaches the module
as an event or an access, never as a word, so no word spells a command. -/

set_option Elab.async false

namespace Sys2Proof

/-- The command that a word of `nbits` bits spells by the opcode table's bits: none, because no row has bits. -/
def decodeTableWord (_nbits _w : Nat) : Option Instr := none

end Sys2Proof
end

