-- ==== Sys2Proof/Machine/Maps.lean ====
section
/-! DEFINITION. Sparse maps from numbers in canonical form, and little-endian bytes (R2). -/

set_option Elab.async false

namespace Sys2Proof.Machine

open Sys2Proof

/-- The entry of key `k`, if the map lists one. -/
def mapFind {V : Type} : SMap V → Nat → Option V
  | [], _ => none
  | (j, v) :: m, k => if j = k then some v else mapFind m k

/-- The value of key `k`; `d` is the value of every absent key. -/
def mapGet {V : Type} (d : V) (m : SMap V) (k : Nat) : V := (mapFind m k).getD d

/-- The map with key `k` bound to `v`; keys stay strictly rising. -/
def mapIns {V : Type} : SMap V → Nat → V → SMap V
  | [], k, v => [(k, v)]
  | (j, w) :: m, k, v =>
    if j < k then (j, w) :: mapIns m k v else if j = k then (k, v) :: m else (k, v) :: (j, w) :: m

/-- The map with key `k` bound to a value, or absent for none. -/
def mapUpd {V : Type} (m : SMap V) (k : Nat) (ov : Option V) : SMap V :=
  match ov with
  | some v => mapIns m k v
  | none => m.filter (fun p => p.1 != k)

/-- The map with the value of key `k` set to `v`; the default value leaves the list. -/
def mapSet {V : Type} [DecidableEq V] (d : V) (m : SMap V) (k : Nat) (v : V) : SMap V :=
  mapUpd m k (if v = d then none else some v)

/-- The map with the value of key `k` changed by `f`. -/
def mapMod {V : Type} [DecidableEq V] (d : V) (m : SMap V) (k : Nat) (f : V → V) : SMap V :=
  mapSet d m k (f (mapGet d m k))

/-- The canonical form: keys strictly rising and no entry equal to the default. -/
def mapWf {V : Type} [DecidableEq V] (d : V) (m : SMap V) : Bool :=
  (m.map Prod.fst).Pairwise (· < ·) && m.all (fun p => p.2 != d)

/-- A number as `n` bytes, least significant first. -/
def bytesOf : Nat → Nat → List Byte
  | 0, _ => []
  | n + 1, v => BitVec.ofNat 8 v :: bytesOf n (v / 256)

/-- The number that little-endian bytes spell. -/
def natOfBytes : List Byte → Nat
  | [] => 0
  | b :: bs => b.toNat + 256 * natOfBytes bs

/-- Bits [hi:lo] of a number. -/
def bitsAt (v hi lo : Nat) : Nat := v >>> lo % 2 ^ (hi + 1 - lo)

/-- `v` in place of the bits [lo + w − 1 : lo] of `x`. -/
def withBits (x lo w v : Nat) : Nat :=
  x % 2 ^ lo + (v % 2 ^ w) * 2 ^ lo + (x >>> (lo + w)) * 2 ^ (lo + w)

/-- A saturating increment. -/
def satAdd (top x n : Nat) : Nat := min top (x + n)

/-- Pads with zeros or cuts to `n` bytes. -/
def fitBytes (n : Nat) (bs : List Byte) : List Byte := bs.take n ++ List.replicate (n - bs.length) 0

/-- The integer ceiling of a / b. -/
def ceilDiv (a b : Nat) : Nat := (a + b - 1) / b

end Sys2Proof.Machine
end

