-- ==== Sys2Proof/Machine/Crc.lean ====
section
/-! DEFINITION. CRC-32C, the check of link frames (R323) and of image sections (R376): the Castagnoli polynomial, bits
reflected, initial and final complement. The spec names CRC-32C and leaves its definition to that name. -/

set_option Elab.async false

namespace Sys2Proof.Machine

open Sys2Proof

/-- One bit of the reflected division. -/
def crcBit (c : W32) : W32 := if c.getLsbD 0 then (c >>> 1) ^^^ 0x82F63B78 else c >>> 1

/-- One byte taken into the running remainder. -/
def crcByte (c : W32) (b : Byte) : W32 :=
  let x := c ^^^ b.setWidth 32
  crcBit (crcBit (crcBit (crcBit (crcBit (crcBit (crcBit (crcBit x)))))))

/-- CRC-32C of a run of bytes. -/
def crc32c (bs : List Byte) : W32 := ~~~(bs.foldl crcByte 0xFFFFFFFF)

end Sys2Proof.Machine
end

