-- ==== Sys2Proof/Config.lean ====
section
/-! DEFINITION. The values the spec leaves open, as constants with no body: nothing can be proved of what they answer.
Each is applied to the model's own draw counter (`State.free`) or to the operands it depends on. -/

set_option Elab.async false

namespace Sys2Proof

/-- Where the search for a free frame begins (R165: which free frame a block takes is not specified). -/
opaque Config.frameChoice : Nat → Nat

/-- The place in an order that the spec leaves open, by draw and by step of the draw (which free array a tile-op takes,
and in what order the tile-ops of one sweep issue: R80, R81). -/
opaque Config.orderChoice : Nat → Nat → Nat

/-- Whether the tile-op that passes waves through an array has entered its last k-block, by draw and array (R83). -/
opaque Config.lastBlock : Nat → Nat → Bool

/-- The bank of a kern channel that holds a channel-local address, modulo 32: the spec gives no layout (log entry 116). -/
opaque Config.kernBank : Nat → Nat

/-- Whether a posted write of a splicer or of row logic has reached a module reader of the granule (R290, R291). -/
opaque Config.postedLanded : Nat → Nat → Bool

/-- Whether the host's read-ahead buffer still holds a 64 B line that it took in (R301), by draw and frame address. -/
opaque Config.staleSeen : Nat → Nat → Bool

/-- How many lines the read-ahead buffer takes in behind a read (R301), by draw. -/
opaque Config.readAhead : Nat → Nat

/-- Whether a write to a granule that a posted write also covers is the one whose bytes remain (R290). -/
opaque Config.writeStays : Nat → Nat → Bool

/-- A byte of an output that an operation's end leaves undefined, by draw and place (R345). -/
opaque Config.freeByte : Nat → Nat → Byte

/-- What a strand's silicon runs at above its floor, by strand, core voltage in mV and junction temperature in °C (R30). -/
opaque Config.waveRate : Nat → Nat → Nat → Nat

/-- Occurrences of an event, in one nanosecond, whose number no command determines: by draw and event (log entry 27). -/
opaque Config.traffic : Nat → Nat → Nat

/-- How far the timebase copy of I/O die 1 drifts in one nanosecond, by draw (R38). -/
opaque Config.copyDrift : Nat → Int

/-- Any other value that the spec leaves open, by draw. -/
opaque Config.freeWord : Nat → W64

end Sys2Proof
end

