-- ==== Sys2Proof/Machine/Flags.lean ====
section
/-! DEFINITION. The arithmetic flag byte (R11) and the status codes (R8) with their ranking. -/

set_option Elab.async false

namespace Sys2Proof.Machine

open Sys2Proof

/-- INV, bit 0 of the flag byte (R11). -/
def flagInv : Byte := 0x01
/-- NAN_IN, bit 1. -/
def flagNanIn : Byte := 0x02
/-- INF_IN, bit 2. -/
def flagInfIn : Byte := 0x04
/-- SAT, bit 3. -/
def flagSat : Byte := 0x08
/-- UFL, bit 4. -/
def flagUfl : Byte := 0x10
/-- DIVZ, bit 5. -/
def flagDivz : Byte := 0x20
/-- SKIPPED, bit 6. -/
def flagSkipped : Byte := 0x40

/-- A flag when its condition holds. -/
def flagIf (c : Bool) (f : Byte) : Byte := if c then f else 0

/-- The OR of flag bytes (R11: lanes into the tile byte, tile bytes into the completion byte). -/
def flagsOr (fs : List Byte) : Byte := fs.foldl (· ||| ·) 0

/-- Flag `f` is set in `b`. -/
def hasFlag (b f : Byte) : Bool := b &&& f != 0

-- Status codes (R8).
def stOk : Nat := 0x00
def stOkFallback : Nat := 0x01
def stOkSkipped : Nat := 0x02
def stSuspended : Nat := 0x03
def stCancelled : Nat := 0x10
def stCancelledDisable : Nat := 0x11
def stCancelledPeer : Nat := 0x12
def stAlreadyDone : Nat := 0x13
def stFmtMismatch : Nat := 0x20
def stDescInvalid : Nat := 0x21
def stCapAbsent : Nat := 0x22
def stFuncDisabled : Nat := 0x23
def stQuotaExceeded : Nat := 0x30
def stChafed : Nat := 0x40
def stUncorrectable : Nat := 0x41
def stPeerLost : Nat := 0x50
def stCollectiveTimeout : Nat := 0x51
def stHitchTimeout : Nat := 0x52
def stNotAtomicNow : Nat := 0x60
def stCoilInconsistent : Nat := 0x61
def stImageInvalid : Nat := 0x62

end Sys2Proof.Machine
end

