-- ==== Sys2Proof/Machine/Regs.lean ====
section
/-! DEFINITION. The catalog of CW registers (R4, R5, R377, R418, R428): where each lies, which bits are CW fields, the
image default of each field and the image section that may write it; and the accessors of their fields. -/

set_option Elab.async false

namespace Sys2Proof.Machine

open Sys2Proof

/-- A family of CW registers: instance i lies at base + stride × i and is `width` bytes wide. `mask` has the bits of the
CW fields, `dflt` their image defaults (R378), `sect` the section type of R377. -/
structure CwReg where
  name : String
  base : Nat
  stride : Nat
  count : Nat
  mask : Nat
  dflt : Nat
  sect : Nat
  width : Nat
deriving DecidableEq, Repr

/-- CW registers, part 1 of the register index (R428). -/
def cwRegs1 : List CwReg := [
  { name := "CFG_UNIT_EN", base := 0x14, stride := 4, count := 1, mask := 0x7F, dflt := 0x0, sect := 0xA, width := 4 },
  { name := "CFG_BELAY_CFG", base := 0x208, stride := 8, count := 1, mask := 0xFFFFF000FFFFF, dflt := 0x2710000000C8, sect := 0x9, width := 8 },
  { name := "CFG_BELAY_PERM", base := 0x220, stride := 4, count := 8, mask := 0xFFFFFFFF, dflt := 0x0, sect := 0x2, width := 4 },
  { name := "LINE_CFG word 0", base := 0x200000, stride := 16, count := 65536, mask := 0xFFFFFFFFFFFFFFFF, dflt := 0x0, sect := 0x2, width := 8 },
  { name := "LINE_CFG word 1", base := 0x200008, stride := 16, count := 65536, mask := 0x1FFFFFFFFFFFFFF, dflt := 0x0, sect := 0x2, width := 8 },
  { name := "LINE_PAGE_ACCT", base := 0x380000, stride := 4, count := 256, mask := 0xFF, dflt := 0x0, sect := 0x2, width := 4 },
  { name := "LINE_HITCH_GRP", base := 0x380400, stride := 4, count := 256, mask := 0x1FFFF, dflt := 0x0, sect := 0x2, width := 4 },
  { name := "LINE_CTX_POOL", base := 0x380800, stride := 8, count := 1, mask := 0xFFFFFFFFFFFF, dflt := 0x0, sect := 0x2, width := 8 },
  { name := "LINE_ARB_CFG", base := 0x381000, stride := 4, count := 1, mask := 0x1FFFF, dflt := 0x7D0, sect := 0x3, width := 4 },
  { name := "LINE_ARB_WEIGHT", base := 0x381400, stride := 4, count := 256, mask := 0xFF, dflt := 0x1, sect := 0x3, width := 4 },
  { name := "LINE_WFC_CFG", base := 0x381800, stride := 4, count := 1, mask := 0x1FFFF, dflt := 0xA, sect := 0x3, width := 4 },
  { name := "BRD_EYE_WIN", base := 0x401000, stride := 4, count := 1024, mask := 0x7FF03FF, dflt := 0x0, sect := 0x2, width := 4 },
  { name := "VEC_CENSUS_CFG", base := 0x601000, stride := 8, count := 256, mask := 0x1F0FFFFFFFFFFFF, dflt := 0x0, sect := 0x2, width := 8 },
  { name := "BGT_PORT_LIMIT", base := 0x700100, stride := 4, count := 4, mask := 0x1F, dflt := 0x10, sect := 0xA, width := 4 },
  { name := "TIER_CLEAT tier 0", base := 0x801000, stride := 32, count := 256, mask := 0x1FFFFFF01FFFFFF, dflt := 0x0, sect := 0x3, width := 8 },
  { name := "TIER_CLEAT tier 1", base := 0x801008, stride := 32, count := 256, mask := 0x1FFFFFF01FFFFFF, dflt := 0x0, sect := 0x3, width := 8 },
  { name := "TIER_CLEAT tier 2", base := 0x801010, stride := 32, count := 256, mask := 0x1FFFFFF01FFFFFF, dflt := 0x0, sect := 0x3, width := 8 },
  { name := "TIER_HOST_RGN word 0", base := 0x805000, stride := 16, count := 64, mask := 0xFFFFFFFFFFFF, dflt := 0x0, sect := 0x2, width := 8 }]

/-- CW registers, part 2 of the register index (R428). -/
def cwRegs2 : List CwReg := [
  { name := "TIER_HOST_RGN word 1", base := 0x805008, stride := 16, count := 64, mask := 0x1FFFFFF, dflt := 0x0, sect := 0x2, width := 8 },
  { name := "TIER_ERR_POLICY", base := 0x806000, stride := 4, count := 256, mask := 0xFF1F, dflt := 0x1400, sect := 0x3, width := 4 },
  { name := "MNT_THERM_CFG", base := 0xB01000, stride := 4, count := 1, mask := 0xF7F7F, dflt := 0x3695F, sect := 0x8, width := 4 },
  { name := "MNT_FID_CFG", base := 0xB01004, stride := 4, count := 1, mask := 0x3, dflt := 0x1, sect := 0x8, width := 4 },
  { name := "MNT_SCRUB_CFG", base := 0xB01008, stride := 4, count := 1, mask := 0xFF, dflt := 0x18, sect := 0x8, width := 4 },
  { name := "MNT_RAW_PARITY", base := 0xB01100, stride := 4, count := 1, mask := 0x1FF, dflt := 0x0, sect := 0x2, width := 4 },
  { name := "MNT_RAW_SLOT", base := 0xB01110, stride := 4, count := 16, mask := 0x1FFFF, dflt := 0x0, sect := 0x2, width := 4 },
  { name := "SPL_ARENA", base := 0xC01100, stride := 4, count := 16, mask := 0x3FFFFFF, dflt := 0x0, sect := 0x2, width := 4 },
  { name := "TRN_LAND_CFG", base := 0xE00000, stride := 4, count := 1, mask := 0x1FF, dflt := 0x0, sect := 0x2, width := 4 },
  { name := "LNK_CTL", base := 0x1000004, stride := 4, count := 1, mask := 0xFF1, dflt := 0x110, sect := 0x4, width := 4 },
  { name := "LNK_TB_CFG", base := 0x100000C, stride := 4, count := 1, mask := 0x7FFF, dflt := 0x0, sect := 0x4, width := 4 },
  { name := "LNK_LINK_CFG", base := 0x1000100, stride := 4, count := 24, mask := 0x1F, dflt := 0x0, sect := 0x4, width := 4 },
  { name := "LNK_PORT_CFG", base := 0x1000400, stride := 4, count := 12, mask := 0x3FFFF, dflt := 0x0, sect := 0x4, width := 4 },
  { name := "LNK_AXIS_CFG word 0", base := 0x1000500, stride := 16, count := 8, mask := 0xFFFFFFFFFF7FFF, dflt := 0x0, sect := 0x5, width := 8 },
  { name := "LNK_AXIS_CFG word 1", base := 0x1000508, stride := 16, count := 8, mask := 0x1FFFFFFFF7FFFFF, dflt := 0x400000, sect := 0x5, width := 8 },
  { name := "LNK_RX_WIN word 0", base := 0x1000600, stride := 16, count := 4, mask := 0xFFFFFFFFFFFF, dflt := 0x0, sect := 0x4, width := 8 },
  { name := "LNK_RX_WIN word 1", base := 0x1000608, stride := 16, count := 4, mask := 0xFFFFFFFFFFFFF, dflt := 0x0, sect := 0x4, width := 8 },
  { name := "LNK_ROUTE", base := 0x1010000, stride := 4, count := 4096, mask := 0xFFFFFFFF, dflt := 0x0, sect := 0x4, width := 4 }]

/-- CW registers, part 3 of the register index (R428). -/
def cwRegs3 : List CwReg := [
  { name := "LNK_AXIS_MEMBER", base := 0x1040000, stride := 4, count := 65536, mask := 0x3FFF3FFF, dflt := 0x0, sect := 0x5, width := 4 },
  { name := "HST_MSIX_CFG", base := 0x1400010, stride := 4, count := 1, mask := 0x7FF, dflt := 0x0, sect := 0xB, width := 4 },
  { name := "HST_CXLM_CFG", base := 0x1400020, stride := 4, count := 1, mask := 0x3FFFFFF, dflt := 0x0, sect := 0xB, width := 4 },
  { name := "HST_XLAT", base := 0x1400100, stride := 8, count := 16, mask := 0xFFFFFFFFFFFFF001, dflt := 0x0, sect := 0xB, width := 8 },
  { name := "PMU_FILT", base := 0x1601000, stride := 8, count := 1, mask := 0x1FFFFFF, dflt := 0x0, sect := 0x7, width := 8 },
  { name := "PMU_ADDR_RANGE word 0", base := 0x1601010, stride := 16, count := 4, mask := 0xFFFFFFFF0000, dflt := 0x0, sect := 0x7, width := 8 },
  { name := "PMU_ADDR_RANGE word 1", base := 0x1601018, stride := 16, count := 4, mask := 0xFFFFFFFF0000, dflt := 0x0, sect := 0x7, width := 8 },
  { name := "PMU_BLK_CTL", base := 0x1602000, stride := 8, count := 160, mask := 0x7FFFFFFFF, dflt := 0x0, sect := 0x7, width := 8 },
  { name := "PMU_SUM_CFG", base := 0x1604000, stride := 8, count := 1, mask := 0xFFF0FFFFFFFFFFFF, dflt := 0x0, sect := 0x7, width := 8 },
  { name := "PMU_SAMPLE_CFG", base := 0x1607000, stride := 8, count := 1, mask := 0xFFFFFFFF00003FFF, dflt := 0x0, sect := 0x7, width := 8 },
  { name := "PMU_SAMPLE_RING", base := 0x1607008, stride := 8, count := 1, mask := 0x1FFFFFFFFFFFFF, dflt := 0x0, sect := 0x7, width := 8 },
  { name := "PMU_KNOT_CFG", base := 0x1607100, stride := 8, count := 1, mask := 0x1FFFFFFFFFFFFF, dflt := 0x0, sect := 0x7, width := 8 },
  { name := "PMU_USER_PERM", base := 0x1607200, stride := 4, count := 8, mask := 0xFFFFFFFF, dflt := 0x0, sect := 0x7, width := 4 },
  { name := "PMU_CENSUS_TAB", base := 0x1608000, stride := 8, count := 256, mask := 0x1FFFFFFFFFFFFF, dflt := 0x0, sect := 0x7, width := 8 },
  { name := "PWR_LIMIT", base := 0x1800000, stride := 4, count := 1, mask := 0x3FF0FFF, dflt := 0x2EE07D0, sect := 0x9, width := 4 },
  { name := "PWR_THRESH", base := 0x1800004, stride := 4, count := 1, mask := 0x7F03FF, dflt := 0x6402BC, sect := 0x9, width := 4 }]

/-- Every CW register of the module. -/
def cwRegs : List CwReg := cwRegs1 ++ cwRegs2 ++ cwRegs3

/-- The register holds the 4-byte word at `off`. -/
def CwReg.holds (r : CwReg) (off : Nat) : Bool :=
  r.base ≤ off && (off - r.base) / r.stride < r.count && (off - r.base) % r.stride < r.width

/-- The CW register that holds the word at BAR0 offset `off`. -/
def cwAt (off : Nat) : Option CwReg := cwRegs.find? (fun r => r.holds off)

/-- The part of a register's 64-bit pattern that lies in the word at `off`. -/
def CwReg.wordOf (r : CwReg) (off pattern : Nat) : W32 :=
  BitVec.ofNat 32 (pattern >>> (8 * (((off - r.base) % r.stride) / 4 * 4)))

/-- The CW bits of the word at `off` (R427: zero where it holds none). -/
def cwMask (off : Nat) : W32 :=
  match cwAt off with
  | some r => r.wordOf off r.mask
  | none => 0

/-- The value that the CW fields of the word at `off` take when no image entry writes them (R378). -/
def cwDefault (off : Nat) : W32 :=
  match cwAt off with
  | some r => r.wordOf off r.dflt
  | none => 0

/-- The word at `off` in a sparse word map whose absent words hold their image defaults. -/
def cwGet (m : SMap W32) (off : Nat) : W32 :=
  (mapFind m off).getD (cwDefault off)

/-- The map with the word at `off` set; a word at its image default leaves the list. -/
def cwSet (m : SMap W32) (off : Nat) (w : W32) : SMap W32 :=
  mapUpd m off (if w = cwDefault off then none else some w)

/-- The 64 bits at `off`. -/
def cwGet64 (m : SMap W32) (off : Nat) : Nat := (cwGet m off).toNat + ((cwGet m (off + 4)).toNat <<< 32)

/-- A field of a register family: instance i's bits [lo + width − 1 : lo] at base + stride × i. -/
structure Fld where
  base : Nat
  stride : Nat
  lo : Nat
  width : Nat
deriving DecidableEq, Repr

/-- The value of field `f` of instance `i` in a word map. -/
def Fld.get (f : Fld) (m : SMap W32) (i : Nat) : Nat :=
  if f.lo + f.width ≤ 32 then (cwGet m (f.base + f.stride * i)).toNat >>> f.lo % 2 ^ f.width
  else cwGet64 m (f.base + f.stride * i) >>> f.lo % 2 ^ f.width

/-- The offset of the word that begins field `f` of instance `i`, at its register's offset. -/
def Fld.off (f : Fld) (i : Nat) : Nat := f.base + f.stride * i

def flUnitEn : Fld := { base := 0x14, stride := 0, lo := 0, width := 7 }
def flQuiesceUs : Fld := { base := 0x208, stride := 0, lo := 0, width := 20 }
def flDrainUs : Fld := { base := 0x208, stride := 0, lo := 32, width := 20 }
def flBelayPerm : Fld := { base := 0x220, stride := 4, lo := 0, width := 32 }
def flRingBase : Fld := { base := 0x200000, stride := 16, lo := 0, width := 36 }
def flRingLog2 : Fld := { base := 0x200000, stride := 16, lo := 36, width := 5 }
def flLineStrand : Fld := { base := 0x200000, stride := 16, lo := 41, width := 2 }
def flLineVector : Fld := { base := 0x200000, stride := 16, lo := 43, width := 11 }
def flClassMax : Fld := { base := 0x200000, stride := 16, lo := 54, width := 3 }
def flStopMask : Fld := { base := 0x200000, stride := 16, lo := 57, width := 6 }
def flLineEn : Fld := { base := 0x200000, stride := 16, lo := 63, width := 1 }
def flCqBase : Fld := { base := 0x200008, stride := 16, lo := 0, width := 36 }
def flCqLog2 : Fld := { base := 0x200008, stride := 16, lo := 36, width := 5 }
def flCtxIdx : Fld := { base := 0x200008, stride := 16, lo := 41, width := 16 }
def flPageAcct : Fld := { base := 0x380000, stride := 4, lo := 0, width := 8 }
def flGrpOwner : Fld := { base := 0x380400, stride := 4, lo := 0, width := 8 }
def flGrpPeer : Fld := { base := 0x380400, stride := 4, lo := 8, width := 8 }
def flGrpPeerEn : Fld := { base := 0x380400, stride := 4, lo := 16, width := 1 }
def flCtxBase : Fld := { base := 0x380800, stride := 0, lo := 0, width := 32 }
def flCtxCount : Fld := { base := 0x380800, stride := 0, lo := 32, width := 16 }
def flAgeUs : Fld := { base := 0x381000, stride := 0, lo := 0, width := 17 }
def flArbWeight : Fld := { base := 0x381400, stride := 4, lo := 0, width := 8 }
def flWfcMs : Fld := { base := 0x381800, stride := 0, lo := 0, width := 16 }
def flWfcEn : Fld := { base := 0x381800, stride := 0, lo := 16, width := 1 }
def flEyeBase : Fld := { base := 0x401000, stride := 4, lo := 0, width := 10 }
def flEyeSize : Fld := { base := 0x401000, stride := 4, lo := 16, width := 11 }
def flCensusBase : Fld := { base := 0x601000, stride := 8, lo := 0, width := 48 }
def flCensusLog2 : Fld := { base := 0x601000, stride := 8, lo := 52, width := 5 }
def flMaxArrays : Fld := { base := 0x700100, stride := 4, lo := 0, width := 5 }
def flCleatSoftK : Fld := { base := 0x801000, stride := 32, lo := 0, width := 25 }
def flCleatHardK : Fld := { base := 0x801000, stride := 32, lo := 32, width := 25 }
def flCleatSoftM : Fld := { base := 0x801008, stride := 32, lo := 0, width := 25 }
def flCleatHardM : Fld := { base := 0x801008, stride := 32, lo := 32, width := 25 }
def flCleatSoftH : Fld := { base := 0x801010, stride := 32, lo := 0, width := 25 }
def flCleatHardH : Fld := { base := 0x801010, stride := 32, lo := 32, width := 25 }
def flRgnBase : Fld := { base := 0x805000, stride := 16, lo := 0, width := 48 }
def flRgnBlocks : Fld := { base := 0x805008, stride := 16, lo := 0, width := 25 }
def flErrPolicy : Fld := { base := 0x806000, stride := 4, lo := 0, width := 2 }
def flRepairAxis : Fld := { base := 0x806000, stride := 4, lo := 2, width := 3 }
def flRepairWaitUs : Fld := { base := 0x806000, stride := 4, lo := 8, width := 8 }
def flTThrottle : Fld := { base := 0xB01000, stride := 0, lo := 0, width := 7 }
def flTCrit : Fld := { base := 0xB01000, stride := 0, lo := 8, width := 7 }
def flTHyst : Fld := { base := 0xB01000, stride := 0, lo := 16, width := 4 }
def flFidShare : Fld := { base := 0xB01004, stride := 0, lo := 0, width := 2 }
def flPassHours : Fld := { base := 0xB01008, stride := 0, lo := 0, width := 8 }
def flRawParSlab : Fld := { base := 0xB01100, stride := 0, lo := 0, width := 8 }
def flRawParValid : Fld := { base := 0xB01100, stride := 0, lo := 8, width := 1 }
def flRawSlab : Fld := { base := 0xB01110, stride := 4, lo := 0, width := 8 }
def flRawAcct : Fld := { base := 0xB01110, stride := 4, lo := 8, width := 8 }
def flRawValid : Fld := { base := 0xB01110, stride := 4, lo := 16, width := 1 }
def flArenaFirst : Fld := { base := 0xC01100, stride := 4, lo := 0, width := 8 }
def flArenaSlabs : Fld := { base := 0xC01100, stride := 4, lo := 8, width := 9 }
def flArenaAcct : Fld := { base := 0xC01100, stride := 4, lo := 17, width := 8 }
def flArenaValid : Fld := { base := 0xC01100, stride := 4, lo := 25, width := 1 }
def flLandSlab : Fld := { base := 0xE00000, stride := 0, lo := 0, width := 8 }
def flLandValid : Fld := { base := 0xE00000, stride := 0, lo := 8, width := 1 }
def flMaint : Fld := { base := 0x1000004, stride := 0, lo := 0, width := 1 }
def flCollWeight : Fld := { base := 0x1000004, stride := 0, lo := 4, width := 4 }
def flDataWeight : Fld := { base := 0x1000004, stride := 0, lo := 8, width := 4 }
def flTbParent : Fld := { base := 0x100000C, stride := 0, lo := 0, width := 4 }
def flTbAlt : Fld := { base := 0x100000C, stride := 0, lo := 4, width := 4 }
def flTbDepth : Fld := { base := 0x100000C, stride := 0, lo := 8, width := 6 }
def flTbRoot : Fld := { base := 0x100000C, stride := 0, lo := 14, width := 1 }
def flLinkPort : Fld := { base := 0x1000100, stride := 4, lo := 0, width := 4 }
def flLinkEn : Fld := { base := 0x1000100, stride := 4, lo := 4, width := 1 }
def flPortNbr : Fld := { base := 0x1000400, stride := 4, lo := 0, width := 14 }
def flPortAny : Fld := { base := 0x1000400, stride := 4, lo := 14, width := 1 }
def flPortDim : Fld := { base := 0x1000400, stride := 4, lo := 15, width := 2 }
def flPortDate : Fld := { base := 0x1000400, stride := 4, lo := 17, width := 1 }
def flAxSize : Fld := { base := 0x1000500, stride := 16, lo := 0, width := 15 }
def flAxRank : Fld := { base := 0x1000500, stride := 16, lo := 16, width := 14 }
def flAxAlgo : Fld := { base := 0x1000500, stride := 16, lo := 30, width := 2 }
def flAxLinks : Fld := { base := 0x1000500, stride := 16, lo := 32, width := 24 }
def flAxTimeout : Fld := { base := 0x1000508, stride := 16, lo := 0, width := 20 }
def flAxSlowMult : Fld := { base := 0x1000508, stride := 16, lo := 20, width := 3 }
def flAxN0 : Fld := { base := 0x1000508, stride := 16, lo := 24, width := 11 }
def flAxN1 : Fld := { base := 0x1000508, stride := 16, lo := 35, width := 11 }
def flAxN2 : Fld := { base := 0x1000508, stride := 16, lo := 46, width := 11 }
def flRxBase : Fld := { base := 0x1000600, stride := 16, lo := 0, width := 48 }
def flRxSize : Fld := { base := 0x1000608, stride := 16, lo := 0, width := 48 }
def flRxAxis : Fld := { base := 0x1000608, stride := 16, lo := 48, width := 3 }
def flRxValid : Fld := { base := 0x1000608, stride := 16, lo := 51, width := 1 }
def flCauseVec : Fld := { base := 0x1400010, stride := 0, lo := 0, width := 11 }
def flCxlFirst : Fld := { base := 0x1400020, stride := 0, lo := 0, width := 8 }
def flCxlSlabs : Fld := { base := 0x1400020, stride := 0, lo := 8, width := 9 }
def flCxlAcct : Fld := { base := 0x1400020, stride := 0, lo := 17, width := 8 }
def flCxlValid : Fld := { base := 0x1400020, stride := 0, lo := 25, width := 1 }
def flXlatValid : Fld := { base := 0x1400100, stride := 8, lo := 0, width := 1 }
def flXlatBase : Fld := { base := 0x1400100, stride := 8, lo := 12, width := 52 }
def flPmuFilt : Fld := { base := 0x1601000, stride := 0, lo := 0, width := 25 }
def flPmuRngBase : Fld := { base := 0x1601010, stride := 16, lo := 16, width := 32 }
def flPmuRngLimit : Fld := { base := 0x1601018, stride := 16, lo := 16, width := 32 }
def flBlkEvent : Fld := { base := 0x1602000, stride := 8, lo := 0, width := 9 }
def flBlkEn : Fld := { base := 0x1602000, stride := 8, lo := 9, width := 1 }
def flBlkFilter : Fld := { base := 0x1602000, stride := 8, lo := 10, width := 25 }
def flSumBase : Fld := { base := 0x1604000, stride := 0, lo := 0, width := 48 }
def flSumPeriod : Fld := { base := 0x1604000, stride := 0, lo := 52, width := 12 }
def flSmpRate : Fld := { base := 0x1607000, stride := 0, lo := 0, width := 5 }
def flSmpAcct : Fld := { base := 0x1607000, stride := 0, lo := 5, width := 8 }
def flSmpAccEn : Fld := { base := 0x1607000, stride := 0, lo := 13, width := 1 }
def flSmpSeed : Fld := { base := 0x1607000, stride := 0, lo := 32, width := 32 }
def flSmpBase : Fld := { base := 0x1607008, stride := 0, lo := 0, width := 48 }
def flSmpLog2 : Fld := { base := 0x1607008, stride := 0, lo := 48, width := 5 }
def flKnotBase : Fld := { base := 0x1607100, stride := 0, lo := 0, width := 48 }
def flKnotLog2 : Fld := { base := 0x1607100, stride := 0, lo := 48, width := 5 }
def flPmuUser : Fld := { base := 0x1607200, stride := 4, lo := 0, width := 32 }
def flCtabBase : Fld := { base := 0x1608000, stride := 8, lo := 0, width := 48 }
def flCtabLog2 : Fld := { base := 0x1608000, stride := 8, lo := 48, width := 5 }
def flLimitW : Fld := { base := 0x1800000, stride := 0, lo := 0, width := 12 }
def flVmaxMv : Fld := { base := 0x1800000, stride := 0, lo := 16, width := 10 }
def flSlowMv : Fld := { base := 0x1800004, stride := 0, lo := 0, width := 10 }
def flTjLimit : Fld := { base := 0x1800004, stride := 0, lo := 16, width := 7 }

/-- The pair of route entries of a device (R331): PRI and ALT. -/
def routeEntry (m : SMap W32) (dev : Nat) : Nat × Nat :=
  let e := (cwGet m (0x1010000 + 4 * (dev / 4))).toNat >>> (8 * (dev % 4))
  (e % 16, e / 16 % 16)

/-- The device ID of a rank of an axis (LNK_AXIS_MEMBER). -/
def axisMember (m : SMap W32) (axis rank : Nat) : Nat :=
  let w := (cwGet m (0x1040000 + 0x8000 * axis + 4 * (rank / 2))).toNat
  (if rank % 2 = 0 then w else w >>> 16) % 2 ^ 14

end Sys2Proof.Machine
end

