-- ==== Sys2Proof/Machine/State.lean ====
section
/-! DEFINITION. The state of the module as plain data: every register, table, queue, buffer, mode and pin that the
spec gives it, the queue of waiting commands, the reasons a step can stop, and the state after reset. -/

set_option Elab.async false

namespace Sys2Proof.Machine

open Sys2Proof

/-- Why a step stops with a fault. The spec gives every command of the table an effect or lets it pass without one, so
no meaning raises a fault; the one constructor names the case that a command's operand is not a term of the block's
command set at all (`WellFormed` rejects it). Safe: the hardware has no such command. -/
inductive Fault where
  /-- Reserved for an operand outside its range. No meaning raises it. Safe. -/
  | illFormed
deriving DecidableEq, Repr

/-- Why a step gives a command no meaning. -/
inductive Refusal where
  /-- The command is not modelled yet: raised by `exec`'s arm of that name only. Safe: the machine stops. -/
  | notModelled (mnemonic : String)
deriving DecidableEq, Repr

/-- The part numbers covered (R19, R20): VARIANT of CFG_CAP. -/
inductive Variant where
  | f | e | c
deriving DecidableEq, Repr

/-- What is fused at assembly (R19, R21, R380, R420), with the fields of BOOT_SEC that only SVN_COMMIT raises. -/
structure Fuses where
  variant : Variant
  serial : W64
  keyValid : BitVec 4
  keyRevoked : BitVec 4
  /-- SHA-384 of the KEY that each fused key slot accepts. -/
  keyHash : List (BitVec 384)
  svnFloor : BitVec 6
deriving DecidableEq, Repr

/-- The sideband signals of R431 and the input. Outputs hold the level the module drives or releases. -/
structure Pins where
  pwrEn : Bool
  pwrGood : Bool
  perstN : Bool
  modPrsntN : Bool
  thermTripN : Bool
  alertN : Bool
  modId : BitVec 5
  vinMv : Nat
  refclkOk : Bool
deriving DecidableEq, Repr

/-- A PLDM sensor event pending in the standby domain (R439). -/
structure PldmEvent where
  source : TripSource
deriving DecidableEq, Repr

/-- Power sequencing state: the standby domain, the rails, the trip latch and the instants the rules measure from
(R432 to R439). Instants are readings of `State.clk`. -/
structure Power where
  standby : Bool
  rails : Bool
  trip : Bool
  tripSource : Option TripSource
  events : List PldmEvent
  perstLowAt : Option Nat
  /-- PERST_N has taken effect and has not risen since (R435). -/
  perstActed : Bool
  pwrEnLowAt : Option Nat
  /-- An input fault holds the main rails down (R433). -/
  faulted : Bool
  /-- MCTP messages received by the management controller, oldest first (R432). -/
  mctp : List (List Byte)
deriving DecidableEq, Repr

/-- A boot slot's examination: BOOT_SLOT0 and BOOT_SLOT1. -/
structure SlotInfo where
  generation : W32
  cause : Byte
  svn : BitVec 16
  keySlot : BitVec 2
deriving DecidableEq, Repr

/-- Boot status (the BOOT block) and what only a boot changes: device ID, STYLE and PERSONALITY (R377). -/
structure Boot where
  phase : Nat
  slot : Nat
  safe : Bool
  fallback : Bool
  forcedEn : Bool
  trainRetry : Bool
  count : W32
  slots : List SlotInfo
  logNext : Nat
  forceSafe : Bool
  style : Nat
  personality : Nat
  devId : BitVec 14
  idFromPins : Bool
  modId : BitVec 5
  kernLost : Bool
  mantleLost : Bool
  /-- `State.clk` at which the LINKS phase began. -/
  linksAt : Nat
deriving DecidableEq, Repr

/-- The timebase (R37 to R42) and the sync exchange with the parent (R356, R357). -/
structure Timebase where
  running : Bool
  now : W64
  locked : Bool
  firstLock : Bool
  holdover : Bool
  copyErr : Bool
  step : W64
  /-- The single step of R39 has been applied. -/
  stepped : Bool
  offset : Int
  /-- Upper half latched by a read of the lower half of CFG_TB_NOW (R42). -/
  latch : Option W32
  /-- Difference of the I/O die 1 copy from the primary count, in ns (R38). -/
  copyDelta : Int
  /-- Correction still to be slewed into the count, in ns (R39). -/
  slew : Int
  slewAcc : Nat
  goodExchanges : Nat
  /-- Link and t1 of the SYNC_REQ sent and not yet answered, in 1/16 ns. -/
  pendingReq : Option (Nat × W64)
  /-- true while the module syncs to TB_ALT (R358). -/
  onAlt : Bool
deriving DecidableEq, Repr

/-- Host-written registers of the CFG, LINE, BOOT and TIER blocks that are not CW fields. -/
structure HostRegs where
  irqCause : W32
  irqEn : W32
  flashPage : BitVec 11
  hitchSel : HitchNo
  lineSel : LineNo
  ctrlStatus : Byte
  ctrlBusy : Bool
  /-- Lower halves latched by WO_HALF_LATCH, by register offset (R2). -/
  woLatch : SMap W32
  htName : DevAddr
  htEntry : W64
  htTouch : W64
  /-- `State.clk` from which the looked-up entry is valid. -/
  htAt : Nat
deriving DecidableEq, Repr

/-- What leaves the module through the host port. -/
inductive HostMsg where
  /-- An MSI-X message on a vector (R365). -/
  | msix (vector : Nat)
  /-- A completion with data; `ep` marks it poisoned (R363). -/
  | data (bytes : List Byte) (ep : Bool)
  /-- A register read's value. -/
  | reg (size : Nat) (val : W64)
  /-- Unsupported Request (R362). -/
  | ur
  /-- A device write into a host window, with its PCIe Relaxed Ordering attribute (R300). -/
  | write (bus : Nat) (bytes : List Byte) (relaxed : Bool)
  /-- The read of a HOST stopper's flush (R294). -/
  | flushRead (line : Nat)
deriving DecidableEq, Repr

/-- An MSI-X table entry: message address, message data, mask bit. -/
structure MsixEntry where
  addr : W64
  data : W32
  mask : Bool
deriving DecidableEq, Repr

/-- The host port (HST block). -/
structure HostPort where
  linkUp : Bool
  width : Nat
  rate : Nat
  cxlmLive : Bool
  unpop : Nat
  chafedReads : Nat
  hostErr : Nat
  badMmio : Nat
  linkDowns : Nat
  /-- MSI-X table; an absent vector is at the PCIe reset value, masked. -/
  msix : SMap MsixEntry
  /-- Vectors whose pending bit is set, rising. -/
  pba : List Nat
  out : List HostMsg
  /-- `State.clk` at the FLR in progress; none when no FLR runs. -/
  flrAt : Option Nat
deriving DecidableEq, Repr

/-- Modes of a belay (R388, R394). -/
inductive BelayMode where
  | immediate | atBarrier | force
deriving DecidableEq, Repr

/-- A belay, CHECK or REVERT request (R387). -/
structure BelayReq where
  /-- The line and sequence number of the BELAY descriptor; none for a host command. -/
  line : Option (Nat × Nat)
  mode : BelayMode
  checkOnly : Bool
  revert : Bool
  retries : Nat
  hitch : Nat
  value : W32
  listAddr : Nat
  listLen : Nat
  quiesceUs : Nat
  drainUs : Nat
  barriers : Nat
deriving DecidableEq, Repr

/-- The stage of the belay that holds the engine. -/
inductive BelayStage where
  | drain | quiesce | barrier
deriving DecidableEq, Repr

/-- The belay that holds the engine, from its snapshot to its final status. -/
structure BelayRun where
  req : BelayReq
  snapshot : SMap W32
  stage : BelayStage
  fenceAt : Nat
  drainEndAt : Nat
  /-- Codes of R397 of the affected units (R393). The dependents of R390 are the operations in flight that its table names. -/
  units : List Nat
  cancelled : Nat
deriving DecidableEq, Repr

/-- The belay engine and its registers. -/
structure Belay where
  epoch : BitVec 16
  run : Option BelayRun
  ready : List BelayReq
  waiting : List BelayReq
  hostBusy : Bool
  hostQueued : Bool
  refused : Bool
  status : Byte
  blocker : BitVec 4
  failOffset : W32
deriving DecidableEq, Repr

/-- The coil and the active state of the CW fields, by 4-byte BAR0 offset (R5, R386). An absent word is zero. -/
structure Config where
  coil : SMap W32
  act : SMap W32
  /-- WRITES of CFG_COIL_STAT. -/
  writes : Nat
deriving DecidableEq, Repr

/-- Tracker entry states (R283). An entry that becomes DONE leaves the list, with its final record written. -/
inductive Track where
  | running | suspendPending | suspended | cancelPending
deriving DecidableEq, Repr

/-- Census classes counted so far by an operation (R115). -/
structure Census where
  total : Nat
  zeros : Nat
  subnormals : Nat
  sat : Nat
  nans : Nat
  infs : Nat
  chafed : Nat
deriving DecidableEq, Repr

/-- One element in flight in the capstan: its bits and the chafe mark of its 32 B piece (R342). -/
structure CollElem where
  bits : Nat
  chafed : Bool
deriving DecidableEq, Repr

/-- The capstan's progress on one collective at this member (R339 to R345). Members are named by device ID. -/
structure Coll where
  /-- Axis and sequence number taken on it; the pair sequence number for SEND and RECV. -/
  nums : List (Nat × Nat)
  /-- Members whose SIGNATURE, CLEAR and ACK are still awaited. -/
  sigWait : List Nat
  clearWait : List Nat
  ackWait : List Nat
  /-- Elements still to come, by sender. -/
  rxWait : SMap Nat
  /-- The input has been read and the member's own part of the exchange begun. -/
  started : Bool
  /-- Own input elements. -/
  input : List CollElem
  /-- Elements on their way through a reduction, by 4 × element index + dimension. -/
  part : SMap CollElem
  /-- Final output elements, by output element index (contribution words by participant for VERDICT). -/
  out : SMap CollElem
  /-- Data frames received before they apply. -/
  early : List Frame
  /-- Data frames that wait for their receiver's CLEAR. -/
  txWait : List Frame
  bytesTx : Nat
  bytesRx : Nat
  mismatch : Bool
  failRank : Option Nat
  waitSince : Nat
  /-- Devices that have shown SLOW since the wait began (R352). -/
  slowDevs : List Nat
deriving DecidableEq, Repr

/-- One operation in flight: its tracker entry and its progress (R269, R283). -/
structure OpEnt where
  seq : Nat
  /-- Place in flight, 0 to 15: its context slot (R285). -/
  entry : Nat
  slot : Nat
  slots : Nat
  desc : BitVec 512
  /-- The VEC_OP of an epilogue pair (R89); zero otherwise. -/
  desc2 : BitVec 512
  track : Track
  dispatched : Bool
  /-- Timebase at dispatch, as the word of a record and as a number. -/
  tDisp : W64
  cDisp : Nat
  epoch : BitVec 16
  /-- Highest-ranking status so far (R275), as a code of R8. -/
  status : Nat
  /-- Cancelled status of the cause that reached the operation first. -/
  cancelStatus : Nat
  flags : Byte
  /-- The line that issued the accepted SUSPEND; none for the host (R317). -/
  suspendedBy : Option Nat
  /-- A RESUME accepted and waiting for ring room, with the CTRL that waits (R286). -/
  resumeBy : Option (Option (Nat × Nat))
  /-- The ready instant of its request at an arbiter; none before the request is ready (R306). -/
  readyAt : Option Nat
  /-- The ready instants of its requests at the splicers, by channel. -/
  splReady : SMap Nat
  aged : Bool
  /-- Next service unit, units finished, units in all, units in flight. -/
  next : Nat
  done : Nat
  total : Nat
  inflight : Nat
  chafedN : Nat
  firstChafed : Option Nat
  n1 : Nat
  n2 : Nat
  n3 : Nat
  census : Census
  censusIndex : Nat
  /-- Program block, parameter block and tables read at dispatch. -/
  prog : List Byte
  par : List Byte
  tab : List Byte
  ptab : List Byte
  chafedProg : Bool
  /-- Chunks done per channel, banks' program counters, blocks processed: a set of finished unit numbers. -/
  units : List Nat
  /-- Partial reduction of the current row (R107, R118), and its chafe. -/
  partial_ : List W32
  partialChafed : Bool
  /-- A failure has ended the operation: it starts nothing more and completes when nothing is in flight. -/
  failed : Bool
  /-- STOPPER: operations of other lines in its write set, by line and sequence number (R295). -/
  wset : List (Nat × Nat)
  /-- Blocks this operation wrote, which take GEN at its retire point (R244). -/
  wrote : List Nat
  coll : Coll
deriving DecidableEq, Repr

/-- Loop state of a line (R280). -/
structure LoopSt where
  slot : Nat
  dist : Nat
  left : W32
  breakPending : Bool
deriving DecidableEq, Repr

/-- A line: ring indices, sequence counter, loop, stop state and operations in flight (R264 to R288). -/
structure Line where
  fetch : Nat
  head : Nat
  tail : Nat
  cqTail : Nat
  cHead : Nat
  nextSeq : Nat
  loop : Option LoopSt
  stopped : Bool
  ops : List OpEnt
  /-- STATE as last noted, and since when (R317). -/
  seen : Nat
  since : Nat
  /-- Since when the line's take request is ready (R306). -/
  takeReady : Option Nat
deriving DecidableEq, Repr

/-- The last signaller of a hitch, for the wait-for scan (R317). -/
structure Hitch where
  count : W32
  lastLine : Option Nat
deriving DecidableEq, Repr

/-- An arbiter's deficits and turns (R309): deficit by class × 256 + account, next account by class, last line served by
class × 256 + account. -/
structure Arb where
  deficit : SMap Int
  nextAcct : SMap Nat
  lastLine : SMap Nat
deriving DecidableEq, Repr

/-- Stages of a tile-op (R84). -/
inductive TileStage where
  | issued | ready | first | last | drained
deriving DecidableEq, Repr

/-- A tile-op of a BRD_MM sweep or of the bight (R79, R84, R133). -/
structure TileOp where
  line : Nat
  seq : Nat
  account : Nat
  array : Nat
  bight : Bool
  /-- Braid: its sweep within the operation. -/
  sweep : Nat
  /-- Tile index of R79; query or key tile index within the operation for the bight. -/
  tile : Nat
  batch : Nat
  row : Nat
  col : Nat
  /-- Real rows and columns. -/
  rows : Nat
  cols : Nat
  /-- Bight: 0 forward, 1 phase A, 2 phase B. -/
  phase : Nat
  stage : TileStage
  tIssue : W64
  tReady : Option W64
  tFirst : Option W64
  tLast : Option W64
  tDrain : Option W64
  /-- Timebase at the page need that the tile waits on (R140). -/
  needAt : Option Nat
  /-- The page deadline has passed: the tile reads its late pages in place. -/
  inPlace : Bool
  chafed : Bool
  flags : Byte
  tagged : Bool
  /-- Bight: output marks and statistics of the tile's rows. -/
  aVals : List Nat
  bVals : List Nat
  /-- Braid: accumulators. -/
  acc : List (BitVec 40)
  /-- Converted output elements, row-major. -/
  out : List Nat
  /-- Slots pending for this tile-op, and those among them already known to be discarded (R408, R409). -/
  pendingSlots : Nat
  discardSlots : Nat
deriving DecidableEq, Repr

/-- A sweep of a BRD_MM with a tile-op that has not retired (R80, R83): what the operand loader has read for it. Each part,
the elements of one k-block of a tile row of A or of a tile column of B with their chafe, is read once and broadcast; its
key is tile row or column × k-blocks + k-block. -/
structure Sweep where
  line : Nat
  seq : Nat
  no : Nat
  /-- DEADLINE_NS has passed: its loads read in place (R93). -/
  late : Bool
  a : SMap (List (Nat × Bool))
  b : SMap (List (Nat × Bool))
  /-- Home blocks that its loads have read in place (R96). -/
  fell : List Nat
deriving DecidableEq, Repr

/-- The lanes of a vector engine: registers v0 to v7 and flag byte of each lane, and the constants k0 to k7 (R99). -/
structure Lanes where
  regs : List (List W32)
  flags : List Byte
  konst : List W32
deriving DecidableEq, Repr

/-- One strand: arrays, sweeps in flight, tile buffers, lanes, tagging LFSR and measured rate. -/
structure Strand where
  tiles : List TileOp
  sweeps : List Sweep
  /-- The four tile buffers (R100): drained epilogue tiles, oldest first. -/
  bufs : List TileOp
  lanes : Lanes
  lfsr : W32
  /-- Mean wave rate over the last 100 µs, and the rates of those microseconds, newest first (R32). -/
  rate : Nat
  waves : List Nat
  tj : Nat
  /-- Account of the aged request that the array arbiter holds freed arrays for (R311). -/
  heldFor : Option Nat
  /-- Result and flags of the last fid request of the strand's fid port. -/
  fidData : BitVec 256
  fidFlags : Byte
  fidChafed : Bool
deriving DecidableEq, Repr

/-- One stream of the chunk a splicer holds: elements as W32 values with the flags their load raises, marks, and the
stored element bits with the scale bytes (R229 to R231). -/
structure SplStream where
  fmt : Nat
  kind : Nat
  elems : List (W32 × Byte)
  chafed : List Bool
  stored : Option (List Nat)
  scales : List Nat
deriving DecidableEq, Repr

/-- A splicer: sixteen registers and a flag byte for each element of the chunk, constants and streams (R226, R231). -/
structure Splicer where
  regs : List (List W32)
  flags : List Byte
  konst : List W32
  streams : List SplStream
  first : Nat
  seed : W64
  step : W64
  tensor : Nat
deriving DecidableEq, Repr

/-- Home-block states (R156). -/
inductive BlockState where
  | unbound | home | moving | landing | chafed
deriving DecidableEq, Repr

/-- A home-table entry with its TOUCH time (R153, R154). -/
structure HtEntry where
  state : BlockState
  tier : Tier
  land : Bool
  derived : Bool
  shared : Bool
  pinned : Bool
  repair : Bool
  account : Nat
  frame : Nat
  gen : BitVec 16
  touch : W64
deriving DecidableEq, Repr

/-- A write held for a MOVING block (R162): address within the block, bytes, and byte enables. -/
structure HeldWrite where
  offset : Nat
  bytes : List Byte
  chafed : Bool
deriving DecidableEq, Repr

/-- Who asked the mover for a block move. -/
inductive MoveOrigin where
  | op (line seq : Nat)
  | evict | refill
  | prefetch (line seq page : Nat)
  | demand (line seq : Nat)
  | landing (line seq : Nat)
  | claim
deriving DecidableEq, Repr

/-- A block move or ALLOC fill, queued or in flight. `name` is the block number (device address div 64 KiB). -/
structure Move where
  name : Nat
  origin : MoveOrigin
  fill : Bool
  dest : Tier
  account : Nat
  cls : Nat
  deadline : Nat
  /-- When it was queued, and its ready instant (R306). -/
  queuedAt : Nat
  readyAt : Option Nat
  started : Bool
  destFrame : Nat
  held : List HeldWrite
  freeAtRetire : Bool
  chafedBlock : Bool
deriving DecidableEq, Repr

/-- A tier's pools (R165) and status. -/
structure TierSt where
  general : Nat
  reserve : Nat
  evictBlocked : Bool
  badAccess : Nat
deriving DecidableEq, Repr

/-- A block's repair in progress (R178, R179). -/
structure Repair where
  name : Nat
  /-- GEN that the request names. -/
  gen : BitVec 16
  beganAt : Nat
  rank : Nat
  reqId : Nat
  /-- Served data received, by byte offset in the block. -/
  got : List (Nat × List Byte)
deriving DecidableEq, Repr

/-- An account's chafe status (TIER_CHAFE_STAT). -/
structure AcctSt where
  repaired : Nat
  repairFailed : Nat
  abortPending : Bool
  halted : Bool
deriving DecidableEq, Repr

/-- A landing slot of the pool (R256): the 256 B granule it stands for and which of its chunks have landed. The landed
bytes lie in the slot's own memory. -/
structure LandSlot where
  block : Nat
  offset : Nat
  fmt : Nat
  replace : Bool
  /-- Chunks landed, by offset in the granule, with their elements. -/
  landed : SMap Nat
deriving DecidableEq, Repr

/-- A posted write of a splicer or of row logic within one granule, not drained yet (R291): where it lies, and the bytes and
the chafe mark that a reader it has not reached gets. `final` once the operation's final record is written. -/
structure Posted where
  line : Nat
  seq : Nat
  account : Nat
  final : Bool
  addr : Nat
  bytes : List Byte
  mark : Bool
deriving DecidableEq, Repr

/-- Memory: the newest bytes of the frames by frame address, chafe marks by granule address, posted writes, and the read-ahead
buffer of the host port (R301). -/
structure Mem where
  bytes : SMap Byte
  chafed : List Nat
  posted : List Posted
  /-- The read-ahead buffer: frame address of a 64 B line and its bytes with their marks, at most 1,024 lines, the last taken in
  first. -/
  ahead : List (Nat × List (Byte × Bool))
  /-- Host memory by bus address. -/
  host : SMap Byte
  /-- 64 B granules of the host windows, by device address div 64, whose device read has failed and has not reached its
  requester yet (R372). -/
  hostBad : List Nat
  /-- Eye space by strand × 2^26 + offset, and chafed 64 B lines (R78). -/
  eye : SMap Byte
  eyeChafed : List Nat
deriving DecidableEq, Repr

/-- One sequence's run in a bank (R218, R219, R224). -/
structure BankRun where
  line : Nat
  seq : Nat
  pc : Nat
  latch : BitVec 8192
  marks : BitVec 32
  spilled : Bool
  spillRow : BitVec 8192
  spillMarks : BitVec 32
  written : List Nat
  stopped : Bool
deriving DecidableEq, Repr

/-- A mantle bank's row sequencing: runs in dispatch order, the atom in progress, pending parity groups. -/
structure Bank where
  runs : List BankRun
  /-- Line and sequence of the run whose atom is in progress, with row ops left in the atom. -/
  atom : Option (Nat × Nat × Nat)
  /-- Pending parity: slot, group, line, seq (R222). -/
  parity : List (Nat × Nat × Nat × Nat)
  /-- Accesses held to the atom boundary (R220). -/
  heldAccesses : Nat
deriving DecidableEq, Repr

/-- A bank's refresh count (R200). -/
structure Refresh where
  owed : Nat
  lastDue : Nat
  /-- New accesses to the bank are held until it refreshes (R201). -/
  hold : Bool
deriving DecidableEq, Repr

/-- Thermal states of R203. -/
inductive Thermal where
  | normal | throttle | critical
deriving DecidableEq, Repr

/-- A stack's registers and thermal state (R193, R202, R203). LEVEL: 0 is 100%, 3 is 25%. -/
structure StackSt where
  temp : Nat
  thermal : Thermal
  level : Nat
  hot : Bool
  sensorErr : Bool
  linkRetry : Nat
  ce : Nat
  ue : Nat
  lastReport : Nat
  lastChange : Nat
deriving DecidableEq, Repr

/-- The governor (R34 to R36) and SLOW. -/
structure Governor where
  vcore : Nat
  capping : Bool
  tjHold : Bool
  slow : Bool
  inputW : Nat
  /-- The 1 µs samples of the last 1 ms, newest first. -/
  samples : List Nat
  below97At : Option Nat
  railBelowAt : Option Nat
  railAboveAt : Option Nat
  /-- A stack holds SLOW (R206), and when the last one left CRITICAL. -/
  stackHold : Bool
  criticalLeftAt : Option Nat
deriving DecidableEq, Repr

/-- Link states of LNK_LINK_STAT. -/
inductive LinkState where
  | down | training | up | miswire | disabled
deriving DecidableEq, Repr

/-- A link: state, loss cause, counters, replay and credit state (R321 to R328, R347 to R349). -/
structure Link where
  state : LinkState
  cause : Nat
  stall : Nat
  replays : Nat
  fecCorr : Nat
  fecUncorr : Nat
  drops : Nat
  trainAt : Option Nat
  /-- The lanes carry an exchange of HELLO frames after training (R322). -/
  helloWait : Bool
  lastMiswire : Bool
  lastRx : Nat
  lastTx : Nat
  tugCount : W32
  txNext : BitVec 16
  rxLast : BitVec 16
  ackSeen : BitVec 16
  ackAt : Nat
  /-- Frames discarded until the resend (R325). -/
  discarding : Bool
  resends : Nat
  replay : List Frame
  txQueue : List Frame
  /-- Cells sent, and cumulative cells the receiver has credited, by VC (R327). -/
  sent : SMap Nat
  credit : SMap Nat
  freed : SMap Nat
  /-- Deficits of the COLL and DATA round robin (R328) and the axis whose turn it is. -/
  collDeficit : Int
  dataDeficit : Int
  axisTurn : Nat
  /-- Frames on the wire, newest last. -/
  wire : List Frame
  /-- Device ID heard in the last HELLO that brought the link up. -/
  nbr : Option Nat
  /-- Since when the first frame of a VC has waited for credit, by VC. -/
  waitFrom : SMap Nat
  /-- VCs whose last frame was originated here: a forwarded one has the turn (R328). -/
  ownSent : List Nat
deriving DecidableEq, Repr

/-- Peer-table states of LNK_PEER. -/
inductive PeerState where
  | unknown | up | lost | unreachable
deriving DecidableEq, Repr

/-- A peer-table entry (R347, R350). -/
structure Peer where
  state : PeerState
  stat : BitVec 3
  cause : Nat
  noticeCount : BitVec 16
deriving DecidableEq, Repr

/-- An early signature or abort held by the capstan (R339, R340). `owed` is the link, virtual channel and cells whose
credit is not returned while the axis holds 256 others. -/
structure EarlySig where
  axis : Nat
  src : Nat
  num : Nat
  sig : W64
  tag : W32
  abort : Bool
  owed : Option (Nat × Nat × Nat)
deriving DecidableEq, Repr

/-- A PUT stream of a peer snapshot export (R354). -/
structure PutStream where
  line : Nat
  seq : Nat
  id : Nat
  outstanding : Nat
  headerSent : Bool
deriving DecidableEq, Repr

/-- A SYSTEM stopper's flush (R355). -/
structure FlushSt where
  line : Nat
  seq : Nat
  id : Nat
  axis : Nat
  waiting : List Nat
deriving DecidableEq, Repr

/-- Links, peers and the capstan (LNK block). -/
structure Net where
  links : SMap Link
  /-- Frames in transit that fill their receive buffer until they leave: the link that they leave by, the frame as queued there,
  the link that they came by, their virtual channel and cells (R327). -/
  transit : List (Nat × Frame × Nat × Nat × Nat)
  peers : SMap Peer
  peerEvent : Bool
  lastLost : BitVec 14
  noticeCount : BitVec 16
  axisNum : SMap Nat
  sendNum : SMap Nat
  recvNum : SMap Nat
  earlySigs : List EarlySig
  puts : List PutStream
  flushes : List FlushSt
  /-- PUT and FLUSH frames to be answered when the writes of the PUTs are visible, in arrival order (R344, R355). -/
  owed : List Frame
  repairs : List Repair
  nextId : Nat
  rr : Nat
deriving DecidableEq, Repr

/-- A request that arrived and waits (R189, R299): its arrival number, whether the host sent it, and the device bytes that it
reads or writes, none for an access to a register. -/
structure HeldReq where
  cmd : Instr
  no : Nat
  host : Bool
  addr : Nat
  len : Nat
  write : Bool
deriving DecidableEq, Repr

/-- Requests of the host and of the fid ports that wait, in arrival order, and the next arrival number. -/
structure Ingress where
  queue : List HeldReq
  next : Nat
deriving DecidableEq, Repr

/-- A wait-for chain entry (R318). -/
structure WfcEntry where
  line : Nat
  kind : Nat
  object : Nat
deriving DecidableEq, Repr

/-- The wait-for chain latch and the arbitration statistics. -/
structure Wfc where
  valid : Bool
  cycle : Bool
  trunc : Bool
  entries : List WfcEntry
  /-- The last line reported; 65,535 before the first report, so that the first scan starts from line 0. -/
  lastReported : Nat
  agedGrants : Nat
  maxAgedWait : Nat
  lastScan : Nat
deriving DecidableEq, Repr

/-- The PMU: counters, nip, rings, knot log and census tables. -/
structure Pmu where
  alw : SMap Nat
  ovf : List Nat
  blk : SMap Nat
  nipAt : Option Nat
  /-- The copies taken at the nip instant, until the shadow shows them (R407). -/
  nipHeld : Option (SMap Nat)
  nipDone : Bool
  nipOverrun : Bool
  nipTime : W64
  shadow : SMap Nat
  sampleHead : Nat
  sampleTail : Nat
  sampleLost : Nat
  knotTail : Nat
  censusColl : Nat
  pass : Nat
  lastPass : Nat
  censusHead : SMap Nat
  censusTail : SMap Nat
  censusLost : SMap Nat
deriving DecidableEq, Repr

/-- Tiers, home table, mover and repair state. -/
structure Tiers where
  ht : SMap HtEntry
  pools : SMap TierSt
  charged : SMap Nat
  movingIn : SMap Nat
  moves : List Move
  /-- Source frames whose earlier reads have not finished: tier, frame, account (R156). -/
  releasing : List (Tier × Nat × Nat)
  acct : SMap AcctSt
  land : SMap LandSlot
  poolFull : Nat
  merges : Nat
  claims : Nat
  claimFail : Nat
  /-- Blocks whose landing slots are to be merged before any other access, and the writes held for them meanwhile, in
  arrival order (R257). -/
  merging : List Nat
  mergeHeld : List (Nat × HeldWrite)
  /-- Export holds of a SNAPSHOT: block, line, seq (R261). -/
  exportHold : List (Nat × Nat × Nat)
  /-- DONE_SIG additions that wait until writes held for MOVING blocks have been applied: line, hitch, blocks (R279). -/
  lateSigs : List (Nat × Nat × List Nat)
  arb : Arb
deriving DecidableEq, Repr

/-- Row logic, splicers and their counters. -/
structure Engines where
  banks : SMap Bank
  splicers : SMap Splicer
  rowOps : SMap Nat
  spills : SMap Nat
  heldCount : SMap Nat
  /-- By channel, the bank after the one that started an atom last (R218). -/
  atomTurn : SMap Nat
  scrubPasses : Nat
deriving DecidableEq, Repr

/-- The state of the module. -/
structure State where
  /-- Commands that wait, first in, first out. -/
  pending : List Instr
  /-- The model's own counter of free values drawn (Config.free...); nothing rests on its value. -/
  free : Nat
  /-- The model's own count of real nanoseconds; intervals are measured by it. -/
  clk : Nat
  fuses : Fuses
  pins : Pins
  power : Power
  boot : Boot
  /-- The boot flash; an absent byte is erased (0xFF). -/
  flash : SMap Byte
  tb : Timebase
  regs : HostRegs
  port : HostPort
  ingress : Ingress
  belay : Belay
  cfg : Config
  lines : SMap Line
  hitches : SMap Hitch
  lineArb : SMap Arb
  braidArb : SMap Arb
  vecArb : SMap Arb
  splArb : SMap Arb
  strands : SMap Strand
  mem : Mem
  tiers : Tiers
  eng : Engines
  refresh : SMap Refresh
  stackSt : SMap StackSt
  gov : Governor
  net : Net
  wfc : Wfc
  pmu : Pmu
deriving DecidableEq, Repr

/-- A boot slot that holds no usable image and has not been examined (R381): the reset values of BOOT_SLOT. -/
def SlotInfo.reset : SlotInfo where
  generation := 0
  cause := 0
  svn := 0
  keySlot := 0

/-- A line after reset (R287): indices, sequence counter and loop state at zero, no operation in flight. -/
def Line.reset : Line where
  fetch := 0
  head := 0
  tail := 0
  cqTail := 0
  cHead := 0
  nextSeq := 0
  loop := none
  stopped := false
  ops := []
  seen := 0
  since := 0
  takeReady := none

/-- A hitch after reset (R277). -/
def Hitch.reset : Hitch where
  count := 0
  lastLine := none

/-- A collective of which nothing has happened. -/
def Coll.reset : Coll where
  nums := []
  sigWait := []
  clearWait := []
  ackWait := []
  rxWait := []
  started := false
  input := []
  part := []
  out := []
  early := []
  txWait := []
  bytesTx := 0
  bytesRx := 0
  mismatch := false
  failRank := none
  waitSince := 0
  slowDevs := []

/-- An arbiter with no deficit and no turn taken. -/
def Arb.reset : Arb where
  deficit := []
  nextAcct := []
  lastLine := []

/-- Lanes of a vector engine: an absent lane's registers and flags read zero. -/
def Lanes.reset : Lanes where
  regs := []
  flags := []
  konst := []

/-- A strand after reset. -/
def Strand.reset : Strand where
  tiles := []
  sweeps := []
  bufs := []
  lanes := Lanes.reset
  lfsr := 0
  rate := 0
  waves := []
  tj := 0
  heldFor := none
  fidData := 0
  fidFlags := 0
  fidChafed := false

/-- A splicer after reset. -/
def Splicer.reset : Splicer where
  regs := []
  flags := []
  konst := []
  streams := []
  first := 0
  seed := 0
  step := 0
  tensor := 0

/-- A bank with no sequence. -/
def Bank.reset : Bank where
  runs := []
  atom := none
  parity := []
  heldAccesses := 0

/-- A bank that owes no refresh. -/
def Refresh.reset : Refresh where
  owed := 0
  lastDue := 0
  hold := false

/-- A stack after reset. -/
def StackSt.reset : StackSt where
  temp := 0
  thermal := .normal
  level := 0
  hot := false
  sensorErr := false
  linkRetry := 0
  ce := 0
  ue := 0
  lastReport := 0
  lastChange := 0

/-- A link after reset. -/
def Link.reset : Link where
  state := .down
  cause := 0
  stall := 0
  replays := 0
  fecCorr := 0
  fecUncorr := 0
  drops := 0
  trainAt := none
  helloWait := false
  lastMiswire := false
  lastRx := 0
  lastTx := 0
  tugCount := 0
  txNext := 0
  rxLast := 0
  ackSeen := 0
  ackAt := 0
  discarding := false
  resends := 0
  replay := []
  txQueue := []
  sent := []
  credit := []
  freed := []
  collDeficit := 0
  dataDeficit := 0
  axisTurn := 0
  wire := []
  nbr := none
  waitFrom := []
  ownSent := []

/-- A peer of which nothing is known (R347). -/
def Peer.reset : Peer where
  state := .unknown
  stat := 0
  cause := 0
  noticeCount := 0

/-- An account with no chafe status. -/
def AcctSt.reset : AcctSt where
  repaired := 0
  repairFailed := 0
  abortPending := false
  halted := false

/-- A tier whose pools hold no frame: the reset values before training finds the frames (R165). -/
def TierSt.reset : TierSt where
  general := 0
  reserve := 0
  evictBlocked := false
  badAccess := 0

/-- An MSI-X vector after reset: its mask bit is set, as PCI Express resets it. -/
def MsixEntry.reset : MsixEntry where
  addr := 0
  data := 0
  mask := true

/-- A home-table entry at zero: state UNBOUND (R153). -/
def HtEntry.reset : HtEntry where
  state := .unbound
  tier := .kern
  land := false
  derived := false
  shared := false
  pinned := false
  repair := false
  account := 0
  frame := 0
  gen := 0
  touch := 0

def Power.reset : Power where
  standby := true
  rails := true
  trip := false
  tripSource := none
  events := []
  perstLowAt := none
  perstActed := true
  pwrEnLowAt := none
  faulted := false
  mctp := []

def Boot.reset : Boot where
  phase := 0
  slot := 3
  safe := false
  fallback := false
  forcedEn := false
  trainRetry := false
  count := 0
  slots := [SlotInfo.reset, SlotInfo.reset]
  logNext := 0
  forceSafe := false
  style := 0
  personality := 0
  devId := 0
  idFromPins := false
  modId := 0
  kernLost := false
  mantleLost := false
  linksAt := 0

def Timebase.reset : Timebase where
  running := false
  now := 0
  locked := false
  firstLock := false
  holdover := false
  copyErr := false
  step := 0
  stepped := false
  offset := 0
  latch := none
  copyDelta := 0
  slew := 0
  slewAcc := 0
  goodExchanges := 0
  pendingReq := none
  onAlt := false

def HostRegs.reset : HostRegs where
  irqCause := 0
  irqEn := 0
  flashPage := 0
  hitchSel := 0
  lineSel := 0
  ctrlStatus := 0
  ctrlBusy := false
  woLatch := []
  htName := 0
  htEntry := 0
  htTouch := 0
  htAt := 0

def HostPort.reset : HostPort where
  linkUp := false
  width := 0
  rate := 0
  cxlmLive := false
  unpop := 0
  chafedReads := 0
  hostErr := 0
  badMmio := 0
  linkDowns := 0
  msix := []
  pba := []
  out := []
  flrAt := none

def Ingress.reset : Ingress where
  queue := []
  next := 0

def Belay.reset : Belay where
  epoch := 0
  run := none
  ready := []
  waiting := []
  hostBusy := false
  hostQueued := false
  refused := false
  status := 0
  blocker := 0
  failOffset := 0

/-- No coil or active word differs from its Reset column (`Regs.cwReset`). -/
def Config.reset : Config where
  coil := []
  act := []
  writes := 0

def Mem.reset : Mem where
  bytes := []
  chafed := []
  posted := []
  ahead := []
  host := []
  hostBad := []
  eye := []
  eyeChafed := []

def Tiers.reset : Tiers where
  ht := []
  pools := []
  charged := []
  movingIn := []
  moves := []
  releasing := []
  acct := []
  land := []
  poolFull := 0
  merges := 0
  claims := 0
  claimFail := 0
  merging := []
  mergeHeld := []
  exportHold := []
  lateSigs := []
  arb := Arb.reset

def Engines.reset : Engines where
  banks := []
  splicers := []
  rowOps := []
  spills := []
  heldCount := []
  atomTurn := []
  scrubPasses := 0

def Governor.reset : Governor where
  vcore := 750
  capping := false
  tjHold := false
  slow := false
  inputW := 0
  samples := []
  below97At := none
  railBelowAt := none
  railAboveAt := none
  stackHold := false
  criticalLeftAt := none

def Net.reset : Net where
  links := []
  transit := []
  owed := []
  peers := []
  peerEvent := false
  lastLost := 0
  noticeCount := 0
  axisNum := []
  sendNum := []
  recvNum := []
  earlySigs := []
  puts := []
  flushes := []
  repairs := []
  nextId := 0
  rr := 0

def Wfc.reset : Wfc where
  valid := false
  cycle := false
  trunc := false
  entries := []
  lastReported := 65535
  agedGrants := 0
  maxAgedWait := 0
  lastScan := 0

def Pmu.reset : Pmu where
  alw := []
  ovf := []
  blk := []
  nipAt := none
  nipHeld := none
  nipDone := false
  nipOverrun := false
  nipTime := 0
  shadow := []
  sampleHead := 0
  sampleTail := 0
  sampleLost := 0
  knotTail := 0
  censusColl := 0
  pass := 0
  lastPass := 0
  censusHead := []
  censusTail := []
  censusLost := []

def Fuses.reset : Fuses where
  variant := .f
  serial := 0
  keyValid := 0
  keyRevoked := 0
  keyHash := []
  svnFloor := 0

def Pins.reset : Pins where
  pwrEn := true
  pwrGood := true
  perstN := false
  modPrsntN := false
  thermTripN := true
  alertN := true
  modId := 0
  vinMv := 48000
  refclkOk := true

/-- The module right after a reset that PERST_N brought about: rails up, PERST_N low and acted on, every register at
its Reset column, and the boot still to come (BOOT START). -/
def State.reset : State where
  pending := []
  free := 0
  clk := 0
  fuses := Fuses.reset
  pins := Pins.reset
  power := Power.reset
  boot := Boot.reset
  flash := []
  tb := Timebase.reset
  regs := HostRegs.reset
  port := HostPort.reset
  ingress := Ingress.reset
  belay := Belay.reset
  cfg := Config.reset
  lines := []
  hitches := []
  lineArb := []
  braidArb := []
  vecArb := []
  splArb := []
  strands := []
  mem := Mem.reset
  tiers := Tiers.reset
  eng := Engines.reset
  refresh := []
  stackSt := []
  gov := Governor.reset
  net := Net.reset
  wfc := Wfc.reset
  pmu := Pmu.reset

end Sys2Proof.Machine
end

