-- ==== Sys2Proof/Machine/Ops.lean ====
section
/-! DEFINITION. The named operations over the state that every family of commands shares: configuration, interrupts,
the address map, the home table, and memory with its chafe marks (R19 to R23, R151 to R157, R175 to R187, R290, R291,
R365, R423, R444). -/

set_option Elab.async false

namespace Sys2Proof.Machine

open Sys2Proof

/-! ### Configuration -/

/-- An active field. -/
def actF (s : State) (f : Fld) (i : Nat) : Nat := f.get s.cfg.act i

/-- A staged field. -/
def coilF (s : State) (f : Fld) (i : Nat) : Nat := f.get s.cfg.coil i

/-- The state as it would be under another active configuration. -/
def withAct (s : State) (m : SMap W32) : State := { s with cfg := { s.cfg with act := m } }

/-- The snapshot under which descriptors are checked too: that of a belay whose fence holds (R391). -/
def fenceSnapshot (s : State) : Option (SMap W32) :=
  match s.belay.run with
  | some r => if r.stage = .barrier then none else some r.snapshot
  | none => none

/-- The configurations under which a descriptor is checked: the active state and, while a fence holds, the snapshot. -/
def views (s : State) : List State := s :: ((fenceSnapshot s).map (withAct s)).toList

/-- CFG_CAP by part (R20). -/
def capWord : Variant → W32
  | .f => 0x0000087F
  | .e => 0x0001087C
  | .c => 0x00020647

/-- Bit `k` of CFG_CAP: 0 ROWL, 1 SPL, 2 BGT, 3 LNKB, 4 CXLM, 5 NIP, 6 FID. -/
def capBit (s : State) (k : Nat) : Bool := (capWord s.fuses.variant).getLsbD k

/-- The unit is fitted and enabled in the active state. -/
def unitOn (s : State) (k : Nat) : Bool := capBit s k && (actF s flUnitEn 0).testBit k

/-- MANTLE_COUNT. -/
def mantleCount : Variant → Nat
  | .f => 8
  | .e => 8
  | .c => 6

/-- Fitted mantle channels, 96 × MANTLE_COUNT (R185). -/
def nchan (v : Variant) : Nat := 96 * mantleCount v

/-- Links fitted (R13, R19). -/
def linkCount (s : State) : Nat := if capBit s 3 then 24 else 12

/-- The account that owns a line (R264). -/
def lineAcct (s : State) (line : Nat) : Nat := actF s flPageAcct (line / 256)

/-- The timebase count, by which every time, deadline and timeout that the module reports or accepts is measured (R7). -/
def tbNow (s : State) : Nat := s.tb.now.toNat

/-- Draws one free value: the next draw is another one. -/
def drawn (s : State) : State := { s with free := s.free + 1 }

/-! ### Sorted sets of numbers -/

/-- A number put into a rising list. -/
def setIns : List Nat → Nat → List Nat
  | [], k => [k]
  | j :: m, k => if j < k then j :: setIns m k else if j = k then j :: m else k :: j :: m

/-- A number taken out of a list. -/
def setDel (m : List Nat) (k : Nat) : List Nat := m.filter (fun j => j != k)

/-! ### Counters -/

/-- Privileges and masters of R403, by their bit in a filter. -/
def privHost : Nat := 0
def privMgmt : Nat := 1
def privAcct : Nat := 2
def mBraid : Nat := 0
def mVector : Nat := 1
def mBight : Nat := 2
def mSheave : Nat := 3
def mRow : Nat := 4
def mSplicer : Nat := 5
def mCapstan : Nat := 6
def mHost : Nat := 7

/-- The attributes that an occurrence carries (R402, R403). -/
structure Attr where
  priv : Option Nat
  acct : Option Nat
  master : Option Nat
  addr : Option Nat
  tc : Option Nat
deriving DecidableEq, Repr

/-- An occurrence without attributes. -/
def attr0 : Attr where
  priv := none
  acct := none
  master := none
  addr := none
  tc := none

/-- Work of a line of an account. -/
def attrP (acct : Nat) : Attr := { attr0 with priv := some privAcct, acct := some acct }

/-- Work of a unit for a line of an account. -/
def attrM (acct master : Nat) : Attr := { attrP acct with master := some master }

/-- A host access. -/
def attrHost (addr : Nat) : Attr := { attr0 with priv := some privHost, master := some mHost, addr := some addr }

/-- A filter in the layout of PMU_FILT bits [24:0] passes an occurrence (R403). A dimension that the occurrence does not
carry never excludes it. -/
def filterPasses (m : SMap W32) (f : Nat) (a : Attr) : Bool :=
  let k := bitsAt f 24 23
  !(a.priv.any (fun p => f.testBit p)) &&
  !(f.testBit 11 && a.acct.any (fun x => x != bitsAt f 10 3)) &&
  !(a.master.any (fun x => f.testBit (12 + x))) &&
  !(a.tc.any (fun x => f.testBit (20 + x))) &&
  !(f.testBit 22 && a.addr.any (fun x => x / 65536 < flPmuRngBase.get m k || flPmuRngLimit.get m k < x / 65536))

/-- n occurrences of an event counted (R399, R400), and whether an ALWAYS counter wrapped. -/
def pmuBase (s : State) (code n : Nat) (a : Attr) : State × Bool :=
  if s.boot.style = 0 then
    if filterPasses s.cfg.act (actF s flPmuFilt 0) a then
      let v := mapGet 0 s.pmu.alw code + n
      ({ s with pmu := { s.pmu with alw := mapSet 0 s.pmu.alw code (v % 2 ^ 48),
                                    ovf := if 2 ^ 48 ≤ v then setIns s.pmu.ovf code else s.pmu.ovf } }, decide (2 ^ 48 ≤ v))
    else (s, false)
  else
    ({ s with pmu := { s.pmu with blk := (List.range 160).foldl (fun m i =>
        if actF s flBlkEn i = 1 && actF s flBlkEvent i = code && filterPasses s.cfg.act (actF s flBlkFilter i) a then
          mapSet 0 m i ((mapGet 0 m i + n) % 2 ^ 64) else m) s.pmu.blk } }, false)

/-! ### Interrupts -/

/-- A message due on a vector (R365, R367): sent at once, or its pending bit set while the vector is masked, the port
link is down or an FLR runs. -/
def sendVec (s : State) (v : Nat) : State :=
  if s.port.linkUp && s.port.flrAt.isNone && !(mapGet MsixEntry.reset s.port.msix v).mask then
    (pmuBase { s with port := { s.port with out := s.port.out ++ [.msix v] } } 0x177 1 attr0).1
  else { s with port := { s.port with pba := setIns s.port.pba v } }

/-- CFG_IRQ_CAUSE and CFG_IRQ_EN set, with the message of R423 when `force` or when their AND leaves zero. -/
def setIrq (s : State) (cause en : W32) (force : Bool) : State :=
  let old := s.regs.irqCause &&& s.regs.irqEn
  let now := cause &&& en
  let s1 := { s with regs := { s.regs with irqCause := cause, irqEn := en } }
  if now != 0 && (force || old == 0) then sendVec s1 (actF s flCauseVec 0) else s1

/-- An event of cause bit `b` (R423, R424). -/
def raiseCause (s : State) (b : Nat) : State :=
  setIrq s (s.regs.irqCause ||| BitVec.ofNat 32 (2 ^ b)) s.regs.irqEn false

-- Cause bits of CFG_IRQ_CAUSE (R424).
def irqChafe : Nat := 0
def irqWfc : Nat := 1
def irqPeerLost : Nat := 2
def irqEvict : Nat := 3
def irqMemUe : Nat := 4
def irqThermal : Nat := 5
def irqPower : Nat := 6
def irqTimebase : Nat := 7
def irqLink : Nat := 8
def irqBelay : Nat := 9
def irqNip : Nat := 10
def irqPmuOvf : Nat := 11
def irqCensus : Nat := 12
def irqHostErr : Nat := 13
def irqRingLoss : Nat := 14

/-- n occurrences of an event; a wrap of an ALWAYS counter sets its overflow bit and raises the cause (R399, R424). -/
def pmuAdd (s : State) (code n : Nat) (a : Attr) : State :=
  let r := pmuBase s code n a
  if r.2 then raiseCause r.1 irqPmuOvf else r.1

/-! ### The address map -/

/-- Bytes of a home block. -/
def blockBytes : Nat := 65536
/-- First hashed mantle address. -/
def mantleBase : Nat := 2 ^ 38
/-- First address past the fitted hashed mantle (R182). -/
def mantleEnd (v : Variant) : Nat := 2 ^ 38 + nchan v * 2 ^ 30
/-- First straight-window address. -/
def straightBase : Nat := 2 ^ 44
/-- First host-window address. -/
def hostBase : Nat := 2 ^ 47
/-- First frame address of the host tier in the model's frame addressing: host frame f begins at hostFrames + f × 2^16. -/
def hostFrames : Nat := 2 ^ 40

/-- `kern_hash` of R184: stack, channel, channel-local address. -/
def kernHash (a : Nat) : Nat × Nat × Nat :=
  let g := a >>> 8
  let ch := (g ^^^ (g >>> 8) ^^^ (g >>> 16) ^^^ (g >>> 24)) % 256
  (ch / 64, ch % 64, (g >>> 8) * 256 + a % 256)

/-- `kern_unhash` of R184. -/
def kernUnhash (stack chan local_ : Nat) : Nat :=
  let l := local_ >>> 8
  let ch := stack * 64 + chan
  let g0 := (ch ^^^ l ^^^ (l >>> 8) ^^^ (l >>> 16)) % 256
  l * 65536 + g0 * 256 + local_ % 256

/-- `mantle_hash` of R185: stack, channel, channel-local address. -/
def mantleHash (nc a : Nat) : Nat × Nat × Nat :=
  let g := (a - mantleBase) >>> 8
  let h := g ^^^ (g >>> 12)
  let gc := h % nc
  (gc / 96, gc % 96, (h / nc) * 256 + a % 256)

/-- `mantle_unhash` of R185. -/
def mantleUnhash (nc stack chan local_ : Nat) : Nat :=
  let h := (local_ >>> 8) * nc + stack * 96 + chan
  let g := h ^^^ (h >>> 12) ^^^ (h >>> 24)
  mantleBase + g * 256 + local_ % 256

/-- `straight` of R186. -/
def straightOf (stack chan local_ : Nat) : Nat :=
  straightBase + stack * 2 ^ 37 + chan * 2 ^ 30 + (local_ / 1024 % 32) * 2 ^ 25 + (local_ / 2 ^ 15) * 1024 + local_ % 1024

/-- The mantle frame address that a straight-window address names; none for an unfitted stack or channel (R183). -/
def straightFrame (v : Variant) (a : Nat) : Option Nat :=
  if a < straightBase || straightBase + 2 ^ 40 ≤ a then none
  else
    let stack := a / 2 ^ 37 % 8
    let chan := a / 2 ^ 30 % 128
    let bank := a / 2 ^ 25 % 32
    let row := a / 1024 % 2 ^ 15
    if mantleCount v ≤ stack || 96 ≤ chan then none
    else some (mantleUnhash (nchan v) stack chan (row * 2 ^ 15 + bank * 1024 + a % 1024))

/-- The mantle frame address of a byte of a row of a bank of a global channel (R186). -/
def rowAddr (v : Variant) (gc bank row byte : Nat) : Nat :=
  mantleUnhash (nchan v) (gc / 96) (gc % 96) (row * 2 ^ 15 + bank * 1024 + byte)

/-- Where a 48-bit device address lies (R182). -/
inductive Region where
  | kern | mantle | straight | hostWin | unused
deriving DecidableEq, Repr

def regionOf (v : Variant) (a : Nat) : Region :=
  if a < mantleBase then .kern
  else if a < mantleEnd v then .mantle
  else if straightBase ≤ a && a < straightBase + 2 ^ 40 && (straightFrame v a).isSome then .straight
  else if hostBase ≤ a && a < 2 ^ 48 then .hostWin
  else .unused

/-- The slab of a mantle frame address: each slab is NC × 4 MiB (R187). -/
def slabOf (v : Variant) (fa : Nat) : Nat := (fa - mantleBase) / (nchan v * 2 ^ 22)

/-- Frames of a slab. -/
def slabFrames (v : Variant) : Nat := nchan v * 64

/-- First frame address of a slab. -/
def slabBase (v : Variant) (slab : Nat) : Nat := mantleBase + slab * (nchan v * 2 ^ 22)

/-- The RAW slot whose data slab holds a mantle frame address, under a configuration (R196). -/
def rawSlotOf (m : SMap W32) (v : Variant) (fa : Nat) : Option Nat :=
  if fa < mantleBase || mantleEnd v ≤ fa then none
  else (List.range 16).find? (fun k => flRawValid.get m k = 1 && flRawSlab.get m k = slabOf v fa)

/-- The exported range of R369 holds a mantle frame address. -/
def exported (m : SMap W32) (v : Variant) (fa : Nat) : Bool :=
  flCxlValid.get m 0 = 1 && mantleBase ≤ fa && fa < mantleEnd v &&
    flCxlFirst.get m 0 ≤ slabOf v fa && slabOf v fa < flCxlFirst.get m 0 + flCxlSlabs.get m 0

/-! ### The home table -/

/-- The block number of a device address. -/
def blockNo (a : Nat) : Nat := a / blockBytes

/-- The entry of a name that the table does not list: the blocks of RAW data slabs and of the export are bound to their
own frames (R196, R369); every other name is UNBOUND. -/
def htDefault (m : SMap W32) (v : Variant) (name : Nat) : HtEntry :=
  let fa := name * blockBytes
  let bound (acct : Nat) : HtEntry :=
    { HtEntry.reset with state := .home, tier := .mantle, pinned := true, account := acct, frame := (fa - mantleBase) / blockBytes }
  match rawSlotOf m v fa with
  | some k => bound (flRawAcct.get m k)
  | none => if exported m v fa then bound (flCxlAcct.get m 0) else HtEntry.reset

/-- The home-table entry of a block number. -/
def htGet (s : State) (name : Nat) : HtEntry :=
  (mapFind s.tiers.ht name).getD (htDefault s.cfg.act s.fuses.variant name)

/-- A block of a RAW data slab or of the export stays in its own frame: it never moves (R183, R369). -/
def fixedBlock (s : State) (e : HtEntry) : Bool :=
  e.tier = .mantle &&
    (let fa := mantleBase + e.frame * blockBytes
     (rawSlotOf s.cfg.act s.fuses.variant fa).isSome || exported s.cfg.act s.fuses.variant fa)

/-- The table with the entry of a block number set. -/
def htSet (s : State) (name : Nat) (e : HtEntry) : State :=
  let d := htDefault s.cfg.act s.fuses.variant name
  { s with tiers := { s.tiers with ht := mapUpd s.tiers.ht name (if e = d then none else some e) } }

/-- TIER code of R151. -/
def tierCode : Tier → Nat
  | .kern => 0
  | .mantle => 1
  | .host => 2

def tierOf : Nat → Tier
  | 0 => .kern
  | 1 => .mantle
  | _ => .host

/-- The frame address of the first byte of a frame (R151). -/
def frameBase (t : Tier) (f : Nat) : Nat :=
  match t with
  | .kern => f * blockBytes
  | .mantle => mantleBase + f * blockBytes
  | .host => hostFrames + f * blockBytes

/-- The tier whose range a name lies in. -/
def nameTier (name : Nat) : Tier := if name * blockBytes < mantleBase then .kern else .mantle

/-- The 64-bit layout of an entry (TIER_HT_ENTRY). -/
def htWord (e : HtEntry) : W64 :=
  let st : Nat := match e.state with
    | .unbound => 0
    | .home => 1
    | .moving => 2
    | .landing => 3
    | .chafed => 4
  let bit (b : Bool) (k : Nat) : Nat := if b then 2 ^ k else 0
  BitVec.ofNat 64 (st + tierCode e.tier * 8 + bit e.land 5 + bit e.derived 6 + bit e.shared 7 + bit e.pinned 8 +
    bit e.repair 9 + e.account * 2 ^ 10 + e.frame * 2 ^ 18 + e.gen.toNat * 2 ^ 42)

/-- BAD_ACCESS of a tier counts one (saturating at 15). -/
def badAccess (s : State) (t : Tier) : State :=
  { s with tiers := { s.tiers with
      pools := mapMod TierSt.reset s.tiers.pools (tierCode t) (fun p => { p with badAccess := satAdd 15 p.badAccess 1 }) } }

/-! ### Storage -/

/-- Size of an access granule at a frame address: 64 B in kern, 32 B in the mantle (R181); 64 B in the host tier (DESIGN
CHOICE, log entry 9). -/
def granSize (fa : Nat) : Nat := if mantleBase ≤ fa && fa < hostFrames then 32 else 64

/-- First byte of the granule of a frame address. -/
def granOf (fa : Nat) : Nat := fa / granSize fa * granSize fa

/-- The bus address of a host-window device address (R371); none when its slice is not valid. -/
def busOf (m : SMap W32) (a : Nat) : Option Nat :=
  let i := (a - hostBase) / 2 ^ 43
  if flXlatValid.get m i = 1 then some (flXlatBase.get m i * 4096 + (a - hostBase) % 2 ^ 43) else none

/-- The host-window address of a byte of the host tier: host frames are counted in region order (R151, R170). -/
def hostTierAddr (m : SMap W32) : List Nat → Nat → Option Nat
  | [], _ => none
  | r :: rs, off =>
    let size := flRgnBlocks.get m r * blockBytes
    if off < size then some (flRgnBase.get m r + off) else hostTierAddr m rs (off - size)

/-- The bus address of a host-tier frame address. -/
def hostTierBus (m : SMap W32) (fa : Nat) : Option Nat :=
  (hostTierAddr m (List.range 64) (fa - hostFrames)).bind (busOf m)

/-- The newest stored byte at a frame address. Memory that nothing has written reads 0 (DESIGN CHOICE, log entry 3). -/
def rawByte (s : State) (fa : Nat) : Byte :=
  if fa < hostFrames then mapGet 0 s.mem.bytes fa
  else match hostTierBus s.cfg.act fa with
    | some b => mapGet 0 s.mem.host b
    | none => 0

/-- A posted write covers a frame address. -/
def Posted.covers (p : Posted) (fa : Nat) : Bool := p.addr ≤ fa && fa < p.addr + p.bytes.length

/-- The byte that a module reader gets at a frame address: the newest, or, where the posted writes of the granule have not
reached it, the one before them all (R290, R291). -/
def viewByte (s : State) (fa : Nat) : Byte :=
  match s.mem.posted.find? (fun p => p.covers fa && !Config.postedLanded s.free (granOf fa)) with
  | some p => p.bytes.getD (fa - p.addr) 0
  | none => rawByte s fa

/-- Bytes that a module reader gets. -/
def viewBytes (s : State) (fa n : Nat) : List Byte := (List.range n).map (fun i => viewByte s (fa + i))

/-- The granule of a frame address carries the chafe mark. -/
def granChafed (s : State) (fa : Nat) : Bool := s.mem.chafed.contains (granOf fa)

/-- The mark that a module reader gets with the granule of a frame address: that of the contents it gets. -/
def viewMark (s : State) (fa : Nat) : Bool :=
  match s.mem.posted.find? (fun p => granOf p.addr = granOf fa && !Config.postedLanded s.free (granOf fa)) with
  | some p => p.mark
  | none => granChafed s fa

/-- Some granule of n bytes at a frame address carries the chafe mark. -/
def spanChafed (s : State) (fa n : Nat) : Bool :=
  s.mem.chafed.any (fun g => g < fa + n && fa < g + granSize g)

/-- The newest byte at a frame address set. -/
def putByte (s : State) (fa : Nat) (b : Byte) : State :=
  if fa < hostFrames then
    { s with mem := { s.mem with bytes := mapSet 0 s.mem.bytes fa b } }
  else match hostTierBus s.cfg.act fa with
    | some bus => { s with mem := { s.mem with host := mapSet 0 s.mem.host bus b } }
    | none => s

/-- The parity byte address of a RAW data byte (R197). -/
def parityAddr (m : SMap W32) (v : Variant) (fa : Nat) : Option Nat :=
  (rawSlotOf m v fa).map (fun k =>
    let h := mantleHash (nchan v) fa
    let row := h.2.2 / 2 ^ 15
    let bank := h.2.2 / 1024 % 32
    rowAddr v (h.1 * 96 + h.2.1) bank (128 * flRawParSlab.get m 0 + 8 * k + row % 128 / 16) (h.2.2 % 1024))

/-- A posted write with the byte that stood before it at a frame address replaced. -/
def Posted.under (fa : Nat) (b : Byte) (p : Posted) : Posted :=
  if p.covers fa then { p with bytes := p.bytes.set (fa - p.addr) b } else p

/-- A byte written through a channel interface: in a RAW data slab the parity byte changes with it (R198), the read-ahead buffer
observes it (R301), and where a posted write covers it, which of the two stays is open for the whole granule (R290). -/
def writeByte (s : State) (fa : Nat) (b : Byte) : State :=
  let covered := s.mem.posted.any (fun p => p.covers fa)
  let s0 : State := { s with mem := { s.mem with
    posted := s.mem.posted.map (Posted.under fa b), ahead := s.mem.ahead.filter (fun l => l.1 != fa / 64 * 64) } }
  if covered && !Config.writeStays s.free (granOf fa) then s0
  else
    let s1 := putByte s0 fa b
    match parityAddr s.cfg.act s.fuses.variant fa with
    | some pa => putByte s1 pa (rawByte s pa ^^^ rawByte s fa ^^^ b)
    | none => s1

/-- Bytes written at consecutive frame addresses. -/
def writeBytes (s : State) (fa : Nat) : List Byte → State
  | [] => s
  | b :: bs => writeBytes (writeByte s fa b) (fa + 1) bs

/-- Granules that n bytes at a frame address touch. -/
def granules (fa n : Nat) : List Nat :=
  let g := granSize fa
  if n = 0 then [] else (List.range ((fa + n - 1) / g - fa / g + 1)).map (fun i => (fa / g + i) * g)

/-- The marks after a write of n bytes at a frame address (R175, R177): a marked write sets them; an unmarked write
clears those of the granules it covers whole. -/
def marksAfter (ms : List Nat) (fa n : Nat) (mark : Bool) : List Nat :=
  (granules fa n).foldl (fun m g =>
    if mark then setIns m g
    else if fa ≤ g && g + granSize g ≤ fa + n then setDel m g else m) ms

/-- A posted write after another write of n bytes: its earlier mark is that write's where it marks, or covers, the granule. -/
def Posted.underMark (fa n : Nat) (mark : Bool) (p : Posted) : Posted :=
  let g := granOf p.addr
  if fa < g + granSize g && g < fa + n then
    { p with mark := if mark then true else if fa ≤ g && g + granSize g ≤ fa + n then false else p.mark }
  else p

/-- A posted write of a whole granule stays over another write of it (R290): the granule keeps its mark. -/
def postedStays (s : State) (g : Nat) : Bool :=
  s.mem.posted.any (fun p => p.addr = g && p.bytes.length = granSize g) && !Config.writeStays s.free g

/-- A write of bytes with or without the chafe mark at a frame address. -/
def storeAt (s : State) (fa : Nat) (bs : List Byte) (mark : Bool) : State :=
  let s1 := writeBytes s fa bs
  let kept := (granules fa bs.length).filter (postedStays s)
  let ms := marksAfter s.mem.chafed fa bs.length mark
  { s1 with mem := { s1.mem with
    chafed := kept.foldl (fun m g => if s.mem.chafed.contains g then setIns m g else setDel m g) ms,
    posted := s1.mem.posted.map (Posted.underMark fa bs.length mark) } }

/-- Bytes written from the base die at consecutive frame addresses: neither the read-ahead buffer nor RAW parity changes (R198,
R301). -/
def putBytes (s : State) (fa : Nat) : List Byte → State
  | [] => s
  | b :: bs => putBytes (putByte s fa b) (fa + 1) bs

/-- Bytes with their mark written from the base die. -/
def baseStore (s : State) (fa : Nat) (bs : List Byte) (mark : Bool) : State :=
  let s1 := putBytes s fa bs
  { s1 with mem := { s1.mem with chafed := marksAfter s1.mem.chafed fa bs.length mark } }

/-- Bytes cut at granule boundaries (fuel: one more than their number). -/
def granRuns : Nat → Nat → List Byte → List (Nat × List Byte)
  | 0, _, _ => []
  | fuel + 1, fa, bs =>
    if bs.isEmpty then []
    else
      let n := granSize fa - fa % granSize fa
      (fa, bs.take n) :: granRuns fuel (fa + n) (bs.drop n)

/-- A posted write of a splicer or of row logic (R291), cut at granules: the newest bytes change at once for the base die, and
the record keeps what a reader that it has not reached gets, until a stopper drains it. -/
def postAt (s : State) (line seq acct fa : Nat) (bs : List Byte) (mark : Bool) : State :=
  (granRuns (bs.length + 1) fa bs).foldl (fun t q =>
    let p : Posted := { line := line, seq := seq, account := acct, final := false, addr := q.1,
                        bytes := (List.range q.2.length).map (fun i => rawByte t (q.1 + i)), mark := granChafed t q.1 }
    let t1 := baseStore t q.1 q.2 mark
    { t1 with mem := { t1.mem with posted := t1.mem.posted ++ [p] } }) s

/-- Marks set on granules without a write (an uncorrectable error). -/
def markGran (s : State) (fa : Nat) : State :=
  { s with mem := { s.mem with chafed := setIns s.mem.chafed (granOf fa) } }

/-! ### Blocks and chafe -/

/-- Some granule of the block's frame is chafed. -/
def blockMarked (s : State) (e : HtEntry) : Bool := spanChafed s (frameBase e.tier e.frame) blockBytes

/-- Where a device address of a bound block is stored. -/
def frameAddr (e : HtEntry) (a : Nat) : Nat := frameBase e.tier e.frame + a % blockBytes

/-- TOUCH of a block after an access now (R154): at most one update per 16 µs. -/
def touched (s : State) (e : HtEntry) : HtEntry :=
  if e.touch.toNat + 16000 ≤ s.tb.now.toNat then { e with touch := s.tb.now } else e

/-- A line operation's access touches the block. -/
def touchBlock (s : State) (a : Nat) : State :=
  let e := htGet s (blockNo a)
  if e.state = .unbound then s else htSet s (blockNo a) (touched s e)

/-- The frame address of a straight address; for an account only in a RAW data slab that it holds (R183). -/
def straightFor (s : State) (acct : Option Nat) (a : Nat) : Option Nat :=
  (straightFrame s.fuses.variant a).filter (fun fa =>
    acct.all (fun x => (rawSlotOf s.cfg.act s.fuses.variant fa).any (fun k => actF s flRawAcct k = x)))

/-- A device address resolved to storage: the frame address for a bound name of the account (any account when none is
given), the frame of a straight address. -/
def locate (s : State) (acct : Option Nat) (a : Nat) : Option Nat :=
  match regionOf s.fuses.variant a with
  | .kern | .mantle =>
    let e := htGet s (blockNo a)
    if e.state = .unbound || acct.any (fun x => x != e.account) then none else some (frameAddr e a)
  | .straight => straightFor s acct a
  | _ => none

/-- A byte read by the device at a device address, with its chafe mark. A name that is unbound or another account's reads
marked chafed (R155); a host-window address reads host memory, and reads chafed when the port link is down, the slice is
invalid or the read has failed (R367, R372). -/
def devByte (s : State) (acct : Option Nat) (a : Nat) : Byte × Bool :=
  match regionOf s.fuses.variant a with
  | .hostWin =>
    (match busOf s.cfg.act a with
    | some b => if s.port.linkUp then (mapGet 0 s.mem.host b, s.mem.hostBad.contains (a / 64)) else (0, true)
    | none => (0, true))
  | _ =>
    match locate s acct a with
    | some fa => (viewByte s fa, viewMark s fa)
    | none => (0, true)

/-- Bytes read by the device, and whether any granule of them was chafed. -/
def devRead (s : State) (acct : Option Nat) (a n : Nat) : List Byte × Bool :=
  let r := (List.range n).map (fun i => devByte s acct (a + i))
  (r.map Prod.fst, r.any Prod.snd)

/-- The number at a device address, little-endian, and whether it read chafed. -/
def devReadN (s : State) (acct : Option Nat) (a n : Nat) : Nat × Bool :=
  let r := devRead s acct a n
  (natOfBytes r.1, r.2)

/-- A block that an access reaches but its account may not, or that is unbound. -/
def badName (s : State) (acct : Option Nat) (a : Nat) : Bool :=
  match regionOf s.fuses.variant a with
  | .kern | .mantle => (locate s acct a).isNone
  | _ => false

/-- A bound block that carries DERIVED: only splicer working-cast writes and vector-engine writes change it (R153). -/
def derivedName (s : State) (b : Nat) : Bool := (htGet s b).state != .unbound && (htGet s b).derived

/-- Bytes cut at block boundaries: the pieces of a run of bytes at a device address. -/
def blockPieces : Nat → Nat → List Byte → List (Nat × List Byte)
  | 0, _, _ => []
  | fuel + 1, a, bs =>
    if bs.isEmpty then []
    else
      let n := blockBytes - a % blockBytes
      (a, bs.take n) :: blockPieces fuel (a + n) (bs.drop n)

/-- The pieces of a run of bytes. -/
def pieces (a : Nat) (bs : List Byte) : List (Nat × List Byte) := blockPieces (bs.length / blockBytes + 2) a bs

/-- A write held for a MOVING block (R162). -/
def holdWrite (s0 : State) (a : Nat) (bs : List Byte) (mark : Bool) : State :=
  let s := pmuAdd s0 0x10D 1 (attrP (htGet s0 (blockNo a)).account)
  { s with tiers := { s.tiers with moves := s.tiers.moves.map (fun m =>
      if m.started && m.name = blockNo a then
        { m with held := m.held ++ [{ offset := a % blockBytes, bytes := bs, chafed := mark }] } else m) } }

/-- A write held while the block's landing slots are to be merged (R257). -/
def holdMerge (s : State) (a : Nat) (bs : List Byte) (mark : Bool) : State :=
  { s with tiers := { s.tiers with
      mergeHeld := s.tiers.mergeHeld ++ [(blockNo a, { offset := a % blockBytes, bytes := bs, chafed := mark })] } }

/-- ABORT_PENDING of an account set (R178). -/
def abortAccount (s : State) (acct : Nat) : State :=
  { s with tiers := { s.tiers with
      acct := mapMod AcctSt.reset s.tiers.acct acct (fun x => { x with abortPending := true }) } }

/-- Ranks asked for a repair, and the failure of a repair when none remains: R179's REPAIR_FAILED and ABORT_PENDING. -/
def repairFail (s : State) (name : Nat) : State :=
  let e := htGet s name
  let s1 := htSet s name { e with repair := false }
  let acct' := mapMod AcctSt.reset s1.tiers.acct e.account (fun x =>
    { x with repairFailed := satAdd 4095 x.repairFailed 1, abortPending := true })
  let reps := s1.net.repairs.filter (fun r => r.name != name)
  let s2 := { s1 with tiers := { s1.tiers with acct := acct' }, net := { s1.net with repairs := reps } }
  raiseCause (pmuAdd s2 0x111 1 (attrP e.account)) irqChafe

end Sys2Proof.Machine
end

