-- ==== Sys2Proof/Machine/LineState.lean ====
section
/-! DEFINITION. Lines as the line engines see them: ring indices, states, the take's conditions, and the HALT of an account
(R178, R264 to R270, R274, R287, R288). -/

set_option Elab.async false

namespace Sys2Proof.Machine

open Sys2Proof

def lineGet (s : State) (n : Nat) : Line := mapGet Line.reset s.lines n

def lineSet (s : State) (n : Nat) (l : Line) : State := { s with lines := mapSet Line.reset s.lines n l }

def lineOn (s : State) (n : Nat) : Bool := actF s flLineEn n = 1

def lineStrand (s : State) (n : Nat) : Nat := actF s flLineStrand n

/-- Slots of the descriptor ring and records of the completion ring. -/
def ringSize (s : State) (n : Nat) : Nat := 2 ^ actF s flRingLog2 n
def cqSize (s : State) (n : Nat) : Nat := 2 ^ actF s flCqLog2 n

/-- The account's dispatch is stopped (HALTED of TIER_CHAFE_STAT). -/
def acctHalted (s : State) (a : Nat) : Bool := (mapGet AcctSt.reset s.tiers.acct a).halted

/-- The opcode of a descriptor. -/
def opcodeOf (d : BitVec 512) : Nat := d.toNat % 256

-- Opcodes (R272).
def opBrdMm : Nat := 0x01
def opVecOp : Nat := 0x02
def opBgtFwd : Nat := 0x03
def opBgtBwd : Nat := 0x04
def opMove : Nat := 0x08
def opRowSeq : Nat := 0x09
def opSplUpd : Nat := 0x0A
def opSplAcc : Nat := 0x0B
def opSnapshot : Nat := 0x0C
def opCapColl : Nat := 0x10
def opStopper : Nat := 0x18
def opHitchWait : Nat := 0x19
def opHitchSig : Nat := 0x1A
def opKnot : Nat := 0x1B
def opCtrl : Nat := 0x1C
def opBelay : Nat := 0x1D
def opLoop : Nat := 0x1E

/-- Bits [hi:lo] of the 64-bit word at a byte offset of a descriptor. -/
def dF (d : BitVec 512) (byte hi lo : Nat) : Nat := bitsAt (d.toNat >>> (8 * byte)) hi lo

def dClass (d : BitVec 512) : Nat := dF d 0 10 8
def dIrq (d : BitVec 512) : Bool := dF d 0 11 11 = 1
def dDoneSig (d : BitVec 512) : Bool := dF d 0 12 12 = 1
def dDoneHitch (d : BitVec 512) : Nat := dF d 0 49 32

/-- Free completion records (R270). -/
def cqFree (s : State) (n : Nat) : Nat :=
  let l := lineGet s n
  let c := cqSize s n
  c - 1 - (l.cqTail + c - l.cHead) % c

/-- The line may not take for want of room: 16 operations in flight, or too few free records (R270). -/
def stalled (s : State) (n : Nat) : Bool :=
  let k := (lineGet s n).ops.length
  16 ≤ k || cqFree s n < 2 * (k + 1)

/-- An operation that holds the next take until it retires or is dispatched (R269, R286). -/
def holdsTake (o : OpEnt) : Bool :=
  !o.dispatched || opcodeOf o.desc = opStopper || opcodeOf o.desc = opHitchWait

/-- STATE of LINE_STATE (R288). -/
def lineState (s : State) (n : Nat) : Nat :=
  let l := lineGet s n
  if !lineOn s n then 0
  else if acctHalted s (lineAcct s n) then 4
  else if l.stopped then 3
  else if stalled s n then 5
  else if l.ops.any (fun o => o.dispatched && holdsTake o || o.resumeBy.isSome && opcodeOf o.desc = opCtrl) then 2
  else 1

/-- An FLR is in progress, or the line engines quiesce for a belay (R366, R393). -/
def takesHeld (s : State) : Bool :=
  s.port.flrAt.isSome ||
    (match s.belay.run with
    | some r => r.stage = .quiesce
    | none => false)

/-- The unit with a code of R397 quiesces for a belay: it grants no more service units (R393). -/
def quiet (s : State) (u : Nat) : Bool :=
  match s.belay.run with
  | some r => r.stage = .quiesce && r.units.contains u
  | none => false

-- Units by their codes in BLOCKER (R397).
def unLines : Nat := 1
def unBraid : Nat := 2
def unVector : Nat := 3
def unBight : Nat := 4
def unMover : Nat := 5
def unChannels : Nat := 6
def unRow : Nat := 7
def unSplicer : Nat := 8
def unLinks : Nat := 9
def unHost : Nat := 10
def unPmu : Nat := 11

/-- A write to the line's descriptor ring is held for a block that moves or merges: it has not landed (R162, R257, R268). -/
def ringHeld (s : State) (n : Nat) : Bool :=
  let a := actF s flRingBase n * 4096
  let hit (b : Nat) (h : HeldWrite) : Bool :=
    b * blockBytes + h.offset < a + 64 * ringSize s n && a < b * blockBytes + h.offset + h.bytes.length
  s.tiers.moves.any (fun m => m.started && m.held.any (hit m.name)) || s.tiers.mergeHeld.any (fun p => hit p.1 p.2)

/-- Every condition of the take of R268 to R270. -/
def canTake (s : State) (n : Nat) : Bool :=
  let l := lineGet s n
  s.boot.phase = 7 && !ringHeld s n && (lineState s n = 1) && l.fetch != l.tail && !(l.ops.any holdsTake) && !takesHeld s

/-- STATE noted after an event: its change, since when it holds, and the vector that a change to STOPPED or HALTED signals
(R274); and since when the line's take request is ready. -/
def noteLine (s : State) (n : Nat) : State :=
  let l := lineGet s n
  let st := lineState s n
  let ready := if canTake s n then some (l.takeReady.getD (tbNow s)) else none
  let l1 := { l with takeReady := ready }
  if st = l.seen then lineSet s n l1
  else
    let s1 := lineSet s n { l1 with seen := st, since := tbNow s }
    if st = 3 || st = 4 then sendVec s1 (actF s flLineVector n) else s1

/-- Every line noted. -/
def noteAll (s : State) : State := (s.lines.map Prod.fst).foldl noteLine s

/-! ### HALT -/

/-- Opcodes that are never cancelled: their dispatch is their retire point (R287). -/
def neverCancelled (opc : Nat) : Bool := opc = opHitchSig || opc = opKnot || opc = opLoop

/-- Opcodes that may be suspended (R287, R345). -/
def suspendable (opc : Nat) : Bool :=
  [opBrdMm, opVecOp, opBgtFwd, opBgtBwd, opMove, opRowSeq, opSplUpd, opSplAcc, opSnapshot].contains opc

/-- Every operation in flight on the lines of an account that may be suspended gets a suspend request, dispatch stops, and
every line that this changes to HALTED signals its vector (HALT of R178, R274, R287). -/
def haltAccount (s : State) (acct : Nat) : State :=
  let s1 := { s with tiers := { s.tiers with
      acct := mapMod AcctSt.reset s.tiers.acct acct (fun x => { x with halted := true }) } }
  noteAll { s1 with lines := s1.lines.map (fun p =>
      if lineAcct s p.1 = acct then
        (p.1, { p.2 with ops := p.2.ops.map (fun o =>
          if o.track = .running && suspendable (opcodeOf o.desc) then { o with track := .suspendPending, suspendedBy := none } else o) })
      else p) }

end Sys2Proof.Machine
end

