-- ==== Sys2Proof/Machine/LinkTx.lean ====
section
/-! DEFINITION. Frames and the link transmitters: layout and CRC (R323), routing (R331, R334), virtual channels and
credits (R326, R327), the choice of the next frame (R328), and the replay buffer (R325). -/

set_option Elab.async false

namespace Sys2Proof.Machine

open Sys2Proof

-- Frame types (R324).
def ftTug : BitVec 4 := 0x0
def ftSlip : BitVec 4 := 0x1
def ftCredit : BitVec 4 := 0x2
def ftNak : BitVec 4 := 0x3
def ftHello : BitVec 4 := 0x4
def ftSyncReq : BitVec 4 := 0x5
def ftSyncRsp : BitVec 4 := 0x6
def ftNotice : BitVec 4 := 0x7
def ftRepairReq : BitVec 4 := 0x8
def ftRepairRsp : BitVec 4 := 0x9
def ftColl : BitVec 4 := 0xA
def ftCollCtl : BitVec 4 := 0xB
def ftPut : BitVec 4 := 0xC
def ftPutAck : BitVec 4 := 0xD
def ftFlush : BitVec 4 := 0xE
def ftFlushAck : BitVec 4 := 0xF

/-- Link-local frames carry no LSEQ, use no credit and are never forwarded (R324). -/
def isLocal (f : Frame) : Bool := f.typ.toNat < 8

/-- Header bytes 0x00 to 0x1B (R323). -/
def frameHead (f : Frame) : List Byte :=
  let bit (b : Bool) (k : Nat) : Nat := if b then 2 ^ k else 0
  bytesOf 4 (f.typ.toNat + f.tc.toNat * 16 + f.vc.toNat * 256 + f.plen.toNat * 1024 + f.hdim.toNat * 16384 +
    bit f.slow 16 + bit f.draining 17 + bit f.maint 18) ++
  bytesOf 2 f.src.toNat ++ bytesOf 2 f.dst.toNat ++ bytesOf 2 f.lseq.toNat ++ bytesOf 2 f.ack.toNat ++
  bytesOf 4 f.tag.toNat ++ bytesOf 8 f.addr.toNat ++ bytesOf 4 f.aux.toNat

/-- The CRC field of a frame. -/
def frameCrc (f : Frame) : W32 := crc32c (frameHead f ++ f.payload)

/-- The frame with its CRC field set. -/
def sealFrame (f : Frame) : Frame := { f with crc := frameCrc f }

/-- The CRC holds and the payload has the length that PLEN states. -/
def frameGood (f : Frame) : Bool := f.crc == frameCrc f && f.payload.length == 32 * f.plen.toNat && f.plen.toNat ≤ 8

def linkGet (s : State) (k : Nat) : Link := mapGet Link.reset s.net.links k

def linkSet (s : State) (k : Nat) (l : Link) : State :=
  { s with net := { s.net with links := mapSet Link.reset s.net.links k l } }

def peerGet (s : State) (d : Nat) : Peer := mapGet Peer.reset s.net.peers d

def peerSet (s : State) (d : Nat) (p : Peer) : State :=
  { s with net := { s.net with peers := mapSet Peer.reset s.net.peers d p } }

/-- Fitted, enabled in the active link plan, and on an enabled I/O die (R19, R22, R332). -/
def linkOn (s : State) (k : Nat) : Bool :=
  k < linkCount s && actF s flLinkEn k = 1 && (k < 12 || unitOn s 3)

def linkUp (s : State) (k : Nat) : Bool := linkOn s k && (linkGet s k).state = .up

/-- The enabled links of a port (R330). -/
def portLinks (s : State) (p : Nat) : List Nat :=
  (List.range 24).filter (fun k => linkOn s k && actF s flLinkPort k = p)

/-- A port works while any of its links is UP. -/
def portUp (s : State) (p : Nat) : Bool := (portLinks s p).any (linkUp s)

/-- The module's own device ID. -/
def ownId (s : State) : Nat := s.boot.devId.toNat

/-- A belay is draining units. -/
def draining (s : State) : Bool :=
  match s.belay.run with
  | some r => r.stage = .drain
  | none => false

/-- STAT of this module: SLOW, DRAINING and MAINT in bits 0 to 2 (LNK_PEER bits 3 to 5). -/
def ownStat (s : State) : BitVec 3 :=
  BitVec.ofNat 3 ((if s.gov.slow then 1 else 0) + (if draining s then 2 else 0) + (if actF s flMaint 0 = 1 then 4 else 0))

/-- A frame originated here. -/
def mkFrame (s : State) (typ tc : BitVec 4) (vc : BitVec 2) (dst : Nat) (tag : W32) (addr : W64) (aux : W32)
    (payload : List Byte) : Frame :=
  { typ := typ, tc := tc, vc := vc, plen := BitVec.ofNat 4 (payload.length / 32), hdim := 0, slow := s.gov.slow,
    draining := draining s, maint := actF s flMaint 0 = 1, src := BitVec.ofNat 16 (ownId s),
    dst := BitVec.ofNat 16 dst, lseq := 0, ack := 0, tag := tag, addr := addr, aux := aux, crc := 0, payload := payload }

/-- A link-local frame. -/
def mkLocal (s : State) (typ : BitVec 4) (tag : W32) (addr : W64) (aux : W32) : Frame :=
  mkFrame s typ 0 0 0xFFFF tag addr aux []

/-- The virtual channel of a frame: 4 × TC + VC. -/
def vcOf (f : Frame) : Nat := 4 * f.tc.toNat + f.vc.toNat

/-- Cells of 32 B that a frame needs (R327). -/
def cellsOf (f : Frame) : Nat := 1 + f.plen.toNat

/-- Dedicated cells of a VC and cells of the shared pool (R327). -/
def vcCells : Nat := 64
def poolCells : Nat := 5632

/-- Cells of a VC that the receiver has not credited yet. -/
def outstanding (l : Link) (v : Nat) : Nat := (mapGet 0 l.sent v + 65536 - mapGet 0 l.credit v) % 65536

/-- The receiver has room for the frame: its VC's dedicated cells and the shared pool (R327). -/
def hasCredit (l : Link) (f : Frame) : Bool :=
  let v := vcOf f
  let o := outstanding l v + cellsOf f
  let others := ((List.range 40).filter (fun u => u != v)).foldl (fun n u => n + (outstanding l u - vcCells)) 0
  others + (o - vcCells) ≤ poolCells

/-- Bytes in the replay buffer. -/
def replayBytes (l : Link) : Nat := l.replay.foldl (fun n f => n + 32 + 32 * f.plen.toNat) 0

/-- The rank of a link-local frame in rule 1 of R328. -/
def localRank (f : Frame) : Nat :=
  match f.typ.toNat with
  | 0x1 => 0
  | 0x7 => 1
  | 0x3 => 2
  | 0x2 => 3
  | 0x0 => 4
  | 0x5 => 5
  | 0x6 => 5
  | _ => 6

/-- The first frame of the smallest rank. -/
def firstLocal (q : List Frame) : Option Frame :=
  (q.filter isLocal).foldl (fun acc f =>
    match acc with
    | none => some f
    | some g => if localRank f < localRank g then some f else some g) none

/-- The frame of a VC that goes next: forwarded and originated frames take turns (R328). `own` is this module's device ID. -/
def vcHead (own : BitVec 16) (l : Link) (q : List Frame) (v : Nat) : Option Frame :=
  let mine := q.filter (fun g => !isLocal g && vcOf g = v)
  (mine.find? (fun g => (g.src == own) != l.ownSent.contains v)).orElse (fun _ => mine.head?)

/-- Whose turn it is on a VC after a frame of it was sent. -/
def noteSent (own : BitVec 16) (f : Frame) (l : Link) : Link :=
  let others := l.ownSent.filter (fun v => v != vcOf f)
  { l with ownSent := if f.src == own then vcOf f :: others else others }

/-- COLL frames of an axis class that may go: the first of each VC only, with credit. -/
def firstOfClass (own : BitVec 16) (l : Link) (q : List Frame) (p : Frame → Bool) : Option Frame :=
  q.find? (fun f => p f && !isLocal f && hasCredit l f && vcHead own l q (vcOf f) == some f)

/-- The COLL frame whose axis has the turn (R328). -/
def nextColl (own : BitVec 16) (l : Link) (q : List Frame) : Option Frame :=
  ((List.range 8).map (fun i => (l.axisTurn + i) % 8)).findSome? (fun a =>
    firstOfClass own l q (fun f => f.tc.toNat = 2 + a))

/-- The sequenced frame that rules 3 and 4 of R328 choose, and the link with its deficits updated. -/
def nextSequenced (own : BitVec 16) (cw dw : Nat) (l : Link) (q : List Frame) : Option (Frame × Link) :=
  match firstOfClass own l q (fun f => f.tc = 1) with
  | some f => some (f, l)
  | none =>
    match nextColl own l q, firstOfClass own l q (fun f => f.tc = 0) with
    | none, none => none
    | some c, none => some (c, { l with collDeficit := l.collDeficit - cellsOf c, axisTurn := (c.tc.toNat - 2 + 1) % 8 })
    | none, some d => some (d, { l with dataDeficit := l.dataDeficit - cellsOf d })
    | some c, some d =>
      let topUp := l.collDeficit ≤ 0 && l.dataDeficit ≤ 0
      let cd := if topUp then l.collDeficit + 9 * cw else l.collDeficit
      let dd := if topUp then l.dataDeficit + 9 * dw else l.dataDeficit
      if 0 < cd then some (c, { l with collDeficit := cd - cellsOf c, dataDeficit := dd, axisTurn := (c.tc.toNat - 2 + 1) % 8 })
      else some (d, { l with collDeficit := cd, dataDeficit := dd - cellsOf d })

/-- The frame as it goes onto the wire: the reverse direction's ACK and the CRC. -/
def onWire (l : Link) (f : Frame) : Frame := sealFrame { f with ack := l.rxLast }

/-- Puts the frames of a link's queue on the wire while rules of R328 allow (fuel: the queue's length). -/
def pumpLink (own : BitVec 16) (cw dw clk : Nat) : Nat → Link → Link
  | 0, l => l
  | fuel + 1, l =>
    match firstLocal l.txQueue with
    | some f =>
      pumpLink own cw dw clk fuel { l with txQueue := l.txQueue.erase f, wire := l.wire ++ [onWire l f], lastTx := clk }
    | none =>
      match nextSequenced own cw dw l l.txQueue with
      | none => l
      | some (f, l1) =>
        if 262144 < replayBytes l + 32 + 32 * f.plen.toNat then l
        else
          let n := l1.txNext + 1
          let g := onWire l1 { f with lseq := n }
          let l2 := noteSent own f { l1 with txQueue := l1.txQueue.erase f, wire := l1.wire ++ [g], lastTx := clk, txNext := n }
          let ackAt := if l1.replay.isEmpty then clk else l1.ackAt
          pumpLink own cw dw clk fuel
            { l2 with replay := l1.replay ++ [g], sent := mapSet 0 l1.sent (vcOf f) ((mapGet 0 l1.sent (vcOf f) + cellsOf f) % 65536), ackAt := ackAt }

/-- The traffic class of a frame's cells in a filter (R403). -/
def cellAttr (f : Frame) : Attr := { attr0 with tc := some (if 2 ≤ f.tc.toNat && f.tc.toNat ≤ 9 then 1 else 0) }

/-- Frames put on a link's wire count in LNK_TX_CELLS and TUGS_SENT (R402). -/
def countSent (s : State) (k : Nat) (fs : List Frame) : State :=
  fs.foldl (fun t f =>
    let t1 := pmuAdd t (0x140 + k) (cellsOf f) (cellAttr f)
    if f.typ = ftTug then pmuAdd t1 0x171 1 attr0 else t1) s

/-- VCs whose first queued frame waits for credit. -/
def blockedVcs (own : BitVec 16) (l : Link) : List Nat :=
  ((l.txQueue.filter (fun f => !isLocal f)).map vcOf).dedup.filter (fun v =>
    (vcHead own l l.txQueue v).any (fun f => !hasCredit l f))

/-- A wait of some length in the units of STALL. -/
def stallUnits (ns : Nat) : Nat := min 255 (ns / 100000)

/-- The waits for credit after the transmitter ran: those that ended count in STALL, the longest first (LNK_LINK_STAT). -/
def noteStall (own : BitVec 16) (clk : Nat) (l : Link) : Link :=
  let b := blockedVcs own l
  let ended := l.waitFrom.filter (fun p => !b.contains p.1)
  { l with
    stall := ended.foldl (fun m p => max m (stallUnits (clk - p.2))) l.stall,
    waitFrom := b.foldl (fun m v => mapUpd m v (some ((mapFind l.waitFrom v).getD clk))) [] }

/-- Runs a link's transmitter; a link that is not UP sends nothing but keeps its queue. -/
def pump (s : State) (k : Nat) : State :=
  let l := linkGet s k
  if l.state = .up || l.helloWait then
    let own := BitVec.ofNat 16 (ownId s)
    let l' := noteStall own (tbNow s) (pumpLink own (actF s flCollWeight 0) (actF s flDataWeight 0) s.clk l.txQueue.length l)
    countSent (linkSet s k l') k (l'.wire.drop l.wire.length)
  else s

/-- Queues a frame on a link and runs its transmitter. -/
def sendOn (s : State) (k : Nat) (f : Frame) : State :=
  let l := linkGet s k
  pump (linkSet s k { l with txQueue := l.txQueue ++ [f] }) k

/-- The routing of R331: the output port and the frame with its VC and HDIM. `none` delivers locally (first) or drops. -/
inductive Route where
  | here
  | drop (port : Nat)
  | out (port : Nat) (f : Frame)
deriving DecidableEq, Repr

def routeOf (s : State) (f : Frame) (originated : Bool) : Route :=
  let e := routeEntry s.cfg.act f.dst.toNat
  if e.1 = 0xE then .here
  else if 11 < e.1 then .drop e.1
  else
    let dim (p : Nat) : Nat := actF s flPortDim p
    let entering := originated || dim e.1 != f.hdim.toNat
    let p? : Option Nat :=
      if portUp s e.1 then some e.1
      else if e.2 ≤ 11 && portUp s e.2 && entering then some e.2 else none
    match p? with
    | none => .drop e.1
    | some p =>
      let f1 := if originated || dim p != f.hdim.toNat then { f with vc := f.vc &&& 2, hdim := BitVec.ofNat 2 (dim p) } else f
      .out p (if actF s flPortDate p = 1 then { f1 with vc := f1.vc ||| 1 } else f1)

/-- The UP links of a port that may carry the frame: a COLL class frame leaves only on links of its axis (R336). -/
def carriers (s : State) (p : Nat) (f : Frame) (originated : Bool) : List Nat :=
  (portLinks s p).filter (fun k => linkUp s k &&
    (!originated || f.tc.toNat < 2 || (actF s flAxLinks (f.tc.toNat - 2)).testBit k))

/-- A dropped frame counts in DROPS of the lowest-numbered enabled link of the port it would have taken (DESIGN CHOICE,
log entry 20). -/
def countDrop (s : State) (p : Nat) : State :=
  match portLinks s p with
  | k :: _ => linkSet s k { linkGet s k with drops := satAdd 255 (linkGet s k).drops 1 }
  | [] => s

/-- Sends a sequenced frame on its route, spread over the UP links of the port (R330). A frame for this module itself
goes nowhere here. -/
def routeFrame (s : State) (f : Frame) (originated : Bool) : State :=
  match routeOf s f originated with
  | .here => s
  | .drop p => countDrop s p
  | .out p g =>
    match carriers s p g originated with
    | [] => countDrop s p
    | ks =>
      let k := ks.getD (s.net.rr % ks.length) 0
      sendOn { s with net := { s.net with rr := s.net.rr + 1 } } k g

/-- Sends a frame originated here. -/
def sendFrame (s : State) (f : Frame) : State := routeFrame s f true

/-- Sends a link-local frame on every UP link but those excluded. -/
def sendAllUp (s : State) (f : Frame) (skip : List Nat) : State :=
  ((List.range 24).filter (fun k => linkUp s k && !skip.contains k)).foldl (fun t k => sendOn t k f) s

/-- A NOTICE frame about a device (R324). -/
def noticeFrame (s : State) (dev count : Nat) (lost : Bool) (stat : BitVec 3) (cause : Nat) : Frame :=
  mkLocal s ftNotice (BitVec.ofNat 32 (dev + count * 65536)) 0
    (BitVec.ofNat 32 ((if lost then 1 else 0) + stat.toNat * 2 + cause * 16))

/-- A TUG on a link: its TAG counts the tugs sent on the link, this one included. -/
def sendTug (s : State) (k : Nat) : State :=
  let l := linkGet s k
  sendOn (linkSet s k { l with tugCount := l.tugCount + 1 }) k (mkLocal s ftTug (l.tugCount + 1) 0 0)

/-- A change of this module's SLOW, DRAINING or MAINT (R347): a TUG on every UP link at once, and a NOTICE of kind STATUS
with the notice count raised by one. -/
def statusChanged (s : State) : State :=
  let s1 := { s with net := { s.net with noticeCount := s.net.noticeCount + 1 } }
  let s2 := ((List.range 24).filter (linkUp s1)).foldl sendTug s1
  sendAllUp s2 (noticeFrame s2 (ownId s2) s2.net.noticeCount.toNat false (ownStat s2) 0) []

/-- Runs `statusChanged` when the status bits of two states differ. -/
def noteStatus (before after : State) : State :=
  if ownStat before = ownStat after then after else statusChanged after

/-- Members of an axis by rank. -/
def axisSize (s : State) (a : Nat) : Nat := actF s flAxSize a
def axisRank (s : State) (a : Nat) : Nat := actF s flAxRank a
def memberOf (s : State) (a r : Nat) : Nat := axisMember s.cfg.act a r

/-- A device is marked LOST or UNREACHABLE (R350). -/
def peerGone (s : State) (d : Nat) : Bool :=
  (peerGet s d).state = .lost || (peerGet s d).state = .unreachable

/-! ### Repair requests (R178, R353) -/

/-- The next rank to ask after rank index `i` (asked in turn from (r + 1) mod n), skipping LOST, UNREACHABLE and MAINT
members; none when no rank remains. `left` counts the ranks still to try. -/
def nextRepairRank (s : State) (axis : Nat) : Nat → Nat → Option Nat
  | 0, _ => none
  | left + 1, r =>
    let d := memberOf s axis r
    if peerGone s d || (peerGet s d).stat.getLsbD 2 then nextRepairRank s axis left ((r + 1) % axisSize s axis)
    else some r

/-- Sends the repair request of a block to a rank, and records it. -/
def askRepair (s : State) (name axis rank began : Nat) : State :=
  let e := htGet s name
  let id := s.net.nextId
  let f := mkFrame s ftRepairReq 1 0 (memberOf s axis rank) (BitVec.ofNat 32 id)
    (BitVec.ofNat 64 (name * blockBytes)) (e.gen.setWidth 32) []
  let r : Repair := { name := name, gen := e.gen, beganAt := began, rank := rank, reqId := id, got := [] }
  let reps := s.net.repairs.filter (fun x => x.name != name) ++ [r]
  sendFrame { s with net := { s.net with repairs := reps, nextId := id + 1 } } f

/-- Asks the rank that follows `after` in turn, or fails the repair when every other member has been tried. -/
def repairNext (s : State) (name axis after began : Nat) : State :=
  let n := axisSize s axis
  let own := axisRank s axis
  let tried := (after + n - own) % n
  match nextRepairRank s axis (n - 1 - tried) ((after + 1) % n) with
  | some r => askRepair s name axis r began
  | none => repairFail s name

/-- Begins the repair of a block whose granule was found chafed (REPAIR_FROM_AXIS of R178). -/
def startRepair (s : State) (name : Nat) : State :=
  let e := htGet s name
  let axis := actF s flRepairAxis e.account
  repairNext (htSet s name { e with repair := true }) name axis (axisRank s axis) (tbNow s)

/-- A granule of a SHARED block has been found chafed: the account's policy acts (R178). A DERIVED block is never repaired
(R153); REPAIR_FROM_AXIS then raises the cause alone (DESIGN CHOICE, log entry 125). -/
def chafePolicy (s : State) (name : Nat) : State :=
  let e := htGet s name
  if !e.shared then s
  else
    match actF s flErrPolicy e.account with
    | 1 => if e.repair then s else raiseCause (if e.derived then s else startRepair s name) irqChafe
    | 2 => raiseCause (haltAccount s e.account) irqChafe
    | _ => raiseCause (abortAccount s e.account) irqChafe

/-- The block's state after its marks changed (R156): HOME and LANDING become CHAFED with a mark; CHAFED leaves with the
last mark. A MOVING block becomes CHAFED at its retire. -/
def syncChafe (s : State) (name : Nat) : State :=
  let e := htGet s name
  let marked := blockMarked s e
  match e.state with
  | .home | .landing => if marked then htSet s name { e with state := .chafed } else s
  | .chafed =>
    if marked then s
    else htSet s name { e with state := if e.land && e.tier = .host then .landing else .home, repair := false }
  | _ => s

/-- A granule of a block is found chafed: the mark is set, CHAFE_MARKS counts a new one, the block becomes CHAFED and the
error policy acts (R175, R178). -/
def chafeAt (s : State) (name fa : Nat) : State :=
  let s1 := if granChafed s fa then s else pmuAdd (markGran s fa) 0x10F 1 attr0
  chafePolicy (syncChafe s1 name) name

/-- The block whose frame holds a frame address. -/
def nameOfFrame (s : State) (fa : Nat) : Option Nat :=
  let hit (p : Nat × HtEntry) : Bool := p.2.state != .unbound && frameBase p.2.tier p.2.frame = fa / blockBytes * blockBytes
  match s.tiers.ht.find? hit with
  | some p => some p.1
  | none => if (htDefault s.cfg.act s.fuses.variant (fa / blockBytes)).state = .unbound then none else some (fa / blockBytes)

/-- An uncorrectable error found in the granule at a device address (R175, R178); UE is the channel's to count. -/
def chafeFound (s : State) (a : Nat) : State :=
  match locate s none a with
  | none => s
  | some fa =>
    match nameOfFrame s fa with
    | some b => chafeAt s b fa
    | none => if granChafed s fa then s else pmuAdd (markGran s fa) 0x10F 1 attr0

/-! ### Writes by device address -/

/-- What a marked write of n bytes at a frame address of a block adds: CHAFE_MARKS counts the granules it newly marks, and
the error policy of a SHARED block acts (R175, R178). -/
def wroteMarked (before after : State) (name fa n : Nat) : State :=
  let new := ((granules fa n).filter (fun g => !granChafed before g)).length
  chafePolicy (if new = 0 then after else pmuAdd after 0x10F new attr0) name

/-- A device write of bytes into the host memory at a bus address, with its Relaxed Ordering attribute (R300). -/
def hostWrite (s : State) (relaxed : Bool) (bus : Nat) (bs : List Byte) : State :=
  { s with port := { s.port with out := s.port.out ++ [.write bus bs relaxed] } }

/-- Bytes written to the host memory at a bus address. -/
def busWrite (s : State) (relaxed : Bool) (bus : Nat) (bs : List Byte) : State :=
  hostWrite { s with mem := { s.mem with host := (bs.zipIdx).foldl (fun m q => mapSet 0 m (bus + q.2) q.1) s.mem.host } } relaxed bus bs

/-- Bytes stored with their mark in the frame of a block, and what a mark sets off there (R156, R175, R178). -/
def frameWrite (before s : State) (name fa : Nat) (bs : List Byte) (mark : Bool) : State :=
  let s1 := syncChafe (storeAt s fa bs mark) name
  if mark then wroteMarked before s1 name fa bs.length else s1

/-- A write through the straight window (R183): the block whose frame it is follows. -/
def straightWrite (s : State) (fa : Nat) (bs : List Byte) (mark : Bool) : State :=
  match nameOfFrame s fa with
  | some b => frameWrite s s b fa bs mark
  | none => storeAt s fa bs mark

/-- The message of a write to a block of the host tier (R300). -/
def tierWrite (s : State) (relaxed : Bool) (e : HtEntry) (a : Nat) (bs : List Byte) : State :=
  match e.tier, hostTierBus s.cfg.act (frameAddr e a) with
  | .host, some b => hostWrite s relaxed b bs
  | _, _ => s

/-- A write of a piece within one block: dropped for an unbound or foreign name, held for a MOVING block, otherwise
stored; the flag says whether the write was dropped (R155, R162, R177). A write that goes to the host leaves through the
port, and is dropped while the link is down (R300, R367). -/
def writePiece (relaxed : Bool) (acct : Option Nat) (mark : Bool) (acc : State × Bool) (p : Nat × List Byte) : State × Bool :=
  let s := acc.1
  match regionOf s.fuses.variant p.1 with
  | .hostWin =>
    (match busOf s.cfg.act p.1 with
    | some b => if s.port.linkUp then (busWrite s relaxed b p.2, acc.2) else acc
    | none => acc)
  | .straight =>
    (match straightFor s acct p.1 with
    | some fa => (straightWrite s fa p.2 mark, acc.2)
    | none => (s, true))
  | .unused => (s, true)
  | _ =>
    let e := htGet s (blockNo p.1)
    if e.state = .unbound || acct.any (fun x => x != e.account) then (s, true)
    else if e.state = .moving then (holdWrite s p.1 p.2 mark, acc.2)
    else if s.tiers.merging.contains (blockNo p.1) then (holdMerge s p.1 p.2 mark, acc.2)
    else if e.tier = .host && !s.port.linkUp then acc
    else (frameWrite s (tierWrite s relaxed e p.1 p.2) (blockNo p.1) (frameAddr e p.1) p.2 mark, acc.2)

/-- A write of the device by a device address. BAD_ACCESS of the name tier counts a dropped write of a line operation, of
kern for a device structure (R155, R444). -/
def devWriteAs (relaxed : Bool) (s : State) (acct : Option Nat) (a : Nat) (bs : List Byte) (mark : Bool) : State × Bool :=
  let r := (pieces a bs).foldl (writePiece relaxed acct mark) (s, false)
  if r.2 then (badAccess r.1 (if acct.isSome then nameTier (blockNo a) else .kern), true) else r

/-- Any other write than those of R300: it carries Relaxed Ordering into a host window. -/
def devWrite (s : State) (acct : Option Nat) (a : Nat) (bs : List Byte) (mark : Bool) : State × Bool := devWriteAs true s acct a bs mark

/-- A device structure written at a kern or host-window address (R444). -/
def putStruct (s : State) (a : Nat) (bs : List Byte) : State := (devWrite s none a bs false).1

/-- A completion record: a device structure without Relaxed Ordering (R300, R444). -/
def putRecord (s : State) (a : Nat) (bs : List Byte) : State := (devWriteAs false s none a bs false).1

end Sys2Proof.Machine
end

