-- ==== Sys2Proof/Machine/Arb.lean ====
section
/-! DEFINITION. The arbitration rule of every shared unit (R305 to R311): strict class priority, deficit round robin over
accounts, round robin or earliest deadline over an account's requests, and aging above all. -/

set_option Elab.async false

namespace Sys2Proof.Machine

open Sys2Proof

/-- A ready request at an arbiter (R306). `key` names it within its account (its line, or its place in the mover's
queue); `fits` says that the free servers suffice. -/
structure Req where
  cls : Nat
  acct : Nat
  key : Nat
  cost : Nat
  readyAt : Nat
  deadline : Nat
  fits : Bool
deriving DecidableEq, Repr

/-- The arbiter's index of a class and account. -/
def ca (cls acct : Nat) : Nat := cls * 256 + acct

/-- The request with the smallest measure, the earlier in the list on a tie. -/
def minBy (m : Req → Nat) (rs : List Req) : Option Req :=
  rs.foldl (fun acc r =>
    match acc with
    | none => some r
    | some q => if m r < m q then some r else some q) none

/-- Round robin over an account's requests: the one whose key follows the last served, cyclically. -/
def pickRobin (last : Nat) (rs : List Req) : Option Req :=
  match minBy Req.key (rs.filter (fun r => last < r.key)) with
  | some r => some r
  | none => minBy Req.key rs

/-- Earliest deadline within an account; no deadline ranks last, ties in queue order (R163). -/
def pickDeadline (rs : List Req) : Option Req :=
  match minBy Req.deadline (rs.filter (fun r => r.deadline != 0)) with
  | some r => some r
  | none => rs.head?

/-- One scan of `drr_pick` over accounts in turn: the first fitting ready account with credit, with the banked credit of
idle accounts given up on the way. -/
def drrScan (k : Nat) (rs : List Req) : List Nat → Arb → Option Nat × Arb
  | [], u => (none, u)
  | a :: as, u =>
    let d := mapGet 0 u.deficit (ca k a)
    if rs.any (fun r => r.cls = k && r.acct = a && r.fits) then
      (if 0 < d then (some a, u) else drrScan k rs as u)
    else
      let u' := if !(rs.any (fun r => r.cls = k && r.acct = a)) && 0 < d then
        { u with deficit := mapSet 0 u.deficit (ca k a) 0 } else u
      drrScan k rs as u'

/-- The credit that the end of a pass gives each fitting ready account. -/
def drrTopUp (weight : Nat → Nat) (quantum k : Nat) (rs : List Req) (u : Arb) : Arb :=
  { u with deficit := (List.range 256).foldl (fun m a =>
      if rs.any (fun r => r.cls = k && r.acct = a && r.fits) then
        mapSet 0 m (ca k a) (mapGet 0 m (ca k a) + (weight a * quantum : Nat)) else m) u.deficit }

/-- The grant of a request: its cost charged, the account keeping its turn. -/
def drrGrant (u : Arb) (r : Req) : Arb :=
  { deficit := mapSet 0 u.deficit (ca r.cls r.acct) (mapGet 0 u.deficit (ca r.cls r.acct) - r.cost),
    nextAcct := mapSet 0 u.nextAcct r.cls r.acct,
    lastLine := mapSet 0 u.lastLine (ca r.cls r.acct) r.key }

/-- `drr_pick` of R309 in class `k`: the request granted, and the arbiter afterwards (its deficits change even when
nothing is granted). -/
def drrPick (weight : Nat → Nat) (quantum : Nat) (byDeadline : Bool) (k : Nat) (rs : List Req) : Nat → Arb → Option Req × Arb
  | 0, u => (none, u)
  | pass + 1, u =>
    let order := (List.range 256).map (fun i => (mapGet 0 u.nextAcct k + i) % 256)
    match drrScan k rs order u with
    | (some a, u1) =>
      let mine := rs.filter (fun r => r.cls = k && r.acct = a && r.fits)
      (match (if byDeadline then pickDeadline mine else pickRobin (mapGet 0 u1.lastLine (ca k a)) mine) with
      | some r => (some r, drrGrant u1 r)
      | none => (none, u1))
    | (none, u1) => drrPick weight quantum byDeadline k rs pass (drrTopUp weight quantum k rs u1)

/-- A request is aged (R311). -/
def isAged (ageUs clk : Nat) (r : Req) : Bool := r.readyAt + ageUs * 1000 ≤ clk

/-- The arbiter's next grant: the oldest aged request, which nothing may pass; otherwise the highest class with a fitting
request (R307, R311). -/
def arbPick (weight : Nat → Nat) (quantum : Nat) (byDeadline : Bool) (ageUs clk : Nat) (rs : List Req) (u : Arb) : Option Req × Arb :=
  match minBy Req.readyAt (rs.filter (isAged ageUs clk)) with
  | some r => if r.fits then (some r, drrGrant u r) else (none, u)
  | none =>
    match ((List.range 8).map (fun i => 7 - i)).find? (fun k => rs.any (fun r => r.cls = k && r.fits)) with
    | some k => drrPick weight quantum byDeadline k rs 2 u
    | none => (none, u)

/-- An aged grant counts in LINE_ARB_STAT. -/
def noteGrant (s : State) (r : Req) : State :=
  if isAged (actF s flAgeUs 0) (tbNow s) r then
    { s with wfc := { s.wfc with agedGrants := satAdd (2 ^ 32 - 1) s.wfc.agedGrants 1,
                                 maxAgedWait := max s.wfc.maxAgedWait (min 65535 ((tbNow s - r.readyAt) / 1000)) } }
  else s

/-- The pick of an arbiter of this module now. -/
def pickNow (s : State) (quantum : Nat) (byDeadline : Bool) (rs : List Req) (u : Arb) : Option Req × Arb :=
  arbPick (fun a => actF s flArbWeight a) quantum byDeadline (actF s flAgeUs 0) (tbNow s) rs u

end Sys2Proof.Machine
end

