-- ==== Sys2Proof/Machine/Lines.lean ====
section
/-! DEFINITION. Lines: hitches, completion records and the end of operations (R264 to R288). -/

set_option Elab.async false

namespace Sys2Proof.Machine

open Sys2Proof

/-! ### Hitches -/

def hitchGet (s : State) (h : Nat) : Hitch := mapGet Hitch.reset s.hitches h

/-- An amount added to a hitch's count, modulo 2^32 (R278). The line that added last is remembered; an addition of the host
leaves none (R317). -/
def hitchAdd (s : State) (h : Nat) (add : W32) (line : Option Nat) : State :=
  let x := hitchGet s h
  let x' : Hitch := { count := x.count + add, lastLine := line }
  { s with hitches := mapSet Hitch.reset s.hitches h x' }

/-- A wait for `value` is satisfied (R278). -/
def hitchMet (s : State) (h : Nat) (value : W32) : Bool := 0 ≤ ((hitchGet s h).count - value).toInt

/-- The account may wait on and signal the hitch (R277). -/
def hitchAllowed (s : State) (acct h : Nat) : Bool :=
  let g := h / 1024
  actF s flGrpOwner g = acct || (actF s flGrpPeerEn g = 1 && actF s flGrpPeer g = acct)

/-! ### Completion records -/

/-- The rank of R275: a higher number is reported before a lower one. Rejections and the 0x6x codes stand alone. -/
def statusRank (c : Nat) : Nat :=
  match c with
  | 0x41 => 12
  | 0x11 => 11
  | 0x12 => 10
  | 0x10 => 9
  | 0x50 => 8
  | 0x51 => 7
  | 0x52 => 6
  | 0x30 => 5
  | 0x40 => 4
  | 0x02 => 3
  | 0x01 => 2
  | 0x00 => 1
  | _ => 0

/-- The higher-ranking of two statuses. -/
def worse (a b : Nat) : Nat := if statusRank a < statusRank b then b else a

/-- STOP_MASK's group of a status (LINE_CFG). -/
def stopGroup (c : Nat) : Option Nat :=
  if 0x20 ≤ c && c ≤ 0x23 then some 0
  else if c = 0x30 then some 1
  else if c = 0x40 then some 2
  else if 0x10 ≤ c && c ≤ 0x12 then some 3
  else if 0x50 ≤ c && c ≤ 0x52 then some 4
  else if 0x60 ≤ c && c ≤ 0x62 then some 5
  else none

/-- The line stops after a final status (R276). -/
def stopsAfter (s : State) (n c : Nat) : Bool :=
  c = stUncorrectable || (stopGroup c).any (fun g => (actF s flStopMask n).testBit g)

/-- The 32 bytes of a completion record (R273). -/
def recordBytes (seq status : Nat) (flags : Byte) (epoch : BitVec 16) (ts : W64) (opb : List Byte) : List Byte :=
  bytesOf 4 seq ++ bytesOf 1 status ++ [flags] ++ bytesOf 2 epoch.toNat ++ bytesOf 8 ts.toNat ++ fitBytes 16 opb

/-- A record written at CQ_TAIL, which then advances (R273). -/
def writeRecord (s : State) (n : Nat) (rec_ : List Byte) : State :=
  let l := lineGet s n
  let s1 := putRecord s (actF s flCqBase n * 4096 + 32 * l.cqTail) rec_
  lineSet s1 n { lineGet s1 n with cqTail := (l.cqTail + 1) % cqSize s n }

/-- The posted writes that stay when those that match land: a write lands with every later one of its granule that does. -/
def stillPosted (p : Posted → Bool) : List Posted → List Posted
  | [] => []
  | x :: xs =>
    let rest := stillPosted p xs
    if p x || xs.any (fun y => p y && granOf y.addr = granOf x.addr) then rest else x :: rest

/-- The posted writes that match are drained: every reader sees them, and so the earlier ones of their granules (R291,
R294). -/
def drainPosted (s : State) (p : Posted → Bool) : State :=
  { s with mem := { s.mem with posted := stillPosted p s.mem.posted } }

/-- The posted writes of an operation belong to a write set of ACCOUNT and DEVICE scope once its final record is written
(R295). -/
def postedFinal (s : State) (n seq : Nat) : State :=
  { s with mem := { s.mem with posted := s.mem.posted.map (fun x =>
      if x.line = n && x.seq = seq then { x with final := true } else x) } }

/-- Blocks of an account for which writes are held. -/
def heldBlocks (s : State) (acct : Nat) : List Nat :=
  (s.tiers.moves.filter (fun m => m.started && m.account = acct && !m.held.isEmpty)).map Move.name ++
  (s.tiers.mergeHeld.map Prod.fst).dedup.filter (fun b => (htGet s b).account = acct)

/-- The DONE_SIG addition of an operation: at once, or, where writes of its account are held for MOVING blocks, once those
blocks' moves have retired (R162, R279; DEDUCED, log entry 132). -/
def doneSig (s : State) (n seq h : Nat) : State :=
  let s1 := drainPosted s (fun x => x.line = n && x.seq = seq)
  match heldBlocks s1 (lineAcct s1 n) with
  | [] => hitchAdd s1 h 1 (some n)
  | bs => { s1 with tiers := { s1.tiers with lateSigs := s1.tiers.lateSigs ++ [(n, h, bs)] } }

/-- A block's held writes have been applied: the additions that waited for it alone take effect. -/
def sigsAfter (s : State) (name : Nat) : State :=
  let left := s.tiers.lateSigs.map (fun x => (x.1, x.2.1, x.2.2.filter (fun b => b != name)))
  (left.filter (fun x => x.2.2.isEmpty)).foldl (fun t x => hitchAdd t x.2.1 1 (some x.1))
    { s with tiers := { s.tiers with lateSigs := left.filter (fun x => !x.2.2.isEmpty) } }

/-- What follows a final record: the vector when IRQ is 1, DONE_SIG once the operation's outputs are visible at DEVICE
scope (R279), and the stop of R276. `sig` is false where R269 or R279 let nothing be signalled. -/
def afterRecord (s : State) (n seq status : Nat) (d : BitVec 512) (sig irq : Bool) : State :=
  let s1 := postedFinal s n seq
  let s2 := if irq && dIrq d then sendVec s1 (actF s1 flLineVector n) else s1
  let s3 := if sig && dDoneSig d then doneSig s2 n seq (dDoneHitch d) else s2
  if stopsAfter s3 n status then lineSet s3 n { lineGet s3 n with stopped := true } else s3

/-- The header of an operation: an epilogue pair signals by its BRD_MM's header. During an FLR no record, signal or message
is produced (R366). -/
def finalRecord (s : State) (n seq status : Nat) (flags : Byte) (epoch : BitVec 16) (d : BitVec 512) (opb : List Byte) (sig irq : Bool) : State :=
  if s.port.flrAt.isSome then noteLine s n
  else noteLine (afterRecord (writeRecord s n (recordBytes seq status flags epoch s.tb.now opb)) n seq status d sig irq) n

/-! ### Operations in flight -/

/-- The operation of a line with a sequence number. -/
def opFind (s : State) (n seq : Nat) : Option OpEnt := (lineGet s n).ops.find? (fun o => o.seq = seq)

/-- The operation's entry changed. -/
def opSet (s : State) (n : Nat) (o : OpEnt) : State :=
  let l := lineGet s n
  lineSet s n { l with ops := l.ops.map (fun x => if x.seq = o.seq then o else x) }

/-- The operation leaves the tracker (its entry is DONE). -/
def opDrop (s : State) (n seq : Nat) : State :=
  let l := lineGet s n
  lineSet s n { l with ops := l.ops.filter (fun x => x.seq != seq) }

/-- The operation becomes `o`, but where it stands is what its entry says now: an error met meanwhile may have suspended it
(R178). -/
def opKeep (s : State) (n : Nat) (o : OpEnt) : State :=
  match opFind s n o.seq with
  | some x => opSet s n { o with track := x.track, suspendedBy := x.suspendedBy }
  | none => s

/-- A status that applies to the operation at its end (R275). -/
def opWorse (o : OpEnt) (st : Nat) : OpEnt := { o with status := worse o.status st }

/-- Flags ORed into the operation's byte (R11, R12). -/
def opFlags (o : OpEnt) (f : Byte) : OpEnt := { o with flags := o.flags ||| f }

/-- The status that an operation's end reports: its own, or the cancelled status of the cause that came first unless
UNCORRECTABLE outranks it (R275, R283). -/
def endStatus (o : OpEnt) (st : Nat) : Nat :=
  if o.track = .cancelPending then (if o.status = stUncorrectable then stUncorrectable else o.cancelStatus)
  else if st = stOk then o.status else st

/-- The undispatched operation of a line, the one that its opcode's row dispatches. -/
def undispatched (s : State) (n : Nat) : Option OpEnt := (lineGet s n).ops.find? (fun o => !o.dispatched)

/-- A fresh entry at the take (R269, R283). -/
def opNew (seq slot slots : Nat) (d d2 : BitVec 512) : OpEnt where
  seq := seq
  entry := 0
  slot := slot
  slots := slots
  desc := d
  desc2 := d2
  track := .running
  dispatched := false
  tDisp := 0
  cDisp := 0
  epoch := 0
  status := stOk
  cancelStatus := stCancelled
  flags := 0
  suspendedBy := none
  resumeBy := none
  readyAt := none
  splReady := []
  aged := false
  next := 0
  done := 0
  total := 0
  inflight := 0
  chafedN := 0
  firstChafed := none
  n1 := 0
  n2 := 0
  n3 := 0
  census := { total := 0, zeros := 0, subnormals := 0, sat := 0, nans := 0, infs := 0, chafed := 0 }
  censusIndex := 0xFFFFFFFF
  prog := []
  par := []
  tab := []
  ptab := []
  chafedProg := false
  units := []
  partial_ := []
  partialChafed := false
  failed := false
  wset := []
  wrote := []
  coll := Coll.reset

/-- Dispatch: the instant from which the operation runs (R86, R269). -/
def opDispatch (s : State) (o : OpEnt) : OpEnt :=
  { o with dispatched := true, tDisp := s.tb.now, cDisp := tbNow s, epoch := s.belay.epoch }

/-- The final record of an operation whose entry becomes DONE (R283): its own flags and epoch, the ranking of R275. -/
def finishOp (s : State) (n : Nat) (o : OpEnt) (st : Nat) (opb : List Byte) : State :=
  let s := if endStatus o st = stQuotaExceeded then pmuAdd s 0x10E 1 (attrP (lineAcct s n)) else s
  finalRecord (opDrop s n o.seq) n o.seq (endStatus o st) o.flags o.epoch o.desc opb true true

/-- A rejection at dispatch: the final record alone, with the op-specific bytes zero,
and nothing done. -/
def rejectOp (s : State) (n : Nat) (o : OpEnt) (st : Nat) : State :=
  let st' := if o.track = .cancelPending then o.cancelStatus else st
  finalRecord (opDrop (pmuAdd s (0x05C + lineStrand s n) 1 (attrP (lineAcct s n))) n o.seq) n o.seq st' 0 s.belay.epoch o.desc [] true true

def ctrlLine (d : BitVec 512) : Nat := dF d 8 15 0
def ctrlAction (d : BitVec 512) : Nat := dF d 8 17 16
def ctrlSeq (d : BitVec 512) : Nat := dF d 0x10 31 0

/-- The op-specific bytes of a CTRL record: the echo of its target (R282). -/
def ctrlBytes (d : BitVec 512) : List Byte := bytesOf 4 (ctrlSeq d) ++ bytesOf 4 (ctrlLine d)

/-- The op-specific bytes of an operation that ends before its dispatch: zero but for a CTRL's echo. -/
def earlyBytes (o : OpEnt) : List Byte := if opcodeOf o.desc = opCtrl then ctrlBytes o.desc else []

/-- The outcome type of a meaning. -/
abbrev Out := Host.Outcome State Fault Refusal

/-- The line's dispatch may go on: its account is not HALTED and no FLR runs. -/
def mayDispatch (s : State) (n : Nat) : Bool := !acctHalted s (lineAcct s n) && s.port.flrAt.isNone

/-- Runs `f` on the undispatched operation of a line with opcode `opc`; without one, or while dispatch is stopped, the
event does not arise. An operation cancelled before its dispatch ends without being dispatched. -/
def onDispatch (s : State) (n opc : Nat) (f : OpEnt → State) : Out :=
  match undispatched s n with
  | some o =>
    if opcodeOf o.desc = opc && mayDispatch s n then
      (if o.track = .cancelPending then .next (finishOp s n o stOk (earlyBytes o)) else .next (f o))
    else .next s
  | none => .next s

/-- HEAD: it follows FETCH except while a loop is active (R267, R280). -/
def headFollows (l : Line) : Line := if l.loop.isSome then l else { l with head := l.fetch }

/-! ### Requests that wait at the port and the fid ports (R189, R299) -/

/-- The host's BAR accesses reach the module: rails up, out of reset, the port link up, no FLR in progress, and
configuration past MANTLE (R366, R373, R382). -/
def hostReach (s : State) : Bool :=
  s.power.rails && s.power.perstActed == false && s.port.linkUp && s.port.flrAt.isNone && 6 ≤ s.boot.phase

/-- A host request waits in the port's queue. -/
def hostWaits (s : State) : Bool := s.ingress.queue.any HeldReq.host

/-- A request that has arrived waits behind those that came before it; a, n and `write` are its device access. -/
def holdReq (s : State) (c : Instr) (host : Bool) (a n : Nat) (write : Bool) : State :=
  let r : HeldReq := { cmd := c, no := s.ingress.next, host := host, addr := a, len := n, write := write }
  { s with ingress := { queue := s.ingress.queue ++ [r], next := s.ingress.next + 1 } }

/-- The port takes the host's requests in arrival order: an access of n device bytes that finds another request waiting waits
behind it (R299, R314). -/
def hostAccess (c : Instr) (a n : Nat) (write : Bool) (run : State → Out) (s : State) : Out :=
  if hostWaits s then .next (holdReq s c true a n write) else run s

/-- A register access in its turn. -/
def hostLane (c : Instr) (run : State → Out) (s : State) : Out := hostAccess c 0 0 false run s

/-- Some write is held for a block that moves or is to be merged (R162, R257). -/
def heldWrites (s : State) : Bool := s.tiers.moves.any (fun m => !m.held.isEmpty) || !s.tiers.mergeHeld.isEmpty

/-- A register write that makes earlier host writes visible, in its turn: it waits until no write is held (R299; DESIGN CHOICE,
log entry 135: it waits for the held writes of other writers too). -/
def hostSignal (c : Instr) (run : State → Out) (s : State) : Out :=
  if hostWaits s || heldWrites s then .next (holdReq s c true 0 0 false) else run s

end Sys2Proof.Machine
end

