-- ==== Sys2Proof/Machine/LineOps.lean ====
section
/-! DEFINITION. Doorbells, host line commands, hitches, LOOP, CTRL and STOPPER: the operations of the line engines
themselves (R266, R276 to R286, R292 to R297). -/

set_option Elab.async false

namespace Sys2Proof.Machine

open Sys2Proof

/-! ### Doorbells -/

/-- TAIL set by a doorbell write, modulo the ring size (R266); ignored on a disabled line. -/
def doorbellTailWriteNow (line : LineNo) (val : W32) (s : State) : Out :=
  let n := line.toNat
  if hostReach s && lineOn s n then
    .next (noteLine (lineSet s n { lineGet s n with tail := val.toNat % 2 ^ 20 % ringSize s n }) n)
  else .next s

/-- A TAIL doorbell, in its turn (R299). -/
def execDoorbellTailWrite (line : LineNo) (val : W32) (s : State) : Out := hostSignal (.doorbellTailWrite line val) (doorbellTailWriteNow line val) s

/-- CHEAD set by a doorbell write, modulo the completion ring's size (R266). -/
def completionHeadWriteNow (line : LineNo) (val : W32) (s : State) : Out :=
  let n := line.toNat
  if hostReach s && lineOn s n then
    .next (noteLine (lineSet s n { lineGet s n with cHead := val.toNat % 2 ^ 20 % cqSize s n }) n)
  else .next s

/-- A CHEAD doorbell, in its turn (R299). -/
def execCompletionHeadWrite (line : LineNo) (val : W32) (s : State) : Out := hostLane (.completionHeadWrite line val) (completionHeadWriteNow line val) s

/-- The host's addition to a hitch (LINE_HITCH_ADD, R278). -/
def lineHitchAddNow (hitch : HitchNo) (add : W32) (s : State) : Out :=
  if hostReach s then .next (hitchAdd s hitch.toNat add none) else .next s

/-- LINE_HITCH_ADD, in its turn (R299). -/
def execLineHitchAdd (hitch : HitchNo) (add : W32) (s : State) : Out := hostSignal (.lineHitchAdd hitch add) (lineHitchAddNow hitch add) s

/-- RESTART resumes taking at FETCH on a STOPPED line (R276). -/
def restartNow (line : LineNo) (s : State) : Out :=
  let n := line.toNat
  if hostReach s && lineState s n = 3 then .next (noteLine (lineSet s n { lineGet s n with stopped := false }) n)
  else .next s

/-- RESTART, in its turn (R299). -/
def execRestart (line : LineNo) (s : State) : Out := hostLane (.restart line) (restartNow line) s

/-- BREAK ends the line's active loop at its next LOOP dispatch (R280, R281). -/
def breakNow (line : LineNo) (s : State) : Out :=
  let n := line.toNat
  match (lineGet s n).loop with
  | some lp => if hostReach s then .next (lineSet s n { lineGet s n with loop := some { lp with breakPending := true } }) else .next s
  | none => .next s

/-- BREAK, in its turn (R299). -/
def execBreak (line : LineNo) (s : State) : Out := hostLane (Instr.break line) (breakNow line) s

/-! ### Hitches -/

/-- HITCH, VALUE and TIMEOUT_NS of a HITCH_WAIT or HITCH_SIG. -/
def hwHitch (d : BitVec 512) : Nat := dF d 8 17 0
def hwValue (d : BitVec 512) : W32 := BitVec.ofNat 32 (dF d 0xC 31 0)
def hwTimeout (d : BitVec 512) : Nat := dF d 0x10 31 0

/-- The op-specific bytes of a HITCH_WAIT record: the count and the time waited, saturating (R279's tables). -/
def hitchWaitBytes (s : State) (o : OpEnt) : List Byte :=
  bytesOf 4 (hitchGet s (hwHitch o.desc)).count.toNat ++ bytesOf 4 (min (2 ^ 32 - 1) (tbNow s - o.cDisp))

/-- A HITCH_WAIT is dispatched: it retires at once when it is satisfied, and holds the next take otherwise (R278). -/
def execHitchWait (line : LineNo) (s : State) : Out :=
  onDispatch s line.toNat opHitchWait (fun o =>
    let o1 := opDispatch s o
    if hitchMet s (hwHitch o.desc) (hwValue o.desc) then finishOp s line.toNat o1 stOk (hitchWaitBytes s o1)
    else noteLine (opSet s line.toNat o1) line.toNat)

/-- The dispatched HITCH_WAIT of a line, in flight and not cancelled. -/
def waiting (s : State) (n : Nat) : Option OpEnt :=
  (lineGet s n).ops.find? (fun o => o.dispatched && opcodeOf o.desc = opHitchWait && o.track = .running)

/-- A wait whose condition has become true retires OK (R278). -/
def execHitchWaitSatisfied (line : LineNo) (s : State) : Out :=
  match waiting s line.toNat with
  | some o =>
    if hitchMet s (hwHitch o.desc) (hwValue o.desc) then .next (finishOp s line.toNat o stOk (hitchWaitBytes s o)) else .next s
  | none => .next s

/-- A wait still unsatisfied TIMEOUT_NS after its dispatch completes HITCH_TIMEOUT (R278). -/
def execHitchTimeout (line : LineNo) (s : State) : Out :=
  match waiting s line.toNat with
  | some o =>
    if !hitchMet s (hwHitch o.desc) (hwValue o.desc) && hwTimeout o.desc != 0 && o.cDisp + hwTimeout o.desc ≤ tbNow s then
      .next (finishOp s line.toNat o stHitchTimeout (hitchWaitBytes s o))
    else .next s
  | none => .next s

/-- A HITCH_SIG adds ADD at its dispatch, which is its retire point (R278). -/
def execHitchSig (line : LineNo) (s : State) : Out :=
  onDispatch s line.toNat opHitchSig (fun o =>
    let s1 := hitchAdd s (hwHitch o.desc) (hwValue o.desc) (some line.toNat)
    finishOp s1 line.toNat (opDispatch s o) stOk (bytesOf 4 (hitchGet s1 (hwHitch o.desc)).count.toNat))

/-! ### LOOP -/

def loopCount (d : BitVec 512) : W32 := BitVec.ofNat 32 (dF d 8 31 0)
def loopDist (d : BitVec 512) : Nat := dF d 8 51 32

/-- The line after a LOOP's dispatch, LEFT and TAKEN (R280): `lp` is the active loop at this slot, activated here when the
line had none. -/
def loopStep (ring : Nat) (l : Line) (slot : Nat) (lp : LoopSt) : Line × W32 × Bool :=
  let first := (slot + ring - lp.dist) % ring
  if lp.breakPending || lp.left = 0 then
    let next := (slot + 1) % ring
    ({ l with loop := none, fetch := next, head := next }, lp.left, false)
  else
    let left := if lp.left = 0xFFFFFFFF then lp.left else lp.left - 1
    ({ l with loop := some { lp with left := left }, fetch := first, head := first }, left, true)

/-- A LOOP's dispatch, which is its retire point (R280). -/
def execLoop (line : LineNo) (s : State) : Out :=
  let n := line.toNat
  onDispatch s n opLoop (fun o =>
    let l := lineGet s n
    let fresh : LoopSt := { slot := o.slot, dist := loopDist o.desc, left := loopCount o.desc, breakPending := false }
    match l.loop with
    | some lp =>
      if lp.slot = o.slot then
        let r := loopStep (ringSize s n) l o.slot lp
        finishOp (lineSet s n r.1) n (opDispatch s o) stOk (bytesOf 4 r.2.1.toNat ++ bytesOf 4 (if r.2.2 then 1 else 0))
      else rejectOp s n o stDescInvalid
    | none =>
      let r := loopStep (ringSize s n) l o.slot fresh
      finishOp (lineSet s n r.1) n (opDispatch s o) stOk (bytesOf 4 r.2.1.toNat ++ bytesOf 4 (if r.2.2 then 1 else 0)))

/-! ### CTRL -/

/-- A sequence number that the line has not assigned yet (R282). -/
def unassigned (s : State) (n seq : Nat) : Bool :=
  0 ≤ (BitVec.ofNat 32 seq - BitVec.ofNat 32 (lineGet s n).nextSeq).toInt

/-- The CTRL descriptors that wait for the resume of operation `seq` of line `n`, with their lines (R286). -/
def resumeWaiters (s : State) (n seq : Nat) : List (Nat × OpEnt) :=
  s.lines.flatMap (fun p => (p.2.ops.filter (fun x =>
    opcodeOf x.desc = opCtrl && x.dispatched && x.resumeBy == some (some (n, seq)) && x.track = .running)).map (fun x => (p.1, x)))

/-- The target is no longer SUSPENDED: every RESUME of it that waits is accepted, `host` that of the host, with OK: it takes
effect, or has none where another RESUME or a cancel came first (R284, R286; DEDUCED, log entry 133). -/
def settleResumes (s : State) (n seq : Nat) (host : Bool) : State :=
  let s1 := if host then { s with regs := { s.regs with ctrlBusy := false, ctrlStatus := BitVec.ofNat 8 stOk } } else s
  (resumeWaiters s1 n seq).foldl (fun t p => finishOp t p.1 p.2 stOk (ctrlBytes p.2.desc)) s1

/-- A cancel accepted by an entry in flight: CANCEL_PENDING with the cancelled status of its cause; the first cause stays
(R275, R283). -/
def cancelOp (s : State) (n : Nat) (o : OpEnt) (cause : Nat) : State :=
  if o.track = .cancelPending then s
  else
    let s1 := opSet s n { o with track := .cancelPending, cancelStatus := cause, resumeBy := if opcodeOf o.desc = opCtrl then o.resumeBy else none }
    if o.track = .suspended then settleResumes s1 n o.seq (o.resumeBy == some none) else s1

/-- The completion ring has room for one more reservation (R270, R286). -/
def resumeRoom (s : State) (n : Nat) : Bool := 2 * ((lineGet s n).ops.length + 1) ≤ cqFree s n

/-- The suspended operation continues from its context (R284, R286). -/
def resumeOp (s : State) (n : Nat) (o : OpEnt) : State :=
  settleResumes (noteLine (opSet s n { o with track := .running, resumeBy := none, suspendedBy := none, readyAt := none, splReady := [] }) n)
    n o.seq (o.resumeBy == some none)

/-- The outcome of a suspend (0), resume (1) or cancel (2) on an operation (R284): the state after, and its status; none
when a resume must wait for ring room (R286). `by_` is the line that asked, none for the host. `endSusp` ends a suspended
operation that is cancelled. -/
def ctrlApply (endSusp : State → Nat → OpEnt → State) (s : State) (act n seq : Nat) (by_ : Option Nat) : State × Option Nat :=
  match opFind s n seq with
  | none => (s, some stAlreadyDone)
  | some o =>
    let opc := opcodeOf o.desc
    if act = 2 then
      (if neverCancelled opc then (s, some stAlreadyDone)
      else if o.track = .suspended then
        (match opFind (cancelOp s n o stCancelled) n seq with
        | some o1 => (endSusp (cancelOp s n o stCancelled) n o1, some stOk)
        | none => (s, some stOk))
      else (cancelOp s n o stCancelled, some stOk))
    else if !suspendable opc then (s, some stDescInvalid)
    else if act = 0 then
      (if o.track = .running then (opSet s n { o with track := .suspendPending, suspendedBy := by_ }, some stOk) else (s, some stOk))
    else
      (match o.track with
      | .suspendPending => (opSet s n { o with track := .running, suspendedBy := none }, some stOk)
      | .suspended => if resumeRoom s n then (resumeOp s n o, some stOk) else (s, none)
      | _ => (s, some stOk))

/-- A CTRL descriptor's dispatch with ACTION `act`, or a host write of LINE_CTRL (R282 to R286). -/
def ctrlNow (endSusp : State → Nat → OpEnt → State) (act : Nat) (src : CtrlSrc) (s : State) : Out :=
  match src with
  | .desc line =>
    let n := line.toNat
    (match undispatched s n with
    | some o =>
      if opcodeOf o.desc = opCtrl && ctrlAction o.desc = act then
        onDispatch s n opCtrl (fun o =>
          let r := ctrlApply endSusp s act (ctrlLine o.desc) (ctrlSeq o.desc) (some n)
          match r.2 with
          | some st => finishOp r.1 n (opDispatch s o) st (ctrlBytes o.desc)
          | none =>
            let o1 := { opDispatch s o with resumeBy := some (some (ctrlLine o.desc, ctrlSeq o.desc)) }
            noteLine (opSet s n o1) n)
      else .next s
    | none => .next s)
  | .host target seq =>
    let n := target.toNat
    if !hostReach s || s.regs.ctrlBusy then .next s
    else if !lineOn s n || unassigned s n seq.toNat then
      .next { s with regs := { s.regs with ctrlStatus := BitVec.ofNat 8 stDescInvalid } }
    else
      let r := ctrlApply endSusp s act n seq.toNat none
      match r.2 with
      | some st => .next { r.1 with regs := { r.1.regs with ctrlStatus := BitVec.ofNat 8 st } }
      | none =>
        (match opFind s n seq.toNat with
        | some o => .next { opSet s n { o with resumeBy := some none } with regs := { s.regs with ctrlBusy := true } }
        | none => .next s)

/-- A CTRL request: a descriptor's at once, the host's in its turn (R299). -/
def ctrlExec (endSusp : State → Nat → OpEnt → State) (act : Nat) (c : CtrlSrc → Instr) (src : CtrlSrc) (s : State) : Out :=
  match src with
  | .desc _ => ctrlNow endSusp act src s
  | .host _ _ => hostLane (c src) (ctrlNow endSusp act src) s

/-- A waiting resume takes effect once the ring has room (R286). -/
def execResumeTakesEffect (line : LineNo) (seq : Seq) (s : State) : Out :=
  let n := line.toNat
  match opFind s n seq.toNat with
  | none => .next s
  | some o =>
    if o.track = .suspended && resumeRoom s n && (!(resumeWaiters s n o.seq).isEmpty || o.resumeBy == some none) then
      .next (resumeOp s n o)
    else .next s

/-! ### STOPPER -/

def stopScope (d : BitVec 512) : Nat := dF d 8 2 0
def stopAxis (d : BitVec 512) : Nat := dF d 8 5 3

/-- Operations whose final record was written before the dispatch and that the scope's write set holds (R295). -/
def writeSet (s : State) (n scope : Nat) : List (Nat × Nat) :=
  let acct := lineAcct s n
  ((s.mem.posted.filter (fun p => p.final && (2 ≤ scope || (scope = 1 && p.account = acct)))).map (fun p => (p.line, p.seq))).dedup

/-- A host write that arrived before a stopper's dispatch has not landed yet, and its scope waits for it (hw_drain_ingress of
R294); or a write is held for a block that moves or is to be merged (log entry 135). -/
def ingressHolds (s : State) (o : OpEnt) : Bool :=
  heldWrites s || (2 ≤ stopScope o.desc && s.ingress.queue.any (fun r => r.no < o.next && r.host && r.write))

/-- A STOPPER is dispatched (R294): OPS_WAITED operations of its line are still in flight; `next` is the arrival number of the
next request. -/
def execStopper (line : LineNo) (s : State) : Out :=
  let n := line.toNat
  onDispatch s n opStopper (fun o =>
    let o1 := { opDispatch s o with n1 := (lineGet s n).ops.length - 1, wset := writeSet s n (stopScope o.desc), next := s.ingress.next }
    noteLine (opSet s n o1) n)

/-- The op-specific bytes of a STOPPER record (R297): n2 is WAIT_NS, the drain began at clk `n3`. -/
def stopperBytes (s : State) (o : OpEnt) : List Byte :=
  bytesOf 4 (min (2 ^ 32 - 1) o.n2) ++ bytesOf 4 (min (2 ^ 32 - 1) (tbNow s - (o.cDisp + o.n2))) ++ bytesOf 4 o.n1 ++ bytesOf 4 0

/-- The dispatched STOPPER of a line; `total` is 1 from the end of its wait. -/
def stopperOf (s : State) (n : Nat) : Option OpEnt :=
  (lineGet s n).ops.find? (fun o => o.dispatched && opcodeOf o.desc = opStopper && o.track = .running)

/-- The other members of an axis. -/
def axisOthers (s : State) (axis : Nat) : List Nat :=
  ((List.range (axisSize s axis)).filter (fun r => r != axisRank s axis)).map (memberOf s axis)

/-- The FLUSH frames of a SYSTEM stopper to the other members of its axis (R355). -/
def sendFlush (s : State) (n : Nat) (o : OpEnt) (axis : Nat) : State :=
  let id := s.net.nextId
  let devs := axisOthers s axis
  let fl : FlushSt := { line := n, seq := o.seq, id := id, axis := axis, waiting := devs }
  let s1 := { s with net := { s.net with flushes := s.net.flushes ++ [fl], nextId := id + 1 } }
  devs.foldl (fun t d => sendFrame t (mkFrame t ftFlush 1 0 d (BitVec.ofNat 32 id) 0 (BitVec.ofNat 32 axis) [])) s1

/-- A HOST stopper's flush read fails: HOST_ERR counts it, and the stopper completes UNCORRECTABLE (R297). -/
def flushFailed (s : State) (n : Nat) (o : OpEnt) : State :=
  finishOp (raiseCause { s with port := { s.port with hostErr := satAdd 4095 s.port.hostErr 1 } } irqHostErr) n o stUncorrectable (stopperBytes s o)

/-- The last operation that the stopper waits for has its final status, and the host writes that came before it have landed: the posted writes of its write set are drained,
and a HOST stopper invalidates the read-ahead buffer (R294, R301). A LINE, ACCOUNT or DEVICE stopper retires; a HOST
stopper sends its flush read; a SYSTEM stopper flushes the capstan. -/
def execStopperWaitEnd (line : LineNo) (s : State) : Out :=
  let n := line.toNat
  match stopperOf s n with
  | none => .next s
  | some o =>
    if o.total = 1 || (lineGet s n).ops.length != 1 || ingressHolds s o then .next s
    else
      let sc := stopScope o.desc
      let o1 := { o with total := 1, n2 := tbNow s - o.cDisp }
      let s1 := drainPosted s (fun p => p.line = n || o.wset.contains (p.line, p.seq))
      if sc ≤ 2 then .next (finishOp s1 n o1 stOk (stopperBytes s o1))
      else if sc = 3 then
        let s2 := { s1 with mem := { s1.mem with ahead := [] } }
        if s2.port.linkUp then
          .next (opSet { s2 with port := { s2.port with out := s2.port.out ++ [.flushRead n] } } n o1)
        else .next (flushFailed s2 n o1)
      else
        let axis := stopAxis o.desc
        let others := axisOthers s axis
        if others.any (peerGone s) then .next (finishOp s1 n o1 stPeerLost (stopperBytes s o1))
        else if others.isEmpty then .next (finishOp s1 n o1 stOk (stopperBytes s o1))
        else .next (sendFlush (opSet s1 n o1) n o1 axis)

/-- The flush read of a HOST stopper completes, which retires it, or fails, which completes it UNCORRECTABLE (R297). -/
def execHostFlushReadComplete (line : LineNo) (fail : Option ReadFail) (s : State) : Out :=
  let n := line.toNat
  match stopperOf s n with
  | none => .next s
  | some o =>
    if o.total = 1 && stopScope o.desc = 3 then
      .next (if fail.isNone && s.port.linkUp then finishOp s n o stOk (stopperBytes s o) else flushFailed s n o)
    else .next s

/-- All FLUSH_ACKs of a SYSTEM stopper's axis have arrived, and the stopper retires (R294, R355). -/
def execCapstanFlushComplete (line : LineNo) (s : State) : Out :=
  let n := line.toNat
  match stopperOf s n with
  | none => .next s
  | some o =>
    let mine (f : FlushSt) : Bool := f.line = n && f.seq = o.seq
    if o.total = 1 && s.net.flushes.any (fun f => mine f && f.waiting.isEmpty) then
      let s1 := { s with net := { s.net with flushes := s.net.flushes.filter (fun f => !mine f) } }
      .next (finishOp s1 n o stOk (stopperBytes s o))
    else .next s

end Sys2Proof.Machine
end

