-- ==== Sys2Proof/Machine/Numeric.lean ====
section
/-! DEFINITION. Number formats and arithmetic rules (R43 to R70): exact values, decoding, rounding, conversion, block
scaling, product groups, split-pass W32 and stochastic rounding. Every function works on exact integers. -/

set_option Elab.async false

namespace Sys2Proof.Machine

open Sys2Proof

/-- The formats of R43. -/
inductive Fmt where
  | w32 | b16 | h16 | e5m2 | e4m3 | k8 | k8u | i8 | i32 | u1 | t8 | a40
deriving DecidableEq, Repr

/-- The format that a 4-bit code names; reserved codes (R44) name none. -/
def Fmt.ofCode (c : Nat) : Option Fmt :=
  match c with
  | 0x0 => some .w32
  | 0x1 => some .b16
  | 0x2 => some .h16
  | 0x3 => some .e5m2
  | 0x4 => some .e4m3
  | 0x5 => some .k8
  | 0x6 => some .k8u
  | 0x7 => some .i8
  | 0x8 => some .i32
  | 0x9 => some .u1
  | 0xA => some .t8
  | 0xF => some .a40
  | _ => none

/-- Bits of one stored element (R43, R51: A40 occupies an 8-byte container; R86). -/
def Fmt.bits : Fmt → Nat
  | .w32 => 32
  | .b16 => 16
  | .h16 => 16
  | .e5m2 => 8
  | .e4m3 => 8
  | .k8 => 8
  | .k8u => 8
  | .i8 => 8
  | .i32 => 32
  | .u1 => 1
  | .t8 => 8
  | .a40 => 64

/-- K8 and K8U. -/
def Fmt.isK8 : Fmt → Bool
  | .k8 | .k8u => true
  | _ => false

/-- Formats whose registers hold an I32 value (R102). -/
def Fmt.isInt : Fmt → Bool
  | .i8 | .i32 | .u1 => true
  | _ => false

/-- An exact value: NaN and infinity with their signs, and (-1)^s × m × 2^e. -/
inductive FVal where
  | nan (sign : Bool)
  | inf (sign : Bool)
  | fin (sign : Bool) (m : Nat) (e : Int)
deriving DecidableEq, Repr

/-- +0. -/
def FVal.zero : FVal := .fin false 0 0

def FVal.isNan : FVal → Bool
  | .nan _ => true
  | _ => false

def FVal.isInf : FVal → Bool
  | .inf _ => true
  | _ => false

/-- A zero of either sign. -/
def FVal.isZero : FVal → Bool
  | .fin _ 0 _ => true
  | _ => false

def FVal.sign : FVal → Bool
  | .nan s => s
  | .inf s => s
  | .fin s _ _ => s

/-- The integer `i` as an exact value. -/
def FVal.ofInt (i : Int) : FVal := .fin (decide (i < 0)) i.natAbs 0

/-- The layout of a floating format (R45): exponent and fraction widths and bias; `topBinade` when the all-ones
exponent is an ordinary binade (E4M3). -/
structure FloatLayout where
  ebits : Nat
  fbits : Nat
  bias : Nat
  topBinade : Bool
deriving DecidableEq, Repr

def layoutW32 : FloatLayout := { ebits := 8, fbits := 23, bias := 127, topBinade := false }
def layoutB16 : FloatLayout := { ebits := 8, fbits := 7, bias := 127, topBinade := false }
def layoutH16 : FloatLayout := { ebits := 5, fbits := 10, bias := 15, topBinade := false }
def layoutE5M2 : FloatLayout := { ebits := 5, fbits := 2, bias := 15, topBinade := false }
def layoutE4M3 : FloatLayout := { ebits := 4, fbits := 3, bias := 7, topBinade := true }
def layoutA40 : FloatLayout := { ebits := 12, fbits := 27, bias := 2047, topBinade := false }
/-- The pair of a B16 master and its T8 tail (R50): 16 significant bits and the W32 exponent range. -/
def layoutPair : FloatLayout := { ebits := 8, fbits := 15, bias := 127, topBinade := false }

/-- The layout of a floating format. -/
def Fmt.layout : Fmt → Option FloatLayout
  | .w32 => some layoutW32
  | .b16 => some layoutB16
  | .h16 => some layoutH16
  | .e5m2 => some layoutE5M2
  | .e4m3 => some layoutE4M3
  | .a40 => some layoutA40
  | _ => none

/-- The place of the sign bit. -/
def FloatLayout.width (l : FloatLayout) : Nat := l.ebits + l.fbits

/-- The value of a floating encoding (R45, R46). -/
def decodeFloat (l : FloatLayout) (bits : Nat) : FVal :=
  let s := bits.testBit l.width
  let ex := (bits >>> l.fbits) % 2 ^ l.ebits
  let fr := bits % 2 ^ l.fbits
  let top := 2 ^ l.ebits - 1
  if ex = top && l.topBinade && fr = 2 ^ l.fbits - 1 then .nan s
  else if ex = top && !l.topBinade then (if fr = 0 then .inf s else .nan s)
  else if ex = 0 then .fin s fr (1 - (l.bias : Int) - l.fbits)
  else .fin s (fr + 2 ^ l.fbits) ((ex : Int) - l.bias - l.fbits)

/-- The value of a two's-complement integer of `w` bits (R49). -/
def signedOf (w bits : Nat) : Int :=
  let b := bits % 2 ^ w
  if b < 2 ^ (w - 1) then b else (b : Int) - (2 ^ w : Nat)

/-- The value of a stored element of a format without a scale plane (R45, R49). A T8 byte has no value by itself. -/
def decodeElem (f : Fmt) (bits : Nat) : FVal :=
  match f with
  | .w32 => decodeFloat layoutW32 bits
  | .b16 => decodeFloat layoutB16 bits
  | .h16 => decodeFloat layoutH16 bits
  | .e5m2 => decodeFloat layoutE5M2 bits
  | .e4m3 => decodeFloat layoutE4M3 bits
  | .a40 => decodeFloat layoutA40 (bits % 2 ^ 40)
  | .i8 => FVal.ofInt (signedOf 8 bits)
  | .i32 => FVal.ofInt (signedOf 32 bits)
  | .u1 => FVal.ofInt (bits % 2 : Nat)
  | .k8 | .k8u | .t8 => FVal.zero

/-- The value of a K8 or K8U element under its block's scale byte (R47). -/
def decodeK8 (uns : Bool) (scale q : Nat) : FVal :=
  if scale = 0xFF then .nan false
  else
    let v : Int := if uns then (q % 256 : Nat) else signedOf 8 q
    .fin (decide (v < 0)) v.natAbs ((scale : Int) - 127)

/-- `m / 2^k` rounded to the nearest integer, ties to even. -/
def rneShr (m k : Nat) : Nat :=
  let q := m >>> k
  let r := m % 2 ^ k
  let twice := 2 * r
  if twice > 2 ^ k || (twice = 2 ^ k && k ≠ 0 && q % 2 = 1) then q + 1 else q

/-- `m × 2^e` as a multiple of `2^q`, ties to even. -/
def rneAt (m : Nat) (e q : Int) : Nat :=
  if q ≤ e then m <<< (e - q).toNat else rneShr m (q - e).toNat

/-- The exponent of the leading bit of `m × 2^e`; `m` is not 0. -/
def leadExp (m : Nat) (e : Int) : Int := e + Nat.log2 m

/-- The canonical NaN with a sign (R45, R46). -/
def nanBits (l : FloatLayout) (s : Bool) : Nat :=
  let sb := if s then 2 ^ l.width else 0
  if l.topBinade then sb + (2 ^ l.width - 1)
  else sb + (2 ^ l.ebits - 1) * 2 ^ l.fbits + 2 ^ (l.fbits - 1)

/-- The infinity of a sign; E4M3 has none, and R53 gives its NaN code. -/
def infBits (l : FloatLayout) (s : Bool) : Nat :=
  let sb := if s then 2 ^ l.width else 0
  if l.topBinade then sb + (2 ^ l.width - 1) else sb + (2 ^ l.ebits - 1) * 2 ^ l.fbits

/-- The code of the largest finite magnitude. -/
def maxFiniteCode (l : FloatLayout) : Nat :=
  if l.topBinade then 2 ^ l.width - 2 else (2 ^ l.ebits - 1) * 2 ^ l.fbits - 1

/-- The magnitude code of a nonzero finite value rounded to nearest even with the exponent range unbounded above: codes
beyond `maxFiniteCode` exceed the format. -/
def roundCode (l : FloatLayout) (m : Nat) (e : Int) : Nat :=
  let qmin : Int := 1 - (l.bias : Int) - l.fbits
  let q := max qmin (leadExp m e - l.fbits)
  (q - qmin).toNat * 2 ^ l.fbits + rneAt m e q

/-- A value encoded in a floating format under R52 and R53, with the flags that the conversion raises. -/
def encodeFloat (l : FloatLayout) (v : FVal) : Nat × Byte :=
  match v with
  | .nan s => (nanBits l s, flagNanIn)
  | .inf s => (infBits l s, if l.topBinade then flagInfIn ||| flagInv else flagInfIn)
  | .fin s m e =>
    let sb := if s then 2 ^ l.width else 0
    if m = 0 then (sb, 0)
    else
      let c := roundCode l m e
      if maxFiniteCode l < c then (sb + maxFiniteCode l, flagSat)
      else (sb + c, flagIf (c = 0) flagUfl)

/-- Bits of a two's-complement integer. -/
def intBits (w : Nat) (i : Int) : Nat := (i % (2 ^ w : Nat)).toNat

/-- A value converted to a two's-complement integer of `w` bits (code I of R54, R53). -/
def encodeInt (w : Nat) (v : FVal) : Nat × Byte :=
  let top : Int := 2 ^ (w - 1) - 1
  let bot : Int := -(2 ^ (w - 1))
  match v with
  | .nan _ => (0, flagNanIn)
  | .inf s => (intBits w (if s then bot else top), flagInfIn)
  | .fin s m e =>
    let n := rneAt m e 0
    let i : Int := if s then -(n : Int) else n
    if top < i then (intBits w top, flagSat)
    else if i < bot then (intBits w bot, flagSat)
    else (intBits w i, flagIf (n = 0 && m ≠ 0) flagUfl)

/-- A value converted to U1 (code Z of R54, R53). -/
def encodeU1 (v : FVal) : Nat × Byte :=
  match v with
  | .nan _ => (1, flagNanIn)
  | .inf _ => (1, flagInfIn)
  | .fin _ m _ => (if m = 0 then 0 else 1, 0)

/-- A value converted to a format without a scale plane (R52 to R54). K8 and K8U go through `k8Encode`, T8 pairs through
`encodePair`. -/
def encodeElem (f : Fmt) (v : FVal) : Nat × Byte :=
  match f with
  | .w32 => encodeFloat layoutW32 v
  | .b16 => encodeFloat layoutB16 v
  | .h16 => encodeFloat layoutH16 v
  | .e5m2 => encodeFloat layoutE5M2 v
  | .e4m3 => encodeFloat layoutE4M3 v
  | .a40 => encodeFloat layoutA40 v
  | .i8 => encodeInt 8 v
  | .i32 => encodeInt 32 v
  | .u1 => encodeU1 v
  | .k8 | .k8u | .t8 => (0, 0)

/-- A W32 word's value. -/
def w32Val (w : W32) : FVal := decodeFloat layoutW32 w.toNat

/-- A value as a W32 word, with the flags of R52 and R53. -/
def toW32 (v : FVal) : W32 × Byte :=
  let r := encodeFloat layoutW32 v
  (BitVec.ofNat 32 r.1, r.2)

/-- The W32 word of a value rounded by an operation: SAT and UFL only; a NaN or an infinity raises nothing here. -/
def roundW32 (v : FVal) : W32 × Byte :=
  let r := toW32 v
  (r.1, r.2 &&& (flagSat ||| flagUfl))

/-- The canonical W32 NaN with sign 0. -/
def w32Nan : W32 := 0x7FC00000

/-- The value of a master of B16 bits `b` and tail byte `t` (R50); a NaN's or an infinity's tail is ignored. -/
def pairVal (b t : Nat) : FVal :=
  match decodeFloat layoutB16 b with
  | .fin _ _ _ => decodeFloat layoutW32 ((b % 65536) * 65536 + (t % 256) * 256)
  | v => v

/-- A value stored into a pair by an ST (R50): B16 bits, tail byte and flags. -/
def encodePair (v : FVal) : (Nat × Nat) × Byte :=
  match v with
  | .fin _ _ _ =>
    let r := encodeFloat layoutPair v
    ((r.1 / 256, r.1 % 256), r.2)
  | _ =>
    let r := encodeFloat layoutB16 v
    ((r.1, 0), r.2)

/-- Compares the magnitudes m1 × 2^e1 ≤ m2 × 2^e2. -/
def magLe (m1 : Nat) (e1 : Int) (m2 : Nat) (e2 : Int) : Bool :=
  let e := min e1 e2
  m1 <<< (e1 - e).toNat ≤ m2 <<< (e2 - e).toNat

/-- The sum of two finite values as a signed integer times 2^e. -/
def finAdd (s1 : Bool) (m1 : Nat) (e1 : Int) (s2 : Bool) (m2 : Nat) (e2 : Int) : Int × Int :=
  let e := min e1 e2
  let a : Int := (m1 <<< (e1 - e).toNat : Nat)
  let b : Int := (m2 <<< (e2 - e).toNat : Nat)
  ((if s1 then -a else a) + (if s2 then -b else b), e)

/-- The exact sum under IEEE 754 (RNE zero signs), with INV for infinities of both signs (R61, R63). A NaN operand gives
NaN with sign 0 (R46) and no flag here. -/
def fAdd (a b : FVal) : FVal × Byte :=
  match a, b with
  | .nan _, _ => (.nan false, 0)
  | _, .nan _ => (.nan false, 0)
  | .inf s, .inf t => if s = t then (.inf s, 0) else (.nan false, flagInv)
  | .inf s, _ => (.inf s, 0)
  | _, .inf t => (.inf t, 0)
  | .fin s m e, .fin t n f =>
    let r := finAdd s m e t n f
    if r.1 = 0 then (.fin (s && t && m = 0 && n = 0) 0 0, 0)
    else (.fin (decide (r.1 < 0)) r.1.natAbs r.2, 0)

/-- The exact product under IEEE 754, with INV for infinity times zero. -/
def fMul (a b : FVal) : FVal × Byte :=
  match a, b with
  | .nan _, _ => (.nan false, 0)
  | _, .nan _ => (.nan false, 0)
  | .inf s, .inf t => (.inf (s != t), 0)
  | .inf s, .fin t m _ => if m = 0 then (.nan false, flagInv) else (.inf (s != t), 0)
  | .fin s m _, .inf t => if m = 0 then (.nan false, flagInv) else (.inf (s != t), 0)
  | .fin s m e, .fin t n f => (.fin (s != t) (m * n) (e + f), 0)

/-- The value with its sign inverted. -/
def fNeg : FVal → FVal
  | .nan s => .nan (!s)
  | .inf s => .inf (!s)
  | .fin s m e => .fin (!s) m e

/-- The value with sign 0. -/
def fAbs : FVal → FVal
  | .nan _ => .nan false
  | .inf _ => .inf false
  | .fin _ m e => .fin false m e

/-- a < b on values that are not NaN; −0 equals +0. -/
def fLt (a b : FVal) : Bool :=
  match a, b with
  | .nan _, _ => false
  | _, .nan _ => false
  | .inf s, .inf t => s && !t
  | .inf s, .fin _ _ _ => s
  | .fin _ _ _, .inf t => !t
  | .fin s m e, .fin t n f => decide ((finAdd s m e (!t) n f).1 < 0)

/-- a = b on values that are not NaN; −0 equals +0. -/
def fEq (a b : FVal) : Bool :=
  !a.isNan && !b.isNan && !(fLt a b) && !(fLt b a)

/-- NAN_IN and INF_IN for the operands consumed (R443). -/
def consumed (vs : List FVal) : Byte :=
  flagIf (vs.any FVal.isNan) flagNanIn ||| flagIf (vs.any FVal.isInf) flagInfIn

/-! ### Block-scaled encoding -/

/-- The magnitude that an element contributes to its block's amax: negatives count as zero for K8U (R48). -/
def k8Mag (uns : Bool) (v : FVal) : Nat × Int :=
  match v with
  | .fin s m e => if uns && s then (0, 0) else (m, e)
  | _ => (0, 0)

/-- The largest magnitude of a block. -/
def k8Amax (uns : Bool) (xs : List FVal) : Nat × Int :=
  xs.foldl (fun acc v => let p := k8Mag uns v; if magLe p.1 p.2 acc.1 acc.2 then acc else p) (0, 0)

/-- One element of a block at scale exponent `e − 127`: its byte and its UFL flag (R48). -/
def k8Elem (uns : Bool) (e : Nat) (v : FVal) : Nat × Byte :=
  match v with
  | .fin s m f =>
    if uns && s then (0, 0)
    else
      let qmax := if uns then 255 else 127
      let n := min qmax (rneAt m f ((e : Int) - 127))
      (if s then (256 - n) % 256 else n, flagIf (n = 0 && m ≠ 0) flagUfl)
  | _ => (0, 0)

/-- `k8_encode` of R48 on the source values of one block: scale byte, value bytes and flags. -/
def k8Encode (uns : Bool) (xs : List FVal) : Nat × List Nat × Byte :=
  let infs := xs.any FVal.isInf
  if xs.any FVal.isNan then (0xFF, xs.map (fun _ => 0), flagNanIn ||| flagIf infs flagInfIn)
  else if infs then (0xFF, xs.map (fun _ => 0), flagInfIn ||| flagInv)
  else
    let neg := uns && xs.any (fun v => v.sign && !v.isZero)
    let a := k8Amax uns xs
    if a.1 = 0 then (0, xs.map (fun _ => 0), flagIf neg flagSat)
    else
      let qmax := if uns then 255 else 127
      let p : Int := if uns then 7 else 6
      let e0 : Nat := (max 0 (min 254 (leadExp a.1 a.2 + 127 - p))).toNat
      let e1 := if rneAt a.1 a.2 ((e0 : Int) - 127) > qmax then e0 + 1 else e0
      let clip := decide (254 < e1)
      let e := min e1 254
      let qs := xs.map (k8Elem uns e)
      (e, qs.map Prod.fst, flagIf neg flagSat ||| flagIf clip flagSat ||| flagsOr (qs.map Prod.snd))

/-! ### Products and accumulation -/

/-- One real product of a group (R61). -/
structure Prod2 where
  a : FVal
  b : FVal
deriving DecidableEq, Repr

/-- The product truncated toward zero at 2^lo, as an integer multiple of 2^lo (R59). -/
def truncAt (lo : Int) (v : FVal) : Int :=
  match v with
  | .fin s m e =>
    let n : Nat := if lo ≤ e then m <<< (e - lo).toNat else m >>> (lo - e).toNat
    if s then -(n : Int) else n
  | _ => 0

/-- The exponent of the leading bit of the largest product magnitude; none when every product is zero. -/
def groupTop (ps : List FVal) : Option Int :=
  ps.foldl (fun acc v =>
    match v with
    | .fin _ m e =>
      if m = 0 then acc
      else match acc with
        | none => some (leadExp m e)
        | some t => some (max t (leadExp m e))
    | _ => acc) none

/-- The sum of a group of real products (R59, R61) with its flags; none for a group with no real product. -/
def groupSum (g : List Prod2) : Option (FVal × Byte) :=
  match g with
  | [] => none
  | _ :: _ =>
    let inFl := consumed (g.map Prod2.a) ||| consumed (g.map Prod2.b)
    let rs := g.map (fun p => fMul p.a p.b)
    let ps := rs.map Prod.fst
    let posInf := ps.any (fun v => v == .inf false)
    let negInf := ps.any (fun v => v == .inf true)
    let fl := inFl ||| flagsOr (rs.map Prod.snd) ||| flagIf (posInf && negInf) flagInv
    if ps.any FVal.isNan || (posInf && negInf) then some (.nan false, fl)
    else if posInf then some (.inf false, fl)
    else if negInf then some (.inf true, fl)
    else
      match groupTop ps with
      | none => some (.fin (ps.all FVal.sign) 0 0, fl)
      | some top =>
        let lo := top - 30
        let sum := (ps.map (truncAt lo)).foldl (· + ·) 0
        some (.fin (decide (sum < 0)) sum.natAbs lo, fl)

/-- round_rne(acc + group sum) to A40 under R60 and R61. -/
def accStep (acc : BitVec 40 × Byte) (g : List Prod2) : BitVec 40 × Byte :=
  match groupSum g with
  | none => acc
  | some (v, fl) =>
    let r := fAdd (decodeFloat layoutA40 acc.1.toNat) v
    let q := encodeFloat layoutA40 r.1
    (BitVec.ofNat 40 q.1, acc.2 ||| fl ||| r.2 ||| (q.2 &&& (flagSat ||| flagUfl)))

/-- Length of a k-block: 256 for the 8-bit multiplicands, 128 otherwise. -/
def kblock (f : Fmt) : Nat := if f.bits = 8 then 256 else 128

/-- The B16 value nearest to a finite value, ties to even, held at the largest finite B16 (R64). -/
def toB16Held (v : FVal) : FVal := decodeFloat layoutB16 (encodeFloat layoutB16 v).1

/-- A zero piece encodes as +0 (R64). -/
def posZero (v : FVal) : FVal := if v.isZero then FVal.zero else v

/-- `split_w32` of R64: hi, mid and lo of a W32 value. -/
def splitVal (v : FVal) : FVal × FVal × FVal :=
  match v with
  | .fin _ _ _ =>
    let h := toB16Held v
    let r1 := (fAdd v (fNeg h)).1
    let m := toB16Held r1
    let l := toB16Held (fAdd r1 (fNeg m)).1
    (h, posZero m, posZero l)
  | v => (v, FVal.zero, FVal.zero)

/-- The encodings that `split_w32` writes. -/
def splitW32 (x : W32) : BitVec 16 × BitVec 16 × BitVec 16 :=
  let p := splitVal (w32Val x)
  let enc (v : FVal) : BitVec 16 := BitVec.ofNat 16 (encodeFloat layoutB16 v).1
  if (w32Val x).isNan then (x.extractLsb' 16 16 ||| 0x0040, 0, 0) else (enc p.1, enc p.2.1, enc p.2.2)

/-- The products of one piece-pair group of a W32 k-block (R65, R66). `i` and `j` choose the pieces; an element pair with
an infinity or a NaN contributes its direct product to the hi·hi group and nothing to the others. -/
def pieceGroup (ab : List Prod2) (i j : Nat) : List Prod2 :=
  let piece (k : Nat) (v : FVal) : FVal :=
    let p := splitVal v
    if k = 0 then p.1 else if k = 1 then p.2.1 else p.2.2
  ab.filterMap (fun q =>
    if q.a.isNan || q.a.isInf || q.b.isNan || q.b.isInf then
      (if i = 0 && j = 0 then some q else none)
    else some ⟨piece i q.a, piece j q.b⟩)

/-- The piece-pair groups in the order of R66. -/
def passOrder (passes : Nat) : List (Nat × Nat) :=
  [(0, 2), (1, 1), (2, 0), (0, 1), (1, 0), (0, 0)].filter (fun p => p.1 + p.2 < passes)

/-- The accumulation of one k-block (R60, R66). -/
def kblockStep (f : Fmt) (passes : Nat) (acc : BitVec 40 × Byte) (ab : List Prod2) : BitVec 40 × Byte :=
  if f = .w32 then (passOrder passes).foldl (fun a p => accStep a (pieceGroup ab p.1 p.2)) acc
  else accStep acc ab

/-- A list cut into pieces of `n`, by structural recursion on fuel. -/
def chunksOf {α : Type} (n : Nat) : Nat → List α → List (List α)
  | 0, _ => []
  | fuel + 1, xs => if xs.isEmpty then [] else xs.take n :: chunksOf n fuel (xs.drop n)

/-- The accumulator of one output element after all its k-blocks in increasing k (R60). -/
def dotAcc (f : Fmt) (passes : Nat) (start : BitVec 40 × Byte) (ab : List Prod2) : BitVec 40 × Byte :=
  (chunksOf (kblock f) (ab.length + 1) ab).foldl (kblockStep f passes) start

/-- The accumulator's start: C converted to A40, or +0 (R60). -/
def accStart (c : Option FVal) : BitVec 40 × Byte :=
  match c with
  | none => (0, 0)
  | some v => let r := encodeFloat layoutA40 v; (BitVec.ofNat 40 r.1, r.2)

/-! ### Stochastic rounding -/

/-- `mix64` of R69. -/
def mix64 (z : W64) : W64 :=
  let z := (z ^^^ (z >>> 30)) * 0xBF58476D1CE4E5B9
  let z := (z ^^^ (z >>> 27)) * 0x94D049BB133111EB
  z ^^^ (z >>> 31)

/-- `sr_bits` of R69. -/
def srBits (seed step addr : W64) : W32 :=
  let h := mix64 (seed ^^^ 0x9E3779B97F4A7C15)
  let h := mix64 (h ^^^ step)
  let h := mix64 (h ^^^ addr)
  h.extractLsb' 32 32

/-- The logical element address of R69. -/
def srAddr (tensor index : Nat) : W64 := BitVec.ofNat 64 (tensor <<< 40 ||| index)

/-- `round_sr` of R70 at `p` significant bits (24 or 16). -/
def roundSr (r : FVal) (p : Nat) (rnd : W32) : W32 × Byte :=
  match r with
  | .fin s m e =>
    if m = 0 then ((toW32 r).1, 0)
    else
      let ex := max (leadExp m e) (-126)
      let u : Int := ex - ((p : Int) - 1)
      let q : Nat := if u ≤ e then m <<< (e - u).toNat else m >>> (u - e).toNat
      let f : Nat := if u ≤ e then 0
        else
          let k := (u - e).toNat
          ((m % 2 ^ k) <<< 32) >>> k
      let q' := if rnd.toNat < f then q + 1 else q
      let top : Nat := 2 ^ p - 1
      let topU : Int := 127 - ((p : Int) - 1)
      if magLe q' u top topU then
        ((toW32 (.fin s q' u)).1, flagIf (q' = 0) flagUfl)
      else ((toW32 (.fin s top topU)).1, flagSat)
  | .nan _ => ((toW32 r).1, 0)
  | .inf _ => ((toW32 r).1, 0)

end Sys2Proof.Machine
end

