-- ==== Sys2Proof/Machine/Transcend.lean ====
section
/-! DEFINITION. The correctly rounded elementary functions of R104, by integer interval arithmetic: an interval that is
certain to hold the exact value is rounded at both ends, and the working precision grows until the ends agree. -/

set_option Elab.async false

namespace Sys2Proof.Machine

open Sys2Proof

/-- The integer square root by bits: the largest r with r² ≤ n that agrees with `r0` above bit `k`. -/
def isqrtBits (n : Nat) : Nat → Nat → Nat
  | 0, r => r
  | k + 1, r =>
    let c := r + 2 ^ k
    isqrtBits n k (if c * c ≤ n then c else r)

/-- The integer square root. -/
def isqrt (n : Nat) : Nat := isqrtBits n (Nat.log2 n / 2 + 1) 0

/-- An interval of multiples of 2^-w that holds an exact value; `lo` and `hi` are in those units. -/
structure Iv where
  lo : Int
  hi : Int
deriving DecidableEq, Repr

/-- The product of two intervals of nonnegative values at precision `w`, rounded outward. -/
def ivMul (w : Nat) (a b : Iv) : Iv :=
  { lo := (a.lo * b.lo) >>> w, hi := (a.hi * b.hi) >>> w + 1 }

/-- The quotient of two intervals of positive values at precision `w`, rounded outward. -/
def ivDiv (w : Nat) (a b : Iv) : Iv :=
  { lo := (a.lo * 2 ^ w) / b.hi, hi := (a.hi * 2 ^ w) / b.lo + 1 }

/-- Division by a positive integer, rounded outward. -/
def ivDivNat (a : Iv) (n : Nat) : Iv := { lo := a.lo / n, hi := a.hi / n + 1 }

def ivAdd (a b : Iv) : Iv := { lo := a.lo + b.lo, hi := a.hi + b.hi }

def ivSub (a b : Iv) : Iv := { lo := a.lo - b.hi, hi := a.hi - b.lo }

/-- The integer `n` at precision `w`. -/
def ivNat (w n : Nat) : Iv := { lo := (n * 2 ^ w : Nat), hi := (n * 2 ^ w : Nat) }

/-- The value m × 2^e (m ≥ 0) at precision `w`. -/
def ivDyadic (w m : Nat) (e : Int) : Iv :=
  let s := e + w
  if 0 ≤ s then { lo := (m <<< s.toNat : Nat), hi := (m <<< s.toNat : Nat) }
  else
    let q := m >>> (-s).toNat
    { lo := q, hi := q + 1 }

/-- Σ term_n, where term_0 = t and term_{n+1} = term_n × x ÷ d(n+1); stops after `fuel` terms and adds the last term once
more as the bound of the rest (the callers' terms at least halve from there on). -/
def ivSeries (w : Nat) (x : Iv) (d : Nat → Nat) : Nat → Nat → Iv → Iv → Iv
  | 0, _, t, acc => { lo := acc.lo, hi := acc.hi + t.hi + 1 }
  | fuel + 1, n, t, acc =>
    let t' := ivDivNat (ivMul w t x) (d (n + 1))
    ivSeries w x d fuel (n + 1) t' (ivAdd acc t')

/-- Σ z^(2k+1) ÷ (2k+1) for 0 ≤ z ≤ 1/3: the inverse hyperbolic tangent. `p` is z^(2k+1). -/
def ivAtanh (w : Nat) (z2 : Iv) : Nat → Nat → Iv → Iv → Iv
  | 0, _, p, acc => { lo := acc.lo, hi := acc.hi + p.hi + 1 }
  | fuel + 1, k, p, acc =>
    ivAtanh w z2 fuel (k + 1) (ivMul w p z2) (ivAdd acc (ivDivNat p (2 * k + 1)))

/-- ln 2 = 2 atanh(1/3). -/
def ivLn2 (w : Nat) : Iv :=
  let z := ivDivNat (ivNat w 1) 3
  let a := ivAtanh w (ivMul w z z) (w / 3 + 2) 0 z { lo := 0, hi := 0 }
  ivAdd a a

/-- e^x for 0 ≤ x < 1. -/
def ivExp (w : Nat) (x : Iv) : Iv := ivSeries w x id (w / 2 + 8) 0 (ivNat w 1) (ivNat w 1)

/-- π by Machin's formula, 16 atan(1/5) − 4 atan(1/239); each series is truncated and bounded. -/
def ivAtanInv (w n : Nat) : Nat → Nat → Iv → Iv → Iv
  | 0, _, p, acc => { lo := acc.lo - p.hi - 1, hi := acc.hi + p.hi + 1 }
  | fuel + 1, k, p, acc =>
    let t := ivDivNat p (2 * k + 1)
    ivAtanInv w n fuel (k + 1) (ivDivNat p (n * n)) (if k % 2 = 0 then ivAdd acc t else ivSub acc t)

def ivPi (w : Nat) : Iv :=
  let z : Iv := { lo := 0, hi := 0 }
  let a := ivAtanInv w 5 (w / 4 + 4) 0 (ivDivNat (ivNat w 1) 5) z
  let b := ivAtanInv w 239 (w / 8 + 4) 0 (ivDivNat (ivNat w 1) 239) z
  { lo := 16 * a.lo - 4 * b.hi, hi := 16 * a.hi - 4 * b.lo }

/-- The square root of an interval of positive values. -/
def ivSqrt (w : Nat) (a : Iv) : Iv :=
  { lo := isqrt (a.lo.toNat * 2 ^ w), hi := isqrt (a.hi.toNat * 2 ^ w) + 1 }

/-- Rounds the value between lo × 2^e and hi × 2^e, of sign `s`, to W32; none when the ends differ. -/
def ivRound (s : Bool) (v : Iv) (e : Int) : Option (W32 × Byte) :=
  if v.lo ≤ 0 then none
  else
    let a := roundW32 (.fin s v.lo.toNat e)
    let b := roundW32 (.fin s v.hi.toNat e)
    if a = b then some a else none

/-- Doubles the working precision until the interval function gives one rounding. -/
def refineIv (f : Nat → Option (W32 × Byte)) : Nat → Nat → W32 × Byte
  | 0, _ => (w32Nan, 0)
  | fuel + 1, w =>
    match f w with
    | some r => r
    | none => refineIv f fuel (2 * w)

/-- 2^x for a finite x (R104). -/
def exp2Fin (s : Bool) (m : Nat) (e : Int) : W32 × Byte :=
  if m = 0 then roundW32 (.fin false 1 0)
  else if 9 ≤ leadExp m e then (if s then roundW32 (.fin false 1 (-400)) else roundW32 (.fin false 1 400))
  else
    -- x = n + f with 0 ≤ f < 1
    let fl : Nat := if 0 ≤ e then m <<< e.toNat else m >>> (-e).toNat
    let exact : Bool := decide (0 ≤ e) || m % 2 ^ (-e).toNat = 0
    if exact then roundW32 (.fin false 1 (if s then -(fl : Int) else fl))
    else
      let n : Int := if s then -(fl : Int) - 1 else fl
      let k := (-e).toNat
      let fr : Nat := if s then 2 ^ k - m % 2 ^ k else m % 2 ^ k
      refineIv (fun w =>
        let x := ivMul w (ivDyadic w fr e) (ivLn2 w)
        ivRound false (ivExp w x) (n - w)) 6 64

/-- log2 of a positive value (R104). -/
def log2Fin (m : Nat) (e : Int) : W32 × Byte :=
  let l := Nat.log2 m
  if m = 2 ^ l then roundW32 (FVal.ofInt (e + l))
  else
    -- m × 2^e = c × 2^E with c in [3/4, 3/2)
    let up := decide (3 * 2 ^ l ≤ 2 * m)
    let ex : Int := e + l + (if up then 1 else 0)
    let one : Nat := 2 ^ (if up then l + 1 else l)
    let neg := up
    let num : Nat := if up then one - m else m - one
    let den : Nat := one + m
    refineIv (fun w =>
      let z := ivDiv w (ivNat w num) (ivNat w den)
      let a := ivAtanh w (ivMul w z z) (w / 3 + 2) 0 z { lo := 0, hi := 0 }
      let lg := ivDiv w (ivAdd a a) (ivLn2 w)
      let sg : Iv := if neg then { lo := -lg.hi, hi := -lg.lo } else lg
      let v := ivAdd { lo := ex * 2 ^ w, hi := ex * 2 ^ w } sg
      if 0 < v.lo then ivRound false v (-(w : Int))
      else if v.hi < 0 then ivRound true { lo := -v.hi, hi := -v.lo } (-(w : Int))
      else none) 6 64

/-- The quotient of finite values, its last bits folded into a sticky bit below any W32 rounding place. -/
def divExact (s : Bool) (m : Nat) (e : Int) (n : Nat) (f : Int) : FVal :=
  let k := 64 + Nat.log2 n
  let num := m <<< k
  .fin s (2 * (num / n) + (if num % n = 0 then 0 else 1)) (e - f - k - 1)

/-- √(m × 2^e) with a sticky bit. -/
def sqrtExact (m : Nat) (e : Int) : FVal :=
  let e2 : Int := if e % 2 = 0 then e else e - 1
  let m2 : Nat := if e % 2 = 0 then m else 2 * m
  let num := m2 <<< 128
  let r := isqrt num
  .fin false (2 * r + (if r * r = num then 0 else 1)) (e2 / 2 - 64 - 1)

/-- 1 ÷ √(m × 2^e) with a sticky bit. -/
def rsqrtExact (m : Nat) (e : Int) : FVal :=
  let e2 : Int := if e % 2 = 0 then e else e - 1
  let m2 : Nat := if e % 2 = 0 then m else 2 * m
  let k := 64 + Nat.log2 m2
  let r := isqrt (2 ^ (2 * k) / m2)
  .fin false (2 * r + (if r * r * m2 = 2 ^ (2 * k) then 0 else 1)) (-(e2 / 2) - k - 1)

/-- tanh of a finite nonzero value: x × S(x²) ÷ C(x²) with S = Σ x^2n/(2n+1)! and C = Σ x^2n/(2n)!. -/
def tanhFin (s : Bool) (m : Nat) (e : Int) : W32 × Byte :=
  if 4 ≤ leadExp m e then roundW32 (.fin s (2 ^ 40 - 1) (-40))
  else
    refineIv (fun w =>
      let x2 := ivDyadic w (m * m) (2 * e)
      let one := ivNat w 1
      let sh := ivSeries w x2 (fun n => (2 * n) * (2 * n + 1)) (w + 16) 0 one one
      let ch := ivSeries w x2 (fun n => (2 * n - 1) * (2 * n)) (w + 16) 0 one one
      let q := ivDiv w sh ch
      ivRound s { lo := q.lo * m, hi := q.hi * m } (e - w)) 6 64

/-- erf of a finite nonzero value: (2/√π) e^(−x²) Σ 2^n x^(2n+1) ÷ (1·3·…·(2n+1)), with e^(−x²) the reciprocal of
Σ x^2n ÷ n!. -/
def erfFin (s : Bool) (m : Nat) (e : Int) : W32 × Byte :=
  if 3 ≤ leadExp m e then roundW32 (.fin s (2 ^ 40 - 1) (-40))
  else
    refineIv (fun w0 =>
      let w := w0 + 64
      let x2 := ivDyadic w (m * m) (2 * e)
      let one := ivNat w 1
      let tx : Iv := { lo := 2 * x2.lo, hi := 2 * x2.hi }
      let g := ivSeries w tx (fun n => 2 * n + 1) (w + 400) 0 one one
      let ex := ivSeries w x2 id (w + 400) 0 one one
      let q := ivDiv w g ex
      let r := ivDiv w { lo := 2 * q.lo, hi := 2 * q.hi } (ivSqrt w (ivPi w))
      ivRound s { lo := r.lo * m, hi := r.hi * m } (e - w)) 6 64

end Sys2Proof.Machine
end

