-- ==== Sys2Proof/Machine/Micro.lean ====
section
/-! DEFINITION. The micro-ops of the vector engines and splicers as functions of their source words (R103, R104,
R443): each answers the result and the flags that the micro-op adds. -/

set_option Elab.async false

namespace Sys2Proof.Machine

open Sys2Proof

/-- A rounded arithmetic result of operands `vs`: their consumed flags, the operation's own flags and the rounding's. -/
def arith (vs : List FVal) (r : FVal × Byte) : W32 × Byte :=
  let q := roundW32 r.1
  (q.1, consumed vs ||| r.2 ||| q.2)

/-- MOV: a, a NaN as the canonical NaN with its own sign. -/
def opMov (a _b _c : W32) : W32 × Byte :=
  let v := w32Val a
  ((roundW32 v).1, consumed [v])

/-- ADD: a + b, rounded once. -/
def opAdd (a b _c : W32) : W32 × Byte := arith [w32Val a, w32Val b] (fAdd (w32Val a) (w32Val b))

/-- SUB: a − b, rounded once. -/
def opSub (a b _c : W32) : W32 × Byte := arith [w32Val a, w32Val b] (fAdd (w32Val a) (fNeg (w32Val b)))

/-- MUL: a × b, rounded once. -/
def opMul (a b _c : W32) : W32 × Byte := arith [w32Val a, w32Val b] (fMul (w32Val a) (w32Val b))

/-- The exact a × b + c with its INV flag. INV is raised only from operands that are not NaN (R11): with a NaN operand
the result is a NaN with NAN_IN. DEDUCED (log entry 12). -/
def fmaExact (a b c : FVal) : FVal × Byte :=
  if a.isNan || b.isNan || c.isNan then (.nan false, 0)
  else
    let p := fMul a b
    let r := fAdd p.1 c
    (r.1, p.2 ||| r.2)

/-- FMA: a × b + c, one rounding at its end. -/
def opFma (a b c : W32) : W32 × Byte :=
  arith [w32Val a, w32Val b, w32Val c] (fmaExact (w32Val a) (w32Val b) (w32Val c))

/-- The larger (`big`) or smaller of two values that are not NaN; +0 is above −0. -/
def fPick (big : Bool) (a b : FVal) : FVal :=
  if a.isZero && b.isZero then (if a.sign == big then b else a)
  else if fLt a b == big then b else a

def opPick (big : Bool) (a b : W32) : W32 × Byte :=
  let x := w32Val a
  let y := w32Val b
  (if x.isNan || y.isNan then w32Nan else (roundW32 (fPick big x y)).1, consumed [x, y])

/-- MAX (R103, R443). -/
def opMax (a b _c : W32) : W32 × Byte := opPick true a b

/-- MIN (R103, R443). -/
def opMin (a b _c : W32) : W32 × Byte := opPick false a b

/-- ABS: |a|, a NaN with sign 0. -/
def opAbs (a _b _c : W32) : W32 × Byte :=
  let v := w32Val a
  ((roundW32 (fAbs v)).1, consumed [v])

/-- NEG: −a, a NaN with its sign inverted. -/
def opNeg (a _b _c : W32) : W32 × Byte :=
  let v := w32Val a
  ((roundW32 (fNeg v)).1, consumed [v])

/-- A comparison's result: with a NaN operand +0 and NAN_IN only (R443). -/
def opCmp (p : FVal → FVal → Bool) (a b : W32) : W32 × Byte :=
  let x := w32Val a
  let y := w32Val b
  if x.isNan || y.isNan then (0, flagNanIn)
  else (if p x y then 0x3F800000 else 0, consumed [x, y])

/-- CMPLT: 1.0 if a < b, otherwise +0. -/
def opCmplt (a b _c : W32) : W32 × Byte := opCmp fLt a b

/-- CMPEQ: 1.0 if a = b, otherwise +0. -/
def opCmpeq (a b _c : W32) : W32 × Byte := opCmp fEq a b

/-- SEL: a if c is neither zero nor NaN, otherwise b; consumes c and the operand it selects. -/
def opSel (a b c : W32) : W32 × Byte :=
  let z := w32Val c
  let v := if z.isNan || z.isZero then w32Val b else w32Val a
  ((roundW32 v).1, consumed [z, v])

/-- EXP2: 2^a (R104). -/
def opExp2 (a _b _c : W32) : W32 × Byte :=
  match w32Val a with
  | .nan _ => (w32Nan, flagNanIn)
  | .inf s => (if s then 0 else 0x7F800000, flagInfIn)
  | .fin s m e => exp2Fin s m e

/-- LOG2: log2 a (R104). -/
def opLog2 (a _b _c : W32) : W32 × Byte :=
  match w32Val a with
  | .nan _ => (w32Nan, flagNanIn)
  | .inf s => if s then (w32Nan, flagInfIn ||| flagInv) else (0x7F800000, flagInfIn)
  | .fin s m e =>
    if m = 0 then (0xFF800000, 0)
    else if s then (w32Nan, flagInv)
    else log2Fin m e

/-- The quotient of R104 with DIVZ and INV. -/
def fDiv (a b : FVal) : FVal × Byte :=
  match a, b with
  | .nan _, _ => (.nan false, 0)
  | _, .nan _ => (.nan false, 0)
  | .inf _, .inf _ => (.nan false, flagInv)
  | .inf s, .fin t _ _ => (.inf (s != t), 0)
  | .fin s _ _, .inf t => (.fin (s != t) 0 0, 0)
  | .fin s m e, .fin t n f =>
    if n = 0 then
      (if m = 0 then (.nan false, flagInv) else (.inf (s != t), flagDivz))
    else if m = 0 then (.fin (s != t) 0 0, 0)
    else (divExact (s != t) m e n f, 0)

/-- DIV: a ÷ b (R104). -/
def opDiv (a b _c : W32) : W32 × Byte := arith [w32Val a, w32Val b] (fDiv (w32Val a) (w32Val b))

/-- RCP: 1 ÷ a (R104). -/
def opRcp (a _b _c : W32) : W32 × Byte := arith [w32Val a] (fDiv (.fin false 1 0) (w32Val a))

/-- SQRT: √a (R104). -/
def opSqrt (a _b _c : W32) : W32 × Byte :=
  match w32Val a with
  | .nan _ => (w32Nan, flagNanIn)
  | .inf s => if s then (w32Nan, flagInfIn ||| flagInv) else (0x7F800000, flagInfIn)
  | .fin s m e =>
    if m = 0 then (if s then 0x80000000 else 0, 0)
    else if s then (w32Nan, flagInv)
    else roundW32 (sqrtExact m e)

/-- RSQRT: 1 ÷ √a (R104). -/
def opRsqrt (a _b _c : W32) : W32 × Byte :=
  match w32Val a with
  | .nan _ => (w32Nan, flagNanIn)
  | .inf s => if s then (w32Nan, flagInfIn ||| flagInv) else (0, flagInfIn)
  | .fin s m e =>
    if m = 0 then (if s then 0xFF800000 else 0x7F800000, flagDivz)
    else if s then (w32Nan, flagInv)
    else roundW32 (rsqrtExact m e)

/-- The common shape of TANH and ERF: odd, ±1 at the infinities, zeros kept. -/
def opOdd (f : Bool → Nat → Int → W32 × Byte) (a : W32) : W32 × Byte :=
  match w32Val a with
  | .nan _ => (w32Nan, flagNanIn)
  | .inf s => (if s then 0xBF800000 else 0x3F800000, flagInfIn)
  | .fin s m e => if m = 0 then (if s then 0x80000000 else 0, 0) else f s m e

/-- TANH: tanh a (R104). -/
def opTanh (a _b _c : W32) : W32 × Byte := opOdd tanhFin a

/-- ERF: erf a (R104). -/
def opErf (a _b _c : W32) : W32 × Byte := opOdd erfFin a

/-- IADD: a + b modulo 2^32. -/
def opIadd (a b _c : W32) : W32 × Byte := (a + b, 0)

/-- ISUB: a − b modulo 2^32. -/
def opIsub (a b _c : W32) : W32 × Byte := (a - b, 0)

/-- IMUL: low 32 bits of a × b. -/
def opImul (a b _c : W32) : W32 × Byte := (a * b, 0)

/-- IAND: a AND b. -/
def opIand (a b _c : W32) : W32 × Byte := (a &&& b, 0)

/-- IOR: a OR b. -/
def opIor (a b _c : W32) : W32 × Byte := (a ||| b, 0)

/-- IXOR: a XOR b. -/
def opIxor (a b _c : W32) : W32 × Byte := (a ^^^ b, 0)

/-- ISHL: a shifted left by b AND 31. -/
def opIshl (a b _c : W32) : W32 × Byte := (a <<< (b.toNat % 32), 0)

/-- ISHR: a shifted right arithmetically by b AND 31. -/
def opIshr (a b _c : W32) : W32 × Byte := (a.sshiftRight (b.toNat % 32), 0)

/-- CVTIF: I32 a to W32, rule R of R54. -/
def opCvtif (a _b _c : W32) : W32 × Byte := toW32 (FVal.ofInt a.toInt)

/-- CVTFI: W32 a to I32, rule I of R54. -/
def opCvtfi (a _b _c : W32) : W32 × Byte :=
  let r := encodeInt 32 (w32Val a)
  (BitVec.ofNat 32 r.1, r.2)

/-- The W32 micro-op that an OPC of 0x01 to 0x17 names (R103); reserved codes name none. -/
def microW32 (opc : Nat) : Option (W32 → W32 → W32 → W32 × Byte) :=
  match opc with
  | 0x01 => some opMov
  | 0x02 => some opAdd
  | 0x03 => some opSub
  | 0x04 => some opMul
  | 0x05 => some opFma
  | 0x06 => some opMax
  | 0x07 => some opMin
  | 0x08 => some opAbs
  | 0x09 => some opNeg
  | 0x0A => some opCmplt
  | 0x0B => some opCmpeq
  | 0x0C => some opSel
  | 0x10 => some opExp2
  | 0x11 => some opLog2
  | 0x12 => some opRcp
  | 0x13 => some opDiv
  | 0x14 => some opSqrt
  | 0x15 => some opRsqrt
  | 0x16 => some opTanh
  | 0x17 => some opErf
  | _ => none

/-- The micro-op of a vector engine that an OPC names (R103). -/
def microVec (opc : Nat) : Option (W32 → W32 → W32 → W32 × Byte) :=
  match opc with
  | 0x20 => some opIadd
  | 0x21 => some opIsub
  | 0x22 => some opImul
  | 0x23 => some opIand
  | 0x24 => some opIor
  | 0x25 => some opIxor
  | 0x26 => some opIshl
  | 0x27 => some opIshr
  | 0x28 => some opCvtif
  | 0x29 => some opCvtfi
  | n => microW32 n

end Sys2Proof.Machine
end

