-- ==== Sys2Proof/Machine/Tiers.lean ====
section
/-! DEFINITION. Tiers, frames, cleats and the sheave mover: MOVE, ALLOC, FREE and ATTR, block moves and zero fills,
evictions, reserve refills, demand and landing moves (R151 to R173, R228, R236, R308, R315). -/

set_option Elab.async false

namespace Sys2Proof.Machine

open Sys2Proof

/-! ### Errors of the stacks -/

/-- The stack that holds a frame address: kern stack k is k, mantle stack m is 4 + m; none for the host tier. -/
def stackOf (v : Variant) (fa : Nat) : Option Nat :=
  if fa < mantleBase then some (kernHash fa).1
  else if fa < hostFrames then some (4 + (mantleHash (nchan v) fa).1)
  else none

/-- The event code of a stack's counter: `k` for kern stack 0, `m` for mantle stack 0. -/
def stackEvent (k m st : Nat) : Nat := if st < 4 then k + st else m + (st - 4)

def stackGet (s : State) (st : Nat) : StackSt := mapGet StackSt.reset s.stackSt st
def stackSet (s : State) (st : Nat) (x : StackSt) : State := { s with stackSt := mapSet StackSt.reset s.stackSt st x }

/-- UE of a stack increments (R193, R199). -/
def countUe (s : State) (st : Nat) : State :=
  let s1 := stackSet s st { stackGet s st with ue := satAdd 4095 (stackGet s st).ue 1 }
  raiseCause (if st < 4 then pmuAdd s1 (0x094 + st) 1 attr0 else s1) irqMemUe

/-- CE of a stack increments (R193). -/
def countCe (s : State) (st : Nat) : State :=
  let s1 := stackSet s st { stackGet s st with ce := satAdd 65535 (stackGet s st).ce 1 }
  if st < 4 then pmuAdd s1 (0x090 + st) 1 attr0 else s1

/-- The stack whose code covers a device address: none in the host tier and in RAW data slabs, where ECC is off (R198). -/
def codedStack (s : State) (a : Nat) : Option Nat :=
  (locate s none a).bind (fun fa =>
    if (rawSlotOf s.cfg.act s.fuses.variant fa).isSome then none else stackOf s.fuses.variant fa)

/-- A read finds the granule of a device address uncorrectable (R175, R193): counted, marked, and the error policy acts. -/
def ueFound (s : State) (a : Nat) : State :=
  match codedStack s a with
  | some st => chafeFound (countUe s st) a
  | none => s

/-- A correction in a read of a device address (R193). -/
def ceFound (s : State) (a : Nat) : State :=
  match codedStack s a with
  | some st => countCe s st
  | none => s

/-- A line of eye space marked chafed (R78). -/
def eyeMark (s : State) (k : Nat) : State := { s with mem := { s.mem with eyeChafed := setIns s.mem.eyeChafed (k / 64 * 64) } }

/-- An error that a unit of a strand meets in its reads. -/
def foundOne (strand : Nat) (s : State) : Found → State
  | .corrected a => ceFound s a.toNat
  | .bad a => ueFound s a.toNat
  | .eye off => eyeMark s (strand * 2 ^ 26 + off.toNat)

/-- The device address of an error lies in the spans that are read; an error of eye space is the strand's own. -/
def foundIn (spans : List (Nat × Nat)) : Found → Bool
  | .corrected a => spans.any (fun p => p.1 / 64 * 64 ≤ a.toNat && a.toNat < p.1 + p.2)
  | .bad a => spans.any (fun p => p.1 / 64 * 64 ≤ a.toNat && a.toNat < p.1 + p.2)
  | .eye _ => true

/-- The errors that a read of spans meets. -/
def foundAll (s : State) (strand : Nat) (spans : List (Nat × Nat)) (found : List Found) : State :=
  (found.filter (foundIn spans)).foldl (foundOne strand) s

/-- The errors that a read of device addresses by no strand meets. -/
def foundMem (s : State) (spans : List (Nat × Nat)) (found : List Found) : State :=
  foundAll s 0 spans (found.filter (fun f => match f with
    | .eye _ => false
    | _ => true))

/-! ### Frames and pools -/

/-- Frames of a tier (the tier table; R170). -/
def frameCount (s : State) (t : Tier) : Nat :=
  match t with
  | .kern => 2 ^ 22
  | .mantle => nchan s.fuses.variant * 2 ^ 14
  | .host => (List.range 64).foldl (fun n r => n + actF s flRgnBlocks r) 0

/-- The reserve of a tier (R165). -/
def reserveSize (s : State) (t : Tier) : Nat := ceilDiv (frameCount s t) 20

def poolGet (s : State) (t : Tier) : TierSt := mapGet TierSt.reset s.tiers.pools (tierCode t)
def poolSet (s : State) (t : Tier) (p : TierSt) : State :=
  { s with tiers := { s.tiers with pools := mapSet TierSt.reset s.tiers.pools (tierCode t) p } }

/-- The slab's frames are outside both pools: the RAW parity slab, the landing slab, a RAW data slab, an export slab. -/
def slabTaken (m : SMap W32) (v : Variant) (slab : Nat) : Bool :=
  (flRawParValid.get m 0 = 1 && flRawParSlab.get m 0 = slab) || (flLandValid.get m 0 = 1 && flLandSlab.get m 0 = slab) ||
  (rawSlotOf m v (slabBase v slab)).isSome || exported m v (slabBase v slab)

/-- The valid arena that holds a slab (R227). -/
def arenaOfSlab (m : SMap W32) (slab : Nat) : Option Nat :=
  (List.range 16).find? (fun k => flArenaValid.get m k = 1 && flArenaFirst.get m k ≤ slab && slab < flArenaFirst.get m k + flArenaSlabs.get m k)

/-- The valid arena that holds a block by its name. -/
def arenaOf (s : State) (name : Nat) : Option Nat :=
  let fa := name * blockBytes
  if mantleBase ≤ fa && fa < mantleEnd s.fuses.variant then arenaOfSlab s.cfg.act (slabOf s.fuses.variant fa) else none

/-- The name frame of a mantle name (R228). -/
def nameFrame (name : Nat) : Nat := name - mantleBase / blockBytes

/-- Frames of a tier that hold a block, are the destination of a move, or still serve earlier reads. -/
def usedFrames (s : State) (t : Tier) : List Nat :=
  (s.tiers.ht.filter (fun p => p.2.tier = t && p.2.state != .unbound)).map (fun p => p.2.frame) ++
  (s.tiers.moves.filter (fun m => m.started && m.dest = t)).map Move.destFrame ++
  (s.tiers.releasing.filter (fun r => r.1 = t)).map (fun r => r.2.1)

/-- Where the run of frames that may not be taken ends, for a frame in such a run: a context-area frame (R285), a slab
outside the pools, or an arena slab when arena frames are to be passed over (R228). -/
def blockedUntil (s : State) (t : Tier) (arenas : Bool) (f : Nat) : Option Nat :=
  match t with
  | .kern =>
    let b := actF s flCtxBase 0
    if b ≤ f && f < b + actF s flCtxCount 0 then some (b + actF s flCtxCount 0) else none
  | .mantle =>
    let n := slabFrames s.fuses.variant
    let slab := f / n
    if slabTaken s.cfg.act s.fuses.variant slab || (!arenas && (arenaOfSlab s.cfg.act slab).isSome) then some ((slab + 1) * n) else none
  | .host => none

/-- The first free frame at or after `f`, wrapping once round the tier. -/
def searchFrame (s : State) (t : Tier) (arenas : Bool) (used : List Nat) (limit : Nat) : Nat → Nat → Option Nat
  | 0, _ => none
  | fuel + 1, f =>
    if limit = 0 then none
    else
      let g := f % limit
      match blockedUntil s t arenas g with
      | some h => searchFrame s t arenas used limit fuel h
      | none => if used.contains g then searchFrame s t arenas used limit fuel (g + 1) else some g

/-- A free frame of a tier (R165): which one is a free value. Arena frames only when no other is free (R228). -/
def freeFrame (s : State) (t : Tier) : Option Nat :=
  let used := usedFrames s t
  let limit := frameCount s t
  let start := Config.frameChoice s.free % (limit + 1)
  let fuel := 2 * used.length + 1100
  (searchFrame s t false used limit fuel start).orElse (fun _ => searchFrame s t true used limit fuel start)

/-- One frame leaves the pools: the general pool first (R165). -/
def drawFrame (s : State) (t : Tier) : State :=
  let p := poolGet s t
  if 0 < p.general then poolSet s t { p with general := p.general - 1 } else poolSet s t { p with reserve := p.reserve - 1 }

/-- One frame returns: it refills the reserve below its size, else the general pool (R165). -/
def returnFrame (s : State) (t : Tier) : State :=
  let p := poolGet s t
  if p.reserve < reserveSize s t then poolSet s t { p with reserve := p.reserve + 1 } else poolSet s t { p with general := p.general + 1 }

/-! ### Cleats (R166) -/

/-- The index of an account in a tier. -/
def ct (acct : Nat) (t : Tier) : Nat := acct * 4 + tierCode t

def charge (s : State) (acct : Nat) (t : Tier) : Nat := mapGet 0 s.tiers.charged (ct acct t)

def softOf (s : State) (acct : Nat) (t : Tier) : Nat :=
  match t with
  | .kern => actF s flCleatSoftK acct
  | .mantle => actF s flCleatSoftM acct
  | .host => actF s flCleatSoftH acct

def hardOf (s : State) (acct : Nat) (t : Tier) : Nat :=
  match t with
  | .kern => actF s flCleatHardK acct
  | .mantle => actF s flCleatHardM acct
  | .host => actF s flCleatHardH acct

/-- n blocks charged; `incoming` of them are frames reserved by moves. -/
def chargeAdd (s : State) (acct : Nat) (t : Tier) (n incoming : Nat) : State :=
  { s with tiers := { s.tiers with charged := mapMod 0 s.tiers.charged (ct acct t) (· + n),
                                   movingIn := mapMod 0 s.tiers.movingIn (ct acct t) (· + incoming) } }

/-- Charges given back. -/
def chargeSub (s : State) (acct : Nat) (t : Tier) (n incoming : Nat) : State :=
  { s with tiers := { s.tiers with charged := mapMod 0 s.tiers.charged (ct acct t) (· - n),
                                   movingIn := mapMod 0 s.tiers.movingIn (ct acct t) (· - incoming) } }

/-- A block's arrival ends the move's hold on its charge. -/
def arrived (s : State) (acct : Nat) (t : Tier) : State := chargeSub s acct t 0 1

/-- A frame released: it returns to the pools and its charge ends. -/
def releaseFrame (s : State) (t : Tier) (acct : Nat) : State := chargeSub (returnFrame s t) acct t 1 0

/-! ### Contents of frames -/

/-- The bytes of a frame set to zero, and its marks cleared. -/
def zeroFrame (s : State) (t : Tier) (f : Nat) : State :=
  let b := frameBase t f
  let inside (k : Nat) : Bool := b ≤ k && k < b + blockBytes
  let s1 : State := { s with mem := { s.mem with
    bytes := s.mem.bytes.filter (fun p => !inside p.1), ahead := s.mem.ahead.filter (fun l => !inside l.1),
    chafed := s.mem.chafed.filter (fun g => !inside g), posted := s.mem.posted.filter (fun p => !inside p.addr) } }
  if t = .host then (List.range blockBytes).foldl (fun st i => putByte st (b + i) 0) s1 else s1

/-- The bytes of a host frame leave through the port (R172, R300). -/
def sendFrameOut (s : State) (t : Tier) (f : Nat) : State :=
  match t, hostTierBus s.cfg.act (frameBase .host f) with
  | .host, some b => hostWrite s true b ((List.range blockBytes).map (fun i => rawByte s (frameBase .host f + i)))
  | _, _ => s

/-- The newest bytes of a frame copied into another one: the posted writes of the source land with the copy (DESIGN CHOICE, log
entry 134). -/
def copyFrame (s0 : State) (t : Tier) (f : Nat) (t' : Tier) (f' : Nat) : State :=
  let a := frameBase t f
  let b := frameBase t' f'
  let s := drainPosted s0 (fun p => a ≤ p.addr && p.addr < a + blockBytes)
  let s1 := zeroFrame s t' f'
  if t = .host || t' = .host then (List.range blockBytes).foldl (fun st i => putByte st (b + i) (rawByte s (a + i))) s1
  else
    let here := s.mem.bytes.filter (fun p => a ≤ p.1 && p.1 < a + blockBytes)
    { s1 with mem := { s1.mem with bytes := here.foldl (fun m p => mapSet 0 m (p.1 - a + b) p.2) s1.mem.bytes } }

/-- The marks of a frame after its granules moved: a mark reaches every granule of the new tier that it overlaps (R194). -/
def copyMarks (s : State) (t : Tier) (f : Nat) (t' : Tier) (f' : Nat) : State :=
  let a := frameBase t f
  let b := frameBase t' f'
  let here := s.mem.chafed.filter (fun g => a ≤ g && g < a + blockBytes)
  { s with mem := { s.mem with chafed := here.foldl (fun ms g => marksAfter ms (g - a + b) (granSize a) true) s.mem.chafed } }

/-! ### MOVE descriptors (R158) -/

def mvBlock (d : BitVec 512) : Nat := dF d 8 47 0 / blockBytes
def mvCount (d : BitVec 512) : Nat := dF d 0x10 24 0
def mvOp (d : BitVec 512) : Nat := dF d 0x10 27 25
def mvDest (d : BitVec 512) : Tier := tierOf (dF d 0x10 29 28)
def mvDerived (d : BitVec 512) : Bool := dF d 0x10 30 30 = 1
def mvShared (d : BitVec 512) : Bool := dF d 0x10 31 31 = 1
def mvPinned (d : BitVec 512) : Bool := dF d 0x10 32 32 = 1
def mvDeadline (d : BitVec 512) : Nat := dF d 0x18 31 0

/-- The op-specific bytes of a MOVE record (R164): `n1` blocks moved, `n2` chafed blocks, `n3` one more than the first
failing index. -/
def moveBytes (o : OpEnt) : List Byte :=
  bytesOf 4 o.done ++ bytesOf 4 o.n1 ++ bytesOf 4 o.n2 ++ bytesOf 4 (if o.n3 = 0 then 0xFFFFFFFF else o.n3 - 1)

/-- Every operation in flight with its line. -/
def allOps (s : State) : List (Nat × OpEnt) := s.lines.flatMap (fun p => p.2.ops.map (fun o => (p.1, o)))

/-- The move of a block that has started, if any. -/
def moveOf (s : State) (name : Nat) : Option Move := s.tiers.moves.find? (fun m => m.started && m.name = name)

/-- The block needs no move of this run: it is chafed, bound in DEST or on its way there, derived, or no longer the
account's; the flag says that it is left as CHAFED (R157, R161). A LANDING block leaves only for the mantle (R156): a MOVE
of it to kern passes it over (DESIGN CHOICE, log entry 126). -/
def skipBlock (s : State) (acct : Nat) (d : BitVec 512) (name : Nat) : Option Bool :=
  let e := htGet s name
  if mvOp d = 1 then (if e.state = .unbound then none else some false)
  else if e.state = .unbound || e.account != acct || e.derived then some false
  else if e.state = .moving then (if (moveOf s name).any (fun m => m.dest = mvDest d) then some false else none)
  else if e.state = .chafed then some true
  else if e.tier = mvDest d || (e.state = .landing && mvDest d = .kern) then some false
  else none

/-- Passes over the blocks of a run that need no move (fuel: those that remain). -/
def moveAdvance (n : Nat) : Nat → State → OpEnt → State × OpEnt
  | 0, s, o => (s, o)
  | fuel + 1, s, o =>
    if o.total ≤ o.next || o.failed || o.track != .running then (s, o)
    else
      let acct := lineAcct s n
      match skipBlock s acct o.desc (mvBlock o.desc + o.next) with
      | none => (s, o)
      | some ch =>
        let s1 := if o.units.contains o.next then chargeSub s acct (mvDest o.desc) 1 1 else s
        moveAdvance n fuel s1 { o with next := o.next + 1, done := o.done + 1, n2 := if ch then o.n2 + 1 else o.n2,
                                       units := setDel o.units o.next, status := if ch then worse o.status stChafed else o.status }

/-- Blocks of a run whose move was dropped with the port link, by index: they are to start again (R172, log entry 127). -/
def againOf (o : OpEnt) : List Nat := (o.wset.filter (fun p => p.2 = 3)).map Prod.fst

/-- Those of them that need no move any more are done. -/
def againSkip (s : State) (acct : Nat) (o : OpEnt) : OpEnt :=
  (againOf o).foldl (fun x i =>
    match skipBlock s acct o.desc (mvBlock o.desc + i) with
    | none => x
    | some ch =>
      let y := { x with done := x.done + 1, wset := x.wset.erase (i, 3), n2 := if ch then x.n2 + 1 else x.n2 }
      if ch then opWorse y stChafed else y) o

/-- Charges of blocks that the run will not move are given back when the run stops. -/
def moveStop (s : State) (n : Nat) (o : OpEnt) : State × OpEnt :=
  let rest := o.units.filter (fun i => o.next ≤ i)
  (chargeSub s (lineAcct s n) (mvDest o.desc) rest.length rest.length,
    { o with units := o.units.filter (fun i => i < o.next), wset := o.wset.filter (fun p => p.2 != 3) })

/-- MOVE and ALLOC operations of the lines that run. -/
def isRun (o : OpEnt) : Bool :=
  o.dispatched && opcodeOf o.desc = opMove && mvOp o.desc ≤ 1 && o.track = .running && !o.failed

/-- Every run advanced past blocks that need no move. -/
def advanceRuns (s : State) : State :=
  ((allOps s).filter (fun p => isRun p.2)).foldl (fun t p =>
    match opFind t p.1 p.2.seq with
    | some o =>
      let r := moveAdvance p.1 (o.total - o.next) t (againSkip t (lineAcct t p.1) o)
      opSet r.1 p.1 r.2
    | none => t) s

/-- A dispatch of a MOVE descriptor with the given OP. -/
def onMoveOp (s : State) (n op : Nat) (f : OpEnt → State) : Out :=
  match undispatched s n with
  | some o => if mvOp o.desc = op then onDispatch s n opMove f else .next s
  | none => .next s

/-- The dispatch check of R159 on every block of the run, with the blocks of R196 and R369 that no MOVE or FREE may name. -/
def runOk (s : State) (n : Nat) (d : BitVec 512) : Bool :=
  (List.range (mvCount d)).all (fun i =>
    let name := mvBlock d + i
    let e := htGet s name
    let fa := name * blockBytes
    match mvOp d with
    | 1 => e.state = .unbound
    | op =>
      e.state != .unbound && e.account = lineAcct s n &&
      !(op = 0 && e.derived) &&
      !(op != 3 && ((rawSlotOf s.cfg.act s.fuses.variant fa).isSome || exported s.cfg.act s.fuses.variant fa)) &&
      !(op = 3 && mvDerived d && e.tier != .kern))

/-- The blocks of the run that a MOVE or ALLOC charges at its dispatch: every one not already in DEST (R160). The charge of
one that is on its way there is released as it counts as done (R161). -/
def chargedBlocks (s : State) (d : BitVec 512) : List Nat :=
  (List.range (mvCount d)).filter (fun i =>
    let e := htGet s (mvBlock d + i)
    mvOp d = 1 || !(e.tier = mvDest d && e.state != .moving))

/-- The dispatch of a MOVE or an ALLOC: the checks of R159, the charge of R160, and the run begun. -/
def dispatchRun (s : State) (n : Nat) (o : OpEnt) : State :=
  if !runOk s n o.desc then rejectOp s n o stDescInvalid
  else
    let acct := lineAcct s n
    let ch := chargedBlocks s o.desc
    let o1 := { opDispatch s o with total := mvCount o.desc }
    if hardOf s acct (mvDest o.desc) < charge s acct (mvDest o.desc) + ch.length then
      finishOp s n { o1 with n3 := 1 } stQuotaExceeded (moveBytes { o1 with n3 := 1 })
    else
      let s1 := chargeAdd s acct (mvDest o.desc) ch.length ch.length
      let r := moveAdvance n o1.total s1 { o1 with units := ch }
      noteLine (opSet r.1 n r.2) n

/-- MOVE (R159 to R161). -/
def execMove (line : LineNo) (s : State) : Out := onMoveOp s line.toNat 0 (dispatchRun s line.toNat)

/-- ALLOC (R156, R159, R160). DERIVED blocks are allocated in kern only. -/
def execAlloc (line : LineNo) (s : State) : Out :=
  onMoveOp s line.toNat 1 (fun o =>
    if mvDerived o.desc && mvDest o.desc != .kern then rejectOp s line.toNat o stDescInvalid else dispatchRun s line.toNat o)

/-- A landing buffer's slots and charge are released (R156, R257, R258). -/
def dropLanding (s : State) (name acct : Nat) : State :=
  let s1 := { s with tiers := { s.tiers with
    land := s.tiers.land.filter (fun p => p.2.block != name)
    merging := setDel s.tiers.merging name
    mergeHeld := s.tiers.mergeHeld.filter (fun p => p.1 != name) } }
  chargeSub s1 acct .mantle 1 0

/-- A queued device move that cannot start any more: its block is freed, CHAFED or DERIVED, is another account's, or is
already where it should go (R153, R157, R166, R168). -/
def moveDead (s : State) (m : Move) : Bool :=
  let e := htGet s m.name
  !m.started && (e.state = .unbound || e.state = .chafed || e.derived || e.account != m.account ||
    (e.tier = m.dest && e.state != .moving && m.origin != .claim && !(match m.origin with
      | .landing _ _ => true
      | _ => false)))

/-- Queued moves that match leave the queue, and the charges of their destinations end (R160, R166). -/
def dropQueued (s : State) (p : Move → Bool) : State :=
  let gone := s.tiers.moves.filter (fun m => !m.started && p m)
  gone.foldl (fun t m => chargeSub t m.account m.dest 1 1)
    { s with tiers := { s.tiers with moves := s.tiers.moves.filter (fun m => m.started || !p m) } }

/-- Moves that cannot start any more leave the queue. -/
def pruneMoves (s : State) : State := dropQueued s (moveDead s)

/-- The entry of a bound block becomes UNBOUND, with its frame and its landing buffer released, and a move of it that has not
started leaves the queue. -/
def unbind (s : State) (name : Nat) : State :=
  let e := htGet s name
  let s1 := dropQueued (if e.land then dropLanding s name e.account else s) (fun m => m.name = name)
  releaseFrame (htSet s1 name HtEntry.reset) e.tier e.account

/-- The entry updates of a FREE or an ATTR charged at the mover's arbiter, one a block (R305). -/
def chargeEntries (s : State) (n : Nat) (d : BitVec 512) : State :=
  let k := ca (dClass d) (lineAcct s n)
  { s with tiers := { s.tiers with arb := { s.tiers.arb with
      deficit := mapSet 0 s.tiers.arb.deficit k (mapGet 0 s.tiers.arb.deficit k - mvCount d) } } }

/-- FREE: every block of the run becomes UNBOUND in name order; a MOVING block at its retire (R156). DESIGN CHOICE (log
entry 4): the entry updates of one FREE or ATTR follow one another with no other unit of the mover between them. -/
def execFree (line : LineNo) (s : State) : Out :=
  let n := line.toNat
  onMoveOp s n 2 (fun o =>
    if !runOk s n o.desc then rejectOp s n o stDescInvalid
    else
      let names := (List.range (mvCount o.desc)).map (fun i => mvBlock o.desc + i)
      let moving := names.filter (fun b => (htGet s b).state = .moving)
      let s1 := names.foldl (fun t b => if (htGet t b).state = .moving then t else unbind t b) (chargeEntries s n o.desc)
      let s2 := { s1 with tiers := { s1.tiers with moves := s1.tiers.moves.map (fun m =>
        if m.started && moving.contains m.name then { m with freeAtRetire := true } else m) } }
      let o1 := { opDispatch s o with total := mvCount o.desc, next := mvCount o.desc, done := mvCount o.desc - moving.length,
                                      inflight := moving.length, units := moving }
      noteLine (opSet s2 n o1) n)

/-- ATTR: DERIVED, SHARED and PINNED of every block of the run (R158, R159). -/
def execAttr (line : LineNo) (s : State) : Out :=
  let n := line.toNat
  onMoveOp s n 3 (fun o =>
    if !runOk s n o.desc then rejectOp s n o stDescInvalid
    else
      let names := (List.range (mvCount o.desc)).map (fun i => mvBlock o.desc + i)
      let s1 := names.foldl (fun t b =>
        htSet t b { htGet t b with derived := mvDerived o.desc, shared := mvShared o.desc, pinned := mvPinned o.desc }) (chargeEntries s n o.desc)
      let o1 := { opDispatch s o with total := mvCount o.desc, next := mvCount o.desc, done := mvCount o.desc }
      noteLine (opSet (pruneMoves s1) n o1) n)

/-! ### Victims (R167, R168) -/

/-- A block that may be evicted from its tier (R157, R167), with no move of it queued. -/
def eligible (s : State) (t : Tier) (p : Nat × HtEntry) : Bool :=
  p.2.tier = t && p.2.state = .home && !p.2.land && !p.2.pinned && !p.2.derived && !fixedBlock s p.2 &&
    !(s.tiers.moves.any (fun m => m.name = p.1))

/-- The older of two blocks, the lower name on a tie (R154). -/
def older (a b : Nat × HtEntry) : Bool := a.2.touch.toNat < b.2.touch.toNat || (a.2.touch = b.2.touch && a.1 < b.1)

/-- The oldest of a list of blocks. -/
def oldest (bs : List (Nat × HtEntry)) : Option (Nat × HtEntry) :=
  bs.foldl (fun acc b =>
    match acc with
    | none => some b
    | some a => if older b a then some b else some a) none

/-- The tier below (R167). -/
def below : Tier → Option Tier
  | .kern => some .mantle
  | .mantle => some .host
  | .host => none

/-- The tier below can take a block of the account: its cleat and its frames (R168). -/
def canSink (s : State) (acct : Nat) (t : Tier) : Bool :=
  match below t with
  | none => false
  | some u => charge s acct u < hardOf s acct u && 0 < (poolGet s u).general + (poolGet s u).reserve

/-- The oldest eligible block of an account in a tier. -/
def ownVictim (s : State) (acct : Nat) (t : Tier) : Option Nat :=
  if canSink s acct t then
    (oldest (s.tiers.ht.filter (fun p => p.2.account = acct && eligible s t p))).map Prod.fst
  else none

/-- Moves out of a tier, queued or running, for an account. -/
def outgoing (s : State) (acct : Nat) (t : Tier) : Nat :=
  (s.tiers.moves.filter (fun m => (m.origin = .evict || m.origin = .refill) && m.account = acct && (htGet s m.name).tier = t)).length +
  (s.tiers.releasing.filter (fun r => r.1 = t && r.2.2 = acct)).length

/-- Accounts with an excess over their SOFT in a tier, the largest excess first. -/
def byExcess (ex : Nat → Nat) : List Nat :=
  ((List.range 256).filter (fun a => 0 < ex a)).foldl (fun acc a =>
    acc.takeWhile (fun b => ex a ≤ ex b) ++ a :: acc.dropWhile (fun b => ex a ≤ ex b)) []

/-- Accounts whose charge exceeds their SOFT in a tier (R168). -/
def overSoft (s : State) (t : Tier) : List Nat := byExcess (fun a => charge s a t - softOf s a t)

/-- Accounts that will still exceed their SOFT when the evictions under way have ended (R167). -/
def softExcess (s : State) (t : Tier) : List Nat := byExcess (fun a => charge s a t - outgoing s a t - softOf s a t)

/-- The victim of R168 in a tier: for a requester at or above its SOFT its own oldest block first. -/
def victim (s : State) (t : Tier) (requester : Option Nat) : Option Nat :=
  let own := (requester.filter (fun a => softOf s a t ≤ charge s a t)).bind (fun a => ownVictim s a t)
  own.orElse (fun _ => (overSoft s t).findSome? (fun a => ownVictim s a t))

/-- A device move queued: its destination is charged at once (R168, R173). -/
def queueMove (s : State) (name : Nat) (origin : MoveOrigin) (dest : Tier) (cls deadline : Nat) : State :=
  let e := htGet s name
  let m : Move := { name := name, origin := origin, fill := false, dest := dest, account := e.account, cls := cls,
                    deadline := deadline, queuedAt := tbNow s, readyAt := none, started := false, destFrame := 0, held := [],
                    freeAtRetire := false, chafedBlock := false }
  let s1 := chargeAdd s e.account dest 1 1
  { s1 with tiers := { s1.tiers with moves := s1.tiers.moves ++ [m] } }

/-! ### Candidates of the mover's arbiter (R163, R305 to R309, R315) -/

/-- A block move or fill that waits to start: its place (a line and sequence number, or an index among the queued device
moves), the block, its tier and what the arbiter needs. -/
structure Cand where
  op : Option (Nat × Nat)
  name : Nat
  dest : Tier
  fill : Bool
  account : Nat
  cls : Nat
  deadline : Nat
  readyAt : Nat
  /-- When it was submitted: the run's dispatch, or the queueing of a device move. -/
  subAt : Nat
  origin : MoveOrigin
deriving DecidableEq, Repr

/-- The index of the run's next block: one that must start again first. -/
def runNext (o : OpEnt) : Nat := ((againOf o).head?).getD o.next

/-- The head request of each line and the queued device moves, in submission order. -/
def candidates (s : State) : List Cand :=
  let ofLine (p : Nat × Line) : Option Cand :=
    ((p.2.ops.filter (fun o => isRun o && (o.next < o.total || !(againOf o).isEmpty) && o.inflight < 64)).head?).map (fun o =>
      { op := some (p.1, o.seq), name := mvBlock o.desc + runNext o, dest := mvDest o.desc, fill := mvOp o.desc = 1,
        account := lineAcct s p.1, cls := dClass o.desc, deadline := if mvDeadline o.desc = 0 then 0 else o.cDisp + mvDeadline o.desc,
        readyAt := o.readyAt.getD (tbNow s), subAt := o.cDisp, origin := .op p.1 o.seq })
  let dev := (s.tiers.moves.filter (fun m => !m.started)).map (fun m =>
    { op := none, name := m.name, dest := m.dest, fill := false, account := m.account, cls := m.cls, deadline := m.deadline,
      readyAt := m.readyAt.getD (tbNow s), subAt := m.queuedAt, origin := m.origin : Cand })
  (s.lines.filterMap ofLine ++ dev).foldl (fun acc c =>
    acc.takeWhile (fun x => x.subAt ≤ c.subAt) ++ c :: acc.dropWhile (fun x => x.subAt ≤ c.subAt)) []

/-- The frame that a candidate would take, if one is free for it (R165, R228). -/
def frameFor (s : State) (c : Cand) : Option Nat :=
  let p := poolGet s c.dest
  if c.dest = .mantle && (arenaOf s c.name).isSome && c.origin != .claim then
    (if (usedFrames s .mantle).contains (nameFrame c.name) || p.general + p.reserve = 0 then none else some (nameFrame c.name))
  else if 0 < p.general || ((c.origin = .evict || c.origin = .refill) && 0 < p.reserve) then freeFrame s c.dest
  else none

/-- The block may start moving now: HOME, or LANDING on its way to the mantle (UNBOUND for a fill), not DERIVED (R153), with
no other move of it under way (R156). -/
def startable (s : State) (c : Cand) : Bool :=
  let e := htGet s c.name
  let st := if c.fill then e.state = .unbound else !e.derived && (e.state = .home || (e.state = .landing && c.dest = .mantle))
  st && !(s.tiers.merging.contains c.name) && (moveOf s c.name).isNone &&
  !((c.dest = .host || e.tier = .host && !c.fill) && !s.port.linkUp)

/-- A mover slot is free for the candidate: 128 of the 1,024 are kept for evictions and refills (R315). -/
def slotFree (s : State) (c : Cand) : Bool :=
  let on := s.tiers.moves.filter Move.started
  on.length < 1024 &&
    (c.origin = .evict || c.origin = .refill || (on.filter (fun m => m.origin != .evict && m.origin != .refill)).length < 896)

/-- The arbiter's requests: candidates whose every condition but slots is met. -/
def moverReqs (s : State) (cs : List Cand) : List Req :=
  (cs.zipIdx).filterMap (fun p =>
    if startable s p.1 && (frameFor s p.1).isSome then
      some { cls := p.1.cls, acct := p.1.account, key := p.2, cost := 1, readyAt := p.1.readyAt, deadline := p.1.deadline,
             fits := slotFree s p.1 }
    else none)

/-- A run or a device move whose block cannot get a frame: a run stops with QUOTA_EXCEEDED; a device move is dropped with
its charge, and its consumer remembers the refusal (R164, R168, R173, R236). -/
def failCand (s : State) (c : Cand) : State :=
  match c.op with
  | some (n, q) =>
    (match opFind s n q with
    | some o =>
      let r := moveStop s n { opWorse o stQuotaExceeded with failed := true, n3 := o.next + 1 }
      opSet r.1 n r.2
    | none => s)
  | none =>
    let s1 := chargeSub { s with tiers := { s.tiers with moves := s.tiers.moves.filter (fun m => m.started || m.name != c.name) } } c.account c.dest 1 1
    match c.origin with
    | .demand n q | .landing n q =>
      (match opFind s1 n q with
      | some o => opSet s1 n { o with wset := o.wset ++ [(c.name, 0)] }
      | none => s1)
    | .prefetch n q pg =>
      -- a page counts once in PF_REFUSED (R139)
      (match opFind s1 n q with
      | some o =>
        if o.wset.contains (pg, 2) then opSet s1 n { o with wset := o.wset ++ [(c.name, 0)] }
        else opSet s1 n { o with wset := o.wset ++ [(pg, 2), (c.name, 0)], n2 := satAdd 255 o.n2 1 }
      | none => s1)
    | _ => s1

/-- EVICT_BLOCKED of a tier is set (R168). -/
def evictBlocked (s : State) (t : Tier) : State :=
  raiseCause (poolSet s t { poolGet s t with evictBlocked := true }) irqEvict

/-- The claim of a name frame that another block occupies (R228): the occupant's move is queued, to a general mantle
frame or, when none is free, to the host tier; a PINNED or CHAFED occupant makes the claim fail, and so, with
EVICT_BLOCKED, does one for which no frame can be freed (R168, R236). -/
def claimFrame (s : State) (c : Cand) : State :=
  if c.dest = .mantle && (arenaOf s c.name).isSome && startable s c && c.origin != .claim then
    match s.tiers.ht.find? (fun p => p.2.tier = .mantle && p.2.frame = nameFrame c.name && p.2.state != .unbound && p.1 != c.name) with
    | none => s
    | some (b, e) =>
      if e.pinned || e.state = .chafed then
        failCand { s with tiers := { s.tiers with claimFail := satAdd 65535 s.tiers.claimFail 1 } } c
      else if s.tiers.moves.any (fun m => m.name = b) then s
      else
        let s1 := { s with tiers := { s.tiers with claims := satAdd 65535 s.tiers.claims 1 } }
        if 0 < (poolGet s .mantle).general then queueMove s1 b .claim .mantle c.cls c.deadline
        else if canSink s e.account .mantle && eligible s .mantle (b, e) then queueMove s1 b .evict .host c.cls c.deadline
        else if e.state = .home || e.state = .landing then evictBlocked (failCand s c) .mantle
        else s
  else s

/-- The block's move or fill starts: its frame is taken before the first source read (R160). -/
def startMove (s : State) (c : Cand) (frame : Nat) : State :=
  let s1 := drawFrame (drawn s) c.dest
  let mv : Move := { name := c.name, origin := c.origin, fill := c.fill, dest := c.dest, account := c.account, cls := c.cls,
                     deadline := c.deadline, queuedAt := c.subAt, readyAt := some c.readyAt, started := true, destFrame := frame, held := [],
                     freeAtRetire := false, chafedBlock := false }
  let rest := if c.op.isSome then s1.tiers.moves else s1.tiers.moves.filter (fun m => m.started || m.name != c.name)
  let s2 := { s1 with tiers := { s1.tiers with moves := rest ++ [mv] } }
  let s3 := if c.fill then s2 else htSet s2 c.name { htGet s2 c.name with state := .moving }
  match c.op with
  | some (n, q) =>
    (match opFind s3 n q with
    | some o =>
      let i := runNext o
      let had := o.units.contains i
      let s4 := if had then s3 else chargeAdd s3 c.account c.dest 1 1
      let o1 := { o with inflight := o.inflight + 1, readyAt := none, aged := false, units := setDel o.units i }
      opSet s4 n (if (againOf o).isEmpty then { o1 with next := o.next + 1 } else { o1 with wset := o.wset.erase (i, 3) })
    | none => s3)
  | none => s3

/-- The mover's arbiter grants a slot: one block move or zero fill starts. `found` are granules that the move's reads find
uncorrectable (R162, R175). Claims of occupied name frames are pursued first. -/
def execBlockMoveStart (found : List Found) (s : State) : Out :=
  if quiet s unMover then .next s else
  let s00 := pruneMoves s
  let s0 := (candidates s00).foldl claimFrame s00
  let cs := candidates s0
  let r := pickNow s0 64 true (moverReqs s0 cs) s0.tiers.arb
  let s1 := { s0 with tiers := { s0.tiers with arb := r.2 } }
  match r.1 with
  | none => .next s1
  | some q =>
    match cs[q.key]? with
    | none => .next s1
    | some c =>
      match frameFor s1 c with
      | none => .next s1
      | some f =>
        let s2 := startMove (noteGrant s1 q) c f
        .next (advanceRuns (foundMem s2 (if c.fill then [] else [(c.name * blockBytes, blockBytes)]) found))

/-! ### Ends of moves -/

/-- An operation's block finished; `moved` counts it in BLOCKS_MOVED, `ch` in CHAFED_BLOCKS. -/
def runDone (s : State) (n q : Nat) (moved ch : Bool) : State :=
  match opFind s n q with
  | some o =>
    opSet s n { (if ch then opWorse o stChafed else o) with
                done := o.done + 1, inflight := o.inflight - 1, n1 := if moved then o.n1 + 1 else o.n1, n2 := if ch then o.n2 + 1 else o.n2 }
  | none => s

/-- A FREE that waited for a MOVING block has it done. -/
def freeDone (s : State) (name : Nat) : State :=
  (allOps s).foldl (fun t p =>
    if opcodeOf p.2.desc = opMove && mvOp p.2.desc = 2 && p.2.units.contains name then
      (match opFind t p.1 p.2.seq with
      | some o => opSet t p.1 { o with units := setDel o.units name, done := o.done + 1, inflight := o.inflight - 1 }
      | none => t)
    else t) s

/-- Held writes applied in arrival order (R162). -/
def applyHeld (s : State) (name : Nat) (hs : List HeldWrite) : State :=
  let e := htGet s name
  syncChafe (hs.foldl (fun t h => storeAt t (frameBase e.tier e.frame + h.offset) h.bytes h.chafed) s) name

/-- A started move arrives: bytes and marks are copied, the entry names the new frame, the old one waits for its readers, and the
held writes are applied, or wait for the merge of its landing slots (R152, R156, R162, R194, R257). Also whether the block
holds a mark. -/
def movedIn (s : State) (m : Move) : State × Bool :=
  let e := htGet s m.name
  let s1 := sendFrameOut (copyMarks (copyFrame s e.tier e.frame m.dest m.destFrame) e.tier e.frame m.dest m.destFrame) m.dest m.destFrame
  let e1 := { e with tier := m.dest, frame := m.destFrame, touch := s.tb.now }
  let ch := blockMarked s1 e1
  let st : BlockState := if ch then .chafed else if e1.land && m.dest = .host then .landing else .home
  let s2 := arrived (htSet s1 m.name { e1 with state := st }) m.account m.dest
  let s3 : State := { s2 with tiers := { s2.tiers with
    moves := s2.tiers.moves.filter (fun x => !(x.started && x.name = m.name)),
    releasing := s2.tiers.releasing ++ [(e.tier, e.frame, m.account)],
    merging := if e.land && m.dest = .mantle then setIns s2.tiers.merging m.name else s2.tiers.merging } }
  let held : State := { s3 with tiers := { s3.tiers with mergeHeld := s3.tiers.mergeHeld ++ m.held.map (fun h => (m.name, h)) } }
  (if s3.tiers.merging.contains m.name then held else sigsAfter (applyHeld s3 m.name m.held) m.name, ch)

/-- The tier that a consumer's demand move brings a block to: the mantle for the capstan (R174) and, first, for a block
with landed gradients (R258); kern otherwise (R173). -/
def demandTier (o : OpEnt) (e : HtEntry) : Tier :=
  if opcodeOf o.desc = opCapColl || (e.land && e.tier = .host) then .mantle else .kern

/-- A demand move of a block with landed gradients has come to the mantle, where the block is merged: it then moves on to kern
(R258), unless it is chafed or its account's cleat refuses it (R173). -/
def moveOn (s : State) (m : Move) (n q : Nat) (ch : Bool) : State :=
  match opFind s n q with
  | some o =>
    if s.tiers.merging.contains m.name && !ch && demandTier o (htGet s m.name) = .kern && o.track != .cancelPending then
      (if hardOf s m.account .kern ≤ charge s m.account .kern then opSet s n { o with wset := o.wset ++ [(m.name, 0)] }
      else queueMove s m.name m.origin .kern m.cls m.deadline)
    else s
  | none => s

/-- The operation that asked for the move learns of it. -/
def noteMoved (s : State) (m : Move) (ch : Bool) : State :=
  match m.origin with
  | .op n q => runDone s n q true ch
  | .landing n q =>
    (match opFind s n q with
    | some o => opSet s n { o with n1 := o.n1 + 1 }
    | none => s)
  | .demand n q => moveOn s m n q ch
  | .prefetch n q _ => moveOn s m n q ch
  | _ => s

/-- The counters of a move (R402). -/
def countMove (s : State) (m : Move) (source : Tier) : State :=
  let s1 := pmuAdd (pmuAdd s (0x100 + tierCode m.dest) 1 (attrP m.account)) (0x104 + tierCode source) 1 (attrP m.account)
  if m.origin = .evict || m.origin = .refill then pmuAdd s1 (0x108 + tierCode source) 1 (attrP m.account) else s1

/-- The retire of a started move (R152, R156, R162, R194). -/
def retireMove (s : State) (m : Move) : State :=
  let r := movedIn s m
  let s1 := countMove (noteMoved r.1 m r.2) m (htGet s m.name).tier
  advanceRuns (if m.freeAtRetire then freeDone (unbind s1 m.name) m.name else s1)

/-- The last read begun before the retire has finished: the source frame is released and uncharged (R156, R165). -/
def execFrameRelease (tier : Tier) (frame : BitVec 24) (s : State) : Out :=
  match s.tiers.releasing.find? (fun r => r.1 = tier && r.2.1 = frame.toNat) with
  | some r =>
    .next (releaseFrame { s with tiers := { s.tiers with releasing := s.tiers.releasing.erase r } } tier r.2.2)
  | none => .next s

/-! ### Evictions and refills -/

/-- Requests that wait for a general frame of a tier whose general pool is empty, and for which no eviction runs yet. -/
def frameWaiters (s : State) (t : Tier) : List Cand :=
  if 0 < (poolGet s t).general then []
  else (candidates s).filter (fun c => c.dest = t && startable s c && (frameFor s c).isNone &&
    (t != .mantle || (arenaOf s c.name).isNone || !(usedFrames s .mantle).contains (nameFrame c.name)))

/-- Evictions from a tier that have not yet given back their frame. -/
def evicting (s : State) (t : Tier) : Nat :=
  (s.tiers.moves.filter (fun m => (m.origin = .evict || m.origin = .refill) && (htGet s m.name).tier = t)).length +
  (s.tiers.releasing.filter (fun r => r.1 = t)).length

/-- Class and deadline of the requests that bring an account's blocks into a tier: its runs, and the device moves for its
consumers (R163, R308). -/
def causes (s : State) (acct : Nat) (t : Tier) : List (Nat × Nat) :=
  ((allOps s).filter (fun p => opcodeOf p.2.desc = opMove && mvOp p.2.desc ≤ 1 && mvDest p.2.desc = t && lineAcct s p.1 = acct)).map (fun p =>
    (dClass p.2.desc, if mvDeadline p.2.desc = 0 then 0 else p.2.cDisp + mvDeadline p.2.desc)) ++
  (s.tiers.moves.filter (fun m => m.dest = t && m.account = acct && (match m.origin with
    | .demand _ _ | .landing _ _ | .prefetch _ _ _ => true
    | _ => false))).map (fun m => (m.cls, m.deadline))

/-- Class and deadline of an eviction for an account's soft excess: those of the highest of its causes (DESIGN CHOICE where
several caused it, log entry 128). -/
def causeOf (s : State) (acct : Nat) (t : Tier) : Nat × Nat :=
  (causes s acct t).foldl (fun k p => if k.1 < p.1 || (k.1 = p.1 && p.2 != 0 && (k.2 = 0 || p.2 < k.2)) then p else k) (0, 0)

/-- The device evicts one block from a tier: for the first request that waits for a frame under R168, which fails when no
candidate remains; otherwise for an account above its SOFT under R167. -/
def execEviction (tier : Tier) (s0 : State) : Out :=
  let s := pruneMoves s0
  match (frameWaiters s tier).drop (evicting s tier) with
  | c :: _ =>
    (match victim s tier (some c.account), below tier with
    | some b, some u => .next (queueMove s b .evict u c.cls c.deadline)
    | _, _ => .next (evictBlocked (failCand s c) tier))
  | [] =>
    match below tier, (softExcess s tier).findSome? (fun a => ownVictim s a tier) with
    | some u, some b =>
      let k := causeOf s (htGet s b).account tier
      .next (queueMove s b .evict u k.1 k.2)
    | _, _ => .next s

/-- A reserve below its size is refilled by evictions of class 7 (R169, R308). -/
def execReserveRefill (tier : Tier) (s0 : State) : Out :=
  let s := pruneMoves s0
  if (poolGet s tier).reserve + evicting s tier < reserveSize s tier then
    match victim s tier none, below tier with
    | some b, some u => .next (queueMove s b .refill u 7 0)
    | _, _ => .next s
  else .next s

/-! ### Moves for consumers -/

/-- The operation has been refused a move of the block. -/
def refused (o : OpEnt) (name : Nat) : Bool := o.wset.contains (name, 0)

/-- The deadline that a consumer's moves take (R163): the BRD_MM's DEADLINE_NS after its dispatch; none otherwise. -/
def consumerDeadline (o : OpEnt) : Nat :=
  if opcodeOf o.desc = opBrdMm && dF o.desc 0x38 57 26 != 0 then o.cDisp + dF o.desc 0x38 57 26 else 0

/-- The consumer needs a demand move of the block: bound, HOME or LANDING, not in a tier that it reaches in place (R173,
R174), with no move of it queued. A BRD_MM operand named in the mantle waits for its prefetch instead (R93). The vector engine reads the mantle in place; the capstan reads kern and mantle. -/
def wantsDemand (s : State) (o : OpEnt) (name : Nat) : Bool :=
  let e := htGet s name
  let opc := opcodeOf o.desc
  (e.state = .home || e.state = .landing) && !e.derived && !fixedBlock s e && !refused o name && !(s.tiers.moves.any (fun m => m.name = name)) &&
  !(s.tiers.merging.contains name) &&
  (if opc = opVecOp || opc = opCapColl then e.tier = .host
  else e.tier != .kern && !(opc = opBrdMm && nameTier name = .mantle))

/-- An arena block homed elsewhere is brought to its name frame for an SPL operation (R228, R236). At the account's hard
limit its own oldest eligible mantle block is evicted first (R168). -/
def execLandingMove (line : LineNo) (seq : Seq) (name : DevAddr) (s : State) : Out :=
  let n := line.toNat
  let b := blockNo name.toNat
  match opFind s n seq.toNat with
  | none => .next s
  | some o =>
    let e := htGet s b
    let spl := opcodeOf o.desc = opSplUpd || opcodeOf o.desc = opSplAcc
    let away := (e.state = .home || e.state = .landing) && !(e.tier = .mantle && e.frame = nameFrame b)
    if o.dispatched && spl && away && (arenaOf s b).isSome && e.account = lineAcct s n && !refused o b && !(s.tiers.moves.any (fun m => m.name = b)) then
      if charge s e.account .mantle < hardOf s e.account .mantle || e.tier = .mantle then
        .next (queueMove s b (.landing n o.seq) .mantle (dClass o.desc) 0)
      else if 0 < outgoing s e.account .mantle then .next s
      else
        (match ownVictim s e.account .mantle with
        | some v => .next (queueMove s v .evict .host (dClass o.desc) 0)
        | none => .next (evictBlocked (opSet s n { o with wset := o.wset ++ [(b, 0)] }) .mantle))
    else .next s

end Sys2Proof.Machine
end

