-- ==== Sys2Proof/Machine/Channels.lean ====
section
/-! DEFINITION. Kern and mantle channels: the fid path, granule codes and the patrol scrub, RAW parity, refresh (R181,
R188 to R201). -/

set_option Elab.async false

namespace Sys2Proof.Machine

open Sys2Proof

/-! ### Banks -/

/-- The key of a mantle bank: 32 × global channel + bank. -/
def bk (chan bank : Nat) : Nat := chan * 32 + bank

def bankGet (s : State) (k : Nat) : Bank := mapGet Bank.reset s.eng.banks k
def bankSet (s : State) (k : Nat) (b : Bank) : State := { s with eng := { s.eng with banks := mapSet Bank.reset s.eng.banks k b } }

/-- Global channel, bank, row and byte in the row of a mantle frame address (R186). -/
def bankPlace (v : Variant) (fa : Nat) : Nat × Nat × Nat × Nat :=
  let h := mantleHash (nchan v) fa
  (h.1 * 96 + h.2.1, h.2.2 / 1024 % 32, h.2.2 / 2 ^ 15, h.2.2 % 1024)

def refreshGet (s : State) (k : Nat) : Refresh := mapGet Refresh.reset s.refresh k
def refreshSet (s : State) (k : Nat) (r : Refresh) : State := { s with refresh := mapSet Refresh.reset s.refresh k r }

/-- The stack's number: kern stack k is k, mantle stack m is 4 + m. -/
def stackNo : Stack → Nat
  | .kern k => k.val
  | .mantle m => 4 + m.val

/-- The refresh key of a bank of a stack's channel. -/
def rk (st chan bank : Nat) : Nat := (st * 128 + chan) * 32 + bank

/-- The RAW group of a mantle frame address: slot and group (R197). -/
def rawGroup (s : State) (fa : Nat) : Option (Nat × Nat) :=
  (rawSlotOf s.cfg.act s.fuses.variant fa).map (fun k => (k, (bankPlace s.fuses.variant fa).2.2.1 % 128 / 16))

/-- The parity of a group in a bank is stale: its recompute is pending, or a sequence in the bank has written it (R222). -/
def groupStale (b : Bank) (g : Nat × Nat) : Bool :=
  b.parity.any (fun p => p.1 = g.1 && p.2.1 = g.2) || b.runs.any (fun r => r.written.contains (g.1 * 8 + g.2))

/-- An access to a frame address is held: its bank owes three refreshes (R201), or in the mantle is in an atom (R189, R220)
or, for a write, has stale parity in the group (R222). -/
def accessHeld (s : State) (fa : Nat) (write : Bool) : Bool :=
  if fa < mantleBase then
    let h := kernHash fa
    (refreshGet s (rk h.1 h.2.1 (Config.kernBank h.2.2 % 32))).hold
  else if fa < hostFrames then
    let p := bankPlace s.fuses.variant fa
    let b := bankGet s (bk p.1 p.2.1)
    b.atom.isSome || (refreshGet s (rk (4 + p.1 / 96) (p.1 % 96) p.2.1)).hold ||
      (write && (rawGroup s fa).any (groupStale b))
  else false

/-- A held access waits at its bank, which yields to it at the end of its atom (R219, R220). -/
def noteHeld (s : State) (fa : Nat) : State :=
  let p := bankPlace s.fuses.variant fa
  let b := bankGet s (bk p.1 p.2.1)
  if mantleBase ≤ fa && b.atom.isSome then
    let s1 := bankSet s (bk p.1 p.2.1) { b with heldAccesses := b.heldAccesses + 1 }
    { s1 with eng := { s1.eng with heldCount := mapMod 0 s1.eng.heldCount (p.1 / 96) (fun x => satAdd 65535 x 1) } }
  else s

/-- A waiting access noted at a bank at which no other one waits. -/
def noteWait (s : State) (fa : Nat) : State :=
  let p := bankPlace s.fuses.variant fa
  if (bankGet s (bk p.1 p.2.1)).heldAccesses = 0 then noteHeld s fa else s

/-! ### The fid path -/

def strandGet (s : State) (k : Nat) : Strand := mapGet Strand.reset s.strands k
def strandSet (s : State) (k : Nat) (x : Strand) : State := { s with strands := mapSet Strand.reset s.strands k x }

/-- The frame address that a fid request of an account names: a name is resolved through the home table, to whatever tier its
block is homed in (R173, R188; DESIGN CHOICE outside the mantle, log entry 138); none for a name or a straight address that
the account may not use. -/
def fidFrame (s : State) (acct a : Nat) : Option Nat := locate s (some acct) a

/-- The 32 bytes of a granule as a word. -/
def granWord (s : State) (fa : Nat) : BitVec 256 := BitVec.ofNat 256 (natOfBytes (viewBytes s fa 32))

/-- The answer of a request at its strand's fid port. -/
def fidAnswer (s : State) (strand : Nat) (d : BitVec 256) (f : Byte) (ch : Bool) : State :=
  strandSet s strand { strandGet s strand with fidData := d, fidFlags := f, fidChafed := ch }

/-- A fid request waits: behind an earlier one to the granule (R189), for the merge or the repair of its block (R179, R257), or
at its bank (R189, R201, R220, R222). A read-modify-write of a MOVING block waits for the retire (R162). -/
def fidWaits (s : State) (a fa : Nat) (rmw write : Bool) : Bool :=
  s.ingress.queue.any (fun r => !r.host && r.addr = a) || accessHeld s fa write ||
  (a < straightBase && (s.tiers.merging.contains (blockNo a) || (rmw && (htGet s (blockNo a)).state = .moving) ||
    ((rmw || !write) && (htGet s (blockNo a)).repair && granChafed s fa)))

/-- A fid request `c`: counted, aligned, and either an address that the account may not use (R155, R183: BAD_ACCESS counts a name)
or a granule whose access waits or takes effect. `bad` and `act` finish it. -/
def fidRequest (s : State) (c : Instr) (strand : StrandNo) (account : Acct) (addr : DevAddr) (rmw : Bool) (write : Bool)
    (bad : State → State) (act : State → Nat → State) : Out :=
  let a := addr.toNat / 32 * 32
  let acct := account.toNat
  if !unitOn s 6 || quiet s unChannels then .next s
  else
    let at_ : Attr := { attrM acct mVector with addr := some a }
    let s1 := pmuAdd s (0x060 + strand.val) 1 at_
    let s2 := if rmw then pmuAdd s1 (0x064 + strand.val) 1 at_ else s1
    match fidFrame s acct a with
    | none => .next (bad (if badName s (some acct) a then badAccess s2 (nameTier (blockNo a)) else s2))
    | some fa =>
      if fidWaits s a fa rmw write then .next (holdReq (if accessHeld s fa write then noteHeld s fa else s) c false a 32 write)
      else .next (act s2 fa)

/-- The selected bytes of a granule, with the number of its bytes at which each run begins. -/
def maskRuns (bs : List Byte) (mask : BitVec 32) : List (Nat × List Byte) :=
  if mask = BitVec.allOnes 32 then [(0, bs)]
  else ((List.range 32).filter (fun i => mask.getLsbD i)).map (fun i => (i, [bs.getD i 0]))

/-- Stores runs of bytes of the granule at a device address: a mark stays unless its whole granule is written (R177). -/
def fidStore (s : State) (a : Nat) (runs : List (Nat × List Byte)) : State :=
  runs.foldl (fun t q => (writePiece true none false (t, false) (a + q.1, q.2)).1) s

/-- READ (R188): the granule, after the code has done its work on what the banks gave. -/
def fidReadDone (s : State) (strand : StrandNo) (fa : Nat) : State :=
  fidAnswer s strand.val (granWord s fa) 0 (viewMark s fa)

/-- WRITE (R188): the masked bytes; held for a MOVING block (R162). -/
def execFidWrite (strand : StrandNo) (account : Acct) (addr : DevAddr) (data : BitVec 256) (mask : BitVec 32) (s : State) : Out :=
  fidRequest s (.fidWrite strand account addr data mask) strand account addr false true id (fun t _ =>
    drawn (fidStore t (addr.toNat / 32 * 32) (maskRuns (bytesOf 32 data.toNat) mask)))

/-- A read-modify-write of the selected 4-byte lanes (R188): the granule before it is returned with the lanes' flags; marks
stay (R176). -/
def fidRmw (c : Instr) (strand : StrandNo) (account : Acct) (addr : DevAddr) (data : BitVec 256) (lanes : BitVec 8)
    (f : W32 → W32 → W32 × Byte) (s : State) : Out :=
  fidRequest s c strand account addr true true (fun t => fidAnswer t strand.val 0 0 true) (fun t fa =>
    let old := granWord t fa
    let lane (w : Nat) (i : Nat) : W32 := BitVec.ofNat 32 (w >>> (32 * i))
    let rs := ((List.range 8).filter (fun i => lanes.getLsbD i)).map (fun i => (4 * i, f (lane old.toNat i) (lane data.toNat i)))
    let t1 := fidStore t (addr.toNat / 32 * 32) (rs.map (fun r => (r.1, bytesOf 4 r.2.1.toNat)))
    fidAnswer (drawn t1) strand.val old (flagsOr (rs.map (fun r => r.2.2))) (viewMark t fa))

/-- ADD_I32 (R188). -/
def execFidAddI32 (strand : StrandNo) (account : Acct) (addr : DevAddr) (data : BitVec 256) (lanes : BitVec 8) (s : State) : Out :=
  fidRmw (.fidAddI32 strand account addr data lanes) strand account addr data lanes (fun x y => (x + y, 0)) s

/-- ADD_W32 under R63 (R188). -/
def execFidAddW32 (strand : StrandNo) (account : Acct) (addr : DevAddr) (data : BitVec 256) (lanes : BitVec 8) (s : State) : Out :=
  fidRmw (.fidAddW32 strand account addr data lanes) strand account addr data lanes (fun x y => opAdd x y 0) s

/-- MAX_W32, the micro-op's MAX (R188). -/
def execFidMaxW32 (strand : StrandNo) (account : Acct) (addr : DevAddr) (data : BitVec 256) (lanes : BitVec 8) (s : State) : Out :=
  fidRmw (.fidMaxW32 strand account addr data lanes) strand account addr data lanes (fun x y => opMax x y 0) s

/-- OR (R188). -/
def execFidOr (strand : StrandNo) (account : Acct) (addr : DevAddr) (data : BitVec 256) (lanes : BitVec 8) (s : State) : Out :=
  fidRmw (.fidOr strand account addr data lanes) strand account addr data lanes (fun x y => (x ||| y, 0)) s

/-! ### Granule codes (R191, R192) -/

/-- Multiplication by x in GF(2^16) with x^16 + x^12 + x^3 + x + 1. -/
def gfDouble (a : BitVec 16) : BitVec 16 := if a.getLsbD 15 then (a <<< 1) ^^^ 0x100B else a <<< 1

/-- Multiplication by α^n. -/
def gfShift : Nat → BitVec 16 → BitVec 16
  | 0, a => a
  | n + 1, a => gfShift n (gfDouble a)

/-- The power of x that a symbol of the codeword is the coefficient of (R192). -/
def symPower (i : Nat) : Nat := if i < 17 then i + 3 else i - 17

/-- What a code makes of an error: nothing seen, corrected, or uncorrectable; with the bits that stay wrong in the data
and the metadata. -/
inductive EccOut where
  | clean (wrong : List (Nat × BitVec 16))
  | fixed (wrong : List (Nat × BitVec 16))
  | bad
deriving DecidableEq, Repr

/-- The errors of one granule by symbol, each symbol once. -/
def symErrors (e : List (Fin 20 × BitVec 16)) : List (Nat × BitVec 16) :=
  (List.range 20).filterMap (fun i =>
    let x := (e.filter (fun p => p.1.val = i)).foldl (fun a p => a ^^^ p.2) 0
    if x = 0 then none else some (i, x))

/-- RS(20,17) over GF(2^16) (R192): one symbol is corrected, two are detected. The code is linear, so the syndromes of the
error alone decide. -/
def rsDecode (e : List (Nat × BitVec 16)) : EccOut :=
  let syn (j : Nat) : BitVec 16 := e.foldl (fun a p => a ^^^ gfShift (j * symPower p.1) p.2) 0
  let s0 := syn 0
  let s1 := syn 1
  let s2 := syn 2
  if s0 = 0 && s1 = 0 && s2 = 0 then .clean e
  else
    match (List.range 20).find? (fun i => s0 != 0 && s1 = gfShift (symPower i) s0 && s2 = gfShift (symPower i) s1) with
    | some i =>
      let old := (e.filter (fun p => p.1 = i)).foldl (fun a p => a ^^^ p.2) 0
      .fixed (e.filter (fun p => p.1 != i) ++ (if old = s0 then [] else [(i, old ^^^ s0)]))
    | none => .bad

/-- The data bits that stay wrong after a decode: symbol i's bit j is pin i in beat j (R192). -/
def wrongBytes (w : List (Nat × BitVec 16)) : List (Nat × Byte) :=
  w.flatMap (fun p => if p.1 < 16 then
      ((List.range 16).filter (fun j => p.2.getLsbD j)).map (fun j => (2 * j + p.1 / 8, BitVec.ofNat 8 (2 ^ (p.1 % 8))))
    else [])

/-- Bits set in a word of 137 bits. -/
def popcount (n : Nat) : Nat := ((List.range 137).filter (fun i => n.testBit i)).length

/-- One SEC-DED word (R191): one flipped bit is corrected and two are detected. Of three or more the spec says nothing,
and whether the word is seen as bad is a free value. -/
def secDed (s : State) (w : Nat) : Bool × Bool :=
  match popcount (w % 2 ^ 137) with
  | 0 => (false, false)
  | 1 => (true, false)
  | 2 => (false, true)
  | _ => if (Config.freeWord s.free).getLsbD 0 then (false, true) else (true, false)

/-- Bytes of a granule changed by XOR. -/
def xorBytes (s : State) (fa : Nat) (w : List (Nat × Byte)) : State :=
  w.foldl (fun t p => putByte t (fa + p.1) (rawByte t (fa + p.1) ^^^ p.2)) s

/-- The mark of a granule as its metadata now reads: a mark that appears acts as a chafe found, one that goes leaves the
block's state to follow (R156, R175). -/
def setMark (s : State) (fa : Nat) (b : Bool) : State :=
  if granChafed s fa = b then s
  else
    let s1 : State := if b then s else { s with mem := { s.mem with chafed := setDel s.mem.chafed (granOf fa) } }
    match nameOfFrame s fa with
    | some n => if b then chafeAt s1 n fa else syncChafe s1 n
    | none => if b then pmuAdd (markGran s1 fa) 0x10F 1 attr0 else s1

/-- The granule of a frame address is found uncorrectable: UE counts, and it is marked (R175, R193). -/
def ueFoundAt (s : State) (fa : Nat) : State :=
  let s1 := match stackOf s.fuses.variant fa with
    | some st => countUe s st
    | none => s
  match nameOfFrame s1 fa with
  | some b => chafeAt s1 b fa
  | none => if granChafed s1 fa then s1 else pmuAdd (markGran s1 fa) 0x10F 1 attr0

/-- The mark that n metadata bits, each the mark, read as after the flips in `x`: two bits at 1 are enough (R191, R198). -/
def markVote (s : State) (fa n x : Nat) : Bool := 2 ≤ popcount ((if granChafed s fa then 2 ^ n - 1 else 0) ^^^ x)

/-- The bits of symbol 16 that an error leaves wrong. -/
def metaWrong (w : List (Nat × BitVec 16)) : BitVec 16 := (w.filter (fun p => p.1 = 16)).foldl (fun a p => a ^^^ p.2) 0

/-- A mantle codeword after its decode: the data bits that stay wrong, and the mark with bit 0 of symbol 16 (R192). -/
def leftWrong (s : State) (fa : Nat) (w : List (Nat × BitVec 16)) : State :=
  setMark (xorBytes s fa (wrongBytes w)) fa (xor (granChafed s fa) ((metaWrong w).getLsbD 0))

/-- What a read of a granule does to the stored bits, the mark and the counters, given the fault that the channel meets
(R191 to R193): the fault is taken to lie in the stored bits. ECC is off in RAW data slabs, where data faults stay and the
mark is the vote of symbol 16 (R198). -/
def meetError (s : State) (fa : Nat) (err : EccErr) : State :=
  let st := (stackOf s.fuses.variant fa).getD 0
  match err with
  | .none => s
  | .symbols e =>
    if fa < mantleBase then s
    else if (rawSlotOf s.cfg.act s.fuses.variant fa).isSome then
      setMark (xorBytes s fa (wrongBytes (symErrors e))) fa (markVote s fa 16 (metaWrong (symErrors e)).toNat)
    else
      (match rsDecode (symErrors e) with
      | .clean w => leftWrong s fa w
      | .fixed w => leftWrong (countCe s st) fa w
      | .bad => ueFoundAt s fa)
  | .bits w0 w1 w2 w3 x =>
    if mantleBase ≤ fa then s
    else
      let r := [secDed s w0, secDed s w1, secDed s w2, secDed s w3]
      if r.any Prod.snd then ueFoundAt (drawn s) fa
      else
        let odd := ([w0, w1, w2, w3].zipIdx).filter (fun p => 2 < popcount (p.1 % 2 ^ 137))
        let s1 := if r.any Prod.fst || x != 0 then drawn (countCe s st) else s
        setMark (xorBytes s1 fa (odd.map (fun p => (16 * p.2, (Config.freeWord (s.free + 1 + p.2)).setWidth 8)))) fa
          (markVote s fa 4 x.toNat)
  | .beat n =>
    if mantleBase ≤ fa then s
    else
      let k := min n 3
      let s1 := stackSet s st { stackGet s st with linkRetry := satAdd 65535 (stackGet s st).linkRetry k }
      let s2 := pmuAdd s1 (0x098 + st) k attr0
      if 4 ≤ n then ueFoundAt s2 fa else s2
  | .beatFixed => if mantleBase ≤ fa then s else countCe s st

/-- READ (R188): the channel meets `err` in the granule; a name that the account may not use reads marked chafed. -/
def execFidRead (strand : StrandNo) (account : Acct) (addr : DevAddr) (err : EccErr) (s : State) : Out :=
  fidRequest s (.fidRead strand account addr err) strand account addr false false (fun t => fidAnswer t strand.val 0 0 true)
    (fun t fa => drawn (fidReadDone (drawn (meetError t fa err)) strand fa))

/-! ### The patrol scrub (R195, R199) -/

/-- The frame address of a granule of a stack's channel; none where the stack or the channel is not fitted. -/
def granAt (v : Variant) (stack : Stack) (chan granule : Nat) : Option Nat :=
  match stack with
  | .kern k => if chan < 64 && granule < 2 ^ 24 then some (kernUnhash k.val chan (granule * 64)) else none
  | .mantle m => if m.val < mantleCount v && chan < 96 then some (mantleUnhash (nchan v) m.val chan (granule * 32)) else none

/-- The last granule of a scrub pass: the pass order of the spec is open, and the model ends a pass with the last granule
of the last channel of the last mantle stack (DESIGN CHOICE, log entry 5). -/
def passEnd (v : Variant) (stack : Stack) (chan granule : Nat) : Bool :=
  match stack with
  | .kern _ => false
  | .mantle m => m.val + 1 = mantleCount v && chan = 95 && granule + 1 = 2 ^ 25

/-- The patrol scrub reads one granule (R195). -/
def execScrubRead (stack : Stack) (chan : BitVec 7) (granule : BitVec 25) (err : EccErr) (s : State) : Out :=
  match granAt s.fuses.variant stack chan.toNat granule.toNat with
  | none => .next s
  | some fa =>
    if accessHeld s fa false then .next (noteHeld s fa)
    else
      let s1 := meetError s fa err
      .next (if passEnd s.fuses.variant stack chan.toNat granule.toNat then
        { s1 with eng := { s1.eng with scrubPasses := satAdd 65535 s1.eng.scrubPasses 1 } } else s1)

/-- XOR of the 16 data bytes of a column of a RAW group (R197). -/
def groupByte (s : State) (gc bank slab g byte : Nat) : Byte :=
  (List.range 16).foldl (fun x r => x ^^^ rawByte s (rowAddr s.fuses.variant gc bank (128 * slab + 16 * g + r) byte)) 0

/-- The row of a group's parity (R197). -/
def parityRow (s : State) (slot g : Nat) : Nat := 128 * actF s flRawParSlab 0 + 8 * slot + g

/-- The scrub of one RAW group in a bank: a column range whose parity differs marks its granule in all 16 data rows, the
range of the parity row is rewritten, and UE counts (R199). -/
def execRawParityScrub (slot : Fin 16) (chan : BitVec 10) (bank : BankNo) (group : Fin 8) (s : State) : Out :=
  let gc := chan.toNat
  let v := s.fuses.variant
  let b := bankGet s (bk gc bank.val)
  if actF s flRawValid slot.val != 1 || nchan v ≤ gc || groupStale b (slot.val, group.val) then .next s
  else if b.atom.isSome || (refreshGet s (rk (4 + gc / 96) (gc % 96) bank.val)).hold then
    .next (noteHeld s (rowAddr v gc bank.val (128 * actF s flRawSlab slot.val) 0))
  else
    let slab := actF s flRawSlab slot.val
    let pr := parityRow s slot.val group.val
    .next ((List.range 32).foldl (fun t j =>
      let cols := (List.range 32).map (fun i => 32 * j + i)
      let bad := cols.any (fun c => groupByte t gc bank.val slab group.val c != rawByte t (rowAddr v gc bank.val pr c))
      if bad then
        let t1 := cols.foldl (fun u c => putByte u (rowAddr v gc bank.val pr c) (groupByte t gc bank.val slab group.val c)) t
        let t2 := countUe t1 (4 + gc / 96)
        (List.range 16).foldl (fun u r =>
          let fa := rowAddr v gc bank.val (128 * slab + 16 * group.val + r) (32 * j)
          chafeAt u (blockNo fa) fa) t2
      else t) s)

/-! ### Refresh (R200, R201) -/

/-- tREFI of a stack in ns. -/
def trefi (s : State) (st : Nat) : Nat := if (stackGet s st).hot then 1950 else 3900

/-- The stack and channel are fitted. -/
def fitted (v : Variant) (stack : Stack) (chan : Nat) : Bool :=
  match stack with
  | .kern _ => chan < 64
  | .mantle m => m.val < mantleCount v && chan < 96

/-- A tREFI has passed: the bank owes one refresh more, at most four, and holds new accesses once it owes three. -/
def execRefreshDue (stack : Stack) (chan : BitVec 7) (bank : BankNo) (s : State) : Out :=
  let st := stackNo stack
  let k := rk st chan.toNat bank.val
  let r := refreshGet s k
  if fitted s.fuses.variant stack chan.toNat && r.lastDue + trefi s st ≤ s.clk then
    let owed := min 4 (r.owed + 1)
    .next (refreshSet s k { owed := owed, lastDue := s.clk, hold := r.hold || 3 ≤ owed })
  else .next s

/-- The channel refreshes a bank that is idle and owes a refresh; its accesses are held while it still owes three (R201). -/
def execRefresh (stack : Stack) (chan : BitVec 7) (bank : BankNo) (s : State) : Out :=
  let st := stackNo stack
  let k := rk st chan.toNat bank.val
  let r := refreshGet s k
  let busy := match stack with
    | .kern _ => false
    | .mantle m => (bankGet s (bk (96 * m.val + chan.toNat) bank.val)).atom.isSome
  if 0 < r.owed && !busy then
    .next (pmuAdd (refreshSet s k { r with owed := r.owed - 1, hold := r.hold && 3 ≤ r.owed - 1 }) (stackEvent 0x08C 0x0F0 st) 1 attr0)
  else .next s

end Sys2Proof.Machine
end

