-- ==== Sys2Proof/Machine/Census.lean ====
section
/-! DEFINITION. The tensor census: classes, records, rings and the census table (R115 to R117, R416). -/

set_option Elab.async false

namespace Sys2Proof.Machine

open Sys2Proof

/-- The value classes of R115 beside TOTAL, SAT and CHAFED. -/
inductive CClass where
  | zero | subnormal | nan | inf | other
deriving DecidableEq, Repr

/-- The class of a stored element without a scale plane. -/
def classify (f : Fmt) (bits : Nat) : CClass :=
  match f.layout with
  | none => if bits = 0 then .zero else .other
  | some l =>
    match decodeFloat l bits with
    | .nan _ => .nan
    | .inf _ => .inf
    | .fin _ m _ => if m = 0 then .zero else if bits / 2 ^ l.fbits % 2 ^ l.ebits = 0 then .subnormal else .other

/-- The class of a stored K8 or K8U element. -/
def classifyK8 (scale q : Nat) : CClass := if scale = 255 then .nan else if q = 0 then .zero else .other

/-- A saturating 48-bit count. -/
def c48 (x n : Nat) : Nat := satAdd (2 ^ 48 - 1) x n

/-- One element counted: a chafed element in TOTAL and CHAFED only (R115). -/
def censusAdd (c : Census) (k : CClass) (sat chafed : Bool) : Census :=
  if chafed then { c with total := c48 c.total 1, chafed := c48 c.chafed 1 }
  else
    let c1 := { c with total := c48 c.total 1, sat := c48 c.sat (if sat then 1 else 0) }
    match k with
    | .zero => { c1 with zeros := c48 c1.zeros 1 }
    | .subnormal => { c1 with subnormals := c48 c1.subnormals 1 }
    | .nan => { c1 with nans := c48 c1.nans 1 }
    | .inf => { c1 with infs := c48 c1.infs 1 }
    | .other => c1

/-- The seven counts at 6 bytes each. -/
def censusCounts (c : Census) : List Nat := [c.total, c.zeros, c.subnormals, c.sat, c.nans, c.infs, c.chafed]

/-- A census record (R116). -/
def censusRecord (tensor : Nat) (flags : Byte) (source fmt strand : Nat) (c : Census) (ts : W64) : List Byte :=
  bytesOf 3 tensor ++ [flags] ++ bytesOf 4 (source + fmt * 256 + strand * 4096) ++ (censusCounts c).flatMap (bytesOf 6) ++
  bytesOf 6 0 ++ bytesOf 8 ts.toNat

/-- A record added to the account's census table (R416). -/
def censusTable (s : State) (acct tensor : Nat) (flags : Byte) (source fmt : Nat) (c : Census) : State :=
  let lg := actF s flCtabLog2 acct
  if lg = 0 then s
  else
    let a := actF s flCtabBase acct + 64 * (tensor % 2 ^ lg)
    if badName s none a then badAccess s .kern
    else
      let e := (devRead s none a 64).1
      let word (off n : Nat) : Nat := natOfBytes ((e.drop off).take n)
      let recs := word 4 4 >>> 14
      if recs != 0 && word 0 3 != tensor then
        raiseCause { s with pmu := { s.pmu with censusColl := satAdd 65535 s.pmu.censusColl 1 } } irqCensus
      else
        let counts := ((censusCounts c).zipIdx).map (fun p => c48 (word (8 + 6 * p.2) 6) p.1)
        let srcBit := if source = 1 then 1 else 2
        let w4 := (word 4 1 % 4 ||| srcBit) + fmt * 256 + (satAdd (2 ^ 18 - 1) recs 1) * 2 ^ 14
        putStruct s a (bytesOf 3 tensor ++ [BitVec.ofNat 8 (word 3 1) ||| flags] ++ bytesOf 4 w4 ++
          counts.flatMap (bytesOf 6) ++ bytesOf 6 0 ++ bytesOf 8 s.tb.now.toNat)

/-- Records of an account's census ring. -/
def censusRingSize (s : State) (acct : Nat) : Nat := 2 ^ actF s flCensusLog2 acct

/-- One census record of an operation (R116, R117, R416): summed first, then written unless the ring is full. The index is
the ring slot used, or all ones. A TAIL that a belay leaves outside a smaller ring is kept, and the next record goes there
(DESIGN CHOICE, log entry 130). -/
def censusWrite (s : State) (acct tensor : Nat) (flags : Byte) (source fmt strand : Nat) (c : Census) : State × Nat :=
  let s1 := censusTable s acct tensor flags source fmt c
  let size := censusRingSize s1 acct
  let tail := mapGet 0 s1.pmu.censusTail acct
  if actF s1 flCensusLog2 acct = 0 then (s1, 0xFFFFFFFF)
  else if (tail + 1) % size = mapGet 0 s1.pmu.censusHead acct % size then
    let lost := mapMod 0 s1.pmu.censusLost acct (fun x => satAdd 4095 x 1)
    (raiseCause { s1 with pmu := { s1.pmu with censusLost := lost } } irqRingLoss, 0xFFFFFFFF)
  else
    let s2 := putStruct s1 (actF s1 flCensusBase acct + 64 * tail) (censusRecord tensor flags source fmt strand c s1.tb.now)
    ({ s2 with pmu := { s2.pmu with censusTail := mapSet 0 s2.pmu.censusTail acct ((tail + 1) % size) } }, tail)

end Sys2Proof.Machine
end

