-- ==== Sys2Proof/Machine/Operands.lean ====
section
/-! DEFINITION. The operand forms that the engines share: places in device memory or in an account's eye window, what a
read or a write of them does, and when a consumer must wait for a block (R76 to R78, R86, R154, R155, R173, R179, R257). -/

set_option Elab.async false

namespace Sys2Proof.Machine

open Sys2Proof

/-- Where an operand lies: a device address, or an offset in the account's eye window of a strand (R77). -/
structure Place where
  eye : Bool
  addr : Nat
deriving DecidableEq, Repr

/-- A place further on. -/
def Place.plus (p : Place) (n : Nat) : Place := { p with addr := p.addr + n }

/-- The eye-space key of an offset in an account's window (R77). -/
def eyeKey (s : State) (strand acct off : Nat) : Nat := strand * 2 ^ 26 + actF s flEyeBase (strand * 256 + acct) * 65536 + off

/-- Bytes of eye space, and whether a line of them is chafed (R78). -/
def eyeRead (s : State) (k n : Nat) : List Byte × Bool :=
  ((List.range n).map (fun i => mapGet 0 s.mem.eye (k + i)), s.mem.eyeChafed.any (fun l => l < k + n && k < l + 64))

/-- The lines that n bytes of eye space touch. -/
def eyeLines (k n : Nat) : List Nat :=
  if n = 0 then [] else (List.range ((k + n - 1) / 64 - k / 64 + 1)).map (fun i => (k / 64 + i) * 64)

/-- A write of eye space: a marked write marks its lines, an unmarked one clears those it covers whole (R78). -/
def eyeWrite (s : State) (k : Nat) (bs : List Byte) (mark : Bool) : State :=
  let eye' := (bs.zipIdx).foldl (fun m p => mapSet 0 m (k + p.2) p.1) s.mem.eye
  let marks := (eyeLines k bs.length).foldl (fun m l =>
    if mark then setIns m l else if k ≤ l && l + 64 ≤ k + bs.length then setDel m l else m) s.mem.eyeChafed
  { s with mem := { s.mem with eye := eye', eyeChafed := marks } }

/-- Bytes at a place, and whether they read chafed. -/
def placeRead (s : State) (strand acct : Nat) (p : Place) (n : Nat) : List Byte × Bool :=
  if p.eye then eyeRead s (eyeKey s strand acct p.addr) n else devRead s (some acct) p.addr n

/-- A write at a place; the flag says that it was dropped (R155). -/
def placeWrite (s : State) (strand acct : Nat) (p : Place) (bs : List Byte) (mark : Bool) : State × Bool :=
  if p.eye then (eyeWrite s (eyeKey s strand acct p.addr) bs mark, false) else devWrite s (some acct) p.addr bs mark

/-- A number at a place, little-endian. -/
def placeNat (s : State) (strand acct : Nat) (p : Place) (n : Nat) : Nat × Bool :=
  let r := placeRead s strand acct p n
  (natOfBytes r.1, r.2)

/-- Bytes of an element of a format (R86). -/
def fmtBytes (f : Fmt) : Nat := f.bits / 8

/-- Element x of an operand at a place: its stored bits. U1 elements are bits of their bytes (R49). -/
def placeElem (s : State) (strand acct : Nat) (p : Place) (f : Fmt) (x : Nat) : Nat × Bool :=
  match f with
  | .u1 =>
    let r := placeNat s strand acct (p.plus (x / 8)) 1
    (r.1 / 2 ^ (x % 8) % 2, r.2)
  | _ => placeNat s strand acct (p.plus (x * fmtBytes f)) (fmtBytes f)

/-- Home blocks that n bytes at a device address touch. -/
def spanBlocks (a n : Nat) : List Nat :=
  if n = 0 then [] else (List.range ((a + n - 1) / blockBytes - a / blockBytes + 1)).map (fun i => a / blockBytes + i)

/-- Home blocks of a list of spans, each once. -/
def spansBlocks (ss : List (Nat × Nat)) : List Nat := (ss.flatMap (fun p => spanBlocks p.1 p.2)).dedup

/-- Accesses of a line operation to blocks: each good one is touched (R154), each bad one counted in BAD_ACCESS of its name
tier (R155). -/
def noteAccess (s : State) (acct : Nat) (bs : List Nat) : State :=
  bs.foldl (fun t b => if badName t (some acct) (b * blockBytes) then badAccess t (nameTier b) else touchBlock t (b * blockBytes)) s

/-- A granule of the span is chafed in a block under repair: its read is held (R179). -/
def repairHolds (s : State) (a n : Nat) : Bool :=
  (spanBlocks a n).any (fun b => (htGet s b).repair) &&
    (List.range n).any (fun i => (htGet s (blockNo (a + i))).repair && (locate s none (a + i)).any (granChafed s))

/-- A granule of the span lies in a bank whose accesses are held (R189, R201, R220, R222). -/
def bankHolds (s : State) (a n : Nat) (write : Bool) : Bool :=
  (List.range (n / 32 + 2)).any (fun i => (locate s none (min (a + 32 * i) (a + n - 1))).any (fun fa => accessHeld s fa write))

/-- The accesses of spans that wait at mantle banks: each bank whose atom holds one of them has a waiting access, to which it
yields (R219, R220). One that already has one is left as it is (DESIGN CHOICE, log entry 131). -/
def noteWaits (s : State) (ss : List (Nat × Nat)) (write : Bool) : State :=
  ((ss.flatMap (fun p => (List.range (p.2 / 32 + 2)).filterMap (fun i => locate s none (min (p.1 + 32 * i) (p.1 + p.2 - 1))))).filter
    (fun fa => accessHeld s fa write)).foldl noteWait s

/-- A consumer's block lies where the consumer may reach it: in place for its unit, refused a move (R173), CHAFED (R157),
never moved (R153, R183), or not the account's at all. -/
def reachable (s : State) (acct : Nat) (o : OpEnt) (away : Tier → Bool) (b : Nat) : Bool :=
  let e := htGet s b
  e.state = .unbound || e.account != acct ||
  (!(s.tiers.merging.contains b) && (!away e.tier || refused o b || e.state = .chafed || e.derived || fixedBlock s e))

/-- A read of a span by a consumer may be served now. -/
def readReady (s : State) (acct : Nat) (o : OpEnt) (away : Tier → Bool) (a n : Nat) : Bool :=
  (spanBlocks a n).all (reachable s acct o away) && !repairHolds s a n && !bankHolds s a n false

/-- A read of a span is held: a chafed granule of a block under repair (R179), a bank whose accesses are held, or a block
that is to be merged first (R257). -/
def readsHeld (s : State) (ss : List (Nat × Nat)) : Bool :=
  ss.any (fun p => repairHolds s p.1 p.2 || bankHolds s p.1 p.2 false || (spanBlocks p.1 p.2).any (fun b => s.tiers.merging.contains b))

/-- Writes of a line operation to spans: each block of the account is touched (R154); a dropped write has been counted. -/
def noteWritten (s : State) (acct : Nat) (ss : List (Nat × Nat)) : State :=
  noteAccess s acct ((spansBlocks ss).filter (fun b => !badName s (some acct) (b * blockBytes)))

/-- Some block of the list is read in place by a consumer that wanted it moved: OK_FALLBACK (R173). -/
def inPlaceRead (s : State) (acct : Nat) (o : OpEnt) (away : Tier → Bool) (bs : List Nat) : Bool :=
  bs.any (fun b => let e := htGet s b; e.state != .unbound && e.account = acct && away e.tier && refused o b)

/-- Output blocks that carry DERIVED (R153). -/
def touchesDerived (s : State) (ss : List (Nat × Nat)) : Bool := (spansBlocks ss).any (fun b => (htGet s b).derived)

end Sys2Proof.Machine
end

