-- ==== Sys2Proof/Machine/CapBase.lean ====
section
/-! DEFINITION. What every event of the capstan shares: the CAP_COLL descriptor (R337), the members of a collective and
their coordinates (R336, R341, R343), its frames (R324, R339), and the end of a collective with its record (R345). -/

set_option Elab.async false

namespace Sys2Proof.Machine

open Sys2Proof

-- OP of R337.
def cxAllReduce : Nat := 0
def cxReduceScatter : Nat := 1
def cxAllGather : Nat := 2
def cxAllToAll : Nat := 3
def cxSend : Nat := 4
def cxRecv : Nat := 5
def cxBarrier : Nat := 6
def cxVerdict : Nat := 7
def cxGather : Nat := 8
def cxBroadcast : Nat := 9

def ccOp (d : BitVec 512) : Nat := dF d 8 3 0
def ccAxis (d : BitVec 512) : Nat := dF d 8 6 4
def ccRedop (d : BitVec 512) : Nat := dF d 8 8 7
def ccFmtCode (d : BitVec 512) : Nat := dF d 8 12 9
def ccWire (d : BitVec 512) : Bool := dF d 8 13 13 = 1
def ccNorm (d : BitVec 512) : Nat := dF d 8 15 14
def ccInEye (d : BitVec 512) : Bool := dF d 8 16 16 = 1
def ccOutEye (d : BitVec 512) : Bool := dF d 8 17 17 = 1
def ccPeer (d : BitVec 512) : Nat := dF d 8 45 32
def ccAxes (d : BitVec 512) : Nat := dF d 8 55 48
def ccIn (d : BitVec 512) : Nat := dF d 0x10 47 0
def ccOut (d : BitVec 512) : Nat := dF d 0x18 47 0
def ccCount (d : BitVec 512) : Nat := dF d 0x20 38 0
def ccAux (d : BitVec 512) : Nat := dF d 0x28 47 0
def ccTag (d : BitVec 512) : W32 := BitVec.ofNat 32 (dF d 0x30 31 0)
def ccFmt (d : BitVec 512) : Fmt := (Fmt.ofCode (ccFmtCode d)).getD .w32

/-- The operation reduces. -/
def ccReduces (d : BitVec 512) : Bool := ccOp d = cxAllReduce || ccOp d = cxReduceScatter

/-- The operation is one of a pair. -/
def ccPair (d : BitVec 512) : Bool := ccOp d = cxSend || ccOp d = cxRecv

/-- The format in which partial reductions travel (R341). -/
def ccWireFmt (d : BitVec 512) : Fmt := if ccWire d then .w32 else ccFmt d

/-! ### Axes and members -/

/-- The axes of a collective, in increasing order. -/
def ccAxisList (d : BitVec 512) : List Nat :=
  if ccOp d = cxVerdict then (List.range 8).filter (fun a => (ccAxes d).testBit a) else [ccAxis d]

/-- ALGO of an axis is DIM. -/
def isDim (s : State) (a : Nat) : Bool := actF s flAxAlgo a = 1

/-- The dimensions that the collective runs through: the axes of a VERDICT, the three of a reduction under ALGO = DIM, one
otherwise. -/
def ccDims (s : State) (d : BitVec 512) : List Nat :=
  if ccOp d = cxVerdict then (ccAxisList d).map (axisSize s)
  else if ccReduces d && isDim s (ccAxis d) then
    [actF s flAxN0 (ccAxis d), actF s flAxN1 (ccAxis d), actF s flAxN2 (ccAxis d)]
  else [axisSize s (ccAxis d)]

/-- Digits of a number, least significant first, to the given radices. -/
def digits : List Nat → Nat → List Nat
  | [], _ => []
  | n :: ns, v => v % n :: digits ns (v / n)

/-- The number of digits, least significant first. -/
def ofDigits : List Nat → List Nat → Nat
  | n :: ns, c :: cs => c + n * ofDigits ns cs
  | _, _ => 0

/-- Coordinates of this member: its ranks on a VERDICT's axes, the digits of its rank otherwise (R341, R343). -/
def ccOwn (s : State) (d : BitVec 512) : List Nat :=
  if ccOp d = cxVerdict then (ccAxisList d).map (axisRank s) else digits (ccDims s d) (axisRank s (ccAxis d))

/-- The participant index of R343, the lowest axis most significant; the rank of a member otherwise. -/
def ccIndex (s : State) (d : BitVec 512) (cs : List Nat) : Nat :=
  if ccOp d = cxVerdict then ofDigits (ccDims s d).reverse cs.reverse else ofDigits (ccDims s d) cs

/-- The axis along which dimension k runs. -/
def ccAxisOf (d : BitVec 512) (k : Nat) : Nat := (ccAxisList d).getD (if ccOp d = cxVerdict then k else 0) 0

/-- The member that differs from this one in dimension k alone. -/
def ccDev (s : State) (d : BitVec 512) (k c : Nat) : Nat :=
  if ccOp d = cxVerdict then memberOf s (ccAxisOf d k) c
  else memberOf s (ccAxis d) (ccIndex s d ((ccOwn s d).set k c))

/-- Every member that this one can name, by its dimension and coordinate. -/
def ccPeers (s : State) (d : BitVec 512) : List (Nat × Nat) :=
  ((ccDims s d).zipIdx).flatMap (fun p =>
    ((List.range p.1).filter (fun c => (ccOwn s d)[p.2]? != some c)).map (fun c => (p.2, c)))

/-- Devices of the collective's axes but this one; the partner of a pair. -/
def ccMembers (s : State) (d : BitVec 512) : List Nat :=
  if ccPair d then [memberOf s (ccAxis d) (ccPeer d)]
  else ((ccAxisList d).flatMap (fun a => ((List.range (axisSize s a)).filter (fun r => r != axisRank s a)).map (memberOf s a))).dedup

/-- The rank (participant index for VERDICT) of a device in the collective (R345). -/
def ccRankOf (s : State) (d : BitVec 512) (dev : Nat) : Option Nat :=
  if ccOp d = cxVerdict then
    ((ccPeers s d).find? (fun p => ccDev s d p.1 p.2 = dev)).map (fun p => ccIndex s d ((ccOwn s d).set p.1 p.2))
  else (List.range (axisSize s (ccAxis d))).find? (fun r => memberOf s (ccAxis d) r = dev)

/-! ### Frames -/

/-- The signature of R339. A RECV matches the signature of a SEND. -/
def ccSig (d : BitVec 512) : W64 :=
  let op := if ccOp d = cxRecv then cxSend else ccOp d
  let root := if op = cxGather || op = cxBroadcast then ccPeer d else 0
  BitVec.ofNat 64 (op + ccRedop d * 16 + ccFmtCode d * 64 + (if ccWire d then 1024 else 0) + root * 2 ^ 11 + ccCount d * 2 ^ 25)

/-- The sequence number that the collective took on an axis. -/
def ccNum (o : OpEnt) (axis : Nat) : Nat := ((o.coll.nums.find? (fun p => p.1 = axis)).map Prod.snd).getD 0

/-- The axis on which a device is reached in the collective. -/
def ccAxisTo (s : State) (d : BitVec 512) (dev : Nat) : Nat :=
  (ccAxisList d).find? (fun a => (List.range (axisSize s a)).any (fun r => memberOf s a r = dev)) |>.getD (ccAxis d)

/-- A COLL_CTL frame of a collective to a member: kind 0 SIGNATURE, 1 CLEAR, 2 ABORT, 3 ACK. -/
def ctlFrame (s : State) (o : OpEnt) (dev kind status : Nat) : Frame :=
  let a := ccAxisTo s o.desc dev
  let pay : List Byte := if kind = 0 && ccOp o.desc = cxSend then bytesOf 4 (ccTag o.desc).toNat ++ List.replicate 28 0 else []
  mkFrame s ftCollCtl (BitVec.ofNat 4 (2 + a)) 2 dev (BitVec.ofNat 32 (ccNum o a)) (ccSig o.desc)
    (BitVec.ofNat 32 (kind + status * 256)) pay

/-- A COLL_CTL frame sent. -/
def sendCtl (s : State) (o : OpEnt) (dev kind status : Nat) : State := sendFrame s (ctlFrame s o dev kind status)

/-- ABORT to every member of the collective (R340, R345, R352). -/
def sendAborts (s : State) (o : OpEnt) (status : Nat) : State :=
  (ccMembers s o.desc).foldl (fun t dev => sendCtl t o dev 2 status) s

/-! ### The end of a collective -/

/-- The op-specific bytes of R345. -/
def collBytes (o : OpEnt) : List Byte :=
  let top := 2 ^ 32 - 1
  let num := if ccPair o.desc then 0 else ((o.coll.nums.head?).map Prod.snd).getD 0
  bytesOf 4 (min top (ceilDiv o.coll.bytesTx 256)) ++ bytesOf 4 (min top (ceilDiv o.coll.bytesRx 256)) ++
  bytesOf 4 (num + (if o.coll.mismatch then 2 ^ 24 else 0)) ++ bytesOf 4 (o.coll.failRank.getD top)

/-- Elements of IN and of OUT (R337). -/
def ccInCount (s : State) (d : BitVec 512) : Nat :=
  let n := axisSize s (ccAxis d)
  match ccOp d with
  | 1 => n * ccCount d
  | 3 => n * ccCount d
  | 5 => 0
  | 6 => 0
  | 7 => 1
  | 9 => if ccPeer d = axisRank s (ccAxis d) then ccCount d else 0
  | _ => ccCount d

def ccOutCount (s : State) (d : BitVec 512) : Nat :=
  let n := axisSize s (ccAxis d)
  match ccOp d with
  | 2 => n * ccCount d
  | 3 => n * ccCount d
  | 4 => 0
  | 6 => 0
  | 7 => 0
  | 8 => if ccPeer d = axisRank s (ccAxis d) then n * ccCount d else 0
  | _ => ccCount d

/-- Bytes of an element of IN: the contribution word of a VERDICT has 8. -/
def ccInSize (d : BitVec 512) : Nat := if ccOp d = cxVerdict then 8 else fmtBytes (ccFmt d)

def ccInPlace (d : BitVec 512) : Place := { eye := ccInEye d, addr := ccIn d }
def ccOutPlace (d : BitVec 512) : Place := { eye := ccOutEye d, addr := ccOut d }

/-- The spans of device memory that the operation reads, and those it writes. -/
def ccReads (s : State) (d : BitVec 512) : List (Nat × Nat) :=
  (if ccInEye d then [] else [(ccIn d, ccInCount s d * ccInSize d)]) ++
  (if ccOp d = cxVerdict then [(ccAux d, 64)] else if ccNorm d = 2 then [(ccAux d, 8)] else [])

def ccWrites (s : State) (d : BitVec 512) : List (Nat × Nat) :=
  (if ccOutEye d then [] else [(ccOut d, ccOutCount s d * fmtBytes (ccFmt d))]) ++
  (if ccOp d = cxVerdict then [(ccAux d, 64)] else if ccNorm d != 0 then [(ccAux d, 8)] else [])

/-- One byte written with the mark that its granule has. -/
def scribbleByte (s : State) (strand acct : Nat) (p : Place) (b : Byte) : State :=
  let mark := (placeRead s strand acct p 1).2
  (placeWrite s strand acct p [b] mark).1

/-- OUT after a status that leaves it undefined: every byte is a free value (R345). -/
def scribbleOut (s : State) (n : Nat) (o : OpEnt) : State :=
  let strand := lineStrand s n
  let acct := lineAcct s n
  let bytes := ccOutCount s o.desc * fmtBytes (ccFmt o.desc)
  drawn ((List.range bytes).foldl (fun t i =>
    scribbleByte t strand acct ((ccOutPlace o.desc).plus i) (Config.freeByte s.free i)) s)

/-- A collective's final status is counted: COLL_DONE always, COLL_FAILED when it is neither OK nor CHAFED. -/
def countColl (s : State) (n st : Nat) : State :=
  let s1 := pmuAdd s 0x172 1 (attrP (lineAcct s n))
  if st = stOk || st = stChafed then s1 else pmuAdd s1 0x173 1 (attrP (lineAcct s n))

/-- The collective ends with a cancelled status, PEER_LOST or COLLECTIVE_TIMEOUT: its outputs are undefined, and the
contribution word and the step record are unchanged (R345). -/
def collFail (s : State) (n : Nat) (o : OpEnt) (st : Nat) : State :=
  let s1 := scribbleOut s n o
  finishOp (countColl s1 n (endStatus o st)) n o st (collBytes o)

/-- A collective in flight. -/
def isColl (o : OpEnt) : Bool := o.dispatched && opcodeOf o.desc = opCapColl

/-- Collectives in flight with their lines. -/
def collOps (s : State) : List (Nat × OpEnt) := (allOps s).filter (fun p => isColl p.2)

end Sys2Proof.Machine
end

