-- ==== Sys2Proof/Machine/SnapBase.lean ====
section
/-! DEFINITION. What the events that end a SNAPSHOT share: its descriptor (R259), its record (R263), the release of its
export holds (R261). -/

set_option Elab.async false

namespace Sys2Proof.Machine

open Sys2Proof

def snPos (d : BitVec 512) : Nat := dF d 8 47 0
def snArena (d : BitVec 512) : Nat := dF d 8 51 48
def snSrcFmt (d : BitVec 512) : Nat := dF d 8 55 52
def snOutFmt (d : BitVec 512) : Nat := dF d 8 59 56
def snPeer (d : BitVec 512) : Bool := dF d 8 61 60 = 1
def snTail (d : BitVec 512) : Nat := dF d 0x10 47 0
def snCount (d : BitVec 512) : Nat := dF d 0x18 39 0
def snDest (d : BitVec 512) : Nat := dF d 0x20 47 0
def snDev (d : BitVec 512) : Nat := dF d 0x20 63 48
def snTensor (d : BitVec 512) : Nat := dF d 0x28 23 0
def snAxis (d : BitVec 512) : Nat := dF d 0x28 26 24
def snRec (d : BitVec 512) : Nat := dF d 0x30 47 0

/-- The op-specific bytes of R263: n1 and n2 are GEN_MIN and GEN_MAX. -/
def snapBytes (o : OpEnt) : List Byte :=
  bytesOf 8 o.done ++ bytesOf 2 o.n1 ++ bytesOf 2 o.n2 ++ bytesOf 4 (min (2 ^ 32 - 1) o.chafedN)

/-- Every hold and PUT stream of a snapshot released (R261). -/
def snapRelease (s : State) (n seq : Nat) : State :=
  { s with
    tiers := { s.tiers with exportHold := s.tiers.exportHold.filter (fun h => !(h.2.1 = n && h.2.2 = seq)) },
    net := { s.net with puts := s.net.puts.filter (fun p => !(p.line = n && p.seq = seq)) } }

/-- A snapshot ends with its final record. -/
def snapEnd (s : State) (n : Nat) (o : OpEnt) (st : Nat) : State :=
  finishOp (snapRelease s n o.seq) n o st (snapBytes o)

end Sys2Proof.Machine
end

