-- ==== Sys2Proof/Machine/Links.lean ====
section
/-! DEFINITION. Links: training and HELLO, the reception of frames, replay, credits, keepalive, slips, loss of a link and
of a device, notices (R321 to R328, R347 to R351, R358). -/

set_option Elab.async false

namespace Sys2Proof.Machine

open Sys2Proof

/-! ### Peers (R347, R350) -/

/-- The lines of the collectives and stoppers that a change of a device's status bears on: SLOW seen since the wait began
stretches the timeout (R352). -/
def noteSlow (s : State) (dev : Nat) : State :=
  (collOps s).foldl (fun t p =>
    if (ccMembers t p.2.desc).contains dev then
      opSet t p.1 { p.2 with coll := { p.2.coll with slowDevs := (dev :: p.2.coll.slowDevs).dedup } } else t) s

/-- The status bits seen of a device; an UNKNOWN device that is heard from is UP. -/
def peerHeard (s : State) (dev : Nat) (stat : BitVec 3) : State :=
  let p := peerGet s dev
  let s1 := peerSet s dev { p with stat := stat, state := if p.state = .unknown then .up else p.state }
  if stat.getLsbD 0 then noteSlow s1 dev else s1

/-- The status bits that a frame carries. -/
def frameStat (f : Frame) : BitVec 3 :=
  BitVec.ofNat 3 ((if f.slow then 1 else 0) + (if f.draining then 2 else 0) + (if f.maint then 4 else 0))

/-- Every collective in flight with the device among its members completes PEER_LOST (R350 step 3, R345). -/
def endColls (s : State) (dev : Nat) : State :=
  (collOps s).foldl (fun t p =>
    if (ccMembers t p.2.desc).contains dev then
      collFail t p.1 { p.2 with coll := { p.2.coll with failRank := ccRankOf t p.2.desc dev } } stPeerLost
    else t) s

/-- Every SYSTEM stopper that still awaits the device's acknowledgement completes PEER_LOST (R297). -/
def endFlushes (s : State) (dev : Nat) : State :=
  (s.net.flushes.filter (fun f => f.waiting.contains dev)).foldl (fun t f =>
    let t1 := { t with net := { t.net with flushes := t.net.flushes.filter (fun g => g.id != f.id) } }
    match opFind t1 f.line f.seq with
    | some o => finishOp t1 f.line o stPeerLost (stopperBytes t1 o)
    | none => t1) s

/-- Every PUT stream to the device completes PEER_LOST (R350 step 3, R263). -/
def endPuts (s : State) (dev : Nat) : State :=
  ((allOps s).filter (fun p => p.2.dispatched && opcodeOf p.2.desc = opSnapshot && snPeer p.2.desc && snDev p.2.desc = dev)).foldl
    (fun t p => snapEnd t p.1 p.2 stPeerLost) s

/-- A repair that asks the device goes on to the next rank (R178). -/
def moveRepairs (s : State) (dev : Nat) : State :=
  s.net.repairs.foldl (fun t r =>
    let axis := actF t flRepairAxis (htGet t r.name).account
    if memberOf t axis r.rank = dev then repairNext t r.name axis r.rank r.beganAt else t) s

/-- The device is declared or learned LOST, or marked UNREACHABLE: steps 1, 3 and 4 of R350. -/
def peerDown (s : State) (dev : Nat) (st : PeerState) (cause : Nat) : State :=
  if peerGone s dev then s
  else
    let s1 := peerSet s dev { peerGet s dev with state := st, cause := cause }
    let s2 := { s1 with net := { s1.net with peerEvent := true, lastLost := BitVec.ofNat 14 dev } }
    moveRepairs (endPuts (endFlushes (endColls (raiseCause s2 irqPeerLost) dev) dev) dev) dev

/-- Every destination whose PRI and ALT ports are both down is UNREACHABLE (R350). -/
def markUnreachable (s : State) (cause : Nat) : State :=
  let ups := (List.range 12).filter (portUp s)
  ((List.range 16384).filter (fun d =>
    let e := routeEntry s.cfg.act d
    e.1 ≤ 11 && !ups.contains e.1 && !ups.contains e.2)).foldl (fun t d => peerDown t d .unreachable cause) s

/-! ### The sync path (R40, R358) -/

/-- TB_LOCKED set or cleared; its fall raises the TIMEBASE cause (R424). -/
def setLocked (s : State) (b : Bool) : State :=
  let s1 := { s with tb := { s.tb with locked := b, goodExchanges := if b then s.tb.goodExchanges else 0 } }
  if s.tb.locked && !b then raiseCause s1 irqTimebase else s1

/-- The port to sync with: the parent port while it is up, else the alternate one (R358). -/
def syncPort (s : State) : Option Nat :=
  if portUp s (actF s flTbParent 0) then some (actF s flTbParent 0)
  else if portUp s (actF s flTbAlt 0) then some (actF s flTbAlt 0) else none

/-- The sync path after a port came up or went down; with neither port up the module runs in holdover (R40, R358). -/
def syncPath (s : State) : State :=
  if actF s flTbRoot 0 = 1 then s
  else
    match syncPort s with
    | some p => { s with tb := { s.tb with onAlt := p != actF s flTbParent 0 } }
    | none => setLocked { s with tb := { s.tb with pendingReq := none } } false

/-! ### Loss of a link (R348 to R350) -/

-- CAUSE codes of LNK_LINK_STAT.
def causeTug : Nat := 1
def causeLos : Nat := 2
def causeSlip : Nat := 3
def causeReplay : Nat := 4
def causeMiswire : Nat := 5
def causeNotice : Nat := 6

/-- A link out of service: its queues, sequence numbers and credits are gone, its counters stay. -/
def linkOff (l : Link) (st : LinkState) (cause : Nat) : Link :=
  { Link.reset with
    state := st, cause := cause, stall := l.stall, replays := l.replays, fecCorr := l.fecCorr, fecUncorr := l.fecUncorr,
    drops := l.drops, wire := l.wire, nbr := l.nbr }

/-- The neighbour at a port: its NEIGHBOR, or with ANY the device heard on the link. -/
def neighbourOf (s : State) (p : Nat) (l : Link) : Nat :=
  if actF s flPortAny p = 1 then l.nbr.getD (actF s flPortNbr p) else actF s flPortNbr p

/-- The module declares a device LOST: NOTICE LOST goes out on every UP link (R350 steps 1 to 4). -/
def declareLost (s : State) (dev cause : Nat) : State :=
  if peerGone s dev then s
  else
    let s1 := peerDown s dev .lost cause
    sendAllUp s1 (noticeFrame s1 dev (peerGet s1 dev).noticeCount.toNat true (peerGet s1 dev).stat cause) []

/-- A link is declared lost (R349). `orderly` is a slip's reason. The neighbour is LOST when the last link of its port is,
or at once on a slip with reason 0x1 to 0x3; UNREACHABLE when the last link goes by LINK_OFF. -/
def linkLost (s : State) (k cause : Nat) (orderly : Option Nat) : State :=
  let l := linkGet s k
  let p := actF s flLinkPort k
  let dev := neighbourOf s p l
  let s1 := linkSet s k (linkOff l .down cause)
  let up := portUp s1 p
  let s2 := if up then raiseCause s1 irqLink else s1
  let reason := orderly.getD 0
  let s3 := if 1 ≤ reason && reason ≤ 3 then declareLost s2 dev cause
    else if up then s2
    else if reason = 4 then peerDown s2 dev .unreachable cause else declareLost s2 dev cause
  let s4 := if up then s3 else markUnreachable s3 cause
  syncPath s4

/-! ### Reception (R323 to R327, R351) -/

/-- Serial order on LSEQ: a is at or before b. -/
def lseqLe (a b : BitVec 16) : Bool := 0 ≤ (b - a).toInt

/-- The frames that an ACK covers leave the replay buffer (R325). -/
def takeAck (clk : Nat) (ack : BitVec 16) (l : Link) : Link :=
  let rest := l.replay.filter (fun f => !lseqLe f.lseq ack)
  if rest.length < l.replay.length then { l with replay := rest, ackSeen := ack, ackAt := clk, resends := 0 } else l

/-- A good frame is heard: liveness, cell count, ACK and the sender's status bits. -/
def heard (s : State) (k : Nat) (f : Frame) : State :=
  let l := linkGet s k
  let s1 := linkSet s k (takeAck s.clk f.ack { l with lastRx := s.clk })
  let s2 := pump (pmuAdd s1 (0x158 + k) (cellsOf f) (cellAttr f)) k
  if f.src.toNat < 16384 then peerHeard s2 f.src.toNat (frameStat f) else s2

/-- A frame whose CRC fails, or a gap in the sequence: sequenced frames are discarded until the resend, and a NAK names the
first one missing (R325). -/
def crcBad (s : State) (k : Nat) : State :=
  let l := linkGet s k
  sendOn (linkSet s k { l with discarding := true }) k (mkLocal s ftNak ((l.rxLast + 1).setWidth 32) 0 0)

/-- Reception of a link-local frame of a type on an UP link. -/
def localRx (k : LinkNo) (f : Frame) (typ : BitVec 4) (act : State → State) (s : State) : Out :=
  if !linkUp s k.val || f.typ != typ then .next s
  else if !frameGood f then .next (crcBad s k.val)
  else .next (act (heard s k.val f))

/-- Credit for a frame that was forwarded or consumed: a CREDIT frame with the cumulative counts of its class (R327). -/
def returnCredit (s : State) (k vc cells : Nat) : State :=
  let l := linkGet s k
  let l1 := { l with freed := mapSet 0 l.freed vc ((mapGet 0 l.freed vc + cells) % 65536) }
  let tc := vc / 4
  let counts := (List.range 4).foldl (fun n i => n + mapGet 0 l1.freed (4 * tc + i) * 65536 ^ i) 0
  sendOn (linkSet s k l1) k (mkLocal s ftCredit (BitVec.ofNat 32 tc) (BitVec.ofNat 64 counts) 0)

/-- Times that a link's queue holds a frame. -/
def queuedTimes (s : State) (k : Nat) (f : Frame) : Nat := ((linkGet s k).txQueue.filter (fun g => g == f)).length

/-- The link whose queue holds a frame that it did not hold before: the frame waits there. -/
def queuedOn (before after : State) (f : Frame) : Option Nat :=
  (List.range 24).find? (fun k => queuedTimes before k f < queuedTimes after k f)

def inTransit (s : State) (x : Nat × Frame × Nat × Nat × Nat) : State := { s with net := { s.net with transit := s.net.transit ++ [x] } }

/-- Frames in transit that still wait in the queue of the link that they leave by. -/
def stillQueued (s : State) : List (Nat × Frame × Nat × Nat × Nat) → List (Nat × Frame × Nat × Nat × Nat)
  | [] => []
  | x :: xs =>
    let later := (xs.filter (fun y => y.1 = x.1 && y.2.1 == x.2.1)).length
    if later < queuedTimes s x.1 x.2.1 then x :: stillQueued s xs else stillQueued s xs

/-- Frames in transit that have left give their credit back to the neighbour that sent them (R327). -/
def settleTransit (s : State) : State :=
  let stay := stillQueued s s.net.transit
  let gone := s.net.transit.filter (fun x => !stay.contains x)
  gone.foldl (fun t x => returnCredit t x.2.2.1 x.2.2.2.1 x.2.2.2.2) { s with net := { s.net with transit := stay } }

/-- Reception of a sequenced frame of a type (R325, R331, R351): in order, from a device that is not LOST, and addressed
here, it acts; addressed elsewhere it is forwarded, and fills its buffer until it leaves (R327). `act` also says whether the frame
is consumed, so that its credit returns. -/
def seqRx (k : LinkNo) (f : Frame) (ok : Frame → Bool) (act : State → State × Bool) (s : State) : Out :=
  if !linkUp s k.val || isLocal f || !ok f then .next s
  else if !frameGood f then .next (crcBad s k.val)
  else
    let s1 := heard s k.val f
    let l := linkGet s1 k.val
    if f.lseq = l.rxLast + 1 then
      let s2 := linkSet s1 k.val { l with rxLast := f.lseq, discarding := false }
      let done : State × Bool :=
        if (peerGet s2 f.src.toNat).state = .lost then (s2, true)
        else
          match routeOf s2 f false with
          | .here => act s2
          | .out _ g =>
            (match queuedOn s2 (routeFrame s2 f false) g with
            | some j => (inTransit (routeFrame s2 f false) (j, g, k.val, vcOf f, cellsOf f), false)
            | none => (routeFrame s2 f false, true))
          | .drop _ => (routeFrame s2 f false, true)
      .next (if done.2 then returnCredit done.1 k.val (vcOf f) (cellsOf f) else done.1)
    else if lseqLe f.lseq l.rxLast || l.discarding then .next s1
    else .next (crcBad s1 k.val)

/-! ### Training and HELLO (R322) -/

/-- The lanes are powered: rails up and out of reset (R348). -/
def lanesLive (s : State) : Bool := s.power.rails && !s.power.perstActed

/-- A training attempt begins on an enabled link that is down, from the LINKS phase on (R382): the first at once, the next ones
every 10 ms. -/
def execLinkTrainingAttempt (link : LinkNo) (s : State) : Out :=
  let k := link.val
  let l := linkGet s k
  let due := l.trainAt.all (fun t => t + 10000000 ≤ s.clk)
  if lanesLive s && 6 ≤ s.boot.phase && s.pins.refclkOk && linkOn s k && l.state != .up && due then
    .next (linkSet s k { l with state := .training, trainAt := some s.clk, helloWait := false, lastMiswire := false })
  else .next s

/-- An attempt ends: a trained link sends its HELLO and goes on reading TRAINING until it has heard one; an attempt that
failed leaves it DOWN, or MISWIRE when it had heard another device. -/
def execLinkTrainingEnd (link : LinkNo) (ok : Bool) (s : State) : Out :=
  let k := link.val
  let l := linkGet s k
  if !lanesLive s || !s.pins.refclkOk || !linkOn s k || l.state != .training || l.helloWait then .next s
  else if ok then
    .next (sendOn (linkSet s k { l with helloWait := true }) k (mkLocal s ftHello (BitVec.ofNat 32 k) 0 0))
  else .next (linkSet s k { l with state := if l.lastMiswire then .miswire else .down })

/-- A HELLO is heard on a trained link: from the port's NEIGHBOR, or any device with ANY, it brings the link UP; from
another device it leaves it in MISWIRE (R322, R424). -/
def execHello (link : LinkNo) (f : Frame) (s : State) : Out :=
  let k := link.val
  let l := linkGet s k
  let p := actF s flLinkPort k
  if !linkOn s k || f.typ != ftHello then .next s
  else if l.state = .up then (if frameGood f then .next (heard s k f) else .next (crcBad s k))
  else if !l.helloWait || !frameGood f then .next s
  else if actF s flPortAny p = 1 || f.src.toNat = actF s flPortNbr p then
    let l1 := { linkOff l .up l.cause with lastRx := s.clk, lastTx := s.clk, ackAt := s.clk, nbr := some f.src.toNat, trainAt := l.trainAt }
    .next (syncPath (heard (linkSet s k l1) k f))
  else
    .next (raiseCause (linkSet s k { l with state := .miswire, cause := causeMiswire, helloWait := false, lastMiswire := true }) irqLink)

/-- An uncorrectable codeword: its flits are discarded and counted; the frames in them come again under R325 (R321). -/
def execFecUncorrectableCodeword (link : LinkNo) (s : State) : Out :=
  let k := link.val
  if linkUp s k then .next (linkSet s k { linkGet s k with fecUncorr := satAdd 255 (linkGet s k).fecUncorr 1 }) else .next s

/-! ### Keepalive (R347) -/

/-- A link that has sent nothing for 2 µs sends a TUG. -/
def execTugIdleTimer (link : LinkNo) (s : State) : Out :=
  if linkUp s link.val && (linkGet s link.val).lastTx + 2000 ≤ s.clk then .next (sendTug s link.val) else .next s

/-- A TUG refreshes liveness and the sender's status bits. -/
def execTug (link : LinkNo) (f : Frame) (s : State) : Out := localRx link f ftTug id s

/-- A SLIP declares the link lost (R349). -/
def execSlip (link : LinkNo) (f : Frame) (s : State) : Out :=
  localRx link f ftSlip (fun t => linkLost t link.val causeSlip (some (f.tag.toNat % 16))) s

/-- A CREDIT frame sets the cumulative counts of the four VCs of a class, and the transmitter goes on (R327). -/
def execCredit (link : LinkNo) (f : Frame) (s : State) : Out :=
  localRx link f ftCredit (fun t =>
    let l := linkGet t link.val
    let tc := f.tag.toNat % 16
    let credit' := (List.range 4).foldl (fun m i => mapSet 0 m (4 * tc + i) (f.addr.toNat / 65536 ^ i % 65536)) l.credit
    if tc ≤ 9 then pump (linkSet t link.val { l with credit := credit' }) link.val else t) s

/-! ### Replay (R325, R349) -/

/-- The frames from a sequence number on are sent again. A frame resent 8 times in a row without acknowledgement has the
link declared lost. -/
def resendFrom (s : State) (k : Nat) (first : BitVec 16) : State :=
  let l := linkGet s k
  let again := l.replay.filter (fun f => lseqLe first f.lseq)
  if again.isEmpty then s
  else if 8 ≤ l.resends then linkLost s k causeReplay none
  else
    let out := again.map (onWire l)
    let l1 := { l with resends := l.resends + 1, wire := l.wire ++ out, replays := satAdd 65535 l.replays again.length,
                       ackAt := s.clk, lastTx := s.clk }
    countSent (pmuAdd (linkSet s k l1) 0x170 again.length attr0) k out

/-- A NAK has the sender resend from its LSEQ. -/
def execNak (link : LinkNo) (f : Frame) (s : State) : Out :=
  localRx link f ftNak (fun t => resendFrom t link.val (f.tag.setWidth 16)) s

/-- No ACK has advanced for 10 µs: the sender resends from the oldest frame that is not acknowledged. -/
def execReplayTimeout (link : LinkNo) (s : State) : Out :=
  let l := linkGet s link.val
  match l.replay with
  | f :: _ => if linkUp s link.val && l.ackAt + 10000 ≤ s.clk then .next (resendFrom s link.val f.lseq) else .next s
  | [] => .next s

/-- 20 µs without a good frame (R349). -/
def execLinkSilenceTimeout (link : LinkNo) (s : State) : Out :=
  if linkUp s link.val && (linkGet s link.val).lastRx + 20000 ≤ s.clk then .next (linkLost s link.val causeTug none) else .next s

/-- Loss of signal on a lane takes the link down (R321, R349). -/
def execLossOfSignal (link : LinkNo) (s : State) : Out :=
  let l := linkGet s link.val
  if linkUp s link.val then .next (linkLost s link.val causeLos none)
  else if l.state = .training then .next (linkSet s link.val { l with state := .down, helloWait := false })
  else .next s

/-! ### Notices (R347, R350) -/

/-- A NOTICE updates the peer table; when it changes its entry it goes on, unchanged, on every other UP link. -/
def noticed (s : State) (k : Nat) (f : Frame) : State :=
  let dev := f.tag.toNat % 65536
  let count := BitVec.ofNat 16 (f.tag.toNat / 65536)
  let stat := BitVec.ofNat 3 (f.aux.toNat / 2)
  let on (t : State) : State := sendAllUp t (noticeFrame t dev count.toNat (f.aux.getLsbD 0) stat (f.aux.toNat / 16 % 16)) [k]
  if dev = ownId s || 16384 ≤ dev then s
  else if f.aux.getLsbD 0 then
    (if peerGone s dev then s else on (peerDown s dev .lost causeNotice))
  else if 0 < (count - (peerGet s dev).noticeCount).toInt then
    let s1 := peerHeard s dev stat
    on (peerSet s1 dev { peerGet s1 dev with noticeCount := count })
  else s

/-- A NOTICE frame. -/
def execNotice (link : LinkNo) (f : Frame) (s : State) : Out := localRx link f ftNotice (fun t => noticed t link.val f) s

end Sys2Proof.Machine
end

