-- ==== Sys2Proof/Machine/Lanes.lean ====
section
/-! DEFINITION. Lanes: the registers of the vector engines and of the splicers, and the micro-ops of R103 and R104 on every
lane at once (R99, R226, R230, R443). -/

set_option Elab.async false

namespace Sys2Proof.Machine

open Sys2Proof

/-- The value of a source code: one of `nr` registers, or a constant above them (R102, R230). -/
def laneSrc (nr : Nat) (regs konst : List W32) (x : Nat) : W32 := if x < nr then regs.getD x 0 else konst.getD (x - nr) 0

/-- The registers of a lane with one of them set. -/
def setReg (nr : Nat) (regs : List W32) (i : Nat) (v : W32) : List W32 :=
  (List.range nr).map (fun j => if j = i then v else regs.getD j 0)

/-- One micro-op on one lane: its registers and its gathered flags. -/
def laneOp (nr : Nat) (f : W32 → W32 → W32 → W32 × Byte) (konst : List W32) (dst a b c : Nat) (l : List W32 × Byte) : List W32 × Byte :=
  let r := f (laneSrc nr l.1 konst a) (laneSrc nr l.1 konst b) (laneSrc nr l.1 konst c)
  (setReg nr l.1 dst r.1, l.2 ||| r.2)

/-- One micro-op on every lane. -/
def lanesOp (nr : Nat) (f : W32 → W32 → W32 → W32 × Byte) (konst : List W32) (dst a b c : Nat) (regs : List (List W32)) (flags : List Byte) :
    List (List W32) × List Byte :=
  let r := (regs.zipIdx).map (fun p => laneOp nr f konst dst a b c (p.1, flags.getD p.2 0))
  (r.map Prod.fst, r.map Prod.snd)

def splGet (s : State) (chan : Nat) : Splicer := mapGet Splicer.reset s.eng.splicers chan
def splSet (s : State) (chan : Nat) (x : Splicer) : State := { s with eng := { s.eng with splicers := mapSet Splicer.reset s.eng.splicers chan x } }

/-- A micro-op on the lanes of a vector engine (eight registers). -/
def vecOpAll (f : W32 → W32 → W32 → W32 × Byte) (dst a b c : Nat) (x : Lanes) : Lanes :=
  let r := lanesOp 8 f x.konst (dst % 8) (a % 16) (b % 16) (c % 16) x.regs x.flags
  { x with regs := r.1, flags := r.2 }

/-- A micro-op on the lanes of a splicer (sixteen registers). -/
def splOpAll (f : W32 → W32 → W32 → W32 × Byte) (dst a b c : Nat) (x : Splicer) : Splicer :=
  let r := lanesOp 16 f x.konst dst a b c x.regs x.flags
  { x with regs := r.1, flags := r.2 }

/-- A micro-op on the lanes of an engine. -/
def engineOp (e : Engine) (f : W32 → W32 → W32 → W32 × Byte) (dst a b c : Nat) (s : State) : Out :=
  match e with
  | .vec k => .next (strandSet s k.val { strandGet s k.val with lanes := vecOpAll f dst a b c (strandGet s k.val).lanes })
  | .spl ch => .next (splSet s ch.toNat (splOpAll f dst a b c (splGet s ch.toNat)))

/-- An integer micro-op, which only a vector engine has (R230). -/
def vecOnly (k : StrandNo) (f : W32 → W32 → W32 → W32 × Byte) (dst : BitVec 3) (a b : BitVec 4) (s : State) : Out :=
  engineOp (.vec k) f dst.toNat a.toNat b.toNat 0 s

/-- MOV. -/
def execMov (e : Engine) (dst : BitVec 4) (a : BitVec 5) (s : State) : Out := engineOp e opMov dst.toNat a.toNat 0 0 s
/-- ADD. -/
def execAdd (e : Engine) (dst : BitVec 4) (a b : BitVec 5) (s : State) : Out := engineOp e opAdd dst.toNat a.toNat b.toNat 0 s
/-- SUB. -/
def execSub (e : Engine) (dst : BitVec 4) (a b : BitVec 5) (s : State) : Out := engineOp e opSub dst.toNat a.toNat b.toNat 0 s
/-- MUL. -/
def execMul (e : Engine) (dst : BitVec 4) (a b : BitVec 5) (s : State) : Out := engineOp e opMul dst.toNat a.toNat b.toNat 0 s
/-- FMA. -/
def execFma (e : Engine) (dst : BitVec 4) (a b c : BitVec 5) (s : State) : Out := engineOp e opFma dst.toNat a.toNat b.toNat c.toNat s
/-- MAX. -/
def execMax (e : Engine) (dst : BitVec 4) (a b : BitVec 5) (s : State) : Out := engineOp e opMax dst.toNat a.toNat b.toNat 0 s
/-- MIN. -/
def execMin (e : Engine) (dst : BitVec 4) (a b : BitVec 5) (s : State) : Out := engineOp e opMin dst.toNat a.toNat b.toNat 0 s
/-- ABS. -/
def execAbs (e : Engine) (dst : BitVec 4) (a : BitVec 5) (s : State) : Out := engineOp e opAbs dst.toNat a.toNat 0 0 s
/-- NEG. -/
def execNeg (e : Engine) (dst : BitVec 4) (a : BitVec 5) (s : State) : Out := engineOp e opNeg dst.toNat a.toNat 0 0 s
/-- CMPLT. -/
def execCmplt (e : Engine) (dst : BitVec 4) (a b : BitVec 5) (s : State) : Out := engineOp e opCmplt dst.toNat a.toNat b.toNat 0 s
/-- CMPEQ. -/
def execCmpeq (e : Engine) (dst : BitVec 4) (a b : BitVec 5) (s : State) : Out := engineOp e opCmpeq dst.toNat a.toNat b.toNat 0 s
/-- SEL. -/
def execSel (e : Engine) (dst : BitVec 4) (a b c : BitVec 5) (s : State) : Out := engineOp e opSel dst.toNat a.toNat b.toNat c.toNat s
/-- EXP2. -/
def execExp2 (e : Engine) (dst : BitVec 4) (a : BitVec 5) (s : State) : Out := engineOp e opExp2 dst.toNat a.toNat 0 0 s
/-- LOG2. -/
def execLog2 (e : Engine) (dst : BitVec 4) (a : BitVec 5) (s : State) : Out := engineOp e opLog2 dst.toNat a.toNat 0 0 s
/-- RCP. -/
def execRcp (e : Engine) (dst : BitVec 4) (a : BitVec 5) (s : State) : Out := engineOp e opRcp dst.toNat a.toNat 0 0 s
/-- DIV. -/
def execDiv (e : Engine) (dst : BitVec 4) (a b : BitVec 5) (s : State) : Out := engineOp e opDiv dst.toNat a.toNat b.toNat 0 s
/-- SQRT. -/
def execSqrt (e : Engine) (dst : BitVec 4) (a : BitVec 5) (s : State) : Out := engineOp e opSqrt dst.toNat a.toNat 0 0 s
/-- RSQRT. -/
def execRsqrt (e : Engine) (dst : BitVec 4) (a : BitVec 5) (s : State) : Out := engineOp e opRsqrt dst.toNat a.toNat 0 0 s
/-- TANH. -/
def execTanh (e : Engine) (dst : BitVec 4) (a : BitVec 5) (s : State) : Out := engineOp e opTanh dst.toNat a.toNat 0 0 s
/-- ERF. -/
def execErf (e : Engine) (dst : BitVec 4) (a : BitVec 5) (s : State) : Out := engineOp e opErf dst.toNat a.toNat 0 0 s
/-- IADD. -/
def execIadd (strand : StrandNo) (dst : BitVec 3) (a b : BitVec 4) (s : State) : Out := vecOnly strand opIadd dst a b s
/-- ISUB. -/
def execIsub (strand : StrandNo) (dst : BitVec 3) (a b : BitVec 4) (s : State) : Out := vecOnly strand opIsub dst a b s
/-- IMUL. -/
def execImul (strand : StrandNo) (dst : BitVec 3) (a b : BitVec 4) (s : State) : Out := vecOnly strand opImul dst a b s
/-- IAND. -/
def execIand (strand : StrandNo) (dst : BitVec 3) (a b : BitVec 4) (s : State) : Out := vecOnly strand opIand dst a b s
/-- IOR. -/
def execIor (strand : StrandNo) (dst : BitVec 3) (a b : BitVec 4) (s : State) : Out := vecOnly strand opIor dst a b s
/-- IXOR. -/
def execIxor (strand : StrandNo) (dst : BitVec 3) (a b : BitVec 4) (s : State) : Out := vecOnly strand opIxor dst a b s
/-- ISHL. -/
def execIshl (strand : StrandNo) (dst : BitVec 3) (a b : BitVec 4) (s : State) : Out := vecOnly strand opIshl dst a b s
/-- ISHR. -/
def execIshr (strand : StrandNo) (dst : BitVec 3) (a b : BitVec 4) (s : State) : Out := vecOnly strand opIshr dst a b s
/-- CVTIF. -/
def execCvtif (strand : StrandNo) (dst : BitVec 3) (a : BitVec 4) (s : State) : Out := vecOnly strand opCvtif dst a 0 s
/-- CVTFI. -/
def execCvtfi (strand : StrandNo) (dst : BitVec 3) (a : BitVec 4) (s : State) : Out := vecOnly strand opCvtfi dst a 0 s

end Sys2Proof.Machine
end

