-- ==== Sys2Proof/Machine/Splicer.lean ====
section
/-! DEFINITION. Splicers: SPL_UPD and SPL_ACC, chunks, LD, ST and STSR, landing and its merge (R226 to R244, R249 to R258,
R445). -/

set_option Elab.async false

namespace Sys2Proof.Machine

open Sys2Proof

/-! ### Descriptor and parameter block (R232, R233) -/

def spParam (d : BitVec 512) : Nat := dF d 8 47 0
def spArena (d : BitVec 512) : Nat := dF d 8 51 48
def spCensus (d : BitVec 512) : Bool := dF d 8 52 52 = 1
def spLen (d : BitVec 512) : Nat := if dF d 8 57 53 = 0 then 32 else dF d 8 57 53
def spProg (d : BitVec 512) : Nat := dF d 0x10 47 0
def spN (d : BitVec 512) : Nat := dF d 0x18 39 0
def spTensor (d : BitVec 512) : Nat := dF d 0x20 23 0

/-- Bits [hi:lo] of the 64-bit word at a byte offset of a block. -/
def pF (par : List Byte) (off hi lo : Nat) : Nat := bitsAt (natOfBytes ((par.drop off).take 8)) hi lo

def stBase (par : List Byte) (k : Nat) : Nat := pF par (16 * k) 47 0
def stFmt (par : List Byte) (k : Nat) : Nat := pF par (16 * k) 51 48
def stKind (par : List Byte) (k : Nat) : Nat := pF par (16 * k) 53 52
def stPlane (par : List Byte) (k : Nat) : Nat := pF par (8 + 16 * k) 47 0
def spVerdict (par : List Byte) : Nat := pF par 0xD0 47 0

/-- Instruction i of a program block. -/
def splWord (prog : List Byte) (i : Nat) : Nat := natOfBytes ((prog.drop (4 * i)).take 4)

def iwOpc (w : Nat) : Nat := bitsAt w 5 0
def iwDst (w : Nat) : Nat := bitsAt w 9 6
def iwSa (w : Nat) : Nat := bitsAt w 14 10
def iwSb (w : Nat) : Nat := bitsAt w 19 15
def iwSc (w : Nat) : Nat := bitsAt w 24 20
def iwStr (w : Nat) : Nat := bitsAt w 27 25

/-- The instructions of an operation. -/
def splWords (o : OpEnt) : List Nat := (List.range (spLen o.desc)).map (splWord o.prog)

/-- Bytes of an element in its value plane (a T8 stream's B16 part). -/
def elemBytes (f : Fmt) : Nat := if f = .t8 then 2 else f.bits / 8

/-- The format of a stream. -/
def stFormat (par : List Byte) (k : Nat) : Fmt := (Fmt.ofCode (stFmt par k)).getD .w32

/-- Bytes of positions that a plane of width `w64` bytes per 64 elements spans in each channel. -/
def planeSpan (nc n w64 : Nat) : Nat := ceilDiv (ceilDiv n 64) nc * w64

/-- The arena ranges of a stream: its value plane and its scale or tail plane. -/
def arenaRanges (nc n : Nat) (par : List Byte) (k : Nat) : List (Nat × Nat) :=
  let f := stFormat par k
  if stKind par k != 1 then []
  else
    (stBase par k, stBase par k + planeSpan nc n (64 * elemBytes f)) ::
      (if f.isK8 then [(stPlane par k, stPlane par k + planeSpan nc n 2)]
      else if f = .t8 then [(stPlane par k, stPlane par k + planeSpan nc n 64)] else [])

/-- The kern range of a kern stream. -/
def kernRange (n : Nat) (par : List Byte) (k : Nat) : Nat × Nat := (stBase par k, stBase par k + n * elemBytes (stFormat par k))

/-- Two ranges share a byte. -/
def meets (a b : Nat × Nat) : Bool := a.1 < b.2 && b.1 < a.2

/-- Every pair of a list, each once. -/
def pairsOf {α : Type} : List α → List (α × α)
  | [] => []
  | a :: as => as.map (fun b => (a, b)) ++ pairsOf as

/-- Row 4 of R234: reserved codes first, then roles (R58). -/
def splFmtCheck (upd : Bool) (par : List Byte) : Option Nat :=
  let used := (List.range 8).filter (fun k => stKind par k != 0)
  if used.any (fun k => (Fmt.ofCode (stFmt par k)).isNone) then some stDescInvalid
  else if used.any (fun k =>
      let f := stFormat par k
      if stKind par k = 1 then !([Fmt.w32, .b16, .h16, .e5m2, .e4m3, .k8, .k8u].contains f || (f = .t8 && k = 0 && upd))
      else !([Fmt.w32, .b16, .h16, .e5m2, .e4m3].contains f)) then some stFmtMismatch
  else none

/-- An instruction stores to a stream. -/
def storesTo (w k : Nat) : Bool := (iwOpc w = 0x31 && iwStr w = k) || (iwOpc w = 0x32 && k = 0)

/-- Row 5 of R234 on one instruction (R230, R231). -/
def splWordOk (upd : Bool) (par : List Byte) (w : Nat) : Bool :=
  let kind := stKind par (iwStr w)
  w >>> 28 = 0 &&
  (match iwOpc w with
  | 0x30 => kind = 1 || kind = 2
  | 0x31 => kind = 1 || kind = 3
  | 0x32 => upd && iwStr w = 0 && (kind = 1 || kind = 3) && (stFormat par 0 = .w32 || stFormat par 0 = .t8)
  | opc => iwStr w = 0 && (microW32 opc).isSome)

/-- The reserved bytes and bits of the parameter block are zero. SEED, STEP and VERDICT_ADDR are SPL_UPD's only. -/
def splParOk (upd : Bool) (par : List Byte) : Bool :=
  (List.range 8).all (fun k => pF par (16 * k) 63 54 = 0 && pF par (8 + 16 * k) 63 48 = 0 &&
    (stPlane par k = 0 || (stKind par k = 1 && ((stFormat par k).isK8 || stFormat par k = .t8)))) &&
  pF par 0xD0 63 48 = 0 && (par.drop 0xD8).all (fun b => b = 0) &&
  (upd || ((par.drop 0xC0).take 0x18).all (fun b => b = 0))

/-- Row 6 of R234, with the address rule of R250. -/
def splRangesOk (s : State) (o : OpEnt) (par : List Byte) : Bool :=
  let n := spN o.desc
  let nc := nchan s.fuses.variant
  let top := actF s flArenaSlabs (spArena o.desc) * 2 ^ 22
  let ks := List.range 8
  let rs := ks.flatMap (arenaRanges nc n par)
  let aligned := ks.all (fun k => stKind par k != 1 || (stBase par k % 256 = 0 && stPlane par k % 32 = 0))
  let kern := ks.filter (fun k => stKind par k = 2 || stKind par k = 3)
  let kernOk := kern.all (fun k => stBase par k % elemBytes (stFormat par k) = 0 && (kernRange n par k).2 ≤ mantleBase)
  let clash := (ks.filter (fun k => stKind par k = 3)).any (fun a => (ks.filter (fun k => stKind par k = 2)).any (fun b =>
    meets (kernRange n par a) (kernRange n par b)))
  aligned && rs.all (fun r => r.2 ≤ top) && !((pairsOf rs).any (fun p => meets p.1 p.2)) && kernOk && !clash &&
  spVerdict par % 64 = 0 && spVerdict par + 64 ≤ mantleBase

/-- Rows 3 to 6 of R234. -/
def splDispatchCheck (s : State) (n : Nat) (o : OpEnt) (par prog : List Byte) : Option Nat :=
  let upd := opcodeOf o.desc = opSplUpd
  let a := spArena o.desc
  let ws := (List.range (spLen o.desc)).map (splWord prog)
  if actF s flArenaValid a != 1 || actF s flArenaAcct a != lineAcct s n then some stDescInvalid
  else
    match splFmtCheck upd par with
    | some st => some st
    | none =>
      if !splParOk upd par || !(ws.all (splWordOk upd par)) ||
          (List.range 8).any (fun k => 1 < (ws.filter (fun w => storesTo w k)).length) ||
          (spCensus o.desc && !(ws.any (fun w => storesTo w 0))) then some stDescInvalid
      else if !splRangesOk s o par then some stDescInvalid
      else none

/-! ### Dispatch (R234, R235, R250, R445) -/

/-- Bits of a step record (R245). -/
def recSkip (rec_ : List Byte) : Bool := pF rec_ 0 0 0 = 1

/-- The record's GMUL, BC1, BC2S and STEP put in place of c12 to c14 and STEP (R250). -/
def withRecord (par rec_ : List Byte) : List Byte :=
  par.take (0x80 + 48) ++ (rec_.drop 8).take 12 ++ (par.drop (0x80 + 60)).take (0xC8 - 0xBC) ++ (rec_.drop 0x18).take 8 ++ par.drop 0xD0

/-- The op-specific bytes of an SPL record (R239). -/
def splBytes (o : OpEnt) : List Byte :=
  bytesOf 4 o.done ++ bytesOf 4 o.n1 ++ bytesOf 4 o.chafedN ++ bytesOf 4 o.censusIndex

/-- ABORT_PENDING of an account (R178). -/
def abortPending (s : State) (acct : Nat) : Bool := (mapGet AcctSt.reset s.tiers.acct acct).abortPending

/-- The dispatch that SPL_UPD and SPL_ACC share: blocks read, checked, and for SPL_UPD the skip of R235. A read that is held
holds the dispatch (R179, R220). -/
def dispatchSpl (sd : State) (n : Nat) (o : OpEnt) : State :=
  let acct := lineAcct sd n
  let upd := opcodeOf o.desc = opSplUpd
  let par := devRead sd (some acct) (spParam o.desc) 256
  let prog := devRead sd (some acct) (spProg o.desc) 128
  let o1 := opDispatch sd o
  let spans := [(spParam o.desc, 256), (spProg o.desc, 128)] ++ (if upd && spVerdict par.1 != 0 then [(spVerdict par.1, 64)] else [])
  let s := noteAccess sd acct (spansBlocks spans)
  if readsHeld sd spans then noteWaits sd spans false
  else if par.2 || prog.2 then rejectOp s n o stUncorrectable
  else
    match (views s).findSome? (fun v => splDispatchCheck v n o par.1 prog.1) with
    | some st => rejectOp s n o st
    | none =>
      let va := spVerdict par.1
      let rec_ := devRead s (some acct) va 64
      if upd && va != 0 && rec_.2 then rejectOp s n o stUncorrectable
      else if upd && (abortPending s acct || (va != 0 && recSkip rec_.1)) then
        finishOp s n { o1 with flags := flagSkipped } stOkSkipped (splBytes o1)
      else
        let par' := if upd && va != 0 then withRecord par.1 rec_.1 else par.1
        noteLine (opSet s n { o1 with par := par', prog := prog.1, total := ceilDiv (spN o.desc) 64 }) n

/-- SPL_UPD. -/
def execSplUpd (line : LineNo) (s : State) : Out := onDispatch s line.toNat opSplUpd (dispatchSpl s line.toNat)
/-- SPL_ACC. -/
def execSplAcc (line : LineNo) (s : State) : Out := onDispatch s line.toNat opSplAcc (dispatchSpl s line.toNat)

/-! ### Streams of a chunk (R229, R47 to R50) -/

/-- The hashed name, and name frame, of a position of a channel (R229). -/
def splName (s : State) (gc slab0 pos : Nat) : Nat := mantleUnhash (nchan s.fuses.variant) (gc / 96) (gc % 96) (slab0 * 2 ^ 22 + pos)

/-- The address of chunk u's values in an arena stream, and of its scale or tail bytes. -/
def chunkAddr (s : State) (o : OpEnt) (k u : Nat) : Nat :=
  let nc := nchan s.fuses.variant
  splName s (u % nc) (actF s flArenaFirst (spArena o.desc)) (stBase o.par k + u / nc * (64 * elemBytes (stFormat o.par k)))

def planeAddr (s : State) (o : OpEnt) (k u : Nat) : Nat :=
  let nc := nchan s.fuses.variant
  splName s (u % nc) (actF s flArenaFirst (spArena o.desc)) (stPlane o.par k + u / nc * (if stFormat o.par k = .t8 then 64 else 2))

/-- The address of a position of an arena in the channel of chunk u. -/
def arenaAddr (s : State) (o : OpEnt) (u pos : Nat) : Nat :=
  splName s (u % nchan s.fuses.variant) (actF s flArenaFirst (spArena o.desc)) pos

/-- A stream has a second plane. -/
def hasPlane (f : Fmt) : Bool := f.isK8 || f = .t8

/-- Elements of chunk u. -/
def chunkLen (o : OpEnt) (u : Nat) : Nat := min 64 (spN o.desc - 64 * u)

/-- The span of chunk u's values in a stream: a K8 or K8U chunk is whole blocks of 32 (R47). -/
def valueSpan (s : State) (o : OpEnt) (k u : Nat) : Nat × Nat :=
  let f := stFormat o.par k
  let n := if f.isK8 then ceilDiv (chunkLen o u) 32 * 32 else chunkLen o u
  if stKind o.par k = 1 then (chunkAddr s o k u, n * elemBytes f) else (stBase o.par k + 64 * u * elemBytes f, n * elemBytes f)

/-- The spans of chunk u's scale or tail bytes: a tail plane at 32 mod 64 crosses a 256 B granule of its channel in every
fourth chunk (R229). -/
def planeSpans (s : State) (o : OpEnt) (k u : Nat) : List (Nat × Nat) :=
  let f := stFormat o.par k
  let n := chunkLen o u
  if stKind o.par k != 1 || !hasPlane f then []
  else if f.isK8 then [(planeAddr s o k u, ceilDiv n 32)]
  else
    let pos := stPlane o.par k + u / nchan s.fuses.variant * 64
    let m := min n (256 - pos % 256)
    (planeAddr s o k u, m) :: (if m < n then [(arenaAddr s o u (pos + m), n - m)] else [])

/-- Every span of chunk u in a stream. -/
def streamSpans (s : State) (o : OpEnt) (k u : Nat) : List (Nat × Nat) := valueSpan s o k u :: planeSpans s o k u

/-- Newest bytes at an address and whether a granule of them is marked: what a splicer reads in its banks. -/
def bankBytes (s : State) (fa n : Nat) : List Byte × Bool := ((List.range n).map (fun i => rawByte s (fa + i)), spanChafed s fa n)

/-- Bytes of an arena span: a name that the account may not use reads marked chafed (R155). -/
def arenaBytes (s : State) (acct : Nat) (p : Nat × Nat) : List Byte × Bool :=
  if badName s (some acct) p.1 then (List.replicate p.2 0, true) else bankBytes s p.1 p.2

/-- Element j of value bytes, with its second plane, as a W32 word with the flags of its load (R47, R50, R53, R54). -/
def loadElem (f : Fmt) (vals plane : List Byte) (j : Nat) : W32 × Byte :=
  let w := elemBytes f
  let bits := natOfBytes ((vals.drop (w * j)).take w)
  match f with
  | .k8 => toW32 (decodeK8 false ((plane.getD (j / 32) 0).toNat) bits)
  | .k8u => toW32 (decodeK8 true ((plane.getD (j / 32) 0).toNat) bits)
  | .t8 => toW32 (pairVal bits ((plane.getD j 0).toNat))
  | g => toW32 (decodeElem g bits)

/-- A stream of chunk u before the operation's stores. `slot` is the landing slot that stands for stream 0, with whether
the chunk has landed in it. -/
def loadStream (s : State) (acct : Nat) (o : OpEnt) (u : Nat) (slot : Option (Nat × Bool)) (k : Nat) : SplStream :=
  let f := stFormat o.par k
  let n := chunkLen o u
  let w := elemBytes f
  let kind := stKind o.par k
  let vals : List Byte × Bool :=
    if kind = 1 then
      (match k, slot with
      | 0, some (a, true) => bankBytes s a (n * w)
      | 0, some (_, false) => (List.replicate (n * w) 0, false)
      | _, _ => arenaBytes s acct (valueSpan s o k u))
    else if kind = 2 then devRead s (some acct) (stBase o.par k + 64 * u * w) (n * w)
    else ([], false)
  let plane : List Byte × Bool :=
    let ps := (planeSpans s o k u).map (arenaBytes s acct)
    (ps.flatMap Prod.fst, ps.any Prod.snd)
  { fmt := stFmt o.par k, kind := kind,
    elems := if kind = 1 || kind = 2 then (List.range n).map (loadElem f vals.1 plane.1) else [],
    chafed := List.replicate n (vals.2 || plane.2), stored := none, scales := [] }

/-! ### LD, ST and STSR (R230, R231, R243) -/

/-- LD: each lane takes its element of the stream. -/
def splLd (dst str : Nat) (x : Splicer) : Splicer :=
  let es := ((x.streams[str]?).map SplStream.elems).getD []
  { x with regs := (x.regs.zipIdx).map (fun p => setReg 16 p.1 dst (es.getD p.2 (0, 0)).1),
           flags := (x.flags.zipIdx).map (fun p => p.1 ||| (es.getD p.2 (0, 0)).2) }

/-- The stored bits, scales and flags of a stream's W32 values (R48, R50, R52 to R54). A T8 pair is its B16 bits with the
tail above them. -/
def storeElems (f : Fmt) (vs : List W32) : List Nat × List Nat × List Byte :=
  match f with
  | .k8 | .k8u =>
    let bs := chunksOf 32 (vs.length + 1) (vs.map w32Val)
    let rs := bs.map (k8Encode (f = .k8u))
    let lane (b : List FVal) (r : Nat × List Nat × Byte) : List Byte :=
      b.map (fun v => if v.sign && !v.isZero then r.2.2 else r.2.2 &&& ~~~flagSat)
    (rs.flatMap (fun r => r.2.1), rs.map (fun r => r.1), ((bs.zip rs).map (fun p => lane p.1 p.2)).flatten)
  | .t8 =>
    let rs := vs.map (fun v => encodePair (w32Val v))
    (rs.map (fun r => r.1.1 + r.1.2 * 65536), [], rs.map Prod.snd)
  | g =>
    let rs := vs.map (fun v => encodeElem g (w32Val v))
    (rs.map Prod.fst, [], rs.map Prod.snd)

/-- A stream with its stored values. -/
def setStored (x : Splicer) (str : Nat) (bits scales : List Nat) : List SplStream :=
  (x.streams.zipIdx).map (fun p => if p.2 = str then { p.1 with stored := some bits, scales := scales } else p.1)

/-- ST: each lane's value converted to its element of the stream. -/
def splSt (a str : Nat) (x : Splicer) : Splicer :=
  let f := ((x.streams[str]?).bind (fun t => Fmt.ofCode t.fmt)).getD .w32
  let r := storeElems f (x.regs.map (fun l => laneSrc 16 l x.konst a))
  { x with streams := setStored x str r.1 r.2.1, flags := (x.flags.zipIdx).map (fun p => p.1 ||| r.2.2.getD p.2 0) }

/-- STSR: the exact value of SA × SB + SC rounded stochastically, stored to stream 0 and to DST (R70, R231, R243). -/
def splStsr (dst a b c : Nat) (x : Splicer) : Splicer :=
  let pair := ((x.streams[0]?).bind (fun t => Fmt.ofCode t.fmt)) == some .t8
  let one (p : List W32 × Nat) : W32 × Byte :=
    let v (i : Nat) : FVal := w32Val (laneSrc 16 p.1 x.konst i)
    let r := fmaExact (v a) (v b) (v c)
    let q := roundSr r.1 (if pair then 16 else 24) (srBits x.seed x.step (srAddr x.tensor (x.first + p.2)))
    (q.1, consumed [v a, v b, v c] ||| r.2 ||| q.2)
  let rs := (x.regs.zipIdx).map one
  let bits := rs.map (fun r => if pair then r.1.toNat / 65536 + r.1.toNat / 256 % 256 * 65536 else r.1.toNat)
  let back (w : W32) : W32 := if pair then w &&& 0xFFFF0000 else w
  { x with streams := setStored x 0 bits [],
           regs := (x.regs.zipIdx).map (fun p => setReg 16 p.1 dst (back (rs.getD p.2 (0, 0)).1)),
           flags := (x.flags.zipIdx).map (fun p => p.1 ||| (rs.getD p.2 (0, 0)).2) }

/-- LD on the chunk that the channel's splicer holds. -/
def execLd (chan : BitVec 10) (dst : BitVec 4) (str : Fin 8) (s : State) : Out :=
  .next (splSet s chan.toNat (splLd dst.toNat str.val (splGet s chan.toNat)))
/-- ST on the chunk that the channel's splicer holds. -/
def execSt (chan : BitVec 10) (a : BitVec 5) (str : Fin 8) (s : State) : Out :=
  .next (splSet s chan.toNat (splSt a.toNat str.val (splGet s chan.toNat)))
/-- STSR on the chunk that the channel's splicer holds. -/
def execStsr (chan : BitVec 10) (dst : BitVec 4) (a b c : BitVec 5) (s : State) : Out :=
  .next (splSet s chan.toNat (splStsr dst.toNat a.toNat b.toNat c.toNat (splGet s chan.toNat)))

/-- One instruction of a program. -/
def splInstr (x : Splicer) (w : Nat) : Splicer :=
  match iwOpc w with
  | 0x30 => splLd (iwDst w) (iwStr w) x
  | 0x31 => splSt (iwSa w) (iwStr w) x
  | 0x32 => splStsr (iwDst w) (iwSa w) (iwSb w) (iwSc w) x
  | opc =>
    match microW32 opc with
    | some f => splOpAll f (iwDst w) (iwSa w) (iwSb w) (iwSc w) x
    | none => x

/-- The summed cost of a program (R103, R230). -/
def splCost (ws : List Nat) : Nat := ws.foldl (fun n w => n + (if 0x10 ≤ iwOpc w && iwOpc w ≤ 0x17 then 4 else 1)) 0

/-! ### Blocks of a chunk (R236, R256) -/

/-- Arena streams that the program loads or stores. -/
def arenaStreams (o : OpEnt) : List Nat :=
  (List.range 8).filter (fun k => stKind o.par k = 1 && (splWords o).any (fun w => (iwOpc w = 0x30 && iwStr w = k) || storesTo w k))

/-- The arena blocks that chunk u touches. -/
def chunkBlocks (s : State) (o : OpEnt) (u : Nat) : List Nat := spansBlocks ((arenaStreams o).flatMap (fun k => streamSpans s o k u))

/-- The program loads, or stores, a stream. -/
def loadsFrom (o : OpEnt) (k : Nat) : Bool := (splWords o).any (fun w => iwOpc w = 0x30 && iwStr w = k)
def storesInto (o : OpEnt) (k : Nat) : Bool := (splWords o).any (fun w => storesTo w k)

/-- Spans that chunk u loads, and stores; `land`: its stream 0 stands in a landing slot. -/
def chunkLoads (s : State) (o : OpEnt) (u : Nat) (land : Bool) : List (Nat × Nat) :=
  ((List.range 8).filter (fun k => loadsFrom o k && !(land && k = 0))).flatMap (fun k => streamSpans s o k u)
def chunkStores (s : State) (o : OpEnt) (u : Nat) (land : Bool) : List (Nat × Nat) :=
  ((List.range 8).filter (fun k => storesInto o k && !(land && k = 0))).flatMap (fun k => streamSpans s o k u)

/-- The accesses of a chunk are held: by a repair, a merge or a bank (R179, R220, R257). -/
def chunkHeld (s : State) (o : OpEnt) (u : Nat) (land : Bool) : Bool :=
  readsHeld s (chunkLoads s o u land) || (chunkStores s o u land).any (fun p => bankHolds s p.1 p.2 true)

/-- How a chunk stands: it may run, waits, or is skipped for chafe or for a failed landing move. -/
inductive ChunkCase where
  | run | wait | skipChafed | skipFailed
deriving DecidableEq, Repr

/-- One arena block of a chunk (R236). An unbound or foreign name is left to R155. -/
def blockCase (s : State) (acct : Nat) (o : OpEnt) (b : Nat) : ChunkCase :=
  let e := htGet s b
  let home := e.tier = .mantle && e.frame = nameFrame b
  if e.state = .unbound || e.account != acct then .run
  else if s.tiers.merging.contains b || e.state = .moving then .wait
  else if home then .run
  else if e.state = .chafed then .skipChafed
  else if refused o b then .skipFailed
  else .wait

/-- The landing slot that a 256 B granule holds in a channel, or a free one (R255, R256): its index, and whether it is the
granule's already. -/
def landSlot (s : State) (gc block offset : Nat) : Option (Nat × Bool) :=
  match s.tiers.land.find? (fun p => p.1 / 16384 = gc && p.2.block = block && p.2.offset = offset) with
  | some p => some (p.1 % 16384, true)
  | none => ((List.range 16384).find? (fun i => (mapFind s.tiers.land (gc * 16384 + i)).isNone)).map (fun i => (i, false))

/-- The first byte of a landing slot. -/
def slotAddr (s : State) (gc i : Nat) : Nat :=
  mantleUnhash (nchan s.fuses.variant) (gc / 96) (gc % 96) (actF s flLandSlab 0 * 2 ^ 22 + 256 * i)

/-- The conditions of R256 on a chunk but the slot. -/
def mayLand (s : State) (acct : Nat) (o : OpEnt) (u : Nat) : Bool :=
  let b := blockNo (chunkAddr s o 0 u)
  let e := htGet s b
  opcodeOf o.desc = opSplAcc && (arenaStreams o).contains 0 && e.account = acct && e.tier = .host &&
  (e.state = .home || e.state = .landing) && [Fmt.w32, .b16, .h16].contains (stFormat o.par 0) && actF s flLandValid 0 = 1

/-- The slot in which a chunk may land. -/
def landFor (s : State) (acct : Nat) (o : OpEnt) (u : Nat) : Option (Nat × Bool) :=
  if mayLand s acct o u then
    let a := chunkAddr s o 0 u
    let gc := u % nchan s.fuses.variant
    (landSlot s gc (blockNo a) (a % blockBytes / 256 * 256)).filter (fun p =>
      !p.2 || (mapFind s.tiers.land (gc * 16384 + p.1)).any (fun x => x.fmt = stFmt o.par 0))
  else none

/-- A chunk of an operation as a whole: a failed landing outranks chafe (R236, R275), and an SPL_UPD's write of an export-held
block waits (R261). A landing chunk does not ask where its stream-0 block is. -/
def chunkCase (s : State) (acct : Nat) (o : OpEnt) (u : Nat) : ChunkCase :=
  let land := (landFor s acct o u).isSome
  let bs := (chunkBlocks s o u).filter (fun b => !(land && b = blockNo (chunkAddr s o 0 u)))
  let cs := bs.map (blockCase s acct o)
  let held := opcodeOf o.desc = opSplUpd &&
    (spansBlocks (chunkStores s o u land)).any (fun b => s.tiers.exportHold.any (fun h => h.1 = b))
  if cs.contains .skipFailed then .skipFailed
  else if cs.contains .skipChafed then .skipChafed
  else if cs.contains .wait || held || chunkHeld s o u land then .wait
  else .run

/-- The next chunk of a channel that does not wait, in increasing order. -/
def nextChunk (s : State) (n : Nat) (o : OpEnt) (gc : Nat) : Option Nat :=
  let nc := nchan s.fuses.variant
  ((List.range (o.total / nc + 1)).map (fun i => gc + i * nc)).find? (fun u =>
    u < o.total && !o.units.contains u && chunkCase s (lineAcct s n) o u != .wait)

/-- An SPL operation that runs. -/
def splRuns (o : OpEnt) : Bool :=
  o.dispatched && (opcodeOf o.desc = opSplUpd || opcodeOf o.desc = opSplAcc) && o.track = .running && !o.failed

/-- The requests at a splicer: each line's oldest SPL operation with a chunk to run in the channel (R305, R306). -/
def splReqs (s : State) (gc : Nat) : List Req :=
  s.lines.filterMap (fun p =>
    ((p.2.ops.filter (fun o => splRuns o && (nextChunk s p.1 o gc).isSome)).head?).map (fun o =>
      { cls := dClass o.desc, acct := lineAcct s p.1, key := p.1, cost := 4 * splCost (splWords o), readyAt := (mapFind o.splReady gc).getD (tbNow s),
        deadline := 0, fits := true }))

/-! ### Running a chunk (R236, R237) -/

/-- A chunk that is not processed counts in CHAFED_CHUNKS. -/
def skipChunk (o : OpEnt) (gc u st : Nat) : OpEnt :=
  { opWorse o st with units := setIns o.units u, splReady := mapUpd o.splReady gc none, chafedN := satAdd (2 ^ 32 - 1) o.chafedN 1 }

/-- Stored elements as bytes of their value plane; the padding of the last K8 or K8U block is zero (R47). -/
def storedBytes (f : Fmt) (bits : List Nat) : List Byte :=
  let bs := bits.flatMap (fun b => bytesOf (elemBytes f) b)
  if f.isK8 then fitBytes (ceilDiv bits.length 32 * 32) bs else bs

/-- A write into an arena block or kern output that is dropped makes the operation UNCORRECTABLE (R155). -/
def postPiece (n seq acct : Nat) (mark : Bool) (acc : State × Bool) (p : Nat × List Byte) : State × Bool :=
  let s := acc.1
  let e := htGet s (blockNo p.1)
  if e.state != .unbound && e.account = acct && e.state != .moving && e.tier != .host && !s.tiers.merging.contains (blockNo p.1) then
    let s1 := syncChafe (postAt s n seq acct (frameAddr e p.1) p.2 mark) (blockNo p.1)
    (if mark then wroteMarked s s1 (blockNo p.1) (frameAddr e p.1) p.2.length else s1, acc.2)
  else
    let r := devWrite s (some acct) p.1 p.2 mark
    (r.1, acc.2 || r.2)

/-- Bytes posted at a device address, home block by home block. -/
def postBytes (acc : State × Bool) (n seq acct a : Nat) (bs : List Byte) (mark : Bool) : State × Bool :=
  (pieces a bs).foldl (postPiece n seq acct mark) acc

/-- Bytes posted over spans, in order. -/
def postSpans (n seq acct : Nat) (mark : Bool) : List (Nat × Nat) → List Byte → State × Bool → State × Bool
  | [], _, acc => acc
  | p :: ps, bs, acc => postSpans n seq acct mark ps (bs.drop p.2) (postBytes acc n seq acct p.1 (bs.take p.2) mark)

/-- All stored streams of a chunk written together, kern output included. -/
def writeStreams (s : State) (n : Nat) (o : OpEnt) (u : Nat) (slot : Option Nat) (x : Splicer) (mark : Bool) : State × Bool :=
  let acct := lineAcct s n
  ((x.streams.zipIdx).foldl (fun acc p =>
    match p.1.stored with
    | none => acc
    | some bits =>
      let f := stFormat o.par p.2
      let bs := storedBytes f bits
      let plane := if f.isK8 then p.1.scales.flatMap (bytesOf 1) else bits.map (fun b => BitVec.ofNat 8 (b / 65536))
      match p.2, slot with
      | 0, some a => (postAt acc.1 n o.seq acct a bs mark, acc.2)
      | k, _ => postSpans n o.seq acct mark (planeSpans s o k u) plane (postBytes acc n o.seq acct (valueSpan s o k u).1 bs mark)) (s, false))

/-- The census of a chunk's stream-0 stores (R115, R237): pairs by their W32 value. -/
def chunkCensus (c : Census) (f : Fmt) (x : Splicer) (mark : Bool) : Census :=
  match (x.streams[0]?).bind (fun t => t.stored.map (fun b => (b, t.scales))) with
  | none => c
  | some (bits, scales) =>
    (bits.zipIdx).foldl (fun acc p =>
      let k := match f with
        | .k8 | .k8u => classifyK8 (scales.getD (p.2 / 32) 0) p.1
        | .t8 => classify .w32 (p.1 % 65536 * 65536 + p.1 / 65536 * 256)
        | g => classify g p.1
      censusAdd acc k (hasFlag (x.flags.getD p.2 0) flagSat) mark) c

/-- Blocks that an SPL_UPD writes and that take GEN at its retire: its arena blocks and DERIVED blocks (R244). -/
def wroteBlocks (s : State) (o : OpEnt) (u : Nat) : List Nat :=
  ((List.range 8).filter (storesInto o)).flatMap (fun k =>
    let bs := spansBlocks (streamSpans s o k u)
    if stKind o.par k = 1 then bs else bs.filter (fun b => (htGet s b).derived))

/-- A landing slot bound and its landing recorded (R256). The first landing into a block binds its landing buffer and
charges the account. -/
def bindLanding (s : State) (acct : Nat) (o : OpEnt) (u i : Nat) (loads : Bool) : State :=
  let a := chunkAddr s o 0 u
  let b := blockNo a
  let gc := u % nchan s.fuses.variant
  let e := htGet s b
  let s1 := if e.land then s else chargeAdd (htSet s b { e with land := true, state := .landing }) acct .mantle 1 0
  let fresh : LandSlot := { block := b, offset := a % blockBytes / 256 * 256, fmt := stFmt o.par 0, replace := false, landed := [] }
  let x := (mapFind s1.tiers.land (gc * 16384 + i)).getD fresh
  let x' := { x with replace := x.replace || !loads, landed := mapMod 0 x.landed (a % 256) (max (chunkLen o u)) }
  { s1 with tiers := { s1.tiers with land := mapUpd s1.tiers.land (gc * 16384 + i) (some x') } }

/-- A chunk run whole (R236, R237, R256). -/
def runChunk (sr : State) (n : Nat) (o : OpEnt) (gc u : Nat) (found : List Found) : State :=
  let acct := lineAcct sr n
  let ws := splWords o
  let land := landFor sr acct o u
  let loads := chunkLoads sr o u land.isSome
  let s := noteAccess (foundMem sr loads found) acct (spansBlocks loads)
  let slot := land.map (fun p => slotAddr s gc p.1 + chunkAddr s o 0 u % 256)
  let was := land.any (fun p => p.2 && (mapFind s.tiers.land (gc * 16384 + p.1)).any (fun x => (mapFind x.landed (chunkAddr s o 0 u % 256)).isSome))
  let len := chunkLen o u
  let x0 : Splicer :=
    { regs := List.replicate len (List.replicate 16 0),
      flags := List.replicate len 0,
      konst := (List.range 16).map (fun i => BitVec.ofNat 32 (pF o.par (0x80 + 4 * i) 31 0)),
      streams := (List.range 8).map (loadStream s acct o u (slot.map (fun a => (a, was)))),
      first := 64 * u,
      seed := BitVec.ofNat 64 (pF o.par 0xC0 63 0),
      step := BitVec.ofNat 64 (pF o.par 0xC8 63 0),
      tensor := spTensor o.desc }
  let x := ws.foldl splInstr x0
  let mark := (x.streams.zipIdx).any (fun p => loadsFrom o p.2 && p.1.chafed.any id)
  let s0 := match land with
    | some p => bindLanding s acct o u p.1 (loadsFrom o 0)
    | none => s
  let r := writeStreams (splSet s0 gc x) n o u slot x mark
  let kept := land.isSome || !badName s (some acct) (valueSpan s o 0 u).1
  let o1 := opFlags { o with units := setIns o.units u, done := if r.2 then o.done else o.done + 1, splReady := mapUpd o.splReady gc none,
                             chafedN := if mark then satAdd (2 ^ 32 - 1) o.chafedN 1 else o.chafedN,
                             census := if spCensus o.desc && kept then chunkCensus o.census (stFormat o.par 0) x mark else o.census,
                             wrote := (o.wrote ++ wroteBlocks s o u).dedup } (flagsOr x.flags)
  let o2 := if mark then opWorse o1 stChafed else o1
  let o3 := if r.2 then { opWorse o2 stUncorrectable with failed := true } else o2
  let s1 := pmuAdd (opKeep (noteWritten r.1 acct (chunkStores s o u land.isSome)) n o3) (0x0E8 + gc / 96) 1 (attrP acct)
  if land.isSome then pmuAdd s1 0x112 1 (attrP acct) else s1

/-- A chunk that could land but finds no slot of its format counts once in POOL_FULL and follows R236. -/
def notePoolFull (s : State) (n : Nat) (o : OpEnt) (gc : Nat) : State :=
  let nc := nchan s.fuses.variant
  let acct := lineAcct s n
  match ((List.range (o.total / nc + 1)).map (fun i => gc + i * nc)).find? (fun u =>
      u < o.total && !o.units.contains u && mayLand s acct o u && (landFor s acct o u).isNone && !o.wset.contains (u, 1)) with
  | some u =>
    let s1 := { s with tiers := { s.tiers with poolFull := satAdd 65535 s.tiers.poolFull 1 } }
    opSet s1 n { o with wset := o.wset ++ [(u, 1)] }
  | none => s

/-- The accesses of the chunks that a channel's splicer would take next and that their banks hold (R219, R220). -/
def splWaits (s : State) (gc : Nat) : State :=
  ((allOps s).filter (fun p => splRuns p.2)).foldl (fun t p =>
    let o := p.2
    let nc := nchan t.fuses.variant
    match ((List.range (o.total / nc + 1)).map (fun i => gc + i * nc)).find? (fun u => u < o.total && !o.units.contains u) with
    | some u => noteWaits (noteWaits t (chunkLoads t o u false) false) (chunkStores t o u false) true
    | none => t) s

/-- The splicer's arbiter grants one chunk of its channel, after every parity job there (R222, R305). A first landing at the
account's hard limit evicts the account's own oldest mantle block first (R168, R256). -/
def execSplChunk (chan : Met (BitVec 10)) (s : State) : Out :=
  let gc := chan.val.toNat
  if nchan s.fuses.variant ≤ gc || quiet s unSplicer || (List.range 32).any (fun b => !(bankGet s (bk gc b)).parity.isEmpty) then .next s
  else
    let s0 := ((allOps s).filter (fun p => splRuns p.2)).foldl (fun t p =>
      match opFind t p.1 p.2.seq with
      | some o => notePoolFull t p.1 o gc
      | none => t) s
    let r := pickNow s0 4096 false (splReqs s0 gc) (mapGet Arb.reset s0.splArb gc)
    let s1 := { s0 with splArb := mapSet Arb.reset s0.splArb gc r.2 }
    match r.1 with
    | none => .next (splWaits s1 gc)
    | some q =>
      match ((lineGet s1 q.key).ops.filter (fun o => splRuns o && (nextChunk s1 q.key o gc).isSome)).head? with
      | none => .next s1
      | some o =>
        match nextChunk s1 q.key o gc with
        | none => .next s1
        | some u =>
          let acct := lineAcct s1 q.key
          let b := blockNo (chunkAddr s1 o 0 u)
          let first := (landFor s1 acct o u).isSome && !(htGet s1 b).land
          (match chunkCase s1 acct o u with
          | .wait => .next s1
          | .skipChafed => .next (opSet (noteGrant s1 q) q.key (skipChunk o gc u stChafed))
          | .skipFailed => .next (opSet (noteGrant s1 q) q.key (skipChunk o gc u stQuotaExceeded))
          | .run =>
            if first && hardOf s1 acct .mantle ≤ charge s1 acct .mantle then
              (if 0 < outgoing s1 acct .mantle then .next s
              else
                match ownVictim s1 acct .mantle with
                | some v => .next (queueMove s v .evict .host (dClass o.desc) 0)
                | none => .next (evictBlocked (opSet (noteGrant s1 q) q.key (skipChunk o gc u stQuotaExceeded)) .mantle))
            else .next (runChunk (noteGrant s1 q) q.key o gc u chan.found))

/-! ### Landing merge (R257) -/

/-- One landed chunk of a slot merged into its granule, from the base die: it overwrites, or each landed element is added under
R63 and rounded once. -/
def mergeChunk (f : Fmt) (replace : Bool) (src dst : Nat) (t : State) (c : Nat × Nat) : State :=
  let n := c.2 * elemBytes f
  let new := (bankBytes t (src + c.1) n).1
  let old := bankBytes t (dst + c.1) n
  let bs :=
    if replace then new
    else (List.range c.2).flatMap (fun j =>
      bytesOf (elemBytes f) (encodeElem f (fAdd (w32Val (loadElem f old.1 [] j).1) (w32Val (loadElem f new [] j).1)).1).1)
  baseStore t (dst + c.1) bs (!replace && old.2)

/-- One landing slot merged into its 256 B granule; a chafed slot chafes all of it. -/
def mergeSlot (s : State) (name key : Nat) (x : LandSlot) : State :=
  let f := (Fmt.ofCode x.fmt).getD .w32
  let src := slotAddr s (key / 16384) (key % 16384)
  let dst := frameBase .mantle (htGet s name).frame + x.offset
  let s1 := x.landed.foldl (mergeChunk f x.replace src dst) s
  if spanChafed s src 256 then (List.range 8).foldl (fun t i => chafeAt t name (dst + 32 * i)) s1 else s1

/-- The splicers merge the landing slots of a block whose move into the mantle has retired: the slots and the charge are
released, LAND returns to 0, and the writes held meanwhile are applied (R156, R257). -/
def landingMerged (s : State) (b : Nat) : State :=
  let e := htGet s b
  if s.tiers.merging.contains b && e.land && e.tier = .mantle then
    let s1 := (s.tiers.land.filter (fun p => p.2.block = b)).foldl (fun t p => mergeSlot t b p.1 p.2) s
    let held := (s.tiers.mergeHeld.filter (fun p => p.1 = b)).map Prod.snd
    let s2 := sigsAfter (applyHeld (syncChafe (htSet (dropLanding s1 b e.account) b { htGet s1 b with land := false }) b) b held) b
    pmuAdd { s2 with tiers := { s2.tiers with merges := satAdd 65535 s2.tiers.merges 1 } } 0x113 1 (attrP e.account)
  else s

end Sys2Proof.Machine
end

