-- ==== Sys2Proof/Machine/Ledger.lean ====
section
/-! DEFINITION. What a tile-op leaves with the PMU: the slots of the array ledger, random tagging and sample records
(R408 to R412). -/

set_option Elab.async false

namespace Sys2Proof.Machine

open Sys2Proof

/-- The attributes of a tile-op's slots and waves (R403, R409). -/
def tileAttr (t : TileOp) : Attr := attrM t.account (if t.bight then mBight else mBraid)

/-- The next state of a strand's tagging LFSR (R411). -/
def lfsrNext (x : W32) : W32 := (x >>> 1) ^^^ (if x.getLsbD 0 then 0x80200003 else 0)

/-- A tile-op's ISSUE steps the LFSR; the flag says whether the tile-op of the account is tagged (R411). -/
def tagStep (s : State) (strand acct : Nat) : State × Bool :=
  let r := actF s flSmpRate 0
  let x := lfsrNext (strandGet s strand).lfsr
  let s1 := strandSet s strand { strandGet s strand with lfsr := x }
  (s1, r != 0 && x.toNat % 2 ^ r = 0 && (actF s flSmpAccEn 0 = 0 || actF s flSmpAcct 0 = acct))

/-- An instant of a sample record; all ones for an event not reached. -/
def sampleTime (t : Option W64) : List Byte := bytesOf 8 ((t.map BitVec.toNat).getD (2 ^ 64 - 1))

/-- The 64 B sample record of a tagged tile-op (R412). -/
def sampleRecord (strand : Nat) (t : TileOp) (stopped : Bool) (now : W64) : List Byte :=
  bytesOf 4 (t.line + t.account * 2 ^ 16 + (16 * strand + t.array) * 2 ^ 24 + (if t.bight then 2 ^ 30 else 0) + (if stopped then 2 ^ 31 else 0)) ++
  bytesOf 4 t.seq ++ bytesOf 4 t.tile ++
  bytesOf 4 (t.flags.toNat + t.rows * 2 ^ 8 + (if t.bight then 0 else t.tile / 2 ^ 32 % 2 ^ 8) * 2 ^ 18) ++
  sampleTime (some t.tIssue) ++ sampleTime t.tReady ++ sampleTime t.tFirst ++ sampleTime t.tLast ++ sampleTime t.tDrain ++
  sampleTime (if stopped then none else some now)

/-- A sample record put into the ring, under the rules of R117. -/
def sampleWrite (s : State) (rec_ : List Byte) : State :=
  let lg := actF s flSmpLog2 0
  if lg = 0 then s
  else if (s.pmu.sampleTail + 1) % 2 ^ lg = s.pmu.sampleHead % 2 ^ lg then
    raiseCause { s with pmu := { s.pmu with sampleLost := satAdd 4095 s.pmu.sampleLost 1 } } irqRingLoss
  else
    let s1 := putStruct s (actF s flSmpBase 0 + 64 * s.pmu.sampleTail) rec_
    { s1 with pmu := { s1.pmu with sampleTail := (s.pmu.sampleTail + 1) % 2 ^ lg } }

/-- A tile-op ends: its pending slots are resolved by R409 and its sample is written. -/
def tileEnd (s : State) (strand : Nat) (t : TileOp) (stopped : Bool) : State :=
  let lost := if stopped then t.pendingSlots else min t.discardSlots t.pendingSlots
  let s1 := if t.pendingSlots - lost = 0 then s else pmuAdd s (0x000 + strand) (t.pendingSlots - lost) (tileAttr t)
  let s2 := if lost = 0 then s1 else pmuAdd s1 (0x004 + strand) lost (tileAttr t)
  if t.tagged then sampleWrite s2 (sampleRecord strand t stopped s.tb.now) else s2

/-! ### Tile-ops of a strand -/

/-- A tile-op of the strand replaced. A tile-op is known by its line, operation, tile and phase. -/
def tileSame (a b : TileOp) : Bool := a.line = b.line && a.seq = b.seq && a.tile = b.tile && a.phase = b.phase && a.array = b.array

def tileSet (s : State) (strand : Nat) (t : TileOp) : State :=
  strandSet s strand { strandGet s strand with tiles := (strandGet s strand).tiles.map (fun x => if tileSame x t then t else x) }

/-- A tile-op belongs to a sweep. -/
def Sweep.has (w : Sweep) (t : TileOp) : Bool := !t.bight && t.line = w.line && t.seq = w.seq && t.sweep = w.no

/-- A tile-op leaves its strand, and its sweep with the last of its tile-ops. -/
def tileDrop (s : State) (strand : Nat) (t : TileOp) : State :=
  let x := strandGet s strand
  let ts := x.tiles.filter (fun y => !tileSame y t)
  strandSet s strand { x with tiles := ts, sweeps := x.sweeps.filter (fun w => ts.any w.has) }

/-- The oldest tile-op of an array at a stage. -/
def tileAt (s : State) (strand array : Nat) (st : TileStage) : Option TileOp :=
  (strandGet s strand).tiles.find? (fun t => t.array = array && t.stage = st)

/-- Tile-ops of an operation. -/
def tilesOf (s : State) (strand n seq : Nat) : List TileOp :=
  (strandGet s strand).tiles.filter (fun t => t.line = n && t.seq = seq)

/-- Tile-ops of an operation that match stop without writing (R95, R148). -/
def tilesStop (s : State) (strand n seq : Nat) (p : TileOp → Bool) : State × Nat :=
  let ts := (tilesOf s strand n seq).filter p
  (ts.foldl (fun t x => tileDrop (tileEnd t strand x true) strand x) s, ts.length)

/-- The length of 32 wave-times at the rate at which the strand last ran (in 10^6 waves per second), in nanoseconds. -/
def swapNs (s : State) (strand : Nat) : Nat :=
  let r := (strandGet s strand).waves.headD 0
  if r = 0 then 0 else ceilDiv 32000 r

/-- A tile-op holds its array from ISSUE until 32 wave-times after its LAST_WAVE (R408). -/
def holdsArray (s : State) (strand : Nat) (t : TileOp) : Bool :=
  match t.stage with
  | .issued | .ready | .first => true
  | _ =>
    match t.tLast with
    | some l => s.tb.now.toNat < l.toNat + swapNs s strand
    | none => false

/-- Arrays of a strand that hold no tile-op. -/
def freeArrays (s : State) (strand : Nat) : List Nat :=
  (List.range 16).filter (fun a => !((strandGet s strand).tiles.any (fun t => t.array = a && holdsArray s strand t)))

/-- The array's one tile-op has entered its last k-block, so that the arbiter may grant the array to the next sweep (R83).
No event tells when a tile-op enters it: whether it has is a free value (log entry 115). -/
def freesSoon (s : State) (strand a : Nat) : Bool :=
  match (strandGet s strand).tiles.filter (fun t => t.array = a && holdsArray s strand t) with
  | [t] => t.stage = .first && Config.lastBlock s.free (16 * strand + a)
  | _ => false

/-- Arrays that a sweep may be granted (R83). -/
def grantArrays (s : State) (strand : Nat) : List Nat :=
  (List.range 16).filter (fun a => (freeArrays s strand).contains a || freesSoon s strand a)

/-- A list in an order that the spec leaves open: each place is chosen by a draw. `base` keeps two orders of one draw
apart. -/
def freeOrder {α : Type} (draw base : Nat) : Nat → List α → List α
  | 0, _ => []
  | fuel + 1, xs =>
    if xs.isEmpty then []
    else
      let i := Config.orderChoice draw (base + fuel) % xs.length
      (xs.drop i).take 1 ++ freeOrder draw base fuel (xs.take i ++ xs.drop (i + 1))

end Sys2Proof.Machine
end

