-- ==== Sys2Proof/Machine/VecProg.lean ====
section
/-! DEFINITION. VEC_OP descriptors and their programs: fields (R108), the program block (R105, R106), one group of lanes
(R102, R103), stores with block scaling (R48), and the reduction tree (R107). -/

set_option Elab.async false

namespace Sys2Proof.Machine

open Sys2Proof

def vcX (d : BitVec 512) : Place := { eye := dF d 8 48 48 = 1, addr := dF d 8 47 0 }
def vcXFmt (d : BitVec 512) : Nat := dF d 8 52 49
def vcY (d : BitVec 512) : Place := { eye := dF d 0x10 48 48 = 1, addr := dF d 0x10 47 0 }
def vcYFmt (d : BitVec 512) : Nat := dF d 0x10 52 49
def vcYb (d : BitVec 512) : Nat := dF d 0x10 54 53
def vcYUse (d : BitVec 512) : Bool := dF d 0x10 55 55 = 1
def vcZ (d : BitVec 512) : Place := { eye := dF d 0x18 48 48 = 1, addr := dF d 0x18 47 0 }
def vcZFmt (d : BitVec 512) : Nat := dF d 0x18 52 49
def vcRows (d : BitVec 512) : Nat := dF d 0x20 19 0
def vcCols (d : BitVec 512) : Nat := dF d 0x20 39 20
def vcTensor (d : BitVec 512) : Nat := dF d 0x20 63 40
def vcLdx (d : BitVec 512) : Nat := dF d 0x28 19 0
def vcLdy (d : BitVec 512) : Nat := dF d 0x28 39 20
def vcLdz (d : BitVec 512) : Nat := dF d 0x28 59 40
def vcProg (d : BitVec 512) : Place := { eye := dF d 0x30 48 48 = 1, addr := dF d 0x30 47 0 }
def vcLen (d : BitVec 512) : Nat := if dF d 0x30 52 49 = 0 then 16 else dF d 0x30 52 49
def vcEpi (d : BitVec 512) : Bool := dF d 0x30 53 53 = 1
def vcCensus (d : BitVec 512) : Bool := dF d 0x30 54 54 = 1
def vcRed (d : BitVec 512) : Nat := dF d 0x30 57 55
def vcRedSrc (d : BitVec 512) : Nat := dF d 0x30 60 58
def vcCommit (d : BitVec 512) : Bool := dF d 0x30 61 61 = 1
def vcAux (d : BitVec 512) : Place := { eye := dF d 0x38 48 48 = 1, addr := dF d 0x38 47 0 }
def vcAuxUse (d : BitVec 512) : Nat := dF d 0x38 50 49
/-- Strides between batches in epilogue form, in 64 B units (R108, R109). -/
def vcZStride (d : BitVec 512) : Nat := dF d 8 25 0
def vcYStride (d : BitVec 512) : Nat := dF d 0x20 25 0

def vcXF (d : BitVec 512) : Fmt := (Fmt.ofCode (vcXFmt d)).getD .w32
def vcYF (d : BitVec 512) : Fmt := (Fmt.ofCode (vcYFmt d)).getD .w32
def vcZF (d : BitVec 512) : Fmt := (Fmt.ofCode (vcZFmt d)).getD .w32

/-! ### The program block -/

/-- Micro-op word i of a program block (R105). -/
def vecWord (prog : List Byte) (i : Nat) : Nat := natOfBytes ((prog.drop (4 * i)).take 4)
def vecWords (len : Nat) (prog : List Byte) : List Nat := (List.range len).map (vecWord prog)
/-- Constants k0 to k7 at bytes 0x40 to 0x5F. -/
def vecConsts (prog : List Byte) : List W32 := (List.range 8).map (fun i => BitVec.ofNat 32 (natOfBytes ((prog.drop (0x40 + 4 * i)).take 4)))

def vwOpc (w : Nat) : Nat := bitsAt w 5 0
def vwDst (w : Nat) : Nat := bitsAt w 8 6
def vwSa (w : Nat) : Nat := bitsAt w 12 9
def vwSb (w : Nat) : Nat := bitsAt w 16 13
def vwSc (w : Nat) : Nat := bitsAt w 20 17

/-- No reserved OPC or bit in the words that run (R106). -/
def vecProgOk (len : Nat) (prog : List Byte) : Bool :=
  (vecWords len prog).all (fun w => (microVec (vwOpc w)).isSome && w / 2 ^ 21 = 0)

/-- The cost of a micro-op in wave-times (R103). -/
def microCost (opc : Nat) : Nat := if 0x10 ≤ opc && opc ≤ 0x17 then 4 else 1

/-- The summed cost c of a program (R111). -/
def vecCost (len : Nat) (prog : List Byte) : Nat := (vecWords len prog).foldl (fun n w => n + microCost (vwOpc w)) 0

/-- One micro-op word on every lane of an engine. -/
def vecStep (x : Lanes) (w : Nat) : Lanes :=
  match microVec (vwOpc w) with
  | some f => vecOpAll f (vwDst w) (vwSa w) (vwSb w) (vwSc w) x
  | none => x

/-- A program on lanes that have loaded v0 and v1 with their flags (R102, R105). -/
def vecRun (len : Nat) (prog : List Byte) (loads : List ((W32 × Byte) × (W32 × Byte))) : Lanes :=
  let start : Lanes := { regs := loads.map (fun p => [p.1.1, p.2.1, 0, 0, 0, 0, 0, 0]),
                         flags := loads.map (fun p => p.1.2 ||| p.2.2), konst := vecConsts prog }
  (vecWords len prog).foldl vecStep start

/-! ### Loads and stores (R102) -/

/-- A stored element as the register value it loads as, with the flags of the load. `scale` is the scale byte of its K8 or
K8U block. -/
def vecLoad (f : Fmt) (bits scale : Nat) : W32 × Byte :=
  match f with
  | .i8 => (BitVec.ofInt 32 (BitVec.ofNat 8 bits).toInt, 0)
  | .i32 => (BitVec.ofNat 32 bits, 0)
  | .u1 => (BitVec.ofNat 32 bits, 0)
  | .k8 => toW32 (decodeK8 false scale bits)
  | .k8u => toW32 (decodeK8 true scale bits)
  | f => toW32 (decodeElem f bits)

/-- The value of a register that Z's format reads (R102). -/
def vecValue (f : Fmt) (w : W32) : FVal := if f.isInt then FVal.ofInt w.toInt else w32Val w

/-- Stored bits, scale bytes and flags of a row's run of values (R48, R52 to R54); a run of K8 or K8U starts on a block. -/
def vecStore (f : Fmt) (vs : List W32) : List Nat × List Nat × List Byte :=
  if f.isK8 then storeElems f vs
  else
    let rs := vs.map (fun w => encodeElem f (vecValue f w))
    (rs.map Prod.fst, [], rs.map Prod.snd)

/-! ### Row reductions (R107) -/

/-- `combine` of R107 by RED_OP, with its flags. -/
def redCombine (op : Nat) (a b : W32 × Byte) : W32 × Byte :=
  let r := match op with
    | 1 => opAdd a.1 b.1 0
    | 2 => opMax a.1 b.1 0
    | _ => opMin a.1 b.1 0
  (r.1, a.2 ||| b.2 ||| r.2)

/-- One level of the tree: neighbours w apart combined. After it, only every second of the list's entries counts. -/
def redLevel (op : Nat) : List (W32 × Byte) → List (W32 × Byte)
  | a :: b :: r => redCombine op a b :: redLevel op r
  | r => r

/-- `tree` of R107: eleven levels over at most 2,048 values. -/
def redTree (op : Nat) (vs : List W32) : Option (W32 × Byte) :=
  ((List.range 11).foldl (fun l _ => redLevel op l) (vs.map (fun v => (v, 0)))).head?

/-- `red_row` of R107, a group at a time: the row's value so far combined with the next group's tree. -/
def redRow (op : Nat) (acc : Option (W32 × Byte)) (vs : List W32) : Option (W32 × Byte) :=
  match acc, redTree op vs with
  | none, t => t
  | some a, some t => some (redCombine op a t)
  | some a, none => some a

end Sys2Proof.Machine
end

