-- ==== Sys2Proof/Machine/Capstan.lean ====
section
/-! DEFINITION. The capstan: dispatch of each collective, signatures, data and its reduction order, acknowledgements, the
norm contribution, the verdict, timeouts (R247, R248, R303, R336 to R345, R352). -/

set_option Elab.async false

namespace Sys2Proof.Machine

open Sys2Proof

/-! ### Which element goes where (R341) -/

/-- Block and half of element e in each dimension of a piece [lo, lo + size) that the dimensions cut in turn: a block has
q = ceil(size ÷ (128 × n)) × 128 elements, its first half the first q ÷ 2. -/
def cutBlocks : List Nat → Nat → Nat → List (Nat × Bool)
  | [], _, _ => []
  | n :: ns, size, e =>
    let q := ceilDiv size (128 * n) * 128
    let b := e / q
    (b, e - b * q < q / 2) :: cutBlocks ns (min q (size - b * q)) (e - b * q)

/-- Block and half of element e in each dimension: REDUCE_SCATTER's blocks have COUNT elements each, block r for rank r. -/
def ccBlocks (s : State) (d : BitVec 512) (e : Nat) : List (Nat × Bool) :=
  if ccOp d = cxReduceScatter then
    let q := ceilDiv (ccCount d) 128 * 128
    (digits (ccDims s d) (e / ccCount d)).map (fun b => (b, decide (e % ccCount d < q / 2)))
  else if ccOp d = cxVerdict then ((digits (ccDims s d).reverse e).reverse).map (fun b => (b, true))
  else cutBlocks (ccDims s d) (ccCount d) e

/-- Elements that a member's sends run over. -/
def ccElems (s : State) (d : BitVec 512) : Nat :=
  if ccOp d = cxReduceScatter then axisSize s (ccAxis d) * ccCount d
  else if ccOp d = cxVerdict then (ccDims s d).foldl (· * ·) 1 else ccCount d

/-- The first k dimensions agree with the blocks. -/
def agrees (me : List Nat) (bc : List (Nat × Bool)) (k : Nat) : Bool :=
  (List.range k).all (fun j => me.getD j 0 = (bc.getD j (0, false)).1)

/-- The neighbour in a ring of n, by increasing rank for a first half and by decreasing rank for a second half. -/
def ringNext (n me : Nat) (first : Bool) : Nat := if first then (me + 1) % n else (me + n - 1) % n

/-- Where the member at `me` sends element e on its way to be reduced: in each dimension, unless it holds the block's end. -/
def reduceDests (dims me : List Nat) (bc : List (Nat × Bool)) : List (Nat × Nat) :=
  (List.range dims.length).filterMap (fun k =>
    let n := dims.getD k 1
    let b := bc.getD k (0, false)
    if agrees me bc k && 1 < n && me.getD k 0 != b.1 then some (k, ringNext n (me.getD k 0) b.2) else none)

/-- The dimension through which the member at `me` learns element e in the gather: the first in which it is not the
owner's; none for the owner itself. -/
def learnsBy (dims me : List Nat) (bc : List (Nat × Bool)) : Nat :=
  ((List.range dims.length).find? (fun k => me.getD k 0 != (bc.getD k (0, false)).1)).getD dims.length

/-- Where the member at `me` sends element e in the gather: to every other member along each dimension below the one
through which it learned the element, the last dimension first (R341: the gather runs in the reverse order). -/
def gatherDests (dims me : List Nat) (bc : List (Nat × Bool)) : List (Nat × Nat) :=
  ((List.range (learnsBy dims me bc)).reverse).flatMap (fun k =>
    ((List.range (dims.getD k 1)).filter (fun c => c != me.getD k 0)).map (fun c => (k, c)))

/-- Every place to which the member at `me` sends element e. -/
def ccDests (s : State) (d : BitVec 512) (me : List Nat) (e : Nat) : List (Nat × Nat) :=
  let dims := ccDims s d
  let r := me.getD 0 0
  let others := ((List.range (dims.getD 0 1)).filter (fun c => c != r)).map (fun c => (0, c))
  match ccOp d with
  | 0 => let bc := ccBlocks s d e; reduceDests dims me bc ++ gatherDests dims me bc
  | 1 => reduceDests dims me (ccBlocks s d e)
  | 2 => others
  | 3 => others
  | 4 => if r = axisRank s (ccAxis d) then [(0, ccPeer d)] else []
  | 5 => if r = ccPeer d then [(0, axisRank s (ccAxis d))] else []
  | 7 => gatherDests dims me (ccBlocks s d e)
  | 8 => if r = ccPeer d then [] else [(0, ccPeer d)]
  | 9 => if r = ccPeer d then others else []
  | _ => []

/-- Elements that this member is sent, by peer (dimension and coordinate). -/
def ccIncoming (s : State) (d : BitVec 512) : List ((Nat × Nat) × Nat) :=
  let me := ccOwn s d
  (ccPeers s d).map (fun p =>
    let u := me.set p.1 p.2
    (p, ((List.range (ccElems s d)).map (fun e =>
      ((ccDests s d u e).filter (fun q => q = (p.1, me.getD p.1 0))).length)).sum))

/-- Peers to which this member sends. -/
def ccOutgoing (s : State) (d : BitVec 512) : List (Nat × Nat) :=
  ((List.range (ccElems s d)).flatMap (ccDests s d (ccOwn s d))).dedup

/-! ### Data frames -/

/-- One element on its way to a peer: dimension and coordinate, step, element index, the element and its size in bytes,
and the blocks it belongs to (a frame holds elements of one block). -/
structure CollTx where
  dim : Nat
  coord : Nat
  step : Nat
  e : Nat
  x : CollElem
  size : Nat
  key : List (Nat × Bool)
deriving DecidableEq, Repr

/-- TAG's step byte: 1 to 255, cyclically; 0 is a SEND's. -/
def stepByte (i : Nat) : Nat := 1 + (i - 1) % 255

/-- Two elements may follow one another in a frame. -/
def follows (a b : CollTx) : Bool := a.dim = b.dim && a.coord = b.coord && a.step = b.step && a.size = b.size && a.key = b.key && b.e = a.e + 1

/-- Elements cut into frames of at most 256 B. -/
def cutFrames : List CollTx → List (List CollTx)
  | [] => []
  | x :: xs =>
    match cutFrames xs with
    | (y :: g) :: gs => if follows x y && (g.length + 2) * x.size ≤ 256 then (x :: y :: g) :: gs else [x] :: (y :: g) :: gs
    | gs => [x] :: gs

/-- The payload of a group, filled with zeros to 32 B, and its chafe mask (R342). -/
def groupPayload (g : List CollTx) : List Byte × Nat :=
  let raw := g.flatMap (fun x => bytesOf x.size x.x.bits)
  let size := (g.head?.map CollTx.size).getD 1
  let mask := ((List.range 8).filter (fun j => (g.zipIdx).any (fun p =>
    p.1.x.chafed && p.2 * size < 32 * (j + 1) && 32 * j < (p.2 + 1) * size))).foldl (fun m j => m + 2 ^ j) 0
  (fitBytes (ceilDiv raw.length 32 * 32) raw, mask)

/-- A COLL frame for a group. -/
def dataFrame (s : State) (o : OpEnt) (g : List CollTx) : Option (Nat × Frame) :=
  g.head?.map (fun x =>
    let a := ccAxisOf o.desc x.dim
    let dev := ccDev s o.desc x.dim x.coord
    let p := groupPayload g
    (dev, mkFrame s ftColl (BitVec.ofNat 4 (2 + a)) 0 dev (BitVec.ofNat 32 (ccNum o a + x.step * 2 ^ 24)) (BitVec.ofNat 64 x.e)
      (BitVec.ofNat 32 p.2) p.1))

/-- Elements sent: at once to a member that has returned CLEAR, else kept until it does (R339). -/
def sendElems (s : State) (n : Nat) (o : OpEnt) (xs : List CollTx) : State :=
  let frames := (cutFrames xs).filterMap (dataFrame s o)
  let go := frames.filter (fun p => !o.coll.clearWait.contains p.1)
  let keep := (frames.filter (fun p => o.coll.clearWait.contains p.1)).map Prod.snd
  let bytes := (go.map (fun p => p.2.payload.length)).sum
  let c := { o.coll with txWait := o.coll.txWait ++ keep, bytesTx := o.coll.bytesTx + bytes }
  (go.map Prod.snd).foldl sendFrame (opSet s n { o with coll := c })

/-! ### The reduction (R341, R342) -/

/-- An element of the input as a partial value in the wire format. -/
def toWire (d : BitVec 512) (x : CollElem) : CollElem :=
  if ccWireFmt d = ccFmt d then x else { x with bits := (encodeElem (ccWireFmt d) (decodeElem (ccFmt d) x.bits)).1 }

/-- `red` of R341: one rounding to the wire format; I32 SUM wraps. -/
def redElem (d : BitVec 512) (acc x : CollElem) : CollElem × Byte :=
  let f := ccWireFmt d
  let chafed := acc.chafed || x.chafed
  let a := decodeElem f acc.bits
  let b := decodeElem f x.bits
  if f = .i32 then
    (match ccRedop d with
    | 0 => ({ bits := (acc.bits + x.bits) % 2 ^ 32, chafed := chafed }, 0)
    | 1 => ({ bits := if fLt a b then x.bits else acc.bits, chafed := chafed }, 0)
    | _ => ({ bits := if fLt b a then x.bits else acc.bits, chafed := chafed }, 0))
  else if ccRedop d = 0 then
    let r := fAdd a b
    let e := encodeElem f r.1
    ({ bits := e.1, chafed := chafed }, consumed [a, b] ||| r.2 ||| e.2)
  else
    let r := opPick (ccRedop d = 1) (toW32 a).1 (toW32 b).1
    let e := encodeElem f (w32Val r.1)
    ({ bits := e.1, chafed := chafed }, r.2 ||| e.2)

/-- The operation's progress while elements are worked on: its entry and the elements it sends. -/
structure CollAcc where
  o : OpEnt
  tx : List CollTx
deriving DecidableEq, Repr

/-- Where a final element of a reduction lies in OUT. -/
def outIndex (s : State) (d : BitVec 512) (e : Nat) : Nat :=
  if ccOp d = cxReduceScatter then e - axisRank s (ccAxis d) * ccCount d else e

def collSetOut (o : OpEnt) (i : Nat) (x : CollElem) : OpEnt :=
  { o with coll := { o.coll with out := mapUpd o.coll.out i (some x) } }

/-- Step numbers before dimension k of a reduction. -/
def stepsBefore (dims : List Nat) (k : Nat) : Nat := ((dims.take k).map (fun n => n - 1)).sum

/-- Element e becomes known in its final form at this member: it goes to OUT and on in the gather. -/
def learnElem (s : State) (e : Nat) (x : CollElem) (a : CollAcc) : CollAcc :=
  let d := a.o.desc
  let dims := ccDims s d
  let me := ccOwn s d
  let bc := ccBlocks s d e
  let size := if ccOp d = cxVerdict then 8 else fmtBytes (ccFmt d)
  let dests := if ccOp d = cxReduceScatter then [] else gatherDests dims me bc
  { o := collSetOut a.o (outIndex s d e) x,
    tx := a.tx ++ dests.map (fun q =>
      { dim := q.1, coord := q.2, step := stepByte (stepsBefore dims dims.length + 1 + q.1), e := e, x := x, size := size,
        key := bc.take (q.1 + 1) }) }

/-- The partial value v of element e enters dimension k at this member: it starts on its way when this member begins the
block's ring, waits for the ring otherwise, and is final after the last dimension (R341). -/
def enterDim (s : State) (e : Nat) : Nat → Nat → CollElem → CollAcc → CollAcc
  | 0, _, _, a => a
  | fuel + 1, k, v, a =>
    let d := a.o.desc
    let dims := ccDims s d
    let me := ccOwn s d
    let bc := ccBlocks s d e
    if dims.length ≤ k then
      let r := encodeElem (ccFmt d) (decodeElem (ccWireFmt d) v.bits)
      let x : CollElem := if ccFmt d = .i32 then v else { v with bits := r.1 }
      learnElem s e x { a with o := opFlags a.o (if ccFmt d = .i32 then 0 else r.2) }
    else
      let n := dims.getD k 1
      let b := bc.getD k (0, false)
      if n ≤ 1 then enterDim s e fuel (k + 1) v a
      else if me.getD k 0 = ringNext n b.1 b.2 then
        { a with tx := a.tx ++ [{ dim := k, coord := ringNext n (me.getD k 0) b.2, step := stepByte (stepsBefore dims k + 1), e := e,
                                  x := v, size := fmtBytes (ccWireFmt d), key := bc.take (k + 1) }] }
      else { a with o := { a.o with coll := { a.o.coll with part := mapUpd a.o.coll.part (4 * e + k) (some v) } } }

/-- A partial value of element e arrives along dimension k: it is combined with this member's own and goes on. -/
def reduceElem (s : State) (k e : Nat) (acc : CollElem) (a : CollAcc) : CollAcc :=
  match mapFind a.o.coll.part (4 * e + k) with
  | none => a
  | some own =>
    let d := a.o.desc
    let dims := ccDims s d
    let me := ccOwn s d
    let n := dims.getD k 1
    let bc := ccBlocks s d e
    let b := bc.getD k (0, false)
    let r := redElem d acc own
    let o1 := { opFlags a.o r.2 with coll := { a.o.coll with part := mapUpd a.o.coll.part (4 * e + k) none } }
    let m := me.getD k 0
    if m = b.1 then enterDim s e (dims.length + 1) (k + 1) r.1 { a with o := o1 }
    else
      let i := if b.2 then (m + n - b.1) % n else (b.1 + n - m) % n
      { o := o1,
        tx := a.tx ++ [{ dim := k, coord := ringNext n m b.2, step := stepByte (stepsBefore dims k + i), e := e, x := r.1,
                         size := fmtBytes (ccWireFmt d), key := bc.take (k + 1) }] }

/-! ### The member's own part -/

/-- An element of a number of bytes at a place. -/
def inElem (s : State) (n : Nat) (d : BitVec 512) (i : Nat) : CollElem :=
  let r := placeNat s (lineStrand s n) (lineAcct s n) ((ccInPlace d).plus (i * ccInSize d)) (ccInSize d)
  { bits := r.1, chafed := r.2 }

/-- The contribution of a VERDICT, with ABORT as its account had it at dispatch (R343); `n3` holds that bit. -/
def verdictWord (o : OpEnt) (x : CollElem) : CollElem := { x with bits := withBits x.bits 40 1 o.n3 }

/-- Elements sent in one step to a peer's rank: step s goes to rank (r + s) mod n (R341). -/
def txTo (s : State) (d : BitVec 512) (c e : Nat) (x : CollElem) : CollTx :=
  let n := axisSize s (ccAxis d)
  let me := (ccOwn s d).getD 0 0
  { dim := 0, coord := c, step := if ccPair d then 0 else stepByte ((c + n - me) % n), e := e, x := x, size := fmtBytes (ccFmt d), key := [] }

/-- The member's own input worked into the exchange. -/
def ownPart (s : State) (o : OpEnt) : CollAcc :=
  let d := o.desc
  let xs := o.coll.input
  let count := ccCount d
  let me := (ccOwn s d).getD 0 0
  let each (f : Nat → CollElem → CollAcc → CollAcc) : CollAcc := (xs.zipIdx).foldl (fun a p => f p.2 p.1 a) { o := o, tx := [] }
  let peers := (List.range (axisSize s (ccAxis d) - 1)).map (fun i => (me + 1 + i) % axisSize s (ccAxis d))
  let toAll (off : Nat) : List CollTx := peers.flatMap (fun c => ((xs.drop off).take count).zipIdx.map (fun p => txTo s d c p.2 p.1))
  match ccOp d with
  | 0 => each (fun e x a => enterDim s e ((ccDims s d).length + 1) 0 (toWire d x) a)
  | 1 => each (fun e x a => enterDim s e ((ccDims s d).length + 1) 0 (toWire d x) a)
  | 2 =>
    let o1 := (xs.zipIdx).foldl (fun t p => collSetOut t (me * count + p.2) p.1) o
    { o := o1, tx := toAll 0 }
  | 3 =>
    let o1 := (((xs.drop (me * count)).take count).zipIdx).foldl (fun t p => collSetOut t (me * count + p.2) p.1) o
    { o := o1, tx := peers.flatMap (fun c => ((xs.drop (c * count)).take count).zipIdx.map (fun p => txTo s d c p.2 p.1)) }
  | 4 => { o := o, tx := (xs.zipIdx).map (fun p => txTo s d (ccPeer d) p.2 p.1) }
  | 7 => (xs.head?.map (fun x => learnElem s (ccIndex s d (ccOwn s d)) (verdictWord o x) { o := o, tx := [] })).getD { o := o, tx := [] }
  | 8 =>
    if me = ccPeer d then { o := (xs.zipIdx).foldl (fun t p => collSetOut t (me * count + p.2) p.1) o, tx := [] }
    else { o := o, tx := (xs.zipIdx).map (fun p => txTo s d (ccPeer d) p.2 p.1) }
  | 9 =>
    if me = ccPeer d then { o := (xs.zipIdx).foldl (fun t p => collSetOut t p.2 p.1) o, tx := toAll 0 } else { o := o, tx := [] }
  | _ => { o := o, tx := [] }

/-- The input may be read now: every block in kern or the mantle, or refused its demand move (R174). -/
def ccReadable (s : State) (n : Nat) (o : OpEnt) : Bool :=
  (ccReads s o.desc).all (fun p => readReady s (lineAcct s n) o (fun t => t = .host) p.1 p.2)

/-- Every output block may be written in place (R174), and no bank holds the write (R220, R222). -/
def ccWritable (s : State) (n : Nat) (o : OpEnt) : Bool :=
  (spansBlocks (ccWrites s o.desc)).all (reachable s (lineAcct s n) o (fun t => t = .host)) &&
  (ccWrites s o.desc).all (fun p => !bankHolds s p.1 p.2 true)

/-! ### Data received -/

/-- The peer (dimension and coordinate) that a device is. -/
def peerOf (s : State) (d : BitVec 512) (dev : Nat) : Option (Nat × Nat) :=
  (ccPeers s d).find? (fun p => ccDev s d p.1 p.2 = dev)

/-- What a data frame brings: its peer, whether its elements are partial values, their indices and size. -/
structure RxData where
  peer : Nat × Nat
  partials : Bool
  first : Nat
  count : Nat
  size : Nat
deriving DecidableEq, Repr

/-- The reading of a data frame by an operation. -/
def rxData (s : State) (o : OpEnt) (f : Frame) : Option RxData :=
  let d := o.desc
  (peerOf s d f.src.toNat).map (fun p =>
    let e0 := f.addr.toNat
    let bc := ccBlocks s d e0
    let partials := ccReduces d && (bc.getD p.1 (0, false)).1 != p.2
    let size := if ccOp d = cxVerdict then 8 else if partials then fmtBytes (ccWireFmt d) else fmtBytes (ccFmt d)
    let most := f.payload.length / (max 1 size)
    let same (i : Nat) : Bool := e0 + i < ccElems s d &&
      (!(ccReduces d || ccOp d = cxVerdict) || (ccBlocks s d (e0 + i)).take (p.1 + 1) == bc.take (p.1 + 1))
    { peer := p, partials := partials, first := e0, count := ((List.range most).takeWhile same).length, size := size })

/-- Element i of a frame, with the mark of its 32 B piece (R342). -/
def rxElem (f : Frame) (size i : Nat) : CollElem :=
  { bits := natOfBytes ((f.payload.drop (i * size)).take size),
    chafed := (List.range 8).any (fun j => f.aux.getLsbD j && i * size < 32 * (j + 1) && 32 * j < (i + 1) * size) }

/-- The frame's elements may be worked on: a partial value waits for this member's own value of its dimension. -/
def rxApplies (o : OpEnt) (r : RxData) : Bool :=
  !r.partials || (List.range r.count).all (fun i => (mapFind o.coll.part (4 * (r.first + i) + r.peer.1)).isSome)

/-- A frame's elements worked into the operation. -/
def rxApply (s : State) (r : RxData) (f : Frame) (a : CollAcc) : CollAcc :=
  let d := a.o.desc
  let count := ccCount d
  (List.range r.count).foldl (fun a i =>
    let e := r.first + i
    let x := rxElem f r.size i
    if r.partials then reduceElem s r.peer.1 e x a
    else if ccReduces d || ccOp d = cxVerdict then learnElem s e x a
    else if ccOp d = cxRecv || ccOp d = cxBroadcast then { a with o := collSetOut a.o e x }
    else { a with o := collSetOut a.o (r.peer.2 * count + e) x }) a

/-- Elements still to come from a device, less those that came; with the last of them the sender is acknowledged (R344). -/
def rxCount (s : State) (n : Nat) (o : OpEnt) (dev k : Nat) : State × OpEnt :=
  let left := mapGet 0 o.coll.rxWait dev - k
  let o1 := { o with coll := { o.coll with rxWait := mapSet 0 o.coll.rxWait dev left } }
  let s1 := opSet s n o1
  (if left = 0 && 0 < mapGet 0 o.coll.rxWait dev then sendCtl s1 o1 dev 3 0 else s1, o1)

/-- Works on one received frame that applies, if any is kept. -/
def rxOne (s : State) (n : Nat) (o : OpEnt) : Option State :=
  match o.coll.early.find? (fun f => (rxData s o f).any (rxApplies o)) with
  | none => none
  | some f =>
    (rxData s o f).map (fun r =>
      let o1 := { o with coll := { o.coll with early := o.coll.early.erase f } }
      let a := rxApply s r f { o := o1, tx := [] }
      let c := rxCount s n a.o f.src.toNat r.count
      sendElems c.1 n c.2 a.tx)

/-- Every kept frame that applies is worked on (fuel: more than the frames there are). -/
def rxAll (n seq : Nat) : Nat → State → State
  | 0, s => s
  | fuel + 1, s =>
    match opFind s n seq with
    | none => s
    | some o =>
      match rxOne s n o with
      | some s1 => rxAll n seq fuel s1
      | none => s

/-- The operation's progress: its input is read once it can be and the member's part begins; then the frames that have
come are worked on. -/
def collPump (s : State) (n seq : Nat) : State :=
  match opFind s n seq with
  | none => s
  | some o =>
    if !isColl o || o.track = .cancelPending || quiet s unLinks then s
    else if o.coll.started then rxAll n seq (o.coll.early.length + 1) s
    else if !ccReadable s n o then s
    else
      let s0 := noteAccess s (lineAcct s n) (spansBlocks (ccReads s o.desc))
      let xs := (List.range (ccInCount s o.desc)).map (inElem s n o.desc)
      let o1 := { o with coll := { o.coll with started := true, input := xs } }
      let a := ownPart s o1
      let s1 := sendElems s0 n a.o a.tx
      rxAll n seq (o.coll.early.length + 1) s1

/-- The progress of every collective (after a move or a refused demand move lets one read). -/
def collPumpAll (s : State) : State := (collOps s).foldl (fun t p => collPump t p.1 p.2.seq) s

/-! ### Signatures (R339, R340) -/

/-- Signatures of an axis beyond 256 wait on credit; those that come within it have their credit returned. -/
def admitEarly (s : State) : State :=
  (List.range 8).foldl (fun t a =>
    let mine := t.net.earlySigs.filter (fun e => e.axis = a)
    (mine.take 256).foldl (fun u e =>
      match e.owed with
      | none => u
      | some w =>
        let u1 := { u with net := { u.net with earlySigs := u.net.earlySigs.map (fun x => if x = e then { x with owed := none } else x) } }
        returnCredit u1 w.1 w.2.1 w.2.2) t) s

/-- A signature that differs ends the collective at this member: ABORT to every member, CANCELLED_PEER, MISMATCH (R340). -/
def mismatch (s : State) (n : Nat) (o : OpEnt) (dev : Nat) : State :=
  let s1 := sendAborts s o stCancelledPeer
  collFail s1 n { o with coll := { o.coll with mismatch := true, failRank := ccRankOf s o.desc dev } } stCancelledPeer

/-- A signature compared with this member's own: equal ones are answered with CLEAR. -/
def takeSig (s : State) (n : Nat) (o : OpEnt) (dev : Nat) (sig : W64) (tag : W32) : State :=
  if sig = ccSig o.desc && (ccOp o.desc != cxRecv || tag = ccTag o.desc) then
    let o1 := { o with coll := { o.coll with sigWait := o.coll.sigWait.filter (fun x => x != dev), waitSince := tbNow s, slowDevs := [] } }
    sendCtl (opSet s n o1) o1 dev 1 0
  else mismatch s n o dev

/-- The early signatures and aborts of a collective that is being dispatched: the lowest rank that differs names the
failure (R345). -/
def takeEarly (s : State) (n seq : Nat) : State :=
  match opFind s n seq with
  | none => s
  | some o =>
    let d := o.desc
    let mine (e : EarlySig) : Bool :=
      o.coll.nums.any (fun p => p.1 = e.axis && p.2 = e.num) &&
      (if ccPair d then (peerOf s d e.src).isSome && e.src = memberOf s (ccAxis d) (ccPeer d) && e.sig.toNat % 16 = cxSend && ccOp d = cxRecv
       else e.sig.toNat % 16 != cxSend)
    let es := s.net.earlySigs.filter mine
    let s1 := admitEarly { s with net := { s.net with earlySigs := s.net.earlySigs.filter (fun e => !mine e) } }
    match es.find? (fun e => e.abort) with
    | some e => collFail s1 n { o with coll := { o.coll with failRank := ccRankOf s d e.src } } stCancelledPeer
    | none =>
      let bad := es.filter (fun e => e.sig != ccSig d || (ccOp d = cxRecv && e.tag != ccTag d))
      let ranked := bad.foldl (fun (b : Option EarlySig) e =>
        match b with
        | none => some e
        | some x => if (ccRankOf s d e.src).getD 0 < (ccRankOf s d x.src).getD 0 then some e else some x) none
      match ranked with
      | some e => mismatch s1 n o e.src
      | none => es.foldl (fun t e =>
          match opFind t n seq with
          | some x => takeSig t n x e.src e.sig e.tag
          | none => t) s1

/-! ### Dispatch (R338, R339) -/

/-- The numbers that the collective takes, and the counters after it (R339, R343). -/
def takeNumbers (s : State) (d : BitVec 512) : State × List (Nat × Nat) :=
  let a := ccAxis d
  let key := a * 16384 + ccPeer d
  if ccOp d = cxSend then
    let k := mapGet 0 s.net.sendNum key
    ({ s with net := { s.net with sendNum := mapSet 0 s.net.sendNum key ((k + 1) % 2 ^ 24) } }, [(a, k)])
  else if ccOp d = cxRecv then
    let k := mapGet 0 s.net.recvNum key
    ({ s with net := { s.net with recvNum := mapSet 0 s.net.recvNum key ((k + 1) % 2 ^ 24) } }, [(a, k)])
  else
    (ccAxisList d).foldl (fun acc x =>
      let k := mapGet 0 acc.1.net.axisNum x
      ({ acc.1 with net := { acc.1.net with axisNum := mapSet 0 acc.1.net.axisNum x ((k + 1) % 2 ^ 24) } }, acc.2 ++ [(x, k)])) (s, [])

/-- The dispatch that every collective shares: a derived output is rejected (R153), a lost member completes PEER_LOST with
nothing sent (R338), and otherwise the signatures go out and the member's part begins. -/
def dispatchColl (s : State) (n : Nat) (o : OpEnt) : State :=
  let d := o.desc
  if touchesDerived s (ccWrites s d) then rejectOp s n o stDescInvalid
  else
    let t := takeNumbers s d
    let o1 := { opDispatch s o with n3 := if abortPending s (lineAcct s n) then 1 else 0 }
    let o2 := { o1 with coll := { Coll.reset with nums := t.2, waitSince := tbNow s } }
    match (ccMembers s d).find? (peerGone s) with
    | some dev => collFail t.1 n { o2 with coll := { o2.coll with failRank := ccRankOf s d dev } } stPeerLost
    | none =>
      let outs := (ccOutgoing s d).map (fun p => ccDev s d p.1 p.2)
      let ins := (ccIncoming s d).filter (fun p => 0 < p.2)
      let all := if ccOp d = cxBarrier then ccMembers s d else []
      let c : Coll := { o2.coll with
        sigWait := all ++ ins.map (fun p => ccDev s d p.1.1 p.1.2),
        clearWait := all ++ outs,
        ackWait := outs,
        rxWait := ins.foldl (fun m p => mapSet 0 m (ccDev s d p.1.1 p.1.2) p.2) [] }
      let o3 := { o2 with coll := c }
      let s1 := opSet t.1 n o3
      let s2 := o3.coll.clearWait.foldl (fun u dev => sendCtl u o3 dev 0 0) s1
      noteLine (collPump (takeEarly s2 n o.seq) n o.seq) n

/-- The dispatch of a CAP_COLL with the given OP. -/
def onColl (s : State) (n op : Nat) : Out :=
  match undispatched s n with
  | some o => if ccOp o.desc = op then onDispatch s n opCapColl (dispatchColl s n) else .next s
  | none => .next s

/-- ALL_REDUCE. -/
def execAllReduce (line : LineNo) (s : State) : Out := onColl s line.toNat cxAllReduce
/-- REDUCE_SCATTER. -/
def execReduceScatter (line : LineNo) (s : State) : Out := onColl s line.toNat cxReduceScatter
/-- ALL_GATHER. -/
def execAllGather (line : LineNo) (s : State) : Out := onColl s line.toNat cxAllGather
/-- ALL_TO_ALL. -/
def execAllToAll (line : LineNo) (s : State) : Out := onColl s line.toNat cxAllToAll
/-- SEND. -/
def execSend (line : LineNo) (s : State) : Out := onColl s line.toNat cxSend
/-- RECV. -/
def execRecv (line : LineNo) (s : State) : Out := onColl s line.toNat cxRecv
/-- BARRIER. -/
def execBarrier (line : LineNo) (s : State) : Out := onColl s line.toNat cxBarrier
/-- VERDICT. -/
def execVerdict (line : LineNo) (s : State) : Out := onColl s line.toNat cxVerdict
/-- GATHER. -/
def execGather (line : LineNo) (s : State) : Out := onColl s line.toNat cxGather
/-- BROADCAST. -/
def execBroadcast (line : LineNo) (s : State) : Out := onColl s line.toNat cxBroadcast

/-! ### Frames of a collective -/

/-- TAG's sequence number and the axis of a COLL or COLL_CTL frame. -/
def fNum (f : Frame) : Nat := f.tag.toNat % 2 ^ 24
def fAxis (f : Frame) : Nat := f.tc.toNat - 2

/-- The collective in flight that a frame belongs to; `pair` tells the numbers of SEND and RECV from those of the axis. -/
def collFor (s : State) (f : Frame) (pair : Bool) (op : Nat) : Option (Nat × OpEnt) :=
  (collOps s).find? (fun p =>
    let d := p.2.desc
    p.2.coll.nums.contains (fAxis f, fNum f) && p.2.track != .cancelPending &&
    (if pair then ccOp d = op && memberOf s (ccAxis d) (ccPeer d) = f.src.toNat else !ccPair d))

/-- A COLL_CTL frame of a kind. -/
def isCtl (k : Nat) (f : Frame) : Bool := f.typ = ftCollCtl && f.aux.toNat % 4 = k && 2 ≤ f.tc.toNat && f.tc.toNat ≤ 9

/-- The signature in a frame is a SEND's: its numbers are pair numbers. -/
def isPairSig (f : Frame) : Bool := f.addr.toNat % 16 = cxSend

/-- The collective of an axis number has been dispatched here already, in 24-bit serial order. -/
def numTaken (s : State) (f : Frame) : Bool :=
  let next := if isPairSig f then
      mapGet 0 s.net.recvNum (fAxis f * 16384 + ((List.range (axisSize s (fAxis f))).find? (fun r => memberOf s (fAxis f) r = f.src.toNat)).getD 0)
    else mapGet 0 s.net.axisNum (fAxis f)
  let gap := (next + 2 ^ 24 - fNum f) % 2 ^ 24
  0 < gap && gap < 2 ^ 23

/-- A signature or an abort of a collective that is not dispatched yet is kept (R339, R340). -/
def keepEarly (s : State) (k : Nat) (f : Frame) (abort : Bool) : State × Bool :=
  let held := (s.net.earlySigs.filter (fun e => e.axis = fAxis f)).length
  let full := !abort && 256 ≤ held
  let e : EarlySig := {
    axis := fAxis f, src := f.src.toNat, num := fNum f, sig := f.addr,
    tag := BitVec.ofNat 32 (natOfBytes (f.payload.take 4)), abort := abort,
    owed := if full then some (k, vcOf f, cellsOf f) else none }
  ({ s with net := { s.net with earlySigs := s.net.earlySigs ++ [e] } }, !full)

/-- A SIGNATURE is compared with this member's own, or kept until the collective is dispatched (R339, R340). -/
def execCollSignature (link : LinkNo) (f : Frame) (s : State) : Out :=
  seqRx link f (isCtl 0) (fun t =>
    match collFor t f (isPairSig f) cxRecv with
    | some p =>
      let tag := BitVec.ofNat 32 (natOfBytes (f.payload.take 4))
      let t1 := takeSig t p.1 p.2 f.src.toNat f.addr tag
      (collPump t1 p.1 p.2.seq, true)
    | none => if numTaken t f then (t, true) else keepEarly t link.val f false) s

/-- A CLEAR lets the data kept for its sender flow (R339). -/
def execCollClear (link : LinkNo) (f : Frame) (s : State) : Out :=
  seqRx link f (isCtl 1) (fun t =>
    match collFor t f (isPairSig f) cxSend with
    | none => (t, true)
    | some p =>
      let o := p.2
      let go := o.coll.txWait.filter (fun g => g.dst.toNat = f.src.toNat)
      let c := { o.coll with
        clearWait := o.coll.clearWait.filter (fun x => x != f.src.toNat),
        txWait := o.coll.txWait.filter (fun g => g.dst.toNat != f.src.toNat),
        bytesTx := o.coll.bytesTx + (go.map (fun g => g.payload.length)).sum,
        waitSince := tbNow t, slowDevs := [] }
      (go.foldl sendFrame (opSet t p.1 { o with coll := c }), true)) s

/-- An ABORT ends a collective that this member has not retired (R340); of one not dispatched yet it is kept. -/
def execCollAbort (link : LinkNo) (f : Frame) (s : State) : Out :=
  seqRx link f (isCtl 2) (fun t =>
    let found := if isPairSig f then (collFor t f true cxRecv).orElse (fun _ => collFor t f true cxSend) else collFor t f false 0
    match found with
    | some p =>
      let o1 := { p.2 with coll := { p.2.coll with failRank := ccRankOf t p.2.desc f.src.toNat } }
      (collFail t p.1 o1 stCancelledPeer, true)
    | none => if numTaken t f then (t, true) else keepEarly t link.val f true) s

/-- An ACK counts one receiver of the final step (R344). -/
def execCollAck (link : LinkNo) (f : Frame) (s : State) : Out :=
  seqRx link f (isCtl 3) (fun t =>
    match collFor t f (isPairSig f) cxSend with
    | none => (t, true)
    | some p =>
      let c := { p.2.coll with ackWait := p.2.coll.ackWait.filter (fun x => x != f.src.toNat), waitSince := tbNow t, slowDevs := [] }
      (opSet t p.1 { p.2 with coll := c }, true)) s

/-- A data frame is worked into its collective (R341, R342). -/
def execColl (link : LinkNo) (f : Frame) (s : State) : Out :=
  seqRx link f (fun g => g.typ = ftColl && 2 ≤ g.tc.toNat && g.tc.toNat ≤ 9) (fun t =>
    match collFor t f (decide (f.tag.toNat / 2 ^ 24 = 0)) cxRecv with
    | none => (t, true)
    | some p =>
      let o := p.2
      let c := { o.coll with early := o.coll.early ++ [f], bytesRx := o.coll.bytesRx + f.payload.length, waitSince := tbNow t, slowDevs := [] }
      (collPump (opSet t p.1 { o with coll := c }) p.1 o.seq, true)) s

/-! ### Retire (R343, R344) -/

/-- Nothing of the exchange is outstanding. -/
def collComplete (o : OpEnt) : Bool :=
  let c := o.coll
  c.started && c.sigWait.isEmpty && c.clearWait.isEmpty && c.ackWait.isEmpty && c.rxWait.isEmpty && c.early.isEmpty && c.txWait.isEmpty

/-- The square of an element, rounded once to W32 (R343). -/
def squareOf (f : Fmt) (bits : Nat) : W32 × Byte :=
  if f = .i32 then
    let i := signedOf 32 bits
    toW32 (FVal.ofInt (i * i))
  else
    let w := toW32 (decodeElem f bits)
    let r := opMul w.1 w.1 0
    (r.1, w.2 ||| r.2)

/-- The elements of the block that this member holds when the reduction finishes. -/
def normElems (s : State) (o : OpEnt) : List CollElem :=
  let d := o.desc
  let me := ccOwn s d
  ((List.range (ccElems s d)).filter (fun e => (ccBlocks s d e).map Prod.fst == me)).filterMap (fun e =>
    mapFind o.coll.out (outIndex s d e))

/-- The contribution of NORM over those elements: the sum of squares in the order of `red_row`, with the flags of the
reduction and of the squares; NORM = 2 adds to the word there (R247, R343). -/
def normWord (s : State) (n : Nat) (o : OpEnt) : Nat × Bool :=
  let xs := normElems s o
  let sq := xs.map (fun x => squareOf (ccFmt o.desc) x.bits)
  let sum := ((chunksOf 2048 (sq.length + 1) (sq.map Prod.fst)).foldl (redRow 1) none).getD (0, 0)
  let fl := o.flags ||| flagsOr (sq.map Prod.snd) ||| sum.2
  let mark := xs.any CollElem.chafed
  if ccNorm o.desc = 2 then
    let old := devReadN s (some (lineAcct s n)) (ccAux o.desc) 8
    let r := opAdd (BitVec.ofNat 32 old.1) sum.1 0
    (r.1.toNat + (fl ||| r.2 ||| BitVec.ofNat 8 (old.1 / 2 ^ 32)).toNat * 2 ^ 32, mark || old.2)
  else (sum.1.toNat + fl.toNat * 2 ^ 32, mark)

/-- 2^i as a W32 word, −126 ≤ i ≤ 127. -/
def pow2W32 (i : Int) : W32 := BitVec.ofNat 32 ((i + 127).toNat * 2 ^ 23)

/-- A field of a step record. -/
def recW32 (rec_ : List Byte) (off : Nat) : W32 := BitVec.ofNat 32 (pF rec_ off 31 0)

/-- The sum of the contributions with the flags of R248, and ABORT from any participant. -/
def verdictSum (cs : List Nat) : W32 × Byte × Bool :=
  cs.foldl (fun acc c =>
    let r := opAdd acc.1 (BitVec.ofNat 32 c) 0
    (r.1, acc.2.1 ||| r.2 ||| BitVec.ofNat 8 (c / 2 ^ 32), acc.2.2 || c.testBit 40)) (0, 0, false)

/-- The verdict procedure of R248 on a step record. -/
def verdictRecord (rec_ : List Byte) (cs : List Nat) : List Byte :=
  let sum := verdictSum cs
  let one : W32 := 0x3F800000
  let k0 := signedOf 8 (pF rec_ 0x20 7 0)
  let k := max (-24) (min 40 k0)
  let ovf := (sum.1.toNat / 2 ^ 23 % 256 = 255) || hasFlag sum.2.1 (flagSat ||| flagNanIn ||| flagInfIn ||| flagInv)
  let gm := pow2W32 (-k)
  let norm := (opMul (opSqrt sum.1 0 0).1 gm 0).1
  let b0 := recW32 rec_ 0x28
  let bnd : W32 := if fLt .zero (w32Val b0) then b0 else 0x7F800000
  let above := !ovf && fLt (w32Val bnd) (w32Val norm)
  let clip := pF rec_ 0x24 16 16 = 1
  let skip := ovf || sum.2.2 || (above && !clip)
  let gmul : W32 := if skip then 0 else if above then (opMul gm (opDiv bnd norm 0).1 0).1 else gm
  let t : W32 := if skip then recW32 rec_ 0x38 else recW32 rec_ 0x38 + 1
  let tw := (roundW32 (FVal.ofInt (t.toNat : Int))).1
  let beta (w : W32) : W32 := (opExp2 (opMul tw (opLog2 w 0 0).1 0).1 0 0).1
  let bc1 : W32 := if skip then 0 else (opRcp (opSub one (beta (recW32 rec_ 0x30)) 0).1 0 0).1
  let bc2s : W32 := if skip then 0 else (opRsqrt (opSub one (beta (recW32 rec_ 0x34)) 0).1 0 0).1
  let run := pF rec_ 0x20 31 16
  let grow := pF rec_ 0x24 15 0
  let run1 := min 65535 (run + 1)
  let up := !ovf && grow != 0 && grow ≤ run1 && k < 40
  let k' : Int := if ovf then max (k - 1) (-24) else if up then k + 1 else k
  let run' := if ovf || up then 0 else run1
  let bit (b : Bool) (i : Nat) : Nat := if b then 2 ^ i else 0
  bytesOf 4 (bit skip 0 + bit (!skip && above) 1 + bit ovf 2 + bit above 3 + bit sum.2.2 4 + intBits 8 k * 256) ++
  bytesOf 4 norm.toNat ++ bytesOf 4 gmul.toNat ++ bytesOf 4 bc1.toNat ++ bytesOf 4 bc2s.toNat ++ bytesOf 4 0 ++
  bytesOf 8 ((pF rec_ 0x18 63 0 + 1) % 2 ^ 64) ++
  bytesOf 1 (intBits 8 k') ++ bytesOf 1 (pF rec_ 0x20 15 8) ++ bytesOf 2 run' ++
  (rec_.drop 0x24).take 8 ++ bytesOf 4 (pow2W32 k').toNat ++ (rec_.drop 0x30).take 8 ++ bytesOf 4 t.toNat ++ (rec_.drop 0x3C).take 4

/-- Elements written to OUT, the chafed ones with their granules marked (R342). -/
def writeOut (s : State) (n : Nat) (o : OpEnt) : State × Bool :=
  let strand := lineStrand s n
  let acct := lineAcct s n
  let size := fmtBytes (ccFmt o.desc)
  let xs := o.coll.out
  let bytes := xs.flatMap (fun p => bytesOf size p.2.bits)
  if bytes.isEmpty then (s, false)
  else
    let r := placeWrite s strand acct (ccOutPlace o.desc) bytes false
    (xs.filter (fun p => p.2.chafed)).foldl (fun acc p =>
      let w := placeWrite acc.1 strand acct ((ccOutPlace o.desc).plus (p.1 * size)) (bytesOf size p.2.bits) true
      (w.1, acc.2 || w.2)) r

/-- The retire of a collective: outputs, the contribution word or the step record, and the record (R343, R344). -/
def collRetire (s : State) (n : Nat) (o : OpEnt) : State :=
  let d := o.desc
  let acct := lineAcct s n
  let s0 := noteWritten s acct (ccWrites s d)
  let chafedIn := o.coll.out.any (fun p => p.2.chafed)
  let r : State × Bool × Bool :=
    if ccOp d = cxVerdict then
      let rec_ := devRead s (some acct) (ccAux d) 64
      let mark := chafedIn || rec_.2
      let w := devWrite s0 (some acct) (ccAux d) (verdictRecord rec_.1 (o.coll.out.map (fun p => p.2.bits))) mark
      (w.1, w.2, mark)
    else
      let w := writeOut s0 n o
      if ccNorm d = 0 then (w.1, w.2, chafedIn)
      else
        let c := normWord s n o
        let v := devWrite w.1 (some acct) (ccAux d) (bytesOf 8 c.1) c.2
        (v.1, w.2 || v.2, chafedIn || c.2)
  let fall := inPlaceRead s acct o (fun t => t = .host) (spansBlocks (ccReads s d))
  let o1 := if fall then opWorse o stOkFallback else o
  let o2 := if r.2.2 then opWorse o1 stChafed else o1
  let o3 := if r.2.1 then opWorse o2 stUncorrectable else o2
  finishOp (countColl r.1 n o3.status) n o3 stOk (collBytes o3)

/-! ### Timeouts (R352, R297) -/

/-- The timeout of a collective's wait in µs: each axis stretched by SLOW among its own members, the longest of them. -/
def collTimeoutUs (s : State) (o : OpEnt) : Nat :=
  ((ccAxisList o.desc).map (fun a =>
    let slow := (List.range (axisSize s a)).any (fun r =>
      o.coll.slowDevs.contains (memberOf s a r) || (peerGet s (memberOf s a r)).stat.getLsbD 0)
    actF s flAxTimeout a * (if slow then actF s flAxSlowMult a else 1))).foldl max 0

/-- Devices from which a frame is awaited. -/
def awaited (o : OpEnt) : List Nat :=
  let c := o.coll
  (c.sigWait ++ c.clearWait ++ (if c.started then c.rxWait.map Prod.fst ++ c.ackWait else [])).dedup

/-- The lowest rank from which a frame is awaited (R345). -/
def lowestAwaited (s : State) (o : OpEnt) : Option Nat :=
  ((awaited o).filterMap (ccRankOf s o.desc)).foldl (fun m r => some (match m with | none => r | some x => min x r)) none

/-- A wait past its timeout: the collective completes COLLECTIVE_TIMEOUT and ABORT goes to the members (R352); a SYSTEM
stopper whose flush outlasts the stretched timeout of its axis completes likewise (R297). -/
def execCollectiveTimeout (line : LineNo) (seq : Seq) (s : State) : Out :=
  let n := line.toNat
  match opFind s n seq.toNat with
  | none => .next s
  | some o =>
    if isColl o then
      (if !(awaited o).isEmpty && o.track != .cancelPending && o.coll.waitSince + collTimeoutUs s o * 1000 ≤ tbNow s then
        let s1 := sendAborts s o stCollectiveTimeout
        .next (collFail s1 n { o with coll := { o.coll with failRank := lowestAwaited s o } } stCollectiveTimeout)
      else .next s)
    else if opcodeOf o.desc = opStopper && stopScope o.desc = 4 && o.total = 1 && o.track = .running then
      let a := stopAxis o.desc
      let us := actF s flAxTimeout a * actF s flAxSlowMult a
      let mine (f : FlushSt) : Bool := f.line = n && f.seq = o.seq
      if s.net.flushes.any (fun f => mine f && !f.waiting.isEmpty) && o.cDisp + o.n2 + us * 1000 ≤ tbNow s then
        let s1 := { s with net := { s.net with flushes := s.net.flushes.filter (fun f => !mine f) } }
        .next (finishOp s1 n o stCollectiveTimeout (stopperBytes s o))
      else .next s
    else .next s

end Sys2Proof.Machine
end

