-- ==== Sys2Proof/Machine/Snapshot.lean ====
section
/-! DEFINITION. Evaluation snapshots: dispatch with its export holds, the reading and export of each source block, the
header (R259 to R263, R354). -/

set_option Elab.async false

namespace Sys2Proof.Machine

open Sys2Proof

def snFmt (d : BitVec 512) : Fmt := (Fmt.ofCode (snSrcFmt d)).getD .w32
def snOut (d : BitVec 512) : Fmt := (Fmt.ofCode (snOutFmt d)).getD .w32
def snIsT8 (d : BitVec 512) : Bool := snFmt d = .t8

/-- Chunks of 64 elements of the source. -/
def snChunks (d : BitVec 512) : Nat := ceilDiv (snCount d) 64
/-- Elements of chunk u. -/
def snChunkLen (d : BitVec 512) (u : Nat) : Nat := min 64 (snCount d - 64 * u)

/-- Where chunk u of the master plane and of the tail plane lies (R229). -/
def snAddr (s : State) (d : BitVec 512) (u : Nat) : Nat :=
  let nc := nchan s.fuses.variant
  splName s (u % nc) (actF s flArenaFirst (snArena d)) (snPos d + u / nc * (64 * elemBytes (snFmt d)))

/-- The address of element j of chunk u in the tail plane. -/
def snTailAddr (s : State) (d : BitVec 512) (u j : Nat) : Nat :=
  let nc := nchan s.fuses.variant
  splName s (u % nc) (actF s flArenaFirst (snArena d)) (snTail d + u / nc * 64 + j)

/-- The spans of chunk u's tail bytes: a plane at 32 mod 64 crosses a 256 B granule in every fourth chunk. -/
def snTailSpans (s : State) (d : BitVec 512) (u : Nat) : List (Nat × Nat) :=
  if !snIsT8 d then []
  else
    let pos := snTail d + u / nchan s.fuses.variant * 64
    let n := snChunkLen d u
    let m := min n (256 - pos % 256)
    (snTailAddr s d u 0, m) :: (if m < n then [(snTailAddr s d u m, n - m)] else [])

/-- Everything that chunk u reads. -/
def snSpans (s : State) (d : BitVec 512) (u : Nat) : List (Nat × Nat) :=
  (snAddr s d u, snChunkLen d u * elemBytes (snFmt d)) :: snTailSpans s d u

/-- The source blocks of the master plane, each once, in the order of their first chunk. -/
def snBlocks (s : State) (d : BitVec 512) : List Nat :=
  ((List.range (snChunks d)).map (fun u => blockNo (snAddr s d u))).dedup

/-- Every arena block that the snapshot holds. -/
def snHolds (s : State) (d : BitVec 512) : List Nat := spansBlocks ((List.range (snChunks d)).flatMap (snSpans s d))

/-- Row 4 of R262. -/
def snDispatchOk (s : State) (n : Nat) (d : BitVec 512) : Bool :=
  let nc := nchan s.fuses.variant
  let top := actF s flArenaSlabs (snArena d) * 2 ^ 22
  actF s flArenaValid (snArena d) = 1 && actF s flArenaAcct (snArena d) = lineAcct s n &&
  snPos d + planeSpan nc (snCount d) (64 * elemBytes (snFmt d)) ≤ top &&
  (!snIsT8 d || snTail d + planeSpan nc (snCount d) 64 ≤ top)

/-- The step record that a SNAPSHOT reads at its dispatch. -/
def snRecSpans (d : BitVec 512) : List (Nat × Nat) := if snRec d = 0 then [] else [(snRec d, 64)]

/-- A SNAPSHOT is dispatched: checked, its record's STEP read, its source held for the export (R261, R262). `par` keeps
the record's STEP. A record whose read is held (R179, R220) holds the dispatch. -/
def execSnapshot (line : LineNo) (s : State) : Out :=
  let n := line.toNat
  onDispatch s n opSnapshot (fun o =>
    let d := o.desc
    if (views s).any (fun v => !snDispatchOk v n d) then rejectOp s n o stDescInvalid
    else if readsHeld s (snRecSpans d) then noteWaits s (snRecSpans d) false
    else
      let rec_ : List Byte × Bool := if snRec d = 0 then ([], false) else devRead s (some (lineAcct s n)) (snRec d) 64
      let o1 := { opDispatch s o with par := fitBytes 8 (rec_.1.drop 0x18), total := (snBlocks s d).length }
      let o2 := if rec_.2 then opWorse o1 stChafed else o1
      let s0 := noteAccess s (lineAcct s n) (spansBlocks (snRecSpans d))
      if snPeer d && peerGone s (snDev d) then snapEnd s0 n o2 stPeerLost
      else
        let holds := (snHolds s d).map (fun b => (b, n, o.seq))
        let put : PutStream := { line := n, seq := o.seq, id := s.net.nextId, outstanding := 0, headerSent := false }
        let s1 := { s0 with tiers := { s0.tiers with exportHold := s0.tiers.exportHold ++ holds } }
        let s2 := if snPeer d then { s1 with net := { s1.net with puts := s1.net.puts ++ [put], nextId := s1.net.nextId + 1 } } else s1
        noteLine (opSet s2 n o2) n)

/-! ### Export -/

/-- One source element converted to OUT_FMT, with its flags and chafe; a chafed one is the canonical NaN with the source's
sign (R260, R263). -/
def snElem (d : BitVec 512) (vals tail : List Byte) (chafed : Bool) (j : Nat) : Nat × Byte :=
  let x := loadElem (snFmt d) vals tail j
  if chafed then (nanBits ((snOut d).layout.getD layoutW32) (x.1.getLsbD 31), 0)
  else
    let r := encodeElem (snOut d) (w32Val x.1)
    (r.1, x.2 ||| r.2)

/-- A chunk as it is exported: its number, bytes and flags, and which of its elements are chafed. -/
structure SnChunk where
  u : Nat
  bytes : List Byte
  flags : Byte
  bad : List Bool

/-- Chunk u as it is exported. An element's chafe is that of its own granules. -/
def snChunk (s : State) (n : Nat) (d : BitVec 512) (u : Nat) : SnChunk :=
  let acct := lineAcct s n
  let w := elemBytes (snFmt d)
  let m := snChunkLen d u
  let vals := (devRead s (some acct) (snAddr s d u) (m * w)).1
  let tail := (snTailSpans s d u).flatMap (fun p => (devRead s (some acct) p.1 p.2).1)
  let bad := (List.range m).map (fun j => (devRead s (some acct) (snAddr s d u + j * w) w).2 ||
    (snIsT8 d && (devRead s (some acct) (snTailAddr s d u j) 1).2))
  let es := (List.range m).map (fun j => snElem d vals tail (bad.getD j false) j)
  { u := u, bytes := es.flatMap (fun e => bytesOf (fmtBytes (snOut d)) e.1), flags := flagsOr (es.map Prod.snd), bad := bad }

/-- The chafe mask of exported elements by 32 B of their bytes (AUX of a PUT, R324). -/
def snMask (d : BitVec 512) (bad : List Bool) : W32 :=
  bad.zipIdx.foldl (fun m p => if p.1 then m ||| BitVec.ofNat 32 (2 ^ (p.2 * fmtBytes (snOut d) / 32)) else m) 0

/-- A PUT frame of a stream. -/
def putFrame (s : State) (d : BitVec 512) (id a : Nat) (bs : List Byte) (mask : W32) : Frame :=
  mkFrame s ftPut 0 0 (snDev d) (BitVec.ofNat 32 id) (BitVec.ofNat 64 a) mask (fitBytes (ceilDiv bs.length 32 * 32) bs)

/-- The PUT stream of an operation. -/
def putOf (s : State) (n seq : Nat) : Option PutStream := s.net.puts.find? (fun p => p.line = n && p.seq = seq)

def putSet (s : State) (p : PutStream) : State :=
  { s with net := { s.net with puts := s.net.puts.map (fun q => if q.id = p.id then p else q) } }

/-- Bytes exported at a destination address: a PUT frame with its chafe mask (R354), or a write into the host window, a header
without Relaxed Ordering (R260, R300). -/
def snWrite (s : State) (n : Nat) (o : OpEnt) (a : Nat) (bs : List Byte) (mask : W32) (header : Bool) : State :=
  if snPeer o.desc then
    match putOf s n o.seq with
    | some p => sendFrame (putSet s { p with outstanding := p.outstanding + 1 }) (putFrame s o.desc p.id a bs mask)
    | none => s
  else (devWriteAs (!header) s (some (lineAcct s n)) a bs false).1

/-- The 64 B header of R260. -/
def snHeader (s : State) (o : OpEnt) : List Byte :=
  let d := o.desc
  bytesOf 4 0x534E4150 ++ bytesOf 4 (snTensor d + snOutFmt d * 2 ^ 24) ++ bytesOf 8 (snCount d) ++ fitBytes 8 o.par ++
  bytesOf 2 o.n1 ++ bytesOf 2 o.n2 ++ bytesOf 4 o.flags.toNat ++ bytesOf 8 s.tb.now.toNat ++ List.replicate 24 0

/-- The header is written once every element is out, and for a peer once every data PUT is acknowledged (R354). `n3` is 1
from then on. -/
def snFinish (s : State) (n seq : Nat) : State :=
  match opFind s n seq with
  | none => s
  | some o =>
    let acked := !snPeer o.desc || (putOf s n seq).any (fun p => p.outstanding = 0)
    if opcodeOf o.desc = opSnapshot && o.dispatched && o.units.length = o.total && o.n3 = 0 && acked && o.track != .cancelPending then
      snWrite (opSet s n { o with n3 := 1 }) n o (snDest o.desc) (snHeader s o) 0 true
    else s

/-- The snapshot has written everything, its header included. -/
def snDone (s : State) (n : Nat) (o : OpEnt) : Bool :=
  o.n3 = 1 && (!snPeer o.desc || (putOf s n o.seq).any (fun p => p.outstanding = 0))

/-- Chunks whose master granules lie in a block. -/
def chunksIn (s : State) (d : BitVec 512) (b : Nat) : List Nat :=
  (List.range (snChunks d)).filter (fun u => blockNo (snAddr s d u) = b)

/-- Holds that remain after some of the source blocks have been read: a tail block is released with the last master block
that it serves. -/
def holdsLeft (s : State) (d : BitVec 512) (left : List Nat) : List Nat :=
  spansBlocks (left.flatMap (fun b => (chunksIn s d b).flatMap (snSpans s d)))

/-- Everything that the read of a source block reads, the tails of its chunks too. -/
def snReads (s : State) (d : BitVec 512) (b : Nat) : List (Nat × Nat) := (chunksIn s d b).flatMap (snSpans s d)

/-- One source block is read and exported, and its hold released (R260, R261, R263). `found` are the errors that its reads meet. -/
def snapBlock (sf : State) (n : Nat) (o : OpEnt) (i b : Nat) (found : List Found) : State :=
  let d := o.desc
  let s := foundMem sf (snReads sf d b) found
  let cs := (chunksIn s d b).map (snChunk s n d)
  let names := spansBlocks (snReads s d b)
  let gens := names.map (fun x => (htGet s x).gen.toNat)
  let first := o.units.isEmpty
  let bad := (cs.map (fun c => c.bad.count true)).sum
  let o1 := { opFlags o (flagsOr (cs.map SnChunk.flags)) with
    units := setIns o.units i,
    done := o.done + (cs.map (fun c => snChunkLen d c.u)).sum,
    chafedN := o.chafedN + bad,
    n1 := gens.foldl min (if first then 65535 else o.n1),
    n2 := gens.foldl max (if first then 0 else o.n2) }
  let o2 := if 0 < bad then opWorse o1 stChafed else o1
  let s1 := cs.foldl (fun t c => snWrite t n o (snDest d + 64 + 64 * c.u * fmtBytes (snOut d)) c.bytes (snMask d c.bad) false)
    (opKeep (noteAccess s (lineAcct s n) names) n o2)
  let left := ((snBlocks s d).zipIdx.filter (fun p => !o2.units.contains p.2)).map Prod.fst
  let keep := holdsLeft s d left
  let s2 := { s1 with tiers := { s1.tiers with exportHold := s1.tiers.exportHold.filter (fun h =>
      !(h.2.1 = n && h.2.2 = o.seq) || keep.contains h.1) } }
  snFinish s2 n o.seq

/-- SNAPSHOT BLOCK READ: the block is the one with that index among the master plane's blocks. Its read waits as R179, R220 and R257
say. -/
def execSnapshotBlockRead (line : LineNo) (seq : Seq) (block : Met Nat) (s : State) : Out :=
  let n := line.toNat
  match opFind s n seq.toNat with
  | none => .next s
  | some o =>
    if o.dispatched && opcodeOf o.desc = opSnapshot && o.track = .running && !o.failed && !o.units.contains block.val && !quiet s unMover then
      (match (snBlocks s o.desc)[block.val]? with
      | some b =>
        if readsHeld s (snReads s o.desc b) then .next (noteWaits s (snReads s o.desc b) false)
        else .next (snapBlock s n o block.val b block.found)
      | none => .next s)
    else .next s

end Sys2Proof.Machine
end

