-- ==== Sys2Proof/Machine/Braid.lean ====
section
/-! DEFINITION. BRD_MM: the descriptor (R85, R86), its tiles and sweeps (R79, R80, R83), dispatch, and what each event of
a braid tile-op does (R84, R91 to R94). -/

set_option Elab.async false

namespace Sys2Proof.Machine

open Sys2Proof

def bmA (d : BitVec 512) : Place := { eye := dF d 8 48 48 = 1, addr := dF d 8 47 0 }
def bmATrans (d : BitVec 512) : Bool := dF d 8 49 49 = 1
def bmAFmt (d : BitVec 512) : Nat := dF d 8 53 50
def bmAWfmt (d : BitVec 512) : Nat := dF d 8 57 54
def bmAWiden (d : BitVec 512) : Bool := dF d 8 58 58 = 1
def bmB (d : BitVec 512) : Place := { eye := dF d 0x10 48 48 = 1, addr := dF d 0x10 47 0 }
def bmBTrans (d : BitVec 512) : Bool := dF d 0x10 49 49 = 1
def bmBFmt (d : BitVec 512) : Nat := dF d 0x10 53 50
def bmBWfmt (d : BitVec 512) : Nat := dF d 0x10 57 54
def bmBWiden (d : BitVec 512) : Bool := dF d 0x10 58 58 = 1
def bmD (d : BitVec 512) : Place := { eye := dF d 0x18 48 48 = 1, addr := dF d 0x18 47 0 }
def bmDFmt (d : BitVec 512) : Nat := dF d 0x18 53 50
def bmCMode (d : BitVec 512) : Nat := dF d 0x18 55 54
def bmPasses (d : BitVec 512) : Nat := dF d 0x18 57 56
def bmTileM (d : BitVec 512) : Nat := dF d 0x18 59 58
def bmSweep (d : BitVec 512) : Nat := dF d 0x18 62 60
def bmEpi (d : BitVec 512) : Bool := dF d 0x18 63 63 = 1
def bmM (d : BitVec 512) : Nat := dF d 0x20 19 0
def bmN (d : BitVec 512) : Nat := dF d 0x20 39 20
def bmK (d : BitVec 512) : Nat := dF d 0x20 59 40
def bmLda (d : BitVec 512) : Nat := dF d 0x28 19 0
def bmLdb (d : BitVec 512) : Nat := dF d 0x28 39 20
def bmLdd (d : BitVec 512) : Nat := dF d 0x28 59 40
def bmAStride (d : BitVec 512) : Nat := dF d 0x30 25 0
def bmBStride (d : BitVec 512) : Nat := dF d 0x30 51 26
def bmBatch (d : BitVec 512) : Nat := dF d 0x30 63 52
def bmDStride (d : BitVec 512) : Nat := dF d 0x38 25 0
def bmDeadline (d : BitVec 512) : Nat := dF d 0x38 57 26

def bmAF (d : BitVec 512) : Fmt := (Fmt.ofCode (bmAFmt d)).getD .w32
def bmBF (d : BitVec 512) : Fmt := (Fmt.ofCode (bmBFmt d)).getD .w32
def bmDF (d : BitVec 512) : Fmt := (Fmt.ofCode (bmDFmt d)).getD .w32
/-- The effective multiplicand format: A's format after any declared widening (R56, R57). -/
def bmEff (d : BitVec 512) : Fmt := if bmAWiden d then (Fmt.ofCode (bmAWfmt d)).getD .w32 else bmAF d

/-! ### Tiles and sweeps -/

/-- TM of TILE_M. -/
def bmTm (d : BitVec 512) : Nat := 64 * 2 ^ bmTileM d
def bmMt (d : BitVec 512) : Nat := ceilDiv (bmM d) (bmTm d)
def bmNt (d : BitVec 512) : Nat := ceilDiv (bmN d) 128
/-- G_M and G_N of SWEEP. -/
def bmGm (d : BitVec 512) : Nat := 2 ^ bmSweep d
def bmGn (d : BitVec 512) : Nat := 16 / 2 ^ bmSweep d
def bmSweepRows (d : BitVec 512) : Nat := ceilDiv (bmMt d) (bmGm d)
def bmSweepCols (d : BitVec 512) : Nat := ceilDiv (bmNt d) (bmGn d)
def bmSweepsPer (d : BitVec 512) : Nat := bmSweepRows d * bmSweepCols d
/-- Sweeps of the operation. -/
def bmSweeps (d : BitVec 512) : Nat := bmBatch d * bmSweepsPer d
/-- Tile-ops of the operation. -/
def bmTiles (d : BitVec 512) : Nat := bmBatch d * bmMt d * bmNt d

/-- The tile rows or columns that a sweep covers: at most g from g × k, those that exist. -/
def cover (g k n : Nat) : List Nat := (List.range (min g (n - g * k))).map (fun i => g * k + i)

/-- Tile rows, tile columns and batch of sweep u, in the order of batch, sweep row, sweep column (R80). -/
def sweepRows (d : BitVec 512) (u : Nat) : List Nat := cover (bmGm d) (u % bmSweepsPer d / bmSweepCols d) (bmMt d)
def sweepCols (d : BitVec 512) (u : Nat) : List Nat := cover (bmGn d) (u % bmSweepCols d) (bmNt d)
def sweepBatch (d : BitVec 512) (u : Nat) : Nat := u / bmSweepsPer d

/-- Tile rows and columns of sweep u, each as (row, column). -/
def sweepTiles (d : BitVec 512) (u : Nat) : List (Nat × Nat) := (sweepRows d u).flatMap (fun i => (sweepCols d u).map (fun j => (i, j)))

/-- Real rows of tile row i, and real columns of tile column j (R79). -/
def tileRows (d : BitVec 512) (i : Nat) : Nat := min (bmTm d) (bmM d - i * bmTm d)
def tileCols (d : BitVec 512) (j : Nat) : Nat := min 128 (bmN d - 128 * j)

/-- Staging of a sweep that covers g_M rows of at most t real rows and g_N columns; operands in eye space need none (R83). -/
def stageNeed (d : BitVec 512) (gm t gn : Nat) : Nat :=
  (if (bmA d).eye then 0 else 2 * gm * t * kblock (bmEff d) * fmtBytes (bmAF d)) + (if (bmB d).eye then 0 else 2 * gn * 32768)

def sweepStage (d : BitVec 512) (u : Nat) : Nat :=
  stageNeed d (sweepRows d u).length (((sweepRows d u).map (tileRows d)).foldl max 0) (sweepCols d u).length

/-- Staging of the largest sweep (R83). -/
def stageMax (d : BitVec 512) : Nat := stageNeed d (min (bmGm d) (bmMt d)) (min (bmTm d) (bmM d)) (min (bmGn d) (bmNt d))

/-- Bytes of staging of a strand. -/
def stageBytes : Nat := 2 ^ 23

/-- P of R97. -/
def bmP (d : BitVec 512) : Nat := if bmEff d = .w32 then [1, 1, 3, 6].getD (bmPasses d) 1 else 1

/-- T_tile of R97, in wave-times. -/
def tileTime (d : BitVec 512) (m : Nat) : Nat := ceilDiv (bmK d) (kblock (bmEff d)) * bmP d * max m 64 + 32

/-- Waves of a tile-op: one for each real row, k-block and piece-pair group (R75). -/
def tileWaves (d : BitVec 512) (m : Nat) : Nat := ceilDiv (bmK d) (kblock (bmEff d)) * bmP d * m

/-- The cost of sweep u (R305). -/
def sweepCost (d : BitVec 512) (u : Nat) : Nat := (sweepTiles d u).foldl (fun n p => n + tileTime d (tileRows d p.1)) 0

/-! ### Addresses (R85, R86) -/

def bmAIdx (d : BitVec 512) (m k : Nat) : Nat := if bmATrans d then k * bmLda d + m else m * bmLda d + k
def bmBIdx (d : BitVec 512) (k n : Nat) : Nat := if bmBTrans d then n * bmLdb d + k else k * bmLdb d + n
def bmDIdx (d : BitVec 512) (m n : Nat) : Nat := m * bmLdd d + n

/-- A batch's operand. -/
def atBatch (p : Place) (stride b : Nat) : Place := p.plus (64 * stride * b)

/-- Spans of a tile's operand: runs along the leading dimension. -/
def runs (p : Place) (trans : Bool) (ld sz i0 ni j0 nj : Nat) : List (Nat × Nat) :=
  if trans then (List.range nj).map (fun j => (p.addr + ((j0 + j) * ld + i0) * sz, ni * sz))
  else (List.range ni).map (fun i => (p.addr + ((i0 + i) * ld + j0) * sz, nj * sz))

/-- Device spans of A, of B and of D (or C) for a tile; none in eye space. -/
def tileSpansA (d : BitVec 512) (t : TileOp) : List (Nat × Nat) :=
  if (bmA d).eye then [] else runs (atBatch (bmA d) (bmAStride d) t.batch) (bmATrans d) (bmLda d) (fmtBytes (bmAF d)) (t.row * bmTm d) t.rows 0 (bmK d)
def tileSpansB (d : BitVec 512) (t : TileOp) : List (Nat × Nat) :=
  if (bmB d).eye then [] else runs (atBatch (bmB d) (bmBStride d) t.batch) (bmBTrans d) (bmLdb d) (fmtBytes (bmBF d)) 0 (bmK d) (128 * t.col) t.cols
def tileSpansD (d : BitVec 512) (t : TileOp) : List (Nat × Nat) :=
  if (bmD d).eye || bmEpi d then [] else runs (atBatch (bmD d) (bmDStride d) t.batch) false (bmLdd d) (fmtBytes (bmDF d)) (t.row * bmTm d) t.rows (128 * t.col) t.cols

/-- K-blocks of the operation, and the first and the number of the products of one (R66). -/
def bmNkb (d : BitVec 512) : Nat := ceilDiv (bmK d) (kblock (bmEff d))
def partLo (d : BitVec 512) (kb : Nat) : Nat := kb * kblock (bmEff d)
def partLen (d : BitVec 512) (kb : Nat) : Nat := min (kblock (bmEff d)) (bmK d - partLo d kb)

/-- Device spans of one k-block of a tile's rows of A and columns of B; none in eye space. -/
def partSpansA (d : BitVec 512) (t : TileOp) (kb : Nat) : List (Nat × Nat) :=
  if (bmA d).eye then [] else
    runs (atBatch (bmA d) (bmAStride d) t.batch) (bmATrans d) (bmLda d) (fmtBytes (bmAF d)) (t.row * bmTm d) t.rows (partLo d kb) (partLen d kb)
def partSpansB (d : BitVec 512) (t : TileOp) (kb : Nat) : List (Nat × Nat) :=
  if (bmB d).eye then [] else
    runs (atBatch (bmB d) (bmBStride d) t.batch) (bmBTrans d) (bmLdb d) (fmtBytes (bmBF d)) (partLo d kb) (partLen d kb) (128 * t.col) t.cols

/-- The keys of the two parts in the loads of a sweep. -/
def partKeyA (d : BitVec 512) (t : TileOp) (kb : Nat) : Nat := t.row * bmNkb d + kb
def partKeyB (d : BitVec 512) (t : TileOp) (kb : Nat) : Nat := t.col * bmNkb d + kb

/-- Spans that the loader still has to read for k-blocks of a tile: a part that its sweep holds is not read again (R80). -/
def loadSpans (d : BitVec 512) (w : Sweep) (t : TileOp) (kbs : List Nat) : List (Nat × Nat) :=
  kbs.flatMap (fun kb =>
    (if (mapFind w.a (partKeyA d t kb)).isSome then [] else partSpansA d t kb) ++
    (if (mapFind w.b (partKeyB d t kb)).isSome then [] else partSpansB d t kb))

/-- Spans that a tile reads: A, B, and D as C. -/
def tileReads (d : BitVec 512) (t : TileOp) : List (Nat × Nat) :=
  tileSpansA d t ++ tileSpansB d t ++ (if bmCMode d = 1 then tileSpansD d t else [])

/-- The bytes from an operand's address in batch 0 to its last byte in the last batch (R87). -/
def footprint (p : Place) (stride batches last sz : Nat) : Nat × Nat := (p.addr, 64 * stride * (batches - 1) + (last + 1) * sz)

def bmFootD (d : BitVec 512) : Nat × Nat :=
  footprint (bmD d) (bmDStride d) (bmBatch d) (bmDIdx d (bmM d - 1) (bmN d - 1)) (fmtBytes (bmDF d))

/-! ### Dispatch -/

/-- The program block of a VEC_OP, read at dispatch (R106), with whether it read chafed. -/
def readProg (s : State) (n : Nat) (d : BitVec 512) : List Byte × Bool := placeRead s (lineStrand s n) (lineAcct s n) (vcProg d) 128

/-- BRD_MM, and an epilogue pair with its program block: the dispatch checks of R106 and R153, and the operation begun. -/
def execBrdMm (line : LineNo) (s : State) : Out :=
  let n := line.toNat
  onDispatch s n opBrdMm (fun o =>
    let epi := bmEpi o.desc
    let prog := if epi then readProg s n o.desc2 else ([], false)
    if !epi && !(bmD o.desc).eye && touchesDerived s [bmFootD o.desc] then rejectOp s n o stDescInvalid
    else if epi && !vecProgOk (vcLen o.desc2) prog.1 then rejectOp s n o stDescInvalid
    else noteLine (opSet s n { opDispatch s o with total := bmTiles o.desc, prog := prog.1, chafedProg := prog.2 }) n)

/-- A BRD_MM that issues sweeps. -/
def brdRuns (o : OpEnt) : Bool :=
  o.dispatched && opcodeOf o.desc = opBrdMm && o.track = .running && !o.failed && o.next < bmSweeps o.desc

/-- Staging in use on a strand: that of each sweep with a tile-op that has not passed its last wave. -/
def stageUsed (s : State) (strand : Nat) : Nat :=
  let live := (strandGet s strand).tiles.filter (fun t => !t.bight && (t.stage = .issued || t.stage = .ready || t.stage = .first))
  let sweeps := (live.map (fun t => (t.line, t.seq, t.sweep))).dedup
  sweeps.foldl (fun n p => n + ((opFind s p.1 p.2.1).map (fun o => sweepStage o.desc p.2.2)).getD 0) 0

/-- The next sweep of an operation fits the arrays that may be granted and the free staging of its strand (R83). -/
def sweepFits (s : State) (strand : Nat) (o : OpEnt) : Bool :=
  (sweepTiles o.desc o.next).length ≤ (grantArrays s strand).length && stageUsed s strand + sweepStage o.desc o.next ≤ stageBytes

/-- A fresh tile-op at its ISSUE. -/
def tileNew (n : Nat) (o : OpEnt) (acct array : Nat) (now : W64) : TileOp where
  line := n
  seq := o.seq
  account := acct
  array := array
  bight := false
  sweep := 0
  tile := 0
  batch := 0
  row := 0
  col := 0
  rows := 0
  cols := 0
  phase := 0
  stage := .issued
  tIssue := now
  tReady := none
  tFirst := none
  tLast := none
  tDrain := none
  needAt := none
  inPlace := false
  chafed := false
  flags := 0
  tagged := false
  aVals := []
  bVals := []
  acc := []
  out := []
  pendingSlots := 0
  discardSlots := 0

/-- One tile-op of a sweep reaches ISSUE on an array. -/
def issueTile (strand n acct : Nat) (o : OpEnt) (b : Nat) (s : State) (p : (Nat × Nat) × Nat) : State :=
  let r := tagStep s strand acct
  let d := o.desc
  let t : TileOp := { tileNew n o acct p.2 s.tb.now with
    sweep := o.next, tile := (b * bmMt d + p.1.1) * bmNt d + p.1.2, batch := b, row := p.1.1, col := p.1.2,
    rows := tileRows d p.1.1, cols := tileCols d p.1.2, tagged := r.2 }
  strandSet r.1 strand { strandGet r.1 strand with tiles := (strandGet r.1 strand).tiles ++ [t] }

/-- DEADLINE_NS of a BRD_MM has passed (R93). -/
def bmPast (s : State) (o : OpEnt) : Bool := bmDeadline o.desc != 0 && o.cDisp + bmDeadline o.desc ≤ tbNow s

/-- The next sweep of an operation issues (R83, R84): its tile-ops take arrays; which, and in what order, is open. -/
def issueSweep (s : State) (strand n : Nat) (o : OpEnt) : State :=
  let acct := lineAcct s n
  let tiles := freeOrder s.free 0 16 (sweepTiles o.desc o.next)
  let arrays := freeOrder s.free 16 16 (grantArrays s strand)
  let w : Sweep := { line := n, seq := o.seq, no := o.next, late := bmPast s o, a := [], b := [], fell := [] }
  let s0 := strandSet (drawn s) strand { strandGet s strand with sweeps := (strandGet s strand).sweeps ++ [w] }
  let s1 := (tiles.zip arrays).foldl (issueTile strand n acct o (sweepBatch o.desc o.next)) s0
  let s2 := opSet s1 n { o with next := o.next + 1, inflight := o.inflight + tiles.length, readyAt := none, aged := false }
  pmuAdd s2 (0x01C + strand) 1 (attrP acct)

/-! ### Events of a tile-op -/

/-- A block of a braid operand may be read now (R93, R157, R173): a mantle-named block from kern, or where it is once its
sweep reads in place; a kern-named one under the general rule. -/
def brdBlock (s : State) (o : OpEnt) (acct : Nat) (late : Bool) (b : Nat) : Bool :=
  let e := htGet s b
  if nameTier b = .mantle then
    e.state = .unbound || e.account != acct ||
      (!(s.tiers.merging.contains b) && (late || e.tier = .kern || e.state = .chafed || e.derived || fixedBlock s e))
  else reachable s acct o (fun x => x != .kern) b

/-- Spans that may be read now. -/
def loadReady (s : State) (o : OpEnt) (acct : Nat) (late : Bool) (spans : List (Nat × Nat)) : Bool :=
  spans.all (fun p => (spanBlocks p.1 p.2).all (brdBlock s o acct late) && !repairHolds s p.1 p.2 && !bankHolds s p.1 p.2 false)

/-- Elements of one k-block of a tile's rows of A and columns of B, and of C, each with its chafe. -/
def readA (s : State) (strand : Nat) (d : BitVec 512) (t : TileOp) (kb : Nat) : List (Nat × Bool) :=
  (List.range t.rows).flatMap (fun m => (List.range (partLen d kb)).map (fun k =>
    placeElem s strand t.account (atBatch (bmA d) (bmAStride d) t.batch) (bmAF d) (bmAIdx d (t.row * bmTm d + m) (partLo d kb + k))))
def readB (s : State) (strand : Nat) (d : BitVec 512) (t : TileOp) (kb : Nat) : List (Nat × Bool) :=
  (List.range (partLen d kb)).flatMap (fun k => (List.range t.cols).map (fun c =>
    placeElem s strand t.account (atBatch (bmB d) (bmBStride d) t.batch) (bmBF d) (bmBIdx d (partLo d kb + k) (128 * t.col + c))))
def readC (s : State) (strand : Nat) (d : BitVec 512) (t : TileOp) : List (Nat × Bool) :=
  (List.range t.rows).flatMap (fun m => (List.range t.cols).map (fun c =>
    placeElem s strand t.account (atBatch (bmD d) (bmDStride d) t.batch) (bmDF d) (bmDIdx d (t.row * bmTm d + m) (128 * t.col + c))))

/-- The sweep of a tile-op. -/
def sweepFor (s : State) (strand : Nat) (t : TileOp) : Option Sweep := (strandGet s strand).sweeps.find? (fun w => w.has t)

/-- A sweep replaced. -/
def sweepSet (s : State) (strand : Nat) (w : Sweep) : State :=
  strandSet s strand { strandGet s strand with
    sweeps := (strandGet s strand).sweeps.map (fun x => if x.line = w.line && x.seq = w.seq && x.no = w.no then w else x) }

/-- The parts of k-blocks of a tile loaded for its sweep: each that the sweep does not hold yet is read now (R80). -/
def loadParts (s : State) (strand : Nat) (d : BitVec 512) (t : TileOp) (w : Sweep) (kbs : List Nat) : Sweep :=
  kbs.foldl (fun x kb =>
    let x1 := if (mapFind x.a (partKeyA d t kb)).isSome then x else { x with a := mapUpd x.a (partKeyA d t kb) (some (readA s strand d t kb)) }
    if (mapFind x1.b (partKeyB d t kb)).isSome then x1 else { x1 with b := mapUpd x1.b (partKeyB d t kb) (some (readB s strand d t kb)) }) w

/-- The elements of a part that a sweep holds. -/
def partA (d : BitVec 512) (w : Sweep) (t : TileOp) (kb : Nat) : List (Nat × Bool) := (mapFind w.a (partKeyA d t kb)).getD []
def partB (d : BitVec 512) (w : Sweep) (t : TileOp) (kb : Nat) : List (Nat × Bool) := (mapFind w.b (partKeyB d t kb)).getD []

/-- Blocks of a list that a braid reads in place, since they are not in kern (R93, R173); a CHAFED or DERIVED block is not
moved (R157). -/
def fallBlocks (s : State) (acct : Nat) (bs : List Nat) : List Nat :=
  bs.filter (fun b =>
    let e := htGet s b
    e.state != .unbound && e.state != .chafed && !e.derived && !fixedBlock s e && e.account = acct && e.tier != .kern)

/-- Blocks read in place by a sweep: each counts once for the sweep, and the operation is OK_FALLBACK at least (R93, R96). -/
def noteFell (s : State) (strand : Nat) (w : Sweep) (acct : Nat) (bs : List Nat) : State :=
  let new := bs.filter (fun b => !w.fell.contains b)
  let s1 := sweepSet s strand { w with fell := w.fell ++ new }
  if new.isEmpty then s1
  else
    match opFind s1 w.line w.seq with
    | some o => pmuAdd (opSet s1 w.line (opWorse { o with n1 := satAdd (2 ^ 24 - 1) o.n1 new.length } stOkFallback)) 0x114 new.length
        (attrM acct mBraid)
    | none => s1

/-- The loads of k-blocks of a tile, and of the spans `extra` beside them: none while one of them must wait. `found` are the
errors that the reads meet (R94, R175). The flag says that they are done. -/
def sweepLoad (s : State) (strand : Nat) (o : OpEnt) (w : Sweep) (t : TileOp) (kbs : List Nat) (extra : List (Nat × Nat))
    (found : List Found) : State × Bool :=
  let spans := loadSpans o.desc w t kbs ++ extra
  let s1 := foundAll s strand spans found
  if loadReady s o t.account w.late spans && loadReady s1 o t.account w.late spans then
    let blocks := spansBlocks spans
    (noteFell (noteAccess s1 t.account blocks) strand (loadParts s1 strand o.desc t w kbs) t.account (fallBlocks s1 t.account blocks), true)
  else (noteWaits (if loadReady s o t.account w.late spans then s1 else s) spans false, false)

/-- Spans of C that a tile reads. -/
def tileSpansC (d : BitVec 512) (t : TileOp) : List (Nat × Nat) := if bmCMode d = 1 then tileSpansD d t else []

/-- READY of a braid tile-op: its first B block and its first A rows are loaded, and C is read when C_MODE is 0b01 (R84,
R91). -/
def braidReady (s : State) (strand : Nat) (t : TileOp) (found : List Found) : State :=
  match opFind s t.line t.seq, sweepFor s strand t with
  | some o, some w =>
    if o.track = .cancelPending then s
    else
      let r := sweepLoad s strand o w t [0] (tileSpansC o.desc t) found
      if !r.2 then r.1
      else
        let c := if bmCMode o.desc = 1 then readC r.1 strand o.desc t else []
        let cs := c.map (fun p => accStart (some (decodeElem (bmDF o.desc) p.1)))
        tileSet r.1 strand { t with
          stage := .ready, tReady := some s.tb.now, acc := cs.map Prod.fst,
          flags := t.flags ||| flagsOr (cs.map Prod.snd), chafed := t.chafed || c.any Prod.snd }
  | _, _ => s

/-- The accumulators of a tile after all its waves (R59 to R66, R81), row-major, with their flags. -/
def tileDot (d : BitVec 512) (w : Sweep) (t : TileOp) : List (BitVec 40 × Byte) :=
  let k := bmK d
  let kbs := List.range (bmNkb d)
  let as := kbs.map (fun kb => (partLen d kb, (partA d w t kb).map (fun p => decodeElem (bmAF d) p.1)))
  let bs := kbs.flatMap (fun kb => (partB d w t kb).map (fun p => decodeElem (bmBF d) p.1))
  (List.range t.rows).flatMap (fun m =>
    let row := as.flatMap (fun p => (p.2.drop (m * p.1)).take p.1)
    (List.range t.cols).map (fun c =>
      let ab : List Prod2 := (List.range k).map (fun i => ⟨row.getD i .zero, bs.getD (i * t.cols + c) .zero⟩)
      dotAcc (bmEff d) (bmPasses d) (t.acc.getD (m * t.cols + c) 0, 0) ab))

/-- Some part that a tile uses was read chafed (R94). -/
def partsChafed (d : BitVec 512) (w : Sweep) (t : TileOp) : Bool :=
  (List.range (bmNkb d)).any (fun kb => (partA d w t kb ++ partB d w t kb).any Prod.snd)

/-- A corrupted control state of a sweep: the tiles it affects cannot be named, so the operation is UNCORRECTABLE and has
failed (R94). -/
def sweepLost (s : State) (t : TileOp) : State :=
  match opFind s t.line t.seq with
  | some o => opSet s t.line { opWorse o stUncorrectable with failed := true }
  | none => s

/-- LAST_WAVE of a braid tile-op: the k-blocks after the first have been loaded too (when they are read is open: log entry
119), and the accumulators hold the tile. An accumulator-store parity error makes the tile chafed (R94). -/
def braidLast (s : State) (strand : Nat) (t : TileOp) (found : List Found) (err : Option ArrayErr) : State :=
  match opFind s t.line t.seq, sweepFor s strand t with
  | some o, some w =>
    if o.track = .cancelPending then s
    else if err = some .control then sweepLost s t
    else
      let r := sweepLoad s strand o w t (List.range (bmNkb o.desc)) [] found
      match r.2, sweepFor r.1 strand t with
      | true, some w1 =>
        let v := tileDot o.desc w1 t
        let t1 : TileOp := { t with
          stage := .last, tLast := some s.tb.now, acc := v.map Prod.fst, flags := t.flags ||| flagsOr (v.map Prod.snd),
          chafed := t.chafed || partsChafed o.desc w1 t || err = some .parity }
        pmuAdd (tileSet r.1 strand t1) (0x014 + strand) (tileWaves o.desc t.rows) (tileAttr t)
      | _, _ => r.1
  | _, _ => s

/-- An accumulator as an element of D or of the hand-off (R52, R92); stored as A40 it follows R54's own-format rule, so a NaN
sets NAN_IN and an infinity INF_IN. -/
def drainElem (f : Fmt) (a : BitVec 40) : Nat × Byte := encodeElem f (decodeFloat layoutA40 a.toNat)

/-- DRAIN of a braid tile-op (R92): converted, and with EPI = 1 put into a free tile buffer. -/
def braidDrain (s : State) (strand : Nat) (t : TileOp) : State :=
  match opFind s t.line t.seq with
  | none => s
  | some o =>
    if bmEpi o.desc && 4 ≤ (strandGet s strand).bufs.length then s
    else
      let r := t.acc.map (drainElem (bmDF o.desc))
      let t1 : TileOp := { t with stage := .drained, tDrain := some s.tb.now, out := r.map Prod.fst, flags := t.flags ||| flagsOr (r.map Prod.snd), acc := [] }
      let s1 := tileSet s strand t1
      if bmEpi o.desc then strandSet s1 strand { strandGet s1 strand with bufs := (strandGet s1 strand).bufs ++ [t1] } else s1

/-- A row of a tile's output as bytes. -/
def rowOut (f : Fmt) (t : TileOp) (m : Nat) : List Byte := ((t.out.drop (m * t.cols)).take t.cols).flatMap (bytesOf (fmtBytes f))

/-- The tile written to D; the flag says that a write was dropped. Where another operation also wrote those elements since
the dispatch, the later write stays (R91 leaves it open: DESIGN CHOICE, log entry 118). -/
def writeTile (s : State) (strand : Nat) (d : BitVec 512) (t : TileOp) : State × Bool :=
  (List.range t.rows).foldl (fun acc m =>
    let r := placeWrite acc.1 strand t.account
      ((atBatch (bmD d) (bmDStride d) t.batch).plus (bmDIdx d (t.row * bmTm d + m) (128 * t.col) * fmtBytes (bmDF d))) (rowOut (bmDF d) t m) t.chafed
    (r.1, acc.2 || r.2)) (s, false)

/-- A tile retired in its operation's counts (R94, R96). -/
def countTile (o : OpEnt) (t : TileOp) (dropped : Bool) : OpEnt :=
  let o1 := { opFlags o t.flags with
    done := o.done + 1, inflight := o.inflight - 1,
    chafedN := if t.chafed then satAdd (2 ^ 24 - 1) o.chafedN 1 else o.chafedN,
    firstChafed := if t.chafed then some ((o.firstChafed.map (min t.tile)).getD t.tile) else o.firstChafed }
  let o2 := if t.chafed then opWorse o1 stChafed else o1
  if dropped then opWorse o2 stUncorrectable else o2

/-- RETIRE of a braid tile-op: the tile is written to D, or lies in a tile buffer under an epilogue (R84, R92, R94). -/
def braidRetire (s : State) (strand : Nat) (t : TileOp) : State :=
  match opFind s t.line t.seq with
  | none => s
  | some o =>
    let d := o.desc
    let spans := tileSpansD d t
    if !(spans.all (fun p => readReady s t.account o (fun x => x != .kern) p.1 p.2 && !bankHolds s p.1 p.2 true)) then
      noteWaits s spans true
    else
      let w := if bmEpi d then (s, false) else writeTile s strand d t
      let s1 := noteAccess w.1 t.account ((spansBlocks spans).filter (fun b => !badName s (some t.account) (b * blockBytes)))
      let s2 := pmuAdd (tileDrop (tileEnd s1 strand t false) strand t) (0x018 + strand) 1 (tileAttr t)
      match opFind s2 t.line t.seq with
      | some o2 => opSet s2 t.line (countTile o2 t w.2)
      | none => s2

/-- Blocks that a sweep's loads still lack at DEADLINE_NS: mantle-named blocks of the account not in kern (R93). -/
def lateBlocks (s : State) (strand : Nat) (o : OpEnt) (acct : Nat) (w : Sweep) : List Nat :=
  let ts := (strandGet s strand).tiles.filter w.has
  (fallBlocks s acct (spansBlocks (ts.flatMap (fun t => loadSpans o.desc w t (List.range (bmNkb o.desc)))))).filter (fun b => nameTier b = .mantle)

/-- At DEADLINE_NS after dispatch the loader reads in place every block that a sweep in flight still lacks: each sweep's
read of a block counts once (R93, R96). The data are taken where the part is loaded. -/
def execDirectReadFallback (line : LineNo) (seq : Seq) (s : State) : Out :=
  let n := line.toNat
  match opFind s n seq.toNat with
  | none => .next s
  | some o =>
    let strand := lineStrand s n
    let ws := (strandGet s strand).sweeps.filter (fun w => w.line = n && w.seq = o.seq && !w.late)
    if o.dispatched && opcodeOf o.desc = opBrdMm && bmPast s o then
      .next (ws.foldl (fun t w => noteFell t strand { w with late := true } (lineAcct s n) (lateBlocks s strand o (lineAcct s n) w)) s)
    else .next s

/-- The op-specific bytes of a BRD_MM record (R96). -/
def brdBytes (o : OpEnt) : List Byte :=
  bytesOf 5 o.done ++ bytesOf 3 o.n1 ++ bytesOf 3 o.chafedN ++ bytesOf 5 (o.firstChafed.getD 0xFFFFFFFFFF)

end Sys2Proof.Machine
end

