-- ==== Sys2Proof/Machine/Vector.lean ====
section
/-! DEFINITION. The vector engine: VEC_OP, its groups, and the tiles of an epilogue (R99 to R119, R249, R253). -/

set_option Elab.async false

namespace Sys2Proof.Machine

open Sys2Proof

/-! ### Operands -/

/-- The element index of Y for element (r, c) by YB (R108). -/
def vcYIdx (d : BitVec 512) (r c : Nat) : Nat :=
  match vcYb d with
  | 0 => r * vcLdy d + c
  | 1 => r
  | 2 => c
  | _ => 0

/-- Y is the constant k0 of the program block (R108). -/
def vcYConst (d : BitVec 512) : Bool := vcYUse d && vcYb d = 3 && vcYFmt d = 0 && (vcY d).addr = 0

/-- An element at a place with the scale byte of its block; `scales` is the place of the plane's byte for index 0. -/
def vecElem (s : State) (strand acct : Nat) (p scales : Place) (f : Fmt) (x : Nat) : (W32 × Byte) × Bool :=
  let e := placeElem s strand acct p f x
  if f.isK8 then
    let sc := placeNat s strand acct (scales.plus (x / 32)) 1
    (vecLoad f e.1 sc.1, e.2 || sc.2)
  else (vecLoad f e.1 0, e.2)

/-- v1 of element (r, c): Y by its broadcast mode, k0, or the zero word (R102, R108). `b` is the batch. -/
def vecY (s : State) (strand acct : Nat) (d : BitVec 512) (konst : List W32) (b r c : Nat) : (W32 × Byte) × Bool :=
  if !vcYUse d then ((0, 0), false)
  else if vcYConst d then (toW32 (w32Val (konst.getD 0 0)), false)
  else
    let k := if vcEpi d then 64 * vcYStride d * b else 0
    vecElem s strand acct ((vcY d).plus k) ((vcAux d).plus (k / 32)) (vcYF d) (vcYIdx d r c)

/-- Elements of a span of a U1 or byte format, as bytes at a device address: first byte and length. -/
def elemSpan (f : Fmt) (base x n : Nat) : Nat × Nat :=
  match f with
  | .u1 => (base + x / 8, (x + n - 1) / 8 - x / 8 + 1)
  | _ => (base + x * fmtBytes f, n * fmtBytes f)

/-- The span of n elements at a place, and that of their scale bytes when they have any; none in eye space. -/
def vecSpan (p scales : Place) (f : Fmt) (x n : Nat) : List (Nat × Nat) :=
  (if p.eye then [] else [elemSpan f p.addr x n]) ++
  (if f.isK8 && !scales.eye then [(scales.addr + x / 32, (x + n - 1) / 32 - x / 32 + 1)] else [])

/-- Runs of a group of row-major elements: row, first column, length (fuel: the group's length). -/
def rowRuns (cols : Nat) : Nat → Nat → Nat → List (Nat × Nat × Nat)
  | 0, _, _ => []
  | fuel + 1, i, n =>
    if n = 0 then []
    else
      let k := min n (cols - i % cols)
      (i / cols, i % cols, k) :: rowRuns cols fuel (i + k) (n - k)

/-! ### Writing Z -/

/-- The granule of a write at a place: 64 B of eye space or of kern, 32 B of a mantle frame. -/
def placeGran (s : State) (p : Place) : Nat :=
  if p.eye then 64 else if (htGet s (blockNo p.addr)).tier = .mantle then 32 else 64

/-- Bytes cut at granule boundaries, each piece with its own mark: `ch` says for each byte whether it belongs to a chafed
element (R114). -/
def granPieces (g : Nat) : Nat → Nat → List (Byte × Bool) → List (Nat × List (Byte × Bool))
  | 0, _, _ => []
  | fuel + 1, a, bs =>
    if bs.isEmpty then []
    else
      let n := g - a % g
      (a, bs.take n) :: granPieces g fuel (a + n) (bs.drop n)

/-- The result of writes: the state, the granules written with the mark, each once (eye lines above 2^60), and whether a
write was dropped. -/
structure Wrote where
  st : State
  marked : List Nat
  dropped : Bool

/-- Bytes with chafe written at a place, granule by granule. -/
def writeChafed (w : Wrote) (strand acct : Nat) (p : Place) (bs : List (Byte × Bool)) : Wrote :=
  let g := placeGran w.st p
  (granPieces g (bs.length + 1) p.addr bs).foldl (fun x q =>
    let mark := q.2.any Prod.snd
    let r := placeWrite x.st strand acct { p with addr := q.1 } (q.2.map Prod.fst) mark
    { st := r.1, marked := if mark && !r.2 then setIns x.marked (q.1 / g * g + (if p.eye then 2 ^ 60 else 0)) else x.marked,
      dropped := x.dropped || r.2 }) w

/-- The bits of a U1 run put into their bytes: (address, byte, chafed, whole byte). -/
def bitBytes (s : State) (strand acct : Nat) (p : Place) (x : Nat) (bits : List (Nat × Bool)) : List (Nat × Byte × Bool) :=
  let n := bits.length
  if n = 0 then []
  else (List.range ((x + n - 1) / 8 - x / 8 + 1)).map (fun i =>
    let k := x / 8 + i
    let old := (placeNat s strand acct (p.plus k) 1).1
    let inRun (j : Nat) : Bool := x ≤ 8 * k + j && 8 * k + j < x + n
    let bit (j : Nat) : Nat := if inRun j then (bits.getD (8 * k + j - x) (0, false)).1 else old / 2 ^ j % 2
    (k, BitVec.ofNat 8 ((List.range 8).foldl (fun v j => v + bit j * 2 ^ j) 0),
      (List.range 8).any (fun j => inRun j && (bits.getD (8 * k + j - x) (0, false)).2)))

/-- A run of stored elements written from element index x on. Bytes that a U1 run fills in part are written by themselves,
so that they cover no granule. -/
def writeElems (w : Wrote) (strand acct : Nat) (p : Place) (f : Fmt) (x : Nat) (es : List (Nat × Bool)) : Wrote :=
  match f with
  | .u1 =>
    let bs := bitBytes w.st strand acct p x es
    let full (k : Nat) : Bool := x ≤ 8 * k && 8 * k + 8 ≤ x + es.length
    let edges := bs.filter (fun b => !full b.1)
    let mid := bs.filter (fun b => full b.1)
    let w1 := edges.foldl (fun u b => writeChafed u strand acct (p.plus b.1) [(b.2.1, b.2.2)]) w
    (match mid with
    | [] => w1
    | b :: _ => writeChafed w1 strand acct (p.plus b.1) (mid.map (fun q => (q.2.1, q.2.2))))
  | _ => writeChafed w strand acct (p.plus (x * fmtBytes f)) (es.flatMap (fun e => (bytesOf (fmtBytes f) e.1).map (fun b => (b, e.2))))

/-- A run of lanes written to Z with the scale bytes of its blocks. -/
def writeRun (w : Wrote) (strand acct : Nat) (p scales : Place) (f : Fmt) (x : Nat) (stored : List Nat × List Nat) (ch : List Bool) : Wrote :=
  let w1 := writeElems w strand acct p f x (stored.1.zip ch)
  if f.isK8 then
    writeChafed w1 strand acct (scales.plus (x / 32)) ((stored.2.zipIdx).map (fun q => (BitVec.ofNat 8 q.1, ((ch.drop (32 * q.2)).take 32).any id)))
  else w1

/-! ### Census (R115) -/

/-- Whether each of n elements from index x on is written: a write at a name that the account may not use is dropped
(R155). -/
def lanesKept (s : State) (acct : Nat) (p : Place) (f : Fmt) (x n : Nat) : List Bool :=
  (List.range n).map (fun i => p.eye || !badName s (some acct) (p.addr + (x + i) * f.bits / 8))

/-- The written lanes of a run counted in an operation's census. The stored scales have a byte for each 32 lanes of a K8 or
K8U run. -/
def censusRun (c : Census) (f : Fmt) (stored : List Nat × List Nat) (flags : List Byte) (ch keep : List Bool) : Census :=
  (stored.1.zipIdx).foldl (fun acc p =>
    let k := if f.isK8 then classifyK8 (stored.2.getD (p.2 / 32) 0) p.1 else classify f p.1
    if keep.getD p.2 true then censusAdd acc k (hasFlag (flags.getD p.2 0) flagSat) (ch.getD p.2 false) else acc) c

/-! ### Dispatch -/

/-- The step record of a committing VEC_OP (R253). -/
def commitRecord (s : State) (n : Nat) (d : BitVec 512) : List Byte × Bool :=
  devRead s (some (lineAcct s n)) ((vcY d).addr / 64 * 64) 64

/-- The op-specific bytes of a standalone VEC_OP record (R119). -/
def vecBytes (o : OpEnt) : List Byte := bytesOf 6 o.n1 ++ bytesOf 2 0 ++ bytesOf 4 o.censusIndex ++ bytesOf 4 o.chafedN

/-- Groups of a standalone VEC_OP. -/
def vecGroups (d : BitVec 512) : Nat := ceilDiv (vcRows d * vcCols d) 2048

/-- Device spans that the dispatch of a VEC_OP reads: the program block and, under COMMIT, the step record. -/
def vecDispReads (d : BitVec 512) : List (Nat × Nat) :=
  (if (vcProg d).eye then [] else [((vcProg d).addr, 128)]) ++ (if vcCommit d then [((vcY d).addr / 64 * 64, 64)] else [])

/-- VEC_OP: the program block read and checked (R106); a committing operation reads its step record and is skipped under
R253. A read that is held holds the dispatch (R179, R220). -/
def execVecOp (line : LineNo) (s : State) : Out :=
  let n := line.toNat
  onDispatch s n opVecOp (fun o =>
    let spans := vecDispReads o.desc
    if readsHeld s spans then noteWaits s spans false
    else
      let s0 := noteAccess s (lineAcct s n) (spansBlocks spans)
      let prog := readProg s n o.desc
      let o1 := { opDispatch s o with total := vecGroups o.desc, prog := prog.1, chafedProg := prog.2 }
      if !vecProgOk (vcLen o.desc) prog.1 then rejectOp s0 n o stDescInvalid
      else if vcCommit o.desc then
        let r := commitRecord s n o.desc
        if r.2 then finishOp s0 n o1 stUncorrectable (vecBytes o1)
        else if abortPending s (lineAcct s n) || recSkip r.1 then finishOp s0 n (opFlags o1 flagSkipped) stOkSkipped (vecBytes o1)
        else noteLine (opSet s0 n { o1 with par := r.1 }) n
      else noteLine (opSet s0 n o1) n)

/-- A standalone VEC_OP with a group to issue. -/
def vecRuns (o : OpEnt) : Bool :=
  o.dispatched && opcodeOf o.desc = opVecOp && o.track = .running && !o.failed && o.next < o.total

/-- The runs of group u of a standalone VEC_OP. -/
def groupRuns (d : BitVec 512) (u : Nat) : List (Nat × Nat × Nat) :=
  let e := vcRows d * vcCols d
  rowRuns (vcCols d) 2049 (2048 * u) (min 2048 (e - 2048 * u))

/-- Spans that a run reads from Y. -/
def ySpans (d : BitVec 512) (b r c n : Nat) : List (Nat × Nat) :=
  if !vcYUse d || vcYConst d then []
  else
    let k := if vcEpi d then 64 * vcYStride d * b else 0
    let y := (vcY d).plus k
    let a := (vcAux d).plus (k / 32)
    match vcYb d with
    | 0 | 2 => vecSpan y a (vcYF d) (vcYIdx d r c) n
    | _ => vecSpan y a (vcYF d) (vcYIdx d r c) 1

/-- Spans that a run of a standalone VEC_OP reads and writes. -/
def runReads (d : BitVec 512) (p : Nat × Nat × Nat) : List (Nat × Nat) :=
  vecSpan (vcX d) (vcAux d) (vcXF d) (p.1 * vcLdx d + p.2.1) p.2.2 ++ ySpans d 0 p.1 p.2.1 p.2.2
/-- The span of a run's Z elements, without their scale bytes. -/
def zSpan (z : Place) (f : Fmt) (x n : Nat) : List (Nat × Nat) := if z.eye then [] else [elemSpan f z.addr x n]
def runWrites (d : BitVec 512) (p : Nat × Nat × Nat) : List (Nat × Nat) :=
  vecSpan (vcZ d) (vcAux d) (vcZF d) (p.1 * vcLdz d + p.2.1) p.2.2 ++
  (if vcRed d != 0 && p.2.1 + p.2.2 = vcCols d && !(vcAux d).eye then [((vcAux d).addr + 4 * p.1, 4)] else [])

/-- Tiers that the vector engine does not reach in place without a refused move (R173). -/
def vecAway (t : Tier) : Bool := t = .host

/-- Spans may be read, or written, now. -/
def spansReady (s : State) (acct : Nat) (o : OpEnt) (reads writes : List (Nat × Nat)) : Bool :=
  reads.all (fun p => readReady s acct o vecAway p.1 p.2) &&
  writes.all (fun p => (spanBlocks p.1 p.2).all (reachable s acct o vecAway) && !bankHolds s p.1 p.2 true)

def groupReady (s : State) (n : Nat) (o : OpEnt) : Bool :=
  let rs := groupRuns o.desc o.next
  spansReady s (lineAcct s n) o (rs.flatMap (runReads o.desc)) (rs.flatMap (runWrites o.desc))

/-- The requests at a strand's vector engine (R305, R306, R111): each line's oldest standalone VEC_OP, when its next group
can be read and written. -/
def vecReqs (s : State) (strand : Nat) : List Req :=
  s.lines.filterMap (fun p =>
    if lineStrand s p.1 != strand then none
    else
      ((p.2.ops.filter vecRuns).head?).bind (fun o =>
        if groupReady s p.1 o then
          some { cls := dClass o.desc, acct := lineAcct s p.1, key := p.1, cost := vecCost (vcLen o.desc) o.prog + (if vcRed o.desc = 0 then 0 else 1),
                 readyAt := o.readyAt.getD (tbNow s), deadline := 0, fits := true }
        else none))

/-! ### One run of lanes -/

/-- The lanes of a run: v0 and v1 with their flags and chafe, run through the program. -/
def runLanes (d : BitVec 512) (o : OpEnt) (loads : List (((W32 × Byte) × Bool) × ((W32 × Byte) × Bool))) : Lanes × List Bool :=
  (vecRun (vcLen d) o.prog (loads.map (fun p => (p.1.1, p.2.1))), loads.map (fun p => p.1.2 || p.2.2 || o.chafedProg))

/-- Stored values of lanes with their final flags: v7 converted to Z's format (R102). -/
def storeLanes (f : Fmt) (x : Lanes) : (List Nat × List Nat) × List Byte :=
  let r := vecStore f (x.regs.map (fun l => l.getD 7 0))
  ((r.1, r.2.1), (x.flags.zipIdx).map (fun p => p.1 ||| r.2.2.getD p.2 0))

/-- A run's values added to the reduction of its row; at the row's end the result is written to AUX (R107). -/
def reduceRun (w : Wrote) (strand acct : Nat) (o : OpEnt) (p : Nat × Nat × Nat) (x : Lanes) (ch : List Bool) : Wrote × OpEnt :=
  let d := o.desc
  if vcRed d = 0 then (w, o)
  else
    let vals := o.partial_ ++ x.regs.map (fun l => l.getD (vcRedSrc d) 0)
    let bad := o.partialChafed || ch.any id
    if p.2.1 + p.2.2 < vcCols d then (w, { o with partial_ := vals, partialChafed := bad })
    else
      let r := ((chunksOf 2048 (vals.length + 1) vals).foldl (redRow (vcRed d)) none).getD (0, 0)
      let w1 := writeChafed w strand acct ((vcAux d).plus (4 * p.1)) ((bytesOf 4 r.1.toNat).map (fun b => (b, bad)))
      (w1, { opFlags o r.2 with partial_ := [], partialChafed := false })

/-- One run of a group: loaded, computed, stored and counted. Each run is written by itself: runs of one group that share
a granule do not cover it whole (DESIGN CHOICE, log entry 129). -/
def doRun (s0 : State) (strand acct : Nat) (acc : Wrote × OpEnt × Lanes) (p : Nat × Nat × Nat) : Wrote × OpEnt × Lanes :=
  let o := acc.2.1
  let d := o.desc
  let konst := vecConsts o.prog
  let loads := (List.range p.2.2).map (fun i =>
    (vecElem s0 strand acct (vcX d) (vcAux d) (vcXF d) (p.1 * vcLdx d + p.2.1 + i), vecY s0 strand acct d konst 0 p.1 (p.2.1 + i)))
  let r := runLanes d o loads
  let st := storeLanes (vcZF d) r.1
  let w1 := writeRun acc.1 strand acct (vcZ d) (vcAux d) (vcZF d) (p.1 * vcLdz d + p.2.1) st.1 r.2
  let keep := lanesKept acc.1.st acct (vcZ d) (vcZF d) (p.1 * vcLdz d + p.2.1) p.2.2
  let census := if vcCensus d then censusRun o.census (vcZF d) st.1 st.2 r.2 keep else o.census
  let o1 := { opFlags o (flagsOr st.2) with n1 := o.n1 + keep.count true, census := census }
  let q := reduceRun w1 strand acct o1 p r.1 r.2
  (q.1, q.2, { r.1 with flags := acc.2.2.flags ++ st.2, regs := acc.2.2.regs ++ r.1.regs })

/-- Blocks whose name a list of spans touches, that the account may write. -/
def goodBlocks (s : State) (acct : Nat) (ss : List (Nat × Nat)) : List Nat :=
  (spansBlocks ss).filter (fun b => !badName s (some acct) (b * blockBytes))

/-- The operation after writes: chafe, dropped writes and blocks whose Z elements it wrote (R114, R155, R253). CHAFED_GRANULES
counts a granule once (R119); the granules counted stand in `units`. -/
def afterWrites (o : OpEnt) (w : Wrote) (blocks : List Nat) : OpEnt :=
  let new := w.marked.filter (fun g => !o.units.contains g)
  let o1 := { o with chafedN := satAdd (2 ^ 32 - 1) o.chafedN new.length, units := new.foldl setIns o.units,
                     wrote := blocks.foldl setIns o.wrote }
  let o2 := if w.marked.isEmpty then o1 else opWorse o1 stChafed
  if w.dropped then opWorse o2 stUncorrectable else o2

/-- One group of a standalone VEC_OP. -/
def runGroup (s0 : State) (strand n : Nat) (o : OpEnt) (found : List Found) : State :=
  let acct := lineAcct s0 n
  let rs := groupRuns o.desc o.next
  let reads := rs.flatMap (runReads o.desc)
  let writes := rs.flatMap (runWrites o.desc)
  let s := foundAll s0 strand reads found
  let s1 := noteAccess s acct (spansBlocks reads)
  let w0 : Wrote := { st := s1, marked := [], dropped := false }
  let r := rs.foldl (doRun s1 strand acct) (w0, o, Lanes.reset)
  let s2 := noteWritten r.1.st acct writes
  let zs := rs.flatMap (fun p => zSpan (vcZ o.desc) (vcZF o.desc) (p.1 * vcLdz o.desc + p.2.1) p.2.2)
  let o1 := { afterWrites r.2.1 r.1 (goodBlocks s2 acct zs) with next := o.next + 1, done := o.done + 1, readyAt := none, aged := false }
  let o2 := if inPlaceRead s acct o vecAway (spansBlocks reads) then opWorse o1 stOkFallback else o1
  let s3 := strandSet s2 strand { strandGet s2 strand with lanes := { r.2.2 with konst := vecConsts o.prog } }
  opKeep (pmuAdd s3 (0x040 + strand) 1 (attrP acct)) n o2

/-! ### Epilogue tiles (R109) -/

/-- Z of a batch of an epilogue, and the place of its scale bytes. -/
def epiZ (d2 : BitVec 512) (b : Nat) : Place := (vcZ d2).plus (64 * vcZStride d2 * b)
def epiScales (d2 : BitVec 512) (b : Nat) : Place := (vcAux d2).plus (2 * vcZStride d2 * b)

/-- Spans that row m of a tile reads and writes. -/
def epiReads (o : OpEnt) (t : TileOp) : List (Nat × Nat) :=
  (List.range t.rows).flatMap (fun m => ySpans o.desc2 t.batch (t.row * bmTm o.desc + m) (128 * t.col) t.cols)
def epiWrites (o : OpEnt) (t : TileOp) : List (Nat × Nat) :=
  (List.range t.rows).flatMap (fun m =>
    vecSpan (epiZ o.desc2 t.batch) (epiScales o.desc2 t.batch) (vcZF o.desc2) ((t.row * bmTm o.desc + m) * vcLdz o.desc2 + 128 * t.col) t.cols)

/-- One row of a tile. The hand-off is W32 for floating multiplicands and I32 for I8 (R88). -/
def epiRow (s0 : State) (strand acct : Nat) (t : TileOp) (acc : Wrote × OpEnt × Lanes) (m : Nat) : Wrote × OpEnt × Lanes :=
  let o := acc.2.1
  let d2 := o.desc2
  let konst := vecConsts o.prog
  let row := t.row * bmTm o.desc + m
  let loads := (List.range t.cols).map (fun i =>
    ((vecLoad (bmDF o.desc) (t.out.getD (m * t.cols + i) 0) 0, t.chafed), vecY s0 strand acct d2 konst t.batch row (128 * t.col + i)))
  let r := runLanes d2 o loads
  let st := storeLanes (vcZF d2) r.1
  let w1 := writeRun acc.1 strand acct (epiZ d2 t.batch) (epiScales d2 t.batch) (vcZF d2) (row * vcLdz d2 + 128 * t.col) st.1 r.2
  let keep := lanesKept acc.1.st acct (epiZ d2 t.batch) (vcZF d2) (row * vcLdz d2 + 128 * t.col) t.cols
  let census := if vcCensus d2 then censusRun o.census (vcZF d2) st.1 st.2 r.2 keep else o.census
  (w1, { opFlags o (flagsOr st.2) with n2 := o.n2 + keep.count true, census := census }, { r.1 with flags := st.2 })

/-- The tile at the head of the tile buffers passes the program and is written to Z. -/
def runEpi (sf : State) (strand : Nat) (t : TileOp) (o : OpEnt) (found : List Found) : State :=
  let acct := t.account
  let s := foundAll sf strand (epiReads o t) found
  let s1 := noteAccess s acct (spansBlocks (epiReads o t))
  let w0 : Wrote := { st := s1, marked := [], dropped := false }
  let r := (List.range t.rows).foldl (epiRow s1 strand acct t) (w0, o, Lanes.reset)
  let s2 := noteWritten r.1.st acct (epiWrites o t)
  let o0 := { afterWrites (opFlags r.2.1 t.flags) r.1 [] with chafedN := o.chafedN, units := o.units }
  let o1 := if inPlaceRead s acct o vecAway (spansBlocks (epiReads o t)) then opWorse o0 stOkFallback else o0
  let s3 := strandSet s2 strand { strandGet s2 strand with
    bufs := (strandGet s2 strand).bufs.drop 1, lanes := { r.2.2 with konst := vecConsts o.prog } }
  opKeep (pmuAdd s3 (0x044 + strand) 1 (attrP acct)) t.line o1

/-- The accesses of the lines' next groups on a strand that wait at their banks (R219, R220). -/
def vecWaits (s : State) (strand : Nat) : State :=
  s.lines.foldl (fun t p =>
    match if lineStrand s p.1 != strand then none else (p.2.ops.filter vecRuns).head? with
    | some o =>
      let rs := groupRuns o.desc o.next
      noteWaits (noteWaits t (rs.flatMap (runReads o.desc)) false) (rs.flatMap (runWrites o.desc)) true
    | none => t) s

/-- The vector engine issues: an aged group first, then the oldest tile of the tile buffers, then the arbiter's pick
(R101). `found` are errors that its reads meet. -/
def execVecGroup (strand : Met StrandNo) (s : State) : Out :=
  let k := strand.val.val
  if quiet s unVector then .next s
  else
    let reqs := vecReqs s k
    let aged := reqs.any (isAged (actF s flAgeUs 0) (tbNow s))
    match (strandGet s k).bufs, aged with
    | t :: _, false =>
      (match opFind s t.line t.seq with
      | some o =>
        if spansReady s t.account o (epiReads o t) (epiWrites o t) then .next (runEpi s k t o strand.found)
        else .next (noteWaits (noteWaits s (epiReads o t) false) (epiWrites o t) true)
      | none => .next (strandSet s k { strandGet s k with bufs := (strandGet s k).bufs.drop 1 }))
    | _, _ =>
      let r := pickNow s 256 false reqs (mapGet Arb.reset s.vecArb k)
      let s1 := { s with vecArb := mapSet Arb.reset s.vecArb k r.2 }
      match r.1 with
      | none => .next (vecWaits s1 k)
      | some q =>
        match ((lineGet s1 q.key).ops.filter vecRuns).head? with
        | some o => .next (runGroup (noteGrant s1 q) k q.key o strand.found)
        | none => .next s1

end Sys2Proof.Machine
end

