-- ==== Sys2Proof/Machine/BightMath.lean ====
section
/-! DEFINITION. The arithmetic of bight attention on exact operands: scores (R125), expansion (R124), the softmax of R134
and R135, and the backward values of R136 to R138. -/

set_option Elab.async false

namespace Sys2Proof.Machine

open Sys2Proof

/-- The shape of a bight operation: descriptor and parameter block (R122, R141, R142). -/
structure BgtSh where
  qf : Fmt
  kvf : Fmt
  outf : Fmt
  dof : Fmt
  dqf : Fmt
  dkvf : Fmt
  expand : Bool
  nh : Nat
  dr : Nat
  dl : Nat
  hg : Nat
  dh : Nat
  dv : Nat
  ldq : Nat
  ldo : Nat
  lddq : Nat
  scale : W32

/-- NE; DQC; DVO; kv, the score block and k-block of Q_FMT (R122, R126). -/
def BgtSh.ne (h : BgtSh) : Nat := h.nh / h.hg
def BgtSh.dqc (h : BgtSh) : Nat := if h.expand then h.dh else h.dl
def BgtSh.dvo (h : BgtSh) : Nat := if h.expand then h.dv else h.dl
def BgtSh.kv (h : BgtSh) : Nat := kblock h.qf
/-- Groups that tiles of the backward phase A are cut by (R136). -/
def BgtSh.groups (h : BgtSh) : Nat := if h.expand then h.ne else 1

/-- One cached token as the tile's heads see it: key content, key position, value; the flags of its expansions, and its
chafe. -/
structure BKey where
  k : List FVal
  kr : List FVal
  v : List FVal
  fk : Byte
  fv : Byte
  chafed : Bool

/-- One query row: content and positional part, and its chafe. -/
structure BRow where
  q : List FVal
  qr : List FVal
  chafed : Bool

def w32Inf : W32 := 0x7F800000
def w32NegInf : W32 := 0xFF800000
def isNanW (w : W32) : Bool := (w32Val w).isNan

/-- Elements paired into products. -/
def pairUp (a b : List FVal) : List Prod2 := (a.zip b).map (fun p => ⟨p.1, p.2⟩)

/-- A value rounded into A40, with SAT and UFL (R52). -/
def a40Of (v : FVal) : BitVec 40 × Byte :=
  let r := encodeFloat layoutA40 v
  (BitVec.ofNat 40 r.1, r.2 &&& (flagSat ||| flagUfl))

def a40Val (a : BitVec 40) : FVal := decodeFloat layoutA40 a.toNat

/-- A map of a latent into one column of a group's space, rounded to Q_FMT (R124). -/
def expandCol (qf : Fmt) (c w : List FVal) : FVal × Byte :=
  let a := dotAcc qf 1 (0, 0) (pairUp c w)
  let r := encodeElem qf (a40Val a.1)
  (decodeElem qf r.1, a.2 ||| r.2)

/-- The score of a row and a token (R125). -/
def score (h : BgtSh) (r : BRow) (t : BKey) : W32 × Byte :=
  let a := dotAcc h.qf 1 (0, 0) (pairUp r.q t.k)
  let b := dotAcc h.qf 1 a (pairUp r.qr t.kr)
  let c := toW32 (a40Val b.1)
  let s := opMul c.1 h.scale 0
  (s.1, b.2 ||| c.2 ||| s.2 ||| t.fk)

/-- tree_sum of R134: the pairing of R107 with ADD. -/
def treeSum (vs : List W32) : W32 × Byte := (redTree 1 vs).getD (0, 0)

/-- A weight converted to a multiplicand format, as the value that enters the product, with its flags (R126, R134). -/
def weight (f : Fmt) (w : W32) : FVal × Byte :=
  let r := encodeElem f (w32Val w)
  (decodeElem f r.1, r.2)

/-- The state of a forward row (R134). -/
structure RowSt where
  m : W32
  l : W32
  ninf : Nat
  nan : Bool
  o : List (BitVec 40)
  oinf : List (BitVec 40)
  fl : Byte

def RowSt.start (dvo : Nat) : RowSt where
  m := w32NegInf
  l := 0
  ninf := 0
  nan := false
  o := List.replicate dvo 0
  oinf := List.replicate dvo 0
  fl := 0

/-- Column c of the visible value rows. -/
def valCol (ks : List BKey) (c : Nat) : List FVal := ks.map (fun k => k.v.getD c .zero)

/-- The products of weights and value columns added to A40 vectors, one group per column (R59, R60). -/
def addGroups (acc : List (BitVec 40)) (cols : Nat → List Prod2) : List (BitVec 40) × Byte :=
  let rs := (acc.zipIdx).map (fun p => accStep (p.1, 0) (cols p.2))
  (rs.map Prod.fst, flagsOr (rs.map Prod.snd))

/-- The value row of a token added into oinf, each sum rounded into A40. -/
def addInf (o : List (BitVec 40)) (k : BKey) : List (BitVec 40) × Byte :=
  let rs := (o.zipIdx).map (fun p =>
    let v := k.v.getD p.2 .zero
    let s := fAdd (a40Val p.1) v
    let r := a40Of s.1
    (r.1, s.2 ||| r.2 ||| consumed [v]))
  (rs.map Prod.fst, flagsOr (rs.map Prod.snd) ||| k.fv)

/-- The scores of a block's visible tokens noted: NaN, +inf and the block maximum (R134). The starting values −inf are no
inputs and raise no flag. -/
def blockScores (st : RowSt) (ks : List BKey) (ss : List (W32 × Byte)) : RowSt × W32 :=
  (ks.zip ss).foldl (fun acc p =>
    let s := p.2.1
    let a := acc.1
    let r := if s = w32Inf then addInf a.oinf p.1 else (a.oinf, 0)
    ({ a with nan := a.nan || isNanW s, ninf := if s = w32Inf then a.ninf + 1 else a.ninf, oinf := r.1, fl := a.fl ||| p.2.2 ||| r.2 },
      (opMax acc.2 s 0).1)) (st, w32NegInf)

/-- One score block of a forward row: `ks` are the tokens visible to the row in it, with their places in the block. -/
def fwdBlock (h : BgtSh) (r : BRow) (st : RowSt) (ks : List (Nat × BKey)) : RowSt :=
  let toks := ks.map Prod.snd
  let ss := toks.map (score h r)
  let b := blockScores st toks ss
  let a := b.1
  if a.nan || 0 < a.ninf then a
  else
    let mn := (opMax a.m b.2 0).1
    if mn = w32NegInf then a
    else
      let alpha : W32 × Byte :=
        if a.m = w32NegInf then (0, 0)
        else
          let d := opSub a.m mn 0
          let e := opExp2 d.1 0 0
          (e.1, d.2 ||| e.2)
      let ps := ss.map (fun s =>
        let d := opSub s.1 mn 0
        let e := opExp2 d.1 0 0
        (e.1, d.2 ||| e.2))
      let at_ (i : Nat) : W32 := ((ks.zip ps).findSome? (fun q => if q.1.1 = i then some q.2.1 else none)).getD 0
      let sum := treeSum ((List.range h.kv).map at_)
      let l := opFma a.l alpha.1 sum.1
      let sc := a.o.map (fun x => let y := fMul (a40Val x) (w32Val alpha.1); let z := a40Of y.1; (z.1, y.2 ||| z.2))
      let ws := ps.map (fun p => weight h.qf p.1)
      let pv := addGroups (sc.map Prod.fst) (fun c => pairUp (ws.map Prod.fst) (valCol toks c))
      let fl := alpha.2 ||| flagsOr (ps.map Prod.snd) ||| sum.2 ||| l.2 ||| flagsOr (sc.map Prod.snd) ||| flagsOr (ws.map Prod.snd) |||
        pv.2 ||| flagsOr (toks.map BKey.fv)
      { a with m := mn, l := l.1, o := pv.1, fl := a.fl ||| fl }

/-- A quotient of an A40 value rounded once to a format (round_out of R134). -/
def roundOut (f : Fmt) (a : BitVec 40) (n : FVal) : Nat × Byte :=
  let q := fDiv (a40Val a) n
  let r := encodeElem f q.1
  (r.1, q.2 ||| r.2)

/-- The outputs of a forward row: elements of O, then MAX, SUM and LSE2, with flags (R134, R135). -/
def fwdFinish (h : BgtSh) (st : RowSt) : List Nat × (W32 × W32 × W32) × Byte :=
  if st.nan then (st.o.map (fun _ => (encodeElem h.outf (.nan false)).1), (w32Nan, w32Nan, w32Nan), st.fl ||| flagNanIn)
  else if 0 < st.ninf then
    let n := FVal.ofInt st.ninf
    let r := st.oinf.map (fun a => roundOut h.outf a n)
    (r.map Prod.fst, (w32Inf, (toW32 n).1, w32Inf), st.fl ||| flagsOr (r.map Prod.snd) ||| flagInfIn)
  else if st.m = w32NegInf then (st.o.map (fun _ => 0), (w32NegInf, 0, w32NegInf), st.fl)
  else
    let r := st.o.map (fun a => roundOut h.outf a (w32Val st.l))
    let lg := opLog2 st.l 0 0
    let e := opAdd st.m lg.1 0
    (r.map Prod.fst, (st.m, st.l, e.1), st.fl ||| flagsOr (r.map Prod.snd) ||| lg.2 ||| e.2)

/-- A whole forward row: `blocks` are its visible tokens, block by block in increasing order. -/
def fwdRow (h : BgtSh) (r : BRow) (blocks : List (List (Nat × BKey))) : List Nat × (W32 × W32 × W32) × Byte :=
  fwdFinish h ((blocks.filter (fun b => !b.isEmpty)).foldl (fwdBlock h r) (RowSt.start h.dvo))

/-! ### Backward -/

/-- SL of R137: SCALE × ln 2 rounded once. -/
def slOf (scale : W32) : W32 :=
  match w32Val scale with
  | .fin s m e => (refineIv (fun w => let l := ivLn2 w; ivRound s { lo := m * l.lo, hi := m * l.hi } (e - w)) 6 64).1
  | _ => scale

/-- DELTA of a row (R136). -/
def deltaOf (dO o : List W32) : W32 × Byte :=
  let ps := (dO.zip o).map (fun p => opMul p.1 p.2 0)
  let s := treeSum (ps.map Prod.fst)
  (s.1, flagsOr (ps.map Prod.snd) ||| s.2)

/-- A query row of the backward pass with its dO row and statistics. -/
structure BBack where
  row : BRow
  dO : List FVal
  sum : W32
  lse : W32
  delta : W32
  chafed : Bool

/-- What a row gives at one visible position (R137, R138): the weight P that goes to dV, dS, and flags; a value that the row
does not contribute is none. -/
structure BGrad where
  p : Option FVal
  ds : Option FVal
  fl : Byte

def nanGrad : BGrad where
  p := some (.nan false)
  ds := some (.nan false)
  fl := flagNanIn

/-- The gradient values of a row at its visible tokens. A row whose LSE2 is −inf contributes nothing even where its recomputed
scores hold a NaN: both cases of R138 apply, and the first is taken (DESIGN CHOICE, log entry 120). -/
def rowGrads (h : BgtSh) (r : BBack) (ks : List BKey) : List BGrad :=
  let ss := ks.map (score h r.row)
  let fs := flagsOr (ss.map Prod.snd)
  if ks.isEmpty || r.lse = w32NegInf then ks.map (fun _ => { p := none, ds := none, fl := fs })
  else if isNanW r.lse || ss.any (fun s => isNanW s.1) then ks.map (fun _ => { nanGrad with fl := fs ||| flagNanIn })
  else if r.lse = w32Inf then
    let inv := opRcp r.sum 0 0
    let w := weight h.dof inv.1
    ss.map (fun s => { p := if s.1 = w32Inf then some w.1 else none, ds := none, fl := s.2 ||| flagInfIn ||| (if s.1 = w32Inf then w.2 else 0) })
  else
    let sl := slOf h.scale
    (ks.zip ss).map (fun q =>
      let d := opSub q.2.1 r.lse 0
      let p := opExp2 d.1 0 0
      let a := dotAcc h.qf 1 (0, 0) (pairUp r.dO q.1.v)
      let dP := toW32 (a40Val a.1)
      let x := opSub dP.1 r.delta 0
      let y := opMul p.1 x.1 0
      let z := opMul y.1 sl 0
      let wp := weight h.dof p.1
      let wd := weight h.qf z.1
      { p := some wp.1, ds := some wd.1,
        fl := q.2.2 ||| d.2 ||| p.2 ||| a.2 ||| dP.2 ||| x.2 ||| y.2 ||| z.2 ||| wp.2 ||| wd.2 ||| q.1.fv })

/-- One k-block of products for each column of an output row: pairs of a contributed weight and the row's element. -/
def gradCols (ws : List (Option FVal)) (rows : List (List FVal)) (c : Nat) : List Prod2 :=
  (ws.zip rows).filterMap (fun p => p.1.map (fun w => ⟨w, p.2.getD c .zero⟩))

/-- dQ of a row (R137, R138): accumulators over the score blocks in increasing order; `blocks` as in `fwdRow`. -/
def dqRow (h : BgtSh) (r : BBack) (blocks : List (List (Nat × BKey))) : List (BitVec 40) × Byte :=
  let width := h.dqc + h.dr
  let all := (blocks.filter (fun b => !b.isEmpty)).map (fun b => b.map Prod.snd)
  let gs := rowGrads h r all.flatten
  let nan := gs.any (fun g => g.ds == some (.nan false) && g.p == some (.nan false)) || (isNanW r.lse)
  if nan then (List.replicate width (a40Of (.nan false)).1, flagsOr (gs.map BGrad.fl) ||| flagNanIn)
  else
    let step (acc : (List (BitVec 40) × Byte) × List BGrad) (b : List BKey) : (List (BitVec 40) × Byte) × List BGrad :=
      let g := acc.2.take b.length
      let a := addGroups acc.1.1 (fun c => gradCols (g.map BGrad.ds) (b.map (fun k => k.k ++ k.kr)) c)
      ((a.1, acc.1.2 ||| a.2), acc.2.drop b.length)
    let r0 := all.foldl step ((List.replicate width 0, 0), gs)
    (r0.1.1, r0.1.2 ||| flagsOr (gs.map BGrad.fl))

/-- The gradients that a k-block of query rows gives at one key position: the row and its P and dS there. -/
structure BContrib where
  row : BBack
  g : BGrad

/-- One k-block of rows accumulated into a dKV row of absorbed mode: dC takes the dS group and then the P group; dKR takes
the dS group (R137). -/
def dkvAbsorbed (h : BgtSh) (acc : List (BitVec 40) × Byte) (cs : List BContrib) : List (BitVec 40) × Byte :=
  let ds := cs.map (fun c => c.g.ds)
  let ps := cs.map (fun c => c.g.p)
  let a := addGroups acc.1 (fun c => gradCols ds (cs.map (fun x => x.row.row.q ++ x.row.row.qr)) c)
  let b := addGroups a.1 (fun c => if c < h.dl then gradCols ps (cs.map (fun x => x.row.dO)) c else [])
  (b.1, acc.2 ||| a.2 ||| b.2)

/-- The same for a group's dK_e and dV_e in expand-on-read mode. -/
def dkvExpand (h : BgtSh) (acc : List (BitVec 40) × Byte) (cs : List BContrib) : List (BitVec 40) × Byte :=
  let ds := cs.map (fun c => c.g.ds)
  let ps := cs.map (fun c => c.g.p)
  let a := addGroups acc.1 (fun c =>
    if c < h.dh then gradCols ds (cs.map (fun x => x.row.row.q)) c
    else gradCols ps (cs.map (fun x => x.row.dO)) (c - h.dh))
  (a.1, acc.2 ||| a.2)

/-- The same for a group's part of dKR in expand-on-read mode. -/
def dkrExpand (acc : List (BitVec 40) × Byte) (cs : List BContrib) : List (BitVec 40) × Byte :=
  let ds := cs.map (fun c => c.g.ds)
  let a := addGroups acc.1 (fun c => gradCols ds (cs.map (fun x => x.row.row.qr)) c)
  (a.1, acc.2 ||| a.2)

end Sys2Proof.Machine
end

