-- ==== Sys2Proof/Machine/Bight.lean ====
section
/-! DEFINITION. Bight operations: descriptors, parameter blocks, length tables and page tables (R127 to R131, R141, R142),
dispatch checks (R144), tiles (R133, R136, R146), pages (R139, R140) and what each event of a bight tile does. -/

set_option Elab.async false

namespace Sys2Proof.Machine

open Sys2Proof

def bgQ (d : BitVec 512) : Place := { eye := dF d 8 48 48 = 1, addr := dF d 8 47 0 }
def bgQFmt (d : BitVec 512) : Nat := dF d 8 52 49
def bgMode (d : BitVec 512) : Bool := dF d 8 53 53 = 1
def bgTq (d : BitVec 512) : Nat := 64 * 2 ^ dF d 8 55 54
def bgO (d : BitVec 512) : Place := { eye := dF d 0x10 48 48 = 1, addr := dF d 0x10 47 0 }
def bgOFmt (d : BitVec 512) : Nat := dF d 0x10 52 49
def bgStat (d : BitVec 512) : Place := { eye := dF d 0x18 48 48 = 1, addr := dF d 0x18 47 0 }
def bgKvFmt (d : BitVec 512) : Nat := dF d 0x18 52 49
def bgKvWfmt (d : BitVec 512) : Nat := dF d 0x18 56 53
def bgKvWiden (d : BitVec 512) : Bool := dF d 0x18 57 57 = 1
def bgParam (d : BitVec 512) : Nat := dF d 0x20 47 0
def bgNseq (d : BitVec 512) : Nat := dF d 0x20 60 48
def bgLt (d : BitVec 512) : Nat := dF d 0x28 47 0
def bgPt (d : BitVec 512) : Nat := dF d 0x30 47 0
def bgArrays (d : BitVec 512) : Nat := dF d 0x30 52 48
def bgPfWindow (d : BitVec 512) : Nat := dF d 0x30 60 53
def bgPageWait (d : BitVec 512) : Nat := dF d 0x38 31 0
def bgDoFmt (d : BitVec 512) : Nat := dF d 0x38 35 32
def bgDqFmt (d : BitVec 512) : Nat := dF d 0x38 39 36
def bgDkvFmt (d : BitVec 512) : Nat := dF d 0x38 43 40

/-- Addresses of the parameter block (R142). -/
def bpMask (par : List Byte) : Nat := pF par 0x18 47 0
def bpWuk (par : List Byte) : Nat := pF par 0x20 47 0
def bpWuv (par : List Byte) : Nat := pF par 0x28 47 0
def bpDo (par : List Byte) : Nat := pF par 0x30 47 0
def bpDq (par : List Byte) : Nat := pF par 0x38 47 0
def bpDkv (par : List Byte) : Nat := pF par 0x40 47 0

def fmtOr (c : Nat) : Fmt := (Fmt.ofCode c).getD .w32

/-- The shape of an operation. -/
def bgShape (d : BitVec 512) (par : List Byte) : BgtSh where
  qf := fmtOr (bgQFmt d)
  kvf := fmtOr (bgKvFmt d)
  outf := fmtOr (bgOFmt d)
  dof := fmtOr (bgDoFmt d)
  dqf := fmtOr (bgDqFmt d)
  dkvf := fmtOr (bgDkvFmt d)
  expand := bgMode d
  nh := pF par 0 39 32
  dr := pF par 0 47 40
  dl := pF par 0 58 48
  hg := 2 ^ pF par 0 61 59
  dh := pF par 8 8 0
  dv := pF par 8 24 16
  ldq := pF par 8 51 32
  ldo := pF par 0x10 19 0
  lddq := pF par 0x10 51 32
  scale := BitVec.ofNat 32 (pF par 0 31 0)

/-- A length-table entry (R130). -/
structure BSeq where
  qStart : Nat
  qLen : Nat
  kvLen : Nat
  ptStart : Nat
  mask : Nat
  win : Nat
  dkvStart : Nat
  qoff : Nat

def bgSeq (tab : List Byte) (i : Nat) : BSeq where
  qStart := pF tab (32 * i) 31 0
  qLen := pF tab (32 * i) 63 32
  kvLen := pF tab (32 * i + 8) 31 0
  ptStart := pF tab (32 * i + 8) 63 32
  mask := pF tab (32 * i + 0x10) 2 0
  win := pF tab (32 * i + 0x10) 52 32
  dkvStart := pF tab (32 * i + 0x18) 31 0
  qoff := pF tab (32 * i + 0x18) 52 32

def bgSeqs (o : OpEnt) : List BSeq := (List.range (bgNseq o.desc)).map (bgSeq o.tab)

/-- Pages of a sequence. -/
def seqPages (q : BSeq) : Nat := ceilDiv q.kvLen 64

/-- Index of the first page of a sequence in page order (R139). -/
def pageBase (o : OpEnt) (si : Nat) : Nat := ((bgSeqs o).take si).foldl (fun n q => n + seqPages q) 0

/-- The page-table entry of a page in page order, with whether it read chafed: 9 B of the operation's copy. -/
def pageEntry (o : OpEnt) (i : Nat) : Nat × Bool := (pF o.ptab (9 * i) 63 0, (o.ptab.getD (9 * i + 8) 0) != 0)
def pageAddrOf (o : OpEnt) (i : Nat) : Nat := (pageEntry o i).1 % 2 ^ 48

/-- PB of R128. -/
def pageBytes (h : BgtSh) : Nat := 64 * (h.dl + h.dr) * fmtBytes h.kvf

/-! ### Masks (R131) -/

def isBlockMask (k : Nat) : Bool := k = 4 || k = 5

/-- The BLOCK bit of a token and a position, with its chafe. -/
def maskBit (s : State) (acct : Nat) (o : OpEnt) (q : BSeq) (t p : Nat) : Bool × Bool :=
  let i := q.win * 64 + t / 64 * ceilDiv q.kvLen 64 + p / 64
  let b := devReadN s (some acct) (bpMask o.par + i / 8) 1
  (b.1.testBit (i % 8), b.2)

/-- Position p is visible to query token t of the sequence. -/
def visible (s : State) (acct : Nat) (o : OpEnt) (q : BSeq) (t p : Nat) : Bool :=
  let x := q.qoff + t
  p < q.kvLen &&
  (match q.mask with
  | 0 => true
  | 1 => p ≤ x
  | 2 => x < p + q.win && p ≤ x
  | 3 => p < q.win || p ≤ x
  | 4 => (maskBit s acct o q t p).1
  | _ => (maskBit s acct o q t p).1 && p ≤ x)

/-- Visible positions of a token, in increasing order. -/
def seen (s : State) (acct : Nat) (o : OpEnt) (q : BSeq) (t : Nat) : List Nat := (List.range q.kvLen).filter (visible s acct o q t)

/-! ### Tiles (R133, R136) -/

/-- Query tiles of a sequence. -/
def qTiles (h : BgtSh) (tq : Nat) (q : BSeq) : Nat :=
  if q.qLen = 0 then 0
  else if h.expand then ceilDiv q.qLen (tq / h.hg) * h.ne else ceilDiv (q.qLen * h.nh) tq

/-- Tiles of phase A of a sequence. -/
def aTiles (h : BgtSh) (q : BSeq) : Nat := if q.qLen = 0 then 0 else ceilDiv q.kvLen h.kv * h.groups

/-- Tiles of a sequence over its phases. -/
def seqTiles (h : BgtSh) (bwd : Bool) (tq : Nat) (q : BSeq) : Nat := (if bwd then aTiles h q else 0) + qTiles h tq q

/-- The place of the operation's tile i: sequence, phase (0 forward, 1 phase A, 2 phase B) and index within the phase. -/
def tilePlace (h : BgtSh) (bwd : Bool) (tq : Nat) : List BSeq → Nat → Nat → Option (Nat × Nat × Nat)
  | [], _, _ => none
  | q :: qs, si, i =>
    let a := if bwd then aTiles h q else 0
    let n := seqTiles h bwd tq q
    if i < a then some (si, 1, i)
    else if i < n then some (si, if bwd then 2 else 0, i - a)
    else tilePlace h bwd tq qs (si + 1) (i - n)

def bgBwd (o : OpEnt) : Bool := opcodeOf o.desc = opBgtBwd

/-- Tiles of the operation. -/
def bgTotal (h : BgtSh) (o : OpEnt) : Nat := (bgSeqs o).foldl (fun n q => n + seqTiles h (bgBwd o) (bgTq o.desc) q) 0

/-- Rows (token, head) of query tile k, in increasing row order; and its expansion group. -/
def qTileRows (h : BgtSh) (tq : Nat) (q : BSeq) (k : Nat) : List (Nat × Nat) × Nat :=
  if h.expand then
    let per := tq / h.hg
    let e := k % h.ne
    let t0 := k / h.ne * per
    (((List.range (min per (q.qLen - t0))).flatMap (fun i => (List.range h.hg).map (fun j => (t0 + i, e * h.hg + j)))), e)
  else
    ((List.range (min tq (q.qLen * h.nh - k * tq))).map (fun i => ((k * tq + i) / h.nh, (k * tq + i) % h.nh)), 0)

/-- Rows that tile k of phase A sweeps, and its group. -/
def aTileRows (h : BgtSh) (q : BSeq) (k : Nat) : List (Nat × Nat) × Nat :=
  if h.expand then
    let e := k % h.ne
    (((List.range q.qLen).flatMap (fun t => (List.range h.hg).map (fun j => (t, e * h.hg + j)))), e)
  else (((List.range (q.qLen * h.nh)).map (fun i => (i / h.nh, i % h.nh))), 0)

/-- The rows and the group of a bight tile. -/
def bTileRows (h : BgtSh) (tq : Nat) (q : BSeq) (t : TileOp) : List (Nat × Nat) × Nat :=
  if t.phase = 1 then aTileRows h q t.row else qTileRows h tq q t.row

/-- Row index r of R127. -/
def rowNo (h : BgtSh) (q : BSeq) (p : Nat × Nat) : Nat := (q.qStart + p.1) * h.nh + p.2

/-- Score blocks that a tile processes: those in which some row has a visible position, or its one block in phase A. -/
def tileBlocks (s : State) (h : BgtSh) (o : OpEnt) (q : BSeq) (t : TileOp) : List Nat :=
  if t.phase = 1 then [t.row / h.groups]
  else
    let toks := ((bTileRows h (bgTq o.desc) q t).1.map Prod.fst).dedup
    (List.range (ceilDiv q.kvLen h.kv)).filter (fun j =>
      toks.any (fun x => (List.range h.kv).any (fun i => visible s t.account o q x (j * h.kv + i))))

/-- Pages of block j that hold a position visible to the tile, by index within the sequence. -/
def blockPages (s : State) (h : BgtSh) (o : OpEnt) (q : BSeq) (t : TileOp) (j : Nat) : List Nat :=
  let toks := ((bTileRows h (bgTq o.desc) q t).1.map Prod.fst).dedup
  ((List.range (h.kv / 64)).map (fun i => j * (h.kv / 64) + i)).filter (fun g =>
    g < seqPages q && toks.any (fun x => (List.range 64).any (fun i => visible s t.account o q x (64 * g + i))))

/-! ### Operands -/

/-- Decoded elements at a place, with whether any read chafed. -/
def elemsAt (s : State) (strand acct : Nat) (p : Place) (f : Fmt) (x n : Nat) : List FVal × Bool :=
  let r := (List.range n).map (fun i => placeElem s strand acct p f (x + i))
  (r.map (fun e => decodeElem f e.1), r.any Prod.snd)

/-- A query row. -/
def readRowQ (s : State) (strand acct : Nat) (h : BgtSh) (d : BitVec 512) (r : Nat) : BRow :=
  let q := elemsAt s strand acct (bgQ d) h.qf (r * h.ldq) h.dqc
  let k := elemsAt s strand acct (bgQ d) h.qf (r * h.ldq + h.dqc) h.dr
  { q := q.1, qr := k.1, chafed := q.2 || k.2 }

/-- Column x of a map stored row-major with `w` columns. -/
def mapCol (s : State) (acct : Nat) (h : BgtSh) (base w x : Nat) : List FVal × Bool :=
  let r := (List.range h.dl).map (fun i => placeElem s 0 acct { eye := false, addr := base } h.qf (i * w + x))
  (r.map (fun e => decodeElem h.qf e.1), r.any Prod.snd)

/-- The maps WUK_e and WUV_e as columns, empty in absorbed mode. -/
def groupMaps (s : State) (acct : Nat) (h : BgtSh) (par : List Byte) (e : Nat) : List (List FVal) × List (List FVal) × Bool :=
  if h.expand then
    let k := (List.range h.dh).map (fun x => mapCol s acct h (bpWuk par) (h.ne * h.dh) (e * h.dh + x))
    let v := (List.range h.dv).map (fun x => mapCol s acct h (bpWuv par) (h.ne * h.dv) (e * h.dv + x))
    (k.map Prod.fst, v.map Prod.fst, (k ++ v).any Prod.snd)
  else ([], [], false)

/-- A cached token for a group: its latent and positional rows from its page, expanded in expand-on-read mode. -/
def readKey (s : State) (acct : Nat) (h : BgtSh) (o : OpEnt) (si p : Nat) (maps : List (List FVal) × List (List FVal) × Bool) : BKey :=
  let en := pageEntry o (pageBase o si + p / 64)
  let pg : Place := { eye := false, addr := en.1 % 2 ^ 48 }
  let c := elemsAt s 0 acct pg h.kvf (p % 64 * h.dl) h.dl
  let kr := elemsAt s 0 acct pg h.kvf (64 * h.dl + p % 64 * h.dr) h.dr
  let ch := c.2 || kr.2 || en.2
  if h.expand then
    let ks := maps.1.map (expandCol h.qf c.1)
    let vs := maps.2.1.map (expandCol h.qf c.1)
    { k := ks.map Prod.fst, kr := kr.1, v := vs.map Prod.fst, fk := flagsOr (ks.map Prod.snd), fv := flagsOr (vs.map Prod.snd), chafed := ch || maps.2.2 }
  else { k := c.1, kr := kr.1, v := c.1, fk := 0, fv := 0, chafed := ch }

/-- A statistics word of a row: MAX, SUM, LSE2 and DELTA are 0 to 3. -/
def statWord (s : State) (strand acct : Nat) (d : BitVec 512) (r i : Nat) : W32 × Bool :=
  let w := placeNat s strand acct ((bgStat d).plus (16 * r + 4 * i)) 4
  (BitVec.ofNat 32 w.1, w.2)

/-- A row of the backward pass. -/
def readBack (s : State) (strand acct : Nat) (h : BgtSh) (o : OpEnt) (r : Nat) : BBack :=
  let row := readRowQ s strand acct h o.desc r
  let g := elemsAt s strand acct { eye := false, addr := bpDo o.par } h.dof (r * h.ldo) h.dvo
  let w (i : Nat) : W32 × Bool := statWord s strand acct o.desc r i
  { row := row, dO := g.1, sum := (w 1).1, lse := (w 2).1, delta := (w 3).1,
    chafed := row.chafed || g.2 || (w 1).2 || (w 2).2 || (w 3).2 }

/-! ### Spans -/

/-- A device span at a place; none in eye space. -/
def spanAt (p : Place) (off n : Nat) : List (Nat × Nat) := if p.eye then [] else [(p.addr + off, n)]

/-- The last group's tile of a block, which also writes dKR in expand-on-read mode. -/
def writesKr (h : BgtSh) (t : TileOp) : Bool := h.expand && t.row % h.groups + 1 = h.ne

/-- Spans beside the pages that a tile reads: query rows, statistics, dO, the maps and the BLOCK plane. The
tile that forms dKR reads the rows of every head. -/
def bgtReads (h : BgtSh) (o : OpEnt) (q : BSeq) (t : TileOp) : List (Nat × Nat) :=
  let d := o.desc
  let rows := if t.phase = 1 && writesKr h t then (List.range q.qLen).flatMap (fun x => (List.range h.nh).map (fun k => (x, k)))
    else (bTileRows h (bgTq d) q t).1
  let sq := fmtBytes h.qf
  rows.flatMap (fun p =>
    let r := rowNo h q p
    spanAt (bgQ d) (r * h.ldq * sq) ((h.dqc + h.dr) * sq) ++
    (if bgBwd o then spanAt (bgStat d) (16 * r) 16 ++ [(bpDo o.par + r * h.ldo * fmtBytes h.dof, h.dvo * fmtBytes h.dof)] else [])) ++
  (if h.expand then [(bpWuk o.par, h.dl * h.ne * h.dh * sq), (bpWuv o.par, h.dl * h.ne * h.dv * sq)] else []) ++
  (if isBlockMask q.mask && q.kvLen != 0 then
    [(bpMask o.par + q.win * 8, ceilDiv (ceilDiv q.qLen 64 * ceilDiv q.kvLen 64) 8)] else [])

/-- Spans that phase 0 of a sequence reads and writes (R136). -/
def phase0Reads (h : BgtSh) (o : OpEnt) (q : BSeq) : List (Nat × Nat) :=
  let n := q.qLen * h.nh
  let r0 := q.qStart * h.nh
  (List.range n).flatMap (fun i =>
    spanAt (bgO o.desc) ((r0 + i) * h.ldo * fmtBytes h.outf) (h.dvo * fmtBytes h.outf) ++
    [(bpDo o.par + (r0 + i) * h.ldo * fmtBytes h.dof, h.dvo * fmtBytes h.dof)])
def phase0Writes (h : BgtSh) (o : OpEnt) (q : BSeq) : List (Nat × Nat) :=
  (List.range (q.qLen * h.nh)).flatMap (fun i => spanAt (bgStat o.desc) (16 * (q.qStart * h.nh + i) + 12) 4)

/-- Width of a dKV row, and the first element and width that a tile's group writes of it (R136). -/
def dkvWidth (h : BgtSh) : Nat := if h.expand then h.ne * (h.dh + h.dv) + h.dr else h.dl + h.dr

/-- Spans that a tile writes. -/
def bgtWrites (h : BgtSh) (o : OpEnt) (q : BSeq) (t : TileOp) : List (Nat × Nat) :=
  let d := o.desc
  let rows := (bTileRows h (bgTq d) q t).1
  if t.phase = 0 then
    rows.flatMap (fun p =>
      let r := rowNo h q p
      spanAt (bgO d) (r * h.ldo * fmtBytes h.outf) (h.dvo * fmtBytes h.outf) ++ spanAt (bgStat d) (16 * r) 16)
  else if t.phase = 2 then rows.map (fun p => (bpDq o.par + rowNo h q p * h.lddq * fmtBytes h.dqf, (h.dqc + h.dr) * fmtBytes h.dqf))
  else
    let j := t.row / h.groups
    let w := dkvWidth h * fmtBytes h.dkvf
    [(bpDkv o.par + (q.dkvStart + j * h.kv) * w, (min h.kv (q.kvLen - j * h.kv)) * w)]

/-! ### Dispatch (R144) -/

def kernSpan (p : Nat × Nat) : Bool := p.1 + p.2 ≤ mantleBase

/-- A footprint at a place lies in kern, or in the account's eye window. -/
def footOk (s : State) (strand acct : Nat) (p : Place) (lo hi : Nat) : Bool :=
  if p.eye then p.addr + hi ≤ 2 ^ 26 && p.addr + hi ≤ actF s flEyeSize (strand * 256 + acct) * 65536
  else p.addr + hi ≤ mantleBase || hi ≤ lo

/-- Rows [lo, hi) of R127 that a sequence uses. -/
def seqRows (h : BgtSh) (q : BSeq) : Nat × Nat := (q.qStart * h.nh, (q.qStart + q.qLen) * h.nh)

/-- The footprint of rows [lo, hi) with a leading dimension: from the first byte of the first to the last of the last. -/
def rowFoot (p : Place) (r : Nat × Nat) (ld width sz : Nat) : Bool × Nat × Nat :=
  (p.eye, p.addr + r.1 * ld * sz, if r.2 ≤ r.1 then p.addr + r.1 * ld * sz else p.addr + ((r.2 - 1) * ld + width) * sz)

def footMeets (a b : Bool × Nat × Nat) : Bool := a.1 = b.1 && a.2.1 < b.2.2 && b.2.1 < a.2.2

def inKern (a : Nat) : Place := { eye := false, addr := a }

/-- Output footprints of a sequence. The statistics of a backward operation are outputs of it for row 6 only against other
sequences. -/
def seqOuts (h : BgtSh) (o : OpEnt) (q : BSeq) : List (Bool × Nat × Nat) :=
  let r := seqRows h q
  if bgBwd o then
    [rowFoot (inKern (bpDq o.par)) r h.lddq (h.dqc + h.dr) (fmtBytes h.dqf),
     rowFoot (inKern (bpDkv o.par)) (q.dkvStart, if q.qLen = 0 then q.dkvStart else q.dkvStart + q.kvLen) (dkvWidth h) (dkvWidth h) (fmtBytes h.dkvf)]
  else [rowFoot (bgO o.desc) r h.ldo h.dvo (fmtBytes h.outf), rowFoot (bgStat o.desc) r 16 16 1]

def seqStat (h : BgtSh) (o : OpEnt) (q : BSeq) : List (Bool × Nat × Nat) :=
  if bgBwd o then [rowFoot (bgStat o.desc) (seqRows h q) 16 16 1] else []

/-- Footprints of the pages. -/
def bgtPages (h : BgtSh) (o : OpEnt) : List (Bool × Nat × Nat) :=
  (List.range (o.ptab.length / 9)).map (fun i => (false, pageAddrOf o i, pageAddrOf o i + pageBytes h))

/-- Input footprints beside the pages: query rows, O and dO of a backward operation, maps and the BLOCK plane. -/
def bgtInputs (h : BgtSh) (o : OpEnt) : List (Bool × Nat × Nat) :=
  let live := (bgSeqs o).filter (fun q => q.qLen != 0)
  live.map (fun q => rowFoot (bgQ o.desc) (seqRows h q) h.ldq (h.dqc + h.dr) (fmtBytes h.qf)) ++
  (if bgBwd o then live.flatMap (fun q =>
    [rowFoot (bgO o.desc) (seqRows h q) h.ldo h.dvo (fmtBytes h.outf), rowFoot (inKern (bpDo o.par)) (seqRows h q) h.ldo h.dvo (fmtBytes h.dof)]) else []) ++
  (if h.expand then
    [(false, bpWuk o.par, bpWuk o.par + h.dl * h.ne * h.dh * fmtBytes h.qf), (false, bpWuv o.par, bpWuv o.par + h.dl * h.ne * h.dv * fmtBytes h.qf)] else []) ++
  (live.filter (fun q => isBlockMask q.mask)).map (fun q =>
    (false, bpMask o.par + 8 * q.win, bpMask o.par + 8 * q.win + ceilDiv (ceilDiv q.qLen 64 * ceilDiv q.kvLen 64) 8))

/-- Row 1 of R144: the limits of R122 and the reserved bytes of R142. -/
def bgtParOk (h : BgtSh) (bwd : Bool) (par : List Byte) : Bool :=
  let mult (x lo hi : Nat) : Bool := lo ≤ x && x ≤ hi && x % 64 = 0
  let pos := match w32Val h.scale with
    | .fin false m _ => m != 0
    | _ => false
  pos && 1 ≤ h.nh && h.nh ≤ 128 && mult h.dl 64 1024 && (h.dr = 0 || h.dr = 64 || h.dr = 128) &&
  (if h.expand then mult h.dh 64 256 && mult h.dv 64 256 && h.hg ≤ 64 && h.nh % h.hg = 0
   else h.dh = 0 && h.dv = 0 && h.hg = 1) &&
  pF par 0 63 62 = 0 && pF par 8 15 9 = 0 && pF par 8 31 25 = 0 && pF par 8 63 52 = 0 && pF par 0x10 31 20 = 0 && pF par 0x10 63 52 = 0 &&
  [0x18, 0x20, 0x28, 0x30, 0x38, 0x40].all (fun a => pF par a 63 48 = 0) && (par.drop 0x48).all (fun b => b = 0) &&
  (h.expand || (bpWuk par = 0 && bpWuv par = 0)) &&
  (bwd || (h.lddq = 0 && bpDo par = 0 && bpDq par = 0 && bpDkv par = 0))

/-- Row 3 of R144 on one entry. -/
def bgtEntryOk (bwd : Bool) (par tab : List Byte) (i : Nat) : Bool :=
  let q := bgSeq tab i
  q.qLen ≤ 2 ^ 20 && q.kvLen ≤ 2 ^ 20 && q.mask < 6 && pF tab (32 * i + 0x10) 31 3 = 0 && pF tab (32 * i + 0x10) 63 53 = 0 &&
  pF tab (32 * i + 0x18) 63 53 = 0 && !(q.mask = 2 && q.win = 0) && (q.mask = 2 || q.mask = 3 || isBlockMask q.mask || q.win = 0) &&
  !(isBlockMask q.mask && bpMask par = 0) && (bwd || q.dkvStart = 0)

/-- Row 4 of R144: a page-table entry. -/
def pageOk (v : Variant) (h : BgtSh) (e : Nat) : Bool :=
  e / 2 ^ 48 = 0 && e % 64 = 0 && (e + pageBytes h ≤ mantleBase || (mantleBase ≤ e && e + pageBytes h ≤ mantleEnd v))

/-- Rows 5 and 6 of R144. -/
def bgtFootOk (s : State) (strand acct : Nat) (h : BgtSh) (o : OpEnt) : Bool :=
  let live := (bgSeqs o).filter (fun q => q.qLen != 0)
  let inside (f : Bool × Nat × Nat) : Bool := footOk s strand acct { eye := f.1, addr := 0 } f.2.1 f.2.2
  let stats := live.flatMap (seqStat h o)
  let outs := live.map (seqOuts h o)
  let ins := bgtInputs h o
  (ins ++ outs.flatten ++ stats).all inside &&
  (pairsOf (live.map (fun q => seqOuts h o q ++ seqStat h o q))).all (fun p => !p.1.any (fun a => p.2.any (footMeets a))) &&
  outs.flatten.all (fun a => (ins ++ bgtPages h o).all (fun b => !footMeets a b))

/-- MASK_ADDR is zero where no entry uses a BLOCK plane (R3, R142). -/
def bgtMaskOk (o : OpEnt) : Bool := (bgSeqs o).any (fun q => isBlockMask q.mask) || bpMask o.par = 0

/-- No row of R144 fails, without the chafe rule. The bytes of a page-table entry that read chafed are checked like any other
(DESIGN CHOICE, log entry 121). -/
def bgtCheck (s : State) (strand acct : Nat) (h : BgtSh) (o : OpEnt) : Bool :=
  bgtParOk h (bgBwd o) o.par && bgtMaskOk o && h.dqc + h.dr ≤ h.ldq && h.dvo ≤ h.ldo && (!bgBwd o || h.dqc + h.dr ≤ h.lddq) &&
  (List.range (bgNseq o.desc)).all (bgtEntryOk (bgBwd o) o.par o.tab) &&
  (List.range (o.ptab.length / 9)).all (fun i => pageOk s.fuses.variant h (pageEntry o i).1) &&
  bgtFootOk s strand acct h o

/-- Device spans of every output of the operation. -/
def bgtOutSpans (h : BgtSh) (o : OpEnt) : List (Nat × Nat) :=
  (((bgSeqs o).filter (fun q => q.qLen != 0)).flatMap (fun q => seqOuts h o q ++ seqStat h o q)).filterMap (fun f =>
    if f.1 then none else some (f.2.1, f.2.2 - f.2.1))

/-- The page-table entries that the length table names, 9 B each (R142); those of a sequence with Q_LEN = 0 are read and used
like any other (DESIGN CHOICE, log entry 122). -/
def readPages (s : State) (acct : Nat) (o : OpEnt) : List Byte :=
  (bgSeqs o).flatMap (fun q => (List.range (min (seqPages q) 16384)).flatMap (fun i =>
    let r := devRead s (some acct) (bgPt o.desc + 8 * (q.ptStart + i)) 8
    r.1 ++ [if r.2 then 1 else 0]))

/-- Spans of the page-table entries that the length table names. -/
def pageTabSpans (o : OpEnt) : List (Nat × Nat) :=
  (bgSeqs o).map (fun q => (bgPt o.desc + 8 * q.ptStart, 8 * min (seqPages q) 16384))

/-- The dispatch that BGT_FWD and BGT_BWD share: the structures read, checked, and the operation begun (R142, R144,
R153). A structure whose read is held holds the dispatch (R179). -/
def dispatchBgt (s0 : State) (n : Nat) (o : OpEnt) : State :=
  let acct := lineAcct s0 n
  let par := devRead s0 (some acct) (bgParam o.desc) 128
  let tab := devRead s0 (some acct) (bgLt o.desc) (32 * bgNseq o.desc)
  let o1 := { opDispatch s0 o with par := par.1, tab := tab.1 }
  let h := bgShape o.desc par.1
  let spans := [(bgParam o.desc, 128), (bgLt o.desc, 32 * bgNseq o.desc)] ++ (if par.2 || tab.2 then [] else pageTabSpans o1)
  if readsHeld s0 spans then s0
  else
    let s := noteAccess s0 acct (spansBlocks spans)
    if par.2 || tab.2 then rejectOp s n o stUncorrectable
    else
      let o2 := { o1 with ptab := readPages s acct o1 }
      if (views s).any (fun v => !bgtCheck v (lineStrand s n) acct h o2) || touchesDerived s (bgtOutSpans h o2) then rejectOp s n o stDescInvalid
      else noteLine (opSet s n { o2 with total := bgTotal h o2 }) n

/-- BGT_FWD. -/
def execBgtFwd (line : LineNo) (s : State) : Out := onDispatch s line.toNat opBgtFwd (dispatchBgt s line.toNat)
/-- BGT_BWD. Its phase 0 runs, sequence by sequence, before the first tile of the sequence (R136). -/
def execBgtBwd (line : LineNo) (s : State) : Out := onDispatch s line.toNat opBgtBwd (dispatchBgt s line.toNat)

/-! ### Issue -/

def isBgt (o : OpEnt) : Bool := opcodeOf o.desc = opBgtFwd || opcodeOf o.desc = opBgtBwd

/-- A bight operation that issues tiles. -/
def bgtRuns (o : OpEnt) : Bool := o.dispatched && isBgt o && o.track = .running && !o.failed && o.next < o.total

def opShape (o : OpEnt) : BgtSh := bgShape o.desc o.par

/-- The sequence of a tile. -/
def tileSeq (o : OpEnt) (t : TileOp) : BSeq := bgSeq o.tab t.batch

/-- The next tile of an operation, before it has an array. -/
def nextTile (s : State) (n : Nat) (o : OpEnt) : Option TileOp :=
  let h := opShape o
  (tilePlace h (bgBwd o) (bgTq o.desc) (bgSeqs o) 0 o.next).map (fun p =>
    let q := bgSeq o.tab p.1
    let t : TileOp := { tileNew n o (lineAcct s n) 0 s.tb.now with bight := true, tile := o.next, batch := p.1, phase := p.2.1, row := p.2.2 }
    { t with rows := if p.2.1 = 1 then min h.kv (q.kvLen - p.2.2 / h.groups * h.kv) else (qTileRows h (bgTq o.desc) q p.2.2).1.length })

/-- Tile store that a tile of m rows needs (R146). -/
def tileStore (h : BgtSh) (m : Nat) : Nat :=
  m * (h.dqc + h.dr) * fmtBytes h.qf + 2 * h.kv * (h.dl + h.dr) * fmtBytes h.kvf + m * h.dvo * 5 + m * h.kv * 4 +
  (if h.expand then 2 * h.kv * (h.dh + h.dv) * fmtBytes h.qf else 0)

/-- Bight tiles of a strand that hold an array. -/
def bgtLive (s : State) (strand : Nat) : List TileOp := (strandGet s strand).tiles.filter (fun t => t.bight && holdsArray s strand t)

/-- Tile store in use: every bight tile that has not retired. -/
def storeUsed (s : State) (strand : Nat) : Nat :=
  ((strandGet s strand).tiles.filter TileOp.bight).foldl (fun n t =>
    n + ((opFind s t.line t.seq).map (fun o => tileStore (opShape o) t.rows)).getD 0) 0

/-- An array, a place under ARRAYS and MAX_ARRAYS, and tile store are free for a tile (R120, R146). -/
def tileFits (s : State) (strand n : Nat) (o : OpEnt) (t : TileOp) : Bool :=
  !(freeArrays s strand).isEmpty && (bgtLive s strand).length < actF s flMaxArrays strand &&
  ((bgtLive s strand).filter (fun x => x.line = n && x.seq = o.seq)).length < bgArrays o.desc &&
  storeUsed s strand + tileStore (opShape o) t.rows ≤ 2 ^ 25

/-- The wave-times of a tile (R145). For a backward pair the planning figure of R145 is taken. -/
def bgtCost (s : State) (o : OpEnt) (t : TileOp) : Nat :=
  let h := opShape o
  let m := max t.rows 64
  let ws := ceilDiv h.kv 128 * (ceilDiv h.dqc h.kv + ceilDiv h.dr h.kv) * m
  let wv := ceilDiv h.dvo 128 * m
  let wx := if h.expand then (ceilDiv h.dh 128 + ceilDiv h.dv 128) * ceilDiv h.dl h.kv * h.kv else 0
  let blocks := (tileBlocks s h o (tileSeq o t) t).length
  blocks * (if bgBwd o then 4 * ws + 3 * wv + 96 else ws + wv + wx + 32) + 64

/-- Whether spans may be read, and written, by a bight operation now. -/
def bgtReady (s : State) (acct : Nat) (o : OpEnt) (reads writes : List (Nat × Nat)) : Bool :=
  reads.all (fun p => readReady s acct o (fun x => x != .kern) p.1 p.2) &&
  writes.all (fun p => (spanBlocks p.1 p.2).all (reachable s acct o (fun x => x != .kern)) && !bankHolds s p.1 p.2 true)

/-- Phase 0 of the sequence of the operation's next tile is still to run. -/
def needsPhase0 (o : OpEnt) (t : TileOp) : Bool := bgBwd o && !o.units.contains t.batch

/-- The next tile may be asked for: its sequence's phase 0 can run (R136, R306). -/
def issueReady (s : State) (n : Nat) (o : OpEnt) : Option TileOp :=
  (nextTile s n o).filter (fun t =>
    !needsPhase0 o t || bgtReady s (lineAcct s n) o (phase0Reads (opShape o) o (tileSeq o t)) (phase0Writes (opShape o) o (tileSeq o t)))

/-- Phase 0 of a sequence: DELTA of every row (R136). A row whose dO or O reads chafed gets a chafed word. -/
def runPhase0 (s : State) (strand acct : Nat) (o : OpEnt) (si : Nat) : State × Byte × Bool :=
  let h := opShape o
  let q := bgSeq o.tab si
  let w32 (f : Fmt) (e : Nat × Bool) : W32 × Byte := toW32 (decodeElem f e.1)
  (List.range (q.qLen * h.nh)).foldl (fun acc i =>
    let r := q.qStart * h.nh + i
    let g := (List.range h.dvo).map (fun c => placeElem s strand acct (inKern (bpDo o.par)) h.dof (r * h.ldo + c))
    let y := (List.range h.dvo).map (fun c => placeElem s strand acct (bgO o.desc) h.outf (r * h.ldo + c))
    let gv := g.map (w32 h.dof)
    let yv := y.map (w32 h.outf)
    let x := deltaOf (gv.map Prod.fst) (yv.map Prod.fst)
    let w := placeWrite acc.1 strand acct ((bgStat o.desc).plus (16 * r + 12)) (bytesOf 4 x.1.toNat) ((g ++ y).any Prod.snd)
    (w.1, acc.2.1 ||| x.2 ||| flagsOr (gv.map Prod.snd) ||| flagsOr (yv.map Prod.snd), acc.2.2 || w.2)) (s, 0, false)

/-- Phase 0 of a tile's sequence as its operation's accesses: errors met, blocks touched, and the status it adds: OK_FALLBACK
for O or dO read in place after a refused move (R173), UNCORRECTABLE for a dropped write. -/
def phase0 (s : State) (strand acct : Nat) (o : OpEnt) (t : TileOp) (found : List Found) : State × Byte × Nat :=
  let h := opShape o
  let q := tileSeq o t
  let reads := phase0Reads h o q
  let s1 := noteAccess (foundAll s strand reads found) acct (spansBlocks reads)
  let r := runPhase0 s1 strand acct o t.batch
  let late := inPlaceRead s acct o (fun x => x != .kern) (spansBlocks reads)
  (noteWritten r.1 acct (phase0Writes h o q), r.2.1, if r.2.2 then stUncorrectable else if late then stOkFallback else stOk)

/-! ### Pages in flight (R139, R140) -/

/-- The block's move to kern is queued for a bight operation (first to the mantle for a block with landed gradients, R258),
charged like any other; false when the cleat refuses it. -/
def pageMove (s : State) (o : OpEnt) (origin : MoveOrigin) (b : Nat) (deadline : Nat) : State × Bool :=
  let e := htGet s b
  let t := demandTier o e
  if hardOf s e.account t ≤ charge s e.account t then (s, false)
  else (queueMove s b origin t (dClass o.desc) deadline, true)

/-- The deadline of a prefetch: no tile has needed its page yet, so it ranks as if it were needed now (R163, log entry 124). -/
def prefetchDeadline (s : State) (o : OpEnt) : Nat := tbNow s + bgPageWait o.desc

/-- The block can be moved to kern for the account and no move of it is queued or running. -/
def pageMovable (s : State) (acct b : Nat) : Bool :=
  let e := htGet s b
  (e.state = .home || e.state = .landing) && e.account = acct && e.tier != .kern && !e.derived && !fixedBlock s e &&
    !(s.tiers.moves.any (fun m => m.name = b))

/-- Home blocks of a page that are not in kern. -/
def lateOf (s : State) (acct : Nat) (h : BgtSh) (o : OpEnt) (pg : Nat) : List Nat :=
  (spanBlocks (pageAddrOf o pg) (pageBytes h)).filter (fun b =>
    let e := htGet s b
    e.state != .unbound && e.account = acct && e.tier != .kern)

/-- A block of the page is to be merged before any access. -/
def pageMerging (s : State) (h : BgtSh) (o : OpEnt) (pg : Nat) : Bool :=
  (spanBlocks (pageAddrOf o pg) (pageBytes h)).any (fun b => s.tiers.merging.contains b)

/-- A tile passes over the blocks whose pages it may read (fuel: the blocks that remain). `t.col` counts blocks passed; a
block with a late page is a page need, which moves its home blocks and waits until PAGE_WAIT_NS. -/
def passBlocks (strand n : Nat) (bs : List Nat) : Nat → State → TileOp → State
  | 0, s, t => tileSet s strand t
  | fuel + 1, s, t =>
    match bs[t.col]?, opFind s n t.seq with
    | some j, some o =>
      let h := opShape o
      let q := tileSeq o t
      let pages := (blockPages s h o q t j).map (fun g => pageBase o t.batch + g)
      let top := pages.foldl (fun x g => max x (g + 1)) o.n3
      let s1 := opSet s n { o with n3 := top }
      let late := pages.filter (fun g => !(lateOf s t.account h o g).isEmpty)
      if pages.any (pageMerging s h o) then tileSet s1 strand t
      else if late.isEmpty then passBlocks strand n bs fuel s1 { t with col := t.col + 1, needAt := none }
      else if t.needAt.isSome then tileSet s1 strand t
      else if bgPageWait o.desc = 0 then
        let s2 := pmuAdd s1 (0x054 + strand) late.length (attrP t.account)
        let s3 := match opFind s2 n t.seq with
          | some o2 => opSet s2 n (opWorse { o2 with n1 := satAdd (2 ^ 24 - 1) o2.n1 late.length } stOkFallback)
          | none => s2
        passBlocks strand n bs fuel s3 { t with col := t.col + 1 }
      else
        let s2 := ((late.flatMap (lateOf s t.account h o)).filter (pageMovable s t.account)).dedup.foldl
          (fun x b => if pageMovable x t.account b then (pageMove x o (.demand n t.seq) b (tbNow s + bgPageWait o.desc)).1 else x) s1
        tileSet s2 strand { t with needAt := some (tbNow s) }
    | _, _ => tileSet s strand t

/-- A bight tile goes on as far as its pages allow. -/
def advanceTile (s : State) (strand : Nat) (t : TileOp) : State :=
  match opFind s t.line t.seq with
  | none => s
  | some o =>
    if o.track = .cancelPending then s
    else
      let bs := tileBlocks s (opShape o) o (tileSeq o t) t
      passBlocks strand t.line bs (bs.length + 1) s t

/-- Every bight tile goes on as far as its pages allow (R140). -/
def advanceBight (s : State) : State :=
  [0, 1, 2, 3].foldl (fun x k =>
    ((strandGet x k).tiles.filter (fun t => t.bight && t.stage != .last && t.stage != .drained)).foldl (fun y t => advanceTile y k t) x) s

/-- A tile at its deadline reads the late pages of its block in place (R140). -/
def execPageWaitDeadline (strand : StrandNo) (array : ArrayNo) (s : State) : Out :=
  let k := strand.val
  match (strandGet s k).tiles.find? (fun t => t.bight && t.array = array.val && t.needAt.isSome) with
  | none => .next s
  | some t =>
    match opFind s t.line t.seq, t.needAt with
    | some o, some at_ =>
      if tbNow s < at_ + bgPageWait o.desc || o.track = .cancelPending then .next s
      else
        let h := opShape o
        let q := tileSeq o t
        (match (tileBlocks s h o q t)[t.col]? with
        | none => .next s
        | some j =>
          let pages := (blockPages s h o q t j).map (fun g => pageBase o t.batch + g)
          let late := pages.filter (fun g => !(lateOf s t.account h o g).isEmpty)
          let s1 := if late.isEmpty then s else pmuAdd s (0x054 + k) late.length (attrP t.account)
          let o1 := { o with n1 := satAdd (2 ^ 24 - 1) o.n1 late.length }
          let s2 := opSet s1 t.line (if late.isEmpty then o1 else opWorse o1 stOkFallback)
          .next (advanceTile s2 k { t with col := t.col + 1, needAt := none }))
    | _, _ => .next s

/-- The bight issues MOVE requests to kern for the PF_WINDOW pages that follow the highest page needed (R139). -/
def execBightPrefetch (line : LineNo) (seq : Seq) (s : State) : Out :=
  let n := line.toNat
  match opFind s n seq.toNat with
  | none => .next s
  | some o =>
    let h := opShape o
    let acct := lineAcct s n
    if o.dispatched && isBgt o && o.track = .running && 0 < o.n3 then
      let pages := ((List.range (bgPfWindow o.desc)).map (fun i => o.n3 + i)).filter (fun g => g < o.ptab.length / 9)
      .next (pages.foldl (fun t g =>
        match opFind t n o.seq with
        | none => t
        | some o1 =>
          let bs := (spanBlocks (pageAddrOf o g) (pageBytes h)).filter (fun b => pageMovable t acct b && !refused o1 b)
          if bs.isEmpty then t
          else if hardOf t acct .kern < charge t acct .kern + bs.length then
            opSet (pmuAdd t 0x10E 1 (attrP acct)) n { o1 with n2 := satAdd 255 o1.n2 1, wset := o1.wset ++ [(g, 2)] ++ bs.map (fun b => (b, 0)) }
          else bs.foldl (fun u b => (pageMove u o1 (.prefetch n o.seq g) b (prefetchDeadline t o1)).1) t) s)
    else .next s

/-! ### Computing a tile -/

/-- What a tile computes: elements of its outputs row by row, statistics words of each row, chafe of each row, and flags. -/
structure BOut where
  elems : List Nat
  stats : List Nat
  marks : List Bool
  fl : Byte

/-- A row's visible tokens block by block, with their place in the block. -/
def rowBlocks (h : BgtSh) (vis : List Nat) (keys : SMap BKey) : List (List (Nat × BKey)) :=
  let top := (vis.foldl max 0) / h.kv + 1
  if vis.isEmpty then []
  else (List.range top).map (fun j => (vis.filter (fun p => p / h.kv = j)).filterMap (fun p => (mapFind keys p).map (fun k => (p % h.kv, k))))

/-- Keys of the positions that some of the rows see. -/
def tileKeys (s : State) (acct : Nat) (h : BgtSh) (o : OpEnt) (si e : Nat) (ps : List Nat) : SMap BKey :=
  let maps := groupMaps s acct h o.par e
  ps.map (fun p => (p, readKey s acct h o si p maps))

/-- A row's BLOCK bits read chafed. -/
def maskChafed (s : State) (acct : Nat) (o : OpEnt) (q : BSeq) (t : Nat) : Bool :=
  isBlockMask q.mask && (List.range q.kvLen).any (fun p => (maskBit s acct o q t p).2)

/-- A page-table entry of the sequence read chafed: every row of it is chafed (R147). -/
def seqChafed (o : OpEnt) (si : Nat) (q : BSeq) : Bool := (List.range (seqPages q)).any (fun i => (pageEntry o (pageBase o si + i)).2)

/-- A forward tile (R134, R135). -/
def fwdTile (s : State) (strand : Nat) (o : OpEnt) (t : TileOp) : BOut :=
  let h := opShape o
  let q := tileSeq o t
  let rs := qTileRows h (bgTq o.desc) q t.row
  let vis := (rs.1.map Prod.fst).dedup.map (fun x => (x, seen s t.account o q x))
  let visOf (x : Nat) : List Nat := ((vis.find? (fun v => v.1 = x)).map Prod.snd).getD []
  let keys := tileKeys s t.account h o t.batch rs.2 ((List.range q.kvLen).filter (fun p => vis.any (fun v => v.2.contains p)))
  let sc := seqChafed o t.batch q
  let one (p : Nat × Nat) : (List Nat × (W32 × W32 × W32) × Byte) × Bool :=
    let row := readRowQ s strand t.account h o.desc (rowNo h q p)
    let bs := rowBlocks h (visOf p.1) keys
    (fwdRow h row bs, row.chafed || sc || maskChafed s t.account o q p.1 || bs.any (fun b => b.any (fun k => k.2.chafed)))
  let out := rs.1.map one
  { elems := out.flatMap (fun r => r.1.1),
    stats := out.flatMap (fun r => [r.1.2.1.1.toNat, r.1.2.1.2.1.toNat, r.1.2.1.2.2.toNat, 0]),
    marks := out.map Prod.snd, fl := flagsOr (out.map (fun r => r.1.2.2)) }

/-- A tile of phase B: dQ rows (R136, R137). -/
def dqTile (s : State) (strand : Nat) (o : OpEnt) (t : TileOp) : BOut :=
  let h := opShape o
  let q := tileSeq o t
  let rs := qTileRows h (bgTq o.desc) q t.row
  let vis := (rs.1.map Prod.fst).dedup.map (fun x => (x, seen s t.account o q x))
  let visOf (x : Nat) : List Nat := ((vis.find? (fun v => v.1 = x)).map Prod.snd).getD []
  let keys := tileKeys s t.account h o t.batch rs.2 ((List.range q.kvLen).filter (fun p => vis.any (fun v => v.2.contains p)))
  let sc := seqChafed o t.batch q
  let one (p : Nat × Nat) : (List Nat × Byte) × Bool :=
    let row := readBack s strand t.account h o (rowNo h q p)
    let bs := rowBlocks h (visOf p.1) keys
    let a := dqRow h row bs
    let es := a.1.map (drainElem h.dqf)
    ((es.map Prod.fst, a.2 ||| flagsOr (es.map Prod.snd)),
      row.chafed || sc || maskChafed s t.account o q p.1 || bs.any (fun b => b.any (fun k => k.2.chafed)))
  let out := rs.1.map one
  { elems := out.flatMap (fun r => r.1.1), stats := [], marks := out.map Prod.snd, fl := flagsOr (out.map (fun r => r.1.2)) }

/-- The rows of an expansion group (of all heads in absorbed mode) with their gradients at the positions they see, and whether
the row is chafed (R137, R138, R147): its special values and its chafe depend on all that it sees, in other blocks too. -/
def groupGrads (s : State) (strand : Nat) (o : OpEnt) (t : TileOp) (e : Nat) : List (BBack × List (Nat × BGrad) × Bool) :=
  let h := opShape o
  let q := tileSeq o t
  let sc := seqChafed o t.batch q
  (aTileRows h q e).1.map (fun p =>
    let r := readBack s strand t.account h o (rowNo h q p)
    let vis := seen s t.account o q p.1
    let ks := (tileKeys s t.account h o t.batch e vis).map Prod.snd
    (r, vis.zip (rowGrads h r ks), r.chafed || sc || maskChafed s t.account o q p.1 || ks.any BKey.chafed))

/-- The contributions of rows to a key position accumulated, one k-block of rows after the other (R136, R137). -/
def sumAt (kv : Nat) (step : List (BitVec 40) × Byte → List BContrib → List (BitVec 40) × Byte)
    (grads : List (BBack × List (Nat × BGrad) × Bool)) (p : Nat) (acc : List (BitVec 40) × Byte) : List (BitVec 40) × Byte :=
  (chunksOf kv (grads.length + 1) grads).foldl (fun a b =>
    step a (b.filterMap (fun r => (r.2.1.find? (fun g => g.1 = p)).map (fun g => { row := r.1, g := g.2 : BContrib })))) acc

/-- Some chafed row contributes to a key position (R147). -/
def chafedAt (grads : List (BBack × List (Nat × BGrad) × Bool)) (p : Nat) : Bool :=
  grads.any (fun r => r.2.2 && r.2.1.any (fun g => g.1 = p))

/-- A tile of phase A: the dKV rows of its block, or its group's part of them (R136, R137). dKR of expand-on-read mode is
summed over the heads of every group; the last group's tile forms it, and in which order it takes the groups is open (log
entry 21). -/
def dkvTile (s : State) (strand : Nat) (o : OpEnt) (t : TileOp) : BOut :=
  let h := opShape o
  let q := tileSeq o t
  let j := t.row / h.groups
  let e := t.row % h.groups
  let ps := (List.range (min h.kv (q.kvLen - j * h.kv))).map (fun i => j * h.kv + i)
  let own := groupGrads s strand o t e
  let all := if writesKr h t then
      (freeOrder s.free 64 h.ne (List.range h.ne)).map (fun i => if i = e then own else groupGrads s strand o t i) else []
  let main (p : Nat) : List (BitVec 40) × Byte :=
    if h.expand then sumAt h.kv (dkvExpand h) own p (List.replicate (h.dh + h.dv) 0, 0)
    else sumAt h.kv (dkvAbsorbed h) own p (List.replicate (h.dl + h.dr) 0, 0)
  let kr (p : Nat) : List (BitVec 40) × Byte :=
    if writesKr h t then all.foldl (fun a g => sumAt h.kv dkrExpand g p a) (List.replicate h.dr 0, 0) else ([], 0)
  let out := ps.map (fun p => ((main p).1 ++ (kr p).1, (main p).2 ||| (kr p).2))
  let es := out.map (fun r => r.1.map (drainElem h.dkvf))
  { elems := es.flatMap (fun r => r.map Prod.fst), stats := [],
    marks := ps.map (chafedAt own) ++ (if writesKr h t then ps.map (fun p => all.any (fun g => chafedAt g p)) else []),
    fl := flagsOr (out.map Prod.snd) ||| flagsOr (es.flatMap (fun r => r.map Prod.snd)) |||
      flagsOr (own.flatMap (fun r => r.2.1.map (fun g => g.2.fl))) }

def computeTile (s : State) (strand : Nat) (o : OpEnt) (t : TileOp) : BOut :=
  match t.phase with
  | 0 => fwdTile s strand o t
  | 1 => dkvTile s strand o t
  | _ => dqTile s strand o t

/-! ### Events of a bight tile -/

/-- Spans of the pages that a tile reads. -/
def tilePages (s : State) (h : BgtSh) (o : OpEnt) (q : BSeq) (t : TileOp) : List (Nat × Nat) :=
  ((tileBlocks s h o q t).flatMap (blockPages s h o q t)).map (fun g => (pageAddrOf o (pageBase o t.batch + g), pageBytes h))

/-- READY: the tile's query rows and first block are staged. -/
def bightReady (s : State) (strand : Nat) (t : TileOp) (found : List Found) : State :=
  match opFind s t.line t.seq with
  | none => s
  | some o =>
    let h := opShape o
    let q := tileSeq o t
    let reads := bgtReads h o q t
    let started := 0 < t.col || (tileBlocks s h o q t).isEmpty
    let pages := tilePages s h o q t
    if o.track = .cancelPending || !started then s
    else if !bgtReady s t.account o reads [] then noteWaits s reads false
    else
      let s1 := foundAll s strand (reads ++ pages) found
      if !bgtReady s1 t.account o reads [] || readsHeld s1 pages then noteWaits s1 (reads ++ pages) false
      else
        let s2 := noteAccess s1 t.account (spansBlocks (reads ++ pages))
        let st := if inPlaceRead s1 t.account o (fun x => x != .kern) (spansBlocks reads) then stOkFallback else stOk
        match opFind s2 t.line t.seq with
        | some o2 => tileSet (opSet s2 t.line (opWorse o2 st)) strand { t with stage := .ready, tReady := some s.tb.now }
        | none => s2

/-- LAST_WAVE: all blocks are passed, and the outputs are formed; `found` are the errors that the tile's reads meet since its
READY. An accumulator-store parity error chafes every row of the tile (DEDUCED from R94, log entry 123); a corrupted
control state makes the operation UNCORRECTABLE (R147). WAVES of a tile is a free count: the spec fixes only an upper bound
of its wave-times (R145). -/
def bightLast (s : State) (strand : Nat) (t : TileOp) (found : List Found) (err : Option ArrayErr) : State :=
  match opFind s t.line t.seq with
  | none => s
  | some o =>
    let h := opShape o
    let q := tileSeq o t
    if o.track = .cancelPending || t.col < (tileBlocks s h o q t).length then s
    else if err = some .control then sweepLost s t
    else
      let pages := tilePages s h o q t
      let s1 := foundAll s strand (bgtReads h o q t ++ pages) found
      if !bgtReady s1 t.account o (bgtReads h o q t) [] || readsHeld s1 pages then noteWaits s1 (bgtReads h o q t ++ pages) false
      else
        let r := computeTile s1 strand o t
        let marks := r.marks.map (fun b => b || err = some .parity)
        let t1 : TileOp := { t with stage := .last, tLast := some s.tb.now, out := r.elems, bVals := r.stats,
                                    aVals := marks.map (fun b => if b then 1 else 0), chafed := marks.any id, flags := t.flags ||| r.fl }
        let waves := (Config.freeWord s.free).toNat % 2 ^ 40
        pmuAdd (tileSet (drawn s1) strand t1) (0x014 + strand) waves (tileAttr t)

/-- One output row of a tile written at its place. -/
def writeRowAt (acc : Wrote) (strand acct : Nat) (p : Place) (bs : List Byte) (mark : Bool) : Wrote :=
  writeChafed acc strand acct p (bs.map (fun b => (b, mark)))

/-- The outputs of a bight tile written (R127, R136, R147). -/
def writeBight (s : State) (strand : Nat) (o : OpEnt) (t : TileOp) : Wrote :=
  let h := opShape o
  let q := tileSeq o t
  let w0 : Wrote := { st := s, marked := [], dropped := false }
  let mark (i : Nat) : Bool := t.aVals.getD i 0 = 1
  let elems (f : Fmt) (i w : Nat) : List Byte := ((t.out.drop (i * w)).take w).flatMap (bytesOf (fmtBytes f))
  if t.phase = 0 then
    ((bTileRows h (bgTq o.desc) q t).1.zipIdx).foldl (fun acc p =>
      let r := rowNo h q p.1
      let a := writeRowAt acc strand t.account ((bgO o.desc).plus (r * h.ldo * fmtBytes h.outf)) (elems h.outf p.2 h.dvo) (mark p.2)
      writeRowAt a strand t.account ((bgStat o.desc).plus (16 * r)) (((t.bVals.drop (4 * p.2)).take 4).flatMap (bytesOf 4)) (mark p.2)) w0
  else if t.phase = 2 then
    ((bTileRows h (bgTq o.desc) q t).1.zipIdx).foldl (fun acc p =>
      writeRowAt acc strand t.account (inKern (bpDq o.par + rowNo h q p.1 * h.lddq * fmtBytes h.dqf)) (elems h.dqf p.2 (h.dqc + h.dr)) (mark p.2)) w0
  else
    let j := t.row / h.groups
    let e := t.row % h.groups
    let sz := fmtBytes h.dkvf
    let base (i : Nat) : Nat := bpDkv o.par + (q.dkvStart + j * h.kv + i) * dkvWidth h * sz
    (List.range t.rows).foldl (fun acc i =>
      if h.expand then
        let w := h.dh + h.dv + (if writesKr h t then h.dr else 0)
        let a := writeRowAt acc strand t.account (inKern (base i + e * (h.dh + h.dv) * sz)) ((elems h.dkvf i w).take ((h.dh + h.dv) * sz)) (mark i)
        if writesKr h t then
          writeRowAt a strand t.account (inKern (base i + h.ne * (h.dh + h.dv) * sz)) ((elems h.dkvf i w).drop ((h.dh + h.dv) * sz))
            (mark (t.rows + i))
        else a
      else writeRowAt acc strand t.account (inKern (base i)) (elems h.dkvf i (h.dl + h.dr)) (mark i)) w0

/-- Row indices of a query tile that are written with the chafe mark (R149). -/
def chafedRows (h : BgtSh) (o : OpEnt) (t : TileOp) : List Nat :=
  let q := tileSeq o t
  ((bTileRows h (bgTq o.desc) q t).1.zipIdx).filterMap (fun p => if t.aVals.getD p.2 0 = 1 then some (rowNo h q p.1) else none)

/-- RETIRE: the tile's outputs are written. How many of its pending slots were masked waves or recomputed scores, which R409
books DISCARDED, is a free value: the model does not place waves within a tile. -/
def bightRetire (s : State) (strand : Nat) (t : TileOp) : State :=
  match opFind s t.line t.seq with
  | none => s
  | some o =>
    let h := opShape o
    let writes := bgtWrites h o (tileSeq o t) t
    if !bgtReady s t.account o [] writes then noteWaits s writes true
    else
      let w := writeBight s strand o t
      let good := (spansBlocks writes).filter (fun b => !badName w.st (some t.account) (b * blockBytes))
      let s1 := noteAccess w.st t.account good
      let lost := (Config.freeWord s.free).toNat % (t.pendingSlots + 1)
      let s2 := tileDrop (tileEnd (drawn s1) strand { t with discardSlots := lost } false) strand t
      let s3 := pmuAdd (pmuAdd s2 (0x018 + strand) 1 (tileAttr t)) (0x04C + strand) 1 (attrP t.account)
      match opFind s3 t.line t.seq with
      | some o2 =>
        let rows := if t.phase = 1 then [] else chafedRows h o t
        let o3 := { opFlags o2 t.flags with
          done := o2.done + 1, inflight := o2.inflight - 1, chafedN := satAdd (2 ^ 32 - 1) o2.chafedN rows.length,
          firstChafed := rows.foldl (fun acc x => some ((acc.map (min x)).getD x)) o2.firstChafed }
        let o4 := if t.chafed || !w.marked.isEmpty then opWorse o3 stChafed else o3
        opSet s3 t.line (if w.dropped then opWorse o4 stUncorrectable else o4)
      | none => s3

/-- The op-specific bytes of a bight record (R149). -/
def bgtBytes (o : OpEnt) : List Byte :=
  bytesOf 4 o.done ++ bytesOf 3 o.n1 ++ bytesOf 1 o.n2 ++ bytesOf 4 o.chafedN ++ bytesOf 4 (o.firstChafed.getD 0xFFFFFFFF)

end Sys2Proof.Machine
end

