-- ==== Sys2Proof/Machine/TileEvents.lean ====
section
/-! DEFINITION. The array arbiter of a strand and the events of its tile-ops, braid and bight (R83, R84, R146, R305, R311). -/

set_option Elab.async false

namespace Sys2Proof.Machine

open Sys2Proof

/-- The head of a line at its strand's array arbiter (R306). -/
def arrayHead (s : State) (n : Nat) : Option OpEnt := ((lineGet s n).ops.filter (fun o => brdRuns o || bgtRuns o)).head?

/-- The request of a line's head, if it is ready. -/
def arrayReq (s : State) (strand n : Nat) : Option Req :=
  (arrayHead s n).bind (fun o =>
    let base : Req := { cls := dClass o.desc, acct := lineAcct s n, key := n, cost := 0, readyAt := o.readyAt.getD (tbNow s), deadline := 0, fits := false }
    if brdRuns o then some { base with cost := sweepCost o.desc o.next, fits := sweepFits s strand o }
    else (issueReady s n o).map (fun t => { base with cost := bgtCost s o t, fits := tileFits s strand n o t }))

/-- The requests at a strand's array arbiter. -/
def arrayReqs (s : State) (strand : Nat) : List Req :=
  s.lines.filterMap (fun p => if lineStrand s p.1 = strand then arrayReq s strand p.1 else none)

/-- The account that freed arrays are held for: that of the oldest aged request, when it does not fit (R311). -/
def noteHeldFor (s : State) (strand : Nat) : State :=
  let aged := (arrayReqs s strand).filter (isAged (actF s flAgeUs 0) (tbNow s))
  let h := ((minBy Req.readyAt aged).filter (fun r => !r.fits)).map Req.acct
  strandSet s strand { strandGet s strand with heldFor := h }

/-- The pick of the array arbiter; `f` serves the head of the line picked, if it is of the kind that the event issues. -/
def arrayPick (s : State) (strand : Nat) (f : State → Nat → OpEnt → Option State) : Out :=
  let r := pickNow s 65536 false (arrayReqs s strand) (mapGet Arb.reset s.braidArb strand)
  match r.1 with
  | none => .next (noteHeldFor { s with braidArb := mapSet Arb.reset s.braidArb strand r.2 } strand)
  | some q =>
    match arrayHead s q.key with
    | none => .next s
    | some o =>
      let s1 := noteGrant { s with braidArb := mapSet Arb.reset s.braidArb strand r.2 } q
      let s2 := if isAged (actF s flAgeUs 0) (tbNow s) q then pmuAdd s1 (0x024 + strand) 1 (attrP q.acct) else s1
      match f s2 q.key o with
      | some s3 => .next (noteHeldFor s3 strand)
      | none => .next s

/-- A sweep issues, when the arbiter's pick is one (R83). -/
def execSweepIssue (strand : StrandNo) (s : State) : Out :=
  if quiet s unBraid then .next s
  else arrayPick s strand.val (fun t n o => if brdRuns o then some (issueSweep t strand.val n o) else none)

/-- A bight tile is issued on a free array: phase 0 of its sequence runs first in a backward operation, and the tile goes
on to its first page need (R136, R140, R146). -/
def issueBight (found : List Found) (s : State) (strand n : Nat) (o : OpEnt) : State :=
  match nextTile s n o with
  | none => s
  | some t0 =>
    let acct := lineAcct s n
    let p0 := if needsPhase0 o t0 then phase0 s strand acct o t0 found else (s, 0, stOk)
    let tag := tagStep p0.1 strand acct
    let array := ((freeOrder s.free 0 16 (freeArrays s strand)).head?).getD 0
    let t : TileOp := { t0 with array := array, tagged := tag.2 }
    let s1 := drawn (strandSet tag.1 strand { strandGet tag.1 strand with tiles := (strandGet tag.1 strand).tiles ++ [t] })
    let o0 := (opFind s1 n o.seq).getD o
    let o1 := { opFlags o0 p0.2.1 with
      next := o0.next + 1, inflight := o0.inflight + 1, readyAt := none, aged := false,
      units := if needsPhase0 o t0 then setIns o0.units t0.batch else o0.units }
    advanceTile (opSet s1 n (opWorse o1 p0.2.2)) strand t

/-- A bight tile issues, when the arbiter's pick is one. -/
def execBgtTileIssue (strand : Met StrandNo) (s : State) : Out :=
  if quiet s unBight || quiet s unBraid then .next s
  else arrayPick s strand.val.val (fun t n o => if brdRuns o then none else some (issueBight strand.found t strand.val.val n o))

/-- READY of the oldest issued tile-op of an array. -/
def execTileOpReady (strand : StrandNo) (array : ArrayNo) (found : List Found) (s : State) : Out :=
  match tileAt s strand.val array.val .issued with
  | none => .next s
  | some t => .next (if t.bight then bightReady s strand.val t found else braidReady s strand.val t found)

/-- Accumulator banks of an array in use: tile-ops between their first wave and the end of their drain (R75). -/
def banksUsed (s : State) (strand array : Nat) : Nat :=
  ((strandGet s strand).tiles.filter (fun t => t.array = array && (t.stage = .first || t.stage = .last))).length

/-- FIRST_WAVE: the tile-op has an accumulator bank, and no other tile-op passes waves through the array. -/
def execFirstWave (strand : StrandNo) (array : ArrayNo) (s : State) : Out :=
  match tileAt s strand.val array.val .ready with
  | none => .next s
  | some t =>
    if banksUsed s strand.val array.val < 2 && (tileAt s strand.val array.val .first).isNone &&
        (opFind s t.line t.seq).any (fun o => o.track != .cancelPending) then
      .next (tileSet s strand.val { t with stage := .first, tFirst := some s.tb.now })
    else .next s

/-- LAST_WAVE: the accumulators hold the tile. -/
def execLastWave (strand : StrandNo) (array : WaveEnd) (s : State) : Out :=
  match tileAt s strand.val array.array.val .first with
  | none => .next s
  | some t => .next (if t.bight then bightLast s strand.val t array.found array.err else braidLast s strand.val t array.found array.err)

/-- DRAIN: the last accumulator leaves the bank (R92). -/
def execTileDrain (strand : StrandNo) (array : ArrayNo) (s : State) : Out :=
  match tileAt s strand.val array.val .last with
  | none => .next s
  | some t =>
    .next (if t.bight then tileSet s strand.val { t with stage := .drained, tDrain := some s.tb.now } else braidDrain s strand.val t)

/-- RETIRE: the tile is written, or accepted by the vector engine. -/
def execTileOpRetire (strand : StrandNo) (array : ArrayNo) (s : State) : Out :=
  match tileAt s strand.val array.val .drained with
  | none => .next s
  | some t => .next (if t.bight then bightRetire s strand.val t else braidRetire s strand.val t)

/-- The operation has a request at some arbiter. -/
def hasRequest (o : OpEnt) : Bool := brdRuns o || bgtRuns o || vecRuns o || splRuns o || isRun o

/-- A request ready for AGE_US becomes aged: it outranks every class, and servers that free are held for it (R311). -/
def execRequestAged (line : LineNo) (seq : Seq) (s : State) : Out :=
  let n := line.toNat
  match opFind s n seq.toNat with
  | none => .next s
  | some o =>
    if hasRequest o && (o.readyAt.toList ++ o.splReady.map Prod.snd).any (fun t => t + actF s flAgeUs 0 * 1000 ≤ tbNow s) then
      .next (noteHeldFor (opSet s n { o with aged := true }) (lineStrand s n))
    else .next s

end Sys2Proof.Machine
end

