-- ==== Sys2Proof/Machine/Consumers.lean ====
section
/-! DEFINITION. What consumers of blocks wait for: their demand moves and the retire of a move (R93, R140, R156, R173,
R174). -/

set_option Elab.async false

namespace Sys2Proof.Machine

open Sys2Proof

/-- The tile-ops of an operation in flight on a strand, those in the tile buffers apart. -/
def liveTiles (s : State) (n : Nat) (o : OpEnt) : List TileOp := tilesOf s (lineStrand s n) n o.seq

/-- The tiles of an epilogue pair in the tile buffers. -/
def bufTiles (s : State) (n : Nat) (o : OpEnt) : List TileOp :=
  (strandGet s (lineStrand s n)).bufs.filter (fun t => t.line = n && t.seq = o.seq)

/-- Spans that the operation's work in hand reads or writes by name. -/
def consumerSpans (s : State) (n : Nat) (o : OpEnt) : List (Nat × Nat) :=
  let opc := opcodeOf o.desc
  if opc = opBrdMm then
    (liveTiles s n o).flatMap (fun t => tileReads o.desc t ++ tileSpansD o.desc t) ++
    (bufTiles s n o).flatMap (fun t => epiReads o t ++ epiWrites o t)
  else if opc = opVecOp then
    (if vecRuns o then (groupRuns o.desc o.next).flatMap (fun p => runReads o.desc p ++ runWrites o.desc p) else [])
  else if isBgt o then
    (liveTiles s n o).flatMap (fun t => bgtReads (opShape o) o (tileSeq o t) t ++ bgtWrites (opShape o) o (tileSeq o t) t) ++
    (match nextTile s n o with
    | some t => if needsPhase0 o t then phase0Reads (opShape o) o (tileSeq o t) ++ phase0Writes (opShape o) o (tileSeq o t) else []
    | none => [])
  else if opc = opCapColl then ccReads s o.desc ++ ccWrites s o.desc
  else []

/-- Blocks whose demand move the operation may ask for now: those that its work in hand touches; for a tile of an epilogue
only blocks in the host tier, since the vector engine reaches the mantle in place (R173). -/
def demandBlocks (s : State) (n : Nat) (o : OpEnt) : List Nat :=
  let bs := spansBlocks (consumerSpans s n o)
  if opcodeOf o.desc = opBrdMm && bmEpi o.desc then
    let own := spansBlocks ((liveTiles s n o).flatMap (tileReads o.desc))
    bs.filter (fun b => own.contains b || (htGet s b).tier = .host)
  else bs

/-- A demand move of a block to kern, or to the mantle for the capstan (R173, R174). A charge past the hard limit refuses
it, and the consumer then reads in place. -/
def execDemandMove (line : LineNo) (seq : Seq) (name : DevAddr) (s : State) : Out :=
  let n := line.toNat
  let b := blockNo name.toNat
  match opFind s n seq.toNat with
  | none => .next s
  | some o =>
    let e := htGet s b
    let t := demandTier o e
    if o.dispatched && wantsDemand s o b && (demandBlocks s n o).contains b && e.account = lineAcct s n then
      let s1 := pmuAdd s 0x10C 1 (attrP e.account)
      if hardOf s e.account t ≤ charge s e.account t then
        .next (collPumpAll (opSet (pmuAdd s1 0x10E 1 (attrP e.account)) n { o with wset := o.wset ++ [(b, 0)] }))
      else .next (queueMove s1 b (.demand n o.seq) t (dClass o.desc) (consumerDeadline o))
    else .next s

/-- A bank of a frame holds the sheave's access (R201, R220, R222): some of its 256 B granules lies there. -/
def frameHeld (s : State) (t : Tier) (f : Nat) (write : Bool) : Bool :=
  (List.range 256).any (fun i => accessHeld s (frameBase t f + 256 * i) write)

/-- The mover's accesses that wait at their banks (R219). -/
def frameWaits (s : State) (t : Tier) (f : Nat) (write : Bool) : State :=
  ((List.range 256).filter (fun i => accessHeld s (frameBase t f + 256 * i) write)).foldl (fun u i => noteWait u (frameBase t f + 256 * i)) s

/-- A block's move retires; bight tiles and collectives that wait for the block go on (R140, R156, R174). -/
def execBlockMoveRetire (name : DevAddr) (s : State) : Out :=
  match moveOf s (blockNo name.toNat) with
  | some m =>
    let e := htGet s m.name
    if m.fill then .next s
    else if frameHeld s e.tier e.frame false || frameHeld s m.dest m.destFrame true then
      .next (frameWaits (frameWaits s e.tier e.frame false) m.dest m.destFrame true)
    else .next (collPumpAll (advanceBight (retireMove s m)))
  | none => .next s

/-- A block's landing slots are merged; bight tiles and collectives that wait for the block go on (R257). -/
def execLandingMerge (name : DevAddr) (s : State) : Out :=
  .next (collPumpAll (advanceBight (landingMerged s (blockNo name.toNat))))

/-- The zeros of an ALLOC are written: the entry becomes HOME (R156), once no bank of the frame holds the writes. GEN of a block
that nothing has updated is a free value. -/
def execAllocFillDone (name : DevAddr) (s : State) : Out :=
  match moveOf s (blockNo name.toNat) with
  | some m =>
    if !m.fill then .next s
    else if frameHeld s m.dest m.destFrame true then .next (frameWaits s m.dest m.destFrame true)
    else
      (match m.origin with
      | .op n q =>
        (match opFind s n q with
        | some o =>
          let e : HtEntry := { HtEntry.reset with
            state := .home, tier := m.dest, derived := mvDerived o.desc, shared := mvShared o.desc, pinned := mvPinned o.desc,
            account := m.account, frame := m.destFrame, gen := (Config.freeWord s.free).setWidth 16, touch := s.tb.now }
          let s1 := arrived (htSet (sendFrameOut (zeroFrame (drawn s) m.dest m.destFrame) m.dest m.destFrame) m.name e) m.account m.dest
          let s2 := { s1 with tiers := { s1.tiers with moves := s1.tiers.moves.filter (fun x => !(x.started && x.name = m.name)) } }
          .next (advanceRuns (runDone s2 n q false false))
        | none => .next s)
      | _ => .next s)
  | none => .next s

end Sys2Proof.Machine
end

