-- ==== Sys2Proof/Machine/RowLogic.lean ====
section
/-! DEFINITION. Itnil row logic: ROW_SEQ, atoms, the carry latch, row ops and the parity recompute (R208 to R225). -/

set_option Elab.async false

namespace Sys2Proof.Machine

open Sys2Proof

/-! ### The descriptor (R216) and the program (R211 to R213) -/

def rsProgAddr (d : BitVec 512) : Nat := dF d 8 47 0
def rsProgLen (d : BitVec 512) : Nat := dF d 8 60 48
def rsFirst (d : BitVec 512) : Nat := dF d 0x10 9 0
def rsCount (d : BitVec 512) : Nat := dF d 0x10 19 10
def rsMask (d : BitVec 512) : Nat := dF d 0x10 63 32

/-- Word i of a program. -/
def rowWord (prog : List Byte) (i : Nat) : Nat := natOfBytes ((prog.drop (8 * i)).take 8)

def rwOp (w : Nat) : Nat := bitsAt w 3 0
def rwLmode (w : Nat) : Nat := bitsAt w 5 4
def rwDwr (w : Nat) : Bool := w.testBit 6
def rwKeep (w : Nat) : Bool := w.testBit 7
def rwSa (w : Nat) : Nat := bitsAt w 23 12
def rwSb (w : Nat) : Nat := bitsAt w 35 24
def rwSc (w : Nat) : Nat := bitsAt w 47 36
def rwDst (w : Nat) : Nat := bitsAt w 59 48

/-- The two operand codes of R212 that name no row. -/
def opLatch : Nat := 0x800
def opNone : Nat := 0xFFF

/-- A row operand of a valid slot of the account (R212). -/
def rowOk (s : State) (acct x : Nat) : Bool :=
  x < 0x800 && actF s flRawValid (x / 128) = 1 && actF s flRawAcct (x / 128) = acct

/-- A source: absent, the latch, or a row. -/
def srcOk (s : State) (acct x : Nat) : Bool := x = opLatch || rowOk s acct x

/-- Row 3 of R217 on one word. -/
def rowWordOk (s : State) (acct w : Nat) : Bool :=
  let a := rwSa w
  let b := rwSb w
  let c := rwSc w
  let shape := match rwOp w with
    | 0 | 1 => a = opNone && b = opNone && c = opNone
    | 2 | 3 => srcOk s acct a && b = opNone && c = opNone
    | 4 | 5 | 6 => srcOk s acct a && srcOk s acct b && (c = opNone || srcOk s acct c)
    | _ => srcOk s acct a && srcOk s acct b && srcOk s acct c
  rwOp w < 8 && rwLmode w != 3 && !w.testBit 11 && w >>> 60 = 0 && shape &&
  (if rwDwr w then rowOk s acct (rwDst w) else rwDst w = opNone) &&
  !(rwLmode w = 2 && (a = opNone || b = opNone || c = opNone)) &&
  (rwDwr w || rwLmode w != 0)

/-- A bank of the set (R216). -/
def inSet (d : BitVec 512) (chan bank : Nat) : Bool := rsFirst d ≤ chan && chan < rsFirst d + rsCount d && (rsMask d).testBit bank

/-- Banks in the set. -/
def setSize (d : BitVec 512) : Nat := rsCount d * ((List.range 32).filter (fun b => (rsMask d).testBit b)).length

/-- The op-specific bytes of a ROW_SEQ record (R225). `units` holds an entry 8192 × bank key + ops done for each bank that
has stopped. -/
def rowBytes (s : State) (o : OpEnt) : List Byte :=
  let stops := o.units.map (fun u => u % 8192)
  let running := s.eng.banks.flatMap (fun p => (p.2.runs.filter (fun r => r.seq = o.seq && (allOps s).any (fun q => q.1 = r.line && q.2 = o))).map BankRun.pc)
  let all := stops ++ running
  let lo := if all.length < setSize o.desc then 0 else all.foldl min 4096
  let hi := all.foldl max 0
  bytesOf 2 lo ++ bytesOf 2 hi ++ bytesOf 4 (setSize o.desc) ++ bytesOf 4 (min (2 ^ 32 - 1) o.chafedN) ++ bytesOf 4 o.n3

/-- ROW_SEQ's dispatch (R216, R217): the whole program is read, or waits for a held read (R179, R220), and checked. DEDUCED (log entry 6): a chafed program
completes UNCORRECTABLE, as R445 states for the splicer's. -/
def execRowSeq (line : LineNo) (s : State) : Out :=
  let n := line.toNat
  onDispatch s n opRowSeq (fun o =>
    let acct := lineAcct s n
    let spans := [(rsProgAddr o.desc, 8 * rsProgLen o.desc)]
    if readsHeld s spans then noteWaits s spans false
    else
      let s0 := noteAccess s acct (spansBlocks spans)
      let r := devRead s (some acct) (rsProgAddr o.desc) (8 * rsProgLen o.desc)
      if r.2 then rejectOp s0 n o stUncorrectable
      else if (views s).any (fun v => !((List.range (rsProgLen o.desc)).all (fun i => rowWordOk v acct (rowWord r.1 i)))) then rejectOp s0 n o stDescInvalid
      else noteLine (opSet s0 n { opDispatch s o with prog := r.1, total := setSize o.desc }) n)

/-! ### Atoms (R218, R219) -/

/-- The entry of a bank in an operation's list of stopped banks. -/
def stopEntry (o : OpEnt) (k : Nat) : Option Nat := (o.units.find? (fun u => u / 8192 = k)).map (fun u => u % 8192)

/-- Sequences that may run in a bank: dispatched, with the bank in their set and work left in it. A suspended bank has
none until the operation resumes; a cancelled operation starts none. -/
def mayRun (chan bank : Nat) (o : OpEnt) : Bool :=
  o.dispatched && opcodeOf o.desc = opRowSeq && inSet o.desc chan bank && !o.failed &&
  (match stopEntry o (bk chan bank) with
  | none => o.track = .running || o.track = .suspendPending
  | some pc => pc < rsProgLen o.desc && o.track = .running)

/-- A run of a sequence begins or continues in a bank with a zero latch. -/
def newRun (n : Nat) (o : OpEnt) (k : Nat) : BankRun :=
  { line := n, seq := o.seq, pc := (stopEntry o k).getD 0, latch := 0, marks := 0, spilled := false, spillRow := 0, spillMarks := 0,
    written := [], stopped := false }

/-- Banks of a channel that run atoms. -/
def atomsOf (s : State) (chan : Nat) : Nat := ((List.range 32).filter (fun b => (bankGet s (bk chan b)).atom.isSome)).length

/-- The bank's runs with those of sequences that have yet to begin in it, in dispatch order. -/
def joinRuns (s : State) (chan bank : Nat) : State :=
  let k := bk chan bank
  let waiting := ((allOps s).filter (fun p => mayRun chan bank p.2 &&
    !((bankGet s k).runs.any (fun r => r.line = p.1 && r.seq = p.2.seq)))).foldl (fun acc p =>
      acc.takeWhile (fun q => q.2.cDisp ≤ p.2.cDisp) ++ p :: acc.dropWhile (fun q => q.2.cDisp ≤ p.2.cDisp)) []
  waiting.foldl (fun t p =>
    let b := bankGet t k
    let o' := { p.2 with units := p.2.units.filter (fun u => u / 8192 != k), inflight := p.2.inflight + 1 }
    opSet (bankSet t k { b with runs := b.runs ++ [newRun p.1 p.2 k] }) p.1 o') s

/-- A run ends in its bank, with its own atom: its stopping point is noted, and the parity of the groups that it wrote becomes pending. With
no group to recompute, the bank is done. -/
def endRun (s : State) (k : Nat) (r : BankRun) : State :=
  let b := bankGet s k
  let jobs := r.written.map (fun g => (g / 8, g % 8, r.line, r.seq))
  let s1 := bankSet s k { b with
    runs := b.runs.filter (fun x => !(x.line = r.line && x.seq = r.seq))
    parity := b.parity ++ jobs
    atom := b.atom.filter (fun a => !(a.1 = r.line && a.2.1 = r.seq)) }
  match opFind s1 r.line r.seq with
  | some o =>
    let fin := r.written.isEmpty
    let done := if fin && r.pc = rsProgLen o.desc then o.done + 1 else o.done
    opSet s1 r.line { o with units := o.units ++ [k * 8192 + r.pc], inflight := if fin then o.inflight - 1 else o.inflight, done := done }
  | none => s1

/-- A run restored from the spill row in one row op (R219). -/
def restored (r : BankRun) : BankRun :=
  if r.spilled then { r with latch := r.spillRow, marks := r.spillMarks, spilled := false } else r

/-- A request that waits would access the bank: it is served before the next atom (R220). -/
def bankAwaited (s : State) (k : Nat) : Bool :=
  s.ingress.queue.any (fun r => r.len != 0 && (List.range (r.len / 32 + 2)).any (fun i =>
    (locate s none (min (r.addr + 32 * i) (r.addr + r.len - 1))).any (fun fa =>
      mantleBase ≤ fa && fa < hostFrames && (let p := bankPlace s.fuses.variant fa; bk p.1 p.2.1 = k))))

/-- What keeps a bank from its next atom (R218 to R220): an atom in progress, a refresh owed, an access that waits, or, before the
first atom of a run, parity pending in the bank. -/
def bankBusy (s : State) (gc bank : Nat) (fresh : Bool) : Bool :=
  let b := bankGet s (bk gc bank)
  b.atom.isSome || (fresh && !b.parity.isEmpty) || 0 < (refreshGet s (rk (4 + gc / 96) (gc % 96) bank)).owed ||
  0 < b.heldAccesses || bankAwaited s (bk gc bank)

/-- A run has not started its first atom. -/
def freshRun (r : BankRun) : Bool := r.pc = 0 && r.written.isEmpty && !r.spilled

/-- A bank could start an atom: it is free for one, and a run of a sequence, or one that has yet to join it, wants one. -/
def bankReady (s : State) (gc bank : Nat) : Bool :=
  match (bankGet s (bk gc bank)).runs with
  | r :: _ => !bankBusy s gc bank (freshRun r)
  | [] => !bankBusy s gc bank true && (allOps s).any (fun p => mayRun gc bank p.2)

/-- The ready bank of a channel whose turn it is, when more than the 8 that may run at once want to: the first at or after
the one that follows the bank started last, in increasing order (R218). -/
def bankTurn (s : State) (gc : Nat) : Option Nat :=
  let turn := mapGet 0 s.eng.atomTurn gc
  let ready := (List.range 32).filter (bankReady s gc)
  if atomsOf s gc + ready.length ≤ 8 then none
  else ((List.range 32).map (fun i => (turn + i) % 32)).find? (fun b => ready.contains b)

/-- An atom of the sequence whose turn it is starts in an idle bank (R218): at most 8 banks of a channel run atoms, in turn
where more want to, and a run starts its first atom only with no parity pending in the bank. A run of a cancelled operation
ends here. -/
def execAtomStart (chan : BitVec 10) (bank : BankNo) (s : State) : Out :=
  let gc := chan.toNat
  let k := bk gc bank.val
  if nchan s.fuses.variant ≤ gc || (bankGet s k).atom.isSome || quiet s unRow then .next s
  else
    let s1 := joinRuns s gc bank.val
    let b := bankGet s1 k
    match b.runs with
    | [] => .next s1
    | r :: rest =>
      match opFind s1 r.line r.seq with
      | none => .next (bankSet s1 k { b with runs := rest })
      | some o =>
        if o.track = .cancelPending || r.stopped || r.pc = rsProgLen o.desc then .next (endRun s1 k r)
        else if 8 ≤ atomsOf s1 gc || bankBusy s1 gc bank.val (freshRun r) || (bankTurn s1 gc).any (fun x => x != bank.val) then .next s1
        else
          let s2 := bankSet s1 k { b with runs := restored r :: rest, atom := some (r.line, r.seq, min 24 (rsProgLen o.desc - r.pc)) }
          .next { s2 with eng := { s2.eng with atomTurn := mapSet 0 s2.eng.atomTurn gc ((bank.val + 1) % 32) } }

/-- The end of an atom (R218 to R220, R224): a run at its end or its keep point stops, and a run of a cancelled operation
stops; a bank with a refresh owed, an access held or another sequence waiting spills its latch and yields. -/
def execAtomEnd (chan : BitVec 10) (bank : BankNo) (s : State) : Out :=
  let gc := chan.toNat
  let k := bk gc bank.val
  let b := bankGet s k
  match b.atom, b.runs with
  | some (_, _, 0), r :: rest =>
    (match opFind s r.line r.seq with
    | none => .next (bankSet s k { b with atom := none, runs := rest })
    | some o =>
      if r.stopped || r.pc = rsProgLen o.desc || o.track = .cancelPending then
        .next (bankSet (endRun s k r) k { bankGet (endRun s k r) k with heldAccesses := 0 })
      else
        let s1 := joinRuns s gc bank.val
        let b1 := bankGet s1 k
        let owes := 0 < (refreshGet s1 (rk (4 + gc / 96) (gc % 96) bank.val)).owed
        if owes || 0 < b1.heldAccesses || bankAwaited s1 k || 1 < b1.runs.length then
          let r' := { r with spilled := true, spillRow := r.latch, spillMarks := r.marks }
          let s2 := bankSet s1 k { b1 with atom := none, heldAccesses := 0, runs := b1.runs.drop 1 ++ [r'] }
          let s3 := { s2 with eng := { s2.eng with spills := mapMod 0 s2.eng.spills (gc / 96) (fun x => satAdd 65535 x 1) } }
          .next (pmuAdd s3 (0x0E0 + gc / 96) 1 attr0)
        else .next (bankSet s1 k { b1 with atom := none }))
  | _, _ => .next s

/-! ### Row ops (R208 to R215) -/

/-- The bits of a row and its marks by column range. -/
def readRow (s : State) (gc bank row : Nat) : BitVec 8192 × BitVec 32 :=
  let v := s.fuses.variant
  (BitVec.ofNat 8192 (natOfBytes ((List.range 1024).map (fun i => rawByte s (rowAddr v gc bank row i)))),
   BitVec.ofNat 32 (((List.range 32).filter (fun j => granChafed s (rowAddr v gc bank row (32 * j)))).foldl (fun m j => m + 2 ^ j) 0))

/-- A source operand (R212): the latch, a row, or nothing. -/
def readSrc (s : State) (gc bank : Nat) (r : BankRun) (x : Nat) : Option (BitVec 8192 × BitVec 32) :=
  if x = opNone then none
  else if x = opLatch then some (r.latch, r.marks)
  else some (readRow s gc bank (128 * actF s flRawSlab (x / 128) + x % 128))

/-- The majority of three, column by column. -/
def maj (a b c : BitVec 8192) : BitVec 8192 := (a &&& b) ||| (a &&& c) ||| (b &&& c)

/-- The function of an OP (R213) on sources already inverted as the word asks. -/
def rowFn (op : Nat) (a b c : Option (BitVec 8192)) : BitVec 8192 :=
  let x := a.getD 0
  let y := b.getD 0
  match op with
  | 0 => 0
  | 1 => BitVec.allOnes 8192
  | 2 => x
  | 3 => ~~~x
  | 4 => x &&& y &&& c.getD (BitVec.allOnes 8192)
  | 5 => x ||| y ||| c.getD 0
  | 6 => x ^^^ y ^^^ c.getD 0
  | _ => maj x y (c.getD 0)

/-- The 1 KiB of a row written, each granule with its mark (R215): posted writes of the operation. -/
def writeRow (s : State) (line seq gc bank row : Nat) (v : BitVec 8192) (marks : BitVec 32) : State :=
  (List.range 32).foldl (fun t j =>
    let fa := rowAddr s.fuses.variant gc bank row (32 * j)
    let t1 := syncChafe (postAt t line seq (lineAcct s line) fa (bytesOf 32 (v.toNat >>> (256 * j))) (marks.getLsbD j)) (blockNo fa)
    if marks.getLsbD j then wroteMarked t t1 (blockNo fa) fa 32 else t1) s

/-- The next word of a bank's atom, run when its OP is `op` (R208, R213 to R215). -/
def rowOp (op : Nat) (chan : BitVec 10) (bank : BankNo) (s : State) : Out :=
  let gc := chan.toNat
  let k := bk gc bank.val
  let b := bankGet s k
  match b.atom, b.runs with
  | some (n, q, left + 1), r :: rest =>
    (match opFind s n q with
    | none => .next s
    | some o =>
      let w := rowWord o.prog r.pc
      if rwOp w != op || r.line != n || r.seq != q then .next s
      else
        let src (x : Nat) (inv : Nat) : Option (BitVec 8192 × BitVec 32) :=
          (readSrc s gc bank.val r x).map (fun p => (if w.testBit inv then ~~~p.1 else p.1, p.2))
        let a := src (rwSa w) 8
        let b' := src (rwSb w) 9
        let c := src (rwSc w) 10
        let res := rowFn op (a.map Prod.fst) (b'.map Prod.fst) (c.map Prod.fst)
        let mk (p : Option (BitVec 8192 × BitVec 32)) : BitVec 32 := (p.map Prod.snd).getD 0
        let marks := mk a ||| mk b' ||| mk c
        let major := maj ((a.map Prod.fst).getD 0) ((b'.map Prod.fst).getD 0) ((c.map Prod.fst).getD 0)
        let latch := if rwLmode w = 0 then r.latch else if rwLmode w = 1 then res else major
        let lmarks := if rwLmode w = 0 then r.marks else marks
        let x := rwDst w
        let row := 128 * actF s flRawSlab (x / 128) + x % 128
        let grp := x / 128 * 8 + x % 128 / 16
        let stop := rwKeep w && o.track = .suspendPending
        let r' := { r with pc := r.pc + 1, latch := latch, marks := lmarks, stopped := stop,
                           written := if rwDwr w then setIns r.written grp else r.written }
        let s1 := if rwDwr w then writeRow s n q gc bank.val row res marks else s
        let s2 := bankSet s1 k { bankGet s1 k with runs := r' :: rest, atom := some (n, q, if stop then 0 else left) }
        let cnt := if rwDwr w then ((List.range 32).filter (fun j => marks.getLsbD j)).length else 0
        let s3 := opKeep s2 n (if 0 < cnt then opWorse { o with chafedN := o.chafedN + cnt } stChafed else o)
        let s4 := { s3 with eng := { s3.eng with rowOps := mapMod 0 s3.eng.rowOps (gc / 96) (· + 1) } }
        .next (pmuAdd s4 (0x0D8 + gc / 96) 1 (attrP (lineAcct s n))))
  | _, _ => .next s

/-- ZERO. -/
def execRowZero (chan : BitVec 10) (bank : BankNo) (s : State) : Out := rowOp 0 chan bank s
/-- ONES. -/
def execRowOnes (chan : BitVec 10) (bank : BankNo) (s : State) : Out := rowOp 1 chan bank s
/-- COPY. -/
def execRowCopy (chan : BitVec 10) (bank : BankNo) (s : State) : Out := rowOp 2 chan bank s
/-- NOT. -/
def execRowNot (chan : BitVec 10) (bank : BankNo) (s : State) : Out := rowOp 3 chan bank s
/-- AND. -/
def execRowAnd (chan : BitVec 10) (bank : BankNo) (s : State) : Out := rowOp 4 chan bank s
/-- OR. -/
def execRowOr (chan : BitVec 10) (bank : BankNo) (s : State) : Out := rowOp 5 chan bank s
/-- XOR. -/
def execRowXor (chan : BitVec 10) (bank : BankNo) (s : State) : Out := rowOp 6 chan bank s
/-- MAJ3. -/
def execMaj3 (chan : BitVec 10) (bank : BankNo) (s : State) : Out := rowOp 7 chan bank s

/-! ### Parity (R222) -/

/-- The splicer of the channel recomputes the parity row of the first pending group of the bank. The last one of a run ends
the bank's part of its operation. -/
def execParityRecompute (chan : BitVec 10) (bank : BankNo) (s : State) : Out :=
  let gc := chan.toNat
  let k := bk gc bank.val
  let b := bankGet s k
  match b.parity with
  | [] => .next s
  | (slot, g, n, q) :: rest =>
    let v := s.fuses.variant
    let slab := actF s flRawSlab slot
    let pr := parityRow s slot g
    let cols (j : Nat) : List Byte := (List.range 32).map (fun i => groupByte s gc bank.val slab g (32 * j + i))
    let s1 := (List.range 32).foldl (fun t j => postAt t n q (lineAcct s n) (rowAddr v gc bank.val pr (32 * j)) (cols j) false) s
    let s2 := bankSet s1 k { b with parity := rest }
    match opFind s2 n q with
    | none => .next s2
    | some o =>
      let last := !(rest.any (fun p => p.2.2.1 = n && p.2.2.2 = q)) && !(b.runs.any (fun r => r.line = n && r.seq = q))
      let whole := stopEntry o k == some (rsProgLen o.desc)
      .next (opSet s2 n { o with n3 := o.n3 + 1, inflight := if last then o.inflight - 1 else o.inflight,
                                 done := if last && whole then o.done + 1 else o.done })

end Sys2Proof.Machine
end

