-- ==== Sys2Proof/Machine/OpEnd.lean ====
section
/-! DEFINITION. The end of an operation: retire, failure, cancel, suspend at a safe point, and the CTRL requests (R244, R253,
R275, R282 to R287). -/

set_option Elab.async false

namespace Sys2Proof.Machine

open Sys2Proof

/-- The op-specific bytes of a BELAY record (R397). -/
def belayBytes (after : BitVec 16) (blocker barriers failOff cancelled quiesceNs : Nat) : List Byte :=
  bytesOf 4 (after.toNat + blocker % 16 * 2 ^ 16 + min 15 barriers * 2 ^ 20) ++ bytesOf 4 failOff ++ bytesOf 4 cancelled ++
  bytesOf 4 (min (2 ^ 32 - 1) quiesceNs)

/-- A request is that of an operation's BELAY descriptor. -/
def BelayReq.mine (n seq : Nat) (r : BelayReq) : Bool := r.line = some (n, seq)

/-- The op-specific bytes of a BELAY that ends before its belay point by a cancel (R396, R397): the barriers used, the
operations cancelled so far, and the time since the drain's end. -/
def belayCancelBytes (s : State) (n seq : Nat) : List Byte :=
  let barriers := ((s.belay.run.toList.map BelayRun.req ++ s.belay.ready ++ s.belay.waiting).find? (BelayReq.mine n seq)).map BelayReq.barriers
  let r := s.belay.run.filter (fun r => r.req.mine n seq)
  let cancelled := (r.map BelayRun.cancelled).getD 0
  let quiesce := (r.map (fun r => if r.stage = .quiesce then tbNow s - r.drainEndAt else 0)).getD 0
  belayBytes s.belay.epoch 0 (barriers.getD 0) 0 cancelled quiesce

/-- The op-specific bytes of an operation's record, by opcode. -/
def opBytes (s : State) (n : Nat) (o : OpEnt) : List Byte :=
  match opcodeOf o.desc with
  | 0x01 => brdBytes o
  | 0x02 => vecBytes o
  | 0x03 => bgtBytes o
  | 0x04 => bgtBytes o
  | 0x08 => moveBytes o
  | 0x09 => rowBytes s o
  | 0x0A => splBytes o
  | 0x0B => splBytes o
  | 0x0C => snapBytes o
  | 0x10 => collBytes o
  | 0x18 => stopperBytes s o
  | 0x19 => hitchWaitBytes s o
  | 0x1C => ctrlBytes o.desc
  | 0x1D => belayCancelBytes s n o.seq
  | _ => []

/-! ### What a cancel or a failure stops at once -/

/-- Runs of a sequence that are between atoms end in their banks (R224). -/
def rowStop (s : State) (n seq : Nat) : State :=
  (s.eng.banks.map Prod.fst).foldl (fun t k =>
    let b := bankGet t k
    let mid := b.atom.any (fun a => a.1 = n && a.2.1 = seq)
    match b.runs.find? (fun r => r.line = n && r.seq = seq) with
    | some r => if mid then t else endRun t k r
    | none => t) s

/-- A tile-op that has not begun DRAIN: it has not passed its last wave, or, under an epilogue, no tile buffer is free for
its drain (R92, R95). -/
def notDraining (s : State) (strand : Nat) (o : OpEnt) (t : TileOp) : Bool :=
  match t.stage with
  | .drained => false
  | .last => opcodeOf o.desc = opBrdMm && bmEpi o.desc && 4 ≤ (strandGet s strand).bufs.length
  | _ => true

/-- The operation that a device move is for. -/
def moveFor : MoveOrigin → Option (Nat × Nat)
  | .prefetch n q _ => some (n, q)
  | .demand n q => some (n, q)
  | .landing n q => some (n, q)
  | _ => none

/-- What stops at once when an operation is cancelled or has failed (R95, R148, R164, R224), and its moves that have not started
(R139, R239). -/
def stopOp (sm : State) (n : Nat) (o : OpEnt) : State :=
  let s := dropQueued sm (fun m => moveFor m.origin = some (n, o.seq))
  let opc := opcodeOf o.desc
  if !o.dispatched then s
  else if opc = opBrdMm || isBgt o then
    let r := tilesStop s (lineStrand s n) n o.seq (notDraining s (lineStrand s n) o)
    match opFind r.1 n o.seq with
    | some o1 => opSet r.1 n { o1 with inflight := o1.inflight - r.2 }
    | none => r.1
  else if opc = opMove then
    let r := moveStop s n o
    opSet r.1 n r.2
  else if opc = opRowSeq then rowStop s n o.seq
  else s

/-- Nothing of the operation is in flight. -/
def opIdle (s : State) (n : Nat) (o : OpEnt) : Bool := o.inflight = 0 && (bufTiles s n o).isEmpty

/-- Requests and holds that an operation leaves behind: a stopper's flush, a snapshot's holds, a belay's place. -/
def opRelease (s : State) (n seq : Nat) : State :=
  let mine := BelayReq.mine n seq
  let s1 := snapRelease s n seq
  let s2 := { s1 with
    net := { s1.net with flushes := s1.net.flushes.filter (fun f => !(f.line = n && f.seq = seq)) },
    belay := { s1.belay with
      run := if s1.belay.run.any (fun r => mine r.req) then none else s1.belay.run,
      ready := s1.belay.ready.filter (fun r => !mine r),
      waiting := s1.belay.waiting.filter (fun r => !mine r) } }
  noteStatus s s2

/-- Tensor, source and format of the census record that an operation's end writes (R116, R239); none where it takes no census
or counted nothing. -/
def censusKey (o : OpEnt) : Option (Nat × Nat × Nat) :=
  let opc := opcodeOf o.desc
  if o.census.total = 0 then none
  else if opc = opVecOp && vcCensus o.desc then some (vcTensor o.desc, 1, vcZFmt o.desc)
  else if opc = opBrdMm && bmEpi o.desc && vcCensus o.desc2 then some (vcTensor o.desc2, 1, vcZFmt o.desc2)
  else if (opc = opSplUpd || opc = opSplAcc) && spCensus o.desc then some (spTensor o.desc, 2, stFmt o.par 0)
  else none

/-- The census record of an operation that wrote elements, and the operation with its index. -/
def retireCensus (s : State) (n : Nat) (o : OpEnt) : State × OpEnt :=
  match censusKey o with
  | none => (s, o)
  | some k =>
    let r := censusWrite s (lineAcct s n) k.1 o.flags k.2.1 k.2.2 (lineStrand s n) o.census
    (r.1, { o with censusIndex := r.2 })

/-- An operation ends by a cancel or a failure with its final record, and with a census record of the elements that it wrote
(R119). -/
def endOp (s : State) (n : Nat) (o : OpEnt) : State :=
  if o.dispatched && opcodeOf o.desc = opCapColl then collFail (sendAborts s o (endStatus o stOk)) n o stOk
  else
    let r := if o.dispatched && s.port.flrAt.isNone then retireCensus s n o else (s, o)
    finishOp (opRelease r.1 n o.seq) n r.2 stOk (if o.dispatched then opBytes r.1 n r.2 else earlyBytes o)

/-- A failed or cancelled operation ends once nothing of it is in flight (R283, R287). -/
def execOperationFailure (line : LineNo) (seq : Seq) (s : State) : Out :=
  let n := line.toNat
  match opFind s n seq.toNat with
  | none => .next s
  | some o =>
    if o.failed || o.track = .cancelPending then
      let s1 := stopOp s n o
      match opFind s1 n o.seq with
      | some o1 => if opIdle s1 n o1 then .next (endOp s1 n o1) else .next s1
      | none => .next s1
    else .next s

/-! ### Retire -/

/-- The blocks that a committing operation wrote take GEN = STEP[15:0] (R244, R253). -/
def commitGen (s : State) (o : OpEnt) (step : Nat) : State :=
  o.wrote.foldl (fun t b =>
    let e := htGet t b
    if e.state = .unbound then t else htSet t b { e with gen := BitVec.ofNat 16 step }) s

/-- The GEN effect of an operation's retire. -/
def retireGen (s : State) (o : OpEnt) : State :=
  if o.status = stUncorrectable then s
  else if opcodeOf o.desc = opSplUpd then commitGen s o (pF o.par 0xC8 63 0)
  else if opcodeOf o.desc = opVecOp && vcCommit o.desc then commitGen s o (pF o.par 0x18 63 0)
  else s

/-- The operation's work is complete: what remains is its retire (R287). -/
def opComplete (s : State) (n : Nat) (o : OpEnt) : Bool :=
  let opc := opcodeOf o.desc
  o.dispatched && !o.failed && opIdle s n o &&
  (if opc = opBrdMm || opc = opVecOp || isBgt o || opc = opMove then o.done = o.total
  else if opc = opRowSeq then o.done = o.total
  else if opc = opSplUpd || opc = opSplAcc then o.units.length = o.total
  else if opc = opSnapshot then snDone s n o
  else if opc = opCapColl then collComplete o && ccWritable s n o
  else false)

/-- The retire of an operation whose last work has finished: census record, GEN, final record (R244, R283, R287). -/
def execOperationRetire (line : LineNo) (seq : Seq) (s : State) : Out :=
  let n := line.toNat
  match opFind s n seq.toNat with
  | none => .next s
  | some o =>
    if opComplete s n o && (o.track = .running || o.track = .suspendPending) then
      let opc := opcodeOf o.desc
      if opc = opCapColl then .next (collRetire s n o)
      else if opc = opSnapshot then .next (snapEnd s n o stOk)
      else
        let r := retireCensus (retireGen s o) n o
        .next (finishOp r.1 n r.2 stOk (opBytes r.1 n r.2))
    else .next s

/-! ### Suspend -/

/-- The operation stands at a safe point (R95, R118, R148, R164, R224, R239, R263). -/
def atSafePoint (s : State) (n : Nat) (o : OpEnt) : Bool :=
  opIdle s n o && (opcodeOf o.desc != opRowSeq || o.units.length = setSize o.desc)

/-- The device address of an operation's context slot: slot `entry` of area CTX_IDX of the pool (R285). -/
def ctxAddr (s : State) (n : Nat) (o : OpEnt) : Nat :=
  frameBase .kern (actF s flCtxBase 0 + actF s flCtxIdx n) + 4096 * o.entry

/-- The first chunk of a channel that an operation has not finished; its chunk count where it has finished all. -/
def chanNext (nc : Nat) (o : OpEnt) (gc : Nat) : Nat :=
  (((List.range (o.total / nc + 1)).map (fun i => gc + i * nc)).find? (fun u => !o.units.contains u)).getD o.total

/-- The context that a suspend saves: the next chunk of every channel for a splicer operation (R239), else 64 B in a layout
of the module's own (R95, R118, R148, R164, R224), whose bytes are free values (log entry 43). -/
def ctxBytes (s : State) (o : OpEnt) : List Byte :=
  let opc := opcodeOf o.desc
  if opc = opSplUpd || opc = opSplAcc then (List.range (nchan s.fuses.variant)).flatMap (fun gc => bytesOf 4 (chanNext (nchan s.fuses.variant) o gc))
  else (List.range 64).map (Config.freeByte s.free)

/-- The context saved in its slot. -/
def saveContext (s : State) (n : Nat) (o : OpEnt) : State := storeAt (drawn s) (ctxAddr s n o) (ctxBytes s o) false

/-- A suspend request takes effect at the safe point: a SUSPENDED record, which signals the vector only with IRQ (R274,
R283, R284). Its flags are those raised so far (R11); its op-specific bytes are zero (log entry 23). -/
def execSafePointSuspend (line : LineNo) (seq : Seq) (s : State) : Out :=
  let n := line.toNat
  match opFind s n seq.toNat with
  | none => .next s
  | some o =>
    if o.dispatched && o.track = .suspendPending && !o.failed && atSafePoint s n o && !opComplete s n o then
      let s1 := opSet (saveContext s n o) n { o with track := .suspended }
      let s2 := writeRecord s1 n (recordBytes o.seq stSuspended o.flags o.epoch s.tb.now [])
      let s3 := if dIrq o.desc then sendVec s2 (actF s2 flLineVector n) else s2
      .next (noteLine s3 n)
    else .next s

/-! ### CTRL (R282 to R286) -/

/-- A suspended operation that is cancelled ends at once, with its outputs as at suspension (R284). -/
def endSuspended (s : State) (n : Nat) (o : OpEnt) : State :=
  let s1 := stopOp s n o
  match opFind s1 n o.seq with
  | some o1 => endOp s1 n o1
  | none => s1

/-- SUSPEND. -/
def execSuspend (src : CtrlSrc) (s : State) : Out := ctrlExec endSuspended 0 .suspend src s
/-- RESUME. -/
def execResume (src : CtrlSrc) (s : State) : Out := ctrlExec endSuspended 1 .resume src s
/-- CANCEL. -/
def execCancel (src : CtrlSrc) (s : State) : Out := ctrlExec endSuspended 2 .cancel src s

end Sys2Proof.Machine
end

