-- ==== Sys2Proof/Machine/CoilCheck.lean ====
section
/-! DEFINITION. The whole-state check of a coil snapshot (R389): every limit of the CW field tables and every belay check of
the other chapters. Each check answers the BAR0 offsets of the CW registers involved when it fails: the register that holds the
refused value and every identified register that it conflicts with. A register of two words is named by its first. -/

set_option Elab.async false

namespace Sys2Proof.Machine

open Sys2Proof

/-- An offset when its condition fails. -/
def failIf (c : Bool) (off : Nat) : List Nat := if c then [off] else []

/-- The offsets of the registers involved in a failing condition. -/
def failAll (c : Bool) (offs : List Nat) : List Nat := if c then offs else []

/-- Instances of a register family with a word listed in either map. -/
def listed (f : Fld) (count : Nat) (m n : SMap W32) : List Nat :=
  ((m ++ n).filterMap (fun p =>
    if f.base ≤ p.1 && f.stride != 0 && (p.1 - f.base) / f.stride < count then some ((p.1 - f.base) / f.stride) else none)).dedup

/-- A run of bytes lies wholly in the hashed kern range. -/
def inKernRange (a n : Nat) : Bool := a + n ≤ mantleBase

/-- A run of bytes lies wholly in one host window. -/
def inOneWindow (a n : Nat) : Bool := hostBase ≤ a && a + n ≤ 2 ^ 48 && (n = 0 || (a - hostBase) / 2 ^ 43 = (a + n - 1 - hostBase) / 2 ^ 43)

/-- Two runs share a byte. -/
def runsMeet (a n b m : Nat) : Bool := a < b + m && b < a + n

/-! ### Units, budgets, governor (R23, R34, R386) -/

/-- Enabled links of a port in a snapshot. -/
def snapLinks (m : SMap W32) (p : Nat) : List Nat :=
  (List.range 24).filter (fun k => flLinkEn.get m k = 1 && flLinkPort.get m k = p)

/-- A route or an axis of a configuration names a link from 12 to 23. -/
def namesHighLinks (m : SMap W32) : Bool :=
  let ports := (List.range 12).filter (fun p => (snapLinks m p).any (fun k => 12 ≤ k))
  ((List.range 16384).any (fun d => let e := routeEntry m d; ports.contains e.1 || ports.contains e.2)) ||
  (List.range 8).any (fun a => flAxSize.get m a != 0 && 2 ^ 12 ≤ flAxLinks.get m a)

def checkUnits (s : State) (m : SMap W32) : List Nat :=
  let en := flUnitEn.get m 0
  let lost := (List.range 7).any (fun k => en.testBit k && !capBit s k)
  let off3 := (flUnitEn.get s.cfg.act 0).testBit 3 && !en.testBit 3
  failIf (lost || (en.testBit 0 && !en.testBit 1) || (off3 && (namesHighLinks m || namesHighLinks s.cfg.act))) 0x14

def checkBudgets (m : SMap W32) : List Nat :=
  failIf (flQuiesceUs.get m 0 < 10 || 1000000 < flQuiesceUs.get m 0 || 1000000 < flDrainUs.get m 0) 0x208

def checkPower (m : SMap W32) : List Nat :=
  failIf (flLimitW.get m 0 < 1200 || 2000 < flLimitW.get m 0 || flVmaxMv.get m 0 < 700 || 900 < flVmaxMv.get m 0) 0x1800000 ++
  failIf (flSlowMv.get m 0 < 600 || 900 < flSlowMv.get m 0 || flVmaxMv.get m 0 < flSlowMv.get m 0 ||
    flTjLimit.get m 0 < 85 || 105 < flTjLimit.get m 0) 0x1800004

/-! ### Lines (R265, R285, R371) -/

def ringSpan (m : SMap W32) (n : Nat) : Nat × Nat := (flRingBase.get m n * 4096, 64 * 2 ^ flRingLog2.get m n)
def cqSpan (m : SMap W32) (n : Nat) : Nat × Nat := (flCqBase.get m n * 4096, 32 * 2 ^ flCqLog2.get m n)

/-- A ring lies in kern, or in one host window whose slice is valid. -/
def ringPlaced (m : SMap W32) (p : Nat × Nat) : Bool :=
  inKernRange p.1 p.2 || (inOneWindow p.1 p.2 && flXlatValid.get m ((p.1 - hostBase) / 2 ^ 43) = 1)

/-- Lines enabled in a configuration. -/
def enabledLines (m : SMap W32) : List Nat := (listed flLineEn 65536 m []).filter (fun n => flLineEn.get m n = 1)

def checkLine (s : State) (m : SMap W32) (on : List Nat) (n : Nat) : List Nat :=
  let a := s.cfg.act
  let was := flLineEn.get a n = 1
  let w0 := flLineEn.off n
  let others := on.filter (fun k => k != n)
  let same (f : Fld) : Bool := f.get m n = f.get a n
  failIf (flRingLog2.get m n < 4 || 20 < flRingLog2.get m n || !ringPlaced m (ringSpan m n) ||
    (was && !(same flRingBase && same flRingLog2 && same flLineStrand))) w0 ++
  failIf (flCqLog2.get m n < 5 || 20 < flCqLog2.get m n || !ringPlaced m (cqSpan m n) ||
    others.any (fun k => runsMeet (cqSpan m n).1 (cqSpan m n).2 (cqSpan m k).1 (cqSpan m k).2) ||
    flCtxCount.get m 0 ≤ flCtxIdx.get m n || others.any (fun k => flCtxIdx.get m k = flCtxIdx.get m n) ||
    (was && !(same flCqBase && same flCqLog2 && same flCtxIdx))) w0 ++
  failAll (was && flPageAcct.get m (n / 256) != flPageAcct.get a (n / 256)) [w0, flPageAcct.off (n / 256)]

def checkLines (s : State) (m : SMap W32) : List Nat :=
  let on := enabledLines m
  let a := s.cfg.act
  let pool (x : SMap W32) : Nat × Nat := (flCtxBase.get x 0, flCtxCount.get x 0)
  let fresh (f : Nat) : Bool :=
    (pool m).1 ≤ f && f < (pool m).1 + (pool m).2 && !((pool a).1 ≤ f && f < (pool a).1 + (pool a).2)
  on.flatMap (checkLine s m on) ++
  failIf (!inKernRange ((pool m).1 * blockBytes) ((pool m).2 * blockBytes) || (usedFrames s .kern).any fresh) 0x380800 ++
  failAll (pool m != pool a && !(enabledLines a).isEmpty) (0x380800 :: (enabledLines a).map flLineEn.off)

/-! ### Arbitration and windows (R77, R117, R309, R311, R317) -/

def checkArb (m : SMap W32) : List Nat :=
  failIf (flAgeUs.get m 0 < 100 || 100000 < flAgeUs.get m 0) 0x381000 ++
  ((List.range 256).filter (fun i => flArbWeight.get m i = 0)).map flArbWeight.off ++
  failIf (flWfcMs.get m 0 = 0) 0x381800 ++
  ((List.range 4).filter (fun k => flMaxArrays.get m k = 0 || 16 < flMaxArrays.get m k)).map flMaxArrays.off

def checkEye (m : SMap W32) : List Nat :=
  let ws := (listed flEyeBase 1024 m []).filter (fun i => flEyeSize.get m i != 0)
  (ws.filter (fun i => 1024 < flEyeBase.get m i + flEyeSize.get m i ||
    ws.any (fun j => j != i && j / 256 = i / 256 &&
      runsMeet (flEyeBase.get m i) (flEyeSize.get m i) (flEyeBase.get m j) (flEyeSize.get m j)))).map flEyeBase.off

def checkCensus (m : SMap W32) : List Nat :=
  ((List.range 256).filter (fun i =>
    let lg := flCensusLog2.get m i
    let b := flCensusBase.get m i
    lg != 0 && (lg < 6 || 20 < lg || b % 64 != 0 || !inKernRange b (64 * 2 ^ lg)))).map flCensusBase.off

/-! ### Tiers (R166, R170, R178) -/

/-- Frames of a tier that a configuration keeps outside the general pool: context areas, the RAW parity slab, the landing
slab. -/
def keptFrames (s : State) (m : SMap W32) (t : Tier) : Nat :=
  match t with
  | .kern => flCtxCount.get m 0
  | .mantle =>
    let v := s.fuses.variant
    (if flRawParValid.get m 0 = 1 then slabFrames v else 0) + (if flLandValid.get m 0 = 1 then slabFrames v else 0)
  | .host => 0

/-- The size of the general pool under a configuration (R165, R166). -/
def generalSize (s : State) (m : SMap W32) (t : Tier) : Nat :=
  let sm := withAct s m
  frameCount sm t - reserveSize sm t - keptFrames s m t

def cleatOff (t : Tier) (i : Nat) : Nat := 0x801000 + 8 * tierCode t + 32 * i

def checkCleat (s : State) (m : SMap W32) (t : Tier) : List Nat :=
  let sm := withAct s m
  let g := generalSize s m t
  let accts := List.range 256
  let sum := accts.foldl (fun n i => n + softOf sm i t) 0
  (accts.filter (fun i =>
    hardOf sm i t < softOf sm i t || g < hardOf sm i t || hardOf sm i t < charge s i t || (g < sum && softOf sm i t != 0))).map (cleatOff t)

def checkRegions (s : State) (m : SMap W32) : List Nat :=
  let rs := (List.range 64).filter (fun r => flRgnBlocks.get m r != 0)
  let sizeOf (r : Nat) : Nat := flRgnBlocks.get m r * blockBytes
  let bad (r : Nat) : Bool :=
    let b := flRgnBase.get m r
    b % blockBytes != 0 || b < hostBase || 2 ^ 48 < b + sizeOf r ||
    rs.any (fun q => q != r && runsMeet b (sizeOf r) (flRgnBase.get m q) (sizeOf q)) ||
    (List.range 16).any (fun i => flXlatValid.get m i = 0 && runsMeet b (sizeOf r) (hostBase + i * 2 ^ 43) (2 ^ 43))
  let totalBlocks := rs.foldl (fun n r => n + flRgnBlocks.get m r) 0
  let moved := (usedFrames s .host).any (fun f =>
    hostTierAddr s.cfg.act (List.range 64) (f * blockBytes) != hostTierAddr m (List.range 64) (f * blockBytes))
  let changed := (List.range 64).filter (fun r =>
    flRgnBase.get m r != flRgnBase.get s.cfg.act r || flRgnBlocks.get m r != flRgnBlocks.get s.cfg.act r)
  (rs.filter bad).map flRgnBase.off ++ (if moved then changed.map flRgnBase.off else []) ++
  (if 16777215 < totalBlocks then rs.map flRgnBlocks.off else [])

def checkPolicy (m : SMap W32) : List Nat :=
  ((List.range 256).filter (fun i =>
    flErrPolicy.get m i = 3 || flRepairWaitUs.get m i = 0 ||
    (flErrPolicy.get m i = 1 && flAxSize.get m (flRepairAxis.get m i) = 0))).map flErrPolicy.off

/-! ### Channels, slabs, arenas, landing pool, export (R196, R227, R255, R369) -/

def checkTherm (m : SMap W32) : List Nat :=
  failIf (flTThrottle.get m 0 < 85 || 100 < flTThrottle.get m 0 || flTCrit.get m 0 < 95 || 110 < flTCrit.get m 0 ||
    flTCrit.get m 0 < flTThrottle.get m 0 + 5 || flTHyst.get m 0 = 0 || 10 < flTHyst.get m 0) 0xB01000 ++
  failIf (flFidShare.get m 0 = 3) 0xB01004 ++
  failIf (flPassHours.get m 0 = 0 || 168 < flPassHours.get m 0) 0xB01008

/-- RAW slots that a snapshot makes valid anew: their slab or their account changes, or they were not valid. -/
def newSlots (s : State) (m : SMap W32) : List Nat :=
  (List.range 16).filter (fun k => flRawValid.get m k = 1 &&
    !(flRawValid.get s.cfg.act k = 1 && flRawSlab.get m k = flRawSlab.get s.cfg.act k && flRawAcct.get m k = flRawAcct.get s.cfg.act k))

/-- RAW slots whose blocks a snapshot frees. -/
def goneSlots (s : State) (m : SMap W32) : List Nat :=
  (List.range 16).filter (fun k => flRawValid.get s.cfg.act k = 1 &&
    !(flRawValid.get m k = 1 && flRawSlab.get m k = flRawSlab.get s.cfg.act k && flRawAcct.get m k = flRawAcct.get s.cfg.act k))

/-- Slabs of the export of a configuration, and its account. -/
def exportSlabs (m : SMap W32) : List Nat :=
  if flCxlValid.get m 0 = 1 then (List.range (flCxlSlabs.get m 0)).map (fun i => flCxlFirst.get m 0 + i) else []

/-- Slabs that a snapshot exports anew: all of them when the account changes. -/
def newExports (s : State) (m : SMap W32) : List Nat :=
  let a := s.cfg.act
  if flCxlAcct.get m 0 = flCxlAcct.get a 0 then (exportSlabs m).filter (fun x => !(exportSlabs a).contains x) else exportSlabs m

/-- A mantle frame of the slab is bound, reserved by a move, or bound by the active RAW slots or export. -/
def slabBound (s : State) (slab : Nat) : Bool :=
  let n := slabFrames s.fuses.variant
  (usedFrames s .mantle).any (fun f => f / n = slab) ||
  (rawSlotOf s.cfg.act s.fuses.variant (slabBase s.fuses.variant slab)).isSome || exported s.cfg.act s.fuses.variant (slabBase s.fuses.variant slab)

/-- The account's mantle HARD can absorb the frames of its newly bound slabs (R196). Frames that the same belay gives back are not
counted out (DESIGN CHOICE, log entry 141). -/
def absorbs (s : State) (m : SMap W32) (acct : Nat) : Bool :=
  let n := slabFrames s.fuses.variant
  let new := ((newSlots s m).filter (fun k => flRawAcct.get m k = acct)).length + (if flCxlAcct.get m 0 = acct then (newExports s m).length else 0)
  charge s acct .mantle + new * n ≤ hardOf (withAct s m) acct .mantle

/-- Valid RAW slabs with the parity slab. -/
def rawSlabs (m : SMap W32) : List Nat :=
  ((List.range 16).filter (fun k => flRawValid.get m k = 1)).map (fun k => flRawSlab.get m k) ++
  (if flRawParValid.get m 0 = 1 then [flRawParSlab.get m 0] else [])

/-- Slabs of arena k. -/
def arenaSlabs (m : SMap W32) (k : Nat) : List Nat :=
  if flArenaValid.get m k = 1 then (List.range (flArenaSlabs.get m k)).map (fun i => flArenaFirst.get m k + i) else []

def checkRaw (s : State) (m : SMap W32) : List Nat :=
  let a := s.cfg.act
  let slots := (List.range 16).filter (fun k => flRawValid.get m k = 1)
  let parOn := flRawParValid.get m 0 = 1
  let slotFails (k : Nat) : List Nat :=
    failIf (!capBit s 0 || slots.any (fun j => j != k && flRawSlab.get m j = flRawSlab.get m k) ||
      ((newSlots s m).contains k && slabBound s (flRawSlab.get m k))) (flRawSlab.off k) ++
    failAll (!parOn || flRawSlab.get m k = flRawParSlab.get m 0) [flRawSlab.off k, 0xB01100] ++
    failAll ((newSlots s m).contains k && !absorbs s m (flRawAcct.get m k)) [flRawSlab.off k, cleatOff .mantle (flRawAcct.get m k)]
  let parNew := parOn && !(flRawParValid.get a 0 = 1 && flRawParSlab.get a 0 = flRawParSlab.get m 0)
  let parChanged := flRawParValid.get a 0 != flRawParValid.get m 0 || flRawParSlab.get a 0 != flRawParSlab.get m 0
  failIf ((parOn && !capBit s 0) || (parNew && slabBound s (flRawParSlab.get m 0)) ||
    (parChanged && (List.range 16).any (fun k => flRawValid.get a k = 1))) 0xB01100 ++
  slots.flatMap slotFails

/-- The registers that claim a slab as RAW memory: slots and the parity slab. -/
def rawClaims (m : SMap W32) (x : Nat) : List Nat :=
  ((List.range 16).filter (fun k => flRawValid.get m k = 1 && flRawSlab.get m k = x)).map flRawSlab.off ++
  failIf (flRawParValid.get m 0 = 1 && flRawParSlab.get m 0 = x) 0xB01100

/-- The arenas other than `k` that claim a slab (16: all). -/
def arenaClaims (m : SMap W32) (k x : Nat) : List Nat :=
  ((List.range 16).filter (fun j => j != k && (arenaSlabs m j).contains x)).map flArenaFirst.off

/-- Claims that conflict with a register's own: that register and each claimant; none where nothing claims. -/
def conflict (own : Nat) (claims : List Nat) : List Nat := failAll (!claims.isEmpty) (own :: claims)

def checkArenas (s : State) (m : SMap W32) : List Nat :=
  let ks := (List.range 16).filter (fun k => flArenaValid.get m k = 1)
  let n := slabFrames s.fuses.variant
  let bound (x : Nat) : Bool := s.tiers.ht.any (fun p =>
    p.2.state != .unbound && mantleBase / blockBytes ≤ p.1 && nameFrame p.1 / n = x) || slabBound s x && (exported s.cfg.act s.fuses.variant (slabBase s.fuses.variant x) || (rawSlotOf s.cfg.act s.fuses.variant (slabBase s.fuses.variant x)).isSome)
  ks.flatMap (fun k =>
    failIf (!capBit s 1 || 256 < flArenaFirst.get m k + flArenaSlabs.get m k || flArenaSlabs.get m k = 0 ||
      (arenaSlabs m k).any (fun x => !(arenaSlabs s.cfg.act k).contains x && bound x)) (flArenaFirst.off k) ++
    (arenaSlabs m k).flatMap (fun x => conflict (flArenaFirst.off k) (rawClaims m x ++ arenaClaims m k x)))

def checkLand (s : State) (m : SMap W32) : List Nat :=
  let a := s.cfg.act
  let on := flLandValid.get m 0 = 1
  let slab := flLandSlab.get m 0
  let same := flLandValid.get a 0 = 1 && flLandSlab.get a 0 = slab
  failIf ((on && (!capBit s 1 || (!same && slabBound s slab))) ||
    (flLandValid.get a 0 = 1 && !(on && same) && !s.tiers.land.isEmpty)) 0xE00000 ++
  (if on then conflict 0xE00000 (rawClaims m slab ++ arenaClaims m 16 slab) else [])

def checkExport (s : State) (m : SMap W32) : List Nat :=
  let a := s.cfg.act
  let on := flCxlValid.get m 0 = 1
  let changed := flCxlValid.get m 0 != flCxlValid.get a 0 || flCxlFirst.get m 0 != flCxlFirst.get a 0 ||
    flCxlSlabs.get m 0 != flCxlSlabs.get a 0 || flCxlAcct.get m 0 != flCxlAcct.get a 0
  failIf ((on && (s.boot.personality != 2 || flCxlSlabs.get m 0 = 0 || 256 < flCxlFirst.get m 0 + flCxlSlabs.get m 0 ||
      (newExports s m).any (slabBound s))) || (changed && s.port.cxlmLive)) 0x1400020 ++
  failAll (on && !(flUnitEn.get m 0).testBit 4) [0x1400020, 0x14] ++
  failAll (on && (newExports s m).length != 0 && !absorbs s m (flCxlAcct.get m 0)) [0x1400020, cleatOff .mantle (flCxlAcct.get m 0)] ++
  (exportSlabs m).flatMap (fun x => conflict 0x1400020 (rawClaims m x ++ arenaClaims m 16 x ++
    failIf (flLandValid.get m 0 = 1 && flLandSlab.get m 0 = x) 0xE00000))

/-- A valid slice must not reach past the end of the bus address space (R371). -/
def checkXlat (m : SMap W32) : List Nat :=
  ((List.range 16).filter (fun i => flXlatValid.get m i = 1 && 2 ^ 64 < flXlatBase.get m i * 4096 + 2 ^ 43)).map flXlatValid.off

/-! ### Links, routes, axes (R332, R336, R357) -/

def portOk (p : Nat) : Bool := p ≤ 11 || p = 15

/-- One byte of a route word: ports named have an enabled link, and ALT lies in PRI's dimension. -/
def routeOk (m : SMap W32) (live : List Nat) (e : Nat) : Bool :=
  let pri := e % 16
  let alt := e / 16 % 16
  (11 < pri || live.contains pri) && (11 < alt || live.contains alt) &&
  (11 < pri || 11 < alt || flPortDim.get m pri = flPortDim.get m alt)

/-- Route words that break R332. An unlisted word is zero: all unlisted words break it together. -/
def checkRoutes (s : State) (m : SMap W32) : List Nat :=
  let live := (List.range 12).filter (fun p => !(snapLinks m p).isEmpty)
  let own := s.boot.devId.toNat
  let wordOk (i w : Nat) : Bool := (List.range 4).all (fun j =>
    let e := w >>> (8 * j) % 256
    if 4 * i + j = own then e = 0xEE else routeOk m live e)
  let words := listed { base := 0x1010000, stride := 4, lo := 0, width := 32 } 4096 m []
  let bad := words.filter (fun i => !wordOk i (cwGet m (0x1010000 + 4 * i)).toNat)
  let dims (e : Nat) : List Nat :=
    let pri := e % 16
    let alt := e / 16 % 16
    failAll (pri ≤ 11 && alt ≤ 11 && flPortDim.get m pri != flPortDim.get m alt) [flPortDim.off pri, flPortDim.off alt]
  let dimRegs (i : Nat) : List Nat := (List.range 4).flatMap (fun j =>
    if 4 * i + j = own then [] else dims ((cwGet m (0x1010000 + 4 * i)).toNat >>> (8 * j) % 256))
  let rest := (List.range 4096).find? (fun i => !words.contains i && !wordOk i 0)
  (bad ++ rest.toList).flatMap (fun i => (0x1010000 + 4 * i) :: dimRegs i)

def checkLinks (s : State) (m : SMap W32) : List Nat :=
  failIf (flCollWeight.get m 0 = 0 || flDataWeight.get m 0 = 0) 0x1000004 ++
  failIf (48 < flTbDepth.get m 0 || !portOk (flTbParent.get m 0) || !portOk (flTbAlt.get m 0) ||
    (flTbRoot.get m 0 = 0 && flTbParent.get m 0 ≤ 11 && (snapLinks m (flTbParent.get m 0)).isEmpty)) 0x100000C ++
  ((List.range 24).filter (fun k => !portOk (flLinkPort.get m k) ||
    (flLinkEn.get m k = 1 && 11 < flLinkPort.get m k))).map flLinkPort.off ++
  (List.range 24).flatMap (fun k => failAll (flLinkEn.get m k = 1 && 12 ≤ k && !(flUnitEn.get m 0).testBit 3) [flLinkPort.off k, 0x14]) ++
  ((List.range 12).filter (fun p => !(snapLinks m p).isEmpty && flPortNbr.get m p = s.boot.devId.toNat)).map flPortNbr.off ++
  ((List.range 4).filter (fun w => flRxValid.get m w = 1 &&
    (flRxBase.get m w % 64 != 0 || flRxSize.get m w % 64 != 0 ||
     !(inKernRange (flRxBase.get m w) (flRxSize.get m w) ||
       (mantleBase ≤ flRxBase.get m w && flRxBase.get m w + flRxSize.get m w ≤ mantleEnd s.fuses.variant))))).map flRxBase.off ++
  checkRoutes s m

/-- A device ID appears twice among the members of an axis; `seen` is a set of numbers as bits. -/
def memberTwice (m : SMap W32) (a : Nat) : Nat → Nat → Bool
  | 0, _ => false
  | n + 1, seen =>
    let d := axisMember m a n
    seen.testBit d || memberTwice m a n (seen ||| 2 ^ d)

def checkAxis (s : State) (m : SMap W32) (a : Nat) : List Nat :=
  let size := flAxSize.get m a
  let rank := flAxRank.get m a
  let links := flAxLinks.get m a
  let own := s.boot.devId.toNat
  let unreached (r : Nat) : Bool :=
    let d := axisMember m a r
    d != own && !((snapLinks m (routeEntry m d).1).any (fun k => links.testBit k))
  if size = 0 then []
  else
    failIf (16384 < size || size ≤ rank || axisMember m a rank != own || memberTwice m a (min size 16384) 0 ||
      (List.range (min size 16384)).any unreached || 1 < flAxAlgo.get m a) (flAxSize.off a) ++
    (List.range 24).flatMap (fun k => failAll (links.testBit k && flLinkEn.get m k = 0) [flLinkEn.off k, flAxSize.off a]) ++
    failIf (flAxTimeout.get m a = 0 || flAxSlowMult.get m a = 0 || 4 < flAxSlowMult.get m a ||
      (flAxAlgo.get m a = 1 && (flAxN0.get m a * flAxN1.get m a * flAxN2.get m a != size ||
        1024 < flAxN0.get m a || 1024 < flAxN1.get m a || 1024 < flAxN2.get m a))) (flAxSize.off a)

/-! ### Counters (R400, R405, R411 to R416) -/

/-- The block of an event code; none for a reserved code (R402). -/
def eventBlock (c : Nat) : Option Nat :=
  if c < 0x30 || (0x40 ≤ c && c < 0x68) then some (c % 4)
  else if 0x80 ≤ c && c < 0xA4 then some (4 + c % 4)
  else if 0xC0 ≤ c && c < 0x100 then some (8 + c % 8)
  else if 0x100 ≤ c && c < 0x115 then (if c = 0x103 || c = 0x107 || c = 0x10B then none else some 16)
  else if 0x140 ≤ c && c < 0x170 then some (if (c - 0x140) % 24 ≤ 11 then 17 else 18)
  else if 0x170 ≤ c && c ≤ 0x173 then some 17
  else if 0x174 ≤ c && c ≤ 0x17A then some 19
  else none

def checkPmu (m : SMap W32) : List Nat :=
  ((List.range 4).filter (fun i => flPmuRngLimit.get m i < flPmuRngBase.get m i)).map flPmuRngBase.off ++
  ((List.range 160).filter (fun i => flBlkEn.get m i = 1 && eventBlock (flBlkEvent.get m i) != some (i / 8))).map flBlkEvent.off ++
  failIf (flSumBase.get m 0 != 0 && (flSumPeriod.get m 0 = 0 || flSumBase.get m 0 % 4096 != 0 || !inKernRange (flSumBase.get m 0) 4096)) 0x1604000 ++
  failIf (flSmpRate.get m 0 != 0 && (flSmpRate.get m 0 < 4 || 20 < flSmpRate.get m 0 || flSmpSeed.get m 0 = 0)) 0x1607000 ++
  (let lg := flSmpLog2.get m 0
   failIf (lg != 0 && (lg < 6 || 20 < lg || flSmpBase.get m 0 % 64 != 0 || !inKernRange (flSmpBase.get m 0) (64 * 2 ^ lg))) 0x1607008) ++
  (let lg := flKnotLog2.get m 0
   failIf (lg != 0 && (lg < 6 || 20 < lg || flKnotBase.get m 0 % 64 != 0 || !inKernRange (flKnotBase.get m 0) (64 + 32 * 2 ^ lg))) 0x1607100) ++
  ((List.range 256).filter (fun i =>
    let lg := flCtabLog2.get m i
    lg != 0 && (lg < 4 || 20 < lg || flCtabBase.get m i % 64 != 0 || !inKernRange (flCtabBase.get m i) (64 * 2 ^ lg)))).map flCtabBase.off

/-- Every register that holds a refused value. -/
def coilFailures (s : State) (m : SMap W32) : List Nat :=
  checkUnits s m ++ checkBudgets m ++ checkLines s m ++ checkArb m ++ checkEye m ++ checkCensus m ++
  checkCleat s m .kern ++ checkCleat s m .mantle ++ checkCleat s m .host ++ checkRegions s m ++ checkPolicy m ++
  checkTherm m ++ checkRaw s m ++ checkArenas s m ++ checkLand s m ++ checkLinks s m ++
  (List.range 8).flatMap (checkAxis s m) ++ checkExport s m ++ checkXlat m ++ checkPmu m ++ checkPower m

/-- The whole-state check: none when it passes, else FAIL_OFFSET, the lowest offset among the registers involved (R389). -/
def coilCheck (s : State) (m : SMap W32) : Option Nat :=
  (coilFailures s m).foldl (fun acc x => some (match acc with
    | none => x
    | some y => min x y)) none

end Sys2Proof.Machine
end

