-- ==== Sys2Proof/Machine/Image.lean ====
section
/-! DEFINITION. Zilwell images: SHA-384, ECDSA over P-384 (FIPS 186-5, named by R376), the header, the section table, register
lists, and the checks of a boot slot (R374 to R380). -/

set_option Elab.async false

namespace Sys2Proof.Machine

open Sys2Proof

/-! ### SHA-384 -/

/-- Round constants of SHA-384, rounds 0 to 19. -/
def shaK0 : List W64 :=
  [0x428A2F98D728AE22, 0x7137449123EF65CD, 0xB5C0FBCFEC4D3B2F, 0xE9B5DBA58189DBBC,
   0x3956C25BF348B538, 0x59F111F1B605D019, 0x923F82A4AF194F9B, 0xAB1C5ED5DA6D8118,
   0xD807AA98A3030242, 0x12835B0145706FBE, 0x243185BE4EE4B28C, 0x550C7DC3D5FFB4E2,
   0x72BE5D74F27B896F, 0x80DEB1FE3B1696B1, 0x9BDC06A725C71235, 0xC19BF174CF692694,
   0xE49B69C19EF14AD2, 0xEFBE4786384F25E3, 0x0FC19DC68B8CD5B5, 0x240CA1CC77AC9C65]

/-- Round constants of SHA-384, rounds 20 to 39. -/
def shaK1 : List W64 :=
  [0x2DE92C6F592B0275, 0x4A7484AA6EA6E483, 0x5CB0A9DCBD41FBD4, 0x76F988DA831153B5,
   0x983E5152EE66DFAB, 0xA831C66D2DB43210, 0xB00327C898FB213F, 0xBF597FC7BEEF0EE4,
   0xC6E00BF33DA88FC2, 0xD5A79147930AA725, 0x06CA6351E003826F, 0x142929670A0E6E70,
   0x27B70A8546D22FFC, 0x2E1B21385C26C926, 0x4D2C6DFC5AC42AED, 0x53380D139D95B3DF,
   0x650A73548BAF63DE, 0x766A0ABB3C77B2A8, 0x81C2C92E47EDAEE6, 0x92722C851482353B]

/-- Round constants of SHA-384, rounds 40 to 59. -/
def shaK2 : List W64 :=
  [0xA2BFE8A14CF10364, 0xA81A664BBC423001, 0xC24B8B70D0F89791, 0xC76C51A30654BE30,
   0xD192E819D6EF5218, 0xD69906245565A910, 0xF40E35855771202A, 0x106AA07032BBD1B8,
   0x19A4C116B8D2D0C8, 0x1E376C085141AB53, 0x2748774CDF8EEB99, 0x34B0BCB5E19B48A8,
   0x391C0CB3C5C95A63, 0x4ED8AA4AE3418ACB, 0x5B9CCA4F7763E373, 0x682E6FF3D6B2B8A3,
   0x748F82EE5DEFB2FC, 0x78A5636F43172F60, 0x84C87814A1F0AB72, 0x8CC702081A6439EC]

/-- Round constants of SHA-384, rounds 60 to 79. -/
def shaK3 : List W64 :=
  [0x90BEFFFA23631E28, 0xA4506CEBDE82BDE9, 0xBEF9A3F7B2C67915, 0xC67178F2E372532B,
   0xCA273ECEEA26619C, 0xD186B8C721C0C207, 0xEADA7DD6CDE0EB1E, 0xF57D4F7FEE6ED178,
   0x06F067AA72176FBA, 0x0A637DC5A2C898A6, 0x113F9804BEF90DAE, 0x1B710B35131C471B,
   0x28DB77F523047D84, 0x32CAAB7B40C72493, 0x3C9EBE0A15C9BEBC, 0x431D67C49C100D4C,
   0x4CC5D4BECB3E42B6, 0x597F299CFC657E2A, 0x5FCB6FAB3AD6FAEC, 0x6C44198C4A475817]

def shaK : List W64 := shaK0 ++ shaK1 ++ shaK2 ++ shaK3

/-- The initial hash value of SHA-384. -/
def shaH : List W64 :=
  [0xCBBB9D5DC1059ED8, 0x629A292A367CD507, 0x9159015A3070DD17, 0x152FECD8F70E5939,
   0x67332667FFC00B31, 0x8EB44A8768581511, 0xDB0C2E0D64F98FA7, 0x47B5481DBEFA4FA4]

/-- The number that big-endian octets spell. -/
def natBE (bs : List Byte) : Nat := bs.foldl (fun n b => n * 256 + b.toNat) 0

def rotr (x : W64) (n : Nat) : W64 := (x >>> n) ||| (x <<< (64 - n))

/-- The message with its padding: 0x80, zeros, and the length in bits as 16 octets. -/
def shaPad (bs : List Byte) : List Byte :=
  let z := (112 + 128 - (bs.length + 1) % 128) % 128
  bs ++ [0x80] ++ List.replicate z 0 ++ (bytesOf 16 (8 * bs.length)).reverse

/-- The message schedule, newest word first. -/
def shaSchedule : Nat → List W64 → List W64
  | 0, w => w
  | n + 1, w =>
    let a := w.getD 1 0
    let b := w.getD 14 0
    let x := (rotr a 19 ^^^ rotr a 61 ^^^ (a >>> 6)) + w.getD 6 0 + (rotr b 1 ^^^ rotr b 8 ^^^ (b >>> 7)) + w.getD 15 0
    shaSchedule n (x :: w)

/-- One round over the eight working variables. -/
def shaRound (v : List W64) (kw : W64 × W64) : List W64 :=
  match v with
  | [a, b, c, d, e, f, g, h] =>
    let t1 := h + (rotr e 14 ^^^ rotr e 18 ^^^ rotr e 41) + ((e &&& f) ^^^ (~~~e &&& g)) + kw.1 + kw.2
    let t2 := (rotr a 28 ^^^ rotr a 34 ^^^ rotr a 39) + ((a &&& b) ^^^ (a &&& c) ^^^ (b &&& c))
    [t1 + t2, a, b, c, d + t1, e, f, g]
  | _ => v

/-- One 128-octet block. -/
def shaBlock (h : List W64) (bs : List Byte) : List W64 :=
  let w0 := (List.range 16).map (fun i => BitVec.ofNat 64 (natBE ((bs.drop (8 * i)).take 8)))
  let w := (shaSchedule 64 w0.reverse).reverse
  List.zipWith (· + ·) h ((shaK.zip w).foldl shaRound h)

def shaBlocks : Nat → List W64 → List Byte → List W64
  | 0, h, _ => h
  | n + 1, h, bs => shaBlocks n (shaBlock h (bs.take 128)) (bs.drop 128)

/-- SHA-384 of a run of bytes, as a number. -/
def sha384 (bs : List Byte) : Nat :=
  let p := shaPad bs
  ((shaBlocks (p.length / 128) shaH p).take 6).foldl (fun n x => n * 2 ^ 64 + x.toNat) 0

/-! ### ECDSA over P-384 -/

/-- The field prime, the order of the base point, the coefficient b and the base point of P-384. -/
def p384p : Nat := 2 ^ 384 - 2 ^ 128 - 2 ^ 96 + 2 ^ 32 - 1
def p384n : Nat := 0xFFFFFFFFFFFFFFFFFFFFFFFFFFFFFFFFFFFFFFFFFFFFFFFFC7634D81F4372DDF581A0DB248B0A77AECEC196ACCC52973
def p384b : Nat := 0xB3312FA7E23EE7E4988E056BE3F82D19181D9C6EFE8141120314088F5013875AC656398D8A2ED19D2A85C8EDD3EC2AEF
def p384G : Nat × Nat :=
  (0xAA87CA22BE8B05378EB1C71EF320AD746E1D3B628BA79B9859F741E082542A385502F25DBF55296C3A545E3872760AB7,
   0x3617DE4A96262C6F5D9E98BF9292DC29F8F41DBD289A147CE9DA3113B5F0B8C00A60B1CE1D7E819D7A431D7C90EA0E5F)

/-- b^e modulo m, for e below 2^fuel. -/
def powMod (m : Nat) : Nat → Nat → Nat → Nat
  | 0, _, _ => 1 % m
  | k + 1, b, e =>
    let h := powMod m k (b * b % m) (e / 2)
    if e % 2 = 1 then b * h % m else h

/-- The inverse modulo a prime below 2^384. -/
def invMod (m a : Nat) : Nat := powMod m 384 (a % m) (m - 2)

/-- A point of the curve in Jacobian coordinates: x = X / Z², y = Y / Z³; Z is 0 at infinity. -/
structure EcPoint where
  X : Nat
  Y : Nat
  Z : Nat
deriving DecidableEq, Repr

def ecInfinity : EcPoint := { X := 1, Y := 1, Z := 0 }

/-- A difference modulo the field prime. -/
def subP (a b : Nat) : Nat := (a + (p384p - b % p384p)) % p384p

/-- The double of a point; the coefficient a of the curve is −3. -/
def ecDouble (P : EcPoint) : EcPoint :=
  let p := p384p
  let yy := P.Y * P.Y % p
  let zz := P.Z * P.Z % p
  let s := 4 * P.X * yy % p
  let m := 3 * (P.X + zz) * subP P.X zz % p
  let x := subP (m * m) (2 * s)
  { X := x, Y := subP (m * subP s x) (8 * yy * yy), Z := 2 * P.Y * P.Z % p }

/-- The sum of two points. -/
def ecAdd (P Q : EcPoint) : EcPoint :=
  if P.Z = 0 then Q
  else if Q.Z = 0 then P
  else
    let p := p384p
    let zz1 := P.Z * P.Z % p
    let zz2 := Q.Z * Q.Z % p
    let u1 := P.X * zz2 % p
    let u2 := Q.X * zz1 % p
    let s1 := P.Y * (zz2 * Q.Z % p) % p
    let s2 := Q.Y * (zz1 * P.Z % p) % p
    if u1 = u2 then (if s1 = s2 then ecDouble P else ecInfinity)
    else
      let h := subP u2 u1
      let r := subP s2 s1
      let hh := h * h % p
      let v := u1 * hh % p
      let hhh := h * hh % p
      let x := subP (r * r) (hhh + 2 * v)
      { X := x, Y := subP (r * subP v x) (s1 * hhh), Z := h * (P.Z * Q.Z % p) % p }

/-- The multiple k × P, for k below 2^fuel. -/
def ecMul : Nat → Nat → EcPoint → EcPoint
  | 0, _, _ => ecInfinity
  | f + 1, k, P =>
    let r := ecMul f (k / 2) (ecDouble P)
    if k % 2 = 1 then ecAdd P r else r

/-- The signature r, s of a hash verifies under the public key of 97 octets (FIPS 186-5, SEC1). -/
def ecdsaOk (hash : Nat) (key sig : List Byte) : Bool :=
  let x := natBE ((key.drop 1).take 48)
  let y := natBE ((key.drop 49).take 48)
  let r := natBE (sig.take 48)
  let s := natBE ((sig.drop 48).take 48)
  let n := p384n
  let onCurve := x < p384p && y < p384p && y * y % p384p = (x * x * x + (p384p - 3) * x + p384b) % p384p
  if key.getD 0 0 != 4 || !onCurve || r = 0 || s = 0 || n ≤ r || n ≤ s then false
  else
    let w := invMod n s
    let g : EcPoint := { X := p384G.1, Y := p384G.2, Z := 1 }
    let q : EcPoint := { X := x, Y := y, Z := 1 }
    let R := ecAdd (ecMul 384 (hash * w % n) g) (ecMul 384 (r * w % n) q)
    R.Z != 0 && R.X * invMod p384p (R.Z * R.Z) % p384p % n = r

/-! ### The flash and the header (R374, R375) -/

/-- A byte of the boot flash. -/
def flashByte (s : State) (a : Nat) : Byte := mapGet 0xFF s.flash a

def slotBase (slot : Nat) : Nat := slot * 0x2000000

/-- The bytes of n addresses from k on, where a map with rising keys lists no key below k. -/
def flashWalk : Nat → Nat → SMap Byte → List Byte
  | 0, _, _ => []
  | n + 1, k, [] => 0xFF :: flashWalk n (k + 1) []
  | n + 1, k, (j, v) :: m => if j = k then v :: flashWalk n (k + 1) m else 0xFF :: flashWalk n (k + 1) ((j, v) :: m)

/-- A run of bytes of the boot flash. -/
def flashRun (s : State) (a n : Nat) : List Byte := flashWalk n a (s.flash.dropWhile (fun p => p.1 < a))

/-- Bytes of a slot. -/
def slotBytes (s : State) (slot off n : Nat) : List Byte := flashRun s (slotBase slot + off) n

def slotNat (s : State) (slot off n : Nat) : Nat := natOfBytes (slotBytes s slot off n)

def imgMagic (s : State) (k : Nat) : Nat := slotNat s k 0x000 4
def imgMajor (s : State) (k : Nat) : Nat := slotNat s k 0x006 2
def imgGeneration (s : State) (k : Nat) : Nat := slotNat s k 0x008 4
def imgLength (s : State) (k : Nat) : Nat := slotNat s k 0x00C 4
def imgSvn (s : State) (k : Nat) : Nat := slotNat s k 0x010 2
def imgVariants (s : State) (k : Nat) : Nat := slotNat s k 0x012 1
def imgSections (s : State) (k : Nat) : Nat := slotNat s k 0x014 2
def imgKey (s : State) (k : Nat) : List Byte := slotBytes s k 0x040 97

/-- Reserved header bytes: those of the table, and the bytes and mask bits that no field holds (DEDUCED). -/
def imgReserved (s : State) (k : Nat) : Bool :=
  slotNat s k 0x013 1 = 0 && slotNat s k 0x016 2 = 0 && slotNat s k 0x018 40 = 0 && slotNat s k 0x0A1 95 = 0 && imgVariants s k < 8

/-! ### The section table (R376, R377) -/

/-- An entry of the section table. -/
structure Section where
  typ : Nat
  version : Nat
  offset : Nat
  length : Nat
  crc : Nat
deriving DecidableEq, Repr

def imgTable (s : State) (k : Nat) : List Section :=
  (List.range (imgSections s k)).map (fun i =>
    let b := 0x100 + 16 * i
    { typ := slotNat s k b 2, version := slotNat s k (b + 2) 2, offset := slotNat s k (b + 4) 4,
      length := slotNat s k (b + 8) 4, crc := slotNat s k (b + 12) 4 })

def secIdentity : Nat := 1
def secMemTrain : Nat := 6
def secCounters : Nat := 7
def secHostPort : Nat := 0xB

def imgSection (s : State) (k typ : Nat) : Option Section := (imgTable s k).find? (fun x => x.typ = typ)

def secBytes (s : State) (k : Nat) (x : Section) : List Byte := slotBytes s k x.offset x.length

/-- The section table obeys R376 and R377. -/
def tableOk (s : State) (k : Nat) : Bool :=
  let n := imgSections s k
  let t := imgTable s k
  let pairs := t.zipIdx
  1 ≤ n && n ≤ 32 &&
  t.all (fun x => x.version = 1 && x.offset % 8 = 0 && 0x100 + 16 * n ≤ x.offset && x.offset + x.length + 96 ≤ imgLength s k &&
    1 ≤ x.typ && x.typ ≤ 0xB) &&
  pairs.all (fun p => pairs.all (fun q => p.2 = q.2 ||
    (p.1.typ != q.1.typ && !runsMeet p.1.offset p.1.length q.1.offset q.1.length))) &&
  (List.range 12).all (fun y => y = 0 || y = secMemTrain || t.any (fun x => x.typ = y))

/-! ### Register lists (R378) -/

/-- An entry of a register list: offset, width, value. -/
structure RegEntry where
  off : Nat
  width : Nat
  val : Nat
deriving DecidableEq, Repr

/-- The entries that bytes spell, sixteen bytes each, with their check word. -/
def rawEntries : Nat → List Byte → List (RegEntry × Nat)
  | 0, _ => []
  | n + 1, bs =>
    let w := natOfBytes ((bs.drop 4).take 4)
    ({ off := natOfBytes (bs.take 4), width := w % 256, val := natOfBytes ((bs.drop 8).take 8) }, w / 256) :: rawEntries n (bs.drop 16)

/-- The bits of the word at `off` that are not reserved: CW fields, and PASS_COUNT of MNT_SCRUB_CFG. -/
def namedMask (off : Nat) : W32 := cwMask off ||| (if off = 0xB01008 then 0xFFFF0000 else 0)

/-- Words that an entry writes. -/
def entryWords (e : RegEntry) : List (Nat × W32) :=
  (e.off, BitVec.ofNat 32 e.val) :: (if e.width = 8 then [(e.off + 4, BitVec.ofNat 32 (e.val / 2 ^ 32))] else [])

/-- The entry is valid for a section type; for none, for any CW register. -/
def entryOk (sect : Option Nat) (p : RegEntry × Nat) : Bool :=
  let e := p.1
  p.2 = 0 && (e.width = 4 || e.width = 8) && e.off % e.width = 0 && (e.width = 8 || e.val < 2 ^ 32) &&
  (entryWords e).all (fun w =>
    (cwAt w.1).any (fun r => sect.all (fun x => r.sect = x)) && (w.2 &&& ~~~(namedMask w.1)) = 0)

/-- A word map with the CW bits of a word written. -/
def stageWord (m : SMap W32) (off : Nat) (w : W32) : SMap W32 := cwSet m off (w &&& cwMask off)

/-- An entry applied. -/
def applyEntry (m : SMap W32) (e : RegEntry) : SMap W32 := (entryWords e).foldl (fun t w => stageWord t w.1 w.2) m

/-- The entries of a register list; none when one is invalid. -/
def regList (sect : Option Nat) (bs : List Byte) : Option (List RegEntry) :=
  let es := rawEntries (bs.length / 16) bs
  if bs.length % 16 = 0 && es.all (entryOk sect) then some (es.map Prod.fst) else none

/-! ### Section contents (R377 to R379) -/

/-- A string of ASCII characters padded with zeros. -/
def asciiPadded (bs : List Byte) : Bool :=
  bs.all (fun b => b.toNat < 128) && (bs.dropWhile (fun b => b != 0)).all (fun b => b = 0)

/-- The device ID and ID_FROM_PINS of an IDENTITY section; none when it breaks R379 or R329. -/
def identityOf (modId : Nat) (bs : List Byte) : Option (Nat × Bool) :=
  let base := natOfBytes (bs.take 2)
  let pins := natOfBytes ((bs.drop 2).take 1)
  let id := base + (if pins = 1 then modId else 0)
  if bs.length = 48 && base < 2 ^ 14 && pins ≤ 1 && ((bs.drop 3).take 5).all (fun b => b = 0) && asciiPadded (bs.drop 16) && id ≤ 16383 then
    some (id, pins = 1)
  else none

/-- Training records follow each other to the end of the section. -/
def memTrainOk : Nat → List Byte → Bool
  | 0, bs => bs.isEmpty
  | fuel + 1, bs =>
    bs.isEmpty || (16 ≤ bs.length && natOfBytes (bs.take 1) ≤ 1 && 16 + natOfBytes ((bs.drop 4).take 4) ≤ bs.length &&
      memTrainOk fuel (bs.drop (16 + natOfBytes ((bs.drop 4).take 4))))

/-- The leading 8 bytes of COUNTERS and HOST_PORT: a value in byte 0 and seven zero bytes. -/
def leadOf (top : Nat) (bs : List Byte) : Option Nat :=
  let v := natOfBytes (bs.take 1)
  if 8 ≤ bs.length && v ≤ top && ((bs.drop 1).take 7).all (fun b => b = 0) then some v else none

/-- What an image configures. -/
structure ImageConf where
  act : SMap W32
  devId : Nat
  fromPins : Bool
  style : Nat
  personality : Nat
deriving DecidableEq, Repr

/-- One section taken into the configuration; none when its content breaks R378 or R379. -/
def takeSection (s : State) (k modId : Nat) (acc : Option ImageConf) (x : Section) : Option ImageConf :=
  acc.bind (fun c =>
    let bs := secBytes s k x
    if x.typ = secIdentity then (identityOf modId bs).map (fun r => { c with devId := r.1, fromPins := r.2 })
    else if x.typ = secMemTrain then (if memTrainOk bs.length bs then some c else none)
    else
      let lead := x.typ = secCounters || x.typ = secHostPort
      let v := if lead then leadOf (if x.typ = secCounters then 1 else 2) bs else some 0
      let c1 := if x.typ = secCounters then { c with style := v.getD 0 } else if x.typ = secHostPort then { c with personality := v.getD 0 } else c
      if v.isNone then none
      else (regList (some x.typ) (if lead then bs.drop 8 else bs)).map (fun es => { c1 with act := es.foldl applyEntry c1.act }))

/-- The configuration of a slot's image, with image defaults where no entry writes (R378). -/
def imageConf (s : State) (k modId : Nat) : Option ImageConf :=
  (imgTable s k).foldl (takeSection s k modId) (some { act := [], devId := 0, fromPins := false, style := 0, personality := 0 })

/-! ### The checks of a slot (R380) -/

/-- The fused key slot, valid and not revoked, that accepts the image's key. -/
def keySlotOf (s : State) (k : Nat) : Option Nat :=
  let h := sha384 (imgKey s k)
  (List.range 4).find? (fun i => s.fuses.keyValid.getLsbD i && !s.fuses.keyRevoked.getLsbD i &&
    (s.fuses.keyHash[i]?).any (fun x => x.toNat = h))

def variantBit : Variant → Nat
  | .f => 0
  | .e => 1
  | .c => 2

/-- Checks 1 and 2: the header is one that R381 orders. -/
def headerCause (s : State) (k : Nat) : Nat :=
  if imgMagic s k != 0x4C574C5A || imgMajor s k != 1 then 1
  else if imgLength s k < 4096 || 33554432 < imgLength s k || imgLength s k % 8 != 0 || !imgReserved s k then 2
  else 0

/-- CAUSE of checks 1 to 9; 0 when they pass. Check 10 is the boot belay's. -/
def imageCause (s : State) (k modId : Nat) : Nat :=
  let h := headerCause s k
  if h != 0 then h
  else if !(imgVariants s k).testBit (variantBit s.fuses.variant) then 3
  else if (keySlotOf s k).isNone then 4
  else if imgSvn s k < s.fuses.svnFloor.toNat then 5
  else if !ecdsaOk (sha384 (slotBytes s k 0 (imgLength s k - 96))) (imgKey s k) (slotBytes s k (imgLength s k - 96) 96) then 6
  else if !tableOk s k then 7
  else if (imgTable s k).any (fun x => (crc32c (secBytes s k x)).toNat != x.crc) then 8
  else if (imageConf s k modId).isNone then 9
  else 0

end Sys2Proof.Machine
end

