-- ==== Sys2Proof/Machine/HostPort.lean ====
section
/-! DEFINITION. The host port: BAR4 and CXL.mem accesses, MSI-X messages, FLR, the loss and return of the port link, failed
device reads (R361 to R373). -/

set_option Elab.async false

namespace Sys2Proof.Machine

open Sys2Proof

/-- The host's requests reach the endpoint: powered, out of reset, link up, configuration past MANTLE (R382). -/
def portReach (s : State) : Bool :=
  s.power.rails && !s.power.perstActed && s.port.linkUp && 6 ≤ s.boot.phase

def portOut (s : State) (m : HostMsg) : State := { s with port := { s.port with out := s.port.out ++ [m] } }

/-! ### BAR4 (R362 to R364) -/

/-- The device address of a BAR4 offset. -/
def bar4Addr (o : Nat) : Nat := if o < 2 ^ 40 then o else straightBase + (o - 2 ^ 40)

/-- The tier of a device address is one that failed training (R385). -/
def tierLost (s : State) (a : Nat) : Bool :=
  if a < mantleBase then s.boot.kernLost else s.boot.mantleLost

/-- Every 32 B granule that n bytes at a device address touch, and both ends. -/
def probes (a n : Nat) : List Nat := ((List.range (n / 32 + 1)).map (fun i => a + 32 * i)).filter (fun x => x < a + n) ++ [a + n - 1]

/-- The access touches an unused range, or a stack or channel that is not fitted (R362). -/
def bar4Unpop (s : State) (o n : Nat) : Bool :=
  (probes (bar4Addr o) n).any (fun a =>
    match regionOf s.fuses.variant a with
    | .kern | .mantle => 2 ^ 40 ≤ o
    | .straight => o < 2 ^ 40
    | _ => true) || (o < 2 ^ 40 && 2 ^ 40 < o + n)

/-- The frame address that a host access of a device address reaches; none for an UNBOUND name. -/
def hostFrame (s : State) (a : Nat) : Option Nat := locate s none a

/-- The access waits: its bank runs an atom or owes refreshes, its group's parity is stale, its block's landing slots are
still to be merged, or a repair holds the chafed granule (R179, R201, R220, R222, R257). A write to a block that is to be
merged is held as for a MOVING one. -/
def hostHeld (s : State) (a n : Nat) (write : Bool) : Bool :=
  bankHolds s a n write ||
  (!write && (repairHolds s a n || ((spanBlocks a n).any (fun b => s.tiers.merging.contains b) && a < straightBase)))

/-- Banks that the access waits for note it (R219). -/
def hostNote (s : State) (a n : Nat) (write : Bool) : State :=
  match (probes a n).findSome? (fun x => (hostFrame s x).filter (fun fa => accessHeld s fa write)) with
  | some fa => noteHeld s fa
  | none => s

/-- The line of the read-ahead buffer that answers for a frame address, if the buffer still holds it (R301). -/
def aheadLine (s : State) (fa : Nat) : Option (List (Byte × Bool)) :=
  (mapFind s.mem.ahead (fa / 64 * 64)).filter (fun _ => Config.staleSeen s.free (fa / 64 * 64))

/-- A byte that the host reads, with its chafe mark: from the read-ahead buffer where that holds the line, which does not see
bank-path writes (R301). -/
def hostByte (s : State) (a : Nat) : Byte × Bool :=
  match hostFrame s a with
  | none => (0, false)
  | some fa =>
    match aheadLine s fa with
    | some l => l.getD (fa % 64) (0, false)
    | none => (viewByte s fa, viewMark s fa)

/-- A line of storage as the read-ahead buffer takes it in. -/
def aheadTake (s : State) (l : Nat) : Nat × List (Byte × Bool) :=
  (l, (List.range 64).map (fun i => (viewByte s (l + i), viewMark s (l + i))))

/-- After a host read the read-ahead buffer holds the lines read and a number of lines that follow, which is open; its oldest
lines leave it (R301; log entry 136). Lines of the host tier do not enter it. -/
def readAhead (s : State) (a n : Nat) : State :=
  let count := (a + n - 1) / 64 + 1 - a / 64 + Config.readAhead s.free % 1024
  let lines := ((List.range count).filterMap (fun i => (hostFrame s ((a / 64 + i) * 64)).filter (fun fa => fa < hostFrames))).dedup
  let fresh := lines.filter (fun l => (aheadLine s l).isNone)
  let kept := s.mem.ahead.filter (fun p => !fresh.contains p.1)
  { s with mem := { s.mem with ahead := (fresh.map (aheadTake s) ++ kept).take 1024 } }

/-- A byte of a completion: 0xFF in a chafed granule (R363). -/
def bar4Byte (s : State) (a : Nat) : Byte := if (hostByte s a).2 then 0xFF else (hostByte s a).1

/-- The completions of a read: one for each 64 B line that it touches, poisoned when it carries a chafed granule
(DESIGN CHOICE, log entry 25). -/
def bar4Completions (s : State) (a n : Nat) : List (List Byte × Bool) :=
  (List.range ((a + n - 1) / 64 + 1 - a / 64)).map (fun i =>
    let lo := max a ((a / 64 + i) * 64)
    let hi := min (a + n) ((a / 64 + i + 1) * 64)
    let addrs := (List.range (hi - lo)).map (fun j => lo + j)
    (addrs.map (bar4Byte s), addrs.any (fun x => (hostByte s x).2)))

/-- BAD_ACCESS of each tier in which the access touches an UNBOUND name, or writes a DERIVED block (R153, R363). -/
def hostBadNames (s : State) (a n : Nat) (write : Bool) : State :=
  (((spanBlocks a n).filter (fun b => badName s none (b * blockBytes) || (write && b * blockBytes < straightBase && derivedName s b))).map
    (fun b => nameTier b)).dedup.foldl badAccess s

/-- A BAR4 read that has reached its channel (R362 to R364); `found` are the errors that it meets. -/
def hostBar4ReadNow (off : BitVec 41) (len : Nat) (found : List Found) (s : State) : Out :=
  let a := bar4Addr off.toNat
  if !portReach s || len = 0 then .next s
  else if s.port.flrAt.isSome then .next (portOut s .ur)
  else if bar4Unpop s off.toNat len then
    .next (portOut { s with port := { s.port with unpop := satAdd 65535 s.port.unpop 1 } } .ur)
  else if tierLost s a then .next (portOut s .ur)
  else if hostHeld s a len false then .next (holdReq (hostNote s a len false) (.hostBar4Read off ⟨len, found⟩) true a len false)
  else
    let s0 := foundMem s [(a, len)] found
    let cs := bar4Completions s0 a len
    let s1 := cs.foldl (fun t c => portOut t (.data c.1 c.2)) (drawn (readAhead (hostBadNames s0 a len false) a len))
    let poisoned := (cs.filter (fun c => c.2)).length
    let s2 := { s1 with port := { s1.port with chafedReads := satAdd 65535 s1.port.chafedReads poisoned } }
    .next (pmuAdd s2 0x174 (ceilDiv len 64) (attrHost a))

/-- A BAR4 read, in its turn (R299). -/
def execHostBar4Read (off : BitVec 41) (len : Met Nat) (s : State) : Out :=
  hostAccess (.hostBar4Read off len) (bar4Addr off.toNat) len.val false (hostBar4ReadNow off len.val len.found) s

/-- One piece of a BAR4 write within a block: dropped for a DERIVED block (R153, R363). -/
def hostPiece (s : State) (p : Nat × List Byte) : State :=
  if p.1 < straightBase && derivedName s (blockNo p.1) then s else (writePiece true none false (s, false) p).1

/-- A BAR4 write that has reached its channel (R362 to R364). -/
def hostBar4WriteNow (off : BitVec 41) (data : List Byte) (s : State) : Out :=
  let a := bar4Addr off.toNat
  let n := data.length
  if !portReach s || n = 0 then .next s
  else if s.port.flrAt.isSome then .next (portOut s .ur)
  else if bar4Unpop s off.toNat n then
    .next (portOut { s with port := { s.port with unpop := satAdd 65535 s.port.unpop 1 } } .ur)
  else if tierLost s a then .next (portOut s .ur)
  else if hostHeld s a n true then .next (holdReq (hostNote s a n true) (.hostBar4Write off data) true a n true)
  else
    let s1 := (pieces a data).foldl hostPiece (hostBadNames s a n true)
    .next (pmuAdd (drawn s1) 0x175 (ceilDiv n 64) (attrHost a))

/-- A BAR4 write, in its turn (R299). -/
def execHostBar4Write (off : BitVec 41) (data : List Byte) (s : State) : Out :=
  hostAccess (.hostBar4Write off data) (bar4Addr off.toNat) data.length true (hostBar4WriteNow off data) s

/-! ### CXL.mem (R368 to R370) -/

/-- The hashed mantle name of a device physical address of the export; none outside the range or without personality 2. -/
def cxlName (s : State) (dpa : Nat) : Option Nat :=
  let slab := nchan s.fuses.variant * 2 ^ 22
  if s.boot.personality = 2 && unitOn s 4 && actF s flCxlValid 0 = 1 && s.port.cxlmLive && dpa % 64 = 0 &&
      dpa < actF s flCxlSlabs 0 * slab then
    some (mantleBase + actF s flCxlFirst 0 * slab + dpa)
  else none

/-- The host commits or uncommits its decoder for the export. -/
def execCxlDecoderCommit (commit : Bool) (s : State) : Out :=
  if portReach s && s.port.flrAt.isNone && s.boot.personality = 2 then .next { s with port := { s.port with cxlmLive := commit } }
  else .next s

/-- A CXL.mem read of a 64 B line that has reached its channel: poisoned when a granule of it is chafed. The bytes of a chafed
granule are free values. -/
def cxlMemReadNow (dpa : BitVec 40) (found : List Found) (s : State) : Out :=
  match cxlName s dpa.toNat with
  | none => .next s
  | some a =>
    if !portReach s || s.port.flrAt.isSome then .next s
    else if hostHeld s a 64 false then .next (holdReq (hostNote s a 64 false) (.cxlMemRead ⟨dpa, found⟩) true a 64 false)
    else
      let s0 := foundMem s [(a, 64)] found
      let line := (List.range 64).map (fun i => (hostByte s0 (a + i), Config.freeByte s0.free i))
      let poison := line.any (fun x => x.1.2)
      let s1 := portOut (drawn (readAhead s0 a 64)) (.data (line.map (fun x => if x.1.2 then x.2 else x.1.1)) poison)
      let s2 := if poison then { s1 with port := { s1.port with chafedReads := satAdd 65535 s1.port.chafedReads 1 } } else s1
      .next (pmuAdd s2 0x174 1 (attrHost a))

/-- A CXL.mem read, in its turn (R299, R314). -/
def execCxlMemRead (dpa : Met (BitVec 40)) (s : State) : Out :=
  hostAccess (.cxlMemRead dpa) ((cxlName s dpa.val.toNat).getD 0) (if (cxlName s dpa.val.toNat).isSome then 64 else 0) false
    (cxlMemReadNow dpa.val dpa.found) s

/-- The pieces of a masked 64 B write: whole granules, and single bytes of the others. -/
def maskedPieces (a : Nat) (data : List Byte) (mask : BitVec 64) : List (Nat × List Byte) :=
  [0, 1].flatMap (fun i =>
    let idx := (List.range 32).map (fun j => 32 * i + j)
    if idx.all (fun j => mask.getLsbD j) then [(a + 32 * i, idx.map (fun j => data.getD j 0))]
    else (idx.filter (fun j => mask.getLsbD j)).map (fun j => (a + j, [data.getD j 0])))

/-- A CXL.mem write, at its channel, of the bytes whose mask bit is set; a granule written whole loses its mark (R177, R370). -/
def cxlMemWriteNow (dpa : BitVec 40) (data : List Byte) (mask : BitVec 64) (s : State) : Out :=
  match cxlName s dpa.toNat with
  | none => .next s
  | some a =>
    if !portReach s || s.port.flrAt.isSome then .next s
    else if hostHeld s a 64 true then .next (holdReq (hostNote s a 64 true) (.cxlMemWrite dpa data mask) true a 64 true)
    else .next (pmuAdd (drawn ((maskedPieces a data mask).foldl hostPiece s)) 0x175 1 (attrHost a))

/-- A CXL.mem write, in its turn (R299, R314). -/
def execCxlMemWrite (dpa : BitVec 40) (data : List Byte) (mask : BitVec 64) (s : State) : Out :=
  hostAccess (.cxlMemWrite dpa data mask) ((cxlName s dpa.toNat).getD 0) (if (cxlName s dpa.toNat).isSome then 64 else 0) true
    (cxlMemWriteNow dpa data mask) s

/-! ### MSI-X (R365, R367) -/

/-- The messages of vectors that are pending and not masked are sent, one each, and their pending bits cleared. -/
def flushMsix (s : State) (vs : List Nat) : State :=
  vs.foldl (fun t v =>
    if t.port.pba.contains v && t.port.linkUp && t.port.flrAt.isNone && !(mapGet MsixEntry.reset t.port.msix v).mask then
      sendVec { t with port := { t.port with pba := setDel t.port.pba v } } v
    else t) s

/-- A vector's mask bit is cleared; a pending message is sent. -/
def msixUnmaskNow (vector : BitVec 11) (s : State) : Out :=
  let v := vector.toNat
  if portReach s && s.port.flrAt.isNone then
    let s1 := { s with port := { s.port with msix := mapMod MsixEntry.reset s.port.msix v (fun e => { e with mask := false }) } }
    .next (flushMsix s1 [v])
  else .next s

/-- A write of the MSI-X table that clears a mask bit, in its turn (R299). -/
def execMsixUnmask (vector : BitVec 11) (s : State) : Out := hostLane (.msixUnmask vector) (msixUnmaskNow vector) s

/-! ### FLR (R366, R367) -/

/-- Every operation of every line is cancelled; a collective aborts and ends at once (R345). -/
def flrCancel (s : State) : State :=
  (allOps s).foldl (fun t p =>
    match opFind t p.1 p.2.seq with
    | some o =>
      if isColl o then collFail (sendAborts t o stCancelled) p.1 o stCancelled
      else opSet t p.1 { o with track := .cancelPending, resumeBy := none }
    | none => t) s

/-- An FLR begins: lines stop taking, operations are cancelled, host belays abandoned (R366, R396). -/
def flrBegin (s : State) : State :=
  let s1 := flrCancel { s with port := { s.port with flrAt := some s.clk } }
  let s2 := { s1 with belay := { s1.belay with run := none, ready := [], waiting := [], hostBusy := false, hostQueued := false } }
  noteAll (noteStatus s1 s2)

/-- A function-level reset. -/
def execFlr (s : State) : Out :=
  if portReach s && s.port.flrAt.isNone then .next (flrBegin s) else .next s

/-- A hot reset or link disable from the host: an FLR, and the link retrains (R367). -/
def execHotReset (s : State) : Out :=
  if portReach s && s.port.flrAt.isNone then
    let s1 := flrBegin s
    .next { s1 with port := { s1.port with linkUp := false } }
  else .next s

/-- What every cancelled operation must stop, stopped. -/
def flrStops (s : State) : State := (allOps s).foldl (fun t p => match opFind t p.1 p.2.seq with
  | some o => stopOp t p.1 o
  | none => t) s

/-- The registers and counters that R6 resets at FLR, beside those that the lines, hitches and the coil hold; signals still to
come are dropped (R366). -/
def flrRegs (s : State) : State :=
  { s with
    regs := HostRegs.reset
    port := { s.port with msix := [], pba := [], flrAt := none }
    tiers := { s.tiers with poolFull := 0, merges := 0, claims := 0, claimFail := 0, lateSigs := [] }
    eng := { s.eng with rowOps := [], spills := [], heldCount := [], scrubPasses := 0 }
    wfc := { s.wfc with agedGrants := 0, maxAgedWait := 0 } }

/-- The FLR's end, once every cancelled operation has stopped: posted writes drained, eye buffers and hitches zeroed, lines
and coil reset (R366). -/
def execFlrComplete (s : State) : Out :=
  if s.port.flrAt.isNone then .next s
  else
    let s1 := flrStops s
    if !((allOps s1).all (fun p => opIdle s1 p.1 p.2)) then .next s1
    else
      let s2 := (allOps s1).foldl (fun t p => opRelease (opDrop t p.1 p.2.seq) p.1 p.2.seq) s1
      let s3 := { drainPosted s2 (fun _ => true) with
        lines := []
        hitches := []
        strands := s2.strands.map (fun (p : Nat × Strand) => (p.1, { p.2 with bufs := [] })) }
      let s4 := { s3 with
        mem := { s3.mem with eye := [], eyeChafed := [] }
        cfg := { s3.cfg with coil := s3.cfg.act, writes := 0 } }
      .next (noteAll (flrRegs s4))

/-! ### The port link (R172, R367) -/

/-- The run whose block's move was dropped: the block is to start again (R172; DESIGN CHOICE, log entry 127). -/
def moveAgain (s : State) (m : Move) : State :=
  match m.origin with
  | .op n q =>
    (match opFind s n q with
    | some o => opSet s n { o with inflight := o.inflight - 1, wset := o.wset ++ [(m.name - mvBlock o.desc, 3)] }
    | none => s)
  | _ => s

/-- A move that ends without having moved its block: the block stays at its source home, with the writes held for it, and a FREE
that waited for the move takes effect (R156, R172). -/
def dropMove (s : State) (m : Move) : State :=
  let e := htGet s m.name
  let rest := s.tiers.moves.filter (fun x => x != m)
  let s1 := chargeSub { s with tiers := { s.tiers with moves := rest } } m.account m.dest 1 1
  if !m.started then s1
  else
    let s2 := returnFrame s1 m.dest
    let s3 := if m.fill then s2 else
        let st : BlockState := if blockMarked s2 e then .chafed else if e.land && e.tier = .host then .landing else .home
        sigsAfter (applyHeld (htSet s2 m.name { e with state := st }) m.name m.held) m.name
    if m.freeAtRetire then freeDone (unbind s3 m.name) m.name else moveAgain s3 m

/-- Every granule of a host-tier block marked (R172). -/
def chafeHostBlock (s : State) (name : Nat) : State :=
  let e := htGet s name
  let s1 := { s with mem := { s.mem with chafed := marksAfter s.mem.chafed (frameBase .host e.frame) blockBytes true } }
  syncChafe s1 name

/-- A line with its descriptor ring or completion ring in a host window (R367). -/
def hostRing (s : State) (n : Nat) : Bool :=
  lineOn s n && (hostBase ≤ actF s flRingBase n * 4096 || hostBase ≤ actF s flCqBase n * 4096)

/-- HOST stoppers that wait for their flush read fail (R297). -/
def failFlushes (s : State) : State :=
  (s.lines.map Prod.fst).foldl (fun t n =>
    match stopperOf t n with
    | some o => if o.total = 1 && stopScope o.desc = 3 then flushFailed t n o else t
    | none => t) s

/-- The port link goes down for a cause other than the host's reset: host-tier blocks become CHAFED, host-tier moves keep their
source homes, lines with host rings stop (R172, R367), and host requests that wait are lost (log entry 137). -/
def portDown (s : State) : State :=
  if !s.port.linkUp then s
  else
    let s0 := { s with port := { s.port with linkUp := false, linkDowns := satAdd 255 s.port.linkDowns 1 } }
    let hostMove (m : Move) : Bool := m.dest = .host || (!m.fill && (htGet s m.name).tier = .host)
    let s1 := (s.tiers.moves.filter hostMove).foldl dropMove s0
    let s2 := ((s1.tiers.ht.filter (fun p => p.2.state != .unbound && p.2.tier = .host)).map Prod.fst).foldl chafeHostBlock s1
    let s3 := failFlushes { s2 with
      lines := s2.lines.map (fun p => if hostRing s2 p.1 then (p.1, { p.2 with stopped := true }) else p)
      ingress := { s2.ingress with queue := s2.ingress.queue.filter (fun r => !r.host) } }
    collPumpAll (advanceBight (advanceRuns (noteAll s3)))

/-- Loss of the port link. -/
def execPortLinkDown (s : State) : Out := .next (portDown s)

/-- The port link comes up, at the width and rate that the two ends agree on, which are open; pending messages of unmasked
vectors are sent (R367). -/
def execPortLinkUp (s : State) : Out :=
  if s.power.rails && !s.power.perstActed && s.pins.refclkOk && !s.port.linkUp && 1 ≤ s.boot.phase then
    let w := Config.freeWord s.free
    let s1 := { drawn s with port := { s.port with
      linkUp := true
      width := [1, 4, 8, 16].getD (w.toNat % 4) 16
      rate := w.toNat / 4 % 6 } }
    .next (flushMsix s1 s1.port.pba)
  else .next s

/-! ### Failed device reads (R372) -/

/-- The host-tier block whose frame lies at a host-window address. -/
def hostBlockAt (s : State) (a : Nat) : Option (Nat × Nat) :=
  s.tiers.ht.findSome? (fun p =>
    if p.2.tier = .host && p.2.state != .unbound then
      match hostTierAddr s.cfg.act (List.range 64) (p.2.frame * blockBytes) with
      | some b => if b ≤ a && a < b + blockBytes then some (p.1, frameBase .host p.2.frame + (a - b)) else none
      | none => none
    else none)

/-- A device read of a host window fails: HOST_ERR counts, a host-tier block read that way becomes CHAFED, and the granules
reach the requesting unit marked chafed; the error policy of a SHARED block acts (R178). -/
def execHostReadFail (addr : DevAddr) (len : Nat) (_why : ReadFail) (s : State) : Out :=
  let a := addr.toNat
  if !s.port.linkUp || a < hostBase || len = 0 then .next s
  else
    let s1 := raiseCause { s with port := { s.port with hostErr := satAdd 4095 s.port.hostErr 1 } } irqHostErr
    let bad := (List.range ((a + len - 1) / 64 + 1 - a / 64)).map (fun i => a / 64 + i)
    match hostBlockAt s a with
    | some (name, fa) =>
      .next (wroteMarked s1 (syncChafe { s1 with mem := { s1.mem with chafed := marksAfter s1.mem.chafed fa len true } } name) name fa len)
    | none => .next { s1 with mem := { s1.mem with hostBad := bad.foldl setIns s1.mem.hostBad } }

end Sys2Proof.Machine
end

