-- ==== Sys2Proof/Machine/Power.lean ====
section
/-! DEFINITION. Standby and main power, PERST_N, the warm reset, shutdown, the thermal trip, and the management controller's
messages (R6, R348, R431 to R439). -/

set_option Elab.async false

namespace Sys2Proof.Machine

open Sys2Proof

-- SLIP reasons (R348).
def slipReset : Nat := 1
def slipShutdown : Nat := 2
def slipTrip : Nat := 3
def slipLinkOff : Nat := 4

/-- Three SLIP frames of a reason on a link (R348). -/
def slipLink (s : State) (k reason : Nat) : State :=
  let f := mkLocal s ftSlip (BitVec.ofNat 32 reason) 0 0
  sendOn (sendOn (sendOn s k f) k f) k f

/-- Three SLIP frames on every UP link. -/
def slipAll (s : State) (reason : Nat) : State :=
  ((List.range 24).filter (linkUp s)).foldl (fun t k => slipLink t k reason) s

/-- The frames that the links have put on their lanes: the only thing of a link that outlives a reset. -/
def wiresOf (s : State) : SMap Link :=
  (s.net.links.filter (fun p => !p.2.wire.isEmpty)).map (fun p => (p.1, { Link.reset with wire := p.2.wire }))

/-- Every register and every piece of state that a reset clears (R6, R435): fuses, pins, power, flash, host memory and what
has left the module stay. The boot count and the next log index stay too, being what the log in the flash says (R384). -/
def cleared (s : State) : State :=
  { State.reset with
    pending := s.pending
    free := s.free
    clk := s.clk
    fuses := s.fuses
    pins := s.pins
    power := s.power
    boot := { Boot.reset with count := s.boot.count, logNext := s.boot.logNext }
    flash := s.flash
    mem := { Mem.reset with host := s.mem.host }
    port := { HostPort.reset with out := s.port.out }
    net := { Net.reset with links := wiresOf s } }

/-- A stack's registers after a warm reset: temperature, state and level go on reporting (R6, R202). -/
def warmStack (x : StackSt) : StackSt :=
  { x with sensorErr := false, linkRetry := 0, ce := 0, ue := 0 }

/-- The state after a warm reset (R435): every unit has stopped; the timebase, FORCE_SAFE, and what reports the running
hardware (governor, strand sensors, stack temperatures) are kept (R6). -/
def warmed (s : State) : State :=
  { cleared s with
    tb := s.tb
    boot := { Boot.reset with count := s.boot.count, logNext := s.boot.logNext, forceSafe := s.boot.forceSafe }
    gov := s.gov
    strands := s.strands.filterMap (fun p =>
      let x : Strand := { Strand.reset with rate := p.2.rate, waves := p.2.waves, tj := p.2.tj }
      if x = Strand.reset then none else some (p.1, x))
    stackSt := s.stackSt.filterMap (fun p => if warmStack p.2 = StackSt.reset then none else some (p.1, warmStack p.2)) }

/-- The main rails go down: SLIP, lanes idle, PWR_GOOD low (R436). What needs the rails is gone. -/
def railsDown (s : State) (reason : Nat) : State :=
  if !s.power.rails then s
  else
    let s1 := cleared (slipAll s reason)
    { s1 with power := { s1.power with rails := false, perstActed := true }, pins := { s1.pins with pwrGood := false } }

/-- Stacks fitted on a part, by number: kern stack k is k, mantle stack m is 4 + m. -/
def fittedStacks (v : Variant) : List Nat := List.range (4 + mantleCount v)

/-- The main rails come up, PWR_GOOD is released, and the module stays in reset until PERST_N rises (R434). Each stack's
reports begin. -/
def railsUp (s : State) : State :=
  if s.power.rails || !s.power.standby || s.power.trip || s.power.faulted || !s.pins.pwrEn then s
  else
    { s with
      power := { s.power with rails := true, perstActed := true }
      pins := { s.pins with pwrGood := true }
      stackSt := (fittedStacks s.fuses.variant).foldl (fun m k =>
        mapSet StackSt.reset m k { StackSt.reset with lastReport := s.clk, lastChange := s.clk }) [] }

/-- A PWR_EN, input or trip level lasts at least one second. -/
def lowFor (s : State) (since : Option Nat) (ns : Nat) : Bool := since.all (fun t => t + ns ≤ s.clk)

/-- PWR_EN rises, after at least 1 s low (R434, R436). A latched trip or an input fault keeps the rails off. -/
def execPowerUp (s : State) : Out :=
  if s.power.standby && !s.pins.pwrEn && lowFor s s.power.pwrEnLowAt 1000000000 then
    .next (railsUp { s with pins := { s.pins with pwrEn := true }, power := { s.power with pwrEnLowAt := none } })
  else .next s

/-- PWR_EN falls (R436). -/
def execShutdown (s : State) : Out :=
  if s.pins.pwrEn then
    let s1 := railsDown s slipShutdown
    .next { s1 with pins := { s1.pins with pwrEn := false }, power := { s1.power with pwrEnLowAt := some s.clk } }
  else .next s

/-- The standby domain is lost: pending events, the trip latch and its record go with it (R432, R439). -/
def standbyLost (s : State) : State :=
  let s1 := railsDown s slipShutdown
  { s1 with
    power := { s1.power with standby := false, trip := false, tripSource := none, events := [], mctp := [], faulted := false }
    pins := { s1.pins with thermTripN := true, alertN := true } }

/-- The input leaves 36 V to 64 V (R432). -/
def execStandbyPowerLoss (mv : Nat) (s : State) : Out :=
  if s.power.standby && (mv < 36000 || 64000 < mv) then
    let s1 := standbyLost s
    .next { s1 with pins := { s1.pins with vinMv := mv } }
  else .next s

/-- The input enters 36 V to 64 V (R432). -/
def execStandbyPowerUp (mv : Nat) (s : State) : Out :=
  if !s.power.standby && 36000 ≤ mv && mv ≤ 64000 then
    .next { s with power := { s.power with standby := true }, pins := { s.pins with vinMv := mv } }
  else .next s

/-- The input has been below 38 V or above 62 V for 2 µs: the module acts as if PWR_EN had fallen (R433). -/
def execInputFault (mv : Nat) (s : State) : Out :=
  if s.power.standby && (mv < 38000 || 62000 < mv) then
    let s1 := railsDown s slipShutdown
    let s2 := { s1 with power := { s1.power with faulted := true }, pins := { s1.pins with vinMv := mv } }
    .next (if mv < 36000 || 64000 < mv then standbyLost s2 else s2)
  else .next s

/-- The input has stayed between 40 V and 60 V for 100 ms: the fault ends, and with PWR_EN high the rails come up (R433). -/
def execInputRecovery (mv : Nat) (s : State) : Out :=
  if s.power.standby && 40000 ≤ mv && mv ≤ 60000 then
    .next (railsUp { s with power := { s.power with faulted := false }, pins := { s.pins with vinMv := mv } })
  else .next s

/-- PERST_N falls (R435). -/
def execPerstNAssert (s : State) : Out :=
  if s.pins.perstN then
    .next { s with pins := { s.pins with perstN := false }, power := { s.power with perstLowAt := some s.clk } }
  else .next s

/-- PERST_N has stayed low for 100 µs with the rails up: SLIP RESET, lanes idle, every unit stopped, no record written
(R435). -/
def execWarmReset (s : State) : Out :=
  if s.power.rails && !s.power.perstActed && !s.pins.perstN && s.power.perstLowAt.any (fun t => t + 100000 ≤ s.clk) then
    let s1 := warmed (slipAll s slipReset)
    .next { s1 with power := { s1.power with perstActed := true } }
  else .next s

/-! ### Trips (R207, R438, R439) -/

/-- The source of a trip is fitted. -/
def sourceFitted (v : Variant) : TripSource → Bool
  | .stack (.mantle m) => m.val < mantleCount v
  | _ => true

/-- THERM_TRIP_N is driven low: a PLDM event becomes pending, and the rails go down with SLIP TRIP (R437, R438). -/
def trip (s : State) (source : TripSource) : State :=
  if !s.power.standby || s.power.trip || !sourceFitted s.fuses.variant source then s
  else
    let s1 := railsDown s slipTrip
    { s1 with
      power := { s1.power with trip := true, tripSource := some source, events := s1.power.events ++ [{ source := source }] }
      pins := { s1.pins with thermTripN := false, alertN := false } }

/-- A comparator reads its trip point. -/
def execThermalTrip (source : TripSource) (s : State) : Out := .next (trip s source)

/-- PWR_EN has been low for 1 s while every comparator read at least 10 °C below its trip point (`cool`): the latch
releases. The record of the source and the pending event stay (R439). -/
def execTripRelease (cool : Bool) (s : State) : Out :=
  if s.power.trip && cool && !s.pins.pwrEn && lowFor s s.power.pwrEnLowAt 1000000000 then
    .next { s with power := { s.power with trip := false }, pins := { s.pins with thermTripN := true } }
  else .next s

/-- The oldest pending PLDM event is read; ALERT_N is released with the last one (R431, R439). -/
def execPldmEventRead (s : State) : Out :=
  match s.power.events with
  | [] => .next s
  | _ :: rest => .next { s with power := { s.power with events := rest }, pins := { s.pins with alertN := rest.isEmpty } }

/-- An MCTP message reaches the management controller, which is powered in standby (R432). What it answers is outside the
manual. -/
def execMctpMessage (body : List Byte) (s : State) : Out :=
  if s.power.standby then .next { s with power := { s.power with mctp := s.power.mctp ++ [body] } } else .next s

/-! ### REFCLK (R41) -/

/-- Every link without its reference: those that are UP or TRAINING go down at once, so that no frame leaves on one while the
other's loss is told. -/
def lanesDark (s : State) : State :=
  (List.range 24).foldl (fun t k =>
    let l := linkGet t k
    if l.state = .up || l.state = .training then linkSet t k (linkOff l .down (if l.state = .up then causeLos else l.cause)) else t) s

/-- REFCLK fails: the timebase runs on from the on-module oscillator, the port and the links lose their reference. -/
def execRefclkFail (s : State) : Out :=
  if !s.power.rails || !s.pins.refclkOk then .next s
  else
    let s1 := raiseCause { s with pins := { s.pins with refclkOk := false }, tb := { s.tb with holdover := true } } irqTimebase
    let s2 := ((List.range 24).filter (linkUp s1)).foldl (fun t k => linkLost t k causeLos none) (lanesDark s1)
    .next (portDown s2)

end Sys2Proof.Machine
end

