-- ==== Sys2Proof/Machine/Apply.lean ====
section
/-! DEFINITION. A snapshot becoming the active state at a belay point, at boot or in safe mode: slabs bound, zeroed and freed,
pools, eye pages, lines, links, counters (R77, R165, R196, R255, R265, R285, R348, R351, R369, R393, R401, R411, R414). -/

set_option Elab.async false

namespace Sys2Proof.Machine

open Sys2Proof

/-- n free frames leave a tier's pools, the general pool first. -/
def takeFrames (s : State) (t : Tier) (n : Nat) : State :=
  let p := poolGet s t
  poolSet s t { p with general := p.general - n, reserve := p.reserve - (n - p.general) }

/-- n frames return to a tier's pools: they refill the reserve below its size, else the general pool (R165). -/
def giveFrames (s : State) (t : Tier) (n : Nat) : State :=
  let p := poolGet s t
  let r := min n (reserveSize s t - p.reserve)
  poolSet s t { p with reserve := p.reserve + r, general := p.general + (n - r) }

/-- Frames that the reserve holds above its size move to the general pool. -/
def trimReserve (s : State) (t : Tier) : State :=
  let p := poolGet s t
  let x := p.reserve - reserveSize s t
  poolSet s t { p with reserve := p.reserve - x, general := p.general + x }

/-- First frame address past a slab. -/
def slabEnd (v : Variant) (slab : Nat) : Nat := slabBase v (slab + 1)

/-- A frame address lies in one of the slabs. -/
def inSlabs (v : Variant) (slabs : List Nat) (fa : Nat) : Bool := slabs.any (fun x => slabBase v x ≤ fa && fa < slabEnd v x)

/-- The frames of slabs zeroed, with their marks. -/
def zeroSlabs (s : State) (slabs : List Nat) : State :=
  let inside := inSlabs s.fuses.variant slabs
  { s with mem := { s.mem with
      bytes := s.mem.bytes.filter (fun p => !inside p.1), ahead := s.mem.ahead.filter (fun l => !inside l.1),
      chafed := s.mem.chafed.filter (fun g => !inside g), posted := s.mem.posted.filter (fun p => !inside p.addr) } }

/-- The home-table entries of the names of slabs leave the list: those names are bound, or unbound, by the configuration. -/
def forgetSlabs (s : State) (slabs : List Nat) : State :=
  { s with tiers := { s.tiers with ht := s.tiers.ht.filter (fun p => !inSlabs s.fuses.variant slabs (p.1 * blockBytes)) } }

/-- Slabs and accounts bound by RAW slots and the export: those that a snapshot frees, and those that it binds. -/
def boundOut (s : State) (m : SMap W32) : List (Nat × Nat) :=
  let a := s.cfg.act
  (goneSlots s m).map (fun k => (flRawSlab.get a k, flRawAcct.get a k)) ++
  ((exportSlabs a).filter (fun x => !(exportSlabs m).contains x || flCxlAcct.get a 0 != flCxlAcct.get m 0)).map (fun x => (x, flCxlAcct.get a 0))

def boundIn (s : State) (m : SMap W32) : List (Nat × Nat) :=
  (newSlots s m).map (fun k => (flRawSlab.get m k, flRawAcct.get m k)) ++ (newExports s m).map (fun x => (x, flCxlAcct.get m 0))

/-- The parity slab when a snapshot declares it anew. -/
def newParity (s : State) (m : SMap W32) : List Nat :=
  let a := s.cfg.act
  if flRawParValid.get m 0 = 1 && !(flRawParValid.get a 0 = 1 && flRawParSlab.get a 0 = flRawParSlab.get m 0) then [flRawParSlab.get m 0] else []

/-- Blocks freed and their frames returned, before the snapshot becomes active. -/
def unbindSlabs (s : State) (m : SMap W32) : State :=
  let n := slabFrames s.fuses.variant
  let out := boundOut s m
  (out.foldl (fun t p => giveFrames (chargeSub t p.2 .mantle n 0) .mantle n) (forgetSlabs s (out.map Prod.fst)))

/-- A frame address lies in a parity row of one of the RAW slots (R197). -/
def inParityRows (s : State) (slots : List Nat) (fa : Nat) : Bool :=
  inSlabs s.fuses.variant [actF s flRawParSlab 0] fa && slots.contains ((mantleHash (nchan s.fuses.variant) fa).2.2 / 2 ^ 15 % 128 / 8)

/-- The parity rows of slots whose data slab has been zeroed: their parity is zero too (R197). -/
def zeroParity (s : State) (slots : List Nat) : State :=
  { s with mem := { s.mem with bytes := s.mem.bytes.filter (fun p => !inParityRows s slots p.1) } }

/-- Slabs bound and zeroed, once the snapshot is active; `new` and `par` are those that it adds, `slots` the RAW slots anew valid. -/
def bindSlabs (s : State) (new : List (Nat × Nat)) (par slots : List Nat) : State :=
  let n := slabFrames s.fuses.variant
  let s1 := zeroParity (zeroSlabs (forgetSlabs s (new.map Prod.fst)) (new.map Prod.fst ++ par)) slots
  new.foldl (fun t p => takeFrames (chargeAdd t p.2 .mantle n 0) .mantle n) s1

/-- Frames kept outside the pools of kern and mantle, and the frames of the host tier, as they change from an old active state
to the present one. -/
def resizePools (s : State) (old : SMap W32) : State :=
  let was := withAct s old
  let one (t : Tier) (st : State) : State :=
    let gone := keptFrames s s.cfg.act t + frameCount was t
    let back := keptFrames s old t + frameCount s t
    trimReserve (if back < gone then takeFrames st t (gone - back) else giveFrames st t (back - gone)) t
  one .host (one .mantle (one .kern s))

/-- Eye pages that a window gains read zero (R77). -/
def addedPages (old m : SMap W32) : List (Nat × Nat) :=
  (listed flEyeBase 1024 m []).flatMap (fun i =>
    let b0 := flEyeBase.get old i
    let n0 := flEyeSize.get old i
    let b1 := flEyeBase.get m i
    ((List.range (flEyeSize.get m i)).map (fun j => b1 + j)).filterMap (fun p =>
      if b0 ≤ p && p < b0 + n0 then none else some (i / 256, p)))

def zeroPages (s : State) (ps : List (Nat × Nat)) : State :=
  let hit (k : Nat) : Bool := ps.contains (k / 2 ^ 26, k % 2 ^ 26 / 65536)
  { s with mem := { s.mem with
      eye := s.mem.eye.filter (fun p => !hit p.1), eyeChafed := s.mem.eyeChafed.filter (fun k => !hit k) } }

/-- Lines: one that becomes enabled starts from zero (R265); one that is disabled keeps its indices and has no operation. -/
def changeLines (s : State) (old : SMap W32) : State :=
  let was := enabledLines old
  let is := enabledLines s.cfg.act
  let s1 := (was.filter (fun n => !is.contains n)).foldl (fun t n => noteLine (lineSet t n { lineGet t n with ops := [] }) n) s
  (is.filter (fun n => !was.contains n)).foldl (fun t n => noteLine (lineSet t n { Line.reset with since := tbNow t }) n) s1

/-- An axis is redefined: its configuration or its member list changes. -/
def axisChanged (old m : SMap W32) (a : Nat) : Bool :=
  let mem : Fld := { base := 0x1040000 + 0x8000 * a, stride := 4, lo := 0, width := 32 }
  [0, 4, 8, 12].any (fun i => cwGet old (0x1000500 + 16 * a + i) != cwGet m (0x1000500 + 16 * a + i)) ||
  (listed mem 8192 old m).any (fun i => mem.get old i != mem.get m i)

/-- Members of an axis of a configuration. -/
def axisNames (m : SMap W32) (a d : Nat) : Bool := (List.range (flAxSize.get m a)).any (fun r => axisMember m a r = d)

/-- Entries that a belay clears: every axis that named the device is redefined (R351). -/
def clearPeers (s : State) (old : SMap W32) : State :=
  let again (d : Nat) : Bool :=
    let named := (List.range 8).filter (fun a => flAxSize.get old a != 0 && axisNames old a d)
    !named.isEmpty && named.all (axisChanged old s.cfg.act)
  ((s.net.peers.filter (fun p => (p.2.state = .lost || p.2.state = .unreachable) && again p.1)).map Prod.fst).foldl
    (fun t d => peerSet t d { peerGet t d with state := .unknown }) s

/-- Links that a snapshot disables: SLIP LINK_OFF before the change. -/
def offLinks (s : State) (m : SMap W32) : List Nat := (List.range 24).filter (fun k => linkOn s k && !linkOn (withAct s m) k)

def closeLinks (s : State) (m : SMap W32) : State :=
  (offLinks s m).foldl (fun t k => linkSet (if linkUp t k then slipLink t k slipLinkOff else t) k
    (linkOff (linkGet (if linkUp t k then slipLink t k slipLinkOff else t) k) .down (linkGet t k).cause)) s

/-- The timebase root: a module that becomes root locks at once to its own count; one that ceases to be root has no lock
until it has synced (DEDUCED from R40). -/
def changeRoot (s : State) (old : SMap W32) : State :=
  let was := flTbRoot.get old 0 = 1
  let is := actF s flTbRoot 0 = 1
  if is && !was then { s with tb := { s.tb with locked := s.tb.running, firstLock := s.tb.firstLock || s.tb.running, pendingReq := none, slew := 0 } }
  else if was && !is then syncPath (setLocked s false)
  else s

/-- The LFSR of a strand after a seed: SEED stepped s + 1 times (R411). -/
def seeded (seed : W32) (strand : Nat) : W32 := (List.range (strand + 1)).foldl (fun x _ => lfsrNext x) seed

/-- Counters, tagging and the knot log (R401, R411, R414). -/
def changePmu (s : State) (old : SMap W32) : State :=
  let m := s.cfg.act
  let blk := s.pmu.blk.filter (fun p => cwGet64 old (0x1602000 + 8 * p.1) = cwGet64 m (0x1602000 + 8 * p.1))
  let reset := cwGet64 old 0x1607100 != cwGet64 m 0x1607100
  let s1 := { s with pmu := { s.pmu with blk := blk, knotTail := if reset then 0 else s.pmu.knotTail } }
  if flSmpRate.get m 0 != 0 && (flSmpRate.get m 0 != flSmpRate.get old 0 || flSmpSeed.get m 0 != flSmpSeed.get old 0) then
    (List.range 4).foldl (fun t k => strandSet t k { strandGet t k with lfsr := seeded (BitVec.ofNat 32 (flSmpSeed.get m 0)) k }) s1
  else s1

/-- Every field of a snapshot becomes active at once. -/
def applySnapshot (s : State) (m : SMap W32) : State :=
  let old := s.cfg.act
  let new := boundIn s m
  let par := newParity s m
  let lost := (offLinks s m).any (linkUp s)
  let s1 := unbindSlabs (closeLinks s m) m
  let s2 := resizePools (bindSlabs (withAct s1 m) new par (newSlots s m)) old
  let s3 := zeroPages s2 (addedPages old m)
  let s4 := changePmu (changeRoot (clearPeers (changeLines s3 old) old) old) old
  let s5 := if lost then syncPath (markUnreachable s4 causeSlip) else s4
  noteAll s5

end Sys2Proof.Machine
end

