-- ==== Sys2Proof/Machine/Checks.lean ====
section
/-! DEFINITION. The submission checks of a descriptor: the header (R272), the unit it addresses (R24), and the opcode's own
(R58, R87 to R89, R110, R143, R159, R217, R234, R262, R277, R279, R280, R282, R293, R338, R388, R413), also under the snapshot of a
belay whose fence holds (R391). A status of 0 means that every check passes. -/

set_option Elab.async false

namespace Sys2Proof.Machine

open Sys2Proof

/-! ### Reserved bits (R3) -/

/-- The bits of a list of fields, each given by its byte offset, its lowest bit and its width. -/
def fieldMask (fs : List (Nat × Nat × Nat)) : Nat := fs.foldl (fun m f => m ||| ((2 ^ f.2.2 - 1) <<< (8 * f.1 + f.2.1))) 0

/-- The fields of the common header (R271): OPCODE, CLASS, IRQ, DONE_SIG and DONE_HITCH. -/
def headerFields : List (Nat × Nat × Nat) := [(0, 0, 13), (0, 32, 18)]

/-- The fields of each opcode's descriptor beyond the header (R85, R108, R141, R158, R216, R232, R259, R337, R292, R279, R413,
R282, R388, R280). -/
def bodyFields (opc : Nat) : List (Nat × Nat × Nat) :=
  match opc with
  | 0x01 => [(8, 0, 59), (0x10, 0, 59), (0x18, 0, 49), (0x18, 50, 14), (0x20, 0, 60), (0x28, 0, 60), (0x30, 0, 64), (0x38, 0, 58)]
  | 0x02 => [(8, 0, 53), (0x10, 0, 56), (0x18, 0, 53), (0x20, 0, 64), (0x28, 0, 60), (0x30, 0, 62), (0x38, 0, 51)]
  | 0x03 => [(8, 0, 56), (0x10, 0, 53), (0x18, 0, 58), (0x20, 0, 61), (0x28, 0, 48), (0x30, 0, 61), (0x38, 0, 44)]
  | 0x04 => [(8, 0, 56), (0x10, 0, 53), (0x18, 0, 58), (0x20, 0, 61), (0x28, 0, 48), (0x30, 0, 61), (0x38, 0, 44)]
  | 0x08 => [(8, 0, 48), (0x10, 0, 33), (0x18, 0, 32)]
  | 0x09 => [(8, 0, 61), (0x10, 0, 20), (0x10, 32, 32)]
  | 0x0A => [(8, 0, 58), (0x10, 0, 48), (0x18, 0, 40), (0x20, 0, 24)]
  | 0x0B => [(8, 0, 58), (0x10, 0, 48), (0x18, 0, 40), (0x20, 0, 24)]
  | 0x0C => [(8, 0, 62), (0x10, 0, 48), (0x18, 0, 40), (0x20, 0, 64), (0x28, 0, 27), (0x30, 0, 48)]
  | 0x10 => [(8, 0, 18), (8, 32, 14), (8, 48, 8), (0x10, 0, 48), (0x18, 0, 48), (0x20, 0, 39), (0x28, 0, 48), (0x30, 0, 32)]
  | 0x18 => [(8, 0, 6)]
  | 0x19 => [(8, 0, 18), (0xC, 0, 32), (0x10, 0, 32)]
  | 0x1A => [(8, 0, 18), (0xC, 0, 32)]
  | 0x1B => [(8, 0, 11), (0x10, 0, 48), (0x18, 0, 32)]
  | 0x1C => [(8, 0, 18), (0x10, 0, 32)]
  | 0x1D => [(8, 0, 7), (0x10, 0, 18), (0x14, 0, 32), (0x18, 0, 64), (0x20, 0, 20), (0x20, 32, 20)]
  | 0x1E => [(8, 0, 52)]
  | _ => []

/-- A reserved bit of a descriptor is nonzero. -/
def reservedSet (d : BitVec 512) : Bool :=
  let m := fieldMask (headerFields ++ bodyFields (opcodeOf d))
  d.toNat ||| m != m

/-- Opcodes of the table (R272). -/
def opcodes : List Nat :=
  [opBrdMm, opVecOp, opBgtFwd, opBgtBwd, opMove, opRowSeq, opSplUpd, opSplAcc, opSnapshot, opCapColl, opStopper, opHitchWait,
   opHitchSig, opKnot, opCtrl, opBelay, opLoop]

/-- A header word's reserved bits are nonzero. -/
def headerReserved (d : BitVec 512) : Bool :=
  let m := fieldMask headerFields
  d.toNat % 2 ^ 64 ||| m != m

/-- The header checks of R272: the status, and whether the rejection signals DONE_HITCH (R279). -/
def headerStatus (s : State) (n : Nat) (d : BitVec 512) : Nat × Bool :=
  if !opcodes.contains (opcodeOf d) || headerReserved d || actF s flClassMax n < dClass d then (stDescInvalid, true)
  else if !dDoneSig d && dDoneHitch d != 0 then (stDescInvalid, false)
  else if dDoneSig d && !hitchAllowed s (lineAcct s n) (dDoneHitch d) then (stDescInvalid, false)
  else (stOk, true)

/-! ### Units (R24) -/

/-- An axis uses a link from 12 to 23. -/
def axisHigh (s : State) (a : Nat) : Bool := flAxLinks.get s.cfg.act a / 2 ^ 12 != 0

/-- The bit of CFG_CAP of the unit that a descriptor addresses (R26, R272, R413). -/
def unitOf (s : State) (d : BitVec 512) : Option Nat :=
  match opcodeOf d with
  | 0x03 => some 2
  | 0x04 => some 2
  | 0x09 => some 0
  | 0x0A => some 1
  | 0x0B => some 1
  | 0x10 => if (ccAxisList d).any (axisHigh s) then some 3 else none
  | 0x1B => if dF d 8 5 5 = 1 then some 5 else none
  | _ => none

/-- The check of R24. -/
def unitStatus (s : State) (d : BitVec 512) : Nat :=
  match unitOf s d with
  | some k => if !capBit s k then stCapAbsent else if !unitOn s k then stFuncDisabled else stOk
  | none => stOk

/-! ### Formats and places -/

/-- The first failing row of a list of conditions with their statuses. -/
def firstFail (rows : List (Bool × Nat)) : Nat := ((rows.find? Prod.fst).map Prod.snd).getD stOk

/-- A reserved format code (R44). -/
def fmtReserved (c : Nat) : Bool := (Fmt.ofCode c).isNone

/-- A format code names one of a list of formats. -/
def fmtIn (fs : List Fmt) (c : Nat) : Bool := (Fmt.ofCode c).any (fun f => fs.contains f)

/-- Multiplicands of a product (R55). -/
def multFmts : List Fmt := [.w32, .b16, .h16, .e5m2, .e4m3, .i8]

/-- The permitted widenings (R57). -/
def widenOk (f g : Nat) : Bool :=
  match Fmt.ofCode f, Fmt.ofCode g with
  | some .e4m3, some g => [Fmt.h16, .b16, .w32].contains g
  | some .e5m2, some g => [Fmt.h16, .b16, .w32].contains g
  | some .b16, some .w32 => true
  | some .h16, some .w32 => true
  | _, _ => false

/-- A place's bytes: the place, its length, and the alignment of its address. -/
structure Foot where
  p : Place
  len : Nat
  al : Nat
deriving DecidableEq, Repr

def Foot.misaligned (f : Foot) : Bool := f.al != 0 && f.p.addr % f.al != 0

/-- An eye-space footprint leaves the account's window (R77). -/
def Foot.leavesEye (s : State) (n : Nat) (f : Foot) : Bool :=
  f.p.eye && (actF s flEyeSize (lineStrand s n * 256 + lineAcct s n) * 65536 < f.p.addr + f.len || 2 ^ 26 < f.p.addr + f.len)

/-- A span lies wholly in the kern range. -/
def spanKern (a len : Nat) : Bool := a + len ≤ mantleBase

/-- A span lies wholly in the fitted hashed mantle. -/
def spanMantle (s : State) (a len : Nat) : Bool := mantleBase ≤ a && a + len ≤ mantleEnd s.fuses.variant

/-- A device footprint is neither wholly in kern nor wholly in the fitted hashed mantle. -/
def Foot.offTiers (s : State) (f : Foot) : Bool := !f.p.eye && !spanKern f.p.addr f.len && !spanMantle s f.p.addr f.len

/-- A device footprint that begins in the mantle. -/
def Foot.inMantle (f : Foot) : Bool := !f.p.eye && mantleBase ≤ f.p.addr

/-- Two footprints share a byte. -/
def Foot.meets (f g : Foot) : Bool := f.p.eye == g.p.eye && 0 < f.len && 0 < g.len && runsMeet f.p.addr f.len g.p.addr g.len

/-! ### BRD_MM (R58, R87 to R89) -/

/-- The effective format codes of A and B. -/
def bmEffA (d : BitVec 512) : Nat := if bmAWiden d then bmAWfmt d else bmAFmt d
def bmEffB (d : BitVec 512) : Nat := if bmBWiden d then bmBWfmt d else bmBFmt d

/-- The permitted output formats (R88). -/
def bmOutFmts (d : BitVec 512) : List Fmt :=
  if fmtIn [.i8] (bmEffA d) then (if bmEpi d then [.i32] else if bmCMode d = 1 then [.a40] else [.i32, .a40])
  else if bmEpi d then [.w32] else [.w32, .b16, .h16, .e5m2, .e4m3, .a40]

/-- The four steps of R58 for a BRD_MM. -/
def bmFormats (d : BitVec 512) : Nat :=
  let codes := [bmAFmt d, bmBFmt d, bmDFmt d] ++ (if bmAWiden d then [bmAWfmt d] else []) ++ (if bmBWiden d then [bmBWfmt d] else [])
  let wide := fmtIn [.w32] (bmEffA d) && fmtIn [.w32] (bmEffB d)
  firstFail [
    (codes.any fmtReserved, stDescInvalid),
    (bmPasses d = 0 || (1 < bmPasses d && !wide), stDescInvalid),
    (!fmtIn multFmts (bmAFmt d) || !fmtIn multFmts (bmBFmt d) || !fmtIn (bmOutFmts d) (bmDFmt d), stFmtMismatch),
    (bmAWiden d && (!widenOk (bmAFmt d) (bmAWfmt d) || bmAWfmt d != bmEffB d), stFmtMismatch),
    (bmBWiden d && (!widenOk (bmBFmt d) (bmBWfmt d) || bmBWfmt d != bmEffA d), stFmtMismatch),
    (bmEffA d != bmEffB d, stFmtMismatch)]

/-- Footprints of A, B and D (R87); D has none in an epilogue pair. -/
def bmFeet (d : BitVec 512) : List Foot :=
  let foot (p : Place) (stride last sz : Nat) : Foot := { p := p, len := (footprint p stride (bmBatch d) last sz).2, al := sz }
  [foot (bmA d) (bmAStride d) (bmAIdx d (bmM d - 1) (bmK d - 1)) (fmtBytes (bmAF d)),
   foot (bmB d) (bmBStride d) (bmBIdx d (bmK d - 1) (bmN d - 1)) (fmtBytes (bmBF d))]
def bmFootOut (d : BitVec 512) : List Foot := if bmEpi d then [] else [{ p := bmD d, len := (bmFootD d).2, al := fmtBytes (bmDF d) }]

/-- The next slot of an epilogue pair, and the BRD_MM's own fields (R89): the slot's header holds OPCODE 0x02 and nothing
else. -/
def bmPairOk (d d2 : BitVec 512) : Bool :=
  d2.toNat % 2 ^ 64 = opVecOp && vcEpi d2 && bmCMode d = 0 && dF d 0x18 48 0 = 0 && bmLdd d = 0 && bmDStride d = 0

/-- The submission checks of R87. -/
def bmStatus (s : State) (n : Nat) (d d2 : BitVec 512) : Nat :=
  let fmt := bmFormats d
  let out := bmFootOut d
  let feet := bmFeet d ++ out
  firstFail [
    (reservedSet d || 2 ≤ bmCMode d || 5 ≤ bmSweep d || (!bmAWiden d && bmAWfmt d != 0) || (!bmBWiden d && bmBWfmt d != 0), stDescInvalid),
    (fmt != stOk, fmt),
    (bmM d = 0 || bmN d = 0 || bmK d = 0 || bmBatch d = 0, stDescInvalid),
    (bmLda d < (if bmATrans d then bmM d else bmK d) || bmLdb d < (if bmBTrans d then bmK d else bmN d) ||
      (!bmEpi d && bmLdd d < bmN d), stDescInvalid),
    (!bmEpi d && 1 < bmBatch d && 64 * bmDStride d < (bmLdd d * (bmM d - 1) + bmN d) * fmtBytes (bmDF d), stDescInvalid),
    (bmEpi d && !bmPairOk d d2, stDescInvalid),
    (feet.any Foot.misaligned, stDescInvalid),
    (feet.any (Foot.leavesEye s n), stDescInvalid),
    (feet.any (Foot.offTiers s) || out.any Foot.inMantle, stDescInvalid),
    ((bmFeet d).any Foot.inMantle && bmDeadline d = 0, stDescInvalid),
    (stageBytes < stageMax d, stDescInvalid)]

/-! ### VEC_OP (R103, R110) -/

/-- Formats of vector operands (R103). -/
def vecFmts : List Fmt := [.w32, .b16, .h16, .e5m2, .e4m3, .k8, .k8u, .i8, .i32, .u1]

/-- The rows, columns and batches that a VEC_OP covers: its own, or those of the BRD_MM of its pair (R109). -/
structure VecShape where
  rows : Nat
  cols : Nat
  batch : Nat
  /-- The hand-off format code; none in standalone form. -/
  hand : Option Nat

/-- A footprint of an operand: `ext` elements, `batch` times 64 × stride bytes apart. -/
def vecFoot (p : Place) (fmt ext stride batch : Nat) : Foot :=
  let f := (Fmt.ofCode fmt).getD .w32
  let span := match f with
    | .u1 => (ext + 7) / 8
    | _ => ext * fmtBytes f
  { p := p, len := 64 * stride * (batch - 1) + span, al := fmtBytes f }

def vecIsK8 (c : Nat) : Bool := fmtIn [.k8, .k8u] c

/-- X of a standalone VEC_OP. -/
def vcFootX (d : BitVec 512) (x : VecShape) : List Foot :=
  if x.hand.isSome then [] else [vecFoot (vcX d) (vcXFmt d) ((x.rows - 1) * vcLdx d + x.cols) 0 1]

/-- Y when one is read. -/
def vcFootY (d : BitVec 512) (x : VecShape) : List Foot :=
  if !vcYUse d || vcYConst d then []
  else
    let ext := match vcYb d with
      | 0 => (x.rows - 1) * vcLdy d + x.cols
      | 1 => x.rows
      | 2 => x.cols
      | _ => 1
    [vecFoot (vcY d) (vcYFmt d) ext (if x.hand.isSome then vcYStride d else 0) x.batch]

def vcFootZ (d : BitVec 512) (x : VecShape) : Foot :=
  vecFoot (vcZ d) (vcZFmt d) ((x.rows - 1) * vcLdz d + x.cols) (if x.hand.isSome then vcZStride d else 0) x.batch

/-- K8 and K8U operands among X, Y and Z: their footprint and the leading dimension that indexes them. -/
def vcK8 (d : BitVec 512) (x : VecShape) : List (Foot × Option Nat) :=
  (if vecIsK8 (vcXFmt d) then (vcFootX d x).map (fun f => (f, some (vcLdx d))) else []) ++
  (if vecIsK8 (vcYFmt d) then (vcFootY d x).map (fun f => (f, if vcYb d = 0 then some (vcLdy d) else none)) else []) ++
  (if vecIsK8 (vcZFmt d) then [(vcFootZ d x, some (vcLdz d))] else [])

/-- The auxiliary plane: row-reduction output, or the scale bytes of the K8 operand. -/
def vcFootAux (d : BitVec 512) (x : VecShape) : List Foot :=
  match vcAuxUse d with
  | 1 => [{ p := vcAux d, len := 4 * x.rows, al := 4 }]
  | 2 => (vcK8 d x).map (fun q => { p := vcAux d, len := ceilDiv q.1.len 32, al := 1 })
  | _ => []

def vcFootProg (d : BitVec 512) : Foot := { p := vcProg d, len := 128, al := 128 }

/-- Z lies on X exactly. -/
def vcInPlace (d : BitVec 512) : Bool := vcZ d = vcX d && vcZFmt d = vcXFmt d && vcLdz d = vcLdx d

/-- Row 9: an output meets an input other than an X that Z replaces in place. -/
def vcOverlap (d : BitVec 512) (x : VecShape) : Bool :=
  let auxOut := vcAuxUse d = 1 || vecIsK8 (vcZFmt d)
  let ins := vcFootY d x ++ [vcFootProg d] ++ (if auxOut then [] else vcFootAux d x)
  let z := vcFootZ d x
  ins.any (Foot.meets z) || (!vcInPlace d && (vcFootX d x).any (Foot.meets z)) ||
  (auxOut && (vcFootAux d x).any (fun a => (ins ++ vcFootX d x).any (Foot.meets a)))

/-- The account's census ring is disabled (VEC_CENSUS_CFG). -/
def censusOff (s : State) (n : Nat) : Bool := actF s flCensusLog2 (lineAcct s n) = 0

/-- The submission checks of R110. -/
def vcStatus (s : State) (n : Nat) (d : BitVec 512) (x : VecShape) : Nat :=
  let epi := x.hand.isSome
  let codes := [vcXFmt d, vcYFmt d, vcZFmt d]
  let k8 := vcK8 d x
  let data := vcFootX d x ++ vcFootY d x ++ [vcFootZ d x] ++ vcFootAux d x
  let feet := data ++ [vcFootProg d]
  firstFail [
    (reservedSet d || 4 ≤ vcRed d || vcAuxUse d = 3, stDescInvalid),
    (codes.any fmtReserved, stDescInvalid),
    (codes.any (fun c => !fmtIn vecFmts c), stFmtMismatch),
    (if epi then dF d 0x20 39 26 != 0 || dF d 8 48 26 != 0 || vcLdx d != 0 || vcRed d != 0 || vcCommit d || x.hand != some (vcXFmt d)
      else vcRows d = 0 || vcCols d = 0 || vcEpi d, stDescInvalid),
    ((!epi && vcLdx d < x.cols) || (vcYUse d && vcYb d = 0 && vcLdy d < x.cols) || vcLdz d < x.cols, stDescInvalid),
    (1 < k8.length || (k8.isEmpty == (vcAuxUse d == 2)) || (!k8.isEmpty && x.cols % 32 != 0) ||
      k8.any (fun q => q.2.any (fun l => l % 32 != 0)), stDescInvalid),
    ((vcRed d != 0) != (vcAuxUse d == 1), stDescInvalid),
    (feet.any Foot.misaligned, stDescInvalid),
    (feet.any (Foot.leavesEye s n) || feet.any (Foot.offTiers s) || (vcFootProg d).inMantle, stDescInvalid),
    (vcOverlap d x, stDescInvalid),
    (vcCensus d && censusOff s n, stDescInvalid),
    (vcCommit d && (!vcYUse d || vcYb d != 3 || (vcY d).eye || vcYFmt d != 0 || (vcY d).addr % 4 != 0 ||
      !spanKern (vcY d).addr 4), stDescInvalid)]

/-- The BRD_MM's checks, and with EPI = 1 those of the VEC_OP of the pair (R89). -/
def brdStatus (s : State) (n : Nat) (d d2 : BitVec 512) : Nat :=
  let st := bmStatus s n d d2
  if st != stOk || !bmEpi d then st
  else vcStatus s n d2 { rows := bmM d, cols := bmN d, batch := bmBatch d, hand := some (bmDFmt d) }

def vecStatus (s : State) (n : Nat) (d : BitVec 512) : Nat :=
  vcStatus s n d { rows := vcRows d, cols := vcCols d, batch := 1, hand := none }

/-! ### Bight (R126, R143) -/

def bgFormats (d : BitVec 512) : Nat :=
  let bwd := opcodeOf d = opBgtBwd
  let codes := [bgQFmt d, bgOFmt d, bgKvFmt d] ++ (if bgKvWiden d then [bgKvWfmt d] else []) ++
    (if bwd then [bgDoFmt d, bgDqFmt d, bgDkvFmt d] else [])
  let grads : List Fmt := [.w32, .b16, .h16, .a40]
  firstFail [
    (codes.any fmtReserved, stDescInvalid),
    (!fmtIn [.b16, .h16, .e4m3] (bgQFmt d) || !fmtIn [.b16, .e4m3] (bgKvFmt d) ||
      !fmtIn [.w32, .b16, .h16, .e5m2, .e4m3] (bgOFmt d) ||
      (bwd && (bgDoFmt d != bgQFmt d || !fmtIn grads (bgDqFmt d) || !fmtIn grads (bgDkvFmt d))), stFmtMismatch),
    (bgKvWiden d && (!widenOk (bgKvFmt d) (bgKvWfmt d) || bgKvWfmt d != bgQFmt d), stFmtMismatch),
    (!bgKvWiden d && bgKvFmt d != bgQFmt d, stFmtMismatch)]

def bgStatus (s : State) (n : Nat) (d : BitVec 512) : Nat :=
  let fmt := bgFormats d
  let fwd := opcodeOf d = opBgtFwd
  let feet : List Foot := [
    { p := bgQ d, len := fmtBytes (fmtOr (bgQFmt d)), al := fmtBytes (fmtOr (bgQFmt d)) },
    { p := bgO d, len := fmtBytes (fmtOr (bgOFmt d)), al := fmtBytes (fmtOr (bgOFmt d)) },
    { p := bgStat d, len := 16, al := 16 }]
  firstFail [
    (reservedSet d || (!bgKvWiden d && bgKvWfmt d != 0) || (fwd && (bgDoFmt d != 0 || bgDqFmt d != 0 || bgDkvFmt d != 0)) ||
      bgNseq d = 0 || 4096 < bgNseq d || bgArrays d = 0 || 16 < bgArrays d, stDescInvalid),
    (fmt != stOk, fmt),
    (feet.any Foot.misaligned || bgParam d % 128 != 0 || bgLt d % 32 != 0 || bgPt d % 8 != 0, stDescInvalid),
    (feet.any (Foot.leavesEye s n) || feet.any (fun f => !f.p.eye && !spanKern f.p.addr f.len) || !spanKern (bgParam d) 128 ||
      !spanKern (bgLt d) (32 * bgNseq d) || !spanKern (bgPt d) 8, stDescInvalid)]

/-! ### MOVE, ROW_SEQ, SPL, SNAPSHOT (R159, R217, R234, R262) -/

/-- A host region is registered. -/
def hostRegioned (s : State) : Bool := (List.range 64).any (fun r => actF s flRgnBlocks r != 0)

def mvStatus (s : State) (d : BitVec 512) : Nat :=
  let op := mvOp d
  let dest := dF d 0x10 29 28
  let a := dF d 8 47 0
  let len := mvCount d * blockBytes
  let sets := mvDerived d || mvShared d || mvPinned d
  if reservedSet d || 4 ≤ op || dest = 3 || (2 ≤ op && dest != 0) || ((op = 0 || op = 2) && sets) || (op != 0 && mvDeadline d != 0) ||
      a % blockBytes != 0 || mvCount d = 0 || 2 ^ 24 < mvCount d || (!spanKern a len && !spanMantle s a len) ||
      (dest = 2 && !hostRegioned s) || (op = 1 && mvDerived d && dest != 0) then stDescInvalid
  else stOk

def rsStatus (s : State) (d : BitVec 512) : Nat :=
  if reservedSet d || rsProgLen d = 0 || 4096 < rsProgLen d || rsCount d = 0 || nchan s.fuses.variant < rsFirst d + rsCount d ||
      rsMask d = 0 || rsProgAddr d % 8 != 0 || !spanKern (rsProgAddr d) (8 * rsProgLen d) then stDescInvalid
  else stOk

def spStatus (s : State) (n : Nat) (d : BitVec 512) : Nat :=
  if reservedSet d || spN d = 0 || spParam d % 128 != 0 || spProg d % 128 != 0 || !spanKern (spParam d) 256 ||
      !spanKern (spProg d) 128 || (spCensus d && censusOff s n) then stDescInvalid
  else stOk

/-- An axis names a link that the part does not have (R25). -/
def axisAbsent (s : State) (a : Nat) : Bool := axisHigh s a && !capBit s 3

def snStatus (s : State) (d : BitVec 512) : Nat :=
  let kind := dF d 8 61 60
  let t8 := fmtIn [.t8] (snSrcFmt d)
  let host := kind = 0
  firstFail [
    (reservedSet d || 2 ≤ kind || snCount d = 0 || 16383 < snDev d || (host && (snDev d != 0 || snAxis d != 0)) ||
      (fmtIn [.w32] (snSrcFmt d) && snTail d != 0), stDescInvalid),
    (fmtReserved (snSrcFmt d) || fmtReserved (snOutFmt d), stDescInvalid),
    (!fmtIn [.w32, .t8] (snSrcFmt d) || !fmtIn [.w32, .b16, .e4m3] (snOutFmt d), stFmtMismatch),
    (snPos d % 256 != 0 || (t8 && snTail d % 32 != 0) || snDest d % 64 != 0 || (host && snDest d < hostBase) ||
      (snRec d != 0 && (snRec d % 64 != 0 || !spanKern (snRec d) 64)) || (!host && axisAbsent s (snAxis d)), stDescInvalid)]

/-! ### CAP_COLL (R338) -/

def ccFeet (s : State) (d : BitVec 512) : List Foot :=
  let sz := fmtBytes (ccFmt d)
  [({ p := ccInPlace d, len := ccInCount s d * ccInSize d, al := ccInSize d } : Foot),
   { p := ccOutPlace d, len := ccOutCount s d * sz, al := sz },
   { p := { eye := false, addr := ccAux d }, len := if ccOp d = cxVerdict then 64 else if ccNorm d != 0 then 8 else 0,
     al := if ccOp d = cxVerdict then 64 else 8 }].filter (fun f => f.len != 0)

def ccStatus (s : State) (n : Nat) (d : BitVec 512) : Nat :=
  let op := ccOp d
  let rooted := ccPair d || op = cxGather || op = cxBroadcast
  let empty := op = cxBarrier || op = cxVerdict
  let axes := ccAxis d :: (List.range 8).filter (fun a => (ccAxes d).testBit a)
  let feet := ccFeet s d
  firstFail [
    (reservedSet d || 0xA ≤ op || ccRedop d = 3 || ccNorm d = 3 || (ccCount d = 0) != empty || (!rooted && ccPeer d != 0) ||
      (!ccPair d && ccTag d != 0) || (op != cxVerdict && ccNorm d = 0 && ccAux d != 0), stDescInvalid),
    (fmtReserved (ccFmtCode d), stDescInvalid),
    (fmtIn [.k8, .k8u, .t8, .a40, .u1] (ccFmtCode d) || (ccReduces d && !fmtIn [.w32, .b16, .h16, .i32] (ccFmtCode d)) ||
      (ccWire d && fmtIn [.i32] (ccFmtCode d)), stFmtMismatch),
    (axes.any (fun a => axisSize s a = 0) || (ccAxes d = 0) == (op == cxVerdict) || axisSize s (ccAxis d) ≤ ccPeer d ||
      (ccPair d && ccPeer d = axisRank s (ccAxis d)), stDescInvalid),
    (ccNorm d != 0 && (!ccReduces d || ccRedop d != 0), stDescInvalid),
    (feet.any Foot.misaligned || feet.any (Foot.leavesEye s n) || feet.any (Foot.offTiers s) ||
      (op = cxVerdict && !spanKern (ccAux d) 64), stDescInvalid)]

/-! ### The line engines' own opcodes -/

def stopStatus (s : State) (d : BitVec 512) : Nat :=
  let sc := stopScope d
  if reservedSet d || 5 ≤ sc || (sc != 4 && stopAxis d != 0) ||
      (sc = 4 && (axisSize s (stopAxis d) = 0 || axisAbsent s (stopAxis d))) then stDescInvalid
  else stOk

def hwStatus (s : State) (n : Nat) (d : BitVec 512) : Nat :=
  if reservedSet d || !hitchAllowed s (lineAcct s n) (hwHitch d) || (opcodeOf d = opHitchSig && hwValue d = 0) then stDescInvalid
  else stOk

/-- Fields of a KNOT (R413). -/
def knPhase (d : BitVec 512) : Nat := dF d 8 3 0
def knAdd (d : BitVec 512) : Nat := dF d 8 4 4
def knNip (d : BitVec 512) : Bool := dF d 8 5 5 = 1
def knAlign (d : BitVec 512) : Nat := dF d 8 10 6
def knRec (d : BitVec 512) : Nat := dF d 0x10 47 0
def knTag (d : BitVec 512) : Nat := dF d 0x18 31 0

def knStatus (d : BitVec 512) : Nat :=
  if reservedSet d || knPhase d = 15 || (1 ≤ knAlign d && knAlign d ≤ 9) || 30 < knAlign d ||
      (knRec d != 0 && (knRec d % 64 != 0 || !spanKern (knRec d) 64)) then stDescInvalid
  else stOk

def ctrlStatus (s : State) (n : Nat) (d : BitVec 512) : Nat :=
  let t := ctrlLine d
  if reservedSet d || ctrlAction d = 3 || t = n || lineAcct s t != lineAcct s n || !lineOn s t || unassigned s t (ctrlSeq d) then stDescInvalid
  else stOk

/-- Fields of a BELAY (R388). -/
def byMode (d : BitVec 512) : Nat := dF d 8 1 0
def byCheck (d : BitVec 512) : Bool := dF d 8 2 2 = 1
def byRetry (d : BitVec 512) : Nat := dF d 8 6 3
def byHitch (d : BitVec 512) : Nat := dF d 0x10 17 0
def byValue (d : BitVec 512) : Nat := dF d 0x14 31 0
def byList (d : BitVec 512) : Nat := dF d 0x18 47 0
def byLen (d : BitVec 512) : Nat := dF d 0x18 63 48
def byQuiesce (d : BitVec 512) : Nat := dF d 0x20 19 0
def byDrain (d : BitVec 512) : Nat := dF d 0x20 51 32

/-- The account may belay (CFG_BELAY_PERM). -/
def belayAllowed (s : State) (acct : Nat) : Bool := (actF s flBelayPerm (acct / 32)).testBit (acct % 32)

def byStatus (s : State) (n : Nat) (d : BitVec 512) : Nat :=
  let bar := byMode d = 1
  if reservedSet d || byMode d = 3 || !belayAllowed s (lineAcct s n) ||
      (byLen d != 0 && (byList d % 16 != 0 || !spanKern (byList d) (16 * byLen d))) ||
      (bar && !hitchAllowed s (lineAcct s n) (byHitch d)) ||
      (!bar && (byRetry d != 0 || byHitch d != 0 || byValue d != 0)) then stDescInvalid
  else stOk

def loopStatus (s : State) (n : Nat) (d : BitVec 512) : Nat :=
  if reservedSet d || loopDist d = 0 || ringSize s n ≤ loopDist d then stDescInvalid else stOk

/-! ### Submission -/

/-- The opcode's own checks; `d2` is the next slot's descriptor of an epilogue pair. -/
def opcodeStatus (s : State) (n : Nat) (d d2 : BitVec 512) : Nat :=
  match opcodeOf d with
  | 0x01 => brdStatus s n d d2
  | 0x02 => vecStatus s n d
  | 0x03 => bgStatus s n d
  | 0x04 => bgStatus s n d
  | 0x08 => mvStatus s d
  | 0x09 => rsStatus s d
  | 0x0A => spStatus s n d
  | 0x0B => spStatus s n d
  | 0x0C => snStatus s d
  | 0x10 => ccStatus s n d
  | 0x18 => stopStatus s d
  | 0x19 => hwStatus s n d
  | 0x1A => hwStatus s n d
  | 0x1B => knStatus d
  | 0x1C => ctrlStatus s n d
  | 0x1D => byStatus s n d
  | 0x1E => loopStatus s n d
  | _ => stDescInvalid

/-- The submission checks of R272, R24 and the opcode in order: the status, and whether a rejection signals. -/
def submitStatus (s : State) (n : Nat) (d d2 : BitVec 512) : Nat × Bool :=
  let h := headerStatus s n d
  if h.1 != stOk then h
  else
    let vs := views s
    match (vs.map (fun v => unitStatus v d) ++ vs.map (fun v => opcodeStatus v n d d2)).find? (fun c => c != stOk) with
    | some c => (c, true)
    | none => (stOk, true)

end Sys2Proof.Machine
end

