-- ==== Sys2Proof/Machine/Take.lean ====
section
/-! DEFINITION. The take of a descriptor and its submission (R266 to R272). -/

set_option Elab.async false

namespace Sys2Proof.Machine

open Sys2Proof

/-- The device address of a slot of a line's descriptor ring. -/
def ringSlot (s : State) (n i : Nat) : Nat := actF s flRingBase n * 4096 + 64 * (i % ringSize s n)

/-- A slot of the ring as the line engine reads it, and whether it reads chafed. -/
def readSlot (s : State) (n i : Nat) : BitVec 512 × Bool :=
  let r := devRead s none (ringSlot s n i) 64
  (BitVec.ofNat 512 (natOfBytes r.1), r.2)

/-- What the engine takes at FETCH: the descriptor, the VEC_OP of an epilogue pair, the slots taken and whether one of them
reads chafed. A chafed first slot is not trusted to begin a pair. -/
structure TakeView where
  d : BitVec 512
  d2 : BitVec 512
  slots : Nat
  chafed : Bool

def takeView (s : State) (n : Nat) : TakeView :=
  let l := lineGet s n
  let a := readSlot s n l.fetch
  if !a.2 && opcodeOf a.1 = opBrdMm && bmEpi a.1 then
    let b := readSlot s n (l.fetch + 1)
    { d := a.1, d2 := b.1, slots := 2, chafed := b.2 }
  else { d := a.1, d2 := 0, slots := 1, chafed := a.2 }

/-- The doorbell covers every slot of the take (R89). -/
def takeCovered (s : State) (n : Nat) (v : TakeView) : Bool :=
  let l := lineGet s n
  v.slots ≤ (l.tail + ringSize s n - l.fetch) % ringSize s n

/-- The take request of a line (R305, R306). A class above CLASS_MAX, or that of a chafed slot, lends no rank. -/
def takeReq (s : State) (n : Nat) : Option Req :=
  let v := takeView s n
  if canTake s n && takeCovered s n v then
    some { cls := if v.chafed then 0 else min (dClass v.d) (actF s flClassMax n), acct := lineAcct s n, key := n, cost := 1,
           readyAt := (lineGet s n).takeReady.getD (tbNow s), deadline := 0, fits := true }
  else none

/-- The requests at a strand's line engine. -/
def takeReqs (s : State) (strand : Nat) : List Req :=
  s.lines.filterMap (fun p => if lineStrand s p.1 = strand then takeReq s p.1 else none)

/-- A read has its answer for the host granule of an address: a failed read of it is no longer owed (R372). -/
def hostAnswered (s : State) (a : Nat) : State := { s with mem := { s.mem with hostBad := setDel s.mem.hostBad (a / 64) } }

/-- The engine reads the slot at an address: an unbound name counts in BAD_ACCESS (R155), and a host read error reaches its
requester (R372). -/
def slotRead (s : State) (a : Nat) : State :=
  hostAnswered (if badName s none a then badAccess s (nameTier (blockNo a)) else s) a

/-- The engine reads the slots of a take. -/
def readSlots (s : State) (n : Nat) (v : TakeView) : State :=
  (List.range v.slots).foldl (fun t i => slotRead t (ringSlot s n ((lineGet s n).fetch + i))) s

/-- The line after a take: FETCH past the slots, the next sequence number, and no take request that is ready yet (R306). -/
def takeLine (s : State) (n : Nat) (v : TakeView) : Line :=
  let l := lineGet s n
  headFollows { l with fetch := (l.fetch + v.slots) % ringSize s n, nextSeq := (l.nextSeq + 1) % 2 ^ 32, takeReady := none }

/-- The state in which the submission checks run: the slots read, FETCH past them, the sequence number assigned. -/
def takeFetched (s : State) (n : Nat) (v : TakeView) : State :=
  lineSet (pmuAdd (readSlots s n v) (0x058 + lineStrand s n) 1 (attrP (lineAcct s n))) n (takeLine s n v)

/-- The lowest place in flight that no operation of a line holds (log entry 117). -/
def freeEntry (ops : List OpEnt) : Nat := ((List.range 16).find? (fun i => ops.all (fun o => o.entry != i))).getD 0

/-- The take, then the submission checks (R269): a rejected descriptor gets its final record at once. -/
def takeNow (s : State) (n : Nat) (v : TakeView) : State :=
  let o := { opNew (lineGet s n).nextSeq (lineGet s n).fetch v.slots v.d v.d2 with entry := freeEntry (lineGet s n).ops }
  let s2 := takeFetched s n v
  if v.chafed then finalRecord s2 n o.seq stUncorrectable 0 s.belay.epoch v.d [] false false
  else
    let c := submitStatus s2 n v.d v.d2
    if c.1 = stOk then noteLine (lineSet s2 n { lineGet s2 n with ops := (lineGet s2 n).ops ++ [o] }) n
    else
      finalRecord (pmuAdd s2 (0x05C + lineStrand s n) 1 (attrP (lineAcct s n))) n o.seq c.1 0 s.belay.epoch v.d [] c.2 true

/-- What the arbiter of the line's line engine picks now, and the arbiter after it (R305). -/
def takePick (s : State) (n : Nat) : Option Req × Arb :=
  pickNow s 16 false (takeReqs s (lineStrand s n)) (mapGet Arb.reset s.lineArb (lineStrand s n))

/-- The state after the arbiter's grant of a request. -/
def takeGranted (s : State) (n : Nat) (q : Req) : State :=
  noteGrant { s with lineArb := mapSet Arb.reset s.lineArb (lineStrand s n) (takePick s n).2 } q

/-- The line engine of the line's strand takes at FETCH, when its arbiter picks the line (R269, R305); credit that the accounts
were given stays when it picks none (R309). -/
def execLineTake (line : LineNo) (s : State) : Out :=
  let n := line.toNat
  if (takeReq s n).isNone then .next s
  else
    match (takePick s n).1 with
    | some q => if q.key = n then .next (takeNow (takeGranted s n q) n (takeView s n)) else .next s
    | none => .next { s with lineArb := mapSet Arb.reset s.lineArb (lineStrand s n) (takePick s n).2 }

end Sys2Proof.Machine
end

