-- ==== Sys2Proof/Machine/Belay.lean ====
section
/-! DEFINITION. The belay engine: requests, the check, the fence, drain, quiesce and the belay point (R386 to R397). -/

set_option Elab.async false

namespace Sys2Proof.Machine

open Sys2Proof

/-! ### Requests -/

/-- The request of a BELAY descriptor (R388): its budgets default to those of CFG_BELAY_CFG. -/
def descReq (s : State) (n : Nat) (o : OpEnt) (mode : BelayMode) : BelayReq where
  line := some (n, o.seq)
  mode := mode
  checkOnly := byCheck o.desc
  revert := false
  retries := byRetry o.desc
  hitch := byHitch o.desc
  value := BitVec.ofNat 32 (byValue o.desc)
  listAddr := byList o.desc
  listLen := byLen o.desc
  quiesceUs := if byQuiesce o.desc = 0 then actF s flQuiesceUs 0 else byQuiesce o.desc
  drainUs := if byDrain o.desc = 0 then actF s flDrainUs 0 else byDrain o.desc
  barriers := 0

/-- The request of a host command: no list, no retries, the budgets of CFG_BELAY_CFG (CFG_BELAY_CMD). -/
def hostReq (s : State) (mode : BelayMode) (check revert : Bool) (hitch : Nat) (value : W32) : BelayReq where
  line := none
  mode := mode
  checkOnly := check
  revert := revert
  retries := 0
  hitch := hitch
  value := value
  listAddr := 0
  listLen := 0
  quiesceUs := actF s flQuiesceUs 0
  drainUs := actF s flDrainUs 0
  barriers := 0

/-- A request joins those that are ready, or waits for its barrier (R387). -/
def enqueue (s : State) (r : BelayReq) : State :=
  if r.mode = .atBarrier then { s with belay := { s.belay with waiting := s.belay.waiting ++ [r] } }
  else { s with belay := { s.belay with ready := s.belay.ready ++ [r] } }

/-- A host command's outcome in CFG_BELAY_STAT, with BELAY_DONE (R387, R424). -/
def hostOutcome (s : State) (st blocker off : Nat) : State :=
  let busy := (s.belay.ready ++ s.belay.waiting).any (fun r => r.line.isNone)
  raiseCause { s with belay := { s.belay with
    hostBusy := busy, status := BitVec.ofNat 8 st, blocker := BitVec.ofNat 4 blocker, failOffset := BitVec.ofNat 32 off } } irqBelay

/-- A host command is queued, or ignored with REFUSED while one runs and another waits (R387). In safe mode it completes
IMAGE_INVALID at once (R385). -/
def hostCommand (s : State) (r : BelayReq) : State :=
  if s.belay.hostBusy && s.belay.hostQueued then { s with belay := { s.belay with refused := true } }
  else if s.boot.phase = 8 then hostOutcome s stImageInvalid 0 0
  else enqueue { s with belay := { s.belay with hostQueued := s.belay.hostBusy, hostBusy := true } } r

/-- MODE of R388. -/
def modeCode : BelayMode → Nat
  | .immediate => 0
  | .atBarrier => 1
  | .force => 2

def modeOf : Nat → BelayMode
  | 1 => .atBarrier
  | 2 => .force
  | _ => .immediate

/-- The dispatch of a BELAY descriptor that `mine` accepts. -/
def belayDesc (s : State) (n : Nat) (mine : BitVec 512 → Bool) : Out :=
  match undispatched s n with
  | some o =>
    if mine o.desc then
      onDispatch s n opBelay (fun o =>
        let o1 := opDispatch s o
        noteLine (enqueue (opSet s n o1) (descReq s n o (modeOf (byMode o.desc)))) n)
    else .next s
  | none => .next s

/-- A belay command of the host, which the port takes in its turn (R299, R387). -/
def hostBelay (c : Instr) (req : State → BelayReq) (s : State) : Out :=
  hostLane c (fun t => if hostReach t then .next (hostCommand t (req t)) else .next t) s

/-- A belay request of a mode, from a descriptor or from the host. -/
def belayMode (mode : BelayMode) (c : BelaySrc → Instr) (src : BelaySrc) (s : State) : Out :=
  match src with
  | .desc line => belayDesc s line.toNat (fun d => byMode d = modeCode mode && !byCheck d)
  | .host hitch value => hostBelay (c src) (fun t => hostReq t mode false false hitch.toNat value) s

/-- An IMMEDIATE belay is requested (R387, R394). -/
def execBelayImmediate (src : BelaySrc) (s : State) : Out := belayMode .immediate .belayImmediate src s
/-- An AT_BARRIER belay is requested. -/
def execBelayAtBarrier (src : BelaySrc) (s : State) : Out := belayMode .atBarrier .belayAtBarrier src s
/-- A FORCE belay is requested. -/
def execBelayForce (src : BelaySrc) (s : State) : Out := belayMode .force .belayForce src s

/-- A host CHECK, or a BELAY descriptor with CHECK_ONLY, is requested (R387, R389). -/
def execBelayCheck (src : BelaySrc) (s : State) : Out :=
  match src with
  | .desc line => belayDesc s line.toNat byCheck
  | .host _ _ => hostBelay (.belayCheck src) (fun t => hostReq t .immediate true false 0 0) s

/-- A host REVERT is requested (R387). -/
def execRevert (s : State) : Out := hostBelay .revert (fun t => hostReq t .immediate false true 0 0) s

/-! ### What a snapshot changes (R390, R393) -/

/-- Words in which two configurations differ. -/
def changedWords (a m : SMap W32) : List Nat :=
  ((a ++ m).map Prod.fst).dedup.filter (fun k => cwGet a k != cwGet m k)

/-- Units governed by a changed word (R393), by their codes of R397. -/
def unitsOfWord (a m : SMap W32) (off : Nat) : List Nat :=
  if off = 0x14 then
    let diff (k : Nat) : Bool := (flUnitEn.get a 0).testBit k != (flUnitEn.get m 0).testBit k
    [(0, unRow), (1, unSplicer), (2, unBight), (3, unLinks), (4, unHost), (5, unPmu)].filterMap (fun p => if diff p.1 then some p.2 else none)
  else if off < 0x400000 then []
  else if off < 0x600000 then [unBraid]
  else if off < 0x700000 then [unVector]
  else if off < 0x800000 then [unBight]
  else if off < 0xA00000 then [unMover]
  else if off < 0xC00000 then [unChannels]
  else if off < 0x1000000 then [unRow, unSplicer]
  else if off < 0x1400000 then [unLinks]
  else if off < 0x1600000 then [unHost]
  else if off < 0x1800000 then [unPmu]
  else []

/-- The affected units, lowest code first: the line engines always. -/
def affectedUnits (a m : SMap W32) : List Nat :=
  let us := (changedWords a m).flatMap (unitsOfWord a m)
  (List.range 12).filter (fun u => u = unLines || us.contains u)

/-- A 64-bit CW word pair differs. -/
def differs64 (a m : SMap W32) (off : Nat) : Bool := cwGet64 a off != cwGet64 m off

/-- The operation names eye space (R390). -/
def namesEye (o : OpEnt) : Bool :=
  let d := o.desc
  let vec (d : BitVec 512) : Bool := (vcX d).eye || (vcY d).eye || (vcZ d).eye || (vcProg d).eye || (vcAux d).eye
  match opcodeOf d with
  | 0x01 => (bmA d).eye || (bmB d).eye || (bmD d).eye || (bmEpi d && vec o.desc2)
  | 0x02 => vec d
  | 0x03 => (bgQ d).eye || (bgO d).eye || (bgStat d).eye
  | 0x04 => (bgQ d).eye || (bgO d).eye || (bgStat d).eye
  | 0x10 => ccInEye d || ccOutEye d
  | _ => false

/-- Some byte of a device span lies in the mantle: by its name, or by the home of a block that moved there. -/
def inMantleNow (s : State) (a len : Nat) : Bool :=
  0 < len && (mantleBase ≤ a ||
    s.tiers.ht.any (fun p => p.2.tier = .mantle && p.2.state != .unbound && p.1 * blockBytes < a + len && a < (p.1 + 1) * blockBytes))

/-- Feet that a VEC_OP reads. -/
def vecReads (d : BitVec 512) (x : VecShape) : List Foot :=
  vcFootX d x ++ vcFootY d x ++ (if vcAuxUse d = 2 && !vecIsK8 (vcZFmt d) then vcFootAux d x else [])

/-- An operation of the vector engine or the bight that reads the mantle (R390, FID). -/
def readsMantle (s : State) (o : OpEnt) : Bool :=
  let d := o.desc
  let any (fs : List Foot) : Bool := fs.any (fun f => !f.p.eye && inMantleNow s f.p.addr f.len)
  match opcodeOf d with
  | 0x01 => bmEpi d && any (vecReads o.desc2 { rows := bmM d, cols := bmN d, batch := bmBatch d, hand := some (bmDFmt d) })
  | 0x02 => any (vecReads d { rows := vcRows d, cols := vcCols d, batch := 1, hand := none })
  | 0x03 => (List.range (o.ptab.length / 9)).any (fun i => inMantleNow s (pageAddrOf o i) (pageBytes (opShape o)))
  | 0x04 => (List.range (o.ptab.length / 9)).any (fun i => inMantleNow s (pageAddrOf o i) (pageBytes (opShape o)))
  | _ => false

/-- A CENSUS bit of the operation is set. -/
def wantsCensus (o : OpEnt) : Bool :=
  match opcodeOf o.desc with
  | 0x01 => bmEpi o.desc && vcCensus o.desc2
  | 0x02 => vcCensus o.desc
  | 0x0A => spCensus o.desc
  | 0x0B => spCensus o.desc
  | _ => false

/-- A program of row ops names RAW slot k. -/
def namesSlot (o : OpEnt) (k : Nat) : Bool :=
  (List.range (o.prog.length / 8)).any (fun i =>
    let w := rowWord o.prog i
    [rwSa w, rwSb w, rwSc w, rwDst w].any (fun x => x < 0x800 && x / 128 = k))

/-- Axes that a collective or a SYSTEM stopper runs on. -/
def axesOf (d : BitVec 512) : List Nat :=
  if opcodeOf d = opCapColl then ccAxisList d
  else if opcodeOf d = opStopper && stopScope d = 4 then [stopAxis d] else []

/-- A VALID bit falls. -/
def falls (f : Fld) (a m : SMap W32) (k : Nat) : Bool := f.get a k = 1 && f.get m k = 0

/-- The operation depends on a structural change from the active state to a snapshot (R390). -/
def dependent (s : State) (m : SMap W32) (n : Nat) (o : OpEnt) : Bool :=
  let a := s.cfg.act
  let d := o.desc
  let off (k : Nat) : Bool := (flUnitEn.get a 0).testBit k && !(flUnitEn.get m 0).testBit k
  let acct := lineAcct s n
  let win := lineStrand s n * 256 + acct
  (unitOf s d).any off || (off 3 && (axesOf d).any (axisHigh s)) || (off 6 && readsMantle s o) ||
  falls flLineEn a m n ||
  ((flEyeBase.get a win != flEyeBase.get m win || flEyeSize.get a win != flEyeSize.get m win) && namesEye o) ||
  (differs64 a m (flCensusBase.off acct) && wantsCensus o) ||
  ((opcodeOf d = opSplUpd || opcodeOf d = opSplAcc) && falls flArenaValid a m (spArena d)) ||
  (opcodeOf d = opSnapshot && falls flArenaValid a m (snArena d)) ||
  (opcodeOf d = opRowSeq && (List.range 16).any (fun k => falls flRawValid a m k && namesSlot o k)) ||
  (axesOf d).any (fun x => axisSize s x != 0 && axisChanged a m x)

/-- The dependents in flight, the belay itself left out. -/
def dependentsNow (s : State) (r : BelayRun) : List (Nat × OpEnt) :=
  s.lines.flatMap (fun p => (p.2.ops.filter (fun o =>
    r.req.line != some (p.1, o.seq) && dependent s r.snapshot p.1 o)).map (fun o => (p.1, o)))

/-! ### The engine -/

/-- The request has not been cancelled: a host's, or that of an operation still running (R396). -/
def reqLive (s : State) (r : BelayReq) : Bool :=
  match r.line with
  | none => true
  | some p => (opFind s p.1 p.2).any (fun o => o.track = .running)

/-- The running belay at a stage, not cancelled. -/
def runAt (s : State) (st : BelayStage) : Option BelayRun := s.belay.run.filter (fun r => r.stage = st && reqLive s r.req)

/-- The belay that runs, or none, with what the change means for the lines and the module's status. -/
def setRun (s : State) (r : Option BelayRun) : State :=
  noteAll (noteStatus s { s with belay := { s.belay with run := r } })

/-- A request ends: the engine is free, and the record or CFG_BELAY_STAT reports the outcome (R387, R397). -/
def belayFinish (s : State) (r : BelayReq) (st blocker off cancelled quiesceNs : Nat) (after : BitVec 16) : State :=
  let s1 := setRun s none
  match r.line with
  | none => hostOutcome s1 st blocker off
  | some p =>
    match opFind s1 p.1 p.2 with
    | some o => finishOp s1 p.1 o st (belayBytes after blocker r.barriers off cancelled quiesceNs)
    | none => s1

/-- The snapshot is taken and checked, and the fence begins (R387, R389, R391). -/
def belayStart (s : State) (r : BelayReq) (cancelled : Nat) : State :=
  let m := s.cfg.coil
  let s1 := { s with cfg := { s.cfg with writes := 0 } }
  match coilCheck s1 m with
  | some off => belayFinish s1 r stCoilInconsistent 0 off cancelled 0 s.belay.epoch
  | none =>
    if r.checkOnly then belayFinish s1 r stOk 0 0 cancelled 0 s.belay.epoch
    else setRun s1 (some { req := r, snapshot := m, stage := .drain, fenceAt := tbNow s, drainEndAt := tbNow s,
                           units := affectedUnits s.cfg.act m, cancelled := cancelled })

/-- The descriptor's register list is read and written into the coil: the state, or the status that ends the belay
(R388). -/
def writeList (s : State) (r : BelayReq) : State × Nat :=
  match r.line with
  | none => (s, stOk)
  | some p =>
    if r.listLen = 0 then (s, stOk)
    else
      let acct := lineAcct s p.1
      let bytes := devRead s (some acct) r.listAddr (16 * r.listLen)
      let s1 := noteAccess s acct (spanBlocks r.listAddr (16 * r.listLen))
      if bytes.2 then (s1, stUncorrectable)
      else match regList none bytes.1 with
        | none => (s1, stDescInvalid)
        | some es => ({ s1 with cfg := { s1.cfg with coil := es.foldl applyEntry s1.cfg.coil } }, stOk)

/-- The register list that a request reads. -/
def listSpans (r : BelayReq) : List (Nat × Nat) := if r.line.isSome && r.listLen != 0 then [(r.listAddr, 16 * r.listLen)] else []

/-- A request takes the engine: a REVERT acts, and every other writes its list and starts (R387). -/
def belayTake (s : State) (r : BelayReq) : State :=
  if r.revert then belayFinish { s with cfg := { s.cfg with coil := s.cfg.act, writes := 0 } } r stOk 0 0 0 0 s.belay.epoch
  else
    let w := writeList s r
    if w.2 != stOk then belayFinish w.1 r w.2 0 0 0 0 s.belay.epoch else belayStart w.1 r 0

/-- The first ready request takes the free engine (R387), once its list can be read (R179). -/
def execBelayEngineTake (s : State) : Out :=
  match s.belay.ready.find? (reqLive s) with
  | none => .next s
  | some r =>
    if s.belay.run.isSome || s.boot.phase != 7 || s.port.flrAt.isSome then .next s
    else if readsHeld s (listSpans r) then .next (noteWaits s (listSpans r) false)
    else
      let ready := s.belay.ready.erase r
      let queued := if r.line.isNone then (ready ++ s.belay.waiting).any (fun x => x.line.isNone) else s.belay.hostQueued
      .next (belayTake { s with belay := { s.belay with ready := ready, hostQueued := queued } } r)

/-- The next barrier of a request is met (R387, R388): barrier k is at BAR_VALUE + k. -/
def barrierMet (s : State) (r : BelayReq) : Bool := hitchMet s r.hitch (r.value + BitVec.ofNat 32 r.barriers)

/-- Waiting AT_BARRIER requests whose barrier is met become ready; one that holds the engine for a further barrier starts
again under a new snapshot (R387, R394). -/
def execBelayBarrierReady (s : State) : Out :=
  let go := s.belay.waiting.filter (fun r => barrierMet s r && reqLive s r)
  let s1 := { s with belay := { s.belay with
    waiting := s.belay.waiting.filter (fun r => !(barrierMet s r && reqLive s r)),
    ready := s.belay.ready ++ go.map (fun r => { r with barriers := r.barriers + 1 }) } }
  match runAt s1 .barrier with
  | some r =>
    if barrierMet s1 r.req then .next (belayStart s1 { r.req with barriers := r.req.barriers + 1 } r.cancelled) else .next s1
  | none => .next s1

/-! ### Drain (R392) -/

/-- Every dependent has its final status, and the affected units begin to quiesce. -/
def execBelayDrainEnd (s : State) : Out :=
  match runAt s .drain with
  | some r =>
    if (dependentsNow s r).isEmpty then .next (setRun s (some { r with stage := .quiesce, drainEndAt := tbNow s })) else .next s
  | none => .next s

/-- Operations cancelled with CANCELLED_DISABLE, suspended ones ended at once, and how many the cancel reached. -/
def cancelAll (s : State) (ops : List (Nat × OpEnt)) : State × Nat :=
  ops.foldl (fun acc p =>
    match opFind acc.1 p.1 p.2.seq with
    | none => acc
    | some o =>
      if neverCancelled (opcodeOf o.desc) || o.track = .cancelPending then acc
      else
        let s1 := cancelOp acc.1 p.1 o stCancelledDisable
        let s2 := if o.track = .suspended then (match opFind s1 p.1 o.seq with
          | some o1 => endSuspended s1 p.1 o1
          | none => s1) else s1
        (s2, acc.2 + 1)) (s, 0)

/-- The drain budget ends: every dependent still in flight is cancelled (R392). -/
def execBelayDrainBudgetExpiry (s : State) : Out :=
  match runAt s .drain with
  | some r =>
    if r.fenceAt + r.req.drainUs * 1000 ≤ tbNow s then
      let c := cancelAll s (dependentsNow s r)
      .next { c.1 with belay := { c.1.belay with run := some { r with cancelled := r.cancelled + c.2 } } }
    else .next s
  | none => .next s

/-! ### Quiesce and the belay point (R393, R394) -/

/-- Operations that hold an unfinished service unit on a unit: sweeps on arrays, bight tiles, block moves, atoms. Moves of
the device's own have none. -/
def holders (s : State) (u : Nat) : List (Nat × Nat) :=
  if u = unBraid then s.strands.flatMap (fun p => (p.2.tiles.filter (fun t => !t.bight)).map (fun t => (t.line, t.seq)))
  else if u = unBight then s.strands.flatMap (fun p => (p.2.tiles.filter (fun t => t.bight)).map (fun t => (t.line, t.seq)))
  else if u = unMover then (s.tiers.moves.filter Move.started).filterMap (fun m =>
    match m.origin with
    | .op n q => some (n, q)
    | .prefetch n q _ => some (n, q)
    | .demand n q => some (n, q)
    | .landing n q => some (n, q)
    | _ => none)
  else if u = unRow then s.eng.banks.filterMap (fun p => p.2.atom.map (fun a => (a.1, a.2.1)))
  else []

/-- The unit has passed its quiesce handshake: it holds no unfinished service unit. -/
def unitPassed (s : State) (u : Nat) : Bool :=
  if u = unMover then !s.tiers.moves.any Move.started else (holders s u).isEmpty

/-- Affected units that have not passed. -/
def blockers (s : State) (r : BelayRun) : List Nat := r.units.filter (fun u => !unitPassed s u)

/-- The snapshot becomes active and the epoch rises (R393, R395). -/
def applyPoint (s : State) (r : BelayRun) : State :=
  let s1 := setRun s none
  pmuAdd (applySnapshot { s1 with belay := { s1.belay with epoch := s1.belay.epoch + 1 } } r.snapshot) 0x17A 1 attr0

/-- The belay point. A belay that disables its own line writes its record first (R397). -/
def execBelayPoint (s : State) : Out :=
  match runAt s .quiesce with
  | some r =>
    if (blockers s r).isEmpty then
      let own := r.req.line.any (fun p => flLineEn.get r.snapshot p.1 = 0)
      let after := s.belay.epoch + 1
      let done (t : State) : State := belayFinish t r.req stOk 0 0 r.cancelled (tbNow s - r.drainEndAt) after
      .next (if own then applyPoint (done s) r else done (applyPoint s r))
    else .next s
  | none => .next s

/-- The quiesce budget ends before the belay point (R394). -/
def execQuiesceBudgetExpiry (s : State) : Out :=
  match runAt s .quiesce with
  | some r =>
    let bs := blockers s r
    if tbNow s < r.drainEndAt + r.req.quiesceUs * 1000 || bs.isEmpty then .next s
    else
      match r.req.mode, r.req.retries with
      | .force, _ =>
        let ids := bs.flatMap (holders s)
        let ops := ids.dedup.filterMap (fun p => (opFind s p.1 p.2).map (fun o => (p.1, o)))
        let c := cancelAll s ops
        .next { c.1 with belay := { c.1.belay with run := some { r with cancelled := r.cancelled + c.2 } } }
      | .atBarrier, k + 1 => .next (setRun s (some { r with stage := .barrier, req := { r.req with retries := k } }))
      | _, _ => .next (belayFinish s r.req stNotAtomicNow (bs.headD 0) 0 r.cancelled (tbNow s - r.drainEndAt) s.belay.epoch)
  | none => .next s

end Sys2Proof.Machine
end

