-- ==== Sys2Proof/Machine/Boot.lean ====
section
/-! DEFINITION. Boot: slot selection, the boot belay, the boot phases, the boot log, safe mode, firmware update (R23, R37, R329,
R368, R374, R380 to R385). -/

set_option Elab.async false

namespace Sys2Proof.Machine

open Sys2Proof

/-! ### The boot log (R384) -/

def logBase : Nat := 0x4000000
def logRecords : Nat := 524288

/-- A flash range erased: its bytes read 0xFF. -/
def eraseFlash (s : State) (lo n : Nat) : State :=
  { s with flash := s.flash.filter (fun p => p.1 < lo || lo + n ≤ p.1) }

-- Log codes.
def logBootDone : Nat := 0x0001
def logBelayFail : Nat := 0x0061
def logSlotBad : Nat := 0x0062
def logForced : Nat := 0x0100
def logPersonality : Nat := 0x0101
def logRetrained : Nat := 0x0102
def logTraining : Nat := 0x0200
def logSafe : Nat := 0x0300

/-- A log record, the next 64 KiB sector erased before it is written into. -/
def logWrite (s : State) (code slot d0 d1 : Nat) : State :=
  let i := s.boot.logNext
  let s1 := if i % 2048 = 0 then eraseFlash s (logBase + 32 * i) 65536 else s
  let bs := bytesOf 4 s.boot.count.toNat ++ bytesOf 2 code ++ bytesOf 1 slot ++ bytesOf 1 0 ++ bytesOf 8 s.tb.now.toNat ++
    bytesOf 8 d0 ++ bytesOf 8 d1
  { s1 with
    flash := (bs.zipIdx).foldl (fun m p => mapSet 0xFF m (logBase + 32 * i + p.2) p.1) s1.flash
    boot := { s1.boot with logNext := (i + 1) % logRecords } }

/-- SLOT of a log record: 0xFF for none. -/
def logSlot (s : State) : Nat := if s.boot.slot < 2 then s.boot.slot else 0xFF

/-- BOOT_STATUS. -/
def bootStatus (s : State) : Nat :=
  let b := s.boot
  let bit (x : Bool) (k : Nat) : Nat := if x then 2 ^ k else 0
  b.phase + bit (b.slot = 1) 4 + bit b.safe 5 + bit b.fallback 6 + bit b.forcedEn 7 + bit b.trainRetry 8

/-! ### Pools and the active state at boot -/

/-- Every tier's frames free, split into reserve and general pool (R165). -/
def freshPools (s : State) : State :=
  [Tier.kern, Tier.mantle, Tier.host].foldl (fun t k =>
    poolSet t k { TierSt.reset with general := frameCount t k - reserveSize t k, reserve := reserveSize t k }) s

/-- A configuration becomes the active state and the coil of a module in which no unit is active; the epoch is 0 (R381). Eye
buffers and hitches read zero (R78, R277). -/
def applyBoot (s : State) (m : SMap W32) : State :=
  let s0 := { s with
    cfg := Config.reset
    tiers := Tiers.reset
    lines := []
    hitches := []
    mem := { s.mem with eye := [], eyeChafed := [] } }
  let s1 := applySnapshot (freshPools s0) m
  { s1 with cfg := { s1.cfg with coil := m, writes := 0 }, belay := Belay.reset }

/-! ### Safe mode (R385) -/

/-- The fixed ROM configuration: image defaults, LIMIT_W 1,200. -/
def safeAct : SMap W32 := cwSet [] 0x1800000 (BitVec.ofNat 32 (750 * 2 ^ 16 + 1200))

-- Reasons in the log.
def safeNoSlot : Nat := 1
def safeForced : Nat := 2
def safeTraining : Nat := 3

/-- Safe mode entered: FORCE_SAFE cleared, device ID and PERSONALITY 0, the ROM configuration active. -/
def enterSafe (s : State) (reason : Nat) : State :=
  if s.boot.safe then s
  else
    let s1 := logWrite s logSafe 0xFF reason 0
    let b := { s1.boot with safe := true, forceSafe := false, devId := 0, idFromPins := false, personality := 0, style := 0 }
    applyBoot { s1 with boot := b, net := { Net.reset with links := wiresOf s1 } } safeAct

/-! ### Slots (R380, R381, R383) -/

/-- A slot examined: its CAUSE of checks 1 to 9 and its header fields; a slot without a header reads zero (DEDUCED). -/
def examine (s : State) (k modId : Nat) : State :=
  let c := imageCause s k modId
  let info : SlotInfo :=
    if c = 1 then { SlotInfo.reset with cause := 1 }
    else
      { generation := BitVec.ofNat 32 (imgGeneration s k), cause := BitVec.ofNat 8 c, svn := BitVec.ofNat 16 (imgSvn s k),
        keySlot := BitVec.ofNat 2 ((keySlotOf s k).getD 0) }
  let s1 := { s with boot := { s.boot with slots := s.boot.slots.set k info } }
  if c = 0 then s1 else logWrite s1 logSlotBad k c info.generation.toNat

def slotInfo (s : State) (k : Nat) : SlotInfo := s.boot.slots.getD k SlotInfo.reset

/-- The slots that pass checks 1 and 2, newest first; A first on equal generations. -/
def slotOrder (s : State) : List Nat :=
  let both := if (slotInfo s 0).generation.toNat < (slotInfo s 1).generation.toNat then [1, 0] else [0, 1]
  both.filter (fun k => (slotInfo s k).cause != 1 && (slotInfo s k).cause != 2)

/-- PERSONALITY of a slot's HOST_PORT section once its CRC passes, loaded as 1 for 2 on a part without CXL.mem (R368, R383). -/
def slotPersonality (s : State) (k : Nat) : Option Nat :=
  (imgSection s k secHostPort).bind (fun x =>
    let bs := secBytes s k x
    if (crc32c bs).toNat = x.crc then (leadOf 2 bs).map (fun v => if v = 2 && !capBit s 4 then 1 else v) else none)

/-- Bits of CFG_UNIT_EN that R23 forces to 0. -/
def forcedBits (s : State) (m : SMap W32) : List Nat := (List.range 7).filter (fun b => (flUnitEn.get m 0).testBit b && !capBit s b)

/-- The boot belay of a slot that passed checks 1 to 9: forced enable bits and PERSONALITY logged, then the whole-state check
(R23, R368, R381). The flag says that it was applied. -/
def bootBelay (s : State) (k modId : Nat) : State × Bool :=
  match imageConf s k modId with
  | none => (s, false)
  | some c =>
    let forced := forcedBits s c.act
    let m := cwSet c.act 0x14 (forced.foldl (fun w b => w &&& ~~~(BitVec.ofNat 32 (2 ^ b))) (cwGet c.act 0x14))
    let lower := c.personality = 2 && !capBit s 4
    let s1 := forced.foldl (fun t b => logWrite t logForced k b 1) s
    let s2 := if lower then logWrite s1 logPersonality k 0 0 else s1
    let b := { s2.boot with
      slot := k
      devId := BitVec.ofNat 14 c.devId
      idFromPins := c.fromPins
      style := c.style
      personality := if lower then 1 else c.personality
      forcedEn := !forced.isEmpty }
    match coilCheck { s2 with boot := b } m with
    | some off =>
      let info := slotInfo s2 k
      (logWrite { s2 with boot := { s2.boot with slots := s2.boot.slots.set k { info with cause := 10 } } } logBelayFail k off
        info.generation.toNat, false)
    | none => (applyBoot { s2 with boot := b } m, true)

/-- The first slot of an order that boots; none leads to safe mode. -/
def tryBoot (modId first : Nat) : List Nat → State → State
  | [], s => enterSafe s safeNoSlot
  | k :: ks, s =>
    if (slotInfo s k).cause != 0 then tryBoot modId first ks s
    else
      let r := bootBelay s k modId
      if r.2 then
        let s1 := { r.1 with boot := { r.1.boot with fallback := k != first } }
        match slotPersonality s1 first with
        | some p => if k != first && p != s1.boot.personality then logWrite s1 logRetrained k p s1.boot.personality else s1
        | none => s1
      else tryBoot modId first ks r.1

/-! ### The phases (R382) -/

/-- PERST_N has risen: the timebase reads zero when it is the first rise since power-up, and REFCLK is good again (R37, R434). -/
def risen (s : State) (modId : BitVec 5) : State :=
  { s with
    pins := { s.pins with perstN := true, modId := modId, refclkOk := true }
    power := { s.power with perstLowAt := none, perstActed := false }
    tb := if s.tb.running then { s.tb with holdover := false } else { Timebase.reset with running := true }
    boot := { s.boot with modId := modId, count := s.boot.count + 1 } }

/-- Phases 1 to 3: both slots read and checked, one applied, or safe mode entered. -/
def bootSlots (s : State) (modId : Nat) : State :=
  if s.boot.forceSafe then
    let skipped := { SlotInfo.reset with cause := 0xFF }
    enterSafe { s with boot := { s.boot with slots := [skipped, skipped] } } safeForced
  else
    let s1 := examine (examine s 0 modId) 1 modId
    tryBoot modId ((slotOrder s1).headD 0) (slotOrder s1) s1

/-- The module has a configuration: the KERN phase begins. -/
def kernPhase (s : State) : State := { s with boot := { s.boot with phase := 4 } }

/-- Phases 1 to 3, up to KERN. -/
def bootPhases (s : State) (modId : BitVec 5) : State := kernPhase (bootSlots s modId.toNat)

/-- PERST_N rises. A low pulse that did not last changes nothing (R435); otherwise the module boots up to KERN. -/
def execBootStart (modId : BitVec 5) (s : State) : Out :=
  if s.pins.perstN || !s.power.rails then .next s
  else if !s.power.perstActed then
    .next { s with pins := { s.pins with perstN := true }, power := { s.power with perstLowAt := none } }
  else .next (bootPhases (risen s modId) modId)

/-- KIND × 256 + STACK of a stack, and whether it is fitted in a tier. -/
def stackCode : Stack → Nat
  | .kern k => k.val
  | .mantle m => 256 + m.val

def stackIn (v : Variant) (t : Tier) : Stack → Bool
  | .kern _ => t = .kern
  | .mantle m => t = .mantle && m.val < mantleCount v

/-- The LINKS phase begins after MANTLE; in safe mode the boot ends instead. -/
def afterMantle (s : State) : State :=
  if s.boot.safe then { s with boot := { s.boot with phase := 8 } }
  else { s with boot := { s.boot with phase := 6, linksAt := s.clk } }

/-- Training of a tier's stacks ends: the stacks that failed once were retrained in full; one that failed twice leaves its tier
unreachable and enters safe mode (R382, R385). -/
def execStackTrainingDone (tier : Tier) (failedOnce failedTwice : List Stack) (s : State) : Out :=
  let phase := match tier with
    | .kern => 4
    | .mantle => 5
    | .host => 0
  if s.boot.phase != phase || !lanesLive s then .next s
  else
    let twice := failedTwice.filter (stackIn s.fuses.variant tier)
    let once := (failedOnce.filter (stackIn s.fuses.variant tier)).filter (fun x => !twice.contains x)
    let s1 := once.foldl (fun t x => logWrite t logTraining (logSlot t) (stackCode x) 1) s
    let s2 := twice.foldl (fun t x =>
      logWrite (logWrite t logTraining (logSlot t) (stackCode x) 1) logTraining (logSlot t) (stackCode x) 2) s1
    let b := { s2.boot with
      trainRetry := s2.boot.trainRetry || !(once ++ twice).isEmpty
      kernLost := s2.boot.kernLost || (tier = .kern && !twice.isEmpty)
      mantleLost := s2.boot.mantleLost || (tier = .mantle && !twice.isEmpty) }
    let s3 := { s2 with boot := b }
    let s4 := if twice.isEmpty then s3 else enterSafe s3 safeTraining
    .next (if tier = .kern then { s4 with boot := { s4.boot with phase := 5 } } else afterMantle s4)

/-- Every enabled link is UP or MISWIRE. -/
def linksSettled (s : State) : Bool :=
  (List.range 24).all (fun k => !linkOn s k || (linkGet s k).state = .up || (linkGet s k).state = .miswire)

/-- The LINKS phase ends when every enabled link is UP or MISWIRE, or 600 ms after it began: the module is READY and lines begin
taking (R382). -/
def execLinksPhaseEnd (s : State) : Out :=
  if s.boot.phase != 6 || !lanesLive s || !(linksSettled s || s.boot.linksAt + 600000000 ≤ s.clk) then .next s
  else
    let s1 := { s with boot := { s.boot with phase := 7 } }
    .next (noteAll (logWrite s1 logBootDone (logSlot s1) (slotInfo s1 s1.boot.slot).generation.toNat (bootStatus s1)))

/-! ### Firmware update (R374) -/

/-- The slot that a firmware update writes: the one not booted; with none booted, either (a free value). -/
def updateSlot (s : State) : Nat :=
  if s.boot.slot = 0 then 1 else if s.boot.slot = 1 then 0 else (Config.freeWord s.free).toNat % 2

/-- A PLDM firmware update writes an image into the slot not booted, which is erased first. -/
def execPldmFirmwareUpdate (image : List Byte) (s : State) : Out :=
  if !s.power.standby || 0x2000000 < image.length then .next s
  else
    let b := slotBase (updateSlot s)
    let new := ((image.zipIdx).filter (fun p => p.1 != 0xFF)).map (fun p => (b + p.2, p.1))
    .next { drawn s with flash := s.flash.filter (fun p => p.1 < b) ++ new ++ s.flash.filter (fun p => b + 0x2000000 ≤ p.1) }

end Sys2Proof.Machine
end

