-- ==== Sys2Proof/Machine/Timebase.lean ====
section
/-! DEFINITION. The timebase's sync exchange with the parent and its copy on I/O die 1 (R37 to R40, R356 to R358). -/

set_option Elab.async false

namespace Sys2Proof.Machine

open Sys2Proof

/-- A timestamp at the lane boundary of a link, in 1/16 ns: the count in whole ns and `part` sixteenths of the running one. I/O
die 1 stamps the frames of links 12 to 23 from its copy (R38, R356). -/
def laneTime (s : State) (k : Nat) (part : BitVec 4) : W64 :=
  (s.tb.now + (if k < 12 then 0 else BitVec.ofInt 64 s.tb.copyDelta)) * 16 + part.setWidth 64

/-- The sixteenth of a nanosecond in which a frame of the module's own departs: open. -/
def departPart (s : State) : BitVec 4 := (Config.freeWord s.free).setWidth 4

/-- An exchange period ends (R356, R358): a module that is not root sends a SYNC_REQ to its parent, on the first UP link of
the port; with no sync path left it runs in holdover. -/
def execSyncPeriod (s : State) : Out :=
  if actF s flTbRoot 0 = 1 || !s.tb.running then .next s
  else
    let s1 := syncPath s
    match (syncPort s1).bind (fun p => (portLinks s1 p).find? (linkUp s1)) with
    | none => .next s1
    | some k =>
      let t1 := laneTime s1 k (departPart s1)
      .next (sendOn { drawn s1 with tb := { s1.tb with pendingReq := some (k, t1) } } k (mkLocal s1 ftSyncReq 0 t1 0))

/-- A SYNC_REQ is answered: ADDR holds its arrival t2, AUX holds t3 − t2, TAG bit 0 TB_LOCKED (R324). Both times are the
timebase's at the link, the operands their sixteenths; the response does not depart before the request arrives. -/
def execSyncReq (link : LinkNo) (f : Frame) (t2 t3 : BitVec 4) (s : State) : Out :=
  localRx link f ftSyncReq (fun t =>
    sendOn t link.val (mkLocal t ftSyncRsp (if t.tb.locked then 1 else 0) (laneTime t link.val t2)
      (if t2 ≤ t3 then (t3 - t2).setWidth 32 else 0))) s

/-- The offset of R356 in 1/32 ns: (t2 − t1) − (t4 − t3), with t3 = t2 + AUX. -/
def syncOffset32 (t1 t2 aux t4 : W64) : Int := (t2 - t1).toInt - (t4 - (t2 + aux)).toInt

/-- The offset in whole ns: which of the two neighbouring whole numbers a fraction becomes is open (log entry 22). -/
def wholeNs (s : State) (x : Int) : Int :=
  let q := x.fdiv 32
  if x.fmod 32 = 0 then q else q + (if (Config.freeWord s.free).getLsbD 0 then 1 else 0)

/-- A measured offset applied (R39, R356, R357): the first valid exchange before the first lock steps the count, every
later one is slewed; 8 exchanges in a row within 4 ns of a locked parent set TB_LOCKED. R357 does not say which exchange is
valid: every answered one is, whatever the parent's TB_LOCKED (DESIGN CHOICE, log entry 109). -/
def applyOffset (s0 : State) (x : Int) (parentLocked : Bool) : State :=
  let ns := wholeNs s0 x
  let s := drawn s0
  let good := if x.natAbs ≤ 128 && parentLocked then min 8 (s.tb.goodExchanges + 1) else 0
  let tb1 := { s.tb with offset := ns, goodExchanges := good, pendingReq := none }
  let tb2 := if s.tb.stepped || s.tb.firstLock then { tb1 with slew := ns }
    else { tb1 with now := s.tb.now + BitVec.ofInt 64 ns, step := BitVec.ofInt 64 ns, stepped := true }
  if 8 ≤ good then { s with tb := { tb2 with locked := true, firstLock := true } } else { s with tb := tb2 }

/-- A SYNC_RSP to the pending request of its link; its arrival t4 is the timebase's at the link, the operand its sixteenth. -/
def execSyncRsp (link : LinkNo) (f : Frame) (t4 : BitVec 4) (s : State) : Out :=
  localRx link f ftSyncRsp (fun t =>
    match t.tb.pendingReq with
    | some (k, t1) =>
      if k = link.val && actF t flTbRoot 0 = 0 then
        applyOffset t (syncOffset32 t1 f.addr (f.aux.setWidth 64) (laneTime t k t4)) (f.tag.getLsbD 0)
      else t
    | none => t) s

/-- The die 1 copy differs from the primary by more than 2 ns: TB_COPY_ERR is set and the copy reloaded (R38, R424). With LNKB
absent or disabled the timebase runs from die 0 alone, and there is no copy (R26). -/
def execTbCopyReload (s : State) : Out :=
  if s.tb.running && unitOn s 3 && 2 < s.tb.copyDelta.natAbs then .next (raiseCause { s with tb := { s.tb with copyErr := true, copyDelta := 0 } } irqTimebase)
  else .next s

end Sys2Proof.Machine
end

