-- ==== Sys2Proof/Machine/Governor.lean ====
section
/-! DEFINITION. The power governor, SLOW, and the stacks' temperatures (R30 to R36, R200, R202, R203, R206, R207). -/

set_option Elab.async false

namespace Sys2Proof.Machine

open Sys2Proof

/-! ### Wave rates (R30, R32) -/

/-- The typical wave rate of R30 in 10^6 waves per second, by core voltage (600 to 900 mV in steps of 50) and junction
temperature (40, 70, 100 °C). -/
def waveTable : List (List Nat) :=
  [[860, 900, 930], [1080, 1100, 1110], [1320, 1300, 1270], [1540, 1500, 1440], [1700, 1650, 1580], [1840, 1780, 1700],
   [1960, 1900, 1810]]

/-- 92% of a table value, in units of 10^4 waves per second. -/
def floorAt (v t : Nat) : Nat := 92 * ((waveTable.getD v []).getD t 0)

/-- The interpolation weights of a temperature between the table's columns: column and numerator over 30. -/
def tempPlace (tj : Nat) : Nat × Nat := if tj < 70 then (0, tj - 40) else (1, tj - 70)

/-- The floor of R30 at a voltage and a junction temperature, in 10^6 waves per second, rounded up. Below 40 °C and above
100 °C the spec states no floor, and none holds (log entry 26). -/
def waveFloor (mv tj : Nat) : Nat :=
  let v := min 900 (max 600 mv) - 600
  let row := min 5 (v / 50)
  let a := v - 50 * row
  let c := tempPlace tj
  let col (r : Nat) : Nat := floorAt r c.1 * (30 - c.2) + floorAt r (c.1 + 1) * c.2
  if tj < 40 || 100 < tj then 0 else ceilDiv (col row * (50 - a) + col (row + 1) * a) (100 * 30 * 50)

/-- The measured rate of a strand: at or above the floor, and otherwise a property of its silicon at the corner. -/
def measuredRate (strand mv tj : Nat) : Nat := min 4095 (max (waveFloor mv tj) (Config.waveRate strand mv tj % 4096))

/-! ### The governor (R34, R35) -/

/-- The core voltage's limits in the active state. -/
def vmax (s : State) : Nat := actF s flVmaxMv 0

/-- Where the rail stands against SLOW_MV, and since when (R36). -/
def noteRail (s : State) : State :=
  let below := s.gov.vcore < actF s flSlowMv 0
  { s with gov := { s.gov with
    railBelowAt := if below then some (s.gov.railBelowAt.getD s.clk) else none
    railAboveAt := if below then none else some (s.gov.railAboveAt.getD s.clk) } }

/-- The sum of a list. -/
def total (xs : List Nat) : Nat := xs.foldl (· + ·) 0

/-- One 5 mV step, or two, which is open: the regulators slew 10 mV in the microsecond between samples. -/
def railStep (s : State) : Nat := if (Config.freeWord s.free).getLsbD 0 then 10 else 5

/-- A strand's rate over the microsecond that a sample ends, at the corner at which it ran: RATE is the mean of the last 100
(R32). -/
def noteRate (k mv tj : Nat) (x : Strand) : Strand :=
  let waves := (measuredRate k mv tj :: x.waves).take 100
  { x with tj := tj, waves := waves, rate := total waves / waves.length }

/-- A 1 µs sample of input power with the strands' junction temperatures (R32, R34, R35). The running average is that of the
samples held, of which there are fewer than 1,000 in the first millisecond, and a sample counts as 1 µs whenever it comes
(DESIGN CHOICE, log entry 110). The rail is lowered on every sample above LIMIT_W, so that no excursion outlasts 10 µs (DESIGN
CHOICE, log entry 111). -/
def execGovernorSample (watts : BitVec 12) (tj : List (BitVec 7)) (s : State) : Out :=
  if !s.power.rails || s.power.perstActed then .next s
  else
    let w := watts.toNat
    let limit := actF s flLimitW 0
    let samples := (w :: s.gov.samples).take 1000
    let sum := total samples
    let n := samples.length
    let hot := tj.any (fun t => actF s flTjLimit 0 < t.toNat)
    let excess := limit * n < sum || limit < w
    let low := 100 * sum < 97 * limit * n
    let since := if low then some (s.gov.below97At.getD s.clk) else none
    let up := since.any (fun t => t + 50000 ≤ s.clk)
    let v0 := s.gov.vcore
    let v1 := if hot || excess then v0 - railStep s else if up then v0 + railStep s else v0
    let v := max 600 (min (vmax s) v1)
    let strands := (List.range 4).foldl (fun m k =>
      let t := match tj[k]? with
        | some x => x.toNat
        | none => (strandGet s k).tj
      mapMod Strand.reset m k (noteRate k v0 t)) s.strands
    let g := { s.gov with
      vcore := v, samples := samples, inputW := sum / n, below97At := since,
      capping := v < vmax s && (excess || (!hot && !low) || s.gov.capping),
      tjHold := hot }
    let s1 := noteRail { drawn s with gov := g, strands := strands }
    .next (if g.tjHold && !s.gov.tjHold then raiseCause s1 irqPower else s1)

/-! ### SLOW (R36, R206) -/

/-- SLOW is raised in tugs and in PWR_STATUS. -/
def slowOn (s : State) : State :=
  if s.gov.slow then s else noteStatus s { s with gov := { s.gov with slow := true } }

/-- SLOW clears unless a condition holds it: a stack, or a rail that has not stayed at or above SLOW_MV for 1 ms, however short its
dip (DESIGN CHOICE, log entry 113). -/
def slowOff (s : State) : State :=
  if s.gov.slow && !s.gov.stackHold && s.gov.railAboveAt.all (fun t => t + 1000000 ≤ s.clk) && s.gov.railBelowAt.isNone then
    noteStatus s { s with gov := { s.gov with slow := false } }
  else s

/-- The rail has stayed below SLOW_MV for 100 µs. -/
def execSlowRaise (s : State) : Out :=
  if !s.gov.slow && s.gov.railBelowAt.any (fun t => t + 100000 ≤ s.clk) then .next (raiseCause (slowOn s) irqPower) else .next s

/-- The rail has stayed at or above SLOW_MV for 1 ms, and nothing else holds SLOW. -/
def execSlowClear (s : State) : Out := .next (slowOff s)

/-- 1 ms after the last stack left CRITICAL its hold on SLOW ends; SLOW then clears if no other condition holds it. -/
def execSlowHoldEnd (s : State) : Out :=
  if s.gov.stackHold && !(s.stackSt.any (fun p => p.2.thermal = .critical)) &&
      s.gov.criticalLeftAt.any (fun t => t + 1000000 ≤ s.clk) then
    .next (slowOff { s with gov := { s.gov with stackHold := false, criticalLeftAt := none } })
  else .next s

/-! ### Stack temperatures (R200, R202, R203, R206, R207) -/

/-- The level after a report (R203): 0 is 100%, 3 is 25%. -/
def levelAfter (s : State) (x : StackSt) (temp : Nat) : Nat :=
  if actF s flTThrottle 0 ≤ temp then min 3 (x.level + 1)
  else if temp + actF s flTHyst 0 ≤ actF s flTThrottle 0 && 0 < x.level && x.lastChange + 1000000 ≤ s.clk then x.level - 1
  else x.level

/-- The thermal state after a report, from the state before it and the level after it (R203). A stack that leaves CRITICAL with its
level at 100% is NORMAL (DESIGN CHOICE, log entry 112). -/
def thermalAfter (s : State) (x : StackSt) (temp level : Nat) : Thermal :=
  if actF s flTCrit 0 ≤ temp then .critical
  else
    match x.thermal with
    | .critical => if temp + actF s flTHyst 0 ≤ actF s flTCrit 0 then (if level = 0 then .normal else .throttle) else .critical
    | _ => if actF s flTThrottle 0 ≤ temp then .throttle else if level = 0 then .normal else x.thermal

/-- What a report does to its stack and to SLOW: level first, then the state; entering THROTTLE from NORMAL or CRITICAL raises
the THERMAL cause (R203, R206, R424). -/
def thermalReport (s : State) (st temp : Nat) : State :=
  let x := stackGet s st
  let lv := levelAfter s x temp
  let th := thermalAfter s x temp lv
  let x1 := { x with
    level := lv, thermal := th, lastChange := if lv = x.level then x.lastChange else s.clk,
    hot := if 85 < temp then true else if temp ≤ 83 then false else x.hot }
  let s1 := stackSet s st x1
  let entered := th != x.thermal && (th = .critical || (th = .throttle && x.thermal = .normal))
  let s2 := if entered then raiseCause s1 irqThermal else s1
  if th = .critical then slowOn { s2 with gov := { s2.gov with stackHold := true, criticalLeftAt := none } }
  else if x.thermal = .critical && !(s2.stackSt.any (fun p => p.2.thermal = .critical)) then
    { s2 with gov := { s2.gov with criticalLeftAt := some s.clk } }
  else s2

/-- The stack is fitted and reports: its part has it and the main rails are up. -/
def stackReports (s : State) (st : Nat) : Bool := s.power.rails && st < 4 + mantleCount s.fuses.variant

/-- A stack's 100 µs report. At or above 115 °C it trips the module. -/
def execStackTempReport (stack : Stack) (temp : BitVec 8) (s : State) : Out :=
  let st := stackNo stack
  if !stackReports s st then .next s
  else
    let s1 := stackSet s st { stackGet s st with temp := temp.toNat, lastReport := s.clk }
    let s2 := thermalReport s1 st temp.toNat
    .next (if 115 ≤ temp.toNat then trip s2 (.stack stack) else s2)

/-- A report has been missing for 300 µs: the stack is treated as reporting T_CRIT, and SENSOR_ERR is set; no trip follows
(R202). -/
def execSensorTimeout (stack : Stack) (s : State) : Out :=
  let st := stackNo stack
  if !stackReports s st || s.clk < (stackGet s st).lastReport + 300000 then .next s
  else
    let was := (stackGet s st).sensorErr
    let s1 := stackSet s st { stackGet s st with sensorErr := true }
    .next (thermalReport (if was then s1 else raiseCause s1 irqThermal) st (actF s flTCrit 0))

end Sys2Proof.Machine
end

