-- ==== Sys2Proof/Machine/PeerFrames.lean ====
section
/-! DEFINITION. Frames between devices that no collective carries: repair requests and responses, peer exports, and the
flush of a SYSTEM stopper (R178 to R180, R353 to R355). -/

set_option Elab.async false

namespace Sys2Proof.Machine

open Sys2Proof

/-! ### Repair -/

/-- The refusal that a repair request meets: 1 unbound, 2 chafed (a MOVING copy too, R180), 3 GEN differs, 4 MAINT (R178, R324). -/
def repairRefusal (s : State) (name : Nat) (gen : Nat) : Option Nat :=
  let e := htGet s name
  if e.state = .unbound then some 1
  else if e.state = .chafed || blockMarked s e then some 2
  else if e.gen.toNat != gen then some 3
  else if actF s flMaint 0 = 1 then some 4 else none

/-- A REPAIR_RSP frame. -/
def repairRsp (s : State) (req : Frame) (off code : Nat) (data : List Byte) : Frame :=
  mkFrame s ftRepairRsp 0 2 req.src.toNat req.tag (BitVec.ofNat 64 (req.addr.toNat % 2 ^ 48 + off)) (BitVec.ofNat 32 code) data

/-- A repair request is served with the block's 256 pieces of 256 B, or refused (R180, R353). -/
def execRepairReq (link : LinkNo) (f : Frame) (s : State) : Out :=
  seqRx link f (fun g => g.typ = ftRepairReq) (fun t =>
    let a := f.addr.toNat % 2 ^ 48 / blockBytes * blockBytes
    match repairRefusal t (blockNo a) (f.aux.toNat % 65536) with
    | some code => (sendFrame t (repairRsp t f 0 code []), true)
    | none =>
      ((List.range 256).foldl (fun u i => sendFrame u (repairRsp u f (256 * i) 0 (devRead u none (a + 256 * i) 256).1)) t, true)) s

/-- The served data go into the chafed granules only, their marks clear, GEN is the served GEN, and the repair ends
(R178). -/
def repairDone (s : State) (r : Repair) : State :=
  let e := htGet s r.name
  let base := frameBase e.tier e.frame
  let g := granSize base
  let byteAt (i : Nat) : Byte := ((r.got.find? (fun p => p.1 ≤ i && i < p.1 + p.2.length)).map (fun p => p.2.getD (i - p.1) 0)).getD 0
  let s1 := (List.range (blockBytes / g)).foldl (fun t i =>
    if granChafed s (base + i * g) then storeAt t (base + i * g) ((List.range g).map (fun j => byteAt (i * g + j))) false else t) s
  let s2 := htSet s1 r.name { htGet s1 r.name with repair := false, gen := r.gen }
  let acct' := mapMod AcctSt.reset s2.tiers.acct e.account (fun x => { x with repaired := satAdd 4095 x.repaired 1 })
  let reps := s2.net.repairs.filter (fun x => x.name != r.name)
  let s3 := { s2 with tiers := { s2.tiers with acct := acct' }, net := { s2.net with repairs := reps } }
  syncChafe (pmuAdd s3 0x110 1 (attrP e.account)) r.name

/-- A repair response: a piece of the data, the last of which ends the repair, or a refusal, which moves the request to
the next rank (R353). -/
def execRepairRsp (link : LinkNo) (f : Frame) (s : State) : Out :=
  seqRx link f (fun g => g.typ = ftRepairRsp) (fun t =>
    match t.net.repairs.find? (fun r => r.reqId = f.tag.toNat) with
    | none => (t, true)
    | some r =>
      if f.aux.toNat % 8 != 0 then
        (repairNext t r.name (actF t flRepairAxis (htGet t r.name).account) r.rank r.beganAt, true)
      else
        let off := f.addr.toNat % 2 ^ 48 - r.name * blockBytes
        let r1 := if r.got.any (fun p => p.1 = off) then r else { r with got := r.got ++ [(off, f.payload)] }
        let t1 := { t with net := { t.net with repairs := t.net.repairs.map (fun x => if x.name = r.name then r1 else x) } }
        (if r1.got.length = 256 then repairDone t1 r1 else t1, true)) s

/-- A repair that has not succeeded REPAIR_WAIT_US after it began fails (R179). -/
def execRepairTimeout (name : DevAddr) (s : State) : Out :=
  let b := blockNo name.toNat
  match s.net.repairs.find? (fun r => r.name = b) with
  | some r =>
    if r.beganAt + actF s flRepairWaitUs (htGet s b).account * 1000 ≤ tbNow s then .next (repairFail s b) else .next s
  | none => .next s

/-! ### Peer exports (R354) -/

/-- A window accepts a PUT: its range holds the frame's, and the sender is a member of its axis. -/
def putAccepted (s : State) (f : Frame) : Bool :=
  let a := f.addr.toNat
  (List.range 4).any (fun w =>
    actF s flRxValid w = 1 && actF s flRxBase w ≤ a && a + f.payload.length ≤ actF s flRxBase w + actF s flRxSize w &&
    (List.range (axisSize s (actF s flRxAxis w))).any (fun r => memberOf s (actF s flRxAxis w) r = f.src.toNat))

/-- PUT_ACK for a PUT: its address, or all ones for a refusal. -/
def putAnswer (s : State) (f : Frame) (a : W64) : State := sendFrame s (mkFrame s ftPutAck 1 2 f.src.toNat f.tag a 0 [])

/-- A piece of a PUT written with its mark; dropped, and counted in BAD_ACCESS, in a DERIVED block (R153). -/
def putPiece (s : State) (a : Nat) (bs : List Byte) (mark : Bool) : State :=
  if a < straightBase && derivedName s (blockNo a) then badAccess s (nameTier (blockNo a)) else (devWrite s none a bs mark).1

/-- The pieces of a PUT written, each with its mark. -/
def putPieces (s : State) (f : Frame) : State :=
  (List.range f.plen.toNat).foldl (fun u j => putPiece u (f.addr.toNat + 32 * j) ((f.payload.drop (32 * j)).take 32) (f.aux.getLsbD j)) s

/-- The writes of a PUT are not visible yet: a block that it touches is MOVING or in a merge, so they are held (R162, R257). -/
def putHeld (s : State) (f : Frame) : Bool :=
  [f.addr.toNat, f.addr.toNat + f.payload.length - 1].any (fun a =>
    a < straightBase && ((htGet s (blockNo a)).state = .moving || s.tiers.merging.contains (blockNo a)))

/-- A frame whose answer waits for writes to become visible. -/
def owe (s : State) (f : Frame) : State := { s with net := { s.net with owed := s.net.owed ++ [f] } }

/-- A PUT in a window is written, with its marks, and acknowledged once it is visible (R344); any other is refused. -/
def execPut (link : LinkNo) (f : Frame) (s : State) : Out :=
  seqRx link f (fun g => g.typ = ftPut) (fun t =>
    if putAccepted t f then (if putHeld t f then owe (putPieces t f) f else putAnswer (putPieces t f) f f.addr, true) else (putAnswer t f 0xFFFFFFFFFFFFFFFF, true)) s

/-- A PUT_ACK: one PUT fewer is outstanding, and the header follows the last data. A refusal completes the export
CANCELLED_PEER, as the table of R8 says; R354 says DESC_INVALID, which R10 would keep from an export whose earlier PUTs are
written (DESIGN CHOICE, log entry 114). -/
def execPutAck (link : LinkNo) (f : Frame) (s : State) : Out :=
  seqRx link f (fun g => g.typ = ftPutAck) (fun t =>
    match t.net.puts.find? (fun p => p.id = f.tag.toNat) with
    | none => (t, true)
    | some p =>
      if f.addr = 0xFFFFFFFFFFFFFFFF then
        (match opFind t p.line p.seq with
        | some o => (snapEnd t p.line o stCancelledPeer, true)
        | none => (t, true))
      else (snFinish (putSet t { p with outstanding := p.outstanding - 1 }) p.line p.seq, true)) s

/-! ### The SYSTEM flush (R355) -/

/-- FLUSH_ACK for a FLUSH. -/
def flushAnswer (s : State) (f : Frame) : State := sendFrame s (mkFrame s ftFlushAck 1 2 f.src.toNat f.tag f.addr f.aux [])

/-- A FLUSH is answered once every PUT that its sender sent before it is visible. -/
def execFlush (link : LinkNo) (f : Frame) (s : State) : Out :=
  seqRx link f (fun g => g.typ = ftFlush) (fun t =>
    (if t.net.owed.any (fun g => g.src == f.src) then owe t f else flushAnswer t f, true)) s

/-- The owed answers that may be sent: a PUT's once its writes are visible, a FLUSH's once none of its sender's PUTs is owed. -/
def answerOwed (s : State) : State :=
  s.net.owed.foldl (fun t f =>
    let rest : State := { t with net := { t.net with owed := t.net.owed.erase f } }
    if f.typ = ftPut then (if putHeld t f then t else putAnswer rest f f.addr)
    else if rest.net.owed.any (fun g => g.typ = ftPut && g.src == f.src) then t else flushAnswer rest f) s

/-- A FLUSH_ACK counts one member's answer. -/
def execFlushAck (link : LinkNo) (f : Frame) (s : State) : Out :=
  seqRx link f (fun g => g.typ = ftFlushAck) (fun t =>
    ({ t with net := { t.net with flushes := t.net.flushes.map (fun x =>
        if x.id = f.tag.toNat then { x with waiting := x.waiting.filter (fun d => d != f.src.toNat) } else x) } }, true)) s

end Sys2Proof.Machine
end

