-- ==== Sys2Proof/Machine/Tick.lean ====
section
/-! DEFINITION. What passes with one nanosecond when no command waits: the timebase counts (R37, R39), the array ledger books
its slots (R408), and the counters of nanoseconds count (R402). -/

set_option Elab.async false

namespace Sys2Proof.Machine

open Sys2Proof

/-- Where a slot of an array is booked (the slot booking table of R408). -/
inductive Slot where
  | held (acct : Nat)
  | unassigned
  | pending (t : TileOp)
  | waitDrain (t : TileOp)
  | waitPage (t : TileOp)
  | waitOperand (t : TileOp)

/-- The booking of array a of a strand. A tile-op that has passed its last wave holds the array for the bank swap; one that
needs a page waits for it; one that has not passed its first wave waits for operands. -/
def slotOf (s : State) (strand a : Nat) : Slot :=
  match (strandGet s strand).tiles.find? (fun t => t.array = a && holdsArray s strand t) with
  | none =>
    (match (strandGet s strand).heldFor with
    | some acct => .held acct
    | none => .unassigned)
  | some t =>
    if t.needAt.isSome then .waitPage t
    else
      match t.stage with
      | .issued | .ready => .waitOperand t
      | .first => .pending t
      | .last | .drained => .waitDrain t

/-- A slot booked. Pending slots stay with their tile-op until it ends (R409). -/
def bookSlot (strand : Nat) (s : State) : Slot → State
  | .held acct => pmuAdd s (0x028 + strand) 1 (attrP acct)
  | .unassigned => pmuAdd s (0x008 + strand) 1 attr0
  | .pending t => tileSet s strand { t with pendingSlots := t.pendingSlots + 1 }
  | .waitDrain t => pmuAdd s (0x010 + strand) 1 (tileAttr t)
  | .waitPage t => pmuAdd s (0x02C + strand) 1 (tileAttr t)
  | .waitOperand t => pmuAdd s (0x00C + strand) 1 (tileAttr t)

/-- The sixteen arrays of a strand booked for one timebase nanosecond. -/
def bookStrand (s : State) (strand : Nat) : State :=
  (List.range 16).foldl (fun t a => bookSlot strand t (slotOf s strand a)) s

/-- The four strands booked. -/
def bookArrays (s : State) : State := (List.range 4).foldl bookStrand s

/-- n timebase nanoseconds booked. -/
def bookTimes (s : State) : Nat → State
  | 0 => s
  | n + 1 => bookTimes (bookArrays s) n

/-- Timebase nanoseconds in this one: 1, and one more or fewer each 10,000 ns while a correction is being slewed in (at most
100 ppm, R39). -/
def tbAdvance (tb : Timebase) : Nat :=
  if !tb.running then 0
  else if tb.slewAcc + 1 < 10000 || tb.slew = 0 then 1
  else if 0 < tb.slew then 2 else 0

/-- The timebase one real nanosecond later. -/
def tbTick (tb : Timebase) : Timebase :=
  let now := tb.now + BitVec.ofNat 64 (tbAdvance tb)
  if !tb.running then tb
  else if tb.slew = 0 then { tb with now := now, slewAcc := 0 }
  else if tb.slewAcc + 1 < 10000 then { tb with now := now, slewAcc := tb.slewAcc + 1 }
  else { tb with now := now, slewAcc := 0, slew := if 0 < tb.slew then tb.slew - 1 else tb.slew + 1 }

/-- A counter of nanoseconds counts while its condition holds. -/
def nsCount (c : Bool) (code : Nat) (s : State) : State := if c then pmuAdd s code 1 attr0 else s

/-- The counters of nanoseconds (R402): CAPPING_NS, SLOW_NS, the stacks outside NORMAL, the strands whose four tile buffers
are full. -/
def nsCounts (s : State) : State :=
  let s1 := nsCount s.gov.slow 0x179 (nsCount s.gov.capping 0x178 s)
  let s2 := s.stackSt.foldl (fun t p => nsCount (p.2.thermal != .normal) (stackEvent 0x09C 0x0F8 p.1) t) s1
  s.strands.foldl (fun t p => nsCount (4 ≤ p.2.bufs.length) (0x048 + p.1) t) s2

/-- Event codes whose number of occurrences no command determines: the spec does not say how many granule transfers, activations,
delayed requests, staged lines or scores a piece of work takes (DESIGN CHOICE, log entry 27). -/
def openCodes : List Nat :=
  (List.range 0x180).filter (fun c =>
    (0x080 ≤ c && c < 0x08C) || (0x0A0 ≤ c && c < 0x0A4) || (0x0C0 ≤ c && c < 0x0D8) || (0x020 ≤ c && c < 0x024) ||
    (0x050 ≤ c && c < 0x054) || c = 0x176)

/-- The occurrences of those events in this nanosecond. -/
def openTraffic (s : State) : State :=
  openCodes.foldl (fun t c => pmuAdd t c (Config.traffic s.free c % 65536) attr0) s

/-- Another 1,024 codewords corrected on an UP link (FEC_CORR): when, is open (log entry 27). -/
def fecTick (s : State) : State :=
  ((List.range 24).filter (linkUp s)).foldl (fun t k =>
    linkSet t k { linkGet t k with fecCorr := satAdd 65535 (linkGet t k).fecCorr (Config.traffic s.free (512 + k) % 2) }) s

/-- Every counter of the active style, with the two TAILs: what a nip copies (R407). -/
def nipCopies (s : State) : SMap Nat :=
  let cs := if s.boot.style = 0 then (List.range 384).map (fun i => (i, mapGet 0 s.pmu.alw i))
    else (List.range 160).map (fun i => (i, mapGet 0 s.pmu.blk i))
  (cs ++ [(384, s.pmu.knotTail), (385, s.pmu.sampleTail)]).filter (fun p => p.2 != 0)

/-- At the nip instant the copies are taken: every occurrence before it and none after (R407). -/
def nipTick (s : State) : State :=
  match s.pmu.nipAt with
  | some t => if s.pmu.nipHeld.isNone && t ≤ s.tb.now.toNat then { s with pmu := { s.pmu with nipHeld := some (nipCopies s) } } else s
  | none => s

/-- One nanosecond. Nothing counts while the module is in reset or its main rails are down. -/
def tick (s : State) : State :=
  let tb := { tbTick s.tb with copyDelta := s.tb.copyDelta + Config.copyDrift s.free }
  if s.power.rails && !s.power.perstActed then
    let s1 := fecTick (openTraffic (nsCounts (bookTimes s (tbAdvance s.tb))))
    nipTick { s1 with clk := s.clk + 1, free := s.free + 1, tb := tb }
  else { s with clk := s.clk + 1, free := s.free + 1, tb := tb }

end Sys2Proof.Machine
end

