-- ==== Sys2Proof/Machine/Pmu.lean ====
section
/-! DEFINITION. The PMU's commands: the nip, the knot log and the summary page (R398 to R407, R413, R414). -/

set_option Elab.async false

namespace Sys2Proof.Machine

open Sys2Proof

/-! ### The nip (R407) -/

/-- NIP_AVAIL of PMU_STATUS. -/
def nipAvail (s : State) : Bool := unitOn s 5

/-- The first timebase instant at or after ta + 1 µs that is a multiple of 2^ALIGN_LOG2 ns; an ALIGN_LOG2 of 0 imposes no
alignment. -/
def nipInstant (ta align : Nat) : Nat := ceilDiv (ta + 1000) (2 ^ align) * 2 ^ align

/-- A request: the nip is scheduled, or OVERRUN is set while BUSY. Answers the instant scheduled. -/
def nipAsk (s : State) (align : Nat) : State × Option Nat :=
  if s.pmu.nipAt.isSome then ({ s with pmu := { s.pmu with nipOverrun := true } }, none)
  else
    let t := nipInstant s.tb.now.toNat align
    ({ s with pmu := { s.pmu with nipAt := some t } }, some t)

/-- A write of GO to PMU_NIP_CTL. It is ignored while NIP_AVAIL is 0, and with ALIGN_LOG2 not 0 and not 10 to 30. -/
def nipRequestNow (alignLog2 : BitVec 5) (s : State) : Out :=
  let a := alignLog2.toNat
  if hostReach s && nipAvail s && (a = 0 || (10 ≤ a && a ≤ 30)) then .next (nipAsk s a).1 else .next s

/-- The write, in its turn (R299). -/
def execNipRequest (alignLog2 : BitVec 5) (s : State) : Out := hostLane (.nipRequest alignLog2) (nipRequestNow alignLog2) s

/-- The end of a nip: the shadow shows the copies taken at the nip instant, DONE is set, NIP_TIME is T. -/
def execNipCapture (s : State) : Out :=
  match s.pmu.nipAt with
  | some t =>
    if t ≤ s.tb.now.toNat then
      let s1 := { s with pmu := { s.pmu with
        shadow := s.pmu.nipHeld.getD (nipCopies s), nipAt := none, nipHeld := none, nipDone := true, nipTime := BitVec.ofNat 64 t } }
      .next (raiseCause s1 irqNip)
    else .next s
  | none => .next s

/-! ### The knot log (R413, R414) -/

/-- The 64 B log header with a TAIL and the newest record's timestamp. -/
def knotHeader (s : State) (tail : Nat) (now : W64) : List Byte :=
  bytesOf 4 s.boot.devId.toNat ++ bytesOf 4 (actF s flKnotLog2 0) ++ bytesOf 8 tail ++ bytesOf 8 now.toNat ++ bytesOf 40 0

/-- A 32 B knot record. -/
def knotRecord (s : State) (n : Nat) (o : OpEnt) (step : Nat) (nip : Bool) : List Byte :=
  bytesOf 8 s.tb.now.toNat ++ bytesOf 8 step ++
  bytesOf 4 (n + lineAcct s n * 2 ^ 16 + knPhase o.desc * 2 ^ 24 + lineStrand s n * 2 ^ 28 + (if nip then 2 ^ 30 else 0)) ++
  bytesOf 4 s.belay.epoch.toNat ++ bytesOf 4 (knTag o.desc) ++ bytesOf 4 o.seq

/-- STEP of a KNOT: the step record's STEP field plus STEP_ADD; all ones when the step record is chafed. -/
def knotStep (s : State) (n : Nat) (d : BitVec 512) : Nat × Bool :=
  if knRec d = 0 then (knAdd d, false)
  else
    let r := devReadN s (some (lineAcct s n)) (knRec d + 0x18) 8
    if r.2 then (2 ^ 64 - 1, true) else ((r.1 + knAdd d) % 2 ^ 64, false)

/-- A KNOT's dispatch, which is its retire point. -/
def knotRun (s : State) (n : Nat) (o : OpEnt) : State :=
  let d := o.desc
  let q := if knNip d then nipAsk s (knAlign d) else (s, none)
  let s1 := q.1
  let st := knotStep s1 n d
  let t := q.2.getD 0
  let o1 := opDispatch s1 o
  if actF s1 flKnotLog2 0 = 0 then finishOp s1 n o1 stOk (bytesOf 8 0xFFFFFFFF ++ bytesOf 8 t)
  else
    let base := actF s1 flKnotBase 0
    let tail := s1.pmu.knotTail
    let s2 := putStruct s1 (base + 64 + 32 * (tail % 2 ^ actF s1 flKnotLog2 0)) (knotRecord s1 n o st.1 q.2.isSome)
    let s3 := putStruct s2 base (knotHeader s2 ((tail + 1) % 2 ^ 64) s2.tb.now)
    let s4 := { s3 with pmu := { s3.pmu with knotTail := (tail + 1) % 2 ^ 64 } }
    finishOp s4 n o1 (if st.2 then stChafed else stOk) (bytesOf 8 (tail % 2 ^ 32) ++ bytesOf 8 t)

/-- STEP of the step record that a KNOT reads. -/
def knotSpans (d : BitVec 512) : List (Nat × Nat) := if knRec d = 0 then [] else [(knRec d + 0x18, 8)]

/-- A KNOT is dispatched; the read of its step record may be held (R179). -/
def execKnot (line : LineNo) (s : State) : Out :=
  let n := line.toNat
  onDispatch s n opKnot (fun o =>
    if readsHeld s (knotSpans o.desc) then noteWaits s (knotSpans o.desc) false
    else knotRun (noteAccess s (lineAcct s n) (spansBlocks (knotSpans o.desc))) n o)

/-! ### The summary page (R405) -/

/-- PERIOD_US in ns. -/
def sumPeriodNs (s : State) : Nat := actF s flSumPeriod 0 * 10000

/-- A pass of the central reader, in BLOCK style while BASE is nonzero. The whole pass is one instant. -/
def execSummaryPass (s : State) : Out :=
  let base := actF s flSumBase 0
  if s.boot.style = 1 && base != 0 && s.boot.phase = 7 && s.pmu.lastPass + sumPeriodNs s ≤ tbNow s then
    let p := (s.pmu.pass + 1) % 2 ^ 64
    let now := s.tb.now.toNat
    let s1 := putStruct s base (bytesOf 8 p ++ bytesOf 8 now ++ bytesOf 8 now)
    let s2 := putStruct s1 (base + 0x40) ((List.range 160).flatMap (fun i => bytesOf 8 (mapGet 0 s.pmu.blk i)))
    let s3 := putStruct s2 (base + 0x540) (bytesOf 8 p)
    .next { s3 with pmu := { s3.pmu with pass := p, lastPass := tbNow s3 } }
  else .next s

end Sys2Proof.Machine
end

