-- ==== Sys2Proof/Machine/RegView.lean ====
section
/-! DEFINITION. What a read of BAR0 returns: the fields of every register that are not CW fields, the CW fields of the coil and
of the ACT view, and what a read clears (R2 to R6, R418 to R428). -/

set_option Elab.async false

namespace Sys2Proof.Machine

open Sys2Proof

/-- A family of registers with fields that are not CW: instance i lies at base + stride × i and is `width` bytes wide. `val`
is its 64-bit value (CW fields zero), `clr` what a read of its lower (0) or upper (1) half clears (R4, RC). -/
structure RdReg where
  base : Nat
  stride : Nat
  count : Nat
  width : Nat
  val : State → Nat → Nat
  clr : State → Nat → Nat → State := fun s _ _ => s

/-- The register holds the word at `off`. -/
def RdReg.holds (r : RdReg) (off : Nat) : Bool :=
  r.base ≤ off && (off - r.base) / r.stride < r.count && (off - r.base) % r.stride < r.width

/-- A field's value at its lowest bit, cut to its width. -/
def at_ (lo width v : Nat) : Nat := v % 2 ^ width * 2 ^ lo

def bit_ (lo : Nat) (b : Bool) : Nat := if b then 2 ^ lo else 0

/-- A saturating field. -/
def sat_ (lo width v : Nat) : Nat := min (2 ^ width - 1) v * 2 ^ lo

/-! ### CFG (R19, R42, R387, R395, R420 to R427) -/

/-- CFG_MOD_STATUS. -/
def modStatus (s : State) : Nat :=
  let stks := s.stackSt.map Prod.snd
  let peers := s.net.peers.map Prod.snd
  let accts := s.tiers.acct.map Prod.snd
  bit_ 0 (s.boot.phase = 7) + bit_ 1 s.boot.safe + bit_ 2 s.gov.slow + bit_ 3 s.tb.locked +
  bit_ 4 (stks.any (fun x => x.thermal != .normal)) + bit_ 5 (stks.any (fun x => x.thermal = .critical)) +
  bit_ 6 s.belay.run.isSome + bit_ 7 ((s.lines.map Prod.fst).any (fun n => lineState s n = 3 || lineState s n = 4)) +
  bit_ 8 (accts.any AcctSt.halted) + bit_ 9 (accts.any AcctSt.abortPending) +
  bit_ 10 (peers.any (fun p => p.state = .lost || p.state = .unreachable)) +
  at_ 16 5 ((List.range 24).filter (linkUp s)).length

/-- TB_OFFSET, saturated at ±32,767. -/
def tbOffset (x : Int) : Nat := (BitVec.ofInt 16 (max (-32767) (min 32767 x))).toNat

/-- CFG_BELAY_STAT. -/
def belayStat (s : State) : Nat :=
  let b := s.belay
  bit_ 0 b.hostBusy + bit_ 1 b.hostQueued + bit_ 2 b.refused + at_ 8 8 b.status.toNat + at_ 16 4 b.blocker.toNat +
  at_ 32 32 b.failOffset.toNat

def cfgRegs : List RdReg := [
  { base := 0x0, stride := 4, count := 1, width := 4, val := fun _ _ => 0x00109600 },
  { base := 0x4, stride := 4, count := 1, width := 4, val := fun _ _ => 0x00010100 },
  { base := 0x8, stride := 8, count := 1, width := 8, val := fun s _ => s.fuses.serial.toNat },
  { base := 0x10, stride := 4, count := 1, width := 4, val := fun s _ => (capWord s.fuses.variant).toNat },
  { base := 0x100, stride := 8, count := 1, width := 8, val := fun s _ => s.tb.now.toNat },
  { base := 0x108, stride := 4, count := 1, width := 4, val := fun s _ =>
      bit_ 0 s.tb.locked + bit_ 1 s.tb.firstLock + bit_ 2 s.tb.holdover + bit_ 3 s.tb.copyErr +
      bit_ 4 (actF s flTbRoot 0 = 1) + at_ 16 16 (tbOffset s.tb.offset) },
  { base := 0x110, stride := 8, count := 1, width := 8, val := fun s _ => s.tb.step.toNat },
  { base := 0x200, stride := 4, count := 1, width := 4, val := fun s _ => s.belay.epoch.toNat },
  { base := 0x218, stride := 8, count := 1, width := 8, val := fun s _ => belayStat s },
  { base := 0x300, stride := 4, count := 1, width := 4, val := fun s _ => modStatus s },
  { base := 0x310, stride := 4, count := 1, width := 4, val := fun s _ => s.regs.irqCause.toNat },
  { base := 0x314, stride := 4, count := 1, width := 4, val := fun s _ => s.regs.irqEn.toNat },
  { base := 0x320, stride := 4, count := 1, width := 4, val := fun s _ =>
      bit_ 0 (s.cfg.coil != s.cfg.act) + at_ 16 16 s.cfg.writes }]

/-! ### BOOT (R375 to R385) -/

/-- BOOT_SLOT0 and BOOT_SLOT1. -/
def slotWord (s : State) (i : Nat) : Nat :=
  let x := s.boot.slots.getD i SlotInfo.reset
  x.generation.toNat + at_ 32 8 x.cause.toNat + at_ 40 16 x.svn.toNat + at_ 56 2 x.keySlot.toNat

/-- A word of the flash window: page `flashPage` of the boot flash. -/
def flashWord (s : State) (o : Nat) : Nat :=
  natOfBytes ((List.range 8).map (fun i => mapGet 0xFF s.flash (s.regs.flashPage.toNat * 65536 + 8 * o + i)))

def bootRegs : List RdReg := [
  { base := 0x100000, stride := 4, count := 1, width := 4, val := fun s _ => bootStatus s },
  { base := 0x100004, stride := 4, count := 1, width := 4, val := fun s _ => s.boot.count.toNat },
  { base := 0x100008, stride := 8, count := 2, width := 8, val := slotWord },
  { base := 0x100018, stride := 4, count := 1, width := 4, val := fun s _ =>
      s.fuses.keyValid.toNat + at_ 4 4 s.fuses.keyRevoked.toNat + at_ 8 6 s.fuses.svnFloor.toNat },
  { base := 0x100020, stride := 4, count := 1, width := 4, val := fun s _ => bit_ 0 s.boot.forceSafe },
  { base := 0x100024, stride := 4, count := 1, width := 4, val := fun s _ => at_ 0 19 s.boot.logNext },
  { base := 0x100030, stride := 4, count := 1, width := 4, val := fun s _ => s.regs.flashPage.toNat },
  { base := 0x110000, stride := 8, count := 8192, width := 8, val := flashWord }]

/-! ### LINE (R265 to R288, R310, R311, R317, R318) -/

/-- LINE_STATE. -/
def lineStateWord (s : State) (n : Nat) : Nat :=
  let l := lineGet s n
  at_ 0 20 l.head + at_ 20 20 l.cqTail + at_ 40 3 (lineState s n) + at_ 43 5 l.ops.length +
  at_ 48 2 (match l.loop with
    | none => 0
    | some lp => if lp.breakPending then 2 else 1)

/-- LINE_WFC_STATUS. -/
def wfcStatus (s : State) : Nat :=
  bit_ 0 s.wfc.valid + bit_ 1 s.wfc.cycle + bit_ 2 s.wfc.trunc + at_ 3 5 s.wfc.entries.length

/-- LINE_WFC_ENTRY. -/
def wfcEntryWord (s : State) (i : Nat) : Nat :=
  match s.wfc.entries[i]? with
  | some e => at_ 0 16 e.line + at_ 16 3 e.kind + at_ 32 32 e.object
  | none => 0

def lineRegs : List RdReg := [
  { base := 0x300000, stride := 8, count := 65536, width := 8, val := lineStateWord },
  { base := 0x380810, stride := 4, count := 1, width := 4, val := fun s _ => s.regs.hitchSel.toNat },
  { base := 0x380814, stride := 4, count := 1, width := 4, val := fun s _ => (hitchGet s s.regs.hitchSel.toNat).count.toNat },
  { base := 0x380828, stride := 4, count := 1, width := 4, val := fun s _ => s.regs.ctrlStatus.toNat + bit_ 8 s.regs.ctrlBusy },
  { base := 0x380830, stride := 4, count := 1, width := 4, val := fun s _ => s.regs.lineSel.toNat },
  { base := 0x380838, stride := 8, count := 1, width := 8, val := fun s _ =>
      let l := lineGet s s.regs.lineSel.toNat
      at_ 0 32 l.nextSeq + at_ 32 32 ((l.loop.map (fun lp => lp.left.toNat)).getD 0) },
  { base := 0x381008, stride := 8, count := 1, width := 8, val := fun s _ => sat_ 0 32 s.wfc.agedGrants + sat_ 32 16 s.wfc.maxAgedWait,
    clr := fun s _ h => { s with wfc := if h = 0 then { s.wfc with agedGrants := 0 } else { s.wfc with maxAgedWait := 0 } } },
  { base := 0x381804, stride := 4, count := 1, width := 4, val := fun s _ => wfcStatus s },
  { base := 0x381810, stride := 8, count := 16, width := 8, val := wfcEntryWord }]

/-! ### BRD, VEC and BGT -/

/-- Operations in flight of the lines of a strand with an opcode that `p` accepts. -/
def strandOps (s : State) (strand : Nat) (p : Nat → Bool) : Nat :=
  ((allOps s).filter (fun x => p (opcodeOf x.2.desc) && lineStrand s x.1 = strand)).length

/-- Sweeps of a strand in flight: those of BRD_MM, and each bight tile-op as a one-array sweep (R83). -/
def sweepsLive (s : State) (strand : Nat) : Nat :=
  (strandGet s strand).sweeps.length + ((strandGet s strand).tiles.filter (fun t => t.bight)).length

/-- Block moves in flight that bight operations of a strand asked for. -/
def pageMoves (s : State) (strand : Nat) : Nat :=
  (s.tiers.moves.filter (fun m => m.started && (match m.origin with
    | .prefetch n q _ | .demand n q => lineStrand s n = strand &&
        (opFind s n q).any (fun o => opcodeOf o.desc = opBgtFwd || opcodeOf o.desc = opBgtBwd)
    | _ => false))).length

/-- VEC_CENSUS_PTR. -/
def censusPtr (s : State) (a : Nat) : Nat :=
  at_ 0 20 (mapGet 0 s.pmu.censusHead a) + at_ 32 20 (mapGet 0 s.pmu.censusTail a) + sat_ 52 12 (mapGet 0 s.pmu.censusLost a)

def unitRegs : List RdReg := [
  { base := 0x400000, stride := 4, count := 4, width := 4, val := fun s i =>
      at_ 0 5 (16 - (freeArrays s i).length) + sat_ 8 8 (sweepsLive s i) + at_ 16 8 (ceilDiv (stageUsed s i) 65536) },
  { base := 0x600000, stride := 4, count := 4, width := 4, val := fun s i =>
      at_ 0 3 (strandGet s i).bufs.length + sat_ 8 8 (strandOps s i (fun c => c = opVecOp)) },
  { base := 0x602000, stride := 8, count := 256, width := 8, val := censusPtr,
    clr := fun s i h => if h = 0 then s else { s with pmu := { s.pmu with censusLost := mapUpd s.pmu.censusLost i none } } },
  { base := 0x700000, stride := 4, count := 4, width := 4, val := fun s i =>
      at_ 0 5 (bgtLive s i).length + sat_ 8 8 (strandOps s i (fun c => c = opBgtFwd || c = opBgtBwd)) +
      sat_ 16 8 (pageMoves s i) + sat_ 24 8 (ceilDiv (storeUsed s i) 131072) }]

/-! ### TIER, KRN and MNT -/

/-- A stack's status register: stacks 0 to 3 kern, 4 up mantle. -/
def stackWord (s : State) (st : Nat) : Nat :=
  let x := stackGet s st
  let t := match x.thermal with
    | .normal => 0
    | .throttle => 1
    | .critical => 2
  at_ 0 8 x.temp + at_ 8 2 t + at_ 10 2 x.level + bit_ 12 x.hot + bit_ 13 x.sensorErr +
  (if st < 4 then sat_ 16 16 x.linkRetry else 0) + sat_ 32 16 x.ce + sat_ 48 12 x.ue

/-- A read of a stack's status clears LINK_RETRY with the lower half, CE and UE with the upper. -/
def stackClear (s : State) (st h : Nat) : State :=
  let x := stackGet s st
  stackSet s st (if h = 0 then { x with linkRetry := 0 } else { x with ce := 0, ue := 0 })

/-- TIER_CHAFE_STAT. -/
def chafeStat (s : State) (a : Nat) : Nat :=
  let x := mapGet AcctSt.reset s.tiers.acct a
  sat_ 0 12 x.repaired + sat_ 12 12 x.repairFailed + bit_ 24 x.abortPending + bit_ 25 x.halted

/-- The free value that a register reads while its contents are not valid. -/
def htWait (s : State) (v : W64) (k : Nat) : Nat := if s.regs.htAt ≤ s.clk then v.toNat else (Config.freeWord (s.free + k)).toNat

def tierRegs : List RdReg := [
  { base := 0x800000, stride := 8, count := 3, width := 8, val := fun s t =>
      let p := poolGet s (tierOf t)
      at_ 0 25 p.general + at_ 32 25 p.reserve + bit_ 57 p.evictBlocked + sat_ 58 4 p.badAccess,
    clr := fun s t h => if h = 0 then s else poolSet s (tierOf t) { poolGet s (tierOf t) with badAccess := 0 } },
  { base := 0x800020, stride := 8, count := 3, width := 8, val := fun s t =>
      at_ 0 25 (frameCount s (tierOf t)) + at_ 32 25 (reserveSize s (tierOf t)) },
  { base := 0x803000, stride := 8, count := 1024, width := 8, val := fun s i =>
      if i % 4 < 3 then at_ 0 25 (mapGet 0 s.tiers.charged i) + at_ 32 25 (mapGet 0 s.tiers.movingIn i) else 0 },
  { base := 0x806400, stride := 4, count := 256, width := 4, val := chafeStat,
    clr := fun s a _ => { s with tiers := { s.tiers with
      acct := mapMod AcctSt.reset s.tiers.acct a (fun x => { x with repaired := 0, repairFailed := 0 }) } } },
  { base := 0x807000, stride := 8, count := 1, width := 8, val := fun s _ => s.regs.htName.toNat },
  { base := 0x807008, stride := 8, count := 1, width := 8, val := fun s _ => htWait s s.regs.htEntry 0 },
  { base := 0x807010, stride := 8, count := 1, width := 8, val := fun s _ => htWait s s.regs.htTouch 1 },
  { base := 0xA00000, stride := 8, count := 4, width := 8, val := stackWord, clr := stackClear },
  { base := 0xB00000, stride := 8, count := 8, width := 8, val := fun s m => stackWord s (4 + m),
    clr := fun s m h => stackClear s (4 + m) h },
  { base := 0xB01008, stride := 4, count := 1, width := 4, val := fun s _ => sat_ 16 16 s.eng.scrubPasses }]

/-! ### ROWL, SPL and TRN -/

/-- Banks of a mantle stack, as kept. -/
def stackBanks (s : State) (m : Nat) : List Bank := (s.eng.banks.filter (fun p => p.1 / 3072 = m)).map Prod.snd

/-- ROW_SEQ operations in flight whose channels lie on a mantle stack. -/
def seqsOn (s : State) (m : Nat) : Nat :=
  ((allOps s).filter (fun x => x.2.dispatched && opcodeOf x.2.desc = opRowSeq &&
    rsFirst x.2.desc < 96 * (m + 1) && 96 * m < rsFirst x.2.desc + rsCount x.2.desc)).length

/-- SPL operations in flight with chunks on a mantle stack. -/
def splOn (s : State) (m : Nat) : Nat :=
  ((allOps s).filter (fun x => x.2.dispatched && (opcodeOf x.2.desc = opSplUpd || opcodeOf x.2.desc = opSplAcc) &&
    96 * m < x.2.total)).length

def rowlRegs : List RdReg := [
  { base := 0xC00000, stride := 4, count := 8, width := 4, val := fun s m =>
      sat_ 0 8 (seqsOn s m) + at_ 8 10 ((stackBanks s m).filter (fun b => b.atom.isSome)).length },
  { base := 0xC00040, stride := 8, count := 8, width := 8, val := fun s m =>
      sat_ 0 32 (mapGet 0 s.eng.rowOps m / 1024) + sat_ 32 16 (mapGet 0 s.eng.spills m) + sat_ 48 16 (mapGet 0 s.eng.heldCount m),
    clr := fun s m h => { s with eng := if h = 0 then { s.eng with rowOps := mapUpd s.eng.rowOps m none }
      else { s.eng with spills := mapUpd s.eng.spills m none, heldCount := mapUpd s.eng.heldCount m none } } },
  { base := 0xC01000, stride := 4, count := 8, width := 4, val := fun s m =>
      sat_ 0 8 (splOn s m) +
      sat_ 8 8 ((stackBanks s m).foldl (fun n b => n + ((b.parity.map (fun p => (p.1, p.2.1))).dedup).length) 0) },
  { base := 0xC01200, stride := 4, count := 1, width := 4, val := fun s _ => sat_ 0 16 s.tiers.claims + sat_ 16 16 s.tiers.claimFail,
    clr := fun s _ _ => { s with tiers := { s.tiers with claims := 0, claimFail := 0 } } },
  { base := 0xE00008, stride := 8, count := 1, width := 8, val := fun s _ =>
      sat_ 0 16 (s.tiers.ht.filter (fun p => p.2.land)).length + sat_ 16 16 s.tiers.poolFull + sat_ 32 16 s.tiers.merges,
    clr := fun s _ h => { s with tiers := if h = 0 then { s.tiers with poolFull := 0 } else { s.tiers with merges := 0 } } }]

/-! ### LNK (R322 to R351) -/

/-- STATE of LNK_LINK_STAT: a fitted link that is not enabled reads DISABLED. -/
def linkCode (s : State) (k : Nat) : Nat :=
  if linkCount s ≤ k then 0
  else if !linkOn s k then 4
  else
    match (linkGet s k).state with
    | .down => 0
    | .training => 1
    | .up => 2
    | .miswire => 3
    | .disabled => 4

/-- LNK_LINK_STAT. -/
def linkWord (s : State) (k : Nat) : Nat :=
  if linkCount s ≤ k then 0
  else
    let l := linkGet s k
    at_ 0 3 (linkCode s k) + at_ 4 4 l.cause + sat_ 8 8 l.stall + sat_ 16 16 l.replays +
    sat_ 32 16 l.fecCorr + sat_ 48 8 l.fecUncorr + sat_ 56 8 l.drops

/-- A read of LNK_LINK_STAT clears STALL and REPLAYS with the lower half, FEC_CORR, FEC_UNCORR and DROPS with the upper. -/
def linkClear (s : State) (k h : Nat) : State :=
  let l := linkGet s k
  linkSet s k (if h = 0 then { l with stall := 0, replays := 0 } else { l with fecCorr := 0, fecUncorr := 0, drops := 0 })

/-- LNK_PEER. -/
def peerWord (s : State) (d : Nat) : Nat :=
  let p := peerGet s d
  let c := match p.state with
    | .unknown => 0
    | .up => 1
    | .lost => 2
    | .unreachable => 3
  c + at_ 3 3 p.stat.toNat + at_ 8 4 p.cause

def lnkRegs : List RdReg := [
  { base := 0x1000000, stride := 4, count := 1, width := 4, val := fun s _ =>
      s.boot.devId.toNat + at_ 16 5 s.boot.modId.toNat + bit_ 21 s.boot.idFromPins },
  { base := 0x1000008, stride := 4, count := 1, width := 4, val := fun s _ => bit_ 0 s.net.peerEvent + at_ 16 14 s.net.lastLost.toNat },
  { base := 0x1000200, stride := 8, count := 24, width := 8, val := linkWord, clr := linkClear },
  { base := 0x1020000, stride := 4, count := 16384, width := 4, val := peerWord }]

/-! ### HST (R359 to R372) -/

/-- A word of the MSI-X table, two to a vector. -/
def msixWord (s : State) (i : Nat) : Nat :=
  let e := mapGet MsixEntry.reset s.port.msix (i / 2)
  if i % 2 = 0 then e.addr.toNat else e.data.toNat + bit_ 32 e.mask

/-- 64 pending bits. -/
def pbaWord (s : State) (i : Nat) : Nat :=
  (s.port.pba.filter (fun v => v / 64 = i)).foldl (fun n v => n + 2 ^ (v % 64)) 0

def hstRegs : List RdReg := [
  { base := 0x1400000, stride := 4, count := 1, width := 4, val := fun s _ =>
      bit_ 0 s.port.linkUp + at_ 1 5 s.port.width + at_ 6 3 s.port.rate + at_ 9 2 s.boot.personality + bit_ 11 s.port.cxlmLive },
  { base := 0x1400008, stride := 8, count := 1, width := 8, val := fun s _ =>
      sat_ 0 16 s.port.unpop + sat_ 16 16 s.port.chafedReads + sat_ 32 12 s.port.hostErr + sat_ 44 8 s.port.badMmio +
      sat_ 52 8 s.port.linkDowns,
    clr := fun s _ h => { s with port := if h = 0 then { s.port with unpop := 0, chafedReads := 0 }
      else { s.port with hostErr := 0, badMmio := 0, linkDowns := 0 } } },
  { base := 0x1410000, stride := 8, count := 4096, width := 8, val := msixWord },
  { base := 0x1418000, stride := 8, count := 32, width := 8, val := pbaWord }]

/-! ### PMU (R398 to R412, R416) -/

/-- PMU_ALW_OVF. -/
def ovfWord (s : State) (j : Nat) : Nat :=
  (s.pmu.ovf.filter (fun c => c / 64 = j)).foldl (fun n c => n + 2 ^ (c % 64)) 0

/-- A filter limits a counter to one account's own work (R404). -/
def ownFilter (f a : Nat) : Bool := f.testBit 11 && bitsAt f 10 3 = a && bitsAt f 2 0 = 3

/-- A 64-bit word of the user pages: 512 to an account (R404). -/
def userWord (s : State) (k : Nat) : Nat :=
  let a := k / 512
  let i := k % 512
  if !(actF s flPmuUser (a / 32)).testBit (a % 32) then 0
  else if s.boot.style = 0 then
    if i < 384 && ownFilter (actF s flPmuFilt 0) a then mapGet 0 s.pmu.alw i else 0
  else if i < 160 && ownFilter (actF s flBlkFilter i) a then mapGet 0 s.pmu.blk i else 0

/-- PMU_NIP_STAT. -/
def nipStat (s : State) : Nat := bit_ 0 s.pmu.nipAt.isSome + bit_ 1 s.pmu.nipDone + bit_ 2 s.pmu.nipOverrun

/-- PMU_SAMPLE_PTR. -/
def samplePtr (s : State) : Nat := at_ 0 20 s.pmu.sampleHead + at_ 32 20 s.pmu.sampleTail + sat_ 52 12 s.pmu.sampleLost

def pmuRegs : List RdReg := [
  { base := 0x1600000, stride := 8, count := 384, width := 8, val := fun s i => if s.boot.style = 0 then mapGet 0 s.pmu.alw i else 0 },
  { base := 0x1600C00, stride := 8, count := 6, width := 8, val := fun s j => if s.boot.style = 0 then ovfWord s j else 0 },
  { base := 0x1601100, stride := 4, count := 1, width := 4, val := fun s _ =>
      at_ 0 1 s.boot.style + bit_ 1 (nipAvail s) + sat_ 16 16 s.pmu.censusColl,
    clr := fun s _ _ => { s with pmu := { s.pmu with censusColl := 0 } } },
  { base := 0x1603000, stride := 8, count := 160, width := 8, val := fun s i => if s.boot.style = 1 then mapGet 0 s.pmu.blk i else 0 },
  { base := 0x1605008, stride := 4, count := 1, width := 4, val := fun s _ => nipStat s },
  { base := 0x1605010, stride := 8, count := 1, width := 8, val := fun s _ => s.pmu.nipTime.toNat },
  { base := 0x1606000, stride := 8, count := 386, width := 8, val := fun s i => mapGet 0 s.pmu.shadow i },
  { base := 0x1607010, stride := 8, count := 1, width := 8, val := fun s _ => samplePtr s,
    clr := fun s _ h => if h = 0 then s else { s with pmu := { s.pmu with sampleLost := 0 } } },
  { base := 0x1700000, stride := 8, count := 131072, width := 8, val := userWord }]

/-! ### PWR (R32, R34 to R36) -/

def pwrRegs : List RdReg := [
  { base := 0x1800008, stride := 4, count := 1, width := 4, val := fun s _ =>
      at_ 0 10 s.gov.vcore + bit_ 10 s.gov.capping + bit_ 11 s.gov.tjHold + bit_ 12 s.gov.slow + bit_ 13 (s.gov.vcore = 600) +
      at_ 16 12 s.gov.inputW },
  { base := 0x1800010, stride := 4, count := 4, width := 4, val := fun s i =>
      at_ 0 12 (strandGet s i).rate + at_ 12 7 (strandGet s i).tj }]

/-! ### Words and accesses -/

/-- Every register with a field that is not CW. -/
def rdRegs : List RdReg :=
  cfgRegs ++ bootRegs ++ lineRegs ++ unitRegs ++ tierRegs ++ rowlRegs ++ lnkRegs ++ hstRegs ++ pmuRegs ++ pwrRegs

/-- The register of `rdRegs` that holds the word at `off`. -/
def rdAt (off : Nat) : Option RdReg := rdRegs.find? (fun r => r.holds off)

/-- The registers of the counter style that is not selected act as reserved fields (R398). -/
def styleHides (s : State) (off : Nat) : Bool :=
  if s.boot.style = 0 then 0x1602000 ≤ off && off < 0x1604008 else 0x1601000 ≤ off && off < 0x1601008

/-- The CW fields of the word at `off` in a configuration. -/
def cwWord (s : State) (m : SMap W32) (off : Nat) : W32 := if styleHides s off then 0 else cwGet m off &&& cwMask off

/-- The fields of the word at `off` that are not CW. -/
def plainWord (s : State) (off : Nat) : W32 :=
  match rdAt off with
  | some r => BitVec.ofNat 32 (r.val s ((off - r.base) / r.stride) >>> (32 * ((off - r.base) % r.stride / 4)))
  | none => 0

/-- The word that a BAR0 read returns at `off` (R4, R419). -/
def regWord (s : State) (off : Nat) : W32 := cwWord s s.cfg.coil off ||| plainWord s off

/-- What the read clears. -/
def clearWord (s : State) (off : Nat) : State :=
  match rdAt off with
  | some r => r.clr s ((off - r.base) / r.stride) ((off - r.base) % r.stride / 4)
  | none => s

/-- Two words as 64 bits. -/
def pair64 (lo hi : W32) : W64 := hi.zeroExtend 64 <<< 32 ||| lo.zeroExtend 64

/-- Value of an aligned access of 4 or 8 bytes, by word. -/
def accessVal (w : Nat → W32) (off size : Nat) : W64 := if size = 8 then pair64 (w off) (w (off + 4)) else (w off).zeroExtend 64

/-- An aligned 4-byte or 8-byte access (R361). -/
def goodAccess (off size : Nat) : Bool := (size = 4 || size = 8) && off % size = 0

end Sys2Proof.Machine
end

