-- ==== Sys2Proof/Machine/Wfc.lean ====
section
/-! DEFINITION. Wait-for chains (R316 to R318). -/

set_option Elab.async false

namespace Sys2Proof.Machine

open Sys2Proof

-- Edge kinds of R317.
def wkHitch : Nat := 0
def wkSuspended : Nat := 1
def wkCollective : Nat := 2
def wkResume : Nat := 3
def wkStalled : Nat := 4
def wkHalted : Nat := 5

/-- The edge of a line that is BLOCKED: KIND, OBJECT and the next line (the wait-for edge table). -/
def blockedEdge (s : State) (n : Nat) : Option (Nat × Nat × Option Nat) :=
  let ops := (lineGet s n).ops
  match ops.find? (fun o => opcodeOf o.desc = opCtrl && o.dispatched && o.resumeBy.isSome),
        ops.find? (fun o => o.dispatched && opcodeOf o.desc = opHitchWait),
        stopperOf s n with
  | some c, _, _ => some (wkResume, ctrlLine c.desc, some (ctrlLine c.desc))
  | none, some w, _ => some (wkHitch, hwHitch w.desc, (hitchGet s (hwHitch w.desc)).lastLine)
  | none, none, some _ =>
    (match ops.find? (fun o => o.track = .suspended), ops.find? isColl with
    | some o, _ => some (wkSuspended, o.seq, o.suspendedBy)
    | none, some o => some (wkCollective, (ccAxisList o.desc).headD 0, none)
    | none, none => none)
  | none, none, none => none

/-- The edge of a line in its present state. -/
def waitEdge (s : State) (n : Nat) : Option (Nat × Nat × Option Nat) :=
  match lineState s n with
  | 2 => blockedEdge s n
  | 4 => some (wkHalted, lineAcct s n, none)
  | 5 => some (wkStalled, cqSize s n - 1 - cqFree s n, none)
  | _ => none

/-- The chain from a line: entries, CYCLE and TRUNC. It ends at a line with no edge, at a line already in the chain, or
after 16 entries. -/
def follow (s : State) : Nat → Nat → List WfcEntry → List WfcEntry × Bool × Bool
  | 0, n, es => if es.any (fun e => e.line = n) then (es, true, false) else (es, false, (waitEdge s n).isSome)
  | fuel + 1, n, es =>
    if es.any (fun e => e.line = n) then (es, true, false)
    else
      match waitEdge s n with
      | none => (es, false, false)
      | some (k, obj, next) =>
        let es1 := es ++ [{ line := n, kind := k, object := obj }]
        (match next with
        | some m => follow s fuel m es1
        | none => (es1, false, false))

/-- A line that is examined: BLOCKED, STALLED or HALTED for at least WFC_MS. -/
def longWait (s : State) (n : Nat) : Bool :=
  let l := lineGet s n
  (l.seen = 2 || l.seen = 4 || l.seen = 5) && l.seen = lineState s n && l.since + actF s flWfcMs 0 * 1000000 ≤ tbNow s

/-- The lines in the order in which a scan examines them: from the line after the last one reported. -/
def scanOrder (s : State) : List Nat :=
  let ls := s.lines.map Prod.fst
  ls.filter (fun n => s.wfc.lastReported < n) ++ ls.filter (fun n => n ≤ s.wfc.lastReported)

/-- The scan of R317, once per millisecond. No chain is found from a line that has no edge; none is latched while VALID is 1
(R318). -/
def execWfcScan (s : State) : Out :=
  if actF s flWfcEn 0 = 1 && s.wfc.lastScan + 1000000 ≤ tbNow s then
    let s1 := { s with wfc := { s.wfc with lastScan := tbNow s } }
    if s.wfc.valid then .next s1
    else
      match (scanOrder s).find? (fun n => longWait s n && (waitEdge s n).isSome) with
      | none => .next s1
      | some n =>
        let r := follow s 16 n []
        .next (raiseCause { s1 with wfc := { s1.wfc with
          valid := true, entries := r.1, cycle := r.2.1, trunc := r.2.2, lastReported := n } } irqWfc)
  else .next s

end Sys2Proof.Machine
end

