-- ==== Sys2Proof/Machine/RegFile.lean ====
section
/-! DEFINITION. Host writes and reads of BAR0 and BAR2: staging, the effects of RW, W1C, W1S and WO fields, latches, lookups,
and the accesses that are refused (R2 to R5, R42, R151, R178, R266, R318, R351, R361, R380, R386, R407, R419, R423, R425). -/

set_option Elab.async false

namespace Sys2Proof.Machine

open Sys2Proof

/-- First offset of the ACT view (R418). -/
def actBase : Nat := 0x2000000

/-- The state that a command leaves: the state itself where the command is turned away. -/
def after (o : Out) (s : State) : State :=
  match o with
  | .next t => t
  | _ => s

/-- BAD_MMIO increments (R361, R425). -/
def countBadMmio (s : State) : State := { s with port := { s.port with badMmio := satAdd 255 s.port.badMmio 1 } }

/-- An access that does not reach the registers: Unsupported Request during an FLR (R366), no answer otherwise (R373). -/
def unreached (s : State) : State := if portReach s && s.port.flrAt.isSome then portOut s .ur else s

/-! ### Staging (R386, R427) -/

/-- The CW bits of the word at `off` that a write reaches now. -/
def stageMask (s : State) (off : Nat) : W32 := if styleHides s off then 0 else cwMask off

/-- A word's CW fields staged in the coil. -/
def coilStage (s : State) (off : Nat) (v : W32) : State :=
  let w := (cwGet s.cfg.coil off &&& ~~~ stageMask s off) ||| (v &&& stageMask s off)
  { s with cfg := { s.cfg with coil := cwSet s.cfg.coil off w } }

/-- WRITES of CFG_COIL_STAT counts n more accesses. -/
def countWrites (s : State) (n : Nat) : State := { s with cfg := { s.cfg with writes := satAdd 65535 s.cfg.writes n } }

/-- Both halves at `off` belong to one 64-bit register with CW fields. -/
def oneReg64 (off : Nat) : Bool := (cwAt off).any (fun r => r.width = 8)

/-- Accesses that a write counts as in WRITES: one for each 4-byte access whose bytes include a CW field, and one for an
8-byte access to a 64-bit register. -/
def stageCount (s : State) (off size : Nat) : Nat :=
  let a := if stageMask s off != 0 then 1 else 0
  let b := if stageMask s (off + 4) != 0 then 1 else 0
  if size = 8 then (if oneReg64 off then min 1 (a + b) else a + b) else a

/-- The words of an access, staged. -/
def stageAccess (s : State) (off size : Nat) (val : W64) : State :=
  let s1 := if stageMask s off != 0 then coilStage s off (val.truncate 32) else s
  if size = 8 && stageMask s (off + 4) != 0 then coilStage s1 (off + 4) ((val >>> 32).truncate 32) else s1

/-- A host write stages the CW fields among its bytes and counts in WRITES. -/
def coilStageWriteNow (off : BitVec 26) (size : Nat) (val : W64) (s : State) : Out :=
  let o := off.toNat
  if hostReach s && goodAccess o size && o < actBase then .next (countWrites (stageAccess s o size val) (stageCount s o size))
  else .next s

/-- The write, in its turn (R299). -/
def execCoilStageWrite (off : BitVec 26) (size : Nat) (val : W64) (s : State) : Out := hostLane (.coilStageWrite off size val) (coilStageWriteNow off size val) s

/-! ### Registers with a row of their own -/

/-- CFG_IRQ_CAUSE: the written bits clear, and a message goes out if an enabled cause remains (R423). -/
def irqCauseClearNow (val : W32) (s : State) : Out :=
  if hostReach s then .next (setIrq s (s.regs.irqCause &&& ~~~ val) s.regs.irqEn true) else .next s

/-- The write, in its turn (R299). -/
def execIrqCauseClear (val : W32) (s : State) : Out := hostLane (.irqCauseClear val) (irqCauseClearNow val) s

/-- CFG_IRQ_EN: bits 0 to 14 take the value, and a message goes out if an enabled cause is set (R423, R424). -/
def irqEnableWriteNow (val : W32) (s : State) : Out :=
  if hostReach s then .next (setIrq s s.regs.irqCause (val &&& 0x7FFF) true) else .next s

/-- The write, in its turn (R299). -/
def execIrqEnableWrite (val : W32) (s : State) : Out := hostLane (.irqEnableWrite val) (irqEnableWriteNow val) s

/-- LINE_WFC_STATUS: writing 1 to VALID frees the latch (R318). -/
def wfcReleaseNow (val : W32) (s : State) : Out :=
  if hostReach s && val.getLsbD 0 then .next { s with wfc := { s.wfc with valid := false } } else .next s

/-- The write, in its turn (R299). -/
def execWfcRelease (val : W32) (s : State) : Out := hostLane (.wfcRelease val) (wfcReleaseNow val) s

/-- TIER_CHAFE_STAT: writing 1 to HALTED clears it, and dispatch restarts on the account's lines (R178). -/
def haltedClearNow (account : Acct) (val : W32) (s : State) : Out :=
  if hostReach s && val.getLsbD 25 then
    .next (noteAll { s with tiers := { s.tiers with
      acct := mapMod AcctSt.reset s.tiers.acct account.toNat (fun x => { x with halted := false }) } })
  else .next s

/-- The write, in its turn (R299). -/
def execHaltedClear (account : Acct) (val : W32) (s : State) : Out := hostLane (.haltedClear account val) (haltedClearNow account val) s

/-- SVN of the slot that booted. -/
def bootedSvn (s : State) : Nat := (s.boot.slots.getD s.boot.slot SlotInfo.reset).svn.toNat

/-- BOOT_SEC: writing 1 to SVN_COMMIT raises SVN_FLOOR to the booted slot's SVN, at most 63 (R380). Nothing is raised when
no slot booted. -/
def svnCommitNow (val : W32) (s : State) : Out :=
  if hostReach s && val.getLsbD 14 && s.boot.slot < 2 then
    .next { s with fuses := { s.fuses with svnFloor := BitVec.ofNat 6 (max s.fuses.svnFloor.toNat (min 63 (bootedSvn s))) } }
  else .next s

/-- The write, in its turn (R299). -/
def execSvnCommit (val : W32) (s : State) : Out := hostLane (.svnCommit val) (svnCommitNow val) s

/-- LNK_PEER: writing CLEAR returns a LOST or UNREACHABLE entry to UNKNOWN (R351). -/
def peerClearNow (device : BitVec 14) (val : W32) (s : State) : Out :=
  let p := peerGet s device.toNat
  if hostReach s && val.getLsbD 2 && (p.state = .lost || p.state = .unreachable) then
    .next (peerSet s device.toNat { p with state := .unknown })
  else .next s

/-- The write, in its turn (R299). -/
def execPeerClear (device : BitVec 14) (val : W32) (s : State) : Out := hostLane (.peerClear device val) (peerClearNow device val) s

/-- TIER_HT_NAME: a lookup starts; the entry and its TOUCH are readable 200 ns later (R151, R154). -/
def homeTableLookupNow (name : DevAddr) (s : State) : Out :=
  if hostReach s then
    let e := htGet s (blockNo name.toNat)
    .next { s with regs := { s.regs with htName := name, htEntry := htWord e, htTouch := e.touch, htAt := s.clk + 200 } }
  else .next s

/-- The write, in its turn (R299). -/
def execHomeTableLookup (name : DevAddr) (s : State) : Out := hostLane (.homeTableLookup name) (homeTableLookupNow name) s

/-! ### Command registers of 64 bits (R2) -/

/-- LINE_HITCH_ADD, LINE_CTRL and CFG_BELAY_CMD. -/
def woRegs : List Nat := [0x380818, 0x380820, 0x210]

/-- The command register that holds the word at `off`. -/
def woAt (off : Nat) : Option Nat := woRegs.find? (fun b => off = b || off = b + 4)

/-- The command that both halves spell (R278, R282, R387). ACTION 0b11, and MODE 0b11 of a BELAY, are ignored. -/
def woIssue (s : State) (b : Nat) (lo hi : W32) : Out :=
  if b = 0x380818 then execLineHitchAdd (lo.truncate 18) hi s
  else if b = 0x380820 then
    match bitsAt lo.toNat 17 16 with
    | 0 => execSuspend (.host (lo.truncate 16) hi) s
    | 1 => execResume (.host (lo.truncate 16) hi) s
    | 2 => execCancel (.host (lo.truncate 16) hi) s
    | _ => .next s
  else
    let src : BelaySrc := .host (BitVec.ofNat 18 (bitsAt lo.toNat 21 4)) hi
    match bitsAt lo.toNat 1 0, bitsAt lo.toNat 3 2 with
    | 0, 0 => execBelayImmediate src s
    | 0, 1 => execBelayAtBarrier src s
    | 0, 2 => execBelayForce src s
    | 1, _ => execBelayCheck src s
    | 2, _ => execRevert s
    | _, _ => .next s

/-- A 4-byte write of the lower half only latches it. -/
def woHalfLatchNow (off : BitVec 26) (val : W32) (s : State) : Out :=
  if hostReach s && woRegs.contains off.toNat then
    .next { s with regs := { s.regs with woLatch := mapUpd s.regs.woLatch off.toNat (some val) } }
  else .next s

/-- The write, in its turn (R299). -/
def execWoHalfLatch (off : BitVec 26) (val : W32) (s : State) : Out := hostLane (.woHalfLatch off val) (woHalfLatchNow off val) s

/-- A write that issues the command of a register: with the half latched, or zero, below its upper half. The latch then
clears. -/
def woCommand (s : State) (b : Nat) (lo hi : W32) : State :=
  let s1 := { s with regs := { s.regs with woLatch := mapUpd s.regs.woLatch b none } }
  after (woIssue s1 b lo hi) s1

/-- A write access to a 64-bit command register. -/
def woWrite (s : State) (b off size : Nat) (val : W64) : State :=
  if size = 8 then woCommand s b (val.truncate 32) ((val >>> 32).truncate 32)
  else if off = b then after (execWoHalfLatch (BitVec.ofNat 26 b) (val.truncate 32) s) s
  else woCommand s b ((mapFind s.regs.woLatch b).getD 0) (val.truncate 32)

/-! ### The other writable fields -/

/-- A family of words with RW, W1C, W1S or WO fields: word i lies at base + stride × i. `put` is the effect of writing it. -/
structure WrReg where
  base : Nat
  stride : Nat
  count : Nat
  put : Nat → W32 → State → State

/-- The word of the family at `off`. -/
def WrReg.holds (r : WrReg) (off : Nat) : Bool :=
  r.base ≤ off && (off - r.base) / r.stride < r.count && (off - r.base) % r.stride = 0

/-- LINE_CMD: CMD 1 is RESTART, 2 is BREAK; others are ignored. -/
def lineCmd (v : W32) (s : State) : State :=
  match bitsAt v.toNat 18 16 with
  | 1 => after (execRestart (v.truncate 16) s) s
  | 2 => after (execBreak (v.truncate 16) s) s
  | _ => s

/-- A half of TIER_HT_NAME written. -/
def htNameHalf (half : Nat) (v : W32) (s : State) : State :=
  let old := s.regs.htName.toNat
  let name := if half = 0 then old / 2 ^ 32 * 2 ^ 32 + v.toNat else old % 2 ^ 32 + v.toNat * 2 ^ 32
  after (execHomeTableLookup (BitVec.ofNat 48 name) s) s

/-- TIER_CHAFE_STAT: ABORT_PENDING and HALTED are W1C. -/
def chafeStatWrite (a : Nat) (v : W32) (s : State) : State :=
  let s1 := if v.getLsbD 24 then { s with tiers := { s.tiers with
    acct := mapMod AcctSt.reset s.tiers.acct a (fun x => { x with abortPending := false }) } } else s
  after (execHaltedClear (BitVec.ofNat 8 a) v s1) s1

/-- SENSOR_ERR of a stack is W1C. -/
def sensorErrWrite (st : Nat) (v : W32) (s : State) : State :=
  if v.getLsbD 13 then stackSet s st { stackGet s st with sensorErr := false } else s

/-- A word of the MSI-X table: address, data or mask. An unmask sends a pending message (R365). -/
def msixWrite (i : Nat) (v : W32) (s : State) : State :=
  let k := i / 4
  let put (f : MsixEntry → MsixEntry) : State :=
    { s with port := { s.port with msix := mapMod MsixEntry.reset s.port.msix k f } }
  match i % 4 with
  | 0 => put (fun e => { e with addr := BitVec.ofNat 64 (e.addr.toNat / 2 ^ 32 * 2 ^ 32 + v.toNat) })
  | 1 => put (fun e => { e with addr := BitVec.ofNat 64 (e.addr.toNat % 2 ^ 32 + v.toNat * 2 ^ 32) })
  | 2 => put (fun e => { e with data := v })
  | _ =>
    if v.getLsbD 0 then put (fun e => { e with mask := true })
    else if (mapGet MsixEntry.reset s.port.msix k).mask then after (execMsixUnmask (BitVec.ofNat 11 k) s) s
    else s

/-- PMU_ALW_OVF is W1C, in ALWAYS style. -/
def ovfWrite (i : Nat) (v : W32) (s : State) : State :=
  if s.boot.style = 0 then
    { s with pmu := { s.pmu with ovf := s.pmu.ovf.filter (fun c => !(c / 32 = i && v.getLsbD (c % 32))) } }
  else s

/-- Every writable word that is not a CW field and no command register. -/
def wrRegs : List WrReg := [
  { base := 0x108, stride := 4, count := 1, put := fun _ v s =>
      if v.getLsbD 3 then { s with tb := { s.tb with copyErr := false } } else s },
  { base := 0x218, stride := 4, count := 1, put := fun _ v s =>
      if v.getLsbD 2 then { s with belay := { s.belay with refused := false } } else s },
  { base := 0x310, stride := 4, count := 1, put := fun _ v s => after (execIrqCauseClear v s) s },
  { base := 0x314, stride := 4, count := 1, put := fun _ v s => after (execIrqEnableWrite v s) s },
  { base := 0x100018, stride := 4, count := 1, put := fun _ v s => after (execSvnCommit v s) s },
  { base := 0x100020, stride := 4, count := 1, put := fun _ v s => { s with boot := { s.boot with forceSafe := v.getLsbD 0 } } },
  { base := 0x100030, stride := 4, count := 1, put := fun _ v s => { s with regs := { s.regs with flashPage := v.truncate 11 } } },
  { base := 0x380810, stride := 4, count := 1, put := fun _ v s => { s with regs := { s.regs with hitchSel := v.truncate 18 } } },
  { base := 0x380830, stride := 4, count := 1, put := fun _ v s => { s with regs := { s.regs with lineSel := v.truncate 16 } } },
  { base := 0x380840, stride := 4, count := 1, put := fun _ v s => lineCmd v s },
  { base := 0x381804, stride := 4, count := 1, put := fun _ v s => after (execWfcRelease v s) s },
  { base := 0x602000, stride := 8, count := 256, put := fun a v s =>
      { s with pmu := { s.pmu with censusHead := mapSet 0 s.pmu.censusHead a (v.toNat % 2 ^ 20) } } },
  { base := 0x800004, stride := 8, count := 3, put := fun t v s =>
      if v.getLsbD 25 then poolSet s (tierOf t) { poolGet s (tierOf t) with evictBlocked := false } else s },
  { base := 0x806400, stride := 4, count := 256, put := chafeStatWrite },
  { base := 0x807000, stride := 4, count := 2, put := htNameHalf },
  { base := 0xA00000, stride := 8, count := 4, put := sensorErrWrite },
  { base := 0xB00000, stride := 8, count := 8, put := fun m => sensorErrWrite (4 + m) },
  { base := 0x1000008, stride := 4, count := 1, put := fun _ v s =>
      if v.getLsbD 0 then { s with net := { s.net with peerEvent := false } } else s },
  { base := 0x1020000, stride := 4, count := 16384, put := fun d v s => after (execPeerClear (BitVec.ofNat 14 d) v s) s },
  { base := 0x1410000, stride := 4, count := 8192, put := msixWrite },
  { base := 0x1600C00, stride := 4, count := 12, put := ovfWrite },
  { base := 0x1605000, stride := 4, count := 1, put := fun _ v s =>
      if v.getLsbD 0 then after (execNipRequest (BitVec.ofNat 5 (v.toNat / 2)) s) s else s },
  { base := 0x1605008, stride := 4, count := 1, put := fun _ v s =>
      { s with pmu := { s.pmu with nipDone := s.pmu.nipDone && !v.getLsbD 1, nipOverrun := s.pmu.nipOverrun && !v.getLsbD 2 } } },
  { base := 0x1607010, stride := 4, count := 1, put := fun _ v s => { s with pmu := { s.pmu with sampleHead := v.toNat % 2 ^ 20 } } }]

/-- The effect of a 4-byte write on the fields of `off` that are not CW; none where no such field lies (R3, R419). -/
def writeWord (s : State) (off : Nat) (v : W32) : State :=
  match wrRegs.find? (fun r => r.holds off) with
  | some r => r.put ((off - r.base) / r.stride) v s
  | none => s

/-! ### Accesses -/

/-- A write into the ACT view is ignored and counts in BAD_MMIO (R425). -/
def actViewWriteNow (off : BitVec 26) (size : Nat) (_val : W64) (s : State) : Out :=
  if !hostReach s then .next (unreached s)
  else if goodAccess off.toNat size && actBase ≤ off.toNat then .next (countBadMmio s) else .next s

/-- The write, in its turn (R299). -/
def execActViewWrite (off : BitVec 26) (size : Nat) (val : W64) (s : State) : Out := hostLane (.actViewWrite off size val) (actViewWriteNow off size val) s

/-- A read's answer of `size` bytes leaves for the host. -/
def regOut (s : State) (size : Nat) (v : W64) : State := portOut s (.reg size v)

/-- All ones. -/
def allOnes (size : Nat) : W64 := BitVec.ofNat 64 (2 ^ (8 * min size 8) - 1)

/-- A doorbell access that R266 serves: 4 bytes at byte 0x0 or 0x8 of a line's doorbell. -/
def goodDoorbell (off size : Nat) : Bool := size = 4 && off < 2 ^ 20 && (off % 16 = 0 || off % 16 = 8)

/-- A doorbell read: HEAD and STATE, or CQ_TAIL (R266). -/
def doorbellRead (s : State) (off : Nat) : W64 :=
  let n := off / 16
  BitVec.ofNat 64 (if off % 16 = 0 then at_ 0 20 (lineGet s n).head + at_ 20 3 (lineState s n) else at_ 0 20 (lineGet s n).cqTail)

/-- An access that its BAR does not accept: a write is dropped, a read answers all ones, BAD_MMIO counts (R361). A BAR2 read
that R266 serves is answered; it has no row of its own. -/
def execBadMmioAccess (bar : Bar) (write : Bool) (off : BitVec 26) (size : Nat) (s : State) : Out :=
  let o := off.toNat
  if !hostReach s then .next (unreached s)
  else
    match bar with
    | .bar0 =>
      if goodAccess o size then .next s
      else .next (countBadMmio (if write then s else regOut s size (allOnes size)))
    | .bar2 =>
      if goodDoorbell o size then .next (if write then s else regOut s size (doorbellRead s o))
      else .next (countBadMmio (if write then s else regOut s size (allOnes size)))

/-- The fields of a good BAR0 write below the ACT view. -/
def plainWrite (s : State) (off size : Nat) (val : W64) : State :=
  match woAt off with
  | some b => woWrite s b off size val
  | none =>
    let s1 := writeWord s off (val.truncate 32)
    if size = 8 then writeWord s1 (off + 4) ((val >>> 32).truncate 32) else s1

/-- A host write to BAR0. Fields with a row of their own act as that row; an 8-byte write over two 32-bit registers is two
4-byte writes, the lower first (R2). -/
def registerWriteNow (off : BitVec 26) (size : Nat) (val : W64) (s : State) : Out :=
  let o := off.toNat
  if !hostReach s then .next (unreached s)
  else if !goodAccess o size then execBadMmioAccess .bar0 true off size s
  else if actBase ≤ o then execActViewWrite off size val s
  else .next (plainWrite (after (execCoilStageWrite off size val s) s) o size val)

/-- The write, in its turn (R299). -/
def execRegisterWrite (off : BitVec 26) (size : Nat) (val : W64) (s : State) : Out := hostLane (.registerWrite off size val) (registerWriteNow off size val) s

/-- A 4-byte read of CFG_TB_NOW's lower half latches the upper half (R42). -/
def execTbNowLowerRead (s : State) : Out :=
  if hostReach s then
    .next (regOut { s with tb := { s.tb with latch := some ((s.tb.now >>> 32).truncate 32) } } 4 ((s.tb.now.truncate 32).zeroExtend 64))
  else .next (unreached s)

/-- A 4-byte read of its upper half: the latched half, or the live one where none is latched (R42). -/
def tbUpperRead (s : State) : State :=
  let v : W32 := s.tb.latch.getD ((s.tb.now >>> 32).truncate 32)
  regOut { s with tb := { s.tb with latch := none } } 4 (v.zeroExtend 64)

/-- What a good read of a register below the ACT view does: its value leaves, its RC fields clear. -/
def plainRead (s : State) (off size : Nat) : State :=
  let s1 := regOut s size (accessVal (regWord s) off size)
  let s2 := clearWord s1 off
  drawn (if size = 8 then clearWord s2 (off + 4) else s2)

/-- A host read of BAR0 (R4, R42, R361, R419, R425). A read of the ACT view has no side effect. -/
def execReadClear (off : BitVec 26) (size : Nat) (s : State) : Out :=
  let o := off.toNat
  if !hostReach s then .next (unreached s)
  else if !goodAccess o size then execBadMmioAccess .bar0 false off size s
  else if actBase ≤ o then .next (regOut s size (accessVal (fun k => cwWord s s.cfg.act k) (o - actBase) size))
  else if o = 0x100 && size = 4 then execTbNowLowerRead s
  else if o = 0x104 && size = 4 then .next (tbUpperRead s)
  else .next (plainRead s o size)

end Sys2Proof.Machine
end

