-- ==== Sys2Proof/Machine/Dispatch.lean ====
section
/-! DEFINITION. The meaning of each command: one arm per constructor of `Instr`, each one call of its meaning. -/

namespace Sys2Proof.Machine

open Sys2Proof

def exec (i : Instr) (s : State) : Host.Outcome State Fault Refusal :=
  match i with
  | .registerWrite off size val => Sys2Proof.Machine.execRegisterWrite off size val s
  | .coilStageWrite off size val => Sys2Proof.Machine.execCoilStageWrite off size val s
  | .readClear off size => Sys2Proof.Machine.execReadClear off size s
  | .woHalfLatch off val => Sys2Proof.Machine.execWoHalfLatch off val s
  | .tbNowLowerRead => Sys2Proof.Machine.execTbNowLowerRead s
  | .actViewWrite off size val => Sys2Proof.Machine.execActViewWrite off size val s
  | .badMmioAccess bar write off size => Sys2Proof.Machine.execBadMmioAccess bar write off size s
  | .homeTableLookup name => Sys2Proof.Machine.execHomeTableLookup name s
  | .irqCauseClear val => Sys2Proof.Machine.execIrqCauseClear val s
  | .irqEnableWrite val => Sys2Proof.Machine.execIrqEnableWrite val s
  | .wfcRelease val => Sys2Proof.Machine.execWfcRelease val s
  | .haltedClear account val => Sys2Proof.Machine.execHaltedClear account val s
  | .svnCommit val => Sys2Proof.Machine.execSvnCommit val s
  | .peerClear device val => Sys2Proof.Machine.execPeerClear device val s
  | .doorbellTailWrite line val => Sys2Proof.Machine.execDoorbellTailWrite line val s
  | .completionHeadWrite line val => Sys2Proof.Machine.execCompletionHeadWrite line val s
  | .lineHitchAdd hitch add => Sys2Proof.Machine.execLineHitchAdd hitch add s
  | .restart line => Sys2Proof.Machine.execRestart line s
  | .break line => Sys2Proof.Machine.execBreak line s
  | .nipRequest alignLog2 => Sys2Proof.Machine.execNipRequest alignLog2 s
  | .nipCapture => Sys2Proof.Machine.execNipCapture s
  | .hostBar4Read off len => Sys2Proof.Machine.execHostBar4Read off len s
  | .hostBar4Write off data => Sys2Proof.Machine.execHostBar4Write off data s
  | .cxlMemRead dpa => Sys2Proof.Machine.execCxlMemRead dpa s
  | .cxlMemWrite dpa data mask => Sys2Proof.Machine.execCxlMemWrite dpa data mask s
  | .msixUnmask vector => Sys2Proof.Machine.execMsixUnmask vector s
  | .flr => Sys2Proof.Machine.execFlr s
  | .flrComplete => Sys2Proof.Machine.execFlrComplete s
  | .hotReset => Sys2Proof.Machine.execHotReset s
  | .portLinkDown => Sys2Proof.Machine.execPortLinkDown s
  | .portLinkUp => Sys2Proof.Machine.execPortLinkUp s
  | .hostReadFail addr len why => Sys2Proof.Machine.execHostReadFail addr len why s
  | .cxlDecoderCommit commit => Sys2Proof.Machine.execCxlDecoderCommit commit s
  | .lineTake line => Sys2Proof.Machine.execLineTake line s
  | .brdMm line => Sys2Proof.Machine.execBrdMm line s
  | .vecOp line => Sys2Proof.Machine.execVecOp line s
  | .bgtFwd line => Sys2Proof.Machine.execBgtFwd line s
  | .bgtBwd line => Sys2Proof.Machine.execBgtBwd line s
  | .move line => Sys2Proof.Machine.execMove line s
  | .alloc line => Sys2Proof.Machine.execAlloc line s
  | .free line => Sys2Proof.Machine.execFree line s
  | .attr line => Sys2Proof.Machine.execAttr line s
  | .rowSeq line => Sys2Proof.Machine.execRowSeq line s
  | .splUpd line => Sys2Proof.Machine.execSplUpd line s
  | .splAcc line => Sys2Proof.Machine.execSplAcc line s
  | .snapshot line => Sys2Proof.Machine.execSnapshot line s
  | .allReduce line => Sys2Proof.Machine.execAllReduce line s
  | .reduceScatter line => Sys2Proof.Machine.execReduceScatter line s
  | .allGather line => Sys2Proof.Machine.execAllGather line s
  | .allToAll line => Sys2Proof.Machine.execAllToAll line s
  | .send line => Sys2Proof.Machine.execSend line s
  | .recv line => Sys2Proof.Machine.execRecv line s
  | .barrier line => Sys2Proof.Machine.execBarrier line s
  | .verdict line => Sys2Proof.Machine.execVerdict line s
  | .gather line => Sys2Proof.Machine.execGather line s
  | .broadcast line => Sys2Proof.Machine.execBroadcast line s
  | .stopper line => Sys2Proof.Machine.execStopper line s
  | .stopperWaitEnd line => Sys2Proof.Machine.execStopperWaitEnd line s
  | .hostFlushReadComplete line fail => Sys2Proof.Machine.execHostFlushReadComplete line fail s
  | .capstanFlushComplete line => Sys2Proof.Machine.execCapstanFlushComplete line s
  | .hitchWait line => Sys2Proof.Machine.execHitchWait line s
  | .hitchWaitSatisfied line => Sys2Proof.Machine.execHitchWaitSatisfied line s
  | .hitchTimeout line => Sys2Proof.Machine.execHitchTimeout line s
  | .hitchSig line => Sys2Proof.Machine.execHitchSig line s
  | .knot line => Sys2Proof.Machine.execKnot line s
  | .suspend src => Sys2Proof.Machine.execSuspend src s
  | .resume src => Sys2Proof.Machine.execResume src s
  | .cancel src => Sys2Proof.Machine.execCancel src s
  | .resumeTakesEffect line seq => Sys2Proof.Machine.execResumeTakesEffect line seq s
  | .loop line => Sys2Proof.Machine.execLoop line s
  | .belayImmediate src => Sys2Proof.Machine.execBelayImmediate src s
  | .belayAtBarrier src => Sys2Proof.Machine.execBelayAtBarrier src s
  | .belayForce src => Sys2Proof.Machine.execBelayForce src s
  | .belayCheck src => Sys2Proof.Machine.execBelayCheck src s
  | .revert => Sys2Proof.Machine.execRevert s
  | .belayBarrierReady => Sys2Proof.Machine.execBelayBarrierReady s
  | .belayEngineTake => Sys2Proof.Machine.execBelayEngineTake s
  | .belayDrainEnd => Sys2Proof.Machine.execBelayDrainEnd s
  | .belayDrainBudgetExpiry => Sys2Proof.Machine.execBelayDrainBudgetExpiry s
  | .belayPoint => Sys2Proof.Machine.execBelayPoint s
  | .quiesceBudgetExpiry => Sys2Proof.Machine.execQuiesceBudgetExpiry s
  | .operationRetire line seq => Sys2Proof.Machine.execOperationRetire line seq s
  | .operationFailure line seq => Sys2Proof.Machine.execOperationFailure line seq s
  | .safePointSuspend line seq => Sys2Proof.Machine.execSafePointSuspend line seq s
  | .requestAged line seq => Sys2Proof.Machine.execRequestAged line seq s
  | .sweepIssue strand => Sys2Proof.Machine.execSweepIssue strand s
  | .tileOpReady strand array found => Sys2Proof.Machine.execTileOpReady strand array found s
  | .firstWave strand array => Sys2Proof.Machine.execFirstWave strand array s
  | .lastWave strand array => Sys2Proof.Machine.execLastWave strand array s
  | .tileDrain strand array => Sys2Proof.Machine.execTileDrain strand array s
  | .tileOpRetire strand array => Sys2Proof.Machine.execTileOpRetire strand array s
  | .directReadFallback line seq => Sys2Proof.Machine.execDirectReadFallback line seq s
  | .vecGroup strand => Sys2Proof.Machine.execVecGroup strand s
  | .bgtTileIssue strand => Sys2Proof.Machine.execBgtTileIssue strand s
  | .pageWaitDeadline strand array => Sys2Proof.Machine.execPageWaitDeadline strand array s
  | .bightPrefetch line seq => Sys2Proof.Machine.execBightPrefetch line seq s
  | .blockMoveStart found => Sys2Proof.Machine.execBlockMoveStart found s
  | .blockMoveRetire name => Sys2Proof.Machine.execBlockMoveRetire name s
  | .frameRelease tier frame => Sys2Proof.Machine.execFrameRelease tier frame s
  | .allocFillDone name => Sys2Proof.Machine.execAllocFillDone name s
  | .eviction tier => Sys2Proof.Machine.execEviction tier s
  | .reserveRefill tier => Sys2Proof.Machine.execReserveRefill tier s
  | .demandMove line seq name => Sys2Proof.Machine.execDemandMove line seq name s
  | .landingMove line seq name => Sys2Proof.Machine.execLandingMove line seq name s
  | .landingMerge name => Sys2Proof.Machine.execLandingMerge name s
  | .splChunk chan => Sys2Proof.Machine.execSplChunk chan s
  | .fidRead strand account addr err => Sys2Proof.Machine.execFidRead strand account addr err s
  | .fidWrite strand account addr data mask => Sys2Proof.Machine.execFidWrite strand account addr data mask s
  | .fidAddI32 strand account addr data lanes => Sys2Proof.Machine.execFidAddI32 strand account addr data lanes s
  | .fidAddW32 strand account addr data lanes => Sys2Proof.Machine.execFidAddW32 strand account addr data lanes s
  | .fidMaxW32 strand account addr data lanes => Sys2Proof.Machine.execFidMaxW32 strand account addr data lanes s
  | .fidOr strand account addr data lanes => Sys2Proof.Machine.execFidOr strand account addr data lanes s
  | .atomStart chan bank => Sys2Proof.Machine.execAtomStart chan bank s
  | .atomEnd chan bank => Sys2Proof.Machine.execAtomEnd chan bank s
  | .parityRecompute chan bank => Sys2Proof.Machine.execParityRecompute chan bank s
  | .rowZero chan bank => Sys2Proof.Machine.execRowZero chan bank s
  | .rowOnes chan bank => Sys2Proof.Machine.execRowOnes chan bank s
  | .rowCopy chan bank => Sys2Proof.Machine.execRowCopy chan bank s
  | .rowNot chan bank => Sys2Proof.Machine.execRowNot chan bank s
  | .rowAnd chan bank => Sys2Proof.Machine.execRowAnd chan bank s
  | .rowOr chan bank => Sys2Proof.Machine.execRowOr chan bank s
  | .rowXor chan bank => Sys2Proof.Machine.execRowXor chan bank s
  | .maj3 chan bank => Sys2Proof.Machine.execMaj3 chan bank s
  | .mov e dst a => Sys2Proof.Machine.execMov e dst a s
  | .add e dst a b => Sys2Proof.Machine.execAdd e dst a b s
  | .sub e dst a b => Sys2Proof.Machine.execSub e dst a b s
  | .mul e dst a b => Sys2Proof.Machine.execMul e dst a b s
  | .fma e dst a b c => Sys2Proof.Machine.execFma e dst a b c s
  | .max e dst a b => Sys2Proof.Machine.execMax e dst a b s
  | .min e dst a b => Sys2Proof.Machine.execMin e dst a b s
  | .abs e dst a => Sys2Proof.Machine.execAbs e dst a s
  | .neg e dst a => Sys2Proof.Machine.execNeg e dst a s
  | .cmplt e dst a b => Sys2Proof.Machine.execCmplt e dst a b s
  | .cmpeq e dst a b => Sys2Proof.Machine.execCmpeq e dst a b s
  | .sel e dst a b c => Sys2Proof.Machine.execSel e dst a b c s
  | .exp2 e dst a => Sys2Proof.Machine.execExp2 e dst a s
  | .log2 e dst a => Sys2Proof.Machine.execLog2 e dst a s
  | .rcp e dst a => Sys2Proof.Machine.execRcp e dst a s
  | .div e dst a b => Sys2Proof.Machine.execDiv e dst a b s
  | .sqrt e dst a => Sys2Proof.Machine.execSqrt e dst a s
  | .rsqrt e dst a => Sys2Proof.Machine.execRsqrt e dst a s
  | .tanh e dst a => Sys2Proof.Machine.execTanh e dst a s
  | .erf e dst a => Sys2Proof.Machine.execErf e dst a s
  | .iadd strand dst a b => Sys2Proof.Machine.execIadd strand dst a b s
  | .isub strand dst a b => Sys2Proof.Machine.execIsub strand dst a b s
  | .imul strand dst a b => Sys2Proof.Machine.execImul strand dst a b s
  | .iand strand dst a b => Sys2Proof.Machine.execIand strand dst a b s
  | .ior strand dst a b => Sys2Proof.Machine.execIor strand dst a b s
  | .ixor strand dst a b => Sys2Proof.Machine.execIxor strand dst a b s
  | .ishl strand dst a b => Sys2Proof.Machine.execIshl strand dst a b s
  | .ishr strand dst a b => Sys2Proof.Machine.execIshr strand dst a b s
  | .cvtif strand dst a => Sys2Proof.Machine.execCvtif strand dst a s
  | .cvtfi strand dst a => Sys2Proof.Machine.execCvtfi strand dst a s
  | .ld chan dst str => Sys2Proof.Machine.execLd chan dst str s
  | .st chan a str => Sys2Proof.Machine.execSt chan a str s
  | .stsr chan dst a b c => Sys2Proof.Machine.execStsr chan dst a b c s
  | .repairTimeout name => Sys2Proof.Machine.execRepairTimeout name s
  | .scrubRead stack chan granule err => Sys2Proof.Machine.execScrubRead stack chan granule err s
  | .rawParityScrub slot chan bank group => Sys2Proof.Machine.execRawParityScrub slot chan bank group s
  | .refreshDue stack chan bank => Sys2Proof.Machine.execRefreshDue stack chan bank s
  | .refresh stack chan bank => Sys2Proof.Machine.execRefresh stack chan bank s
  | .stackTempReport stack temp => Sys2Proof.Machine.execStackTempReport stack temp s
  | .sensorTimeout stack => Sys2Proof.Machine.execSensorTimeout stack s
  | .slowHoldEnd => Sys2Proof.Machine.execSlowHoldEnd s
  | .governorSample watts tj => Sys2Proof.Machine.execGovernorSample watts tj s
  | .slowRaise => Sys2Proof.Machine.execSlowRaise s
  | .slowClear => Sys2Proof.Machine.execSlowClear s
  | .syncPeriod => Sys2Proof.Machine.execSyncPeriod s
  | .syncReq link f t2 t3 => Sys2Proof.Machine.execSyncReq link f t2 t3 s
  | .syncRsp link f t4 => Sys2Proof.Machine.execSyncRsp link f t4 s
  | .tbCopyReload => Sys2Proof.Machine.execTbCopyReload s
  | .refclkFail => Sys2Proof.Machine.execRefclkFail s
  | .linkTrainingAttempt link => Sys2Proof.Machine.execLinkTrainingAttempt link s
  | .hello link f => Sys2Proof.Machine.execHello link f s
  | .tugIdleTimer link => Sys2Proof.Machine.execTugIdleTimer link s
  | .tug link f => Sys2Proof.Machine.execTug link f s
  | .slip link f => Sys2Proof.Machine.execSlip link f s
  | .credit link f => Sys2Proof.Machine.execCredit link f s
  | .nak link f => Sys2Proof.Machine.execNak link f s
  | .replayTimeout link => Sys2Proof.Machine.execReplayTimeout link s
  | .linkSilenceTimeout link => Sys2Proof.Machine.execLinkSilenceTimeout link s
  | .lossOfSignal link => Sys2Proof.Machine.execLossOfSignal link s
  | .notice link f => Sys2Proof.Machine.execNotice link f s
  | .repairReq link f => Sys2Proof.Machine.execRepairReq link f s
  | .repairRsp link f => Sys2Proof.Machine.execRepairRsp link f s
  | .coll link f => Sys2Proof.Machine.execColl link f s
  | .collSignature link f => Sys2Proof.Machine.execCollSignature link f s
  | .collClear link f => Sys2Proof.Machine.execCollClear link f s
  | .collAbort link f => Sys2Proof.Machine.execCollAbort link f s
  | .collAck link f => Sys2Proof.Machine.execCollAck link f s
  | .collectiveTimeout line seq => Sys2Proof.Machine.execCollectiveTimeout line seq s
  | .put link f => Sys2Proof.Machine.execPut link f s
  | .putAck link f => Sys2Proof.Machine.execPutAck link f s
  | .flush link f => Sys2Proof.Machine.execFlush link f s
  | .flushAck link f => Sys2Proof.Machine.execFlushAck link f s
  | .wfcScan => Sys2Proof.Machine.execWfcScan s
  | .summaryPass => Sys2Proof.Machine.execSummaryPass s
  | .standbyPowerUp mv => Sys2Proof.Machine.execStandbyPowerUp mv s
  | .standbyPowerLoss mv => Sys2Proof.Machine.execStandbyPowerLoss mv s
  | .powerUp => Sys2Proof.Machine.execPowerUp s
  | .shutdown => Sys2Proof.Machine.execShutdown s
  | .inputFault mv => Sys2Proof.Machine.execInputFault mv s
  | .inputRecovery mv => Sys2Proof.Machine.execInputRecovery mv s
  | .perstNAssert => Sys2Proof.Machine.execPerstNAssert s
  | .warmReset => Sys2Proof.Machine.execWarmReset s
  | .bootStart modId => Sys2Proof.Machine.execBootStart modId s
  | .stackTrainingDone tier failedOnce failedTwice => Sys2Proof.Machine.execStackTrainingDone tier failedOnce failedTwice s
  | .linksPhaseEnd => Sys2Proof.Machine.execLinksPhaseEnd s
  | .thermalTrip source => Sys2Proof.Machine.execThermalTrip source s
  | .tripRelease cool => Sys2Proof.Machine.execTripRelease cool s
  | .mctpMessage body => Sys2Proof.Machine.execMctpMessage body s
  | .pldmFirmwareUpdate image => Sys2Proof.Machine.execPldmFirmwareUpdate image s
  | .pldmEventRead => Sys2Proof.Machine.execPldmEventRead s
  | .fecUncorrectableCodeword link => Sys2Proof.Machine.execFecUncorrectableCodeword link s
  | .linkTrainingEnd link ok => Sys2Proof.Machine.execLinkTrainingEnd link ok s
  | .snapshotBlockRead line seq block => Sys2Proof.Machine.execSnapshotBlockRead line seq block s

end Sys2Proof.Machine
end

