-- ==== Sys2Proof/Machine/Idle.lean ====
section
/-! DEFINITION. A step in which no command waits: a nanosecond passes (`tick`), requests that have become ready are stamped with
their ready instant (R306), answers to other devices that waited go out (R344, R355), and a request that waits at the port or at a
fid port is served (R189, R220, R299). -/

set_option Elab.async false

namespace Sys2Proof.Machine

open Sys2Proof

/-! ### Ready instants (R306) -/

/-- The request of an operation is ready from now, unless it was ready before. -/
def stampOp (s : State) (n : Nat) (o : OpEnt) : State :=
  match opFind s n o.seq with
  | some p => if p.readyAt.isNone then opSet s n { p with readyAt := some (tbNow s) } else s
  | none => s

/-- The heads that are ready at a strand's array arbiter and vector engine. -/
def stampStrand (s : State) (strand : Nat) : State :=
  let s1 := (arrayReqs s strand).foldl (fun t r =>
    match arrayHead t r.key with
    | some o => stampOp t r.key o
    | none => t) s
  (vecReqs s1 strand).foldl (fun t r =>
    match ((lineGet t r.key).ops.filter vecRuns).head? with
    | some o => stampOp t r.key o
    | none => t) s1

/-- The heads that are ready at the splicer of a channel. -/
def stampChan (s : State) (gc : Nat) : State :=
  (splReqs s gc).foldl (fun t r =>
    match ((lineGet t r.key).ops.filter (fun o => splRuns o && (nextChunk t r.key o gc).isSome)).head? with
    | some o =>
      if (mapFind o.splReady gc).isNone then opSet t r.key { o with splReady := mapUpd o.splReady gc (some (tbNow t)) } else t
    | none => t) s

/-- The block moves that are ready at the mover. -/
def stampMoves (s : State) : State :=
  ((candidates s).filter (fun c => startable s c && (frameFor s c).isSome)).foldl (fun t c =>
    match c.op with
    | some (n, q) =>
      (match opFind t n q with
      | some o => stampOp t n o
      | none => t)
    | none => { t with tiers := { t.tiers with moves := t.tiers.moves.map (fun m =>
        if !m.started && m.name = c.name && m.readyAt.isNone then { m with readyAt := some (tbNow t) } else m) } }) s

/-- Every request that has become ready at an arbiter keeps the instant (R306). A line's take keeps its own (`noteLine`). -/
def stampReady (s : State) : State :=
  let s1 := (List.range 4).foldl stampStrand s
  let s2 := if (allOps s1).any (fun p => splRuns p.2) then (List.range (nchan s1.fuses.variant)).foldl stampChan s1 else s1
  stampMoves s2

/-! ### Requests that wait -/

/-- A waiting request may be served: the first of the host's, or the first of a fid port to its granule (R189, R299). -/
def mayServe (s : State) (r : HeldReq) : Bool :=
  s.ingress.queue.find? (fun x => if r.host then x.host else !x.host && x.addr = r.addr) == some r

/-- A waiting request served, if nothing holds it any more: a command that would wait again stays where it is. -/
def serveOne (s : State) (r : HeldReq) : Option Out :=
  match exec r.cmd { s with ingress := { s.ingress with queue := [] } } with
  | .next t =>
    if t.ingress.queue.isEmpty then some (.next { t with ingress := { t.ingress with queue := s.ingress.queue.erase r } }) else none
  | o => some o

/-- The first request that can be served is served: at most one in a nanosecond (DESIGN CHOICE, log entry 137). -/
def serveHeld (s : State) : Out := ((s.ingress.queue.filter (mayServe s)).findSome? (serveOne s)).getD (.next s)

/-- A step in which no command waits. -/
def idle (s : State) : Out := serveHeld (answerOwed (settleTransit (stampReady (tick s))))

end Sys2Proof.Machine
end

