-- ==== Sys2Proof/Safety.lean ====
section
/-! DEFINITION. The terms in which claims are stated: the parts of the state, what a command leaves unchanged, the
canonical form of memory, and that a command answers a next state. -/

set_option Elab.async false

namespace Sys2Proof.Machine

open Sys2Proof

/-- The parts of the state, one for each field of `State`; and `link`, which is the state of the host's link within the port: up or
down, LINK_DOWNS and the FLR that runs. -/
inductive Part where
  | pending
  | free
  | clk
  | fuses
  | pins
  | power
  | boot
  | flash
  | tb
  | regs
  | port
  | link
  | ingress
  | belay
  | cfg
  | lines
  | hitches
  | lineArb
  | braidArb
  | vecArb
  | splArb
  | strands
  | mem
  | tiers
  | eng
  | refresh
  | stackSt
  | gov
  | net
  | wfc
  | pmu
deriving DecidableEq, Repr

/-- A part is the same in two states. -/
def Part.same : Part → State → State → Prop
  | .pending, s, t => t.pending = s.pending
  | .free, s, t => t.free = s.free
  | .clk, s, t => t.clk = s.clk
  | .fuses, s, t => t.fuses = s.fuses
  | .pins, s, t => t.pins = s.pins
  | .power, s, t => t.power = s.power
  | .boot, s, t => t.boot = s.boot
  | .flash, s, t => t.flash = s.flash
  | .tb, s, t => t.tb = s.tb
  | .regs, s, t => t.regs = s.regs
  | .port, s, t => t.port = s.port
  | .link, s, t => (t.port.linkUp, t.port.linkDowns, t.port.flrAt) = (s.port.linkUp, s.port.linkDowns, s.port.flrAt)
  | .ingress, s, t => t.ingress = s.ingress
  | .belay, s, t => t.belay = s.belay
  | .cfg, s, t => t.cfg = s.cfg
  | .lines, s, t => t.lines = s.lines
  | .hitches, s, t => t.hitches = s.hitches
  | .lineArb, s, t => t.lineArb = s.lineArb
  | .braidArb, s, t => t.braidArb = s.braidArb
  | .vecArb, s, t => t.vecArb = s.vecArb
  | .splArb, s, t => t.splArb = s.splArb
  | .strands, s, t => t.strands = s.strands
  | .mem, s, t => t.mem = s.mem
  | .tiers, s, t => t.tiers = s.tiers
  | .eng, s, t => t.eng = s.eng
  | .refresh, s, t => t.refresh = s.refresh
  | .stackSt, s, t => t.stackSt = s.stackSt
  | .gov, s, t => t.gov = s.gov
  | .net, s, t => t.net = s.net
  | .wfc, s, t => t.wfc = s.wfc
  | .pmu, s, t => t.pmu = s.pmu

/-- `t` differs from `s` in the parts of `ps` at most: every other field of the state is equal. -/
def OnlyIn (ps : List Part) (s t : State) : Prop := ∀ p : Part, p ∉ ps → p.same s t

/-- The command answers a next state, and what holds of that state. -/
def Answers (c : Instr) (s : State) (P : State → Prop) : Prop := ∃ t : State, exec c s = .next t ∧ P t

/-- Keys strictly rising: a list of addresses with no repeats, in order. -/
def rising (l : List Nat) : Bool := decide (l.Pairwise (· < ·))

/-- Memory is in its canonical form: every byte map lists strictly rising addresses and no byte that equals what an
unlisted address reads as; every set of marks lists strictly rising addresses; the read-ahead buffer holds 64 KiB at most
(R301). -/
def Mem.wf (m : Mem) : Bool :=
  mapWf 0 m.bytes && mapWf 0 m.host && mapWf 0 m.eye && decide (m.ahead.length ≤ 1024) && rising m.chafed && rising m.eyeChafed &&
    rising m.hostBad

/-- The stores of the module are in canonical form: memory, and the boot flash, whose absent bytes are erased. -/
def State.wf (s : State) : Bool := s.mem.wf && mapWf 0xFF s.flash

/-! ### The host's turn -/

/-- A host access of a register or of a doorbell takes effect now: the port is reachable and no earlier request of the host waits
(R299, R366, R367). -/
def hostTurn (s : State) : Bool := hostReach s && !hostWaits s

/-- A host access of memory reaches its channel now: the port is up and no earlier request of the host waits (R299). -/
def portTurn (s : State) : Bool := portReach s && !hostWaits s

/-- From `s`, the host request `c` waits behind the earlier ones, and nothing else has changed (R299). -/
def HostQueued (c : Instr) (s t : State) : Prop :=
  (∃ r : HeldReq, r.cmd = c ∧ r.host = true ∧ t.ingress.queue = s.ingress.queue ++ [r]) ∧ OnlyIn [.ingress] s t

/-! ### Bytes of memory -/

/-- From `s`, the bytes `bs` stand at the frame address `fa` and every other byte of memory reads as before. -/
structure Stored (s t : State) (fa : Nat) (bs : List Byte) : Prop where
  bytes : ∀ i : Nat, i < bs.length → rawByte t (fa + i) = bs.getD i 0
  others : ∀ a : Nat, ¬ (fa ≤ a ∧ a < fa + bs.length) → rawByte t a = rawByte s a

/-- Every byte of memory reads as before. -/
def SameBytes (s t : State) : Prop := ∀ a : Nat, rawByte t a = rawByte s a

/-- The n bytes at a frame address lie in kern or the mantle outside every RAW data slab, and no posted write covers any of
them: a write of them changes no parity row and stays. -/
def plainSpan (s : State) (fa n : Nat) : Bool :=
  fa + n ≤ hostFrames && (List.range n).all (fun i => (rawSlotOf s.cfg.act s.fuses.variant (fa + i)).isNone) &&
    s.mem.posted.all (fun p => fa + n ≤ p.addr || p.addr + p.bytes.length ≤ fa)

/-- The frame address at which the home table keeps a device address. -/
def frameAt (s : State) (a : Nat) : Nat := frameAddr (htGet s (blockNo a)) a

/-- The n bytes at a device address lie in one block that is HOME in kern and not in a landing merge, and no posted write covers
any of them: a write of them lands at `frameAddr` of the block's entry and stays. -/
def kernHome (s : State) (a n : Nat) : Bool :=
  regionOf s.fuses.variant a = .kern && (htGet s (blockNo a)).state = .home && (htGet s (blockNo a)).tier = .kern &&
    !s.tiers.merging.contains (blockNo a) && a % blockBytes + n ≤ blockBytes && frameAt s a + n ≤ mantleBase &&
    s.mem.posted.all (fun p => frameAt s a + n ≤ p.addr || p.addr + p.bytes.length ≤ frameAt s a)

/-- Spans of memory, each a first address and a length, share no byte. -/
def apart (l : List (Nat × Nat)) : Bool := decide (l.Pairwise (fun x y => x.1 + x.2 ≤ y.1 ∨ y.1 + y.2 ≤ x.1))

/-- Pieces of memory, each a device address and bytes, may be written for an account: every piece lies in one block of the
account that is HOME in kern, no posted write covers it, and no two pieces meet. -/
def canStore (s : State) (acct : Nat) (ws : List (Nat × List Byte)) : Bool :=
  ws.all (fun w => kernHome s w.1 w.2.length && (htGet s (blockNo w.1)).account == acct) &&
    apart (ws.map (fun w => (frameAt s w.1, w.2.length)))

/-- From `s`, every piece stands at the frame address that the home table gives it, and every other byte of memory reads as
before. -/
structure StoredAll (s t : State) (ws : List (Nat × List Byte)) : Prop where
  bytes : ∀ w ∈ ws, ∀ i : Nat, i < w.2.length → rawByte t (frameAt s w.1 + i) = w.2.getD i 0
  others : ∀ a : Nat, (∀ w ∈ ws, ¬ (frameAt s w.1 ≤ a ∧ a < frameAt s w.1 + w.2.length)) → rawByte t a = rawByte s a

/-- Every byte of the spans is a name in kern or the mantle, kept there outside every RAW data slab: a write of it changes no
parity row. -/
def spansPlain (s : State) (spans : List (Nat × Nat)) : Prop :=
  ∀ p ∈ spans, ∀ i : Nat, i < p.2 →
    (regionOf s.fuses.variant (p.1 + i) = .kern ∨ regionOf s.fuses.variant (p.1 + i) = .mantle) ∧
    frameAt s (p.1 + i) < hostFrames ∧ rawSlotOf s.cfg.act s.fuses.variant (frameAt s (p.1 + i)) = none

/-- Every byte of memory at which no span keeps a byte reads as before. -/
def OutsideSame (s t : State) (spans : List (Nat × Nat)) : Prop :=
  ∀ a : Nat, (∀ p ∈ spans, ∀ i : Nat, i < p.2 → frameAt s (p.1 + i) ≠ a) → rawByte t a = rawByte s a

/-- The n bytes at a frame address of `s` equal the bytes at another frame address of `t`. -/
def Copied (s t : State) (src dst n : Nat) : Prop := ∀ i : Nat, i < n → rawByte t (dst + i) = rawByte s (src + i)

/-- Every byte outside n bytes at a frame address reads as before. -/
def OutsideFrame (s t : State) (fa n : Nat) : Prop := ∀ a : Nat, ¬ (fa ≤ a ∧ a < fa + n) → rawByte t a = rawByte s a

/-! ### Moves -/

/-- From `s`, a move of block `b` to `dest` waits for the mover, charged to the block's account as an incoming frame; no
block's entry has changed. -/
structure MoveQueued (s t : State) (b : Nat) (origin : MoveOrigin) (dest : Tier) (cls deadline : Nat) : Prop where
  moves : t.tiers.moves = s.tiers.moves ++ [Move.mk b origin false dest (htGet s b).account cls deadline (tbNow s) none false 0 [] false false]
  charged : charge t (htGet s b).account dest = charge s (htGet s b).account dest + 1
  incoming : mapGet 0 t.tiers.movingIn (ct (htGet s b).account dest) = mapGet 0 s.tiers.movingIn (ct (htGet s b).account dest) + 1
  entries : ∀ x : Nat, htGet t x = htGet s x

/-! ### Tile-ops -/

/-- From `s`, strand `k` holds the tile-op `x` in place of the one with its line, operation, tile, phase and array; the rest
of the strand and every other strand are as before. -/
structure TileMoved (s t : State) (k : Nat) (x : TileOp) : Prop where
  strand : strandGet t k = { strandGet s k with tiles := (strandGet s k).tiles.map (fun y => if tileSame y x then x else y) }
  others : ∀ m : Nat, m ≠ k → strandGet t m = strandGet s m

/-! ### Frames on links -/

/-- From `s`, the link-local frame `f` has gone onto the wire of link `k`, with its CRC and the link's ACK; what the link sent
before stands before it. -/
def Emitted (s t : State) (k : Nat) (f : Frame) : Prop :=
  ∃ (sent : List Frame) (a : BitVec 16), (linkGet t k).wire = (linkGet s k).wire ++ sent ∧ sealFrame { f with ack := a } ∈ sent ∧
    (a = (linkGet s k).rxLast ∨ a = (linkGet t k).rxLast)

/-- From `s`, the sequenced frame `f` has gone to link `k`: it waits in the link's queue, or it has gone onto the wire with a
sequence number, an ACK and its CRC, and stands in the replay buffer. -/
def Routed (s t : State) (k : Nat) (f : Frame) : Prop :=
  f ∈ (linkGet t k).txQueue ∨
    ∃ (sent : List Frame) (n a : BitVec 16), (linkGet t k).wire = (linkGet s k).wire ++ sent ∧
      sealFrame { f with lseq := n, ack := a } ∈ sent ∧ sealFrame { f with lseq := n, ack := a } ∈ (linkGet t k).replay

/-- A frame that the module originates leaves on link `k`, the one UP link of its route that may carry it, as the frame `g`. -/
def leavesBy (s : State) (f : Frame) (k : Nat) (g : Frame) : Prop :=
  ∃ p : Nat, routeOf s f true = .out p g ∧ carriers s p g true = [k]

/-- A sequenced frame arrives on an UP link in order, with a good CRC, from a device that is not LOST, and is addressed to this
module. -/
def inOrder (s : State) (k : Nat) (f : Frame) : Bool :=
  linkUp s k && frameGood f && f.lseq == (linkGet s k).rxLast + 1 && (peerGet s f.src.toNat).state != .lost &&
    (routeEntry s.cfg.act f.dst.toNat).1 == 0xE

/-! ### The end of an operation -/

/-- The device address of the line's next completion record: CQ_BASE + 32 × CQ_TAIL (R273). -/
def recordAt (s : State) (n : Nat) : Nat := actF s flCqBase n * 4096 + 32 * (lineGet s n).cqTail

/-- The frame address of that record. -/
def recordFrame (s : State) (n : Nat) : Nat := frameAddr (htGet s (blockNo (recordAt s n))) (recordAt s n)

/-- The completion ring can be written at its next record: the record lies in a block that is HOME in kern and not in a landing
merge, and no posted write covers it. No FLR runs, during which no record is produced (R366), and no write of the account is held
for a MOVING block, which would let DONE_SIG signal only later (R279). -/
def recordOpen (s : State) (n : Nat) : Bool :=
  regionOf s.fuses.variant (recordAt s n) = .kern && (htGet s (blockNo (recordAt s n))).state = .home &&
    (htGet s (blockNo (recordAt s n))).tier = .kern && !s.tiers.merging.contains (blockNo (recordAt s n)) &&
    recordFrame s n + 32 ≤ mantleBase && (heldBlocks s (lineAcct s n)).isEmpty &&
    s.mem.posted.all (fun p => recordFrame s n + 32 ≤ p.addr || p.addr + p.bytes.length ≤ recordFrame s n) &&
    s.port.flrAt.isNone

/-- From `s`, the operation `seq` of line `n` with header `d` has ended with its final record of `status`, `flags`, `epoch`
and op-specific bytes `opb`: it has left the tracker, the record stands at CQ_TAIL, which advanced, DONE_SIG has signalled,
the line stops if the status says so, and nothing else of the lines, of the hitches or of memory changed (R273, R276, R279,
R283). -/
structure Finished (s t : State) (n seq status : Nat) (flags : Byte) (epoch : BitVec 16) (d : BitVec 512) (opb : List Byte) :
    Prop where
  gone : opFind t n seq = none
  others : ∀ q : Nat, q ≠ seq → opFind t n q = opFind s n q
  record : ∀ i : Nat, i < 32 → rawByte t (recordFrame s n + i) = (recordBytes seq status flags epoch s.tb.now opb).getD i 0
  memory : ∀ a : Nat, ¬ (recordFrame s n ≤ a ∧ a < recordFrame s n + 32) → rawByte t a = rawByte s a
  cqTail : (lineGet t n).cqTail = ((lineGet s n).cqTail + 1) % cqSize s n
  stopped : (lineGet t n).stopped = ((lineGet s n).stopped || stopsAfter s n status)
  fetch : (lineGet t n).fetch = (lineGet s n).fetch
  head : (lineGet t n).head = (lineGet s n).head
  tail : (lineGet t n).tail = (lineGet s n).tail
  cHead : (lineGet t n).cHead = (lineGet s n).cHead
  nextSeq : (lineGet t n).nextSeq = (lineGet s n).nextSeq
  loop : (lineGet t n).loop = (lineGet s n).loop
  lines : ∀ m : Nat, m ≠ n → lineGet t m = lineGet s m
  signal : ∀ h : Nat, (hitchGet t h).count = (hitchGet s h).count + (if dDoneSig d && h == dDoneHitch d then 1 else 0)

/-! ### The dispatch of an operation -/

/-- The line's undispatched operation is `o`, with opcode `opc`; nothing stops its dispatch and no cancel has reached it. -/
def dispatchable (s : State) (n : Nat) (o : OpEnt) (opc : Nat) : Bool :=
  undispatched s n == some o && opcodeOf o.desc = opc && mayDispatch s n && o.track != .cancelPending

/-- From `s`, an operation of line `n` has the entry `o`; every other operation, index and line is as before. -/
structure Entered (s t : State) (n : Nat) (o : OpEnt) : Prop where
  entry : opFind t n o.seq = some o
  others : ∀ q : Nat, q ≠ o.seq → opFind t n q = opFind s n q
  line : ∃ (seen since : Nat) (ready : Option Nat), lineGet t n = { lineGet s n with
    ops := (lineGet s n).ops.map (fun x => if x.seq = o.seq then o else x), seen := seen, since := since, takeReady := ready }
  lines : ∀ m : Nat, m ≠ n → lineGet t m = lineGet s m

end Sys2Proof.Machine
end

