-- ==== Sys2Proof/Certificates/Slice0/Obligations.lean ====
section
/-! DEFINITION. The statements for the provers, each from the spec's numbered rules. A statement says of one command, or of
several of one shape, that it answers a next state under conditions on the state and operands alone, what that state holds,
and what the command leaves unchanged. -/

set_option Elab.async false

open Sys2Proof Sys2Proof.Machine

/-! ### The machine: one step, its invariants, and what no command may change -/

/-- On a queue with a command in front, a step is exec of that command on the state with the queue's rest. On an empty queue a
step is the idle step, in which a nanosecond passes and at most one request that waits is served; that is the model's own
choice (log entries 2 and 137). (95_what_each_step_holds.md) -/
def Obligations.StepRunsFrontCommand : Prop :=
  (∀ (c : Instr) (rest : List Instr) (s : State), step { s with pending := c :: rest } = exec c { s with pending := rest }) ∧
  (∀ s : State, s.pending = [] → step s = idle s)

/-- For every command and every state, exec answers a next state, never a fault and never a refusal, in which the queue of
waiting commands and the model's clock are as before. (95_what_each_step_holds.md) -/
def Obligations.EveryCommandAnswers : Prop :=
  ∀ (c : Instr) (s : State), Answers c s (fun t => t.pending = s.pending ∧ t.clk = s.clk)

/-- From every state whose memory (byte maps, read-ahead buffer, host memory, eye buffers, chafe marks) and boot flash are in
canonical form, a step leads to a state in which they still are: addresses strictly rise, no entry equals what an absent
address reads as, and the read-ahead buffer holds 64 KiB at most. It holds for every command and for the idle step. (R2,
07_tiers_and_homes.md, 16_boot_and_configuration.md) -/
def Obligations.EveryStepKeepsStoresCanonical : Prop :=
  ∀ s t : State, s.wf = true → step s = .next t → t.wf = true

/-- The state after reset has its stores in canonical form and an empty queue. No line has an operation in flight, a loop or a
stop, its indices and sequence counter are zero, and every hitch counts zero. (R277, R287, R432) -/
def Obligations.ResetIsCanonical : Prop :=
  State.reset.wf = true ∧ State.reset.pending = [] ∧
  (∀ n : Nat, (lineGet State.reset n).ops = [] ∧ (lineGet State.reset n).loop = none ∧ (lineGet State.reset n).stopped = false ∧
    (lineGet State.reset n).fetch = 0 ∧ (lineGet State.reset n).head = 0 ∧ (lineGet State.reset n).tail = 0 ∧
    (lineGet State.reset n).nextSeq = 0) ∧
  (∀ h : Nat, (hitchGet State.reset h).count = 0)

/-- In every state the word that a read of CFG_CAP returns has its SPL bit set when its ROWL bit is. From every state, every
step (every command: resets, PERST_N, FLR and belays among them; and the tick) leaves what CFG_CAP reads as it was. (R21) -/
def Obligations.CapabilityWordNeverChanges : Prop :=
  (∀ s : State, (regWord s 0x10).getLsbD 0 = true → (regWord s 0x10).getLsbD 1 = true) ∧
  (∀ s t : State, step s = .next t → regWord t 0x10 = regWord s 0x10)

/-- Every step leaves the part, the serial number, the key slots' fuses and the key hashes as they were, and never lowers
SVN_FLOOR. A command that is neither SVN COMMIT nor a host register write leaves every fuse as it was. (R380, R420, R21) -/
def Obligations.FusesOnlyGainSvn : Prop :=
  (∀ s t : State, step s = .next t →
    t.fuses.variant = s.fuses.variant ∧ t.fuses.serial = s.fuses.serial ∧ t.fuses.keyValid = s.fuses.keyValid ∧
    t.fuses.keyRevoked = s.fuses.keyRevoked ∧ t.fuses.keyHash = s.fuses.keyHash ∧
    s.fuses.svnFloor.toNat ≤ t.fuses.svnFloor.toNat) ∧
  (∀ (c : Instr) (s t : State), (match c with
    | .svnCommit _ => false
    | .registerWrite _ _ _ => false
    | _ => true) = true → exec c s = .next t → t.fuses = s.fuses)

/-- A command other than one of the three belay steps that reach the belay point, a boot or training event, or an event that
resets the module leaves every active CW word as it was. Host writes, whatever they stage, are among the commands that leave
the active words alone. (R5, R386, R378, R432, R435) -/
def Obligations.OnlyBelayAndBootApplyCoil : Prop :=
  ∀ (c : Instr) (s t : State), (match c with
    | .belayBarrierReady => false
    | .belayEngineTake => false
    | .belayPoint => false
    | .bootStart _ => false
    | .stackTrainingDone _ _ _ => false
    | .stackTempReport _ _ => false
    | .thermalTrip _ => false
    | .standbyPowerLoss _ => false
    | .shutdown => false
    | .inputFault _ => false
    | .warmReset => false
    | _ => true) = true → exec c s = .next t → t.cfg.act = s.cfg.act

/-- A command other than a firmware update by PLDM, a boot or training event, the end of the LINKS phase, or an event that
resets the module or ends its power leaves every byte of the boot flash as it was. (R384, R432, R435, R436, R437) -/
def Obligations.OnlyBootAndUpdateWriteFlash : Prop :=
  ∀ (c : Instr) (s t : State), (match c with
    | .pldmFirmwareUpdate _ => false
    | .bootStart _ => false
    | .stackTrainingDone _ _ _ => false
    | .linksPhaseEnd => false
    | .stackTempReport _ _ => false
    | .thermalTrip _ => false
    | .standbyPowerLoss _ => false
    | .shutdown => false
    | .inputFault _ => false
    | .warmReset => false
    | _ => true) = true → exec c s = .next t → t.flash = s.flash

/-! ### Host register accesses -/

/-- A write of CFG_IRQ_CAUSE clears the bits written as 1 and leaves CFG_IRQ_EN; a write of CFG_IRQ_EN sets its bits 0 to 14 and
leaves the causes. When CAUSE AND EN is then nonzero, one message leaves on CAUSE_VEC if that vector is not masked; when it
is zero, nothing leaves. No other part of the state than these registers, the port and the PMU changes. These commands act
in the host's turn, when the port is reachable and no earlier request of the host waits. A lookup leaves the name, the entry
of its home block in the layout of TIER_HT_ENTRY and its TOUCH in the lookup registers, readable from 200 ns on. A nip
request with ALIGN_LOG2 0 or 10 to 30, while no nip is scheduled, schedules the first instant at or after the timebase plus
1000 ns that is a multiple of 2^ALIGN_LOG2; while one is scheduled it sets OVERRUN only. A scheduled nip whose instant has
come sets DONE, writes the instant to NIP_TIME, shows in the shadow the copies taken when the timebase reached it, or, where
none stand, copies of now with the two TAILs in entries 384 and 385, and raises the nip cause. (R151, R154, R407, R423,
R424) -/
def Obligations.InterruptLookupAndNip : Prop :=
  (
    ∀ (val : W32) (s : State), hostTurn s = true →
      Answers (.irqCauseClear val) s (fun t =>
        t.regs = { s.regs with irqCause := s.regs.irqCause &&& ~~~ val } ∧
        ((s.regs.irqCause &&& ~~~ val) &&& s.regs.irqEn = 0 → t.port = s.port) ∧
        ((s.regs.irqCause &&& ~~~ val) &&& s.regs.irqEn ≠ 0 →
          (mapGet MsixEntry.reset s.port.msix (actF s flCauseVec 0)).mask = false →
          t.port.out = s.port.out ++ [.msix (actF s flCauseVec 0)]) ∧
        OnlyIn [.regs, .port, .pmu] s t) ∧
      Answers (.irqEnableWrite val) s (fun t =>
        t.regs = { s.regs with irqEn := val &&& 0x7FFF } ∧
        (s.regs.irqCause &&& (val &&& 0x7FFF) = 0 → t.port = s.port) ∧
        (s.regs.irqCause &&& (val &&& 0x7FFF) ≠ 0 →
          (mapGet MsixEntry.reset s.port.msix (actF s flCauseVec 0)).mask = false →
          t.port.out = s.port.out ++ [.msix (actF s flCauseVec 0)]) ∧
        OnlyIn [.regs, .port, .pmu] s t)) ∧
  (
    ∀ s : State,
      (∀ name : DevAddr, hostTurn s = true → Answers (.homeTableLookup name) s (fun t =>
        t.regs = { s.regs with
          htName := name, htEntry := htWord (htGet s (blockNo name.toNat)), htTouch := (htGet s (blockNo name.toNat)).touch,
          htAt := s.clk + 200 } ∧ OnlyIn [.regs] s t)) ∧
      (∀ a : BitVec 5, hostTurn s = true → nipAvail s = true → (a.toNat = 0 ∨ (10 ≤ a.toNat ∧ a.toNat ≤ 30)) →
        (s.pmu.nipAt = none → Answers (.nipRequest a) s (fun t =>
          (∃ T : Nat, t.pmu = { s.pmu with nipAt := some T } ∧ s.tb.now.toNat + 1000 ≤ T ∧ T % 2 ^ a.toNat = 0 ∧
            (∀ x : Nat, s.tb.now.toNat + 1000 ≤ x → x % 2 ^ a.toNat = 0 → T ≤ x)) ∧ OnlyIn [.pmu] s t)) ∧
        (s.pmu.nipAt ≠ none → Answers (.nipRequest a) s (fun t =>
          t.pmu = { s.pmu with nipOverrun := true } ∧ OnlyIn [.pmu] s t))) ∧
      (∀ T : Nat, s.pmu.nipAt = some T → T ≤ s.tb.now.toNat → Answers .nipCapture s (fun t =>
        t.pmu.nipAt = none ∧ t.pmu.nipDone = true ∧ t.pmu.nipTime = BitVec.ofNat 64 T ∧
        (∀ h : SMap Nat, s.pmu.nipHeld = some h → t.pmu.shadow = h) ∧
        (s.pmu.nipHeld = none → mapGet 0 t.pmu.shadow 384 = s.pmu.knotTail ∧ mapGet 0 t.pmu.shadow 385 = s.pmu.sampleTail) ∧
        t.regs.irqCause = s.regs.irqCause ||| 0x400 ∧ OnlyIn [.free, .regs, .port, .pmu] s t)))

/-- On an enabled line, a write at byte 0x0 of the doorbell sets TAIL to bits 19:0 of the value modulo the ring size, and a
write at byte 0x8 sets CHEAD modulo the completion ring's size; the line's other indices, sequence counter, loop and
operations and every other line stay. On a disabled line both are ignored. This is in the host's turn, when no earlier
request of the host and no write to a moving or merging block waits; a write that comes while one waits joins the queue
behind it. A read at byte 0x0 of line n, at BAR2 offset 16 × n, answers HEAD in bits 19:0 and STATE in bits 22:20, a read at
byte 0x8 CQ_TAIL in bits 19:0, other bits zero. (R266) -/
def Obligations.DoorbellAccesses : Prop :=
  (∀ (line : LineNo) (val : W32) (s : State), hostTurn s = true → heldWrites s = false →
    (lineOn s line.toNat = true →
      Answers (.doorbellTailWrite line val) s (fun t =>
        (∃ seen since ready, lineGet t line.toNat = { lineGet s line.toNat with
          tail := val.toNat % 2 ^ 20 % ringSize s line.toNat, seen := seen, since := since, takeReady := ready }) ∧
        (∀ m : Nat, m ≠ line.toNat → lineGet t m = lineGet s m) ∧ OnlyIn [.port, .lines, .pmu] s t) ∧
      Answers (.completionHeadWrite line val) s (fun t =>
        (∃ seen since ready, lineGet t line.toNat = { lineGet s line.toNat with
          cHead := val.toNat % 2 ^ 20 % cqSize s line.toNat, seen := seen, since := since, takeReady := ready }) ∧
        (∀ m : Nat, m ≠ line.toNat → lineGet t m = lineGet s m) ∧ OnlyIn [.port, .lines, .pmu] s t)) ∧
    (lineOn s line.toNat = false →
      exec (.doorbellTailWrite line val) s = .next s ∧ exec (.completionHeadWrite line val) s = .next s)) ∧
  (∀ (line : LineNo) (val : W32) (s : State),
    (hostWaits s = true ∨ heldWrites s = true → Answers (.doorbellTailWrite line val) s (HostQueued (.doorbellTailWrite line val) s)) ∧
    (hostWaits s = true → Answers (.completionHeadWrite line val) s (HostQueued (.completionHeadWrite line val) s))) ∧
  (∀ (line : LineNo) (s : State), hostReach s = true →
    Answers (.badMmioAccess .bar2 false (BitVec.ofNat 26 (16 * line.toNat)) 4) s (fun t =>
      t.port = { s.port with out := s.port.out ++ [.reg 4 (BitVec.ofNat 64
        ((lineGet s line.toNat).head % 2 ^ 20 + lineState s line.toNat % 8 * 2 ^ 20))] } ∧ OnlyIn [.port] s t) ∧
    Answers (.badMmioAccess .bar2 false (BitVec.ofNat 26 (16 * line.toNat + 8)) 4) s (fun t =>
      t.port = { s.port with out := s.port.out ++ [.reg 4 (BitVec.ofNat 64 ((lineGet s line.toNat).cqTail % 2 ^ 20))] } ∧
      OnlyIn [.port] s t))

/-- In the host's turn: LINE_HITCH_ADD, once no write to a moving or merging block waits, adds to one hitch's count modulo 2^32
and touches no other hitch. RESTART on a STOPPED line clears the stop and keeps FETCH and every other index; on a line in
another state it changes nothing. BREAK marks the active loop, whose slot, distance and LEFT stay, and changes nothing on a
line without a loop. Writing 1 to VALID of LINE_WFC_STATUS frees the latch and keeps its contents. Writing 1 to HALTED
clears HALTED of that account and no other. Writing 1 to CLEAR returns a LOST or UNREACHABLE peer entry to UNKNOWN and
leaves every other entry. Writing 1 to SVN_COMMIT after a slot booted raises SVN_FLOOR to that slot's SVN, at most 63, and
never lowers it. (R178, R276, R278, R280, R281, R318, R351, R380) -/
def Obligations.HostCommandRegisters : Prop :=
  (
    ∀ s : State, hostTurn s = true →
      (∀ (hitch : HitchNo) (add : W32), heldWrites s = false → Answers (.lineHitchAdd hitch add) s (fun t =>
        (hitchGet t hitch.toNat).count = (hitchGet s hitch.toNat).count + add ∧
        (∀ h : Nat, h ≠ hitch.toNat → hitchGet t h = hitchGet s h) ∧ OnlyIn [.hitches] s t)) ∧
      (∀ line : LineNo, lineState s line.toNat = 3 → Answers (.restart line) s (fun t =>
        (∃ seen since ready, lineGet t line.toNat = { lineGet s line.toNat with
          stopped := false, seen := seen, since := since, takeReady := ready }) ∧
        (∀ m : Nat, m ≠ line.toNat → lineGet t m = lineGet s m) ∧ OnlyIn [.port, .lines, .pmu] s t)) ∧
      (∀ line : LineNo, lineState s line.toNat ≠ 3 → exec (.restart line) s = .next s) ∧
      (∀ (line : LineNo) (lp : LoopSt), (lineGet s line.toNat).loop = some lp → Answers (.break line) s (fun t =>
        lineGet t line.toNat = { lineGet s line.toNat with loop := some { lp with breakPending := true } } ∧
        (∀ m : Nat, m ≠ line.toNat → lineGet t m = lineGet s m) ∧ OnlyIn [.lines] s t)) ∧
      (∀ line : LineNo, (lineGet s line.toNat).loop = none → exec (.break line) s = .next s)) ∧
  (
    ∀ (val : W32) (s : State), hostTurn s = true →
      (val.getLsbD 0 = true → Answers (.wfcRelease val) s (fun t => t.wfc = { s.wfc with valid := false } ∧ OnlyIn [.wfc] s t)) ∧
      (∀ account : Acct, val.getLsbD 25 = true → Answers (.haltedClear account val) s (fun t =>
        mapGet AcctSt.reset t.tiers.acct account.toNat =
          { mapGet AcctSt.reset s.tiers.acct account.toNat with halted := false } ∧
        (∀ a : Nat, a ≠ account.toNat → mapGet AcctSt.reset t.tiers.acct a = mapGet AcctSt.reset s.tiers.acct a) ∧
        OnlyIn [.port, .lines, .tiers, .pmu] s t)) ∧
      (∀ device : BitVec 14, val.getLsbD 2 = true → peerGone s device.toNat = true → Answers (.peerClear device val) s (fun t =>
        peerGet t device.toNat = { peerGet s device.toNat with state := .unknown } ∧
        (∀ d : Nat, d ≠ device.toNat → peerGet t d = peerGet s d) ∧ OnlyIn [.net] s t)) ∧
      (val.getLsbD 14 = true → s.boot.slot < 2 → Answers (.svnCommit val) s (fun t =>
        t.fuses.svnFloor.toNat = max s.fuses.svnFloor.toNat (min 63 (s.boot.slots.getD s.boot.slot SlotInfo.reset).svn.toNat) ∧
        OnlyIn [.fuses] s t)))

/-- In the host's turn: an aligned write of 4 or 8 bytes below the ACT view stages, in each word it covers, exactly that word's
CW bits; every other word of the coil and every active word stays, and WRITES counts at most once a word. The same write as
REGISTER WRITE, at an offset with no command register and no other writable field, does the same. A 4-byte write of the
lower half of LINE_HITCH_ADD, LINE_CTRL or CFG_BELAY_CMD only latches the half. A write of BOOT_FLASH_PAGE sets the page.
(R2, R3, R5, R386, R427) -/
def Obligations.HostWritesStage : Prop :=
  ∀ (off : BitVec 26) (size : Nat) (val : W64) (s : State), hostTurn s = true →
    (goodAccess off.toNat size = true → off.toNat < actBase → Answers (.coilStageWrite off size val) s (fun t =>
      (∀ o : Nat, cwGet t.cfg.coil o =
        if o = off.toNat then (cwGet s.cfg.coil o &&& ~~~ stageMask s o) ||| (val.truncate 32 &&& stageMask s o)
        else if size = 8 ∧ o = off.toNat + 4 then
          (cwGet s.cfg.coil o &&& ~~~ stageMask s o) ||| ((val >>> 32).truncate 32 &&& stageMask s o)
        else cwGet s.cfg.coil o) ∧
      t.cfg.act = s.cfg.act ∧ t.cfg.writes ≤ s.cfg.writes + size / 4 ∧ OnlyIn [.cfg] s t)) ∧
    (goodAccess off.toNat size = true → off.toNat < actBase → woAt off.toNat = none →
      wrRegs.find? (fun r => r.holds off.toNat) = none → wrRegs.find? (fun r => r.holds (off.toNat + 4)) = none →
      exec (.registerWrite off size val) s = exec (.coilStageWrite off size val) s) ∧
    (woRegs.contains off.toNat = true → Answers (.woHalfLatch off (val.truncate 32)) s (fun t =>
      mapFind t.regs.woLatch off.toNat = some (val.truncate 32) ∧
      (∀ o : Nat, o ≠ off.toNat → mapFind t.regs.woLatch o = mapFind s.regs.woLatch o) ∧ OnlyIn [.regs] s t)) ∧
    Answers (.registerWrite 0x100030 4 val) s (fun t =>
      t.regs = { s.regs with flashPage := val.truncate 11 } ∧ t.cfg.coil = s.cfg.coil ∧ t.cfg.act = s.cfg.act)

/-- A good read of an ordinary register answers the value of its words; a read of the ACT view answers the active CW bits and
changes nothing else. A 4-byte read of CFG_TB_NOW's lower half answers it and latches the upper half. A write into the ACT
view is ignored and counts in BAD_MMIO. An access that is misaligned or neither 4 nor 8 bytes is dropped when it writes,
answers all ones when it reads, and counts in BAD_MMIO. (R2, R4, R42, R361, R425) -/
def Obligations.HostReads : Prop :=
  ∀ (off : BitVec 26) (size : Nat) (val : W64) (s : State), hostReach s = true →
    (goodAccess off.toNat size = true → off.toNat < actBase → (off ≠ 0x100 ∧ off ≠ 0x104 ∨ size = 8) →
      Answers (.readClear off size) s (fun t =>
        t.port.out = s.port.out ++ [.reg size (accessVal (regWord s) off.toNat size)] ∧
        OnlyIn [.free, .port, .tiers, .eng, .stackSt, .net, .wfc, .pmu] s t)) ∧
    (goodAccess off.toNat size = true → actBase ≤ off.toNat → Answers (.readClear off size) s (fun t =>
      t.port = { s.port with out := s.port.out ++
        [.reg size (accessVal (fun k => cwWord s s.cfg.act k) (off.toNat - actBase) size)] } ∧ OnlyIn [.port] s t)) ∧
    Answers .tbNowLowerRead s (fun t =>
      t.port = { s.port with out := s.port.out ++ [.reg 4 ((s.tb.now.truncate 32).zeroExtend 64)] } ∧
      t.tb = { s.tb with latch := some ((s.tb.now >>> 32).truncate 32) } ∧ OnlyIn [.tb, .port] s t) ∧
    (goodAccess off.toNat size = true → actBase ≤ off.toNat → hostWaits s = false → Answers (.actViewWrite off size val) s (fun t =>
      t.port = { s.port with badMmio := min 255 (s.port.badMmio + 1) } ∧ OnlyIn [.port] s t)) ∧
    (goodAccess off.toNat size = false →
      Answers (.badMmioAccess .bar0 true off size) s (fun t =>
        t.port = { s.port with badMmio := min 255 (s.port.badMmio + 1) } ∧ OnlyIn [.port] s t) ∧
      Answers (.badMmioAccess .bar0 false off size) s (fun t =>
        t.port = { s.port with badMmio := min 255 (s.port.badMmio + 1), out := s.port.out ++ [.reg size (allOnes size)] } ∧
        OnlyIn [.port] s t))

/-! ### The host port -/

/-- In the host's turn, a read that no UR meets and nothing holds answers one completion for each 64 B line that it touches,
whatever errors it meets. One within one line of a bound block, when it meets no error, no posted write is outstanding and
the read-ahead buffer holds nothing, answers the bytes of the block's frame, 0xFF in a chafed granule, poisoned when a
granule of it is chafed, and changes no byte and no mark of memory. A read that touches an unused range or an absent stack
answers Unsupported Request and counts in UNPOP. During an FLR it answers Unsupported Request and counts nothing. A write
within one bound block that is neither MOVING, merging nor DERIVED and is kept in kern or the mantle outside the RAW slabs,
when nothing holds the access and no posted write covers it, stores its bytes at the frame that the home table gives and
leaves every other byte of memory. The same write to a DERIVED block stores nothing. A write that touches an unused range
stores nothing and counts in UNPOP, and one during an FLR stores nothing; both answer Unsupported Request. An access that
comes while an earlier request of the host waits joins the queue behind it. (R153, R155, R290, R299, R362, R363, R366) -/
def Obligations.Bar4Accesses : Prop :=
  (
    ∀ (off : BitVec 41) (len : Nat) (found : List Found) (fa : Nat) (s : State), portTurn s = true → 0 < len →
      (s.port.flrAt = none → bar4Unpop s off.toNat len = false → tierLost s (bar4Addr off.toNat) = false →
        hostHeld s (bar4Addr off.toNat) len false = false →
        Answers (.hostBar4Read off ⟨len, found⟩) s (fun t => ∃ (ds more : List HostMsg),
          ds.length = (bar4Addr off.toNat + len - 1) / 64 + 1 - bar4Addr off.toNat / 64 ∧
          (∀ m ∈ ds, ∃ (bs : List Byte) (p : Bool), m = .data bs p) ∧ (∀ m ∈ more, ∃ v : Nat, m = .msix v) ∧
          t.port.out = (foundMem s [(bar4Addr off.toNat, len)] found).port.out ++ ds ++ more)) ∧
      (s.port.flrAt = none → bar4Unpop s off.toNat len = false → tierLost s off.toNat = false → off.toNat < 2 ^ 40 →
        hostHeld s off.toNat len false = false → off.toNat % 64 + len ≤ 64 →
        locate s none off.toNat = some fa → s.mem.posted = [] → s.mem.ahead = [] →
        Answers (.hostBar4Read off ⟨len, []⟩) s (fun t =>
          (∃ more : List HostMsg, (∀ m ∈ more, ∃ v : Nat, m = .msix v) ∧ t.port.out = s.port.out ++ [.data
            ((List.range len).map (fun i => if granChafed s (fa + i) then 0xFF else rawByte s (fa + i)))
            ((List.range len).any (fun i => granChafed s (fa + i)))] ++ more) ∧
          SameBytes s t ∧ t.mem.chafed = s.mem.chafed ∧ OnlyIn [.free, .regs, .port, .mem, .tiers, .pmu] s t)) ∧
      (s.port.flrAt = none → bar4Unpop s off.toNat len = true → Answers (.hostBar4Read off ⟨len, found⟩) s (fun t =>
        t.port = { s.port with unpop := min 65535 (s.port.unpop + 1), out := s.port.out ++ [.ur] } ∧ OnlyIn [.port] s t)) ∧
      (s.port.flrAt ≠ none → Answers (.hostBar4Read off ⟨len, found⟩) s (fun t =>
        t.port = { s.port with out := s.port.out ++ [.ur] } ∧ OnlyIn [.port] s t))) ∧
  (
    ∀ (off : BitVec 41) (data : List Byte) (fa : Nat) (s : State), portTurn s = true → data ≠ [] →
      (s.port.flrAt = none → bar4Unpop s off.toNat data.length = false → tierLost s off.toNat = false → off.toNat < 2 ^ 40 →
        hostHeld s off.toNat data.length true = false → off.toNat % blockBytes + data.length ≤ blockBytes →
        locate s none off.toNat = some fa → (htGet s (blockNo off.toNat)).state ≠ .moving →
        s.tiers.merging.contains (blockNo off.toNat) = false →
        ((htGet s (blockNo off.toNat)).derived = false → plainSpan s fa data.length = true →
          Answers (.hostBar4Write off data) s (fun t => Stored s t fa data ∧ OnlyIn [.free, .regs, .port, .mem, .tiers, .pmu] s t)) ∧
        ((htGet s (blockNo off.toNat)).derived = true →
          Answers (.hostBar4Write off data) s (fun t => t.mem = s.mem ∧ OnlyIn [.free, .regs, .port, .tiers, .pmu] s t))) ∧
      (s.port.flrAt = none → bar4Unpop s off.toNat data.length = true → Answers (.hostBar4Write off data) s (fun t =>
        t.port = { s.port with unpop := min 65535 (s.port.unpop + 1), out := s.port.out ++ [.ur] } ∧ OnlyIn [.port] s t)) ∧
      (s.port.flrAt ≠ none → Answers (.hostBar4Write off data) s (fun t =>
        t.port = { s.port with out := s.port.out ++ [.ur] } ∧ OnlyIn [.port] s t))) ∧
  (
    ∀ (off : BitVec 41) (len : Nat) (found : List Found) (data : List Byte) (s : State), hostWaits s = true →
      Answers (.hostBar4Read off ⟨len, found⟩) s (HostQueued (.hostBar4Read off ⟨len, found⟩) s) ∧
      Answers (.hostBar4Write off data) s (HostQueued (.hostBar4Write off data) s))

/-- In the host's turn and with the export live, a read of an exported 64 B line that nothing holds answers one line, whatever
errors it meets. When it meets no error, no posted write is outstanding and the read-ahead buffer holds nothing, it answers
the line's 64 bytes unpoisoned when no granule of it is chafed, and a poisoned line otherwise; it changes no byte and no
mark of memory. A write of a full mask stores its 64 bytes, one of a partial mask only the bytes whose mask bit is set;
every other byte of memory stays. An address outside the export changes nothing. (R177, R299, R368, R369, R370) -/
def Obligations.CxlMemAccesses : Prop :=
  ∀ (dpa : BitVec 40) (data : List Byte) (mask : BitVec 64) (found : List Found) (a fa : Nat) (s : State), portTurn s = true →
    (cxlName s dpa.toNat = none →
      exec (.cxlMemRead ⟨dpa, found⟩) s = .next s ∧ exec (.cxlMemWrite dpa data mask) s = .next s) ∧
    (cxlName s dpa.toNat = some a → s.port.flrAt = none → hostHeld s a 64 false = false →
      Answers (.cxlMemRead ⟨dpa, found⟩) s (fun t => ∃ (bs : List Byte) (p : Bool) (more : List HostMsg),
        bs.length = 64 ∧ (∀ m ∈ more, ∃ v : Nat, m = .msix v) ∧
        t.port.out = (foundMem s [(a, 64)] found).port.out ++ [.data bs p] ++ more)) ∧
    (cxlName s dpa.toNat = some a → s.port.flrAt = none → locate s none a = some fa → fa % 64 = 0 →
      (hostHeld s a 64 false = false → s.mem.posted = [] → s.mem.ahead = [] →
        Answers (.cxlMemRead ⟨dpa, []⟩) s (fun t =>
          ((List.range 64).any (fun i => granChafed s (fa + i)) = false →
            ∃ more : List HostMsg, (∀ m ∈ more, ∃ v : Nat, m = .msix v) ∧
              t.port.out = s.port.out ++ [.data ((List.range 64).map (fun i => rawByte s (fa + i))) false] ++ more) ∧
          ((List.range 64).any (fun i => granChafed s (fa + i)) = true →
            ∃ (bs : List Byte) (more : List HostMsg), (∀ m ∈ more, ∃ v : Nat, m = .msix v) ∧
              t.port.out = s.port.out ++ [.data bs true] ++ more) ∧
          SameBytes s t ∧ t.mem.chafed = s.mem.chafed ∧ OnlyIn [.free, .regs, .port, .mem, .pmu] s t)) ∧
      (hostHeld s a 64 true = false → (htGet s (blockNo a)).state = .home → (htGet s (blockNo a)).derived = false →
        s.tiers.merging.contains (blockNo a) = false → plainSpan s fa 64 = true →
        Answers (.cxlMemWrite dpa data mask) s (fun t =>
          (∀ i : Nat, i < 64 → rawByte t (fa + i) = if mask.getLsbD i then data.getD i 0 else rawByte s (fa + i)) ∧
          (∀ x : Nat, ¬ (fa ≤ x ∧ x < fa + 64) → rawByte t x = rawByte s x) ∧
          OnlyIn [.free, .regs, .port, .mem, .tiers, .pmu] s t)))

/-- Unmasking a vector clears its mask and, when it is pending, sends one message and clears its pending bit; no other vector
changes. Under personality 2 the host's decoder commit sets the live bit as given. A failed device read of a host window
counts in HOST_ERR, raises its cause, and marks the 64 B lines it covered as failed where they are no host-tier block's. A
request at the front of the queue of those that wait is served, and leaves the queue, when nothing holds it any more; that
an idle step serves one is the model's own choice (log entry 137). (R299, R365, R369, R372, R424) -/
def Obligations.HostPortEvents : Prop :=
  ∀ s : State,
    (∀ vector : BitVec 11, portTurn s = true → s.port.flrAt = none → Answers (.msixUnmask vector) s (fun t =>
      (mapGet MsixEntry.reset t.port.msix vector.toNat).mask = false ∧
      (∀ v : Nat, v ≠ vector.toNat → mapGet MsixEntry.reset t.port.msix v = mapGet MsixEntry.reset s.port.msix v) ∧
      (s.port.pba.contains vector.toNat = true →
        t.port.out = s.port.out ++ [.msix vector.toNat] ∧ t.port.pba = setDel s.port.pba vector.toNat) ∧
      (s.port.pba.contains vector.toNat = false → t.port.out = s.port.out ∧ t.port.pba = s.port.pba) ∧
      OnlyIn [.port, .pmu] s t)) ∧
    (∀ commit : Bool, portReach s = true → s.port.flrAt = none → s.boot.personality = 2 →
      Answers (.cxlDecoderCommit commit) s (fun t => t.port = { s.port with cxlmLive := commit } ∧ OnlyIn [.port] s t)) ∧
    (∀ (addr : DevAddr) (len : Nat) (why : ReadFail), s.port.linkUp = true → hostBase ≤ addr.toNat → 0 < len →
      hostBlockAt s addr.toNat = none → Answers (.hostReadFail addr len why) s (fun t =>
        t.port.hostErr = min 4095 (s.port.hostErr + 1) ∧ t.regs.irqCause = s.regs.irqCause ||| 0x2000 ∧
        (∀ g : Nat, t.mem.hostBad.contains g = (s.mem.hostBad.contains g ||
          (addr.toNat / 64 ≤ g && g ≤ (addr.toNat + len - 1) / 64))) ∧
        SameBytes s t ∧ OnlyIn [.regs, .port, .mem, .pmu] s t)) ∧
    (∀ (r : HeldReq) (rest : List HeldReq) (t : State), s.ingress.queue = r :: rest →
      exec r.cmd { s with ingress := { s.ingress with queue := [] } } = .next t → t.ingress.queue = [] →
      serveHeld s = .next { t with ingress := { t.ingress with queue := rest } })

/-- With no collective in flight, an FLR records that it runs, turns every operation in flight to CANCEL_PENDING, abandons the
belay that holds the engine and every belay that waits; a hot reset does the same and the link goes down. Once every
cancelled operation has stopped, the end of the FLR empties the lines and the hitches, drains posted writes, zeroes the eye
buffers, sets the coil to the active state with WRITES at zero, and resets the host-written registers, the MSI-X table and
the pending bits; the active state stays. (R366, R367, R396, R6, R277, R287) -/
def Obligations.FunctionLevelReset : Prop :=
  ∀ s : State,
    (portReach s = true → s.port.flrAt = none → collOps s = [] →
      Answers .flr s (fun t => t.port.flrAt = some s.clk ∧ t.port.linkUp = true ∧
        t.belay.run = none ∧ t.belay.ready = [] ∧ t.belay.waiting = [] ∧ t.belay.hostBusy = false ∧
        (∀ (n q : Nat) (o : OpEnt), opFind s n q = some o →
          opFind t n q = some { o with track := .cancelPending, resumeBy := none }) ∧
        t.cfg = s.cfg ∧ SameBytes s t) ∧
      Answers .hotReset s (fun t => t.port.flrAt = some s.clk ∧ t.port.linkUp = false ∧
        t.belay.run = none ∧ t.belay.ready = [] ∧ t.belay.waiting = [] ∧ t.belay.hostBusy = false ∧
        (∀ (n q : Nat) (o : OpEnt), opFind s n q = some o →
          opFind t n q = some { o with track := .cancelPending, resumeBy := none }) ∧
        t.cfg = s.cfg ∧ SameBytes s t)) ∧
    (s.port.flrAt ≠ none → (allOps (flrStops s)).all (fun p => opIdle (flrStops s) p.1 p.2) = true →
      Answers .flrComplete s (fun t => t.port.flrAt = none ∧ t.lines = [] ∧ t.hitches = [] ∧ t.mem.posted = [] ∧
        t.mem.eye = [] ∧ t.mem.eyeChafed = [] ∧ t.cfg = { coil := s.cfg.act, act := s.cfg.act, writes := 0 } ∧
        t.regs = HostRegs.reset ∧ t.port.msix = [] ∧ t.port.pba = [] ∧ t.boot = s.boot ∧ t.tb = s.tb ∧ t.flash = s.flash))

/-- The loss of an up link, in every state, takes the link down, counts in LINK_DOWNS and drops the host's requests that wait.
With no operation, move or tile in progress it turns every listed block that is HOME or LANDING in the host tier to CHAFED,
and stops every listed line that has a ring in a host window; it changes no byte of memory. A loss of a link that is down
changes nothing. The link's return in a powered module out of reset, with a reference clock, sets it up at an agreed width
and rate; unless an FLR runs it sends the pending message of every vector that is not masked and clears its pending bit.
(R172, R299, R367) -/
def Obligations.PortLinkDownAndUp : Prop :=
  ∀ s : State,
    (s.port.linkUp = true → Answers .portLinkDown s (fun t =>
      t.port.linkUp = false ∧ t.port.linkDowns = min 255 (s.port.linkDowns + 1) ∧ t.port.flrAt = s.port.flrAt ∧
      t.ingress.queue = s.ingress.queue.filter (fun r => !r.host))) ∧
    (s.port.linkUp = false → exec .portLinkDown s = .next s) ∧
    (s.port.linkUp = true → allOps s = [] → s.tiers.moves = [] → (∀ k : Nat, (strandGet s k).tiles = []) →
      Answers .portLinkDown s (fun t =>
        (∀ (name : Nat) (e : HtEntry), mapFind s.tiers.ht name = some e → e.tier = .host → (e.state = .home ∨ e.state = .landing) →
          (htGet t name).state = .chafed) ∧
        (∀ n : Nat, (mapFind s.lines n).isSome = true → hostRing s n = true → (lineGet t n).stopped = true) ∧
        SameBytes s t ∧ OnlyIn [.regs, .port, .link, .ingress, .lines, .strands, .mem, .tiers, .net, .pmu] s t)) ∧
    (s.power.rails = true → s.power.perstActed = false → s.pins.refclkOk = true → s.port.linkUp = false → 1 ≤ s.boot.phase →
      Answers .portLinkUp s (fun t => t.port.linkUp = true ∧ [1, 4, 8, 16].contains t.port.width = true ∧ t.port.rate < 6 ∧
        (s.port.flrAt = none → ∀ v ∈ s.port.pba, (mapGet MsixEntry.reset s.port.msix v).mask = false →
          HostMsg.msix v ∈ t.port.out ∧ t.port.pba.contains v = false) ∧
        (∀ v : Nat, (mapGet MsixEntry.reset s.port.msix v).mask = true → t.port.pba.contains v = s.port.pba.contains v) ∧
        (s.port.flrAt ≠ none → t.port.pba = s.port.pba ∧ t.port.out = s.port.out) ∧
        OnlyIn [.free, .port, .link, .pmu] s t))

/-! ### The take and the dispatch of descriptors -/

/-- When the arbiter of its line engine picks the line, FETCH moves past the slots taken and the next sequence number is
assigned, and HEAD follows FETCH unless a loop is active. A descriptor that passes the submission checks is the line's one
new operation, undispatched, with that number and the lowest free tracker entry; no record is written and no byte of memory
changes. One that fails them, or that reads chafed, gets one record at CQ_TAIL with the status of the check (UNCORRECTABLE
when chafed), CQ_TAIL advances, the operations in flight stay, and every other byte of memory stays. No other line changes.
(R266, R269, R270, R271, R273, R305) -/
def Obligations.LineTakesAtFetch : Prop :=
  ∀ (line : LineNo) (q : Req) (s : State), (takeReq s line.toNat).isSome = true →
    (takePick s line.toNat).1 = some q → q.key = line.toNat →
    (((takeView s line.toNat).chafed = false ∧
      (submitStatus (takeFetched (takeGranted s line.toNat q) line.toNat (takeView s line.toNat)) line.toNat
        (takeView s line.toNat).d (takeView s line.toNat).d2).1 = stOk) →
      Answers (.lineTake line) s (fun t =>
        (lineGet t line.toNat).ops = (lineGet s line.toNat).ops ++
          [{ opNew (lineGet s line.toNat).nextSeq (lineGet s line.toNat).fetch (takeView s line.toNat).slots
            (takeView s line.toNat).d (takeView s line.toNat).d2 with entry := freeEntry (lineGet s line.toNat).ops }] ∧
        (lineGet t line.toNat).fetch = ((lineGet s line.toNat).fetch + (takeView s line.toNat).slots) % ringSize s line.toNat ∧
        (lineGet t line.toNat).nextSeq = ((lineGet s line.toNat).nextSeq + 1) % 2 ^ 32 ∧
        (lineGet t line.toNat).head = (if (lineGet s line.toNat).loop.isSome then (lineGet s line.toNat).head
          else (lineGet t line.toNat).fetch) ∧
        (lineGet t line.toNat).cqTail = (lineGet s line.toNat).cqTail ∧
        (∀ m : Nat, m ≠ line.toNat → lineGet t m = lineGet s m) ∧ SameBytes s t ∧
        OnlyIn [.regs, .port, .lines, .lineArb, .mem, .tiers, .wfc, .pmu] s t)) ∧
    (∀ status : Nat, recordOpen s line.toNat = true →
      (if (takeView s line.toNat).chafed then status = stUncorrectable
        else status ≠ stOk ∧
          (submitStatus (takeFetched (takeGranted s line.toNat q) line.toNat (takeView s line.toNat)) line.toNat
            (takeView s line.toNat).d (takeView s line.toNat).d2).1 = status) →
      Answers (.lineTake line) s (fun t =>
        (∀ i : Nat, i < 32 → rawByte t (recordFrame s line.toNat + i) =
          (recordBytes (lineGet s line.toNat).nextSeq status 0 s.belay.epoch s.tb.now []).getD i 0) ∧
        (∀ a : Nat, ¬ (recordFrame s line.toNat ≤ a ∧ a < recordFrame s line.toNat + 32) → rawByte t a = rawByte s a) ∧
        (lineGet t line.toNat).ops = (lineGet s line.toNat).ops ∧
        (lineGet t line.toNat).cqTail = ((lineGet s line.toNat).cqTail + 1) % cqSize s line.toNat ∧
        (lineGet t line.toNat).fetch = ((lineGet s line.toNat).fetch + (takeView s line.toNat).slots) % ringSize s line.toNat ∧
        (lineGet t line.toNat).nextSeq = ((lineGet s line.toNat).nextSeq + 1) % 2 ^ 32 ∧
        (∀ m : Nat, m ≠ line.toNat → lineGet t m = lineGet s m)))

/-- A BRD_MM whose output is not in derived blocks, or an epilogue pair whose program is well formed, enters the tracker as
dispatched now, with the timebase, the epoch, its program and the number of its tiles. A bight operation whose reads nothing
holds, whose parameter block and length table read unchafed, pass the checks of R144 under every configuration in force and
name no derived output enters it with the blocks it read and its number of tiles. A failing one gets the final record
DESC_INVALID, or UNCORRECTABLE where a block of the bight reads chafed, and nothing else of memory, of the lines or of the
hitches changes; one whose reads are held waits. (R86, R87, R89, R106, R142, R144, R153, R269, R283) -/
def Obligations.ComputeOpcodesDispatch : Prop :=
  ∀ (line : LineNo) (o : OpEnt) (s : State),
    (dispatchable s line.toNat o opBrdMm = true →
      let prog := if bmEpi o.desc then readProg s line.toNat o.desc2 else ([], false)
      let fails := if bmEpi o.desc then !vecProgOk (vcLen o.desc2) prog.1
        else !(bmD o.desc).eye && touchesDerived s [bmFootD o.desc]
      (fails = false → Answers (.brdMm line) s (fun t =>
        Entered s t line.toNat { opDispatch s o with total := bmTiles o.desc, prog := prog.1, chafedProg := prog.2 } ∧
        SameBytes s t ∧ OnlyIn [.port, .lines, .pmu] s t)) ∧
      (fails = true → recordOpen s line.toNat = true → Answers (.brdMm line) s (fun t =>
        Finished s t line.toNat o.seq stDescInvalid 0 s.belay.epoch o.desc []))) ∧
    (∀ bwd : Bool, dispatchable s line.toNat o (if bwd then opBgtBwd else opBgtFwd) = true →
      let par := devRead s (some (lineAcct s line.toNat)) (bgParam o.desc) 128
      let tab := devRead s (some (lineAcct s line.toNat)) (bgLt o.desc) (32 * bgNseq o.desc)
      let o1 := { opDispatch s o with par := par.1, tab := tab.1 }
      let spans := [(bgParam o.desc, 128), (bgLt o.desc, 32 * bgNseq o.desc)] ++ (if par.2 || tab.2 then [] else pageTabSpans o1)
      let u := noteAccess s (lineAcct s line.toNat) (spansBlocks spans)
      let o2 := { o1 with ptab := readPages u (lineAcct s line.toNat) o1 }
      let h := bgShape o.desc par.1
      let fails := (views u).any (fun v => !bgtCheck v (lineStrand u line.toNat) (lineAcct s line.toNat) h o2) ||
        touchesDerived u (bgtOutSpans h o2)
      (readsHeld s spans = true → exec (if bwd then .bgtBwd line else .bgtFwd line) s = .next s) ∧
      (readsHeld s spans = false →
      (par.2 = false → tab.2 = false → fails = false →
        Answers (if bwd then .bgtBwd line else .bgtFwd line) s (fun t =>
          Entered s t line.toNat { o2 with total := bgTotal h o2 } ∧ SameBytes s t ∧ OnlyIn [.port, .lines, .tiers, .pmu] s t)) ∧
      ((par.2 || tab.2) = true → recordOpen s line.toNat = true →
        Answers (if bwd then .bgtBwd line else .bgtFwd line) s (fun t =>
          Finished s t line.toNat o.seq stUncorrectable 0 s.belay.epoch o.desc [])) ∧
      (par.2 = false → tab.2 = false → fails = true → recordOpen s line.toNat = true →
        Answers (if bwd then .bgtBwd line else .bgtFwd line) s (fun t =>
          Finished s t line.toNat o.seq stDescInvalid 0 s.belay.epoch o.desc []))))

/-- A VEC_OP whose reads are held waits. Otherwise one with a malformed program gets the final record DESC_INVALID. One without
COMMIT enters the tracker with its program and its number of groups. One with COMMIT completes UNCORRECTABLE when its step
record reads chafed, and OK_SKIPPED with the SKIPPED flag when the record says skip or the account has an abort pending;
otherwise it enters the tracker with the record. Where a record is written, nothing else of memory, of the lines or of the
hitches changes. (R106, R178, R235, R253, R275) -/
def Obligations.VectorOpDispatches : Prop :=
  ∀ (line : LineNo) (o : OpEnt) (s : State), dispatchable s line.toNat o opVecOp = true →
    let prog := readProg s line.toNat o.desc
    let o1 := { opDispatch s o with total := vecGroups o.desc, prog := prog.1, chafedProg := prog.2 }
    let r := commitRecord s line.toNat o.desc
    (readsHeld s (vecDispReads o.desc) = true → Answers (.vecOp line) s (fun t => SameBytes s t ∧ OnlyIn [.eng] s t)) ∧
    (readsHeld s (vecDispReads o.desc) = false →
    (vecProgOk (vcLen o.desc) prog.1 = false → recordOpen s line.toNat = true → Answers (.vecOp line) s (fun t =>
      Finished s t line.toNat o.seq stDescInvalid 0 s.belay.epoch o.desc [])) ∧
    (vecProgOk (vcLen o.desc) prog.1 = true → vcCommit o.desc = false → Answers (.vecOp line) s (fun t =>
      Entered s t line.toNat o1 ∧ SameBytes s t ∧ OnlyIn [.port, .lines, .tiers, .pmu] s t)) ∧
    (vecProgOk (vcLen o.desc) prog.1 = true → vcCommit o.desc = true →
      (r.2 = false → abortPending s (lineAcct s line.toNat) = false → recSkip r.1 = false → Answers (.vecOp line) s (fun t =>
        Entered s t line.toNat { o1 with par := r.1 } ∧ SameBytes s t ∧ OnlyIn [.port, .lines, .tiers, .pmu] s t)) ∧
      (r.2 = true → recordOpen s line.toNat = true → Answers (.vecOp line) s (fun t =>
        Finished s t line.toNat o.seq stUncorrectable o.flags s.belay.epoch o.desc (vecBytes o1))) ∧
      (r.2 = false → (abortPending s (lineAcct s line.toNat) || recSkip r.1) = true → recordOpen s line.toNat = true →
        Answers (.vecOp line) s (fun t =>
          Finished s t line.toNat o.seq stOkSkipped (o.flags ||| flagSkipped) s.belay.epoch o.desc (vecBytes o1)))))

/-- A MOVE or ALLOC whose run passes the checks of R159 and fits under HARD enters the tracker, with the account's charge and
its incoming frames raised by the blocks it charges when the first block needs a move; over HARD it gets the final record
QUOTA_EXCEEDED, and a run that fails the checks DESC_INVALID; neither changes the charges. A FREE of blocks none of which is
MOVING leaves every one of them UNBOUND and enters the tracker with all of them done. An ATTR sets DERIVED, SHARED and
PINNED of every block of its run and nothing else of its entry. No other block's entry changes, and no byte of memory.
(R153, R156, R158, R159, R160, R166) -/
def Obligations.MoveOpcodesDispatch : Prop :=
  ∀ (line : LineNo) (o : OpEnt) (s : State), dispatchable s line.toNat o opMove = true →
    (∀ alloc : Bool, mvOp o.desc = (if alloc then 1 else 0) → (alloc = true → mvDerived o.desc = true → mvDest o.desc = .kern) →
      let ch := chargedBlocks s o.desc
      let fits := decide (charge s (lineAcct s line.toNat) (mvDest o.desc) + ch.length ≤ hardOf s (lineAcct s line.toNat) (mvDest o.desc))
      (runOk s line.toNat o.desc = true → fits = true → 0 < mvCount o.desc → o.failed = false → o.next = 0 → o.track = .running →
        skipBlock s (lineAcct s line.toNat) o.desc (mvBlock o.desc) = none →
        Answers (if alloc then .alloc line else .move line) s (fun t =>
          Entered s t line.toNat { opDispatch s o with total := mvCount o.desc, units := ch } ∧
          charge t (lineAcct s line.toNat) (mvDest o.desc) = charge s (lineAcct s line.toNat) (mvDest o.desc) + ch.length ∧
          mapGet 0 t.tiers.movingIn (ct (lineAcct s line.toNat) (mvDest o.desc)) =
            mapGet 0 s.tiers.movingIn (ct (lineAcct s line.toNat) (mvDest o.desc)) + ch.length ∧
          (∀ b : Nat, htGet t b = htGet s b) ∧ SameBytes s t)) ∧
      (runOk s line.toNat o.desc = true → fits = false → recordOpen s line.toNat = true →
        Answers (if alloc then .alloc line else .move line) s (fun t =>
          Finished s t line.toNat o.seq stQuotaExceeded o.flags s.belay.epoch o.desc
            (moveBytes { opDispatch s o with total := mvCount o.desc, n3 := 1 }) ∧ t.tiers.charged = s.tiers.charged)) ∧
      (runOk s line.toNat o.desc = false → recordOpen s line.toNat = true →
        Answers (if alloc then .alloc line else .move line) s (fun t =>
          Finished s t line.toNat o.seq stDescInvalid 0 s.belay.epoch o.desc [] ∧ t.tiers.charged = s.tiers.charged))) ∧
    (mvOp o.desc = 2 → runOk s line.toNat o.desc = true →
      (∀ i : Nat, i < mvCount o.desc → (htGet s (mvBlock o.desc + i)).state ≠ .moving) → Answers (.free line) s (fun t =>
        Entered s t line.toNat { opDispatch s o with
          total := mvCount o.desc, next := mvCount o.desc, done := mvCount o.desc, inflight := 0, units := [] } ∧
        (∀ i : Nat, i < mvCount o.desc → (htGet t (mvBlock o.desc + i)).state = .unbound) ∧
        (∀ b : Nat, ¬ (mvBlock o.desc ≤ b ∧ b < mvBlock o.desc + mvCount o.desc) → htGet t b = htGet s b) ∧ SameBytes s t)) ∧
    (mvOp o.desc = 3 → runOk s line.toNat o.desc = true → Answers (.attr line) s (fun t =>
        Entered s t line.toNat { opDispatch s o with total := mvCount o.desc, next := mvCount o.desc, done := mvCount o.desc } ∧
        (∀ i : Nat, i < mvCount o.desc → htGet t (mvBlock o.desc + i) = { htGet s (mvBlock o.desc + i) with
          derived := mvDerived o.desc, shared := mvShared o.desc, pinned := mvPinned o.desc }) ∧
        (∀ b : Nat, ¬ (mvBlock o.desc ≤ b ∧ b < mvBlock o.desc + mvCount o.desc) → htGet t b = htGet s b) ∧ SameBytes s t))

/-- A ROW_SEQ, SPL_UPD or SPL_ACC whose reads are held waits. A ROW_SEQ whose program reads unchafed and is well formed enters
the tracker with it. An SPL_UPD or SPL_ACC whose blocks read unchafed and pass rows 3 to 6 of R234 under every configuration
in force enters it with one unit for each 64 elements; an SPL_UPD is instead skipped, with OK_SKIPPED and the SKIPPED flag,
when its account has an abort pending or its step record says skip. A chafed block completes UNCORRECTABLE. A SNAPSHOT to
the host whose ranges pass enters with a hold on each of its source blocks. Where a record is written, nothing else of
memory, of the lines or of the hitches changes. (R216, R217, R234, R235, R250, R262, R261, R445) -/
def Obligations.BankOpcodesDispatch : Prop :=
  ∀ (line : LineNo) (o : OpEnt) (s : State),
    (dispatchable s line.toNat o opRowSeq = true →
      let r := devRead s (some (lineAcct s line.toNat)) (rsProgAddr o.desc) (8 * rsProgLen o.desc)
      let bad := (views s).any (fun v => !((List.range (rsProgLen o.desc)).all (fun i => rowWordOk v (lineAcct s line.toNat) (rowWord r.1 i))))
      let spans := [(rsProgAddr o.desc, 8 * rsProgLen o.desc)]
      (readsHeld s spans = true → Answers (.rowSeq line) s (fun t => SameBytes s t ∧ OnlyIn [.eng] s t)) ∧
      (readsHeld s spans = false →
      (r.2 = false → bad = false → Answers (.rowSeq line) s (fun t =>
        Entered s t line.toNat { opDispatch s o with prog := r.1, total := setSize o.desc } ∧ SameBytes s t ∧
        OnlyIn [.port, .lines, .tiers, .pmu] s t)) ∧
      (r.2 = false → bad = true → recordOpen s line.toNat = true → Answers (.rowSeq line) s (fun t =>
        Finished s t line.toNat o.seq stDescInvalid 0 s.belay.epoch o.desc [])) ∧
      (r.2 = true → recordOpen s line.toNat = true → Answers (.rowSeq line) s (fun t =>
        Finished s t line.toNat o.seq stUncorrectable 0 s.belay.epoch o.desc [])))) ∧
    (∀ upd : Bool, dispatchable s line.toNat o (if upd then opSplUpd else opSplAcc) = true →
      let par := devRead s (some (lineAcct s line.toNat)) (spParam o.desc) 256
      let prog := devRead s (some (lineAcct s line.toNat)) (spProg o.desc) 128
      let spans := [(spParam o.desc, 256), (spProg o.desc, 128)] ++ (if upd && spVerdict par.1 != 0 then [(spVerdict par.1, 64)] else [])
      let u := noteAccess s (lineAcct s line.toNat) (spansBlocks spans)
      let bad := (views u).findSome? (fun v => splDispatchCheck v line.toNat o par.1 prog.1)
      let rec_ := devRead u (some (lineAcct s line.toNat)) (spVerdict par.1) 64
      let skip := upd && (abortPending u (lineAcct s line.toNat) || (spVerdict par.1 != 0 && recSkip rec_.1))
      (readsHeld s spans = true → Answers (if upd then .splUpd line else .splAcc line) s (fun t => SameBytes s t ∧ OnlyIn [.eng] s t)) ∧
      (readsHeld s spans = false →
      ((par.2 || prog.2) = true → recordOpen s line.toNat = true →
        Answers (if upd then .splUpd line else .splAcc line) s (fun t =>
          Finished s t line.toNat o.seq stUncorrectable 0 s.belay.epoch o.desc [])) ∧
      ((par.2 || prog.2) = false → bad = none → (upd && spVerdict par.1 != 0 && rec_.2) = false → skip = false →
        Answers (if upd then .splUpd line else .splAcc line) s (fun t =>
          Entered s t line.toNat { opDispatch s o with
            par := if upd && spVerdict par.1 != 0 then withRecord par.1 rec_.1 else par.1, prog := prog.1,
            total := ceilDiv (spN o.desc) 64 } ∧ SameBytes s t ∧ OnlyIn [.port, .lines, .tiers, .pmu] s t)) ∧
      ((par.2 || prog.2) = false → bad = none → (upd && spVerdict par.1 != 0 && rec_.2) = false → skip = true →
        recordOpen s line.toNat = true → Answers (if upd then .splUpd line else .splAcc line) s (fun t =>
          Finished s t line.toNat o.seq stOkSkipped flagSkipped s.belay.epoch o.desc (splBytes (opDispatch s o)))))) ∧
    (dispatchable s line.toNat o opSnapshot = true → (views s).any (fun v => !snDispatchOk v line.toNat o.desc) = false →
      snRec o.desc = 0 → snPeer o.desc = false → Answers (.snapshot line) s (fun t =>
        Entered s t line.toNat { opDispatch s o with par := List.replicate 8 0, total := (snBlocks s o.desc).length } ∧
        t.tiers.exportHold = s.tiers.exportHold ++ (snHolds s o.desc).map (fun b => (b, line.toNat, o.seq)) ∧
        SameBytes s t ∧ OnlyIn [.port, .lines, .tiers, .pmu] s t))

/-- For each of the ten collective opcodes: with every member reachable, no derived output and nothing received early, the
operation enters the tracker as dispatched now with the number of each of its axes, and each of those axes' counters
advances modulo 2^24; SEND and RECV take the number of their pair instead. No other axis counter changes and no byte of
memory. With a derived output the collective gets the final record DESC_INVALID and takes no number. (R338, R339, R343,
R345) -/
def Obligations.CollectivesDispatch : Prop :=
  ∀ (line : LineNo) (o : OpEnt) (c : Instr) (op : Nat) (s : State),
    (op, c) ∈ [(cxAllReduce, Instr.allReduce line), (cxReduceScatter, .reduceScatter line), (cxAllGather, .allGather line),
      (cxAllToAll, .allToAll line), (cxSend, .send line), (cxRecv, .recv line), (cxBarrier, .barrier line),
      (cxVerdict, .verdict line), (cxGather, .gather line), (cxBroadcast, .broadcast line)] →
    dispatchable s line.toNat o opCapColl = true → ccOp o.desc = op →
    (touchesDerived s (ccWrites s o.desc) = false → (ccMembers s o.desc).any (peerGone s) = false → s.net.earlySigs = [] →
      o.track = .running →
      Answers c s (fun t =>
        (∃ o' : OpEnt, opFind t line.toNat o.seq = some o' ∧ o'.dispatched = true ∧ o'.track = .running ∧ o'.desc = o.desc ∧
          o'.tDisp = s.tb.now ∧ o'.cDisp = tbNow s ∧ o'.epoch = s.belay.epoch ∧ o'.coll.nums =
            (if op = cxSend then [(ccAxis o.desc, mapGet 0 s.net.sendNum (ccAxis o.desc * 16384 + ccPeer o.desc))]
            else if op = cxRecv then [(ccAxis o.desc, mapGet 0 s.net.recvNum (ccAxis o.desc * 16384 + ccPeer o.desc))]
            else (ccAxisList o.desc).map (fun a => (a, mapGet 0 s.net.axisNum a)))) ∧
        (∀ a : Nat, mapGet 0 t.net.axisNum a =
          if op ≠ cxSend ∧ op ≠ cxRecv ∧ a ∈ ccAxisList o.desc then (mapGet 0 s.net.axisNum a + 1) % 2 ^ 24
          else mapGet 0 s.net.axisNum a) ∧
        (∀ k : Nat, mapGet 0 t.net.sendNum k =
          if op = cxSend ∧ k = ccAxis o.desc * 16384 + ccPeer o.desc then (mapGet 0 s.net.sendNum k + 1) % 2 ^ 24
          else mapGet 0 s.net.sendNum k) ∧
        (∀ k : Nat, mapGet 0 t.net.recvNum k =
          if op = cxRecv ∧ k = ccAxis o.desc * 16384 + ccPeer o.desc then (mapGet 0 s.net.recvNum k + 1) % 2 ^ 24
          else mapGet 0 s.net.recvNum k) ∧ SameBytes s t)) ∧
    (touchesDerived s (ccWrites s o.desc) = true → recordOpen s line.toNat = true → Answers c s (fun t =>
      Finished s t line.toNat o.seq stDescInvalid 0 s.belay.epoch o.desc [] ∧ t.net = s.net))

/-! ### The operations of the line engines -/

/-- A STOPPER's dispatch notes the operations in flight before it, its write set and the host requests that have arrived, writes
no record and changes no byte. When it is the last operation in flight, no write is held for a moving block, and no host
write that arrived before it waits, its wait ends and every posted write of its line and write set is drained. A LINE,
ACCOUNT or DEVICE stopper then gets its record OK; a HOST stopper empties the read-ahead buffer and sends its flush read, or
gets UNCORRECTABLE, counts in HOST_ERR and raises its cause while the port link is down; a SYSTEM stopper sends FLUSH to the
other members of its axis and waits for all of them, gets OK when it has none, and PEER_LOST when one of them is lost. The
completion of a waiting HOST stopper's flush read gives its record OK; a failed one, or one that ends with the link down,
gives UNCORRECTABLE and counts in HOST_ERR. A SYSTEM stopper whose flush waits for no member any more gets its record OK and
its flush is forgotten. In each case nothing else of the lines, hitches or memory changes. (R291, R294, R295, R297, R301,
R355, R372) -/
def Obligations.StopperRuns : Prop :=
  (
    ∀ (line : LineNo) (o : OpEnt) (s : State),
      (dispatchable s line.toNat o opStopper = true → Answers (.stopper line) s (fun t =>
        Entered s t line.toNat { opDispatch s o with
          n1 := (lineGet s line.toNat).ops.length - 1, wset := writeSet s line.toNat (stopScope o.desc),
          next := s.ingress.next } ∧
        SameBytes s t ∧ OnlyIn [.port, .lines, .pmu] s t)) ∧
      (stopperOf s line.toNat = some o → (lineGet s line.toNat).ops.length = 1 → o.total = 0 → heldWrites s = false →
        (stopScope o.desc ≤ 1 ∨ s.ingress.queue.any (fun r => r.no < o.next && r.host && r.write) = false) →
        let o1 := { o with total := 1, n2 := tbNow s - o.cDisp }
        let drained (t : State) : Prop := ∀ p ∈ t.mem.posted, p.line ≠ line.toNat ∧ (p.line, p.seq) ∉ o.wset
        (stopScope o.desc ≤ 2 → recordOpen s line.toNat = true → Answers (.stopperWaitEnd line) s (fun t =>
          Finished s t line.toNat o.seq o.status o.flags o.epoch o.desc (stopperBytes s o1) ∧ drained t)) ∧
        (stopScope o.desc = 3 → s.port.linkUp = true → Answers (.stopperWaitEnd line) s (fun t =>
          t.port = { s.port with out := s.port.out ++ [.flushRead line.toNat] } ∧ opFind t line.toNat o.seq = some o1 ∧
          t.mem.ahead = [] ∧ drained t ∧ SameBytes s t ∧ OnlyIn [.port, .lines, .mem] s t)) ∧
        (stopScope o.desc = 3 → s.port.linkUp = false → recordOpen s line.toNat = true →
          Answers (.stopperWaitEnd line) s (fun t =>
            Finished s t line.toNat o.seq stUncorrectable o.flags o.epoch o.desc (stopperBytes s o1) ∧
            t.port.hostErr = min 4095 (s.port.hostErr + 1) ∧ t.regs.irqCause.getLsbD irqHostErr = true ∧ t.mem.ahead = [] ∧ drained t)) ∧
        (4 ≤ stopScope o.desc → (axisOthers s (stopAxis o.desc)).any (peerGone s) = true → recordOpen s line.toNat = true →
          Answers (.stopperWaitEnd line) s (fun t =>
            Finished s t line.toNat o.seq stPeerLost o.flags o.epoch o.desc (stopperBytes s o1) ∧ drained t)) ∧
        (4 ≤ stopScope o.desc → axisOthers s (stopAxis o.desc) = [] → recordOpen s line.toNat = true →
          Answers (.stopperWaitEnd line) s (fun t =>
            Finished s t line.toNat o.seq o.status o.flags o.epoch o.desc (stopperBytes s o1) ∧ drained t)) ∧
        (4 ≤ stopScope o.desc → (axisOthers s (stopAxis o.desc)).any (peerGone s) = false →
          axisOthers s (stopAxis o.desc) ≠ [] → Answers (.stopperWaitEnd line) s (fun t =>
            t.net.flushes = s.net.flushes ++ [FlushSt.mk line.toNat o.seq s.net.nextId (stopAxis o.desc)
              (axisOthers s (stopAxis o.desc))] ∧
            t.net.nextId = s.net.nextId + 1 ∧ opFind t line.toNat o.seq = some o1 ∧ drained t ∧ SameBytes s t ∧
            OnlyIn [.regs, .port, .lines, .mem, .net, .pmu] s t)))) ∧
  (
    ∀ (line : LineNo) (o : OpEnt) (s : State), stopperOf s line.toNat = some o → o.total = 1 → recordOpen s line.toNat = true →
      (stopScope o.desc = 3 →
        (s.port.linkUp = true → Answers (.hostFlushReadComplete line none) s (fun t =>
          Finished s t line.toNat o.seq o.status o.flags o.epoch o.desc (stopperBytes s o))) ∧
        (∀ fail : Option ReadFail, (fail.isSome = true ∨ s.port.linkUp = false) →
          Answers (.hostFlushReadComplete line fail) s (fun t =>
            Finished s t line.toNat o.seq stUncorrectable o.flags o.epoch o.desc (stopperBytes s o) ∧
            t.port.hostErr = min 4095 (s.port.hostErr + 1) ∧ t.regs.irqCause.getLsbD irqHostErr = true))) ∧
      (∀ f ∈ s.net.flushes, f.line = line.toNat → f.seq = o.seq → f.waiting = [] →
        Answers (.capstanFlushComplete line) s (fun t =>
          Finished s t line.toNat o.seq o.status o.flags o.epoch o.desc (stopperBytes s o) ∧
          t.net = { s.net with flushes := s.net.flushes.filter (fun x => !(x.line = line.toNat && x.seq = o.seq)) })))

/-- A HITCH_WAIT whose hitch's count minus VALUE is not negative as a signed 32-bit number gets its record OK at its dispatch,
or, when it waits, once that holds; otherwise it enters the tracker and holds the next take. One that still waits TIMEOUT_NS
after its dispatch gets HITCH_TIMEOUT, unless TIMEOUT_NS is 0. A HITCH_SIG adds ADD modulo 2^32 to its hitch and gets its
record OK with the count it left. No wait changes a count; DONE_SIG alone adds one. (R277, R278, R279, R298) -/
def Obligations.HitchOperations : Prop :=
  ∀ (line : LineNo) (o : OpEnt) (s : State),
    (dispatchable s line.toNat o opHitchWait = true →
      let met := 0 ≤ ((hitchGet s (hwHitch o.desc)).count - hwValue o.desc).toInt
      (met → recordOpen s line.toNat = true → Answers (.hitchWait line) s (fun t =>
        Finished s t line.toNat o.seq o.status o.flags s.belay.epoch o.desc
          (bytesOf 4 (hitchGet s (hwHitch o.desc)).count.toNat ++ bytesOf 4 0))) ∧
      (¬ met → Answers (.hitchWait line) s (fun t =>
        Entered s t line.toNat (opDispatch s o) ∧ SameBytes s t ∧ OnlyIn [.port, .lines, .pmu] s t))) ∧
    (waiting s line.toNat = some o → recordOpen s line.toNat = true →
      let met := 0 ≤ ((hitchGet s (hwHitch o.desc)).count - hwValue o.desc).toInt
      let bs := bytesOf 4 (hitchGet s (hwHitch o.desc)).count.toNat ++ bytesOf 4 (min (2 ^ 32 - 1) (tbNow s - o.cDisp))
      (met → Answers (.hitchWaitSatisfied line) s (fun t =>
        Finished s t line.toNat o.seq o.status o.flags o.epoch o.desc bs)) ∧
      (¬ met → hwTimeout o.desc ≠ 0 → o.cDisp + hwTimeout o.desc ≤ tbNow s → Answers (.hitchTimeout line) s (fun t =>
        Finished s t line.toNat o.seq stHitchTimeout o.flags o.epoch o.desc bs)) ∧
      ((met ∨ hwTimeout o.desc = 0 ∨ tbNow s < o.cDisp + hwTimeout o.desc) → exec (.hitchTimeout line) s = .next s)) ∧
    (dispatchable s line.toNat o opHitchSig = true → recordOpen s line.toNat = true →
      let s1 := hitchAdd s (hwHitch o.desc) (hwValue o.desc) (some line.toNat)
      Answers (.hitchSig line) s (fun t =>
        Finished s1 t line.toNat o.seq o.status o.flags s.belay.epoch o.desc
          (bytesOf 4 ((hitchGet s (hwHitch o.desc)).count + hwValue o.desc).toNat) ∧
        (∀ h : Nat, (hitchGet t h).count = (hitchGet s h).count + (if h = hwHitch o.desc then hwValue o.desc else 0) +
          (if dDoneSig o.desc && h == dDoneHitch o.desc then 1 else 0))))

/-- A KNOT whose step record no repair, atom or merge holds acts at its dispatch. With a log configured at an address whose
header and next record lie in kern blocks that are HOME and clear of posted writes, it writes its record at TAIL modulo the
log's size and the header with TAIL plus 1, advances TAIL, and gets its record with the low word of TAIL and the nip
instant, OK or, where its step record reads chafed, CHAFED; every other byte of memory stays. Without a log it writes no
knot and gets its record with TAIL all ones. NIP = 1 schedules the first aligned instant unless one is scheduled, which sets
OVERRUN. While the step record's read is held the KNOT waits. A scan, once per millisecond, latches the chain of the first
line that has waited long enough while VALID is 0: HALTED and STALLED lines, and a wait with no signaller, are chains of one
entry, and two lines that wait on each other's hitches are a CYCLE of two. A pass of the central reader writes the pass
number before and after the timestamps and the 160 counters and changes no other byte. (R317, R318, R405, R407, R413, R414) -/
def Obligations.KnotsChainsAndSummaries : Prop :=
  (
    ∀ (line : LineNo) (o : OpEnt) (s : State), dispatchable s line.toNat o opKnot = true → recordOpen s line.toNat = true →
      readsHeld s (knotSpans o.desc) = false →
      let at_ := s.tb.now.toNat + 1000
      let inst := if knNip o.desc && s.pmu.nipAt.isNone then some (nipInstant s.tb.now.toNat (knAlign o.desc)) else none
      let nip (t : State) : Prop :=
        t.pmu.nipAt = (if s.pmu.nipAt.isSome then s.pmu.nipAt else inst) ∧
        t.pmu.nipOverrun = (s.pmu.nipOverrun || (knNip o.desc && s.pmu.nipAt.isSome)) ∧
        (∀ T : Nat, inst = some T → at_ ≤ T ∧ T % 2 ^ knAlign o.desc = 0)
      (actF s flKnotLog2 0 = 0 → Answers (.knot line) s (fun t =>
        Finished s t line.toNat o.seq o.status o.flags s.belay.epoch o.desc (bytesOf 8 0xFFFFFFFF ++ bytesOf 8 (inst.getD 0)) ∧
        nip t ∧ t.pmu.knotTail = s.pmu.knotTail)) ∧
      (let head := actF s flKnotBase 0
       let rec_ := head + 64 + 32 * (s.pmu.knotTail % 2 ^ actF s flKnotLog2 0)
       actF s flKnotLog2 0 ≠ 0 → kernHome s head 64 = true → kernHome s rec_ 32 = true →
       apart [(frameAt s head, 64), (frameAt s rec_, 32), (recordFrame s line.toNat, 32)] = true →
        Answers (.knot line) s (fun t =>
          (∀ i : Nat, i < 32 → rawByte t (frameAt s rec_ + i) =
            (knotRecord s line.toNat o (knotStep s line.toNat o.desc).1 inst.isSome).getD i 0) ∧
          (∀ i : Nat, i < 64 → rawByte t (frameAt s head + i) =
            (knotHeader s ((s.pmu.knotTail + 1) % 2 ^ 64) s.tb.now).getD i 0) ∧
          (∀ i : Nat, i < 32 → rawByte t (recordFrame s line.toNat + i) =
            (recordBytes o.seq (if (knotStep s line.toNat o.desc).2 then stChafed else o.status) o.flags s.belay.epoch s.tb.now
              (bytesOf 8 (s.pmu.knotTail % 2 ^ 32) ++ bytesOf 8 (inst.getD 0))).getD i 0) ∧
          (∀ a : Nat, ¬ (frameAt s rec_ ≤ a ∧ a < frameAt s rec_ + 32) → ¬ (frameAt s head ≤ a ∧ a < frameAt s head + 64) →
            ¬ (recordFrame s line.toNat ≤ a ∧ a < recordFrame s line.toNat + 32) → rawByte t a = rawByte s a) ∧
          nip t ∧ t.pmu.knotTail = (s.pmu.knotTail + 1) % 2 ^ 64 ∧ opFind t line.toNat o.seq = none ∧
          (lineGet t line.toNat).cqTail = ((lineGet s line.toNat).cqTail + 1) % cqSize s line.toNat ∧
          (∀ m : Nat, m ≠ line.toNat → lineGet t m = lineGet s m)))) ∧
  (
    ∀ (line : LineNo) (o : OpEnt) (s : State), dispatchable s line.toNat o opKnot = true →
      readsHeld s (knotSpans o.desc) = true → Answers (.knot line) s (fun t => SameBytes s t ∧ OnlyIn [.eng] s t)) ∧
  (∀ s : State, actF s flWfcEn 0 = 1 → s.wfc.lastScan + 1000000 ≤ tbNow s →
    (s.wfc.valid = true → Answers .wfcScan s (fun t => t.wfc = { s.wfc with lastScan := tbNow s } ∧ OnlyIn [.wfc] s t)) ∧
    (∀ n : Nat, s.wfc.valid = false → (scanOrder s).find? (fun n => longWait s n && (waitEdge s n).isSome) = some n →
      let latched (es : List WfcEntry) (cycle : Bool) : Prop := Answers .wfcScan s (fun t =>
        t.wfc = { s.wfc with lastScan := tbNow s, valid := true, entries := es, cycle := cycle, trunc := false, lastReported := n } ∧
        t.regs.irqCause.getLsbD 1 = true ∧ OnlyIn [.regs, .port, .wfc, .pmu] s t)
      (lineState s n = 4 → latched [WfcEntry.mk n 5 (lineAcct s n)] false) ∧
      (lineState s n = 5 → latched [WfcEntry.mk n 4 (cqSize s n - 1 - cqFree s n)] false) ∧
      (∀ (k obj : Nat), waitEdge s n = some (k, obj, none) → latched [WfcEntry.mk n k obj] false) ∧
      (∀ (m k obj k1 obj1 : Nat), m ≠ n → waitEdge s n = some (k, obj, some m) → waitEdge s m = some (k1, obj1, some n) →
        latched [WfcEntry.mk n k obj, WfcEntry.mk m k1 obj1] true))) ∧
  (∀ s : State,
    let base := actF s flSumBase 0
    let page := frameAt s base
    let p := (s.pmu.pass + 1) % 2 ^ 64
    s.boot.style = 1 → base ≠ 0 → s.boot.phase = 7 → s.pmu.lastPass + sumPeriodNs s ≤ tbNow s → kernHome s base 0x548 = true →
    Answers .summaryPass s (fun t =>
      (∀ i : Nat, i < 8 → rawByte t (page + i) = (bytesOf 8 p).getD i 0 ∧ rawByte t (page + 0x540 + i) = (bytesOf 8 p).getD i 0) ∧
      (∀ i : Nat, i < 8 → rawByte t (page + 8 + i) = (bytesOf 8 s.tb.now.toNat).getD i 0 ∧
        rawByte t (page + 0x10 + i) = (bytesOf 8 s.tb.now.toNat).getD i 0) ∧
      (∀ (c i : Nat), c < 160 → i < 8 → rawByte t (page + 0x40 + 8 * c + i) = (bytesOf 8 (mapGet 0 s.pmu.blk c)).getD i 0) ∧
      OutsideFrame s t page 0x548 ∧ (∀ i : Nat, 0x18 ≤ i → i < 0x40 → rawByte t (page + i) = rawByte s (page + i)) ∧
      t.pmu.pass = p ∧ t.pmu.lastPass = tbNow s ∧ OnlyIn [.regs, .port, .lines, .mem, .tiers, .net, .pmu] s t))

/-- A LOOP at the slot of the active loop, or with none active, which it activates with its COUNT, gets its record OK. With LEFT
not 0 and no BREAK the loop stays active, LEFT falls by 1 unless it is all ones, FETCH and HEAD go back by the distance
modulo the ring, and TAKEN is 1; otherwise the loop ends, FETCH and HEAD go to the next slot, and TAKEN is 0. A LOOP at
another slot while a loop is active gets DESC_INVALID and the loop stays. (R280, R281) -/
def Obligations.LoopDispatches : Prop :=
  ∀ (line : LineNo) (o : OpEnt) (lp : LoopSt) (s : State), dispatchable s line.toNat o opLoop = true →
    recordOpen s line.toNat = true →
    let l := lineGet s line.toNat
    let ring := ringSize s line.toNat
    ((l.loop = some lp ∧ lp.slot = o.slot) ∨
      (l.loop = none ∧ lp = { slot := o.slot, dist := loopDist o.desc, left := loopCount o.desc, breakPending := false }) →
      ((lp.breakPending = true ∨ lp.left = 0) → Answers (.loop line) s (fun t =>
        Finished (lineSet s line.toNat { l with loop := none, fetch := (o.slot + 1) % ring, head := (o.slot + 1) % ring }) t
          line.toNat o.seq o.status o.flags s.belay.epoch o.desc (bytesOf 4 lp.left.toNat ++ bytesOf 4 0))) ∧
      (lp.breakPending = false → lp.left ≠ 0 →
        let left := if lp.left = 0xFFFFFFFF then lp.left else lp.left - 1
        let first := (o.slot + ring - lp.dist) % ring
        Answers (.loop line) s (fun t =>
          Finished (lineSet s line.toNat { l with loop := some { lp with left := left }, fetch := first, head := first }) t
            line.toNat o.seq o.status o.flags s.belay.epoch o.desc (bytesOf 4 left.toNat ++ bytesOf 4 1)))) ∧
    (l.loop = some lp → lp.slot ≠ o.slot → Answers (.loop line) s (fun t =>
      Finished s t line.toNat o.seq stDescInvalid 0 s.belay.epoch o.desc [] ∧ (lineGet t line.toNat).loop = some lp))

/-- On an enabled line, SUSPEND turns a running suspendable operation to SUSPEND_PENDING, RESUME turns it back, RESUME of a
suspended one with ring room sets it running and without room stays BUSY, CANCEL of one in flight that may be cancelled
turns it to CANCEL_PENDING with CANCELLED. A suspend or resume of an operation that may not be suspended, a sequence number
not assigned yet and a disabled line read DESC_INVALID; an operation not in flight, and a cancel of one that is never
cancelled, ALREADY_DONE. Nothing else in flight changes and no byte of memory. (R282, R284, R286, R287, R288) -/
def Obligations.HostControlsOperations : Prop :=
  ∀ (target : LineNo) (seq : Seq) (s : State), hostTurn s = true → s.regs.ctrlBusy = false →
    let n := target.toNat
    let src := CtrlSrc.host target seq
    let answer (c : Instr) (st : Nat) : Prop :=
      exec c s = .next { s with regs := { s.regs with ctrlStatus := BitVec.ofNat 8 st } }
    (lineOn s n = false ∨ unassigned s n seq.toNat = true →
      answer (.suspend src) stDescInvalid ∧ answer (.resume src) stDescInvalid ∧ answer (.cancel src) stDescInvalid) ∧
    (lineOn s n = true → unassigned s n seq.toNat = false →
      (opFind s n seq.toNat = none →
        answer (.suspend src) stAlreadyDone ∧ answer (.resume src) stAlreadyDone ∧ answer (.cancel src) stAlreadyDone) ∧
      (∀ o : OpEnt, opFind s n seq.toNat = some o →
        (suspendable (opcodeOf o.desc) = false → answer (.suspend src) stDescInvalid ∧ answer (.resume src) stDescInvalid) ∧
        (neverCancelled (opcodeOf o.desc) = true → answer (.cancel src) stAlreadyDone) ∧
        (suspendable (opcodeOf o.desc) = true →
          (o.track = .running → Answers (.suspend src) s (fun t =>
            Entered s t n { o with track := .suspendPending, suspendedBy := none } ∧
            t.regs = { s.regs with ctrlStatus := BitVec.ofNat 8 stOk } ∧ OnlyIn [.regs, .lines] s t)) ∧
          (o.track = .suspendPending → Answers (.resume src) s (fun t =>
            Entered s t n { o with track := .running, suspendedBy := none } ∧
            t.regs = { s.regs with ctrlStatus := BitVec.ofNat 8 stOk } ∧ OnlyIn [.regs, .lines] s t)) ∧
          (o.track = .suspended → resumeRoom s n = true → resumeWaiters s n seq.toNat = [] → Answers (.resume src) s (fun t =>
            Entered s t n { o with track := .running, resumeBy := none, suspendedBy := none, readyAt := none, splReady := [] } ∧
            t.regs.ctrlStatus = BitVec.ofNat 8 stOk ∧ t.regs.ctrlBusy = false ∧ OnlyIn [.regs, .port, .lines, .pmu] s t)) ∧
          (o.track = .suspended → resumeRoom s n = false → Answers (.resume src) s (fun t =>
            Entered s t n { o with resumeBy := some none } ∧ t.regs = { s.regs with ctrlBusy := true } ∧
            OnlyIn [.regs, .lines] s t))) ∧
        (neverCancelled (opcodeOf o.desc) = false → (o.track = .running ∨ o.track = .suspendPending) →
          Answers (.cancel src) s (fun t =>
            Entered s t n { o with
              track := .cancelPending, cancelStatus := stCancelled, resumeBy := if opcodeOf o.desc = opCtrl then o.resumeBy else none } ∧
            t.regs = { s.regs with ctrlStatus := BitVec.ofNat 8 stOk } ∧ OnlyIn [.regs, .lines] s t))))

/-- A CTRL descriptor that suspends a running operation of another line, cancels one in flight, or resumes a suspended one whose
completion ring has room changes that operation's entry as the action says and gets its record OK with its target's number
and line; one whose target is not in flight gets ALREADY_DONE; a suspend of an operation that may not be suspended gets
DESC_INVALID. A resume without ring room enters the tracker and waits. When room comes, the waiting resume takes effect: the
operation runs, and the CTRL that waits gets its record OK or the host's request reads OK. A cancel of a suspended vector
operation ends that operation with CANCELLED. (R274, R282, R283, R284, R286, R287) -/
def Obligations.CtrlDescriptorsControl : Prop :=
  ∀ (line : LineNo) (o : OpEnt) (s : State), dispatchable s line.toNat o opCtrl = true →
    let n := line.toNat
    let m := ctrlLine o.desc
    let q := ctrlSeq o.desc
    let act := ctrlAction o.desc
    let c : Instr := if act = 0 then .suspend (.desc line) else if act = 1 then .resume (.desc line) else .cancel (.desc line)
    let ends (u : State) (st : Nat) : Prop := recordOpen u n = true → Answers c s (fun t =>
      Finished u t n o.seq st o.flags s.belay.epoch o.desc (ctrlBytes o.desc))
    act ≤ 2 → m ≠ n →
    (opFind s m q = none → ends s stAlreadyDone) ∧
    (∀ x : OpEnt, opFind s m q = some x →
      (act ≠ 2 → suspendable (opcodeOf x.desc) = false → ends s stDescInvalid) ∧
      (act = 2 → neverCancelled (opcodeOf x.desc) = true → ends s stAlreadyDone) ∧
      (act = 0 → suspendable (opcodeOf x.desc) = true → x.track = .running →
        ends (opSet s m { x with track := .suspendPending, suspendedBy := some n }) o.status) ∧
      (act = 1 → suspendable (opcodeOf x.desc) = true → x.track = .suspendPending →
        ends (opSet s m { x with track := .running, suspendedBy := none }) o.status) ∧
      (act = 1 → suspendable (opcodeOf x.desc) = true → x.track = .suspended → resumeRoom s m = true →
        ends (resumeOp s m x) o.status) ∧
      (act = 1 → suspendable (opcodeOf x.desc) = true → x.track = .suspended → resumeRoom s m = false →
        Answers c s (fun t => Entered s t n { opDispatch s o with resumeBy := some (some (m, q)) } ∧ SameBytes s t ∧
          OnlyIn [.port, .lines, .pmu] s t)) ∧
      (act = 2 → neverCancelled (opcodeOf x.desc) = false → (x.track = .running ∨ x.track = .suspendPending) →
        ends (opSet s m { x with
          track := .cancelPending, cancelStatus := stCancelled, resumeBy := if opcodeOf x.desc = opCtrl then x.resumeBy else none }) o.status))

/-- Once the completion ring of a suspended operation has room, its waiting resume sets it running: the host's request then
reads OK and is no longer busy, and a waiting CTRL of another line gets its record OK with its target's number and line.
Without room or without a waiting resume nothing happens. A host cancel of a suspended VEC_OP that has no census to write
ends it at once: its record CANCELLED, unless UNCORRECTABLE outranks it, with its own flags and counts. (R282, R284, R286,
R287) -/
def Obligations.WaitingResumeAndCancelOfSuspended : Prop :=
  ∀ (line : LineNo) (seq : Seq) (o : OpEnt) (s : State), opFind s line.toNat seq.toNat = some o → o.track = .suspended →
    let n := line.toNat
    let o1 := { o with track := .running, resumeBy := none, suspendedBy := none, readyAt := none, splReady := [] }
    let s1 := noteLine (opSet s n o1) n
    (resumeRoom s n = true → resumeWaiters s n seq.toNat = [] → o.resumeBy = some none →
      Answers (.resumeTakesEffect line seq) s (fun t =>
        Entered s t n o1 ∧ t.regs.ctrlBusy = false ∧ t.regs.ctrlStatus = BitVec.ofNat 8 stOk ∧ SameBytes s t ∧
        OnlyIn [.regs, .port, .lines, .pmu] s t)) ∧
    (∀ (m : Nat) (x : OpEnt), resumeRoom s n = true → resumeWaiters s n seq.toNat = [(m, x)] → suspendable (opcodeOf o.desc) = true →
      m ≠ n → recordOpen s1 m = true → Answers (.resumeTakesEffect line seq) s (fun t =>
        Finished s1 t m x.seq x.status x.flags x.epoch x.desc (ctrlBytes x.desc) ∧ opFind t n seq.toNat = some o1 ∧
        (o.resumeBy = some none → t.regs.ctrlBusy = false ∧ t.regs.ctrlStatus = BitVec.ofNat 8 stOk))) ∧
    ((resumeRoom s n = false ∨ (resumeWaiters s n seq.toNat = [] ∧ o.resumeBy ≠ some none)) →
      exec (.resumeTakesEffect line seq) s = .next s) ∧
    (hostTurn s = true → s.regs.ctrlBusy = false → lineOn s n = true → unassigned s n seq.toNat = false →
      opcodeOf o.desc = opVecOp → o.dispatched = true → censusKey o = none → resumeWaiters s n seq.toNat = [] →
      recordOpen s n = true → s.belay.run = none → s.belay.ready = [] → s.belay.waiting = [] →
      Answers (.cancel (.host line seq)) s (fun t =>
        Finished s t n o.seq (if o.status = stUncorrectable then stUncorrectable else stCancelled) o.flags o.epoch o.desc
          (vecBytes o) ∧ t.regs.ctrlStatus = BitVec.ofNat 8 stOk))

/-! ### The belay engine -/

/-- A BELAY descriptor enters the tracker as dispatched and its request joins the ready requests, or the waiting ones when it is
AT_BARRIER. A host command does the same with the budgets of CFG_BELAY_CFG and sets BUSY, and QUEUED when one is already
BUSY; a third only sets REFUSED. In safe mode a host command completes IMAGE_INVALID at once and raises BELAY_DONE. No
request changes the coil, the active state or memory. (R385, R387, R388, R389, R394, R424) -/
def Obligations.BelayRequestsQueue : Prop :=
  ∀ s : State,
    (∀ (line : LineNo) (o : OpEnt) (mode : BelayMode) (c : Instr), dispatchable s line.toNat o opBelay = true →
      byMode o.desc = modeCode mode →
      (c = if byCheck o.desc then .belayCheck (.desc line) else match mode with
        | .immediate => .belayImmediate (.desc line)
        | .atBarrier => .belayAtBarrier (.desc line)
        | .force => .belayForce (.desc line)) →
      Answers c s (fun t =>
        Entered s t line.toNat (opDispatch s o) ∧
        t.belay = (if mode = .atBarrier then { s.belay with waiting := s.belay.waiting ++ [descReq s line.toNat o mode] }
          else { s.belay with ready := s.belay.ready ++ [descReq s line.toNat o mode] }) ∧
        SameBytes s t ∧ OnlyIn [.port, .belay, .lines, .pmu] s t)) ∧
    (∀ (h : HitchNo) (v : W32) (c : Instr) (r : BelayReq), hostTurn s = true →
      (c, r) ∈ [(Instr.belayImmediate (.host h v), hostReq s .immediate false false h.toNat v),
        (.belayAtBarrier (.host h v), hostReq s .atBarrier false false h.toNat v),
        (.belayForce (.host h v), hostReq s .force false false h.toNat v),
        (.belayCheck (.host h v), hostReq s .immediate true false 0 0), (.revert, hostReq s .immediate false true 0 0)] →
      (s.belay.hostBusy = true → s.belay.hostQueued = true → Answers c s (fun t =>
        t.belay = { s.belay with refused := true } ∧ OnlyIn [.belay] s t)) ∧
      ((s.belay.hostBusy = false ∨ s.belay.hostQueued = false) → s.boot.phase ≠ 8 → Answers c s (fun t =>
        t.belay = { s.belay with
          hostQueued := s.belay.hostBusy, hostBusy := true,
          waiting := s.belay.waiting ++ (if r.mode = .atBarrier then [r] else []),
          ready := s.belay.ready ++ (if r.mode = .atBarrier then [] else [r]) } ∧ OnlyIn [.belay] s t)) ∧
      ((s.belay.hostBusy = false ∨ s.belay.hostQueued = false) → s.boot.phase = 8 → Answers c s (fun t =>
        t.belay.status = BitVec.ofNat 8 stImageInvalid ∧ t.belay.ready = s.belay.ready ∧ t.belay.waiting = s.belay.waiting ∧
        t.regs.irqCause = s.regs.irqCause ||| 0x200 ∧ OnlyIn [.regs, .port, .belay, .pmu] s t)))

/-- When the engine is free in RUN and no FLR runs, the first live ready request takes it. A host REVERT sets the coil to the
active state and reads OK. Any other host request takes the coil as its snapshot: when the check fails it reads
COIL_INCONSISTENT with the check's offset; when it passes, a CHECK reads OK and a belay holds the engine in its drain with
the units it affects. WRITES falls to zero, and the active state and the epoch stay. A waiting AT_BARRIER request whose
hitch has reached its barrier becomes ready. When no dependent operation is left, the drain ends and the quiesce begins at
that instant. (R387, R388, R389, R390, R391, R392, R424) -/
def Obligations.BelayTakesTheEngine : Prop :=
  ∀ s : State,
    (∀ r : BelayReq, s.belay.ready.find? (reqLive s) = some r → r.line = none → s.belay.run = none → s.boot.phase = 7 →
      s.port.flrAt = none →
      let ready := s.belay.ready.erase r
      let u := { s with
        belay := { s.belay with ready := ready, hostQueued := (ready ++ s.belay.waiting).any (fun x => x.line.isNone) },
        cfg := { s.cfg with writes := 0 } }
      let ended (t : State) (st off : Nat) : Prop :=
        t.belay.run = none ∧ t.belay.ready = ready ∧ t.belay.waiting = s.belay.waiting ∧ t.belay.epoch = s.belay.epoch ∧
        t.belay.hostBusy = (ready ++ s.belay.waiting).any (fun x => x.line.isNone) ∧ t.belay.status = BitVec.ofNat 8 st ∧
        t.belay.failOffset = BitVec.ofNat 32 off ∧ t.regs.irqCause.getLsbD 9 = true
      (r.revert = true → Answers .belayEngineTake s (fun t =>
        t.cfg = { s.cfg with coil := s.cfg.act, writes := 0 } ∧ ended t stOk 0 ∧ SameBytes s t)) ∧
      (∀ off : Nat, r.revert = false → coilCheck u s.cfg.coil = some off → Answers .belayEngineTake s (fun t =>
        t.cfg = { s.cfg with writes := 0 } ∧ ended t stCoilInconsistent off ∧ SameBytes s t)) ∧
      (r.revert = false → coilCheck u s.cfg.coil = none →
        (r.checkOnly = true → Answers .belayEngineTake s (fun t =>
          t.cfg = { s.cfg with writes := 0 } ∧ ended t stOk 0 ∧ SameBytes s t)) ∧
        (r.checkOnly = false → Answers .belayEngineTake s (fun t =>
          t.cfg = { s.cfg with writes := 0 } ∧ t.belay.epoch = s.belay.epoch ∧ t.belay.ready = ready ∧
          (∃ b : BelayRun, t.belay.run = some b ∧ b.req = r ∧ b.snapshot = s.cfg.coil ∧ b.stage = .drain ∧ b.fenceAt = tbNow s ∧
            b.units = affectedUnits s.cfg.act s.cfg.coil ∧ b.cancelled = 0) ∧ SameBytes s t)))) ∧
    (runAt s .barrier = none → Answers .belayBarrierReady s (fun t =>
      t.belay.waiting = s.belay.waiting.filter (fun r => !(barrierMet s r && reqLive s r)) ∧
      t.belay.ready = s.belay.ready ++ (s.belay.waiting.filter (fun r => barrierMet s r && reqLive s r)).map (fun r =>
        { r with barriers := r.barriers + 1 }) ∧
      t.belay.run = s.belay.run ∧ OnlyIn [.belay] s t)) ∧
    (∀ r : BelayRun, runAt s .drain = some r → dependentsNow s r = [] → Answers .belayDrainEnd s (fun t =>
      t.belay = { s.belay with run := some { r with stage := .quiesce, drainEndAt := tbNow s } } ∧ t.cfg = s.cfg ∧
      SameBytes s t ∧ OnlyIn [.regs, .port, .belay, .lines, .net, .pmu] s t))

/-- When the drain budget ends, every dependent of the belay that is running or about to suspend, and whose opcode may be
cancelled, turns to CANCEL_PENDING with CANCELLED_DISABLE; every operation that is no dependent keeps its entry, and the
active state, the coil, every hitch and every byte of memory stay. Before the budget ends nothing happens. (Here no
dependent is suspended and sequence numbers name operations uniquely.) (R275, R287, R390, R392) -/
def Obligations.BelayDrainBudgetCancels : Prop :=
  ∀ (r : BelayRun) (s : State), runAt s .drain = some r →
    (tbNow s < r.fenceAt + r.req.drainUs * 1000 → exec .belayDrainBudgetExpiry s = .next s) ∧
    (r.fenceAt + r.req.drainUs * 1000 ≤ tbNow s →
      (∀ p ∈ dependentsNow s r, opFind s p.1 p.2.seq = some p.2 ∧ p.2.track ≠ .suspended) →
      Answers .belayDrainBudgetExpiry s (fun t =>
        (∀ (n q : Nat) (o : OpEnt), opFind s n q = some o → (n, o) ∈ dependentsNow s r →
          neverCancelled (opcodeOf o.desc) = false → (o.track = .running ∨ o.track = .suspendPending) →
          opFind t n q = some { o with
            track := .cancelPending, cancelStatus := stCancelledDisable, resumeBy := if opcodeOf o.desc = opCtrl then o.resumeBy else none }) ∧
        (∀ (n q : Nat), (∀ o : OpEnt, (n, o) ∈ dependentsNow s r → o.seq ≠ q) → opFind t n q = opFind s n q) ∧
        t.cfg = s.cfg ∧ t.hitches = s.hitches ∧ SameBytes s t ∧ OnlyIn [.belay, .lines] s t))

/-- Once every affected unit has passed, the belay point makes the snapshot the active state, raises the epoch by one and frees
the engine; the coil and the waiting requests stay. A host belay then reads OK and raises BELAY_DONE; a descriptor whose
line stays enabled gets its record with the new epoch. Before every unit has passed the point does nothing. When the quiesce
budget ends first, an IMMEDIATE belay, or an AT_BARRIER one without retries, ends NOT_ATOMIC_NOW with the lowest unit that
has not passed: a host belay in CFG_BELAY_STAT, a descriptor in its record; an AT_BARRIER belay with a retry left keeps the
engine for its next barrier, and a FORCE belay keeps it in its quiesce and cancels the operations that hold the units; the
active state and the epoch stay. Before the budget ends, or once every unit has passed, its end does nothing. (R6, R387,
R393, R394, R395, R397, R424) -/
def Obligations.BelayPointApplies : Prop :=
  ∀ (r : BelayRun) (s : State), runAt s .quiesce = some r →
    let quiesceNs := tbNow s - r.drainEndAt
    (blockers s r = [] → Answers .belayPoint s (fun t =>
      t.cfg = { s.cfg with act := r.snapshot } ∧ t.belay.epoch = s.belay.epoch + 1 ∧ t.belay.run = none ∧
      t.belay.ready = s.belay.ready ∧ t.belay.waiting = s.belay.waiting ∧
      (r.req.line = none → t.belay.status = BitVec.ofNat 8 stOk ∧ t.belay.blocker = 0 ∧ t.belay.failOffset = 0 ∧
        t.regs.irqCause.getLsbD 9 = true) ∧
      (∀ (n q : Nat) (o : OpEnt), r.req.line = some (n, q) → flLineEn.get r.snapshot n = 1 →
        let u := applyPoint s r
        opFind u n q = some o → recordOpen u n = true →
        opFind t n q = none ∧ ∀ i : Nat, i < 32 → rawByte t (recordFrame u n + i) =
          (recordBytes o.seq (endStatus o stOk) o.flags o.epoch u.tb.now
            (belayBytes (s.belay.epoch + 1) 0 r.req.barriers 0 r.cancelled quiesceNs)).getD i 0))) ∧
    (blockers s r ≠ [] → exec .belayPoint s = .next s) ∧
    ((blockers s r = [] ∨ tbNow s < r.drainEndAt + r.req.quiesceUs * 1000) → exec .quiesceBudgetExpiry s = .next s) ∧
    (∀ (u : Nat) (us : List Nat), blockers s r = u :: us → r.drainEndAt + r.req.quiesceUs * 1000 ≤ tbNow s →
      ((r.req.mode = .immediate ∨ (r.req.mode = .atBarrier ∧ r.req.retries = 0)) →
        Answers .quiesceBudgetExpiry s (fun t =>
          t.cfg = s.cfg ∧ t.belay.epoch = s.belay.epoch ∧ t.belay.run = none ∧
          (r.req.line = none → t.belay.status = BitVec.ofNat 8 stNotAtomicNow ∧ t.belay.blocker = BitVec.ofNat 4 u ∧
            t.regs.irqCause.getLsbD 9 = true ∧ SameBytes s t) ∧
          (∀ (n q : Nat) (o : OpEnt), r.req.line = some (n, q) → opFind s n q = some o → recordOpen s n = true →
            opFind t n q = none ∧ ∀ i : Nat, i < 32 → rawByte t (recordFrame s n + i) =
              (recordBytes o.seq (endStatus o stNotAtomicNow) o.flags o.epoch s.tb.now
                (belayBytes s.belay.epoch u r.req.barriers 0 r.cancelled quiesceNs)).getD i 0))) ∧
      (∀ k : Nat, r.req.mode = .atBarrier → r.req.retries = k + 1 → Answers .quiesceBudgetExpiry s (fun t =>
        t.cfg = s.cfg ∧ t.belay = { s.belay with run := some { r with stage := .barrier, req := { r.req with retries := k } } } ∧
        SameBytes s t)) ∧
      (r.req.mode = .force → Answers .quiesceBudgetExpiry s (fun t =>
        t.cfg = s.cfg ∧ t.belay.epoch = s.belay.epoch ∧
        (∃ c : Nat, r.cancelled ≤ c ∧ t.belay.run = some { r with cancelled := c }))))

/-! ### Arrays, vector engine and bight unit -/

/-- When the array arbiter of a strand picks a line whose head is a running BRD_MM and whose next sweep fits, the strand gains
exactly one tile-op for each tile of the sweep, at ISSUE now, each on an array that was free or that a running sweep frees
in its last k-block, and no two on one; the strand gains the sweep, which holds no operand yet; the operation's next sweep
is the following one and its units in flight grow by the tiles. No other operation, no other strand and no byte of memory
changes. (R79, R80, R83, R84, R305, R311, R408) -/
def Obligations.SweepIssues : Prop :=
  ∀ (strand : StrandNo) (q : Req) (o : OpEnt) (s : State), quiet s unBraid = false →
    (pickNow s 65536 false (arrayReqs s strand.val) (mapGet Arb.reset s.braidArb strand.val)).1 = some q →
    arrayHead s q.key = some o → brdRuns o = true → sweepFits s strand.val o = true →
    Answers (.sweepIssue strand) s (fun t =>
      (∃ new : List TileOp, (strandGet t strand.val).tiles = (strandGet s strand.val).tiles ++ new ∧
        (new.map (fun x => (x.row, x.col))).Perm (sweepTiles o.desc o.next) ∧ (new.map TileOp.array).Nodup ∧
        (∀ x ∈ new, x.array ∈ grantArrays s strand.val ∧ x.stage = .issued ∧ x.tIssue = s.tb.now ∧ x.bight = false ∧
          x.line = q.key ∧ x.seq = o.seq ∧ x.sweep = o.next ∧ x.batch = sweepBatch o.desc o.next ∧ x.rows = tileRows o.desc x.row ∧
          x.cols = tileCols o.desc x.col)) ∧
      (strandGet t strand.val).sweeps = (strandGet s strand.val).sweeps ++
        [{ line := q.key, seq := o.seq, no := o.next, late := bmPast s o, a := [], b := [], fell := [] }] ∧
      opFind t q.key o.seq = some { o with
        next := o.next + 1, inflight := o.inflight + (sweepTiles o.desc o.next).length, readyAt := none, aged := false } ∧
      (∀ m : Nat, m ≠ q.key → lineGet t m = lineGet s m) ∧
      (∀ k : Nat, k ≠ strand.val → strandGet t k = strandGet s k) ∧ SameBytes s t ∧
      OnlyIn [.free, .regs, .port, .lines, .braidArb, .strands, .wfc, .pmu] s t)

/-- The oldest issued tile-op of an array whose operation is not cancelled and whose operands may be read, with no error found
among them, is READY now. A braid's sweep then holds the first k-block of the tile's rows of A and columns of B, each part
read once for the sweep, and with C_MODE 0b01 the tile's accumulators start from C; each block read in place counts once for
the sweep, and the operation is OK_FALLBACK at least. A bight's tile-op is READY once its rows are staged, OK_FALLBACK at
least when they were read in place after a refused move. While an operand must wait nothing is read and the tile-op stays at
ISSUE. No byte of memory and no other operation changes. (R80, R84, R86, R91, R93, R96, R134, R140, R154, R173) -/
def Obligations.TileOpReadies : Prop :=
  ∀ (strand : StrandNo) (array : ArrayNo) (found : List Found) (x : TileOp) (o : OpEnt) (s : State),
    tileAt s strand.val array.val .issued = some x → opFind s x.line x.seq = some o → o.track ≠ .cancelPending →
    (∀ w : Sweep, x.bight = false → sweepFor s strand.val x = some w →
      let spans := loadSpans o.desc w x [0] ++ tileSpansC o.desc x
      (∀ f ∈ found, foundIn spans f = false) →
      (loadReady s o x.account w.late spans = true →
        let c := if bmCMode o.desc = 1 then readC s strand.val o.desc x else []
        let cs := c.map (fun p => accStart (some (decodeElem (bmDF o.desc) p.1)))
        let x1 := { x with
          stage := .ready, tReady := some s.tb.now, acc := cs.map Prod.fst,
          flags := x.flags ||| flagsOr (cs.map Prod.snd), chafed := x.chafed || c.any Prod.snd }
        let new := (fallBlocks s x.account (spansBlocks spans)).filter (fun b => !w.fell.contains b)
        let w1 := { loadParts s strand.val o.desc x w [0] with fell := w.fell ++ new }
        Answers (.tileOpReady strand array found) s (fun t =>
          strandGet t strand.val = { strandGet s strand.val with
            tiles := (strandGet s strand.val).tiles.map (fun y => if tileSame y x1 then x1 else y),
            sweeps := (strandGet s strand.val).sweeps.map (fun y => if y.line = w.line && y.seq = w.seq && y.no = w.no then w1 else y) } ∧
          (∀ k : Nat, k ≠ strand.val → strandGet t k = strandGet s k) ∧
          opFind t x.line x.seq = some (if new = [] then o
            else opWorse { o with n1 := min (2 ^ 24 - 1) (o.n1 + new.length) } stOkFallback) ∧
          (∀ n : Nat, n ≠ x.line → lineGet t n = lineGet s n) ∧ SameBytes s t)) ∧
      (loadReady s o x.account w.late spans = false → Answers (.tileOpReady strand array found) s (fun t =>
        SameBytes s t ∧ OnlyIn [.eng] s t))) ∧
    (x.bight = true → (0 < x.col ∨ tileBlocks s (opShape o) o (tileSeq o x) x = []) →
      let reads := bgtReads (opShape o) o (tileSeq o x) x
      let pages := tilePages s (opShape o) o (tileSeq o x) x
      (∀ f ∈ found, foundIn (reads ++ pages) f = false) →
      (bgtReady s x.account o reads [] = true → readsHeld s pages = false →
        Answers (.tileOpReady strand array found) s (fun t =>
          TileMoved s t strand.val { x with stage := .ready, tReady := some s.tb.now } ∧
          opFind t x.line x.seq = some (opWorse o
            (if inPlaceRead s x.account o (fun z => z != .kern) (spansBlocks reads) then stOkFallback else stOk)) ∧
          (∀ n : Nat, n ≠ x.line → lineGet t n = lineGet s n) ∧ SameBytes s t)) ∧
      ((bgtReady s x.account o reads [] = false ∨ readsHeld s pages = true) → Answers (.tileOpReady strand array found) s (fun t =>
        SameBytes s t ∧ OnlyIn [.eng] s t)))

/-- A READY tile-op whose array has a bank free and passes no other tile-op's waves is at FIRST_WAVE now. LAST_WAVE, once every
k-block can be read and with no error found, leaves in a braid's tile-op the accumulators that the spec's sums over its
sweep's parts give, with their flags, and in a bight's the tile's outputs once it has passed all its blocks; an accumulator-
store parity error chafes the tile, and a control error ends its operation UNCORRECTABLE. DRAIN converts a braid's
accumulators to the output format; with an epilogue the tile also joins the tile buffers, and waits while four are full.
Nothing else of the strand but the sweep's parts, no other strand, no other operation and no byte of memory changes. (R59,
R75, R80, R84, R92, R94, R100, R134, R136, R145) -/
def Obligations.TileOpWavesAndDrain : Prop :=
  ∀ (strand : StrandNo) (array : ArrayNo) (x : TileOp) (o : OpEnt) (s : State), opFind s x.line x.seq = some o →
    o.track ≠ .cancelPending →
    (tileAt s strand.val array.val .ready = some x → banksUsed s strand.val array.val < 2 →
      tileAt s strand.val array.val .first = none → Answers (.firstWave strand array) s (fun t =>
        TileMoved s t strand.val { x with stage := .first, tFirst := some s.tb.now } ∧ OnlyIn [.strands] s t)) ∧
    (tileAt s strand.val array.val .first = some x →
      (∀ (found : List Found) (w : Sweep), x.bight = false → sweepFor s strand.val x = some w →
        (Answers (.lastWave strand ⟨array, found, some .control⟩) s (fun t =>
          opFind t x.line x.seq = some { opWorse o stUncorrectable with failed := true } ∧ SameBytes s t ∧ OnlyIn [.lines] s t)) ∧
        (∀ err : Option ArrayErr, err ≠ some .control →
          let spans := loadSpans o.desc w x (List.range (bmNkb o.desc))
          (∀ f ∈ found, foundIn (spans ++ []) f = false) → loadReady s o x.account w.late spans = true →
          let new := (fallBlocks s x.account (spansBlocks spans)).filter (fun b => !w.fell.contains b)
          let w1 := { loadParts s strand.val o.desc x w (List.range (bmNkb o.desc)) with fell := w.fell ++ new }
          let v := tileDot o.desc w1 x
          let x1 := { x with
            stage := .last, tLast := some s.tb.now, acc := v.map Prod.fst, flags := x.flags ||| flagsOr (v.map Prod.snd),
            chafed := x.chafed || partsChafed o.desc w1 x || err = some .parity }
          Answers (.lastWave strand ⟨array, found, err⟩) s (fun t =>
            strandGet t strand.val = { strandGet s strand.val with
              tiles := (strandGet s strand.val).tiles.map (fun y => if tileSame y x1 then x1 else y),
              sweeps := (strandGet s strand.val).sweeps.map (fun y =>
                if y.line = w.line && y.seq = w.seq && y.no = w.no then w1 else y) } ∧
            (∀ k : Nat, k ≠ strand.val → strandGet t k = strandGet s k) ∧
            opFind t x.line x.seq = some (if new = [] then o
              else opWorse { o with n1 := min (2 ^ 24 - 1) (o.n1 + new.length) } stOkFallback) ∧
            (∀ n : Nat, n ≠ x.line → lineGet t n = lineGet s n) ∧ SameBytes s t))) ∧
      (∀ (found : List Found) (err : Option ArrayErr), x.bight = true → err ≠ some .control →
        (tileBlocks s (opShape o) o (tileSeq o x) x).length ≤ x.col →
        let reads := bgtReads (opShape o) o (tileSeq o x) x
        let pages := tilePages s (opShape o) o (tileSeq o x) x
        (∀ f ∈ found, foundIn (reads ++ pages) f = false) → bgtReady s x.account o reads [] = true → readsHeld s pages = false →
        let r := computeTile s strand.val o x
        let marks := r.marks.map (fun b => b || err = some .parity)
        Answers (.lastWave strand ⟨array, found, err⟩) s (fun t =>
          TileMoved s t strand.val { x with
            stage := .last, tLast := some s.tb.now, out := r.elems, bVals := r.stats,
            aVals := marks.map (fun b => if b then 1 else 0), chafed := marks.any id, flags := x.flags ||| r.fl } ∧
          OnlyIn [.free, .regs, .port, .strands, .pmu] s t))) ∧
    (tileAt s strand.val array.val .last = some x →
      (x.bight = true → Answers (.tileDrain strand array) s (fun t =>
        TileMoved s t strand.val { x with stage := .drained, tDrain := some s.tb.now } ∧ OnlyIn [.strands] s t)) ∧
      (let r := x.acc.map (drainElem (bmDF o.desc))
       let x1 : TileOp := { x with
         stage := .drained, tDrain := some s.tb.now, out := r.map Prod.fst, flags := x.flags ||| flagsOr (r.map Prod.snd), acc := [] }
       (x.bight = false → bmEpi o.desc = false → Answers (.tileDrain strand array) s (fun t =>
         TileMoved s t strand.val x1 ∧ OnlyIn [.strands] s t)) ∧
       (x.bight = false → bmEpi o.desc = true → (strandGet s strand.val).bufs.length < 4 →
         Answers (.tileDrain strand array) s (fun t =>
           strandGet t strand.val = { strandGet s strand.val with
             tiles := (strandGet s strand.val).tiles.map (fun y => if tileSame y x1 then x1 else y),
             bufs := (strandGet s strand.val).bufs ++ [x1] } ∧
           (∀ k : Nat, k ≠ strand.val → strandGet t k = strandGet s k) ∧ OnlyIn [.strands] s t)) ∧
       (x.bight = false → bmEpi o.desc = true → 4 ≤ (strandGet s strand.val).bufs.length →
         exec (.tileDrain strand array) s = .next s)))

/-- A drained braid tile-op that may write leaves the strand. Without an epilogue each of its rows stands at its place in D
(here D in kern), and every other byte of memory stays; with one no byte of memory changes. Its operation gains one tile
done, one fewer in flight, its flags and, when it is chafed, the chafed count, the first chafed tile and CHAFED at least. A
drained bight tile-op writes its outputs within the spans the rules give it, leaves every other byte, leaves the strand, and
counts one tile done. A tile-op whose writes must wait stays. (Here the tile-op is not tagged for sampling; where the
account's policy halts it on chafe, only a tile without chafe is spoken of.) (R84, R92, R94, R127, R136, R147, R149, R178) -/
def Obligations.TileOpRetires : Prop :=
  ∀ (strand : StrandNo) (array : ArrayNo) (x : TileOp) (o : OpEnt) (s : State),
    tileAt s strand.val array.val .drained = some x → opFind s x.line x.seq = some o → x.tagged = false →
    (x.bight = false →
      let may := (tileSpansD o.desc x).all (fun p => readReady s x.account o (fun z => z != .kern) p.1 p.2 && !bankHolds s p.1 p.2 true)
      let rows := (List.range x.rows).map (fun m =>
        (((atBatch (bmD o.desc) (bmDStride o.desc) x.batch).plus
          (bmDIdx o.desc (x.row * bmTm o.desc + m) (128 * x.col) * fmtBytes (bmDF o.desc))).addr, rowOut (bmDF o.desc) x m))
      let left (t : State) : Prop :=
        (strandGet t strand.val).tiles = (strandGet s strand.val).tiles.filter (fun y => !tileSame y x) ∧
        opFind t x.line x.seq = some (countTile o x false) ∧ (∀ n : Nat, n ≠ x.line → lineGet t n = lineGet s n)
      (may = false → Answers (.tileOpRetire strand array) s (fun t => SameBytes s t ∧ OnlyIn [.eng] s t)) ∧
      (may = true → bmEpi o.desc = true → Answers (.tileOpRetire strand array) s (fun t => left t ∧ SameBytes s t)) ∧
      (may = true → bmEpi o.desc = false → (bmD o.desc).eye = false → (∀ w ∈ rows, w.2 ≠ []) → canStore s x.account rows = true →
        (x.chafed = true → actF s flErrPolicy x.account ≠ 2) →
        Answers (.tileOpRetire strand array) s (fun t => left t ∧ StoredAll s t rows))) ∧
    (x.bight = true → actF s flErrPolicy x.account ≠ 2 →
      let writes := bgtWrites (opShape o) o (tileSeq o x) x
      (bgtReady s x.account o [] writes = false → Answers (.tileOpRetire strand array) s (fun t =>
        SameBytes s t ∧ OnlyIn [.eng] s t)) ∧
      (bgtReady s x.account o [] writes = true →
        Answers (.tileOpRetire strand array) s (fun t =>
          (strandGet t strand.val).tiles = (strandGet s strand.val).tiles.filter (fun y => !tileSame y x) ∧
          (∃ o1 : OpEnt, opFind t x.line x.seq = some o1 ∧ o1.done = o.done + 1 ∧ o1.inflight = o.inflight - 1 ∧
            o1.flags = o.flags ||| x.flags ∧ o1.next = o.next ∧ o1.track = o.track ∧ statusRank o.status ≤ statusRank o1.status) ∧
          (∀ n : Nat, n ≠ x.line → lineGet t n = lineGet s n) ∧ SameBytes (writeBight s strand.val o x).st t ∧
          (spansPlain s writes →
            (x.phase ≠ 0 → x.phase ≠ 2 → x.rows ≤ min (opShape o).kv
              ((tileSeq o x).kvLen - x.row / (opShape o).groups * (opShape o).kv)) → OutsideSame s t writes))))

/-- While no vector request is aged, a tile at the head of the tile buffers that can be read and written, with no error found,
passes the program of its pair and leaves the buffers; its operation counts its elements that may be written. With no tile
buffered, the group that the arbiter picks runs: the operation counts one group done and its elements, and a one-run group
of a format without scales or packed bits, and without a reduction, leaves exactly its stored elements at Z (here in kern).
In both cases no byte of memory changes outside the spans that the operation writes (in kern here). A buffered tile that
cannot be read or written waits. (Where the account's policy halts it on chafe, nothing is said of other lines.) (R98, R100,
R101, R102, R107, R109, R111, R114) -/
def Obligations.VectorGroupRuns : Prop :=
  ∀ (strand : StrandNo) (found : List Found) (o : OpEnt) (s : State), quiet s unVector = false →
    let k := strand.val
    let reqs := vecReqs s k
    (∀ (x : TileOp) (xs : List TileOp), (strandGet s k).bufs = x :: xs → reqs.any (isAged (actF s flAgeUs 0) (tbNow s)) = false →
      opFind s x.line x.seq = some o →
      (spansReady s x.account o (epiReads o x) (epiWrites o x) = false → Answers (.vecGroup ⟨strand, found⟩) s (fun t =>
        SameBytes s t ∧ OnlyIn [.eng] s t)) ∧
      (spansReady s x.account o (epiReads o x) (epiWrites o x) = true → (∀ f ∈ found, foundIn (epiReads o x) f = false) →
      let row (m : Nat) : Nat := (x.row * bmTm o.desc + m) * vcLdz o.desc2 + 128 * x.col
      Answers (.vecGroup ⟨strand, found⟩) s (fun t =>
        (strandGet t k).bufs = xs ∧ (strandGet t k).tiles = (strandGet s k).tiles ∧
        (∃ o1 : OpEnt, opFind t x.line x.seq = some o1 ∧
          o1.n2 = o.n2 + ((List.range x.rows).map (fun m =>
            (lanesKept s x.account (epiZ o.desc2 x.batch) (vcZF o.desc2) (row m) x.cols).count true)).sum ∧
          o1.done = o.done ∧ o1.next = o.next ∧
          (actF s flErrPolicy x.account ≠ 2 → o1.track = o.track) ∧ statusRank o.status ≤ statusRank o1.status) ∧
        (actF s flErrPolicy x.account ≠ 2 → ∀ n : Nat, n ≠ x.line → lineGet t n = lineGet s n) ∧
        (spansPlain s (epiWrites o x) → OutsideSame s t (epiWrites o x)) ∧
        OnlyIn [.regs, .port, .lines, .strands, .mem, .tiers, .eng, .stackSt, .net, .pmu] s t))) ∧
    (∀ q : Req, (strandGet s k).bufs = [] → (pickNow s 256 false reqs (mapGet Arb.reset s.vecArb k)).1 = some q →
      ((lineGet s q.key).ops.filter vecRuns).head? = some o → opFind s q.key o.seq = some o →
      let acct := lineAcct s q.key
      let rs := groupRuns o.desc o.next
      let writes := rs.flatMap (runWrites o.desc)
      (∀ f ∈ found, foundIn (rs.flatMap (runReads o.desc)) f = false) →
      Answers (.vecGroup ⟨strand, found⟩) s (fun t =>
        (∃ o1 : OpEnt, opFind t q.key o.seq = some o1 ∧ o1.next = o.next + 1 ∧ o1.done = o.done + 1 ∧
          o1.n1 = o.n1 + (rs.map (fun p =>
            (lanesKept s acct (vcZ o.desc) (vcZF o.desc) (p.1 * vcLdz o.desc + p.2.1) p.2.2).count true)).sum ∧
          (actF s flErrPolicy acct ≠ 2 → o1.track = o.track) ∧ statusRank o.status ≤ statusRank o1.status) ∧
        (strandGet t k).tiles = (strandGet s k).tiles ∧ (strandGet t k).bufs = [] ∧
        (actF s flErrPolicy acct ≠ 2 → ∀ n : Nat, n ≠ q.key → lineGet t n = lineGet s n) ∧
        (spansPlain s writes → OutsideSame s t writes) ∧
        (∀ p : Nat × Nat × Nat, rs = [p] → vcRed o.desc = 0 → (vcZF o.desc).isK8 = false → vcZF o.desc ≠ .u1 →
          (vcZ o.desc).eye = false →
          let loads := (List.range p.2.2).map (fun i =>
            (vecElem s k acct (vcX o.desc) (vcAux o.desc) (vcXF o.desc) (p.1 * vcLdx o.desc + p.2.1 + i),
             vecY s k acct o.desc (vecConsts o.prog) 0 p.1 (p.2.1 + i)))
          let stored := (storeLanes (vcZF o.desc) (runLanes o.desc o loads).1).1.1
          let z := ((vcZ o.desc).plus ((p.1 * vcLdz o.desc + p.2.1) * fmtBytes (vcZF o.desc))).addr
          let bytes := stored.flatMap (bytesOf (fmtBytes (vcZF o.desc)))
          bytes ≠ [] → canStore s acct [(z, bytes)] = true → StoredAll s t [(z, bytes)]) ∧
        OnlyIn [.regs, .port, .lines, .vecArb, .strands, .mem, .tiers, .eng, .stackSt, .net, .wfc, .pmu] s t))

/-- The bight tile that the arbiter picks takes a free array at ISSUE now and its operation goes on to its next tile; bytes of
memory change only by phase 0 of its sequence, where that is still to run (and is spoken of where it meets no error and the
account's policy does not halt it). At PAGE_WAIT_NS after a page need the tile passes the block and counts its late pages,
OK_FALLBACK at least. A prefetch queues only moves to kern, or first to the mantle for a host-tier block with landed
gradients, for blocks of the PF_WINDOW pages that follow the highest page needed, and one to kern for every block there that
is movable and not refused while the account stays under HARD; no byte of memory changes. (R136, R139, R140, R146, R163,
R166, R172, R178, R258, R305) -/
def Obligations.BightTilesAndPages : Prop :=
  ∀ (strand : StrandNo) (o : OpEnt) (s : State),
    (∀ (found : List Found) (q : Req) (x : TileOp), quiet s unBight = false → quiet s unBraid = false →
      (pickNow s 65536 false (arrayReqs s strand.val) (mapGet Arb.reset s.braidArb strand.val)).1 = some q →
      arrayHead s q.key = some o → opFind s q.key o.seq = some o → brdRuns o = false → nextTile s q.key o = some x →
      freeArrays s strand.val ≠ [] →
      (needsPhase0 o x = true → found = [] ∧ actF s flErrPolicy (lineAcct s q.key) ≠ 2) →
      Answers (.bgtTileIssue ⟨strand, found⟩) s (fun t =>
        (∃ y ∈ (strandGet t strand.val).tiles, y.line = q.key ∧ y.seq = o.seq ∧ y.tile = o.next ∧ y.batch = x.batch ∧
          y.phase = x.phase ∧ y.row = x.row ∧ y.rows = x.rows ∧ y.bight = true ∧ y.stage = .issued ∧ y.tIssue = s.tb.now ∧
          y.array ∈ freeArrays s strand.val) ∧
        (strandGet t strand.val).tiles.length = (strandGet s strand.val).tiles.length + 1 ∧
        (∃ o1 : OpEnt, opFind t q.key o.seq = some o1 ∧ o1.next = o.next + 1 ∧ o1.inflight = o.inflight + 1) ∧
        (∀ n : Nat, n ≠ q.key → lineGet t n = lineGet s n) ∧
        (needsPhase0 o x = false → SameBytes s t) ∧
        OnlyIn [.free, .regs, .port, .lines, .braidArb, .strands, .mem, .tiers, .stackSt, .net, .wfc, .pmu] s t)) ∧
    (∀ (array : ArrayNo) (x : TileOp) (since j : Nat),
      (strandGet s strand.val).tiles.find? (fun t => t.bight && t.array = array.val && t.needAt.isSome) = some x →
      x.needAt = some since → opFind s x.line x.seq = some o → o.track ≠ .cancelPending → bgPageWait o.desc ≠ 0 →
      since + bgPageWait o.desc ≤ tbNow s → (tileBlocks s (opShape o) o (tileSeq o x) x)[x.col]? = some j →
      let late := ((blockPages s (opShape o) o (tileSeq o x) x j).map (fun g => pageBase o x.batch + g)).filter (fun g =>
        !(lateOf s x.account (opShape o) o g).isEmpty)
      Answers (.pageWaitDeadline strand array) s (fun t =>
        (∃ y ∈ (strandGet t strand.val).tiles, tileSame y x = true ∧ x.col < y.col ∧ y.stage = x.stage) ∧
        (∃ o1 : OpEnt, opFind t x.line x.seq = some o1 ∧ o1.n1 = min (2 ^ 24 - 1) (o.n1 + late.length) ∧
          o1.status = (if late = [] then o.status else worse o.status stOkFallback)) ∧
        (∀ n : Nat, n ≠ x.line → lineGet t n = lineGet s n) ∧ SameBytes s t)) ∧
    (∀ (line : LineNo) (seq : Seq), opFind s line.toNat seq.toNat = some o → o.dispatched = true → isBgt o = true →
      o.track = .running → 0 < o.n3 →
      let acct := lineAcct s line.toNat
      let pages := ((List.range (bgPfWindow o.desc)).map (fun i => o.n3 + i)).filter (fun g => g < o.ptab.length / 9)
      let blocks := pages.flatMap (fun g => spanBlocks (pageAddrOf o g) (pageBytes (opShape o)))
      Answers (.bightPrefetch line seq) s (fun t =>
        (∃ new : List Move, t.tiers.moves = s.tiers.moves ++ new ∧
          (∀ m ∈ new, (∃ g ∈ pages, m.origin = .prefetch line.toNat o.seq g) ∧ m.dest = demandTier o (htGet s m.name) ∧
            m.fill = false ∧ m.name ∈ blocks) ∧
          (charge s acct .kern + blocks.length ≤ hardOf s acct .kern →
            ∀ b ∈ blocks, pageMovable s acct b = true → refused o b = false → demandTier o (htGet s b) = .kern →
              ∃ m ∈ new, m.name = b)) ∧
        (∀ n : Nat, n ≠ line.toNat → lineGet t n = lineGet s n) ∧ SameBytes s t ∧
        OnlyIn [.regs, .port, .lines, .tiers, .pmu] s t))

/-- An operation whose work is complete retires, whatever its opcode: it leaves the tracker; with its record of its own status
and flags, after its census record and GEN, where its ring can be written. A failed or cancelled one with nothing in flight
ends with its own status or its cancel's, after its census record. A suspend that has reached its safe point saves its
context in the operation's slot of the context area, writes a SUSPENDED record with the flags so far, keeps the operation in
the tracker as SUSPENDED and signals no hitch. A request ready for AGE_US becomes aged. At DEADLINE_NS each sweep of a
BRD_MM in flight reads in place from then on, and the blocks it still lacks are counted, OK_FALLBACK at least. (R93, R96,
R273, R274, R275, R279, R283, R284, R287, R311, R253, R263) -/
def Obligations.OperationsEndSuspendAndAge : Prop :=
  ∀ (line : LineNo) (seq : Seq) (o : OpEnt) (s : State), opFind s line.toNat seq.toNat = some o →
    let n := line.toNat
    (opComplete s n o = true → (o.track = .running ∨ o.track = .suspendPending) →
      Answers (.operationRetire line seq) s (fun t => opFind t n seq.toNat = none) ∧
      let r := retireCensus (retireGen s o) n o
      (opcodeOf o.desc ≠ opCapColl → opcodeOf o.desc ≠ opSnapshot → recordOpen r.1 n = true →
        Answers (.operationRetire line seq) s (fun t =>
          Finished r.1 t n o.seq o.status o.flags o.epoch o.desc (opBytes r.1 n r.2))) ∧
      (censusKey o = none → r = (retireGen s o, o)) ∧ SameBytes s (retireGen s o) ∧
      (opcodeOf o.desc = opSnapshot → recordOpen s n = true → Answers (.operationRetire line seq) s (fun t =>
        Finished s t n o.seq o.status o.flags o.epoch o.desc (snapBytes o) ∧
        (∀ h ∈ t.tiers.exportHold, ¬ (h.2.1 = n ∧ h.2.2 = o.seq))))) ∧
    ((o.failed = true ∨ o.track = .cancelPending) → recordOpen s n = true →
      s.belay.run = none → s.belay.ready = [] → s.belay.waiting = [] →
      (o.dispatched = false → o.inflight = 0 → bufTiles s n o = [] → Answers (.operationFailure line seq) s (fun t =>
        Finished s t n o.seq (endStatus o stOk) o.flags o.epoch o.desc (earlyBytes o))) ∧
      (let r := retireCensus (stopOp s n o) n o
       o.dispatched = true → (opcodeOf o.desc = opVecOp ∨ opcodeOf o.desc = opSplUpd ∨ opcodeOf o.desc = opSplAcc) →
        o.inflight = 0 → bufTiles s n o = [] → recordOpen r.1 n = true → Answers (.operationFailure line seq) s (fun t =>
          Finished r.1 t n o.seq (endStatus o stOk) o.flags o.epoch o.desc (opBytes r.1 n r.2)))) ∧
    (o.dispatched = true → o.track = .suspendPending → o.failed = false → atSafePoint s n o = true → opComplete s n o = false →
      recordOpen s n = true → plainSpan s (ctxAddr s n o) (ctxBytes s o).length = true → Answers (.safePointSuspend line seq) s (fun t =>
        opFind t n o.seq = some { o with track := .suspended } ∧ (∀ q : Nat, q ≠ o.seq → opFind t n q = opFind s n q) ∧
        (∀ i : Nat, i < 32 → rawByte t (recordFrame s n + i) =
          (recordBytes o.seq stSuspended o.flags o.epoch s.tb.now []).getD i 0) ∧
        (apart [(recordFrame s n, 32), (ctxAddr s n o, (ctxBytes s o).length)] = true → ∀ i : Nat, i < (ctxBytes s o).length →
          rawByte t (ctxAddr s n o + i) = (ctxBytes s o).getD i 0) ∧
        (∀ a : Nat, ¬ (recordFrame s n ≤ a ∧ a < recordFrame s n + 32) → ¬ (ctxAddr s n o ≤ a ∧ a < ctxAddr s n o + (ctxBytes s o).length) →
          rawByte t a = rawByte s a) ∧
        (lineGet t n).cqTail = ((lineGet s n).cqTail + 1) % cqSize s n ∧ (lineGet t n).stopped = (lineGet s n).stopped ∧
        (lineGet t n).fetch = (lineGet s n).fetch ∧ (∀ m : Nat, m ≠ n → lineGet t m = lineGet s m) ∧
        OnlyIn [.free, .regs, .port, .lines, .mem, .tiers, .net, .pmu] s t)) ∧
    (hasRequest o = true →
      (∃ at_ ∈ o.readyAt.toList ++ o.splReady.map Prod.snd, at_ + actF s flAgeUs 0 * 1000 ≤ tbNow s) → Answers (.requestAged line seq) s (fun t =>
      Entered s t n { o with aged := true } ∧
      (strandGet t (lineStrand s n)).tiles = (strandGet s (lineStrand s n)).tiles ∧ OnlyIn [.lines, .strands] s t)) ∧
    (let k := lineStrand s n
     let ws := (strandGet s k).sweeps.filter (fun w => w.line = n && w.seq = o.seq && !w.late)
     let reads := (ws.map (fun w => ((lateBlocks s k o (lineAcct s n) w).filter (fun b => !w.fell.contains b)).length)).sum
     o.dispatched = true → opcodeOf o.desc = opBrdMm → bmPast s o = true →
      Answers (.directReadFallback line seq) s (fun t =>
        opFind t n o.seq = some (if reads = 0 then o else { o with
          n1 := min (2 ^ 24 - 1) (o.n1 + reads), status := worse o.status stOkFallback }) ∧
        (∀ w ∈ (strandGet t k).sweeps, w.line = n → w.seq = o.seq → w.late = true) ∧
        (∀ m : Nat, m ≠ n → lineGet t m = lineGet s m) ∧ SameBytes s t ∧ OnlyIn [.regs, .port, .lines, .strands, .pmu] s t))

/-! ### Tiers, moves and landing -/

/-- The move or fill that the mover's arbiter picks takes a free frame from the pools and, but for a fill, marks its block
MOVING; no other entry changes. A move's retire copies all 64 KiB of the block into the destination frame, changes no byte
outside that frame, sets the entry to the new tier and frame (HOME, LANDING or CHAFED) and keeps the old frame for reads
already begun. An ALLOC fill leaves its frame all zeros and the entry HOME with the attributes of its descriptor. A release
returns the old frame to the pools and ends its charge. (Moves between kern and mantle, no write held, and no dead request
or error among them.) While a bank of either frame holds the access, the retire waits. (R152, R156, R157, R160, R162, R163,
R165, R194) -/
def Obligations.BlockMovesStartAndEnd : Prop :=
  ∀ s : State,
    (∀ (found : List Found) (q : Req) (c : Cand) (f : Nat), quiet s unMover = false → s.tiers.moves.any (moveDead s) = false →
      (∀ x ∈ candidates s, x.dest ≠ .mantle ∨ arenaOf s x.name = none) →
      (pickNow s 64 true (moverReqs s (candidates s)) s.tiers.arb).1 = some q → (candidates s)[q.key]? = some c →
      frameFor s c = some f → (c.fill = false → ∀ a ∈ found, foundIn [(c.name * blockBytes, blockBytes)] a = false) →
      Answers (.blockMoveStart found) s (fun t =>
        (∃ m ∈ t.tiers.moves, m.started = true ∧ m.name = c.name ∧ m.dest = c.dest ∧ m.destFrame = f ∧ m.fill = c.fill ∧
          m.account = c.account ∧ m.origin = c.origin) ∧
        htGet t c.name = (if c.fill then htGet s c.name else { htGet s c.name with state := .moving }) ∧
        (∀ b : Nat, b ≠ c.name → htGet t b = htGet s b) ∧
        poolGet t c.dest = (if 0 < (poolGet s c.dest).general then { poolGet s c.dest with general := (poolGet s c.dest).general - 1 }
          else { poolGet s c.dest with reserve := (poolGet s c.dest).reserve - 1 }) ∧
        (∀ (n qn : Nat) (o : OpEnt), c.op = some (n, qn) → opFind s n qn = some o →
          ∃ o1 : OpEnt, opFind t n qn = some o1 ∧ (againOf o = [] → o.next + 1 ≤ o1.next) ∧ o1.inflight = o.inflight + 1) ∧
        SameBytes s t ∧ OnlyIn [.free, .lines, .tiers, .wfc] s t)) ∧
    (∀ (name : DevAddr) (m : Move), moveOf s (blockNo name.toNat) = some m → s.wf = true →
      let e := htGet s m.name
      let dst := frameBase m.dest m.destFrame
      let src := frameBase e.tier e.frame
      (m.fill = false → m.held = [] → m.freeAtRetire = false → e.tier ≠ .host → m.dest ≠ .host →
        src + blockBytes ≤ hostFrames → dst + blockBytes ≤ hostFrames → collOps s = [] →
        (∀ (k : Nat), ∀ x ∈ (strandGet s k).tiles, x.bight = false ∨ x.stage = .last ∨ x.stage = .drained) →
        frameHeld s e.tier e.frame false = false → frameHeld s m.dest m.destFrame true = false →
        Answers (.blockMoveRetire name) s (fun t =>
          Copied s t src dst blockBytes ∧ OutsideFrame s t dst blockBytes ∧
          (∃ st : BlockState, (st = .home ∨ st = .chafed) ∧
            htGet t m.name = { e with tier := m.dest, frame := m.destFrame, touch := s.tb.now, state := st }) ∧
          (∀ b : Nat, b ≠ m.name → htGet t b = htGet s b) ∧
          (e.land = false ∨ m.dest ≠ .mantle → t.tiers.moves = s.tiers.moves.filter (fun x => !(x.started && x.name = m.name))) ∧
          t.tiers.releasing = s.tiers.releasing ++ [(e.tier, e.frame, m.account)] ∧
          (∀ (n q : Nat) (o : OpEnt), m.origin = .op n q → opFind s n q = some o →
            ∃ o1 : OpEnt, opFind t n q = some o1 ∧ o.done + 1 ≤ o1.done ∧ o1.inflight = o.inflight - 1 ∧ o1.n1 = o.n1 + 1))) ∧
      (m.fill = false → (frameHeld s e.tier e.frame false = true ∨ frameHeld s m.dest m.destFrame true = true) →
        Answers (.blockMoveRetire name) s (fun t => SameBytes s t ∧ OnlyIn [.eng] s t)) ∧
      (∀ (n q : Nat) (o : OpEnt), m.fill = true → m.origin = .op n q → opFind s n q = some o → m.dest ≠ .host →
        dst + blockBytes ≤ hostFrames → frameHeld s m.dest m.destFrame true = false →
        Answers (.allocFillDone name) s (fun t =>
          (∀ i : Nat, i < blockBytes → rawByte t (dst + i) = 0) ∧ OutsideFrame s t dst blockBytes ∧
          (∃ g : BitVec 16, htGet t m.name = { HtEntry.reset with
            state := .home, tier := m.dest, derived := mvDerived o.desc, shared := mvShared o.desc, pinned := mvPinned o.desc,
            account := m.account, frame := m.destFrame, gen := g, touch := s.tb.now }) ∧
          (∀ b : Nat, b ≠ m.name → htGet t b = htGet s b) ∧
          t.tiers.moves = s.tiers.moves.filter (fun x => !(x.started && x.name = m.name)) ∧
          (∃ o1 : OpEnt, opFind t n q = some o1 ∧ o.done + 1 ≤ o1.done ∧ o1.inflight = o.inflight - 1) ∧
          OnlyIn [.free, .lines, .mem, .tiers] s t))) ∧
    (∀ (tier : Tier) (frame : BitVec 24) (r : Tier × Nat × Nat),
      s.tiers.releasing.find? (fun r => r.1 = tier && r.2.1 = frame.toNat) = some r →
      Answers (.frameRelease tier frame) s (fun t =>
        t.tiers.releasing = s.tiers.releasing.erase r ∧
        (poolGet t tier).general + (poolGet t tier).reserve = (poolGet s tier).general + (poolGet s tier).reserve + 1 ∧
        charge t r.2.2 tier = charge s r.2.2 tier - 1 ∧ (∀ b : Nat, htGet t b = htGet s b) ∧ OnlyIn [.tiers] s t))

/-- For the first request that waits for a frame, an eviction queues one move of the victim to the tier below with the request's
class; without a victim the request fails and EVICT_BLOCKED is set and raises its cause. With no request waiting, the oldest
block of an account above SOFT is moved down. A reserve below its size queues a refill of class 7. A demand move queues one
move of the block to the tier that the consumer wants, or at HARD records the refusal. A landing move brings an arena block
of an SPL operation to the mantle. (No request among the moves is dead.) Each changes no entry and no byte of memory. (R163,
R166, R167, R168, R169, R173, R174, R228, R236, R308) -/
def Obligations.DeviceMovesQueue : Prop :=
  ∀ s : State, s.tiers.moves.any (moveDead s) = false →
    (∀ (tier u : Tier), below tier = some u →
      (∀ (c : Cand) (cs : List Cand), (frameWaiters s tier).drop (evicting s tier) = c :: cs →
        (∀ b : Nat, victim s tier (some c.account) = some b → Answers (.eviction tier) s (fun t =>
          MoveQueued s t b .evict u c.cls c.deadline ∧ OnlyIn [.tiers] s t)) ∧
        (victim s tier (some c.account) = none → Answers (.eviction tier) s (fun t =>
          (poolGet t tier).evictBlocked = true ∧ t.regs.irqCause = s.regs.irqCause ||| 0x8 ∧
          (∀ (n q : Nat) (o : OpEnt), c.op = some (n, q) → opFind s n q = some o →
            ∃ o1 : OpEnt, opFind t n q = some o1 ∧ o1.failed = true ∧ o1.status = worse o.status stQuotaExceeded) ∧
          (∀ b : Nat, htGet t b = htGet s b) ∧ OnlyIn [.regs, .port, .lines, .tiers, .pmu] s t))) ∧
      (∀ b : Nat, (frameWaiters s tier).drop (evicting s tier) = [] → (softExcess s tier).findSome? (fun a => ownVictim s a tier) = some b →
        Answers (.eviction tier) s (fun t =>
          MoveQueued s t b .evict u (causeOf s (htGet s b).account tier).1 (causeOf s (htGet s b).account tier).2 ∧ OnlyIn [.tiers] s t)) ∧
      (∀ b : Nat, (poolGet s tier).reserve + evicting s tier < reserveSize s tier → victim s tier none = some b →
        Answers (.reserveRefill tier) s (fun t => MoveQueued s t b .refill u 7 0 ∧ OnlyIn [.tiers] s t))) ∧
    (∀ (line : LineNo) (seq : Seq) (name : DevAddr) (o : OpEnt), opFind s line.toNat seq.toNat = some o → o.dispatched = true →
      let n := line.toNat
      let b := blockNo name.toNat
      let e := htGet s b
      (wantsDemand s o b = true → b ∈ demandBlocks s n o → e.account = lineAcct s n →
        (charge s e.account (demandTier o e) < hardOf s e.account (demandTier o e) → Answers (.demandMove line seq name) s (fun t =>
          MoveQueued s t b (.demand n o.seq) (demandTier o e) (dClass o.desc) (consumerDeadline o) ∧
          OnlyIn [.regs, .port, .tiers, .pmu] s t)) ∧
        (hardOf s e.account (demandTier o e) ≤ charge s e.account (demandTier o e) → opcodeOf o.desc ≠ opCapColl → collOps s = [] →
          Answers (.demandMove line seq name) s (fun t =>
            opFind t n o.seq = some { o with wset := o.wset ++ [(b, 0)] } ∧ t.tiers = s.tiers ∧
            (∀ m : Nat, m ≠ n → lineGet t m = lineGet s m) ∧ OnlyIn [.regs, .port, .lines, .pmu] s t))) ∧
      ((opcodeOf o.desc = opSplUpd ∨ opcodeOf o.desc = opSplAcc) → (e.state = .home ∨ e.state = .landing) →
        ¬ (e.tier = .mantle ∧ e.frame = nameFrame b) → (arenaOf s b).isSome = true → e.account = lineAcct s n →
        refused o b = false → (∀ m ∈ s.tiers.moves, m.name ≠ b) →
        (charge s e.account .mantle < hardOf s e.account .mantle ∨ e.tier = .mantle) →
        Answers (.landingMove line seq name) s (fun t =>
          MoveQueued s t b (.landing n o.seq) .mantle (dClass o.desc) 0 ∧ OnlyIn [.tiers] s t)))

/-- When a block's move into the mantle has retired with landed chunks, the merge sets LAND to 0, releases every landing slot of
the block and its charge, applies the writes held for it, counts in MERGES, and changes no byte of memory outside the
block's frame. For a block with one slot of one landed chunk that replaces, and with no write held, the elements of the
chunk in the frame become those of the slot. (No capstan or bight work waits.) No other block's entry changes. (R156, R243,
R256, R257, R63) -/
def Obligations.LandingMerges : Prop :=
  ∀ (name : DevAddr) (s : State),
    let b := blockNo name.toNat
    let e := htGet s b
    let dst := frameBase .mantle e.frame
    s.tiers.merging.contains b = true → e.land = true → e.tier = .mantle →
    plainSpan s dst blockBytes = true →
    (∀ p ∈ s.tiers.land, p.2.block = b → p.2.offset + 256 ≤ blockBytes ∧
      ∀ c ∈ p.2.landed, c.1 + c.2 * elemBytes ((Fmt.ofCode p.2.fmt).getD .w32) ≤ 256) →
    (∀ p ∈ s.tiers.mergeHeld, p.1 = b → p.2.offset + p.2.bytes.length ≤ blockBytes) → collOps s = [] →
    (∀ (k : Nat), ∀ x ∈ (strandGet s k).tiles, x.bight = false ∨ x.stage = .last ∨ x.stage = .drained) →
    Answers (.landingMerge name) s (fun t =>
      (htGet t b).land = false ∧ (htGet t b).tier = .mantle ∧ (htGet t b).frame = e.frame ∧ (htGet t b).account = e.account ∧
      (∀ x : Nat, x ≠ b → htGet t x = htGet s x) ∧ (∀ p ∈ t.tiers.land, p.2.block ≠ b) ∧ t.tiers.merging.contains b = false ∧
      charge t e.account .mantle = charge s e.account .mantle - 1 ∧ t.tiers.merges = min 65535 (s.tiers.merges + 1) ∧
      OutsideFrame s t dst blockBytes ∧
      (∀ (key : Nat) (x : LandSlot) (off n : Nat), s.tiers.land.filter (fun p => p.2.block = b) = [(key, x)] → x.replace = true →
        x.landed = [(off, n)] → (∀ p ∈ s.tiers.mergeHeld, p.1 ≠ b) →
        Copied s t (slotAddr s (key / 16384) (key % 16384) + off) (dst + x.offset + off)
          (n * elemBytes ((Fmt.ofCode x.fmt).getD .w32))) ∧
      OnlyIn [.regs, .port, .lines, .hitches, .mem, .tiers, .net, .pmu] s t)

/-- With no parity job in the channel and only SPL_UPDs running, the operation that the splicer's arbiter picks has its next
chunk skipped, CHAFED or QUOTA_EXCEEDED at least and counted in CHAFED_CHUNKS, where its blocks are chafed or could not be
moved, and run otherwise: it counts one chunk done unless a write was dropped, and memory changes only within the spans of
the streams that its program stores to (with no error found; where the account's policy halts it on chafe, nothing is said
of other lines). A snapshot's read of one master block counts its elements, exports them, changes no byte of kern or mantle,
and ends its holds on blocks that no unread block needs. (R226, R229, R236, R237, R243, R244, R249, R254, R260, R263, R305) -/
def Obligations.SplicerChunksAndSnapshots : Prop :=
  (∀ (chan : BitVec 10) (found : List Found) (q : Req) (o : OpEnt) (u : Nat) (s : State), chan.toNat < nchan s.fuses.variant → quiet s unSplicer = false →
    (∀ bank : Nat, bank < 32 → (bankGet s (bk chan.toNat bank)).parity = []) →
    (∀ p ∈ allOps s, splRuns p.2 = true → opcodeOf p.2.desc = opSplUpd) →
    (pickNow s 4096 false (splReqs s chan.toNat) (mapGet Arb.reset s.splArb chan.toNat)).1 = some q →
    ((lineGet s q.key).ops.filter (fun o => splRuns o && (nextChunk s q.key o chan.toNat).isSome)).head? = some o →
    nextChunk s q.key o chan.toNat = some u →
    let acct := lineAcct s q.key
    let skip (c : ChunkCase) (st : Nat) : Prop := chunkCase s acct o u = c → Answers (.splChunk ⟨chan, found⟩) s (fun t =>
      opFind t q.key o.seq = some { o with
        status := worse o.status st, units := setIns o.units u, splReady := mapUpd o.splReady chan.toNat none,
        chafedN := min (2 ^ 32 - 1) (o.chafedN + 1) } ∧
      (∀ n : Nat, n ≠ q.key → lineGet t n = lineGet s n) ∧ OnlyIn [.lines, .splArb, .wfc] s t)
    skip .skipChafed stChafed ∧ skip .skipFailed stQuotaExceeded ∧
    (chunkCase s acct o u = .run → (∀ f ∈ found, foundIn (chunkLoads s o u false) f = false) →
      let spans := chunkStores s o u false
      Answers (.splChunk ⟨chan, found⟩) s (fun t =>
        (∃ o1 : OpEnt, opFind t q.key o.seq = some o1 ∧ o1.units = setIns o.units u ∧
          ((∀ b ∈ spansBlocks spans, badName s (some acct) (b * blockBytes) = false) → o1.done = o.done + 1) ∧
          (actF s flErrPolicy acct ≠ 2 → o1.track = o.track) ∧ statusRank o.status ≤ statusRank o1.status) ∧
        (actF s flErrPolicy acct ≠ 2 → ∀ n : Nat, n ≠ q.key → lineGet t n = lineGet s n) ∧
        (spansPlain s spans → OutsideSame s t spans) ∧
        OnlyIn [.regs, .port, .lines, .splArb, .mem, .tiers, .eng, .stackSt, .net, .wfc, .pmu] s t))) ∧
  (∀ (line : LineNo) (seq : Seq) (i b : Nat) (found : List Found) (o : OpEnt) (s : State),
    opFind s line.toNat seq.toNat = some o → o.dispatched = true → opcodeOf o.desc = opSnapshot → o.track = .running → o.failed = false → o.units.contains i = false →
    quiet s unMover = false → (snBlocks s o.desc)[i]? = some b →
    (readsHeld s (snReads s o.desc b) = true → Answers (.snapshotBlockRead line seq ⟨i, found⟩) s (fun t =>
      SameBytes s t ∧ OnlyIn [.eng] s t)) ∧
    (readsHeld s (snReads s o.desc b) = false → (∀ f ∈ found, foundIn (snReads s o.desc b) f = false) → snPeer o.desc = false → hostBase ≤ snDest o.desc →
    Answers (.snapshotBlockRead line seq ⟨i, found⟩) s (fun t =>
      (∃ o1 : OpEnt, opFind t line.toNat o.seq = some o1 ∧ o1.units = setIns o.units i ∧
        o1.done = o.done + ((chunksIn s o.desc b).map (snChunkLen o.desc)).sum ∧ o1.track = o.track ∧
        ((setIns o.units i).length = o.total → o1.n3 = (if o.n3 = 0 then 1 else o.n3))) ∧
      (∀ a : Nat, a < hostFrames → rawByte t a = rawByte s a) ∧
      (∀ h ∈ t.tiers.exportHold, h ∈ s.tiers.exportHold) ∧
      (∀ h ∈ s.tiers.exportHold, ¬ (h.2.1 = line.toNat ∧ h.2.2 = o.seq) → h ∈ t.tiers.exportHold) ∧
      (∀ n : Nat, n ≠ line.toNat → lineGet t n = lineGet s n))))

/-! ### The fid path, row logic and micro-ops -/

/-- A READ of the account's granule that nothing holds answers its 32 bytes and its mark and changes no byte. A WRITE stores the
bytes whose mask bit is set at the granule and no other byte, clearing a mantle granule's mark only when the mask is full.
ADD_I32, ADD_W32, MAX_W32 and OR combine the selected lanes of the granule with their data, leave the other lanes, answer
the granule as it was before, and keep its mark. (The block is not MOVING, and no posted write covers the granule.) A
request that must wait joins the waiting requests and changes no byte. A name that the account may not use answers marked
chafed, counts in BAD_ACCESS and stores nothing. (R155, R176, R177, R188, R189, R63) -/
def Obligations.FidRequestsAnswer : Prop :=
  ∀ (strand : StrandNo) (account : Acct) (addr : DevAddr) (data : BitVec 256) (mask : BitVec 32) (lanes : BitVec 8) (fa : Nat) (s : State),
    unitOn s 6 = true → quiet s unChannels = false →
    let a := addr.toNat / 32 * 32
    let k := strand.val
    let word (g : Nat → Byte) (i : Nat) : W32 := BitVec.ofNat 32 (natOfBytes ((List.range 4).map (fun j => g (4 * i + j))))
    let new (j : Nat) : Byte := (bytesOf 32 data.toNat).getD j 0
    let still := regionOf s.fuses.variant a = .straight ∨ (htGet s (blockNo a)).state ≠ .moving
    let rmws : List (Instr × (W32 → W32 → W32)) := [
      (.fidAddI32 strand account addr data lanes, fun x y => x + y),
      (.fidAddW32 strand account addr data lanes, fun x y => (opAdd x y 0).1),
      (.fidMaxW32 strand account addr data lanes, fun x y => (opMax x y 0).1),
      (.fidOr strand account addr data lanes, fun x y => x ||| y)]
    let queued (c : Instr) : Prop := Answers c s (fun t =>
      (∃ r : HeldReq, r.cmd = c ∧ r.host = false ∧ r.addr = a ∧ t.ingress.queue = s.ingress.queue ++ [r]) ∧ SameBytes s t)
    (fidFrame s account.toNat a = some fa →
      (fidWaits s a fa false false = true → queued (.fidRead strand account addr .none)) ∧
      (fidWaits s a fa false true = true → queued (.fidWrite strand account addr data mask)) ∧
      (fidWaits s a fa true true = true → ∀ p ∈ rmws, queued p.1) ∧
      (fidWaits s a fa false false = false → Answers (.fidRead strand account addr .none) s (fun t =>
        (strandGet t k).fidData = granWord (drawn s) fa ∧ (strandGet t k).fidChafed = viewMark (drawn s) fa ∧ SameBytes s t)) ∧
      (fidWaits s a fa false true = false → still → plainSpan s fa 32 = true →
        Answers (.fidWrite strand account addr data mask) s (fun t =>
          (∀ j : Nat, j < 32 → rawByte t (fa + j) = if mask.getLsbD j then new j else rawByte s (fa + j)) ∧
          OutsideFrame s t fa 32 ∧ (mask ≠ BitVec.allOnes 32 → granChafed t fa = granChafed s fa) ∧
          (mask = BitVec.allOnes 32 → mantleBase ≤ fa → granChafed t fa = false) ∧ (∀ m : Nat, lineGet t m = lineGet s m) ∧
          ∀ m : Nat, strandGet t m = strandGet s m)) ∧
      (fidWaits s a fa true true = false → still → plainSpan s fa 32 = true →
        ∀ (c : Instr) (f : W32 → W32 → W32), (c, f) ∈ rmws →
          Answers c s (fun t =>
            (∀ i : Nat, i < 8 → word (fun j => rawByte t (fa + j)) i =
              if lanes.getLsbD i then f (word (fun j => rawByte s (fa + j)) i) (word new i) else word (fun j => rawByte s (fa + j)) i) ∧
            (strandGet t k).fidData = BitVec.ofNat 256 (natOfBytes ((List.range 32).map (fun j => rawByte s (fa + j)))) ∧
            (strandGet t k).fidChafed = viewMark s fa ∧ granChafed t fa = granChafed s fa ∧ OutsideFrame s t fa 32 ∧
            (∀ m : Nat, m ≠ k → strandGet t m = strandGet s m) ∧ (∀ m : Nat, lineGet t m = lineGet s m)))) ∧
    (fidFrame s account.toNat a = none →
      let counted (t : State) : Prop := badName s (some account.toNat) a = true →
        (poolGet t (nameTier (blockNo a))).badAccess = min 15 ((poolGet s (nameTier (blockNo a))).badAccess + 1)
      Answers (.fidRead strand account addr .none) s (fun t => (strandGet t k).fidChafed = true ∧ SameBytes s t ∧ counted t) ∧
      Answers (.fidWrite strand account addr data mask) s (fun t => SameBytes s t ∧ counted t) ∧
      ∀ p ∈ rmws, Answers p.1 s (fun t => (strandGet t k).fidChafed = true ∧ SameBytes s t ∧ counted t))

/-- In a bank whose atom runs a word with the row op's OP, ZERO, ONES, COPY, NOT, AND, OR, XOR or MAJ3 of its sources (each a
row, the latch or nothing, inverted where the word says) is the result: the bank's run goes on to the next word, with the
latch unchanged, the result or the majority as LMODE says and one row op fewer left in the atom. With DWR the destination
row of 1 KiB becomes the result and every other byte of memory stays; without it no byte changes. Marks of the sources go to
what is written. (Nothing is said of lines while a SHARED block's account halts on chafe.) (R208, R212, R213, R214, R215,
R220, R224) -/
def Obligations.RowOpsCompute : Prop :=
  ∀ (c : Instr) (chan : BitVec 10) (bank : BankNo) (op n q left : Nat) (r : BankRun) (rest : List BankRun) (o : OpEnt) (s : State),
    (c, op) ∈ [(Instr.rowZero chan bank, 0), (.rowOnes chan bank, 1), (.rowCopy chan bank, 2), (.rowNot chan bank, 3),
      (.rowAnd chan bank, 4), (.rowOr chan bank, 5), (.rowXor chan bank, 6), (.maj3 chan bank, 7)] →
    let gc := chan.toNat
    let k := bk gc bank.val
    let w := rowWord o.prog r.pc
    let v := s.fuses.variant
    (bankGet s k).atom = some (n, q, left + 1) → (bankGet s k).runs = r :: rest → opFind s n q = some o → rwOp w = op →
    r.line = n → r.seq = q → gc < nchan v →
    let src (x i : Nat) := (readSrc s gc bank.val r x).map (fun p => (if w.testBit i then ~~~p.1 else p.1, p.2))
    let a := src (rwSa w) 8
    let b := src (rwSb w) 9
    let d := src (rwSc w) 10
    let x := (a.map Prod.fst).getD 0
    let y := (b.map Prod.fst).getD 0
    let z := (d.map Prod.fst).getD 0
    let res : BitVec 8192 :=
      if op = 0 then 0 else if op = 1 then BitVec.allOnes 8192 else if op = 2 then x else if op = 3 then ~~~ x
      else if op = 4 then (if d.isSome then x &&& y &&& z else x &&& y)
      else if op = 5 then x ||| y ||| z else if op = 6 then x ^^^ y ^^^ z
      else (x &&& y) ||| (x &&& z) ||| (y &&& z)
    let row := 128 * actF s flRawSlab (rwDst w / 128) + rwDst w % 128
    let stop := rwKeep w && o.track = .suspendPending
    let halts := s.tiers.ht.any (fun p => p.2.shared && actF s flErrPolicy p.2.account == 2)
    Answers c s (fun t =>
      (∃ r1 : BankRun, (bankGet t k).runs = r1 :: rest ∧ r1.pc = r.pc + 1 ∧ r1.line = n ∧ r1.seq = q ∧
        r1.latch = (if rwLmode w = 0 then r.latch else if rwLmode w = 1 then res else (x &&& y) ||| (x &&& z) ||| (y &&& z)) ∧
        r1.stopped = stop) ∧
      (bankGet t k).atom = some (n, q, if stop then 0 else left) ∧ (bankGet t k).parity = (bankGet s k).parity ∧
      (∀ j : Nat, j ≠ k → bankGet t j = bankGet s j) ∧
      (rwDwr w = false → SameBytes s t) ∧
      (rwDwr w = true → row < 2 ^ 15 →
        (∀ i : Nat, i < 1024 → rawByte t (rowAddr v gc bank.val row i) = BitVec.ofNat 8 (res.toNat >>> (8 * i))) ∧
        (∀ f : Nat, (∀ i : Nat, i < 1024 → rowAddr v gc bank.val row i ≠ f) → rawByte t f = rawByte s f)) ∧
      (∃ o1 : OpEnt, opFind t n q = some o1 ∧ o.chafedN ≤ o1.chafedN ∧ o1.units = o.units ∧ o1.inflight = o.inflight ∧
        (halts = false → o1.track = o.track)) ∧
      (halts = false → ∀ m : Nat, m ≠ n → lineGet t m = lineGet s m) ∧
      OnlyIn [.regs, .port, .lines, .mem, .tiers, .eng, .net, .pmu] s t)

/-- In an idle bank whose first run has work left, an atom of the run's remaining words, at most 24, starts when fewer than
eight banks of the channel run atoms, nothing holds the bank back and it is the bank's turn; a spilled latch is restored. At
an atom's end with work left, a bank with a refresh owed, an access held or awaited, or another sequence spills its latch
and its run goes to the back; otherwise the run stays in front. A run at its end or its stopping point, or of a cancelled
operation, leaves the bank, and the groups that it wrote wait for their parity. A parity recompute sets the 1 KiB parity row
of the bank's first pending group to the XOR of the group's 16 data rows and changes no other byte. (R197, R218, R219, R220,
R222, R224) -/
def Obligations.AtomsAndParity : Prop :=
  ∀ (chan : BitVec 10) (bank : BankNo) (s : State),
    let gc := chan.toNat
    let k := bk gc bank.val
    let b := bankGet s k
    let owed := (refreshGet s (rk (4 + gc / 96) (gc % 96) bank.val)).owed
    gc < nchan s.fuses.variant →
    (∀ p ∈ allOps s, mayRun gc bank.val p.2 = true → ∃ r ∈ b.runs, r.line = p.1 ∧ r.seq = p.2.seq) →
    (∀ (r : BankRun) (rest : List BankRun) (o : OpEnt), b.runs = r :: rest → opFind s r.line r.seq = some o →
      o.track ≠ .cancelPending → r.stopped = false → r.pc < rsProgLen o.desc →
      (b.atom = none → quiet s unRow = false → atomsOf s gc < 8 → bankBusy s gc bank.val (freshRun r) = false →
        (∀ x : Nat, bankTurn s gc = some x → x = bank.val) → Answers (.atomStart chan bank) s (fun t =>
          bankGet t k = { b with
            runs := (if r.spilled then { r with latch := r.spillRow, marks := r.spillMarks, spilled := false } else r) :: rest,
            atom := some (r.line, r.seq, min 24 (rsProgLen o.desc - r.pc)) } ∧
          (∀ j : Nat, j ≠ k → bankGet t j = bankGet s j) ∧ OnlyIn [.eng] s t)) ∧
      (∀ n q : Nat, b.atom = some (n, q, 0) →
        ((0 < owed ∨ 0 < b.heldAccesses ∨ bankAwaited s k = true ∨ rest ≠ []) → Answers (.atomEnd chan bank) s (fun t =>
          bankGet t k = { b with
            atom := none, heldAccesses := 0, runs := rest ++ [{ r with spilled := true, spillRow := r.latch, spillMarks := r.marks }] } ∧
          (∀ j : Nat, j ≠ k → bankGet t j = bankGet s j) ∧ OnlyIn [.regs, .port, .eng, .pmu] s t)) ∧
        (owed = 0 → b.heldAccesses = 0 → bankAwaited s k = false → rest = [] → Answers (.atomEnd chan bank) s (fun t =>
          bankGet t k = { b with atom := none } ∧ (∀ j : Nat, j ≠ k → bankGet t j = bankGet s j) ∧ OnlyIn [.eng] s t)))) ∧
    (∀ (r : BankRun) (rest : List BankRun) (o : OpEnt), b.runs = r :: rest → b.atom = some (r.line, r.seq, 0) →
      opFind s r.line r.seq = some o → (r.stopped = true ∨ r.pc = rsProgLen o.desc ∨ o.track = .cancelPending) →
      Answers (.atomEnd chan bank) s (fun t =>
        bankGet t k = { b with
          atom := none, heldAccesses := 0, runs := rest.filter (fun x => !(x.line = r.line && x.seq = r.seq)),
          parity := b.parity ++ r.written.map (fun g => (g / 8, g % 8, r.line, r.seq)) } ∧
        (∀ j : Nat, j ≠ k → bankGet t j = bankGet s j) ∧ OnlyIn [.lines, .eng] s t)) ∧
    (∀ (slot g n q : Nat) (rest : List (Nat × Nat × Nat × Nat)), b.parity = (slot, g, n, q) :: rest →
      parityRow s slot g < 2 ^ 15 →
      Answers (.parityRecompute chan bank) s (fun t =>
        (∀ i : Nat, i < 1024 → rawByte t (rowAddr s.fuses.variant gc bank.val (parityRow s slot g) i) =
          (List.range 16).foldl (fun x j =>
            x ^^^ rawByte s (rowAddr s.fuses.variant gc bank.val (128 * actF s flRawSlab slot + 16 * g + j) i)) 0) ∧
        (∀ f : Nat, (∀ i : Nat, i < 1024 → rowAddr s.fuses.variant gc bank.val (parityRow s slot g) i ≠ f) → rawByte t f = rawByte s f) ∧
        bankGet t k = { b with parity := rest } ∧ (∀ j : Nat, j ≠ k → bankGet t j = bankGet s j) ∧
        OnlyIn [.lines, .mem, .eng] s t))

/-- Each of the 30 micro-ops sets its destination register of every lane of its engine to the rule's function of the lane's
sources, which are registers or constants, ORs the flags into the lane's byte, and leaves the other registers, the constants
and every other engine. The integer ones compute modulo 2^32, and shifts take their distance modulo 32. LD sets the
destination of every lane to its element of the stream; ST stores every lane's value to the stream; STSR does both with
stochastic rounding. None changes a byte of memory. (R99, R102, R103, R104, R226, R230, R231, R443) -/
def Obligations.MicroOpsOnEveryLane : Prop :=
  (∀ (c : Instr) (e : Engine) (f : W32 → W32 → W32 → W32 × Byte) (dst : BitVec 4) (a b d : BitVec 5) (s : State),
    ((c, f) ∈ [(Instr.mov e dst a, opMov), (.add e dst a b, opAdd), (.sub e dst a b, opSub), (.mul e dst a b, opMul),
        (.fma e dst a b d, opFma), (.max e dst a b, opMax), (.min e dst a b, opMin), (.abs e dst a, opAbs), (.neg e dst a, opNeg),
        (.cmplt e dst a b, opCmplt), (.cmpeq e dst a b, opCmpeq), (.sel e dst a b d, opSel), (.exp2 e dst a, opExp2),
        (.log2 e dst a, opLog2), (.rcp e dst a, opRcp), (.div e dst a b, opDiv), (.sqrt e dst a, opSqrt), (.rsqrt e dst a, opRsqrt),
        (.tanh e dst a, opTanh), (.erf e dst a, opErf)]) →
    Answers c s (fun t =>
      OnlyIn (match e with | .vec _ => [.strands] | .spl _ => [.eng]) s t ∧
      (∀ k : StrandNo, e = .vec k → ∃ x : Lanes, strandGet t k.val = { strandGet s k.val with lanes := x } ∧
        x.konst = (strandGet s k.val).lanes.konst ∧ x.regs.length = (strandGet s k.val).lanes.regs.length ∧
        (∀ (i : Nat) (l : List W32), (strandGet s k.val).lanes.regs[i]? = some l →
          let v (z : BitVec 5) : W32 := laneSrc 8 l (strandGet s k.val).lanes.konst (z.toNat % 16)
          let w := f (v a) (if c ∈ [Instr.mov e dst a, .abs e dst a, .neg e dst a, .exp2 e dst a, .log2 e dst a, .rcp e dst a,
            .sqrt e dst a, .rsqrt e dst a, .tanh e dst a, .erf e dst a] then v 0 else v b)
            (if c = .fma e dst a b d ∨ c = .sel e dst a b d then v d else v 0)
          (∀ j : Nat, j < 8 → (x.regs.getD i []).getD j 0 = if j = dst.toNat % 8 then w.1 else l.getD j 0) ∧
          x.flags.getD i 0 = (strandGet s k.val).lanes.flags.getD i 0 ||| w.2) ∧
        (∀ m : Nat, m ≠ k.val → strandGet t m = strandGet s m)) ∧
      (∀ ch : BitVec 10, e = .spl ch → ∃ x : Splicer, splGet t ch.toNat = x ∧ x.konst = (splGet s ch.toNat).konst ∧
        x.streams = (splGet s ch.toNat).streams ∧ x.regs.length = (splGet s ch.toNat).regs.length ∧
        (∀ (i : Nat) (l : List W32) (j : Nat), (splGet s ch.toNat).regs[i]? = some l → j < 16 → j ≠ dst.toNat →
          (x.regs.getD i []).getD j 0 = l.getD j 0) ∧
        (∀ m : Nat, m ≠ ch.toNat → splGet t m = splGet s m)))) ∧
  (∀ (c : Instr) (k : StrandNo) (f : W32 → W32 → W32) (dst : BitVec 3) (a b : BitVec 4) (s : State),
    ((c, f) ∈ [(Instr.iadd k dst a b, fun (x y : W32) => x + y), (.isub k dst a b, fun x y => x - y), (.imul k dst a b, fun x y => x * y),
        (.iand k dst a b, fun x y => x &&& y), (.ior k dst a b, fun x y => x ||| y), (.ixor k dst a b, fun x y => x ^^^ y),
        (.ishl k dst a b, fun x y => x <<< (y.toNat % 32)), (.ishr k dst a b, fun x y => x.sshiftRight (y.toNat % 32)),
        (.cvtif k dst a, fun x _ => (toW32 (FVal.ofInt x.toInt)).1),
        (.cvtfi k dst a, fun x _ => BitVec.ofNat 32 (encodeInt 32 (w32Val x)).1)]) →
    Answers c s (fun t => OnlyIn [.strands] s t ∧
      ∃ x : Lanes, strandGet t k.val = { strandGet s k.val with lanes := x } ∧ x.konst = (strandGet s k.val).lanes.konst ∧
        (∀ (i : Nat) (l : List W32), (strandGet s k.val).lanes.regs[i]? = some l → ∀ j : Nat, j < 8 →
          (x.regs.getD i []).getD j 0 = if j = dst.toNat then
            f (laneSrc 8 l (strandGet s k.val).lanes.konst a.toNat) (laneSrc 8 l (strandGet s k.val).lanes.konst b.toNat)
          else l.getD j 0) ∧
        (∀ m : Nat, m ≠ k.val → strandGet t m = strandGet s m))) ∧
  (∀ (chan : BitVec 10) (dst : BitVec 4) (a b d : BitVec 5) (str : Fin 8) (s : State),
    let x := splGet s chan.toNat
    Answers (.ld chan dst str) s (fun t => OnlyIn [.eng] s t ∧ (splGet t chan.toNat).streams = x.streams ∧
      (∀ m : Nat, m ≠ chan.toNat → splGet t m = splGet s m) ∧
      (∀ (i : Nat) (l : List W32) (st : SplStream), x.regs[i]? = some l → x.streams[str.val]? = some st → ∀ j : Nat, j < 16 →
        ((splGet t chan.toNat).regs.getD i []).getD j 0 = if j = dst.toNat then (st.elems.getD i (0, 0)).1 else l.getD j 0)) ∧
    Answers (.st chan a str) s (fun t => OnlyIn [.eng] s t ∧ (splGet t chan.toNat).regs = x.regs ∧
      (∀ m : Nat, m ≠ chan.toNat → splGet t m = splGet s m) ∧
      (∀ (j : Nat) (st : SplStream), x.streams[j]? = some st →
        (j ≠ str.val → (splGet t chan.toNat).streams[j]? = some st) ∧
        (j = str.val → ∃ st1 : SplStream, (splGet t chan.toNat).streams[j]? = some st1 ∧ st1.elems = st.elems ∧
          st1.stored = some (storeElems ((Fmt.ofCode st.fmt).getD .w32) (x.regs.map (fun l => laneSrc 16 l x.konst a.toNat))).1))) ∧
    Answers (.stsr chan dst a b d) s (fun t => OnlyIn [.eng] s t ∧
      (∀ m : Nat, m ≠ chan.toNat → splGet t m = splGet s m) ∧
      (∀ (i : Nat) (l : List W32) (j : Nat), x.regs[i]? = some l → j < 16 → j ≠ dst.toNat →
        ((splGet t chan.toNat).regs.getD i []).getD j 0 = l.getD j 0) ∧
      (∀ st : SplStream, x.streams[0]? = some st → Fmt.ofCode st.fmt = some .w32 →
        ∃ st1 : SplStream, (splGet t chan.toNat).streams[0]? = some st1 ∧ st1.stored = some (x.regs.zipIdx.map (fun p =>
          let v (z : BitVec 5) : FVal := w32Val (laneSrc 16 p.1 x.konst z.toNat)
          (roundSr (fmaExact (v a) (v b) (v d)).1 24 (srBits x.seed x.step (srAddr x.tensor (x.first + p.2)))).1.toNat)))))

/-! ### Channels -/

/-- A scrub read that meets no error changes no byte, mark or stack register, and counts a pass after its last granule. One that
meets a beat in kern whose retries all fail counts three retries and one UE and marks the granule. A parity scrub of a group
without a difference changes nothing; otherwise the parity row becomes the XOR of the 16 data rows, no other byte changes,
each differing 32 B range marks its granule in all 16 rows, and UE rises by one for each. A tREFI adds one owed refresh, at
most four, and holds new accesses from three on; a refresh of an idle bank takes one away and ends the hold once fewer than
three are owed. A repair past REPAIR_WAIT_US ends: REPAIR_FAILED rises, ABORT_PENDING is set and the CHAFE cause raised.
(R175, R179, R191, R193, R195, R197, R199, R200, R201) -/
def Obligations.ScrubRefreshAndRepairTimeout : Prop :=
  ∀ s : State,
    (∀ (stack : Stack) (chan : BitVec 7) (granule : BitVec 25) (fa : Nat),
      granAt s.fuses.variant stack chan.toNat granule.toNat = some fa → accessHeld s fa false = false →
      Answers (.scrubRead stack chan granule .none) s (fun t =>
        t.eng = (if passEnd s.fuses.variant stack chan.toNat granule.toNat then
          { s.eng with scrubPasses := satAdd 65535 s.eng.scrubPasses 1 } else s.eng) ∧ OnlyIn [.eng] s t) ∧
      (∀ (n st : Nat), fa < mantleBase → 4 ≤ n → stackOf s.fuses.variant fa = some st → granChafed s fa = false →
        rawSlotOf s.cfg.act s.fuses.variant fa = none →
        Answers (.scrubRead stack chan granule (.beat n)) s (fun t =>
          granChafed t fa = true ∧
          stackGet t st = { stackGet s st with
            linkRetry := satAdd 65535 (stackGet s st).linkRetry 3, ue := satAdd 4095 (stackGet s st).ue 1 } ∧
          (∀ k : Nat, k ≠ st → stackGet t k = stackGet s k) ∧ t.regs.irqCause.getLsbD 4 = true ∧ SameBytes s t ∧
          OnlyIn [.free, .regs, .port, .lines, .mem, .tiers, .eng, .stackSt, .net, .pmu] s t)) ∧
      (∀ err : EccErr, accessHeld s fa false = false → Answers (.scrubRead stack chan granule err) s (fun t =>
        t.eng.scrubPasses = (if passEnd s.fuses.variant stack chan.toNat granule.toNat then
          satAdd 65535 s.eng.scrubPasses 1 else s.eng.scrubPasses)))) ∧
    (∀ (slot : Fin 16) (chan : BitVec 10) (bank : BankNo) (group : Fin 8),
      let gc := chan.toNat
      let v := s.fuses.variant
      let slab := actF s flRawSlab slot.val
      let row (r : Nat) := 128 * slab + 16 * group.val + r
      let par := 128 * actF s flRawParSlab 0 + 8 * slot.val + group.val
      let xors (i : Nat) : Byte := (List.range 16).foldl (fun x r => x ^^^ rawByte s (rowAddr v gc bank.val (row r) i)) 0
      let differs (j : Nat) : Bool :=
        (List.range 32).any (fun i => xors (32 * j + i) != rawByte s (rowAddr v gc bank.val par (32 * j + i)))
      actF s flRawValid slot.val = 1 → gc < nchan v → groupStale (bankGet s (bk gc bank.val)) (slot.val, group.val) = false →
      (bankGet s (bk gc bank.val)).atom = none → (refreshGet s (rk (4 + gc / 96) (gc % 96) bank.val)).hold = false → slab ≠ actF s flRawParSlab 0 →
      Answers (.rawParityScrub slot chan bank group) s (fun t =>
        ((∀ j : Nat, j < 32 → differs j = false) → t = s) ∧
        (∀ i : Nat, i < 1024 → rawByte t (rowAddr v gc bank.val par i) = xors i) ∧
        (∀ a : Nat, (∀ i : Nat, i < 1024 → rowAddr v gc bank.val par i ≠ a) → rawByte t a = rawByte s a) ∧
        (∀ j : Nat, j < 32 → differs j = true → ∀ r : Nat, r < 16 →
          granChafed t (rowAddr v gc bank.val (row r) (32 * j)) = true) ∧
        ((stackGet s (4 + gc / 96)).ue ≤ 4095 → (stackGet t (4 + gc / 96)).ue =
          min 4095 ((stackGet s (4 + gc / 96)).ue + ((List.range 32).filter differs).length)) ∧
        OnlyIn [.regs, .port, .lines, .mem, .tiers, .eng, .stackSt, .net, .pmu] s t)) ∧
    (∀ (stack : Stack) (chan : BitVec 7) (bank : BankNo),
      let k := rk (stackNo stack) chan.toNat bank.val
      let r := refreshGet s k
      (fitted s.fuses.variant stack chan.toNat = true →
        r.lastDue + (if (stackGet s (stackNo stack)).hot then 1950 else 3900) ≤ s.clk →
        Answers (.refreshDue stack chan bank) s (fun t =>
          refreshGet t k = Refresh.mk (min 4 (r.owed + 1)) s.clk (r.hold || 3 ≤ min 4 (r.owed + 1)) ∧
          (∀ j : Nat, j ≠ k → refreshGet t j = refreshGet s j) ∧ OnlyIn [.refresh] s t)) ∧
      (0 < r.owed → (∀ m : Fin 8, stack = .mantle m → (bankGet s (bk (96 * m.val + chan.toNat) bank.val)).atom = none) →
        Answers (.refresh stack chan bank) s (fun t =>
          refreshGet t k = Refresh.mk (r.owed - 1) r.lastDue (r.hold && 3 ≤ r.owed - 1) ∧
          (∀ j : Nat, j ≠ k → refreshGet t j = refreshGet s j) ∧ OnlyIn [.refresh, .regs, .port, .pmu] s t))) ∧
    (∀ (name : DevAddr) (r : Repair),
      let b := blockNo name.toNat
      let e := htGet s b
      s.net.repairs.find? (fun r => r.name = b) = some r →
      r.beganAt + actF s flRepairWaitUs e.account * 1000 ≤ tbNow s →
      Answers (.repairTimeout name) s (fun t =>
        htGet t b = { e with repair := false } ∧ (∀ x : Nat, x ≠ b → htGet t x = htGet s x) ∧
        t.net.repairs = s.net.repairs.filter (fun r => r.name != b) ∧ t.regs.irqCause.getLsbD 0 = true ∧
        mapGet AcctSt.reset t.tiers.acct e.account =
          (let a := mapGet AcctSt.reset s.tiers.acct e.account
           { a with repairFailed := satAdd 4095 a.repairFailed 1, abortPending := true }) ∧
        OnlyIn [.regs, .port, .tiers, .net, .pmu] s t))

/-- For every symbol i and every nonzero fault x in it, a scrub read of a mantle granule outside RAW data corrects the fault: no
byte and no mark changes, and CE of the stack rises by one. For every two different symbols and nonzero faults in them, the
granule is marked chafed, no byte changes and UE of the stack rises by one. (R192, R193, R195) -/
def Obligations.SymbolCodeCorrectsOnePin : Prop :=
  ∀ (stack : Stack) (chan : BitVec 7) (granule : BitVec 25) (fa st : Nat) (i j : Fin 20) (x y : BitVec 16) (s : State),
    granAt s.fuses.variant stack chan.toNat granule.toNat = some fa → accessHeld s fa false = false → mantleBase ≤ fa →
    stackOf s.fuses.variant fa = some st → rawSlotOf s.cfg.act s.fuses.variant fa = none → granChafed s fa = false → x ≠ 0 →
    Answers (.scrubRead stack chan granule (.symbols [(i, x)])) s (fun t =>
      t.mem = s.mem ∧ stackGet t st = { stackGet s st with ce := satAdd 65535 (stackGet s st).ce 1 } ∧
      (∀ k : Nat, k ≠ st → stackGet t k = stackGet s k) ∧ OnlyIn [.regs, .port, .eng, .stackSt, .pmu] s t) ∧
    (i ≠ j → y ≠ 0 → Answers (.scrubRead stack chan granule (.symbols [(i, x), (j, y)])) s (fun t =>
      SameBytes s t ∧ granChafed t fa = true ∧
      stackGet t st = { stackGet s st with ue := satAdd 4095 (stackGet s st).ue 1 } ∧
      (∀ k : Nat, k ≠ st → stackGet t k = stackGet s k) ∧ t.regs.irqCause.getLsbD 4 = true ∧
      OnlyIn [.free, .regs, .port, .lines, .mem, .tiers, .eng, .stackSt, .net, .pmu] s t))

/-! ### Temperature, power and SLOW -/

/-- A report below 115 degrees is stored with its instant. At or above T_THROTTLE the level falls by one step, to 25% at the
lowest; HYST or more below it, with 1 ms since the last change, the level rises by one step; otherwise it stays. At or above
T_CRIT the stack is CRITICAL and SLOW is raised and held. Above 85 degrees the short tREFI begins, and at or below 83 it
ends. A report at or above 115 trips the module: the latch and its source are set, THERM_TRIP_N falls and the rails go down.
A report missing for 300 us sets SENSOR_ERR and acts as T_CRIT, with no trip. A millisecond after the last stack left
CRITICAL the hold ends. SLOW rises after 100 us of the rail below SLOW_MV, with the POWER cause, and clears 1 ms after the
rail came back, if no stack holds it. (R36, R200, R202, R203, R206, R207, R424, R438, R439) -/
def Obligations.StackTemperatureAndSlow : Prop :=
  ∀ s : State,
    (∀ (stack : Stack) (temp : BitVec 8),
      let st := stackNo stack
      let x := stackGet s st
      let w := temp.toNat
      let thr := actF s flTThrottle 0
      stackReports s st = true →
      (w < 115 → Answers (.stackTempReport stack temp) s (fun t =>
        (let y := stackGet t st
         y.temp = w ∧ y.lastReport = s.clk ∧
         (thr ≤ w → y.level = min 3 (x.level + 1)) ∧
         (w < thr → w + actF s flTHyst 0 ≤ thr → 0 < x.level → x.lastChange + 1000000 ≤ s.clk → y.level = x.level - 1) ∧
         (w < thr → (thr < w + actF s flTHyst 0 ∨ x.level = 0 ∨ s.clk < x.lastChange + 1000000) → y.level = x.level) ∧
         (y.level ≠ x.level → y.lastChange = s.clk) ∧
         (actF s flTCrit 0 ≤ w → y.thermal = .critical ∧ t.gov.slow = true ∧ t.gov.stackHold = true) ∧
         (w < actF s flTCrit 0 → thr ≤ w → x.thermal ≠ .critical → y.thermal = .throttle) ∧
         (w < actF s flTCrit 0 → w < thr → x.thermal ≠ .critical → y.level = 0 → y.thermal = .normal) ∧
         (85 < w → y.hot = true) ∧ (w ≤ 83 → y.hot = false) ∧ (83 < w → w ≤ 85 → y.hot = x.hot) ∧
         y.sensorErr = x.sensorErr ∧ y.linkRetry = x.linkRetry ∧ y.ce = x.ce ∧ y.ue = x.ue) ∧
        (∀ k : Nat, k ≠ st → stackGet t k = stackGet s k) ∧ OnlyIn [.regs, .port, .stackSt, .gov, .net, .pmu] s t)) ∧
      (115 ≤ w → s.power.standby = true → s.power.trip = false → Answers (.stackTempReport stack temp) s (fun t =>
        t.power.trip = true ∧ t.power.tripSource = some (.stack stack) ∧ t.power.rails = false ∧ t.pins.thermTripN = false ∧
        t.pins.alertN = false ∧ t.pins.pwrGood = false ∧ t.flash = s.flash ∧ t.fuses = s.fuses)) ∧
      (x.lastReport + 300000 ≤ s.clk → Answers (.sensorTimeout stack) s (fun t =>
        (stackGet t st).sensorErr = true ∧ (stackGet t st).thermal = .critical ∧ (stackGet t st).temp = x.temp ∧
        t.gov.slow = true ∧ t.gov.stackHold = true ∧ (∀ k : Nat, k ≠ st → stackGet t k = stackGet s k) ∧
        OnlyIn [.regs, .port, .stackSt, .gov, .net, .pmu] s t))) ∧
    (∀ since : Nat, s.gov.stackHold = true → (∀ p ∈ s.stackSt, p.2.thermal ≠ .critical) →
      s.gov.criticalLeftAt = some since → since + 1000000 ≤ s.clk →
      Answers .slowHoldEnd s (fun t =>
        t.gov.stackHold = false ∧ t.gov.criticalLeftAt = none ∧
        (s.gov.railBelowAt = none → (∀ a : Nat, s.gov.railAboveAt = some a → a + 1000000 ≤ s.clk) → t.gov.slow = false) ∧
        ((s.gov.railBelowAt ≠ none ∨ ∃ a : Nat, s.gov.railAboveAt = some a ∧ s.clk < a + 1000000) → t.gov.slow = s.gov.slow) ∧
        OnlyIn [.regs, .port, .gov, .net, .pmu] s t)) ∧
    (∀ since : Nat, s.gov.slow = false → s.gov.railBelowAt = some since → since + 100000 ≤ s.clk →
      Answers .slowRaise s (fun t =>
        t.gov = { s.gov with slow := true } ∧ t.regs.irqCause.getLsbD 6 = true ∧ OnlyIn [.regs, .port, .gov, .net, .pmu] s t)) ∧
    (s.gov.slow = true → s.gov.stackHold = false → s.gov.railBelowAt = none →
      (∀ a : Nat, s.gov.railAboveAt = some a → a + 1000000 ≤ s.clk) →
      Answers .slowClear s (fun t => t.gov = { s.gov with slow := false } ∧ OnlyIn [.regs, .port, .gov, .net, .pmu] s t))

/-- With the rails up, a 1 us sample enters the 1 ms window, whose mean PWR_STATUS reports. The rail falls by 5 or 10 mV when
the window's mean or the sample exceeds LIMIT_W or a junction is above TJ_LIMIT, and rises by as much when none of these
holds and the mean has stayed below 97% for 50 us; otherwise it stays; and it always ends between 600 mV and VMAX_MV. Each
strand stores its junction temperature, adds the rate of this microsecond, which is at or above the floor of the corner that
it ran at (saturating at the field's width), and reports the mean over the last 100. TJ_HOLD is set while a junction is
above its limit. (R30, R32, R34, R35, R36) -/
def Obligations.GovernorMovesTheRail : Prop :=
  ∀ (watts : BitVec 12) (tj : List (BitVec 7)) (s : State), s.power.rails = true → s.power.perstActed = false →
    Answers (.governorSample watts tj) s (fun t =>
      let w := watts.toNat
      let limit := actF s flLimitW 0
      let win := (w :: s.gov.samples).take 1000
      let sum := win.foldl (· + ·) 0
      let hot := tj.any (fun x => actF s flTjLimit 0 < x.toNat)
      let excess := limit * win.length < sum ∨ limit < w
      let low := 100 * sum < 97 * limit * win.length
      let clamp (v : Nat) := max 600 (min (actF s flVmaxMv 0) v)
      t.gov.samples = win ∧ t.gov.inputW = sum / win.length ∧ t.gov.tjHold = hot ∧
      ((hot = true ∨ excess) → ∃ d : Nat, (d = 5 ∨ d = 10) ∧ t.gov.vcore = clamp (s.gov.vcore - d)) ∧
      (hot = false → ¬ excess → low → (∃ a : Nat, s.gov.below97At = some a ∧ a + 50000 ≤ s.clk) →
        ∃ d : Nat, (d = 5 ∨ d = 10) ∧ t.gov.vcore = clamp (s.gov.vcore + d)) ∧
      (hot = false → ¬ excess → (¬ low ∨ ∀ a : Nat, s.gov.below97At = some a → s.clk < a + 50000) →
        t.gov.vcore = clamp s.gov.vcore) ∧
      600 ≤ t.gov.vcore ∧ t.gov.vcore ≤ max 600 (actF s flVmaxMv 0) ∧
      (low → t.gov.below97At = some (s.gov.below97At.getD s.clk)) ∧ (¬ low → t.gov.below97At = none) ∧
      (t.gov.vcore < actF s flSlowMv 0 → t.gov.railBelowAt = some (s.gov.railBelowAt.getD s.clk) ∧ t.gov.railAboveAt = none) ∧
      (actF s flSlowMv 0 ≤ t.gov.vcore → t.gov.railBelowAt = none ∧ t.gov.railAboveAt = some (s.gov.railAboveAt.getD s.clk)) ∧
      (∀ k : Nat, k < 4 →
        let old := strandGet s k
        let now := ((tj[k]?).map BitVec.toNat).getD old.tj
        ∃ r : Nat, min 4095 (waveFloor s.gov.vcore now) ≤ r ∧ r ≤ 4095 ∧
          (let rates := (r :: old.waves).take 100
           strandGet t k = { old with tj := now, waves := rates, rate := rates.foldl (· + ·) 0 / rates.length })) ∧
      (hot = true → s.gov.tjHold = false → t.regs.irqCause.getLsbD 6 = true) ∧
      t.gov.slow = s.gov.slow ∧ t.gov.stackHold = s.gov.stackHold ∧
      OnlyIn [.free, .regs, .port, .strands, .gov, .pmu] s t)

/-! ### The timebase -/

/-- A module that is not root sends a SYNC_REQ on the first UP link of its sync port and keeps its t1; with neither port up it
loses the lock. A good SYNC_REQ is answered with a SYNC_RSP that carries t2, the count at the link's die to a sixteenth of a
nanosecond, and t3 - t2, and TB_LOCKED in TAG. A SYNC_RSP to the pending request sets the offset to half of (t2 - t1) - (t4
- t3), rounded to a whole nanosecond, steps the count by it once and slews it afterwards; an offset within 4 ns of a locked
parent counts towards the 8 exchanges that lock. A copy of the count on an enabled second die that differs by more than 2 ns
sets TB_COPY_ERR, is reloaded and raises the TIMEBASE cause; otherwise nothing happens. A REFCLK failure sets holdover.
(R37, R38, R39, R40, R41, R324, R356, R357, R358, R424) -/
def Obligations.TimebaseSync : Prop :=
  ∀ s : State,
    (∀ (p k : Nat), actF s flTbRoot 0 ≠ 1 → s.tb.running = true → syncPort s = some p →
      (portLinks s p).find? (linkUp s) = some k →
      Answers .syncPeriod s (fun t =>
        (∃ part : BitVec 4,
          t.tb = { s.tb with onAlt := p != actF s flTbParent 0, pendingReq := some (k, laneTime s k part) } ∧
          Emitted s t k (mkLocal s ftSyncReq 0 (laneTime s k part) 0)) ∧ (∀ j : Nat, j ≠ k → linkGet t j = linkGet s j) ∧
        OnlyIn [.free, .tb, .regs, .port, .net, .pmu] s t)) ∧
    (actF s flTbRoot 0 ≠ 1 → s.tb.running = true → syncPort s = none → Answers .syncPeriod s (fun t =>
      t.tb = { s.tb with pendingReq := none, locked := false, goodExchanges := 0 } ∧
      (s.tb.locked = true → t.regs.irqCause.getLsbD 7 = true) ∧ OnlyIn [.tb, .regs, .port, .net, .pmu] s t)) ∧
    (∀ (link : LinkNo) (f : Frame) (t2 t3 : BitVec 4), linkUp s link.val = true → f.typ = ftSyncReq → frameGood f = true →
      Answers (.syncReq link f t2 t3) s (fun t =>
        Emitted s t link.val (mkLocal s ftSyncRsp (if s.tb.locked then 1 else 0) (laneTime s link.val t2)
          (if t2 ≤ t3 then (t3 - t2).setWidth 32 else 0)) ∧
        (linkGet t link.val).lastRx = s.clk ∧ OnlyIn [.regs, .port, .lines, .net, .pmu] s t)) ∧
    (∀ (link : LinkNo) (f : Frame) (t4 : BitVec 4) (t1 : W64), linkUp s link.val = true → f.typ = ftSyncRsp → frameGood f = true →
      s.tb.pendingReq = some (link.val, t1) → actF s flTbRoot 0 = 0 →
      let x : Int := (f.addr - t1).toInt - (laneTime s link.val t4 - (f.addr + f.aux.setWidth 64)).toInt
      Answers (.syncRsp link f t4) s (fun t =>
        (∃ ns : Int, t.tb.offset = ns ∧ 32 * ns < x + 32 ∧ x < 32 * ns + 32 ∧ (x = 32 * (x / 32) → 32 * ns = x) ∧
          (s.tb.stepped = false → s.tb.firstLock = false → t.tb.now = s.tb.now + BitVec.ofInt 64 ns ∧
            t.tb.step = BitVec.ofInt 64 ns ∧ t.tb.stepped = true ∧ t.tb.slew = s.tb.slew) ∧
          ((s.tb.stepped = true ∨ s.tb.firstLock = true) → t.tb.now = s.tb.now ∧ t.tb.slew = ns ∧ t.tb.step = s.tb.step)) ∧
        t.tb.pendingReq = none ∧
        t.tb.goodExchanges = (if x.natAbs ≤ 128 ∧ f.tag.getLsbD 0 = true then min 8 (s.tb.goodExchanges + 1) else 0) ∧
        (t.tb.goodExchanges = 8 → t.tb.locked = true ∧ t.tb.firstLock = true) ∧
        (t.tb.goodExchanges < 8 → t.tb.locked = s.tb.locked ∧ t.tb.firstLock = s.tb.firstLock) ∧
        OnlyIn [.free, .tb, .regs, .port, .lines, .net, .pmu] s t)) ∧
    (s.tb.running = true → unitOn s 3 = true → 2 < s.tb.copyDelta.natAbs → Answers .tbCopyReload s (fun t =>
      t.tb = { s.tb with copyErr := true, copyDelta := 0 } ∧ t.regs.irqCause.getLsbD 7 = true ∧
      OnlyIn [.tb, .regs, .port, .pmu] s t)) ∧
    ((s.tb.running = false ∨ unitOn s 3 = false ∨ s.tb.copyDelta.natAbs ≤ 2) → exec .tbCopyReload s = .next s) ∧
    (s.power.rails = true → s.pins.refclkOk = true → Answers .refclkFail s (fun t =>
      t.pins = { s.pins with refclkOk := false } ∧ t.tb.holdover = true ∧ t.tb.running = s.tb.running ∧ t.tb.now = s.tb.now ∧
      t.port.linkUp = false ∧ (∀ k : Nat, linkUp s k = true → (linkGet t k).state = .down)))

/-! ### Links -/

/-- From the LINKS phase on an enabled link that is not UP begins an attempt, the next 10 ms after the last; a trained link
sends HELLO and waits, a failed one is DOWN, or MISWIRE if it had heard another device. A good HELLO from the port's
NEIGHBOR, or from any device with ANY, brings the link UP; from another device it is MISWIRE with the LINK cause. An
uncorrectable codeword is counted. A link idle for 2 us sends a TUG with its count. Loss of signal, or 20 us without a good
frame, takes the link DOWN with its cause and empties its queues; while another link of the port is UP the LINK cause is
raised and no peer changes, otherwise the neighbour, unless gone already, is LOST and a NOTICE LOST goes out on every other
UP link. A training link that loses its signal is DOWN. (R321, R322, R347, R348, R349, R350, R358, R382) -/
def Obligations.LinksTrainAndFall : Prop :=
  ∀ (link : LinkNo) (s : State),
    let k := link.val
    let l := linkGet s k
    let p := actF s flLinkPort k
    (lanesLive s = true → 6 ≤ s.boot.phase → s.pins.refclkOk = true → linkOn s k = true → l.state ≠ .up →
      (∀ a : Nat, l.trainAt = some a → a + 10000000 ≤ s.clk) →
      Answers (.linkTrainingAttempt link) s (fun t =>
        linkGet t k = { l with state := .training, trainAt := some s.clk, helloWait := false, lastMiswire := false } ∧
        (∀ j : Nat, j ≠ k → linkGet t j = linkGet s j) ∧ OnlyIn [.net] s t)) ∧
    (lanesLive s = true → s.pins.refclkOk = true → linkOn s k = true → l.state = .training → l.helloWait = false →
      Answers (.linkTrainingEnd link true) s (fun t =>
        (linkGet t k).state = .training ∧ (linkGet t k).helloWait = true ∧
        Emitted s t k (mkLocal s ftHello (BitVec.ofNat 32 k) 0 0) ∧
        (∀ j : Nat, j ≠ k → linkGet t j = linkGet s j) ∧ OnlyIn [.regs, .port, .net, .pmu] s t) ∧
      Answers (.linkTrainingEnd link false) s (fun t =>
        linkGet t k = { l with state := if l.lastMiswire then .miswire else .down } ∧
        (∀ j : Nat, j ≠ k → linkGet t j = linkGet s j) ∧ OnlyIn [.net] s t)) ∧
    (∀ f : Frame, linkOn s k = true → f.typ = ftHello → frameGood f = true → l.state ≠ .up → l.helloWait = true →
      ((actF s flPortAny p = 1 ∨ f.src.toNat = actF s flPortNbr p) → Answers (.hello link f) s (fun t =>
        (linkGet t k).state = .up ∧ (linkGet t k).nbr = some f.src.toNat ∧ (linkGet t k).lastRx = s.clk ∧
        (linkGet t k).rxLast = 0 ∧ (linkGet t k).replay = [] ∧ (linkGet t k).helloWait = false ∧
        (∀ j : Nat, j ≠ k → linkGet t j = linkGet s j) ∧ OnlyIn [.tb, .regs, .port, .lines, .net, .pmu] s t)) ∧
      (actF s flPortAny p ≠ 1 → f.src.toNat ≠ actF s flPortNbr p → Answers (.hello link f) s (fun t =>
        linkGet t k = { l with state := .miswire, cause := causeMiswire, helloWait := false, lastMiswire := true } ∧
        t.regs.irqCause.getLsbD 8 = true ∧ (∀ j : Nat, j ≠ k → linkGet t j = linkGet s j) ∧
        OnlyIn [.regs, .port, .net, .pmu] s t))) ∧
    (linkUp s k = true →
      Answers (.fecUncorrectableCodeword link) s (fun t =>
        linkGet t k = { l with fecUncorr := satAdd 255 l.fecUncorr 1 } ∧ (∀ j : Nat, j ≠ k → linkGet t j = linkGet s j) ∧
        OnlyIn [.net] s t) ∧
      (l.lastTx + 2000 ≤ s.clk → Answers (.tugIdleTimer link) s (fun t =>
        Emitted s t k (mkLocal s ftTug (l.tugCount + 1) 0 0) ∧ (linkGet t k).tugCount = l.tugCount + 1 ∧
        (linkGet t k).lastTx = s.clk ∧ (∀ j : Nat, j ≠ k → linkGet t j = linkGet s j) ∧
        OnlyIn [.regs, .port, .net, .pmu] s t)) ∧
      (∀ (c : Instr) (cause : Nat), (c = .linkSilenceTimeout link ∧ l.lastRx + 20000 ≤ s.clk ∧ cause = causeTug ∨
          c = .lossOfSignal link ∧ cause = causeLos) →
        Answers c s (fun t =>
          let dev := neighbourOf s p l
          (linkGet t k).state = .down ∧ (linkGet t k).cause = cause ∧ (linkGet t k).replay = [] ∧ (linkGet t k).txQueue = [] ∧
          (∀ j ∈ portLinks s p, j ≠ k → linkUp s j = true →
            t.regs.irqCause.getLsbD 8 = true ∧ t.net.peers = s.net.peers) ∧
          ((∀ j ∈ portLinks s p, j ≠ k → linkUp s j = false) → peerGone s dev = false →
            (peerGet t dev).state = .lost ∧ (peerGet t dev).cause = cause ∧ t.regs.irqCause.getLsbD 2 = true ∧
            (∀ j : Nat, j ≠ k → j < 24 → linkUp s j = true →
              Emitted s t j (noticeFrame s dev (peerGet s dev).noticeCount.toNat true (peerGet s dev).stat cause)))))) ∧
    (l.state = .training → Answers (.lossOfSignal link) s (fun t =>
      linkGet t k = { l with state := .down, helloWait := false } ∧ (∀ j : Nat, j ≠ k → linkGet t j = linkGet s j) ∧
      OnlyIn [.net] s t))

/-- A good link-local frame of any type stores its instant and its sender's status bits, and makes an UNKNOWN sender UP. One
whose CRC fails has the receiver discard and send a NAK of the first frame missing. A CREDIT sets the counts of its class's
four VCs. A NAK, or 10 us without an ACK, resends the replay buffer from the named frame or from the oldest, counted in
REPLAYS; when it has been resent 8 times the link goes DOWN with cause REPLAY. A SLIP takes the link DOWN with cause SLIP,
and its neighbour is LOST, or UNREACHABLE when the reason is LINK_OFF and the port has no other UP link. A NOTICE LOST marks
a device that was not gone, and a newer NOTICE STATUS sets the device's bits and count; each goes on, on every other UP
link. (R324, R325, R327, R347, R348, R349, R350) -/
def Obligations.LinkLocalFrames : Prop :=
  ∀ (link : LinkNo) (f : Frame) (s : State),
    let k := link.val
    let l := linkGet s k
    let h := heard s k f
    let dev := f.tag.toNat % 65536
    linkUp s k = true →
    (∀ (c : Instr) (typ : BitVec 4), (c, typ) ∈ [(Instr.tug link f, ftTug), (.slip link f, ftSlip), (.credit link f, ftCredit),
        (.nak link f, ftNak), (.notice link f, ftNotice), (.syncReq link f 0 0, ftSyncReq), (.syncRsp link f 0, ftSyncRsp)] →
      f.typ = typ → frameGood f = false →
      Answers c s (fun t =>
        Emitted s t k (mkLocal s ftNak ((l.rxLast + 1).setWidth 32) 0 0) ∧ (linkGet t k).discarding = true ∧
        (∀ j : Nat, j ≠ k → linkGet t j = linkGet s j) ∧ OnlyIn [.regs, .port, .net, .pmu] s t)) ∧
    (frameGood f = true →
      (f.typ = ftTug → Answers (.tug link f) s (fun t =>
        (linkGet t k).lastRx = s.clk ∧ (linkGet t k).state = .up ∧ (∀ j : Nat, j ≠ k → linkGet t j = linkGet s j) ∧
        (f.src.toNat < 16384 → peerGet t f.src.toNat = { peerGet s f.src.toNat with
          stat := frameStat f,
          state := if (peerGet s f.src.toNat).state = .unknown then .up else (peerGet s f.src.toNat).state }) ∧
        (∀ d : Nat, d ≠ f.src.toNat → peerGet t d = peerGet s d) ∧ (f.slow = false → t.lines = s.lines) ∧
        OnlyIn [.regs, .port, .lines, .net, .pmu] s t)) ∧
      (f.typ = ftCredit → f.tag.toNat % 16 ≤ 9 → Answers (.credit link f) s (fun t =>
        (∀ i : Nat, i < 4 → mapGet 0 (linkGet t k).credit (4 * (f.tag.toNat % 16) + i) = f.addr.toNat / 65536 ^ i % 65536) ∧
        (∀ v : Nat, v / 4 ≠ f.tag.toNat % 16 → mapGet 0 (linkGet t k).credit v = mapGet 0 l.credit v) ∧
        (linkGet t k).lastRx = s.clk ∧ OnlyIn [.regs, .port, .lines, .net, .pmu] s t)) ∧
      (f.typ = ftNak → l.txQueue = [] → (∀ g ∈ l.replay, lseqLe g.lseq f.ack = false) →
        let again := l.replay.filter (fun g => lseqLe (f.tag.setWidth 16) g.lseq)
        (again ≠ [] → l.resends < 8 → Answers (.nak link f) s (fun t =>
          (linkGet t k).wire = l.wire ++ again.map (onWire l) ∧ (linkGet t k).replay = l.replay ∧
          (linkGet t k).resends = l.resends + 1 ∧ (linkGet t k).replays = satAdd 65535 l.replays again.length ∧
          (linkGet t k).state = .up ∧ OnlyIn [.regs, .port, .lines, .net, .pmu] s t)) ∧
        (again ≠ [] → 8 ≤ l.resends → Answers (.nak link f) s (fun t =>
          (linkGet t k).state = .down ∧ (linkGet t k).cause = causeReplay)) ∧
        (again = [] → Answers (.nak link f) s (fun t =>
          (linkGet t k).wire = l.wire ∧ (linkGet t k).replay = l.replay ∧ (linkGet t k).resends = l.resends))) ∧
      (f.typ = ftSlip → Answers (.slip link f) s (fun t =>
        let nb := neighbourOf s (actF s flLinkPort k) l
        let alone := ∀ j ∈ portLinks s (actF s flLinkPort k), j ≠ k → linkUp s j = false
        (linkGet t k).state = .down ∧ (linkGet t k).cause = causeSlip ∧
        (peerGone s nb = false → (f.tag.toNat % 16 = 1 ∨ f.tag.toNat % 16 = 2 ∨ f.tag.toNat % 16 = 3) →
          (peerGet t nb).state = .lost ∧ t.regs.irqCause.getLsbD 2 = true) ∧
        (peerGone s nb = false → f.tag.toNat % 16 = 4 → alone →
          (peerGet t nb).state = .unreachable ∧ t.regs.irqCause.getLsbD 2 = true) ∧
        (f.tag.toNat % 16 = 4 → ¬ alone → t.net.peers = h.net.peers))) ∧
      (f.typ = ftNotice → dev ≠ ownId s → dev < 16384 →
        (f.aux.getLsbD 0 = true → peerGone s dev = false → Answers (.notice link f) s (fun t =>
          (peerGet t dev).state = .lost ∧ t.regs.irqCause.getLsbD 2 = true ∧ t.net.lastLost = BitVec.ofNat 14 dev ∧
          (∀ j : Nat, j < 24 → j ≠ k → linkUp s j = true →
            Emitted s t j (noticeFrame s dev (f.tag.toNat / 65536) true (BitVec.ofNat 3 (f.aux.toNat / 2)) (f.aux.toNat / 16 % 16))))) ∧
        (f.aux.getLsbD 0 = true → peerGone s dev = true → Answers (.notice link f) s (fun t => t.net.peers = h.net.peers)) ∧
        (f.aux.getLsbD 0 = false → 0 < (BitVec.ofNat 16 (f.tag.toNat / 65536) - (peerGet s dev).noticeCount).toInt →
          Answers (.notice link f) s (fun t =>
            (peerGet t dev).stat = BitVec.ofNat 3 (f.aux.toNat / 2) ∧
            (peerGet t dev).noticeCount = BitVec.ofNat 16 (f.tag.toNat / 65536) ∧
            (∀ d : Nat, d ≠ dev → peerGet t d = peerGet h d) ∧
            (∀ j : Nat, j < 24 → j ≠ k → linkUp s j = true →
              Emitted s t j (noticeFrame s dev (f.tag.toNat / 65536) false (BitVec.ofNat 3 (f.aux.toNat / 2)) (f.aux.toNat / 16 % 16))))))) ∧
    (∀ (g : Frame) (rest : List Frame), l.replay = g :: rest → l.ackAt + 10000 ≤ s.clk →
      (l.resends < 8 → Answers (.replayTimeout link) s (fun t =>
        (linkGet t k).wire = l.wire ++ (l.replay.filter (fun x => lseqLe g.lseq x.lseq)).map (onWire l) ∧
        (linkGet t k).replay = l.replay ∧ (linkGet t k).resends = l.resends + 1 ∧ (linkGet t k).ackAt = s.clk ∧
        (∀ j : Nat, j ≠ k → linkGet t j = linkGet s j) ∧ OnlyIn [.regs, .port, .net, .pmu] s t)) ∧
      (8 ≤ l.resends → Answers (.replayTimeout link) s (fun t =>
        (linkGet t k).state = .down ∧ (linkGet t k).cause = causeReplay ∧ (linkGet t k).replay = [])))

/-! ### Frames between devices -/

/-- Every frame type between devices, arriving in order and for this module, sets the LSEQ received and returns credit; a gap
draws a NAK, a LOST sender's frame has no effect, and a frame for another device goes out on its route. A repair request is
answered with the block's 256 pieces or its refusal code. A PUT in a window is stored, but not in a DERIVED block, and
acknowledged once it is visible; another is refused; an acknowledgement counts one PUT or, a refusal, ends the export
CANCELLED_PEER (the model's choice between R8 and R354, log entry 114). A FLUSH is answered once no PUT of its sender is
owed an answer, and a FLUSH_ACK counted. A signature that equals this member's is answered with CLEAR, one that differs, or
an ABORT, ends the collective CANCELLED_PEER; one of a collective not dispatched is kept. A CLEAR lets kept data flow, an
ACK counts a receiver, data of a RECV or BROADCAST enters its output. A wait past its timeout ends COLLECTIVE_TIMEOUT.
(R180, R263, R325, R327, R331, R339, R340, R342, R344, R352, R354, R355) -/
def Obligations.SequencedFrames : Prop :=
  ∀ (link : LinkNo) (f : Frame) (s : State),
    let k := link.val
    let l := linkGet s k
    let h := heard s k f
    let src := f.src.toNat
    let tc := f.tc.toNat
    let ctl (kind : Nat) : Bool := f.typ = ftCollCtl && f.aux.toNat % 4 = kind && 2 ≤ tc && tc ≤ 9
    let rows : List (Instr × Bool) := [(.repairReq link f, f.typ = ftRepairReq), (.repairRsp link f, f.typ = ftRepairRsp),
      (.put link f, f.typ = ftPut), (.putAck link f, f.typ = ftPutAck), (.flush link f, f.typ = ftFlush),
      (.flushAck link f, f.typ = ftFlushAck), (.coll link f, f.typ = ftColl && 2 ≤ tc && tc ≤ 9),
      (.collSignature link f, ctl 0), (.collClear link f, ctl 1), (.collAbort link f, ctl 2), (.collAck link f, ctl 3)]
    let room := ∀ a : Nat, (h.net.earlySigs.filter (fun e => e.axis = a)).length < 256
    let pairSig : Bool := f.addr.toNat % 16 = cxSend
    -- Sequence, credit, forwarding.
    (∀ c : Instr, (c, true) ∈ rows → isLocal f = false →
      (inOrder s k f = true → room →
        let v := vcOf f
        let freed (u : Nat) : Nat := if u = v then (mapGet 0 l.freed u + cellsOf f) % 65536 else mapGet 0 l.freed u
        Answers c s (fun t =>
          (linkGet t k).rxLast = f.lseq ∧ (linkGet t k).discarding = false ∧
          Emitted s t k (mkLocal s ftCredit (BitVec.ofNat 32 (v / 4))
            (BitVec.ofNat 64 ((List.range 4).foldl (fun n i => n + freed (4 * (v / 4) + i) * 65536 ^ i) 0)) 0))) ∧
      (linkUp s k = true → frameGood f = true → f.lseq ≠ l.rxLast + 1 →
        ((lseqLe f.lseq l.rxLast = true ∨ l.discarding = true) → exec c s = .next h) ∧
        (lseqLe f.lseq l.rxLast = false → l.discarding = false → Answers c s (fun t =>
          Emitted s t k (mkLocal s ftNak ((l.rxLast + 1).setWidth 32) 0 0) ∧ (linkGet t k).discarding = true ∧
          (linkGet t k).rxLast = l.rxLast ∧ OnlyIn [.regs, .port, .lines, .net, .pmu] s t))) ∧
      (linkUp s k = true → frameGood f = true → f.lseq = l.rxLast + 1 →
        ((peerGet s src).state = .lost → Answers c s (fun t =>
          (linkGet t k).rxLast = f.lseq ∧ OnlyIn [.regs, .port, .lines, .net, .pmu] s t)) ∧
        (∀ (p j : Nat) (g : Frame), (peerGet s src).state ≠ .lost → routeOf s f false = .out p g → carriers s p g false = [j] →
          Answers c s (fun t =>
            Routed s t j g ∧ (linkGet t k).rxLast = f.lseq ∧
            (g ∈ (linkGet t j).txQueue → g ∉ (linkGet s j).txQueue →
              (j, g, k, vcOf f, cellsOf f) ∈ t.net.transit ∧ (linkGet t k).freed = l.freed) ∧
            OnlyIn [.regs, .port, .lines, .net, .pmu] s t)))) ∧
    (inOrder s k f = true →
      -- Repair.
      (f.typ = ftRepairReq →
        let a := f.addr.toNat % 2 ^ 48 / blockBytes * blockBytes
        let e := htGet s (blockNo a)
        let code : Option Nat := if e.state = .unbound then some 1 else if e.state = .chafed ∨ blockMarked s e = true then some 2
          else if e.gen.toNat ≠ f.aux.toNat % 65536 then some 3 else if actF s flMaint 0 = 1 then some 4 else none
        Answers (.repairReq link f) s (fun t =>
          (∀ (x j : Nat) (g : Frame), code = some x → leavesBy h (repairRsp h f 0 x []) j g → Routed h t j g) ∧
          (∀ (i j : Nat) (g : Frame), code = none → i < 256 →
            leavesBy h (repairRsp h f (256 * i) 0 (devRead h none (a + 256 * i) 256).1) j g → Routed h t j g) ∧
          t.mem = s.mem ∧ OnlyIn [.regs, .port, .lines, .net, .pmu] s t)) ∧
      (∀ r : Repair, f.typ = ftRepairRsp → h.net.repairs.find? (fun r => r.reqId = f.tag.toNat) = some r →
        f.aux.toNat % 8 = 0 →
        let off := f.addr.toNat % 2 ^ 48 - r.name * blockBytes
        let got := if r.got.any (fun p => p.1 = off) then r.got else r.got ++ [(off, f.payload)]
        let e := htGet s r.name
        let base := frameBase e.tier e.frame
        let g := granSize base
        let piece (i : Nat) : Byte :=
          ((got.find? (fun p => p.1 ≤ i && i < p.1 + p.2.length)).map (fun p => p.2.getD (i - p.1) 0)).getD 0
        (got.length ≠ 256 → Answers (.repairRsp link f) s (fun t =>
          t.net.repairs = h.net.repairs.map (fun x => if x.name = r.name then { r with got := got } else x) ∧ t.mem = s.mem ∧
          (∀ b : Nat, htGet t b = htGet s b))) ∧
        (got.length = 256 → plainSpan s base blockBytes = true → Answers (.repairRsp link f) s (fun t =>
          t.net.repairs = h.net.repairs.filter (fun x => x.name != r.name) ∧
          (∀ i : Nat, i < blockBytes → rawByte t (base + i) =
            if granChafed s (base + i / g * g) then piece i else rawByte s (base + i)) ∧
          OutsideFrame s t base blockBytes ∧ (∀ i : Nat, i < blockBytes → granChafed t (base + i) = false) ∧
          (htGet t r.name).repair = false ∧ (htGet t r.name).gen = r.gen ∧ (∀ b : Nat, b ≠ r.name → htGet t b = htGet s b)))) ∧
      -- Peer exports.
      (f.typ = ftPut →
        let ws := (List.range f.plen.toNat).map (fun j => (f.addr.toNat + 32 * j, (f.payload.drop (32 * j)).take 32))
        let named := ∀ w ∈ ws, w.1 < straightBase ∧ derivedName s (blockNo w.1) = true
        let answered (t : State) : Prop :=
          ∀ (j : Nat) (g : Frame), leavesBy h (mkFrame h ftPutAck 1 2 src f.tag f.addr 0 []) j g → Routed h t j g
        (putAccepted s f = true → putHeld s f = false →
          ((∀ w ∈ ws, kernHome s w.1 32 = true ∧ derivedName s (blockNo w.1) = false) →
            apart (ws.map (fun w => (frameAt s w.1, 32))) = true → Answers (.put link f) s (fun t =>
              StoredAll s t ws ∧ answered t ∧ t.net.owed = s.net.owed ∧
              ∀ j : Nat, j < f.plen.toNat → f.aux.getLsbD j = true → granChafed t (frameAt s (f.addr.toNat + 32 * j)) = true)) ∧
          (named → Answers (.put link f) s (fun t => t.mem = s.mem ∧ answered t))) ∧
        (putAccepted s f = true → putHeld s f = true → Answers (.put link f) s (fun t => t.net.owed = s.net.owed ++ [f])) ∧
        (putAccepted s f = false → Answers (.put link f) s (fun t =>
          t.mem = s.mem ∧
          (∀ (j : Nat) (g : Frame), leavesBy h (mkFrame h ftPutAck 1 2 src f.tag 0xFFFFFFFFFFFFFFFF 0 []) j g → Routed h t j g) ∧
          OnlyIn [.regs, .port, .lines, .net, .pmu] s t))) ∧
      (∀ (p : PutStream) (o : OpEnt), f.typ = ftPutAck → h.net.puts.find? (fun p => p.id = f.tag.toNat) = some p →
        opFind h p.line p.seq = some o →
        (f.addr ≠ 0xFFFFFFFFFFFFFFFF → o.units.length ≠ o.total → Answers (.putAck link f) s (fun t =>
          t.net.puts = h.net.puts.map (fun q => if q.id = p.id then { p with outstanding := p.outstanding - 1 } else q) ∧
          t.lines = h.lines ∧ OnlyIn [.regs, .port, .lines, .net, .pmu] s t)) ∧
        (f.addr = 0xFFFFFFFFFFFFFFFF → recordOpen h p.line = true → Answers (.putAck link f) s (fun t =>
          Finished h t p.line p.seq (endStatus o stCancelledPeer) o.flags o.epoch o.desc (snapBytes o) ∧
          t.net.puts = h.net.puts.filter (fun q => !(q.line = p.line && q.seq = p.seq))))) ∧
      -- The SYSTEM flush.
      (f.typ = ftFlush → (∀ x ∈ s.net.owed, x.src ≠ f.src) → Answers (.flush link f) s (fun t =>
        (∀ (j : Nat) (g : Frame), leavesBy h (mkFrame h ftFlushAck 1 2 src f.tag f.addr f.aux []) j g → Routed h t j g) ∧
        OnlyIn [.regs, .port, .lines, .net, .pmu] s t)) ∧
      (f.typ = ftFlush → (∃ x ∈ s.net.owed, x.src = f.src) → Answers (.flush link f) s (fun t =>
        t.net.owed = s.net.owed ++ [f] ∧ OnlyIn [.regs, .port, .lines, .net, .pmu] s t)) ∧
      (f.typ = ftFlushAck → Answers (.flushAck link f) s (fun t =>
        t.net.flushes = s.net.flushes.map (fun x =>
          if x.id = f.tag.toNat then { x with waiting := x.waiting.filter (fun d => d != src) } else x) ∧
        OnlyIn [.regs, .port, .lines, .net, .pmu] s t)) ∧
      -- Collectives.
      (∀ (n : Nat) (o : OpEnt), opFind h n o.seq = some o →
        let sigOk := f.addr = ccSig o.desc ∧ (ccOp o.desc = cxRecv → BitVec.ofNat 32 (natOfBytes (f.payload.take 4)) = ccTag o.desc)
        let ended (coll : Coll) (t : State) : Prop :=
          Finished h t n o.seq stCancelledPeer o.flags o.epoch o.desc (collBytes { o with coll := coll })
        (ctl 0 = true → collFor h f pairSig cxRecv = some (n, o) →
          (sigOk → o.coll.started = true → o.coll.early = [] → Answers (.collSignature link f) s (fun t =>
            opFind t n o.seq = some { o with coll := { o.coll with
              sigWait := o.coll.sigWait.filter (fun x => x != src), waitSince := tbNow s, slowDevs := [] } } ∧
            (∀ (j : Nat) (g : Frame), leavesBy h (ctlFrame h o src 1 0) j g → Routed h t j g) ∧
            OnlyIn [.regs, .port, .lines, .net, .pmu] s t)) ∧
          (¬ sigOk → ccOutCount h o.desc = 0 → recordOpen h n = true → Answers (.collSignature link f) s (fun t =>
            ended { o.coll with mismatch := true, failRank := ccRankOf h o.desc src } t))) ∧
        (ctl 1 = true → collFor h f pairSig cxSend = some (n, o) → Answers (.collClear link f) s (fun t =>
          let go := o.coll.txWait.filter (fun g => g.dst.toNat = src)
          opFind t n o.seq = some { o with coll := { o.coll with
            clearWait := o.coll.clearWait.filter (fun x => x != src), txWait := o.coll.txWait.filter (fun g => g.dst.toNat != src),
            bytesTx := o.coll.bytesTx + (go.map (fun g => g.payload.length)).sum, waitSince := tbNow s, slowDevs := [] } } ∧
          (∀ x ∈ go, ∀ (j : Nat) (g : Frame), leavesBy h x j g → Routed h t j g) ∧
          OnlyIn [.regs, .port, .lines, .net, .pmu] s t)) ∧
        (ctl 2 = true → (if pairSig then (collFor h f true cxRecv).orElse (fun _ => collFor h f true cxSend)
            else collFor h f false 0) = some (n, o) →
          ccOutCount h o.desc = 0 → recordOpen h n = true → Answers (.collAbort link f) s (fun t =>
            ended { o.coll with failRank := ccRankOf h o.desc src } t)) ∧
        (ctl 3 = true → collFor h f pairSig cxSend = some (n, o) → Answers (.collAck link f) s (fun t =>
          opFind t n o.seq = some { o with coll := { o.coll with
            ackWait := o.coll.ackWait.filter (fun x => x != src), waitSince := tbNow s, slowDevs := [] } } ∧
          OnlyIn [.regs, .port, .lines, .net, .pmu] s t)) ∧
        (∀ r : RxData, (f.typ = ftColl && 2 ≤ tc && tc ≤ 9) = true →
          collFor h f (decide (f.tag.toNat / 2 ^ 24 = 0)) cxRecv = some (n, o) → (ccOp o.desc = cxRecv ∨ ccOp o.desc = cxBroadcast) →
          o.coll.started = true → o.coll.early = [] → quiet s unLinks = false → rxData h o f = some r →
          Answers (.coll link f) s (fun t => ∃ o1 : OpEnt, opFind t n o.seq = some o1 ∧
            (∀ i : Nat, i < r.count → mapFind o1.coll.out (r.first + i) = some (rxElem f r.size i)) ∧
            o1.coll.bytesRx = o.coll.bytesRx + f.payload.length ∧ o1.coll.waitSince = tbNow s ∧ o1.coll.early = [] ∧
            mapGet 0 o1.coll.rxWait src = mapGet 0 o.coll.rxWait src - r.count))) ∧
      ((ctl 0 = true → collFor h f pairSig cxRecv = none → numTaken h f = false → room → Answers (.collSignature link f) s (fun t =>
        t.net.earlySigs = h.net.earlySigs ++ [EarlySig.mk (tc - 2) src (f.tag.toNat % 2 ^ 24) f.addr
          (BitVec.ofNat 32 (natOfBytes (f.payload.take 4))) false none] ∧ t.lines = h.lines)))) ∧
    -- Timeouts.
    (∀ (line : LineNo) (seq : Seq) (o : OpEnt), opFind s line.toNat seq.toNat = some o → recordOpen s line.toNat = true →
      (isColl o = true → awaited o ≠ [] → o.track ≠ .cancelPending → o.coll.waitSince + collTimeoutUs s o * 1000 ≤ tbNow s →
        ccOutCount s o.desc = 0 → Answers (.collectiveTimeout line seq) s (fun t =>
          Finished s t line.toNat o.seq stCollectiveTimeout o.flags o.epoch o.desc
            (collBytes { o with coll := { o.coll with failRank := lowestAwaited s o } }))) ∧
      (opcodeOf o.desc = opStopper → stopScope o.desc = 4 → o.total = 1 → o.track = .running →
        (∃ x ∈ s.net.flushes, x.line = line.toNat ∧ x.seq = o.seq ∧ x.waiting ≠ []) →
        o.cDisp + o.n2 + actF s flAxTimeout (stopAxis o.desc) * actF s flAxSlowMult (stopAxis o.desc) * 1000 ≤ tbNow s →
        Answers (.collectiveTimeout line seq) s (fun t =>
          Finished s t line.toNat o.seq stCollectiveTimeout o.flags o.epoch o.desc (stopperBytes s o))))

/-! ### Power, resets and boot -/

/-- The standby domain comes up in range and is lost out of it, with the trip latch, its record and every pending event. PWR_EN
high brings the rails up and PWR_GOOD, but not with a trip latched or an input fault. A fall of PWR_EN or an input fault
sends SLIP SHUTDOWN on every UP link and drops the rails; an input back between 40 V and 60 V ends the fault. PERST_N low is
noted; after 100 us it is a warm reset: SLIP RESET, no line or operation left, no byte of host memory written, timebase,
FORCE_SAFE, flash, fuses and governor kept. A trip sends SLIP TRIP, latches its source and a pending event, drives
THERM_TRIP_N and ALERT_N low and drops the rails; the latch releases after PWR_EN low for 1 s and cool sensors. Reading the
last event releases ALERT_N. An MCTP message is received in standby. (R6, R41, R207, R348, R431, R432, R433, R434, R435,
R436, R438, R439) -/
def Obligations.PowerAndResets : Prop :=
  ∀ s : State,
    let slips (t : State) (reason : Nat) : Prop :=
      ∀ k : Nat, k < 24 → linkUp s k = true → Emitted s t k (mkLocal s ftSlip (BitVec.ofNat 32 reason) 0 0)
    let longLow := ∀ a : Nat, s.power.pwrEnLowAt = some a → a + 1000000000 ≤ s.clk
    let risen (t : State) : Prop :=
      t.power.rails = true ∧ t.power.perstActed = true ∧ t.pins.pwrGood = true ∧
      (∀ k : Nat, k < 4 + mantleCount s.fuses.variant → (stackGet t k).lastReport = s.clk)
    (∀ mv : Nat, s.power.standby = false → 36000 ≤ mv → mv ≤ 64000 → Answers (.standbyPowerUp mv) s (fun t =>
      t.power = { s.power with standby := true } ∧ t.pins = { s.pins with vinMv := mv } ∧ OnlyIn [.pins, .power] s t)) ∧
    (∀ mv : Nat, s.power.standby = true → (mv < 36000 ∨ 64000 < mv) → Answers (.standbyPowerLoss mv) s (fun t =>
      t.power.standby = false ∧ t.power.trip = false ∧ t.power.tripSource = none ∧ t.power.events = [] ∧ t.power.rails = false ∧
      t.pins.thermTripN = true ∧ t.pins.alertN = true ∧ t.pins.vinMv = mv ∧ t.flash = s.flash ∧ t.fuses = s.fuses ∧
      (s.power.rails = true → slips t 2 ∧ t.lines = [] ∧ t.pins.pwrGood = false))) ∧
    (s.power.standby = true → s.pins.pwrEn = false → longLow → s.power.rails = false →
      (s.power.trip = false → s.power.faulted = false → Answers .powerUp s (fun t =>
        risen t ∧ t.pins.pwrEn = true ∧ OnlyIn [.pins, .power, .stackSt] s t)) ∧
      ((s.power.trip = true ∨ s.power.faulted = true) → Answers .powerUp s (fun t =>
        t.pins = { s.pins with pwrEn := true } ∧ t.power = { s.power with pwrEnLowAt := none } ∧ OnlyIn [.pins, .power] s t))) ∧
    (s.pins.pwrEn = true → Answers .shutdown s (fun t =>
      t.pins.pwrEn = false ∧ t.power.pwrEnLowAt = some s.clk ∧ t.power.rails = false ∧ t.power.trip = s.power.trip ∧
      t.power.standby = s.power.standby ∧ t.flash = s.flash ∧ t.fuses = s.fuses ∧
      (s.power.rails = true → slips t 2 ∧ t.pins.pwrGood = false ∧ t.lines = [] ∧ t.mem.host = s.mem.host))) ∧
    (∀ mv : Nat, s.power.standby = true →
      ((mv < 38000 ∧ 36000 ≤ mv ∨ 62000 < mv ∧ mv ≤ 64000) → Answers (.inputFault mv) s (fun t =>
        t.power.faulted = true ∧ t.power.rails = false ∧ t.power.standby = true ∧ t.power.trip = s.power.trip ∧
        t.power.events = s.power.events ∧ t.pins.vinMv = mv ∧ (s.power.rails = true → slips t 2 ∧ t.pins.pwrGood = false))) ∧
      (40000 ≤ mv → mv ≤ 60000 → Answers (.inputRecovery mv) s (fun t =>
        t.power.faulted = false ∧ t.pins.vinMv = mv ∧
        (s.pins.pwrEn = true → s.power.rails = false → s.power.trip = false → risen t) ∧
        ((s.pins.pwrEn = false ∨ s.power.trip = true) → t.power.rails = s.power.rails) ∧
        OnlyIn [.pins, .power, .stackSt] s t))) ∧
    (s.pins.perstN = true → Answers .perstNAssert s (fun t =>
      t.pins = { s.pins with perstN := false } ∧ t.power = { s.power with perstLowAt := some s.clk } ∧
      OnlyIn [.pins, .power] s t)) ∧
    (∀ a : Nat, s.power.rails = true → s.power.perstActed = false → s.pins.perstN = false → s.power.perstLowAt = some a →
      a + 100000 ≤ s.clk → Answers .warmReset s (fun t =>
        slips t 1 ∧ t.power = { s.power with perstActed := true } ∧ t.pins = s.pins ∧ t.lines = [] ∧ t.hitches = [] ∧
        t.tiers = Tiers.reset ∧ t.cfg = Config.reset ∧ t.belay = Belay.reset ∧ t.mem.host = s.mem.host ∧ t.tb = s.tb ∧
        t.boot.forceSafe = s.boot.forceSafe ∧ t.boot.phase = 0 ∧ t.gov = s.gov ∧ t.flash = s.flash ∧ t.fuses = s.fuses ∧
        (∀ k : Nat, k < 24 → (linkGet t k).state = .down))) ∧
    (∀ source : TripSource, s.power.standby = true → s.power.trip = false → sourceFitted s.fuses.variant source = true →
      Answers (.thermalTrip source) s (fun t =>
        t.power.trip = true ∧ t.power.tripSource = some source ∧ t.power.events = s.power.events ++ [PldmEvent.mk source] ∧
        t.power.rails = false ∧ t.power.standby = true ∧ t.pins.thermTripN = false ∧ t.pins.alertN = false ∧
        (s.power.rails = true → slips t 3 ∧ t.pins.pwrGood = false ∧ t.lines = []))) ∧
    (s.power.trip = true → s.pins.pwrEn = false → longLow → Answers (.tripRelease true) s (fun t =>
      t.power = { s.power with trip := false } ∧ t.pins = { s.pins with thermTripN := true } ∧ OnlyIn [.pins, .power] s t)) ∧
    (∀ (e : PldmEvent) (rest : List PldmEvent), s.power.events = e :: rest → Answers .pldmEventRead s (fun t =>
      t.power = { s.power with events := rest } ∧ t.pins = { s.pins with alertN := rest.isEmpty } ∧ OnlyIn [.pins, .power] s t)) ∧
    (∀ body : List Byte, s.power.standby = true → Answers (.mctpMessage body) s (fun t =>
      t.power = { s.power with mctp := s.power.mctp ++ [body] } ∧ OnlyIn [.power] s t))

/-- A rise of PERST_N that was not acted on changes nothing but the pin. Otherwise the timebase reads zero when it was not
running, BOOT_COUNT rises, and the module reaches KERN. FORCE_SAFE, or no slot that passes its checks, leads to safe mode:
device ID, PERSONALITY and STYLE 0, the ROM configuration active and FORCE_SAFE cleared. Otherwise the newest slot that
passes is applied: its number, FALLBACK 0, the epoch 0, no line with work. Training of a tier's stacks leads to the next
phase; a stack that failed twice marks its tier lost and enters safe mode. LINKS ends with every enabled link UP or MISWIRE
or after 600 ms: READY, and one log record. A firmware update writes its image into the slot not booted, erases the rest of
that slot and changes no other byte of the flash. (R37, R374, R380, R381, R382, R384, R385, R434, R435) -/
def Obligations.BootAndUpdate : Prop :=
  ∀ s : State,
    (∀ modId : BitVec 5, s.pins.perstN = false → s.power.rails = true →
      (s.power.perstActed = false → Answers (.bootStart modId) s (fun t =>
        t.pins = { s.pins with perstN := true } ∧ t.power = { s.power with perstLowAt := none } ∧ OnlyIn [.pins, .power] s t)) ∧
      (s.power.perstActed = true →
        Answers (.bootStart modId) s (fun t =>
          t.boot.phase = 4 ∧ t.boot.count = s.boot.count + 1 ∧ t.boot.modId = modId ∧
          t.pins = { s.pins with perstN := true, modId := modId, refclkOk := true } ∧ t.power.perstActed = false ∧
          (s.tb.running = false → t.tb.now = 0 ∧ t.tb.running = true) ∧
          (s.tb.running = true → t.tb.now = s.tb.now ∧ t.tb.holdover = false) ∧ t.fuses = s.fuses) ∧
        (s.boot.safe = false →
          let x := examine (examine (risen s modId) 0 modId.toNat) 1 modId.toNat
          let safe (t : State) : Prop :=
            t.boot.safe = true ∧ t.boot.forceSafe = false ∧ t.boot.devId = 0 ∧ t.boot.personality = 0 ∧ t.boot.style = 0 ∧
            t.cfg.act = safeAct ∧ t.cfg.coil = safeAct ∧ t.belay = Belay.reset ∧ t.lines = []
          (s.boot.forceSafe = true → Answers (.bootStart modId) s (fun t =>
            safe t ∧ ∀ k : Nat, k < 2 → (slotInfo t k).cause = 0xFF)) ∧
          (s.boot.forceSafe = false → (slotInfo x 0).cause ≠ 0 → (slotInfo x 1).cause ≠ 0 → Answers (.bootStart modId) s safe) ∧
          (∀ (k : Nat) (rest : List Nat), s.boot.forceSafe = false → slotOrder x = k :: rest → (slotInfo x k).cause = 0 →
            (bootBelay x k modId.toNat).2 = true → Answers (.bootStart modId) s (fun t =>
              t.boot.slot = k ∧ t.boot.safe = false ∧ t.boot.fallback = false ∧ t.belay = Belay.reset ∧ t.hitches = [] ∧
              (∀ n : Nat, (lineGet t n).ops = []) ∧ t.cfg.coil = (bootBelay x k modId.toNat).1.cfg.coil))))) ∧
    (∀ (tier : Tier) (once twice : List Stack), lanesLive s = true →
      (tier = .kern ∧ s.boot.phase = 4 ∨ tier = .mantle ∧ s.boot.phase = 5) →
      ((∀ x ∈ once ++ twice, stackIn s.fuses.variant tier x = false) → Answers (.stackTrainingDone tier once twice) s (fun t =>
        t.boot = (if tier = .kern then { s.boot with phase := 5 } else if s.boot.safe then { s.boot with phase := 8 }
          else { s.boot with phase := 6, linksAt := s.clk }) ∧ OnlyIn [.boot] s t)) ∧
      ((∃ x ∈ twice, stackIn s.fuses.variant tier x = true) → Answers (.stackTrainingDone tier once twice) s (fun t =>
        t.boot.safe = true ∧ t.boot.trainRetry = true ∧ (tier = .kern → t.boot.kernLost = true ∧ t.boot.phase = 5) ∧
        (tier = .mantle → t.boot.mantleLost = true ∧ t.boot.phase = 8)))) ∧
    (s.boot.phase = 6 → lanesLive s = true → (linksSettled s = true ∨ s.boot.linksAt + 600000000 ≤ s.clk) →
      Answers .linksPhaseEnd s (fun t =>
        t.boot = { s.boot with phase := 7, logNext := (s.boot.logNext + 1) % logRecords } ∧
        (∀ i : Nat, i < 4 → flashByte t (logBase + 32 * s.boot.logNext + i) = (bytesOf 4 s.boot.count.toNat).getD i 0) ∧
        flashByte t (logBase + 32 * s.boot.logNext + 4) = 0x01 ∧ flashByte t (logBase + 32 * s.boot.logNext + 5) = 0x00 ∧
        (∀ a : Nat, a < logBase → flashByte t a = flashByte s a) ∧ t.cfg = s.cfg ∧ t.mem = s.mem)) ∧
    (∀ image : List Byte, s.power.standby = true → image.length ≤ 0x2000000 → Answers (.pldmFirmwareUpdate image) s (fun t =>
      ∃ slot : Nat, slot < 2 ∧ slot ≠ s.boot.slot ∧
        (∀ i : Nat, i < image.length → flashByte t (slotBase slot + i) = image.getD i 0xFF) ∧
        (∀ i : Nat, image.length ≤ i → i < 0x2000000 → flashByte t (slotBase slot + i) = 0xFF) ∧
        (∀ a : Nat, ¬ (slotBase slot ≤ a ∧ a < slotBase slot + 0x2000000) → flashByte t a = flashByte s a) ∧
        OnlyIn [.free, .flash] s t))
end

