-- ==== Sys2Proof/Laws/Maps.lean ====
section
/-! SUPPORT. Laws of the sparse maps: what a read gives after a write, and that every write keeps the canonical form. -/

set_option Elab.async false

namespace Sys2Proof.Machine

open Sys2Proof

theorem rising_iff (l : List Nat) : rising l = true ↔ l.Pairwise (· < ·) := by simp [rising]

theorem mapWf_iff {V : Type} [DecidableEq V] (d : V) (m : SMap V) :
    mapWf d m = true ↔ (m.map Prod.fst).Pairwise (· < ·) ∧ ∀ p ∈ m, p.2 ≠ d := by
  simp [mapWf, List.all_eq_true]

theorem mapWf_nil {V : Type} [DecidableEq V] (d : V) : mapWf d ([] : SMap V) = true := rfl

theorem keys_nil (V : Type) : rising (([] : SMap V).map Prod.fst) = true := rfl

theorem rising_nil : rising [] = true := rfl

theorem mem_mapIns {V : Type} (m : SMap V) (k : Nat) (v : V) (p : Nat × V) : p ∈ mapIns m k v → p = (k, v) ∨ p ∈ m := by
  induction m with
  | nil => simp [mapIns]
  | cons q m ih =>
    simp only [mapIns]
    split
    · simp only [List.mem_cons]
      rintro (h | h)
      · exact Or.inr (Or.inl h)
      · exact (ih h).imp_right Or.inr
    · split
      · simp only [List.mem_cons]
        exact fun h => h.imp_right Or.inr
      · simp only [List.mem_cons]
        exact id

theorem mapIns_rising {V : Type} (m : SMap V) (k : Nat) (v : V) (h : (m.map Prod.fst).Pairwise (· < ·)) :
    ((mapIns m k v).map Prod.fst).Pairwise (· < ·) := by
  induction m with
  | nil => simp [mapIns]
  | cons q m ih =>
    simp only [List.map_cons, List.pairwise_cons] at h
    simp only [mapIns]
    split
    · rename_i hlt
      simp only [List.map_cons, List.pairwise_cons]
      refine ⟨fun j hj => ?_, ih h.2⟩
      obtain ⟨p, hp, rfl⟩ := List.mem_map.1 hj
      rcases mem_mapIns m k v p hp with rfl | hm
      · exact hlt
      · exact h.1 _ (List.mem_map_of_mem hm)
    · split
      · rename_i hk
        subst hk
        exact List.pairwise_cons.2 h
      · rename_i hnlt hne
        have hak : k < q.1 := by omega
        refine List.pairwise_cons.2 ⟨fun j hj => ?_, List.pairwise_cons.2 h⟩
        rcases List.mem_cons.1 hj with rfl | hj
        · exact hak
        · exact Nat.lt_trans hak (h.1 j hj)

theorem mapUpd_rising {V : Type} (m : SMap V) (k : Nat) (ov : Option V) (h : (m.map Prod.fst).Pairwise (· < ·)) :
    ((mapUpd m k ov).map Prod.fst).Pairwise (· < ·) := by
  cases ov with
  | some v => exact mapIns_rising m k v h
  | none => exact h.sublist (List.filter_sublist.map _)

/-- Every entry of an updated map is the new one or one of the old. -/
theorem mem_mapUpd {V : Type} (m : SMap V) (k : Nat) (ov : Option V) (p : Nat × V) :
    p ∈ mapUpd m k ov → ov = some p.2 ∨ p ∈ m := by
  cases ov with
  | some v =>
    intro h
    rcases mem_mapIns m k v p h with rfl | hm
    · exact Or.inl rfl
    · exact Or.inr hm
  | none => exact fun h => Or.inr (List.mem_of_mem_filter h)

theorem mapUpd_wf {V : Type} [DecidableEq V] (d : V) (m : SMap V) (k : Nat) (ov : Option V) (hv : ov ≠ some d)
    (h : mapWf d m = true) : mapWf d (mapUpd m k ov) = true := by
  rw [mapWf_iff] at h ⊢
  refine ⟨mapUpd_rising m k ov h.1, fun p hp hd => ?_⟩
  rcases mem_mapUpd m k ov p hp with hs | hm
  · exact hv (by rw [hs, hd])
  · exact h.2 p hm hd

theorem mapSet_wf {V : Type} [DecidableEq V] (d : V) (m : SMap V) (k : Nat) (v : V) (h : mapWf d m = true) :
    mapWf d (mapSet d m k v) = true := by
  refine mapUpd_wf d m k _ ?_ h
  split
  · simp
  · intro he
    injection he with he
    contradiction

theorem mapFind_mapIns_self {V : Type} (m : SMap V) (k : Nat) (v : V) : mapFind (mapIns m k v) k = some v := by
  induction m with
  | nil => simp [mapIns, mapFind]
  | cons q m ih =>
    simp only [mapIns]
    split
    · rename_i hlt
      have : ¬ q.1 = k := by omega
      simp [mapFind, this, ih]
    · split <;> simp [mapFind]

theorem mapFind_mapIns_ne {V : Type} (m : SMap V) (k j : Nat) (v : V) (hj : j ≠ k) : mapFind (mapIns m k v) j = mapFind m j := by
  induction m with
  | nil => simp [mapIns, mapFind, Ne.symm hj]
  | cons q m ih =>
    simp only [mapIns]
    split
    · simp [mapFind, ih]
    · split
      · rename_i hk
        simp [mapFind, Ne.symm hj, hk]
      · simp [mapFind, Ne.symm hj]

theorem mapFind_filter_self {V : Type} (m : SMap V) (k : Nat) : mapFind (m.filter (fun p => p.1 != k)) k = none := by
  induction m with
  | nil => rfl
  | cons q m ih =>
    by_cases h : q.1 = k
    · simpa [h] using ih
    · simp [h, mapFind, ih]

theorem mapFind_filter_ne {V : Type} (m : SMap V) (k j : Nat) (hj : j ≠ k) :
    mapFind (m.filter (fun p => p.1 != k)) j = mapFind m j := by
  induction m with
  | nil => rfl
  | cons q m ih =>
    by_cases h : q.1 = k
    · have : ¬ q.1 = j := by rw [h]; exact Ne.symm hj
      simp [h, mapFind, Ne.symm hj, ih]
    · simp [h, mapFind, ih]

theorem mapFind_mapUpd_self {V : Type} (m : SMap V) (k : Nat) (ov : Option V) : mapFind (mapUpd m k ov) k = ov := by
  cases ov with
  | some v => exact mapFind_mapIns_self m k v
  | none => exact mapFind_filter_self m k

theorem mapFind_mapUpd_ne {V : Type} (m : SMap V) (k j : Nat) (ov : Option V) (hj : j ≠ k) :
    mapFind (mapUpd m k ov) j = mapFind m j := by
  cases ov with
  | some v => exact mapFind_mapIns_ne m k j v hj
  | none => exact mapFind_filter_ne m k j hj

/-- A read of the key just written gives the value written. -/
theorem mapGet_mapSet_self {V : Type} [DecidableEq V] (d : V) (m : SMap V) (k : Nat) (v : V) :
    mapGet d (mapSet d m k v) k = v := by
  simp only [mapGet, mapSet, mapFind_mapUpd_self]
  split <;> simp_all

/-- A write leaves every other key alone. -/
theorem mapGet_mapSet_ne {V : Type} [DecidableEq V] (d : V) (m : SMap V) (k j : Nat) (v : V) (hj : j ≠ k) :
    mapGet d (mapSet d m k v) j = mapGet d m j := by
  simp only [mapGet, mapSet, mapFind_mapUpd_ne m k j _ hj]

theorem setIns_mem (l : List Nat) (k j : Nat) : j ∈ setIns l k ↔ j = k ∨ j ∈ l := by
  induction l with
  | nil => simp [setIns]
  | cons a l ih =>
    simp only [setIns]
    split
    · simp only [List.mem_cons, ih]; tauto
    · split
      · rename_i hk; subst hk; simp only [List.mem_cons]; tauto
      · simp only [List.mem_cons]

theorem setIns_rising (l : List Nat) (k : Nat) (h : rising l = true) : rising (setIns l k) = true := by
  rw [rising_iff] at h ⊢
  induction l with
  | nil => simp [setIns]
  | cons a l ih =>
    rw [List.pairwise_cons] at h
    simp only [setIns]
    split
    · rename_i hlt
      rw [List.pairwise_cons]
      refine ⟨fun j hj => ?_, ih h.2⟩
      rcases (setIns_mem l k j).1 hj with rfl | hm
      · exact hlt
      · exact h.1 j hm
    · split
      · rw [List.pairwise_cons]; exact h
      · rename_i hnlt hne
        have hak : k < a := by omega
        rw [List.pairwise_cons]
        refine ⟨fun j hj => ?_, by rw [List.pairwise_cons]; exact h⟩
        rcases List.mem_cons.1 hj with rfl | hm
        · exact hak
        · exact Nat.lt_trans hak (h.1 j hm)

theorem rising_filter (l : List Nat) (p : Nat → Bool) (h : rising l = true) : rising (l.filter p) = true := by
  rw [rising_iff] at h ⊢
  exact h.filter p

theorem setDel_rising (l : List Nat) (k : Nat) (h : rising l = true) : rising (setDel l k) = true :=
  rising_filter l _ h

theorem mapWf_filter {V : Type} [DecidableEq V] (d : V) (m : SMap V) (p : Nat × V → Bool) (h : mapWf d m = true) :
    mapWf d (m.filter p) = true := by
  rw [mapWf_iff] at h ⊢
  refine ⟨(h.1.sublist (List.filter_sublist.map _)), fun q hq => h.2 q (List.mem_of_mem_filter hq)⟩

theorem keys_filter {V : Type} (m : SMap V) (p : Nat × V → Bool) (h : rising (m.map Prod.fst) = true) :
    rising ((m.filter p).map Prod.fst) = true := by
  rw [rising_iff] at h ⊢
  exact h.sublist (List.filter_sublist.map _)

theorem keys_mapUpd {V : Type} (m : SMap V) (k : Nat) (ov : Option V) (h : rising (m.map Prod.fst) = true) :
    rising ((mapUpd m k ov).map Prod.fst) = true := by
  rw [rising_iff] at h ⊢
  exact mapUpd_rising m k ov h

/-- A property that every step of a fold keeps holds at its end. -/
theorem foldl_keeps {A B : Type} (P : A → Prop) (f : A → B → A) (l : List B) (a : A) (ha : P a)
    (hf : ∀ a b, P a → P (f a b)) : P (l.foldl f a) := by
  induction l generalizing a with
  | nil => exact ha
  | cons b l ih => exact ih (f a b) (hf a b ha)

theorem setInsAll_rising (bs l : List Nat) (h : rising l = true) : rising (bs.foldl setIns l) = true :=
  foldl_keeps (fun m => rising m = true) setIns bs l h (fun m b hm => setIns_rising m b hm)

end Sys2Proof.Machine
end

