-- ==== Sys2Proof/Laws/Keeps.lean ====
section
/-! SUPPORT. The frame relation: which parts an operation may change, and that it keeps the stores in canonical form. Each
shared operation has one lemma of this form, which proofs cite in place of the operation's definition. -/

set_option Elab.async false

namespace Sys2Proof.Machine

open Sys2Proof

/-- `t` follows from `s` by operations that change the parts of `ps` at most and keep the stores canonical. -/
structure Keeps (ps : List Part) (s t : State) : Prop where
  only : OnlyIn ps s t
  wf : s.wf = true → t.wf = true

/-- The outcome is a fault, a refusal, or a next state that keeps what `Keeps` says. -/
def KeepsOut (ps : List Part) (s : State) (o : Host.Outcome State Fault Refusal) : Prop :=
  ∀ t : State, o = .next t → Keeps ps s t

/-- Every part of `qs` is a part of `ps`. -/
def subParts (qs ps : List Part) : Bool := qs.all (fun p => ps.contains p)

theorem subParts_mem {qs ps : List Part} (h : subParts qs ps = true) {p : Part} (hp : p ∈ qs) : p ∈ ps := by
  have := List.all_eq_true.1 h p hp
  simpa using this

theorem subParts_trans {qs rs ps : List Part} (h : subParts qs rs = true) (hs : subParts rs ps = true) : subParts qs ps = true := by
  rw [subParts, List.all_eq_true] at h ⊢
  intro p hp
  have h1 : p ∈ rs := by simpa using h p hp
  simpa using subParts_mem hs h1

theorem Part.same_refl (p : Part) (s : State) : p.same s s := by cases p <;> rfl

theorem Part.same_trans {p : Part} {s t u : State} (h1 : p.same s t) (h2 : p.same t u) : p.same s u := by
  cases p <;> exact Eq.trans h2 h1

theorem OnlyIn.refl (ps : List Part) (s : State) : OnlyIn ps s s := fun p _ => p.same_refl s

theorem OnlyIn.trans {ps : List Part} {s t u : State} (h1 : OnlyIn ps s t) (h2 : OnlyIn ps t u) : OnlyIn ps s u :=
  fun p hp => Part.same_trans (h1 p hp) (h2 p hp)

theorem OnlyIn.mono {qs ps : List Part} {s t : State} (h : OnlyIn qs s t) (hs : subParts qs ps = true) : OnlyIn ps s t :=
  fun p hp => h p (fun hq => hp (subParts_mem hs hq))

theorem Keeps.refl (ps : List Part) (s : State) : Keeps ps s s := ⟨OnlyIn.refl ps s, id⟩

theorem Keeps.step {qs ps : List Part} {s t u : State} (h : Keeps ps s t) (hf : Keeps qs t u) (hs : subParts qs ps = true) :
    Keeps ps s u :=
  ⟨h.only.trans (hf.only.mono hs), fun w => hf.wf (h.wf w)⟩

theorem Keeps.trans' {ps : List Part} {s t u : State} (h : Keeps ps s t) (hf : Keeps ps t u) : Keeps ps s u :=
  ⟨h.only.trans hf.only, fun w => hf.wf (h.wf w)⟩

theorem Keeps.mono {qs ps : List Part} {s t : State} (h : Keeps qs s t) (hs : subParts qs ps = true) : Keeps ps s t :=
  (Keeps.refl ps s).step h hs

/-- The clauses of the canonical form of memory. -/
theorem Mem.wf_iff (m : Mem) : m.wf = true ↔
    mapWf 0 m.bytes = true ∧ mapWf 0 m.host = true ∧ mapWf 0 m.eye = true ∧ decide (m.ahead.length ≤ 1024) = true ∧
      rising m.chafed = true ∧ rising m.eyeChafed = true ∧ rising m.hostBad = true := by
  simp [Mem.wf, and_assoc]

theorem State.wf_iff (s : State) : s.wf = true ↔ s.mem.wf = true ∧ mapWf 0xFF s.flash = true := by
  simp [State.wf]

theorem short_nil {A : Type} : decide (([] : List A).length ≤ 1024) = true := rfl

theorem short_filter {A : Type} (p : A → Bool) (l : List A) (h : decide (l.length ≤ 1024) = true) :
    decide ((l.filter p).length ≤ 1024) = true :=
  decide_eq_true (Nat.le_trans (List.length_filter_le p l) (of_decide_eq_true h))

theorem short_take {A B : Type} (l : List A) (m : List B) (_ : decide (m.length ≤ 1024) = true) :
    decide ((l.take 1024).length ≤ 1024) = true :=
  decide_eq_true (by rw [List.length_take]; exact Nat.min_le_left _ _)

/-- Memory with other bytes, read-ahead lines, marks and host memory is canonical when these are. -/
theorem Mem.wf_of {m m' : Mem} (h : m.wf = true) (hb : mapWf 0 m.bytes = true → mapWf 0 m'.bytes = true)
    (hh : mapWf 0 m.host = true → mapWf 0 m'.host = true) (he : mapWf 0 m.eye = true → mapWf 0 m'.eye = true)
    (hs : decide (m.ahead.length ≤ 1024) = true → decide (m'.ahead.length ≤ 1024) = true)
    (hc : rising m.chafed = true → rising m'.chafed = true) (hx : rising m.eyeChafed = true → rising m'.eyeChafed = true)
    (hd : rising m.hostBad = true → rising m'.hostBad = true) : m'.wf = true := by
  rw [Mem.wf_iff] at h ⊢
  exact ⟨hb h.1, hh h.2.1, he h.2.2.1, hs h.2.2.2.1, hc h.2.2.2.2.1, hx h.2.2.2.2.2.1, hd h.2.2.2.2.2.2⟩

theorem marksAfter_rising (ms : List Nat) (fa n : Nat) (mark : Bool) (h : rising ms = true) :
    rising (marksAfter ms fa n mark) = true := by
  unfold marksAfter
  refine foldl_keeps (fun l => rising l = true) _ _ _ h (fun l g hl => ?_)
  split
  · exact setIns_rising _ _ hl
  · split
    · exact setDel_rising _ _ hl
    · exact hl

/-- A record update that leaves the stores alone: the parts written are among `ps`. -/
theorem Keeps.upd {ps : List Part} {s t : State} {a1 a2 a3 a4 a5 a6 a8 a9 a10 aI a11 a12 a13 a14 a15 a16 a17 a18 a19 a21 a22 a23 a24 a25 a26 a27 a28}
    (h : Keeps ps s t)
    (ho : (a1 = t.free ∨ ps.contains .free = true) ∧ (a2 = t.clk ∨ ps.contains .clk = true) ∧ (a3 = t.fuses ∨ ps.contains .fuses = true) ∧ (a4 = t.pins ∨ ps.contains .pins = true) ∧ (a5 = t.power ∨ ps.contains .power = true) ∧ (a6 = t.boot ∨ ps.contains .boot = true) ∧ (a8 = t.tb ∨ ps.contains .tb = true) ∧ (a9 = t.regs ∨ ps.contains .regs = true) ∧ (a10 = t.port ∨ ps.contains .port = true) ∧
      ((HostPort.linkUp a10, HostPort.linkDowns a10, HostPort.flrAt a10) = (t.port.linkUp, t.port.linkDowns, t.port.flrAt) ∨ ps.contains .link = true) ∧ (aI = t.ingress ∨ ps.contains .ingress = true) ∧ (a11 = t.belay ∨ ps.contains .belay = true) ∧ (a12 = t.cfg ∨ ps.contains .cfg = true) ∧ (a13 = t.lines ∨ ps.contains .lines = true) ∧ (a14 = t.hitches ∨ ps.contains .hitches = true) ∧ (a15 = t.lineArb ∨ ps.contains .lineArb = true) ∧ (a16 = t.braidArb ∨ ps.contains .braidArb = true) ∧ (a17 = t.vecArb ∨ ps.contains .vecArb = true) ∧ (a18 = t.splArb ∨ ps.contains .splArb = true) ∧ (a19 = t.strands ∨ ps.contains .strands = true) ∧ (a21 = t.tiers ∨ ps.contains .tiers = true) ∧ (a22 = t.eng ∨ ps.contains .eng = true) ∧ (a23 = t.refresh ∨ ps.contains .refresh = true) ∧ (a24 = t.stackSt ∨ ps.contains .stackSt = true) ∧ (a25 = t.gov ∨ ps.contains .gov = true) ∧ (a26 = t.net ∨ ps.contains .net = true) ∧ (a27 = t.wfc ∨ ps.contains .wfc = true) ∧ (a28 = t.pmu ∨ ps.contains .pmu = true)
      := by refine ⟨?_, ?_, ?_, ?_, ?_, ?_, ?_, ?_, ?_, ?_, ?_, ?_, ?_, ?_, ?_, ?_, ?_, ?_, ?_, ?_, ?_, ?_, ?_, ?_, ?_, ?_, ?_, ?_⟩ <;> first | with_reducible exact Or.inl rfl | exact Or.inr (by decide) | exact Or.inl rfl) :
    Keeps ps s (State.mk t.pending a1 a2 a3 a4 a5 a6 t.flash a8 a9 a10 aI a11 a12 a13 a14 a15 a16 a17 a18 a19 t.mem a21 a22 a23 a24 a25 a26 a27 a28) := by
  refine ⟨h.only.trans (fun p hp => ?_), h.wf⟩
  obtain ⟨h1, h2, h3, h4, h5, h6, h8, h9, h10, hL, hI, h11, h12, h13, h14, h15, h16, h17, h18, h19, h21, h22, h23, h24, h25, h26, h27, h28⟩ := ho
  cases p
  · rfl
  · exact h1.resolve_right (fun c => hp (by simpa using c))
  · exact h2.resolve_right (fun c => hp (by simpa using c))
  · exact h3.resolve_right (fun c => hp (by simpa using c))
  · exact h4.resolve_right (fun c => hp (by simpa using c))
  · exact h5.resolve_right (fun c => hp (by simpa using c))
  · exact h6.resolve_right (fun c => hp (by simpa using c))
  · rfl
  · exact h8.resolve_right (fun c => hp (by simpa using c))
  · exact h9.resolve_right (fun c => hp (by simpa using c))
  · exact h10.resolve_right (fun c => hp (by simpa using c))
  · exact hL.resolve_right (fun c => hp (by simpa using c))
  · exact hI.resolve_right (fun c => hp (by simpa using c))
  · exact h11.resolve_right (fun c => hp (by simpa using c))
  · exact h12.resolve_right (fun c => hp (by simpa using c))
  · exact h13.resolve_right (fun c => hp (by simpa using c))
  · exact h14.resolve_right (fun c => hp (by simpa using c))
  · exact h15.resolve_right (fun c => hp (by simpa using c))
  · exact h16.resolve_right (fun c => hp (by simpa using c))
  · exact h17.resolve_right (fun c => hp (by simpa using c))
  · exact h18.resolve_right (fun c => hp (by simpa using c))
  · exact h19.resolve_right (fun c => hp (by simpa using c))
  · rfl
  · exact h21.resolve_right (fun c => hp (by simpa using c))
  · exact h22.resolve_right (fun c => hp (by simpa using c))
  · exact h23.resolve_right (fun c => hp (by simpa using c))
  · exact h24.resolve_right (fun c => hp (by simpa using c))
  · exact h25.resolve_right (fun c => hp (by simpa using c))
  · exact h26.resolve_right (fun c => hp (by simpa using c))
  · exact h27.resolve_right (fun c => hp (by simpa using c))
  · exact h28.resolve_right (fun c => hp (by simpa using c))

/-- A record update that writes memory: it stays canonical. -/
theorem Keeps.updMem {ps : List Part} {s t : State} {a1 a2 a3 a4 a5 a6 a8 a9 a10 aI a11 a12 a13 a14 a15 a16 a17 a18 a19 a20 a21 a22 a23 a24 a25 a26 a27 a28}
    (h : Keeps ps s t)
    (ho : (a1 = t.free ∨ ps.contains .free = true) ∧ (a2 = t.clk ∨ ps.contains .clk = true) ∧ (a3 = t.fuses ∨ ps.contains .fuses = true) ∧ (a4 = t.pins ∨ ps.contains .pins = true) ∧ (a5 = t.power ∨ ps.contains .power = true) ∧ (a6 = t.boot ∨ ps.contains .boot = true) ∧ (a8 = t.tb ∨ ps.contains .tb = true) ∧ (a9 = t.regs ∨ ps.contains .regs = true) ∧ (a10 = t.port ∨ ps.contains .port = true) ∧
      ((HostPort.linkUp a10, HostPort.linkDowns a10, HostPort.flrAt a10) = (t.port.linkUp, t.port.linkDowns, t.port.flrAt) ∨ ps.contains .link = true) ∧ (aI = t.ingress ∨ ps.contains .ingress = true) ∧ (a11 = t.belay ∨ ps.contains .belay = true) ∧ (a12 = t.cfg ∨ ps.contains .cfg = true) ∧ (a13 = t.lines ∨ ps.contains .lines = true) ∧ (a14 = t.hitches ∨ ps.contains .hitches = true) ∧ (a15 = t.lineArb ∨ ps.contains .lineArb = true) ∧ (a16 = t.braidArb ∨ ps.contains .braidArb = true) ∧ (a17 = t.vecArb ∨ ps.contains .vecArb = true) ∧ (a18 = t.splArb ∨ ps.contains .splArb = true) ∧ (a19 = t.strands ∨ ps.contains .strands = true) ∧ (a20 = t.mem ∨ ps.contains .mem = true) ∧ (a21 = t.tiers ∨ ps.contains .tiers = true) ∧ (a22 = t.eng ∨ ps.contains .eng = true) ∧ (a23 = t.refresh ∨ ps.contains .refresh = true) ∧ (a24 = t.stackSt ∨ ps.contains .stackSt = true) ∧ (a25 = t.gov ∨ ps.contains .gov = true) ∧ (a26 = t.net ∨ ps.contains .net = true) ∧ (a27 = t.wfc ∨ ps.contains .wfc = true) ∧ (a28 = t.pmu ∨ ps.contains .pmu = true)
      := by refine ⟨?_, ?_, ?_, ?_, ?_, ?_, ?_, ?_, ?_, ?_, ?_, ?_, ?_, ?_, ?_, ?_, ?_, ?_, ?_, ?_, ?_, ?_, ?_, ?_, ?_, ?_, ?_, ?_, ?_⟩ <;> first | with_reducible exact Or.inl rfl | exact Or.inr (by decide) | exact Or.inl rfl)
    (hw : t.mem.wf = true → Mem.wf a20 = true
      := by
        intro w
        refine Mem.wf_of w ?_ ?_ ?_ ?_ ?_ ?_ ?_ <;> first
          | with_reducible exact id
          | with_reducible exact fun _ => mapWf_nil _
          | with_reducible exact fun _ => short_nil
          | with_reducible exact fun _ => rising_nil
          | with_reducible exact rising_filter _ _
          | with_reducible exact mapWf_filter _ _ _
          | with_reducible exact short_filter _ _
          | with_reducible exact short_take _ _
          | with_reducible exact marksAfter_rising _ _ _ _
          | with_reducible exact setIns_rising _ _
          | with_reducible exact setDel_rising _ _
          | with_reducible exact setInsAll_rising _ _) :
    Keeps ps s (State.mk t.pending a1 a2 a3 a4 a5 a6 t.flash a8 a9 a10 aI a11 a12 a13 a14 a15 a16 a17 a18 a19 a20 a21 a22 a23 a24 a25 a26 a27 a28) := by
  refine ⟨h.only.trans (fun p hp => ?_), fun w => ?_⟩
  · obtain ⟨h1, h2, h3, h4, h5, h6, h8, h9, h10, hL, hI, h11, h12, h13, h14, h15, h16, h17, h18, h19, h20, h21, h22, h23, h24, h25, h26, h27, h28⟩ := ho
    cases p
    · rfl
    · exact h1.resolve_right (fun c => hp (by simpa using c))
    · exact h2.resolve_right (fun c => hp (by simpa using c))
    · exact h3.resolve_right (fun c => hp (by simpa using c))
    · exact h4.resolve_right (fun c => hp (by simpa using c))
    · exact h5.resolve_right (fun c => hp (by simpa using c))
    · exact h6.resolve_right (fun c => hp (by simpa using c))
    · rfl
    · exact h8.resolve_right (fun c => hp (by simpa using c))
    · exact h9.resolve_right (fun c => hp (by simpa using c))
    · exact h10.resolve_right (fun c => hp (by simpa using c))
    · exact hL.resolve_right (fun c => hp (by simpa using c))
    · exact hI.resolve_right (fun c => hp (by simpa using c))
    · exact h11.resolve_right (fun c => hp (by simpa using c))
    · exact h12.resolve_right (fun c => hp (by simpa using c))
    · exact h13.resolve_right (fun c => hp (by simpa using c))
    · exact h14.resolve_right (fun c => hp (by simpa using c))
    · exact h15.resolve_right (fun c => hp (by simpa using c))
    · exact h16.resolve_right (fun c => hp (by simpa using c))
    · exact h17.resolve_right (fun c => hp (by simpa using c))
    · exact h18.resolve_right (fun c => hp (by simpa using c))
    · exact h19.resolve_right (fun c => hp (by simpa using c))
    · exact h20.resolve_right (fun c => hp (by simpa using c))
    · exact h21.resolve_right (fun c => hp (by simpa using c))
    · exact h22.resolve_right (fun c => hp (by simpa using c))
    · exact h23.resolve_right (fun c => hp (by simpa using c))
    · exact h24.resolve_right (fun c => hp (by simpa using c))
    · exact h25.resolve_right (fun c => hp (by simpa using c))
    · exact h26.resolve_right (fun c => hp (by simpa using c))
    · exact h27.resolve_right (fun c => hp (by simpa using c))
    · exact h28.resolve_right (fun c => hp (by simpa using c))
  · have := h.wf w
    simp only [State.wf, Bool.and_eq_true] at this ⊢
    exact ⟨hw this.1, this.2⟩

/-- A record update, in whatever parts. -/
theorem Keeps.updAny {ps : List Part} {s t : State} (u : State) (h : Keeps ps s t) (ho : ∀ p : Part, p ∉ ps → p.same t u)
    (hw : t.wf = true → u.wf = true) : Keeps ps s u :=
  ⟨h.only.trans ho, fun w => hw (h.wf w)⟩

theorem Keeps.foldl {B : Type} {ps : List Part} {s t : State} {f : State → B → State} {l : List B} (h : Keeps ps s t)
    (hf : ∀ (u : State) (b : B), Keeps ps s u → Keeps ps s (f u b)) : Keeps ps s (l.foldl f t) :=
  foldl_keeps (Keeps ps s) f l t h hf

theorem Keeps.foldl_fst {A B : Type} {ps : List Part} {s : State} {a : State × A} {f : State × A → B → State × A} {l : List B}
    (h : Keeps ps s a.1) (hf : ∀ (u : State × A) (b : B), Keeps ps s u.1 → Keeps ps s (f u b).1) :
    Keeps ps s (l.foldl f a).1 :=
  foldl_keeps (fun x => Keeps ps s x.1) f l a h hf

theorem KeepsOut.next {ps : List Part} {s t : State} (h : Keeps ps s t) : KeepsOut ps s (.next t) := by
  intro u hu
  injection hu with hu
  exact hu ▸ h

theorem KeepsOut.mono {qs ps : List Part} {s : State} {o : Host.Outcome State Fault Refusal} (h : KeepsOut qs s o)
    (hs : subParts qs ps = true) : KeepsOut ps s o :=
  fun t ht => (h t ht).mono hs

/-- A state with other memory is canonical when that memory is. -/
theorem Keeps.setMem {ps : List Part} {s t : State} (h : Keeps ps s t) (m : Mem) (hp : ps.contains .mem = true)
    (hm : t.mem.wf = true → m.wf = true) : Keeps ps s { t with mem := m } := by
  refine Keeps.updAny _ h (fun p hq => ?_) (fun hw => ?_)
  · cases p <;> first | rfl | exact absurd (by simpa using hp) hq
  · rw [State.wf_iff] at hw ⊢
    exact ⟨hm hw.1, hw.2⟩

/-- The same, where the new memory is canonical when the memory before both steps is too. -/
theorem Keeps.setMemFrom {ps : List Part} {s t : State} (h : Keeps ps s t) (m : Mem) (hp : ps.contains .mem = true)
    (hm : s.mem.wf = true → t.mem.wf = true → m.wf = true) : Keeps ps s { t with mem := m } := by
  refine ⟨h.only.trans (fun p hq => ?_), fun hw => ?_⟩
  · cases p <;> first | rfl | exact absurd (by simpa using hp) hq
  · have ht := (State.wf_iff _).1 (h.wf hw)
    exact (State.wf_iff _).2 ⟨hm ((State.wf_iff _).1 hw).1 ht.1, ht.2⟩

end Sys2Proof.Machine
end

