-- ==== Sys2Proof/Laws/KeepsOps.lean ====
section
/-! SUPPORT. What each operation of Machine/Ops.lean may change, and that it keeps the stores canonical. -/

set_option Elab.async false

namespace Sys2Proof.Machine

open Sys2Proof

theorem drawn_keeps (s : State) :
    Keeps [.free] s (drawn s) := by
  unfold drawn
  with_reducible refine Keeps.upd ?_
  exact Keeps.refl _ _

theorem pmuBase_keeps (s : State) (code : Nat) (n : Nat) (a : Attr) :
    Keeps [.pmu] s (pmuBase s code n a).1 := by
  rw [pmuBase]
  split
  split
  dsimp only
  with_reducible refine Keeps.upd ?_
  exact Keeps.refl _ _
  dsimp only
  exact Keeps.refl _ _
  dsimp only
  with_reducible refine Keeps.upd ?_
  exact Keeps.refl _ _

theorem sendVec_keeps (s : State) (v : Nat) :
    Keeps [.port, .pmu] s (sendVec s v) := by
  unfold sendVec
  split
  with_reducible refine Keeps.step ?_ (pmuBase_keeps ..) rfl
  with_reducible refine Keeps.upd ?_
  exact Keeps.refl _ _
  with_reducible refine Keeps.upd ?_
  exact Keeps.refl _ _

theorem setIrq_keeps (s : State) (cause : W32) (en : W32) (force : Bool) :
    Keeps [.regs, .port, .pmu] s (setIrq s cause en force) := by
  unfold setIrq
  dsimp only
  split
  with_reducible refine Keeps.step ?_ (sendVec_keeps ..) rfl
  with_reducible refine Keeps.upd ?_
  exact Keeps.refl _ _
  with_reducible refine Keeps.upd ?_
  exact Keeps.refl _ _

theorem raiseCause_keeps (s : State) (b : Nat) :
    Keeps [.regs, .port, .pmu] s (raiseCause s b) := by
  unfold raiseCause
  with_reducible refine Keeps.step ?_ (setIrq_keeps ..) rfl
  exact Keeps.refl _ _

theorem pmuAdd_keeps (s : State) (code : Nat) (n : Nat) (a : Attr) :
    Keeps [.regs, .port, .pmu] s (pmuAdd s code n a) := by
  unfold pmuAdd
  dsimp only
  split
  with_reducible refine Keeps.step ?_ (raiseCause_keeps ..) rfl
  with_reducible refine Keeps.step ?_ (pmuBase_keeps ..) rfl
  exact Keeps.refl _ _
  with_reducible refine Keeps.step ?_ (pmuBase_keeps ..) rfl
  exact Keeps.refl _ _

theorem htSet_keeps (s : State) (name : Nat) (e : HtEntry) :
    Keeps [.tiers] s (htSet s name e) := by
  unfold htSet
  dsimp only
  with_reducible refine Keeps.upd ?_
  exact Keeps.refl _ _

theorem badAccess_keeps (s : State) (t : Tier) :
    Keeps [.tiers] s (badAccess s t) := by
  unfold badAccess
  with_reducible refine Keeps.upd ?_
  exact Keeps.refl _ _

theorem putByte_keeps (s : State) (fa : Nat) (b : Byte) :
    Keeps [.mem] s (putByte s fa b) := by
  unfold putByte
  split
  · exact Keeps.setMem (Keeps.refl _ _) _ rfl (fun h => Mem.wf_of h (mapSet_wf _ _ _ _) id id id id id id)
  · split
    · exact Keeps.setMem (Keeps.refl _ _) _ rfl (fun h => Mem.wf_of h id (mapSet_wf _ _ _ _) id id id id id)
    · exact Keeps.refl _ _

theorem writeByte_keeps (s : State) (fa : Nat) (b : Byte) :
    Keeps [.mem] s (writeByte s fa b) := by
  unfold writeByte
  dsimp only
  split
  with_reducible refine Keeps.updMem ?_
  exact Keeps.refl _ _
  split
  with_reducible refine Keeps.step ?_ (putByte_keeps ..) rfl
  with_reducible refine Keeps.step ?_ (putByte_keeps ..) rfl
  with_reducible refine Keeps.updMem ?_
  exact Keeps.refl _ _
  with_reducible refine Keeps.step ?_ (putByte_keeps ..) rfl
  with_reducible refine Keeps.updMem ?_
  exact Keeps.refl _ _

theorem writeBytes_keeps (s : State) (fa : Nat) (bs : List Byte) :
    Keeps [.mem] s (writeBytes s fa bs) := by
  induction bs generalizing s fa with
  | nil => exact Keeps.refl _ _
  | cons b bs ih => exact ((Keeps.refl _ _).step (writeByte_keeps s fa b) rfl).step (ih _ _) rfl

theorem storeAt_keeps (s : State) (fa : Nat) (bs : List Byte) (mark : Bool) :
    Keeps [.mem] s (storeAt s fa bs mark) := by
  unfold storeAt
  refine Keeps.setMemFrom (writeBytes_keeps s fa bs) _ rfl (fun h h' => Mem.wf_of h' id id id id (fun _ => ?_) id id)
  refine foldl_keeps (fun l => rising l = true) _ _ _ (marksAfter_rising _ _ _ _ ((Mem.wf_iff _).1 h).2.2.2.2.1) (fun l g hl => ?_)
  split
  · exact setIns_rising _ _ hl
  · exact setDel_rising _ _ hl

theorem putBytes_keeps (s : State) (fa : Nat) (bs : List Byte) :
    Keeps [.mem] s (putBytes s fa bs) := by
  induction bs generalizing s fa with
  | nil => exact Keeps.refl _ _
  | cons b bs ih => exact ((Keeps.refl _ _).step (putByte_keeps s fa b) rfl).step (ih _ _) rfl

theorem baseStore_keeps (s : State) (fa : Nat) (bs : List Byte) (mark : Bool) :
    Keeps [.mem] s (baseStore s fa bs mark) := by
  unfold baseStore
  exact Keeps.setMem (putBytes_keeps s fa bs) _ rfl (fun h => Mem.wf_of h id id id id (marksAfter_rising _ _ _ _) id id)

theorem postAt_keeps (s : State) (line : Nat) (seq : Nat) (acct : Nat) (fa : Nat) (bs : List Byte) (mark : Bool) :
    Keeps [.mem] s (postAt s line seq acct fa bs mark) := by
  unfold postAt
  with_reducible refine Keeps.foldl ?_ (fun _ _ _ => ?_)
  exact Keeps.refl _ _
  dsimp only
  with_reducible refine Keeps.updMem ?_
  with_reducible refine Keeps.step ?_ (baseStore_keeps ..) rfl
  assumption

theorem markGran_keeps (s : State) (fa : Nat) :
    Keeps [.mem] s (markGran s fa) := by
  unfold markGran
  exact Keeps.setMem (Keeps.refl _ _) _ rfl (fun h => Mem.wf_of h id id id id (setIns_rising _ _) id id)

theorem touchBlock_keeps (s : State) (a : Nat) :
    Keeps [.tiers] s (touchBlock s a) := by
  unfold touchBlock
  dsimp only
  split
  exact Keeps.refl _ _
  with_reducible refine Keeps.step ?_ (htSet_keeps ..) rfl
  exact Keeps.refl _ _

theorem holdWrite_keeps (s0 : State) (a : Nat) (bs : List Byte) (mark : Bool) :
    Keeps [.regs, .port, .tiers, .pmu] s0 (holdWrite s0 a bs mark) := by
  unfold holdWrite
  dsimp only
  with_reducible refine Keeps.upd ?_
  with_reducible refine Keeps.step ?_ (pmuAdd_keeps ..) rfl
  exact Keeps.refl _ _

theorem holdMerge_keeps (s : State) (a : Nat) (bs : List Byte) (mark : Bool) :
    Keeps [.tiers] s (holdMerge s a bs mark) := by
  unfold holdMerge
  with_reducible refine Keeps.upd ?_
  exact Keeps.refl _ _

theorem abortAccount_keeps (s : State) (acct : Nat) :
    Keeps [.tiers] s (abortAccount s acct) := by
  unfold abortAccount
  with_reducible refine Keeps.upd ?_
  exact Keeps.refl _ _

theorem repairFail_keeps (s : State) (name : Nat) :
    Keeps [.regs, .port, .tiers, .net, .pmu] s (repairFail s name) := by
  unfold repairFail
  dsimp only
  with_reducible refine Keeps.step ?_ (raiseCause_keeps ..) rfl
  with_reducible refine Keeps.step ?_ (pmuAdd_keeps ..) rfl
  with_reducible refine Keeps.upd ?_
  with_reducible refine Keeps.step ?_ (htSet_keeps ..) rfl
  exact Keeps.refl _ _

end Sys2Proof.Machine
end

