-- ==== Sys2Proof/Laws/KeepsLineState.lean ====
section
/-! SUPPORT. What each operation of Machine/LineState.lean may change, and that it keeps the stores canonical. -/

set_option Elab.async false

namespace Sys2Proof.Machine

open Sys2Proof

theorem lineSet_keeps (s : State) (n : Nat) (l : Line) :
    Keeps [.lines] s (lineSet s n l) := by
  unfold lineSet
  with_reducible refine Keeps.upd ?_
  exact Keeps.refl _ _

theorem noteLine_keeps (s : State) (n : Nat) :
    Keeps [.port, .lines, .pmu] s (noteLine s n) := by
  unfold noteLine
  dsimp only
  split
  with_reducible refine Keeps.step ?_ (lineSet_keeps ..) rfl
  exact Keeps.refl _ _
  split
  with_reducible refine Keeps.step ?_ (sendVec_keeps ..) rfl
  with_reducible refine Keeps.step ?_ (lineSet_keeps ..) rfl
  exact Keeps.refl _ _
  with_reducible refine Keeps.step ?_ (lineSet_keeps ..) rfl
  exact Keeps.refl _ _

theorem noteAll_keeps (s : State) :
    Keeps [.port, .lines, .pmu] s (noteAll s) := by
  unfold noteAll
  with_reducible refine Keeps.foldl ?_ (fun _ _ _ => ?_)
  exact Keeps.refl _ _
  with_reducible refine Keeps.step ?_ (noteLine_keeps ..) rfl
  assumption

theorem haltAccount_keeps (s : State) (acct : Nat) :
    Keeps [.port, .lines, .tiers, .pmu] s (haltAccount s acct) := by
  unfold haltAccount
  dsimp only
  with_reducible refine Keeps.step ?_ (noteAll_keeps ..) rfl
  with_reducible refine Keeps.upd ?_
  exact Keeps.refl _ _

end Sys2Proof.Machine
end

