-- ==== Sys2Proof/Laws/KeepsLinkTx.lean ====
section
/-! SUPPORT. What each operation of Machine/LinkTx.lean may change, and that it keeps the stores canonical. -/

set_option Elab.async false

namespace Sys2Proof.Machine

open Sys2Proof

theorem linkSet_keeps (s : State) (k : Nat) (l : Link) :
    Keeps [.net] s (linkSet s k l) := by
  unfold linkSet
  with_reducible refine Keeps.upd ?_
  exact Keeps.refl _ _

theorem peerSet_keeps (s : State) (d : Nat) (p : Peer) :
    Keeps [.net] s (peerSet s d p) := by
  unfold peerSet
  with_reducible refine Keeps.upd ?_
  exact Keeps.refl _ _

theorem countSent_keeps (s : State) (k : Nat) (fs : List Frame) :
    Keeps [.regs, .port, .pmu] s (countSent s k fs) := by
  unfold countSent
  with_reducible refine Keeps.foldl ?_ (fun _ _ _ => ?_)
  exact Keeps.refl _ _
  dsimp only
  split
  with_reducible refine Keeps.step ?_ (pmuAdd_keeps ..) rfl
  with_reducible refine Keeps.step ?_ (pmuAdd_keeps ..) rfl
  assumption
  with_reducible refine Keeps.step ?_ (pmuAdd_keeps ..) rfl
  assumption

theorem pump_keeps (s : State) (k : Nat) :
    Keeps [.regs, .port, .net, .pmu] s (pump s k) := by
  unfold pump
  dsimp only
  split
  with_reducible refine Keeps.step ?_ (countSent_keeps ..) rfl
  with_reducible refine Keeps.step ?_ (linkSet_keeps ..) rfl
  exact Keeps.refl _ _
  exact Keeps.refl _ _

theorem sendOn_keeps (s : State) (k : Nat) (f : Frame) :
    Keeps [.regs, .port, .net, .pmu] s (sendOn s k f) := by
  unfold sendOn
  dsimp only
  with_reducible refine Keeps.step ?_ (pump_keeps ..) rfl
  with_reducible refine Keeps.step ?_ (linkSet_keeps ..) rfl
  exact Keeps.refl _ _

theorem countDrop_keeps (s : State) (p : Nat) :
    Keeps [.net] s (countDrop s p) := by
  unfold countDrop
  split
  with_reducible refine Keeps.step ?_ (linkSet_keeps ..) rfl
  exact Keeps.refl _ _
  exact Keeps.refl _ _

theorem routeFrame_keeps (s : State) (f : Frame) (originated : Bool) :
    Keeps [.regs, .port, .net, .pmu] s (routeFrame s f originated) := by
  unfold routeFrame
  split
  exact Keeps.refl _ _
  with_reducible refine Keeps.step ?_ (countDrop_keeps ..) rfl
  exact Keeps.refl _ _
  split
  with_reducible refine Keeps.step ?_ (countDrop_keeps ..) rfl
  exact Keeps.refl _ _
  dsimp only
  with_reducible refine Keeps.step ?_ (sendOn_keeps ..) rfl
  with_reducible refine Keeps.upd ?_
  exact Keeps.refl _ _

theorem sendFrame_keeps (s : State) (f : Frame) :
    Keeps [.regs, .port, .net, .pmu] s (sendFrame s f) := by
  unfold sendFrame
  with_reducible refine Keeps.step ?_ (routeFrame_keeps ..) rfl
  exact Keeps.refl _ _

theorem sendAllUp_keeps (s : State) (f : Frame) (skip : List Nat) :
    Keeps [.regs, .port, .net, .pmu] s (sendAllUp s f skip) := by
  unfold sendAllUp
  with_reducible refine Keeps.foldl ?_ (fun _ _ _ => ?_)
  exact Keeps.refl _ _
  with_reducible refine Keeps.step ?_ (sendOn_keeps ..) rfl
  assumption

theorem sendTug_keeps (s : State) (k : Nat) :
    Keeps [.regs, .port, .net, .pmu] s (sendTug s k) := by
  unfold sendTug
  dsimp only
  with_reducible refine Keeps.step ?_ (sendOn_keeps ..) rfl
  with_reducible refine Keeps.step ?_ (linkSet_keeps ..) rfl
  exact Keeps.refl _ _

theorem statusChanged_keeps (s : State) :
    Keeps [.regs, .port, .net, .pmu] s (statusChanged s) := by
  unfold statusChanged
  dsimp only
  with_reducible refine Keeps.step ?_ (sendAllUp_keeps ..) rfl
  with_reducible refine Keeps.foldl ?_ (fun _ _ _ => ?_)
  with_reducible refine Keeps.upd ?_
  exact Keeps.refl _ _
  with_reducible refine Keeps.step ?_ (sendTug_keeps ..) rfl
  assumption

theorem noteStatus_keeps (b s : State) :
    Keeps [.regs, .port, .net, .pmu] s (noteStatus b s) := by
  unfold noteStatus
  split
  · exact Keeps.refl _ _
  · exact (Keeps.refl _ _).step (statusChanged_keeps s) rfl

theorem askRepair_keeps (s : State) (name : Nat) (axis : Nat) (rank : Nat) (began : Nat) :
    Keeps [.regs, .port, .net, .pmu] s (askRepair s name axis rank began) := by
  unfold askRepair
  dsimp only
  with_reducible refine Keeps.step ?_ (sendFrame_keeps ..) rfl
  with_reducible refine Keeps.upd ?_
  exact Keeps.refl _ _

theorem repairNext_keeps (s : State) (name : Nat) (axis : Nat) (after : Nat) (began : Nat) :
    Keeps [.regs, .port, .tiers, .net, .pmu] s (repairNext s name axis after began) := by
  unfold repairNext
  dsimp only
  split
  with_reducible refine Keeps.step ?_ (askRepair_keeps ..) rfl
  exact Keeps.refl _ _
  with_reducible refine Keeps.step ?_ (repairFail_keeps ..) rfl
  exact Keeps.refl _ _

theorem startRepair_keeps (s : State) (name : Nat) :
    Keeps [.regs, .port, .tiers, .net, .pmu] s (startRepair s name) := by
  unfold startRepair
  dsimp only
  with_reducible refine Keeps.step ?_ (repairNext_keeps ..) rfl
  with_reducible refine Keeps.step ?_ (htSet_keeps ..) rfl
  exact Keeps.refl _ _

theorem chafePolicy_keeps (s : State) (name : Nat) :
    Keeps [.regs, .port, .lines, .tiers, .net, .pmu] s (chafePolicy s name) := by
  unfold chafePolicy
  dsimp only
  split
  exact Keeps.refl _ _
  split
  split
  exact Keeps.refl _ _
  with_reducible refine Keeps.step ?_ (raiseCause_keeps ..) rfl
  split
  exact Keeps.refl _ _
  with_reducible refine Keeps.step ?_ (startRepair_keeps ..) rfl
  exact Keeps.refl _ _
  with_reducible refine Keeps.step ?_ (raiseCause_keeps ..) rfl
  with_reducible refine Keeps.step ?_ (haltAccount_keeps ..) rfl
  exact Keeps.refl _ _
  with_reducible refine Keeps.step ?_ (raiseCause_keeps ..) rfl
  with_reducible refine Keeps.step ?_ (abortAccount_keeps ..) rfl
  exact Keeps.refl _ _

theorem syncChafe_keeps (s : State) (name : Nat) :
    Keeps [.tiers] s (syncChafe s name) := by
  unfold syncChafe
  dsimp only
  split
  split
  with_reducible refine Keeps.step ?_ (htSet_keeps ..) rfl
  exact Keeps.refl _ _
  exact Keeps.refl _ _
  split
  with_reducible refine Keeps.step ?_ (htSet_keeps ..) rfl
  exact Keeps.refl _ _
  exact Keeps.refl _ _
  split
  exact Keeps.refl _ _
  with_reducible refine Keeps.step ?_ (htSet_keeps ..) rfl
  exact Keeps.refl _ _
  exact Keeps.refl _ _

theorem chafeAt_keeps (s : State) (name : Nat) (fa : Nat) :
    Keeps [.regs, .port, .lines, .mem, .tiers, .net, .pmu] s (chafeAt s name fa) := by
  unfold chafeAt
  dsimp only
  with_reducible refine Keeps.step ?_ (chafePolicy_keeps ..) rfl
  with_reducible refine Keeps.step ?_ (syncChafe_keeps ..) rfl
  split
  exact Keeps.refl _ _
  with_reducible refine Keeps.step ?_ (pmuAdd_keeps ..) rfl
  with_reducible refine Keeps.step ?_ (markGran_keeps ..) rfl
  exact Keeps.refl _ _

theorem chafeFound_keeps (s : State) (a : Nat) :
    Keeps [.regs, .port, .lines, .mem, .tiers, .net, .pmu] s (chafeFound s a) := by
  unfold chafeFound
  split
  exact Keeps.refl _ _
  split
  with_reducible refine Keeps.step ?_ (chafeAt_keeps ..) rfl
  exact Keeps.refl _ _
  split
  exact Keeps.refl _ _
  with_reducible refine Keeps.step ?_ (pmuAdd_keeps ..) rfl
  with_reducible refine Keeps.step ?_ (markGran_keeps ..) rfl
  exact Keeps.refl _ _

theorem wroteMarked_keeps (before after : State) (name fa n : Nat) :
    Keeps [.regs, .port, .lines, .tiers, .net, .pmu] after (wroteMarked before after name fa n) := by
  unfold wroteMarked
  dsimp only
  refine Keeps.step ?_ (chafePolicy_keeps ..) rfl
  split
  · exact Keeps.refl _ _
  · exact (Keeps.refl _ _).step (pmuAdd_keeps ..) rfl

theorem hostWrite_keeps (s : State) (relaxed : Bool) (bus : Nat) (bs : List Byte) :
    Keeps [.port] s (hostWrite s relaxed bus bs) := by
  unfold hostWrite
  with_reducible refine Keeps.upd ?_
  exact Keeps.refl _ _

theorem busWrite_keeps (s : State) (relaxed : Bool) (bus : Nat) (bs : List Byte) :
    Keeps [.port, .mem] s (busWrite s relaxed bus bs) := by
  unfold busWrite
  refine Keeps.step ?_ (hostWrite_keeps ..) rfl
  exact Keeps.setMem (Keeps.refl _ _) _ rfl (fun h => Mem.wf_of h id (fun hh =>
    foldl_keeps (fun (m : SMap Byte) => mapWf 0 m = true) _ _ _ hh (fun m q hm => mapSet_wf _ _ _ _ hm)) id id id id id)

theorem frameWrite_keeps (before s : State) (name fa : Nat) (bs : List Byte) (mark : Bool) :
    Keeps [.regs, .port, .lines, .mem, .tiers, .net, .pmu] s (frameWrite before s name fa bs mark) := by
  unfold frameWrite
  extract_lets s1
  have h1 : Keeps [.regs, .port, .lines, .mem, .tiers, .net, .pmu] s s1 := ((Keeps.refl _ _).step (storeAt_keeps ..) rfl).step (syncChafe_keeps ..) rfl
  clear_value s1
  split
  · exact h1.step (wroteMarked_keeps ..) rfl
  · exact h1

theorem straightWrite_keeps (s : State) (fa : Nat) (bs : List Byte) (mark : Bool) :
    Keeps [.regs, .port, .lines, .mem, .tiers, .net, .pmu] s (straightWrite s fa bs mark) := by
  unfold straightWrite
  split
  with_reducible refine Keeps.step ?_ (frameWrite_keeps ..) rfl
  exact Keeps.refl _ _
  with_reducible refine Keeps.step ?_ (storeAt_keeps ..) rfl
  exact Keeps.refl _ _

theorem tierWrite_keeps (s : State) (relaxed : Bool) (e : HtEntry) (a : Nat) (bs : List Byte) :
    Keeps [.port] s (tierWrite s relaxed e a bs) := by
  unfold tierWrite
  split
  with_reducible refine Keeps.step ?_ (hostWrite_keeps ..) rfl
  exact Keeps.refl _ _
  exact Keeps.refl _ _

theorem writePiece_keeps (relaxed : Bool) (acct : Option Nat) (mark : Bool) (acc : State × Bool) (p : Nat × List Byte) :
    Keeps [.regs, .port, .lines, .mem, .tiers, .net, .pmu] acc.1 (writePiece relaxed acct mark acc p).1 := by
  unfold writePiece
  dsimp only
  split
  · split
    · split
      · exact (Keeps.refl _ _).step (busWrite_keeps ..) rfl
      · exact Keeps.refl _ _
    · exact Keeps.refl _ _
  · split
    · exact (Keeps.refl _ _).step (straightWrite_keeps ..) rfl
    · exact Keeps.refl _ _
  · exact Keeps.refl _ _
  · split
    · exact Keeps.refl _ _
    · split
      · exact (Keeps.refl _ _).step (holdWrite_keeps ..) rfl
      · split
        · exact (Keeps.refl _ _).step (holdMerge_keeps ..) rfl
        · split
          · exact Keeps.refl _ _
          · exact ((Keeps.refl _ _).step (tierWrite_keeps ..) rfl).step (frameWrite_keeps ..) rfl

theorem devWriteAs_keeps (relaxed : Bool) (s : State) (acct : Option Nat) (a : Nat) (bs : List Byte) (mark : Bool) :
    Keeps [.regs, .port, .lines, .mem, .tiers, .net, .pmu] s (devWriteAs relaxed s acct a bs mark).1 := by
  unfold devWriteAs
  extract_lets r
  have hr : Keeps [.regs, .port, .lines, .mem, .tiers, .net, .pmu] s r.1 :=
    foldl_keeps (fun x : State × Bool => Keeps [.regs, .port, .lines, .mem, .tiers, .net, .pmu] s x.1) _ _ _ (Keeps.refl _ _) (fun u b hu => hu.step (writePiece_keeps ..) rfl)
  clear_value r
  split
  · exact hr.step (badAccess_keeps ..) rfl
  · exact hr

theorem devWrite_keeps (s : State) (acct : Option Nat) (a : Nat) (bs : List Byte) (mark : Bool) :
    Keeps [.regs, .port, .lines, .mem, .tiers, .net, .pmu] s (devWrite s acct a bs mark).1 := by
  rw [devWrite]
  with_reducible refine Keeps.step ?_ (devWriteAs_keeps ..) rfl
  exact Keeps.refl _ _

theorem putStruct_keeps (s : State) (a : Nat) (bs : List Byte) :
    Keeps [.regs, .port, .lines, .mem, .tiers, .net, .pmu] s (putStruct s a bs) := by
  unfold putStruct
  with_reducible refine Keeps.step ?_ (devWrite_keeps ..) rfl
  exact Keeps.refl _ _

theorem putRecord_keeps (s : State) (a : Nat) (bs : List Byte) :
    Keeps [.regs, .port, .lines, .mem, .tiers, .net, .pmu] s (putRecord s a bs) := by
  unfold putRecord
  with_reducible refine Keeps.step ?_ (devWriteAs_keeps ..) rfl
  exact Keeps.refl _ _

end Sys2Proof.Machine
end

