-- ==== Sys2Proof/Laws/KeepsArb.lean ====
section
/-! SUPPORT. What each operation of Machine/Arb.lean may change, and that it keeps the stores canonical. -/

set_option Elab.async false

namespace Sys2Proof.Machine

open Sys2Proof

theorem noteGrant_keeps (s : State) (r : Req) :
    Keeps [.wfc] s (noteGrant s r) := by
  unfold noteGrant
  split
  with_reducible refine Keeps.upd ?_
  exact Keeps.refl _ _
  exact Keeps.refl _ _

end Sys2Proof.Machine
end

