-- ==== Sys2Proof/Laws/KeepsLines.lean ====
section
/-! SUPPORT. What each operation of Machine/Lines.lean may change, and that it keeps the stores canonical. -/

set_option Elab.async false

namespace Sys2Proof.Machine

open Sys2Proof

theorem hitchAdd_keeps (s : State) (h : Nat) (add : W32) (line : Option Nat) :
    Keeps [.hitches] s (hitchAdd s h add line) := by
  unfold hitchAdd
  dsimp only
  with_reducible refine Keeps.upd ?_
  exact Keeps.refl _ _

theorem writeRecord_keeps (s : State) (n : Nat) (rec_ : List Byte) :
    Keeps [.regs, .port, .lines, .mem, .tiers, .net, .pmu] s (writeRecord s n rec_) := by
  unfold writeRecord
  dsimp only
  with_reducible refine Keeps.step ?_ (lineSet_keeps ..) rfl
  with_reducible refine Keeps.step ?_ (putRecord_keeps ..) rfl
  exact Keeps.refl _ _

theorem drainPosted_keeps (s : State) (p : Posted → Bool) :
    Keeps [.mem] s (drainPosted s p) := by
  unfold drainPosted
  with_reducible refine Keeps.updMem ?_
  exact Keeps.refl _ _

theorem postedFinal_keeps (s : State) (n : Nat) (seq : Nat) :
    Keeps [.mem] s (postedFinal s n seq) := by
  unfold postedFinal
  with_reducible refine Keeps.updMem ?_
  exact Keeps.refl _ _

theorem doneSig_keeps (s : State) (n : Nat) (seq : Nat) (h : Nat) :
    Keeps [.hitches, .mem, .tiers] s (doneSig s n seq h) := by
  unfold doneSig
  dsimp only
  split
  with_reducible refine Keeps.step ?_ (hitchAdd_keeps ..) rfl
  with_reducible refine Keeps.step ?_ (drainPosted_keeps ..) rfl
  exact Keeps.refl _ _
  with_reducible refine Keeps.upd ?_
  with_reducible refine Keeps.step ?_ (drainPosted_keeps ..) rfl
  exact Keeps.refl _ _

theorem sigsAfter_keeps (s : State) (name : Nat) :
    Keeps [.hitches, .tiers] s (sigsAfter s name) := by
  unfold sigsAfter
  dsimp only
  with_reducible refine Keeps.foldl ?_ (fun _ _ _ => ?_)
  with_reducible refine Keeps.upd ?_
  exact Keeps.refl _ _
  with_reducible refine Keeps.step ?_ (hitchAdd_keeps ..) rfl
  assumption

theorem afterRecord_keeps (s : State) (n : Nat) (seq : Nat) (status : Nat) (d : BitVec 512) (sig : Bool) (irq : Bool) :
    Keeps [.port, .lines, .hitches, .mem, .tiers, .pmu] s (afterRecord s n seq status d sig irq) := by
  unfold afterRecord
  dsimp only
  split
  split
  split
  with_reducible refine Keeps.step ?_ (lineSet_keeps ..) rfl
  with_reducible refine Keeps.step ?_ (doneSig_keeps ..) rfl
  with_reducible refine Keeps.step ?_ (sendVec_keeps ..) rfl
  with_reducible refine Keeps.step ?_ (postedFinal_keeps ..) rfl
  exact Keeps.refl _ _
  with_reducible refine Keeps.step ?_ (doneSig_keeps ..) rfl
  with_reducible refine Keeps.step ?_ (sendVec_keeps ..) rfl
  with_reducible refine Keeps.step ?_ (postedFinal_keeps ..) rfl
  exact Keeps.refl _ _
  split
  with_reducible refine Keeps.step ?_ (lineSet_keeps ..) rfl
  with_reducible refine Keeps.step ?_ (doneSig_keeps ..) rfl
  with_reducible refine Keeps.step ?_ (postedFinal_keeps ..) rfl
  exact Keeps.refl _ _
  with_reducible refine Keeps.step ?_ (doneSig_keeps ..) rfl
  with_reducible refine Keeps.step ?_ (postedFinal_keeps ..) rfl
  exact Keeps.refl _ _
  split
  split
  with_reducible refine Keeps.step ?_ (lineSet_keeps ..) rfl
  with_reducible refine Keeps.step ?_ (sendVec_keeps ..) rfl
  with_reducible refine Keeps.step ?_ (postedFinal_keeps ..) rfl
  exact Keeps.refl _ _
  with_reducible refine Keeps.step ?_ (sendVec_keeps ..) rfl
  with_reducible refine Keeps.step ?_ (postedFinal_keeps ..) rfl
  exact Keeps.refl _ _
  split
  with_reducible refine Keeps.step ?_ (lineSet_keeps ..) rfl
  with_reducible refine Keeps.step ?_ (postedFinal_keeps ..) rfl
  exact Keeps.refl _ _
  with_reducible refine Keeps.step ?_ (postedFinal_keeps ..) rfl
  exact Keeps.refl _ _

theorem finalRecord_keeps (s : State) (n : Nat) (seq : Nat) (status : Nat) (flags : Byte) (epoch : BitVec 16) (d : BitVec 512) (opb : List Byte) (sig : Bool) (irq : Bool) :
    Keeps [.regs, .port, .lines, .hitches, .mem, .tiers, .net, .pmu] s (finalRecord s n seq status flags epoch d opb sig irq) := by
  unfold finalRecord
  split
  with_reducible refine Keeps.step ?_ (noteLine_keeps ..) rfl
  exact Keeps.refl _ _
  with_reducible refine Keeps.step ?_ (noteLine_keeps ..) rfl
  with_reducible refine Keeps.step ?_ (afterRecord_keeps ..) rfl
  with_reducible refine Keeps.step ?_ (writeRecord_keeps ..) rfl
  exact Keeps.refl _ _

theorem opSet_keeps (s : State) (n : Nat) (o : OpEnt) :
    Keeps [.lines] s (opSet s n o) := by
  unfold opSet
  dsimp only
  with_reducible refine Keeps.step ?_ (lineSet_keeps ..) rfl
  exact Keeps.refl _ _

theorem opDrop_keeps (s : State) (n : Nat) (seq : Nat) :
    Keeps [.lines] s (opDrop s n seq) := by
  unfold opDrop
  dsimp only
  with_reducible refine Keeps.step ?_ (lineSet_keeps ..) rfl
  exact Keeps.refl _ _

theorem opKeep_keeps (s : State) (n : Nat) (o : OpEnt) :
    Keeps [.lines] s (opKeep s n o) := by
  unfold opKeep
  split
  with_reducible refine Keeps.step ?_ (opSet_keeps ..) rfl
  exact Keeps.refl _ _
  exact Keeps.refl _ _

theorem finishOp_keeps (s : State) (n : Nat) (o : OpEnt) (st : Nat) (opb : List Byte) :
    Keeps [.regs, .port, .lines, .hitches, .mem, .tiers, .net, .pmu] s (finishOp s n o st opb) := by
  unfold finishOp
  dsimp only
  with_reducible refine Keeps.step ?_ (finalRecord_keeps ..) rfl
  with_reducible refine Keeps.step ?_ (opDrop_keeps ..) rfl
  split
  with_reducible refine Keeps.step ?_ (pmuAdd_keeps ..) rfl
  exact Keeps.refl _ _
  exact Keeps.refl _ _

theorem rejectOp_keeps (s : State) (n : Nat) (o : OpEnt) (st : Nat) :
    Keeps [.regs, .port, .lines, .hitches, .mem, .tiers, .net, .pmu] s (rejectOp s n o st) := by
  unfold rejectOp
  dsimp only
  with_reducible refine Keeps.step ?_ (finalRecord_keeps ..) rfl
  with_reducible refine Keeps.step ?_ (opDrop_keeps ..) rfl
  with_reducible refine Keeps.step ?_ (pmuAdd_keeps ..) rfl
  exact Keeps.refl _ _

theorem onDispatch_keeps {ps : List Part} (s : State) (n opc : Nat) (f : OpEnt → State)
    (hs : subParts [.regs, .port, .lines, .hitches, .mem, .tiers, .net, .pmu] ps = true) (hf : ∀ o, Keeps ps s (f o)) :
    KeepsOut ps s (onDispatch s n opc f) := by
  unfold onDispatch
  split
  · split
    · split
      · exact KeepsOut.next ((Keeps.refl _ _).step (finishOp_keeps ..) hs)
      · exact KeepsOut.next (hf _)
    · exact KeepsOut.next (Keeps.refl _ _)
  · exact KeepsOut.next (Keeps.refl _ _)

theorem holdReq_keeps (s : State) (c : Instr) (host : Bool) (a : Nat) (n : Nat) (write : Bool) :
    Keeps [.ingress] s (holdReq s c host a n write) := by
  unfold holdReq
  dsimp only
  with_reducible refine Keeps.upd ?_
  exact Keeps.refl _ _

theorem hostAccess_keeps {ps : List Part} (c : Instr) (a n : Nat) (write : Bool) (run : State → Out) (s : State)
    (hs : subParts [.ingress] ps = true) (hr : ∀ t, KeepsOut ps t (run t)) : KeepsOut ps s (hostAccess c a n write run s) := by
  unfold hostAccess
  split
  · exact KeepsOut.next ((Keeps.refl _ _).step (holdReq_keeps ..) hs)
  · exact hr s

theorem hostLane_keeps {ps : List Part} (c : Instr) (run : State → Out) (s : State)
    (hs : subParts [.ingress] ps = true) (hr : ∀ t, KeepsOut ps t (run t)) : KeepsOut ps s (hostLane c run s) :=
  hostAccess_keeps c 0 0 false run s hs hr

theorem hostSignal_keeps {ps : List Part} (c : Instr) (run : State → Out) (s : State)
    (hs : subParts [.ingress] ps = true) (hr : ∀ t, KeepsOut ps t (run t)) : KeepsOut ps s (hostSignal c run s) := by
  unfold hostSignal
  split
  · exact KeepsOut.next ((Keeps.refl _ _).step (holdReq_keeps ..) hs)
  · exact hr s

end Sys2Proof.Machine
end

