-- ==== Sys2Proof/Laws/State.lean ====
section
/-! SUPPORT. What each named update of the state gives for each field, and what a named read gives after a named update: the
lemmas that keep later proofs from unfolding a record update. -/

set_option Elab.async false

namespace Sys2Proof.Machine

open Sys2Proof

theorem tiers_pending (s : State) (x : Tiers) : ({ s with tiers := x } : State).pending = s.pending := rfl
theorem tiers_free (s : State) (x : Tiers) : ({ s with tiers := x } : State).free = s.free := rfl
theorem tiers_clk (s : State) (x : Tiers) : ({ s with tiers := x } : State).clk = s.clk := rfl
theorem tiers_fuses (s : State) (x : Tiers) : ({ s with tiers := x } : State).fuses = s.fuses := rfl
theorem tiers_pins (s : State) (x : Tiers) : ({ s with tiers := x } : State).pins = s.pins := rfl
theorem tiers_power (s : State) (x : Tiers) : ({ s with tiers := x } : State).power = s.power := rfl
theorem tiers_boot (s : State) (x : Tiers) : ({ s with tiers := x } : State).boot = s.boot := rfl
theorem tiers_flash (s : State) (x : Tiers) : ({ s with tiers := x } : State).flash = s.flash := rfl
theorem tiers_tb (s : State) (x : Tiers) : ({ s with tiers := x } : State).tb = s.tb := rfl
theorem tiers_regs (s : State) (x : Tiers) : ({ s with tiers := x } : State).regs = s.regs := rfl
theorem tiers_port (s : State) (x : Tiers) : ({ s with tiers := x } : State).port = s.port := rfl
theorem tiers_ingress (s : State) (x : Tiers) : ({ s with tiers := x } : State).ingress = s.ingress := rfl
theorem tiers_belay (s : State) (x : Tiers) : ({ s with tiers := x } : State).belay = s.belay := rfl
theorem tiers_cfg (s : State) (x : Tiers) : ({ s with tiers := x } : State).cfg = s.cfg := rfl
theorem tiers_lines (s : State) (x : Tiers) : ({ s with tiers := x } : State).lines = s.lines := rfl
theorem tiers_hitches (s : State) (x : Tiers) : ({ s with tiers := x } : State).hitches = s.hitches := rfl
theorem tiers_lineArb (s : State) (x : Tiers) : ({ s with tiers := x } : State).lineArb = s.lineArb := rfl
theorem tiers_braidArb (s : State) (x : Tiers) : ({ s with tiers := x } : State).braidArb = s.braidArb := rfl
theorem tiers_vecArb (s : State) (x : Tiers) : ({ s with tiers := x } : State).vecArb = s.vecArb := rfl
theorem tiers_splArb (s : State) (x : Tiers) : ({ s with tiers := x } : State).splArb = s.splArb := rfl
theorem tiers_strands (s : State) (x : Tiers) : ({ s with tiers := x } : State).strands = s.strands := rfl
theorem tiers_mem (s : State) (x : Tiers) : ({ s with tiers := x } : State).mem = s.mem := rfl
theorem tiers_eng (s : State) (x : Tiers) : ({ s with tiers := x } : State).eng = s.eng := rfl
theorem tiers_refresh (s : State) (x : Tiers) : ({ s with tiers := x } : State).refresh = s.refresh := rfl
theorem tiers_stackSt (s : State) (x : Tiers) : ({ s with tiers := x } : State).stackSt = s.stackSt := rfl
theorem tiers_gov (s : State) (x : Tiers) : ({ s with tiers := x } : State).gov = s.gov := rfl
theorem tiers_net (s : State) (x : Tiers) : ({ s with tiers := x } : State).net = s.net := rfl
theorem tiers_wfc (s : State) (x : Tiers) : ({ s with tiers := x } : State).wfc = s.wfc := rfl
theorem tiers_pmu (s : State) (x : Tiers) : ({ s with tiers := x } : State).pmu = s.pmu := rfl

@[simp] theorem lineSet_pending (s : State) (n : Nat) (l : Line) : (lineSet s n l).pending = s.pending := rfl
@[simp] theorem lineSet_free (s : State) (n : Nat) (l : Line) : (lineSet s n l).free = s.free := rfl
@[simp] theorem lineSet_clk (s : State) (n : Nat) (l : Line) : (lineSet s n l).clk = s.clk := rfl
@[simp] theorem lineSet_fuses (s : State) (n : Nat) (l : Line) : (lineSet s n l).fuses = s.fuses := rfl
@[simp] theorem lineSet_pins (s : State) (n : Nat) (l : Line) : (lineSet s n l).pins = s.pins := rfl
@[simp] theorem lineSet_power (s : State) (n : Nat) (l : Line) : (lineSet s n l).power = s.power := rfl
@[simp] theorem lineSet_boot (s : State) (n : Nat) (l : Line) : (lineSet s n l).boot = s.boot := rfl
@[simp] theorem lineSet_flash (s : State) (n : Nat) (l : Line) : (lineSet s n l).flash = s.flash := rfl
@[simp] theorem lineSet_tb (s : State) (n : Nat) (l : Line) : (lineSet s n l).tb = s.tb := rfl
@[simp] theorem lineSet_regs (s : State) (n : Nat) (l : Line) : (lineSet s n l).regs = s.regs := rfl
@[simp] theorem lineSet_port (s : State) (n : Nat) (l : Line) : (lineSet s n l).port = s.port := rfl
@[simp] theorem lineSet_ingress (s : State) (n : Nat) (l : Line) : (lineSet s n l).ingress = s.ingress := rfl
@[simp] theorem lineSet_belay (s : State) (n : Nat) (l : Line) : (lineSet s n l).belay = s.belay := rfl
@[simp] theorem lineSet_cfg (s : State) (n : Nat) (l : Line) : (lineSet s n l).cfg = s.cfg := rfl
@[simp] theorem lineSet_hitches (s : State) (n : Nat) (l : Line) : (lineSet s n l).hitches = s.hitches := rfl
@[simp] theorem lineSet_lineArb (s : State) (n : Nat) (l : Line) : (lineSet s n l).lineArb = s.lineArb := rfl
@[simp] theorem lineSet_braidArb (s : State) (n : Nat) (l : Line) : (lineSet s n l).braidArb = s.braidArb := rfl
@[simp] theorem lineSet_vecArb (s : State) (n : Nat) (l : Line) : (lineSet s n l).vecArb = s.vecArb := rfl
@[simp] theorem lineSet_splArb (s : State) (n : Nat) (l : Line) : (lineSet s n l).splArb = s.splArb := rfl
@[simp] theorem lineSet_strands (s : State) (n : Nat) (l : Line) : (lineSet s n l).strands = s.strands := rfl
@[simp] theorem lineSet_mem (s : State) (n : Nat) (l : Line) : (lineSet s n l).mem = s.mem := rfl
@[simp] theorem lineSet_tiers (s : State) (n : Nat) (l : Line) : (lineSet s n l).tiers = s.tiers := rfl
@[simp] theorem lineSet_eng (s : State) (n : Nat) (l : Line) : (lineSet s n l).eng = s.eng := rfl
@[simp] theorem lineSet_refresh (s : State) (n : Nat) (l : Line) : (lineSet s n l).refresh = s.refresh := rfl
@[simp] theorem lineSet_stackSt (s : State) (n : Nat) (l : Line) : (lineSet s n l).stackSt = s.stackSt := rfl
@[simp] theorem lineSet_gov (s : State) (n : Nat) (l : Line) : (lineSet s n l).gov = s.gov := rfl
@[simp] theorem lineSet_net (s : State) (n : Nat) (l : Line) : (lineSet s n l).net = s.net := rfl
@[simp] theorem lineSet_wfc (s : State) (n : Nat) (l : Line) : (lineSet s n l).wfc = s.wfc := rfl
@[simp] theorem lineSet_pmu (s : State) (n : Nat) (l : Line) : (lineSet s n l).pmu = s.pmu := rfl

@[simp] theorem opSet_pending (s : State) (n : Nat) (o : OpEnt) : (opSet s n o).pending = s.pending := rfl
@[simp] theorem opSet_free (s : State) (n : Nat) (o : OpEnt) : (opSet s n o).free = s.free := rfl
@[simp] theorem opSet_clk (s : State) (n : Nat) (o : OpEnt) : (opSet s n o).clk = s.clk := rfl
@[simp] theorem opSet_fuses (s : State) (n : Nat) (o : OpEnt) : (opSet s n o).fuses = s.fuses := rfl
@[simp] theorem opSet_pins (s : State) (n : Nat) (o : OpEnt) : (opSet s n o).pins = s.pins := rfl
@[simp] theorem opSet_power (s : State) (n : Nat) (o : OpEnt) : (opSet s n o).power = s.power := rfl
@[simp] theorem opSet_boot (s : State) (n : Nat) (o : OpEnt) : (opSet s n o).boot = s.boot := rfl
@[simp] theorem opSet_flash (s : State) (n : Nat) (o : OpEnt) : (opSet s n o).flash = s.flash := rfl
@[simp] theorem opSet_tb (s : State) (n : Nat) (o : OpEnt) : (opSet s n o).tb = s.tb := rfl
@[simp] theorem opSet_regs (s : State) (n : Nat) (o : OpEnt) : (opSet s n o).regs = s.regs := rfl
@[simp] theorem opSet_port (s : State) (n : Nat) (o : OpEnt) : (opSet s n o).port = s.port := rfl
@[simp] theorem opSet_ingress (s : State) (n : Nat) (o : OpEnt) : (opSet s n o).ingress = s.ingress := rfl
@[simp] theorem opSet_belay (s : State) (n : Nat) (o : OpEnt) : (opSet s n o).belay = s.belay := rfl
@[simp] theorem opSet_cfg (s : State) (n : Nat) (o : OpEnt) : (opSet s n o).cfg = s.cfg := rfl
@[simp] theorem opSet_hitches (s : State) (n : Nat) (o : OpEnt) : (opSet s n o).hitches = s.hitches := rfl
@[simp] theorem opSet_lineArb (s : State) (n : Nat) (o : OpEnt) : (opSet s n o).lineArb = s.lineArb := rfl
@[simp] theorem opSet_braidArb (s : State) (n : Nat) (o : OpEnt) : (opSet s n o).braidArb = s.braidArb := rfl
@[simp] theorem opSet_vecArb (s : State) (n : Nat) (o : OpEnt) : (opSet s n o).vecArb = s.vecArb := rfl
@[simp] theorem opSet_splArb (s : State) (n : Nat) (o : OpEnt) : (opSet s n o).splArb = s.splArb := rfl
@[simp] theorem opSet_strands (s : State) (n : Nat) (o : OpEnt) : (opSet s n o).strands = s.strands := rfl
@[simp] theorem opSet_mem (s : State) (n : Nat) (o : OpEnt) : (opSet s n o).mem = s.mem := rfl
@[simp] theorem opSet_tiers (s : State) (n : Nat) (o : OpEnt) : (opSet s n o).tiers = s.tiers := rfl
@[simp] theorem opSet_eng (s : State) (n : Nat) (o : OpEnt) : (opSet s n o).eng = s.eng := rfl
@[simp] theorem opSet_refresh (s : State) (n : Nat) (o : OpEnt) : (opSet s n o).refresh = s.refresh := rfl
@[simp] theorem opSet_stackSt (s : State) (n : Nat) (o : OpEnt) : (opSet s n o).stackSt = s.stackSt := rfl
@[simp] theorem opSet_gov (s : State) (n : Nat) (o : OpEnt) : (opSet s n o).gov = s.gov := rfl
@[simp] theorem opSet_net (s : State) (n : Nat) (o : OpEnt) : (opSet s n o).net = s.net := rfl
@[simp] theorem opSet_wfc (s : State) (n : Nat) (o : OpEnt) : (opSet s n o).wfc = s.wfc := rfl
@[simp] theorem opSet_pmu (s : State) (n : Nat) (o : OpEnt) : (opSet s n o).pmu = s.pmu := rfl

@[simp] theorem opDrop_pending (s : State) (n seq : Nat) : (opDrop s n seq).pending = s.pending := rfl
@[simp] theorem opDrop_free (s : State) (n seq : Nat) : (opDrop s n seq).free = s.free := rfl
@[simp] theorem opDrop_clk (s : State) (n seq : Nat) : (opDrop s n seq).clk = s.clk := rfl
@[simp] theorem opDrop_fuses (s : State) (n seq : Nat) : (opDrop s n seq).fuses = s.fuses := rfl
@[simp] theorem opDrop_pins (s : State) (n seq : Nat) : (opDrop s n seq).pins = s.pins := rfl
@[simp] theorem opDrop_power (s : State) (n seq : Nat) : (opDrop s n seq).power = s.power := rfl
@[simp] theorem opDrop_boot (s : State) (n seq : Nat) : (opDrop s n seq).boot = s.boot := rfl
@[simp] theorem opDrop_flash (s : State) (n seq : Nat) : (opDrop s n seq).flash = s.flash := rfl
@[simp] theorem opDrop_tb (s : State) (n seq : Nat) : (opDrop s n seq).tb = s.tb := rfl
@[simp] theorem opDrop_regs (s : State) (n seq : Nat) : (opDrop s n seq).regs = s.regs := rfl
@[simp] theorem opDrop_port (s : State) (n seq : Nat) : (opDrop s n seq).port = s.port := rfl
@[simp] theorem opDrop_ingress (s : State) (n seq : Nat) : (opDrop s n seq).ingress = s.ingress := rfl
@[simp] theorem opDrop_belay (s : State) (n seq : Nat) : (opDrop s n seq).belay = s.belay := rfl
@[simp] theorem opDrop_cfg (s : State) (n seq : Nat) : (opDrop s n seq).cfg = s.cfg := rfl
@[simp] theorem opDrop_hitches (s : State) (n seq : Nat) : (opDrop s n seq).hitches = s.hitches := rfl
@[simp] theorem opDrop_lineArb (s : State) (n seq : Nat) : (opDrop s n seq).lineArb = s.lineArb := rfl
@[simp] theorem opDrop_braidArb (s : State) (n seq : Nat) : (opDrop s n seq).braidArb = s.braidArb := rfl
@[simp] theorem opDrop_vecArb (s : State) (n seq : Nat) : (opDrop s n seq).vecArb = s.vecArb := rfl
@[simp] theorem opDrop_splArb (s : State) (n seq : Nat) : (opDrop s n seq).splArb = s.splArb := rfl
@[simp] theorem opDrop_strands (s : State) (n seq : Nat) : (opDrop s n seq).strands = s.strands := rfl
@[simp] theorem opDrop_mem (s : State) (n seq : Nat) : (opDrop s n seq).mem = s.mem := rfl
@[simp] theorem opDrop_tiers (s : State) (n seq : Nat) : (opDrop s n seq).tiers = s.tiers := rfl
@[simp] theorem opDrop_eng (s : State) (n seq : Nat) : (opDrop s n seq).eng = s.eng := rfl
@[simp] theorem opDrop_refresh (s : State) (n seq : Nat) : (opDrop s n seq).refresh = s.refresh := rfl
@[simp] theorem opDrop_stackSt (s : State) (n seq : Nat) : (opDrop s n seq).stackSt = s.stackSt := rfl
@[simp] theorem opDrop_gov (s : State) (n seq : Nat) : (opDrop s n seq).gov = s.gov := rfl
@[simp] theorem opDrop_net (s : State) (n seq : Nat) : (opDrop s n seq).net = s.net := rfl
@[simp] theorem opDrop_wfc (s : State) (n seq : Nat) : (opDrop s n seq).wfc = s.wfc := rfl
@[simp] theorem opDrop_pmu (s : State) (n seq : Nat) : (opDrop s n seq).pmu = s.pmu := rfl

@[simp] theorem hitchAdd_pending (s : State) (h : Nat) (add : W32) (by_ : Option Nat) : (hitchAdd s h add by_).pending = s.pending := rfl
@[simp] theorem hitchAdd_free (s : State) (h : Nat) (add : W32) (by_ : Option Nat) : (hitchAdd s h add by_).free = s.free := rfl
@[simp] theorem hitchAdd_clk (s : State) (h : Nat) (add : W32) (by_ : Option Nat) : (hitchAdd s h add by_).clk = s.clk := rfl
@[simp] theorem hitchAdd_fuses (s : State) (h : Nat) (add : W32) (by_ : Option Nat) : (hitchAdd s h add by_).fuses = s.fuses := rfl
@[simp] theorem hitchAdd_pins (s : State) (h : Nat) (add : W32) (by_ : Option Nat) : (hitchAdd s h add by_).pins = s.pins := rfl
@[simp] theorem hitchAdd_power (s : State) (h : Nat) (add : W32) (by_ : Option Nat) : (hitchAdd s h add by_).power = s.power := rfl
@[simp] theorem hitchAdd_boot (s : State) (h : Nat) (add : W32) (by_ : Option Nat) : (hitchAdd s h add by_).boot = s.boot := rfl
@[simp] theorem hitchAdd_flash (s : State) (h : Nat) (add : W32) (by_ : Option Nat) : (hitchAdd s h add by_).flash = s.flash := rfl
@[simp] theorem hitchAdd_tb (s : State) (h : Nat) (add : W32) (by_ : Option Nat) : (hitchAdd s h add by_).tb = s.tb := rfl
@[simp] theorem hitchAdd_regs (s : State) (h : Nat) (add : W32) (by_ : Option Nat) : (hitchAdd s h add by_).regs = s.regs := rfl
@[simp] theorem hitchAdd_port (s : State) (h : Nat) (add : W32) (by_ : Option Nat) : (hitchAdd s h add by_).port = s.port := rfl
@[simp] theorem hitchAdd_ingress (s : State) (h : Nat) (add : W32) (by_ : Option Nat) : (hitchAdd s h add by_).ingress = s.ingress := rfl
@[simp] theorem hitchAdd_belay (s : State) (h : Nat) (add : W32) (by_ : Option Nat) : (hitchAdd s h add by_).belay = s.belay := rfl
@[simp] theorem hitchAdd_cfg (s : State) (h : Nat) (add : W32) (by_ : Option Nat) : (hitchAdd s h add by_).cfg = s.cfg := rfl
@[simp] theorem hitchAdd_lines (s : State) (h : Nat) (add : W32) (by_ : Option Nat) : (hitchAdd s h add by_).lines = s.lines := rfl
@[simp] theorem hitchAdd_lineArb (s : State) (h : Nat) (add : W32) (by_ : Option Nat) : (hitchAdd s h add by_).lineArb = s.lineArb := rfl
@[simp] theorem hitchAdd_braidArb (s : State) (h : Nat) (add : W32) (by_ : Option Nat) : (hitchAdd s h add by_).braidArb = s.braidArb := rfl
@[simp] theorem hitchAdd_vecArb (s : State) (h : Nat) (add : W32) (by_ : Option Nat) : (hitchAdd s h add by_).vecArb = s.vecArb := rfl
@[simp] theorem hitchAdd_splArb (s : State) (h : Nat) (add : W32) (by_ : Option Nat) : (hitchAdd s h add by_).splArb = s.splArb := rfl
@[simp] theorem hitchAdd_strands (s : State) (h : Nat) (add : W32) (by_ : Option Nat) : (hitchAdd s h add by_).strands = s.strands := rfl
@[simp] theorem hitchAdd_mem (s : State) (h : Nat) (add : W32) (by_ : Option Nat) : (hitchAdd s h add by_).mem = s.mem := rfl
@[simp] theorem hitchAdd_tiers (s : State) (h : Nat) (add : W32) (by_ : Option Nat) : (hitchAdd s h add by_).tiers = s.tiers := rfl
@[simp] theorem hitchAdd_eng (s : State) (h : Nat) (add : W32) (by_ : Option Nat) : (hitchAdd s h add by_).eng = s.eng := rfl
@[simp] theorem hitchAdd_refresh (s : State) (h : Nat) (add : W32) (by_ : Option Nat) : (hitchAdd s h add by_).refresh = s.refresh := rfl
@[simp] theorem hitchAdd_stackSt (s : State) (h : Nat) (add : W32) (by_ : Option Nat) : (hitchAdd s h add by_).stackSt = s.stackSt := rfl
@[simp] theorem hitchAdd_gov (s : State) (h : Nat) (add : W32) (by_ : Option Nat) : (hitchAdd s h add by_).gov = s.gov := rfl
@[simp] theorem hitchAdd_net (s : State) (h : Nat) (add : W32) (by_ : Option Nat) : (hitchAdd s h add by_).net = s.net := rfl
@[simp] theorem hitchAdd_wfc (s : State) (h : Nat) (add : W32) (by_ : Option Nat) : (hitchAdd s h add by_).wfc = s.wfc := rfl
@[simp] theorem hitchAdd_pmu (s : State) (h : Nat) (add : W32) (by_ : Option Nat) : (hitchAdd s h add by_).pmu = s.pmu := rfl

@[simp] theorem htSet_pending (s : State) (name : Nat) (e : HtEntry) : (htSet s name e).pending = s.pending := tiers_pending s _
@[simp] theorem htSet_free (s : State) (name : Nat) (e : HtEntry) : (htSet s name e).free = s.free := tiers_free s _
@[simp] theorem htSet_clk (s : State) (name : Nat) (e : HtEntry) : (htSet s name e).clk = s.clk := tiers_clk s _
@[simp] theorem htSet_fuses (s : State) (name : Nat) (e : HtEntry) : (htSet s name e).fuses = s.fuses := tiers_fuses s _
@[simp] theorem htSet_pins (s : State) (name : Nat) (e : HtEntry) : (htSet s name e).pins = s.pins := tiers_pins s _
@[simp] theorem htSet_power (s : State) (name : Nat) (e : HtEntry) : (htSet s name e).power = s.power := tiers_power s _
@[simp] theorem htSet_boot (s : State) (name : Nat) (e : HtEntry) : (htSet s name e).boot = s.boot := tiers_boot s _
@[simp] theorem htSet_flash (s : State) (name : Nat) (e : HtEntry) : (htSet s name e).flash = s.flash := tiers_flash s _
@[simp] theorem htSet_tb (s : State) (name : Nat) (e : HtEntry) : (htSet s name e).tb = s.tb := tiers_tb s _
@[simp] theorem htSet_regs (s : State) (name : Nat) (e : HtEntry) : (htSet s name e).regs = s.regs := tiers_regs s _
@[simp] theorem htSet_port (s : State) (name : Nat) (e : HtEntry) : (htSet s name e).port = s.port := tiers_port s _
@[simp] theorem htSet_ingress (s : State) (name : Nat) (e : HtEntry) : (htSet s name e).ingress = s.ingress := tiers_ingress s _
@[simp] theorem htSet_belay (s : State) (name : Nat) (e : HtEntry) : (htSet s name e).belay = s.belay := tiers_belay s _
@[simp] theorem htSet_cfg (s : State) (name : Nat) (e : HtEntry) : (htSet s name e).cfg = s.cfg := tiers_cfg s _
@[simp] theorem htSet_lines (s : State) (name : Nat) (e : HtEntry) : (htSet s name e).lines = s.lines := tiers_lines s _
@[simp] theorem htSet_hitches (s : State) (name : Nat) (e : HtEntry) : (htSet s name e).hitches = s.hitches := tiers_hitches s _
@[simp] theorem htSet_lineArb (s : State) (name : Nat) (e : HtEntry) : (htSet s name e).lineArb = s.lineArb := tiers_lineArb s _
@[simp] theorem htSet_braidArb (s : State) (name : Nat) (e : HtEntry) : (htSet s name e).braidArb = s.braidArb := tiers_braidArb s _
@[simp] theorem htSet_vecArb (s : State) (name : Nat) (e : HtEntry) : (htSet s name e).vecArb = s.vecArb := tiers_vecArb s _
@[simp] theorem htSet_splArb (s : State) (name : Nat) (e : HtEntry) : (htSet s name e).splArb = s.splArb := tiers_splArb s _
@[simp] theorem htSet_strands (s : State) (name : Nat) (e : HtEntry) : (htSet s name e).strands = s.strands := tiers_strands s _
@[simp] theorem htSet_mem (s : State) (name : Nat) (e : HtEntry) : (htSet s name e).mem = s.mem := tiers_mem s _
@[simp] theorem htSet_eng (s : State) (name : Nat) (e : HtEntry) : (htSet s name e).eng = s.eng := tiers_eng s _
@[simp] theorem htSet_refresh (s : State) (name : Nat) (e : HtEntry) : (htSet s name e).refresh = s.refresh := tiers_refresh s _
@[simp] theorem htSet_stackSt (s : State) (name : Nat) (e : HtEntry) : (htSet s name e).stackSt = s.stackSt := tiers_stackSt s _
@[simp] theorem htSet_gov (s : State) (name : Nat) (e : HtEntry) : (htSet s name e).gov = s.gov := tiers_gov s _
@[simp] theorem htSet_net (s : State) (name : Nat) (e : HtEntry) : (htSet s name e).net = s.net := tiers_net s _
@[simp] theorem htSet_wfc (s : State) (name : Nat) (e : HtEntry) : (htSet s name e).wfc = s.wfc := tiers_wfc s _
@[simp] theorem htSet_pmu (s : State) (name : Nat) (e : HtEntry) : (htSet s name e).pmu = s.pmu := tiers_pmu s _

@[simp] theorem poolSet_pending (s : State) (t : Tier) (p : TierSt) : (poolSet s t p).pending = s.pending := rfl
@[simp] theorem poolSet_free (s : State) (t : Tier) (p : TierSt) : (poolSet s t p).free = s.free := rfl
@[simp] theorem poolSet_clk (s : State) (t : Tier) (p : TierSt) : (poolSet s t p).clk = s.clk := rfl
@[simp] theorem poolSet_fuses (s : State) (t : Tier) (p : TierSt) : (poolSet s t p).fuses = s.fuses := rfl
@[simp] theorem poolSet_pins (s : State) (t : Tier) (p : TierSt) : (poolSet s t p).pins = s.pins := rfl
@[simp] theorem poolSet_power (s : State) (t : Tier) (p : TierSt) : (poolSet s t p).power = s.power := rfl
@[simp] theorem poolSet_boot (s : State) (t : Tier) (p : TierSt) : (poolSet s t p).boot = s.boot := rfl
@[simp] theorem poolSet_flash (s : State) (t : Tier) (p : TierSt) : (poolSet s t p).flash = s.flash := rfl
@[simp] theorem poolSet_tb (s : State) (t : Tier) (p : TierSt) : (poolSet s t p).tb = s.tb := rfl
@[simp] theorem poolSet_regs (s : State) (t : Tier) (p : TierSt) : (poolSet s t p).regs = s.regs := rfl
@[simp] theorem poolSet_port (s : State) (t : Tier) (p : TierSt) : (poolSet s t p).port = s.port := rfl
@[simp] theorem poolSet_ingress (s : State) (t : Tier) (p : TierSt) : (poolSet s t p).ingress = s.ingress := rfl
@[simp] theorem poolSet_belay (s : State) (t : Tier) (p : TierSt) : (poolSet s t p).belay = s.belay := rfl
@[simp] theorem poolSet_cfg (s : State) (t : Tier) (p : TierSt) : (poolSet s t p).cfg = s.cfg := rfl
@[simp] theorem poolSet_lines (s : State) (t : Tier) (p : TierSt) : (poolSet s t p).lines = s.lines := rfl
@[simp] theorem poolSet_hitches (s : State) (t : Tier) (p : TierSt) : (poolSet s t p).hitches = s.hitches := rfl
@[simp] theorem poolSet_lineArb (s : State) (t : Tier) (p : TierSt) : (poolSet s t p).lineArb = s.lineArb := rfl
@[simp] theorem poolSet_braidArb (s : State) (t : Tier) (p : TierSt) : (poolSet s t p).braidArb = s.braidArb := rfl
@[simp] theorem poolSet_vecArb (s : State) (t : Tier) (p : TierSt) : (poolSet s t p).vecArb = s.vecArb := rfl
@[simp] theorem poolSet_splArb (s : State) (t : Tier) (p : TierSt) : (poolSet s t p).splArb = s.splArb := rfl
@[simp] theorem poolSet_strands (s : State) (t : Tier) (p : TierSt) : (poolSet s t p).strands = s.strands := rfl
@[simp] theorem poolSet_mem (s : State) (t : Tier) (p : TierSt) : (poolSet s t p).mem = s.mem := rfl
@[simp] theorem poolSet_eng (s : State) (t : Tier) (p : TierSt) : (poolSet s t p).eng = s.eng := rfl
@[simp] theorem poolSet_refresh (s : State) (t : Tier) (p : TierSt) : (poolSet s t p).refresh = s.refresh := rfl
@[simp] theorem poolSet_stackSt (s : State) (t : Tier) (p : TierSt) : (poolSet s t p).stackSt = s.stackSt := rfl
@[simp] theorem poolSet_gov (s : State) (t : Tier) (p : TierSt) : (poolSet s t p).gov = s.gov := rfl
@[simp] theorem poolSet_net (s : State) (t : Tier) (p : TierSt) : (poolSet s t p).net = s.net := rfl
@[simp] theorem poolSet_wfc (s : State) (t : Tier) (p : TierSt) : (poolSet s t p).wfc = s.wfc := rfl
@[simp] theorem poolSet_pmu (s : State) (t : Tier) (p : TierSt) : (poolSet s t p).pmu = s.pmu := rfl

@[simp] theorem stackSet_pending (s : State) (st : Nat) (x : StackSt) : (stackSet s st x).pending = s.pending := rfl
@[simp] theorem stackSet_free (s : State) (st : Nat) (x : StackSt) : (stackSet s st x).free = s.free := rfl
@[simp] theorem stackSet_clk (s : State) (st : Nat) (x : StackSt) : (stackSet s st x).clk = s.clk := rfl
@[simp] theorem stackSet_fuses (s : State) (st : Nat) (x : StackSt) : (stackSet s st x).fuses = s.fuses := rfl
@[simp] theorem stackSet_pins (s : State) (st : Nat) (x : StackSt) : (stackSet s st x).pins = s.pins := rfl
@[simp] theorem stackSet_power (s : State) (st : Nat) (x : StackSt) : (stackSet s st x).power = s.power := rfl
@[simp] theorem stackSet_boot (s : State) (st : Nat) (x : StackSt) : (stackSet s st x).boot = s.boot := rfl
@[simp] theorem stackSet_flash (s : State) (st : Nat) (x : StackSt) : (stackSet s st x).flash = s.flash := rfl
@[simp] theorem stackSet_tb (s : State) (st : Nat) (x : StackSt) : (stackSet s st x).tb = s.tb := rfl
@[simp] theorem stackSet_regs (s : State) (st : Nat) (x : StackSt) : (stackSet s st x).regs = s.regs := rfl
@[simp] theorem stackSet_port (s : State) (st : Nat) (x : StackSt) : (stackSet s st x).port = s.port := rfl
@[simp] theorem stackSet_ingress (s : State) (st : Nat) (x : StackSt) : (stackSet s st x).ingress = s.ingress := rfl
@[simp] theorem stackSet_belay (s : State) (st : Nat) (x : StackSt) : (stackSet s st x).belay = s.belay := rfl
@[simp] theorem stackSet_cfg (s : State) (st : Nat) (x : StackSt) : (stackSet s st x).cfg = s.cfg := rfl
@[simp] theorem stackSet_lines (s : State) (st : Nat) (x : StackSt) : (stackSet s st x).lines = s.lines := rfl
@[simp] theorem stackSet_hitches (s : State) (st : Nat) (x : StackSt) : (stackSet s st x).hitches = s.hitches := rfl
@[simp] theorem stackSet_lineArb (s : State) (st : Nat) (x : StackSt) : (stackSet s st x).lineArb = s.lineArb := rfl
@[simp] theorem stackSet_braidArb (s : State) (st : Nat) (x : StackSt) : (stackSet s st x).braidArb = s.braidArb := rfl
@[simp] theorem stackSet_vecArb (s : State) (st : Nat) (x : StackSt) : (stackSet s st x).vecArb = s.vecArb := rfl
@[simp] theorem stackSet_splArb (s : State) (st : Nat) (x : StackSt) : (stackSet s st x).splArb = s.splArb := rfl
@[simp] theorem stackSet_strands (s : State) (st : Nat) (x : StackSt) : (stackSet s st x).strands = s.strands := rfl
@[simp] theorem stackSet_mem (s : State) (st : Nat) (x : StackSt) : (stackSet s st x).mem = s.mem := rfl
@[simp] theorem stackSet_tiers (s : State) (st : Nat) (x : StackSt) : (stackSet s st x).tiers = s.tiers := rfl
@[simp] theorem stackSet_eng (s : State) (st : Nat) (x : StackSt) : (stackSet s st x).eng = s.eng := rfl
@[simp] theorem stackSet_refresh (s : State) (st : Nat) (x : StackSt) : (stackSet s st x).refresh = s.refresh := rfl
@[simp] theorem stackSet_gov (s : State) (st : Nat) (x : StackSt) : (stackSet s st x).gov = s.gov := rfl
@[simp] theorem stackSet_net (s : State) (st : Nat) (x : StackSt) : (stackSet s st x).net = s.net := rfl
@[simp] theorem stackSet_wfc (s : State) (st : Nat) (x : StackSt) : (stackSet s st x).wfc = s.wfc := rfl
@[simp] theorem stackSet_pmu (s : State) (st : Nat) (x : StackSt) : (stackSet s st x).pmu = s.pmu := rfl

@[simp] theorem strandSet_pending (s : State) (k : Nat) (x : Strand) : (strandSet s k x).pending = s.pending := rfl
@[simp] theorem strandSet_free (s : State) (k : Nat) (x : Strand) : (strandSet s k x).free = s.free := rfl
@[simp] theorem strandSet_clk (s : State) (k : Nat) (x : Strand) : (strandSet s k x).clk = s.clk := rfl
@[simp] theorem strandSet_fuses (s : State) (k : Nat) (x : Strand) : (strandSet s k x).fuses = s.fuses := rfl
@[simp] theorem strandSet_pins (s : State) (k : Nat) (x : Strand) : (strandSet s k x).pins = s.pins := rfl
@[simp] theorem strandSet_power (s : State) (k : Nat) (x : Strand) : (strandSet s k x).power = s.power := rfl
@[simp] theorem strandSet_boot (s : State) (k : Nat) (x : Strand) : (strandSet s k x).boot = s.boot := rfl
@[simp] theorem strandSet_flash (s : State) (k : Nat) (x : Strand) : (strandSet s k x).flash = s.flash := rfl
@[simp] theorem strandSet_tb (s : State) (k : Nat) (x : Strand) : (strandSet s k x).tb = s.tb := rfl
@[simp] theorem strandSet_regs (s : State) (k : Nat) (x : Strand) : (strandSet s k x).regs = s.regs := rfl
@[simp] theorem strandSet_port (s : State) (k : Nat) (x : Strand) : (strandSet s k x).port = s.port := rfl
@[simp] theorem strandSet_ingress (s : State) (k : Nat) (x : Strand) : (strandSet s k x).ingress = s.ingress := rfl
@[simp] theorem strandSet_belay (s : State) (k : Nat) (x : Strand) : (strandSet s k x).belay = s.belay := rfl
@[simp] theorem strandSet_cfg (s : State) (k : Nat) (x : Strand) : (strandSet s k x).cfg = s.cfg := rfl
@[simp] theorem strandSet_lines (s : State) (k : Nat) (x : Strand) : (strandSet s k x).lines = s.lines := rfl
@[simp] theorem strandSet_hitches (s : State) (k : Nat) (x : Strand) : (strandSet s k x).hitches = s.hitches := rfl
@[simp] theorem strandSet_lineArb (s : State) (k : Nat) (x : Strand) : (strandSet s k x).lineArb = s.lineArb := rfl
@[simp] theorem strandSet_braidArb (s : State) (k : Nat) (x : Strand) : (strandSet s k x).braidArb = s.braidArb := rfl
@[simp] theorem strandSet_vecArb (s : State) (k : Nat) (x : Strand) : (strandSet s k x).vecArb = s.vecArb := rfl
@[simp] theorem strandSet_splArb (s : State) (k : Nat) (x : Strand) : (strandSet s k x).splArb = s.splArb := rfl
@[simp] theorem strandSet_mem (s : State) (k : Nat) (x : Strand) : (strandSet s k x).mem = s.mem := rfl
@[simp] theorem strandSet_tiers (s : State) (k : Nat) (x : Strand) : (strandSet s k x).tiers = s.tiers := rfl
@[simp] theorem strandSet_eng (s : State) (k : Nat) (x : Strand) : (strandSet s k x).eng = s.eng := rfl
@[simp] theorem strandSet_refresh (s : State) (k : Nat) (x : Strand) : (strandSet s k x).refresh = s.refresh := rfl
@[simp] theorem strandSet_stackSt (s : State) (k : Nat) (x : Strand) : (strandSet s k x).stackSt = s.stackSt := rfl
@[simp] theorem strandSet_gov (s : State) (k : Nat) (x : Strand) : (strandSet s k x).gov = s.gov := rfl
@[simp] theorem strandSet_net (s : State) (k : Nat) (x : Strand) : (strandSet s k x).net = s.net := rfl
@[simp] theorem strandSet_wfc (s : State) (k : Nat) (x : Strand) : (strandSet s k x).wfc = s.wfc := rfl
@[simp] theorem strandSet_pmu (s : State) (k : Nat) (x : Strand) : (strandSet s k x).pmu = s.pmu := rfl

@[simp] theorem bankSet_pending (s : State) (k : Nat) (b : Bank) : (bankSet s k b).pending = s.pending := rfl
@[simp] theorem bankSet_free (s : State) (k : Nat) (b : Bank) : (bankSet s k b).free = s.free := rfl
@[simp] theorem bankSet_clk (s : State) (k : Nat) (b : Bank) : (bankSet s k b).clk = s.clk := rfl
@[simp] theorem bankSet_fuses (s : State) (k : Nat) (b : Bank) : (bankSet s k b).fuses = s.fuses := rfl
@[simp] theorem bankSet_pins (s : State) (k : Nat) (b : Bank) : (bankSet s k b).pins = s.pins := rfl
@[simp] theorem bankSet_power (s : State) (k : Nat) (b : Bank) : (bankSet s k b).power = s.power := rfl
@[simp] theorem bankSet_boot (s : State) (k : Nat) (b : Bank) : (bankSet s k b).boot = s.boot := rfl
@[simp] theorem bankSet_flash (s : State) (k : Nat) (b : Bank) : (bankSet s k b).flash = s.flash := rfl
@[simp] theorem bankSet_tb (s : State) (k : Nat) (b : Bank) : (bankSet s k b).tb = s.tb := rfl
@[simp] theorem bankSet_regs (s : State) (k : Nat) (b : Bank) : (bankSet s k b).regs = s.regs := rfl
@[simp] theorem bankSet_port (s : State) (k : Nat) (b : Bank) : (bankSet s k b).port = s.port := rfl
@[simp] theorem bankSet_ingress (s : State) (k : Nat) (b : Bank) : (bankSet s k b).ingress = s.ingress := rfl
@[simp] theorem bankSet_belay (s : State) (k : Nat) (b : Bank) : (bankSet s k b).belay = s.belay := rfl
@[simp] theorem bankSet_cfg (s : State) (k : Nat) (b : Bank) : (bankSet s k b).cfg = s.cfg := rfl
@[simp] theorem bankSet_lines (s : State) (k : Nat) (b : Bank) : (bankSet s k b).lines = s.lines := rfl
@[simp] theorem bankSet_hitches (s : State) (k : Nat) (b : Bank) : (bankSet s k b).hitches = s.hitches := rfl
@[simp] theorem bankSet_lineArb (s : State) (k : Nat) (b : Bank) : (bankSet s k b).lineArb = s.lineArb := rfl
@[simp] theorem bankSet_braidArb (s : State) (k : Nat) (b : Bank) : (bankSet s k b).braidArb = s.braidArb := rfl
@[simp] theorem bankSet_vecArb (s : State) (k : Nat) (b : Bank) : (bankSet s k b).vecArb = s.vecArb := rfl
@[simp] theorem bankSet_splArb (s : State) (k : Nat) (b : Bank) : (bankSet s k b).splArb = s.splArb := rfl
@[simp] theorem bankSet_strands (s : State) (k : Nat) (b : Bank) : (bankSet s k b).strands = s.strands := rfl
@[simp] theorem bankSet_mem (s : State) (k : Nat) (b : Bank) : (bankSet s k b).mem = s.mem := rfl
@[simp] theorem bankSet_tiers (s : State) (k : Nat) (b : Bank) : (bankSet s k b).tiers = s.tiers := rfl
@[simp] theorem bankSet_refresh (s : State) (k : Nat) (b : Bank) : (bankSet s k b).refresh = s.refresh := rfl
@[simp] theorem bankSet_stackSt (s : State) (k : Nat) (b : Bank) : (bankSet s k b).stackSt = s.stackSt := rfl
@[simp] theorem bankSet_gov (s : State) (k : Nat) (b : Bank) : (bankSet s k b).gov = s.gov := rfl
@[simp] theorem bankSet_net (s : State) (k : Nat) (b : Bank) : (bankSet s k b).net = s.net := rfl
@[simp] theorem bankSet_wfc (s : State) (k : Nat) (b : Bank) : (bankSet s k b).wfc = s.wfc := rfl
@[simp] theorem bankSet_pmu (s : State) (k : Nat) (b : Bank) : (bankSet s k b).pmu = s.pmu := rfl

@[simp] theorem splSet_pending (s : State) (chan : Nat) (x : Splicer) : (splSet s chan x).pending = s.pending := rfl
@[simp] theorem splSet_free (s : State) (chan : Nat) (x : Splicer) : (splSet s chan x).free = s.free := rfl
@[simp] theorem splSet_clk (s : State) (chan : Nat) (x : Splicer) : (splSet s chan x).clk = s.clk := rfl
@[simp] theorem splSet_fuses (s : State) (chan : Nat) (x : Splicer) : (splSet s chan x).fuses = s.fuses := rfl
@[simp] theorem splSet_pins (s : State) (chan : Nat) (x : Splicer) : (splSet s chan x).pins = s.pins := rfl
@[simp] theorem splSet_power (s : State) (chan : Nat) (x : Splicer) : (splSet s chan x).power = s.power := rfl
@[simp] theorem splSet_boot (s : State) (chan : Nat) (x : Splicer) : (splSet s chan x).boot = s.boot := rfl
@[simp] theorem splSet_flash (s : State) (chan : Nat) (x : Splicer) : (splSet s chan x).flash = s.flash := rfl
@[simp] theorem splSet_tb (s : State) (chan : Nat) (x : Splicer) : (splSet s chan x).tb = s.tb := rfl
@[simp] theorem splSet_regs (s : State) (chan : Nat) (x : Splicer) : (splSet s chan x).regs = s.regs := rfl
@[simp] theorem splSet_port (s : State) (chan : Nat) (x : Splicer) : (splSet s chan x).port = s.port := rfl
@[simp] theorem splSet_ingress (s : State) (chan : Nat) (x : Splicer) : (splSet s chan x).ingress = s.ingress := rfl
@[simp] theorem splSet_belay (s : State) (chan : Nat) (x : Splicer) : (splSet s chan x).belay = s.belay := rfl
@[simp] theorem splSet_cfg (s : State) (chan : Nat) (x : Splicer) : (splSet s chan x).cfg = s.cfg := rfl
@[simp] theorem splSet_lines (s : State) (chan : Nat) (x : Splicer) : (splSet s chan x).lines = s.lines := rfl
@[simp] theorem splSet_hitches (s : State) (chan : Nat) (x : Splicer) : (splSet s chan x).hitches = s.hitches := rfl
@[simp] theorem splSet_lineArb (s : State) (chan : Nat) (x : Splicer) : (splSet s chan x).lineArb = s.lineArb := rfl
@[simp] theorem splSet_braidArb (s : State) (chan : Nat) (x : Splicer) : (splSet s chan x).braidArb = s.braidArb := rfl
@[simp] theorem splSet_vecArb (s : State) (chan : Nat) (x : Splicer) : (splSet s chan x).vecArb = s.vecArb := rfl
@[simp] theorem splSet_splArb (s : State) (chan : Nat) (x : Splicer) : (splSet s chan x).splArb = s.splArb := rfl
@[simp] theorem splSet_strands (s : State) (chan : Nat) (x : Splicer) : (splSet s chan x).strands = s.strands := rfl
@[simp] theorem splSet_mem (s : State) (chan : Nat) (x : Splicer) : (splSet s chan x).mem = s.mem := rfl
@[simp] theorem splSet_tiers (s : State) (chan : Nat) (x : Splicer) : (splSet s chan x).tiers = s.tiers := rfl
@[simp] theorem splSet_refresh (s : State) (chan : Nat) (x : Splicer) : (splSet s chan x).refresh = s.refresh := rfl
@[simp] theorem splSet_stackSt (s : State) (chan : Nat) (x : Splicer) : (splSet s chan x).stackSt = s.stackSt := rfl
@[simp] theorem splSet_gov (s : State) (chan : Nat) (x : Splicer) : (splSet s chan x).gov = s.gov := rfl
@[simp] theorem splSet_net (s : State) (chan : Nat) (x : Splicer) : (splSet s chan x).net = s.net := rfl
@[simp] theorem splSet_wfc (s : State) (chan : Nat) (x : Splicer) : (splSet s chan x).wfc = s.wfc := rfl
@[simp] theorem splSet_pmu (s : State) (chan : Nat) (x : Splicer) : (splSet s chan x).pmu = s.pmu := rfl

@[simp] theorem refreshSet_pending (s : State) (k : Nat) (r : Refresh) : (refreshSet s k r).pending = s.pending := rfl
@[simp] theorem refreshSet_free (s : State) (k : Nat) (r : Refresh) : (refreshSet s k r).free = s.free := rfl
@[simp] theorem refreshSet_clk (s : State) (k : Nat) (r : Refresh) : (refreshSet s k r).clk = s.clk := rfl
@[simp] theorem refreshSet_fuses (s : State) (k : Nat) (r : Refresh) : (refreshSet s k r).fuses = s.fuses := rfl
@[simp] theorem refreshSet_pins (s : State) (k : Nat) (r : Refresh) : (refreshSet s k r).pins = s.pins := rfl
@[simp] theorem refreshSet_power (s : State) (k : Nat) (r : Refresh) : (refreshSet s k r).power = s.power := rfl
@[simp] theorem refreshSet_boot (s : State) (k : Nat) (r : Refresh) : (refreshSet s k r).boot = s.boot := rfl
@[simp] theorem refreshSet_flash (s : State) (k : Nat) (r : Refresh) : (refreshSet s k r).flash = s.flash := rfl
@[simp] theorem refreshSet_tb (s : State) (k : Nat) (r : Refresh) : (refreshSet s k r).tb = s.tb := rfl
@[simp] theorem refreshSet_regs (s : State) (k : Nat) (r : Refresh) : (refreshSet s k r).regs = s.regs := rfl
@[simp] theorem refreshSet_port (s : State) (k : Nat) (r : Refresh) : (refreshSet s k r).port = s.port := rfl
@[simp] theorem refreshSet_ingress (s : State) (k : Nat) (r : Refresh) : (refreshSet s k r).ingress = s.ingress := rfl
@[simp] theorem refreshSet_belay (s : State) (k : Nat) (r : Refresh) : (refreshSet s k r).belay = s.belay := rfl
@[simp] theorem refreshSet_cfg (s : State) (k : Nat) (r : Refresh) : (refreshSet s k r).cfg = s.cfg := rfl
@[simp] theorem refreshSet_lines (s : State) (k : Nat) (r : Refresh) : (refreshSet s k r).lines = s.lines := rfl
@[simp] theorem refreshSet_hitches (s : State) (k : Nat) (r : Refresh) : (refreshSet s k r).hitches = s.hitches := rfl
@[simp] theorem refreshSet_lineArb (s : State) (k : Nat) (r : Refresh) : (refreshSet s k r).lineArb = s.lineArb := rfl
@[simp] theorem refreshSet_braidArb (s : State) (k : Nat) (r : Refresh) : (refreshSet s k r).braidArb = s.braidArb := rfl
@[simp] theorem refreshSet_vecArb (s : State) (k : Nat) (r : Refresh) : (refreshSet s k r).vecArb = s.vecArb := rfl
@[simp] theorem refreshSet_splArb (s : State) (k : Nat) (r : Refresh) : (refreshSet s k r).splArb = s.splArb := rfl
@[simp] theorem refreshSet_strands (s : State) (k : Nat) (r : Refresh) : (refreshSet s k r).strands = s.strands := rfl
@[simp] theorem refreshSet_mem (s : State) (k : Nat) (r : Refresh) : (refreshSet s k r).mem = s.mem := rfl
@[simp] theorem refreshSet_tiers (s : State) (k : Nat) (r : Refresh) : (refreshSet s k r).tiers = s.tiers := rfl
@[simp] theorem refreshSet_eng (s : State) (k : Nat) (r : Refresh) : (refreshSet s k r).eng = s.eng := rfl
@[simp] theorem refreshSet_stackSt (s : State) (k : Nat) (r : Refresh) : (refreshSet s k r).stackSt = s.stackSt := rfl
@[simp] theorem refreshSet_gov (s : State) (k : Nat) (r : Refresh) : (refreshSet s k r).gov = s.gov := rfl
@[simp] theorem refreshSet_net (s : State) (k : Nat) (r : Refresh) : (refreshSet s k r).net = s.net := rfl
@[simp] theorem refreshSet_wfc (s : State) (k : Nat) (r : Refresh) : (refreshSet s k r).wfc = s.wfc := rfl
@[simp] theorem refreshSet_pmu (s : State) (k : Nat) (r : Refresh) : (refreshSet s k r).pmu = s.pmu := rfl

@[simp] theorem linkSet_pending (s : State) (k : Nat) (l : Link) : (linkSet s k l).pending = s.pending := rfl
@[simp] theorem linkSet_free (s : State) (k : Nat) (l : Link) : (linkSet s k l).free = s.free := rfl
@[simp] theorem linkSet_clk (s : State) (k : Nat) (l : Link) : (linkSet s k l).clk = s.clk := rfl
@[simp] theorem linkSet_fuses (s : State) (k : Nat) (l : Link) : (linkSet s k l).fuses = s.fuses := rfl
@[simp] theorem linkSet_pins (s : State) (k : Nat) (l : Link) : (linkSet s k l).pins = s.pins := rfl
@[simp] theorem linkSet_power (s : State) (k : Nat) (l : Link) : (linkSet s k l).power = s.power := rfl
@[simp] theorem linkSet_boot (s : State) (k : Nat) (l : Link) : (linkSet s k l).boot = s.boot := rfl
@[simp] theorem linkSet_flash (s : State) (k : Nat) (l : Link) : (linkSet s k l).flash = s.flash := rfl
@[simp] theorem linkSet_tb (s : State) (k : Nat) (l : Link) : (linkSet s k l).tb = s.tb := rfl
@[simp] theorem linkSet_regs (s : State) (k : Nat) (l : Link) : (linkSet s k l).regs = s.regs := rfl
@[simp] theorem linkSet_port (s : State) (k : Nat) (l : Link) : (linkSet s k l).port = s.port := rfl
@[simp] theorem linkSet_ingress (s : State) (k : Nat) (l : Link) : (linkSet s k l).ingress = s.ingress := rfl
@[simp] theorem linkSet_belay (s : State) (k : Nat) (l : Link) : (linkSet s k l).belay = s.belay := rfl
@[simp] theorem linkSet_cfg (s : State) (k : Nat) (l : Link) : (linkSet s k l).cfg = s.cfg := rfl
@[simp] theorem linkSet_lines (s : State) (k : Nat) (l : Link) : (linkSet s k l).lines = s.lines := rfl
@[simp] theorem linkSet_hitches (s : State) (k : Nat) (l : Link) : (linkSet s k l).hitches = s.hitches := rfl
@[simp] theorem linkSet_lineArb (s : State) (k : Nat) (l : Link) : (linkSet s k l).lineArb = s.lineArb := rfl
@[simp] theorem linkSet_braidArb (s : State) (k : Nat) (l : Link) : (linkSet s k l).braidArb = s.braidArb := rfl
@[simp] theorem linkSet_vecArb (s : State) (k : Nat) (l : Link) : (linkSet s k l).vecArb = s.vecArb := rfl
@[simp] theorem linkSet_splArb (s : State) (k : Nat) (l : Link) : (linkSet s k l).splArb = s.splArb := rfl
@[simp] theorem linkSet_strands (s : State) (k : Nat) (l : Link) : (linkSet s k l).strands = s.strands := rfl
@[simp] theorem linkSet_mem (s : State) (k : Nat) (l : Link) : (linkSet s k l).mem = s.mem := rfl
@[simp] theorem linkSet_tiers (s : State) (k : Nat) (l : Link) : (linkSet s k l).tiers = s.tiers := rfl
@[simp] theorem linkSet_eng (s : State) (k : Nat) (l : Link) : (linkSet s k l).eng = s.eng := rfl
@[simp] theorem linkSet_refresh (s : State) (k : Nat) (l : Link) : (linkSet s k l).refresh = s.refresh := rfl
@[simp] theorem linkSet_stackSt (s : State) (k : Nat) (l : Link) : (linkSet s k l).stackSt = s.stackSt := rfl
@[simp] theorem linkSet_gov (s : State) (k : Nat) (l : Link) : (linkSet s k l).gov = s.gov := rfl
@[simp] theorem linkSet_wfc (s : State) (k : Nat) (l : Link) : (linkSet s k l).wfc = s.wfc := rfl
@[simp] theorem linkSet_pmu (s : State) (k : Nat) (l : Link) : (linkSet s k l).pmu = s.pmu := rfl

@[simp] theorem peerSet_pending (s : State) (d : Nat) (p : Peer) : (peerSet s d p).pending = s.pending := rfl
@[simp] theorem peerSet_free (s : State) (d : Nat) (p : Peer) : (peerSet s d p).free = s.free := rfl
@[simp] theorem peerSet_clk (s : State) (d : Nat) (p : Peer) : (peerSet s d p).clk = s.clk := rfl
@[simp] theorem peerSet_fuses (s : State) (d : Nat) (p : Peer) : (peerSet s d p).fuses = s.fuses := rfl
@[simp] theorem peerSet_pins (s : State) (d : Nat) (p : Peer) : (peerSet s d p).pins = s.pins := rfl
@[simp] theorem peerSet_power (s : State) (d : Nat) (p : Peer) : (peerSet s d p).power = s.power := rfl
@[simp] theorem peerSet_boot (s : State) (d : Nat) (p : Peer) : (peerSet s d p).boot = s.boot := rfl
@[simp] theorem peerSet_flash (s : State) (d : Nat) (p : Peer) : (peerSet s d p).flash = s.flash := rfl
@[simp] theorem peerSet_tb (s : State) (d : Nat) (p : Peer) : (peerSet s d p).tb = s.tb := rfl
@[simp] theorem peerSet_regs (s : State) (d : Nat) (p : Peer) : (peerSet s d p).regs = s.regs := rfl
@[simp] theorem peerSet_port (s : State) (d : Nat) (p : Peer) : (peerSet s d p).port = s.port := rfl
@[simp] theorem peerSet_ingress (s : State) (d : Nat) (p : Peer) : (peerSet s d p).ingress = s.ingress := rfl
@[simp] theorem peerSet_belay (s : State) (d : Nat) (p : Peer) : (peerSet s d p).belay = s.belay := rfl
@[simp] theorem peerSet_cfg (s : State) (d : Nat) (p : Peer) : (peerSet s d p).cfg = s.cfg := rfl
@[simp] theorem peerSet_lines (s : State) (d : Nat) (p : Peer) : (peerSet s d p).lines = s.lines := rfl
@[simp] theorem peerSet_hitches (s : State) (d : Nat) (p : Peer) : (peerSet s d p).hitches = s.hitches := rfl
@[simp] theorem peerSet_lineArb (s : State) (d : Nat) (p : Peer) : (peerSet s d p).lineArb = s.lineArb := rfl
@[simp] theorem peerSet_braidArb (s : State) (d : Nat) (p : Peer) : (peerSet s d p).braidArb = s.braidArb := rfl
@[simp] theorem peerSet_vecArb (s : State) (d : Nat) (p : Peer) : (peerSet s d p).vecArb = s.vecArb := rfl
@[simp] theorem peerSet_splArb (s : State) (d : Nat) (p : Peer) : (peerSet s d p).splArb = s.splArb := rfl
@[simp] theorem peerSet_strands (s : State) (d : Nat) (p : Peer) : (peerSet s d p).strands = s.strands := rfl
@[simp] theorem peerSet_mem (s : State) (d : Nat) (p : Peer) : (peerSet s d p).mem = s.mem := rfl
@[simp] theorem peerSet_tiers (s : State) (d : Nat) (p : Peer) : (peerSet s d p).tiers = s.tiers := rfl
@[simp] theorem peerSet_eng (s : State) (d : Nat) (p : Peer) : (peerSet s d p).eng = s.eng := rfl
@[simp] theorem peerSet_refresh (s : State) (d : Nat) (p : Peer) : (peerSet s d p).refresh = s.refresh := rfl
@[simp] theorem peerSet_stackSt (s : State) (d : Nat) (p : Peer) : (peerSet s d p).stackSt = s.stackSt := rfl
@[simp] theorem peerSet_gov (s : State) (d : Nat) (p : Peer) : (peerSet s d p).gov = s.gov := rfl
@[simp] theorem peerSet_wfc (s : State) (d : Nat) (p : Peer) : (peerSet s d p).wfc = s.wfc := rfl
@[simp] theorem peerSet_pmu (s : State) (d : Nat) (p : Peer) : (peerSet s d p).pmu = s.pmu := rfl

@[simp] theorem drawn_pending (s : State) : (drawn s).pending = s.pending := rfl
@[simp] theorem drawn_clk (s : State) : (drawn s).clk = s.clk := rfl
@[simp] theorem drawn_fuses (s : State) : (drawn s).fuses = s.fuses := rfl
@[simp] theorem drawn_pins (s : State) : (drawn s).pins = s.pins := rfl
@[simp] theorem drawn_power (s : State) : (drawn s).power = s.power := rfl
@[simp] theorem drawn_boot (s : State) : (drawn s).boot = s.boot := rfl
@[simp] theorem drawn_flash (s : State) : (drawn s).flash = s.flash := rfl
@[simp] theorem drawn_tb (s : State) : (drawn s).tb = s.tb := rfl
@[simp] theorem drawn_regs (s : State) : (drawn s).regs = s.regs := rfl
@[simp] theorem drawn_port (s : State) : (drawn s).port = s.port := rfl
@[simp] theorem drawn_ingress (s : State) : (drawn s).ingress = s.ingress := rfl
@[simp] theorem drawn_belay (s : State) : (drawn s).belay = s.belay := rfl
@[simp] theorem drawn_cfg (s : State) : (drawn s).cfg = s.cfg := rfl
@[simp] theorem drawn_lines (s : State) : (drawn s).lines = s.lines := rfl
@[simp] theorem drawn_hitches (s : State) : (drawn s).hitches = s.hitches := rfl
@[simp] theorem drawn_lineArb (s : State) : (drawn s).lineArb = s.lineArb := rfl
@[simp] theorem drawn_braidArb (s : State) : (drawn s).braidArb = s.braidArb := rfl
@[simp] theorem drawn_vecArb (s : State) : (drawn s).vecArb = s.vecArb := rfl
@[simp] theorem drawn_splArb (s : State) : (drawn s).splArb = s.splArb := rfl
@[simp] theorem drawn_strands (s : State) : (drawn s).strands = s.strands := rfl
@[simp] theorem drawn_mem (s : State) : (drawn s).mem = s.mem := rfl
@[simp] theorem drawn_tiers (s : State) : (drawn s).tiers = s.tiers := rfl
@[simp] theorem drawn_eng (s : State) : (drawn s).eng = s.eng := rfl
@[simp] theorem drawn_refresh (s : State) : (drawn s).refresh = s.refresh := rfl
@[simp] theorem drawn_stackSt (s : State) : (drawn s).stackSt = s.stackSt := rfl
@[simp] theorem drawn_gov (s : State) : (drawn s).gov = s.gov := rfl
@[simp] theorem drawn_net (s : State) : (drawn s).net = s.net := rfl
@[simp] theorem drawn_wfc (s : State) : (drawn s).wfc = s.wfc := rfl
@[simp] theorem drawn_pmu (s : State) : (drawn s).pmu = s.pmu := rfl

@[simp] theorem withAct_pending (s : State) (m : SMap W32) : (withAct s m).pending = s.pending := rfl
@[simp] theorem withAct_free (s : State) (m : SMap W32) : (withAct s m).free = s.free := rfl
@[simp] theorem withAct_clk (s : State) (m : SMap W32) : (withAct s m).clk = s.clk := rfl
@[simp] theorem withAct_fuses (s : State) (m : SMap W32) : (withAct s m).fuses = s.fuses := rfl
@[simp] theorem withAct_pins (s : State) (m : SMap W32) : (withAct s m).pins = s.pins := rfl
@[simp] theorem withAct_power (s : State) (m : SMap W32) : (withAct s m).power = s.power := rfl
@[simp] theorem withAct_boot (s : State) (m : SMap W32) : (withAct s m).boot = s.boot := rfl
@[simp] theorem withAct_flash (s : State) (m : SMap W32) : (withAct s m).flash = s.flash := rfl
@[simp] theorem withAct_tb (s : State) (m : SMap W32) : (withAct s m).tb = s.tb := rfl
@[simp] theorem withAct_regs (s : State) (m : SMap W32) : (withAct s m).regs = s.regs := rfl
@[simp] theorem withAct_port (s : State) (m : SMap W32) : (withAct s m).port = s.port := rfl
@[simp] theorem withAct_ingress (s : State) (m : SMap W32) : (withAct s m).ingress = s.ingress := rfl
@[simp] theorem withAct_belay (s : State) (m : SMap W32) : (withAct s m).belay = s.belay := rfl
@[simp] theorem withAct_lines (s : State) (m : SMap W32) : (withAct s m).lines = s.lines := rfl
@[simp] theorem withAct_hitches (s : State) (m : SMap W32) : (withAct s m).hitches = s.hitches := rfl
@[simp] theorem withAct_lineArb (s : State) (m : SMap W32) : (withAct s m).lineArb = s.lineArb := rfl
@[simp] theorem withAct_braidArb (s : State) (m : SMap W32) : (withAct s m).braidArb = s.braidArb := rfl
@[simp] theorem withAct_vecArb (s : State) (m : SMap W32) : (withAct s m).vecArb = s.vecArb := rfl
@[simp] theorem withAct_splArb (s : State) (m : SMap W32) : (withAct s m).splArb = s.splArb := rfl
@[simp] theorem withAct_strands (s : State) (m : SMap W32) : (withAct s m).strands = s.strands := rfl
@[simp] theorem withAct_mem (s : State) (m : SMap W32) : (withAct s m).mem = s.mem := rfl
@[simp] theorem withAct_tiers (s : State) (m : SMap W32) : (withAct s m).tiers = s.tiers := rfl
@[simp] theorem withAct_eng (s : State) (m : SMap W32) : (withAct s m).eng = s.eng := rfl
@[simp] theorem withAct_refresh (s : State) (m : SMap W32) : (withAct s m).refresh = s.refresh := rfl
@[simp] theorem withAct_stackSt (s : State) (m : SMap W32) : (withAct s m).stackSt = s.stackSt := rfl
@[simp] theorem withAct_gov (s : State) (m : SMap W32) : (withAct s m).gov = s.gov := rfl
@[simp] theorem withAct_net (s : State) (m : SMap W32) : (withAct s m).net = s.net := rfl
@[simp] theorem withAct_wfc (s : State) (m : SMap W32) : (withAct s m).wfc = s.wfc := rfl
@[simp] theorem withAct_pmu (s : State) (m : SMap W32) : (withAct s m).pmu = s.pmu := rfl

@[simp] theorem drainPosted_pending (s : State) (p : Posted → Bool) : (drainPosted s p).pending = s.pending := rfl
@[simp] theorem drainPosted_free (s : State) (p : Posted → Bool) : (drainPosted s p).free = s.free := rfl
@[simp] theorem drainPosted_clk (s : State) (p : Posted → Bool) : (drainPosted s p).clk = s.clk := rfl
@[simp] theorem drainPosted_fuses (s : State) (p : Posted → Bool) : (drainPosted s p).fuses = s.fuses := rfl
@[simp] theorem drainPosted_pins (s : State) (p : Posted → Bool) : (drainPosted s p).pins = s.pins := rfl
@[simp] theorem drainPosted_power (s : State) (p : Posted → Bool) : (drainPosted s p).power = s.power := rfl
@[simp] theorem drainPosted_boot (s : State) (p : Posted → Bool) : (drainPosted s p).boot = s.boot := rfl
@[simp] theorem drainPosted_flash (s : State) (p : Posted → Bool) : (drainPosted s p).flash = s.flash := rfl
@[simp] theorem drainPosted_tb (s : State) (p : Posted → Bool) : (drainPosted s p).tb = s.tb := rfl
@[simp] theorem drainPosted_regs (s : State) (p : Posted → Bool) : (drainPosted s p).regs = s.regs := rfl
@[simp] theorem drainPosted_port (s : State) (p : Posted → Bool) : (drainPosted s p).port = s.port := rfl
@[simp] theorem drainPosted_ingress (s : State) (p : Posted → Bool) : (drainPosted s p).ingress = s.ingress := rfl
@[simp] theorem drainPosted_belay (s : State) (p : Posted → Bool) : (drainPosted s p).belay = s.belay := rfl
@[simp] theorem drainPosted_cfg (s : State) (p : Posted → Bool) : (drainPosted s p).cfg = s.cfg := rfl
@[simp] theorem drainPosted_lines (s : State) (p : Posted → Bool) : (drainPosted s p).lines = s.lines := rfl
@[simp] theorem drainPosted_hitches (s : State) (p : Posted → Bool) : (drainPosted s p).hitches = s.hitches := rfl
@[simp] theorem drainPosted_lineArb (s : State) (p : Posted → Bool) : (drainPosted s p).lineArb = s.lineArb := rfl
@[simp] theorem drainPosted_braidArb (s : State) (p : Posted → Bool) : (drainPosted s p).braidArb = s.braidArb := rfl
@[simp] theorem drainPosted_vecArb (s : State) (p : Posted → Bool) : (drainPosted s p).vecArb = s.vecArb := rfl
@[simp] theorem drainPosted_splArb (s : State) (p : Posted → Bool) : (drainPosted s p).splArb = s.splArb := rfl
@[simp] theorem drainPosted_strands (s : State) (p : Posted → Bool) : (drainPosted s p).strands = s.strands := rfl
@[simp] theorem drainPosted_tiers (s : State) (p : Posted → Bool) : (drainPosted s p).tiers = s.tiers := rfl
@[simp] theorem drainPosted_eng (s : State) (p : Posted → Bool) : (drainPosted s p).eng = s.eng := rfl
@[simp] theorem drainPosted_refresh (s : State) (p : Posted → Bool) : (drainPosted s p).refresh = s.refresh := rfl
@[simp] theorem drainPosted_stackSt (s : State) (p : Posted → Bool) : (drainPosted s p).stackSt = s.stackSt := rfl
@[simp] theorem drainPosted_gov (s : State) (p : Posted → Bool) : (drainPosted s p).gov = s.gov := rfl
@[simp] theorem drainPosted_net (s : State) (p : Posted → Bool) : (drainPosted s p).net = s.net := rfl
@[simp] theorem drainPosted_wfc (s : State) (p : Posted → Bool) : (drainPosted s p).wfc = s.wfc := rfl
@[simp] theorem drainPosted_pmu (s : State) (p : Posted → Bool) : (drainPosted s p).pmu = s.pmu := rfl

@[simp] theorem postedFinal_pending (s : State) (n seq : Nat) : (postedFinal s n seq).pending = s.pending := rfl
@[simp] theorem postedFinal_free (s : State) (n seq : Nat) : (postedFinal s n seq).free = s.free := rfl
@[simp] theorem postedFinal_clk (s : State) (n seq : Nat) : (postedFinal s n seq).clk = s.clk := rfl
@[simp] theorem postedFinal_fuses (s : State) (n seq : Nat) : (postedFinal s n seq).fuses = s.fuses := rfl
@[simp] theorem postedFinal_pins (s : State) (n seq : Nat) : (postedFinal s n seq).pins = s.pins := rfl
@[simp] theorem postedFinal_power (s : State) (n seq : Nat) : (postedFinal s n seq).power = s.power := rfl
@[simp] theorem postedFinal_boot (s : State) (n seq : Nat) : (postedFinal s n seq).boot = s.boot := rfl
@[simp] theorem postedFinal_flash (s : State) (n seq : Nat) : (postedFinal s n seq).flash = s.flash := rfl
@[simp] theorem postedFinal_tb (s : State) (n seq : Nat) : (postedFinal s n seq).tb = s.tb := rfl
@[simp] theorem postedFinal_regs (s : State) (n seq : Nat) : (postedFinal s n seq).regs = s.regs := rfl
@[simp] theorem postedFinal_port (s : State) (n seq : Nat) : (postedFinal s n seq).port = s.port := rfl
@[simp] theorem postedFinal_ingress (s : State) (n seq : Nat) : (postedFinal s n seq).ingress = s.ingress := rfl
@[simp] theorem postedFinal_belay (s : State) (n seq : Nat) : (postedFinal s n seq).belay = s.belay := rfl
@[simp] theorem postedFinal_cfg (s : State) (n seq : Nat) : (postedFinal s n seq).cfg = s.cfg := rfl
@[simp] theorem postedFinal_lines (s : State) (n seq : Nat) : (postedFinal s n seq).lines = s.lines := rfl
@[simp] theorem postedFinal_hitches (s : State) (n seq : Nat) : (postedFinal s n seq).hitches = s.hitches := rfl
@[simp] theorem postedFinal_lineArb (s : State) (n seq : Nat) : (postedFinal s n seq).lineArb = s.lineArb := rfl
@[simp] theorem postedFinal_braidArb (s : State) (n seq : Nat) : (postedFinal s n seq).braidArb = s.braidArb := rfl
@[simp] theorem postedFinal_vecArb (s : State) (n seq : Nat) : (postedFinal s n seq).vecArb = s.vecArb := rfl
@[simp] theorem postedFinal_splArb (s : State) (n seq : Nat) : (postedFinal s n seq).splArb = s.splArb := rfl
@[simp] theorem postedFinal_strands (s : State) (n seq : Nat) : (postedFinal s n seq).strands = s.strands := rfl
@[simp] theorem postedFinal_tiers (s : State) (n seq : Nat) : (postedFinal s n seq).tiers = s.tiers := rfl
@[simp] theorem postedFinal_eng (s : State) (n seq : Nat) : (postedFinal s n seq).eng = s.eng := rfl
@[simp] theorem postedFinal_refresh (s : State) (n seq : Nat) : (postedFinal s n seq).refresh = s.refresh := rfl
@[simp] theorem postedFinal_stackSt (s : State) (n seq : Nat) : (postedFinal s n seq).stackSt = s.stackSt := rfl
@[simp] theorem postedFinal_gov (s : State) (n seq : Nat) : (postedFinal s n seq).gov = s.gov := rfl
@[simp] theorem postedFinal_net (s : State) (n seq : Nat) : (postedFinal s n seq).net = s.net := rfl
@[simp] theorem postedFinal_wfc (s : State) (n seq : Nat) : (postedFinal s n seq).wfc = s.wfc := rfl
@[simp] theorem postedFinal_pmu (s : State) (n seq : Nat) : (postedFinal s n seq).pmu = s.pmu := rfl

@[simp] theorem lineGet_lineSet_self (s : State) (k : Nat) (x : Line) : lineGet (lineSet s k x) k = x :=
  mapGet_mapSet_self Line.reset _ k x

theorem lineGet_lineSet_ne (s : State) (k j : Nat) (x : Line) (h : j ≠ k) : lineGet (lineSet s k x) j = lineGet s j :=
  mapGet_mapSet_ne Line.reset _ k j x h

@[simp] theorem stackGet_stackSet_self (s : State) (k : Nat) (x : StackSt) : stackGet (stackSet s k x) k = x :=
  mapGet_mapSet_self StackSt.reset _ k x

theorem stackGet_stackSet_ne (s : State) (k j : Nat) (x : StackSt) (h : j ≠ k) : stackGet (stackSet s k x) j = stackGet s j :=
  mapGet_mapSet_ne StackSt.reset _ k j x h

@[simp] theorem strandGet_strandSet_self (s : State) (k : Nat) (x : Strand) : strandGet (strandSet s k x) k = x :=
  mapGet_mapSet_self Strand.reset _ k x

theorem strandGet_strandSet_ne (s : State) (k j : Nat) (x : Strand) (h : j ≠ k) : strandGet (strandSet s k x) j = strandGet s j :=
  mapGet_mapSet_ne Strand.reset _ k j x h

@[simp] theorem bankGet_bankSet_self (s : State) (k : Nat) (x : Bank) : bankGet (bankSet s k x) k = x :=
  mapGet_mapSet_self Bank.reset _ k x

theorem bankGet_bankSet_ne (s : State) (k j : Nat) (x : Bank) (h : j ≠ k) : bankGet (bankSet s k x) j = bankGet s j :=
  mapGet_mapSet_ne Bank.reset _ k j x h

@[simp] theorem splGet_splSet_self (s : State) (k : Nat) (x : Splicer) : splGet (splSet s k x) k = x :=
  mapGet_mapSet_self Splicer.reset _ k x

theorem splGet_splSet_ne (s : State) (k j : Nat) (x : Splicer) (h : j ≠ k) : splGet (splSet s k x) j = splGet s j :=
  mapGet_mapSet_ne Splicer.reset _ k j x h

@[simp] theorem refreshGet_refreshSet_self (s : State) (k : Nat) (x : Refresh) : refreshGet (refreshSet s k x) k = x :=
  mapGet_mapSet_self Refresh.reset _ k x

theorem refreshGet_refreshSet_ne (s : State) (k j : Nat) (x : Refresh) (h : j ≠ k) : refreshGet (refreshSet s k x) j = refreshGet s j :=
  mapGet_mapSet_ne Refresh.reset _ k j x h

@[simp] theorem linkGet_linkSet_self (s : State) (k : Nat) (x : Link) : linkGet (linkSet s k x) k = x :=
  mapGet_mapSet_self Link.reset _ k x

theorem linkGet_linkSet_ne (s : State) (k j : Nat) (x : Link) (h : j ≠ k) : linkGet (linkSet s k x) j = linkGet s j :=
  mapGet_mapSet_ne Link.reset _ k j x h

@[simp] theorem peerGet_peerSet_self (s : State) (k : Nat) (x : Peer) : peerGet (peerSet s k x) k = x :=
  mapGet_mapSet_self Peer.reset _ k x

theorem peerGet_peerSet_ne (s : State) (k j : Nat) (x : Peer) (h : j ≠ k) : peerGet (peerSet s k x) j = peerGet s j :=
  mapGet_mapSet_ne Peer.reset _ k j x h

/-- A hitch's count after an addition (R278). -/
@[simp] theorem hitchAdd_count (s : State) (h : Nat) (add : W32) (by_ : Option Nat) :
    (hitchGet (hitchAdd s h add by_) h).count = (hitchGet s h).count + add := by
  simp [hitchAdd, hitchGet, mapGet_mapSet_self]

/-- Every other hitch keeps its count and its last signaller. -/
theorem hitchAdd_ne (s : State) (h j : Nat) (add : W32) (by_ : Option Nat) (hj : j ≠ h) :
    hitchGet (hitchAdd s h add by_) j = hitchGet s j :=
  mapGet_mapSet_ne Hitch.reset _ h j _ hj

/-- A home-table entry read back after it was set (R151). -/
@[simp] theorem htGet_htSet_self (s : State) (name : Nat) (e : HtEntry) : htGet (htSet s name e) name = e := by
  simp only [htGet, htSet, mapFind_mapUpd_self]
  split
  · rename_i h
    exact h.symm
  · rfl

theorem htGet_htSet_ne (s : State) (name b : Nat) (e : HtEntry) (h : b ≠ name) : htGet (htSet s name e) b = htGet s b := by
  simp only [htGet, htSet, mapFind_mapUpd_ne _ _ _ _ h]

/-- An update that leaves the lines alone leaves every line. -/
theorem lineGet_congr {s t : State} (h : t.lines = s.lines) (n : Nat) : lineGet t n = lineGet s n := by
  rw [lineGet, lineGet, h]

theorem hitchGet_congr {s t : State} (h : t.hitches = s.hitches) (n : Nat) : hitchGet t n = hitchGet s n := by
  rw [hitchGet, hitchGet, h]

/-- The operation's entry after it was set: the entry with its sequence number. -/
theorem lineGet_opSet (s : State) (n : Nat) (o : OpEnt) :
    lineGet (opSet s n o) n = { lineGet s n with ops := (lineGet s n).ops.map (fun x => if x.seq = o.seq then o else x) } := by
  simp [opSet]

theorem lineGet_opDrop (s : State) (n seq : Nat) :
    lineGet (opDrop s n seq) n = { lineGet s n with ops := (lineGet s n).ops.filter (fun x => x.seq != seq) } := by
  simp [opDrop]

/-- An operation that is in flight is found after its entry is set. -/
theorem opFind_opSet (s : State) (n : Nat) (o : OpEnt) (h : ∃ x ∈ (lineGet s n).ops, x.seq = o.seq) :
    opFind (opSet s n o) n o.seq = some o := by
  rw [opFind, lineGet_opSet]
  obtain ⟨x, hx, hs⟩ := h
  generalize (lineGet s n).ops = l at hx
  induction l with
  | nil => cases hx
  | cons a l ih =>
    rw [List.map_cons, List.find?_cons]
    by_cases ha : a.seq = o.seq
    · simp [ha]
    · rcases List.mem_cons.1 hx with rfl | hx
      · exact absurd hs ha
      · simpa [ha] using ih hx

/-- An operation that has left the tracker is not found. -/
theorem opFind_opDrop (s : State) (n seq : Nat) : opFind (opDrop s n seq) n seq = none := by
  rw [opFind, lineGet_opDrop]
  simp

end Sys2Proof.Machine
end

