-- ==== Sys2Proof/Laws/Finish.lean ====
section
/-! SUPPORT. What the end of an operation does, said once: its final record, the tracker, the signal and the stop. -/

set_option Elab.async false

namespace Sys2Proof.Machine

open Sys2Proof

theorem bytesOf_length (n v : Nat) : (bytesOf n v).length = n := by
  induction n generalizing v with
  | zero => rfl
  | succ n ih => simp [bytesOf, ih]

theorem fitBytes_length (n : Nat) (bs : List Byte) : (fitBytes n bs).length = n := by
  simp [fitBytes]
  omega

theorem recordBytes_length (seq status : Nat) (flags : Byte) (epoch : BitVec 16) (ts : W64) (opb : List Byte) :
    (recordBytes seq status flags epoch ts opb).length = 32 := by
  simp [recordBytes, bytesOf_length, fitBytes_length]

/-- The run of bytes at a device address that stays within its home block is one piece. -/
theorem pieces_one (a : Nat) (bs : List Byte) (hn : bs ≠ []) (h : a % blockBytes + bs.length ≤ blockBytes) : pieces a bs = [(a, bs)] := by
  have hl : bs.length ≤ blockBytes - a % blockBytes := by omega
  have he : bs.isEmpty = false := by simpa using hn
  have hd : (bs.drop (blockBytes - a % blockBytes)).isEmpty = true := by simp [List.drop_eq_nil_of_le hl]
  rw [pieces, show bs.length / blockBytes + 2 = (bs.length / blockBytes + 1) + 1 from rfl, blockPieces, he]
  simp only [Bool.false_eq_true, if_false]
  rw [List.take_of_length_le hl, blockPieces, hd]
  rfl

/-- A byte below the host tier reads as the byte map holds it. -/
theorem rawByte_local (s : State) (a : Nat) (h : a < hostFrames) : rawByte s a = mapGet 0 s.mem.bytes a := if_pos h

/-- No posted write covers any byte of a run. -/
def uncovered (s : State) (fa n : Nat) : Prop := ∀ p ∈ s.mem.posted, fa + n ≤ p.addr ∨ p.addr + p.bytes.length ≤ fa

theorem rawSlotOf_kern (m : SMap W32) (v : Variant) (fa : Nat) (h : fa < mantleBase) : rawSlotOf m v fa = none := by
  simp [rawSlotOf, h]

theorem parityAddr_kern (m : SMap W32) (v : Variant) (fa : Nat) (h : fa < mantleBase) : parityAddr m v fa = none := by
  rw [parityAddr, rawSlotOf_kern m v fa h]
  rfl

/-- What a write of one byte to a kern frame that no posted write covers leaves of memory. -/
def memAfterByte (m : Mem) (fa : Nat) (b : Byte) : Mem :=
  { m with bytes := mapSet 0 m.bytes fa b, ahead := m.ahead.filter (fun l => l.1 != fa / 64 * 64) }

/-- A posted write that does not cover a byte keeps what stood before it. -/
theorem under_uncovered (fa : Nat) (b : Byte) (ps : List Posted) (h : ∀ p ∈ ps, ¬ (p.addr ≤ fa ∧ fa < p.addr + p.bytes.length)) :
    ps.map (Posted.under fa b) = ps := by
  refine (List.map_congr_left (fun p hp => ?_)).trans (List.map_id ps)
  have := h p hp
  simp only [Posted.under, Posted.covers, Bool.and_eq_true, decide_eq_true_eq, this, if_false, id]

/-- A write of one byte to a kern frame that no posted write covers. -/
theorem writeByte_kern (s : State) (fa : Nat) (b : Byte) (h : fa < mantleBase) (hp : ∀ p ∈ s.mem.posted, ¬ (p.addr ≤ fa ∧ fa < p.addr + p.bytes.length)) :
    writeByte s fa b = { s with mem := memAfterByte s.mem fa b } := by
  have hc : (s.mem.posted.any (fun p => p.covers fa)) = false := by
    simp only [List.any_eq_false, Posted.covers, Bool.and_eq_true, decide_eq_true_eq]
    exact hp
  have hh : fa < hostFrames := Nat.lt_trans h (by decide)
  unfold writeByte
  simp only [hc, Bool.false_and, Bool.false_eq_true, if_false]
  rw [parityAddr_kern _ _ _ h, putByte, if_pos hh, under_uncovered fa b _ hp]
  rfl

/-- What a run of bytes written to kern frames leaves: the new bytes in place, every other byte as before. -/
theorem writeBytes_kern (bs : List Byte) (s : State) (fa : Nat) (h : fa + bs.length ≤ mantleBase) (hp : uncovered s fa bs.length) :
    (writeBytes s fa bs).mem.posted = s.mem.posted ∧ (writeBytes s fa bs).mem.host = s.mem.host ∧
    (writeBytes s fa bs).cfg = s.cfg ∧
    (∀ i, i < bs.length → mapGet 0 (writeBytes s fa bs).mem.bytes (fa + i) = bs.getD i 0) ∧
    (∀ a, ¬ (fa ≤ a ∧ a < fa + bs.length) → mapGet 0 (writeBytes s fa bs).mem.bytes a = mapGet 0 s.mem.bytes a) := by
  induction bs generalizing s fa with
  | nil => simp [writeBytes]
  | cons b bs ih =>
    rw [List.length_cons] at h hp
    have hw : writeByte s fa b = { s with mem := memAfterByte s.mem fa b } :=
      writeByte_kern s fa b (by omega) (fun p hpm hx => by have := hp p hpm; omega)
    rw [writeBytes, hw]
    obtain ⟨h1, h2, h3, h4, h5⟩ := ih { s with mem := memAfterByte s.mem fa b }
      (fa + 1) (by omega) (fun p hpm => by have := hp p hpm; omega)
    refine ⟨h1, h2, h3, fun i hi => ?_, fun a ha => ?_⟩
    · cases i with
      | zero =>
        rw [h5 (fa + 0) (by omega)]
        exact mapGet_mapSet_self 0 _ _ _
      | succ i =>
        have := h4 i (by rw [List.length_cons] at hi; omega)
        rw [show fa + (i + 1) = fa + 1 + i by omega, this]
        rfl
    · rw [List.length_cons] at ha
      rw [h5 a (by omega)]
      exact mapGet_mapSet_ne 0 _ _ _ _ (by omega)

/-- Everything that rawByte depends on. -/
theorem rawByte_congr {s t : State} (hb : ∀ a, mapGet 0 t.mem.bytes a = mapGet 0 s.mem.bytes a) (hh : t.mem.host = s.mem.host)
    (hc : t.cfg = s.cfg) (a : Nat) : rawByte t a = rawByte s a := by
  rw [rawByte, rawByte, hb a, hh, hc]

theorem rawByte_frame {s t : State} (hm : t.mem = s.mem) (hc : t.cfg = s.cfg) (a : Nat) : rawByte t a = rawByte s a :=
  rawByte_congr (fun _ => by rw [hm]) (by rw [hm]) hc a

theorem syncChafe_mem (s : State) (name : Nat) : (syncChafe s name).mem = s.mem := (syncChafe_keeps s name).only .mem (by decide)

theorem syncChafe_cfg (s : State) (name : Nat) : (syncChafe s name).cfg = s.cfg := (syncChafe_keeps s name).only .cfg (by decide)

/-- The marks of a block followed (R156): the entry keeps its account, and nothing else of the tiers changes. -/
theorem syncChafe_tiers (s : State) (name : Nat) :
    (syncChafe s name).tiers.moves = s.tiers.moves ∧ (syncChafe s name).tiers.mergeHeld = s.tiers.mergeHeld ∧
    ∀ b, (htGet (syncChafe s name) b).account = (htGet s b).account := by
  have hset : ∀ e : HtEntry, e.account = (htGet s name).account → (htSet s name e).tiers.moves = s.tiers.moves ∧
      (htSet s name e).tiers.mergeHeld = s.tiers.mergeHeld ∧ ∀ b, (htGet (htSet s name e) b).account = (htGet s b).account := by
    intro e he
    refine ⟨rfl, rfl, fun b => ?_⟩
    by_cases hb : b = name
    · rw [hb, htGet_htSet_self, he]
    · rw [htGet_htSet_ne _ _ _ _ hb]
  have hid : s.tiers.moves = s.tiers.moves ∧ s.tiers.mergeHeld = s.tiers.mergeHeld ∧ ∀ b, (htGet s b).account = (htGet s b).account :=
    ⟨rfl, rfl, fun _ => rfl⟩
  unfold syncChafe
  extract_lets e marked
  split
  · split
    · exact hset _ rfl
    · exact hid
  · split
    · exact hset _ rfl
    · exact hid
  · split
    · exact hid
    · exact hset _ rfl
  · exact hid

/-- Writes held for an account depend on the moves, the merges and the accounts of the blocks alone. -/
theorem heldBlocks_congr {s t : State} (hm : t.tiers.moves = s.tiers.moves) (hh : t.tiers.mergeHeld = s.tiers.mergeHeld)
    (ha : ∀ b, (htGet t b).account = (htGet s b).account) (acct : Nat) : heldBlocks t acct = heldBlocks s acct := by
  simp only [heldBlocks, hm, hh, ha]

theorem heldBlocks_same {s t : State} (ht : t.tiers = s.tiers) (hc : t.cfg = s.cfg) (hf : t.fuses = s.fuses) (acct : Nat) :
    heldBlocks t acct = heldBlocks s acct :=
  heldBlocks_congr (by rw [ht]) (by rw [ht]) (fun b => by rw [htGet, htGet, ht, hc, hf]) acct

/-- What a record written within one HOME block of kern is: its bytes stored there, and the marks of the block followed. -/
theorem putRecord_kern (s : State) (a : Nat) (bs : List Byte) (hn : bs ≠ []) (hb : a % blockBytes + bs.length ≤ blockBytes)
    (hr : regionOf s.fuses.variant a = .kern) (hs : (htGet s (blockNo a)).state = .home) (ht : (htGet s (blockNo a)).tier = .kern)
    (hm : s.tiers.merging.contains (blockNo a) = false) :
    putRecord s a bs = syncChafe (storeAt s (frameAddr (htGet s (blockNo a)) a) bs false) (blockNo a) := by
  rw [putRecord, devWriteAs, pieces_one a bs hn hb]
  simp only [List.foldl_cons, List.foldl_nil]
  have hm' : blockNo a ∉ s.tiers.merging := by simpa using hm
  unfold writePiece
  simp only [hr, hs]
  simp [ht, hm', tierWrite, frameWrite]

/-- What a record written within one HOME block of kern leaves of memory, and that it changes no held write. -/
theorem putRecord_spec (s : State) (a : Nat) (bs : List Byte) (hn : bs ≠ []) (hb : a % blockBytes + bs.length ≤ blockBytes)
    (hr : regionOf s.fuses.variant a = .kern) (hs : (htGet s (blockNo a)).state = .home) (ht : (htGet s (blockNo a)).tier = .kern)
    (hm : s.tiers.merging.contains (blockNo a) = false)
    (hf : frameAddr (htGet s (blockNo a)) a + bs.length ≤ mantleBase) (hp : uncovered s (frameAddr (htGet s (blockNo a)) a) bs.length) :
    (∀ i, i < bs.length → rawByte (putRecord s a bs) (frameAddr (htGet s (blockNo a)) a + i) = bs.getD i 0) ∧
    (∀ x, ¬ (frameAddr (htGet s (blockNo a)) a ≤ x ∧ x < frameAddr (htGet s (blockNo a)) a + bs.length) →
      rawByte (putRecord s a bs) x = rawByte s x) ∧
    (putRecord s a bs).lines = s.lines ∧ ∀ acct, heldBlocks (putRecord s a bs) acct = heldBlocks s acct := by
  obtain ⟨h1, h2, h3, h4, h5⟩ := writeBytes_kern bs s (frameAddr (htGet s (blockNo a)) a) hf hp
  have hw := putRecord_kern s a bs hn hb hr hs ht hm
  have hst : ∀ x, rawByte (putRecord s a bs) x = rawByte (writeBytes s (frameAddr (htGet s (blockNo a)) a) bs) x := by
    intro x
    rw [hw]
    refine rawByte_congr (fun y => ?_) ?_ ?_ x
    · rw [syncChafe_mem]; rfl
    · rw [syncChafe_mem]; rfl
    · rw [syncChafe_cfg]; rfl
  refine ⟨fun i hi => ?_, fun x hx => ?_, ?_, fun acct => ?_⟩
  · rw [hst, rawByte_local _ _ (Nat.lt_of_lt_of_le (Nat.add_lt_add_left hi _) (Nat.le_trans hf (by decide)))]
    exact h4 i hi
  · rw [hst]
    by_cases hh : x < hostFrames
    · rw [rawByte_local _ _ hh, rawByte_local _ _ hh, h5 x hx]
    · rw [rawByte, rawByte, if_neg hh, if_neg hh, h2, h3]
  · rw [hw]
    exact ((syncChafe_keeps _ _).only .lines (by decide)).trans ((storeAt_keeps s _ bs false).only .lines (by decide))
  · obtain ⟨t1, t2, t3⟩ := syncChafe_tiers (storeAt s (frameAddr (htGet s (blockNo a)) a) bs false) (blockNo a)
    have hk : (storeAt s (frameAddr (htGet s (blockNo a)) a) bs false).tiers = s.tiers :=
      (storeAt_keeps s _ bs false).only .tiers (by decide)
    have hc : (storeAt s (frameAddr (htGet s (blockNo a)) a) bs false).cfg = s.cfg := (storeAt_keeps s _ bs false).only .cfg (by decide)
    have hu : (storeAt s (frameAddr (htGet s (blockNo a)) a) bs false).fuses = s.fuses :=
      (storeAt_keeps s _ bs false).only .fuses (by decide)
    rw [hw]
    generalize storeAt s (frameAddr (htGet s (blockNo a)) a) bs false = q at t1 t2 t3 hk hc hu ⊢
    refine heldBlocks_congr (by rw [t1, hk]) (by rw [t2, hk]) (fun b => ?_) acct
    rw [t3, htGet, htGet, hk, hc, hu]

/-- What noting a line leaves of it: everything but the noted state, its time and the take request. -/
theorem noteLine_line (s : State) (n : Nat) :
    ∃ seen since ready, lineGet (noteLine s n) n = { lineGet s n with seen := seen, since := since, takeReady := ready } := by
  unfold noteLine
  dsimp only
  split
  · rename_i h
    exact ⟨_, _, _, lineGet_lineSet_self ..⟩
  · split
    · exact ⟨_, _, _, (lineGet_congr ((sendVec_keeps _ _).only .lines (by decide)) n).trans (lineGet_lineSet_self ..)⟩
    · exact ⟨_, _, _, lineGet_lineSet_self ..⟩

theorem noteLine_line_ne (s : State) (n m : Nat) (h : m ≠ n) : lineGet (noteLine s n) m = lineGet s m := by
  unfold noteLine
  dsimp only
  split
  · exact lineGet_lineSet_ne _ _ _ _ h
  · split
    · rw [lineGet_congr ((sendVec_keeps _ _).only .lines (by decide))]
      exact lineGet_lineSet_ne _ _ _ _ h
    · exact lineGet_lineSet_ne _ _ _ _ h

/-! ### Final records -/

theorem recordOpen_iff (s : State) (n : Nat) (h : recordOpen s n = true) :
    (regionOf s.fuses.variant (recordAt s n) = .kern ∧ (htGet s (blockNo (recordAt s n))).state = .home ∧
      (htGet s (blockNo (recordAt s n))).tier = .kern ∧ s.tiers.merging.contains (blockNo (recordAt s n)) = false) ∧
      recordFrame s n + 32 ≤ mantleBase ∧ uncovered s (recordFrame s n) 32 ∧ heldBlocks s (lineAcct s n) = [] ∧ s.port.flrAt = none := by
  simp only [recordOpen, Bool.and_eq_true, decide_eq_true_eq, List.all_eq_true, Bool.or_eq_true, Option.isNone_iff_eq_none,
    List.isEmpty_iff, Bool.not_eq_true'] at h
  exact ⟨⟨h.1.1.1.1.1.1.1, h.1.1.1.1.1.1.2, h.1.1.1.1.1.2, h.1.1.1.1.2⟩, h.1.1.1.2, h.1.2, h.1.1.2, h.2⟩

/-- The lines, the held writes and memory after a record is written at CQ_TAIL. -/
theorem writeRecord_spec (s : State) (n : Nat) (r : List Byte) (hl : r.length = 32) (h : recordOpen s n = true) :
    (∀ i, i < 32 → rawByte (writeRecord s n r) (recordFrame s n + i) = r.getD i 0) ∧
    (∀ a, ¬ (recordFrame s n ≤ a ∧ a < recordFrame s n + 32) → rawByte (writeRecord s n r) a = rawByte s a) ∧
    lineGet (writeRecord s n r) n = { lineGet s n with cqTail := ((lineGet s n).cqTail + 1) % cqSize s n } ∧
    (∀ m, m ≠ n → lineGet (writeRecord s n r) m = lineGet s m) ∧
    heldBlocks (writeRecord s n r) (lineAcct s n) = [] := by
  obtain ⟨⟨h1, h2, h2t, h2m⟩, h3, h4, h5, -⟩ := recordOpen_iff s n h
  have ha : recordAt s n % blockBytes + r.length ≤ blockBytes := by
    have : recordAt s n % 32 = 0 := by rw [recordAt]; omega
    have hb : blockBytes = 65536 := rfl
    rw [hl, hb]
    omega
  have hne : r ≠ [] := by intro hr; simp [hr] at hl
  have hsp := putRecord_spec s (recordAt s n) r hne ha h1 h2 h2t h2m (by rw [hl]; exact h3) (by rw [hl]; exact h4)
  rw [hl] at hsp
  have hlines := hsp.2.2.1
  have hw : writeRecord s n r = lineSet (putRecord s (recordAt s n) r) n
      { lineGet (putRecord s (recordAt s n) r) n with cqTail := ((lineGet s n).cqTail + 1) % cqSize s n } := by
    rw [writeRecord]
    rfl
  have hraw : ∀ a, rawByte (writeRecord s n r) a = rawByte (putRecord s (recordAt s n) r) a := by
    intro a
    rw [hw]
    exact rawByte_frame (lineSet_mem ..) (lineSet_cfg ..) a
  refine ⟨fun i hi => ?_, fun a hx => ?_, ?_, fun m hm => ?_, ?_⟩
  · rw [hraw]; exact hsp.1 i hi
  · rw [hraw]; exact hsp.2.1 a hx
  · rw [hw, lineGet_lineSet_self, lineGet_congr hlines]
  · rw [hw, lineGet_lineSet_ne _ _ _ _ hm, lineGet_congr hlines]
  · rw [hw, ← h5, ← hsp.2.2.2]
    rfl

theorem stopsAfter_congr {s t : State} (h : t.cfg = s.cfg) (n c : Nat) : stopsAfter t n c = stopsAfter s n c := by
  simp only [stopsAfter, actF, h]

/-- DONE_SIG where no write of the account is held: the addition itself (R279). -/
theorem doneSig_open (s : State) (n seq h : Nat) (hh : heldBlocks s (lineAcct s n) = []) :
    doneSig s n seq h = hitchAdd (drainPosted s (fun x => x.line = n && x.seq = seq)) h 1 (some n) := by
  have he : heldBlocks (drainPosted s (fun x => x.line = n && x.seq = seq)) (lineAcct (drainPosted s (fun x => x.line = n && x.seq = seq)) n) = [] := by
    rw [← hh]
    exact heldBlocks_same rfl rfl rfl _
  rw [doneSig]
  simp only [he]

/-- The lines, the hitches and memory after what follows a final record. -/
theorem afterRecord_spec (s : State) (n seq status : Nat) (d : BitVec 512) (irq : Bool) (hh : heldBlocks s (lineAcct s n) = []) :
    (∀ a, rawByte (afterRecord s n seq status d true irq) a = rawByte s a) ∧
    lineGet (afterRecord s n seq status d true irq) n =
      { lineGet s n with stopped := (lineGet s n).stopped || stopsAfter s n status } ∧
    (∀ m, m ≠ n → lineGet (afterRecord s n seq status d true irq) m = lineGet s m) ∧
    (∀ h, (hitchGet (afterRecord s n seq status d true irq) h).count =
      (hitchGet s h).count + (if dDoneSig d && h == dDoneHitch d then 1 else 0)) := by
  have hvec : ∃ u : State, (if irq && dIrq d then sendVec (postedFinal s n seq) (actF (postedFinal s n seq) flLineVector n)
      else postedFinal s n seq) = u ∧ u.lines = s.lines ∧ u.hitches = s.hitches ∧ u.cfg = s.cfg ∧ u.mem = (postedFinal s n seq).mem ∧
      u.tiers = s.tiers ∧ u.fuses = s.fuses := by
    refine ⟨_, rfl, ?_⟩
    split
    · have hk := (sendVec_keeps (postedFinal s n seq) (actF (postedFinal s n seq) flLineVector n)).only
      exact ⟨hk .lines (by decide), hk .hitches (by decide), hk .cfg (by decide), hk .mem (by decide), hk .tiers (by decide),
        hk .fuses (by decide)⟩
    · exact ⟨rfl, rfl, rfl, rfl, rfl, rfl⟩
  obtain ⟨u, hu, hul, huh, huc, hum, hut, huf⟩ := hvec
  have huo : heldBlocks u (lineAcct u n) = [] := by
    rw [heldBlocks_same hut huc huf, lineAcct, actF, huc]
    exact hh
  have hsig : ∃ v : State, (if true && dDoneSig d then doneSig u n seq (dDoneHitch d) else u) = v ∧ v.lines = s.lines ∧
      v.cfg = s.cfg ∧ v.mem.bytes = s.mem.bytes ∧ v.mem.host = s.mem.host ∧
      (∀ h, (hitchGet v h).count = (hitchGet s h).count + (if dDoneSig d && h == dDoneHitch d then 1 else 0)) := by
    refine ⟨_, rfl, ?_⟩
    split
    · rename_i hd
      rw [doneSig_open u n seq _ huo]
      refine ⟨hul, huc, by simp [hitchAdd, drainPosted, hum, postedFinal], by simp [hitchAdd, drainPosted, hum, postedFinal], fun h => ?_⟩
      have hd' : dDoneSig d = true := by simpa using hd
      have hg : ∀ j, hitchGet (drainPosted u (fun x => x.line = n && x.seq = seq)) j = hitchGet s j := fun j => hitchGet_congr huh j
      by_cases he : h = dDoneHitch d
      · subst he
        rw [hitchAdd_count, hg]
        simp [hd']
      · rw [hitchAdd_ne _ _ _ _ _ he, hg]
        simp [he]
    · rename_i hd
      have hd' : dDoneSig d = false := by simpa using hd
      exact ⟨hul, huc, by simp [hum, postedFinal], by simp [hum, postedFinal], fun h => by rw [hitchGet_congr huh]; simp [hd']⟩
  obtain ⟨v, hv, hvl, hvc, hvb, hvh, hvs⟩ := hsig
  have hw : afterRecord s n seq status d true irq =
      if stopsAfter v n status then lineSet v n { lineGet v n with stopped := true } else v := by
    rw [afterRecord]
    simp only [hu, hv]
  rw [hw, stopsAfter_congr hvc]
  have hraw : ∀ a, rawByte v a = rawByte s a := rawByte_congr (fun a => by rw [hvb]) hvh hvc
  split
  · rename_i hst
    refine ⟨fun a => ?_, ?_, fun m hm => ?_, hvs⟩
    · rw [← hraw a]; exact rawByte_frame (lineSet_mem ..) (lineSet_cfg ..) a
    · rw [lineGet_lineSet_self, lineGet_congr hvl, hst, Bool.or_true]
    · rw [lineGet_lineSet_ne _ _ _ _ hm, lineGet_congr hvl]
  · rename_i hst
    have hst' : stopsAfter s n status = false := by simpa using hst
    refine ⟨hraw, ?_, fun m _ => lineGet_congr hvl m, hvs⟩
    rw [lineGet_congr hvl, hst', Bool.or_false]

/-- A final record ends its operation (R273, R276, R279, R283): every clause of `Finished`. -/
theorem finalRecord_finished (s : State) (n seq status : Nat) (flags : Byte) (epoch : BitVec 16) (d : BitVec 512) (opb : List Byte)
    (irq : Bool) (h : recordOpen s n = true) :
    Finished s (finalRecord (opDrop s n seq) n seq status flags epoch d opb true irq) n seq status flags epoch d opb := by
  have hflr : (opDrop s n seq).port.flrAt = none := (recordOpen_iff s n h).2.2.2.2
  have hat : recordAt (opDrop s n seq) n = recordAt s n := by rw [recordAt, recordAt, lineGet_opDrop, actF, actF, opDrop_cfg]
  have hht : ∀ k, htGet (opDrop s n seq) k = htGet s k := fun k => by rw [htGet, htGet, opDrop_tiers, opDrop_cfg, opDrop_fuses]
  have hfr : recordFrame (opDrop s n seq) n = recordFrame s n := by rw [recordFrame, recordFrame, hat, hht]
  have ho : recordOpen (opDrop s n seq) n = true := by
    rw [← h, recordOpen, recordOpen, hat, hfr, hht, opDrop_mem, opDrop_fuses, opDrop_port, opDrop_tiers,
      heldBlocks_same (opDrop_tiers s n seq) (opDrop_cfg s n seq) (opDrop_fuses s n seq), lineAcct, lineAcct, actF, actF, opDrop_cfg]
  obtain ⟨w1, w2, w3, w4, w5⟩ := writeRecord_spec (opDrop s n seq) n
    (recordBytes seq status flags epoch (opDrop s n seq).tb.now opb) (recordBytes_length ..) ho
  generalize hq : writeRecord (opDrop s n seq) n (recordBytes seq status flags epoch (opDrop s n seq).tb.now opb) = q at w1 w2 w3 w4 w5
  have hqk := hq ▸ (writeRecord_keeps (opDrop s n seq) n (recordBytes seq status flags epoch (opDrop s n seq).tb.now opb)).only
  have hqh : q.hitches = s.hitches := hqk .hitches (by decide)
  have hqc : q.cfg = s.cfg := hqk .cfg (by decide)
  have hqo : heldBlocks q (lineAcct q n) = [] := by
    rw [← w5, lineAcct, lineAcct, actF, actF, hqc, opDrop_cfg]
  obtain ⟨a1, a2, a3, a4⟩ := afterRecord_spec q n seq status d irq hqo
  generalize hu : afterRecord q n seq status d true irq = u at a1 a2 a3 a4
  have hf : finalRecord (opDrop s n seq) n seq status flags epoch d opb true irq = noteLine u n := by
    rw [finalRecord, hflr]
    simp only [Option.isSome_none, Bool.false_eq_true, if_false]
    rw [hq, hu]
  obtain ⟨x1, x2, x3, hx⟩ := noteLine_line u n
  have hk := (noteLine_keeps u n).only
  have hraw : ∀ a, rawByte (noteLine u n) a = rawByte q a := fun a => by
    rw [← a1 a]
    exact rawByte_congr (fun _ => by rw [show (noteLine u n).mem = u.mem from hk .mem (by decide)])
      (by rw [show (noteLine u n).mem = u.mem from hk .mem (by decide)]) (hk .cfg (by decide)) a
  have hline : lineGet (noteLine u n) n = { lineGet s n with
      ops := (lineGet s n).ops.filter (fun x => x.seq != seq), cqTail := ((lineGet s n).cqTail + 1) % cqSize s n,
      stopped := (lineGet s n).stopped || stopsAfter s n status, seen := x1, since := x2, takeReady := x3 } := by
    rw [hx, a2, w3, lineGet_opDrop, stopsAfter_congr hqc]
    rfl
  rw [hf]
  have hops : (lineGet (noteLine u n) n).ops = (lineGet s n).ops.filter (fun x => x.seq != seq) := by rw [hline]
  constructor
  · rw [opFind, hops]
    simp
  · intro k hk'
    rw [opFind, opFind, hops, List.find?_filter]
    congr 1
    funext x
    by_cases hxk : x.seq = k
    · simp [hxk, hk']
    · simp [hxk]
  · intro i hi
    rw [hraw, ← hfr]
    exact w1 i hi
  · intro a ha
    rw [hraw, w2 a (by rw [hfr]; exact ha)]
    exact rawByte_frame (opDrop_mem ..) (opDrop_cfg ..) a
  · rw [hline]
  · rw [hline]
  · rw [hline]
  · rw [hline]
  · rw [hline]
  · rw [hline]
  · rw [hline]
  · rw [hline]
  · intro m hm
    rw [noteLine_line_ne _ _ _ hm, a3 m hm, w4 m hm, opDrop, lineGet_lineSet_ne _ _ _ _ hm]
  · intro hh
    rw [hitchGet_congr (hk .hitches (by decide)), a4, hitchGet_congr hqh]

/-- Two states that agree on what a final record rests on: configuration, lines, hitches, home table, memory and time. -/
structure SameLines (s u : State) : Prop where
  cfg : u.cfg = s.cfg
  fuses : u.fuses = s.fuses
  tb : u.tb = s.tb
  lines : u.lines = s.lines
  hitches : u.hitches = s.hitches
  tiers : u.tiers = s.tiers
  mem : u.mem = s.mem
  flr : u.port.flrAt = s.port.flrAt

theorem SameLines.recordAt {s u : State} (h : SameLines s u) (n : Nat) : recordAt u n = Machine.recordAt s n := by
  rw [Machine.recordAt, Machine.recordAt, lineGet_congr h.lines, actF, actF, h.cfg]

theorem SameLines.htGet {s u : State} (h : SameLines s u) (k : Nat) : htGet u k = Machine.htGet s k := by
  rw [Machine.htGet, Machine.htGet, h.tiers, h.cfg, h.fuses]

theorem SameLines.recordFrame {s u : State} (h : SameLines s u) (n : Nat) : recordFrame u n = Machine.recordFrame s n := by
  rw [Machine.recordFrame, Machine.recordFrame, h.recordAt, h.htGet]

theorem SameLines.recordOpen {s u : State} (h : SameLines s u) (n : Nat) : recordOpen u n = Machine.recordOpen s n := by
  rw [Machine.recordOpen, Machine.recordOpen, h.recordAt, h.recordFrame, h.htGet, h.mem, h.fuses, h.flr, h.tiers,
    heldBlocks_same h.tiers h.cfg h.fuses, lineAcct, lineAcct, actF, actF, h.cfg]

theorem SameLines.opFind {s u : State} (h : SameLines s u) (n q : Nat) : opFind u n q = Machine.opFind s n q := by
  rw [Machine.opFind, Machine.opFind, lineGet_congr h.lines]

theorem Finished.of_same {s u t : State} {n seq status : Nat} {flags : Byte} {epoch : BitVec 16} {d : BitVec 512} {opb : List Byte}
    (h : SameLines s u) (hf : Finished u t n seq status flags epoch d opb) : Finished s t n seq status flags epoch d opb := by
  have hl : ∀ m, lineGet u m = lineGet s m := lineGet_congr h.lines
  have hr : ∀ a, rawByte u a = rawByte s a := rawByte_frame h.mem h.cfg
  constructor
  · exact hf.gone
  · intro q hq; rw [hf.others q hq, h.opFind]
  · intro i hi; rw [← h.recordFrame, hf.record i hi, h.tb]
  · intro a ha; rw [hf.memory a (by rw [h.recordFrame]; exact ha), hr]
  · rw [hf.cqTail, hl, cqSize, cqSize, actF, actF, h.cfg]
  · rw [hf.stopped, hl, stopsAfter_congr h.cfg]
  · rw [hf.fetch, hl]
  · rw [hf.head, hl]
  · rw [hf.tail, hl]
  · rw [hf.cHead, hl]
  · rw [hf.nextSeq, hl]
  · rw [hf.loop, hl]
  · intro m hm; rw [hf.lines m hm, hl]
  · intro k; rw [hf.signal, hitchGet_congr h.hitches]

theorem pmuBase_port (s : State) (code n : Nat) (a : Attr) : (pmuBase s code n a).1.port = s.port :=
  (pmuBase_keeps s code n a).only .port (by decide)

theorem sendVec_flrAt (s : State) (v : Nat) : (sendVec s v).port.flrAt = s.port.flrAt := by
  unfold sendVec
  split
  · rw [pmuBase_port]
  · rfl

theorem raiseCause_flrAt (s : State) (b : Nat) : (raiseCause s b).port.flrAt = s.port.flrAt := by
  unfold raiseCause setIrq
  dsimp only
  split
  · rw [sendVec_flrAt]
  · rfl

theorem pmuAdd_flrAt (s : State) (code n : Nat) (a : Attr) : (pmuAdd s code n a).port.flrAt = s.port.flrAt := by
  unfold pmuAdd
  dsimp only
  split
  · rw [raiseCause_flrAt, pmuBase_port]
  · rw [pmuBase_port]

theorem sameLines_pmuAdd (s : State) (code n : Nat) (a : Attr) : SameLines s (pmuAdd s code n a) := by
  have hk := (pmuAdd_keeps s code n a).only
  exact ⟨hk .cfg (by decide), hk .fuses (by decide), hk .tb (by decide), hk .lines (by decide), hk .hitches (by decide),
    hk .tiers (by decide), hk .mem (by decide), pmuAdd_flrAt s code n a⟩

theorem sameLines_raiseCause (s : State) (b : Nat) : SameLines s (raiseCause s b) := by
  have hk := (raiseCause_keeps s b).only
  exact ⟨hk .cfg (by decide), hk .fuses (by decide), hk .tb (by decide), hk .lines (by decide), hk .hitches (by decide),
    hk .tiers (by decide), hk .mem (by decide), raiseCause_flrAt s b⟩

/-- What ends an operation with its own status: `finishOp`, said once. -/
theorem finishOp_finished (s : State) (n : Nat) (o : OpEnt) (st : Nat) (opb : List Byte) (h : recordOpen s n = true) :
    Finished s (finishOp s n o st opb) n o.seq (endStatus o st) o.flags o.epoch o.desc opb := by
  rw [finishOp]
  split
  · have hs := sameLines_pmuAdd s 0x10E 1 (attrP (lineAcct s n))
    exact Finished.of_same hs (finalRecord_finished _ n o.seq (endStatus o st) o.flags o.epoch o.desc opb true (by rw [hs.recordOpen, h]))
  · exact finalRecord_finished s n o.seq (endStatus o st) o.flags o.epoch o.desc opb true h

/-- A rejection's record: `rejectOp`, said once (R271). -/
theorem rejectOp_finished (s : State) (n : Nat) (o : OpEnt) (st : Nat) (h : recordOpen s n = true) :
    Finished s (rejectOp s n o st) n o.seq (if o.track = .cancelPending then o.cancelStatus else st) 0 s.belay.epoch o.desc [] := by
  have hs := sameLines_pmuAdd s (0x05C + lineStrand s n) 1 (attrP (lineAcct s n))
  exact Finished.of_same hs (finalRecord_finished _ n o.seq _ 0 s.belay.epoch o.desc [] true (by rw [hs.recordOpen, h]))

/-- The event of an opcode's dispatch on a line whose undispatched operation has that opcode. -/
theorem onDispatch_next (s : State) (n opc : Nat) (f : OpEnt → State) (o : OpEnt) (hu : undispatched s n = some o)
    (ho : opcodeOf o.desc = opc) (hm : mayDispatch s n = true) (ht : o.track ≠ .cancelPending) :
    onDispatch s n opc f = .next (f o) := by
  rw [onDispatch, hu]
  simp [ho, hm, ht]

theorem dispatchable_iff (s : State) (n : Nat) (o : OpEnt) (opc : Nat) (h : dispatchable s n o opc = true) :
    undispatched s n = some o ∧ opcodeOf o.desc = opc ∧ mayDispatch s n = true ∧ o.track ≠ .cancelPending := by
  simp only [dispatchable, Bool.and_eq_true, beq_iff_eq, decide_eq_true_eq, bne_iff_ne] at h
  exact ⟨h.1.1.1, h.1.1.2, h.1.2, h.2⟩

/-- The event of an opcode's dispatch runs its body on the operation. -/
theorem onDispatch_run (s : State) (n opc : Nat) (f : OpEnt → State) (o : OpEnt) (h : dispatchable s n o opc = true) :
    onDispatch s n opc f = .next (f o) := by
  obtain ⟨h1, h2, h3, h4⟩ := dispatchable_iff s n o opc h
  exact onDispatch_next s n opc f o h1 h2 h3 h4

/-- An entry set and noted: every clause of `Entered`. -/
theorem entered_opSet (s : State) (n : Nat) (o : OpEnt) (h : ∃ x ∈ (lineGet s n).ops, x.seq = o.seq) :
    Entered s (noteLine (opSet s n o) n) n o := by
  obtain ⟨a, b, c, hl⟩ := noteLine_line (opSet s n o) n
  rw [lineGet_opSet] at hl
  have ho : ∀ q, opFind (noteLine (opSet s n o) n) n q = opFind (opSet s n o) n q := by
    intro q
    rw [opFind, opFind, hl, lineGet_opSet]
  refine ⟨by rw [ho, opFind_opSet s n o h], fun q hq => ?_, ⟨a, b, c, hl⟩, fun m hm => ?_⟩
  · rw [ho, opFind, opFind, lineGet_opSet]
    generalize (lineGet s n).ops = l
    induction l with
    | nil => rfl
    | cons x l ih =>
      rw [List.map_cons, List.find?_cons, List.find?_cons]
      by_cases hx : x.seq = o.seq
      · have hq' : o.seq ≠ q := fun e => hq e.symm
        simpa [hx, hq'] using ih
      · by_cases hxq : x.seq = q
        · simp [hxq, hq]
        · simpa [hx, hxq] using ih
  · rw [noteLine_line_ne _ _ _ hm, opSet, lineGet_lineSet_ne _ _ _ _ hm]

/-- The undispatched operation of a line is in flight. -/
theorem undispatched_mem (s : State) (n : Nat) (o : OpEnt) (h : undispatched s n = some o) : ∃ x ∈ (lineGet s n).ops, x.seq = o.seq :=
  ⟨o, List.mem_of_find?_eq_some h, rfl⟩

end Sys2Proof.Machine
end

