-- ==== Sys2Proof/Laws/KeepsLineOps.lean ====
section
/-! SUPPORT. What each operation of Machine/LineOps.lean may change, and that it keeps the stores canonical. -/

set_option Elab.async false

namespace Sys2Proof.Machine

open Sys2Proof

theorem doorbellTailWriteNow_keeps (line : LineNo) (val : W32) (s : State) :
    KeepsOut [.port, .lines, .pmu] s (doorbellTailWriteNow line val s) := by
  unfold doorbellTailWriteNow
  dsimp only
  split
  with_reducible refine KeepsOut.next ?_
  with_reducible refine Keeps.step ?_ (noteLine_keeps ..) rfl
  with_reducible refine Keeps.step ?_ (lineSet_keeps ..) rfl
  exact Keeps.refl _ _
  with_reducible refine KeepsOut.next ?_
  exact Keeps.refl _ _

theorem execDoorbellTailWrite_keeps (line : LineNo) (val : W32) (s : State) :
    KeepsOut [.port, .ingress, .lines, .pmu] s (execDoorbellTailWrite line val s) := by
  unfold execDoorbellTailWrite
  with_reducible refine hostSignal_keeps _ _ _ rfl (fun _ => ?_)
  refine KeepsOut.mono (doorbellTailWriteNow_keeps _ _ _) ?_
  rfl

theorem completionHeadWriteNow_keeps (line : LineNo) (val : W32) (s : State) :
    KeepsOut [.port, .lines, .pmu] s (completionHeadWriteNow line val s) := by
  unfold completionHeadWriteNow
  dsimp only
  split
  with_reducible refine KeepsOut.next ?_
  with_reducible refine Keeps.step ?_ (noteLine_keeps ..) rfl
  with_reducible refine Keeps.step ?_ (lineSet_keeps ..) rfl
  exact Keeps.refl _ _
  with_reducible refine KeepsOut.next ?_
  exact Keeps.refl _ _

theorem execCompletionHeadWrite_keeps (line : LineNo) (val : W32) (s : State) :
    KeepsOut [.port, .ingress, .lines, .pmu] s (execCompletionHeadWrite line val s) := by
  unfold execCompletionHeadWrite
  with_reducible refine hostLane_keeps _ _ _ rfl (fun _ => ?_)
  refine KeepsOut.mono (completionHeadWriteNow_keeps _ _ _) ?_
  rfl

theorem lineHitchAddNow_keeps (hitch : HitchNo) (add : W32) (s : State) :
    KeepsOut [.hitches] s (lineHitchAddNow hitch add s) := by
  unfold lineHitchAddNow
  split
  with_reducible refine KeepsOut.next ?_
  with_reducible refine Keeps.step ?_ (hitchAdd_keeps ..) rfl
  exact Keeps.refl _ _
  with_reducible refine KeepsOut.next ?_
  exact Keeps.refl _ _

theorem execLineHitchAdd_keeps (hitch : HitchNo) (add : W32) (s : State) :
    KeepsOut [.ingress, .hitches] s (execLineHitchAdd hitch add s) := by
  unfold execLineHitchAdd
  with_reducible refine hostSignal_keeps _ _ _ rfl (fun _ => ?_)
  refine KeepsOut.mono (lineHitchAddNow_keeps _ _ _) ?_
  rfl

theorem restartNow_keeps (line : LineNo) (s : State) :
    KeepsOut [.port, .lines, .pmu] s (restartNow line s) := by
  unfold restartNow
  dsimp only
  split
  with_reducible refine KeepsOut.next ?_
  with_reducible refine Keeps.step ?_ (noteLine_keeps ..) rfl
  with_reducible refine Keeps.step ?_ (lineSet_keeps ..) rfl
  exact Keeps.refl _ _
  with_reducible refine KeepsOut.next ?_
  exact Keeps.refl _ _

theorem execRestart_keeps (line : LineNo) (s : State) :
    KeepsOut [.port, .ingress, .lines, .pmu] s (execRestart line s) := by
  unfold execRestart
  with_reducible refine hostLane_keeps _ _ _ rfl (fun _ => ?_)
  refine KeepsOut.mono (restartNow_keeps _ _) ?_
  rfl

theorem breakNow_keeps (line : LineNo) (s : State) :
    KeepsOut [.lines] s (breakNow line s) := by
  unfold breakNow
  dsimp only
  split
  split
  with_reducible refine KeepsOut.next ?_
  with_reducible refine Keeps.step ?_ (lineSet_keeps ..) rfl
  exact Keeps.refl _ _
  with_reducible refine KeepsOut.next ?_
  exact Keeps.refl _ _
  with_reducible refine KeepsOut.next ?_
  exact Keeps.refl _ _

theorem execBreak_keeps (line : LineNo) (s : State) :
    KeepsOut [.ingress, .lines] s (execBreak line s) := by
  unfold execBreak
  with_reducible refine hostLane_keeps _ _ _ rfl (fun _ => ?_)
  refine KeepsOut.mono (breakNow_keeps _ _) ?_
  rfl

theorem execHitchWait_keeps (line : LineNo) (s : State) :
    KeepsOut [.regs, .port, .lines, .hitches, .mem, .tiers, .net, .pmu] s (execHitchWait line s) := by
  unfold execHitchWait
  with_reducible refine onDispatch_keeps _ _ _ _ rfl (fun _ => ?_)
  dsimp only
  split
  with_reducible refine Keeps.step ?_ (finishOp_keeps ..) rfl
  exact Keeps.refl _ _
  with_reducible refine Keeps.step ?_ (noteLine_keeps ..) rfl
  with_reducible refine Keeps.step ?_ (opSet_keeps ..) rfl
  exact Keeps.refl _ _

theorem execHitchWaitSatisfied_keeps (line : LineNo) (s : State) :
    KeepsOut [.regs, .port, .lines, .hitches, .mem, .tiers, .net, .pmu] s (execHitchWaitSatisfied line s) := by
  unfold execHitchWaitSatisfied
  split
  split
  with_reducible refine KeepsOut.next ?_
  with_reducible refine Keeps.step ?_ (finishOp_keeps ..) rfl
  exact Keeps.refl _ _
  with_reducible refine KeepsOut.next ?_
  exact Keeps.refl _ _
  with_reducible refine KeepsOut.next ?_
  exact Keeps.refl _ _

theorem execHitchTimeout_keeps (line : LineNo) (s : State) :
    KeepsOut [.regs, .port, .lines, .hitches, .mem, .tiers, .net, .pmu] s (execHitchTimeout line s) := by
  unfold execHitchTimeout
  split
  split
  with_reducible refine KeepsOut.next ?_
  with_reducible refine Keeps.step ?_ (finishOp_keeps ..) rfl
  exact Keeps.refl _ _
  with_reducible refine KeepsOut.next ?_
  exact Keeps.refl _ _
  with_reducible refine KeepsOut.next ?_
  exact Keeps.refl _ _

theorem execHitchSig_keeps (line : LineNo) (s : State) :
    KeepsOut [.regs, .port, .lines, .hitches, .mem, .tiers, .net, .pmu] s (execHitchSig line s) := by
  unfold execHitchSig
  with_reducible refine onDispatch_keeps _ _ _ _ rfl (fun _ => ?_)
  dsimp only
  with_reducible refine Keeps.step ?_ (finishOp_keeps ..) rfl
  with_reducible refine Keeps.step ?_ (hitchAdd_keeps ..) rfl
  exact Keeps.refl _ _

theorem execLoop_keeps (line : LineNo) (s : State) :
    KeepsOut [.regs, .port, .lines, .hitches, .mem, .tiers, .net, .pmu] s (execLoop line s) := by
  unfold execLoop
  dsimp only
  with_reducible refine onDispatch_keeps _ _ _ _ rfl (fun _ => ?_)
  split
  split
  with_reducible refine Keeps.step ?_ (finishOp_keeps ..) rfl
  with_reducible refine Keeps.step ?_ (lineSet_keeps ..) rfl
  exact Keeps.refl _ _
  with_reducible refine Keeps.step ?_ (rejectOp_keeps ..) rfl
  exact Keeps.refl _ _
  with_reducible refine Keeps.step ?_ (finishOp_keeps ..) rfl
  with_reducible refine Keeps.step ?_ (lineSet_keeps ..) rfl
  exact Keeps.refl _ _

theorem settleResumes_keeps (s : State) (n : Nat) (seq : Nat) (host : Bool) :
    Keeps [.regs, .port, .lines, .hitches, .mem, .tiers, .net, .pmu] s (settleResumes s n seq host) := by
  unfold settleResumes
  dsimp only
  with_reducible refine Keeps.foldl ?_ (fun _ _ _ => ?_)
  split
  with_reducible refine Keeps.upd ?_
  exact Keeps.refl _ _
  exact Keeps.refl _ _
  with_reducible refine Keeps.step ?_ (finishOp_keeps ..) rfl
  assumption

theorem cancelOp_keeps (s : State) (n : Nat) (o : OpEnt) (cause : Nat) :
    Keeps [.regs, .port, .lines, .hitches, .mem, .tiers, .net, .pmu] s (cancelOp s n o cause) := by
  unfold cancelOp
  split
  exact Keeps.refl _ _
  dsimp only
  split
  with_reducible refine Keeps.step ?_ (settleResumes_keeps ..) rfl
  with_reducible refine Keeps.step ?_ (opSet_keeps ..) rfl
  exact Keeps.refl _ _
  with_reducible refine Keeps.step ?_ (opSet_keeps ..) rfl
  exact Keeps.refl _ _

theorem resumeOp_keeps (s : State) (n : Nat) (o : OpEnt) :
    Keeps [.regs, .port, .lines, .hitches, .mem, .tiers, .net, .pmu] s (resumeOp s n o) := by
  unfold resumeOp
  with_reducible refine Keeps.step ?_ (settleResumes_keeps ..) rfl
  with_reducible refine Keeps.step ?_ (noteLine_keeps ..) rfl
  with_reducible refine Keeps.step ?_ (opSet_keeps ..) rfl
  exact Keeps.refl _ _

theorem ctrlApply_keeps (endSusp : State → Nat → OpEnt → State) (s : State) (act n seq : Nat) (by_ : Option Nat)
    (hE : ∀ u m o, Keeps [.free, .regs, .port, .ingress, .belay, .lines, .hitches, .strands, .mem, .tiers, .eng, .net, .pmu] u (endSusp u m o)) :
    Keeps [.free, .regs, .port, .ingress, .belay, .lines, .hitches, .strands, .mem, .tiers, .eng, .net, .pmu] s (ctrlApply endSusp s act n seq by_).1 := by
  unfold ctrlApply
  repeat' (first
    | with_reducible exact Keeps.refl _ _
    | with_reducible assumption
    | (dsimp only)
    | with_reducible refine Keeps.step ?_ (hE ..) rfl
    | with_reducible refine Keeps.step ?_ (resumeOp_keeps ..) rfl
    | with_reducible refine Keeps.step ?_ (cancelOp_keeps ..) rfl
    | with_reducible refine Keeps.step ?_ (opSet_keeps ..) rfl
    | split)

theorem ctrlNow_keeps (endSusp : State → Nat → OpEnt → State) (act : Nat) (src : CtrlSrc) (s : State)
    (hE : ∀ u m o, Keeps [.free, .regs, .port, .ingress, .belay, .lines, .hitches, .strands, .mem, .tiers, .eng, .net, .pmu] u (endSusp u m o)) :
    KeepsOut [.free, .regs, .port, .ingress, .belay, .lines, .hitches, .strands, .mem, .tiers, .eng, .net, .pmu] s (ctrlNow endSusp act src s) := by
  unfold ctrlNow
  repeat' (first
    | with_reducible exact Keeps.refl _ _
    | with_reducible assumption
    | (dsimp only)
    | with_reducible refine KeepsOut.next ?_
    | with_reducible refine onDispatch_keeps _ _ _ _ rfl (fun _ => ?_)
    | with_reducible refine Keeps.step ?_ (ctrlApply_keeps _ _ _ _ _ _ hE) rfl
    | with_reducible refine Keeps.step ?_ (finishOp_keeps ..) rfl
    | with_reducible refine Keeps.step ?_ (noteLine_keeps ..) rfl
    | with_reducible refine Keeps.step ?_ (opSet_keeps ..) rfl
    | split
    | with_reducible refine Keeps.upd ?_)

theorem ctrlExec_keeps (endSusp : State → Nat → OpEnt → State) (act : Nat) (c : CtrlSrc → Instr) (src : CtrlSrc) (s : State)
    (hE : ∀ u m o, Keeps [.free, .regs, .port, .ingress, .belay, .lines, .hitches, .strands, .mem, .tiers, .eng, .net, .pmu] u (endSusp u m o)) :
    KeepsOut [.free, .regs, .port, .ingress, .belay, .lines, .hitches, .strands, .mem, .tiers, .eng, .net, .pmu] s (ctrlExec endSusp act c src s) := by
  cases src with
  | desc line => exact (ctrlNow_keeps endSusp act (.desc line) s hE).mono rfl
  | host target seq => exact hostLane_keeps _ _ _ rfl (fun t => (ctrlNow_keeps endSusp act (.host target seq) t hE).mono rfl)

theorem execResumeTakesEffect_keeps (line : LineNo) (seq : Seq) (s : State) :
    KeepsOut [.regs, .port, .lines, .hitches, .mem, .tiers, .net, .pmu] s (execResumeTakesEffect line seq s) := by
  unfold execResumeTakesEffect
  dsimp only
  split
  with_reducible refine KeepsOut.next ?_
  exact Keeps.refl _ _
  split
  with_reducible refine KeepsOut.next ?_
  with_reducible refine Keeps.step ?_ (resumeOp_keeps ..) rfl
  exact Keeps.refl _ _
  with_reducible refine KeepsOut.next ?_
  exact Keeps.refl _ _

theorem execStopper_keeps (line : LineNo) (s : State) :
    KeepsOut [.regs, .port, .lines, .hitches, .mem, .tiers, .net, .pmu] s (execStopper line s) := by
  unfold execStopper
  dsimp only
  with_reducible refine onDispatch_keeps _ _ _ _ rfl (fun _ => ?_)
  with_reducible refine Keeps.step ?_ (noteLine_keeps ..) rfl
  with_reducible refine Keeps.step ?_ (opSet_keeps ..) rfl
  exact Keeps.refl _ _

theorem sendFlush_keeps (s : State) (n : Nat) (o : OpEnt) (axis : Nat) :
    Keeps [.regs, .port, .net, .pmu] s (sendFlush s n o axis) := by
  unfold sendFlush
  dsimp only
  with_reducible refine Keeps.foldl ?_ (fun _ _ _ => ?_)
  with_reducible refine Keeps.upd ?_
  exact Keeps.refl _ _
  with_reducible refine Keeps.step ?_ (sendFrame_keeps ..) rfl
  assumption

theorem flushFailed_keeps (s : State) (n : Nat) (o : OpEnt) :
    Keeps [.regs, .port, .lines, .hitches, .mem, .tiers, .net, .pmu] s (flushFailed s n o) := by
  unfold flushFailed
  with_reducible refine Keeps.step ?_ (finishOp_keeps ..) rfl
  with_reducible refine Keeps.step ?_ (raiseCause_keeps ..) rfl
  with_reducible refine Keeps.upd ?_
  exact Keeps.refl _ _

theorem execStopperWaitEnd_keeps (line : LineNo) (s : State) :
    KeepsOut [.regs, .port, .lines, .hitches, .mem, .tiers, .net, .pmu] s (execStopperWaitEnd line s) := by
  unfold execStopperWaitEnd
  dsimp only
  split
  with_reducible refine KeepsOut.next ?_
  exact Keeps.refl _ _
  split
  with_reducible refine KeepsOut.next ?_
  exact Keeps.refl _ _
  split
  with_reducible refine KeepsOut.next ?_
  with_reducible refine Keeps.step ?_ (finishOp_keeps ..) rfl
  with_reducible refine Keeps.step ?_ (drainPosted_keeps ..) rfl
  exact Keeps.refl _ _
  split
  split
  with_reducible refine KeepsOut.next ?_
  with_reducible refine Keeps.step ?_ (opSet_keeps ..) rfl
  with_reducible refine Keeps.updMem ?_
  with_reducible refine Keeps.step ?_ (drainPosted_keeps ..) rfl
  exact Keeps.refl _ _
  with_reducible refine KeepsOut.next ?_
  with_reducible refine Keeps.step ?_ (flushFailed_keeps ..) rfl
  with_reducible refine Keeps.updMem ?_
  with_reducible refine Keeps.step ?_ (drainPosted_keeps ..) rfl
  exact Keeps.refl _ _
  split
  with_reducible refine KeepsOut.next ?_
  with_reducible refine Keeps.step ?_ (finishOp_keeps ..) rfl
  with_reducible refine Keeps.step ?_ (drainPosted_keeps ..) rfl
  exact Keeps.refl _ _
  split
  with_reducible refine KeepsOut.next ?_
  with_reducible refine Keeps.step ?_ (finishOp_keeps ..) rfl
  with_reducible refine Keeps.step ?_ (drainPosted_keeps ..) rfl
  exact Keeps.refl _ _
  with_reducible refine KeepsOut.next ?_
  with_reducible refine Keeps.step ?_ (sendFlush_keeps ..) rfl
  with_reducible refine Keeps.step ?_ (opSet_keeps ..) rfl
  with_reducible refine Keeps.step ?_ (drainPosted_keeps ..) rfl
  exact Keeps.refl _ _

theorem execHostFlushReadComplete_keeps (line : LineNo) (fail : Option ReadFail) (s : State) :
    KeepsOut [.regs, .port, .lines, .hitches, .mem, .tiers, .net, .pmu] s (execHostFlushReadComplete line fail s) := by
  unfold execHostFlushReadComplete
  dsimp only
  split
  with_reducible refine KeepsOut.next ?_
  exact Keeps.refl _ _
  split
  with_reducible refine KeepsOut.next ?_
  split
  with_reducible refine Keeps.step ?_ (finishOp_keeps ..) rfl
  exact Keeps.refl _ _
  with_reducible refine Keeps.step ?_ (flushFailed_keeps ..) rfl
  exact Keeps.refl _ _
  with_reducible refine KeepsOut.next ?_
  exact Keeps.refl _ _

theorem execCapstanFlushComplete_keeps (line : LineNo) (s : State) :
    KeepsOut [.regs, .port, .lines, .hitches, .mem, .tiers, .net, .pmu] s (execCapstanFlushComplete line s) := by
  unfold execCapstanFlushComplete
  dsimp only
  split
  with_reducible refine KeepsOut.next ?_
  exact Keeps.refl _ _
  split
  with_reducible refine KeepsOut.next ?_
  with_reducible refine Keeps.step ?_ (finishOp_keeps ..) rfl
  with_reducible refine Keeps.upd ?_
  exact Keeps.refl _ _
  with_reducible refine KeepsOut.next ?_
  exact Keeps.refl _ _

end Sys2Proof.Machine
end

