-- ==== Sys2Proof/Laws/KeepsTiers.lean ====
section
/-! SUPPORT. What each operation of Machine/Tiers.lean may change, and that it keeps the stores canonical. -/

set_option Elab.async false

namespace Sys2Proof.Machine

open Sys2Proof

theorem stackSet_keeps (s : State) (st : Nat) (x : StackSt) :
    Keeps [.stackSt] s (stackSet s st x) := by
  unfold stackSet
  with_reducible refine Keeps.upd ?_
  exact Keeps.refl _ _

theorem countUe_keeps (s : State) (st : Nat) :
    Keeps [.regs, .port, .stackSt, .pmu] s (countUe s st) := by
  unfold countUe
  dsimp only
  with_reducible refine Keeps.step ?_ (raiseCause_keeps ..) rfl
  split
  with_reducible refine Keeps.step ?_ (pmuAdd_keeps ..) rfl
  with_reducible refine Keeps.step ?_ (stackSet_keeps ..) rfl
  exact Keeps.refl _ _
  with_reducible refine Keeps.step ?_ (stackSet_keeps ..) rfl
  exact Keeps.refl _ _

theorem countCe_keeps (s : State) (st : Nat) :
    Keeps [.regs, .port, .stackSt, .pmu] s (countCe s st) := by
  unfold countCe
  dsimp only
  split
  with_reducible refine Keeps.step ?_ (pmuAdd_keeps ..) rfl
  with_reducible refine Keeps.step ?_ (stackSet_keeps ..) rfl
  exact Keeps.refl _ _
  with_reducible refine Keeps.step ?_ (stackSet_keeps ..) rfl
  exact Keeps.refl _ _

theorem ueFound_keeps (s : State) (a : Nat) :
    Keeps [.regs, .port, .lines, .mem, .tiers, .stackSt, .net, .pmu] s (ueFound s a) := by
  unfold ueFound
  split
  with_reducible refine Keeps.step ?_ (chafeFound_keeps ..) rfl
  with_reducible refine Keeps.step ?_ (countUe_keeps ..) rfl
  exact Keeps.refl _ _
  exact Keeps.refl _ _

theorem ceFound_keeps (s : State) (a : Nat) :
    Keeps [.regs, .port, .stackSt, .pmu] s (ceFound s a) := by
  unfold ceFound
  split
  with_reducible refine Keeps.step ?_ (countCe_keeps ..) rfl
  exact Keeps.refl _ _
  exact Keeps.refl _ _

theorem eyeMark_keeps (s : State) (k : Nat) :
    Keeps [.mem] s (eyeMark s k) := by
  unfold eyeMark
  with_reducible refine Keeps.updMem ?_
  exact Keeps.refl _ _

theorem foundOne_keeps (strand : Nat) (s : State) (x : Found) :
    Keeps [.regs, .port, .lines, .mem, .tiers, .stackSt, .net, .pmu] s (foundOne strand s x) := by
  cases x
  · exact (ceFound_keeps ..).mono rfl
  · exact (ueFound_keeps ..).mono rfl
  · exact (eyeMark_keeps ..).mono rfl

theorem foundAll_keeps (s : State) (strand : Nat) (spans : List (Nat × Nat)) (found : List Found) :
    Keeps [.regs, .port, .lines, .mem, .tiers, .stackSt, .net, .pmu] s (foundAll s strand spans found) := by
  unfold foundAll
  with_reducible refine Keeps.foldl ?_ (fun _ _ _ => ?_)
  exact Keeps.refl _ _
  with_reducible refine Keeps.step ?_ (foundOne_keeps ..) rfl
  assumption

theorem foundMem_keeps (s : State) (spans : List (Nat × Nat)) (found : List Found) :
    Keeps [.regs, .port, .lines, .mem, .tiers, .stackSt, .net, .pmu] s (foundMem s spans found) := by
  unfold foundMem
  with_reducible refine Keeps.step ?_ (foundAll_keeps ..) rfl
  exact Keeps.refl _ _

theorem poolSet_keeps (s : State) (t : Tier) (p : TierSt) :
    Keeps [.tiers] s (poolSet s t p) := by
  unfold poolSet
  with_reducible refine Keeps.upd ?_
  exact Keeps.refl _ _

theorem drawFrame_keeps (s : State) (t : Tier) :
    Keeps [.tiers] s (drawFrame s t) := by
  unfold drawFrame
  dsimp only
  split
  with_reducible refine Keeps.step ?_ (poolSet_keeps ..) rfl
  exact Keeps.refl _ _
  with_reducible refine Keeps.step ?_ (poolSet_keeps ..) rfl
  exact Keeps.refl _ _

theorem returnFrame_keeps (s : State) (t : Tier) :
    Keeps [.tiers] s (returnFrame s t) := by
  unfold returnFrame
  dsimp only
  split
  with_reducible refine Keeps.step ?_ (poolSet_keeps ..) rfl
  exact Keeps.refl _ _
  with_reducible refine Keeps.step ?_ (poolSet_keeps ..) rfl
  exact Keeps.refl _ _

theorem chargeAdd_keeps (s : State) (acct : Nat) (t : Tier) (n : Nat) (incoming : Nat) :
    Keeps [.tiers] s (chargeAdd s acct t n incoming) := by
  unfold chargeAdd
  with_reducible refine Keeps.upd ?_
  exact Keeps.refl _ _

theorem chargeSub_keeps (s : State) (acct : Nat) (t : Tier) (n : Nat) (incoming : Nat) :
    Keeps [.tiers] s (chargeSub s acct t n incoming) := by
  unfold chargeSub
  with_reducible refine Keeps.upd ?_
  exact Keeps.refl _ _

theorem arrived_keeps (s : State) (acct : Nat) (t : Tier) :
    Keeps [.tiers] s (arrived s acct t) := by
  unfold arrived
  with_reducible refine Keeps.step ?_ (chargeSub_keeps ..) rfl
  exact Keeps.refl _ _

theorem releaseFrame_keeps (s : State) (t : Tier) (acct : Nat) :
    Keeps [.tiers] s (releaseFrame s t acct) := by
  unfold releaseFrame
  with_reducible refine Keeps.step ?_ (chargeSub_keeps ..) rfl
  with_reducible refine Keeps.step ?_ (returnFrame_keeps ..) rfl
  exact Keeps.refl _ _

theorem zeroFrame_keeps (s : State) (t : Tier) (f : Nat) :
    Keeps [.mem] s (zeroFrame s t f) := by
  have h1 (inside : Nat → Bool) : Keeps [.mem] s { s with mem := { s.mem with
      bytes := s.mem.bytes.filter (fun p => !inside p.1), ahead := s.mem.ahead.filter (fun l => !inside l.1),
      chafed := s.mem.chafed.filter (fun g => !inside g), posted := s.mem.posted.filter (fun p => !inside p.addr) } } :=
    Keeps.setMem (Keeps.refl _ _) _ rfl (fun h =>
      Mem.wf_of h (mapWf_filter _ _ _) id id (short_filter _ _) (rising_filter _ _) id id)
  unfold zeroFrame
  split
  · exact Keeps.foldl (h1 (fun k => decide (frameBase t f ≤ k) && decide (k < frameBase t f + blockBytes))) (fun u b hu => hu.step (putByte_keeps ..) rfl)
  · exact h1 (fun k => decide (frameBase t f ≤ k) && decide (k < frameBase t f + blockBytes))

theorem sendFrameOut_keeps (s : State) (t : Tier) (f : Nat) :
    Keeps [.port] s (sendFrameOut s t f) := by
  unfold sendFrameOut
  split
  with_reducible refine Keeps.step ?_ (hostWrite_keeps ..) rfl
  exact Keeps.refl _ _
  exact Keeps.refl _ _

theorem copyFrame_keeps (s0 : State) (t : Tier) (f : Nat) (t' : Tier) (f' : Nat) :
    Keeps [.mem] s0 (copyFrame s0 t f t' f') := by
  unfold copyFrame
  extract_lets a b s s1
  have h1 : Keeps [.mem] s0 s1 := ((Keeps.refl _ _).step (drainPosted_keeps ..) rfl).step (zeroFrame_keeps ..) rfl
  clear_value s1
  split
  · exact Keeps.foldl h1 (fun u b hu => hu.step (putByte_keeps ..) rfl)
  · refine Keeps.setMem h1 _ rfl (fun h => Mem.wf_of h (fun hb => ?_) id id id id id id)
    exact foldl_keeps (fun (m : SMap Byte) => mapWf 0 m = true) _ _ _ hb (fun m q hm => mapSet_wf _ _ _ _ hm)

theorem copyMarks_keeps (s : State) (t : Tier) (f : Nat) (t' : Tier) (f' : Nat) :
    Keeps [.mem] s (copyMarks s t f t' f') := by
  unfold copyMarks
  refine Keeps.setMem (Keeps.refl _ _) _ rfl (fun h => Mem.wf_of h id id id id (fun hc => ?_) id id)
  exact foldl_keeps (fun (m : List Nat) => rising m = true) _ _ _ hc (fun m q hm => marksAfter_rising _ _ _ _ hm)

theorem moveAdvance_keeps (n fuel : Nat) (s : State) (o : OpEnt) :
    Keeps [.tiers] s (moveAdvance n fuel s o).1 := by
  induction fuel generalizing s o with
  | zero => exact Keeps.refl _ _
  | succ k ih =>
    unfold moveAdvance
    split
    · exact Keeps.refl _ _
    · dsimp only
      split
      · exact Keeps.refl _ _
      · refine Keeps.step ?_ (ih _ _) rfl
        split
        · exact (Keeps.refl _ _).step (chargeSub_keeps ..) rfl
        · exact Keeps.refl _ _

theorem moveStop_keeps (s : State) (n : Nat) (o : OpEnt) :
    Keeps [.tiers] s (moveStop s n o).1 := by
  rw [moveStop]
  dsimp only
  with_reducible refine Keeps.step ?_ (chargeSub_keeps ..) rfl
  exact Keeps.refl _ _

theorem advanceRuns_keeps (s : State) :
    Keeps [.lines, .tiers] s (advanceRuns s) := by
  unfold advanceRuns
  with_reducible refine Keeps.foldl ?_ (fun _ _ _ => ?_)
  exact Keeps.refl _ _
  split
  dsimp only
  with_reducible refine Keeps.step ?_ (opSet_keeps ..) rfl
  with_reducible refine Keeps.step ?_ (moveAdvance_keeps ..) rfl
  assumption
  assumption

theorem onMoveOp_keeps {ps : List Part} (s : State) (n op : Nat) (f : OpEnt → State)
    (hs : subParts [.regs, .port, .lines, .hitches, .mem, .tiers, .net, .pmu] ps = true) (hf : ∀ o, Keeps ps s (f o)) :
    KeepsOut ps s (onMoveOp s n op f) := by
  unfold onMoveOp
  split
  · split
    · exact onDispatch_keeps _ _ _ _ hs hf
    · exact KeepsOut.next (Keeps.refl _ _)
  · exact KeepsOut.next (Keeps.refl _ _)

theorem dispatchRun_keeps (s : State) (n : Nat) (o : OpEnt) :
    Keeps [.regs, .port, .lines, .hitches, .mem, .tiers, .net, .pmu] s (dispatchRun s n o) := by
  unfold dispatchRun
  split
  with_reducible refine Keeps.step ?_ (rejectOp_keeps ..) rfl
  exact Keeps.refl _ _
  dsimp only
  split
  with_reducible refine Keeps.step ?_ (finishOp_keeps ..) rfl
  exact Keeps.refl _ _
  with_reducible refine Keeps.step ?_ (noteLine_keeps ..) rfl
  with_reducible refine Keeps.step ?_ (opSet_keeps ..) rfl
  with_reducible refine Keeps.step ?_ (moveAdvance_keeps ..) rfl
  with_reducible refine Keeps.step ?_ (chargeAdd_keeps ..) rfl
  exact Keeps.refl _ _

theorem execMove_keeps (line : LineNo) (s : State) :
    KeepsOut [.regs, .port, .lines, .hitches, .mem, .tiers, .net, .pmu] s (execMove line s) := by
  unfold execMove
  with_reducible refine onMoveOp_keeps _ _ _ _ rfl (fun _ => ?_)
  with_reducible refine Keeps.step ?_ (dispatchRun_keeps ..) rfl
  exact Keeps.refl _ _

theorem execAlloc_keeps (line : LineNo) (s : State) :
    KeepsOut [.regs, .port, .lines, .hitches, .mem, .tiers, .net, .pmu] s (execAlloc line s) := by
  unfold execAlloc
  with_reducible refine onMoveOp_keeps _ _ _ _ rfl (fun _ => ?_)
  split
  with_reducible refine Keeps.step ?_ (rejectOp_keeps ..) rfl
  exact Keeps.refl _ _
  with_reducible refine Keeps.step ?_ (dispatchRun_keeps ..) rfl
  exact Keeps.refl _ _

theorem dropLanding_keeps (s : State) (name : Nat) (acct : Nat) :
    Keeps [.tiers] s (dropLanding s name acct) := by
  unfold dropLanding
  dsimp only
  with_reducible refine Keeps.step ?_ (chargeSub_keeps ..) rfl
  with_reducible refine Keeps.upd ?_
  exact Keeps.refl _ _

theorem dropQueued_keeps (s : State) (p : Move → Bool) :
    Keeps [.tiers] s (dropQueued s p) := by
  unfold dropQueued
  dsimp only
  with_reducible refine Keeps.foldl ?_ (fun _ _ _ => ?_)
  with_reducible refine Keeps.upd ?_
  exact Keeps.refl _ _
  with_reducible refine Keeps.step ?_ (chargeSub_keeps ..) rfl
  assumption

theorem pruneMoves_keeps (s : State) :
    Keeps [.tiers] s (pruneMoves s) := by
  unfold pruneMoves
  with_reducible refine Keeps.step ?_ (dropQueued_keeps ..) rfl
  exact Keeps.refl _ _

theorem unbind_keeps (s : State) (name : Nat) :
    Keeps [.tiers] s (unbind s name) := by
  unfold unbind
  dsimp only
  with_reducible refine Keeps.step ?_ (releaseFrame_keeps ..) rfl
  with_reducible refine Keeps.step ?_ (htSet_keeps ..) rfl
  with_reducible refine Keeps.step ?_ (dropQueued_keeps ..) rfl
  split
  with_reducible refine Keeps.step ?_ (dropLanding_keeps ..) rfl
  exact Keeps.refl _ _
  exact Keeps.refl _ _

theorem chargeEntries_keeps (s : State) (n : Nat) (d : BitVec 512) :
    Keeps [.tiers] s (chargeEntries s n d) := by
  unfold chargeEntries
  dsimp only
  with_reducible refine Keeps.upd ?_
  exact Keeps.refl _ _

theorem execFree_keeps (line : LineNo) (s : State) :
    KeepsOut [.regs, .port, .lines, .hitches, .mem, .tiers, .net, .pmu] s (execFree line s) := by
  unfold execFree
  dsimp only
  with_reducible refine onMoveOp_keeps _ _ _ _ rfl (fun _ => ?_)
  split
  with_reducible refine Keeps.step ?_ (rejectOp_keeps ..) rfl
  exact Keeps.refl _ _
  with_reducible refine Keeps.step ?_ (noteLine_keeps ..) rfl
  with_reducible refine Keeps.step ?_ (opSet_keeps ..) rfl
  with_reducible refine Keeps.upd ?_
  with_reducible refine Keeps.foldl ?_ (fun _ _ _ => ?_)
  with_reducible refine Keeps.step ?_ (chargeEntries_keeps ..) rfl
  exact Keeps.refl _ _
  split
  assumption
  with_reducible refine Keeps.step ?_ (unbind_keeps ..) rfl
  assumption

theorem execAttr_keeps (line : LineNo) (s : State) :
    KeepsOut [.regs, .port, .lines, .hitches, .mem, .tiers, .net, .pmu] s (execAttr line s) := by
  unfold execAttr
  dsimp only
  with_reducible refine onMoveOp_keeps _ _ _ _ rfl (fun _ => ?_)
  split
  with_reducible refine Keeps.step ?_ (rejectOp_keeps ..) rfl
  exact Keeps.refl _ _
  with_reducible refine Keeps.step ?_ (noteLine_keeps ..) rfl
  with_reducible refine Keeps.step ?_ (opSet_keeps ..) rfl
  with_reducible refine Keeps.step ?_ (pruneMoves_keeps ..) rfl
  with_reducible refine Keeps.foldl ?_ (fun _ _ _ => ?_)
  with_reducible refine Keeps.step ?_ (chargeEntries_keeps ..) rfl
  exact Keeps.refl _ _
  with_reducible refine Keeps.step ?_ (htSet_keeps ..) rfl
  assumption

theorem queueMove_keeps (s : State) (name : Nat) (origin : MoveOrigin) (dest : Tier) (cls : Nat) (deadline : Nat) :
    Keeps [.tiers] s (queueMove s name origin dest cls deadline) := by
  unfold queueMove
  dsimp only
  with_reducible refine Keeps.upd ?_
  with_reducible refine Keeps.step ?_ (chargeAdd_keeps ..) rfl
  exact Keeps.refl _ _

theorem failCand_keeps (s : State) (c : Cand) :
    Keeps [.lines, .tiers] s (failCand s c) := by
  unfold failCand
  split
  split
  dsimp only
  with_reducible refine Keeps.step ?_ (opSet_keeps ..) rfl
  with_reducible refine Keeps.step ?_ (moveStop_keeps ..) rfl
  exact Keeps.refl _ _
  exact Keeps.refl _ _
  dsimp only
  split
  split
  with_reducible refine Keeps.step ?_ (opSet_keeps ..) rfl
  with_reducible refine Keeps.step ?_ (chargeSub_keeps ..) rfl
  with_reducible refine Keeps.upd ?_
  exact Keeps.refl _ _
  with_reducible refine Keeps.step ?_ (chargeSub_keeps ..) rfl
  with_reducible refine Keeps.upd ?_
  exact Keeps.refl _ _
  split
  with_reducible refine Keeps.step ?_ (opSet_keeps ..) rfl
  with_reducible refine Keeps.step ?_ (chargeSub_keeps ..) rfl
  with_reducible refine Keeps.upd ?_
  exact Keeps.refl _ _
  with_reducible refine Keeps.step ?_ (chargeSub_keeps ..) rfl
  with_reducible refine Keeps.upd ?_
  exact Keeps.refl _ _
  split
  split
  with_reducible refine Keeps.step ?_ (opSet_keeps ..) rfl
  with_reducible refine Keeps.step ?_ (chargeSub_keeps ..) rfl
  with_reducible refine Keeps.upd ?_
  exact Keeps.refl _ _
  with_reducible refine Keeps.step ?_ (opSet_keeps ..) rfl
  with_reducible refine Keeps.step ?_ (chargeSub_keeps ..) rfl
  with_reducible refine Keeps.upd ?_
  exact Keeps.refl _ _
  with_reducible refine Keeps.step ?_ (chargeSub_keeps ..) rfl
  with_reducible refine Keeps.upd ?_
  exact Keeps.refl _ _
  with_reducible refine Keeps.step ?_ (chargeSub_keeps ..) rfl
  with_reducible refine Keeps.upd ?_
  exact Keeps.refl _ _

theorem evictBlocked_keeps (s : State) (t : Tier) :
    Keeps [.regs, .port, .tiers, .pmu] s (evictBlocked s t) := by
  unfold evictBlocked
  with_reducible refine Keeps.step ?_ (raiseCause_keeps ..) rfl
  with_reducible refine Keeps.step ?_ (poolSet_keeps ..) rfl
  exact Keeps.refl _ _

theorem claimFrame_keeps (s : State) (c : Cand) :
    Keeps [.regs, .port, .lines, .tiers, .pmu] s (claimFrame s c) := by
  unfold claimFrame
  split
  split
  exact Keeps.refl _ _
  split
  with_reducible refine Keeps.step ?_ (failCand_keeps ..) rfl
  with_reducible refine Keeps.upd ?_
  exact Keeps.refl _ _
  split
  exact Keeps.refl _ _
  dsimp only
  split
  with_reducible refine Keeps.step ?_ (queueMove_keeps ..) rfl
  with_reducible refine Keeps.upd ?_
  exact Keeps.refl _ _
  split
  with_reducible refine Keeps.step ?_ (queueMove_keeps ..) rfl
  with_reducible refine Keeps.upd ?_
  exact Keeps.refl _ _
  split
  with_reducible refine Keeps.step ?_ (evictBlocked_keeps ..) rfl
  with_reducible refine Keeps.step ?_ (failCand_keeps ..) rfl
  exact Keeps.refl _ _
  exact Keeps.refl _ _
  exact Keeps.refl _ _

theorem startMove_keeps (s : State) (c : Cand) (frame : Nat) :
    Keeps [.free, .lines, .tiers] s (startMove s c frame) := by
  unfold startMove
  dsimp only
  split
  split
  with_reducible refine Keeps.step ?_ (opSet_keeps ..) rfl
  split
  split
  with_reducible refine Keeps.upd ?_
  with_reducible refine Keeps.step ?_ (drawFrame_keeps ..) rfl
  with_reducible refine Keeps.step ?_ (drawn_keeps ..) rfl
  exact Keeps.refl _ _
  with_reducible refine Keeps.step ?_ (htSet_keeps ..) rfl
  with_reducible refine Keeps.upd ?_
  with_reducible refine Keeps.step ?_ (drawFrame_keeps ..) rfl
  with_reducible refine Keeps.step ?_ (drawn_keeps ..) rfl
  exact Keeps.refl _ _
  with_reducible refine Keeps.step ?_ (chargeAdd_keeps ..) rfl
  split
  with_reducible refine Keeps.upd ?_
  with_reducible refine Keeps.step ?_ (drawFrame_keeps ..) rfl
  with_reducible refine Keeps.step ?_ (drawn_keeps ..) rfl
  exact Keeps.refl _ _
  with_reducible refine Keeps.step ?_ (htSet_keeps ..) rfl
  with_reducible refine Keeps.upd ?_
  with_reducible refine Keeps.step ?_ (drawFrame_keeps ..) rfl
  with_reducible refine Keeps.step ?_ (drawn_keeps ..) rfl
  exact Keeps.refl _ _
  split
  with_reducible refine Keeps.upd ?_
  with_reducible refine Keeps.step ?_ (drawFrame_keeps ..) rfl
  with_reducible refine Keeps.step ?_ (drawn_keeps ..) rfl
  exact Keeps.refl _ _
  with_reducible refine Keeps.step ?_ (htSet_keeps ..) rfl
  with_reducible refine Keeps.upd ?_
  with_reducible refine Keeps.step ?_ (drawFrame_keeps ..) rfl
  with_reducible refine Keeps.step ?_ (drawn_keeps ..) rfl
  exact Keeps.refl _ _
  split
  with_reducible refine Keeps.upd ?_
  with_reducible refine Keeps.step ?_ (drawFrame_keeps ..) rfl
  with_reducible refine Keeps.step ?_ (drawn_keeps ..) rfl
  exact Keeps.refl _ _
  with_reducible refine Keeps.step ?_ (htSet_keeps ..) rfl
  with_reducible refine Keeps.upd ?_
  with_reducible refine Keeps.step ?_ (drawFrame_keeps ..) rfl
  with_reducible refine Keeps.step ?_ (drawn_keeps ..) rfl
  exact Keeps.refl _ _

theorem execBlockMoveStart_keeps (found : List Found) (s : State) :
    KeepsOut [.free, .regs, .port, .lines, .mem, .tiers, .stackSt, .net, .wfc, .pmu] s (execBlockMoveStart found s) := by
  unfold execBlockMoveStart
  split
  · exact KeepsOut.next (Keeps.refl _ _)
  · extract_lets s00 s0 cs r tiers s1
    have h00 : Keeps [.free, .regs, .port, .lines, .mem, .tiers, .stackSt, .net, .wfc, .pmu] s s00 := (Keeps.refl _ _).step (pruneMoves_keeps ..) rfl
    have h0 : Keeps [.free, .regs, .port, .lines, .mem, .tiers, .stackSt, .net, .wfc, .pmu] s s0 := Keeps.foldl h00 (fun u b hu => hu.step (claimFrame_keeps ..) rfl)
    have h1 : Keeps [.free, .regs, .port, .lines, .mem, .tiers, .stackSt, .net, .wfc, .pmu] s s1 := Keeps.upd h0
    clear_value s1
    split
    · exact KeepsOut.next h1
    · split
      · exact KeepsOut.next h1
      · split
        · exact KeepsOut.next h1
        · exact KeepsOut.next ((((h1.step (noteGrant_keeps ..) rfl).step (startMove_keeps ..) rfl).step (foundMem_keeps ..) rfl).step
            (advanceRuns_keeps ..) rfl)

theorem runDone_keeps (s : State) (n : Nat) (q : Nat) (moved : Bool) (ch : Bool) :
    Keeps [.lines] s (runDone s n q moved ch) := by
  unfold runDone
  split
  with_reducible refine Keeps.step ?_ (opSet_keeps ..) rfl
  exact Keeps.refl _ _
  exact Keeps.refl _ _

theorem freeDone_keeps (s : State) (name : Nat) :
    Keeps [.lines] s (freeDone s name) := by
  unfold freeDone
  with_reducible refine Keeps.foldl ?_ (fun _ _ _ => ?_)
  exact Keeps.refl _ _
  split
  split
  with_reducible refine Keeps.step ?_ (opSet_keeps ..) rfl
  assumption
  assumption
  assumption

theorem applyHeld_keeps (s : State) (name : Nat) (hs : List HeldWrite) :
    Keeps [.mem, .tiers] s (applyHeld s name hs) := by
  unfold applyHeld
  dsimp only
  with_reducible refine Keeps.step ?_ (syncChafe_keeps ..) rfl
  with_reducible refine Keeps.foldl ?_ (fun _ _ _ => ?_)
  exact Keeps.refl _ _
  with_reducible refine Keeps.step ?_ (storeAt_keeps ..) rfl
  assumption

theorem movedIn_keeps (s : State) (m : Move) :
    Keeps [.port, .hitches, .mem, .tiers] s (movedIn s m).1 := by
  rw [movedIn]
  dsimp only
  split
  split
  split
  with_reducible refine Keeps.upd ?_
  with_reducible refine Keeps.step ?_ (arrived_keeps ..) rfl
  with_reducible refine Keeps.step ?_ (htSet_keeps ..) rfl
  with_reducible refine Keeps.step ?_ (sendFrameOut_keeps ..) rfl
  with_reducible refine Keeps.step ?_ (copyMarks_keeps ..) rfl
  with_reducible refine Keeps.step ?_ (copyFrame_keeps ..) rfl
  exact Keeps.refl _ _
  with_reducible refine Keeps.step ?_ (sigsAfter_keeps ..) rfl
  with_reducible refine Keeps.step ?_ (applyHeld_keeps ..) rfl
  with_reducible refine Keeps.upd ?_
  with_reducible refine Keeps.step ?_ (arrived_keeps ..) rfl
  with_reducible refine Keeps.step ?_ (htSet_keeps ..) rfl
  with_reducible refine Keeps.step ?_ (sendFrameOut_keeps ..) rfl
  with_reducible refine Keeps.step ?_ (copyMarks_keeps ..) rfl
  with_reducible refine Keeps.step ?_ (copyFrame_keeps ..) rfl
  exact Keeps.refl _ _
  split
  split
  with_reducible refine Keeps.upd ?_
  with_reducible refine Keeps.step ?_ (arrived_keeps ..) rfl
  with_reducible refine Keeps.step ?_ (htSet_keeps ..) rfl
  with_reducible refine Keeps.step ?_ (sendFrameOut_keeps ..) rfl
  with_reducible refine Keeps.step ?_ (copyMarks_keeps ..) rfl
  with_reducible refine Keeps.step ?_ (copyFrame_keeps ..) rfl
  exact Keeps.refl _ _
  with_reducible refine Keeps.step ?_ (sigsAfter_keeps ..) rfl
  with_reducible refine Keeps.step ?_ (applyHeld_keeps ..) rfl
  with_reducible refine Keeps.upd ?_
  with_reducible refine Keeps.step ?_ (arrived_keeps ..) rfl
  with_reducible refine Keeps.step ?_ (htSet_keeps ..) rfl
  with_reducible refine Keeps.step ?_ (sendFrameOut_keeps ..) rfl
  with_reducible refine Keeps.step ?_ (copyMarks_keeps ..) rfl
  with_reducible refine Keeps.step ?_ (copyFrame_keeps ..) rfl
  exact Keeps.refl _ _
  split
  with_reducible refine Keeps.upd ?_
  with_reducible refine Keeps.step ?_ (arrived_keeps ..) rfl
  with_reducible refine Keeps.step ?_ (htSet_keeps ..) rfl
  with_reducible refine Keeps.step ?_ (sendFrameOut_keeps ..) rfl
  with_reducible refine Keeps.step ?_ (copyMarks_keeps ..) rfl
  with_reducible refine Keeps.step ?_ (copyFrame_keeps ..) rfl
  exact Keeps.refl _ _
  with_reducible refine Keeps.step ?_ (sigsAfter_keeps ..) rfl
  with_reducible refine Keeps.step ?_ (applyHeld_keeps ..) rfl
  with_reducible refine Keeps.upd ?_
  with_reducible refine Keeps.step ?_ (arrived_keeps ..) rfl
  with_reducible refine Keeps.step ?_ (htSet_keeps ..) rfl
  with_reducible refine Keeps.step ?_ (sendFrameOut_keeps ..) rfl
  with_reducible refine Keeps.step ?_ (copyMarks_keeps ..) rfl
  with_reducible refine Keeps.step ?_ (copyFrame_keeps ..) rfl
  exact Keeps.refl _ _
  split
  split
  with_reducible refine Keeps.upd ?_
  with_reducible refine Keeps.step ?_ (arrived_keeps ..) rfl
  with_reducible refine Keeps.step ?_ (htSet_keeps ..) rfl
  with_reducible refine Keeps.step ?_ (sendFrameOut_keeps ..) rfl
  with_reducible refine Keeps.step ?_ (copyMarks_keeps ..) rfl
  with_reducible refine Keeps.step ?_ (copyFrame_keeps ..) rfl
  exact Keeps.refl _ _
  with_reducible refine Keeps.step ?_ (sigsAfter_keeps ..) rfl
  with_reducible refine Keeps.step ?_ (applyHeld_keeps ..) rfl
  with_reducible refine Keeps.upd ?_
  with_reducible refine Keeps.step ?_ (arrived_keeps ..) rfl
  with_reducible refine Keeps.step ?_ (htSet_keeps ..) rfl
  with_reducible refine Keeps.step ?_ (sendFrameOut_keeps ..) rfl
  with_reducible refine Keeps.step ?_ (copyMarks_keeps ..) rfl
  with_reducible refine Keeps.step ?_ (copyFrame_keeps ..) rfl
  exact Keeps.refl _ _
  split
  split
  with_reducible refine Keeps.upd ?_
  with_reducible refine Keeps.step ?_ (arrived_keeps ..) rfl
  with_reducible refine Keeps.step ?_ (htSet_keeps ..) rfl
  with_reducible refine Keeps.step ?_ (sendFrameOut_keeps ..) rfl
  with_reducible refine Keeps.step ?_ (copyMarks_keeps ..) rfl
  with_reducible refine Keeps.step ?_ (copyFrame_keeps ..) rfl
  exact Keeps.refl _ _
  with_reducible refine Keeps.step ?_ (sigsAfter_keeps ..) rfl
  with_reducible refine Keeps.step ?_ (applyHeld_keeps ..) rfl
  with_reducible refine Keeps.upd ?_
  with_reducible refine Keeps.step ?_ (arrived_keeps ..) rfl
  with_reducible refine Keeps.step ?_ (htSet_keeps ..) rfl
  with_reducible refine Keeps.step ?_ (sendFrameOut_keeps ..) rfl
  with_reducible refine Keeps.step ?_ (copyMarks_keeps ..) rfl
  with_reducible refine Keeps.step ?_ (copyFrame_keeps ..) rfl
  exact Keeps.refl _ _
  split
  with_reducible refine Keeps.upd ?_
  with_reducible refine Keeps.step ?_ (arrived_keeps ..) rfl
  with_reducible refine Keeps.step ?_ (htSet_keeps ..) rfl
  with_reducible refine Keeps.step ?_ (sendFrameOut_keeps ..) rfl
  with_reducible refine Keeps.step ?_ (copyMarks_keeps ..) rfl
  with_reducible refine Keeps.step ?_ (copyFrame_keeps ..) rfl
  exact Keeps.refl _ _
  with_reducible refine Keeps.step ?_ (sigsAfter_keeps ..) rfl
  with_reducible refine Keeps.step ?_ (applyHeld_keeps ..) rfl
  with_reducible refine Keeps.upd ?_
  with_reducible refine Keeps.step ?_ (arrived_keeps ..) rfl
  with_reducible refine Keeps.step ?_ (htSet_keeps ..) rfl
  with_reducible refine Keeps.step ?_ (sendFrameOut_keeps ..) rfl
  with_reducible refine Keeps.step ?_ (copyMarks_keeps ..) rfl
  with_reducible refine Keeps.step ?_ (copyFrame_keeps ..) rfl
  exact Keeps.refl _ _

theorem moveOn_keeps (s : State) (m : Move) (n : Nat) (q : Nat) (ch : Bool) :
    Keeps [.lines, .tiers] s (moveOn s m n q ch) := by
  unfold moveOn
  split
  split
  split
  with_reducible refine Keeps.step ?_ (opSet_keeps ..) rfl
  exact Keeps.refl _ _
  with_reducible refine Keeps.step ?_ (queueMove_keeps ..) rfl
  exact Keeps.refl _ _
  exact Keeps.refl _ _
  exact Keeps.refl _ _

theorem noteMoved_keeps (s : State) (m : Move) (ch : Bool) :
    Keeps [.lines, .tiers] s (noteMoved s m ch) := by
  unfold noteMoved
  split
  with_reducible refine Keeps.step ?_ (runDone_keeps ..) rfl
  exact Keeps.refl _ _
  split
  with_reducible refine Keeps.step ?_ (opSet_keeps ..) rfl
  exact Keeps.refl _ _
  exact Keeps.refl _ _
  with_reducible refine Keeps.step ?_ (moveOn_keeps ..) rfl
  exact Keeps.refl _ _
  with_reducible refine Keeps.step ?_ (moveOn_keeps ..) rfl
  exact Keeps.refl _ _
  exact Keeps.refl _ _

theorem countMove_keeps (s : State) (m : Move) (source : Tier) :
    Keeps [.regs, .port, .pmu] s (countMove s m source) := by
  unfold countMove
  dsimp only
  split
  with_reducible refine Keeps.step ?_ (pmuAdd_keeps ..) rfl
  with_reducible refine Keeps.step ?_ (pmuAdd_keeps ..) rfl
  with_reducible refine Keeps.step ?_ (pmuAdd_keeps ..) rfl
  exact Keeps.refl _ _
  with_reducible refine Keeps.step ?_ (pmuAdd_keeps ..) rfl
  with_reducible refine Keeps.step ?_ (pmuAdd_keeps ..) rfl
  exact Keeps.refl _ _

theorem retireMove_keeps (s : State) (m : Move) :
    Keeps [.regs, .port, .lines, .hitches, .mem, .tiers, .pmu] s (retireMove s m) := by
  unfold retireMove
  dsimp only
  with_reducible refine Keeps.step ?_ (advanceRuns_keeps ..) rfl
  split
  with_reducible refine Keeps.step ?_ (freeDone_keeps ..) rfl
  with_reducible refine Keeps.step ?_ (unbind_keeps ..) rfl
  with_reducible refine Keeps.step ?_ (countMove_keeps ..) rfl
  with_reducible refine Keeps.step ?_ (noteMoved_keeps ..) rfl
  with_reducible refine Keeps.step ?_ (movedIn_keeps ..) rfl
  exact Keeps.refl _ _
  with_reducible refine Keeps.step ?_ (countMove_keeps ..) rfl
  with_reducible refine Keeps.step ?_ (noteMoved_keeps ..) rfl
  with_reducible refine Keeps.step ?_ (movedIn_keeps ..) rfl
  exact Keeps.refl _ _

theorem execFrameRelease_keeps (tier : Tier) (frame : BitVec 24) (s : State) :
    KeepsOut [.tiers] s (execFrameRelease tier frame s) := by
  unfold execFrameRelease
  split
  with_reducible refine KeepsOut.next ?_
  with_reducible refine Keeps.step ?_ (releaseFrame_keeps ..) rfl
  with_reducible refine Keeps.upd ?_
  exact Keeps.refl _ _
  with_reducible refine KeepsOut.next ?_
  exact Keeps.refl _ _

theorem execEviction_keeps (tier : Tier) (s0 : State) :
    KeepsOut [.regs, .port, .lines, .tiers, .pmu] s0 (execEviction tier s0) := by
  unfold execEviction
  dsimp only
  split
  split
  with_reducible refine KeepsOut.next ?_
  with_reducible refine Keeps.step ?_ (queueMove_keeps ..) rfl
  with_reducible refine Keeps.step ?_ (pruneMoves_keeps ..) rfl
  exact Keeps.refl _ _
  with_reducible refine KeepsOut.next ?_
  with_reducible refine Keeps.step ?_ (evictBlocked_keeps ..) rfl
  with_reducible refine Keeps.step ?_ (failCand_keeps ..) rfl
  with_reducible refine Keeps.step ?_ (pruneMoves_keeps ..) rfl
  exact Keeps.refl _ _
  split
  with_reducible refine KeepsOut.next ?_
  with_reducible refine Keeps.step ?_ (queueMove_keeps ..) rfl
  with_reducible refine Keeps.step ?_ (pruneMoves_keeps ..) rfl
  exact Keeps.refl _ _
  with_reducible refine KeepsOut.next ?_
  with_reducible refine Keeps.step ?_ (pruneMoves_keeps ..) rfl
  exact Keeps.refl _ _

theorem execReserveRefill_keeps (tier : Tier) (s0 : State) :
    KeepsOut [.tiers] s0 (execReserveRefill tier s0) := by
  unfold execReserveRefill
  dsimp only
  split
  split
  with_reducible refine KeepsOut.next ?_
  with_reducible refine Keeps.step ?_ (queueMove_keeps ..) rfl
  with_reducible refine Keeps.step ?_ (pruneMoves_keeps ..) rfl
  exact Keeps.refl _ _
  with_reducible refine KeepsOut.next ?_
  with_reducible refine Keeps.step ?_ (pruneMoves_keeps ..) rfl
  exact Keeps.refl _ _
  with_reducible refine KeepsOut.next ?_
  with_reducible refine Keeps.step ?_ (pruneMoves_keeps ..) rfl
  exact Keeps.refl _ _

theorem execLandingMove_keeps (line : LineNo) (seq : Seq) (name : DevAddr) (s : State) :
    KeepsOut [.regs, .port, .lines, .tiers, .pmu] s (execLandingMove line seq name s) := by
  unfold execLandingMove
  dsimp only
  split
  with_reducible refine KeepsOut.next ?_
  exact Keeps.refl _ _
  split
  split
  with_reducible refine KeepsOut.next ?_
  with_reducible refine Keeps.step ?_ (queueMove_keeps ..) rfl
  exact Keeps.refl _ _
  split
  with_reducible refine KeepsOut.next ?_
  exact Keeps.refl _ _
  split
  with_reducible refine KeepsOut.next ?_
  with_reducible refine Keeps.step ?_ (queueMove_keeps ..) rfl
  exact Keeps.refl _ _
  with_reducible refine KeepsOut.next ?_
  with_reducible refine Keeps.step ?_ (evictBlocked_keeps ..) rfl
  with_reducible refine Keeps.step ?_ (opSet_keeps ..) rfl
  exact Keeps.refl _ _
  with_reducible refine KeepsOut.next ?_
  exact Keeps.refl _ _

end Sys2Proof.Machine
end

