-- ==== Sys2Proof/Laws/KeepsChannels.lean ====
section
/-! SUPPORT. What each operation of Machine/Channels.lean may change, and that it keeps the stores canonical. -/

set_option Elab.async false

namespace Sys2Proof.Machine

open Sys2Proof

theorem bankSet_keeps (s : State) (k : Nat) (b : Bank) :
    Keeps [.eng] s (bankSet s k b) := by
  unfold bankSet
  with_reducible refine Keeps.upd ?_
  exact Keeps.refl _ _

theorem refreshSet_keeps (s : State) (k : Nat) (r : Refresh) :
    Keeps [.refresh] s (refreshSet s k r) := by
  unfold refreshSet
  with_reducible refine Keeps.upd ?_
  exact Keeps.refl _ _

theorem noteHeld_keeps (s : State) (fa : Nat) :
    Keeps [.eng] s (noteHeld s fa) := by
  unfold noteHeld
  dsimp only
  split
  with_reducible refine Keeps.upd ?_
  with_reducible refine Keeps.step ?_ (bankSet_keeps ..) rfl
  exact Keeps.refl _ _
  exact Keeps.refl _ _

theorem noteWait_keeps (s : State) (fa : Nat) :
    Keeps [.eng] s (noteWait s fa) := by
  unfold noteWait
  dsimp only
  split
  with_reducible refine Keeps.step ?_ (noteHeld_keeps ..) rfl
  exact Keeps.refl _ _
  exact Keeps.refl _ _

theorem strandSet_keeps (s : State) (k : Nat) (x : Strand) :
    Keeps [.strands] s (strandSet s k x) := by
  unfold strandSet
  with_reducible refine Keeps.upd ?_
  exact Keeps.refl _ _

theorem fidAnswer_keeps (s : State) (strand : Nat) (d : BitVec 256) (f : Byte) (ch : Bool) :
    Keeps [.strands] s (fidAnswer s strand d f ch) := by
  unfold fidAnswer
  with_reducible refine Keeps.step ?_ (strandSet_keeps ..) rfl
  exact Keeps.refl _ _

theorem fidRequest_keeps {ps : List Part} (s : State) (c : Instr) (strand : StrandNo) (account : Acct) (addr : DevAddr) (rmw write : Bool)
    (bad : State → State) (act : State → Nat → State) (hs : subParts [.regs, .port, .ingress, .tiers, .eng, .pmu] ps = true)
    (hb : ∀ t, Keeps ps t (bad t)) (ha : ∀ t fa, Keeps ps t (act t fa)) :
    KeepsOut ps s (fidRequest s c strand account addr rmw write bad act) := by
  have sub {qs : List Part} (h : subParts qs [.regs, .port, .ingress, .tiers, .eng, .pmu] = true) : subParts qs ps = true :=
    subParts_trans h hs
  unfold fidRequest
  extract_lets a acct src at_ s1 s2
  split
  · exact KeepsOut.next (Keeps.refl _ _)
  · have h1 : Keeps ps s s1 := (Keeps.refl _ _).step (pmuAdd_keeps ..) (sub rfl)
    have h2 : Keeps ps s s2 := by
      dsimp only [s2]
      split
      · exact h1.step (pmuAdd_keeps ..) (sub rfl)
      · exact h1
    clear_value s2
    split
    · refine KeepsOut.next (Keeps.trans' ?_ (hb _))
      split
      · exact h2.step (badAccess_keeps ..) (sub rfl)
      · exact h2
    · split
      · refine KeepsOut.next (Keeps.step ?_ (holdReq_keeps ..) (sub rfl))
        split
        · exact (Keeps.refl _ _).step (noteHeld_keeps ..) (sub rfl)
        · exact Keeps.refl _ _
      · exact KeepsOut.next (h2.trans' (ha _ _))

theorem fidStore_keeps (s : State) (a : Nat) (runs : List (Nat × List Byte)) :
    Keeps [.regs, .port, .lines, .mem, .tiers, .net, .pmu] s (fidStore s a runs) := by
  unfold fidStore
  exact Keeps.foldl (Keeps.refl _ _) (fun t q ht => ht.step (writePiece_keeps _ _ _ (t, false) _) rfl)

theorem fidReadDone_keeps (s : State) (strand : StrandNo) (fa : Nat) :
    Keeps [.strands] s (fidReadDone s strand fa) := by
  unfold fidReadDone
  with_reducible refine Keeps.step ?_ (fidAnswer_keeps ..) rfl
  exact Keeps.refl _ _

theorem execFidWrite_keeps (strand : StrandNo) (account : Acct) (addr : DevAddr) (data : BitVec 256) (mask : BitVec 32) (s : State) :
    KeepsOut [.free, .regs, .port, .ingress, .lines, .mem, .tiers, .eng, .net, .pmu] s (execFidWrite strand account addr data mask s) := by
  unfold execFidWrite
  with_reducible refine fidRequest_keeps _ _ _ _ _ _ _ _ _ rfl (fun _ => ?_) (fun _ _ => ?_)
  exact Keeps.refl _ _
  with_reducible refine Keeps.step ?_ (drawn_keeps ..) rfl
  with_reducible refine Keeps.step ?_ (fidStore_keeps ..) rfl
  exact Keeps.refl _ _

theorem fidRmw_keeps (c : Instr) (strand : StrandNo) (account : Acct) (addr : DevAddr) (data : BitVec 256) (lanes : BitVec 8) (f : W32 → W32 → W32 × Byte) (s : State) :
    KeepsOut [.free, .regs, .port, .ingress, .lines, .strands, .mem, .tiers, .eng, .net, .pmu] s (fidRmw c strand account addr data lanes f s) := by
  unfold fidRmw
  with_reducible refine fidRequest_keeps _ _ _ _ _ _ _ _ _ rfl (fun _ => ?_) (fun _ _ => ?_)
  with_reducible refine Keeps.step ?_ (fidAnswer_keeps ..) rfl
  exact Keeps.refl _ _
  dsimp only
  with_reducible refine Keeps.step ?_ (fidAnswer_keeps ..) rfl
  with_reducible refine Keeps.step ?_ (drawn_keeps ..) rfl
  with_reducible refine Keeps.step ?_ (fidStore_keeps ..) rfl
  exact Keeps.refl _ _

theorem execFidAddI32_keeps (strand : StrandNo) (account : Acct) (addr : DevAddr) (data : BitVec 256) (lanes : BitVec 8) (s : State) :
    KeepsOut [.free, .regs, .port, .ingress, .lines, .strands, .mem, .tiers, .eng, .net, .pmu] s (execFidAddI32 strand account addr data lanes s) :=
  fidRmw_keeps _ strand account addr data lanes _ s

theorem execFidAddW32_keeps (strand : StrandNo) (account : Acct) (addr : DevAddr) (data : BitVec 256) (lanes : BitVec 8) (s : State) :
    KeepsOut [.free, .regs, .port, .ingress, .lines, .strands, .mem, .tiers, .eng, .net, .pmu] s (execFidAddW32 strand account addr data lanes s) :=
  fidRmw_keeps _ strand account addr data lanes _ s

theorem execFidMaxW32_keeps (strand : StrandNo) (account : Acct) (addr : DevAddr) (data : BitVec 256) (lanes : BitVec 8) (s : State) :
    KeepsOut [.free, .regs, .port, .ingress, .lines, .strands, .mem, .tiers, .eng, .net, .pmu] s (execFidMaxW32 strand account addr data lanes s) :=
  fidRmw_keeps _ strand account addr data lanes _ s

theorem execFidOr_keeps (strand : StrandNo) (account : Acct) (addr : DevAddr) (data : BitVec 256) (lanes : BitVec 8) (s : State) :
    KeepsOut [.free, .regs, .port, .ingress, .lines, .strands, .mem, .tiers, .eng, .net, .pmu] s (execFidOr strand account addr data lanes s) :=
  fidRmw_keeps _ strand account addr data lanes _ s

theorem xorBytes_keeps (s : State) (fa : Nat) (w : List (Nat × Byte)) :
    Keeps [.mem] s (xorBytes s fa w) := by
  unfold xorBytes
  with_reducible refine Keeps.foldl ?_ (fun _ _ _ => ?_)
  exact Keeps.refl _ _
  with_reducible refine Keeps.step ?_ (putByte_keeps ..) rfl
  assumption

theorem setMark_keeps (s : State) (fa : Nat) (b : Bool) :
    Keeps [.regs, .port, .lines, .mem, .tiers, .net, .pmu] s (setMark s fa b) := by
  unfold setMark
  split
  exact Keeps.refl _ _
  dsimp only
  split
  split
  with_reducible refine Keeps.step ?_ (chafeAt_keeps ..) rfl
  exact Keeps.refl _ _
  with_reducible refine Keeps.step ?_ (syncChafe_keeps ..) rfl
  with_reducible refine Keeps.updMem ?_
  exact Keeps.refl _ _
  split
  with_reducible refine Keeps.step ?_ (pmuAdd_keeps ..) rfl
  with_reducible refine Keeps.step ?_ (markGran_keeps ..) rfl
  exact Keeps.refl _ _
  with_reducible refine Keeps.updMem ?_
  exact Keeps.refl _ _

theorem ueFoundAt_keeps (s : State) (fa : Nat) :
    Keeps [.regs, .port, .lines, .mem, .tiers, .stackSt, .net, .pmu] s (ueFoundAt s fa) := by
  unfold ueFoundAt
  dsimp only
  split
  with_reducible refine Keeps.step ?_ (chafeAt_keeps ..) rfl
  split
  with_reducible refine Keeps.step ?_ (countUe_keeps ..) rfl
  exact Keeps.refl _ _
  exact Keeps.refl _ _
  split
  split
  with_reducible refine Keeps.step ?_ (countUe_keeps ..) rfl
  exact Keeps.refl _ _
  with_reducible refine Keeps.step ?_ (pmuAdd_keeps ..) rfl
  with_reducible refine Keeps.step ?_ (markGran_keeps ..) rfl
  with_reducible refine Keeps.step ?_ (countUe_keeps ..) rfl
  exact Keeps.refl _ _
  split
  exact Keeps.refl _ _
  with_reducible refine Keeps.step ?_ (pmuAdd_keeps ..) rfl
  with_reducible refine Keeps.step ?_ (markGran_keeps ..) rfl
  exact Keeps.refl _ _

theorem leftWrong_keeps (s : State) (fa : Nat) (w : List (Nat × BitVec 16)) :
    Keeps [.regs, .port, .lines, .mem, .tiers, .net, .pmu] s (leftWrong s fa w) := by
  unfold leftWrong
  with_reducible refine Keeps.step ?_ (setMark_keeps ..) rfl
  with_reducible refine Keeps.step ?_ (xorBytes_keeps ..) rfl
  exact Keeps.refl _ _

theorem meetError_keeps (s : State) (fa : Nat) (err : EccErr) :
    Keeps [.free, .regs, .port, .lines, .mem, .tiers, .stackSt, .net, .pmu] s (meetError s fa err) := by
  unfold meetError
  dsimp only
  split
  exact Keeps.refl _ _
  split
  exact Keeps.refl _ _
  split
  with_reducible refine Keeps.step ?_ (setMark_keeps ..) rfl
  with_reducible refine Keeps.step ?_ (xorBytes_keeps ..) rfl
  exact Keeps.refl _ _
  split
  with_reducible refine Keeps.step ?_ (leftWrong_keeps ..) rfl
  exact Keeps.refl _ _
  with_reducible refine Keeps.step ?_ (leftWrong_keeps ..) rfl
  with_reducible refine Keeps.step ?_ (countCe_keeps ..) rfl
  exact Keeps.refl _ _
  with_reducible refine Keeps.step ?_ (ueFoundAt_keeps ..) rfl
  exact Keeps.refl _ _
  split
  exact Keeps.refl _ _
  split
  with_reducible refine Keeps.step ?_ (ueFoundAt_keeps ..) rfl
  with_reducible refine Keeps.step ?_ (drawn_keeps ..) rfl
  exact Keeps.refl _ _
  with_reducible refine Keeps.step ?_ (setMark_keeps ..) rfl
  with_reducible refine Keeps.step ?_ (xorBytes_keeps ..) rfl
  split
  with_reducible refine Keeps.step ?_ (drawn_keeps ..) rfl
  with_reducible refine Keeps.step ?_ (countCe_keeps ..) rfl
  exact Keeps.refl _ _
  exact Keeps.refl _ _
  split
  exact Keeps.refl _ _
  split
  with_reducible refine Keeps.step ?_ (ueFoundAt_keeps ..) rfl
  with_reducible refine Keeps.step ?_ (pmuAdd_keeps ..) rfl
  with_reducible refine Keeps.step ?_ (stackSet_keeps ..) rfl
  exact Keeps.refl _ _
  with_reducible refine Keeps.step ?_ (pmuAdd_keeps ..) rfl
  with_reducible refine Keeps.step ?_ (stackSet_keeps ..) rfl
  exact Keeps.refl _ _
  split
  exact Keeps.refl _ _
  with_reducible refine Keeps.step ?_ (countCe_keeps ..) rfl
  exact Keeps.refl _ _

theorem execFidRead_keeps (strand : StrandNo) (account : Acct) (addr : DevAddr) (err : EccErr) (s : State) :
    KeepsOut [.free, .regs, .port, .ingress, .lines, .strands, .mem, .tiers, .eng, .stackSt, .net, .pmu] s (execFidRead strand account addr err s) := by
  unfold execFidRead
  with_reducible refine fidRequest_keeps _ _ _ _ _ _ _ _ _ rfl (fun _ => ?_) (fun _ _ => ?_)
  with_reducible refine Keeps.step ?_ (fidAnswer_keeps ..) rfl
  exact Keeps.refl _ _
  with_reducible refine Keeps.step ?_ (drawn_keeps ..) rfl
  with_reducible refine Keeps.step ?_ (fidReadDone_keeps ..) rfl
  with_reducible refine Keeps.step ?_ (drawn_keeps ..) rfl
  with_reducible refine Keeps.step ?_ (meetError_keeps ..) rfl
  exact Keeps.refl _ _

theorem execScrubRead_keeps (stack : Stack) (chan : BitVec 7) (granule : BitVec 25) (err : EccErr) (s : State) :
    KeepsOut [.free, .regs, .port, .lines, .mem, .tiers, .eng, .stackSt, .net, .pmu] s (execScrubRead stack chan granule err s) := by
  unfold execScrubRead
  split
  with_reducible refine KeepsOut.next ?_
  exact Keeps.refl _ _
  split
  with_reducible refine KeepsOut.next ?_
  with_reducible refine Keeps.step ?_ (noteHeld_keeps ..) rfl
  exact Keeps.refl _ _
  dsimp only
  with_reducible refine KeepsOut.next ?_
  split
  with_reducible refine Keeps.upd ?_
  with_reducible refine Keeps.step ?_ (meetError_keeps ..) rfl
  exact Keeps.refl _ _
  with_reducible refine Keeps.step ?_ (meetError_keeps ..) rfl
  exact Keeps.refl _ _

theorem execRawParityScrub_keeps (slot : Fin 16) (chan : BitVec 10) (bank : BankNo) (group : Fin 8) (s : State) :
    KeepsOut [.regs, .port, .lines, .mem, .tiers, .eng, .stackSt, .net, .pmu] s (execRawParityScrub slot chan bank group s) := by
  unfold execRawParityScrub
  dsimp only
  split
  with_reducible refine KeepsOut.next ?_
  exact Keeps.refl _ _
  split
  with_reducible refine KeepsOut.next ?_
  with_reducible refine Keeps.step ?_ (noteHeld_keeps ..) rfl
  exact Keeps.refl _ _
  with_reducible refine KeepsOut.next ?_
  with_reducible refine Keeps.foldl ?_ (fun _ _ _ => ?_)
  exact Keeps.refl _ _
  split
  with_reducible refine Keeps.foldl ?_ (fun _ _ _ => ?_)
  with_reducible refine Keeps.step ?_ (countUe_keeps ..) rfl
  with_reducible refine Keeps.foldl ?_ (fun _ _ _ => ?_)
  assumption
  with_reducible refine Keeps.step ?_ (putByte_keeps ..) rfl
  assumption
  with_reducible refine Keeps.step ?_ (chafeAt_keeps ..) rfl
  assumption
  assumption

theorem execRefreshDue_keeps (stack : Stack) (chan : BitVec 7) (bank : BankNo) (s : State) :
    KeepsOut [.refresh] s (execRefreshDue stack chan bank s) := by
  unfold execRefreshDue
  dsimp only
  split
  with_reducible refine KeepsOut.next ?_
  with_reducible refine Keeps.step ?_ (refreshSet_keeps ..) rfl
  exact Keeps.refl _ _
  with_reducible refine KeepsOut.next ?_
  exact Keeps.refl _ _

theorem execRefresh_keeps (stack : Stack) (chan : BitVec 7) (bank : BankNo) (s : State) :
    KeepsOut [.regs, .port, .refresh, .pmu] s (execRefresh stack chan bank s) := by
  unfold execRefresh
  dsimp only
  split
  split
  with_reducible refine KeepsOut.next ?_
  with_reducible refine Keeps.step ?_ (pmuAdd_keeps ..) rfl
  with_reducible refine Keeps.step ?_ (refreshSet_keeps ..) rfl
  exact Keeps.refl _ _
  with_reducible refine KeepsOut.next ?_
  exact Keeps.refl _ _
  split
  with_reducible refine KeepsOut.next ?_
  with_reducible refine Keeps.step ?_ (pmuAdd_keeps ..) rfl
  with_reducible refine Keeps.step ?_ (refreshSet_keeps ..) rfl
  exact Keeps.refl _ _
  with_reducible refine KeepsOut.next ?_
  exact Keeps.refl _ _

end Sys2Proof.Machine
end

