-- ==== Sys2Proof/Laws/KeepsCensus.lean ====
section
/-! SUPPORT. What each operation of Machine/Census.lean may change, and that it keeps the stores canonical. -/

set_option Elab.async false

namespace Sys2Proof.Machine

open Sys2Proof

theorem censusTable_keeps (s : State) (acct : Nat) (tensor : Nat) (flags : Byte) (source : Nat) (fmt : Nat) (c : Census) :
    Keeps [.regs, .port, .lines, .mem, .tiers, .net, .pmu] s (censusTable s acct tensor flags source fmt c) := by
  unfold censusTable
  dsimp only
  split
  exact Keeps.refl _ _
  split
  with_reducible refine Keeps.step ?_ (badAccess_keeps ..) rfl
  exact Keeps.refl _ _
  split
  with_reducible refine Keeps.step ?_ (raiseCause_keeps ..) rfl
  with_reducible refine Keeps.upd ?_
  exact Keeps.refl _ _
  with_reducible refine Keeps.step ?_ (putStruct_keeps ..) rfl
  exact Keeps.refl _ _

theorem censusWrite_keeps (s : State) (acct tensor : Nat) (flags : Byte) (source fmt strand : Nat) (c : Census) :
    Keeps [.regs, .port, .lines, .mem, .tiers, .net, .pmu] s (censusWrite s acct tensor flags source fmt strand c).1 := by
  rw [censusWrite]
  have h1 := censusTable_keeps s acct tensor flags source fmt c
  generalize censusTable s acct tensor flags source fmt c = s1 at h1 ⊢
  dsimp only
  split
  · exact h1
  · split
    · refine Keeps.step ?_ (raiseCause_keeps ..) rfl
      with_reducible refine Keeps.upd ?_
      exact h1
    · have h2 := h1.step (putStruct_keeps s1 (actF s1 flCensusBase acct + 64 * mapGet 0 s1.pmu.censusTail acct)
        (censusRecord tensor flags source fmt strand c s1.tb.now)) (ps := [.regs, .port, .lines, .mem, .tiers, .net, .pmu]) rfl
      generalize putStruct s1 _ _ = s2 at h2 ⊢
      with_reducible refine Keeps.upd ?_
      exact h2

end Sys2Proof.Machine
end

