-- ==== Sys2Proof/Laws/KeepsOperands.lean ====
section
/-! SUPPORT. What each operation of Machine/Operands.lean may change, and that it keeps the stores canonical. -/

set_option Elab.async false

namespace Sys2Proof.Machine

open Sys2Proof

theorem eyeWrite_keeps (s : State) (k : Nat) (bs : List Byte) (mark : Bool) :
    Keeps [.mem] s (eyeWrite s k bs mark) := by
  unfold eyeWrite
  refine Keeps.setMem (Keeps.refl _ _) _ rfl (fun h => Mem.wf_of h id id (fun he => ?_) id id (fun hx => ?_) id)
  · exact foldl_keeps (fun (m : SMap Byte) => mapWf 0 m = true) _ _ _ he (fun m q hm => mapSet_wf _ _ _ _ hm)
  · refine foldl_keeps (fun (m : List Nat) => rising m = true) _ _ _ hx (fun m q hm => ?_)
    split
    · exact setIns_rising _ _ hm
    · split
      · exact setDel_rising _ _ hm
      · exact hm

theorem placeWrite_keeps (s : State) (strand : Nat) (acct : Nat) (p : Place) (bs : List Byte) (mark : Bool) :
    Keeps [.regs, .port, .lines, .mem, .tiers, .net, .pmu] s (placeWrite s strand acct p bs mark).1 := by
  rw [placeWrite]
  split
  dsimp only
  with_reducible refine Keeps.step ?_ (eyeWrite_keeps ..) rfl
  exact Keeps.refl _ _
  with_reducible refine Keeps.step ?_ (devWrite_keeps ..) rfl
  exact Keeps.refl _ _

theorem noteAccess_keeps (s : State) (acct : Nat) (bs : List Nat) :
    Keeps [.tiers] s (noteAccess s acct bs) := by
  unfold noteAccess
  with_reducible refine Keeps.foldl ?_ (fun _ _ _ => ?_)
  exact Keeps.refl _ _
  split
  with_reducible refine Keeps.step ?_ (badAccess_keeps ..) rfl
  assumption
  with_reducible refine Keeps.step ?_ (touchBlock_keeps ..) rfl
  assumption

theorem noteWaits_keeps (s : State) (ss : List (Nat × Nat)) (write : Bool) :
    Keeps [.eng] s (noteWaits s ss write) := by
  unfold noteWaits
  with_reducible refine Keeps.foldl ?_ (fun _ _ _ => ?_)
  exact Keeps.refl _ _
  with_reducible refine Keeps.step ?_ (noteWait_keeps ..) rfl
  assumption

theorem noteWritten_keeps (s : State) (acct : Nat) (ss : List (Nat × Nat)) :
    Keeps [.tiers] s (noteWritten s acct ss) := by
  unfold noteWritten
  with_reducible refine Keeps.step ?_ (noteAccess_keeps ..) rfl
  exact Keeps.refl _ _

end Sys2Proof.Machine
end

