-- ==== Sys2Proof/Laws/KeepsCapBase.lean ====
section
/-! SUPPORT. What each operation of Machine/CapBase.lean may change, and that it keeps the stores canonical. -/

set_option Elab.async false

namespace Sys2Proof.Machine

open Sys2Proof

theorem sendCtl_keeps (s : State) (o : OpEnt) (dev : Nat) (kind : Nat) (status : Nat) :
    Keeps [.regs, .port, .net, .pmu] s (sendCtl s o dev kind status) := by
  unfold sendCtl
  with_reducible refine Keeps.step ?_ (sendFrame_keeps ..) rfl
  exact Keeps.refl _ _

theorem sendAborts_keeps (s : State) (o : OpEnt) (status : Nat) :
    Keeps [.regs, .port, .net, .pmu] s (sendAborts s o status) := by
  unfold sendAborts
  with_reducible refine Keeps.foldl ?_ (fun _ _ _ => ?_)
  exact Keeps.refl _ _
  with_reducible refine Keeps.step ?_ (sendCtl_keeps ..) rfl
  assumption

theorem scribbleByte_keeps (s : State) (strand : Nat) (acct : Nat) (p : Place) (b : Byte) :
    Keeps [.regs, .port, .lines, .mem, .tiers, .net, .pmu] s (scribbleByte s strand acct p b) := by
  unfold scribbleByte
  dsimp only
  with_reducible refine Keeps.step ?_ (placeWrite_keeps ..) rfl
  exact Keeps.refl _ _

theorem scribbleOut_keeps (s : State) (n : Nat) (o : OpEnt) :
    Keeps [.free, .regs, .port, .lines, .mem, .tiers, .net, .pmu] s (scribbleOut s n o) := by
  unfold scribbleOut
  dsimp only
  with_reducible refine Keeps.step ?_ (drawn_keeps ..) rfl
  with_reducible refine Keeps.foldl ?_ (fun _ _ _ => ?_)
  exact Keeps.refl _ _
  with_reducible refine Keeps.step ?_ (scribbleByte_keeps ..) rfl
  assumption

theorem countColl_keeps (s : State) (n : Nat) (st : Nat) :
    Keeps [.regs, .port, .pmu] s (countColl s n st) := by
  unfold countColl
  dsimp only
  split
  with_reducible refine Keeps.step ?_ (pmuAdd_keeps ..) rfl
  exact Keeps.refl _ _
  with_reducible refine Keeps.step ?_ (pmuAdd_keeps ..) rfl
  with_reducible refine Keeps.step ?_ (pmuAdd_keeps ..) rfl
  exact Keeps.refl _ _

theorem collFail_keeps (s : State) (n : Nat) (o : OpEnt) (st : Nat) :
    Keeps [.free, .regs, .port, .lines, .hitches, .mem, .tiers, .net, .pmu] s (collFail s n o st) := by
  unfold collFail
  dsimp only
  with_reducible refine Keeps.step ?_ (finishOp_keeps ..) rfl
  with_reducible refine Keeps.step ?_ (countColl_keeps ..) rfl
  with_reducible refine Keeps.step ?_ (scribbleOut_keeps ..) rfl
  exact Keeps.refl _ _

end Sys2Proof.Machine
end

