-- ==== Sys2Proof/Laws/KeepsSnapBase.lean ====
section
/-! SUPPORT. What each operation of Machine/SnapBase.lean may change, and that it keeps the stores canonical. -/

set_option Elab.async false

namespace Sys2Proof.Machine

open Sys2Proof

theorem snapRelease_keeps (s : State) (n : Nat) (seq : Nat) :
    Keeps [.tiers, .net] s (snapRelease s n seq) := by
  unfold snapRelease
  with_reducible refine Keeps.upd ?_
  exact Keeps.refl _ _

theorem snapEnd_keeps (s : State) (n : Nat) (o : OpEnt) (st : Nat) :
    Keeps [.regs, .port, .lines, .hitches, .mem, .tiers, .net, .pmu] s (snapEnd s n o st) := by
  unfold snapEnd
  with_reducible refine Keeps.step ?_ (finishOp_keeps ..) rfl
  with_reducible refine Keeps.step ?_ (snapRelease_keeps ..) rfl
  exact Keeps.refl _ _

end Sys2Proof.Machine
end

