-- ==== Sys2Proof/Laws/KeepsLinks.lean ====
section
/-! SUPPORT. What each operation of Machine/Links.lean may change, and that it keeps the stores canonical. -/

set_option Elab.async false

namespace Sys2Proof.Machine

open Sys2Proof

theorem noteSlow_keeps (s : State) (dev : Nat) :
    Keeps [.lines] s (noteSlow s dev) := by
  unfold noteSlow
  with_reducible refine Keeps.foldl ?_ (fun _ _ _ => ?_)
  exact Keeps.refl _ _
  split
  with_reducible refine Keeps.step ?_ (opSet_keeps ..) rfl
  assumption
  assumption

theorem peerHeard_keeps (s : State) (dev : Nat) (stat : BitVec 3) :
    Keeps [.lines, .net] s (peerHeard s dev stat) := by
  unfold peerHeard
  dsimp only
  split
  with_reducible refine Keeps.step ?_ (noteSlow_keeps ..) rfl
  with_reducible refine Keeps.step ?_ (peerSet_keeps ..) rfl
  exact Keeps.refl _ _
  with_reducible refine Keeps.step ?_ (peerSet_keeps ..) rfl
  exact Keeps.refl _ _

theorem endColls_keeps (s : State) (dev : Nat) :
    Keeps [.free, .regs, .port, .lines, .hitches, .mem, .tiers, .net, .pmu] s (endColls s dev) := by
  unfold endColls
  with_reducible refine Keeps.foldl ?_ (fun _ _ _ => ?_)
  exact Keeps.refl _ _
  split
  with_reducible refine Keeps.step ?_ (collFail_keeps ..) rfl
  assumption
  assumption

theorem endFlushes_keeps (s : State) (dev : Nat) :
    Keeps [.regs, .port, .lines, .hitches, .mem, .tiers, .net, .pmu] s (endFlushes s dev) := by
  unfold endFlushes
  with_reducible refine Keeps.foldl ?_ (fun _ _ _ => ?_)
  exact Keeps.refl _ _
  dsimp only
  split
  with_reducible refine Keeps.step ?_ (finishOp_keeps ..) rfl
  with_reducible refine Keeps.upd ?_
  assumption
  with_reducible refine Keeps.upd ?_
  assumption

theorem endPuts_keeps (s : State) (dev : Nat) :
    Keeps [.regs, .port, .lines, .hitches, .mem, .tiers, .net, .pmu] s (endPuts s dev) := by
  unfold endPuts
  with_reducible refine Keeps.foldl ?_ (fun _ _ _ => ?_)
  exact Keeps.refl _ _
  with_reducible refine Keeps.step ?_ (snapEnd_keeps ..) rfl
  assumption

theorem moveRepairs_keeps (s : State) (dev : Nat) :
    Keeps [.regs, .port, .tiers, .net, .pmu] s (moveRepairs s dev) := by
  unfold moveRepairs
  with_reducible refine Keeps.foldl ?_ (fun _ _ _ => ?_)
  exact Keeps.refl _ _
  dsimp only
  split
  with_reducible refine Keeps.step ?_ (repairNext_keeps ..) rfl
  assumption
  assumption

theorem peerDown_keeps (s : State) (dev : Nat) (st : PeerState) (cause : Nat) :
    Keeps [.free, .regs, .port, .lines, .hitches, .mem, .tiers, .net, .pmu] s (peerDown s dev st cause) := by
  unfold peerDown
  split
  exact Keeps.refl _ _
  dsimp only
  with_reducible refine Keeps.step ?_ (moveRepairs_keeps ..) rfl
  with_reducible refine Keeps.step ?_ (endPuts_keeps ..) rfl
  with_reducible refine Keeps.step ?_ (endFlushes_keeps ..) rfl
  with_reducible refine Keeps.step ?_ (endColls_keeps ..) rfl
  with_reducible refine Keeps.step ?_ (raiseCause_keeps ..) rfl
  with_reducible refine Keeps.upd ?_
  with_reducible refine Keeps.step ?_ (peerSet_keeps ..) rfl
  exact Keeps.refl _ _

theorem markUnreachable_keeps (s : State) (cause : Nat) :
    Keeps [.free, .regs, .port, .lines, .hitches, .mem, .tiers, .net, .pmu] s (markUnreachable s cause) := by
  unfold markUnreachable
  dsimp only
  with_reducible refine Keeps.foldl ?_ (fun _ _ _ => ?_)
  exact Keeps.refl _ _
  with_reducible refine Keeps.step ?_ (peerDown_keeps ..) rfl
  assumption

theorem setLocked_keeps (s : State) (b : Bool) :
    Keeps [.tb, .regs, .port, .pmu] s (setLocked s b) := by
  unfold setLocked
  dsimp only
  split
  with_reducible refine Keeps.step ?_ (raiseCause_keeps ..) rfl
  with_reducible refine Keeps.upd ?_
  exact Keeps.refl _ _
  with_reducible refine Keeps.upd ?_
  exact Keeps.refl _ _

theorem syncPath_keeps (s : State) :
    Keeps [.tb, .regs, .port, .pmu] s (syncPath s) := by
  unfold syncPath
  split
  exact Keeps.refl _ _
  split
  with_reducible refine Keeps.upd ?_
  exact Keeps.refl _ _
  with_reducible refine Keeps.step ?_ (setLocked_keeps ..) rfl
  with_reducible refine Keeps.upd ?_
  exact Keeps.refl _ _

theorem declareLost_keeps (s : State) (dev : Nat) (cause : Nat) :
    Keeps [.free, .regs, .port, .lines, .hitches, .mem, .tiers, .net, .pmu] s (declareLost s dev cause) := by
  unfold declareLost
  split
  exact Keeps.refl _ _
  dsimp only
  with_reducible refine Keeps.step ?_ (sendAllUp_keeps ..) rfl
  with_reducible refine Keeps.step ?_ (peerDown_keeps ..) rfl
  exact Keeps.refl _ _

theorem linkLost_keeps (s : State) (k : Nat) (cause : Nat) (orderly : Option Nat) :
    Keeps [.free, .tb, .regs, .port, .lines, .hitches, .mem, .tiers, .net, .pmu] s (linkLost s k cause orderly) := by
  unfold linkLost
  dsimp only
  with_reducible refine Keeps.step ?_ (syncPath_keeps ..) rfl
  split
  split
  with_reducible refine Keeps.step ?_ (declareLost_keeps ..) rfl
  with_reducible refine Keeps.step ?_ (raiseCause_keeps ..) rfl
  with_reducible refine Keeps.step ?_ (linkSet_keeps ..) rfl
  exact Keeps.refl _ _
  with_reducible refine Keeps.step ?_ (raiseCause_keeps ..) rfl
  with_reducible refine Keeps.step ?_ (linkSet_keeps ..) rfl
  exact Keeps.refl _ _
  with_reducible refine Keeps.step ?_ (markUnreachable_keeps ..) rfl
  split
  with_reducible refine Keeps.step ?_ (declareLost_keeps ..) rfl
  with_reducible refine Keeps.step ?_ (linkSet_keeps ..) rfl
  exact Keeps.refl _ _
  split
  with_reducible refine Keeps.step ?_ (peerDown_keeps ..) rfl
  with_reducible refine Keeps.step ?_ (linkSet_keeps ..) rfl
  exact Keeps.refl _ _
  with_reducible refine Keeps.step ?_ (declareLost_keeps ..) rfl
  with_reducible refine Keeps.step ?_ (linkSet_keeps ..) rfl
  exact Keeps.refl _ _

theorem heard_keeps (s : State) (k : Nat) (f : Frame) :
    Keeps [.regs, .port, .lines, .net, .pmu] s (heard s k f) := by
  unfold heard
  dsimp only
  split
  with_reducible refine Keeps.step ?_ (peerHeard_keeps ..) rfl
  with_reducible refine Keeps.step ?_ (pump_keeps ..) rfl
  with_reducible refine Keeps.step ?_ (pmuAdd_keeps ..) rfl
  with_reducible refine Keeps.step ?_ (linkSet_keeps ..) rfl
  exact Keeps.refl _ _
  with_reducible refine Keeps.step ?_ (pump_keeps ..) rfl
  with_reducible refine Keeps.step ?_ (pmuAdd_keeps ..) rfl
  with_reducible refine Keeps.step ?_ (linkSet_keeps ..) rfl
  exact Keeps.refl _ _

theorem crcBad_keeps (s : State) (k : Nat) :
    Keeps [.regs, .port, .net, .pmu] s (crcBad s k) := by
  unfold crcBad
  dsimp only
  with_reducible refine Keeps.step ?_ (sendOn_keeps ..) rfl
  with_reducible refine Keeps.step ?_ (linkSet_keeps ..) rfl
  exact Keeps.refl _ _

theorem localRx_keeps {ps : List Part} (k : LinkNo) (f : Frame) (typ : BitVec 4) (act : State → State) (s : State)
    (hs : subParts [.regs, .port, .lines, .net, .pmu] ps = true) (ha : ∀ t, Keeps ps t (act t)) :
    KeepsOut ps s (localRx k f typ act s) := by
  unfold localRx
  split
  · exact KeepsOut.next (Keeps.refl _ _)
  · split
    · exact KeepsOut.next ((Keeps.refl _ _).step (crcBad_keeps ..) (subParts_trans rfl hs))
    · exact KeepsOut.next (((Keeps.refl _ _).step (heard_keeps ..) (subParts_trans rfl hs)).trans' (ha _))

theorem returnCredit_keeps (s : State) (k : Nat) (vc : Nat) (cells : Nat) :
    Keeps [.regs, .port, .net, .pmu] s (returnCredit s k vc cells) := by
  unfold returnCredit
  dsimp only
  with_reducible refine Keeps.step ?_ (sendOn_keeps ..) rfl
  with_reducible refine Keeps.step ?_ (linkSet_keeps ..) rfl
  exact Keeps.refl _ _

theorem inTransit_keeps (s : State) (x : Nat × Frame × Nat × Nat × Nat) :
    Keeps [.net] s (inTransit s x) := by
  unfold inTransit
  with_reducible refine Keeps.upd ?_
  exact Keeps.refl _ _

theorem settleTransit_keeps (s : State) :
    Keeps [.regs, .port, .net, .pmu] s (settleTransit s) := by
  unfold settleTransit
  dsimp only
  with_reducible refine Keeps.foldl ?_ (fun _ _ _ => ?_)
  with_reducible refine Keeps.upd ?_
  exact Keeps.refl _ _
  with_reducible refine Keeps.step ?_ (returnCredit_keeps ..) rfl
  assumption

theorem seqRx_keeps {ps : List Part} (k : LinkNo) (f : Frame) (ok : Frame → Bool) (act : State → State × Bool) (s : State)
    (hs : subParts [.regs, .port, .lines, .net, .pmu] ps = true) (ha : ∀ t, Keeps ps t (act t).1) :
    KeepsOut ps s (seqRx k f ok act s) := by
  unfold seqRx
  split
  · exact KeepsOut.next (Keeps.refl _ _)
  · split
    · exact KeepsOut.next ((Keeps.refl _ _).step (crcBad_keeps ..) (subParts_trans rfl hs))
    · have h1 : Keeps ps s (heard s k.val f) := (Keeps.refl _ _).step (heard_keeps ..) (subParts_trans rfl hs)
      generalize heard s k.val f = s1 at h1 ⊢
      dsimp only
      split
      · have h2 : Keeps ps s (linkSet s1 k.val { linkGet s1 k.val with rxLast := f.lseq, discarding := false }) :=
          h1.step (linkSet_keeps ..) (subParts_trans rfl hs)
        generalize linkSet s1 k.val _ = s2 at h2 ⊢
        have hd : ∀ d : State × Bool, Keeps ps s d.1 →
            Keeps ps s (if d.2 then returnCredit d.1 k.val (vcOf f) (cellsOf f) else d.1) := by
          intro d hd
          split
          · exact hd.step (returnCredit_keeps ..) (subParts_trans rfl hs)
          · exact hd
        refine KeepsOut.next (hd _ ?_)
        split
        · exact h2
        · split
          · exact h2.trans' (ha _)
          · have h3 : Keeps ps s (routeFrame s2 f false) := h2.step (routeFrame_keeps ..) (subParts_trans rfl hs)
            split
            · exact h3.step (inTransit_keeps ..) (subParts_trans rfl hs)
            · exact h3
          · exact h2.step (routeFrame_keeps ..) (subParts_trans rfl hs)
      · split
        · exact KeepsOut.next h1
        · exact KeepsOut.next (h1.step (crcBad_keeps ..) (subParts_trans rfl hs))

theorem execLinkTrainingAttempt_keeps (link : LinkNo) (s : State) :
    KeepsOut [.net] s (execLinkTrainingAttempt link s) := by
  unfold execLinkTrainingAttempt
  dsimp only
  split
  with_reducible refine KeepsOut.next ?_
  with_reducible refine Keeps.step ?_ (linkSet_keeps ..) rfl
  exact Keeps.refl _ _
  with_reducible refine KeepsOut.next ?_
  exact Keeps.refl _ _

theorem execLinkTrainingEnd_keeps (link : LinkNo) (ok : Bool) (s : State) :
    KeepsOut [.regs, .port, .net, .pmu] s (execLinkTrainingEnd link ok s) := by
  unfold execLinkTrainingEnd
  dsimp only
  split
  with_reducible refine KeepsOut.next ?_
  exact Keeps.refl _ _
  split
  with_reducible refine KeepsOut.next ?_
  with_reducible refine Keeps.step ?_ (sendOn_keeps ..) rfl
  with_reducible refine Keeps.step ?_ (linkSet_keeps ..) rfl
  exact Keeps.refl _ _
  with_reducible refine KeepsOut.next ?_
  with_reducible refine Keeps.step ?_ (linkSet_keeps ..) rfl
  exact Keeps.refl _ _

theorem execHello_keeps (link : LinkNo) (f : Frame) (s : State) :
    KeepsOut [.tb, .regs, .port, .lines, .net, .pmu] s (execHello link f s) := by
  unfold execHello
  dsimp only
  split
  with_reducible refine KeepsOut.next ?_
  exact Keeps.refl _ _
  split
  split
  with_reducible refine KeepsOut.next ?_
  with_reducible refine Keeps.step ?_ (heard_keeps ..) rfl
  exact Keeps.refl _ _
  with_reducible refine KeepsOut.next ?_
  with_reducible refine Keeps.step ?_ (crcBad_keeps ..) rfl
  exact Keeps.refl _ _
  split
  with_reducible refine KeepsOut.next ?_
  exact Keeps.refl _ _
  split
  with_reducible refine KeepsOut.next ?_
  with_reducible refine Keeps.step ?_ (syncPath_keeps ..) rfl
  with_reducible refine Keeps.step ?_ (heard_keeps ..) rfl
  with_reducible refine Keeps.step ?_ (linkSet_keeps ..) rfl
  exact Keeps.refl _ _
  with_reducible refine KeepsOut.next ?_
  with_reducible refine Keeps.step ?_ (raiseCause_keeps ..) rfl
  with_reducible refine Keeps.step ?_ (linkSet_keeps ..) rfl
  exact Keeps.refl _ _

theorem execFecUncorrectableCodeword_keeps (link : LinkNo) (s : State) :
    KeepsOut [.net] s (execFecUncorrectableCodeword link s) := by
  unfold execFecUncorrectableCodeword
  dsimp only
  split
  with_reducible refine KeepsOut.next ?_
  with_reducible refine Keeps.step ?_ (linkSet_keeps ..) rfl
  exact Keeps.refl _ _
  with_reducible refine KeepsOut.next ?_
  exact Keeps.refl _ _

theorem execTugIdleTimer_keeps (link : LinkNo) (s : State) :
    KeepsOut [.regs, .port, .net, .pmu] s (execTugIdleTimer link s) := by
  unfold execTugIdleTimer
  split
  with_reducible refine KeepsOut.next ?_
  with_reducible refine Keeps.step ?_ (sendTug_keeps ..) rfl
  exact Keeps.refl _ _
  with_reducible refine KeepsOut.next ?_
  exact Keeps.refl _ _

theorem execTug_keeps (link : LinkNo) (f : Frame) (s : State) :
    KeepsOut [.regs, .port, .lines, .net, .pmu] s (execTug link f s) := by
  unfold execTug
  with_reducible refine localRx_keeps _ _ _ _ _ rfl (fun _ => ?_)
  exact Keeps.refl _ _

theorem execSlip_keeps (link : LinkNo) (f : Frame) (s : State) :
    KeepsOut [.free, .tb, .regs, .port, .lines, .hitches, .mem, .tiers, .net, .pmu] s (execSlip link f s) := by
  unfold execSlip
  with_reducible refine localRx_keeps _ _ _ _ _ rfl (fun _ => ?_)
  with_reducible refine Keeps.step ?_ (linkLost_keeps ..) rfl
  exact Keeps.refl _ _

theorem execCredit_keeps (link : LinkNo) (f : Frame) (s : State) :
    KeepsOut [.regs, .port, .lines, .net, .pmu] s (execCredit link f s) := by
  unfold execCredit
  with_reducible refine localRx_keeps _ _ _ _ _ rfl (fun _ => ?_)
  dsimp only
  split
  with_reducible refine Keeps.step ?_ (pump_keeps ..) rfl
  with_reducible refine Keeps.step ?_ (linkSet_keeps ..) rfl
  exact Keeps.refl _ _
  exact Keeps.refl _ _

theorem resendFrom_keeps (s : State) (k : Nat) (first : BitVec 16) :
    Keeps [.free, .tb, .regs, .port, .lines, .hitches, .mem, .tiers, .net, .pmu] s (resendFrom s k first) := by
  unfold resendFrom
  dsimp only
  split
  exact Keeps.refl _ _
  split
  with_reducible refine Keeps.step ?_ (linkLost_keeps ..) rfl
  exact Keeps.refl _ _
  with_reducible refine Keeps.step ?_ (countSent_keeps ..) rfl
  with_reducible refine Keeps.step ?_ (pmuAdd_keeps ..) rfl
  with_reducible refine Keeps.step ?_ (linkSet_keeps ..) rfl
  exact Keeps.refl _ _

theorem execNak_keeps (link : LinkNo) (f : Frame) (s : State) :
    KeepsOut [.free, .tb, .regs, .port, .lines, .hitches, .mem, .tiers, .net, .pmu] s (execNak link f s) := by
  unfold execNak
  with_reducible refine localRx_keeps _ _ _ _ _ rfl (fun _ => ?_)
  with_reducible refine Keeps.step ?_ (resendFrom_keeps ..) rfl
  exact Keeps.refl _ _

theorem execReplayTimeout_keeps (link : LinkNo) (s : State) :
    KeepsOut [.free, .tb, .regs, .port, .lines, .hitches, .mem, .tiers, .net, .pmu] s (execReplayTimeout link s) := by
  unfold execReplayTimeout
  dsimp only
  split
  split
  with_reducible refine KeepsOut.next ?_
  with_reducible refine Keeps.step ?_ (resendFrom_keeps ..) rfl
  exact Keeps.refl _ _
  with_reducible refine KeepsOut.next ?_
  exact Keeps.refl _ _
  with_reducible refine KeepsOut.next ?_
  exact Keeps.refl _ _

theorem execLinkSilenceTimeout_keeps (link : LinkNo) (s : State) :
    KeepsOut [.free, .tb, .regs, .port, .lines, .hitches, .mem, .tiers, .net, .pmu] s (execLinkSilenceTimeout link s) := by
  unfold execLinkSilenceTimeout
  split
  with_reducible refine KeepsOut.next ?_
  with_reducible refine Keeps.step ?_ (linkLost_keeps ..) rfl
  exact Keeps.refl _ _
  with_reducible refine KeepsOut.next ?_
  exact Keeps.refl _ _

theorem execLossOfSignal_keeps (link : LinkNo) (s : State) :
    KeepsOut [.free, .tb, .regs, .port, .lines, .hitches, .mem, .tiers, .net, .pmu] s (execLossOfSignal link s) := by
  unfold execLossOfSignal
  dsimp only
  split
  with_reducible refine KeepsOut.next ?_
  with_reducible refine Keeps.step ?_ (linkLost_keeps ..) rfl
  exact Keeps.refl _ _
  split
  with_reducible refine KeepsOut.next ?_
  with_reducible refine Keeps.step ?_ (linkSet_keeps ..) rfl
  exact Keeps.refl _ _
  with_reducible refine KeepsOut.next ?_
  exact Keeps.refl _ _

theorem noticed_keeps (s : State) (k : Nat) (f : Frame) :
    Keeps [.free, .regs, .port, .lines, .hitches, .mem, .tiers, .net, .pmu] s (noticed s k f) := by
  unfold noticed
  dsimp only
  split
  exact Keeps.refl _ _
  split
  split
  exact Keeps.refl _ _
  with_reducible refine Keeps.step ?_ (sendAllUp_keeps ..) rfl
  with_reducible refine Keeps.step ?_ (peerDown_keeps ..) rfl
  exact Keeps.refl _ _
  split
  with_reducible refine Keeps.step ?_ (sendAllUp_keeps ..) rfl
  with_reducible refine Keeps.step ?_ (peerSet_keeps ..) rfl
  with_reducible refine Keeps.step ?_ (peerHeard_keeps ..) rfl
  exact Keeps.refl _ _
  exact Keeps.refl _ _

theorem execNotice_keeps (link : LinkNo) (f : Frame) (s : State) :
    KeepsOut [.free, .regs, .port, .lines, .hitches, .mem, .tiers, .net, .pmu] s (execNotice link f s) := by
  unfold execNotice
  with_reducible refine localRx_keeps _ _ _ _ _ rfl (fun _ => ?_)
  with_reducible refine Keeps.step ?_ (noticed_keeps ..) rfl
  exact Keeps.refl _ _

end Sys2Proof.Machine
end

