-- ==== Sys2Proof/Laws/KeepsLanes.lean ====
section
/-! SUPPORT. What each operation of Machine/Lanes.lean may change, and that it keeps the stores canonical. -/

set_option Elab.async false

namespace Sys2Proof.Machine

open Sys2Proof

theorem splSet_keeps (s : State) (chan : Nat) (x : Splicer) :
    Keeps [.eng] s (splSet s chan x) := by
  unfold splSet
  with_reducible refine Keeps.upd ?_
  exact Keeps.refl _ _

theorem engineOp_keeps (e : Engine) (f : W32 → W32 → W32 → W32 × Byte) (dst : Nat) (a : Nat) (b : Nat) (c : Nat) (s : State) :
    KeepsOut [.strands, .eng] s (engineOp e f dst a b c s) := by
  unfold engineOp
  split
  with_reducible refine KeepsOut.next ?_
  with_reducible refine Keeps.step ?_ (strandSet_keeps ..) rfl
  exact Keeps.refl _ _
  with_reducible refine KeepsOut.next ?_
  with_reducible refine Keeps.step ?_ (splSet_keeps ..) rfl
  exact Keeps.refl _ _

theorem vecOnly_keeps (k : StrandNo) (f : W32 → W32 → W32 → W32 × Byte) (dst : BitVec 3) (a : BitVec 4) (b : BitVec 4) (s : State) :
    KeepsOut [.strands, .eng] s (vecOnly k f dst a b s) := by
  unfold vecOnly
  refine KeepsOut.mono (engineOp_keeps _ _ _ _ _ _ _) ?_
  rfl

theorem execMov_keeps (e : Engine) (dst : BitVec 4) (a : BitVec 5) (s : State) :
    KeepsOut [.strands, .eng] s (execMov e dst a s) := by
  unfold execMov
  refine KeepsOut.mono (engineOp_keeps _ _ _ _ _ _ _) ?_
  rfl

theorem execAdd_keeps (e : Engine) (dst : BitVec 4) (a : BitVec 5) (b : BitVec 5) (s : State) :
    KeepsOut [.strands, .eng] s (execAdd e dst a b s) := by
  unfold execAdd
  refine KeepsOut.mono (engineOp_keeps _ _ _ _ _ _ _) ?_
  rfl

theorem execSub_keeps (e : Engine) (dst : BitVec 4) (a : BitVec 5) (b : BitVec 5) (s : State) :
    KeepsOut [.strands, .eng] s (execSub e dst a b s) := by
  unfold execSub
  refine KeepsOut.mono (engineOp_keeps _ _ _ _ _ _ _) ?_
  rfl

theorem execMul_keeps (e : Engine) (dst : BitVec 4) (a : BitVec 5) (b : BitVec 5) (s : State) :
    KeepsOut [.strands, .eng] s (execMul e dst a b s) := by
  unfold execMul
  refine KeepsOut.mono (engineOp_keeps _ _ _ _ _ _ _) ?_
  rfl

theorem execFma_keeps (e : Engine) (dst : BitVec 4) (a : BitVec 5) (b : BitVec 5) (c : BitVec 5) (s : State) :
    KeepsOut [.strands, .eng] s (execFma e dst a b c s) := by
  unfold execFma
  refine KeepsOut.mono (engineOp_keeps _ _ _ _ _ _ _) ?_
  rfl

theorem execMax_keeps (e : Engine) (dst : BitVec 4) (a : BitVec 5) (b : BitVec 5) (s : State) :
    KeepsOut [.strands, .eng] s (execMax e dst a b s) := by
  unfold execMax
  refine KeepsOut.mono (engineOp_keeps _ _ _ _ _ _ _) ?_
  rfl

theorem execMin_keeps (e : Engine) (dst : BitVec 4) (a : BitVec 5) (b : BitVec 5) (s : State) :
    KeepsOut [.strands, .eng] s (execMin e dst a b s) := by
  unfold execMin
  refine KeepsOut.mono (engineOp_keeps _ _ _ _ _ _ _) ?_
  rfl

theorem execAbs_keeps (e : Engine) (dst : BitVec 4) (a : BitVec 5) (s : State) :
    KeepsOut [.strands, .eng] s (execAbs e dst a s) := by
  unfold execAbs
  refine KeepsOut.mono (engineOp_keeps _ _ _ _ _ _ _) ?_
  rfl

theorem execNeg_keeps (e : Engine) (dst : BitVec 4) (a : BitVec 5) (s : State) :
    KeepsOut [.strands, .eng] s (execNeg e dst a s) := by
  unfold execNeg
  refine KeepsOut.mono (engineOp_keeps _ _ _ _ _ _ _) ?_
  rfl

theorem execCmplt_keeps (e : Engine) (dst : BitVec 4) (a : BitVec 5) (b : BitVec 5) (s : State) :
    KeepsOut [.strands, .eng] s (execCmplt e dst a b s) := by
  unfold execCmplt
  refine KeepsOut.mono (engineOp_keeps _ _ _ _ _ _ _) ?_
  rfl

theorem execCmpeq_keeps (e : Engine) (dst : BitVec 4) (a : BitVec 5) (b : BitVec 5) (s : State) :
    KeepsOut [.strands, .eng] s (execCmpeq e dst a b s) := by
  unfold execCmpeq
  refine KeepsOut.mono (engineOp_keeps _ _ _ _ _ _ _) ?_
  rfl

theorem execSel_keeps (e : Engine) (dst : BitVec 4) (a : BitVec 5) (b : BitVec 5) (c : BitVec 5) (s : State) :
    KeepsOut [.strands, .eng] s (execSel e dst a b c s) := by
  unfold execSel
  refine KeepsOut.mono (engineOp_keeps _ _ _ _ _ _ _) ?_
  rfl

theorem execExp2_keeps (e : Engine) (dst : BitVec 4) (a : BitVec 5) (s : State) :
    KeepsOut [.strands, .eng] s (execExp2 e dst a s) := by
  unfold execExp2
  refine KeepsOut.mono (engineOp_keeps _ _ _ _ _ _ _) ?_
  rfl

theorem execLog2_keeps (e : Engine) (dst : BitVec 4) (a : BitVec 5) (s : State) :
    KeepsOut [.strands, .eng] s (execLog2 e dst a s) := by
  unfold execLog2
  refine KeepsOut.mono (engineOp_keeps _ _ _ _ _ _ _) ?_
  rfl

theorem execRcp_keeps (e : Engine) (dst : BitVec 4) (a : BitVec 5) (s : State) :
    KeepsOut [.strands, .eng] s (execRcp e dst a s) := by
  unfold execRcp
  refine KeepsOut.mono (engineOp_keeps _ _ _ _ _ _ _) ?_
  rfl

theorem execDiv_keeps (e : Engine) (dst : BitVec 4) (a : BitVec 5) (b : BitVec 5) (s : State) :
    KeepsOut [.strands, .eng] s (execDiv e dst a b s) := by
  unfold execDiv
  refine KeepsOut.mono (engineOp_keeps _ _ _ _ _ _ _) ?_
  rfl

theorem execSqrt_keeps (e : Engine) (dst : BitVec 4) (a : BitVec 5) (s : State) :
    KeepsOut [.strands, .eng] s (execSqrt e dst a s) := by
  unfold execSqrt
  refine KeepsOut.mono (engineOp_keeps _ _ _ _ _ _ _) ?_
  rfl

theorem execRsqrt_keeps (e : Engine) (dst : BitVec 4) (a : BitVec 5) (s : State) :
    KeepsOut [.strands, .eng] s (execRsqrt e dst a s) := by
  unfold execRsqrt
  refine KeepsOut.mono (engineOp_keeps _ _ _ _ _ _ _) ?_
  rfl

theorem execTanh_keeps (e : Engine) (dst : BitVec 4) (a : BitVec 5) (s : State) :
    KeepsOut [.strands, .eng] s (execTanh e dst a s) := by
  unfold execTanh
  refine KeepsOut.mono (engineOp_keeps _ _ _ _ _ _ _) ?_
  rfl

theorem execErf_keeps (e : Engine) (dst : BitVec 4) (a : BitVec 5) (s : State) :
    KeepsOut [.strands, .eng] s (execErf e dst a s) := by
  unfold execErf
  refine KeepsOut.mono (engineOp_keeps _ _ _ _ _ _ _) ?_
  rfl

theorem execIadd_keeps (strand : StrandNo) (dst : BitVec 3) (a : BitVec 4) (b : BitVec 4) (s : State) :
    KeepsOut [.strands, .eng] s (execIadd strand dst a b s) := by
  unfold execIadd
  refine KeepsOut.mono (vecOnly_keeps _ _ _ _ _ _) ?_
  rfl

theorem execIsub_keeps (strand : StrandNo) (dst : BitVec 3) (a : BitVec 4) (b : BitVec 4) (s : State) :
    KeepsOut [.strands, .eng] s (execIsub strand dst a b s) := by
  unfold execIsub
  refine KeepsOut.mono (vecOnly_keeps _ _ _ _ _ _) ?_
  rfl

theorem execImul_keeps (strand : StrandNo) (dst : BitVec 3) (a : BitVec 4) (b : BitVec 4) (s : State) :
    KeepsOut [.strands, .eng] s (execImul strand dst a b s) := by
  unfold execImul
  refine KeepsOut.mono (vecOnly_keeps _ _ _ _ _ _) ?_
  rfl

theorem execIand_keeps (strand : StrandNo) (dst : BitVec 3) (a : BitVec 4) (b : BitVec 4) (s : State) :
    KeepsOut [.strands, .eng] s (execIand strand dst a b s) := by
  unfold execIand
  refine KeepsOut.mono (vecOnly_keeps _ _ _ _ _ _) ?_
  rfl

theorem execIor_keeps (strand : StrandNo) (dst : BitVec 3) (a : BitVec 4) (b : BitVec 4) (s : State) :
    KeepsOut [.strands, .eng] s (execIor strand dst a b s) := by
  unfold execIor
  refine KeepsOut.mono (vecOnly_keeps _ _ _ _ _ _) ?_
  rfl

theorem execIxor_keeps (strand : StrandNo) (dst : BitVec 3) (a : BitVec 4) (b : BitVec 4) (s : State) :
    KeepsOut [.strands, .eng] s (execIxor strand dst a b s) := by
  unfold execIxor
  refine KeepsOut.mono (vecOnly_keeps _ _ _ _ _ _) ?_
  rfl

theorem execIshl_keeps (strand : StrandNo) (dst : BitVec 3) (a : BitVec 4) (b : BitVec 4) (s : State) :
    KeepsOut [.strands, .eng] s (execIshl strand dst a b s) := by
  unfold execIshl
  refine KeepsOut.mono (vecOnly_keeps _ _ _ _ _ _) ?_
  rfl

theorem execIshr_keeps (strand : StrandNo) (dst : BitVec 3) (a : BitVec 4) (b : BitVec 4) (s : State) :
    KeepsOut [.strands, .eng] s (execIshr strand dst a b s) := by
  unfold execIshr
  refine KeepsOut.mono (vecOnly_keeps _ _ _ _ _ _) ?_
  rfl

theorem execCvtif_keeps (strand : StrandNo) (dst : BitVec 3) (a : BitVec 4) (s : State) :
    KeepsOut [.strands, .eng] s (execCvtif strand dst a s) := by
  unfold execCvtif
  refine KeepsOut.mono (vecOnly_keeps _ _ _ _ _ _) ?_
  rfl

theorem execCvtfi_keeps (strand : StrandNo) (dst : BitVec 3) (a : BitVec 4) (s : State) :
    KeepsOut [.strands, .eng] s (execCvtfi strand dst a s) := by
  unfold execCvtfi
  refine KeepsOut.mono (vecOnly_keeps _ _ _ _ _ _) ?_
  rfl

end Sys2Proof.Machine
end

