-- ==== Sys2Proof/Laws/KeepsSplicer.lean ====
section
/-! SUPPORT. What each operation of Machine/Splicer.lean may change, and that it keeps the stores canonical. -/

set_option Elab.async false

namespace Sys2Proof.Machine

open Sys2Proof

theorem dispatchSpl_keeps (sd : State) (n : Nat) (o : OpEnt) :
    Keeps [.regs, .port, .lines, .hitches, .mem, .tiers, .eng, .net, .pmu] sd (dispatchSpl sd n o) := by
  unfold dispatchSpl
  dsimp only
  split
  split
  with_reducible refine Keeps.step ?_ (noteWaits_keeps ..) rfl
  exact Keeps.refl _ _
  split
  with_reducible refine Keeps.step ?_ (rejectOp_keeps ..) rfl
  with_reducible refine Keeps.step ?_ (noteAccess_keeps ..) rfl
  exact Keeps.refl _ _
  split
  with_reducible refine Keeps.step ?_ (rejectOp_keeps ..) rfl
  with_reducible refine Keeps.step ?_ (noteAccess_keeps ..) rfl
  exact Keeps.refl _ _
  split
  with_reducible refine Keeps.step ?_ (rejectOp_keeps ..) rfl
  with_reducible refine Keeps.step ?_ (noteAccess_keeps ..) rfl
  exact Keeps.refl _ _
  split
  with_reducible refine Keeps.step ?_ (finishOp_keeps ..) rfl
  with_reducible refine Keeps.step ?_ (noteAccess_keeps ..) rfl
  exact Keeps.refl _ _
  with_reducible refine Keeps.step ?_ (noteLine_keeps ..) rfl
  with_reducible refine Keeps.step ?_ (opSet_keeps ..) rfl
  with_reducible refine Keeps.step ?_ (noteAccess_keeps ..) rfl
  exact Keeps.refl _ _
  split
  with_reducible refine Keeps.step ?_ (noteWaits_keeps ..) rfl
  exact Keeps.refl _ _
  split
  with_reducible refine Keeps.step ?_ (rejectOp_keeps ..) rfl
  with_reducible refine Keeps.step ?_ (noteAccess_keeps ..) rfl
  exact Keeps.refl _ _
  split
  with_reducible refine Keeps.step ?_ (rejectOp_keeps ..) rfl
  with_reducible refine Keeps.step ?_ (noteAccess_keeps ..) rfl
  exact Keeps.refl _ _
  split
  with_reducible refine Keeps.step ?_ (rejectOp_keeps ..) rfl
  with_reducible refine Keeps.step ?_ (noteAccess_keeps ..) rfl
  exact Keeps.refl _ _
  split
  with_reducible refine Keeps.step ?_ (finishOp_keeps ..) rfl
  with_reducible refine Keeps.step ?_ (noteAccess_keeps ..) rfl
  exact Keeps.refl _ _
  with_reducible refine Keeps.step ?_ (noteLine_keeps ..) rfl
  with_reducible refine Keeps.step ?_ (opSet_keeps ..) rfl
  with_reducible refine Keeps.step ?_ (noteAccess_keeps ..) rfl
  exact Keeps.refl _ _

theorem execSplUpd_keeps (line : LineNo) (s : State) :
    KeepsOut [.regs, .port, .lines, .hitches, .mem, .tiers, .eng, .net, .pmu] s (execSplUpd line s) := by
  unfold execSplUpd
  with_reducible refine onDispatch_keeps _ _ _ _ rfl (fun _ => ?_)
  with_reducible refine Keeps.step ?_ (dispatchSpl_keeps ..) rfl
  exact Keeps.refl _ _

theorem execSplAcc_keeps (line : LineNo) (s : State) :
    KeepsOut [.regs, .port, .lines, .hitches, .mem, .tiers, .eng, .net, .pmu] s (execSplAcc line s) := by
  unfold execSplAcc
  with_reducible refine onDispatch_keeps _ _ _ _ rfl (fun _ => ?_)
  with_reducible refine Keeps.step ?_ (dispatchSpl_keeps ..) rfl
  exact Keeps.refl _ _

theorem execLd_keeps (chan : BitVec 10) (dst : BitVec 4) (str : Fin 8) (s : State) :
    KeepsOut [.eng] s (execLd chan dst str s) := by
  unfold execLd
  with_reducible refine KeepsOut.next ?_
  with_reducible refine Keeps.step ?_ (splSet_keeps ..) rfl
  exact Keeps.refl _ _

theorem execSt_keeps (chan : BitVec 10) (a : BitVec 5) (str : Fin 8) (s : State) :
    KeepsOut [.eng] s (execSt chan a str s) := by
  unfold execSt
  with_reducible refine KeepsOut.next ?_
  with_reducible refine Keeps.step ?_ (splSet_keeps ..) rfl
  exact Keeps.refl _ _

theorem execStsr_keeps (chan : BitVec 10) (dst : BitVec 4) (a : BitVec 5) (b : BitVec 5) (c : BitVec 5) (s : State) :
    KeepsOut [.eng] s (execStsr chan dst a b c s) := by
  unfold execStsr
  with_reducible refine KeepsOut.next ?_
  with_reducible refine Keeps.step ?_ (splSet_keeps ..) rfl
  exact Keeps.refl _ _

theorem postPiece_keeps (n seq acct : Nat) (mark : Bool) (acc : State × Bool) (p : Nat × List Byte) :
    Keeps [.regs, .port, .lines, .mem, .tiers, .net, .pmu] acc.1 (postPiece n seq acct mark acc p).1 := by
  rw [postPiece]
  dsimp only
  split
  · have h1 : Keeps [.regs, .port, .lines, .mem, .tiers, .net, .pmu] acc.1 (syncChafe (postAt acc.1 n seq acct (frameAddr (htGet acc.1 (blockNo p.1)) p.1) p.2 mark) (blockNo p.1)) :=
      ((Keeps.refl _ _).step (postAt_keeps ..) rfl).step (syncChafe_keeps ..) rfl
    generalize syncChafe _ _ = s1 at h1 ⊢
    split
    · exact h1.step (wroteMarked_keeps ..) rfl
    · exact h1
  · exact (Keeps.refl _ _).step (devWrite_keeps ..) rfl

theorem postBytes_keeps (acc : State × Bool) (n seq acct a : Nat) (bs : List Byte) (mark : Bool) :
    Keeps [.regs, .port, .lines, .mem, .tiers, .net, .pmu] acc.1 (postBytes acc n seq acct a bs mark).1 := by
  rw [postBytes]
  generalize pieces a bs = l
  induction l generalizing acc with
  | nil => exact Keeps.refl _ _
  | cons p ps ih => exact ((Keeps.refl _ _).step (postPiece_keeps ..) rfl).step (ih _) rfl

theorem postSpans_keeps (n seq acct : Nat) (mark : Bool) (ps : List (Nat × Nat)) (bs : List Byte) (acc : State × Bool) :
    Keeps [.regs, .port, .lines, .mem, .tiers, .net, .pmu] acc.1 (postSpans n seq acct mark ps bs acc).1 := by
  induction ps generalizing bs acc with
  | nil => exact Keeps.refl _ _
  | cons p ps ih => exact ((Keeps.refl _ _).step (postBytes_keeps ..) rfl).step (ih _ _) rfl

theorem writeStreams_keeps (s : State) (n : Nat) (o : OpEnt) (u : Nat) (slot : Option Nat) (x : Splicer) (mark : Bool) :
    Keeps [.regs, .port, .lines, .mem, .tiers, .net, .pmu] s (writeStreams s n o u slot x mark).1 := by
  rw [writeStreams]
  with_reducible refine Keeps.foldl_fst ?_ (fun _ _ _ => ?_)
  dsimp only
  exact Keeps.refl _ _
  split
  assumption
  dsimp only
  split
  dsimp only
  with_reducible refine Keeps.step ?_ (postAt_keeps ..) rfl
  assumption
  with_reducible refine Keeps.step ?_ (postSpans_keeps ..) rfl
  with_reducible refine Keeps.step ?_ (postBytes_keeps ..) rfl
  assumption

theorem bindLanding_keeps (s : State) (acct : Nat) (o : OpEnt) (u : Nat) (i : Nat) (loads : Bool) :
    Keeps [.tiers] s (bindLanding s acct o u i loads) := by
  unfold bindLanding
  dsimp only
  with_reducible refine Keeps.upd ?_
  split
  exact Keeps.refl _ _
  with_reducible refine Keeps.step ?_ (chargeAdd_keeps ..) rfl
  with_reducible refine Keeps.step ?_ (htSet_keeps ..) rfl
  exact Keeps.refl _ _

theorem runChunk_keeps (sr : State) (n : Nat) (o : OpEnt) (gc : Nat) (u : Nat) (found : List Found) :
    Keeps [.regs, .port, .lines, .mem, .tiers, .eng, .stackSt, .net, .pmu] sr (runChunk sr n o gc u found) := by
  unfold runChunk
  dsimp only
  split
  with_reducible refine Keeps.step ?_ (pmuAdd_keeps ..) rfl
  with_reducible refine Keeps.step ?_ (pmuAdd_keeps ..) rfl
  with_reducible refine Keeps.step ?_ (opKeep_keeps ..) rfl
  with_reducible refine Keeps.step ?_ (noteWritten_keeps ..) rfl
  with_reducible refine Keeps.step ?_ (writeStreams_keeps ..) rfl
  with_reducible refine Keeps.step ?_ (splSet_keeps ..) rfl
  split
  with_reducible refine Keeps.step ?_ (bindLanding_keeps ..) rfl
  with_reducible refine Keeps.step ?_ (noteAccess_keeps ..) rfl
  with_reducible refine Keeps.step ?_ (foundMem_keeps ..) rfl
  exact Keeps.refl _ _
  with_reducible refine Keeps.step ?_ (noteAccess_keeps ..) rfl
  with_reducible refine Keeps.step ?_ (foundMem_keeps ..) rfl
  exact Keeps.refl _ _
  with_reducible refine Keeps.step ?_ (pmuAdd_keeps ..) rfl
  with_reducible refine Keeps.step ?_ (opKeep_keeps ..) rfl
  with_reducible refine Keeps.step ?_ (noteWritten_keeps ..) rfl
  with_reducible refine Keeps.step ?_ (writeStreams_keeps ..) rfl
  with_reducible refine Keeps.step ?_ (splSet_keeps ..) rfl
  split
  with_reducible refine Keeps.step ?_ (bindLanding_keeps ..) rfl
  with_reducible refine Keeps.step ?_ (noteAccess_keeps ..) rfl
  with_reducible refine Keeps.step ?_ (foundMem_keeps ..) rfl
  exact Keeps.refl _ _
  with_reducible refine Keeps.step ?_ (noteAccess_keeps ..) rfl
  with_reducible refine Keeps.step ?_ (foundMem_keeps ..) rfl
  exact Keeps.refl _ _

theorem notePoolFull_keeps (s : State) (n : Nat) (o : OpEnt) (gc : Nat) :
    Keeps [.lines, .tiers] s (notePoolFull s n o gc) := by
  unfold notePoolFull
  dsimp only
  split
  with_reducible refine Keeps.step ?_ (opSet_keeps ..) rfl
  with_reducible refine Keeps.upd ?_
  exact Keeps.refl _ _
  exact Keeps.refl _ _

theorem splWaits_keeps (s : State) (gc : Nat) :
    Keeps [.eng] s (splWaits s gc) := by
  unfold splWaits
  with_reducible refine Keeps.foldl ?_ (fun _ _ _ => ?_)
  exact Keeps.refl _ _
  dsimp only
  split
  with_reducible refine Keeps.step ?_ (noteWaits_keeps ..) rfl
  with_reducible refine Keeps.step ?_ (noteWaits_keeps ..) rfl
  assumption
  assumption

theorem execSplChunk_keeps (chan : Met (BitVec 10)) (s : State) :
    KeepsOut [.regs, .port, .lines, .splArb, .mem, .tiers, .eng, .stackSt, .net, .wfc, .pmu] s (execSplChunk chan s) := by
  unfold execSplChunk
  dsimp only
  split
  with_reducible refine KeepsOut.next ?_
  exact Keeps.refl _ _
  split
  with_reducible refine KeepsOut.next ?_
  with_reducible refine Keeps.step ?_ (splWaits_keeps ..) rfl
  with_reducible refine Keeps.upd ?_
  with_reducible refine Keeps.foldl ?_ (fun _ _ _ => ?_)
  exact Keeps.refl _ _
  split
  with_reducible refine Keeps.step ?_ (notePoolFull_keeps ..) rfl
  assumption
  assumption
  split
  with_reducible refine KeepsOut.next ?_
  with_reducible refine Keeps.upd ?_
  with_reducible refine Keeps.foldl ?_ (fun _ _ _ => ?_)
  exact Keeps.refl _ _
  split
  with_reducible refine Keeps.step ?_ (notePoolFull_keeps ..) rfl
  assumption
  assumption
  split
  with_reducible refine KeepsOut.next ?_
  with_reducible refine Keeps.upd ?_
  with_reducible refine Keeps.foldl ?_ (fun _ _ _ => ?_)
  exact Keeps.refl _ _
  split
  with_reducible refine Keeps.step ?_ (notePoolFull_keeps ..) rfl
  assumption
  assumption
  split
  with_reducible refine KeepsOut.next ?_
  with_reducible refine Keeps.upd ?_
  with_reducible refine Keeps.foldl ?_ (fun _ _ _ => ?_)
  exact Keeps.refl _ _
  split
  with_reducible refine Keeps.step ?_ (notePoolFull_keeps ..) rfl
  assumption
  assumption
  with_reducible refine KeepsOut.next ?_
  with_reducible refine Keeps.step ?_ (opSet_keeps ..) rfl
  with_reducible refine Keeps.step ?_ (noteGrant_keeps ..) rfl
  with_reducible refine Keeps.upd ?_
  with_reducible refine Keeps.foldl ?_ (fun _ _ _ => ?_)
  exact Keeps.refl _ _
  split
  with_reducible refine Keeps.step ?_ (notePoolFull_keeps ..) rfl
  assumption
  assumption
  with_reducible refine KeepsOut.next ?_
  with_reducible refine Keeps.step ?_ (opSet_keeps ..) rfl
  with_reducible refine Keeps.step ?_ (noteGrant_keeps ..) rfl
  with_reducible refine Keeps.upd ?_
  with_reducible refine Keeps.foldl ?_ (fun _ _ _ => ?_)
  exact Keeps.refl _ _
  split
  with_reducible refine Keeps.step ?_ (notePoolFull_keeps ..) rfl
  assumption
  assumption
  split
  split
  with_reducible refine KeepsOut.next ?_
  exact Keeps.refl _ _
  split
  with_reducible refine KeepsOut.next ?_
  with_reducible refine Keeps.step ?_ (queueMove_keeps ..) rfl
  exact Keeps.refl _ _
  with_reducible refine KeepsOut.next ?_
  with_reducible refine Keeps.step ?_ (evictBlocked_keeps ..) rfl
  with_reducible refine Keeps.step ?_ (opSet_keeps ..) rfl
  with_reducible refine Keeps.step ?_ (noteGrant_keeps ..) rfl
  with_reducible refine Keeps.upd ?_
  with_reducible refine Keeps.foldl ?_ (fun _ _ _ => ?_)
  exact Keeps.refl _ _
  split
  with_reducible refine Keeps.step ?_ (notePoolFull_keeps ..) rfl
  assumption
  assumption
  with_reducible refine KeepsOut.next ?_
  with_reducible refine Keeps.step ?_ (runChunk_keeps ..) rfl
  with_reducible refine Keeps.step ?_ (noteGrant_keeps ..) rfl
  with_reducible refine Keeps.upd ?_
  with_reducible refine Keeps.foldl ?_ (fun _ _ _ => ?_)
  exact Keeps.refl _ _
  split
  with_reducible refine Keeps.step ?_ (notePoolFull_keeps ..) rfl
  assumption
  assumption

theorem mergeChunk_keeps (f : Fmt) (replace : Bool) (src : Nat) (dst : Nat) (t : State) (c : Nat × Nat) :
    Keeps [.mem] t (mergeChunk f replace src dst t c) := by
  unfold mergeChunk
  dsimp only
  with_reducible refine Keeps.step ?_ (baseStore_keeps ..) rfl
  exact Keeps.refl _ _

theorem mergeSlot_keeps (s : State) (name : Nat) (key : Nat) (x : LandSlot) :
    Keeps [.regs, .port, .lines, .mem, .tiers, .net, .pmu] s (mergeSlot s name key x) := by
  unfold mergeSlot
  dsimp only
  split
  with_reducible refine Keeps.foldl ?_ (fun _ _ _ => ?_)
  with_reducible refine Keeps.foldl ?_ (fun _ _ _ => ?_)
  exact Keeps.refl _ _
  with_reducible refine Keeps.step ?_ (mergeChunk_keeps ..) rfl
  assumption
  with_reducible refine Keeps.step ?_ (chafeAt_keeps ..) rfl
  assumption
  with_reducible refine Keeps.foldl ?_ (fun _ _ _ => ?_)
  exact Keeps.refl _ _
  with_reducible refine Keeps.step ?_ (mergeChunk_keeps ..) rfl
  assumption

theorem landingMerged_keeps (s : State) (b : Nat) :
    Keeps [.regs, .port, .lines, .hitches, .mem, .tiers, .net, .pmu] s (landingMerged s b) := by
  unfold landingMerged
  dsimp only
  split
  with_reducible refine Keeps.step ?_ (pmuAdd_keeps ..) rfl
  with_reducible refine Keeps.upd ?_
  with_reducible refine Keeps.step ?_ (sigsAfter_keeps ..) rfl
  with_reducible refine Keeps.step ?_ (applyHeld_keeps ..) rfl
  with_reducible refine Keeps.step ?_ (syncChafe_keeps ..) rfl
  with_reducible refine Keeps.step ?_ (htSet_keeps ..) rfl
  with_reducible refine Keeps.step ?_ (dropLanding_keeps ..) rfl
  with_reducible refine Keeps.foldl ?_ (fun _ _ _ => ?_)
  exact Keeps.refl _ _
  with_reducible refine Keeps.step ?_ (mergeSlot_keeps ..) rfl
  assumption
  exact Keeps.refl _ _

end Sys2Proof.Machine
end

