-- ==== Sys2Proof/Laws/KeepsLedger.lean ====
section
/-! SUPPORT. What each operation of Machine/Ledger.lean may change, and that it keeps the stores canonical. -/

set_option Elab.async false

namespace Sys2Proof.Machine

open Sys2Proof

theorem tagStep_keeps (s : State) (strand : Nat) (acct : Nat) :
    Keeps [.strands] s (tagStep s strand acct).1 := by
  rw [tagStep]
  dsimp only
  with_reducible refine Keeps.step ?_ (strandSet_keeps ..) rfl
  exact Keeps.refl _ _

theorem sampleWrite_keeps (s : State) (rec_ : List Byte) :
    Keeps [.regs, .port, .lines, .mem, .tiers, .net, .pmu] s (sampleWrite s rec_) := by
  unfold sampleWrite
  dsimp only
  split
  exact Keeps.refl _ _
  split
  with_reducible refine Keeps.step ?_ (raiseCause_keeps ..) rfl
  with_reducible refine Keeps.upd ?_
  exact Keeps.refl _ _
  with_reducible refine Keeps.upd ?_
  with_reducible refine Keeps.step ?_ (putStruct_keeps ..) rfl
  exact Keeps.refl _ _

theorem tileEnd_keeps (s : State) (strand : Nat) (t : TileOp) (stopped : Bool) :
    Keeps [.regs, .port, .lines, .mem, .tiers, .net, .pmu] s (tileEnd s strand t stopped) := by
  unfold tileEnd
  dsimp only
  split
  with_reducible refine Keeps.step ?_ (sampleWrite_keeps ..) rfl
  split
  split
  split
  exact Keeps.refl _ _
  with_reducible refine Keeps.step ?_ (pmuAdd_keeps ..) rfl
  exact Keeps.refl _ _
  with_reducible refine Keeps.step ?_ (pmuAdd_keeps ..) rfl
  split
  exact Keeps.refl _ _
  with_reducible refine Keeps.step ?_ (pmuAdd_keeps ..) rfl
  exact Keeps.refl _ _
  split
  split
  exact Keeps.refl _ _
  with_reducible refine Keeps.step ?_ (pmuAdd_keeps ..) rfl
  exact Keeps.refl _ _
  with_reducible refine Keeps.step ?_ (pmuAdd_keeps ..) rfl
  split
  exact Keeps.refl _ _
  with_reducible refine Keeps.step ?_ (pmuAdd_keeps ..) rfl
  exact Keeps.refl _ _
  split
  split
  split
  exact Keeps.refl _ _
  with_reducible refine Keeps.step ?_ (pmuAdd_keeps ..) rfl
  exact Keeps.refl _ _
  with_reducible refine Keeps.step ?_ (pmuAdd_keeps ..) rfl
  split
  exact Keeps.refl _ _
  with_reducible refine Keeps.step ?_ (pmuAdd_keeps ..) rfl
  exact Keeps.refl _ _
  split
  split
  exact Keeps.refl _ _
  with_reducible refine Keeps.step ?_ (pmuAdd_keeps ..) rfl
  exact Keeps.refl _ _
  with_reducible refine Keeps.step ?_ (pmuAdd_keeps ..) rfl
  split
  exact Keeps.refl _ _
  with_reducible refine Keeps.step ?_ (pmuAdd_keeps ..) rfl
  exact Keeps.refl _ _

theorem tileSet_keeps (s : State) (strand : Nat) (t : TileOp) :
    Keeps [.strands] s (tileSet s strand t) := by
  unfold tileSet
  with_reducible refine Keeps.step ?_ (strandSet_keeps ..) rfl
  exact Keeps.refl _ _

theorem tileDrop_keeps (s : State) (strand : Nat) (t : TileOp) :
    Keeps [.strands] s (tileDrop s strand t) := by
  unfold tileDrop
  dsimp only
  with_reducible refine Keeps.step ?_ (strandSet_keeps ..) rfl
  exact Keeps.refl _ _

theorem tilesStop_keeps (s : State) (strand : Nat) (n : Nat) (seq : Nat) (p : TileOp → Bool) :
    Keeps [.regs, .port, .lines, .strands, .mem, .tiers, .net, .pmu] s (tilesStop s strand n seq p).1 := by
  rw [tilesStop]
  dsimp only
  with_reducible refine Keeps.foldl ?_ (fun _ _ _ => ?_)
  exact Keeps.refl _ _
  with_reducible refine Keeps.step ?_ (tileDrop_keeps ..) rfl
  with_reducible refine Keeps.step ?_ (tileEnd_keeps ..) rfl
  assumption

end Sys2Proof.Machine
end

