-- ==== Sys2Proof/Laws/KeepsCapstan.lean ====
section
/-! SUPPORT. What each operation of Machine/Capstan.lean may change, and that it keeps the stores canonical. -/

set_option Elab.async false

namespace Sys2Proof.Machine

open Sys2Proof

theorem sendElems_keeps (s : State) (n : Nat) (o : OpEnt) (xs : List CollTx) :
    Keeps [.regs, .port, .lines, .net, .pmu] s (sendElems s n o xs) := by
  unfold sendElems
  dsimp only
  with_reducible refine Keeps.foldl ?_ (fun _ _ _ => ?_)
  with_reducible refine Keeps.step ?_ (opSet_keeps ..) rfl
  exact Keeps.refl _ _
  with_reducible refine Keeps.step ?_ (sendFrame_keeps ..) rfl
  assumption

theorem rxCount_keeps (s : State) (n : Nat) (o : OpEnt) (dev : Nat) (k : Nat) :
    Keeps [.regs, .port, .lines, .net, .pmu] s (rxCount s n o dev k).1 := by
  rw [rxCount]
  dsimp only
  split
  with_reducible refine Keeps.step ?_ (sendCtl_keeps ..) rfl
  with_reducible refine Keeps.step ?_ (opSet_keeps ..) rfl
  exact Keeps.refl _ _
  with_reducible refine Keeps.step ?_ (opSet_keeps ..) rfl
  exact Keeps.refl _ _

theorem rxOne_keeps (s : State) (n : Nat) (o : OpEnt) (t : State) (h : rxOne s n o = some t) :
    Keeps [.regs, .port, .lines, .net, .pmu] s t := by
  unfold rxOne at h
  split at h
  · exact absurd h (by simp)
  · rw [Option.map_eq_some_iff] at h
    obtain ⟨r, -, rfl⟩ := h
    exact ((Keeps.refl _ _).step (rxCount_keeps ..) rfl).step (sendElems_keeps ..) rfl

theorem rxAll_keeps (n seq fuel : Nat) (s : State) :
    Keeps [.regs, .port, .lines, .net, .pmu] s (rxAll n seq fuel s) := by
  induction fuel generalizing s with
  | zero => exact Keeps.refl _ _
  | succ k ih =>
    unfold rxAll
    split
    · exact Keeps.refl _ _
    · split
      · rename_i o _ _ t ht
        exact ((Keeps.refl _ _).step (rxOne_keeps s n o t ht) rfl).step (ih t) rfl
      · exact Keeps.refl _ _

theorem collPump_keeps (s : State) (n : Nat) (seq : Nat) :
    Keeps [.regs, .port, .lines, .tiers, .net, .pmu] s (collPump s n seq) := by
  unfold collPump
  split
  exact Keeps.refl _ _
  split
  exact Keeps.refl _ _
  split
  with_reducible refine Keeps.step ?_ (rxAll_keeps ..) rfl
  exact Keeps.refl _ _
  split
  exact Keeps.refl _ _
  dsimp only
  with_reducible refine Keeps.step ?_ (rxAll_keeps ..) rfl
  with_reducible refine Keeps.step ?_ (sendElems_keeps ..) rfl
  with_reducible refine Keeps.step ?_ (noteAccess_keeps ..) rfl
  exact Keeps.refl _ _

theorem collPumpAll_keeps (s : State) :
    Keeps [.regs, .port, .lines, .tiers, .net, .pmu] s (collPumpAll s) := by
  unfold collPumpAll
  with_reducible refine Keeps.foldl ?_ (fun _ _ _ => ?_)
  exact Keeps.refl _ _
  with_reducible refine Keeps.step ?_ (collPump_keeps ..) rfl
  assumption

theorem admitEarly_keeps (s : State) :
    Keeps [.regs, .port, .net, .pmu] s (admitEarly s) := by
  unfold admitEarly
  with_reducible refine Keeps.foldl ?_ (fun _ _ _ => ?_)
  exact Keeps.refl _ _
  dsimp only
  with_reducible refine Keeps.foldl ?_ (fun _ _ _ => ?_)
  assumption
  split
  assumption
  with_reducible refine Keeps.step ?_ (returnCredit_keeps ..) rfl
  with_reducible refine Keeps.upd ?_
  assumption

theorem mismatch_keeps (s : State) (n : Nat) (o : OpEnt) (dev : Nat) :
    Keeps [.free, .regs, .port, .lines, .hitches, .mem, .tiers, .net, .pmu] s (mismatch s n o dev) := by
  unfold mismatch
  dsimp only
  with_reducible refine Keeps.step ?_ (collFail_keeps ..) rfl
  with_reducible refine Keeps.step ?_ (sendAborts_keeps ..) rfl
  exact Keeps.refl _ _

theorem takeSig_keeps (s : State) (n : Nat) (o : OpEnt) (dev : Nat) (sig : W64) (tag : W32) :
    Keeps [.free, .regs, .port, .lines, .hitches, .mem, .tiers, .net, .pmu] s (takeSig s n o dev sig tag) := by
  unfold takeSig
  split
  dsimp only
  with_reducible refine Keeps.step ?_ (sendCtl_keeps ..) rfl
  with_reducible refine Keeps.step ?_ (opSet_keeps ..) rfl
  exact Keeps.refl _ _
  with_reducible refine Keeps.step ?_ (mismatch_keeps ..) rfl
  exact Keeps.refl _ _

theorem takeEarly_keeps (s : State) (n : Nat) (seq : Nat) :
    Keeps [.free, .regs, .port, .lines, .hitches, .mem, .tiers, .net, .pmu] s (takeEarly s n seq) := by
  unfold takeEarly
  split
  exact Keeps.refl _ _
  dsimp only
  split
  with_reducible refine Keeps.step ?_ (collFail_keeps ..) rfl
  with_reducible refine Keeps.step ?_ (admitEarly_keeps ..) rfl
  with_reducible refine Keeps.upd ?_
  exact Keeps.refl _ _
  split
  with_reducible refine Keeps.step ?_ (mismatch_keeps ..) rfl
  with_reducible refine Keeps.step ?_ (admitEarly_keeps ..) rfl
  with_reducible refine Keeps.upd ?_
  exact Keeps.refl _ _
  with_reducible refine Keeps.foldl ?_ (fun _ _ _ => ?_)
  with_reducible refine Keeps.step ?_ (admitEarly_keeps ..) rfl
  with_reducible refine Keeps.upd ?_
  exact Keeps.refl _ _
  split
  with_reducible refine Keeps.step ?_ (takeSig_keeps ..) rfl
  assumption
  assumption

theorem takeNumbers_keeps (s : State) (d : BitVec 512) :
    Keeps [.net] s (takeNumbers s d).1 := by
  rw [takeNumbers]
  split
  dsimp only
  with_reducible refine Keeps.upd ?_
  exact Keeps.refl _ _
  split
  dsimp only
  with_reducible refine Keeps.upd ?_
  exact Keeps.refl _ _
  with_reducible refine Keeps.foldl_fst ?_ (fun _ _ _ => ?_)
  dsimp only
  exact Keeps.refl _ _
  dsimp only
  with_reducible refine Keeps.upd ?_
  assumption

theorem dispatchColl_keeps (s : State) (n : Nat) (o : OpEnt) :
    Keeps [.free, .regs, .port, .lines, .hitches, .mem, .tiers, .net, .pmu] s (dispatchColl s n o) := by
  unfold dispatchColl
  dsimp only
  split
  with_reducible refine Keeps.step ?_ (rejectOp_keeps ..) rfl
  exact Keeps.refl _ _
  split
  with_reducible refine Keeps.step ?_ (collFail_keeps ..) rfl
  with_reducible refine Keeps.step ?_ (takeNumbers_keeps ..) rfl
  exact Keeps.refl _ _
  with_reducible refine Keeps.step ?_ (noteLine_keeps ..) rfl
  with_reducible refine Keeps.step ?_ (collPump_keeps ..) rfl
  with_reducible refine Keeps.step ?_ (takeEarly_keeps ..) rfl
  with_reducible refine Keeps.foldl ?_ (fun _ _ _ => ?_)
  with_reducible refine Keeps.step ?_ (opSet_keeps ..) rfl
  with_reducible refine Keeps.step ?_ (takeNumbers_keeps ..) rfl
  exact Keeps.refl _ _
  with_reducible refine Keeps.step ?_ (sendCtl_keeps ..) rfl
  assumption

theorem onColl_keeps (s : State) (n : Nat) (op : Nat) :
    KeepsOut [.free, .regs, .port, .lines, .hitches, .mem, .tiers, .net, .pmu] s (onColl s n op) := by
  unfold onColl
  split
  split
  with_reducible refine onDispatch_keeps _ _ _ _ rfl (fun _ => ?_)
  with_reducible refine Keeps.step ?_ (dispatchColl_keeps ..) rfl
  exact Keeps.refl _ _
  with_reducible refine KeepsOut.next ?_
  exact Keeps.refl _ _
  with_reducible refine KeepsOut.next ?_
  exact Keeps.refl _ _

theorem execAllReduce_keeps (line : LineNo) (s : State) :
    KeepsOut [.free, .regs, .port, .lines, .hitches, .mem, .tiers, .net, .pmu] s (execAllReduce line s) := by
  unfold execAllReduce
  refine KeepsOut.mono (onColl_keeps _ _ _) ?_
  rfl

theorem execReduceScatter_keeps (line : LineNo) (s : State) :
    KeepsOut [.free, .regs, .port, .lines, .hitches, .mem, .tiers, .net, .pmu] s (execReduceScatter line s) := by
  unfold execReduceScatter
  refine KeepsOut.mono (onColl_keeps _ _ _) ?_
  rfl

theorem execAllGather_keeps (line : LineNo) (s : State) :
    KeepsOut [.free, .regs, .port, .lines, .hitches, .mem, .tiers, .net, .pmu] s (execAllGather line s) := by
  unfold execAllGather
  refine KeepsOut.mono (onColl_keeps _ _ _) ?_
  rfl

theorem execAllToAll_keeps (line : LineNo) (s : State) :
    KeepsOut [.free, .regs, .port, .lines, .hitches, .mem, .tiers, .net, .pmu] s (execAllToAll line s) := by
  unfold execAllToAll
  refine KeepsOut.mono (onColl_keeps _ _ _) ?_
  rfl

theorem execSend_keeps (line : LineNo) (s : State) :
    KeepsOut [.free, .regs, .port, .lines, .hitches, .mem, .tiers, .net, .pmu] s (execSend line s) := by
  unfold execSend
  refine KeepsOut.mono (onColl_keeps _ _ _) ?_
  rfl

theorem execRecv_keeps (line : LineNo) (s : State) :
    KeepsOut [.free, .regs, .port, .lines, .hitches, .mem, .tiers, .net, .pmu] s (execRecv line s) := by
  unfold execRecv
  refine KeepsOut.mono (onColl_keeps _ _ _) ?_
  rfl

theorem execBarrier_keeps (line : LineNo) (s : State) :
    KeepsOut [.free, .regs, .port, .lines, .hitches, .mem, .tiers, .net, .pmu] s (execBarrier line s) := by
  unfold execBarrier
  refine KeepsOut.mono (onColl_keeps _ _ _) ?_
  rfl

theorem execVerdict_keeps (line : LineNo) (s : State) :
    KeepsOut [.free, .regs, .port, .lines, .hitches, .mem, .tiers, .net, .pmu] s (execVerdict line s) := by
  unfold execVerdict
  refine KeepsOut.mono (onColl_keeps _ _ _) ?_
  rfl

theorem execGather_keeps (line : LineNo) (s : State) :
    KeepsOut [.free, .regs, .port, .lines, .hitches, .mem, .tiers, .net, .pmu] s (execGather line s) := by
  unfold execGather
  refine KeepsOut.mono (onColl_keeps _ _ _) ?_
  rfl

theorem execBroadcast_keeps (line : LineNo) (s : State) :
    KeepsOut [.free, .regs, .port, .lines, .hitches, .mem, .tiers, .net, .pmu] s (execBroadcast line s) := by
  unfold execBroadcast
  refine KeepsOut.mono (onColl_keeps _ _ _) ?_
  rfl

theorem keepEarly_keeps (s : State) (k : Nat) (f : Frame) (abort : Bool) :
    Keeps [.net] s (keepEarly s k f abort).1 := by
  rw [keepEarly]
  dsimp only
  with_reducible refine Keeps.upd ?_
  exact Keeps.refl _ _

theorem execCollSignature_keeps (link : LinkNo) (f : Frame) (s : State) :
    KeepsOut [.free, .regs, .port, .lines, .hitches, .mem, .tiers, .net, .pmu] s (execCollSignature link f s) := by
  unfold execCollSignature
  with_reducible refine seqRx_keeps _ _ _ _ _ rfl (fun _ => ?_)
  split
  dsimp only
  with_reducible refine Keeps.step ?_ (collPump_keeps ..) rfl
  with_reducible refine Keeps.step ?_ (takeSig_keeps ..) rfl
  exact Keeps.refl _ _
  split
  dsimp only
  exact Keeps.refl _ _
  with_reducible refine Keeps.step ?_ (keepEarly_keeps ..) rfl
  exact Keeps.refl _ _

theorem execCollClear_keeps (link : LinkNo) (f : Frame) (s : State) :
    KeepsOut [.regs, .port, .lines, .net, .pmu] s (execCollClear link f s) := by
  unfold execCollClear
  with_reducible refine seqRx_keeps _ _ _ _ _ rfl (fun _ => ?_)
  split
  dsimp only
  exact Keeps.refl _ _
  dsimp only
  with_reducible refine Keeps.foldl ?_ (fun _ _ _ => ?_)
  with_reducible refine Keeps.step ?_ (opSet_keeps ..) rfl
  exact Keeps.refl _ _
  with_reducible refine Keeps.step ?_ (sendFrame_keeps ..) rfl
  assumption

theorem execCollAbort_keeps (link : LinkNo) (f : Frame) (s : State) :
    KeepsOut [.free, .regs, .port, .lines, .hitches, .mem, .tiers, .net, .pmu] s (execCollAbort link f s) := by
  unfold execCollAbort
  with_reducible refine seqRx_keeps _ _ _ _ _ rfl (fun _ => ?_)
  dsimp only
  split
  dsimp only
  with_reducible refine Keeps.step ?_ (collFail_keeps ..) rfl
  exact Keeps.refl _ _
  split
  dsimp only
  exact Keeps.refl _ _
  with_reducible refine Keeps.step ?_ (keepEarly_keeps ..) rfl
  exact Keeps.refl _ _

theorem execCollAck_keeps (link : LinkNo) (f : Frame) (s : State) :
    KeepsOut [.regs, .port, .lines, .net, .pmu] s (execCollAck link f s) := by
  unfold execCollAck
  with_reducible refine seqRx_keeps _ _ _ _ _ rfl (fun _ => ?_)
  split
  dsimp only
  exact Keeps.refl _ _
  dsimp only
  with_reducible refine Keeps.step ?_ (opSet_keeps ..) rfl
  exact Keeps.refl _ _

theorem execColl_keeps (link : LinkNo) (f : Frame) (s : State) :
    KeepsOut [.regs, .port, .lines, .tiers, .net, .pmu] s (execColl link f s) := by
  unfold execColl
  with_reducible refine seqRx_keeps _ _ _ _ _ rfl (fun _ => ?_)
  split
  dsimp only
  exact Keeps.refl _ _
  dsimp only
  with_reducible refine Keeps.step ?_ (collPump_keeps ..) rfl
  with_reducible refine Keeps.step ?_ (opSet_keeps ..) rfl
  exact Keeps.refl _ _

theorem writeOut_keeps (s : State) (n : Nat) (o : OpEnt) :
    Keeps [.regs, .port, .lines, .mem, .tiers, .net, .pmu] s (writeOut s n o).1 := by
  rw [writeOut]
  split
  dsimp only
  exact Keeps.refl _ _
  dsimp only
  with_reducible refine Keeps.foldl_fst ?_ (fun _ _ _ => ?_)
  with_reducible refine Keeps.step ?_ (placeWrite_keeps ..) rfl
  exact Keeps.refl _ _
  dsimp only
  with_reducible refine Keeps.step ?_ (placeWrite_keeps ..) rfl
  assumption

theorem collRetire_keeps (s : State) (n : Nat) (o : OpEnt) :
    Keeps [.regs, .port, .lines, .hitches, .mem, .tiers, .net, .pmu] s (collRetire s n o) := by
  unfold collRetire
  dsimp only
  with_reducible refine Keeps.step ?_ (finishOp_keeps ..) rfl
  with_reducible refine Keeps.step ?_ (countColl_keeps ..) rfl
  split
  dsimp only
  with_reducible refine Keeps.step ?_ (devWrite_keeps ..) rfl
  with_reducible refine Keeps.step ?_ (noteWritten_keeps ..) rfl
  exact Keeps.refl _ _
  split
  dsimp only
  with_reducible refine Keeps.step ?_ (writeOut_keeps ..) rfl
  with_reducible refine Keeps.step ?_ (noteWritten_keeps ..) rfl
  exact Keeps.refl _ _
  dsimp only
  with_reducible refine Keeps.step ?_ (devWrite_keeps ..) rfl
  with_reducible refine Keeps.step ?_ (writeOut_keeps ..) rfl
  with_reducible refine Keeps.step ?_ (noteWritten_keeps ..) rfl
  exact Keeps.refl _ _

theorem execCollectiveTimeout_keeps (line : LineNo) (seq : Seq) (s : State) :
    KeepsOut [.free, .regs, .port, .lines, .hitches, .mem, .tiers, .net, .pmu] s (execCollectiveTimeout line seq s) := by
  unfold execCollectiveTimeout
  dsimp only
  split
  with_reducible refine KeepsOut.next ?_
  exact Keeps.refl _ _
  split
  split
  with_reducible refine KeepsOut.next ?_
  with_reducible refine Keeps.step ?_ (collFail_keeps ..) rfl
  with_reducible refine Keeps.step ?_ (sendAborts_keeps ..) rfl
  exact Keeps.refl _ _
  with_reducible refine KeepsOut.next ?_
  exact Keeps.refl _ _
  split
  split
  with_reducible refine KeepsOut.next ?_
  with_reducible refine Keeps.step ?_ (finishOp_keeps ..) rfl
  with_reducible refine Keeps.upd ?_
  exact Keeps.refl _ _
  with_reducible refine KeepsOut.next ?_
  exact Keeps.refl _ _
  with_reducible refine KeepsOut.next ?_
  exact Keeps.refl _ _

end Sys2Proof.Machine
end

