-- ==== Sys2Proof/Laws/KeepsSnapshot.lean ====
section
/-! SUPPORT. What each operation of Machine/Snapshot.lean may change, and that it keeps the stores canonical. -/

set_option Elab.async false

namespace Sys2Proof.Machine

open Sys2Proof

theorem execSnapshot_keeps (line : LineNo) (s : State) :
    KeepsOut [.regs, .port, .lines, .hitches, .mem, .tiers, .eng, .net, .pmu] s (execSnapshot line s) := by
  unfold execSnapshot
  dsimp only
  with_reducible refine onDispatch_keeps _ _ _ _ rfl (fun _ => ?_)
  split
  with_reducible refine Keeps.step ?_ (rejectOp_keeps ..) rfl
  exact Keeps.refl _ _
  split
  with_reducible refine Keeps.step ?_ (noteWaits_keeps ..) rfl
  exact Keeps.refl _ _
  split
  with_reducible refine Keeps.step ?_ (snapEnd_keeps ..) rfl
  with_reducible refine Keeps.step ?_ (noteAccess_keeps ..) rfl
  exact Keeps.refl _ _
  with_reducible refine Keeps.step ?_ (noteLine_keeps ..) rfl
  with_reducible refine Keeps.step ?_ (opSet_keeps ..) rfl
  split
  with_reducible refine Keeps.upd ?_
  with_reducible refine Keeps.step ?_ (noteAccess_keeps ..) rfl
  exact Keeps.refl _ _
  with_reducible refine Keeps.upd ?_
  with_reducible refine Keeps.step ?_ (noteAccess_keeps ..) rfl
  exact Keeps.refl _ _

theorem putSet_keeps (s : State) (p : PutStream) :
    Keeps [.net] s (putSet s p) := by
  unfold putSet
  with_reducible refine Keeps.upd ?_
  exact Keeps.refl _ _

theorem snWrite_keeps (s : State) (n : Nat) (o : OpEnt) (a : Nat) (bs : List Byte) (mask : W32) (header : Bool) :
    Keeps [.regs, .port, .lines, .mem, .tiers, .net, .pmu] s (snWrite s n o a bs mask header) := by
  unfold snWrite
  split
  split
  with_reducible refine Keeps.step ?_ (sendFrame_keeps ..) rfl
  with_reducible refine Keeps.step ?_ (putSet_keeps ..) rfl
  exact Keeps.refl _ _
  exact Keeps.refl _ _
  with_reducible refine Keeps.step ?_ (devWriteAs_keeps ..) rfl
  exact Keeps.refl _ _

theorem snFinish_keeps (s : State) (n : Nat) (seq : Nat) :
    Keeps [.regs, .port, .lines, .mem, .tiers, .net, .pmu] s (snFinish s n seq) := by
  unfold snFinish
  split
  exact Keeps.refl _ _
  dsimp only
  split
  with_reducible refine Keeps.step ?_ (snWrite_keeps ..) rfl
  with_reducible refine Keeps.step ?_ (opSet_keeps ..) rfl
  exact Keeps.refl _ _
  exact Keeps.refl _ _

theorem snapBlock_keeps (sf : State) (n : Nat) (o : OpEnt) (i : Nat) (b : Nat) (found : List Found) :
    Keeps [.regs, .port, .lines, .mem, .tiers, .stackSt, .net, .pmu] sf (snapBlock sf n o i b found) := by
  unfold snapBlock
  dsimp only
  with_reducible refine Keeps.step ?_ (snFinish_keeps ..) rfl
  with_reducible refine Keeps.upd ?_
  with_reducible refine Keeps.foldl ?_ (fun _ _ _ => ?_)
  with_reducible refine Keeps.step ?_ (opKeep_keeps ..) rfl
  with_reducible refine Keeps.step ?_ (noteAccess_keeps ..) rfl
  with_reducible refine Keeps.step ?_ (foundMem_keeps ..) rfl
  exact Keeps.refl _ _
  with_reducible refine Keeps.step ?_ (snWrite_keeps ..) rfl
  assumption

theorem execSnapshotBlockRead_keeps (line : LineNo) (seq : Seq) (block : Met Nat) (s : State) :
    KeepsOut [.regs, .port, .lines, .mem, .tiers, .eng, .stackSt, .net, .pmu] s (execSnapshotBlockRead line seq block s) := by
  unfold execSnapshotBlockRead
  dsimp only
  split
  with_reducible refine KeepsOut.next ?_
  exact Keeps.refl _ _
  split
  split
  split
  with_reducible refine KeepsOut.next ?_
  with_reducible refine Keeps.step ?_ (noteWaits_keeps ..) rfl
  exact Keeps.refl _ _
  with_reducible refine KeepsOut.next ?_
  with_reducible refine Keeps.step ?_ (snapBlock_keeps ..) rfl
  exact Keeps.refl _ _
  with_reducible refine KeepsOut.next ?_
  exact Keeps.refl _ _
  with_reducible refine KeepsOut.next ?_
  exact Keeps.refl _ _

end Sys2Proof.Machine
end

