-- ==== Sys2Proof/Laws/KeepsBraid.lean ====
section
/-! SUPPORT. What each operation of Machine/Braid.lean may change, and that it keeps the stores canonical. -/

set_option Elab.async false

namespace Sys2Proof.Machine

open Sys2Proof

theorem execBrdMm_keeps (line : LineNo) (s : State) :
    KeepsOut [.regs, .port, .lines, .hitches, .mem, .tiers, .net, .pmu] s (execBrdMm line s) := by
  unfold execBrdMm
  dsimp only
  with_reducible refine onDispatch_keeps _ _ _ _ rfl (fun _ => ?_)
  split
  with_reducible refine Keeps.step ?_ (rejectOp_keeps ..) rfl
  exact Keeps.refl _ _
  split
  split
  with_reducible refine Keeps.step ?_ (rejectOp_keeps ..) rfl
  exact Keeps.refl _ _
  with_reducible refine Keeps.step ?_ (noteLine_keeps ..) rfl
  with_reducible refine Keeps.step ?_ (opSet_keeps ..) rfl
  exact Keeps.refl _ _
  split
  with_reducible refine Keeps.step ?_ (rejectOp_keeps ..) rfl
  exact Keeps.refl _ _
  with_reducible refine Keeps.step ?_ (noteLine_keeps ..) rfl
  with_reducible refine Keeps.step ?_ (opSet_keeps ..) rfl
  exact Keeps.refl _ _

theorem issueTile_keeps (strand : Nat) (n : Nat) (acct : Nat) (o : OpEnt) (b : Nat) (s : State) (p : (Nat × Nat) × Nat) :
    Keeps [.strands] s (issueTile strand n acct o b s p) := by
  unfold issueTile
  dsimp only
  with_reducible refine Keeps.step ?_ (strandSet_keeps ..) rfl
  with_reducible refine Keeps.step ?_ (tagStep_keeps ..) rfl
  exact Keeps.refl _ _

theorem issueSweep_keeps (s : State) (strand : Nat) (n : Nat) (o : OpEnt) :
    Keeps [.free, .regs, .port, .lines, .strands, .pmu] s (issueSweep s strand n o) := by
  unfold issueSweep
  dsimp only
  with_reducible refine Keeps.step ?_ (pmuAdd_keeps ..) rfl
  with_reducible refine Keeps.step ?_ (opSet_keeps ..) rfl
  with_reducible refine Keeps.foldl ?_ (fun _ _ _ => ?_)
  with_reducible refine Keeps.step ?_ (strandSet_keeps ..) rfl
  with_reducible refine Keeps.step ?_ (drawn_keeps ..) rfl
  exact Keeps.refl _ _
  with_reducible refine Keeps.step ?_ (issueTile_keeps ..) rfl
  assumption

theorem sweepSet_keeps (s : State) (strand : Nat) (w : Sweep) :
    Keeps [.strands] s (sweepSet s strand w) := by
  unfold sweepSet
  with_reducible refine Keeps.step ?_ (strandSet_keeps ..) rfl
  exact Keeps.refl _ _

theorem noteFell_keeps (s : State) (strand : Nat) (w : Sweep) (acct : Nat) (bs : List Nat) :
    Keeps [.regs, .port, .lines, .strands, .pmu] s (noteFell s strand w acct bs) := by
  unfold noteFell
  dsimp only
  split
  with_reducible refine Keeps.step ?_ (sweepSet_keeps ..) rfl
  exact Keeps.refl _ _
  split
  with_reducible refine Keeps.step ?_ (pmuAdd_keeps ..) rfl
  with_reducible refine Keeps.step ?_ (opSet_keeps ..) rfl
  with_reducible refine Keeps.step ?_ (sweepSet_keeps ..) rfl
  exact Keeps.refl _ _
  with_reducible refine Keeps.step ?_ (sweepSet_keeps ..) rfl
  exact Keeps.refl _ _

theorem sweepLoad_keeps (s : State) (strand : Nat) (o : OpEnt) (w : Sweep) (t : TileOp) (kbs : List Nat) (extra : List (Nat × Nat)) (found : List Found) :
    Keeps [.regs, .port, .lines, .strands, .mem, .tiers, .eng, .stackSt, .net, .pmu] s (sweepLoad s strand o w t kbs extra found).1 := by
  rw [sweepLoad]
  split
  dsimp only
  with_reducible refine Keeps.step ?_ (noteFell_keeps ..) rfl
  with_reducible refine Keeps.step ?_ (noteAccess_keeps ..) rfl
  with_reducible refine Keeps.step ?_ (foundAll_keeps ..) rfl
  exact Keeps.refl _ _
  dsimp only
  with_reducible refine Keeps.step ?_ (noteWaits_keeps ..) rfl
  split
  with_reducible refine Keeps.step ?_ (foundAll_keeps ..) rfl
  exact Keeps.refl _ _
  exact Keeps.refl _ _

theorem braidReady_keeps (s : State) (strand : Nat) (t : TileOp) (found : List Found) :
    Keeps [.regs, .port, .lines, .strands, .mem, .tiers, .eng, .stackSt, .net, .pmu] s (braidReady s strand t found) := by
  unfold braidReady
  split
  split
  exact Keeps.refl _ _
  dsimp only
  split
  with_reducible refine Keeps.step ?_ (sweepLoad_keeps ..) rfl
  exact Keeps.refl _ _
  with_reducible refine Keeps.step ?_ (tileSet_keeps ..) rfl
  with_reducible refine Keeps.step ?_ (sweepLoad_keeps ..) rfl
  exact Keeps.refl _ _
  exact Keeps.refl _ _

theorem sweepLost_keeps (s : State) (t : TileOp) :
    Keeps [.lines] s (sweepLost s t) := by
  unfold sweepLost
  split
  with_reducible refine Keeps.step ?_ (opSet_keeps ..) rfl
  exact Keeps.refl _ _
  exact Keeps.refl _ _

theorem braidLast_keeps (s : State) (strand : Nat) (t : TileOp) (found : List Found) (err : Option ArrayErr) :
    Keeps [.regs, .port, .lines, .strands, .mem, .tiers, .eng, .stackSt, .net, .pmu] s (braidLast s strand t found err) := by
  unfold braidLast
  split
  split
  exact Keeps.refl _ _
  split
  with_reducible refine Keeps.step ?_ (sweepLost_keeps ..) rfl
  exact Keeps.refl _ _
  dsimp only
  split
  with_reducible refine Keeps.step ?_ (pmuAdd_keeps ..) rfl
  with_reducible refine Keeps.step ?_ (tileSet_keeps ..) rfl
  with_reducible refine Keeps.step ?_ (sweepLoad_keeps ..) rfl
  exact Keeps.refl _ _
  with_reducible refine Keeps.step ?_ (sweepLoad_keeps ..) rfl
  exact Keeps.refl _ _
  exact Keeps.refl _ _

theorem braidDrain_keeps (s : State) (strand : Nat) (t : TileOp) :
    Keeps [.strands] s (braidDrain s strand t) := by
  unfold braidDrain
  split
  exact Keeps.refl _ _
  split
  exact Keeps.refl _ _
  dsimp only
  split
  with_reducible refine Keeps.step ?_ (strandSet_keeps ..) rfl
  with_reducible refine Keeps.step ?_ (tileSet_keeps ..) rfl
  exact Keeps.refl _ _
  with_reducible refine Keeps.step ?_ (tileSet_keeps ..) rfl
  exact Keeps.refl _ _

theorem writeTile_keeps (s : State) (strand : Nat) (d : BitVec 512) (t : TileOp) :
    Keeps [.regs, .port, .lines, .mem, .tiers, .net, .pmu] s (writeTile s strand d t).1 := by
  rw [writeTile]
  with_reducible refine Keeps.foldl_fst ?_ (fun _ _ _ => ?_)
  dsimp only
  exact Keeps.refl _ _
  dsimp only
  with_reducible refine Keeps.step ?_ (placeWrite_keeps ..) rfl
  assumption

theorem braidRetire_keeps (s : State) (strand : Nat) (t : TileOp) :
    Keeps [.regs, .port, .lines, .strands, .mem, .tiers, .eng, .net, .pmu] s (braidRetire s strand t) := by
  unfold braidRetire
  split
  exact Keeps.refl _ _
  dsimp only
  split
  with_reducible refine Keeps.step ?_ (noteWaits_keeps ..) rfl
  exact Keeps.refl _ _
  split
  with_reducible refine Keeps.step ?_ (opSet_keeps ..) rfl
  with_reducible refine Keeps.step ?_ (pmuAdd_keeps ..) rfl
  with_reducible refine Keeps.step ?_ (tileDrop_keeps ..) rfl
  with_reducible refine Keeps.step ?_ (tileEnd_keeps ..) rfl
  with_reducible refine Keeps.step ?_ (noteAccess_keeps ..) rfl
  split
  dsimp only
  exact Keeps.refl _ _
  with_reducible refine Keeps.step ?_ (writeTile_keeps ..) rfl
  exact Keeps.refl _ _
  with_reducible refine Keeps.step ?_ (pmuAdd_keeps ..) rfl
  with_reducible refine Keeps.step ?_ (tileDrop_keeps ..) rfl
  with_reducible refine Keeps.step ?_ (tileEnd_keeps ..) rfl
  with_reducible refine Keeps.step ?_ (noteAccess_keeps ..) rfl
  split
  dsimp only
  exact Keeps.refl _ _
  with_reducible refine Keeps.step ?_ (writeTile_keeps ..) rfl
  exact Keeps.refl _ _

theorem execDirectReadFallback_keeps (line : LineNo) (seq : Seq) (s : State) :
    KeepsOut [.regs, .port, .lines, .strands, .pmu] s (execDirectReadFallback line seq s) := by
  unfold execDirectReadFallback
  dsimp only
  split
  with_reducible refine KeepsOut.next ?_
  exact Keeps.refl _ _
  split
  with_reducible refine KeepsOut.next ?_
  with_reducible refine Keeps.foldl ?_ (fun _ _ _ => ?_)
  exact Keeps.refl _ _
  with_reducible refine Keeps.step ?_ (noteFell_keeps ..) rfl
  assumption
  with_reducible refine KeepsOut.next ?_
  exact Keeps.refl _ _

end Sys2Proof.Machine
end

