-- ==== Sys2Proof/Laws/KeepsVector.lean ====
section
/-! SUPPORT. What each operation of Machine/Vector.lean may change, and that it keeps the stores canonical. -/

set_option Elab.async false

namespace Sys2Proof.Machine

open Sys2Proof

theorem execVecOp_keeps (line : LineNo) (s : State) :
    KeepsOut [.regs, .port, .lines, .hitches, .mem, .tiers, .eng, .net, .pmu] s (execVecOp line s) := by
  unfold execVecOp
  dsimp only
  with_reducible refine onDispatch_keeps _ _ _ _ rfl (fun _ => ?_)
  split
  with_reducible refine Keeps.step ?_ (noteWaits_keeps ..) rfl
  exact Keeps.refl _ _
  split
  with_reducible refine Keeps.step ?_ (rejectOp_keeps ..) rfl
  with_reducible refine Keeps.step ?_ (noteAccess_keeps ..) rfl
  exact Keeps.refl _ _
  split
  split
  with_reducible refine Keeps.step ?_ (finishOp_keeps ..) rfl
  with_reducible refine Keeps.step ?_ (noteAccess_keeps ..) rfl
  exact Keeps.refl _ _
  split
  with_reducible refine Keeps.step ?_ (finishOp_keeps ..) rfl
  with_reducible refine Keeps.step ?_ (noteAccess_keeps ..) rfl
  exact Keeps.refl _ _
  with_reducible refine Keeps.step ?_ (noteLine_keeps ..) rfl
  with_reducible refine Keeps.step ?_ (opSet_keeps ..) rfl
  with_reducible refine Keeps.step ?_ (noteAccess_keeps ..) rfl
  exact Keeps.refl _ _
  with_reducible refine Keeps.step ?_ (noteLine_keeps ..) rfl
  with_reducible refine Keeps.step ?_ (opSet_keeps ..) rfl
  with_reducible refine Keeps.step ?_ (noteAccess_keeps ..) rfl
  exact Keeps.refl _ _

/-- What a write of elements or rows may change: the parts that a device write may. -/
abbrev writeParts : List Part := [.regs, .port, .lines, .mem, .tiers, .net, .pmu]

theorem writeChafed_keeps (w : Wrote) (strand acct : Nat) (p : Place) (bs : List (Byte × Bool)) :
    Keeps writeParts w.st (writeChafed w strand acct p bs).st := by
  unfold writeChafed
  refine foldl_keeps (fun (x : Wrote) => Keeps writeParts w.st x.st) _ _ _ (Keeps.refl _ _) (fun x q hx => ?_)
  exact hx.step (placeWrite_keeps ..) rfl

theorem writeElems_keeps (w : Wrote) (strand acct : Nat) (p : Place) (f : Fmt) (x : Nat) (es : List (Nat × Bool)) :
    Keeps writeParts w.st (writeElems w strand acct p f x es).st := by
  unfold writeElems
  split
  · have h1 : ∀ l : List (Nat × Byte × Bool), Keeps writeParts w.st
        (l.foldl (fun u b => writeChafed u strand acct (p.plus b.1) [(b.2.1, b.2.2)]) w).st := fun l =>
      foldl_keeps (fun (u : Wrote) => Keeps writeParts w.st u.st) _ _ _ (Keeps.refl _ _)
        (fun u b hu => hu.step (writeChafed_keeps ..) rfl)
    dsimp only
    split
    · exact h1 _
    · exact (h1 _).step (writeChafed_keeps ..) rfl
  · exact writeChafed_keeps ..

theorem writeRun_keeps (w : Wrote) (strand acct : Nat) (p scales : Place) (f : Fmt) (x : Nat) (stored : List Nat × List Nat)
    (ch : List Bool) : Keeps writeParts w.st (writeRun w strand acct p scales f x stored ch).st := by
  unfold writeRun
  dsimp only
  split
  · exact (writeElems_keeps ..).step (writeChafed_keeps ..) rfl
  · exact writeElems_keeps ..

theorem reduceRun_keeps (w : Wrote) (strand acct : Nat) (o : OpEnt) (p : Nat × Nat × Nat) (x : Lanes) (ch : List Bool) :
    Keeps writeParts w.st (reduceRun w strand acct o p x ch).1.st := by
  rw [reduceRun]
  dsimp only
  split
  · exact Keeps.refl _ _
  · split
    · exact Keeps.refl _ _
    · exact writeChafed_keeps ..

theorem doRun_keeps (s0 : State) (strand acct : Nat) (acc : Wrote × OpEnt × Lanes) (p : Nat × Nat × Nat) :
    Keeps writeParts acc.1.st (doRun s0 strand acct acc p).1.st := by
  rw [doRun]
  exact (writeRun_keeps ..).step (reduceRun_keeps ..) rfl

theorem epiRow_keeps (s0 : State) (strand acct : Nat) (t : TileOp) (acc : Wrote × OpEnt × Lanes) (m : Nat) :
    Keeps writeParts acc.1.st (epiRow s0 strand acct t acc m).1.st := by
  rw [epiRow]
  exact writeRun_keeps ..

theorem runGroup_keeps (s0 : State) (strand n : Nat) (o : OpEnt) (found : List Found) :
    Keeps [.regs, .port, .lines, .strands, .mem, .tiers, .stackSt, .net, .pmu] s0 (runGroup s0 strand n o found) := by
  have h1 : ∀ (s1 : State) (acct : Nat) (l : List (Nat × Nat × Nat)) (a : Wrote × OpEnt × Lanes), Keeps writeParts a.1.st
      (l.foldl (doRun s1 strand acct) a).1.st := fun s1 acct l a =>
    foldl_keeps (fun (u : Wrote × OpEnt × Lanes) => Keeps writeParts a.1.st u.1.st) _ _ _ (Keeps.refl _ _)
      (fun u b hu => hu.step (doRun_keeps ..) rfl)
  unfold runGroup
  extract_lets acct rs reads writes s s1 w0 r s2
  have hs1 : Keeps [.regs, .port, .lines, .strands, .mem, .tiers, .stackSt, .net, .pmu] s0 s1 := ((Keeps.refl _ _).step (foundAll_keeps ..) rfl).step (noteAccess_keeps ..) rfl
  have hr : Keeps [.regs, .port, .lines, .strands, .mem, .tiers, .stackSt, .net, .pmu] s0 r.1.st := hs1.step (h1 _ _ _ (w0, o, Lanes.reset)) rfl
  have hs2 : Keeps [.regs, .port, .lines, .strands, .mem, .tiers, .stackSt, .net, .pmu] s0 s2 := hr.step (noteWritten_keeps ..) rfl
  exact ((hs2.step (strandSet_keeps ..) rfl).step (pmuAdd_keeps ..) rfl).step (opKeep_keeps ..) rfl

theorem runEpi_keeps (sf : State) (strand : Nat) (t : TileOp) (o : OpEnt) (found : List Found) :
    Keeps [.regs, .port, .lines, .strands, .mem, .tiers, .stackSt, .net, .pmu] sf (runEpi sf strand t o found) := by
  have h1 : ∀ (s1 : State) (l : List Nat) (a : Wrote × OpEnt × Lanes), Keeps writeParts a.1.st
      (l.foldl (epiRow s1 strand t.account t) a).1.st := fun s1 l a =>
    foldl_keeps (fun (u : Wrote × OpEnt × Lanes) => Keeps writeParts a.1.st u.1.st) _ _ _ (Keeps.refl _ _)
      (fun u b hu => hu.step (epiRow_keeps ..) rfl)
  unfold runEpi
  extract_lets acct s s1 w0 r s2
  have hs1 : Keeps [.regs, .port, .lines, .strands, .mem, .tiers, .stackSt, .net, .pmu] sf s1 := ((Keeps.refl _ _).step (foundAll_keeps ..) rfl).step (noteAccess_keeps ..) rfl
  have hr : Keeps [.regs, .port, .lines, .strands, .mem, .tiers, .stackSt, .net, .pmu] sf r.1.st := hs1.step (h1 _ _ (w0, o, Lanes.reset)) rfl
  have hs2 : Keeps [.regs, .port, .lines, .strands, .mem, .tiers, .stackSt, .net, .pmu] sf s2 := hr.step (noteWritten_keeps ..) rfl
  exact ((hs2.step (strandSet_keeps ..) rfl).step (pmuAdd_keeps ..) rfl).step (opKeep_keeps ..) rfl

theorem vecWaits_keeps (s : State) (strand : Nat) :
    Keeps [.eng] s (vecWaits s strand) := by
  unfold vecWaits
  with_reducible refine Keeps.foldl ?_ (fun _ _ _ => ?_)
  exact Keeps.refl _ _
  split
  dsimp only
  with_reducible refine Keeps.step ?_ (noteWaits_keeps ..) rfl
  with_reducible refine Keeps.step ?_ (noteWaits_keeps ..) rfl
  assumption
  assumption

theorem execVecGroup_keeps (strand : Met StrandNo) (s : State) :
    KeepsOut [.regs, .port, .lines, .vecArb, .strands, .mem, .tiers, .eng, .stackSt, .net, .wfc, .pmu] s (execVecGroup strand s) := by
  unfold execVecGroup
  dsimp only
  split
  with_reducible refine KeepsOut.next ?_
  exact Keeps.refl _ _
  split
  split
  split
  with_reducible refine KeepsOut.next ?_
  with_reducible refine Keeps.step ?_ (runEpi_keeps ..) rfl
  exact Keeps.refl _ _
  with_reducible refine KeepsOut.next ?_
  with_reducible refine Keeps.step ?_ (noteWaits_keeps ..) rfl
  with_reducible refine Keeps.step ?_ (noteWaits_keeps ..) rfl
  exact Keeps.refl _ _
  with_reducible refine KeepsOut.next ?_
  with_reducible refine Keeps.step ?_ (strandSet_keeps ..) rfl
  exact Keeps.refl _ _
  split
  with_reducible refine KeepsOut.next ?_
  with_reducible refine Keeps.step ?_ (vecWaits_keeps ..) rfl
  with_reducible refine Keeps.upd ?_
  exact Keeps.refl _ _
  split
  with_reducible refine KeepsOut.next ?_
  with_reducible refine Keeps.step ?_ (runGroup_keeps ..) rfl
  with_reducible refine Keeps.step ?_ (noteGrant_keeps ..) rfl
  with_reducible refine Keeps.upd ?_
  exact Keeps.refl _ _
  with_reducible refine KeepsOut.next ?_
  with_reducible refine Keeps.upd ?_
  exact Keeps.refl _ _

end Sys2Proof.Machine
end

