-- ==== Sys2Proof/Laws/KeepsBight.lean ====
section
/-! SUPPORT. What each operation of Machine/Bight.lean may change, and that it keeps the stores canonical. -/

set_option Elab.async false

namespace Sys2Proof.Machine

open Sys2Proof

theorem dispatchBgt_keeps (s0 : State) (n : Nat) (o : OpEnt) :
    Keeps [.regs, .port, .lines, .hitches, .mem, .tiers, .net, .pmu] s0 (dispatchBgt s0 n o) := by
  unfold dispatchBgt
  dsimp only
  split
  split
  exact Keeps.refl _ _
  with_reducible refine Keeps.step ?_ (rejectOp_keeps ..) rfl
  with_reducible refine Keeps.step ?_ (noteAccess_keeps ..) rfl
  exact Keeps.refl _ _
  split
  exact Keeps.refl _ _
  split
  with_reducible refine Keeps.step ?_ (rejectOp_keeps ..) rfl
  with_reducible refine Keeps.step ?_ (noteAccess_keeps ..) rfl
  exact Keeps.refl _ _
  with_reducible refine Keeps.step ?_ (noteLine_keeps ..) rfl
  with_reducible refine Keeps.step ?_ (opSet_keeps ..) rfl
  with_reducible refine Keeps.step ?_ (noteAccess_keeps ..) rfl
  exact Keeps.refl _ _

theorem execBgtFwd_keeps (line : LineNo) (s : State) :
    KeepsOut [.regs, .port, .lines, .hitches, .mem, .tiers, .net, .pmu] s (execBgtFwd line s) := by
  unfold execBgtFwd
  with_reducible refine onDispatch_keeps _ _ _ _ rfl (fun _ => ?_)
  with_reducible refine Keeps.step ?_ (dispatchBgt_keeps ..) rfl
  exact Keeps.refl _ _

theorem execBgtBwd_keeps (line : LineNo) (s : State) :
    KeepsOut [.regs, .port, .lines, .hitches, .mem, .tiers, .net, .pmu] s (execBgtBwd line s) := by
  unfold execBgtBwd
  with_reducible refine onDispatch_keeps _ _ _ _ rfl (fun _ => ?_)
  with_reducible refine Keeps.step ?_ (dispatchBgt_keeps ..) rfl
  exact Keeps.refl _ _

theorem runPhase0_keeps (s : State) (strand : Nat) (acct : Nat) (o : OpEnt) (si : Nat) :
    Keeps [.regs, .port, .lines, .mem, .tiers, .net, .pmu] s (runPhase0 s strand acct o si).1 := by
  rw [runPhase0]
  with_reducible refine Keeps.foldl_fst ?_ (fun _ _ _ => ?_)
  dsimp only
  exact Keeps.refl _ _
  dsimp only
  with_reducible refine Keeps.step ?_ (placeWrite_keeps ..) rfl
  assumption

theorem phase0_keeps (s : State) (strand : Nat) (acct : Nat) (o : OpEnt) (t : TileOp) (found : List Found) :
    Keeps [.regs, .port, .lines, .mem, .tiers, .stackSt, .net, .pmu] s (phase0 s strand acct o t found).1 := by
  rw [phase0]
  dsimp only
  with_reducible refine Keeps.step ?_ (noteWritten_keeps ..) rfl
  with_reducible refine Keeps.step ?_ (runPhase0_keeps ..) rfl
  with_reducible refine Keeps.step ?_ (noteAccess_keeps ..) rfl
  with_reducible refine Keeps.step ?_ (foundAll_keeps ..) rfl
  exact Keeps.refl _ _

theorem pageMove_keeps (s : State) (o : OpEnt) (origin : MoveOrigin) (b : Nat) (deadline : Nat) :
    Keeps [.tiers] s (pageMove s o origin b deadline).1 := by
  rw [pageMove]
  split
  dsimp only
  exact Keeps.refl _ _
  dsimp only
  with_reducible refine Keeps.step ?_ (queueMove_keeps ..) rfl
  exact Keeps.refl _ _

theorem passBlocks_keeps (strand n : Nat) (bs : List Nat) (fuel : Nat) (s : State) (t : TileOp) :
    Keeps [.regs, .port, .lines, .strands, .tiers, .pmu] s (passBlocks strand n bs fuel s t) := by
  induction fuel generalizing s t with
  | zero => exact (Keeps.refl _ _).step (tileSet_keeps ..) rfl
  | succ k ih =>
    unfold passBlocks
    split
    · rename_i j o _ _
      have h1 : ∀ o1, Keeps [.regs, .port, .lines, .strands, .tiers, .pmu] s (opSet s n o1) := fun o1 => (Keeps.refl _ _).step (opSet_keeps ..) rfl
      dsimp only
      split
      · exact (h1 _).step (tileSet_keeps ..) rfl
      · split
        · exact (h1 _).trans' (ih _ _)
        · split
          · exact (h1 _).step (tileSet_keeps ..) rfl
          · split
            · refine Keeps.trans' ?_ (ih _ _)
              split
              · exact ((h1 _).step (pmuAdd_keeps ..) rfl).step (opSet_keeps ..) rfl
              · exact (h1 _).step (pmuAdd_keeps ..) rfl
            · refine Keeps.step ?_ (tileSet_keeps ..) rfl
              refine Keeps.foldl (h1 _) (fun u b hu => ?_)
              split
              · exact hu.step (pageMove_keeps ..) rfl
              · exact hu
    · exact (Keeps.refl _ _).step (tileSet_keeps ..) rfl

theorem advanceTile_keeps (s : State) (strand : Nat) (t : TileOp) :
    Keeps [.regs, .port, .lines, .strands, .tiers, .pmu] s (advanceTile s strand t) := by
  unfold advanceTile
  split
  exact Keeps.refl _ _
  split
  exact Keeps.refl _ _
  dsimp only
  with_reducible refine Keeps.step ?_ (passBlocks_keeps ..) rfl
  exact Keeps.refl _ _

theorem advanceBight_keeps (s : State) :
    Keeps [.regs, .port, .lines, .strands, .tiers, .pmu] s (advanceBight s) := by
  unfold advanceBight
  with_reducible refine Keeps.foldl ?_ (fun _ _ _ => ?_)
  exact Keeps.refl _ _
  with_reducible refine Keeps.foldl ?_ (fun _ _ _ => ?_)
  assumption
  with_reducible refine Keeps.step ?_ (advanceTile_keeps ..) rfl
  assumption

theorem execPageWaitDeadline_keeps (strand : StrandNo) (array : ArrayNo) (s : State) :
    KeepsOut [.regs, .port, .lines, .strands, .tiers, .pmu] s (execPageWaitDeadline strand array s) := by
  unfold execPageWaitDeadline
  dsimp only
  split
  with_reducible refine KeepsOut.next ?_
  exact Keeps.refl _ _
  split
  split
  with_reducible refine KeepsOut.next ?_
  exact Keeps.refl _ _
  split
  with_reducible refine KeepsOut.next ?_
  exact Keeps.refl _ _
  with_reducible refine KeepsOut.next ?_
  with_reducible refine Keeps.step ?_ (advanceTile_keeps ..) rfl
  with_reducible refine Keeps.step ?_ (opSet_keeps ..) rfl
  split
  exact Keeps.refl _ _
  with_reducible refine Keeps.step ?_ (pmuAdd_keeps ..) rfl
  exact Keeps.refl _ _
  with_reducible refine KeepsOut.next ?_
  exact Keeps.refl _ _

theorem execBightPrefetch_keeps (line : LineNo) (seq : Seq) (s : State) :
    KeepsOut [.regs, .port, .lines, .tiers, .pmu] s (execBightPrefetch line seq s) := by
  unfold execBightPrefetch
  dsimp only
  split
  with_reducible refine KeepsOut.next ?_
  exact Keeps.refl _ _
  split
  with_reducible refine KeepsOut.next ?_
  with_reducible refine Keeps.foldl ?_ (fun _ _ _ => ?_)
  exact Keeps.refl _ _
  split
  assumption
  split
  assumption
  split
  with_reducible refine Keeps.step ?_ (opSet_keeps ..) rfl
  with_reducible refine Keeps.step ?_ (pmuAdd_keeps ..) rfl
  assumption
  with_reducible refine Keeps.foldl ?_ (fun _ _ _ => ?_)
  assumption
  with_reducible refine Keeps.step ?_ (pageMove_keeps ..) rfl
  assumption
  with_reducible refine KeepsOut.next ?_
  exact Keeps.refl _ _

theorem bightReady_keeps (s : State) (strand : Nat) (t : TileOp) (found : List Found) :
    Keeps [.regs, .port, .lines, .strands, .mem, .tiers, .eng, .stackSt, .net, .pmu] s (bightReady s strand t found) := by
  unfold bightReady
  split
  exact Keeps.refl _ _
  dsimp only
  split
  exact Keeps.refl _ _
  split
  with_reducible refine Keeps.step ?_ (noteWaits_keeps ..) rfl
  exact Keeps.refl _ _
  split
  with_reducible refine Keeps.step ?_ (noteWaits_keeps ..) rfl
  with_reducible refine Keeps.step ?_ (foundAll_keeps ..) rfl
  exact Keeps.refl _ _
  split
  with_reducible refine Keeps.step ?_ (tileSet_keeps ..) rfl
  with_reducible refine Keeps.step ?_ (opSet_keeps ..) rfl
  with_reducible refine Keeps.step ?_ (noteAccess_keeps ..) rfl
  with_reducible refine Keeps.step ?_ (foundAll_keeps ..) rfl
  exact Keeps.refl _ _
  with_reducible refine Keeps.step ?_ (noteAccess_keeps ..) rfl
  with_reducible refine Keeps.step ?_ (foundAll_keeps ..) rfl
  exact Keeps.refl _ _

theorem bightLast_keeps (s : State) (strand : Nat) (t : TileOp) (found : List Found) (err : Option ArrayErr) :
    Keeps [.free, .regs, .port, .lines, .strands, .mem, .tiers, .eng, .stackSt, .net, .pmu] s (bightLast s strand t found err) := by
  unfold bightLast
  split
  exact Keeps.refl _ _
  dsimp only
  split
  exact Keeps.refl _ _
  split
  with_reducible refine Keeps.step ?_ (sweepLost_keeps ..) rfl
  exact Keeps.refl _ _
  split
  with_reducible refine Keeps.step ?_ (noteWaits_keeps ..) rfl
  with_reducible refine Keeps.step ?_ (foundAll_keeps ..) rfl
  exact Keeps.refl _ _
  with_reducible refine Keeps.step ?_ (pmuAdd_keeps ..) rfl
  with_reducible refine Keeps.step ?_ (tileSet_keeps ..) rfl
  with_reducible refine Keeps.step ?_ (drawn_keeps ..) rfl
  with_reducible refine Keeps.step ?_ (foundAll_keeps ..) rfl
  exact Keeps.refl _ _

theorem writeRowAt_keeps (acc : Wrote) (strand acct : Nat) (p : Place) (bs : List Byte) (mark : Bool) :
    Keeps writeParts acc.st (writeRowAt acc strand acct p bs mark).st := writeChafed_keeps ..

theorem writeBight_keeps (s : State) (strand : Nat) (o : OpEnt) (t : TileOp) :
    Keeps writeParts s (writeBight s strand o t).st := by
  have h0 : Keeps writeParts s ({ st := s, marked := [], dropped := false } : Wrote).st := Keeps.refl _ _
  unfold writeBight
  dsimp only
  split
  · refine foldl_keeps (fun (u : Wrote) => Keeps writeParts s u.st) _ _ _ h0 (fun u b hu => ?_)
    exact (hu.step (writeRowAt_keeps ..) rfl).step (writeRowAt_keeps ..) rfl
  · split
    · refine foldl_keeps (fun (u : Wrote) => Keeps writeParts s u.st) _ _ _ h0 (fun u b hu => ?_)
      exact hu.step (writeRowAt_keeps ..) rfl
    · refine foldl_keeps (fun (u : Wrote) => Keeps writeParts s u.st) _ _ _ h0 (fun u b hu => ?_)
      split
      · split
        · exact (hu.step (writeRowAt_keeps ..) rfl).step (writeRowAt_keeps ..) rfl
        · exact hu.step (writeRowAt_keeps ..) rfl
      · exact hu.step (writeRowAt_keeps ..) rfl

theorem bightRetire_keeps (s : State) (strand : Nat) (t : TileOp) :
    Keeps [.free, .regs, .port, .lines, .strands, .mem, .tiers, .eng, .net, .pmu] s (bightRetire s strand t) := by
  unfold bightRetire
  split
  · exact Keeps.refl _ _
  · rename_i o _
    extract_lets h writes w good s1 lost s2 s3
    have hw : Keeps [.free, .regs, .port, .lines, .strands, .mem, .tiers, .eng, .net, .pmu] s w.st := (Keeps.refl _ _).step (writeBight_keeps s strand o t) rfl
    have h3 : Keeps [.free, .regs, .port, .lines, .strands, .mem, .tiers, .eng, .net, .pmu] s s3 :=
      (((((hw.step (noteAccess_keeps ..) rfl).step (drawn_keeps ..) rfl).step (tileEnd_keeps ..) rfl).step
        (tileDrop_keeps ..) rfl).step (pmuAdd_keeps ..) rfl).step (pmuAdd_keeps ..) rfl
    clear_value s3
    split
    · exact (Keeps.refl _ _).step (noteWaits_keeps ..) rfl
    · split
      · exact h3.step (opSet_keeps ..) rfl
      · exact h3

end Sys2Proof.Machine
end

