-- ==== Sys2Proof/Laws/KeepsTileEvents.lean ====
section
/-! SUPPORT. What each operation of Machine/TileEvents.lean may change, and that it keeps the stores canonical. -/

set_option Elab.async false

namespace Sys2Proof.Machine

open Sys2Proof

theorem noteHeldFor_keeps (s : State) (strand : Nat) :
    Keeps [.strands] s (noteHeldFor s strand) := by
  unfold noteHeldFor
  dsimp only
  with_reducible refine Keeps.step ?_ (strandSet_keeps ..) rfl
  exact Keeps.refl _ _

theorem arrayPick_keeps (s : State) (strand : Nat) (f : State → Nat → OpEnt → Option State) (ps : List Part)
    (hp : subParts [.regs, .port, .braidArb, .strands, .wfc, .pmu] ps = true)
    (hf : ∀ t n o u, f t n o = some u → Keeps ps t u) :
    KeepsOut ps s (arrayPick s strand f) := by
  have h0 : Keeps [.regs, .port, .braidArb, .strands, .wfc, .pmu] s
      { s with braidArb := mapSet Arb.reset s.braidArb strand (pickNow s 65536 false (arrayReqs s strand) (mapGet Arb.reset s.braidArb strand)).2 } :=
    Keeps.upd (Keeps.refl _ _)
  unfold arrayPick
  dsimp only
  split
  · exact KeepsOut.next ((h0.step (noteHeldFor_keeps ..) rfl).mono hp)
  · rename_i q _
    split
    · exact KeepsOut.next (Keeps.refl _ _)
    · have h1 := h0.step (noteGrant_keeps _ q) rfl
      split
      · rename_i u hu
        refine KeepsOut.next (Keeps.trans' ?_ ((noteHeldFor_keeps u strand).mono (subParts_trans rfl hp)))
        refine Keeps.trans' (Keeps.mono ?_ hp) (hf _ _ _ _ hu)
        split
        · exact h1.step (pmuAdd_keeps ..) rfl
        · exact h1
      · exact KeepsOut.next (Keeps.refl _ _)

theorem execSweepIssue_keeps (strand : StrandNo) (s : State) :
    KeepsOut [.free, .regs, .port, .lines, .braidArb, .strands, .wfc, .pmu] s (execSweepIssue strand s) := by
  unfold execSweepIssue
  split
  · exact KeepsOut.next (Keeps.refl _ _)
  · refine arrayPick_keeps _ _ _ _ rfl (fun t n o u hu => ?_)
    split at hu
    · exact Option.some.inj hu ▸ (issueSweep_keeps ..).mono rfl
    · exact absurd hu (by simp)

theorem issueBight_keeps (found : List Found) (s : State) (strand : Nat) (n : Nat) (o : OpEnt) :
    Keeps [.free, .regs, .port, .lines, .strands, .mem, .tiers, .stackSt, .net, .pmu] s (issueBight found s strand n o) := by
  unfold issueBight
  split
  exact Keeps.refl _ _
  dsimp only
  with_reducible refine Keeps.step ?_ (advanceTile_keeps ..) rfl
  with_reducible refine Keeps.step ?_ (opSet_keeps ..) rfl
  with_reducible refine Keeps.step ?_ (drawn_keeps ..) rfl
  with_reducible refine Keeps.step ?_ (strandSet_keeps ..) rfl
  with_reducible refine Keeps.step ?_ (tagStep_keeps ..) rfl
  split
  with_reducible refine Keeps.step ?_ (phase0_keeps ..) rfl
  exact Keeps.refl _ _
  dsimp only
  exact Keeps.refl _ _

theorem execBgtTileIssue_keeps (strand : Met StrandNo) (s : State) :
    KeepsOut [.free, .regs, .port, .lines, .braidArb, .strands, .mem, .tiers, .stackSt, .net, .wfc, .pmu] s (execBgtTileIssue strand s) := by
  unfold execBgtTileIssue
  split
  · exact KeepsOut.next (Keeps.refl _ _)
  · refine arrayPick_keeps _ _ _ _ rfl (fun t n o u hu => ?_)
    split at hu
    · exact absurd hu (by simp)
    · exact Option.some.inj hu ▸ (issueBight_keeps ..).mono rfl

theorem execTileOpReady_keeps (strand : StrandNo) (array : ArrayNo) (found : List Found) (s : State) :
    KeepsOut [.regs, .port, .lines, .strands, .mem, .tiers, .eng, .stackSt, .net, .pmu] s (execTileOpReady strand array found s) := by
  unfold execTileOpReady
  split
  with_reducible refine KeepsOut.next ?_
  exact Keeps.refl _ _
  with_reducible refine KeepsOut.next ?_
  split
  with_reducible refine Keeps.step ?_ (bightReady_keeps ..) rfl
  exact Keeps.refl _ _
  with_reducible refine Keeps.step ?_ (braidReady_keeps ..) rfl
  exact Keeps.refl _ _

theorem execFirstWave_keeps (strand : StrandNo) (array : ArrayNo) (s : State) :
    KeepsOut [.strands] s (execFirstWave strand array s) := by
  unfold execFirstWave
  split
  with_reducible refine KeepsOut.next ?_
  exact Keeps.refl _ _
  split
  with_reducible refine KeepsOut.next ?_
  with_reducible refine Keeps.step ?_ (tileSet_keeps ..) rfl
  exact Keeps.refl _ _
  with_reducible refine KeepsOut.next ?_
  exact Keeps.refl _ _

theorem execLastWave_keeps (strand : StrandNo) (array : WaveEnd) (s : State) :
    KeepsOut [.free, .regs, .port, .lines, .strands, .mem, .tiers, .eng, .stackSt, .net, .pmu] s (execLastWave strand array s) := by
  unfold execLastWave
  split
  with_reducible refine KeepsOut.next ?_
  exact Keeps.refl _ _
  with_reducible refine KeepsOut.next ?_
  split
  with_reducible refine Keeps.step ?_ (bightLast_keeps ..) rfl
  exact Keeps.refl _ _
  with_reducible refine Keeps.step ?_ (braidLast_keeps ..) rfl
  exact Keeps.refl _ _

theorem execTileDrain_keeps (strand : StrandNo) (array : ArrayNo) (s : State) :
    KeepsOut [.strands] s (execTileDrain strand array s) := by
  unfold execTileDrain
  split
  with_reducible refine KeepsOut.next ?_
  exact Keeps.refl _ _
  with_reducible refine KeepsOut.next ?_
  split
  with_reducible refine Keeps.step ?_ (tileSet_keeps ..) rfl
  exact Keeps.refl _ _
  with_reducible refine Keeps.step ?_ (braidDrain_keeps ..) rfl
  exact Keeps.refl _ _

theorem execTileOpRetire_keeps (strand : StrandNo) (array : ArrayNo) (s : State) :
    KeepsOut [.free, .regs, .port, .lines, .strands, .mem, .tiers, .eng, .net, .pmu] s (execTileOpRetire strand array s) := by
  unfold execTileOpRetire
  split
  with_reducible refine KeepsOut.next ?_
  exact Keeps.refl _ _
  with_reducible refine KeepsOut.next ?_
  split
  with_reducible refine Keeps.step ?_ (bightRetire_keeps ..) rfl
  exact Keeps.refl _ _
  with_reducible refine Keeps.step ?_ (braidRetire_keeps ..) rfl
  exact Keeps.refl _ _

theorem execRequestAged_keeps (line : LineNo) (seq : Seq) (s : State) :
    KeepsOut [.lines, .strands] s (execRequestAged line seq s) := by
  unfold execRequestAged
  dsimp only
  split
  with_reducible refine KeepsOut.next ?_
  exact Keeps.refl _ _
  split
  with_reducible refine KeepsOut.next ?_
  with_reducible refine Keeps.step ?_ (noteHeldFor_keeps ..) rfl
  with_reducible refine Keeps.step ?_ (opSet_keeps ..) rfl
  exact Keeps.refl _ _
  with_reducible refine KeepsOut.next ?_
  exact Keeps.refl _ _

end Sys2Proof.Machine
end

