-- ==== Sys2Proof/Laws/KeepsConsumers.lean ====
section
/-! SUPPORT. What each operation of Machine/Consumers.lean may change, and that it keeps the stores canonical. -/

set_option Elab.async false

namespace Sys2Proof.Machine

open Sys2Proof

theorem execDemandMove_keeps (line : LineNo) (seq : Seq) (name : DevAddr) (s : State) :
    KeepsOut [.regs, .port, .lines, .tiers, .net, .pmu] s (execDemandMove line seq name s) := by
  unfold execDemandMove
  dsimp only
  split
  with_reducible refine KeepsOut.next ?_
  exact Keeps.refl _ _
  split
  split
  with_reducible refine KeepsOut.next ?_
  with_reducible refine Keeps.step ?_ (collPumpAll_keeps ..) rfl
  with_reducible refine Keeps.step ?_ (opSet_keeps ..) rfl
  with_reducible refine Keeps.step ?_ (pmuAdd_keeps ..) rfl
  with_reducible refine Keeps.step ?_ (pmuAdd_keeps ..) rfl
  exact Keeps.refl _ _
  with_reducible refine KeepsOut.next ?_
  with_reducible refine Keeps.step ?_ (queueMove_keeps ..) rfl
  with_reducible refine Keeps.step ?_ (pmuAdd_keeps ..) rfl
  exact Keeps.refl _ _
  with_reducible refine KeepsOut.next ?_
  exact Keeps.refl _ _

theorem frameWaits_keeps (s : State) (t : Tier) (f : Nat) (write : Bool) :
    Keeps [.eng] s (frameWaits s t f write) := by
  unfold frameWaits
  with_reducible refine Keeps.foldl ?_ (fun _ _ _ => ?_)
  exact Keeps.refl _ _
  with_reducible refine Keeps.step ?_ (noteWait_keeps ..) rfl
  assumption

theorem execBlockMoveRetire_keeps (name : DevAddr) (s : State) :
    KeepsOut [.regs, .port, .lines, .hitches, .strands, .mem, .tiers, .eng, .net, .pmu] s (execBlockMoveRetire name s) := by
  unfold execBlockMoveRetire
  split
  dsimp only
  split
  with_reducible refine KeepsOut.next ?_
  exact Keeps.refl _ _
  split
  with_reducible refine KeepsOut.next ?_
  with_reducible refine Keeps.step ?_ (frameWaits_keeps ..) rfl
  with_reducible refine Keeps.step ?_ (frameWaits_keeps ..) rfl
  exact Keeps.refl _ _
  with_reducible refine KeepsOut.next ?_
  with_reducible refine Keeps.step ?_ (collPumpAll_keeps ..) rfl
  with_reducible refine Keeps.step ?_ (advanceBight_keeps ..) rfl
  with_reducible refine Keeps.step ?_ (retireMove_keeps ..) rfl
  exact Keeps.refl _ _
  with_reducible refine KeepsOut.next ?_
  exact Keeps.refl _ _

theorem execLandingMerge_keeps (name : DevAddr) (s : State) :
    KeepsOut [.regs, .port, .lines, .hitches, .strands, .mem, .tiers, .net, .pmu] s (execLandingMerge name s) := by
  unfold execLandingMerge
  with_reducible refine KeepsOut.next ?_
  with_reducible refine Keeps.step ?_ (collPumpAll_keeps ..) rfl
  with_reducible refine Keeps.step ?_ (advanceBight_keeps ..) rfl
  with_reducible refine Keeps.step ?_ (landingMerged_keeps ..) rfl
  exact Keeps.refl _ _

theorem execAllocFillDone_keeps (name : DevAddr) (s : State) :
    KeepsOut [.free, .port, .lines, .mem, .tiers, .eng] s (execAllocFillDone name s) := by
  unfold execAllocFillDone
  split
  split
  with_reducible refine KeepsOut.next ?_
  exact Keeps.refl _ _
  split
  with_reducible refine KeepsOut.next ?_
  with_reducible refine Keeps.step ?_ (frameWaits_keeps ..) rfl
  exact Keeps.refl _ _
  split
  split
  dsimp only
  with_reducible refine KeepsOut.next ?_
  with_reducible refine Keeps.step ?_ (advanceRuns_keeps ..) rfl
  with_reducible refine Keeps.step ?_ (runDone_keeps ..) rfl
  with_reducible refine Keeps.upd ?_
  with_reducible refine Keeps.step ?_ (arrived_keeps ..) rfl
  with_reducible refine Keeps.step ?_ (htSet_keeps ..) rfl
  with_reducible refine Keeps.step ?_ (sendFrameOut_keeps ..) rfl
  with_reducible refine Keeps.step ?_ (zeroFrame_keeps ..) rfl
  with_reducible refine Keeps.step ?_ (drawn_keeps ..) rfl
  exact Keeps.refl _ _
  with_reducible refine KeepsOut.next ?_
  exact Keeps.refl _ _
  with_reducible refine KeepsOut.next ?_
  exact Keeps.refl _ _
  with_reducible refine KeepsOut.next ?_
  exact Keeps.refl _ _

end Sys2Proof.Machine
end

