-- ==== Sys2Proof/Laws/KeepsRowLogic.lean ====
section
/-! SUPPORT. What each operation of Machine/RowLogic.lean may change, and that it keeps the stores canonical. -/

set_option Elab.async false

namespace Sys2Proof.Machine

open Sys2Proof

theorem execRowSeq_keeps (line : LineNo) (s : State) :
    KeepsOut [.regs, .port, .lines, .hitches, .mem, .tiers, .eng, .net, .pmu] s (execRowSeq line s) := by
  unfold execRowSeq
  dsimp only
  with_reducible refine onDispatch_keeps _ _ _ _ rfl (fun _ => ?_)
  split
  with_reducible refine Keeps.step ?_ (noteWaits_keeps ..) rfl
  exact Keeps.refl _ _
  split
  with_reducible refine Keeps.step ?_ (rejectOp_keeps ..) rfl
  with_reducible refine Keeps.step ?_ (noteAccess_keeps ..) rfl
  exact Keeps.refl _ _
  split
  with_reducible refine Keeps.step ?_ (rejectOp_keeps ..) rfl
  with_reducible refine Keeps.step ?_ (noteAccess_keeps ..) rfl
  exact Keeps.refl _ _
  with_reducible refine Keeps.step ?_ (noteLine_keeps ..) rfl
  with_reducible refine Keeps.step ?_ (opSet_keeps ..) rfl
  with_reducible refine Keeps.step ?_ (noteAccess_keeps ..) rfl
  exact Keeps.refl _ _

theorem joinRuns_keeps (s : State) (chan : Nat) (bank : Nat) :
    Keeps [.lines, .eng] s (joinRuns s chan bank) := by
  unfold joinRuns
  dsimp only
  with_reducible refine Keeps.foldl ?_ (fun _ _ _ => ?_)
  exact Keeps.refl _ _
  with_reducible refine Keeps.step ?_ (opSet_keeps ..) rfl
  with_reducible refine Keeps.step ?_ (bankSet_keeps ..) rfl
  assumption

theorem endRun_keeps (s : State) (k : Nat) (r : BankRun) :
    Keeps [.lines, .eng] s (endRun s k r) := by
  unfold endRun
  dsimp only
  split
  with_reducible refine Keeps.step ?_ (opSet_keeps ..) rfl
  with_reducible refine Keeps.step ?_ (bankSet_keeps ..) rfl
  exact Keeps.refl _ _
  with_reducible refine Keeps.step ?_ (bankSet_keeps ..) rfl
  exact Keeps.refl _ _

theorem execAtomStart_keeps (chan : BitVec 10) (bank : BankNo) (s : State) :
    KeepsOut [.lines, .eng] s (execAtomStart chan bank s) := by
  unfold execAtomStart
  dsimp only
  split
  with_reducible refine KeepsOut.next ?_
  exact Keeps.refl _ _
  split
  with_reducible refine KeepsOut.next ?_
  with_reducible refine Keeps.step ?_ (joinRuns_keeps ..) rfl
  exact Keeps.refl _ _
  split
  with_reducible refine KeepsOut.next ?_
  with_reducible refine Keeps.step ?_ (bankSet_keeps ..) rfl
  with_reducible refine Keeps.step ?_ (joinRuns_keeps ..) rfl
  exact Keeps.refl _ _
  split
  with_reducible refine KeepsOut.next ?_
  with_reducible refine Keeps.step ?_ (endRun_keeps ..) rfl
  with_reducible refine Keeps.step ?_ (joinRuns_keeps ..) rfl
  exact Keeps.refl _ _
  split
  with_reducible refine KeepsOut.next ?_
  with_reducible refine Keeps.step ?_ (joinRuns_keeps ..) rfl
  exact Keeps.refl _ _
  with_reducible refine KeepsOut.next ?_
  with_reducible refine Keeps.upd ?_
  with_reducible refine Keeps.step ?_ (bankSet_keeps ..) rfl
  with_reducible refine Keeps.step ?_ (joinRuns_keeps ..) rfl
  exact Keeps.refl _ _

theorem execAtomEnd_keeps (chan : BitVec 10) (bank : BankNo) (s : State) :
    KeepsOut [.regs, .port, .lines, .eng, .pmu] s (execAtomEnd chan bank s) := by
  unfold execAtomEnd
  dsimp only
  split
  split
  with_reducible refine KeepsOut.next ?_
  with_reducible refine Keeps.step ?_ (bankSet_keeps ..) rfl
  exact Keeps.refl _ _
  split
  with_reducible refine KeepsOut.next ?_
  with_reducible refine Keeps.step ?_ (bankSet_keeps ..) rfl
  with_reducible refine Keeps.step ?_ (endRun_keeps ..) rfl
  exact Keeps.refl _ _
  split
  with_reducible refine KeepsOut.next ?_
  with_reducible refine Keeps.step ?_ (pmuAdd_keeps ..) rfl
  with_reducible refine Keeps.upd ?_
  with_reducible refine Keeps.step ?_ (bankSet_keeps ..) rfl
  with_reducible refine Keeps.step ?_ (joinRuns_keeps ..) rfl
  exact Keeps.refl _ _
  with_reducible refine KeepsOut.next ?_
  with_reducible refine Keeps.step ?_ (bankSet_keeps ..) rfl
  with_reducible refine Keeps.step ?_ (joinRuns_keeps ..) rfl
  exact Keeps.refl _ _
  with_reducible refine KeepsOut.next ?_
  exact Keeps.refl _ _

theorem writeRow_keeps (s : State) (line : Nat) (seq : Nat) (gc : Nat) (bank : Nat) (row : Nat) (v : BitVec 8192) (marks : BitVec 32) :
    Keeps [.regs, .port, .lines, .mem, .tiers, .net, .pmu] s (writeRow s line seq gc bank row v marks) := by
  unfold writeRow
  with_reducible refine Keeps.foldl ?_ (fun _ _ _ => ?_)
  exact Keeps.refl _ _
  dsimp only
  split
  with_reducible refine Keeps.step ?_ (wroteMarked_keeps ..) rfl
  with_reducible refine Keeps.step ?_ (syncChafe_keeps ..) rfl
  with_reducible refine Keeps.step ?_ (postAt_keeps ..) rfl
  assumption
  with_reducible refine Keeps.step ?_ (syncChafe_keeps ..) rfl
  with_reducible refine Keeps.step ?_ (postAt_keeps ..) rfl
  assumption

theorem rowOp_keeps (op : Nat) (chan : BitVec 10) (bank : BankNo) (s : State) :
    KeepsOut [.regs, .port, .lines, .mem, .tiers, .eng, .net, .pmu] s (rowOp op chan bank s) := by
  unfold rowOp
  dsimp only
  split
  split
  with_reducible refine KeepsOut.next ?_
  exact Keeps.refl _ _
  split
  with_reducible refine KeepsOut.next ?_
  exact Keeps.refl _ _
  with_reducible refine KeepsOut.next ?_
  with_reducible refine Keeps.step ?_ (pmuAdd_keeps ..) rfl
  with_reducible refine Keeps.upd ?_
  with_reducible refine Keeps.step ?_ (opKeep_keeps ..) rfl
  with_reducible refine Keeps.step ?_ (bankSet_keeps ..) rfl
  split
  with_reducible refine Keeps.step ?_ (writeRow_keeps ..) rfl
  exact Keeps.refl _ _
  exact Keeps.refl _ _
  with_reducible refine KeepsOut.next ?_
  exact Keeps.refl _ _

theorem execRowZero_keeps (chan : BitVec 10) (bank : BankNo) (s : State) :
    KeepsOut [.regs, .port, .lines, .mem, .tiers, .eng, .net, .pmu] s (execRowZero chan bank s) := by
  unfold execRowZero
  refine KeepsOut.mono (rowOp_keeps _ _ _ _) ?_
  rfl

theorem execRowOnes_keeps (chan : BitVec 10) (bank : BankNo) (s : State) :
    KeepsOut [.regs, .port, .lines, .mem, .tiers, .eng, .net, .pmu] s (execRowOnes chan bank s) := by
  unfold execRowOnes
  refine KeepsOut.mono (rowOp_keeps _ _ _ _) ?_
  rfl

theorem execRowCopy_keeps (chan : BitVec 10) (bank : BankNo) (s : State) :
    KeepsOut [.regs, .port, .lines, .mem, .tiers, .eng, .net, .pmu] s (execRowCopy chan bank s) := by
  unfold execRowCopy
  refine KeepsOut.mono (rowOp_keeps _ _ _ _) ?_
  rfl

theorem execRowNot_keeps (chan : BitVec 10) (bank : BankNo) (s : State) :
    KeepsOut [.regs, .port, .lines, .mem, .tiers, .eng, .net, .pmu] s (execRowNot chan bank s) := by
  unfold execRowNot
  refine KeepsOut.mono (rowOp_keeps _ _ _ _) ?_
  rfl

theorem execRowAnd_keeps (chan : BitVec 10) (bank : BankNo) (s : State) :
    KeepsOut [.regs, .port, .lines, .mem, .tiers, .eng, .net, .pmu] s (execRowAnd chan bank s) := by
  unfold execRowAnd
  refine KeepsOut.mono (rowOp_keeps _ _ _ _) ?_
  rfl

theorem execRowOr_keeps (chan : BitVec 10) (bank : BankNo) (s : State) :
    KeepsOut [.regs, .port, .lines, .mem, .tiers, .eng, .net, .pmu] s (execRowOr chan bank s) := by
  unfold execRowOr
  refine KeepsOut.mono (rowOp_keeps _ _ _ _) ?_
  rfl

theorem execRowXor_keeps (chan : BitVec 10) (bank : BankNo) (s : State) :
    KeepsOut [.regs, .port, .lines, .mem, .tiers, .eng, .net, .pmu] s (execRowXor chan bank s) := by
  unfold execRowXor
  refine KeepsOut.mono (rowOp_keeps _ _ _ _) ?_
  rfl

theorem execMaj3_keeps (chan : BitVec 10) (bank : BankNo) (s : State) :
    KeepsOut [.regs, .port, .lines, .mem, .tiers, .eng, .net, .pmu] s (execMaj3 chan bank s) := by
  unfold execMaj3
  refine KeepsOut.mono (rowOp_keeps _ _ _ _) ?_
  rfl

theorem execParityRecompute_keeps (chan : BitVec 10) (bank : BankNo) (s : State) :
    KeepsOut [.lines, .mem, .eng] s (execParityRecompute chan bank s) := by
  unfold execParityRecompute
  dsimp only
  split
  with_reducible refine KeepsOut.next ?_
  exact Keeps.refl _ _
  split
  with_reducible refine KeepsOut.next ?_
  with_reducible refine Keeps.step ?_ (bankSet_keeps ..) rfl
  with_reducible refine Keeps.foldl ?_ (fun _ _ _ => ?_)
  exact Keeps.refl _ _
  with_reducible refine Keeps.step ?_ (postAt_keeps ..) rfl
  assumption
  with_reducible refine KeepsOut.next ?_
  with_reducible refine Keeps.step ?_ (opSet_keeps ..) rfl
  with_reducible refine Keeps.step ?_ (bankSet_keeps ..) rfl
  with_reducible refine Keeps.foldl ?_ (fun _ _ _ => ?_)
  exact Keeps.refl _ _
  with_reducible refine Keeps.step ?_ (postAt_keeps ..) rfl
  assumption

end Sys2Proof.Machine
end

