-- ==== Sys2Proof/Laws/KeepsOpEnd.lean ====
section
/-! SUPPORT. What each operation of Machine/OpEnd.lean may change, and that it keeps the stores canonical. -/

set_option Elab.async false

namespace Sys2Proof.Machine

open Sys2Proof

theorem rowStop_keeps (s : State) (n : Nat) (seq : Nat) :
    Keeps [.lines, .eng] s (rowStop s n seq) := by
  unfold rowStop
  with_reducible refine Keeps.foldl ?_ (fun _ _ _ => ?_)
  exact Keeps.refl _ _
  dsimp only
  split
  split
  assumption
  with_reducible refine Keeps.step ?_ (endRun_keeps ..) rfl
  assumption
  assumption

theorem stopOp_keeps (sm : State) (n : Nat) (o : OpEnt) :
    Keeps [.regs, .port, .lines, .strands, .mem, .tiers, .eng, .net, .pmu] sm (stopOp sm n o) := by
  unfold stopOp
  dsimp only
  split
  with_reducible refine Keeps.step ?_ (dropQueued_keeps ..) rfl
  exact Keeps.refl _ _
  split
  split
  with_reducible refine Keeps.step ?_ (opSet_keeps ..) rfl
  with_reducible refine Keeps.step ?_ (tilesStop_keeps ..) rfl
  with_reducible refine Keeps.step ?_ (dropQueued_keeps ..) rfl
  exact Keeps.refl _ _
  with_reducible refine Keeps.step ?_ (tilesStop_keeps ..) rfl
  with_reducible refine Keeps.step ?_ (dropQueued_keeps ..) rfl
  exact Keeps.refl _ _
  split
  with_reducible refine Keeps.step ?_ (opSet_keeps ..) rfl
  with_reducible refine Keeps.step ?_ (moveStop_keeps ..) rfl
  with_reducible refine Keeps.step ?_ (dropQueued_keeps ..) rfl
  exact Keeps.refl _ _
  split
  with_reducible refine Keeps.step ?_ (rowStop_keeps ..) rfl
  with_reducible refine Keeps.step ?_ (dropQueued_keeps ..) rfl
  exact Keeps.refl _ _
  with_reducible refine Keeps.step ?_ (dropQueued_keeps ..) rfl
  exact Keeps.refl _ _

theorem opRelease_keeps (s : State) (n : Nat) (seq : Nat) :
    Keeps [.regs, .port, .belay, .tiers, .net, .pmu] s (opRelease s n seq) := by
  unfold opRelease
  dsimp only
  with_reducible refine Keeps.step ?_ (noteStatus_keeps ..) rfl
  with_reducible refine Keeps.upd ?_
  with_reducible refine Keeps.step ?_ (snapRelease_keeps ..) rfl
  exact Keeps.refl _ _

theorem pair_fst {α β : Type} (a : α) (b : β) : (a, b).1 = a := rfl

theorem retireCensus_some (s : State) (n : Nat) (o : OpEnt) (k : Nat × Nat × Nat) (h : censusKey o = some k) :
    retireCensus s n o = ((censusWrite s (lineAcct s n) k.1 o.flags k.2.1 k.2.2 (lineStrand s n) o.census).1,
      { o with censusIndex := (censusWrite s (lineAcct s n) k.1 o.flags k.2.1 k.2.2 (lineStrand s n) o.census).2 }) := by
  rw [retireCensus, h]

theorem retireCensus_none (s : State) (n : Nat) (o : OpEnt) (h : censusKey o = none) : retireCensus s n o = (s, o) := by
  rw [retireCensus, h]

theorem retireCensus_keeps (s : State) (n : Nat) (o : OpEnt) :
    Keeps [.regs, .port, .lines, .mem, .tiers, .net, .pmu] s (retireCensus s n o).1 := by
  cases h : censusKey o with
  | none => rw [retireCensus_none s n o h]; exact Keeps.refl _ _
  | some k => rw [retireCensus_some s n o k h, pair_fst]; exact censusWrite_keeps ..

theorem endOp_keeps (s : State) (n : Nat) (o : OpEnt) :
    Keeps [.free, .regs, .port, .belay, .lines, .hitches, .mem, .tiers, .net, .pmu] s (endOp s n o) := by
  unfold endOp
  split
  with_reducible refine Keeps.step ?_ (collFail_keeps ..) rfl
  with_reducible refine Keeps.step ?_ (sendAborts_keeps ..) rfl
  exact Keeps.refl _ _
  dsimp only
  with_reducible refine Keeps.step ?_ (finishOp_keeps ..) rfl
  with_reducible refine Keeps.step ?_ (opRelease_keeps ..) rfl
  split
  with_reducible refine Keeps.step ?_ (retireCensus_keeps ..) rfl
  exact Keeps.refl _ _
  dsimp only
  exact Keeps.refl _ _

theorem execOperationFailure_keeps (line : LineNo) (seq : Seq) (s : State) :
    KeepsOut [.free, .regs, .port, .belay, .lines, .hitches, .strands, .mem, .tiers, .eng, .net, .pmu] s (execOperationFailure line seq s) := by
  unfold execOperationFailure
  dsimp only
  split
  with_reducible refine KeepsOut.next ?_
  exact Keeps.refl _ _
  split
  split
  split
  with_reducible refine KeepsOut.next ?_
  with_reducible refine Keeps.step ?_ (endOp_keeps ..) rfl
  with_reducible refine Keeps.step ?_ (stopOp_keeps ..) rfl
  exact Keeps.refl _ _
  with_reducible refine KeepsOut.next ?_
  with_reducible refine Keeps.step ?_ (stopOp_keeps ..) rfl
  exact Keeps.refl _ _
  with_reducible refine KeepsOut.next ?_
  with_reducible refine Keeps.step ?_ (stopOp_keeps ..) rfl
  exact Keeps.refl _ _
  with_reducible refine KeepsOut.next ?_
  exact Keeps.refl _ _

theorem commitGen_keeps (s : State) (o : OpEnt) (step : Nat) :
    Keeps [.tiers] s (commitGen s o step) := by
  unfold commitGen
  with_reducible refine Keeps.foldl ?_ (fun _ _ _ => ?_)
  exact Keeps.refl _ _
  dsimp only
  split
  assumption
  with_reducible refine Keeps.step ?_ (htSet_keeps ..) rfl
  assumption

theorem retireGen_keeps (s : State) (o : OpEnt) :
    Keeps [.tiers] s (retireGen s o) := by
  unfold retireGen
  split
  exact Keeps.refl _ _
  split
  with_reducible refine Keeps.step ?_ (commitGen_keeps ..) rfl
  exact Keeps.refl _ _
  split
  with_reducible refine Keeps.step ?_ (commitGen_keeps ..) rfl
  exact Keeps.refl _ _
  exact Keeps.refl _ _

theorem execOperationRetire_keeps (line : LineNo) (seq : Seq) (s : State) :
    KeepsOut [.regs, .port, .lines, .hitches, .mem, .tiers, .net, .pmu] s (execOperationRetire line seq s) := by
  unfold execOperationRetire
  dsimp only
  split
  with_reducible refine KeepsOut.next ?_
  exact Keeps.refl _ _
  split
  split
  with_reducible refine KeepsOut.next ?_
  with_reducible refine Keeps.step ?_ (collRetire_keeps ..) rfl
  exact Keeps.refl _ _
  split
  with_reducible refine KeepsOut.next ?_
  with_reducible refine Keeps.step ?_ (snapEnd_keeps ..) rfl
  exact Keeps.refl _ _
  with_reducible refine KeepsOut.next ?_
  with_reducible refine Keeps.step ?_ (finishOp_keeps ..) rfl
  with_reducible refine Keeps.step ?_ (retireCensus_keeps ..) rfl
  with_reducible refine Keeps.step ?_ (retireGen_keeps ..) rfl
  exact Keeps.refl _ _
  with_reducible refine KeepsOut.next ?_
  exact Keeps.refl _ _

theorem saveContext_keeps (s : State) (n : Nat) (o : OpEnt) :
    Keeps [.free, .mem] s (saveContext s n o) := by
  unfold saveContext
  with_reducible refine Keeps.step ?_ (storeAt_keeps ..) rfl
  with_reducible refine Keeps.step ?_ (drawn_keeps ..) rfl
  exact Keeps.refl _ _

theorem execSafePointSuspend_keeps (line : LineNo) (seq : Seq) (s : State) :
    KeepsOut [.free, .regs, .port, .lines, .mem, .tiers, .net, .pmu] s (execSafePointSuspend line seq s) := by
  unfold execSafePointSuspend
  dsimp only
  split
  with_reducible refine KeepsOut.next ?_
  exact Keeps.refl _ _
  split
  with_reducible refine KeepsOut.next ?_
  with_reducible refine Keeps.step ?_ (noteLine_keeps ..) rfl
  split
  with_reducible refine Keeps.step ?_ (sendVec_keeps ..) rfl
  with_reducible refine Keeps.step ?_ (writeRecord_keeps ..) rfl
  with_reducible refine Keeps.step ?_ (opSet_keeps ..) rfl
  with_reducible refine Keeps.step ?_ (saveContext_keeps ..) rfl
  exact Keeps.refl _ _
  with_reducible refine Keeps.step ?_ (writeRecord_keeps ..) rfl
  with_reducible refine Keeps.step ?_ (opSet_keeps ..) rfl
  with_reducible refine Keeps.step ?_ (saveContext_keeps ..) rfl
  exact Keeps.refl _ _
  with_reducible refine KeepsOut.next ?_
  exact Keeps.refl _ _

theorem endSuspended_keeps (s : State) (n : Nat) (o : OpEnt) :
    Keeps [.free, .regs, .port, .belay, .lines, .hitches, .strands, .mem, .tiers, .eng, .net, .pmu] s (endSuspended s n o) := by
  unfold endSuspended
  dsimp only
  split
  with_reducible refine Keeps.step ?_ (endOp_keeps ..) rfl
  with_reducible refine Keeps.step ?_ (stopOp_keeps ..) rfl
  exact Keeps.refl _ _
  with_reducible refine Keeps.step ?_ (stopOp_keeps ..) rfl
  exact Keeps.refl _ _

theorem execSuspend_keeps (src : CtrlSrc) (s : State) :
    KeepsOut [.free, .regs, .port, .ingress, .belay, .lines, .hitches, .strands, .mem, .tiers, .eng, .net, .pmu] s (execSuspend src s) := by
  unfold execSuspend
  exact ctrlExec_keeps _ _ _ _ _ (fun _ _ _ => (endSuspended_keeps ..).mono rfl)

theorem execResume_keeps (src : CtrlSrc) (s : State) :
    KeepsOut [.free, .regs, .port, .ingress, .belay, .lines, .hitches, .strands, .mem, .tiers, .eng, .net, .pmu] s (execResume src s) := by
  unfold execResume
  exact ctrlExec_keeps _ _ _ _ _ (fun _ _ _ => (endSuspended_keeps ..).mono rfl)

theorem execCancel_keeps (src : CtrlSrc) (s : State) :
    KeepsOut [.free, .regs, .port, .ingress, .belay, .lines, .hitches, .strands, .mem, .tiers, .eng, .net, .pmu] s (execCancel src s) := by
  unfold execCancel
  exact ctrlExec_keeps _ _ _ _ _ (fun _ _ _ => (endSuspended_keeps ..).mono rfl)

end Sys2Proof.Machine
end

