-- ==== Sys2Proof/Laws/KeepsHostPort.lean ====
section
/-! SUPPORT. What each operation of Machine/HostPort.lean may change, and that it keeps the stores canonical. -/

set_option Elab.async false

namespace Sys2Proof.Machine

open Sys2Proof

theorem portOut_keeps (s : State) (m : HostMsg) :
    Keeps [.port] s (portOut s m) := by
  unfold portOut
  with_reducible refine Keeps.upd ?_
  exact Keeps.refl _ _

theorem hostNote_keeps (s : State) (a : Nat) (n : Nat) (write : Bool) :
    Keeps [.eng] s (hostNote s a n write) := by
  unfold hostNote
  split
  with_reducible refine Keeps.step ?_ (noteHeld_keeps ..) rfl
  exact Keeps.refl _ _
  exact Keeps.refl _ _

theorem readAhead_keeps (s : State) (a : Nat) (n : Nat) :
    Keeps [.mem] s (readAhead s a n) := by
  unfold readAhead
  dsimp only
  with_reducible refine Keeps.updMem ?_
  exact Keeps.refl _ _

theorem hostBadNames_keeps (s : State) (a : Nat) (n : Nat) (write : Bool) :
    Keeps [.tiers] s (hostBadNames s a n write) := by
  unfold hostBadNames
  with_reducible refine Keeps.foldl ?_ (fun _ _ _ => ?_)
  exact Keeps.refl _ _
  with_reducible refine Keeps.step ?_ (badAccess_keeps ..) rfl
  assumption

theorem hostBar4ReadNow_keeps (off : BitVec 41) (len : Nat) (found : List Found) (s : State) :
    KeepsOut [.free, .regs, .port, .ingress, .lines, .mem, .tiers, .eng, .stackSt, .net, .pmu] s (hostBar4ReadNow off len found s) := by
  unfold hostBar4ReadNow
  dsimp only
  split
  with_reducible refine KeepsOut.next ?_
  exact Keeps.refl _ _
  split
  with_reducible refine KeepsOut.next ?_
  with_reducible refine Keeps.step ?_ (portOut_keeps ..) rfl
  exact Keeps.refl _ _
  split
  with_reducible refine KeepsOut.next ?_
  with_reducible refine Keeps.step ?_ (portOut_keeps ..) rfl
  with_reducible refine Keeps.upd ?_
  exact Keeps.refl _ _
  split
  with_reducible refine KeepsOut.next ?_
  with_reducible refine Keeps.step ?_ (portOut_keeps ..) rfl
  exact Keeps.refl _ _
  split
  with_reducible refine KeepsOut.next ?_
  with_reducible refine Keeps.step ?_ (holdReq_keeps ..) rfl
  with_reducible refine Keeps.step ?_ (hostNote_keeps ..) rfl
  exact Keeps.refl _ _
  with_reducible refine KeepsOut.next ?_
  with_reducible refine Keeps.step ?_ (pmuAdd_keeps ..) rfl
  with_reducible refine Keeps.upd ?_
  with_reducible refine Keeps.foldl ?_ (fun _ _ _ => ?_)
  with_reducible refine Keeps.step ?_ (drawn_keeps ..) rfl
  with_reducible refine Keeps.step ?_ (readAhead_keeps ..) rfl
  with_reducible refine Keeps.step ?_ (hostBadNames_keeps ..) rfl
  with_reducible refine Keeps.step ?_ (foundMem_keeps ..) rfl
  exact Keeps.refl _ _
  with_reducible refine Keeps.step ?_ (portOut_keeps ..) rfl
  assumption

theorem execHostBar4Read_keeps (off : BitVec 41) (len : Met Nat) (s : State) :
    KeepsOut [.free, .regs, .port, .ingress, .lines, .mem, .tiers, .eng, .stackSt, .net, .pmu] s (execHostBar4Read off len s) := by
  unfold execHostBar4Read
  with_reducible refine hostAccess_keeps _ _ _ _ _ _ rfl (fun _ => ?_)
  refine KeepsOut.mono (hostBar4ReadNow_keeps _ _ _ _) ?_
  rfl

theorem hostPiece_keeps (s : State) (p : Nat × List Byte) :
    Keeps [.regs, .port, .lines, .mem, .tiers, .net, .pmu] s (hostPiece s p) := by
  unfold hostPiece
  split
  exact Keeps.refl _ _
  with_reducible refine Keeps.step ?_ (writePiece_keeps ..) rfl
  dsimp only
  exact Keeps.refl _ _

theorem hostBar4WriteNow_keeps (off : BitVec 41) (data : List Byte) (s : State) :
    KeepsOut [.free, .regs, .port, .ingress, .lines, .mem, .tiers, .eng, .net, .pmu] s (hostBar4WriteNow off data s) := by
  unfold hostBar4WriteNow
  dsimp only
  split
  with_reducible refine KeepsOut.next ?_
  exact Keeps.refl _ _
  split
  with_reducible refine KeepsOut.next ?_
  with_reducible refine Keeps.step ?_ (portOut_keeps ..) rfl
  exact Keeps.refl _ _
  split
  with_reducible refine KeepsOut.next ?_
  with_reducible refine Keeps.step ?_ (portOut_keeps ..) rfl
  with_reducible refine Keeps.upd ?_
  exact Keeps.refl _ _
  split
  with_reducible refine KeepsOut.next ?_
  with_reducible refine Keeps.step ?_ (portOut_keeps ..) rfl
  exact Keeps.refl _ _
  split
  with_reducible refine KeepsOut.next ?_
  with_reducible refine Keeps.step ?_ (holdReq_keeps ..) rfl
  with_reducible refine Keeps.step ?_ (hostNote_keeps ..) rfl
  exact Keeps.refl _ _
  with_reducible refine KeepsOut.next ?_
  with_reducible refine Keeps.step ?_ (pmuAdd_keeps ..) rfl
  with_reducible refine Keeps.step ?_ (drawn_keeps ..) rfl
  with_reducible refine Keeps.foldl ?_ (fun _ _ _ => ?_)
  with_reducible refine Keeps.step ?_ (hostBadNames_keeps ..) rfl
  exact Keeps.refl _ _
  with_reducible refine Keeps.step ?_ (hostPiece_keeps ..) rfl
  assumption

theorem execHostBar4Write_keeps (off : BitVec 41) (data : List Byte) (s : State) :
    KeepsOut [.free, .regs, .port, .ingress, .lines, .mem, .tiers, .eng, .net, .pmu] s (execHostBar4Write off data s) := by
  unfold execHostBar4Write
  with_reducible refine hostAccess_keeps _ _ _ _ _ _ rfl (fun _ => ?_)
  refine KeepsOut.mono (hostBar4WriteNow_keeps _ _ _) ?_
  rfl

theorem execCxlDecoderCommit_keeps (commit : Bool) (s : State) :
    KeepsOut [.port] s (execCxlDecoderCommit commit s) := by
  unfold execCxlDecoderCommit
  split
  with_reducible refine KeepsOut.next ?_
  with_reducible refine Keeps.upd ?_
  exact Keeps.refl _ _
  with_reducible refine KeepsOut.next ?_
  exact Keeps.refl _ _

theorem cxlMemReadNow_keeps (dpa : BitVec 40) (found : List Found) (s : State) :
    KeepsOut [.free, .regs, .port, .ingress, .lines, .mem, .tiers, .eng, .stackSt, .net, .pmu] s (cxlMemReadNow dpa found s) := by
  unfold cxlMemReadNow
  split
  with_reducible refine KeepsOut.next ?_
  exact Keeps.refl _ _
  split
  with_reducible refine KeepsOut.next ?_
  exact Keeps.refl _ _
  split
  with_reducible refine KeepsOut.next ?_
  with_reducible refine Keeps.step ?_ (holdReq_keeps ..) rfl
  with_reducible refine Keeps.step ?_ (hostNote_keeps ..) rfl
  exact Keeps.refl _ _
  dsimp only
  with_reducible refine KeepsOut.next ?_
  with_reducible refine Keeps.step ?_ (pmuAdd_keeps ..) rfl
  split
  with_reducible refine Keeps.upd ?_
  with_reducible refine Keeps.step ?_ (portOut_keeps ..) rfl
  with_reducible refine Keeps.step ?_ (drawn_keeps ..) rfl
  with_reducible refine Keeps.step ?_ (readAhead_keeps ..) rfl
  with_reducible refine Keeps.step ?_ (foundMem_keeps ..) rfl
  exact Keeps.refl _ _
  with_reducible refine Keeps.step ?_ (portOut_keeps ..) rfl
  with_reducible refine Keeps.step ?_ (drawn_keeps ..) rfl
  with_reducible refine Keeps.step ?_ (readAhead_keeps ..) rfl
  with_reducible refine Keeps.step ?_ (foundMem_keeps ..) rfl
  exact Keeps.refl _ _

theorem execCxlMemRead_keeps (dpa : Met (BitVec 40)) (s : State) :
    KeepsOut [.free, .regs, .port, .ingress, .lines, .mem, .tiers, .eng, .stackSt, .net, .pmu] s (execCxlMemRead dpa s) := by
  unfold execCxlMemRead
  with_reducible refine hostAccess_keeps _ _ _ _ _ _ rfl (fun _ => ?_)
  refine KeepsOut.mono (cxlMemReadNow_keeps _ _ _) ?_
  rfl

theorem cxlMemWriteNow_keeps (dpa : BitVec 40) (data : List Byte) (mask : BitVec 64) (s : State) :
    KeepsOut [.free, .regs, .port, .ingress, .lines, .mem, .tiers, .eng, .net, .pmu] s (cxlMemWriteNow dpa data mask s) := by
  unfold cxlMemWriteNow
  split
  with_reducible refine KeepsOut.next ?_
  exact Keeps.refl _ _
  split
  with_reducible refine KeepsOut.next ?_
  exact Keeps.refl _ _
  split
  with_reducible refine KeepsOut.next ?_
  with_reducible refine Keeps.step ?_ (holdReq_keeps ..) rfl
  with_reducible refine Keeps.step ?_ (hostNote_keeps ..) rfl
  exact Keeps.refl _ _
  with_reducible refine KeepsOut.next ?_
  with_reducible refine Keeps.step ?_ (pmuAdd_keeps ..) rfl
  with_reducible refine Keeps.step ?_ (drawn_keeps ..) rfl
  with_reducible refine Keeps.foldl ?_ (fun _ _ _ => ?_)
  exact Keeps.refl _ _
  with_reducible refine Keeps.step ?_ (hostPiece_keeps ..) rfl
  assumption

theorem execCxlMemWrite_keeps (dpa : BitVec 40) (data : List Byte) (mask : BitVec 64) (s : State) :
    KeepsOut [.free, .regs, .port, .ingress, .lines, .mem, .tiers, .eng, .net, .pmu] s (execCxlMemWrite dpa data mask s) := by
  unfold execCxlMemWrite
  with_reducible refine hostAccess_keeps _ _ _ _ _ _ rfl (fun _ => ?_)
  refine KeepsOut.mono (cxlMemWriteNow_keeps _ _ _ _) ?_
  rfl

theorem flushMsix_keeps (s : State) (vs : List Nat) :
    Keeps [.port, .pmu] s (flushMsix s vs) := by
  unfold flushMsix
  with_reducible refine Keeps.foldl ?_ (fun _ _ _ => ?_)
  exact Keeps.refl _ _
  split
  with_reducible refine Keeps.step ?_ (sendVec_keeps ..) rfl
  with_reducible refine Keeps.upd ?_
  assumption
  assumption

theorem msixUnmaskNow_keeps (vector : BitVec 11) (s : State) :
    KeepsOut [.port, .pmu] s (msixUnmaskNow vector s) := by
  unfold msixUnmaskNow
  dsimp only
  split
  with_reducible refine KeepsOut.next ?_
  with_reducible refine Keeps.step ?_ (flushMsix_keeps ..) rfl
  with_reducible refine Keeps.upd ?_
  exact Keeps.refl _ _
  with_reducible refine KeepsOut.next ?_
  exact Keeps.refl _ _

theorem execMsixUnmask_keeps (vector : BitVec 11) (s : State) :
    KeepsOut [.port, .ingress, .pmu] s (execMsixUnmask vector s) := by
  unfold execMsixUnmask
  with_reducible refine hostLane_keeps _ _ _ rfl (fun _ => ?_)
  refine KeepsOut.mono (msixUnmaskNow_keeps _ _) ?_
  rfl

theorem flrCancel_keeps (s : State) :
    Keeps [.free, .regs, .port, .lines, .hitches, .mem, .tiers, .net, .pmu] s (flrCancel s) := by
  unfold flrCancel
  with_reducible refine Keeps.foldl ?_ (fun _ _ _ => ?_)
  exact Keeps.refl _ _
  split
  split
  with_reducible refine Keeps.step ?_ (collFail_keeps ..) rfl
  with_reducible refine Keeps.step ?_ (sendAborts_keeps ..) rfl
  assumption
  with_reducible refine Keeps.step ?_ (opSet_keeps ..) rfl
  assumption
  assumption

theorem flrBegin_keeps (s : State) :
    Keeps [.free, .regs, .port, .link, .belay, .lines, .hitches, .mem, .tiers, .net, .pmu] s (flrBegin s) := by
  unfold flrBegin
  dsimp only
  with_reducible refine Keeps.step ?_ (noteAll_keeps ..) rfl
  with_reducible refine Keeps.step ?_ (noteStatus_keeps ..) rfl
  with_reducible refine Keeps.upd ?_
  with_reducible refine Keeps.step ?_ (flrCancel_keeps ..) rfl
  with_reducible refine Keeps.upd ?_
  exact Keeps.refl _ _

theorem execFlr_keeps (s : State) :
    KeepsOut [.free, .regs, .port, .link, .belay, .lines, .hitches, .mem, .tiers, .net, .pmu] s (execFlr s) := by
  unfold execFlr
  split
  with_reducible refine KeepsOut.next ?_
  with_reducible refine Keeps.step ?_ (flrBegin_keeps ..) rfl
  exact Keeps.refl _ _
  with_reducible refine KeepsOut.next ?_
  exact Keeps.refl _ _

theorem execHotReset_keeps (s : State) :
    KeepsOut [.free, .regs, .port, .link, .belay, .lines, .hitches, .mem, .tiers, .net, .pmu] s (execHotReset s) := by
  unfold execHotReset
  split
  dsimp only
  with_reducible refine KeepsOut.next ?_
  with_reducible refine Keeps.upd ?_
  with_reducible refine Keeps.step ?_ (flrBegin_keeps ..) rfl
  exact Keeps.refl _ _
  with_reducible refine KeepsOut.next ?_
  exact Keeps.refl _ _

theorem flrStops_keeps (s : State) :
    Keeps [.regs, .port, .lines, .strands, .mem, .tiers, .eng, .net, .pmu] s (flrStops s) := by
  unfold flrStops
  with_reducible refine Keeps.foldl ?_ (fun _ _ _ => ?_)
  exact Keeps.refl _ _
  split
  with_reducible refine Keeps.step ?_ (stopOp_keeps ..) rfl
  assumption
  assumption

theorem flrRegs_keeps (s : State) :
    Keeps [.regs, .port, .link, .tiers, .eng, .wfc] s (flrRegs s) := by
  unfold flrRegs
  with_reducible refine Keeps.upd ?_
  exact Keeps.refl _ _

theorem execFlrComplete_keeps (s : State) :
    KeepsOut [.regs, .port, .link, .belay, .cfg, .lines, .hitches, .strands, .mem, .tiers, .eng, .net, .wfc, .pmu] s (execFlrComplete s) := by
  unfold execFlrComplete
  split
  with_reducible refine KeepsOut.next ?_
  exact Keeps.refl _ _
  dsimp only
  split
  with_reducible refine KeepsOut.next ?_
  with_reducible refine Keeps.step ?_ (flrStops_keeps ..) rfl
  exact Keeps.refl _ _
  with_reducible refine KeepsOut.next ?_
  with_reducible refine Keeps.step ?_ (noteAll_keeps ..) rfl
  with_reducible refine Keeps.step ?_ (flrRegs_keeps ..) rfl
  with_reducible refine Keeps.updMem ?_
  with_reducible refine Keeps.step ?_ (drainPosted_keeps ..) rfl
  with_reducible refine Keeps.foldl ?_ (fun _ _ _ => ?_)
  with_reducible refine Keeps.step ?_ (flrStops_keeps ..) rfl
  exact Keeps.refl _ _
  with_reducible refine Keeps.step ?_ (opRelease_keeps ..) rfl
  with_reducible refine Keeps.step ?_ (opDrop_keeps ..) rfl
  assumption

theorem moveAgain_keeps (s : State) (m : Move) :
    Keeps [.lines] s (moveAgain s m) := by
  unfold moveAgain
  split
  split
  with_reducible refine Keeps.step ?_ (opSet_keeps ..) rfl
  exact Keeps.refl _ _
  exact Keeps.refl _ _
  exact Keeps.refl _ _

theorem dropMove_keeps (s : State) (m : Move) :
    Keeps [.lines, .hitches, .mem, .tiers] s (dropMove s m) := by
  unfold dropMove
  dsimp only
  split
  with_reducible refine Keeps.step ?_ (chargeSub_keeps ..) rfl
  with_reducible refine Keeps.upd ?_
  exact Keeps.refl _ _
  split
  with_reducible refine Keeps.step ?_ (freeDone_keeps ..) rfl
  with_reducible refine Keeps.step ?_ (unbind_keeps ..) rfl
  split
  with_reducible refine Keeps.step ?_ (returnFrame_keeps ..) rfl
  with_reducible refine Keeps.step ?_ (chargeSub_keeps ..) rfl
  with_reducible refine Keeps.upd ?_
  exact Keeps.refl _ _
  with_reducible refine Keeps.step ?_ (sigsAfter_keeps ..) rfl
  with_reducible refine Keeps.step ?_ (applyHeld_keeps ..) rfl
  with_reducible refine Keeps.step ?_ (htSet_keeps ..) rfl
  with_reducible refine Keeps.step ?_ (returnFrame_keeps ..) rfl
  with_reducible refine Keeps.step ?_ (chargeSub_keeps ..) rfl
  with_reducible refine Keeps.upd ?_
  exact Keeps.refl _ _
  with_reducible refine Keeps.step ?_ (moveAgain_keeps ..) rfl
  split
  with_reducible refine Keeps.step ?_ (returnFrame_keeps ..) rfl
  with_reducible refine Keeps.step ?_ (chargeSub_keeps ..) rfl
  with_reducible refine Keeps.upd ?_
  exact Keeps.refl _ _
  with_reducible refine Keeps.step ?_ (sigsAfter_keeps ..) rfl
  with_reducible refine Keeps.step ?_ (applyHeld_keeps ..) rfl
  with_reducible refine Keeps.step ?_ (htSet_keeps ..) rfl
  with_reducible refine Keeps.step ?_ (returnFrame_keeps ..) rfl
  with_reducible refine Keeps.step ?_ (chargeSub_keeps ..) rfl
  with_reducible refine Keeps.upd ?_
  exact Keeps.refl _ _

theorem chafeHostBlock_keeps (s : State) (name : Nat) :
    Keeps [.mem, .tiers] s (chafeHostBlock s name) := by
  unfold chafeHostBlock
  dsimp only
  with_reducible refine Keeps.step ?_ (syncChafe_keeps ..) rfl
  with_reducible refine Keeps.updMem ?_
  exact Keeps.refl _ _

theorem failFlushes_keeps (s : State) :
    Keeps [.regs, .port, .lines, .hitches, .mem, .tiers, .net, .pmu] s (failFlushes s) := by
  unfold failFlushes
  with_reducible refine Keeps.foldl ?_ (fun _ _ _ => ?_)
  exact Keeps.refl _ _
  split
  split
  with_reducible refine Keeps.step ?_ (flushFailed_keeps ..) rfl
  assumption
  assumption
  assumption

theorem portDown_keeps (s : State) :
    Keeps [.regs, .port, .link, .ingress, .lines, .hitches, .strands, .mem, .tiers, .net, .pmu] s (portDown s) := by
  unfold portDown
  split
  exact Keeps.refl _ _
  dsimp only
  with_reducible refine Keeps.step ?_ (collPumpAll_keeps ..) rfl
  with_reducible refine Keeps.step ?_ (advanceBight_keeps ..) rfl
  with_reducible refine Keeps.step ?_ (advanceRuns_keeps ..) rfl
  with_reducible refine Keeps.step ?_ (noteAll_keeps ..) rfl
  with_reducible refine Keeps.step ?_ (failFlushes_keeps ..) rfl
  with_reducible refine Keeps.upd ?_
  with_reducible refine Keeps.foldl ?_ (fun _ _ _ => ?_)
  with_reducible refine Keeps.foldl ?_ (fun _ _ _ => ?_)
  with_reducible refine Keeps.upd ?_
  exact Keeps.refl _ _
  with_reducible refine Keeps.step ?_ (dropMove_keeps ..) rfl
  assumption
  with_reducible refine Keeps.step ?_ (chafeHostBlock_keeps ..) rfl
  assumption

theorem execPortLinkDown_keeps (s : State) :
    KeepsOut [.regs, .port, .link, .ingress, .lines, .hitches, .strands, .mem, .tiers, .net, .pmu] s (execPortLinkDown s) := by
  unfold execPortLinkDown
  with_reducible refine KeepsOut.next ?_
  with_reducible refine Keeps.step ?_ (portDown_keeps ..) rfl
  exact Keeps.refl _ _

theorem execPortLinkUp_keeps (s : State) :
    KeepsOut [.free, .port, .link, .pmu] s (execPortLinkUp s) := by
  unfold execPortLinkUp
  split
  dsimp only
  with_reducible refine KeepsOut.next ?_
  with_reducible refine Keeps.step ?_ (flushMsix_keeps ..) rfl
  with_reducible refine Keeps.upd ?_
  with_reducible refine Keeps.step ?_ (drawn_keeps ..) rfl
  exact Keeps.refl _ _
  with_reducible refine KeepsOut.next ?_
  exact Keeps.refl _ _

theorem execHostReadFail_keeps (addr : DevAddr) (len : Nat) (_why : ReadFail) (s : State) :
    KeepsOut [.regs, .port, .lines, .mem, .tiers, .net, .pmu] s (execHostReadFail addr len _why s) := by
  unfold execHostReadFail
  dsimp only
  split
  with_reducible refine KeepsOut.next ?_
  exact Keeps.refl _ _
  split
  with_reducible refine KeepsOut.next ?_
  with_reducible refine Keeps.step ?_ (wroteMarked_keeps ..) rfl
  with_reducible refine Keeps.step ?_ (syncChafe_keeps ..) rfl
  with_reducible refine Keeps.updMem ?_
  with_reducible refine Keeps.step ?_ (raiseCause_keeps ..) rfl
  with_reducible refine Keeps.upd ?_
  exact Keeps.refl _ _
  with_reducible refine KeepsOut.next ?_
  with_reducible refine Keeps.updMem ?_
  with_reducible refine Keeps.step ?_ (raiseCause_keeps ..) rfl
  with_reducible refine Keeps.upd ?_
  exact Keeps.refl _ _

end Sys2Proof.Machine
end

