-- ==== Sys2Proof/Laws/KeepsPower.lean ====
section
/-! SUPPORT. What each operation of Machine/Power.lean may change, and that it keeps the stores canonical. -/

set_option Elab.async false

namespace Sys2Proof.Machine

open Sys2Proof

theorem slipLink_keeps (s : State) (k : Nat) (reason : Nat) :
    Keeps [.regs, .port, .net, .pmu] s (slipLink s k reason) := by
  unfold slipLink
  dsimp only
  with_reducible refine Keeps.step ?_ (sendOn_keeps ..) rfl
  with_reducible refine Keeps.step ?_ (sendOn_keeps ..) rfl
  with_reducible refine Keeps.step ?_ (sendOn_keeps ..) rfl
  exact Keeps.refl _ _

theorem slipAll_keeps (s : State) (reason : Nat) :
    Keeps [.regs, .port, .net, .pmu] s (slipAll s reason) := by
  unfold slipAll
  with_reducible refine Keeps.foldl ?_ (fun _ _ _ => ?_)
  exact Keeps.refl _ _
  with_reducible refine Keeps.step ?_ (slipLink_keeps ..) rfl
  assumption

theorem Mem.reset_wf : Mem.reset.wf = true := by decide

theorem cleared_keeps (s : State) : Keeps [.boot, .flash, .tb, .regs, .port, .link, .ingress, .belay, .cfg, .lines, .hitches, .lineArb, .braidArb, .vecArb, .splArb, .strands, .mem, .tiers, .eng, .refresh, .stackSt, .gov, .net, .wfc, .pmu] s (cleared s) := by
  refine Keeps.updAny _ (Keeps.refl _ s) (fun p hp => ?_) (fun w => ?_)
  · cases p <;> first | rfl | exact absurd (by decide) hp
  · rw [State.wf_iff] at w ⊢
    refine ⟨?_, w.2⟩
    have h := (Mem.wf_iff _).1 w.1
    have h0 := (Mem.wf_iff _).1 Mem.reset_wf
    exact (Mem.wf_iff _).2 ⟨h0.1, h.2.1, h0.2.2⟩

theorem warmed_keeps (s : State) : Keeps [.boot, .flash, .tb, .regs, .port, .link, .ingress, .belay, .cfg, .lines, .hitches, .lineArb, .braidArb, .vecArb, .splArb, .strands, .mem, .tiers, .eng, .refresh, .stackSt, .gov, .net, .wfc, .pmu] s (warmed s) := by
  refine Keeps.updAny _ (cleared_keeps s) (fun p hp => ?_) (fun w => ?_)
  · cases p <;> first | rfl | exact absurd (by decide) hp
  · exact w

theorem railsDown_keeps (s : State) (reason : Nat) :
    Keeps [.pins, .power, .boot, .flash, .tb, .regs, .port, .link, .ingress, .belay, .cfg, .lines, .hitches, .lineArb, .braidArb, .vecArb, .splArb, .strands, .mem, .tiers, .eng, .refresh, .stackSt, .gov, .net, .wfc, .pmu] s (railsDown s reason) := by
  unfold railsDown
  split
  exact Keeps.refl _ _
  dsimp only
  with_reducible refine Keeps.upd ?_
  with_reducible refine Keeps.step ?_ (cleared_keeps ..) rfl
  with_reducible refine Keeps.step ?_ (slipAll_keeps ..) rfl
  exact Keeps.refl _ _

theorem railsUp_keeps (s : State) :
    Keeps [.pins, .power, .stackSt] s (railsUp s) := by
  unfold railsUp
  split
  exact Keeps.refl _ _
  with_reducible refine Keeps.upd ?_
  exact Keeps.refl _ _

theorem execPowerUp_keeps (s : State) :
    KeepsOut [.pins, .power, .stackSt] s (execPowerUp s) := by
  unfold execPowerUp
  split
  with_reducible refine KeepsOut.next ?_
  with_reducible refine Keeps.step ?_ (railsUp_keeps ..) rfl
  with_reducible refine Keeps.upd ?_
  exact Keeps.refl _ _
  with_reducible refine KeepsOut.next ?_
  exact Keeps.refl _ _

theorem execShutdown_keeps (s : State) :
    KeepsOut [.pins, .power, .boot, .flash, .tb, .regs, .port, .link, .ingress, .belay, .cfg, .lines, .hitches, .lineArb, .braidArb, .vecArb, .splArb, .strands, .mem, .tiers, .eng, .refresh, .stackSt, .gov, .net, .wfc, .pmu] s (execShutdown s) := by
  unfold execShutdown
  split
  dsimp only
  with_reducible refine KeepsOut.next ?_
  with_reducible refine Keeps.upd ?_
  with_reducible refine Keeps.step ?_ (railsDown_keeps ..) rfl
  exact Keeps.refl _ _
  with_reducible refine KeepsOut.next ?_
  exact Keeps.refl _ _

theorem standbyLost_keeps (s : State) :
    Keeps [.pins, .power, .boot, .flash, .tb, .regs, .port, .link, .ingress, .belay, .cfg, .lines, .hitches, .lineArb, .braidArb, .vecArb, .splArb, .strands, .mem, .tiers, .eng, .refresh, .stackSt, .gov, .net, .wfc, .pmu] s (standbyLost s) := by
  unfold standbyLost
  dsimp only
  with_reducible refine Keeps.upd ?_
  with_reducible refine Keeps.step ?_ (railsDown_keeps ..) rfl
  exact Keeps.refl _ _

theorem execStandbyPowerLoss_keeps (mv : Nat) (s : State) :
    KeepsOut [.pins, .power, .boot, .flash, .tb, .regs, .port, .link, .ingress, .belay, .cfg, .lines, .hitches, .lineArb, .braidArb, .vecArb, .splArb, .strands, .mem, .tiers, .eng, .refresh, .stackSt, .gov, .net, .wfc, .pmu] s (execStandbyPowerLoss mv s) := by
  unfold execStandbyPowerLoss
  split
  dsimp only
  with_reducible refine KeepsOut.next ?_
  with_reducible refine Keeps.upd ?_
  with_reducible refine Keeps.step ?_ (standbyLost_keeps ..) rfl
  exact Keeps.refl _ _
  with_reducible refine KeepsOut.next ?_
  exact Keeps.refl _ _

theorem execStandbyPowerUp_keeps (mv : Nat) (s : State) :
    KeepsOut [.pins, .power] s (execStandbyPowerUp mv s) := by
  unfold execStandbyPowerUp
  split
  with_reducible refine KeepsOut.next ?_
  with_reducible refine Keeps.upd ?_
  exact Keeps.refl _ _
  with_reducible refine KeepsOut.next ?_
  exact Keeps.refl _ _

theorem execInputFault_keeps (mv : Nat) (s : State) :
    KeepsOut [.pins, .power, .boot, .flash, .tb, .regs, .port, .link, .ingress, .belay, .cfg, .lines, .hitches, .lineArb, .braidArb, .vecArb, .splArb, .strands, .mem, .tiers, .eng, .refresh, .stackSt, .gov, .net, .wfc, .pmu] s (execInputFault mv s) := by
  unfold execInputFault
  split
  dsimp only
  with_reducible refine KeepsOut.next ?_
  split
  with_reducible refine Keeps.step ?_ (standbyLost_keeps ..) rfl
  with_reducible refine Keeps.upd ?_
  with_reducible refine Keeps.step ?_ (railsDown_keeps ..) rfl
  exact Keeps.refl _ _
  with_reducible refine Keeps.upd ?_
  with_reducible refine Keeps.step ?_ (railsDown_keeps ..) rfl
  exact Keeps.refl _ _
  with_reducible refine KeepsOut.next ?_
  exact Keeps.refl _ _

theorem execInputRecovery_keeps (mv : Nat) (s : State) :
    KeepsOut [.pins, .power, .stackSt] s (execInputRecovery mv s) := by
  unfold execInputRecovery
  split
  with_reducible refine KeepsOut.next ?_
  with_reducible refine Keeps.step ?_ (railsUp_keeps ..) rfl
  with_reducible refine Keeps.upd ?_
  exact Keeps.refl _ _
  with_reducible refine KeepsOut.next ?_
  exact Keeps.refl _ _

theorem execPerstNAssert_keeps (s : State) :
    KeepsOut [.pins, .power] s (execPerstNAssert s) := by
  unfold execPerstNAssert
  split
  with_reducible refine KeepsOut.next ?_
  with_reducible refine Keeps.upd ?_
  exact Keeps.refl _ _
  with_reducible refine KeepsOut.next ?_
  exact Keeps.refl _ _

theorem execWarmReset_keeps (s : State) :
    KeepsOut [.power, .boot, .flash, .tb, .regs, .port, .link, .ingress, .belay, .cfg, .lines, .hitches, .lineArb, .braidArb, .vecArb, .splArb, .strands, .mem, .tiers, .eng, .refresh, .stackSt, .gov, .net, .wfc, .pmu] s (execWarmReset s) := by
  unfold execWarmReset
  split
  dsimp only
  with_reducible refine KeepsOut.next ?_
  with_reducible refine Keeps.upd ?_
  with_reducible refine Keeps.step ?_ (warmed_keeps ..) rfl
  with_reducible refine Keeps.step ?_ (slipAll_keeps ..) rfl
  exact Keeps.refl _ _
  with_reducible refine KeepsOut.next ?_
  exact Keeps.refl _ _

theorem trip_keeps (s : State) (source : TripSource) :
    Keeps [.pins, .power, .boot, .flash, .tb, .regs, .port, .link, .ingress, .belay, .cfg, .lines, .hitches, .lineArb, .braidArb, .vecArb, .splArb, .strands, .mem, .tiers, .eng, .refresh, .stackSt, .gov, .net, .wfc, .pmu] s (trip s source) := by
  unfold trip
  split
  exact Keeps.refl _ _
  dsimp only
  with_reducible refine Keeps.upd ?_
  with_reducible refine Keeps.step ?_ (railsDown_keeps ..) rfl
  exact Keeps.refl _ _

theorem execThermalTrip_keeps (source : TripSource) (s : State) :
    KeepsOut [.pins, .power, .boot, .flash, .tb, .regs, .port, .link, .ingress, .belay, .cfg, .lines, .hitches, .lineArb, .braidArb, .vecArb, .splArb, .strands, .mem, .tiers, .eng, .refresh, .stackSt, .gov, .net, .wfc, .pmu] s (execThermalTrip source s) := by
  unfold execThermalTrip
  with_reducible refine KeepsOut.next ?_
  with_reducible refine Keeps.step ?_ (trip_keeps ..) rfl
  exact Keeps.refl _ _

theorem execTripRelease_keeps (cool : Bool) (s : State) :
    KeepsOut [.pins, .power] s (execTripRelease cool s) := by
  unfold execTripRelease
  split
  with_reducible refine KeepsOut.next ?_
  with_reducible refine Keeps.upd ?_
  exact Keeps.refl _ _
  with_reducible refine KeepsOut.next ?_
  exact Keeps.refl _ _

theorem execPldmEventRead_keeps (s : State) :
    KeepsOut [.pins, .power] s (execPldmEventRead s) := by
  unfold execPldmEventRead
  split
  with_reducible refine KeepsOut.next ?_
  exact Keeps.refl _ _
  with_reducible refine KeepsOut.next ?_
  with_reducible refine Keeps.upd ?_
  exact Keeps.refl _ _

theorem execMctpMessage_keeps (body : List Byte) (s : State) :
    KeepsOut [.power] s (execMctpMessage body s) := by
  unfold execMctpMessage
  split
  with_reducible refine KeepsOut.next ?_
  with_reducible refine Keeps.upd ?_
  exact Keeps.refl _ _
  with_reducible refine KeepsOut.next ?_
  exact Keeps.refl _ _

theorem lanesDark_keeps (s : State) :
    Keeps [.net] s (lanesDark s) := by
  unfold lanesDark
  with_reducible refine Keeps.foldl ?_ (fun _ _ _ => ?_)
  exact Keeps.refl _ _
  dsimp only
  split
  with_reducible refine Keeps.step ?_ (linkSet_keeps ..) rfl
  assumption
  assumption

theorem execRefclkFail_keeps (s : State) :
    KeepsOut [.free, .pins, .tb, .regs, .port, .link, .ingress, .lines, .hitches, .strands, .mem, .tiers, .net, .pmu] s (execRefclkFail s) := by
  unfold execRefclkFail
  split
  with_reducible refine KeepsOut.next ?_
  exact Keeps.refl _ _
  dsimp only
  with_reducible refine KeepsOut.next ?_
  with_reducible refine Keeps.step ?_ (portDown_keeps ..) rfl
  with_reducible refine Keeps.foldl ?_ (fun _ _ _ => ?_)
  with_reducible refine Keeps.step ?_ (lanesDark_keeps ..) rfl
  with_reducible refine Keeps.step ?_ (raiseCause_keeps ..) rfl
  with_reducible refine Keeps.upd ?_
  exact Keeps.refl _ _
  with_reducible refine Keeps.step ?_ (linkLost_keeps ..) rfl
  assumption

end Sys2Proof.Machine
end

