-- ==== Sys2Proof/Laws/KeepsApply.lean ====
section
/-! SUPPORT. What each operation of Machine/Apply.lean may change, and that it keeps the stores canonical. -/

set_option Elab.async false

namespace Sys2Proof.Machine

open Sys2Proof

theorem takeFrames_keeps (s : State) (t : Tier) (n : Nat) :
    Keeps [.tiers] s (takeFrames s t n) := by
  unfold takeFrames
  dsimp only
  with_reducible refine Keeps.step ?_ (poolSet_keeps ..) rfl
  exact Keeps.refl _ _

theorem giveFrames_keeps (s : State) (t : Tier) (n : Nat) :
    Keeps [.tiers] s (giveFrames s t n) := by
  unfold giveFrames
  dsimp only
  with_reducible refine Keeps.step ?_ (poolSet_keeps ..) rfl
  exact Keeps.refl _ _

theorem trimReserve_keeps (s : State) (t : Tier) :
    Keeps [.tiers] s (trimReserve s t) := by
  unfold trimReserve
  dsimp only
  with_reducible refine Keeps.step ?_ (poolSet_keeps ..) rfl
  exact Keeps.refl _ _

theorem zeroSlabs_keeps (s : State) (slabs : List Nat) :
    Keeps [.mem] s (zeroSlabs s slabs) := by
  unfold zeroSlabs
  dsimp only
  with_reducible refine Keeps.updMem ?_
  exact Keeps.refl _ _

theorem forgetSlabs_keeps (s : State) (slabs : List Nat) :
    Keeps [.tiers] s (forgetSlabs s slabs) := by
  unfold forgetSlabs
  with_reducible refine Keeps.upd ?_
  exact Keeps.refl _ _

theorem unbindSlabs_keeps (s : State) (m : SMap W32) :
    Keeps [.tiers] s (unbindSlabs s m) := by
  unfold unbindSlabs
  dsimp only
  with_reducible refine Keeps.foldl ?_ (fun _ _ _ => ?_)
  with_reducible refine Keeps.step ?_ (forgetSlabs_keeps ..) rfl
  exact Keeps.refl _ _
  with_reducible refine Keeps.step ?_ (giveFrames_keeps ..) rfl
  with_reducible refine Keeps.step ?_ (chargeSub_keeps ..) rfl
  assumption

theorem zeroParity_keeps (s : State) (slots : List Nat) :
    Keeps [.mem] s (zeroParity s slots) := by
  unfold zeroParity
  with_reducible refine Keeps.updMem ?_
  exact Keeps.refl _ _

theorem bindSlabs_keeps (s : State) (new : List (Nat × Nat)) (par : List Nat) (slots : List Nat) :
    Keeps [.mem, .tiers] s (bindSlabs s new par slots) := by
  unfold bindSlabs
  dsimp only
  with_reducible refine Keeps.foldl ?_ (fun _ _ _ => ?_)
  with_reducible refine Keeps.step ?_ (zeroParity_keeps ..) rfl
  with_reducible refine Keeps.step ?_ (zeroSlabs_keeps ..) rfl
  with_reducible refine Keeps.step ?_ (forgetSlabs_keeps ..) rfl
  exact Keeps.refl _ _
  with_reducible refine Keeps.step ?_ (takeFrames_keeps ..) rfl
  with_reducible refine Keeps.step ?_ (chargeAdd_keeps ..) rfl
  assumption

theorem resizePools_keeps (s : State) (old : SMap W32) :
    Keeps [.tiers] s (resizePools s old) := by
  unfold resizePools
  dsimp only
  with_reducible refine Keeps.step ?_ (trimReserve_keeps ..) rfl
  split
  with_reducible refine Keeps.step ?_ (takeFrames_keeps ..) rfl
  with_reducible refine Keeps.step ?_ (trimReserve_keeps ..) rfl
  split
  with_reducible refine Keeps.step ?_ (takeFrames_keeps ..) rfl
  with_reducible refine Keeps.step ?_ (trimReserve_keeps ..) rfl
  split
  with_reducible refine Keeps.step ?_ (takeFrames_keeps ..) rfl
  exact Keeps.refl _ _
  with_reducible refine Keeps.step ?_ (giveFrames_keeps ..) rfl
  exact Keeps.refl _ _
  with_reducible refine Keeps.step ?_ (giveFrames_keeps ..) rfl
  with_reducible refine Keeps.step ?_ (trimReserve_keeps ..) rfl
  split
  with_reducible refine Keeps.step ?_ (takeFrames_keeps ..) rfl
  exact Keeps.refl _ _
  with_reducible refine Keeps.step ?_ (giveFrames_keeps ..) rfl
  exact Keeps.refl _ _
  with_reducible refine Keeps.step ?_ (giveFrames_keeps ..) rfl
  with_reducible refine Keeps.step ?_ (trimReserve_keeps ..) rfl
  split
  with_reducible refine Keeps.step ?_ (takeFrames_keeps ..) rfl
  with_reducible refine Keeps.step ?_ (trimReserve_keeps ..) rfl
  split
  with_reducible refine Keeps.step ?_ (takeFrames_keeps ..) rfl
  exact Keeps.refl _ _
  with_reducible refine Keeps.step ?_ (giveFrames_keeps ..) rfl
  exact Keeps.refl _ _
  with_reducible refine Keeps.step ?_ (giveFrames_keeps ..) rfl
  with_reducible refine Keeps.step ?_ (trimReserve_keeps ..) rfl
  split
  with_reducible refine Keeps.step ?_ (takeFrames_keeps ..) rfl
  exact Keeps.refl _ _
  with_reducible refine Keeps.step ?_ (giveFrames_keeps ..) rfl
  exact Keeps.refl _ _

theorem zeroPages_keeps (s : State) (ps : List (Nat × Nat)) :
    Keeps [.mem] s (zeroPages s ps) := by
  unfold zeroPages
  dsimp only
  with_reducible refine Keeps.updMem ?_
  exact Keeps.refl _ _

theorem changeLines_keeps (s : State) (old : SMap W32) :
    Keeps [.port, .lines, .pmu] s (changeLines s old) := by
  unfold changeLines
  dsimp only
  with_reducible refine Keeps.foldl ?_ (fun _ _ _ => ?_)
  with_reducible refine Keeps.foldl ?_ (fun _ _ _ => ?_)
  exact Keeps.refl _ _
  with_reducible refine Keeps.step ?_ (noteLine_keeps ..) rfl
  with_reducible refine Keeps.step ?_ (lineSet_keeps ..) rfl
  assumption
  with_reducible refine Keeps.step ?_ (noteLine_keeps ..) rfl
  with_reducible refine Keeps.step ?_ (lineSet_keeps ..) rfl
  assumption

theorem clearPeers_keeps (s : State) (old : SMap W32) :
    Keeps [.net] s (clearPeers s old) := by
  unfold clearPeers
  dsimp only
  with_reducible refine Keeps.foldl ?_ (fun _ _ _ => ?_)
  exact Keeps.refl _ _
  with_reducible refine Keeps.step ?_ (peerSet_keeps ..) rfl
  assumption

theorem closeLinks_keeps (s : State) (m : SMap W32) :
    Keeps [.regs, .port, .net, .pmu] s (closeLinks s m) := by
  unfold closeLinks
  with_reducible refine Keeps.foldl ?_ (fun _ _ _ => ?_)
  exact Keeps.refl _ _
  with_reducible refine Keeps.step ?_ (linkSet_keeps ..) rfl
  split
  with_reducible refine Keeps.step ?_ (slipLink_keeps ..) rfl
  assumption
  assumption

theorem changeRoot_keeps (s : State) (old : SMap W32) :
    Keeps [.tb, .regs, .port, .pmu] s (changeRoot s old) := by
  unfold changeRoot
  dsimp only
  split
  with_reducible refine Keeps.upd ?_
  exact Keeps.refl _ _
  split
  with_reducible refine Keeps.step ?_ (syncPath_keeps ..) rfl
  with_reducible refine Keeps.step ?_ (setLocked_keeps ..) rfl
  exact Keeps.refl _ _
  exact Keeps.refl _ _

theorem changePmu_keeps (s : State) (old : SMap W32) :
    Keeps [.strands, .pmu] s (changePmu s old) := by
  unfold changePmu
  dsimp only
  split
  with_reducible refine Keeps.foldl ?_ (fun _ _ _ => ?_)
  with_reducible refine Keeps.upd ?_
  exact Keeps.refl _ _
  with_reducible refine Keeps.step ?_ (strandSet_keeps ..) rfl
  assumption
  with_reducible refine Keeps.upd ?_
  exact Keeps.refl _ _

theorem withAct_keeps (s : State) (m : SMap W32) : Keeps [.cfg] s (withAct s m) := by
  unfold withAct
  exact Keeps.upd (Keeps.refl _ _)

theorem applySnapshot_keeps (s : State) (m : SMap W32) :
    Keeps [.free, .tb, .regs, .port, .cfg, .lines, .hitches, .strands, .mem, .tiers, .net, .pmu] s (applySnapshot s m) := by
  unfold applySnapshot
  extract_lets old new par lost s1 s2 s3 s4 s5
  have h1 : Keeps [.free, .tb, .regs, .port, .cfg, .lines, .hitches, .strands, .mem, .tiers, .net, .pmu] s s1 := ((Keeps.refl _ _).step (closeLinks_keeps ..) rfl).step (unbindSlabs_keeps ..) rfl
  have h2 : Keeps [.free, .tb, .regs, .port, .cfg, .lines, .hitches, .strands, .mem, .tiers, .net, .pmu] s s2 := ((h1.step (withAct_keeps ..) rfl).step (bindSlabs_keeps ..) rfl).step (resizePools_keeps ..) rfl
  have h3 : Keeps [.free, .tb, .regs, .port, .cfg, .lines, .hitches, .strands, .mem, .tiers, .net, .pmu] s s3 := h2.step (zeroPages_keeps ..) rfl
  have h4 : Keeps [.free, .tb, .regs, .port, .cfg, .lines, .hitches, .strands, .mem, .tiers, .net, .pmu] s s4 :=
    (((h3.step (changeLines_keeps ..) rfl).step (clearPeers_keeps ..) rfl).step (changeRoot_keeps ..) rfl).step (changePmu_keeps ..) rfl
  have h5 : Keeps [.free, .tb, .regs, .port, .cfg, .lines, .hitches, .strands, .mem, .tiers, .net, .pmu] s s5 := by
    dsimp only [s5]
    split
    · exact (h4.step (markUnreachable_keeps ..) rfl).step (syncPath_keeps ..) rfl
    · exact h4
  exact h5.step (noteAll_keeps ..) rfl

end Sys2Proof.Machine
end

