-- ==== Sys2Proof/Laws/KeepsTake.lean ====
section
/-! SUPPORT. What each operation of Machine/Take.lean may change, and that it keeps the stores canonical. -/

set_option Elab.async false

namespace Sys2Proof.Machine

open Sys2Proof

theorem hostAnswered_keeps (s : State) (a : Nat) : Keeps [.mem] s (hostAnswered s a) := by
  unfold hostAnswered
  exact (Keeps.refl _ _).setMem _ rfl (fun h => Mem.wf_of h id id id id id id (setDel_rising _ _))

theorem slotRead_keeps (s : State) (a : Nat) :
    Keeps [.mem, .tiers] s (slotRead s a) := by
  unfold slotRead
  with_reducible refine Keeps.step ?_ (hostAnswered_keeps ..) rfl
  split
  with_reducible refine Keeps.step ?_ (badAccess_keeps ..) rfl
  exact Keeps.refl _ _
  exact Keeps.refl _ _

theorem readSlots_keeps (s : State) (n : Nat) (v : TakeView) :
    Keeps [.mem, .tiers] s (readSlots s n v) := by
  unfold readSlots
  with_reducible refine Keeps.foldl ?_ (fun _ _ _ => ?_)
  exact Keeps.refl _ _
  with_reducible refine Keeps.step ?_ (slotRead_keeps ..) rfl
  assumption

theorem takeFetched_keeps (s : State) (n : Nat) (v : TakeView) :
    Keeps [.regs, .port, .lines, .mem, .tiers, .pmu] s (takeFetched s n v) := by
  unfold takeFetched
  with_reducible refine Keeps.step ?_ (lineSet_keeps ..) rfl
  with_reducible refine Keeps.step ?_ (pmuAdd_keeps ..) rfl
  with_reducible refine Keeps.step ?_ (readSlots_keeps ..) rfl
  exact Keeps.refl _ _

theorem takeNow_keeps (s : State) (n : Nat) (v : TakeView) :
    Keeps [.regs, .port, .lines, .hitches, .mem, .tiers, .net, .pmu] s (takeNow s n v) := by
  unfold takeNow
  dsimp only
  split
  with_reducible refine Keeps.step ?_ (finalRecord_keeps ..) rfl
  with_reducible refine Keeps.step ?_ (takeFetched_keeps ..) rfl
  exact Keeps.refl _ _
  split
  with_reducible refine Keeps.step ?_ (noteLine_keeps ..) rfl
  with_reducible refine Keeps.step ?_ (lineSet_keeps ..) rfl
  with_reducible refine Keeps.step ?_ (takeFetched_keeps ..) rfl
  exact Keeps.refl _ _
  with_reducible refine Keeps.step ?_ (finalRecord_keeps ..) rfl
  with_reducible refine Keeps.step ?_ (pmuAdd_keeps ..) rfl
  with_reducible refine Keeps.step ?_ (takeFetched_keeps ..) rfl
  exact Keeps.refl _ _

theorem takeGranted_keeps (s : State) (n : Nat) (q : Req) :
    Keeps [.lineArb, .wfc] s (takeGranted s n q) := by
  unfold takeGranted
  with_reducible refine Keeps.step ?_ (noteGrant_keeps ..) rfl
  with_reducible refine Keeps.upd ?_
  exact Keeps.refl _ _

theorem execLineTake_keeps (line : LineNo) (s : State) :
    KeepsOut [.regs, .port, .lines, .hitches, .lineArb, .mem, .tiers, .net, .wfc, .pmu] s (execLineTake line s) := by
  unfold execLineTake
  dsimp only
  split
  with_reducible refine KeepsOut.next ?_
  exact Keeps.refl _ _
  split
  split
  with_reducible refine KeepsOut.next ?_
  with_reducible refine Keeps.step ?_ (takeNow_keeps ..) rfl
  with_reducible refine Keeps.step ?_ (takeGranted_keeps ..) rfl
  exact Keeps.refl _ _
  with_reducible refine KeepsOut.next ?_
  exact Keeps.refl _ _
  with_reducible refine KeepsOut.next ?_
  with_reducible refine Keeps.upd ?_
  exact Keeps.refl _ _

end Sys2Proof.Machine
end

