-- ==== Sys2Proof/Laws/KeepsBelay.lean ====
section
/-! SUPPORT. What each operation of Machine/Belay.lean may change, and that it keeps the stores canonical. -/

set_option Elab.async false

namespace Sys2Proof.Machine

open Sys2Proof

theorem enqueue_keeps (s : State) (r : BelayReq) :
    Keeps [.belay] s (enqueue s r) := by
  unfold enqueue
  split
  with_reducible refine Keeps.upd ?_
  exact Keeps.refl _ _
  with_reducible refine Keeps.upd ?_
  exact Keeps.refl _ _

theorem hostOutcome_keeps (s : State) (st : Nat) (blocker : Nat) (off : Nat) :
    Keeps [.regs, .port, .belay, .pmu] s (hostOutcome s st blocker off) := by
  unfold hostOutcome
  dsimp only
  with_reducible refine Keeps.step ?_ (raiseCause_keeps ..) rfl
  with_reducible refine Keeps.upd ?_
  exact Keeps.refl _ _

theorem hostCommand_keeps (s : State) (r : BelayReq) :
    Keeps [.regs, .port, .belay, .pmu] s (hostCommand s r) := by
  unfold hostCommand
  split
  with_reducible refine Keeps.upd ?_
  exact Keeps.refl _ _
  split
  with_reducible refine Keeps.step ?_ (hostOutcome_keeps ..) rfl
  exact Keeps.refl _ _
  with_reducible refine Keeps.step ?_ (enqueue_keeps ..) rfl
  with_reducible refine Keeps.upd ?_
  exact Keeps.refl _ _

theorem belayDesc_keeps (s : State) (n : Nat) (mine : BitVec 512 → Bool) :
    KeepsOut [.regs, .port, .belay, .lines, .hitches, .mem, .tiers, .net, .pmu] s (belayDesc s n mine) := by
  unfold belayDesc
  split
  split
  with_reducible refine onDispatch_keeps _ _ _ _ rfl (fun _ => ?_)
  dsimp only
  with_reducible refine Keeps.step ?_ (noteLine_keeps ..) rfl
  with_reducible refine Keeps.step ?_ (enqueue_keeps ..) rfl
  with_reducible refine Keeps.step ?_ (opSet_keeps ..) rfl
  exact Keeps.refl _ _
  with_reducible refine KeepsOut.next ?_
  exact Keeps.refl _ _
  with_reducible refine KeepsOut.next ?_
  exact Keeps.refl _ _

theorem hostBelay_keeps (c : Instr) (req : State → BelayReq) (s : State) :
    KeepsOut [.regs, .port, .ingress, .belay, .pmu] s (hostBelay c req s) := by
  unfold hostBelay
  with_reducible refine hostLane_keeps _ _ _ rfl (fun _ => ?_)
  split
  with_reducible refine KeepsOut.next ?_
  with_reducible refine Keeps.step ?_ (hostCommand_keeps ..) rfl
  exact Keeps.refl _ _
  with_reducible refine KeepsOut.next ?_
  exact Keeps.refl _ _

theorem belayMode_keeps (mode : BelayMode) (c : BelaySrc → Instr) (src : BelaySrc) (s : State) :
    KeepsOut [.regs, .port, .ingress, .belay, .lines, .hitches, .mem, .tiers, .net, .pmu] s (belayMode mode c src s) := by
  unfold belayMode
  split
  refine KeepsOut.mono (belayDesc_keeps _ _ _) ?_
  rfl
  refine KeepsOut.mono (hostBelay_keeps _ _ _) ?_
  rfl

theorem execBelayImmediate_keeps (src : BelaySrc) (s : State) :
    KeepsOut [.regs, .port, .ingress, .belay, .lines, .hitches, .mem, .tiers, .net, .pmu] s (execBelayImmediate src s) := by
  unfold execBelayImmediate
  refine KeepsOut.mono (belayMode_keeps _ _ _ _) ?_
  rfl

theorem execBelayAtBarrier_keeps (src : BelaySrc) (s : State) :
    KeepsOut [.regs, .port, .ingress, .belay, .lines, .hitches, .mem, .tiers, .net, .pmu] s (execBelayAtBarrier src s) := by
  unfold execBelayAtBarrier
  refine KeepsOut.mono (belayMode_keeps _ _ _ _) ?_
  rfl

theorem execBelayForce_keeps (src : BelaySrc) (s : State) :
    KeepsOut [.regs, .port, .ingress, .belay, .lines, .hitches, .mem, .tiers, .net, .pmu] s (execBelayForce src s) := by
  unfold execBelayForce
  refine KeepsOut.mono (belayMode_keeps _ _ _ _) ?_
  rfl

theorem execBelayCheck_keeps (src : BelaySrc) (s : State) :
    KeepsOut [.regs, .port, .ingress, .belay, .lines, .hitches, .mem, .tiers, .net, .pmu] s (execBelayCheck src s) := by
  unfold execBelayCheck
  split
  refine KeepsOut.mono (belayDesc_keeps _ _ _) ?_
  rfl
  refine KeepsOut.mono (hostBelay_keeps _ _ _) ?_
  rfl

theorem execRevert_keeps (s : State) :
    KeepsOut [.regs, .port, .ingress, .belay, .pmu] s (execRevert s) := by
  unfold execRevert
  refine KeepsOut.mono (hostBelay_keeps _ _ _) ?_
  rfl

theorem setRun_keeps (s : State) (r : Option BelayRun) :
    Keeps [.regs, .port, .belay, .lines, .net, .pmu] s (setRun s r) := by
  unfold setRun
  with_reducible refine Keeps.step ?_ (noteAll_keeps ..) rfl
  with_reducible refine Keeps.step ?_ (noteStatus_keeps ..) rfl
  with_reducible refine Keeps.upd ?_
  exact Keeps.refl _ _

theorem belayFinish_keeps (s : State) (r : BelayReq) (st : Nat) (blocker : Nat) (off : Nat) (cancelled : Nat) (quiesceNs : Nat) (after : BitVec 16) :
    Keeps [.regs, .port, .belay, .lines, .hitches, .mem, .tiers, .net, .pmu] s (belayFinish s r st blocker off cancelled quiesceNs after) := by
  unfold belayFinish
  dsimp only
  split
  with_reducible refine Keeps.step ?_ (hostOutcome_keeps ..) rfl
  with_reducible refine Keeps.step ?_ (setRun_keeps ..) rfl
  exact Keeps.refl _ _
  split
  with_reducible refine Keeps.step ?_ (finishOp_keeps ..) rfl
  with_reducible refine Keeps.step ?_ (setRun_keeps ..) rfl
  exact Keeps.refl _ _
  with_reducible refine Keeps.step ?_ (setRun_keeps ..) rfl
  exact Keeps.refl _ _

theorem belayStart_keeps (s : State) (r : BelayReq) (cancelled : Nat) :
    Keeps [.regs, .port, .belay, .cfg, .lines, .hitches, .mem, .tiers, .net, .pmu] s (belayStart s r cancelled) := by
  unfold belayStart
  dsimp only
  split
  with_reducible refine Keeps.step ?_ (belayFinish_keeps ..) rfl
  with_reducible refine Keeps.upd ?_
  exact Keeps.refl _ _
  split
  with_reducible refine Keeps.step ?_ (belayFinish_keeps ..) rfl
  with_reducible refine Keeps.upd ?_
  exact Keeps.refl _ _
  with_reducible refine Keeps.step ?_ (setRun_keeps ..) rfl
  with_reducible refine Keeps.upd ?_
  exact Keeps.refl _ _

theorem writeList_keeps (s : State) (r : BelayReq) :
    Keeps [.cfg, .tiers] s (writeList s r).1 := by
  rw [writeList]
  split
  dsimp only
  exact Keeps.refl _ _
  split
  dsimp only
  exact Keeps.refl _ _
  dsimp only
  split
  dsimp only
  with_reducible refine Keeps.step ?_ (noteAccess_keeps ..) rfl
  exact Keeps.refl _ _
  split
  dsimp only
  with_reducible refine Keeps.step ?_ (noteAccess_keeps ..) rfl
  exact Keeps.refl _ _
  dsimp only
  with_reducible refine Keeps.upd ?_
  with_reducible refine Keeps.step ?_ (noteAccess_keeps ..) rfl
  exact Keeps.refl _ _

theorem belayTake_keeps (s : State) (r : BelayReq) :
    Keeps [.regs, .port, .belay, .cfg, .lines, .hitches, .mem, .tiers, .net, .pmu] s (belayTake s r) := by
  unfold belayTake
  split
  with_reducible refine Keeps.step ?_ (belayFinish_keeps ..) rfl
  with_reducible refine Keeps.upd ?_
  exact Keeps.refl _ _
  dsimp only
  split
  with_reducible refine Keeps.step ?_ (belayFinish_keeps ..) rfl
  with_reducible refine Keeps.step ?_ (writeList_keeps ..) rfl
  exact Keeps.refl _ _
  with_reducible refine Keeps.step ?_ (belayStart_keeps ..) rfl
  with_reducible refine Keeps.step ?_ (writeList_keeps ..) rfl
  exact Keeps.refl _ _

theorem execBelayEngineTake_keeps (s : State) :
    KeepsOut [.regs, .port, .belay, .cfg, .lines, .hitches, .mem, .tiers, .eng, .net, .pmu] s (execBelayEngineTake s) := by
  unfold execBelayEngineTake
  split
  with_reducible refine KeepsOut.next ?_
  exact Keeps.refl _ _
  split
  with_reducible refine KeepsOut.next ?_
  exact Keeps.refl _ _
  split
  with_reducible refine KeepsOut.next ?_
  with_reducible refine Keeps.step ?_ (noteWaits_keeps ..) rfl
  exact Keeps.refl _ _
  dsimp only
  with_reducible refine KeepsOut.next ?_
  with_reducible refine Keeps.step ?_ (belayTake_keeps ..) rfl
  with_reducible refine Keeps.upd ?_
  exact Keeps.refl _ _

theorem execBelayBarrierReady_keeps (s : State) :
    KeepsOut [.regs, .port, .belay, .cfg, .lines, .hitches, .mem, .tiers, .net, .pmu] s (execBelayBarrierReady s) := by
  unfold execBelayBarrierReady
  dsimp only
  split
  split
  with_reducible refine KeepsOut.next ?_
  with_reducible refine Keeps.step ?_ (belayStart_keeps ..) rfl
  with_reducible refine Keeps.upd ?_
  exact Keeps.refl _ _
  with_reducible refine KeepsOut.next ?_
  with_reducible refine Keeps.upd ?_
  exact Keeps.refl _ _
  with_reducible refine KeepsOut.next ?_
  with_reducible refine Keeps.upd ?_
  exact Keeps.refl _ _

theorem execBelayDrainEnd_keeps (s : State) :
    KeepsOut [.regs, .port, .belay, .lines, .net, .pmu] s (execBelayDrainEnd s) := by
  unfold execBelayDrainEnd
  split
  split
  with_reducible refine KeepsOut.next ?_
  with_reducible refine Keeps.step ?_ (setRun_keeps ..) rfl
  exact Keeps.refl _ _
  with_reducible refine KeepsOut.next ?_
  exact Keeps.refl _ _
  with_reducible refine KeepsOut.next ?_
  exact Keeps.refl _ _

theorem cancelAll_keeps (s : State) (ops : List (Nat × OpEnt)) :
    Keeps [.free, .regs, .port, .belay, .lines, .hitches, .strands, .mem, .tiers, .eng, .net, .pmu] s (cancelAll s ops).1 := by
  rw [cancelAll]
  with_reducible refine Keeps.foldl_fst ?_ (fun _ _ _ => ?_)
  dsimp only
  exact Keeps.refl _ _
  split
  assumption
  split
  assumption
  dsimp only
  split
  split
  with_reducible refine Keeps.step ?_ (endSuspended_keeps ..) rfl
  with_reducible refine Keeps.step ?_ (cancelOp_keeps ..) rfl
  assumption
  with_reducible refine Keeps.step ?_ (cancelOp_keeps ..) rfl
  assumption
  with_reducible refine Keeps.step ?_ (cancelOp_keeps ..) rfl
  assumption

theorem execBelayDrainBudgetExpiry_keeps (s : State) :
    KeepsOut [.free, .regs, .port, .belay, .lines, .hitches, .strands, .mem, .tiers, .eng, .net, .pmu] s (execBelayDrainBudgetExpiry s) := by
  unfold execBelayDrainBudgetExpiry
  split
  split
  dsimp only
  with_reducible refine KeepsOut.next ?_
  with_reducible refine Keeps.upd ?_
  with_reducible refine Keeps.step ?_ (cancelAll_keeps ..) rfl
  exact Keeps.refl _ _
  with_reducible refine KeepsOut.next ?_
  exact Keeps.refl _ _
  with_reducible refine KeepsOut.next ?_
  exact Keeps.refl _ _

theorem applyPoint_keeps (s : State) (r : BelayRun) :
    Keeps [.free, .tb, .regs, .port, .belay, .cfg, .lines, .hitches, .strands, .mem, .tiers, .net, .pmu] s (applyPoint s r) := by
  unfold applyPoint
  dsimp only
  with_reducible refine Keeps.step ?_ (pmuAdd_keeps ..) rfl
  with_reducible refine Keeps.step ?_ (applySnapshot_keeps ..) rfl
  with_reducible refine Keeps.upd ?_
  with_reducible refine Keeps.step ?_ (setRun_keeps ..) rfl
  exact Keeps.refl _ _

theorem execBelayPoint_keeps (s : State) :
    KeepsOut [.free, .tb, .regs, .port, .belay, .cfg, .lines, .hitches, .strands, .mem, .tiers, .net, .pmu] s (execBelayPoint s) := by
  unfold execBelayPoint
  split
  split
  dsimp only
  with_reducible refine KeepsOut.next ?_
  split
  with_reducible refine Keeps.step ?_ (applyPoint_keeps ..) rfl
  with_reducible refine Keeps.step ?_ (belayFinish_keeps ..) rfl
  exact Keeps.refl _ _
  with_reducible refine Keeps.step ?_ (belayFinish_keeps ..) rfl
  with_reducible refine Keeps.step ?_ (applyPoint_keeps ..) rfl
  exact Keeps.refl _ _
  with_reducible refine KeepsOut.next ?_
  exact Keeps.refl _ _
  with_reducible refine KeepsOut.next ?_
  exact Keeps.refl _ _

theorem execQuiesceBudgetExpiry_keeps (s : State) :
    KeepsOut [.free, .regs, .port, .belay, .lines, .hitches, .strands, .mem, .tiers, .eng, .net, .pmu] s (execQuiesceBudgetExpiry s) := by
  unfold execQuiesceBudgetExpiry
  split
  dsimp only
  split
  with_reducible refine KeepsOut.next ?_
  exact Keeps.refl _ _
  split
  with_reducible refine KeepsOut.next ?_
  with_reducible refine Keeps.upd ?_
  with_reducible refine Keeps.step ?_ (cancelAll_keeps ..) rfl
  exact Keeps.refl _ _
  with_reducible refine KeepsOut.next ?_
  with_reducible refine Keeps.step ?_ (setRun_keeps ..) rfl
  exact Keeps.refl _ _
  with_reducible refine KeepsOut.next ?_
  with_reducible refine Keeps.step ?_ (belayFinish_keeps ..) rfl
  exact Keeps.refl _ _
  with_reducible refine KeepsOut.next ?_
  exact Keeps.refl _ _

end Sys2Proof.Machine
end

