-- ==== Sys2Proof/Laws/KeepsBoot.lean ====
section
/-! SUPPORT. What each operation of Machine/Boot.lean may change, and that it keeps the stores canonical. -/

set_option Elab.async false

namespace Sys2Proof.Machine

open Sys2Proof

/-- The flash replaced. -/
theorem Keeps.setFlash {ps : List Part} {s t : State} (h : Keeps ps s t) (m : SMap Byte) (hp : ps.contains .flash = true)
    (hm : mapWf 0xFF t.flash = true → mapWf 0xFF m = true) : Keeps ps s { t with flash := m } := by
  refine Keeps.updAny _ h (fun p hq => ?_) (fun hw => ?_)
  · cases p <;> first | rfl | exact absurd (by simpa using hp) hq
  · rw [State.wf_iff] at hw ⊢
    exact ⟨hw.1, hm hw.2⟩

theorem mapWf_append {V : Type} [DecidableEq V] (d : V) (m1 m2 : SMap V) (b : Nat) (h1 : mapWf d m1 = true) (h2 : mapWf d m2 = true)
    (hlt : ∀ p ∈ m1, p.1 < b) (hge : ∀ p ∈ m2, b ≤ p.1) : mapWf d (m1 ++ m2) = true := by
  rw [mapWf_iff] at h1 h2 ⊢
  refine ⟨?_, fun p hp => (List.mem_append.1 hp).elim (h1.2 p) (h2.2 p)⟩
  rw [List.map_append, List.pairwise_append]
  refine ⟨h1.1, h2.1, fun a ha c hc => ?_⟩
  obtain ⟨p, hp, rfl⟩ := List.mem_map.1 ha
  obtain ⟨q, hq, rfl⟩ := List.mem_map.1 hc
  exact Nat.lt_of_lt_of_le (hlt p hp) (hge q hq)

theorem zipIdx_keys {V : Type} (l : List V) (n : Nat) : (l.zipIdx n).Pairwise (fun p q => p.2 < q.2) ∧ ∀ p ∈ l.zipIdx n, n ≤ p.2 ∧ p.2 < n + l.length := by
  induction l generalizing n with
  | nil => simp
  | cons a l ih =>
    obtain ⟨h1, h2⟩ := ih (n + 1)
    simp only [List.zipIdx_cons, List.pairwise_cons, List.mem_cons, List.length_cons]
    refine ⟨⟨fun q hq => by have := h2 q hq; omega, h1⟩, ?_⟩
    rintro p (rfl | hp)
    · simp
    · have := h2 p hp; omega

theorem eraseFlash_keeps (s : State) (lo : Nat) (n : Nat) :
    Keeps [.flash] s (eraseFlash s lo n) := by
  unfold eraseFlash
  exact (Keeps.refl _ _).setFlash _ rfl (mapWf_filter _ _ _)

theorem logWrite_keeps (s : State) (code : Nat) (slot : Nat) (d0 : Nat) (d1 : Nat) :
    Keeps [.boot, .flash] s (logWrite s code slot d0 d1) := by
  unfold logWrite
  extract_lets i s1 bs
  have h1 : Keeps [.boot, .flash] s s1 := by
    dsimp only [s1]
    split
    · exact (Keeps.refl _ _).step (eraseFlash_keeps ..) rfl
    · exact Keeps.refl _ _
  clear_value s1 bs
  have h2 := h1.setFlash ((bs.zipIdx).foldl (fun m p => mapSet 0xFF m (logBase + 32 * i + p.2) p.1) s1.flash) rfl
    (fun w => foldl_keeps (fun m => mapWf 0xFF m = true) _ _ _ w (fun m p hm => mapSet_wf _ _ _ _ hm))
  exact Keeps.upd h2

theorem freshPools_keeps (s : State) :
    Keeps [.tiers] s (freshPools s) := by
  unfold freshPools
  with_reducible refine Keeps.foldl ?_ (fun _ _ _ => ?_)
  exact Keeps.refl _ _
  with_reducible refine Keeps.step ?_ (poolSet_keeps ..) rfl
  assumption

theorem applyBoot_keeps (s : State) (m : SMap W32) :
    Keeps [.free, .tb, .regs, .port, .belay, .cfg, .lines, .hitches, .strands, .mem, .tiers, .net, .pmu] s (applyBoot s m) := by
  unfold applyBoot
  dsimp only
  with_reducible refine Keeps.upd ?_
  with_reducible refine Keeps.step ?_ (applySnapshot_keeps ..) rfl
  with_reducible refine Keeps.step ?_ (freshPools_keeps ..) rfl
  with_reducible refine Keeps.updMem ?_
  exact Keeps.refl _ _

theorem enterSafe_keeps (s : State) (reason : Nat) :
    Keeps [.free, .boot, .flash, .tb, .regs, .port, .belay, .cfg, .lines, .hitches, .strands, .mem, .tiers, .net, .pmu] s (enterSafe s reason) := by
  unfold enterSafe
  split
  exact Keeps.refl _ _
  dsimp only
  with_reducible refine Keeps.step ?_ (applyBoot_keeps ..) rfl
  with_reducible refine Keeps.upd ?_
  with_reducible refine Keeps.step ?_ (logWrite_keeps ..) rfl
  exact Keeps.refl _ _

theorem examine_keeps (s : State) (k : Nat) (modId : Nat) :
    Keeps [.boot, .flash] s (examine s k modId) := by
  unfold examine
  dsimp only
  split
  with_reducible refine Keeps.upd ?_
  exact Keeps.refl _ _
  with_reducible refine Keeps.step ?_ (logWrite_keeps ..) rfl
  with_reducible refine Keeps.upd ?_
  exact Keeps.refl _ _

theorem bootBelay_keeps (s : State) (k : Nat) (modId : Nat) :
    Keeps [.free, .boot, .flash, .tb, .regs, .port, .belay, .cfg, .lines, .hitches, .strands, .mem, .tiers, .net, .pmu] s (bootBelay s k modId).1 := by
  rw [bootBelay]
  split
  dsimp only
  exact Keeps.refl _ _
  dsimp only
  split
  dsimp only
  with_reducible refine Keeps.step ?_ (logWrite_keeps ..) rfl
  with_reducible refine Keeps.upd ?_
  split
  with_reducible refine Keeps.step ?_ (logWrite_keeps ..) rfl
  with_reducible refine Keeps.foldl ?_ (fun _ _ _ => ?_)
  exact Keeps.refl _ _
  with_reducible refine Keeps.step ?_ (logWrite_keeps ..) rfl
  assumption
  with_reducible refine Keeps.foldl ?_ (fun _ _ _ => ?_)
  exact Keeps.refl _ _
  with_reducible refine Keeps.step ?_ (logWrite_keeps ..) rfl
  assumption
  dsimp only
  with_reducible refine Keeps.step ?_ (applyBoot_keeps ..) rfl
  with_reducible refine Keeps.upd ?_
  split
  with_reducible refine Keeps.step ?_ (logWrite_keeps ..) rfl
  with_reducible refine Keeps.foldl ?_ (fun _ _ _ => ?_)
  exact Keeps.refl _ _
  with_reducible refine Keeps.step ?_ (logWrite_keeps ..) rfl
  assumption
  with_reducible refine Keeps.foldl ?_ (fun _ _ _ => ?_)
  exact Keeps.refl _ _
  with_reducible refine Keeps.step ?_ (logWrite_keeps ..) rfl
  assumption

theorem tryBoot_keeps (modId first : Nat) (ks : List Nat) (s : State) :
    Keeps [.free, .boot, .flash, .tb, .regs, .port, .belay, .cfg, .lines, .hitches, .strands, .mem, .tiers, .net, .pmu] s (tryBoot modId first ks s) := by
  induction ks generalizing s with
  | nil => exact (enterSafe_keeps ..).mono rfl
  | cons k ks ih =>
    unfold tryBoot
    split
    · exact ih s
    · have hb := (bootBelay_keeps s k modId).mono (ps := [.free, .boot, .flash, .tb, .regs, .port, .belay, .cfg, .lines, .hitches, .strands, .mem, .tiers, .net, .pmu]) rfl
      generalize bootBelay s k modId = r at hb ⊢
      dsimp only
      split
      · have h1 : Keeps [.free, .boot, .flash, .tb, .regs, .port, .belay, .cfg, .lines, .hitches, .strands, .mem, .tiers, .net, .pmu] s { r.1 with boot := { r.1.boot with fallback := k != first } } := Keeps.upd hb
        split
        · split
          · exact h1.step (logWrite_keeps ..) rfl
          · exact h1
        · exact h1
      · exact hb.trans' (ih r.1)

theorem risen_keeps (s : State) (modId : BitVec 5) :
    Keeps [.pins, .power, .boot, .tb] s (risen s modId) := by
  unfold risen
  with_reducible refine Keeps.upd ?_
  exact Keeps.refl _ _

theorem bootSlots_keeps (s : State) (modId : Nat) :
    Keeps [.free, .boot, .flash, .tb, .regs, .port, .belay, .cfg, .lines, .hitches, .strands, .mem, .tiers, .net, .pmu] s (bootSlots s modId) := by
  unfold bootSlots
  split
  dsimp only
  with_reducible refine Keeps.step ?_ (enterSafe_keeps ..) rfl
  with_reducible refine Keeps.upd ?_
  exact Keeps.refl _ _
  dsimp only
  with_reducible refine Keeps.step ?_ (tryBoot_keeps ..) rfl
  with_reducible refine Keeps.step ?_ (examine_keeps ..) rfl
  with_reducible refine Keeps.step ?_ (examine_keeps ..) rfl
  exact Keeps.refl _ _

theorem kernPhase_keeps (s : State) :
    Keeps [.boot] s (kernPhase s) := by
  unfold kernPhase
  with_reducible refine Keeps.upd ?_
  exact Keeps.refl _ _

theorem bootPhases_keeps (s : State) (modId : BitVec 5) :
    Keeps [.free, .boot, .flash, .tb, .regs, .port, .belay, .cfg, .lines, .hitches, .strands, .mem, .tiers, .net, .pmu] s (bootPhases s modId) := by
  unfold bootPhases
  with_reducible refine Keeps.step ?_ (kernPhase_keeps ..) rfl
  with_reducible refine Keeps.step ?_ (bootSlots_keeps ..) rfl
  exact Keeps.refl _ _

theorem execBootStart_keeps (modId : BitVec 5) (s : State) :
    KeepsOut [.free, .pins, .power, .boot, .flash, .tb, .regs, .port, .belay, .cfg, .lines, .hitches, .strands, .mem, .tiers, .net, .pmu] s (execBootStart modId s) := by
  unfold execBootStart
  split
  with_reducible refine KeepsOut.next ?_
  exact Keeps.refl _ _
  split
  with_reducible refine KeepsOut.next ?_
  with_reducible refine Keeps.upd ?_
  exact Keeps.refl _ _
  with_reducible refine KeepsOut.next ?_
  with_reducible refine Keeps.step ?_ (bootPhases_keeps ..) rfl
  with_reducible refine Keeps.step ?_ (risen_keeps ..) rfl
  exact Keeps.refl _ _

theorem afterMantle_keeps (s : State) :
    Keeps [.boot] s (afterMantle s) := by
  unfold afterMantle
  split
  with_reducible refine Keeps.upd ?_
  exact Keeps.refl _ _
  with_reducible refine Keeps.upd ?_
  exact Keeps.refl _ _

theorem execStackTrainingDone_keeps (tier : Tier) (failedOnce : List Stack) (failedTwice : List Stack) (s : State) :
    KeepsOut [.free, .boot, .flash, .tb, .regs, .port, .belay, .cfg, .lines, .hitches, .strands, .mem, .tiers, .net, .pmu] s (execStackTrainingDone tier failedOnce failedTwice s) := by
  unfold execStackTrainingDone
  dsimp only
  split
  split
  with_reducible refine KeepsOut.next ?_
  exact Keeps.refl _ _
  with_reducible refine KeepsOut.next ?_
  split
  with_reducible refine Keeps.upd ?_
  split
  with_reducible refine Keeps.upd ?_
  with_reducible refine Keeps.foldl ?_ (fun _ _ _ => ?_)
  with_reducible refine Keeps.foldl ?_ (fun _ _ _ => ?_)
  exact Keeps.refl _ _
  with_reducible refine Keeps.step ?_ (logWrite_keeps ..) rfl
  assumption
  with_reducible refine Keeps.step ?_ (logWrite_keeps ..) rfl
  with_reducible refine Keeps.step ?_ (logWrite_keeps ..) rfl
  assumption
  with_reducible refine Keeps.step ?_ (enterSafe_keeps ..) rfl
  with_reducible refine Keeps.upd ?_
  with_reducible refine Keeps.foldl ?_ (fun _ _ _ => ?_)
  with_reducible refine Keeps.foldl ?_ (fun _ _ _ => ?_)
  exact Keeps.refl _ _
  with_reducible refine Keeps.step ?_ (logWrite_keeps ..) rfl
  assumption
  with_reducible refine Keeps.step ?_ (logWrite_keeps ..) rfl
  with_reducible refine Keeps.step ?_ (logWrite_keeps ..) rfl
  assumption
  with_reducible refine Keeps.step ?_ (afterMantle_keeps ..) rfl
  split
  with_reducible refine Keeps.upd ?_
  with_reducible refine Keeps.foldl ?_ (fun _ _ _ => ?_)
  with_reducible refine Keeps.foldl ?_ (fun _ _ _ => ?_)
  exact Keeps.refl _ _
  with_reducible refine Keeps.step ?_ (logWrite_keeps ..) rfl
  assumption
  with_reducible refine Keeps.step ?_ (logWrite_keeps ..) rfl
  with_reducible refine Keeps.step ?_ (logWrite_keeps ..) rfl
  assumption
  with_reducible refine Keeps.step ?_ (enterSafe_keeps ..) rfl
  with_reducible refine Keeps.upd ?_
  with_reducible refine Keeps.foldl ?_ (fun _ _ _ => ?_)
  with_reducible refine Keeps.foldl ?_ (fun _ _ _ => ?_)
  exact Keeps.refl _ _
  with_reducible refine Keeps.step ?_ (logWrite_keeps ..) rfl
  assumption
  with_reducible refine Keeps.step ?_ (logWrite_keeps ..) rfl
  with_reducible refine Keeps.step ?_ (logWrite_keeps ..) rfl
  assumption
  split
  with_reducible refine KeepsOut.next ?_
  exact Keeps.refl _ _
  with_reducible refine KeepsOut.next ?_
  split
  with_reducible refine Keeps.upd ?_
  split
  with_reducible refine Keeps.upd ?_
  with_reducible refine Keeps.foldl ?_ (fun _ _ _ => ?_)
  with_reducible refine Keeps.foldl ?_ (fun _ _ _ => ?_)
  exact Keeps.refl _ _
  with_reducible refine Keeps.step ?_ (logWrite_keeps ..) rfl
  assumption
  with_reducible refine Keeps.step ?_ (logWrite_keeps ..) rfl
  with_reducible refine Keeps.step ?_ (logWrite_keeps ..) rfl
  assumption
  with_reducible refine Keeps.step ?_ (enterSafe_keeps ..) rfl
  with_reducible refine Keeps.upd ?_
  with_reducible refine Keeps.foldl ?_ (fun _ _ _ => ?_)
  with_reducible refine Keeps.foldl ?_ (fun _ _ _ => ?_)
  exact Keeps.refl _ _
  with_reducible refine Keeps.step ?_ (logWrite_keeps ..) rfl
  assumption
  with_reducible refine Keeps.step ?_ (logWrite_keeps ..) rfl
  with_reducible refine Keeps.step ?_ (logWrite_keeps ..) rfl
  assumption
  with_reducible refine Keeps.step ?_ (afterMantle_keeps ..) rfl
  split
  with_reducible refine Keeps.upd ?_
  with_reducible refine Keeps.foldl ?_ (fun _ _ _ => ?_)
  with_reducible refine Keeps.foldl ?_ (fun _ _ _ => ?_)
  exact Keeps.refl _ _
  with_reducible refine Keeps.step ?_ (logWrite_keeps ..) rfl
  assumption
  with_reducible refine Keeps.step ?_ (logWrite_keeps ..) rfl
  with_reducible refine Keeps.step ?_ (logWrite_keeps ..) rfl
  assumption
  with_reducible refine Keeps.step ?_ (enterSafe_keeps ..) rfl
  with_reducible refine Keeps.upd ?_
  with_reducible refine Keeps.foldl ?_ (fun _ _ _ => ?_)
  with_reducible refine Keeps.foldl ?_ (fun _ _ _ => ?_)
  exact Keeps.refl _ _
  with_reducible refine Keeps.step ?_ (logWrite_keeps ..) rfl
  assumption
  with_reducible refine Keeps.step ?_ (logWrite_keeps ..) rfl
  with_reducible refine Keeps.step ?_ (logWrite_keeps ..) rfl
  assumption
  split
  with_reducible refine KeepsOut.next ?_
  exact Keeps.refl _ _
  with_reducible refine KeepsOut.next ?_
  split
  with_reducible refine Keeps.upd ?_
  split
  with_reducible refine Keeps.upd ?_
  with_reducible refine Keeps.foldl ?_ (fun _ _ _ => ?_)
  with_reducible refine Keeps.foldl ?_ (fun _ _ _ => ?_)
  exact Keeps.refl _ _
  with_reducible refine Keeps.step ?_ (logWrite_keeps ..) rfl
  assumption
  with_reducible refine Keeps.step ?_ (logWrite_keeps ..) rfl
  with_reducible refine Keeps.step ?_ (logWrite_keeps ..) rfl
  assumption
  with_reducible refine Keeps.step ?_ (enterSafe_keeps ..) rfl
  with_reducible refine Keeps.upd ?_
  with_reducible refine Keeps.foldl ?_ (fun _ _ _ => ?_)
  with_reducible refine Keeps.foldl ?_ (fun _ _ _ => ?_)
  exact Keeps.refl _ _
  with_reducible refine Keeps.step ?_ (logWrite_keeps ..) rfl
  assumption
  with_reducible refine Keeps.step ?_ (logWrite_keeps ..) rfl
  with_reducible refine Keeps.step ?_ (logWrite_keeps ..) rfl
  assumption
  with_reducible refine Keeps.step ?_ (afterMantle_keeps ..) rfl
  split
  with_reducible refine Keeps.upd ?_
  with_reducible refine Keeps.foldl ?_ (fun _ _ _ => ?_)
  with_reducible refine Keeps.foldl ?_ (fun _ _ _ => ?_)
  exact Keeps.refl _ _
  with_reducible refine Keeps.step ?_ (logWrite_keeps ..) rfl
  assumption
  with_reducible refine Keeps.step ?_ (logWrite_keeps ..) rfl
  with_reducible refine Keeps.step ?_ (logWrite_keeps ..) rfl
  assumption
  with_reducible refine Keeps.step ?_ (enterSafe_keeps ..) rfl
  with_reducible refine Keeps.upd ?_
  with_reducible refine Keeps.foldl ?_ (fun _ _ _ => ?_)
  with_reducible refine Keeps.foldl ?_ (fun _ _ _ => ?_)
  exact Keeps.refl _ _
  with_reducible refine Keeps.step ?_ (logWrite_keeps ..) rfl
  assumption
  with_reducible refine Keeps.step ?_ (logWrite_keeps ..) rfl
  with_reducible refine Keeps.step ?_ (logWrite_keeps ..) rfl
  assumption

theorem execLinksPhaseEnd_keeps (s : State) :
    KeepsOut [.boot, .flash, .port, .lines, .pmu] s (execLinksPhaseEnd s) := by
  unfold execLinksPhaseEnd
  split
  with_reducible refine KeepsOut.next ?_
  exact Keeps.refl _ _
  dsimp only
  with_reducible refine KeepsOut.next ?_
  with_reducible refine Keeps.step ?_ (noteAll_keeps ..) rfl
  with_reducible refine Keeps.step ?_ (logWrite_keeps ..) rfl
  with_reducible refine Keeps.upd ?_
  exact Keeps.refl _ _

theorem execPldmFirmwareUpdate_keeps (image : List Byte) (s : State) :
    KeepsOut [.free, .flash] s (execPldmFirmwareUpdate image s) := by
  unfold execPldmFirmwareUpdate
  split
  · exact KeepsOut.next (Keeps.refl _ _)
  · rename_i hc
    have hl : image.length ≤ 0x2000000 := by simp at hc; omega
    extract_lets b new
    refine KeepsOut.next (((Keeps.refl _ _).step (drawn_keeps s) rfl).setFlash _ rfl (fun w => ?_))
    have hz := zipIdx_keys image 0
    have hnew : ∀ p ∈ new, b ≤ p.1 ∧ p.1 < b + 0x2000000 := by
      intro p hp
      obtain ⟨q, hq, rfl⟩ := List.mem_map.1 hp
      have := hz.2 q (List.mem_of_mem_filter hq)
      dsimp only
      omega
    have wn : mapWf 0xFF new = true := by
      rw [mapWf_iff]
      refine ⟨?_, fun p hp => ?_⟩
      · rw [List.map_map, List.pairwise_map]
        exact (hz.1.filter _).imp (fun h => by simp only [Function.comp]; omega)
      · obtain ⟨q, hq, rfl⟩ := List.mem_map.1 hp
        simpa using (List.mem_filter.1 hq).2
    refine mapWf_append _ _ _ (b + 0x2000000) ?_ (mapWf_filter _ _ _ w) ?_ (fun p hp => by simpa using (List.mem_filter.1 hp).2)
    · refine mapWf_append _ _ _ b (mapWf_filter _ _ _ w) wn (fun p hp => by simpa using (List.mem_filter.1 hp).2)
        (fun p hp => (hnew p hp).1)
    · intro p hp
      rcases List.mem_append.1 hp with h | h
      · have : p.1 < b := by simpa using (List.mem_filter.1 h).2
        omega
      · exact (hnew p h).2

end Sys2Proof.Machine
end

