-- ==== Sys2Proof/Laws/KeepsTimebase.lean ====
section
/-! SUPPORT. What each operation of Machine/Timebase.lean may change, and that it keeps the stores canonical. -/

set_option Elab.async false

namespace Sys2Proof.Machine

open Sys2Proof

theorem execSyncPeriod_keeps (s : State) :
    KeepsOut [.free, .tb, .regs, .port, .net, .pmu] s (execSyncPeriod s) := by
  unfold execSyncPeriod
  split
  with_reducible refine KeepsOut.next ?_
  exact Keeps.refl _ _
  dsimp only
  split
  with_reducible refine KeepsOut.next ?_
  with_reducible refine Keeps.step ?_ (syncPath_keeps ..) rfl
  exact Keeps.refl _ _
  with_reducible refine KeepsOut.next ?_
  with_reducible refine Keeps.step ?_ (sendOn_keeps ..) rfl
  with_reducible refine Keeps.upd ?_
  with_reducible refine Keeps.step ?_ (drawn_keeps ..) rfl
  with_reducible refine Keeps.step ?_ (syncPath_keeps ..) rfl
  exact Keeps.refl _ _

theorem execSyncReq_keeps (link : LinkNo) (f : Frame) (t2 : BitVec 4) (t3 : BitVec 4) (s : State) :
    KeepsOut [.regs, .port, .lines, .net, .pmu] s (execSyncReq link f t2 t3 s) := by
  unfold execSyncReq
  with_reducible refine localRx_keeps _ _ _ _ _ rfl (fun _ => ?_)
  with_reducible refine Keeps.step ?_ (sendOn_keeps ..) rfl
  exact Keeps.refl _ _

theorem applyOffset_keeps (s0 : State) (x : Int) (parentLocked : Bool) :
    Keeps [.free, .tb] s0 (applyOffset s0 x parentLocked) := by
  unfold applyOffset
  dsimp only
  split
  split
  with_reducible refine Keeps.upd ?_
  with_reducible refine Keeps.step ?_ (drawn_keeps ..) rfl
  exact Keeps.refl _ _
  with_reducible refine Keeps.upd ?_
  with_reducible refine Keeps.step ?_ (drawn_keeps ..) rfl
  exact Keeps.refl _ _
  split
  with_reducible refine Keeps.upd ?_
  with_reducible refine Keeps.step ?_ (drawn_keeps ..) rfl
  exact Keeps.refl _ _
  with_reducible refine Keeps.upd ?_
  with_reducible refine Keeps.step ?_ (drawn_keeps ..) rfl
  exact Keeps.refl _ _

theorem execSyncRsp_keeps (link : LinkNo) (f : Frame) (t4 : BitVec 4) (s : State) :
    KeepsOut [.free, .tb, .regs, .port, .lines, .net, .pmu] s (execSyncRsp link f t4 s) := by
  unfold execSyncRsp
  with_reducible refine localRx_keeps _ _ _ _ _ rfl (fun _ => ?_)
  split
  split
  with_reducible refine Keeps.step ?_ (applyOffset_keeps ..) rfl
  exact Keeps.refl _ _
  exact Keeps.refl _ _
  exact Keeps.refl _ _

theorem execTbCopyReload_keeps (s : State) :
    KeepsOut [.tb, .regs, .port, .pmu] s (execTbCopyReload s) := by
  unfold execTbCopyReload
  split
  with_reducible refine KeepsOut.next ?_
  with_reducible refine Keeps.step ?_ (raiseCause_keeps ..) rfl
  with_reducible refine Keeps.upd ?_
  exact Keeps.refl _ _
  with_reducible refine KeepsOut.next ?_
  exact Keeps.refl _ _

end Sys2Proof.Machine
end

