-- ==== Sys2Proof/Laws/KeepsGovernor.lean ====
section
/-! SUPPORT. What each operation of Machine/Governor.lean may change, and that it keeps the stores canonical. -/

set_option Elab.async false

namespace Sys2Proof.Machine

open Sys2Proof

theorem noteRail_keeps (s : State) :
    Keeps [.gov] s (noteRail s) := by
  unfold noteRail
  dsimp only
  with_reducible refine Keeps.upd ?_
  exact Keeps.refl _ _

theorem execGovernorSample_keeps (watts : BitVec 12) (tj : List (BitVec 7)) (s : State) :
    KeepsOut [.free, .regs, .port, .strands, .gov, .pmu] s (execGovernorSample watts tj s) := by
  unfold execGovernorSample
  split
  with_reducible refine KeepsOut.next ?_
  exact Keeps.refl _ _
  dsimp only
  with_reducible refine KeepsOut.next ?_
  split
  with_reducible refine Keeps.step ?_ (raiseCause_keeps ..) rfl
  with_reducible refine Keeps.step ?_ (noteRail_keeps ..) rfl
  with_reducible refine Keeps.upd ?_
  with_reducible refine Keeps.step ?_ (drawn_keeps ..) rfl
  exact Keeps.refl _ _
  with_reducible refine Keeps.step ?_ (noteRail_keeps ..) rfl
  with_reducible refine Keeps.upd ?_
  with_reducible refine Keeps.step ?_ (drawn_keeps ..) rfl
  exact Keeps.refl _ _

theorem slowOn_keeps (s : State) :
    Keeps [.regs, .port, .gov, .net, .pmu] s (slowOn s) := by
  unfold slowOn
  split
  exact Keeps.refl _ _
  with_reducible refine Keeps.step ?_ (noteStatus_keeps ..) rfl
  with_reducible refine Keeps.upd ?_
  exact Keeps.refl _ _

theorem slowOff_keeps (s : State) :
    Keeps [.regs, .port, .gov, .net, .pmu] s (slowOff s) := by
  unfold slowOff
  split
  with_reducible refine Keeps.step ?_ (noteStatus_keeps ..) rfl
  with_reducible refine Keeps.upd ?_
  exact Keeps.refl _ _
  exact Keeps.refl _ _

theorem execSlowRaise_keeps (s : State) :
    KeepsOut [.regs, .port, .gov, .net, .pmu] s (execSlowRaise s) := by
  unfold execSlowRaise
  split
  with_reducible refine KeepsOut.next ?_
  with_reducible refine Keeps.step ?_ (raiseCause_keeps ..) rfl
  with_reducible refine Keeps.step ?_ (slowOn_keeps ..) rfl
  exact Keeps.refl _ _
  with_reducible refine KeepsOut.next ?_
  exact Keeps.refl _ _

theorem execSlowClear_keeps (s : State) :
    KeepsOut [.regs, .port, .gov, .net, .pmu] s (execSlowClear s) := by
  unfold execSlowClear
  with_reducible refine KeepsOut.next ?_
  with_reducible refine Keeps.step ?_ (slowOff_keeps ..) rfl
  exact Keeps.refl _ _

theorem execSlowHoldEnd_keeps (s : State) :
    KeepsOut [.regs, .port, .gov, .net, .pmu] s (execSlowHoldEnd s) := by
  unfold execSlowHoldEnd
  split
  with_reducible refine KeepsOut.next ?_
  with_reducible refine Keeps.step ?_ (slowOff_keeps ..) rfl
  with_reducible refine Keeps.upd ?_
  exact Keeps.refl _ _
  with_reducible refine KeepsOut.next ?_
  exact Keeps.refl _ _

theorem thermalReport_keeps (s : State) (st : Nat) (temp : Nat) :
    Keeps [.regs, .port, .stackSt, .gov, .net, .pmu] s (thermalReport s st temp) := by
  unfold thermalReport
  dsimp only
  split
  with_reducible refine Keeps.step ?_ (slowOn_keeps ..) rfl
  with_reducible refine Keeps.upd ?_
  split
  with_reducible refine Keeps.step ?_ (raiseCause_keeps ..) rfl
  with_reducible refine Keeps.step ?_ (stackSet_keeps ..) rfl
  exact Keeps.refl _ _
  with_reducible refine Keeps.step ?_ (stackSet_keeps ..) rfl
  exact Keeps.refl _ _
  split
  split
  split
  split
  with_reducible refine Keeps.upd ?_
  with_reducible refine Keeps.step ?_ (raiseCause_keeps ..) rfl
  with_reducible refine Keeps.step ?_ (stackSet_keeps ..) rfl
  exact Keeps.refl _ _
  with_reducible refine Keeps.step ?_ (raiseCause_keeps ..) rfl
  with_reducible refine Keeps.step ?_ (stackSet_keeps ..) rfl
  exact Keeps.refl _ _
  split
  with_reducible refine Keeps.upd ?_
  with_reducible refine Keeps.step ?_ (raiseCause_keeps ..) rfl
  with_reducible refine Keeps.step ?_ (stackSet_keeps ..) rfl
  exact Keeps.refl _ _
  with_reducible refine Keeps.step ?_ (raiseCause_keeps ..) rfl
  with_reducible refine Keeps.step ?_ (stackSet_keeps ..) rfl
  exact Keeps.refl _ _
  split
  split
  split
  with_reducible refine Keeps.upd ?_
  with_reducible refine Keeps.step ?_ (raiseCause_keeps ..) rfl
  with_reducible refine Keeps.step ?_ (stackSet_keeps ..) rfl
  exact Keeps.refl _ _
  with_reducible refine Keeps.step ?_ (raiseCause_keeps ..) rfl
  with_reducible refine Keeps.step ?_ (stackSet_keeps ..) rfl
  exact Keeps.refl _ _
  split
  with_reducible refine Keeps.upd ?_
  with_reducible refine Keeps.step ?_ (raiseCause_keeps ..) rfl
  with_reducible refine Keeps.step ?_ (stackSet_keeps ..) rfl
  exact Keeps.refl _ _
  with_reducible refine Keeps.step ?_ (raiseCause_keeps ..) rfl
  with_reducible refine Keeps.step ?_ (stackSet_keeps ..) rfl
  exact Keeps.refl _ _
  split
  split
  with_reducible refine Keeps.upd ?_
  with_reducible refine Keeps.step ?_ (raiseCause_keeps ..) rfl
  with_reducible refine Keeps.step ?_ (stackSet_keeps ..) rfl
  exact Keeps.refl _ _
  with_reducible refine Keeps.step ?_ (raiseCause_keeps ..) rfl
  with_reducible refine Keeps.step ?_ (stackSet_keeps ..) rfl
  exact Keeps.refl _ _
  split
  with_reducible refine Keeps.upd ?_
  with_reducible refine Keeps.step ?_ (raiseCause_keeps ..) rfl
  with_reducible refine Keeps.step ?_ (stackSet_keeps ..) rfl
  exact Keeps.refl _ _
  with_reducible refine Keeps.step ?_ (raiseCause_keeps ..) rfl
  with_reducible refine Keeps.step ?_ (stackSet_keeps ..) rfl
  exact Keeps.refl _ _
  split
  split
  split
  with_reducible refine Keeps.upd ?_
  with_reducible refine Keeps.step ?_ (stackSet_keeps ..) rfl
  exact Keeps.refl _ _
  with_reducible refine Keeps.step ?_ (stackSet_keeps ..) rfl
  exact Keeps.refl _ _
  split
  with_reducible refine Keeps.upd ?_
  with_reducible refine Keeps.step ?_ (stackSet_keeps ..) rfl
  exact Keeps.refl _ _
  with_reducible refine Keeps.step ?_ (stackSet_keeps ..) rfl
  exact Keeps.refl _ _
  split
  split
  split
  with_reducible refine Keeps.upd ?_
  with_reducible refine Keeps.step ?_ (stackSet_keeps ..) rfl
  exact Keeps.refl _ _
  with_reducible refine Keeps.step ?_ (stackSet_keeps ..) rfl
  exact Keeps.refl _ _
  split
  with_reducible refine Keeps.upd ?_
  with_reducible refine Keeps.step ?_ (stackSet_keeps ..) rfl
  exact Keeps.refl _ _
  with_reducible refine Keeps.step ?_ (stackSet_keeps ..) rfl
  exact Keeps.refl _ _
  split
  split
  with_reducible refine Keeps.upd ?_
  with_reducible refine Keeps.step ?_ (stackSet_keeps ..) rfl
  exact Keeps.refl _ _
  with_reducible refine Keeps.step ?_ (stackSet_keeps ..) rfl
  exact Keeps.refl _ _
  split
  with_reducible refine Keeps.upd ?_
  with_reducible refine Keeps.step ?_ (stackSet_keeps ..) rfl
  exact Keeps.refl _ _
  with_reducible refine Keeps.step ?_ (stackSet_keeps ..) rfl
  exact Keeps.refl _ _

theorem execStackTempReport_keeps (stack : Stack) (temp : BitVec 8) (s : State) :
    KeepsOut [.pins, .power, .boot, .flash, .tb, .regs, .port, .link, .ingress, .belay, .cfg, .lines, .hitches, .lineArb, .braidArb, .vecArb, .splArb, .strands, .mem, .tiers, .eng, .refresh, .stackSt, .gov, .net, .wfc, .pmu] s (execStackTempReport stack temp s) := by
  unfold execStackTempReport
  dsimp only
  split
  with_reducible refine KeepsOut.next ?_
  exact Keeps.refl _ _
  with_reducible refine KeepsOut.next ?_
  split
  with_reducible refine Keeps.step ?_ (trip_keeps ..) rfl
  with_reducible refine Keeps.step ?_ (thermalReport_keeps ..) rfl
  with_reducible refine Keeps.step ?_ (stackSet_keeps ..) rfl
  exact Keeps.refl _ _
  with_reducible refine Keeps.step ?_ (thermalReport_keeps ..) rfl
  with_reducible refine Keeps.step ?_ (stackSet_keeps ..) rfl
  exact Keeps.refl _ _

theorem execSensorTimeout_keeps (stack : Stack) (s : State) :
    KeepsOut [.regs, .port, .stackSt, .gov, .net, .pmu] s (execSensorTimeout stack s) := by
  unfold execSensorTimeout
  dsimp only
  split
  with_reducible refine KeepsOut.next ?_
  exact Keeps.refl _ _
  with_reducible refine KeepsOut.next ?_
  with_reducible refine Keeps.step ?_ (thermalReport_keeps ..) rfl
  split
  with_reducible refine Keeps.step ?_ (stackSet_keeps ..) rfl
  exact Keeps.refl _ _
  with_reducible refine Keeps.step ?_ (raiseCause_keeps ..) rfl
  with_reducible refine Keeps.step ?_ (stackSet_keeps ..) rfl
  exact Keeps.refl _ _

end Sys2Proof.Machine
end

