-- ==== Sys2Proof/Laws/KeepsPeerFrames.lean ====
section
/-! SUPPORT. What each operation of Machine/PeerFrames.lean may change, and that it keeps the stores canonical. -/

set_option Elab.async false

namespace Sys2Proof.Machine

open Sys2Proof

theorem execRepairReq_keeps (link : LinkNo) (f : Frame) (s : State) :
    KeepsOut [.regs, .port, .lines, .net, .pmu] s (execRepairReq link f s) := by
  unfold execRepairReq
  with_reducible refine seqRx_keeps _ _ _ _ _ rfl (fun _ => ?_)
  dsimp only
  split
  dsimp only
  with_reducible refine Keeps.step ?_ (sendFrame_keeps ..) rfl
  exact Keeps.refl _ _
  dsimp only
  with_reducible refine Keeps.foldl ?_ (fun _ _ _ => ?_)
  exact Keeps.refl _ _
  with_reducible refine Keeps.step ?_ (sendFrame_keeps ..) rfl
  assumption

theorem repairDone_keeps (s : State) (r : Repair) :
    Keeps [.regs, .port, .mem, .tiers, .net, .pmu] s (repairDone s r) := by
  unfold repairDone
  dsimp only
  with_reducible refine Keeps.step ?_ (syncChafe_keeps ..) rfl
  with_reducible refine Keeps.step ?_ (pmuAdd_keeps ..) rfl
  with_reducible refine Keeps.upd ?_
  with_reducible refine Keeps.step ?_ (htSet_keeps ..) rfl
  with_reducible refine Keeps.foldl ?_ (fun _ _ _ => ?_)
  exact Keeps.refl _ _
  split
  with_reducible refine Keeps.step ?_ (storeAt_keeps ..) rfl
  assumption
  assumption

theorem execRepairRsp_keeps (link : LinkNo) (f : Frame) (s : State) :
    KeepsOut [.regs, .port, .lines, .mem, .tiers, .net, .pmu] s (execRepairRsp link f s) := by
  unfold execRepairRsp
  with_reducible refine seqRx_keeps _ _ _ _ _ rfl (fun _ => ?_)
  split
  dsimp only
  exact Keeps.refl _ _
  split
  dsimp only
  with_reducible refine Keeps.step ?_ (repairNext_keeps ..) rfl
  exact Keeps.refl _ _
  dsimp only
  split
  split
  with_reducible refine Keeps.step ?_ (repairDone_keeps ..) rfl
  with_reducible refine Keeps.upd ?_
  exact Keeps.refl _ _
  with_reducible refine Keeps.upd ?_
  exact Keeps.refl _ _
  split
  with_reducible refine Keeps.step ?_ (repairDone_keeps ..) rfl
  with_reducible refine Keeps.upd ?_
  exact Keeps.refl _ _
  with_reducible refine Keeps.upd ?_
  exact Keeps.refl _ _

theorem execRepairTimeout_keeps (name : DevAddr) (s : State) :
    KeepsOut [.regs, .port, .tiers, .net, .pmu] s (execRepairTimeout name s) := by
  unfold execRepairTimeout
  dsimp only
  split
  split
  with_reducible refine KeepsOut.next ?_
  with_reducible refine Keeps.step ?_ (repairFail_keeps ..) rfl
  exact Keeps.refl _ _
  with_reducible refine KeepsOut.next ?_
  exact Keeps.refl _ _
  with_reducible refine KeepsOut.next ?_
  exact Keeps.refl _ _

theorem putAnswer_keeps (s : State) (f : Frame) (a : W64) :
    Keeps [.regs, .port, .net, .pmu] s (putAnswer s f a) := by
  unfold putAnswer
  with_reducible refine Keeps.step ?_ (sendFrame_keeps ..) rfl
  exact Keeps.refl _ _

theorem putPiece_keeps (s : State) (a : Nat) (bs : List Byte) (mark : Bool) :
    Keeps [.regs, .port, .lines, .mem, .tiers, .net, .pmu] s (putPiece s a bs mark) := by
  unfold putPiece
  split
  with_reducible refine Keeps.step ?_ (badAccess_keeps ..) rfl
  exact Keeps.refl _ _
  with_reducible refine Keeps.step ?_ (devWrite_keeps ..) rfl
  exact Keeps.refl _ _

theorem putPieces_keeps (s : State) (f : Frame) :
    Keeps [.regs, .port, .lines, .mem, .tiers, .net, .pmu] s (putPieces s f) := by
  unfold putPieces
  with_reducible refine Keeps.foldl ?_ (fun _ _ _ => ?_)
  exact Keeps.refl _ _
  with_reducible refine Keeps.step ?_ (putPiece_keeps ..) rfl
  assumption

theorem owe_keeps (s : State) (f : Frame) :
    Keeps [.net] s (owe s f) := by
  unfold owe
  with_reducible refine Keeps.upd ?_
  exact Keeps.refl _ _

theorem execPut_keeps (link : LinkNo) (f : Frame) (s : State) :
    KeepsOut [.regs, .port, .lines, .mem, .tiers, .net, .pmu] s (execPut link f s) := by
  unfold execPut
  with_reducible refine seqRx_keeps _ _ _ _ _ rfl (fun _ => ?_)
  split
  dsimp only
  split
  with_reducible refine Keeps.step ?_ (owe_keeps ..) rfl
  with_reducible refine Keeps.step ?_ (putPieces_keeps ..) rfl
  exact Keeps.refl _ _
  with_reducible refine Keeps.step ?_ (putAnswer_keeps ..) rfl
  with_reducible refine Keeps.step ?_ (putPieces_keeps ..) rfl
  exact Keeps.refl _ _
  dsimp only
  with_reducible refine Keeps.step ?_ (putAnswer_keeps ..) rfl
  exact Keeps.refl _ _

theorem execPutAck_keeps (link : LinkNo) (f : Frame) (s : State) :
    KeepsOut [.regs, .port, .lines, .hitches, .mem, .tiers, .net, .pmu] s (execPutAck link f s) := by
  unfold execPutAck
  with_reducible refine seqRx_keeps _ _ _ _ _ rfl (fun _ => ?_)
  split
  dsimp only
  exact Keeps.refl _ _
  split
  split
  dsimp only
  with_reducible refine Keeps.step ?_ (snapEnd_keeps ..) rfl
  exact Keeps.refl _ _
  dsimp only
  exact Keeps.refl _ _
  dsimp only
  with_reducible refine Keeps.step ?_ (snFinish_keeps ..) rfl
  with_reducible refine Keeps.step ?_ (putSet_keeps ..) rfl
  exact Keeps.refl _ _

theorem flushAnswer_keeps (s : State) (f : Frame) :
    Keeps [.regs, .port, .net, .pmu] s (flushAnswer s f) := by
  unfold flushAnswer
  with_reducible refine Keeps.step ?_ (sendFrame_keeps ..) rfl
  exact Keeps.refl _ _

theorem execFlush_keeps (link : LinkNo) (f : Frame) (s : State) :
    KeepsOut [.regs, .port, .lines, .net, .pmu] s (execFlush link f s) := by
  unfold execFlush
  with_reducible refine seqRx_keeps _ _ _ _ _ rfl (fun _ => ?_)
  dsimp only
  split
  with_reducible refine Keeps.step ?_ (owe_keeps ..) rfl
  exact Keeps.refl _ _
  with_reducible refine Keeps.step ?_ (flushAnswer_keeps ..) rfl
  exact Keeps.refl _ _

theorem answerOwed_keeps (s : State) :
    Keeps [.regs, .port, .net, .pmu] s (answerOwed s) := by
  unfold answerOwed
  with_reducible refine Keeps.foldl ?_ (fun _ _ _ => ?_)
  exact Keeps.refl _ _
  dsimp only
  split
  split
  assumption
  with_reducible refine Keeps.step ?_ (putAnswer_keeps ..) rfl
  with_reducible refine Keeps.upd ?_
  assumption
  split
  assumption
  with_reducible refine Keeps.step ?_ (flushAnswer_keeps ..) rfl
  with_reducible refine Keeps.upd ?_
  assumption

theorem execFlushAck_keeps (link : LinkNo) (f : Frame) (s : State) :
    KeepsOut [.regs, .port, .lines, .net, .pmu] s (execFlushAck link f s) := by
  unfold execFlushAck
  with_reducible refine seqRx_keeps _ _ _ _ _ rfl (fun _ => ?_)
  dsimp only
  with_reducible refine Keeps.upd ?_
  exact Keeps.refl _ _

end Sys2Proof.Machine
end

