-- ==== Sys2Proof/Laws/KeepsTick.lean ====
section
/-! SUPPORT. What each operation of Machine/Tick.lean may change, and that it keeps the stores canonical. -/

set_option Elab.async false

namespace Sys2Proof.Machine

open Sys2Proof

theorem bookSlot_keeps (strand : Nat) (s : State) (x : Slot) :
    Keeps [.regs, .port, .strands, .pmu] s (bookSlot strand s x) := by
  unfold bookSlot
  split <;> first
    | exact (Keeps.refl _ s).step (pmuAdd_keeps ..) rfl
    | exact (Keeps.refl _ s).step (tileSet_keeps ..) rfl

theorem bookStrand_keeps (s : State) (strand : Nat) :
    Keeps [.regs, .port, .strands, .pmu] s (bookStrand s strand) := by
  unfold bookStrand
  exact Keeps.foldl (Keeps.refl _ _) (fun u a hu => hu.step (bookSlot_keeps ..) rfl)

theorem bookArrays_keeps (s : State) :
    Keeps [.regs, .port, .strands, .pmu] s (bookArrays s) := by
  unfold bookArrays
  with_reducible refine Keeps.foldl ?_ (fun _ _ _ => ?_)
  exact Keeps.refl _ _
  with_reducible refine Keeps.step ?_ (bookStrand_keeps ..) rfl
  assumption

theorem bookTimes_keeps (n : Nat) (s : State) :
    Keeps [.regs, .port, .strands, .pmu] s (bookTimes s n) := by
  induction n generalizing s with
  | zero => exact Keeps.refl _ _
  | succ k ih => exact (bookArrays_keeps s).trans' (ih _)

theorem nsCount_keeps (c : Bool) (code : Nat) (s : State) :
    Keeps [.regs, .port, .pmu] s (nsCount c code s) := by
  unfold nsCount
  split
  with_reducible refine Keeps.step ?_ (pmuAdd_keeps ..) rfl
  exact Keeps.refl _ _
  exact Keeps.refl _ _

theorem nsCounts_keeps (s : State) :
    Keeps [.regs, .port, .pmu] s (nsCounts s) := by
  unfold nsCounts
  dsimp only
  with_reducible refine Keeps.foldl ?_ (fun _ _ _ => ?_)
  with_reducible refine Keeps.foldl ?_ (fun _ _ _ => ?_)
  with_reducible refine Keeps.step ?_ (nsCount_keeps ..) rfl
  with_reducible refine Keeps.step ?_ (nsCount_keeps ..) rfl
  exact Keeps.refl _ _
  with_reducible refine Keeps.step ?_ (nsCount_keeps ..) rfl
  assumption
  with_reducible refine Keeps.step ?_ (nsCount_keeps ..) rfl
  assumption

theorem openTraffic_keeps (s : State) :
    Keeps [.regs, .port, .pmu] s (openTraffic s) := by
  unfold openTraffic
  with_reducible refine Keeps.foldl ?_ (fun _ _ _ => ?_)
  exact Keeps.refl _ _
  with_reducible refine Keeps.step ?_ (pmuAdd_keeps ..) rfl
  assumption

theorem fecTick_keeps (s : State) :
    Keeps [.net] s (fecTick s) := by
  unfold fecTick
  with_reducible refine Keeps.foldl ?_ (fun _ _ _ => ?_)
  exact Keeps.refl _ _
  with_reducible refine Keeps.step ?_ (linkSet_keeps ..) rfl
  assumption

theorem nipTick_keeps (s : State) :
    Keeps [.pmu] s (nipTick s) := by
  unfold nipTick
  split
  split
  with_reducible refine Keeps.upd ?_
  exact Keeps.refl _ _
  exact Keeps.refl _ _
  exact Keeps.refl _ _

theorem tick_keeps (s : State) :
    Keeps [.free, .clk, .tb, .regs, .port, .strands, .net, .pmu] s (tick s) := by
  unfold tick
  extract_lets src tb s1
  have h1 : Keeps [.free, .clk, .tb, .regs, .port, .strands, .net, .pmu] s s1 := (((Keeps.refl _ _).step (bookTimes_keeps ..) rfl).step (nsCounts_keeps ..) rfl).step
    (openTraffic_keeps ..) rfl |>.step (fecTick_keeps ..) rfl
  clear_value s1 tb
  split
  · refine Keeps.step ?_ (nipTick_keeps ..) rfl
    exact Keeps.upd h1
  · exact Keeps.upd (Keeps.refl _ _)

end Sys2Proof.Machine
end

