-- ==== Sys2Proof/Laws/KeepsPmu.lean ====
section
/-! SUPPORT. What each operation of Machine/Pmu.lean may change, and that it keeps the stores canonical. -/

set_option Elab.async false

namespace Sys2Proof.Machine

open Sys2Proof

theorem nipAsk_keeps (s : State) (align : Nat) :
    Keeps [.pmu] s (nipAsk s align).1 := by
  rw [nipAsk]
  split
  dsimp only
  with_reducible refine Keeps.upd ?_
  exact Keeps.refl _ _
  dsimp only
  with_reducible refine Keeps.upd ?_
  exact Keeps.refl _ _

theorem nipRequestNow_keeps (alignLog2 : BitVec 5) (s : State) :
    KeepsOut [.pmu] s (nipRequestNow alignLog2 s) := by
  unfold nipRequestNow
  dsimp only
  split
  with_reducible refine KeepsOut.next ?_
  with_reducible refine Keeps.step ?_ (nipAsk_keeps ..) rfl
  exact Keeps.refl _ _
  with_reducible refine KeepsOut.next ?_
  exact Keeps.refl _ _

theorem execNipRequest_keeps (alignLog2 : BitVec 5) (s : State) :
    KeepsOut [.ingress, .pmu] s (execNipRequest alignLog2 s) := by
  unfold execNipRequest
  with_reducible refine hostLane_keeps _ _ _ rfl (fun _ => ?_)
  refine KeepsOut.mono (nipRequestNow_keeps _ _) ?_
  rfl

theorem execNipCapture_keeps (s : State) :
    KeepsOut [.regs, .port, .pmu] s (execNipCapture s) := by
  unfold execNipCapture
  split
  split
  dsimp only
  with_reducible refine KeepsOut.next ?_
  with_reducible refine Keeps.step ?_ (raiseCause_keeps ..) rfl
  with_reducible refine Keeps.upd ?_
  exact Keeps.refl _ _
  with_reducible refine KeepsOut.next ?_
  exact Keeps.refl _ _
  with_reducible refine KeepsOut.next ?_
  exact Keeps.refl _ _

theorem knotAsk_keeps (s : State) (d : BitVec 512) :
    Keeps [.pmu] s (if knNip d then nipAsk s (knAlign d) else (s, none)).1 := by
  split
  · exact nipAsk_keeps ..
  · exact Keeps.refl _ _

theorem knotRun_keeps (s : State) (n : Nat) (o : OpEnt) :
    Keeps [.regs, .port, .lines, .hitches, .mem, .tiers, .net, .pmu] s (knotRun s n o) := by
  unfold knotRun
  have h1 := knotAsk_keeps s o.desc
  generalize hq : (if knNip o.desc then nipAsk s (knAlign o.desc) else (s, none)) = q at h1
  have h1' : Keeps [.regs, .port, .lines, .hitches, .mem, .tiers, .net, .pmu] s q.1 := h1.mono rfl
  extract_lets d q' s1 st t o1 base tail s2 s3 p3 s4
  have hq' : q' = q := hq
  have hs1 : Keeps [.regs, .port, .lines, .hitches, .mem, .tiers, .net, .pmu] s s1 := by dsimp only [s1]; rw [hq']; exact h1'
  clear_value s1
  split
  · exact hs1.step (finishOp_keeps ..) rfl
  · have h3 : Keeps [.regs, .port, .lines, .hitches, .mem, .tiers, .net, .pmu] s s3 := (hs1.step (putStruct_keeps ..) rfl).step (putStruct_keeps ..) rfl
    clear_value s3
    have h4 : Keeps [.regs, .port, .lines, .hitches, .mem, .tiers, .net, .pmu] s s4 := Keeps.upd h3
    exact h4.step (finishOp_keeps ..) rfl

theorem execKnot_keeps (line : LineNo) (s : State) :
    KeepsOut [.regs, .port, .lines, .hitches, .mem, .tiers, .eng, .net, .pmu] s (execKnot line s) := by
  unfold execKnot
  dsimp only
  with_reducible refine onDispatch_keeps _ _ _ _ rfl (fun _ => ?_)
  split
  with_reducible refine Keeps.step ?_ (noteWaits_keeps ..) rfl
  exact Keeps.refl _ _
  with_reducible refine Keeps.step ?_ (knotRun_keeps ..) rfl
  with_reducible refine Keeps.step ?_ (noteAccess_keeps ..) rfl
  exact Keeps.refl _ _

theorem execSummaryPass_keeps (s : State) :
    KeepsOut [.regs, .port, .lines, .mem, .tiers, .net, .pmu] s (execSummaryPass s) := by
  unfold execSummaryPass
  extract_lets base p now s1 s2 s3 p3
  have h3 : Keeps [.regs, .port, .lines, .mem, .tiers, .net, .pmu] s s3 :=
    (((Keeps.refl _ _).step (putStruct_keeps ..) rfl).step (putStruct_keeps ..) rfl).step (putStruct_keeps ..) rfl
  clear_value p3
  clear_value s3
  split
  · exact KeepsOut.next (Keeps.upd h3)
  · exact KeepsOut.next (Keeps.refl _ _)

end Sys2Proof.Machine
end

