-- ==== Sys2Proof/Laws/KeepsRegView.lean ====
section
/-! SUPPORT. What each operation of Machine/RegView.lean may change, and that it keeps the stores canonical. -/

set_option Elab.async false

namespace Sys2Proof.Machine

open Sys2Proof

theorem stackClear_keeps (s : State) (st : Nat) (h : Nat) :
    Keeps [.stackSt] s (stackClear s st h) := by
  unfold stackClear
  dsimp only
  with_reducible refine Keeps.step ?_ (stackSet_keeps ..) rfl
  exact Keeps.refl _ _

theorem linkClear_keeps (s : State) (k : Nat) (h : Nat) :
    Keeps [.net] s (linkClear s k h) := by
  unfold linkClear
  dsimp only
  with_reducible refine Keeps.step ?_ (linkSet_keeps ..) rfl
  exact Keeps.refl _ _

/-- What a read clears, whichever register it reads. -/
theorem rdRegs_keeps : ∀ r ∈ rdRegs, ∀ (s : State) (i h : Nat),
    Keeps [.port, .link, .tiers, .eng, .stackSt, .net, .wfc, .pmu] s (r.clr s i h) := by
  unfold rdRegs cfgRegs bootRegs lineRegs unitRegs tierRegs rowlRegs lnkRegs hstRegs pmuRegs pwrRegs
  simp only [List.forall_mem_append, List.forall_mem_cons]
  refine ⟨⟨⟨⟨⟨⟨⟨⟨⟨?_, ?_⟩, ?_⟩, ?_⟩, ?_⟩, ?_⟩, ?_⟩, ?_⟩, ?_⟩, ?_⟩
  all_goals repeat' apply And.intro
  all_goals first
    | exact fun r hr => absurd hr (List.not_mem_nil)
    | (intro s i h
       first
         | exact Keeps.refl _ s
         | exact Keeps.upd (Keeps.refl _ s)
         | exact (Keeps.refl _ s).step (stackClear_keeps ..) rfl
         | exact (Keeps.refl _ s).step (linkClear_keeps ..) rfl
         | (split <;> first
             | exact Keeps.refl _ s
             | exact Keeps.upd (Keeps.refl _ s)))

theorem clearWord_keeps (s : State) (off : Nat) :
    Keeps [.port, .link, .tiers, .eng, .stackSt, .net, .wfc, .pmu] s (clearWord s off) := by
  unfold clearWord
  split
  · rename_i r hr
    exact rdRegs_keeps r (List.mem_of_find?_eq_some hr) ..
  · exact Keeps.refl _ _

end Sys2Proof.Machine
end

