-- ==== Sys2Proof/Laws/KeepsWfc.lean ====
section
/-! SUPPORT. What each operation of Machine/Wfc.lean may change, and that it keeps the stores canonical. -/

set_option Elab.async false

namespace Sys2Proof.Machine

open Sys2Proof

theorem execWfcScan_keeps (s : State) :
    KeepsOut [.regs, .port, .wfc, .pmu] s (execWfcScan s) := by
  unfold execWfcScan
  split
  dsimp only
  split
  with_reducible refine KeepsOut.next ?_
  with_reducible refine Keeps.upd ?_
  exact Keeps.refl _ _
  split
  with_reducible refine KeepsOut.next ?_
  with_reducible refine Keeps.upd ?_
  exact Keeps.refl _ _
  with_reducible refine KeepsOut.next ?_
  with_reducible refine Keeps.step ?_ (raiseCause_keeps ..) rfl
  with_reducible refine Keeps.upd ?_
  exact Keeps.refl _ _
  with_reducible refine KeepsOut.next ?_
  exact Keeps.refl _ _

end Sys2Proof.Machine
end

