-- ==== Sys2Proof/Laws/KeepsRegFile.lean ====
section
/-! SUPPORT. What each operation of Machine/RegFile.lean may change, and that it keeps the stores canonical. -/

set_option Elab.async false

namespace Sys2Proof.Machine

open Sys2Proof

/-- What a command leaves, where the command's outcome keeps the frame. -/
theorem Keeps.outThen {ps : List Part} {s t : State} {o : Out} (h : Keeps ps s t) (ho : KeepsOut ps t o) :
    Keeps ps s (after o t) := by
  unfold after
  split
  · exact h.trans' (ho _ rfl)
  · exact h

theorem countBadMmio_keeps (s : State) :
    Keeps [.port] s (countBadMmio s) := by
  unfold countBadMmio
  exact Keeps.upd (Keeps.refl _ _)

theorem unreached_keeps (s : State) :
    Keeps [.port] s (unreached s) := by
  unfold unreached
  split
  with_reducible refine Keeps.step ?_ (portOut_keeps ..) rfl
  exact Keeps.refl _ _
  exact Keeps.refl _ _

theorem coilStage_keeps (s : State) (off : Nat) (v : W32) :
    Keeps [.cfg] s (coilStage s off v) := by
  unfold coilStage
  dsimp only
  with_reducible refine Keeps.upd ?_
  exact Keeps.refl _ _

theorem countWrites_keeps (s : State) (n : Nat) :
    Keeps [.cfg] s (countWrites s n) := by
  unfold countWrites
  with_reducible refine Keeps.upd ?_
  exact Keeps.refl _ _

theorem stageAccess_keeps (s : State) (off : Nat) (size : Nat) (val : W64) :
    Keeps [.cfg] s (stageAccess s off size val) := by
  unfold stageAccess
  dsimp only
  split
  with_reducible refine Keeps.step ?_ (coilStage_keeps ..) rfl
  split
  with_reducible refine Keeps.step ?_ (coilStage_keeps ..) rfl
  exact Keeps.refl _ _
  exact Keeps.refl _ _
  split
  with_reducible refine Keeps.step ?_ (coilStage_keeps ..) rfl
  exact Keeps.refl _ _
  exact Keeps.refl _ _

theorem coilStageWriteNow_keeps (off : BitVec 26) (size : Nat) (val : W64) (s : State) :
    KeepsOut [.cfg] s (coilStageWriteNow off size val s) := by
  unfold coilStageWriteNow
  dsimp only
  split
  with_reducible refine KeepsOut.next ?_
  with_reducible refine Keeps.step ?_ (countWrites_keeps ..) rfl
  with_reducible refine Keeps.step ?_ (stageAccess_keeps ..) rfl
  exact Keeps.refl _ _
  with_reducible refine KeepsOut.next ?_
  exact Keeps.refl _ _

theorem execCoilStageWrite_keeps (off : BitVec 26) (size : Nat) (val : W64) (s : State) :
    KeepsOut [.ingress, .cfg] s (execCoilStageWrite off size val s) := by
  unfold execCoilStageWrite
  with_reducible refine hostLane_keeps _ _ _ rfl (fun _ => ?_)
  refine KeepsOut.mono (coilStageWriteNow_keeps _ _ _ _) ?_
  rfl

theorem irqCauseClearNow_keeps (val : W32) (s : State) :
    KeepsOut [.regs, .port, .pmu] s (irqCauseClearNow val s) := by
  unfold irqCauseClearNow
  split
  with_reducible refine KeepsOut.next ?_
  with_reducible refine Keeps.step ?_ (setIrq_keeps ..) rfl
  exact Keeps.refl _ _
  with_reducible refine KeepsOut.next ?_
  exact Keeps.refl _ _

theorem execIrqCauseClear_keeps (val : W32) (s : State) :
    KeepsOut [.regs, .port, .ingress, .pmu] s (execIrqCauseClear val s) := by
  unfold execIrqCauseClear
  with_reducible refine hostLane_keeps _ _ _ rfl (fun _ => ?_)
  refine KeepsOut.mono (irqCauseClearNow_keeps _ _) ?_
  rfl

theorem irqEnableWriteNow_keeps (val : W32) (s : State) :
    KeepsOut [.regs, .port, .pmu] s (irqEnableWriteNow val s) := by
  unfold irqEnableWriteNow
  split
  with_reducible refine KeepsOut.next ?_
  with_reducible refine Keeps.step ?_ (setIrq_keeps ..) rfl
  exact Keeps.refl _ _
  with_reducible refine KeepsOut.next ?_
  exact Keeps.refl _ _

theorem execIrqEnableWrite_keeps (val : W32) (s : State) :
    KeepsOut [.regs, .port, .ingress, .pmu] s (execIrqEnableWrite val s) := by
  unfold execIrqEnableWrite
  with_reducible refine hostLane_keeps _ _ _ rfl (fun _ => ?_)
  refine KeepsOut.mono (irqEnableWriteNow_keeps _ _) ?_
  rfl

theorem wfcReleaseNow_keeps (val : W32) (s : State) :
    KeepsOut [.wfc] s (wfcReleaseNow val s) := by
  unfold wfcReleaseNow
  split
  with_reducible refine KeepsOut.next ?_
  with_reducible refine Keeps.upd ?_
  exact Keeps.refl _ _
  with_reducible refine KeepsOut.next ?_
  exact Keeps.refl _ _

theorem execWfcRelease_keeps (val : W32) (s : State) :
    KeepsOut [.ingress, .wfc] s (execWfcRelease val s) := by
  unfold execWfcRelease
  with_reducible refine hostLane_keeps _ _ _ rfl (fun _ => ?_)
  refine KeepsOut.mono (wfcReleaseNow_keeps _ _) ?_
  rfl

theorem haltedClearNow_keeps (account : Acct) (val : W32) (s : State) :
    KeepsOut [.port, .lines, .tiers, .pmu] s (haltedClearNow account val s) := by
  unfold haltedClearNow
  split
  with_reducible refine KeepsOut.next ?_
  with_reducible refine Keeps.step ?_ (noteAll_keeps ..) rfl
  with_reducible refine Keeps.upd ?_
  exact Keeps.refl _ _
  with_reducible refine KeepsOut.next ?_
  exact Keeps.refl _ _

theorem execHaltedClear_keeps (account : Acct) (val : W32) (s : State) :
    KeepsOut [.port, .ingress, .lines, .tiers, .pmu] s (execHaltedClear account val s) := by
  unfold execHaltedClear
  with_reducible refine hostLane_keeps _ _ _ rfl (fun _ => ?_)
  refine KeepsOut.mono (haltedClearNow_keeps _ _ _) ?_
  rfl

theorem svnCommitNow_keeps (val : W32) (s : State) :
    KeepsOut [.fuses] s (svnCommitNow val s) := by
  unfold svnCommitNow
  split
  with_reducible refine KeepsOut.next ?_
  with_reducible refine Keeps.upd ?_
  exact Keeps.refl _ _
  with_reducible refine KeepsOut.next ?_
  exact Keeps.refl _ _

theorem execSvnCommit_keeps (val : W32) (s : State) :
    KeepsOut [.fuses, .ingress] s (execSvnCommit val s) := by
  unfold execSvnCommit
  with_reducible refine hostLane_keeps _ _ _ rfl (fun _ => ?_)
  refine KeepsOut.mono (svnCommitNow_keeps _ _) ?_
  rfl

theorem peerClearNow_keeps (device : BitVec 14) (val : W32) (s : State) :
    KeepsOut [.net] s (peerClearNow device val s) := by
  unfold peerClearNow
  dsimp only
  split
  with_reducible refine KeepsOut.next ?_
  with_reducible refine Keeps.step ?_ (peerSet_keeps ..) rfl
  exact Keeps.refl _ _
  with_reducible refine KeepsOut.next ?_
  exact Keeps.refl _ _

theorem execPeerClear_keeps (device : BitVec 14) (val : W32) (s : State) :
    KeepsOut [.ingress, .net] s (execPeerClear device val s) := by
  unfold execPeerClear
  with_reducible refine hostLane_keeps _ _ _ rfl (fun _ => ?_)
  refine KeepsOut.mono (peerClearNow_keeps _ _ _) ?_
  rfl

theorem homeTableLookupNow_keeps (name : DevAddr) (s : State) :
    KeepsOut [.regs] s (homeTableLookupNow name s) := by
  unfold homeTableLookupNow
  split
  dsimp only
  with_reducible refine KeepsOut.next ?_
  with_reducible refine Keeps.upd ?_
  exact Keeps.refl _ _
  with_reducible refine KeepsOut.next ?_
  exact Keeps.refl _ _

theorem execHomeTableLookup_keeps (name : DevAddr) (s : State) :
    KeepsOut [.regs, .ingress] s (execHomeTableLookup name s) := by
  unfold execHomeTableLookup
  with_reducible refine hostLane_keeps _ _ _ rfl (fun _ => ?_)
  refine KeepsOut.mono (homeTableLookupNow_keeps _ _) ?_
  rfl

theorem woIssue_keeps (s : State) (b : Nat) (lo : W32) (hi : W32) :
    KeepsOut [.free, .regs, .port, .ingress, .belay, .lines, .hitches, .strands, .mem, .tiers, .eng, .net, .pmu] s (woIssue s b lo hi) := by
  unfold woIssue
  split
  refine KeepsOut.mono (execLineHitchAdd_keeps _ _ _) ?_
  rfl
  split
  split
  refine KeepsOut.mono (execSuspend_keeps _ _) ?_
  rfl
  refine KeepsOut.mono (execResume_keeps _ _) ?_
  rfl
  refine KeepsOut.mono (execCancel_keeps _ _) ?_
  rfl
  with_reducible refine KeepsOut.next ?_
  exact Keeps.refl _ _
  dsimp only
  split
  refine KeepsOut.mono (execBelayImmediate_keeps _ _) ?_
  rfl
  refine KeepsOut.mono (execBelayAtBarrier_keeps _ _) ?_
  rfl
  refine KeepsOut.mono (execBelayForce_keeps _ _) ?_
  rfl
  refine KeepsOut.mono (execBelayCheck_keeps _ _) ?_
  rfl
  refine KeepsOut.mono (execRevert_keeps _) ?_
  rfl
  with_reducible refine KeepsOut.next ?_
  exact Keeps.refl _ _

theorem woHalfLatchNow_keeps (off : BitVec 26) (val : W32) (s : State) :
    KeepsOut [.regs] s (woHalfLatchNow off val s) := by
  unfold woHalfLatchNow
  split
  with_reducible refine KeepsOut.next ?_
  with_reducible refine Keeps.upd ?_
  exact Keeps.refl _ _
  with_reducible refine KeepsOut.next ?_
  exact Keeps.refl _ _

theorem execWoHalfLatch_keeps (off : BitVec 26) (val : W32) (s : State) :
    KeepsOut [.regs, .ingress] s (execWoHalfLatch off val s) := by
  unfold execWoHalfLatch
  with_reducible refine hostLane_keeps _ _ _ rfl (fun _ => ?_)
  refine KeepsOut.mono (woHalfLatchNow_keeps _ _ _) ?_
  rfl

theorem woCommand_keeps (s : State) (b : Nat) (lo : W32) (hi : W32) :
    Keeps [.free, .regs, .port, .ingress, .belay, .lines, .hitches, .strands, .mem, .tiers, .eng, .net, .pmu] s (woCommand s b lo hi) := by
  unfold woCommand
  dsimp only
  refine Keeps.outThen ?_ (KeepsOut.mono (woIssue_keeps _ _ _ _) rfl)
  with_reducible refine Keeps.upd ?_
  exact Keeps.refl _ _

theorem woWrite_keeps (s : State) (b : Nat) (off : Nat) (size : Nat) (val : W64) :
    Keeps [.free, .regs, .port, .ingress, .belay, .lines, .hitches, .strands, .mem, .tiers, .eng, .net, .pmu] s (woWrite s b off size val) := by
  unfold woWrite
  split
  with_reducible refine Keeps.step ?_ (woCommand_keeps ..) rfl
  exact Keeps.refl _ _
  split
  refine Keeps.outThen ?_ (KeepsOut.mono (execWoHalfLatch_keeps _ _ _) rfl)
  exact Keeps.refl _ _
  with_reducible refine Keeps.step ?_ (woCommand_keeps ..) rfl
  exact Keeps.refl _ _

theorem lineCmd_keeps (v : W32) (s : State) :
    Keeps [.port, .ingress, .lines, .pmu] s (lineCmd v s) := by
  unfold lineCmd
  split
  refine Keeps.outThen ?_ (KeepsOut.mono (execRestart_keeps _ _) rfl)
  exact Keeps.refl _ _
  refine Keeps.outThen ?_ (KeepsOut.mono (execBreak_keeps _ _) rfl)
  exact Keeps.refl _ _
  exact Keeps.refl _ _

theorem htNameHalf_keeps (half : Nat) (v : W32) (s : State) :
    Keeps [.regs, .ingress] s (htNameHalf half v s) := by
  unfold htNameHalf
  dsimp only
  refine Keeps.outThen ?_ (KeepsOut.mono (execHomeTableLookup_keeps _ _) rfl)
  exact Keeps.refl _ _

theorem chafeStatWrite_keeps (a : Nat) (v : W32) (s : State) :
    Keeps [.port, .ingress, .lines, .tiers, .pmu] s (chafeStatWrite a v s) := by
  unfold chafeStatWrite
  extract_lets t1 s1
  have h1 : Keeps [.port, .ingress, .lines, .tiers, .pmu] s s1 := by
    dsimp only [s1]
    split
    · exact Keeps.upd (Keeps.refl _ _)
    · exact Keeps.refl _ _
  clear_value s1
  exact h1.outThen ((execHaltedClear_keeps _ _ _).mono rfl)

theorem sensorErrWrite_keeps (st : Nat) (v : W32) (s : State) :
    Keeps [.stackSt] s (sensorErrWrite st v s) := by
  unfold sensorErrWrite
  split
  with_reducible refine Keeps.step ?_ (stackSet_keeps ..) rfl
  exact Keeps.refl _ _
  exact Keeps.refl _ _

theorem msixWrite_keeps (i : Nat) (v : W32) (s : State) :
    Keeps [.port, .ingress, .pmu] s (msixWrite i v s) := by
  unfold msixWrite
  extract_lets k p0 put
  have hp : ∀ f, Keeps [.port, .ingress, .pmu] s (put f) := fun f => Keeps.upd (Keeps.refl _ _)
  clear_value put
  split
  · exact hp _
  · exact hp _
  · exact hp _
  · split
    · exact hp _
    · split
      · exact (Keeps.refl _ _).outThen ((execMsixUnmask_keeps _ _).mono rfl)
      · exact Keeps.refl _ _

theorem ovfWrite_keeps (i : Nat) (v : W32) (s : State) :
    Keeps [.pmu] s (ovfWrite i v s) := by
  unfold ovfWrite
  split
  with_reducible refine Keeps.upd ?_
  exact Keeps.refl _ _
  exact Keeps.refl _ _

/-- What a write does, whichever register it writes. -/
theorem wrRegs_keeps : ∀ r ∈ wrRegs, ∀ (i : Nat) (v : W32) (s : State),
    Keeps [.fuses, .boot, .tb, .regs, .port, .ingress, .belay, .lines, .tiers, .stackSt, .net, .wfc, .pmu] s (r.put i v s) := by
  unfold wrRegs
  simp only [List.forall_mem_cons]
  refine ⟨?_, ?_, ?_, ?_, ?_, ?_, ?_, ?_, ?_, ?_, ?_, ?_, ?_, ?_, ?_, ?_, ?_, ?_, ?_, ?_, ?_, ?_, ?_, ?_, fun r hr => absurd hr (List.not_mem_nil)⟩ <;> intro i v s
  · split <;> first
      | exact Keeps.refl _ s
      | exact Keeps.upd (Keeps.refl _ s)
  · split <;> first
      | exact Keeps.refl _ s
      | exact Keeps.upd (Keeps.refl _ s)
  · exact (Keeps.refl _ s).outThen ((execIrqCauseClear_keeps _ _).mono rfl)
  · exact (Keeps.refl _ s).outThen ((execIrqEnableWrite_keeps _ _).mono rfl)
  · exact (Keeps.refl _ s).outThen ((execSvnCommit_keeps _ _).mono rfl)
  · exact Keeps.upd (Keeps.refl _ s)
  · exact Keeps.upd (Keeps.refl _ s)
  · exact Keeps.upd (Keeps.refl _ s)
  · exact Keeps.upd (Keeps.refl _ s)
  · exact (Keeps.refl _ s).step (lineCmd_keeps ..) rfl
  · exact (Keeps.refl _ s).outThen ((execWfcRelease_keeps _ _).mono rfl)
  · exact Keeps.upd (Keeps.refl _ s)
  · split <;> first
      | exact Keeps.refl _ s
      | exact Keeps.upd (Keeps.refl _ s)
  · exact (Keeps.refl _ s).step (chafeStatWrite_keeps ..) rfl
  · exact (Keeps.refl _ s).step (htNameHalf_keeps ..) rfl
  · exact (Keeps.refl _ s).step (sensorErrWrite_keeps ..) rfl
  · exact (Keeps.refl _ s).step (sensorErrWrite_keeps ..) rfl
  · split <;> first
      | exact Keeps.refl _ s
      | exact Keeps.upd (Keeps.refl _ s)
  · exact (Keeps.refl _ s).outThen ((execPeerClear_keeps _ _ _).mono rfl)
  · exact (Keeps.refl _ s).step (msixWrite_keeps ..) rfl
  · exact (Keeps.refl _ s).step (ovfWrite_keeps ..) rfl
  · split
    · exact (Keeps.refl _ s).outThen ((execNipRequest_keeps _ _).mono rfl)
    · exact Keeps.refl _ s
  · exact Keeps.upd (Keeps.refl _ s)
  · exact Keeps.upd (Keeps.refl _ s)

theorem writeWord_keeps (s : State) (off : Nat) (v : W32) :
    Keeps [.fuses, .boot, .tb, .regs, .port, .ingress, .belay, .lines, .tiers, .stackSt, .net, .wfc, .pmu] s (writeWord s off v) := by
  unfold writeWord
  split
  · rename_i r hr
    exact wrRegs_keeps r (List.mem_of_find?_eq_some hr) ..
  · exact Keeps.refl _ _

theorem actViewWriteNow_keeps (off : BitVec 26) (size : Nat) (_val : W64) (s : State) :
    KeepsOut [.port] s (actViewWriteNow off size _val s) := by
  unfold actViewWriteNow
  split
  with_reducible refine KeepsOut.next ?_
  with_reducible refine Keeps.step ?_ (unreached_keeps ..) rfl
  exact Keeps.refl _ _
  split
  with_reducible refine KeepsOut.next ?_
  with_reducible refine Keeps.step ?_ (countBadMmio_keeps ..) rfl
  exact Keeps.refl _ _
  with_reducible refine KeepsOut.next ?_
  exact Keeps.refl _ _

theorem execActViewWrite_keeps (off : BitVec 26) (size : Nat) (val : W64) (s : State) :
    KeepsOut [.port, .ingress] s (execActViewWrite off size val s) := by
  unfold execActViewWrite
  with_reducible refine hostLane_keeps _ _ _ rfl (fun _ => ?_)
  refine KeepsOut.mono (actViewWriteNow_keeps _ _ _ _) ?_
  rfl

theorem regOut_keeps (s : State) (size : Nat) (v : W64) :
    Keeps [.port] s (regOut s size v) := by
  unfold regOut
  with_reducible refine Keeps.step ?_ (portOut_keeps ..) rfl
  exact Keeps.refl _ _

theorem execBadMmioAccess_keeps (bar : Bar) (write : Bool) (off : BitVec 26) (size : Nat) (s : State) :
    KeepsOut [.port] s (execBadMmioAccess bar write off size s) := by
  unfold execBadMmioAccess
  dsimp only
  split
  with_reducible refine KeepsOut.next ?_
  with_reducible refine Keeps.step ?_ (unreached_keeps ..) rfl
  exact Keeps.refl _ _
  split
  split
  with_reducible refine KeepsOut.next ?_
  exact Keeps.refl _ _
  with_reducible refine KeepsOut.next ?_
  with_reducible refine Keeps.step ?_ (countBadMmio_keeps ..) rfl
  split
  exact Keeps.refl _ _
  with_reducible refine Keeps.step ?_ (regOut_keeps ..) rfl
  exact Keeps.refl _ _
  split
  with_reducible refine KeepsOut.next ?_
  split
  exact Keeps.refl _ _
  with_reducible refine Keeps.step ?_ (regOut_keeps ..) rfl
  exact Keeps.refl _ _
  with_reducible refine KeepsOut.next ?_
  with_reducible refine Keeps.step ?_ (countBadMmio_keeps ..) rfl
  split
  exact Keeps.refl _ _
  with_reducible refine Keeps.step ?_ (regOut_keeps ..) rfl
  exact Keeps.refl _ _

theorem plainWrite_keeps (s : State) (off : Nat) (size : Nat) (val : W64) :
    Keeps [.free, .fuses, .boot, .tb, .regs, .port, .ingress, .belay, .lines, .hitches, .strands, .mem, .tiers, .eng, .stackSt, .net, .wfc, .pmu] s (plainWrite s off size val) := by
  unfold plainWrite
  split
  with_reducible refine Keeps.step ?_ (woWrite_keeps ..) rfl
  exact Keeps.refl _ _
  dsimp only
  split
  with_reducible refine Keeps.step ?_ (writeWord_keeps ..) rfl
  with_reducible refine Keeps.step ?_ (writeWord_keeps ..) rfl
  exact Keeps.refl _ _
  with_reducible refine Keeps.step ?_ (writeWord_keeps ..) rfl
  exact Keeps.refl _ _

theorem registerWriteNow_keeps (off : BitVec 26) (size : Nat) (val : W64) (s : State) :
    KeepsOut [.free, .fuses, .boot, .tb, .regs, .port, .ingress, .belay, .cfg, .lines, .hitches, .strands, .mem, .tiers, .eng, .stackSt, .net, .wfc, .pmu] s (registerWriteNow off size val s) := by
  unfold registerWriteNow
  dsimp only
  split
  with_reducible refine KeepsOut.next ?_
  with_reducible refine Keeps.step ?_ (unreached_keeps ..) rfl
  exact Keeps.refl _ _
  split
  refine KeepsOut.mono (execBadMmioAccess_keeps _ _ _ _ _) ?_
  rfl
  split
  refine KeepsOut.mono (execActViewWrite_keeps _ _ _ _) ?_
  rfl
  with_reducible refine KeepsOut.next ?_
  with_reducible refine Keeps.step ?_ (plainWrite_keeps ..) rfl
  refine Keeps.outThen ?_ (KeepsOut.mono (execCoilStageWrite_keeps _ _ _ _) rfl)
  exact Keeps.refl _ _

theorem execRegisterWrite_keeps (off : BitVec 26) (size : Nat) (val : W64) (s : State) :
    KeepsOut [.free, .fuses, .boot, .tb, .regs, .port, .ingress, .belay, .cfg, .lines, .hitches, .strands, .mem, .tiers, .eng, .stackSt, .net, .wfc, .pmu] s (execRegisterWrite off size val s) := by
  unfold execRegisterWrite
  with_reducible refine hostLane_keeps _ _ _ rfl (fun _ => ?_)
  refine KeepsOut.mono (registerWriteNow_keeps _ _ _ _) ?_
  rfl

theorem execTbNowLowerRead_keeps (s : State) :
    KeepsOut [.tb, .port] s (execTbNowLowerRead s) := by
  unfold execTbNowLowerRead
  split
  with_reducible refine KeepsOut.next ?_
  with_reducible refine Keeps.step ?_ (regOut_keeps ..) rfl
  with_reducible refine Keeps.upd ?_
  exact Keeps.refl _ _
  with_reducible refine KeepsOut.next ?_
  with_reducible refine Keeps.step ?_ (unreached_keeps ..) rfl
  exact Keeps.refl _ _

theorem tbUpperRead_keeps (s : State) :
    Keeps [.tb, .port] s (tbUpperRead s) := by
  unfold tbUpperRead
  dsimp only
  with_reducible refine Keeps.step ?_ (regOut_keeps ..) rfl
  with_reducible refine Keeps.upd ?_
  exact Keeps.refl _ _

theorem plainRead_keeps (s : State) (off : Nat) (size : Nat) :
    Keeps [.free, .port, .link, .tiers, .eng, .stackSt, .net, .wfc, .pmu] s (plainRead s off size) := by
  unfold plainRead
  dsimp only
  with_reducible refine Keeps.step ?_ (drawn_keeps ..) rfl
  split
  with_reducible refine Keeps.step ?_ (clearWord_keeps ..) rfl
  with_reducible refine Keeps.step ?_ (clearWord_keeps ..) rfl
  with_reducible refine Keeps.step ?_ (regOut_keeps ..) rfl
  exact Keeps.refl _ _
  with_reducible refine Keeps.step ?_ (clearWord_keeps ..) rfl
  with_reducible refine Keeps.step ?_ (regOut_keeps ..) rfl
  exact Keeps.refl _ _

theorem execReadClear_keeps (off : BitVec 26) (size : Nat) (s : State) :
    KeepsOut [.free, .tb, .port, .link, .tiers, .eng, .stackSt, .net, .wfc, .pmu] s (execReadClear off size s) := by
  unfold execReadClear
  dsimp only
  split
  with_reducible refine KeepsOut.next ?_
  with_reducible refine Keeps.step ?_ (unreached_keeps ..) rfl
  exact Keeps.refl _ _
  split
  refine KeepsOut.mono (execBadMmioAccess_keeps _ _ _ _ _) ?_
  rfl
  split
  with_reducible refine KeepsOut.next ?_
  with_reducible refine Keeps.step ?_ (regOut_keeps ..) rfl
  exact Keeps.refl _ _
  split
  refine KeepsOut.mono (execTbNowLowerRead_keeps _) ?_
  rfl
  split
  with_reducible refine KeepsOut.next ?_
  with_reducible refine Keeps.step ?_ (tbUpperRead_keeps ..) rfl
  exact Keeps.refl _ _
  with_reducible refine KeepsOut.next ?_
  with_reducible refine Keeps.step ?_ (plainRead_keeps ..) rfl
  exact Keeps.refl _ _

end Sys2Proof.Machine
end

