-- ==== Sys2Proof/Laws/KeepsExec.lean ====
section
/-! SUPPORT. What each command may change, part by part, and that the stores stay canonical: every command leaves the queue
and the clock alone. -/

set_option Elab.async false

namespace Sys2Proof.Machine

open Sys2Proof

/-- The parts that a command may change, by command. -/
def partsOf (c : Instr) : List Part :=
  match c with
  | .registerWrite _ _ _ => [.free, .fuses, .boot, .tb, .regs, .port, .ingress, .belay, .cfg, .lines, .hitches, .strands, .mem, .tiers, .eng, .stackSt, .net, .wfc, .pmu]
  | .coilStageWrite _ _ _ => [.ingress, .cfg]
  | .readClear _ _ => [.free, .tb, .port, .link, .tiers, .eng, .stackSt, .net, .wfc, .pmu]
  | .woHalfLatch _ _ => [.regs, .ingress]
  | .tbNowLowerRead => [.tb, .port]
  | .actViewWrite _ _ _ => [.port, .ingress]
  | .badMmioAccess _ _ _ _ => [.port]
  | .homeTableLookup _ => [.regs, .ingress]
  | .irqCauseClear _ => [.regs, .port, .ingress, .pmu]
  | .irqEnableWrite _ => [.regs, .port, .ingress, .pmu]
  | .wfcRelease _ => [.ingress, .wfc]
  | .haltedClear _ _ => [.port, .ingress, .lines, .tiers, .pmu]
  | .svnCommit _ => [.fuses, .ingress]
  | .peerClear _ _ => [.ingress, .net]
  | .doorbellTailWrite _ _ => [.port, .ingress, .lines, .pmu]
  | .completionHeadWrite _ _ => [.port, .ingress, .lines, .pmu]
  | .lineHitchAdd _ _ => [.ingress, .hitches]
  | .restart _ => [.port, .ingress, .lines, .pmu]
  | .break _ => [.ingress, .lines]
  | .nipRequest _ => [.ingress, .pmu]
  | .nipCapture => [.regs, .port, .pmu]
  | .hostBar4Read _ _ => [.free, .regs, .port, .ingress, .lines, .mem, .tiers, .eng, .stackSt, .net, .pmu]
  | .hostBar4Write _ _ => [.free, .regs, .port, .ingress, .lines, .mem, .tiers, .eng, .net, .pmu]
  | .cxlMemRead _ => [.free, .regs, .port, .ingress, .lines, .mem, .tiers, .eng, .stackSt, .net, .pmu]
  | .cxlMemWrite _ _ _ => [.free, .regs, .port, .ingress, .lines, .mem, .tiers, .eng, .net, .pmu]
  | .msixUnmask _ => [.port, .ingress, .pmu]
  | .flr => [.free, .regs, .port, .link, .belay, .lines, .hitches, .mem, .tiers, .net, .pmu]
  | .flrComplete => [.regs, .port, .link, .belay, .cfg, .lines, .hitches, .strands, .mem, .tiers, .eng, .net, .wfc, .pmu]
  | .hotReset => [.free, .regs, .port, .link, .belay, .lines, .hitches, .mem, .tiers, .net, .pmu]
  | .portLinkDown => [.regs, .port, .link, .ingress, .lines, .hitches, .strands, .mem, .tiers, .net, .pmu]
  | .portLinkUp => [.free, .port, .link, .pmu]
  | .hostReadFail _ _ _ => [.regs, .port, .lines, .mem, .tiers, .net, .pmu]
  | .cxlDecoderCommit _ => [.port]
  | .lineTake _ => [.regs, .port, .lines, .hitches, .lineArb, .mem, .tiers, .net, .wfc, .pmu]
  | .brdMm _ => [.regs, .port, .lines, .hitches, .mem, .tiers, .net, .pmu]
  | .vecOp _ => [.regs, .port, .lines, .hitches, .mem, .tiers, .eng, .net, .pmu]
  | .bgtFwd _ => [.regs, .port, .lines, .hitches, .mem, .tiers, .net, .pmu]
  | .bgtBwd _ => [.regs, .port, .lines, .hitches, .mem, .tiers, .net, .pmu]
  | .move _ => [.regs, .port, .lines, .hitches, .mem, .tiers, .net, .pmu]
  | .alloc _ => [.regs, .port, .lines, .hitches, .mem, .tiers, .net, .pmu]
  | .free _ => [.regs, .port, .lines, .hitches, .mem, .tiers, .net, .pmu]
  | .attr _ => [.regs, .port, .lines, .hitches, .mem, .tiers, .net, .pmu]
  | .rowSeq _ => [.regs, .port, .lines, .hitches, .mem, .tiers, .eng, .net, .pmu]
  | .splUpd _ => [.regs, .port, .lines, .hitches, .mem, .tiers, .eng, .net, .pmu]
  | .splAcc _ => [.regs, .port, .lines, .hitches, .mem, .tiers, .eng, .net, .pmu]
  | .snapshot _ => [.regs, .port, .lines, .hitches, .mem, .tiers, .eng, .net, .pmu]
  | .allReduce _ => [.free, .regs, .port, .lines, .hitches, .mem, .tiers, .net, .pmu]
  | .reduceScatter _ => [.free, .regs, .port, .lines, .hitches, .mem, .tiers, .net, .pmu]
  | .allGather _ => [.free, .regs, .port, .lines, .hitches, .mem, .tiers, .net, .pmu]
  | .allToAll _ => [.free, .regs, .port, .lines, .hitches, .mem, .tiers, .net, .pmu]
  | .send _ => [.free, .regs, .port, .lines, .hitches, .mem, .tiers, .net, .pmu]
  | .recv _ => [.free, .regs, .port, .lines, .hitches, .mem, .tiers, .net, .pmu]
  | .barrier _ => [.free, .regs, .port, .lines, .hitches, .mem, .tiers, .net, .pmu]
  | .verdict _ => [.free, .regs, .port, .lines, .hitches, .mem, .tiers, .net, .pmu]
  | .gather _ => [.free, .regs, .port, .lines, .hitches, .mem, .tiers, .net, .pmu]
  | .broadcast _ => [.free, .regs, .port, .lines, .hitches, .mem, .tiers, .net, .pmu]
  | .stopper _ => [.regs, .port, .lines, .hitches, .mem, .tiers, .net, .pmu]
  | .stopperWaitEnd _ => [.regs, .port, .lines, .hitches, .mem, .tiers, .net, .pmu]
  | .hostFlushReadComplete _ _ => [.regs, .port, .lines, .hitches, .mem, .tiers, .net, .pmu]
  | .capstanFlushComplete _ => [.regs, .port, .lines, .hitches, .mem, .tiers, .net, .pmu]
  | .hitchWait _ => [.regs, .port, .lines, .hitches, .mem, .tiers, .net, .pmu]
  | .hitchWaitSatisfied _ => [.regs, .port, .lines, .hitches, .mem, .tiers, .net, .pmu]
  | .hitchTimeout _ => [.regs, .port, .lines, .hitches, .mem, .tiers, .net, .pmu]
  | .hitchSig _ => [.regs, .port, .lines, .hitches, .mem, .tiers, .net, .pmu]
  | .knot _ => [.regs, .port, .lines, .hitches, .mem, .tiers, .eng, .net, .pmu]
  | .suspend _ => [.free, .regs, .port, .ingress, .belay, .lines, .hitches, .strands, .mem, .tiers, .eng, .net, .pmu]
  | .resume _ => [.free, .regs, .port, .ingress, .belay, .lines, .hitches, .strands, .mem, .tiers, .eng, .net, .pmu]
  | .cancel _ => [.free, .regs, .port, .ingress, .belay, .lines, .hitches, .strands, .mem, .tiers, .eng, .net, .pmu]
  | .resumeTakesEffect _ _ => [.regs, .port, .lines, .hitches, .mem, .tiers, .net, .pmu]
  | .loop _ => [.regs, .port, .lines, .hitches, .mem, .tiers, .net, .pmu]
  | .belayImmediate _ => [.regs, .port, .ingress, .belay, .lines, .hitches, .mem, .tiers, .net, .pmu]
  | .belayAtBarrier _ => [.regs, .port, .ingress, .belay, .lines, .hitches, .mem, .tiers, .net, .pmu]
  | .belayForce _ => [.regs, .port, .ingress, .belay, .lines, .hitches, .mem, .tiers, .net, .pmu]
  | .belayCheck _ => [.regs, .port, .ingress, .belay, .lines, .hitches, .mem, .tiers, .net, .pmu]
  | .revert => [.regs, .port, .ingress, .belay, .pmu]
  | .belayBarrierReady => [.regs, .port, .belay, .cfg, .lines, .hitches, .mem, .tiers, .net, .pmu]
  | .belayEngineTake => [.regs, .port, .belay, .cfg, .lines, .hitches, .mem, .tiers, .eng, .net, .pmu]
  | .belayDrainEnd => [.regs, .port, .belay, .lines, .net, .pmu]
  | .belayDrainBudgetExpiry => [.free, .regs, .port, .belay, .lines, .hitches, .strands, .mem, .tiers, .eng, .net, .pmu]
  | .belayPoint => [.free, .tb, .regs, .port, .belay, .cfg, .lines, .hitches, .strands, .mem, .tiers, .net, .pmu]
  | .quiesceBudgetExpiry => [.free, .regs, .port, .belay, .lines, .hitches, .strands, .mem, .tiers, .eng, .net, .pmu]
  | .operationRetire _ _ => [.regs, .port, .lines, .hitches, .mem, .tiers, .net, .pmu]
  | .operationFailure _ _ => [.free, .regs, .port, .belay, .lines, .hitches, .strands, .mem, .tiers, .eng, .net, .pmu]
  | .safePointSuspend _ _ => [.free, .regs, .port, .lines, .mem, .tiers, .net, .pmu]
  | .requestAged _ _ => [.lines, .strands]
  | .sweepIssue _ => [.free, .regs, .port, .lines, .braidArb, .strands, .wfc, .pmu]
  | .tileOpReady _ _ _ => [.regs, .port, .lines, .strands, .mem, .tiers, .eng, .stackSt, .net, .pmu]
  | .firstWave _ _ => [.strands]
  | .lastWave _ _ => [.free, .regs, .port, .lines, .strands, .mem, .tiers, .eng, .stackSt, .net, .pmu]
  | .tileDrain _ _ => [.strands]
  | .tileOpRetire _ _ => [.free, .regs, .port, .lines, .strands, .mem, .tiers, .eng, .net, .pmu]
  | .directReadFallback _ _ => [.regs, .port, .lines, .strands, .pmu]
  | .vecGroup _ => [.regs, .port, .lines, .vecArb, .strands, .mem, .tiers, .eng, .stackSt, .net, .wfc, .pmu]
  | .bgtTileIssue _ => [.free, .regs, .port, .lines, .braidArb, .strands, .mem, .tiers, .stackSt, .net, .wfc, .pmu]
  | .pageWaitDeadline _ _ => [.regs, .port, .lines, .strands, .tiers, .pmu]
  | .bightPrefetch _ _ => [.regs, .port, .lines, .tiers, .pmu]
  | .blockMoveStart _ => [.free, .regs, .port, .lines, .mem, .tiers, .stackSt, .net, .wfc, .pmu]
  | .blockMoveRetire _ => [.regs, .port, .lines, .hitches, .strands, .mem, .tiers, .eng, .net, .pmu]
  | .frameRelease _ _ => [.tiers]
  | .allocFillDone _ => [.free, .port, .lines, .mem, .tiers, .eng]
  | .eviction _ => [.regs, .port, .lines, .tiers, .pmu]
  | .reserveRefill _ => [.tiers]
  | .demandMove _ _ _ => [.regs, .port, .lines, .tiers, .net, .pmu]
  | .landingMove _ _ _ => [.regs, .port, .lines, .tiers, .pmu]
  | .landingMerge _ => [.regs, .port, .lines, .hitches, .strands, .mem, .tiers, .net, .pmu]
  | .splChunk _ => [.regs, .port, .lines, .splArb, .mem, .tiers, .eng, .stackSt, .net, .wfc, .pmu]
  | .fidRead _ _ _ _ => [.free, .regs, .port, .ingress, .lines, .strands, .mem, .tiers, .eng, .stackSt, .net, .pmu]
  | .fidWrite _ _ _ _ _ => [.free, .regs, .port, .ingress, .lines, .mem, .tiers, .eng, .net, .pmu]
  | .fidAddI32 _ _ _ _ _ => [.free, .regs, .port, .ingress, .lines, .strands, .mem, .tiers, .eng, .net, .pmu]
  | .fidAddW32 _ _ _ _ _ => [.free, .regs, .port, .ingress, .lines, .strands, .mem, .tiers, .eng, .net, .pmu]
  | .fidMaxW32 _ _ _ _ _ => [.free, .regs, .port, .ingress, .lines, .strands, .mem, .tiers, .eng, .net, .pmu]
  | .fidOr _ _ _ _ _ => [.free, .regs, .port, .ingress, .lines, .strands, .mem, .tiers, .eng, .net, .pmu]
  | .atomStart _ _ => [.lines, .eng]
  | .atomEnd _ _ => [.regs, .port, .lines, .eng, .pmu]
  | .parityRecompute _ _ => [.lines, .mem, .eng]
  | .rowZero _ _ => [.regs, .port, .lines, .mem, .tiers, .eng, .net, .pmu]
  | .rowOnes _ _ => [.regs, .port, .lines, .mem, .tiers, .eng, .net, .pmu]
  | .rowCopy _ _ => [.regs, .port, .lines, .mem, .tiers, .eng, .net, .pmu]
  | .rowNot _ _ => [.regs, .port, .lines, .mem, .tiers, .eng, .net, .pmu]
  | .rowAnd _ _ => [.regs, .port, .lines, .mem, .tiers, .eng, .net, .pmu]
  | .rowOr _ _ => [.regs, .port, .lines, .mem, .tiers, .eng, .net, .pmu]
  | .rowXor _ _ => [.regs, .port, .lines, .mem, .tiers, .eng, .net, .pmu]
  | .maj3 _ _ => [.regs, .port, .lines, .mem, .tiers, .eng, .net, .pmu]
  | .mov _ _ _ => [.strands, .eng]
  | .add _ _ _ _ => [.strands, .eng]
  | .sub _ _ _ _ => [.strands, .eng]
  | .mul _ _ _ _ => [.strands, .eng]
  | .fma _ _ _ _ _ => [.strands, .eng]
  | .max _ _ _ _ => [.strands, .eng]
  | .min _ _ _ _ => [.strands, .eng]
  | .abs _ _ _ => [.strands, .eng]
  | .neg _ _ _ => [.strands, .eng]
  | .cmplt _ _ _ _ => [.strands, .eng]
  | .cmpeq _ _ _ _ => [.strands, .eng]
  | .sel _ _ _ _ _ => [.strands, .eng]
  | .exp2 _ _ _ => [.strands, .eng]
  | .log2 _ _ _ => [.strands, .eng]
  | .rcp _ _ _ => [.strands, .eng]
  | .div _ _ _ _ => [.strands, .eng]
  | .sqrt _ _ _ => [.strands, .eng]
  | .rsqrt _ _ _ => [.strands, .eng]
  | .tanh _ _ _ => [.strands, .eng]
  | .erf _ _ _ => [.strands, .eng]
  | .iadd _ _ _ _ => [.strands, .eng]
  | .isub _ _ _ _ => [.strands, .eng]
  | .imul _ _ _ _ => [.strands, .eng]
  | .iand _ _ _ _ => [.strands, .eng]
  | .ior _ _ _ _ => [.strands, .eng]
  | .ixor _ _ _ _ => [.strands, .eng]
  | .ishl _ _ _ _ => [.strands, .eng]
  | .ishr _ _ _ _ => [.strands, .eng]
  | .cvtif _ _ _ => [.strands, .eng]
  | .cvtfi _ _ _ => [.strands, .eng]
  | .ld _ _ _ => [.eng]
  | .st _ _ _ => [.eng]
  | .stsr _ _ _ _ _ => [.eng]
  | .repairTimeout _ => [.regs, .port, .tiers, .net, .pmu]
  | .scrubRead _ _ _ _ => [.free, .regs, .port, .lines, .mem, .tiers, .eng, .stackSt, .net, .pmu]
  | .rawParityScrub _ _ _ _ => [.regs, .port, .lines, .mem, .tiers, .eng, .stackSt, .net, .pmu]
  | .refreshDue _ _ _ => [.refresh]
  | .refresh _ _ _ => [.regs, .port, .refresh, .pmu]
  | .stackTempReport _ _ => [.pins, .power, .boot, .flash, .tb, .regs, .port, .link, .ingress, .belay, .cfg, .lines, .hitches, .lineArb, .braidArb, .vecArb, .splArb, .strands, .mem, .tiers, .eng, .refresh, .stackSt, .gov, .net, .wfc, .pmu]
  | .sensorTimeout _ => [.regs, .port, .stackSt, .gov, .net, .pmu]
  | .slowHoldEnd => [.regs, .port, .gov, .net, .pmu]
  | .governorSample _ _ => [.free, .regs, .port, .strands, .gov, .pmu]
  | .slowRaise => [.regs, .port, .gov, .net, .pmu]
  | .slowClear => [.regs, .port, .gov, .net, .pmu]
  | .syncPeriod => [.free, .tb, .regs, .port, .net, .pmu]
  | .syncReq _ _ _ _ => [.regs, .port, .lines, .net, .pmu]
  | .syncRsp _ _ _ => [.free, .tb, .regs, .port, .lines, .net, .pmu]
  | .tbCopyReload => [.tb, .regs, .port, .pmu]
  | .refclkFail => [.free, .pins, .tb, .regs, .port, .link, .ingress, .lines, .hitches, .strands, .mem, .tiers, .net, .pmu]
  | .linkTrainingAttempt _ => [.net]
  | .hello _ _ => [.tb, .regs, .port, .lines, .net, .pmu]
  | .tugIdleTimer _ => [.regs, .port, .net, .pmu]
  | .tug _ _ => [.regs, .port, .lines, .net, .pmu]
  | .slip _ _ => [.free, .tb, .regs, .port, .lines, .hitches, .mem, .tiers, .net, .pmu]
  | .credit _ _ => [.regs, .port, .lines, .net, .pmu]
  | .nak _ _ => [.free, .tb, .regs, .port, .lines, .hitches, .mem, .tiers, .net, .pmu]
  | .replayTimeout _ => [.free, .tb, .regs, .port, .lines, .hitches, .mem, .tiers, .net, .pmu]
  | .linkSilenceTimeout _ => [.free, .tb, .regs, .port, .lines, .hitches, .mem, .tiers, .net, .pmu]
  | .lossOfSignal _ => [.free, .tb, .regs, .port, .lines, .hitches, .mem, .tiers, .net, .pmu]
  | .notice _ _ => [.free, .regs, .port, .lines, .hitches, .mem, .tiers, .net, .pmu]
  | .repairReq _ _ => [.regs, .port, .lines, .net, .pmu]
  | .repairRsp _ _ => [.regs, .port, .lines, .mem, .tiers, .net, .pmu]
  | .coll _ _ => [.regs, .port, .lines, .tiers, .net, .pmu]
  | .collSignature _ _ => [.free, .regs, .port, .lines, .hitches, .mem, .tiers, .net, .pmu]
  | .collClear _ _ => [.regs, .port, .lines, .net, .pmu]
  | .collAbort _ _ => [.free, .regs, .port, .lines, .hitches, .mem, .tiers, .net, .pmu]
  | .collAck _ _ => [.regs, .port, .lines, .net, .pmu]
  | .collectiveTimeout _ _ => [.free, .regs, .port, .lines, .hitches, .mem, .tiers, .net, .pmu]
  | .put _ _ => [.regs, .port, .lines, .mem, .tiers, .net, .pmu]
  | .putAck _ _ => [.regs, .port, .lines, .hitches, .mem, .tiers, .net, .pmu]
  | .flush _ _ => [.regs, .port, .lines, .net, .pmu]
  | .flushAck _ _ => [.regs, .port, .lines, .net, .pmu]
  | .wfcScan => [.regs, .port, .wfc, .pmu]
  | .summaryPass => [.regs, .port, .lines, .mem, .tiers, .net, .pmu]
  | .standbyPowerUp _ => [.pins, .power]
  | .standbyPowerLoss _ => [.pins, .power, .boot, .flash, .tb, .regs, .port, .link, .ingress, .belay, .cfg, .lines, .hitches, .lineArb, .braidArb, .vecArb, .splArb, .strands, .mem, .tiers, .eng, .refresh, .stackSt, .gov, .net, .wfc, .pmu]
  | .powerUp => [.pins, .power, .stackSt]
  | .shutdown => [.pins, .power, .boot, .flash, .tb, .regs, .port, .link, .ingress, .belay, .cfg, .lines, .hitches, .lineArb, .braidArb, .vecArb, .splArb, .strands, .mem, .tiers, .eng, .refresh, .stackSt, .gov, .net, .wfc, .pmu]
  | .inputFault _ => [.pins, .power, .boot, .flash, .tb, .regs, .port, .link, .ingress, .belay, .cfg, .lines, .hitches, .lineArb, .braidArb, .vecArb, .splArb, .strands, .mem, .tiers, .eng, .refresh, .stackSt, .gov, .net, .wfc, .pmu]
  | .inputRecovery _ => [.pins, .power, .stackSt]
  | .perstNAssert => [.pins, .power]
  | .warmReset => [.power, .boot, .flash, .tb, .regs, .port, .link, .ingress, .belay, .cfg, .lines, .hitches, .lineArb, .braidArb, .vecArb, .splArb, .strands, .mem, .tiers, .eng, .refresh, .stackSt, .gov, .net, .wfc, .pmu]
  | .bootStart _ => [.free, .pins, .power, .boot, .flash, .tb, .regs, .port, .belay, .cfg, .lines, .hitches, .strands, .mem, .tiers, .net, .pmu]
  | .stackTrainingDone _ _ _ => [.free, .boot, .flash, .tb, .regs, .port, .belay, .cfg, .lines, .hitches, .strands, .mem, .tiers, .net, .pmu]
  | .linksPhaseEnd => [.boot, .flash, .port, .lines, .pmu]
  | .thermalTrip _ => [.pins, .power, .boot, .flash, .tb, .regs, .port, .link, .ingress, .belay, .cfg, .lines, .hitches, .lineArb, .braidArb, .vecArb, .splArb, .strands, .mem, .tiers, .eng, .refresh, .stackSt, .gov, .net, .wfc, .pmu]
  | .tripRelease _ => [.pins, .power]
  | .mctpMessage _ => [.power]
  | .pldmFirmwareUpdate _ => [.free, .flash]
  | .pldmEventRead => [.pins, .power]
  | .fecUncorrectableCodeword _ => [.net]
  | .linkTrainingEnd _ _ => [.regs, .port, .net, .pmu]
  | .snapshotBlockRead _ _ _ => [.regs, .port, .lines, .mem, .tiers, .eng, .stackSt, .net, .pmu]

/-- Every command keeps every part but its own. -/
theorem exec_parts (c : Instr) (s : State) : KeepsOut (partsOf c) s (exec c s) := by
  cases c
  · exact execRegisterWrite_keeps _ _ _ _
  · exact execCoilStageWrite_keeps _ _ _ _
  · exact execReadClear_keeps _ _ _
  · exact execWoHalfLatch_keeps _ _ _
  · exact execTbNowLowerRead_keeps _
  · exact execActViewWrite_keeps _ _ _ _
  · exact execBadMmioAccess_keeps _ _ _ _ _
  · exact execHomeTableLookup_keeps _ _
  · exact execIrqCauseClear_keeps _ _
  · exact execIrqEnableWrite_keeps _ _
  · exact execWfcRelease_keeps _ _
  · exact execHaltedClear_keeps _ _ _
  · exact execSvnCommit_keeps _ _
  · exact execPeerClear_keeps _ _ _
  · exact execDoorbellTailWrite_keeps _ _ _
  · exact execCompletionHeadWrite_keeps _ _ _
  · exact execLineHitchAdd_keeps _ _ _
  · exact execRestart_keeps _ _
  · exact execBreak_keeps _ _
  · exact execNipRequest_keeps _ _
  · exact execNipCapture_keeps _
  · exact execHostBar4Read_keeps _ _ _
  · exact execHostBar4Write_keeps _ _ _
  · exact execCxlMemRead_keeps _ _
  · exact execCxlMemWrite_keeps _ _ _ _
  · exact execMsixUnmask_keeps _ _
  · exact execFlr_keeps _
  · exact execFlrComplete_keeps _
  · exact execHotReset_keeps _
  · exact execPortLinkDown_keeps _
  · exact execPortLinkUp_keeps _
  · rename_i addr len why
    exact execHostReadFail_keeps addr len why s
  · exact execCxlDecoderCommit_keeps _ _
  · exact execLineTake_keeps _ _
  · exact execBrdMm_keeps _ _
  · exact execVecOp_keeps _ _
  · exact execBgtFwd_keeps _ _
  · exact execBgtBwd_keeps _ _
  · exact execMove_keeps _ _
  · exact execAlloc_keeps _ _
  · exact execFree_keeps _ _
  · exact execAttr_keeps _ _
  · exact execRowSeq_keeps _ _
  · exact execSplUpd_keeps _ _
  · exact execSplAcc_keeps _ _
  · exact execSnapshot_keeps _ _
  · exact execAllReduce_keeps _ _
  · exact execReduceScatter_keeps _ _
  · exact execAllGather_keeps _ _
  · exact execAllToAll_keeps _ _
  · exact execSend_keeps _ _
  · exact execRecv_keeps _ _
  · exact execBarrier_keeps _ _
  · exact execVerdict_keeps _ _
  · exact execGather_keeps _ _
  · exact execBroadcast_keeps _ _
  · exact execStopper_keeps _ _
  · exact execStopperWaitEnd_keeps _ _
  · exact execHostFlushReadComplete_keeps _ _ _
  · exact execCapstanFlushComplete_keeps _ _
  · exact execHitchWait_keeps _ _
  · exact execHitchWaitSatisfied_keeps _ _
  · exact execHitchTimeout_keeps _ _
  · exact execHitchSig_keeps _ _
  · exact execKnot_keeps _ _
  · exact execSuspend_keeps _ _
  · exact execResume_keeps _ _
  · exact execCancel_keeps _ _
  · exact execResumeTakesEffect_keeps _ _ _
  · exact execLoop_keeps _ _
  · exact execBelayImmediate_keeps _ _
  · exact execBelayAtBarrier_keeps _ _
  · exact execBelayForce_keeps _ _
  · exact execBelayCheck_keeps _ _
  · exact execRevert_keeps _
  · exact execBelayBarrierReady_keeps _
  · exact execBelayEngineTake_keeps _
  · exact execBelayDrainEnd_keeps _
  · exact execBelayDrainBudgetExpiry_keeps _
  · exact execBelayPoint_keeps _
  · exact execQuiesceBudgetExpiry_keeps _
  · exact execOperationRetire_keeps _ _ _
  · exact execOperationFailure_keeps _ _ _
  · exact execSafePointSuspend_keeps _ _ _
  · exact execRequestAged_keeps _ _ _
  · exact execSweepIssue_keeps _ _
  · exact execTileOpReady_keeps _ _ _ _
  · exact execFirstWave_keeps _ _ _
  · exact execLastWave_keeps _ _ _
  · exact execTileDrain_keeps _ _ _
  · exact execTileOpRetire_keeps _ _ _
  · exact execDirectReadFallback_keeps _ _ _
  · exact execVecGroup_keeps _ _
  · exact execBgtTileIssue_keeps _ _
  · exact execPageWaitDeadline_keeps _ _ _
  · exact execBightPrefetch_keeps _ _ _
  · exact execBlockMoveStart_keeps _ _
  · exact execBlockMoveRetire_keeps _ _
  · exact execFrameRelease_keeps _ _ _
  · exact execAllocFillDone_keeps _ _
  · exact execEviction_keeps _ _
  · exact execReserveRefill_keeps _ _
  · exact execDemandMove_keeps _ _ _ _
  · exact execLandingMove_keeps _ _ _ _
  · exact execLandingMerge_keeps _ _
  · exact execSplChunk_keeps _ _
  · exact execFidRead_keeps _ _ _ _ _
  · exact execFidWrite_keeps _ _ _ _ _ _
  · exact execFidAddI32_keeps _ _ _ _ _ _
  · exact execFidAddW32_keeps _ _ _ _ _ _
  · exact execFidMaxW32_keeps _ _ _ _ _ _
  · exact execFidOr_keeps _ _ _ _ _ _
  · exact execAtomStart_keeps _ _ _
  · exact execAtomEnd_keeps _ _ _
  · rename_i chan bank
    exact execParityRecompute_keeps chan bank s
  · exact execRowZero_keeps _ _ _
  · exact execRowOnes_keeps _ _ _
  · exact execRowCopy_keeps _ _ _
  · exact execRowNot_keeps _ _ _
  · exact execRowAnd_keeps _ _ _
  · exact execRowOr_keeps _ _ _
  · exact execRowXor_keeps _ _ _
  · exact execMaj3_keeps _ _ _
  · exact execMov_keeps _ _ _ _
  · exact execAdd_keeps _ _ _ _ _
  · exact execSub_keeps _ _ _ _ _
  · exact execMul_keeps _ _ _ _ _
  · exact execFma_keeps _ _ _ _ _ _
  · exact execMax_keeps _ _ _ _ _
  · exact execMin_keeps _ _ _ _ _
  · exact execAbs_keeps _ _ _ _
  · exact execNeg_keeps _ _ _ _
  · exact execCmplt_keeps _ _ _ _ _
  · exact execCmpeq_keeps _ _ _ _ _
  · exact execSel_keeps _ _ _ _ _ _
  · exact execExp2_keeps _ _ _ _
  · exact execLog2_keeps _ _ _ _
  · exact execRcp_keeps _ _ _ _
  · exact execDiv_keeps _ _ _ _ _
  · exact execSqrt_keeps _ _ _ _
  · exact execRsqrt_keeps _ _ _ _
  · exact execTanh_keeps _ _ _ _
  · exact execErf_keeps _ _ _ _
  · exact execIadd_keeps _ _ _ _ _
  · exact execIsub_keeps _ _ _ _ _
  · exact execImul_keeps _ _ _ _ _
  · exact execIand_keeps _ _ _ _ _
  · exact execIor_keeps _ _ _ _ _
  · exact execIxor_keeps _ _ _ _ _
  · exact execIshl_keeps _ _ _ _ _
  · exact execIshr_keeps _ _ _ _ _
  · exact execCvtif_keeps _ _ _ _
  · exact execCvtfi_keeps _ _ _ _
  · exact execLd_keeps _ _ _ _
  · exact execSt_keeps _ _ _ _
  · exact execStsr_keeps _ _ _ _ _ _
  · exact execRepairTimeout_keeps _ _
  · exact execScrubRead_keeps _ _ _ _ _
  · exact execRawParityScrub_keeps _ _ _ _ _
  · exact execRefreshDue_keeps _ _ _ _
  · exact execRefresh_keeps _ _ _ _
  · exact execStackTempReport_keeps _ _ _
  · exact execSensorTimeout_keeps _ _
  · exact execSlowHoldEnd_keeps _
  · exact execGovernorSample_keeps _ _ _
  · exact execSlowRaise_keeps _
  · exact execSlowClear_keeps _
  · exact execSyncPeriod_keeps _
  · exact execSyncReq_keeps _ _ _ _ _
  · exact execSyncRsp_keeps _ _ _ _
  · exact execTbCopyReload_keeps _
  · exact execRefclkFail_keeps _
  · exact execLinkTrainingAttempt_keeps _ _
  · exact execHello_keeps _ _ _
  · exact execTugIdleTimer_keeps _ _
  · exact execTug_keeps _ _ _
  · exact execSlip_keeps _ _ _
  · exact execCredit_keeps _ _ _
  · exact execNak_keeps _ _ _
  · exact execReplayTimeout_keeps _ _
  · exact execLinkSilenceTimeout_keeps _ _
  · exact execLossOfSignal_keeps _ _
  · exact execNotice_keeps _ _ _
  · exact execRepairReq_keeps _ _ _
  · exact execRepairRsp_keeps _ _ _
  · exact execColl_keeps _ _ _
  · exact execCollSignature_keeps _ _ _
  · exact execCollClear_keeps _ _ _
  · exact execCollAbort_keeps _ _ _
  · exact execCollAck_keeps _ _ _
  · exact execCollectiveTimeout_keeps _ _ _
  · exact execPut_keeps _ _ _
  · exact execPutAck_keeps _ _ _
  · exact execFlush_keeps _ _ _
  · exact execFlushAck_keeps _ _ _
  · exact execWfcScan_keeps _
  · exact execSummaryPass_keeps _
  · exact execStandbyPowerUp_keeps _ _
  · exact execStandbyPowerLoss_keeps _ _
  · exact execPowerUp_keeps _
  · exact execShutdown_keeps _
  · exact execInputFault_keeps _ _
  · exact execInputRecovery_keeps _ _
  · exact execPerstNAssert_keeps _
  · exact execWarmReset_keeps _
  · exact execBootStart_keeps _ _
  · exact execStackTrainingDone_keeps _ _ _ _
  · exact execLinksPhaseEnd_keeps _
  · exact execThermalTrip_keeps _ _
  · exact execTripRelease_keeps _ _
  · exact execMctpMessage_keeps _ _
  · exact execPldmFirmwareUpdate_keeps _ _
  · exact execPldmEventRead_keeps _
  · exact execFecUncorrectableCodeword_keeps _ _
  · exact execLinkTrainingEnd_keeps _ _ _
  · exact execSnapshotBlockRead_keeps _ _ _ _

/-- The parts that some command may change. -/
def commandParts : List Part :=
  [.free, .fuses, .pins, .power, .boot, .flash, .tb, .regs, .port, .link, .ingress, .belay, .cfg, .lines, .hitches, .lineArb, .braidArb, .vecArb, .splArb, .strands, .mem, .tiers, .eng, .refresh, .stackSt, .gov, .net, .wfc, .pmu]

theorem partsOf_sub (c : Instr) : subParts (partsOf c) commandParts = true := by
  cases c <;> rfl

theorem exec_keeps (c : Instr) (s : State) : KeepsOut commandParts s (exec c s) :=
  (exec_parts c s).mono (partsOf_sub c)

/-- A part that is not among a command's own is the same after it. -/
theorem exec_same (c : Instr) (s t : State) (h : exec c s = .next t) (p : Part) (hp : (partsOf c).contains p = false) :
    p.same s t :=
  (exec_parts c s t h).only p (by simpa using hp)

end Sys2Proof.Machine
end

