-- ==== Sys2Proof/Laws/KeepsIdle.lean ====
section
/-! SUPPORT. What each operation of Machine/Idle.lean may change, and that it keeps the stores canonical. -/

set_option Elab.async false

namespace Sys2Proof.Machine

open Sys2Proof

theorem stampOp_keeps (s : State) (n : Nat) (o : OpEnt) :
    Keeps [.lines] s (stampOp s n o) := by
  unfold stampOp
  split
  split
  with_reducible refine Keeps.step ?_ (opSet_keeps ..) rfl
  exact Keeps.refl _ _
  exact Keeps.refl _ _
  exact Keeps.refl _ _

theorem stampStrand_keeps (s : State) (strand : Nat) :
    Keeps [.lines] s (stampStrand s strand) := by
  unfold stampStrand
  dsimp only
  with_reducible refine Keeps.foldl ?_ (fun _ _ _ => ?_)
  with_reducible refine Keeps.foldl ?_ (fun _ _ _ => ?_)
  exact Keeps.refl _ _
  split
  with_reducible refine Keeps.step ?_ (stampOp_keeps ..) rfl
  assumption
  assumption
  split
  with_reducible refine Keeps.step ?_ (stampOp_keeps ..) rfl
  assumption
  assumption

theorem stampChan_keeps (s : State) (gc : Nat) :
    Keeps [.lines] s (stampChan s gc) := by
  unfold stampChan
  with_reducible refine Keeps.foldl ?_ (fun _ _ _ => ?_)
  exact Keeps.refl _ _
  split
  split
  with_reducible refine Keeps.step ?_ (opSet_keeps ..) rfl
  assumption
  assumption
  assumption

theorem stampMoves_keeps (s : State) :
    Keeps [.lines, .tiers] s (stampMoves s) := by
  unfold stampMoves
  with_reducible refine Keeps.foldl ?_ (fun _ _ _ => ?_)
  exact Keeps.refl _ _
  split
  split
  with_reducible refine Keeps.step ?_ (stampOp_keeps ..) rfl
  assumption
  assumption
  with_reducible refine Keeps.upd ?_
  assumption

theorem stampReady_keeps (s : State) :
    Keeps [.lines, .tiers] s (stampReady s) := by
  unfold stampReady
  dsimp only
  with_reducible refine Keeps.step ?_ (stampMoves_keeps ..) rfl
  split
  with_reducible refine Keeps.foldl ?_ (fun _ _ _ => ?_)
  with_reducible refine Keeps.foldl ?_ (fun _ _ _ => ?_)
  exact Keeps.refl _ _
  with_reducible refine Keeps.step ?_ (stampStrand_keeps ..) rfl
  assumption
  with_reducible refine Keeps.step ?_ (stampChan_keeps ..) rfl
  assumption
  with_reducible refine Keeps.foldl ?_ (fun _ _ _ => ?_)
  exact Keeps.refl _ _
  with_reducible refine Keeps.step ?_ (stampStrand_keeps ..) rfl
  assumption

theorem serveOne_keeps (s : State) (r : HeldReq) (o : Out) (h : serveOne s r = some o) : KeepsOut commandParts s o := by
  have h0 : Keeps commandParts s { s with ingress := { s.ingress with queue := [] } } := Keeps.upd (Keeps.refl _ _)
  have h1 : KeepsOut commandParts s (exec r.cmd { s with ingress := { s.ingress with queue := [] } }) :=
    fun t ht => h0.trans' (exec_keeps _ _ t ht)
  unfold serveOne at h
  generalize exec r.cmd { s with ingress := { s.ingress with queue := [] } } = q at h h1
  split at h
  · split at h
    · exact Option.some.inj h ▸ KeepsOut.next (Keeps.upd (h1 _ rfl))
    · exact absurd h (by simp)
  · exact Option.some.inj h ▸ h1

theorem serveHeld_keeps (s : State) : KeepsOut commandParts s (serveHeld s) := by
  unfold serveHeld
  cases h : (s.ingress.queue.filter (mayServe s)).findSome? (serveOne s) with
  | none => exact KeepsOut.next (Keeps.refl _ _)
  | some o =>
    obtain ⟨r, -, hr⟩ := List.exists_of_findSome?_eq_some h
    exact serveOne_keeps s r o hr

/-- The parts that a step without a command may change: those of the commands, and the clock. -/
abbrev idleParts : List Part := .clk :: commandParts

theorem idle_keeps (s : State) : KeepsOut idleParts s (idle s) := by
  have h : Keeps idleParts s (answerOwed (settleTransit (stampReady (tick s)))) :=
    ((((Keeps.refl _ _).step (tick_keeps s) rfl).step (stampReady_keeps ..) rfl).step (settleTransit_keeps ..) rfl).step
      (answerOwed_keeps ..) rfl
  exact fun t ht => h.step (serveHeld_keeps _ t ht) rfl

end Sys2Proof.Machine
end

