-- ==== Sys2Proof/WellFormed.lean ====
section
/-! DEFINITION. Which commands can occur: the operand values that a requester, a lane or a unit of the module can give. The
meanings in Machine answer for every operand; this predicate is what a sender keeps to. -/

set_option Elab.async false

namespace Sys2Proof

/-- A register access has 4 or 8 bytes and is aligned (R2, R361). -/
def accessWf (off size : Nat) : Bool := (size = 4 || size = 8) && off % size = 0

/-- PLEN counts the payload in 32 B units, at most 8 (R323). -/
def Frame.wf (f : Frame) : Bool := f.plen.toNat ≤ 8 && f.payload.length = 32 * f.plen.toNat && f.tc.toNat ≤ 9

/-- A frame of the type whose number the frame type table gives (R324). -/
def Frame.wfAs (f : Frame) (typ : BitVec 4) : Bool := f.wf && f.typ = typ

/-- A COLL_CTL frame of a kind (R324). -/
def Frame.wfCtl (f : Frame) (kind : Nat) : Bool := f.wfAs 0xB && f.aux.toNat % 4 = kind && 2 ≤ f.tc.toNat

/-- A global mantle channel of the largest part, 0 to 767 (R181). -/
def chanWf (c : BitVec 10) : Bool := c.toNat < 768

/-- A micro-op's engine exists. -/
def Engine.wf : Engine → Bool
  | .vec _ => true
  | .spl c => chanWf c

/-- A channel of a stack: 64 in a kern stack, 96 in a mantle stack (R181). -/
def stackChanWf (s : Stack) (chan : BitVec 7) : Bool :=
  match s with
  | .kern _ => chan.toNat < 64
  | .mantle _ => chan.toNat < 96

/-- A granule of a channel of 1 GiB: 64 B in kern, 32 B in the mantle (R181). -/
def granuleWf (s : Stack) (g : BitVec 25) : Bool :=
  match s with
  | .kern _ => g.toNat < 2 ^ 24
  | .mantle _ => true

/-- A fault pattern that a granule of the stack's tier can show: symbols once each in the mantle, words of 137 bits and beats in
kern (R191, R192). -/
def errWf (s : Stack) (e : EccErr) : Bool :=
  match e, s with
  | .none, _ => true
  | .symbols xs, .mantle _ => decide (xs.map Prod.fst).Nodup
  | .bits a b c d _, .kern _ => [a, b, c, d].all (fun w => decide (w < 2 ^ 137))
  | .beat n, .kern _ => decide (n ≤ 4)
  | .beatFixed, .kern _ => true
  | _, _ => false

/-- The stacks of a list lie in the tier. -/
def stacksWf (t : Tier) (xs : List Stack) : Bool :=
  xs.all (fun x =>
    match x, t with
    | .kern _, .kern => true
    | .mantle _, .mantle => true
    | _, _ => false)

/-- The command can occur. -/
def Instr.wf : Instr → Bool
  | .registerWrite off size _ => accessWf off.toNat size
  | .coilStageWrite off size _ => accessWf off.toNat size
  | .readClear off size => accessWf off.toNat size
  | .woHalfLatch off _ => off.toNat % 8 = 0
  | .actViewWrite off size _ => accessWf off.toNat size
  | .badMmioAccess _ _ _ size => 0 < size
  | .hostBar4Read off ⟨len, _⟩ => 0 < len && len ≤ 4096 && off.toNat + len ≤ 2 ^ 41
  | .hostBar4Write off data => 0 < data.length && data.length ≤ 4096 && off.toNat + data.length ≤ 2 ^ 41
  | .cxlMemRead ⟨dpa, _⟩ => dpa.toNat % 64 = 0
  | .cxlMemWrite dpa data _ => dpa.toNat % 64 = 0 && data.length = 64
  | .hostReadFail addr len _ => 0 < len && 2 ^ 47 ≤ addr.toNat && addr.toNat + len ≤ 2 ^ 48
  | .fidRead _ _ addr _ => addr.toNat % 32 = 0
  | .fidWrite _ _ addr _ _ => addr.toNat % 32 = 0
  | .fidAddI32 _ _ addr _ _ => addr.toNat % 32 = 0
  | .fidAddW32 _ _ addr _ _ => addr.toNat % 32 = 0
  | .fidMaxW32 _ _ addr _ _ => addr.toNat % 32 = 0
  | .fidOr _ _ addr _ _ => addr.toNat % 32 = 0
  | .splChunk ⟨chan, _⟩ => chanWf chan
  | .atomStart chan _ => chanWf chan
  | .atomEnd chan _ => chanWf chan
  | .parityRecompute chan _ => chanWf chan
  | .rowZero chan _ => chanWf chan
  | .rowOnes chan _ => chanWf chan
  | .rowCopy chan _ => chanWf chan
  | .rowNot chan _ => chanWf chan
  | .rowAnd chan _ => chanWf chan
  | .rowOr chan _ => chanWf chan
  | .rowXor chan _ => chanWf chan
  | .maj3 chan _ => chanWf chan
  | .mov e _ _ => e.wf
  | .add e _ _ _ => e.wf
  | .sub e _ _ _ => e.wf
  | .mul e _ _ _ => e.wf
  | .fma e _ _ _ _ => e.wf
  | .max e _ _ _ => e.wf
  | .min e _ _ _ => e.wf
  | .abs e _ _ => e.wf
  | .neg e _ _ => e.wf
  | .cmplt e _ _ _ => e.wf
  | .cmpeq e _ _ _ => e.wf
  | .sel e _ _ _ _ => e.wf
  | .exp2 e _ _ => e.wf
  | .log2 e _ _ => e.wf
  | .rcp e _ _ => e.wf
  | .div e _ _ _ => e.wf
  | .sqrt e _ _ => e.wf
  | .rsqrt e _ _ => e.wf
  | .tanh e _ _ => e.wf
  | .erf e _ _ => e.wf
  | .ld chan _ _ => chanWf chan
  | .st chan _ _ => chanWf chan
  | .stsr chan _ _ _ _ => chanWf chan
  | .scrubRead stack chan granule err => stackChanWf stack chan && granuleWf stack granule && errWf stack err
  | .rawParityScrub _ chan _ _ => chanWf chan
  | .refreshDue stack chan _ => stackChanWf stack chan
  | .refresh stack chan _ => stackChanWf stack chan
  | .governorSample _ tj => tj.length = 4
  | .syncReq _ f _ _ => f.wfAs 0x5
  | .syncRsp _ f _ => f.wfAs 0x6
  | .hello _ f => f.wfAs 0x4
  | .tug _ f => f.wfAs 0x0
  | .slip _ f => f.wfAs 0x1
  | .credit _ f => f.wfAs 0x2
  | .nak _ f => f.wfAs 0x3
  | .notice _ f => f.wfAs 0x7
  | .repairReq _ f => f.wfAs 0x8
  | .repairRsp _ f => f.wfAs 0x9
  | .coll _ f => f.wfAs 0xA && 2 ≤ f.tc.toNat
  | .collSignature _ f => f.wfCtl 0
  | .collClear _ f => f.wfCtl 1
  | .collAbort _ f => f.wfCtl 2
  | .collAck _ f => f.wfCtl 3
  | .put _ f => f.wfAs 0xC
  | .putAck _ f => f.wfAs 0xD
  | .flush _ f => f.wfAs 0xE
  | .flushAck _ f => f.wfAs 0xF
  | .stackTrainingDone tier once twice => tier != .host && stacksWf tier (once ++ twice)
  | .pldmFirmwareUpdate image => image.length ≤ 0x2000000
  | .standbyPowerLoss mv => mv < 36000 || 64000 < mv
  | .standbyPowerUp mv => 36000 ≤ mv && mv ≤ 64000
  | .inputFault mv => mv < 38000 || 62000 < mv
  | .inputRecovery mv => 40000 ≤ mv && mv ≤ 60000
  | .tbNowLowerRead => true
  | .homeTableLookup _ => true
  | .irqCauseClear _ => true
  | .irqEnableWrite _ => true
  | .wfcRelease _ => true
  | .haltedClear _ _ => true
  | .svnCommit _ => true
  | .peerClear _ _ => true
  | .doorbellTailWrite _ _ => true
  | .completionHeadWrite _ _ => true
  | .lineHitchAdd _ _ => true
  | .restart _ => true
  | .break _ => true
  | .nipRequest _ => true
  | .nipCapture => true
  | .msixUnmask _ => true
  | .flr => true
  | .flrComplete => true
  | .hotReset => true
  | .portLinkDown => true
  | .portLinkUp => true
  | .cxlDecoderCommit _ => true
  | .lineTake _ => true
  | .brdMm _ => true
  | .vecOp _ => true
  | .bgtFwd _ => true
  | .bgtBwd _ => true
  | .move _ => true
  | .alloc _ => true
  | .free _ => true
  | .attr _ => true
  | .rowSeq _ => true
  | .splUpd _ => true
  | .splAcc _ => true
  | .snapshot _ => true
  | .allReduce _ => true
  | .reduceScatter _ => true
  | .allGather _ => true
  | .allToAll _ => true
  | .send _ => true
  | .recv _ => true
  | .barrier _ => true
  | .verdict _ => true
  | .gather _ => true
  | .broadcast _ => true
  | .stopper _ => true
  | .stopperWaitEnd _ => true
  | .hostFlushReadComplete _ _ => true
  | .capstanFlushComplete _ => true
  | .hitchWait _ => true
  | .hitchWaitSatisfied _ => true
  | .hitchTimeout _ => true
  | .hitchSig _ => true
  | .knot _ => true
  | .suspend _ => true
  | .resume _ => true
  | .cancel _ => true
  | .resumeTakesEffect _ _ => true
  | .loop _ => true
  | .belayImmediate _ => true
  | .belayAtBarrier _ => true
  | .belayForce _ => true
  | .belayCheck _ => true
  | .revert => true
  | .belayBarrierReady => true
  | .belayEngineTake => true
  | .belayDrainEnd => true
  | .belayDrainBudgetExpiry => true
  | .belayPoint => true
  | .quiesceBudgetExpiry => true
  | .operationRetire _ _ => true
  | .operationFailure _ _ => true
  | .safePointSuspend _ _ => true
  | .requestAged _ _ => true
  | .sweepIssue _ => true
  | .tileOpReady _ _ _ => true
  | .firstWave _ _ => true
  | .lastWave _ _ => true
  | .tileDrain _ _ => true
  | .tileOpRetire _ _ => true
  | .directReadFallback _ _ => true
  | .vecGroup _ => true
  | .bgtTileIssue _ => true
  | .pageWaitDeadline _ _ => true
  | .bightPrefetch _ _ => true
  | .blockMoveStart _ => true
  | .blockMoveRetire name => name.toNat % 65536 = 0
  | .frameRelease _ _ => true
  | .allocFillDone name => name.toNat % 65536 = 0
  | .eviction tier => tier != .host
  | .reserveRefill tier => tier != .host
  | .demandMove _ _ name => name.toNat % 65536 = 0
  | .landingMove _ _ name => name.toNat % 65536 = 0
  | .landingMerge name => name.toNat % 65536 = 0
  | .iadd _ _ _ _ => true
  | .isub _ _ _ _ => true
  | .imul _ _ _ _ => true
  | .iand _ _ _ _ => true
  | .ior _ _ _ _ => true
  | .ixor _ _ _ _ => true
  | .ishl _ _ _ _ => true
  | .ishr _ _ _ _ => true
  | .cvtif _ _ _ => true
  | .cvtfi _ _ _ => true
  | .repairTimeout name => name.toNat % 65536 = 0
  | .stackTempReport _ _ => true
  | .sensorTimeout _ => true
  | .slowHoldEnd => true
  | .slowRaise => true
  | .slowClear => true
  | .syncPeriod => true
  | .tbCopyReload => true
  | .refclkFail => true
  | .linkTrainingAttempt _ => true
  | .tugIdleTimer _ => true
  | .replayTimeout _ => true
  | .linkSilenceTimeout _ => true
  | .lossOfSignal _ => true
  | .collectiveTimeout _ _ => true
  | .wfcScan => true
  | .summaryPass => true
  | .powerUp => true
  | .shutdown => true
  | .perstNAssert => true
  | .warmReset => true
  | .bootStart _ => true
  | .linksPhaseEnd => true
  | .thermalTrip _ => true
  | .tripRelease _ => true
  | .mctpMessage _ => true
  | .pldmEventRead => true
  | .fecUncorrectableCodeword _ => true
  | .linkTrainingEnd _ _ => true
  | .snapshotBlockRead _ _ _ => true

end Sys2Proof
end

