-- ==== Sys2Proof/Tests/Slice0.lean ====
section
/-! SUPPORT. The model's own tests: ill-formed commands are refused, small effects against the spec's worked examples and
tables, and for the hypotheses of every statement a state and operands that meet them. -/

set_option Elab.async false

namespace Sys2Proof.Tests

open Sys2Proof Sys2Proof.Machine

/-! ### Small states -/

/-- A configuration with one field set. -/
def put (m : SMap W32) (p : Fld × Nat × Nat) : SMap W32 :=
  let off := p.1.off p.2.1
  let x := cwGet64 m off
  let y := x - (((x >>> p.1.lo) % 2 ^ p.1.width) <<< p.1.lo) + (p.2.2 <<< p.1.lo)
  let m1 := cwSet m off (BitVec.ofNat 32 y)
  if p.1.lo + p.1.width ≤ 32 then m1 else cwSet m1 (off + 4) (BitVec.ofNat 32 (y >>> 32))

/-- A configuration with fields set: field, instance, value. -/
def conf (ps : List (Fld × Nat × Nat)) : SMap W32 := ps.foldl put []

/-- A module that is up, READY, with every unit enabled and the given fields active. -/
def ready (ps : List (Fld × Nat × Nat)) : State :=
  { State.reset with
    clk := 10000000000
    power := { State.reset.power with rails := true, perstActed := false }
    pins := { State.reset.pins with perstN := true, refclkOk := true }
    boot := { State.reset.boot with phase := 7, slot := 0, devId := 5 }
    port := { State.reset.port with linkUp := true }
    tb := { State.reset.tb with running := true, now := 10000000000 }
    cfg := { State.reset.cfg with act := conf (ps ++ [(flUnitEn, 0, 0x7F)]) } }

/-- Line 0 enabled on strand 0 with rings of 16 slots and 16 records in blocks 4 and 5 of account 0. -/
def lineFields : List (Fld × Nat × Nat) :=
  [(flLineEn, 0, 1), (flRingBase, 0, 0x40), (flRingLog2, 0, 4), (flCqBase, 0, 0x50), (flCqLog2, 0, 4)]

/-- A HOME block in kern. -/
def kernBlock (frame : Nat) : HtEntry := { HtEntry.reset with state := .home, tier := .kern, frame := frame }

/-- A HOME block in the mantle. -/
def mantleBlock (frame : Nat) : HtEntry := { HtEntry.reset with state := .home, tier := .mantle, frame := frame }

/-- Home-table entries set. -/
def bind (s : State) (bs : List (Nat × HtEntry)) : State := bs.foldl (fun t p => htSet t p.1 p.2) s

/-- A module with line 0 and its ring blocks. -/
def lined (ps : List (Fld × Nat × Nat)) : State := bind (ready (lineFields ++ ps)) [(4, kernBlock 4), (5, kernBlock 5)]

/-- A descriptor from fields: byte offset, bit, value. -/
def words (ps : List (Nat × Nat × Nat)) : BitVec 512 :=
  BitVec.ofNat 512 (ps.foldl (fun n p => n + p.2.2 <<< (8 * p.1 + p.2.1)) 0)

/-- A fresh operation with a descriptor. -/
def taken (d : BitVec 512) : OpEnt := opNew 0 0 1 d 0

/-- A dispatched operation with a descriptor. -/
def running (d : BitVec 512) : OpEnt := { taken d with dispatched := true }

/-- A state whose line has the operations. -/
def withOps (s : State) (n : Nat) (os : List OpEnt) : State := lineSet s n { lineGet s n with ops := os }

/-! ### Well-formedness: one ill-formed command for each check -/

/-- A frame of a type, with its CRC. -/
def frameOf (typ tc : Nat) (src dst : Nat) (lseq : Nat) (tag : W32) (addr : W64) (aux : W32) (pay : List Byte) : Frame :=
  sealFrame { typ := BitVec.ofNat 4 typ, tc := BitVec.ofNat 4 tc, vc := 0, plen := BitVec.ofNat 4 (pay.length / 32), hdim := 0,
              slow := false, draining := false, maint := false, src := BitVec.ofNat 16 src, dst := BitVec.ofNat 16 dst,
              lseq := BitVec.ofNat 16 lseq, ack := 0, tag := tag, addr := addr, aux := aux, crc := 0, payload := pay }

theorem test_wf_refuses_access :
    (Instr.registerWrite 0x12 4 0).wf = false ∧ (Instr.registerWrite 0x10 2 0).wf = false ∧ (Instr.readClear 0x14 8).wf = false ∧
      (Instr.woHalfLatch 0x4 0).wf = false ∧ (Instr.badMmioAccess .bar0 true 0 0).wf = false ∧
      (Instr.registerWrite 0x10 8 0).wf = true := by decide +kernel

theorem test_wf_refuses_bytes :
    (Instr.hostBar4Read 0 ⟨0, []⟩).wf = false ∧ (Instr.hostBar4Read 0x1FFFFFFFFFF ⟨2, []⟩).wf = false ∧ (Instr.hostBar4Write 0 []).wf = false ∧
      (Instr.cxlMemRead ⟨0x20, []⟩).wf = false ∧ (Instr.cxlMemWrite 0 [0] 1).wf = false ∧
      (Instr.hostReadFail 0 4 .timeout).wf = false ∧ (Instr.fidRead 0 0 0x10 .none).wf = false := by decide +kernel

theorem test_wf_refuses_place :
    (Instr.splChunk ⟨768, []⟩).wf = false ∧ (Instr.mov (.spl 900) 0 0).wf = false ∧ (Instr.scrubRead (.kern 0) 64 0 .none).wf = false ∧
      (Instr.scrubRead (.kern 0) 0 0x1000000 .none).wf = false ∧ (Instr.scrubRead (.mantle 0) 95 0 (.beat 1)).wf = false ∧
      (Instr.scrubRead (.kern 0) 0 0 (.beat 5)).wf = false ∧ (Instr.scrubRead (.kern 0) 0 0 (.symbols [])).wf = false ∧
      (Instr.blockMoveRetire 0x8).wf = false ∧ (Instr.eviction .host).wf = false := by decide +kernel

theorem test_wf_refuses_frame :
    (Instr.tug 0 (frameOf 1 0 2 0xFFFF 0 0 0 0 [])).wf = false ∧ (Instr.tug 0 (frameOf 0 0 2 0xFFFF 0 0 0 0 [])).wf = true ∧
      (Instr.collClear 0 (frameOf 0xB 2 2 5 1 0 0 0 [])).wf = false ∧ (Instr.coll 0 (frameOf 0xA 0 2 5 1 0 0 0 [])).wf = false := by
  decide +kernel

theorem test_wf_refuses_rest :
    (Instr.governorSample 0 []).wf = false ∧ (Instr.stackTrainingDone .kern [.mantle 0] []).wf = false ∧
      (Instr.standbyPowerUp 35999).wf = false ∧ (Instr.standbyPowerLoss 36000).wf = false ∧ (Instr.inputFault 38000).wf = false ∧
      (Instr.inputRecovery 60001).wf = false := by decide +kernel

/-! ### The machine and the host's registers -/

theorem test_decode_none : decodeTableWord 32 0x12345678 = none := rfl

theorem test_step_takes_front : ∃ t : State,
    step { State.reset with pending := [.perstNAssert, .flr] } = .next t ∧ t.pending = [.flr] := ⟨_, rfl, rfl⟩

theorem test_tick_counts : (match step { ready [] with power := Power.reset } with
    | .next t => (t.tb.now, t.clk)
    | _ => (0, 0)) = (10000000001, 10000000001) := by decide +kernel

theorem test_wit_wf : (ready []).wf = true := by decide +kernel

/-- CFG_CAP of the full part: SPL is bit 1, ROWL bit 0 (R21). -/
theorem test_cap_word : (regWord State.reset 0x10).getLsbD 0 = true := by decide +kernel

/-- A request of the host waits at a bank, and a write is held for a block that is moving. -/
def waitingHost : State :=
  { lined [] with ingress := { queue := [{ cmd := .msixUnmask 3, no := 0, host := true, addr := 0, len := 0, write := false }], next := 1 } }

def holdingWrite : State :=
  let s := lined []
  { s with tiers := { s.tiers with mergeHeld := [(4, { offset := 0, bytes := [1], chafed := false })] } }

theorem test_wit_turn :
    hostReach (ready []) = true ∧ hostTurn (ready []) = true ∧ portTurn (ready []) = true ∧ hostWaits waitingHost = true ∧
      heldWrites (lined []) = false ∧ heldWrites holdingWrite = true ∧ hostTurn (lined []) = true := by decide +kernel

theorem test_wit_wait_served : ∃ t : State,
    exec (.msixUnmask 3) { waitingHost with ingress := { waitingHost.ingress with queue := [] } } = .next t ∧ t.ingress.queue = [] :=
  ⟨_, rfl, by decide +kernel⟩

theorem test_wit_nip :
    nipAvail (ready []) = true ∧ (ready []).pmu.nipAt = none ∧ (10 : BitVec 5).toNat = 10 ∧ (30 : BitVec 5).toNat = 30 := by
  decide +kernel

theorem test_wit_nip_busy :
    { ready [] with pmu := { (ready []).pmu with nipAt := some 1000000, nipHeld := some [(3, 4)] } }.pmu.nipHeld = some [(3, 4)] ∧
      { ready [] with pmu := { (ready []).pmu with nipAt := some 1000000 } }.pmu.nipAt = some 1000000 ∧
      (ready []).pmu.nipHeld = none ∧ 1000000 ≤ (ready []).tb.now.toNat := by decide +kernel

theorem test_wit_doorbell : hostReach (lined []) = true ∧ lineOn (lined []) 0 = true ∧ lineOn (lined []) 1 = false := by
  decide +kernel



/-! ### The host's registers and port: hypotheses met -/

/-- Peer 7 lost, and a slot booted whose SVN is 9. -/
def commanded : State :=
  let s := lined []
  { lineSet s 0 { lineGet s 0 with stopped := true } with
    boot := { s.boot with slots := [{ SlotInfo.reset with svn := 9 }] }
    net := { s.net with peers := [(7, { Peer.reset with state := .lost })] } }

theorem test_wit_commands :
    hostTurn commanded = true ∧ lineState commanded 0 = 3 ∧ lineState commanded 1 ≠ 3 ∧ (lineGet commanded 0).loop = none ∧
      (1 : W32).getLsbD 0 = true ∧ (0x2000000 : W32).getLsbD 25 = true ∧ (4 : W32).getLsbD 2 = true ∧
      peerGone commanded 7 = true ∧ (0x4000 : W32).getLsbD 14 = true ∧ commanded.boot.slot < 2 := by decide +kernel

theorem test_wit_break : ∃ lp : LoopSt, (lineGet (lineSet (lined []) 0 { lineGet (lined []) 0 with
    loop := some { slot := 3, dist := 2, left := 5, breakPending := false } }) 0).loop = some lp := ⟨_, rfl⟩

/-- SVN_COMMIT of slot 0's SVN 9 over a floor of 0 (R380). -/
theorem test_svn_commit : (match exec (.svnCommit 0x4000) commanded with
    | .next t => t.fuses.svnFloor
    | _ => 0) = 9 := by decide +kernel

theorem test_wit_stage :
    goodAccess (0x400000 : BitVec 26).toNat 8 = goodAccess 0x400000 8 ∧ goodAccess (0x380000 : BitVec 26).toNat 8 = true ∧
      (0x380000 : BitVec 26).toNat < actBase ∧ woAt 0x380000 = none ∧
      wrRegs.find? (fun r => r.holds 0x380000) = none ∧ wrRegs.find? (fun r => r.holds 0x380004) = none ∧
      woRegs.contains (0x380818 : BitVec 26).toNat = true ∧ goodAccess (0x12 : BitVec 26).toNat 4 = false ∧
      goodAccess (0x10 : BitVec 26).toNat 2 = false := by decide +kernel

theorem test_wit_read :
    goodAccess (0x100 : BitVec 26).toNat 8 = true ∧ goodAccess (0x104 : BitVec 26).toNat 4 = true ∧
      goodAccess (BitVec.ofNat 26 (actBase + 4)).toNat 4 = true ∧ actBase ≤ (BitVec.ofNat 26 (actBase + 4)).toNat := by decide +kernel

/-- CFG_TB_NOW read whole by 8 bytes answers the timebase (R2). -/
theorem test_read_now : (match exec (.readClear 0x100 8) (ready []) with
    | .next t => t.port.out
    | _ => []) = [.reg 8 10000000000] := by decide +kernel

/-- An 8 B read at the last bytes of a 64 B line of block 4, and a write of the block's last byte, meet what the statement asks
of them. -/
theorem test_wit_bar4 :
    portTurn (lined []) = true ∧ bar4Unpop (lined []) 0x40038 8 = false ∧ tierLost (lined []) 0x40038 = false ∧
      hostHeld (lined []) 0x40038 8 false = false ∧ 0x40038 % 64 + 8 ≤ 64 ∧ locate (lined []) none (4 * blockBytes + 56) = some (frameBase .kern 4 + 56) ∧
      (lined []).mem.posted = [] ∧ (lined []).mem.ahead = [] ∧
      bar4Unpop (lined []) (4 * blockBytes + (blockBytes - 1)) 1 = false ∧
      hostHeld (lined []) (4 * blockBytes + (blockBytes - 1)) 1 true = false ∧
      locate (lined []) none (4 * blockBytes + (blockBytes - 1)) = some (frameBase .kern 4 + (blockBytes - 1)) ∧
      (htGet (lined []) 4).state ≠ .moving ∧ (lined []).tiers.merging.contains 4 = false ∧ (htGet (lined []) 4).derived = false ∧
      plainSpan (lined []) (frameBase .kern 4 + (blockBytes - 1)) 1 = true := by decide +kernel

theorem test_wit_bar4_derived :
    let s := bind (lined []) [(4, { kernBlock 4 with derived := true })]
    (htGet s 4).derived = true ∧ (htGet s 4).state ≠ .moving ∧ portTurn s = true ∧ hostHeld s (4 * blockBytes) 4 true = false ∧
      locate s none (4 * blockBytes) = some (frameBase .kern 4) := by decide +kernel

theorem test_wit_bar4_unpop :
    bar4Unpop (lined []) (2 ^ 40 + 96 * 2 ^ 30) 4 = true ∧
      { lined [] with port := { (lined []).port with flrAt := some 0 } }.port.flrAt ≠ none := by decide +kernel

/-- The export of one mantle slab set, live, with its first block bound. -/
def exporting : State :=
  let s := bind (ready [(flCxlValid, 0, 1), (flCxlSlabs, 0, 1)]) [(blockNo mantleBase, mantleBlock 0)]
  { s with boot := { s.boot with personality := 2 }, port := { s.port with cxlmLive := true } }

theorem test_wit_cxl :
    cxlName exporting 0x40 = some (mantleBase + 64) ∧ cxlName exporting 0x20 = none ∧ cxlName (ready []) 0 = none ∧
      portTurn exporting = true ∧ exporting.port.flrAt = none ∧
      locate exporting none (mantleBase + 64) = some (frameBase .mantle 0 + 64) ∧ (frameBase .mantle 0 + 64) % 64 = 0 ∧
      hostHeld exporting (mantleBase + 64) 64 false = false ∧ hostHeld exporting (mantleBase + 64) 64 true = false ∧
      exporting.mem.posted = [] ∧ exporting.mem.ahead = [] ∧ exporting.tiers.merging = [] ∧
      (htGet exporting (blockNo (mantleBase + 64))).state = .home ∧ (htGet exporting (blockNo (mantleBase + 64))).derived = false ∧
      plainSpan exporting (frameBase .mantle 0 + 64) 64 = true ∧ exporting.boot.personality = 2 := by decide +kernel

theorem test_wit_read_fail : (ready []).port.linkUp = true ∧ hostReach (ready []) = true ∧ hostBlockAt (ready []) hostBase = none := by decide +kernel

theorem test_wit_flr :
    collOps (withOps (lined []) 0 [running 0]) = [] ∧ portReach (withOps (lined []) 0 [running 0]) = true ∧
      { lined [] with port := { (lined []).port with flrAt := some 0 } }.port.flrAt ≠ none ∧
      (allOps (flrStops (lined []))).all (fun p => opIdle (flrStops (lined [])) p.1 p.2) = true := by decide +kernel

theorem test_wit_port_down :
    (lined []).port.linkUp = true ∧ allOps (lined []) = [] ∧ (lined []).tiers.moves = [] := by decide +kernel

theorem test_wit_port_down_tiles (k : Nat) : (strandGet (lined []) k).tiles = [] := rfl

theorem test_wit_port_up :
    let s := { ready [] with port := { (ready []).port with linkUp := false, pba := [2047] } }
    s.power.rails = true ∧ s.power.perstActed = false ∧ s.pins.refclkOk = true ∧ s.port.linkUp = false ∧ 1 ≤ s.boot.phase ∧
      s.port.flrAt = none ∧ s.port.pba = [2047] := by decide +kernel

theorem test_wit_port_up_mask :
    let s := { ready [] with port := { (ready []).port with msix := [(2047, { MsixEntry.reset with mask := false })] } }
    (mapGet MsixEntry.reset s.port.msix 2047).mask = false := by decide +kernel
/-! ### The take and the dispatch: hypotheses met -/

/-- Bytes placed at a frame address. -/
def poke (s : State) (fa : Nat) (bs : List Byte) : State :=
  { s with mem := { s.mem with
    bytes := ((List.range bs.length).zip bs).foldl (fun m p => mapSet 0 m (fa + p.1) p.2) s.mem.bytes } }

/-- A granule chafed. -/
def chafe (s : State) (fa : Nat) : State := { s with mem := { s.mem with chafed := [granOf fa] } }

/-- The bytes of a descriptor. -/
def descBytes (d : BitVec 512) : List Byte := bytesOf 64 d.toNat

/-- Blocks 6 to 15 of kern, each in its own frame, for the data of an operation. -/
def dataBlocks : List (Nat × HtEntry) := (List.range 10).map (fun i => (6 + i, kernBlock (6 + i)))

/-- The device address of a block. -/
def at_ (block : Nat) : Nat := block * blockBytes

/-- Line 0 with the data blocks. -/
def stage (ps : List (Fld × Nat × Nat)) : State := bind (lined ps) dataBlocks

/-- Line 0 with one undispatched operation. -/
def offered (ps : List (Fld × Nat × Nat)) (d d2 : BitVec 512) : State := withOps (stage ps) 0 [{ taken d with desc2 := d2 }]

/-- A LINE stopper waits in slot 0, and the doorbell covers it. -/
def rung (d : BitVec 512) : State :=
  let s := poke (lined []) (frameBase .kern 4) (descBytes d)
  lineSet s 0 { lineGet s 0 with tail := 1 }

/-- The arbiter picks line 0, whose view reads unchafed and gets this submission status. -/
def takesWith (s : State) (st : Nat) : Bool :=
  (takeReq s 0).isSome && (takePick s 0).1.any (fun q => q.key = 0 && !(takeView s 0).chafed &&
    (submitStatus (takeFetched (takeGranted s 0 q) 0 (takeView s 0)) 0 (takeView s 0).d (takeView s 0).d2).1 = st)

theorem test_wit_take : takesWith (rung (words [(0, 0, opStopper)])) stOk = true := by decide +kernel

theorem test_wit_take_rejected : takesWith (rung 0) stDescInvalid = true ∧ recordOpen (rung 0) 0 = true := by decide +kernel

theorem test_wit_take_chafed :
    let s := chafe (rung 0) (frameBase .kern 4)
    (takeView s 0).chafed = true ∧ (takeReq s 0).isSome = true ∧ (takePick s 0).1.any (fun q => q.key = 0) = true ∧
      recordOpen s 0 = true := by decide +kernel

/-- An operation offered for dispatch, with a record that can be written. -/
def offers (s : State) (opc : Nat) : Bool :=
  match undispatched s 0 with
  | some o => dispatchable s 0 o opc && recordOpen s 0
  | none => false

/-- A BRD_MM of 1 × 1 × 1 W32 elements from blocks 6 and 7 to block 8. -/
def brd (epi : Nat) : BitVec 512 :=
  words [(0, 0, opBrdMm), (8, 0, at_ 6), (16, 0, at_ 7), (24, 0, at_ 8), (24, 63, epi), (32, 0, 1), (32, 20, 1), (32, 40, 1),
    (40, 0, 1), (40, 20, 1), (40, 40, 1), (48, 52, 1)]

/-- An epilogue's VEC_OP with its program block at block 6. -/
def epilogue : BitVec 512 := words [(0, 0, opVecOp), (48, 0, at_ 6), (48, 49, 1), (48, 53, 1)]

theorem test_wit_brd :
    offers (offered [] (brd 0) 0) opBrdMm = true ∧ (bmD (brd 0)).eye = false ∧
      touchesDerived (offered [] (brd 0) 0) [bmFootD (brd 0)] = false ∧
      touchesDerived (bind (offered [] (brd 0) 0) [(8, { kernBlock 8 with derived := true })]) [bmFootD (brd 0)] = true ∧
      offers (offered [] (brd 1) epilogue) opBrdMm = true ∧ bmEpi (brd 1) = true ∧
      vecProgOk (vcLen epilogue) (readProg (poke (offered [] (brd 1) epilogue) (frameBase .kern 6) [0x20]) 0 epilogue).1 = true ∧
      vecProgOk (vcLen epilogue) (readProg (poke (offered [] (brd 1) epilogue) (frameBase .kern 6) [0xFF, 0xFF, 0xFF, 0xFF]) 0 epilogue).1 =
        false := by decide +kernel

/-- A bight descriptor: queries of B16 in block 9, O in block 10, statistics in block 11, one sequence. -/
def bight (bwd : Bool) : BitVec 512 :=
  words [(0, 0, if bwd then opBgtBwd else opBgtFwd), (8, 0, at_ 9), (8, 49, 1), (16, 0, at_ 10), (16, 49, 1), (24, 0, at_ 11), (24, 49, 1),
    (32, 0, at_ 6), (32, 48, 1), (40, 0, at_ 7), (48, 0, at_ 7 + 4096), (48, 48, 1), (56, 32, if bwd then 1 else 0)]

/-- Its parameter block: SCALE 1.0, one head, DL 64, DR 0, each leading dimension 64; the gradients in blocks 12 to 14. -/
def bightPar (bwd : Bool) : List Byte :=
  bytesOf 8 (0x3F800000 + 1 <<< 32 + 64 <<< 48) ++ bytesOf 8 (64 <<< 32) ++ bytesOf 8 (64 + (if bwd then 64 <<< 32 else 0)) ++
    List.replicate 24 0 ++ (if bwd then bytesOf 8 (at_ 12) ++ bytesOf 8 (at_ 13) ++ bytesOf 8 (at_ 14) else List.replicate 24 0) ++
    List.replicate 56 0

/-- One query over 64 positions, whose page is block 8. -/
def bightState (bwd : Bool) : State :=
  poke (poke (poke (offered [] (bight bwd) 0) (frameBase .kern 6) (bightPar bwd)) (frameBase .kern 7) (bytesOf 8 (1 <<< 32) ++ bytesOf 8 64))
    (frameBase .kern 7 + 4096) (bytesOf 8 (at_ 8))

/-- The checks of R144 on the operation offered: chafed blocks, then whether a check fails. -/
def bightFails (s : State) (bwd : Bool) : Bool × Bool × Bool :=
  let o := { taken (bight bwd) with desc2 := 0 }
  let par := devRead s (some (lineAcct s 0)) (bgParam o.desc) 128
  let tab := devRead s (some (lineAcct s 0)) (bgLt o.desc) (32 * bgNseq o.desc)
  let o1 := { opDispatch s o with par := par.1, tab := tab.1 }
  let o2 := { o1 with ptab := readPages s (lineAcct s 0) o1 }
  let h := bgShape o.desc par.1
  (par.2, tab.2, (views s).any (fun v => !bgtCheck v (lineStrand s 0) (lineAcct s 0) h o2) || touchesDerived s (bgtOutSpans h o2))

theorem test_wit_bight_fwd :
    offers (bightState false) opBgtFwd = true ∧ bightFails (bightState false) false = (false, false, false) ∧
      bightFails (offered [] (bight false) 0) false = (false, false, true) ∧
      (bightFails (chafe (bightState false) (at_ 6)) false).1 = true := by decide +kernel

theorem test_wit_bight_bwd :
    offers (bightState true) opBgtBwd = true ∧ bightFails (bightState true) true = (false, false, false) ∧
      bightFails (offered [] (bight true) 0) true = (false, false, true) ∧
      (bightFails (chafe (bightState true) (at_ 7)) true).2.1 = true := by decide +kernel

/-- A VEC_OP of one row of 32 W32 elements, with its program in block 6 and its record in block 7. -/
def vec (commit : Nat) : BitVec 512 :=
  words [(0, 0, opVecOp), (8, 0, at_ 8), (16, 0, at_ 7), (24, 0, at_ 9), (32, 0, 1), (32, 20, 32), (40, 0, 32), (40, 20, 32), (40, 40, 32),
    (48, 0, at_ 6), (48, 49, 1), (48, 61, commit)]

def vecState (commit : Nat) : State := poke (offered [] (vec commit) 0) (frameBase .kern 6) [0x20]

theorem test_wit_vec :
    offers (vecState 0) opVecOp = true ∧ vecProgOk (vcLen (vec 0)) (readProg (vecState 0) 0 (vec 0)).1 = true ∧ vcCommit (vec 0) = false ∧
      vecProgOk (vcLen (vec 0)) (readProg (poke (vecState 0) (frameBase .kern 6 + 3) [0x80]) 0 (vec 0)).1 = false ∧
      offers (vecState 1) opVecOp = true ∧ vcCommit (vec 1) = true ∧ (commitRecord (vecState 1) 0 (vec 1)).2 = false ∧
      abortPending (vecState 1) 0 = false ∧ recSkip (commitRecord (vecState 1) 0 (vec 1)).1 = false ∧
      (commitRecord (chafe (vecState 1) (at_ 7 + 32)) 0 (vec 1)).2 = true ∧
      recSkip (commitRecord (poke (vecState 1) (frameBase .kern 7) [1]) 0 (vec 1)).1 = true := by decide +kernel

/-- A MOVE-family descriptor: operation, destination, first block, blocks, DERIVED, SHARED and PINNED. -/
def runOf (op dest block count sets : Nat) : BitVec 512 :=
  words [(0, 0, opMove), (8, 0, at_ block), (16, 0, count), (16, 25, op), (16, 28, dest), (16, 30, sets)]

def hard : List (Fld × Nat × Nat) := [(flCleatHardK, 0, 2), (flCleatHardM, 0, 2)]

/-- A MOVE of block 15 to the mantle under HARD 2, the two of an ALLOC, and their failures. -/
theorem test_wit_move :
    offers (offered hard (runOf 0 1 15 1 0) 0) opMove = true ∧ mvOp (runOf 0 1 15 1 0) = 0 ∧
      runOk (offered hard (runOf 0 1 15 1 0) 0) 0 (runOf 0 1 15 1 0) = true ∧
      decide (charge (offered hard (runOf 0 1 15 1 0) 0) 0 .mantle + (chargedBlocks (offered hard (runOf 0 1 15 1 0) 0) (runOf 0 1 15 1 0)).length ≤
        hardOf (offered hard (runOf 0 1 15 1 0) 0) 0 .mantle) = true ∧
      skipBlock (offered hard (runOf 0 1 15 1 0) 0) 0 (runOf 0 1 15 1 0) 15 = none ∧
      decide (charge (offered [] (runOf 0 1 15 1 0) 0) 0 .mantle + (chargedBlocks (offered [] (runOf 0 1 15 1 0) 0) (runOf 0 1 15 1 0)).length ≤
        hardOf (offered [] (runOf 0 1 15 1 0) 0) 0 .mantle) = false ∧
      runOk (offered hard (runOf 0 1 16 1 0) 0) 0 (runOf 0 1 16 1 0) = false := by decide +kernel

theorem test_wit_alloc :
    offers (offered hard (runOf 1 0 16 2 1) 0) opMove = true ∧ mvOp (runOf 1 0 16 2 1) = 1 ∧
      mvDerived (runOf 1 0 16 2 1) = true ∧ mvDest (runOf 1 0 16 2 1) = .kern ∧
      runOk (offered hard (runOf 1 0 16 2 1) 0) 0 (runOf 1 0 16 2 1) = true ∧
      decide (charge (offered hard (runOf 1 0 16 2 1) 0) 0 .kern + (chargedBlocks (offered hard (runOf 1 0 16 2 1) 0) (runOf 1 0 16 2 1)).length ≤
        hardOf (offered hard (runOf 1 0 16 2 1) 0) 0 .kern) = true ∧
      skipBlock (offered hard (runOf 1 0 16 2 1) 0) 0 (runOf 1 0 16 2 1) 16 = none ∧
      decide (charge (offered hard (runOf 1 0 16 3 1) 0) 0 .kern + (chargedBlocks (offered hard (runOf 1 0 16 3 1) 0) (runOf 1 0 16 3 1)).length ≤
        hardOf (offered hard (runOf 1 0 16 3 1) 0) 0 .kern) = false ∧
      runOk (offered hard (runOf 1 0 15 2 1) 0) 0 (runOf 1 0 15 2 1) = false := by decide +kernel

theorem test_wit_free_attr :
    offers (offered [] (runOf 2 0 14 2 0) 0) opMove = true ∧ mvOp (runOf 2 0 14 2 0) = 2 ∧
      runOk (offered [] (runOf 2 0 14 2 0) 0) 0 (runOf 2 0 14 2 0) = true ∧
      (htGet (offered [] (runOf 2 0 14 2 0) 0) 15).state ≠ .moving ∧ (htGet (offered [] (runOf 2 0 14 2 0) 0) 14).state ≠ .moving ∧
      offers (offered [] (runOf 3 0 14 2 7) 0) opMove = true ∧ mvOp (runOf 3 0 14 2 7) = 3 ∧
      runOk (offered [] (runOf 3 0 14 2 7) 0) 0 (runOf 3 0 14 2 7) = true := by decide +kernel

/-- A ROW_SEQ of one word at block 6 on bank 31 of the last channel. -/
def rows : BitVec 512 := words [(0, 0, opRowSeq), (8, 0, at_ 6), (8, 48, 1), (16, 0, 767), (16, 10, 1), (16, 63, 1)]

/-- The word: the latch takes zeros, no operand, no row written. -/
def rowZero : List Byte := bytesOf 8 (0x10 + 0xFFF <<< 12 + 0xFFF <<< 24 + 0xFFF <<< 36 + 0xFFF <<< 48)

theorem test_wit_row_seq :
    let good := poke (offered [] rows 0) (frameBase .kern 6) rowZero
    let fails (s : State) := (views s).any (fun v => !((List.range (rsProgLen rows)).all (fun i =>
      rowWordOk v 0 (rowWord (devRead s (some 0) (rsProgAddr rows) (8 * rsProgLen rows)).1 i))))
    offers good opRowSeq = true ∧ (devRead good (some 0) (rsProgAddr rows) 8).2 = false ∧ fails good = false ∧
      fails (offered [] rows 0) = true ∧ (devRead (chafe good (at_ 6)) (some 0) (rsProgAddr rows) 8).2 = true := by decide +kernel

/-- An SPL operation of 64 elements on arena 15, with its blocks in 6 and 7; one LDS of a kern stream in block 8. -/
def spl (upd : Bool) : BitVec 512 :=
  words [(0, 0, if upd then opSplUpd else opSplAcc), (8, 0, at_ 6), (8, 48, 15), (8, 53, 1), (16, 0, at_ 7), (24, 0, 64)]

def splState (upd : Bool) (verdict : Nat) : State :=
  poke (poke (offered [(flArenaValid, 15, 1), (flArenaSlabs, 15, 1)] (spl upd) 0) (frameBase .kern 6)
    (bytesOf 8 (at_ 8 + 2 <<< 52) ++ List.replicate 200 0 ++ bytesOf 8 verdict)) (frameBase .kern 7) [0x30]

def splFails (s : State) (upd : Bool) : Bool × Bool × Option Nat :=
  let d := spl upd
  let par := devRead s (some 0) (spParam d) 256
  let prog := devRead s (some 0) (spProg d) 128
  (par.2, prog.2, (views s).findSome? (fun v => splDispatchCheck v 0 (taken d) par.1 prog.1))

theorem test_wit_spl :
    offers (splState true 0) opSplUpd = true ∧ splFails (splState true 0) true = (false, false, none) ∧
      offers (splState false 0) opSplAcc = true ∧ splFails (splState false 0) false = (false, false, none) ∧
      (splFails (chafe (splState true 0) (at_ 6 + 224)) true).1 = true ∧ abortPending (splState true 0) 0 = false := by decide +kernel

theorem test_wit_spl_record :
    let s := splState true (at_ 9)
    splFails s true = (false, false, none) ∧ spVerdict (devRead s (some 0) (spParam (spl true)) 256).1 = at_ 9 ∧
      (devRead s (some 0) (at_ 9) 64).2 = false ∧ recSkip (devRead s (some 0) (at_ 9) 64).1 = false ∧
      recSkip (devRead (poke s (frameBase .kern 9) [1]) (some 0) (at_ 9) 64).1 = true := by decide +kernel

/-- A SNAPSHOT of 64 W32 elements of arena 15 to the host. -/
def snap : BitVec 512 := words [(0, 0, opSnapshot), (8, 48, 15), (24, 0, 64), (32, 0, hostBase)]

theorem test_wit_snapshot :
    let s := offered [(flArenaValid, 15, 1), (flArenaSlabs, 15, 1)] snap 0
    offers s opSnapshot = true ∧ (views s).any (fun v => !snDispatchOk v 0 snap) = false ∧ snRec snap = 0 ∧ snPeer snap = false := by
  decide +kernel

/-- A collective of 64 B16 elements on axis 7, of two members; device 0 is the other one. -/
def coll (op peer : Nat) : BitVec 512 :=
  words [(0, 0, opCapColl), (8, 0, op), (8, 4, if op = cxVerdict then 0 else 7), (8, 9, 1), (8, 32, peer),
    (8, 48, if op = cxVerdict then 128 else 0), (16, 0, at_ 6), (24, 0, at_ 7), (32, 0, if op = cxBarrier || op = cxVerdict then 0 else 64),
    (40, 0, if op = cxVerdict then at_ 8 else 0)]

def collState (op : Nat) : State := offered [(flAxSize, 7, 2), (flAxRank, 7, 1)] (coll op 0) 0

theorem test_wit_coll :
    (List.range 10).all (fun op => offers (collState op) opCapColl && ccOp (coll op 0) == op &&
      !touchesDerived (collState op) (ccWrites (collState op) (coll op 0)) &&
      !(ccMembers (collState op) (coll op 0)).any (peerGone (collState op)) && (collState op).net.earlySigs.isEmpty) = true ∧
    [cxAllReduce, cxReduceScatter, cxAllGather, cxAllToAll, cxSend, cxRecv, cxBarrier, cxVerdict, cxGather, cxBroadcast].all
      (fun op => op < 10) = true := by decide +kernel

theorem test_wit_coll_derived :
    (List.range 10).all (fun op => [cxSend, cxBarrier, cxGather].contains op || (let s := bind (collState op) [(7, { kernBlock 7 with derived := true }),
      (8, { kernBlock 8 with derived := true })]; touchesDerived s (ccWrites s (coll op 0)))) = true := by decide +kernel

/-- Block 6, where the programs and parameters lie, awaits its merge: a dispatch that reads it is held. -/
def merging6 (s : State) : State := { s with tiers := { s.tiers with merging := [6] } }

theorem test_wit_dispatch_reads :
    readsHeld (vecState 0) (vecDispReads (vec 0)) = false ∧ readsHeld (vecState 1) (vecDispReads (vec 1)) = false ∧
      readsHeld (merging6 (vecState 0)) (vecDispReads (vec 0)) = true ∧ offers (merging6 (vecState 0)) opVecOp = true := by
  decide +kernel

theorem test_wit_bank_reads :
    let r := [(rsProgAddr rows, 8 * rsProgLen rows)]
    let p := [(spParam (spl true), 256), (spProg (spl true), 128)]
    readsHeld (offered [] rows 0) r = false ∧ readsHeld (merging6 (offered [] rows 0)) r = true ∧
      readsHeld (splState true 0) p = false ∧ readsHeld (merging6 (splState true 0)) p = true ∧
      readsHeld (splState true (at_ 9)) (p ++ [(at_ 9, 64)]) = false ∧ readsHeld (splState false 0) p = false := by decide +kernel

theorem test_wit_bight_reads :
    let spans (bwd : Bool) : List (Nat × Nat) := [(bgParam (bight bwd), 128), (bgLt (bight bwd), 32 * bgNseq (bight bwd))] ++
      pageTabSpans { opDispatch (bightState bwd) { taken (bight bwd) with desc2 := 0 } with
        tab := (devRead (bightState bwd) (some 0) (bgLt (bight bwd)) 32).1 }
    readsHeld (bightState false) (spans false) = false ∧ readsHeld (bightState true) (spans true) = false ∧
      readsHeld (merging6 (bightState false)) (spans false) = true := by decide +kernel

/-- A freed entry is taken before a new one: operations 0 and 2 in flight leave entry 1 (R285). -/
theorem test_free_entry : freeEntry [running 0, { running 0 with entry := 2 }] = 1 := by decide
/-! ### The line engines' operations and the belay engine: hypotheses met -/

/-- A second line, with rings in blocks 14 and 15. -/
def line1 : List (Fld × Nat × Nat) :=
  [(flLineEn, 1, 1), (flRingBase, 1, 0xE0), (flRingLog2, 1, 4), (flCqBase, 1, 0xF0), (flCqLog2, 1, 4)]

/-- Line 0 with one dispatched operation. -/
def inFlight (ps : List (Fld × Nat × Nat)) (d : BitVec 512) : State := withOps (stage ps) 0 [running d]

def stopper (scope axis : Nat) : BitVec 512 := words [(0, 0, opStopper), (8, 0, scope), (8, 3, axis)]

/-- A stopper of a scope that waits alone on line 0. -/
def stops (s : State) (scope : Nat) : Bool :=
  stopperOf s 0 == some (running (stopper scope 7)) && (lineGet s 0).ops.length = 1 && recordOpen s 0 && !heldWrites s && s.ingress.queue.isEmpty &&
    stopScope (stopper scope 7) = scope && (running (stopper scope 7)).total = 0

theorem test_wit_stopper :
    offers (offered [] (stopper 0 0) 0) opStopper = true ∧
      (List.range 5).all (fun k => stops (inFlight [] (stopper k 7)) k) = true ∧ (inFlight [] (stopper 3 7)).port.linkUp = true ∧
      stops { inFlight [] (stopper 3 7) with port := { (inFlight [] (stopper 3 7)).port with linkUp := false } } 3 = true ∧
      axisOthers (inFlight [] (stopper 4 7)) (stopAxis (stopper 4 7)) = [] ∧
      (let s := inFlight [(flAxSize, 7, 2), (flAxRank, 7, 1)] (stopper 4 7)
       axisOthers s (stopAxis (stopper 4 7)) = [0] ∧ (axisOthers s (stopAxis (stopper 4 7))).any (peerGone s) = false ∧
        (axisOthers s (stopAxis (stopper 4 7))).any (peerGone { s with net := { s.net with
          peers := [(0, { Peer.reset with state := .unreachable })] } }) = true) := by decide +kernel

theorem test_wit_stopper_end :
    let o := { running (stopper 4 7) with total := 1 }
    let s := withOps (stage []) 0 [o]
    let f : FlushSt := { line := 0, seq := 0, id := 1, axis := 7, waiting := [] }
    stopperOf s 0 = some o ∧ o.total = 1 ∧ recordOpen s 0 = true ∧
      f ∈ { s with net := { s.net with flushes := [f] } }.net.flushes ∧ f.line = 0 ∧ f.seq = o.seq ∧ f.waiting = [] := by decide +kernel

/-- A HITCH_WAIT on hitch 262143 for VALUE, with TIMEOUT_NS. -/
def hwait (value timeout : Nat) : BitVec 512 := words [(0, 0, opHitchWait), (8, 0, 262143), (12, 0, value), (16, 0, timeout)]

def met (s : State) (d : BitVec 512) : Bool := decide (0 ≤ ((hitchGet s (hwHitch d)).count - hwValue d).toInt)

/-- The count less VALUE as a signed number: 0 meets it, −1 and −2^31 do not (R278). -/
theorem test_wit_hitch :
    offers (offered [] (hwait 0 0) 0) opHitchWait = true ∧ met (offered [] (hwait 0 0) 0) (hwait 0 0) = true ∧
      met (offered [] (hwait 1 0) 0) (hwait 1 0) = false ∧ met (offered [] (hwait 0x80000000 0) 0) (hwait 0x80000000 0) = false ∧
      met (offered [] (hwait 0xFFFFFFFF 0) 0) (hwait 0xFFFFFFFF 0) = true ∧
      waiting (inFlight [] (hwait 1 0xFFFFFFFF)) 0 = some (running (hwait 1 0xFFFFFFFF)) ∧
      hwTimeout (hwait 1 0xFFFFFFFF) ≠ 0 ∧ (running (hwait 1 0xFFFFFFFF)).cDisp + hwTimeout (hwait 1 0xFFFFFFFF) ≤ tbNow (ready []) ∧ hwTimeout (hwait 1 0) = 0 ∧
      offers (offered [] (words [(0, 0, opHitchSig), (12, 0, 5)]) 0) opHitchSig = true := by decide +kernel

/-- A HITCH_SIG of 5 on a hitch that counts zero leaves 5 (R278). -/
theorem test_hitch_sig : (match exec (.hitchSig 0) (offered [] (words [(0, 0, opHitchSig), (8, 0, 1024), (12, 0, 5)]) 0) with
    | .next t => (hitchGet t 1024).count
    | _ => 0) = 5 := by decide +kernel

theorem test_wit_knot :
    offers (offered [] (words [(0, 0, opKnot)]) 0) opKnot = true ∧ actF (offered [] (words [(0, 0, opKnot)]) 0) flKnotLog2 0 = 0 ∧
      (let s := offered [(flKnotBase, 0, at_ 8), (flKnotLog2, 0, 4)] (words [(0, 0, opKnot), (8, 5, 1)]) 0
       let head := actF s flKnotBase 0
       let rec_ := head + 64 + 32 * (s.pmu.knotTail % 2 ^ actF s flKnotLog2 0)
       offers s opKnot = true ∧ readsHeld s (knotSpans (words [(0, 0, opKnot)])) = false ∧ actF s flKnotLog2 0 ≠ 0 ∧ kernHome s head 64 = true ∧ kernHome s rec_ 32 = true ∧
        apart [(frameAt s head, 64), (frameAt s rec_, 32), (recordFrame s 0, 32)] = true) := by decide +kernel

theorem test_wit_knot_held :
    let d := words [(0, 0, opKnot), (16, 0, at_ 6)]
    offers (merging6 (offered [] d 0)) opKnot = true ∧ readsHeld (merging6 (offered [] d 0)) (knotSpans d) = true ∧
      readsHeld (offered [] d 0) (knotSpans d) = false := by decide +kernel

/-- Line 0 seen in a state since the start. -/
def seenAs (s : State) (st : Nat) : State := lineSet s 0 { lineGet s 0 with seen := st, since := 0 }

def wfcOn : List (Fld × Nat × Nat) := [(flWfcEn, 0, 1), (flWfcMs, 0, 9000)]

def haltedLine : State :=
  let s := seenAs (lined wfcOn) 4
  { s with tiers := { s.tiers with acct := [(0, { AcctSt.reset with halted := true })] } }

def stalledLine : State := let s := lined wfcOn; seenAs (lineSet s 0 { lineGet s 0 with cqTail := 15 }) 5

/-- Line 0 waits on a hitch that line 1 signalled last, and line 1 on one that line 0 did. -/
def waitsCross (back : Option Nat) : State :=
  let s := withOps (withOps (lined (line1 ++ wfcOn)) 0 [running (words [(0, 0, opHitchWait), (8, 0, 3), (12, 0, 1)])]) 1
    [running (words [(0, 0, opHitchWait), (8, 0, 4), (12, 0, 1)])]
  { seenAs s 2 with hitches := [(3, { Hitch.reset with lastLine := back }), (4, { Hitch.reset with lastLine := some 0 })] }

def scanFinds (s : State) : Option Nat := (scanOrder s).find? (fun n => longWait s n && (waitEdge s n).isSome)

theorem test_wit_scan :
    scanFinds haltedLine = some 0 ∧ lineState haltedLine 0 = 4 ∧ scanFinds stalledLine = some 0 ∧ lineState stalledLine 0 = 5 ∧
      scanFinds (waitsCross none) = some 0 ∧ waitEdge (waitsCross none) 0 = some (0, 3, none) ∧
      scanFinds (waitsCross (some 1)) = some 0 ∧ waitEdge (waitsCross (some 1)) 0 = some (0, 3, some 1) ∧
      waitEdge (waitsCross (some 1)) 1 = some (0, 4, some 0) ∧ haltedLine.wfc.valid = false ∧
      haltedLine.wfc.lastScan + 1000000 ≤ tbNow haltedLine ∧
      actF haltedLine flWfcEn 0 = 1 ∧ { haltedLine with wfc := { haltedLine.wfc with valid := true } }.wfc.valid = true := by decide +kernel

theorem test_wit_summary :
    let s := stage [(flSumBase, 0, at_ 8), (flSumPeriod, 0, 10)]
    let t := { s with boot := { s.boot with style := 1 } }
    t.boot.style = 1 ∧ actF t flSumBase 0 ≠ 0 ∧ t.boot.phase = 7 ∧ t.pmu.lastPass + sumPeriodNs t ≤ tbNow t ∧
      kernHome t (actF t flSumBase 0) 0x548 = true := by decide +kernel

/-- A LOOP at slot 0 over the three slots before it, COUNT 2. -/
def loop2 : BitVec 512 := words [(0, 0, opLoop), (8, 0, 2), (8, 32, 3)]

def looped (slot left : Nat) (brk : Bool) : State :=
  let s := offered [] loop2 0
  lineSet s 0 { lineGet s 0 with loop := some { slot := slot, dist := 3, left := BitVec.ofNat 32 left, breakPending := brk } }

theorem test_wit_loop :
    offers (offered [] loop2 0) opLoop = true ∧ (lineGet (offered [] loop2 0) 0).loop = none ∧ loopCount loop2 ≠ 0 ∧
      offers (looped 0 0 false) opLoop = true ∧ (lineGet (looped 0 0 false) 0).loop = some { slot := 0, dist := 3, left := 0, breakPending := false } ∧
      (taken loop2).slot = 0 ∧ (lineGet (looped 5 1 true) 0).loop = some { slot := 5, dist := 3, left := 1, breakPending := true } ∧
      offers (looped 5 1 true) opLoop = true := by decide +kernel

/-- Line 0 has taken one operation, in a track state. -/
def tracked (d : BitVec 512) (tr : Track) : State :=
  let s := withOps (lined line1) 0 [{ running d with track := tr }]
  lineSet s 0 { lineGet s 0 with nextSeq := 1 }

def aVec : BitVec 512 := words [(0, 0, opVecOp)]

theorem test_wit_controls :
    hostTurn (lined []) = true ∧ (lined []).regs.ctrlBusy = false ∧ lineOn (lined []) 1 = false ∧ unassigned (lined []) 0 0 = true ∧
      lineOn (tracked aVec .running) 0 = true ∧ unassigned (tracked aVec .running) 0 0 = false ∧
      opFind (tracked aVec .running) 0 0xFFFFFFFF = none ∧ unassigned (tracked aVec .running) 0 0xFFFFFFFF = false ∧
      opFind (tracked aVec .suspended) 0 0 = some { running aVec with track := .suspended } ∧ suspendable (opcodeOf aVec) = true ∧
      resumeRoom (tracked aVec .suspended) 0 = true ∧ suspendable opHitchWait = false ∧ neverCancelled opKnot = true ∧
      neverCancelled (opcodeOf aVec) = false ∧
      resumeRoom (lineSet (tracked aVec .suspended) 0 { lineGet (tracked aVec .suspended) 0 with cqTail := 12 }) 0 = false := by
  decide +kernel

/-- A CTRL of line 1 on operation 0 of line 0. -/
def ctrlOf (act : Nat) : BitVec 512 := words [(0, 0, opCtrl), (8, 0, 0), (8, 16, act), (16, 0, 0)]

def controlled (act : Nat) (d : BitVec 512) (tr : Track) : State :=
  bind (withOps (tracked d tr) 1 [taken (ctrlOf act)]) [(14, kernBlock 14), (15, kernBlock 15)]

theorem test_wit_ctrl :
    (List.range 3).all (fun act => dispatchable (controlled act aVec .running) 1 (taken (ctrlOf act)) opCtrl &&
      recordOpen (controlled act aVec .running) 1 && ctrlAction (ctrlOf act) == act && ctrlLine (ctrlOf act) == 0 &&
      opFind (controlled act aVec .suspended) (ctrlLine (ctrlOf act)) (ctrlSeq (ctrlOf act)) ==
        some { running aVec with track := .suspended }) = true ∧
    recordOpen (opSet (controlled 0 aVec .running) 0 { running aVec with track := .suspendPending, suspendedBy := some 1 }) 1 = true ∧
    recordOpen (resumeOp (controlled 1 aVec .suspended) 0 { running aVec with track := .suspended }) 1 = true := by decide +kernel

theorem test_wit_resume_effect :
    let o := { running aVec with track := .suspended, resumeBy := some none }
    let s := withOps (tracked aVec .suspended) 0 [o]
    let x := { running (ctrlOf 1) with resumeBy := some (some (0, 0)) }
    let t := bind (withOps (tracked aVec .suspended) 1 [x]) [(14, kernBlock 14), (15, kernBlock 15)]
    opFind s 0 0 = some o ∧ resumeRoom s 0 = true ∧ resumeWaiters s 0 0 = [] ∧ hostTurn s = true ∧ recordOpen s 0 = true ∧
      s.belay.run = none ∧ s.belay.ready = [] ∧ s.belay.waiting = [] ∧ o.dispatched = true ∧ censusKey o = none ∧
      resumeWaiters t 0 0 = [(1, x)] ∧ suspendable (opcodeOf aVec) = true ∧
      recordOpen (noteLine (opSet t 0 { running aVec with readyAt := none }) 0) 1 = true ∧ resumeRoom t 0 = true ∧
      resumeRoom (lineSet s 0 { lineGet s 0 with cqTail := 12 }) 0 = false := by decide +kernel

/-- A BELAY descriptor of a mode. -/
def belays (mode check : Nat) : BitVec 512 := words [(0, 0, opBelay), (8, 0, mode), (8, 2, check)]

theorem test_wit_belay_descriptor :
    (List.range 3).all (fun m => offers (offered [] (belays m 0) 0) opBelay && offers (offered [] (belays m 1) 0) opBelay &&
      byMode (belays m 1) == m && byCheck (belays m 1) && !byCheck (belays m 0)) = true ∧
    [BelayMode.immediate, .atBarrier, .force].all (fun m => modeCode m < 3) = true := by decide +kernel

/-- A host request. -/
def ask (s : State) : BelayReq := hostReq s .immediate false false 0 0

/-- The engine free with one ready request. -/
def asked (s : State) (r : BelayReq) : State := { s with belay := { s.belay with hostBusy := true, ready := [r] } }

theorem test_wit_belay_busy :
    hostTurn (asked (ready []) (ask (ready []))) = true ∧ (asked (ready []) (ask (ready []))).belay.hostBusy = true ∧
      (ready []).belay.hostQueued = false ∧ (ready []).boot.phase ≠ 8 ∧ hostTurn { ready [] with boot := { (ready []).boot with phase := 8 } } = true := by
  decide +kernel

theorem test_wit_belay_take :
    let s := asked (ready []) (ask (ready []))
    s.belay.ready.find? (reqLive s) = some (ask (ready [])) ∧ (ask (ready [])).line = none ∧ s.belay.run = none ∧ s.boot.phase = 7 ∧
      s.port.flrAt = none ∧ (ask (ready [])).revert = false ∧ (ask (ready [])).checkOnly = false := by decide +kernel

/-- A belay that holds the engine at a stage, with an affected unit. -/
def belaying (s : State) (st : BelayStage) (mode : BelayMode) (retries : Nat) (units : List Nat) : State :=
  { s with belay := { s.belay with run := some { req := { hostReq s mode false false 0 0 with retries := retries }, snapshot := s.cfg.act,
                                                  stage := st, fenceAt := 0, drainEndAt := 0, units := units, cancelled := 0 } } }

theorem test_wit_belay_run :
    runAt (ready []) .barrier = none ∧ (runAt (belaying (ready []) .drain .immediate 0 []) .drain).any (fun r =>
      (dependentsNow (belaying (ready []) .drain .immediate 0 []) r).isEmpty && decide (r.fenceAt + r.req.drainUs * 1000 ≤ 10000000000) &&
      r.req.line.isNone) = true ∧
      (runAt { belaying (ready [(flDrainUs, 0, 1000)]) .drain .immediate 0 [] with tb := Timebase.reset } .drain).any (fun r =>
        decide (0 < r.fenceAt + r.req.drainUs * 1000)) = true := by decide +kernel
/-- A consistent coil: the module is device 5, whose own route entry is 0xEE, the timebase's root, with link 0 on port 0. -/
def routed : SMap W32 := cwSet (conf [(flTbRoot, 0, 1), (flLinkEn, 0, 1), (flPortNbr, 0, 7)]) 0x1010004 0xEE00

/-- The engine takes a host request whose coil is `m`. -/
def taking (m : SMap W32) : State :=
  { ready [] with cfg := { Config.reset with coil := m, writes := 0 }, belay := { (ready []).belay with hostBusy := true } }

theorem coil_units : (checkUnits (taking routed) routed).isEmpty = true := by decide +kernel
theorem coil_budgets : (checkBudgets routed).isEmpty = true := by decide +kernel
theorem coil_lines : (checkLines (taking routed) routed).isEmpty = true := by decide +kernel
theorem coil_arb : (checkArb routed).isEmpty = true := by decide +kernel
theorem coil_eye : (checkEye routed).isEmpty = true := by decide +kernel
theorem coil_census : (checkCensus routed).isEmpty = true := by decide +kernel
theorem coil_cleat_kern : (checkCleat (taking routed) routed .kern).isEmpty = true := by decide +kernel
theorem coil_cleat_mantle : (checkCleat (taking routed) routed .mantle).isEmpty = true := by decide +kernel
theorem coil_cleat_host : (checkCleat (taking routed) routed .host).isEmpty = true := by decide +kernel
theorem coil_regions : (checkRegions (taking routed) routed).isEmpty = true := by decide +kernel
theorem coil_policy : (checkPolicy routed).isEmpty = true := by decide +kernel
theorem coil_therm : (checkTherm routed).isEmpty = true := by decide +kernel
theorem coil_raw : (checkRaw (taking routed) routed).isEmpty = true := by decide +kernel
theorem coil_arenas : (checkArenas (taking routed) routed).isEmpty = true := by decide +kernel
theorem coil_land : (checkLand (taking routed) routed).isEmpty = true := by decide +kernel
theorem coil_links : (checkLinks (taking routed) routed).isEmpty = true := by decide +kernel
theorem coil_axes : ((List.range 8).flatMap (checkAxis (taking routed) routed)).isEmpty = true := by decide +kernel
theorem coil_export : (checkExport (taking routed) routed).isEmpty = true := by decide +kernel
theorem coil_xlat : (checkXlat routed).isEmpty = true := by decide +kernel
theorem isEmpty_append_of {α : Type} {a b : List α} (ha : a.isEmpty = true) (hb : b.isEmpty = true) : (a ++ b).isEmpty = true := by
  rw [List.isEmpty_iff] at ha hb ⊢
  rw [ha, hb]
  rfl

theorem coil_pmu : (checkPmu routed).isEmpty = true := by
  unfold checkPmu
  exact isEmpty_append_of (isEmpty_append_of (isEmpty_append_of (isEmpty_append_of (isEmpty_append_of (isEmpty_append_of
    (by decide +kernel) (by decide +kernel)) (by decide +kernel)) (by decide +kernel)) (by decide +kernel)) (by decide +kernel)) (by decide +kernel)
theorem coil_power : (checkPower routed).isEmpty = true := by decide +kernel

theorem coil_passes (s : State) (m : SMap W32) (h0 : (checkUnits s m).isEmpty = true) (h1 : (checkBudgets m).isEmpty = true) (h2 : (checkLines s m).isEmpty = true) (h3 : (checkArb m).isEmpty = true) (h4 : (checkEye m).isEmpty = true) (h5 : (checkCensus m).isEmpty = true) (h6 : (checkCleat s m .kern).isEmpty = true) (h7 : (checkCleat s m .mantle).isEmpty = true) (h8 : (checkCleat s m .host).isEmpty = true) (h9 : (checkRegions s m).isEmpty = true) (h10 : (checkPolicy m).isEmpty = true) (h11 : (checkTherm m).isEmpty = true) (h12 : (checkRaw s m).isEmpty = true) (h13 : (checkArenas s m).isEmpty = true) (h14 : (checkLand s m).isEmpty = true) (h15 : (checkLinks s m).isEmpty = true) (h16 : ((List.range 8).flatMap (checkAxis s m)).isEmpty = true) (h17 : (checkExport s m).isEmpty = true) (h18 : (checkXlat m).isEmpty = true) (h19 : (checkPmu m).isEmpty = true) (h20 : (checkPower m).isEmpty = true) : coilCheck s m = none := by
  have e {l : List Nat} (h : l.isEmpty = true) : l = [] := List.isEmpty_iff.mp h
  unfold coilCheck coilFailures
  rw [e h0, e h1, e h2, e h3, e h4, e h5, e h6, e h7, e h8, e h9, e h10, e h11, e h12, e h13, e h14, e h15, e h16, e h17, e h18, e h19, e h20]
  rfl

theorem test_wit_coil_check : coilCheck (taking routed) routed = none :=
  coil_passes _ _ coil_units coil_budgets coil_lines coil_arb coil_eye coil_census coil_cleat_kern coil_cleat_mantle coil_cleat_host coil_regions coil_policy coil_therm coil_raw coil_arenas coil_land coil_links coil_axes coil_export coil_xlat coil_pmu coil_power

theorem coil_no_parent : (checkLinks (taking []) []).isEmpty = false := by decide +kernel

/-- A coil whose timebase has no parent link and is no root fails at LNK_TB_CFG (R389). -/
theorem test_wit_coil_check_fails : ∃ off, coilCheck (taking []) [] = some off := by
  have h : checkLinks (taking []) [] ≠ [] := fun hn => absurd (congrArg List.isEmpty hn) (by rw [coil_no_parent]; decide)
  have hf : coilFailures (taking []) [] ≠ [] := by
    unfold coilFailures
    intro hn
    repeat rw [List.append_eq_nil_iff] at hn
    exact h hn.1.1.1.1.1.2
  unfold coilCheck
  cases hc : coilFailures (taking []) [] with
  | nil => exact absurd hc hf
  | cons x xs =>
    have go : ∀ (ys : List Nat) (a : Nat), ∃ off, ys.foldl (fun acc x => some (match acc with
        | none => x
        | some y => min x y)) (some a) = some off := by
      intro ys
      induction ys with
      | nil => exact fun a => ⟨a, rfl⟩
      | cons y ys ih => exact fun a => ih (min y a)
    exact go xs x

/-- A belay that changes the EYE of account 0 of strand 3 drains while an operation names it. -/
theorem test_wit_belay_drain :
    let o := running (words [(0, 0, opVecOp), (8, 48, 1)])
    let s := withOps (lined [(flLineStrand, 0, 3), (flEyeSize, 768, 16)]) 0 [o]
    let r : BelayRun := { req := hostReq s .force false false 0 0, snapshot := conf (lineFields ++ [(flLineStrand, 0, 3), (flUnitEn, 0, 0x7F)]),
                          stage := .drain, fenceAt := 0, drainEndAt := 0, units := [], cancelled := 0 }
    let t := { s with belay := { s.belay with run := some r } }
    runAt t .drain = some r ∧ dependentsNow t r = [(0, o)] ∧ opFind t 0 0 = some o ∧ o.track = .running ∧
      neverCancelled (opcodeOf o.desc) = false ∧ r.fenceAt + r.req.drainUs * 1000 ≤ tbNow t := by decide +kernel

/-- A started move is in the way of the mover's belay point; none is in the way of the line engines'. -/
def moveRunning (s : State) : State :=
  { s with tiers := { s.tiers with moves := [{ (Move.mk 4 .evict false .mantle 0 0 0 0 none false 0 [] false false) with started := true }] } }

theorem test_wit_belay_point :
    (let s := belaying (ready []) .quiesce .immediate 0 [unLines]
     (runAt s .quiesce).any (fun r => (blockers s r).isEmpty && r.req.line.isNone) = true) ∧
    (let s (m : BelayMode) (k : Nat) := belaying (moveRunning (ready [])) .quiesce m k [unMover]
     (runAt (s .immediate 0) .quiesce).any (fun r => blockers (s .immediate 0) r == [unMover] &&
        decide (r.drainEndAt + r.req.quiesceUs * 1000 ≤ 10000000000)) = true ∧
      (runAt (s .atBarrier 15) .quiesce).any (fun r => blockers (s .atBarrier 15) r == [unMover] && r.req.retries == 15) = true ∧
      (runAt (s .force 0) .quiesce).any (fun r => blockers (s .force 0) r == [unMover]) = true) := by decide +kernel

/-- A BELAY descriptor of line 0 holds the engine at its quiesce. -/
def belayingLine (s : State) (mode : BelayMode) (units : List Nat) : State :=
  let o := { running (belays (modeCode mode) 0) with epoch := 3 }
  let u := withOps s 0 [o]
  { u with belay := { u.belay with run := some { req := descReq u 0 o mode, snapshot := u.cfg.act, stage := .quiesce, fenceAt := 0,
                                                 drainEndAt := 0, units := units, cancelled := 0 } } }

theorem test_wit_belay_point_line :
    (let s := belayingLine (lined []) .immediate []
     (runAt s .quiesce).any (fun r => (blockers s r).isEmpty && r.req.line == some (0, 0) && flLineEn.get r.snapshot 0 == 1 &&
       (opFind (applyPoint s r) 0 0).isSome && recordOpen (applyPoint s r) 0) = true) ∧
    (let s := belayingLine (moveRunning (lined [])) .immediate [unMover]
     (runAt s .quiesce).any (fun r => blockers s r == [unMover] && r.req.line == some (0, 0)) = true ∧
      (opFind s 0 0).isSome = true ∧ recordOpen s 0 = true) := by decide +kernel

theorem test_wit_belay_point_budget :
    let s := belaying (moveRunning { ready [(flQuiesceUs, 0, 1000)] with tb := Timebase.reset }) .quiesce .immediate 0 [unMover]
    (runAt s .quiesce).any (fun r => blockers s r == [unMover] && decide (tbNow s < r.drainEndAt + r.req.quiesceUs * 1000)) = true := by
  decide +kernel
/-! ### Arrays, vector engine, bight unit and the ends of operations: hypotheses met -/

/-- A state whose strand holds tile-ops, some of them in the tile buffers. -/
def withTiles (s : State) (k : Nat) (ts bufs : List TileOp) : State := strandSet s k { strandGet s k with tiles := ts, bufs := bufs }

/-- A BRD_MM in flight with its next sweep to come, and a tile-op of it on array 15 at a stage. -/
def brdOp (epi : Nat) : OpEnt :=
  { running (brd epi) with desc2 := if epi = 1 then words [(0, 0, opVecOp), (24, 0, at_ 9), (48, 0, at_ 6), (48, 49, 1), (48, 53, 1)] else 0,
                           total := 1, prog := bytesOf 4 0x20 }

def brdState (epi : Nat) : State := withOps (stage []) 0 [brdOp epi]

def tileX (epi : Nat) (st : TileStage) : TileOp := { tileNew 0 (brdOp epi) 0 15 0 with rows := 1, cols := 1, stage := st, out := [0], acc := [0] }

/-- The sweep whose tile-op it is: nothing is read for it yet. -/
def sweepX : Sweep := { line := 0, seq := 0, no := 0, late := false, a := [], b := [], fell := [] }

def withSweeps (s : State) (k : Nat) (ws : List Sweep) : State := strandSet s k { strandGet s k with sweeps := ws }

def tiled (epi : Nat) (st : TileStage) : State := withSweeps (withTiles (brdState epi) 0 [tileX epi st] []) 0 [sweepX]

theorem test_wit_sweep :
    (pickNow (brdState 0) 65536 false (arrayReqs (brdState 0) 0) (mapGet Arb.reset (brdState 0).braidArb 0)).1.any (fun q => q.key = 0) = true ∧
      arrayHead (brdState 0) 0 = some (brdOp 0) ∧ brdRuns (brdOp 0) = true ∧ sweepFits (brdState 0) 0 (brdOp 0) = true ∧
      quiet (brdState 0) unBraid = false := by decide +kernel

theorem test_wit_tile_ready :
    tileAt (tiled 0 .issued) 0 15 .issued = some (tileX 0 .issued) ∧ opFind (tiled 0 .issued) 0 0 = some (brdOp 0) ∧
      (tileX 0 .issued).bight = false ∧ sweepFor (tiled 0 .issued) 0 (tileX 0 .issued) = some sweepX ∧
      (let spans := loadSpans (brd 0) sweepX (tileX 0 .issued) [0] ++ tileSpansC (brd 0) (tileX 0 .issued)
       spans = [(at_ 6, 4), (at_ 7, 4)] ∧ loadReady (tiled 0 .issued) (brdOp 0) 0 false spans = true ∧
        loadReady (bind (tiled 0 .issued) [(6, mantleBlock 6)]) (brdOp 0) 0 false spans = false) := by decide +kernel

/-- A bight operation whose structures are read, with its first tile on array 15. -/
def bgtOp (bwd : Bool) : OpEnt :=
  { running (bight bwd) with par := bightPar bwd, tab := bytesOf 8 (1 <<< 32) ++ bytesOf 8 64 ++ List.replicate 16 0,
                             ptab := bytesOf 8 (at_ 8) ++ [0], total := 1 }

def bgtTile (col : Nat) (st : TileStage) : TileOp :=
  { tileNew 0 (bgtOp false) 0 15 0 with bight := true, rows := 1, col := col, stage := st }

def bgtState (col : Nat) (st : TileStage) : State := withTiles (withOps (stage []) 0 [bgtOp false]) 0 [bgtTile col st] []

theorem test_wit_bight_tile_ready :
    let s := bgtState 1 .issued
    let o := bgtOp false
    tileAt s 0 15 .issued = some (bgtTile 1 .issued) ∧ opFind s 0 0 = some o ∧ (bgtTile 1 .issued).bight = true ∧
      bgtReady s 0 o (bgtReads (opShape o) o (tileSeq o (bgtTile 1 .issued)) (bgtTile 1 .issued)) [] = true ∧
      readsHeld s (tilePages s (opShape o) o (tileSeq o (bgtTile 1 .issued)) (bgtTile 1 .issued)) = false ∧
      bgtReady (bind s [(9, mantleBlock 9)]) 0 o (bgtReads (opShape o) o (tileSeq o (bgtTile 1 .issued)) (bgtTile 1 .issued)) [] = false := by decide +kernel

theorem test_wit_tile_waves :
    tileAt (tiled 0 .ready) 0 15 .ready = some (tileX 0 .ready) ∧ banksUsed (tiled 0 .ready) 0 15 < 2 ∧
      tileAt (tiled 0 .ready) 0 15 .first = none ∧ tileAt (tiled 0 .first) 0 15 .first = some (tileX 0 .first) ∧
      sweepFor (tiled 0 .first) 0 (tileX 0 .first) = some sweepX ∧
      loadReady (tiled 0 .first) (brdOp 0) 0 false (loadSpans (brd 0) sweepX (tileX 0 .first) (List.range (bmNkb (brd 0)))) = true ∧
      tileAt (tiled 1 .last) 0 15 .last = some (tileX 1 .last) ∧ bmEpi (brdOp 1).desc = true ∧ bmEpi (brdOp 0).desc = false ∧
      (strandGet (tiled 1 .last) 0).bufs.length < 4 ∧
      4 ≤ (strandGet (withTiles (brdState 1) 0 [tileX 1 .last] (List.replicate 4 (tileX 1 .drained))) 0).bufs.length := by decide +kernel

theorem test_wit_bight_waves :
    tileAt (bgtState 1 .first) 0 15 .first = some (bgtTile 1 .first) ∧ tileAt (bgtState 1 .last) 0 15 .last = some (bgtTile 1 .last) ∧
      (tileBlocks (bgtState 1 .first) (opShape (bgtOp false)) (bgtOp false) (tileSeq (bgtOp false) (bgtTile 1 .first)) (bgtTile 1 .first)).length ≤ 1 ∧
      bgtReady (bgtState 1 .first) 0 (bgtOp false)
        (bgtReads (opShape (bgtOp false)) (bgtOp false) (tileSeq (bgtOp false) (bgtTile 1 .first)) (bgtTile 1 .first)) [] = true ∧
      readsHeld (bgtState 1 .first)
        (tilePages (bgtState 1 .first) (opShape (bgtOp false)) (bgtOp false) (tileSeq (bgtOp false) (bgtTile 1 .first)) (bgtTile 1 .first)) =
          false := by
  decide +kernel

theorem test_wit_tile_retires :
    let s := tiled 0 .drained
    let x := tileX 0 .drained
    let o := brdOp 0
    let rows := (List.range x.rows).map (fun m =>
      (((atBatch (bmD o.desc) (bmDStride o.desc) x.batch).plus
        (bmDIdx o.desc (x.row * bmTm o.desc + m) (128 * x.col) * fmtBytes (bmDF o.desc))).addr, rowOut (bmDF o.desc) x m))
    tileAt s 0 15 .drained = some x ∧ opFind s 0 0 = some o ∧ x.tagged = false ∧
      (tileSpansD o.desc x).all (fun p => readReady s x.account o (fun z => z != .kern) p.1 p.2 && !bankHolds s p.1 p.2 true) = true ∧
      rows.all (fun w => w.2 != []) = true ∧ canStore s x.account rows = true ∧
      tileAt (tiled 1 .drained) 0 15 .drained = some (tileX 1 .drained) ∧ tileSpansD (brdOp 1).desc (tileX 1 .drained) = [] ∧
      (tileSpansD o.desc x).all (fun p => readReady (bind s [(8, mantleBlock 8)]) x.account o (fun z => z != .kern) p.1 p.2) = false := by
  decide +kernel

theorem test_wit_bight_retires :
    let s := bgtState 1 .drained
    let o := bgtOp false
    let x := bgtTile 1 .drained
    let writes := bgtWrites (opShape o) o (tileSeq o x) x
    tileAt s 0 15 .drained = some x ∧ x.tagged = false ∧ bgtReady s x.account o [] writes = true ∧
      bgtReady (bind s [(10, mantleBlock 10)]) 0 o [] writes = false ∧ actF s flErrPolicy 0 ≠ 2 ∧ writes = [(at_ 10, 128), (at_ 11, 16)] ∧
      [at_ 10, at_ 10 + 127, at_ 11, at_ 11 + 15].all (fun a => regionOf s.fuses.variant a = .kern && decide (frameAt s a < hostFrames) &&
        (rawSlotOf s.cfg.act s.fuses.variant (frameAt s a)).isNone) = true := by decide +kernel

/-- The standalone VEC_OP in flight: 32 elements as one group. -/
def vecOpEnt : OpEnt := { running (vec 0) with total := 1, prog := bytesOf 4 0x20 }

def vecRunning : State := withOps (stage []) 0 [vecOpEnt]

theorem test_wit_epilogue_group :
    let x := tileX 1 .drained
    let s := withTiles (brdState 1) 0 [] [x]
    (strandGet s 0).bufs = [x] ∧ (vecReqs s 0).any (isAged (actF s flAgeUs 0) (tbNow s)) = false ∧ opFind s 0 0 = some (brdOp 1) ∧
      spansReady (bind s [(9, { kernBlock 9 with tier := .host })]) 0 (brdOp 1) (epiReads (brdOp 1) x) (epiWrites (brdOp 1) x) = false ∧
      spansReady s 0 (brdOp 1) (epiReads (brdOp 1) x) (epiWrites (brdOp 1) x) = true ∧ epiWrites (brdOp 1) x = [(at_ 9, 4)] ∧
      quiet s unVector = false := by decide +kernel

theorem test_wit_vec_group :
    let s := vecRunning
    (strandGet s 0).bufs = [] ∧ (pickNow s 256 false (vecReqs s 0) (mapGet Arb.reset s.vecArb 0)).1.any (fun q => q.key = 0) = true ∧
      ((lineGet s 0).ops.filter vecRuns).head? = some vecOpEnt ∧ opFind s 0 0 = some vecOpEnt ∧
      groupRuns (vec 0) 0 = [(0, 0, 32)] ∧ vcRed (vec 0) = 0 ∧ (vcZF (vec 0)).isK8 = false ∧ vcZF (vec 0) ≠ .u1 ∧ (vcZ (vec 0)).eye = false ∧
      canStore s 0 [(at_ 9, List.replicate 128 0)] = true := by decide +kernel

theorem test_wit_bight_issue :
    let s := withOps (stage []) 0 [bgtOp false]
    let o := bgtOp false
    quiet s unBight = false ∧ (pickNow s 65536 false (arrayReqs s 0) (mapGet Arb.reset s.braidArb 0)).1.any (fun q => q.key = 0) = true ∧
      arrayHead s 0 = some o ∧ brdRuns o = false ∧ (nextTile s 0 o).isSome = true ∧ freeArrays s 0 ≠ [] ∧
      (nextTile s 0 o).any (fun x => !needsPhase0 o x) = true := by decide +kernel

/-- The tile waits for its page in the mantle. -/
theorem test_wit_page_wait :
    let o := { bgtOp false with desc := bight false ||| BitVec.ofNat 512 (1000 <<< (8 * 56)), n3 := 1 }
    let x := { bgtTile 0 .ready with needAt := some 0 }
    let s := bind (withTiles (withOps (stage []) 0 [o]) 0 [x] []) [(8, mantleBlock 8)]
    (strandGet s 0).tiles.find? (fun t => t.bight && t.array = 15 && t.needAt.isSome) = some x ∧ x.needAt = some 0 ∧
      opFind s 0 0 = some o ∧ bgPageWait o.desc = 1000 ∧ o.track ≠ .cancelPending ∧ 0 + bgPageWait o.desc ≤ tbNow s ∧
      (tileBlocks s (opShape o) o (tileSeq o x) x)[x.col]? = some 0 ∧ lateOf s 0 (opShape o) o 0 = [8] := by decide +kernel

/-- A bight of four pages whose highest needed page is page 0. -/
theorem test_wit_prefetch :
    let o := { bgtOp false with desc := bight false ||| BitVec.ofNat 512 (3 <<< (8 * 48 + 53)), n3 := 1,
                                ptab := (bytesOf 8 (at_ 8) ++ [0]) ++ (bytesOf 8 (at_ 9) ++ [0]) }
    let s := bind (withOps (stage [(flCleatHardK, 0, 1)]) 0 [o]) [(9, mantleBlock 9)]
    opFind s 0 0 = some o ∧ o.dispatched = true ∧ isBgt o = true ∧ o.track = .running ∧ 0 < o.n3 ∧ bgPfWindow o.desc = 3 ∧
      charge s 0 .kern + 1 ≤ hardOf s 0 .kern ∧ pageMovable s 0 9 = true ∧ refused o 9 = false ∧ demandTier o (htGet s 9) = .kern := by decide +kernel

theorem test_wit_retire :
    let o := { vecOpEnt with done := 1, next := 1 }
    let s := withOps (stage []) 0 [o]
    opFind s 0 0 = some o ∧ opComplete s 0 o = true ∧ o.track = .running ∧ opcodeOf o.desc ≠ opCapColl ∧ opcodeOf o.desc ≠ opSnapshot ∧
      recordOpen (retireCensus (retireGen s o) 0 o).1 0 = true ∧ censusKey o = none ∧ recordOpen s 0 = true := by decide +kernel

theorem test_wit_retire_snapshot :
    let o := { running snap with total := 1, done := 1, n3 := 1 }
    let s := withOps (stage [(flArenaValid, 15, 1), (flArenaSlabs, 15, 1)]) 0 [o]
    opFind s 0 0 = some o ∧ opComplete s 0 o = true ∧ opcodeOf o.desc = opSnapshot ∧ recordOpen s 0 = true := by decide +kernel

theorem test_wit_failure :
    let o := { taken (vec 0) with track := .cancelPending }
    let s := withOps (stage []) 0 [o]
    let p := { vecOpEnt with failed := true }
    let t := withOps (stage []) 0 [p]
    opFind s 0 0 = some o ∧ o.track = .cancelPending ∧ o.dispatched = false ∧ o.inflight = 0 ∧ bufTiles s 0 o = [] ∧
      opFind t 0 0 = some p ∧ recordOpen (retireCensus (stopOp t 0 p) 0 p).1 0 = true ∧ p.dispatched = true ∧ p.inflight = 0 ∧ p.failed = true ∧ opcodeOf p.desc = opVecOp ∧ bufTiles t 0 p = [] ∧ recordOpen s 0 = true ∧
      s.belay.run = none ∧ s.belay.ready = [] ∧ s.belay.waiting = [] := by decide +kernel

theorem test_wit_safe_point :
    let o := { vecOpEnt with track := .suspendPending }
    let s := withOps (stage []) 0 [o]
    opFind s 0 0 = some o ∧ o.dispatched = true ∧ o.failed = false ∧ atSafePoint s 0 o = true ∧ opComplete s 0 o = false ∧
      recordOpen s 0 = true ∧ plainSpan s (ctxAddr s 0 o) (ctxBytes s o).length = true ∧
      apart [(recordFrame s 0, 32), (ctxAddr s 0 o, (ctxBytes s o).length)] = true := by decide +kernel

theorem test_wit_aged :
    let o := { vecOpEnt with readyAt := some 0, splReady := [(3, 0)] }
    let s := withOps (stage []) 0 [o]
    hasRequest o = true ∧ opFind s 0 0 = some o ∧ 0 ∈ o.readyAt.toList ++ o.splReady.map Prod.snd ∧ 0 + actF s flAgeUs 0 * 1000 ≤ tbNow s := by
  decide +kernel

/-- The tile-op waits for A in a mantle block of its own name. -/
theorem test_wit_direct_read :
    let b := blockNo mantleBase
    let o := { brdOp 0 with desc := words [(0, 0, opBrdMm), (8, 0, mantleBase), (16, 0, at_ 7), (24, 0, at_ 8), (32, 0, 1), (32, 20, 1), (32, 40, 1),
      (40, 0, 1), (40, 20, 1), (40, 40, 1), (48, 52, 1), (56, 26, 1000)] }
    let s := bind (withSweeps (withTiles (withOps (stage []) 0 [o]) 0 [tileX 0 .issued] []) 0 [sweepX]) [(b, mantleBlock 0)]
    opFind s 0 0 = some o ∧ bmDeadline o.desc = 1000 ∧ bmPast s o = true ∧ o.dispatched = true ∧ opcodeOf o.desc = opBrdMm ∧
      lateBlocks s 0 o 0 sweepX = [b] := by decide +kernel
/-! ### Moves, landing, splicer, fid path and row logic: hypotheses met -/

/-- A device move of a block, queued. -/
def queued (name : Nat) (origin : MoveOrigin) (dest : Tier) : Move :=
  { name := name, origin := origin, fill := false, dest := dest, account := 0, cls := 3, deadline := 0, queuedAt := 0, readyAt := none, started := false,
    destFrame := 0, held := [], freeAtRetire := false, chafedBlock := false }

/-- Pools of kern, mantle and host frames, general and reserve. -/
def pooled (s : State) (k m : Nat × Nat) : State :=
  let p (x : Nat × Nat) : TierSt := { TierSt.reset with general := x.1, reserve := x.2 }
  { s with tiers := { s.tiers with pools := [(0, p k), (1, p m), (2, p (9, 9))] } }

def moving (s : State) (ms : List Move) : State := { s with tiers := { s.tiers with moves := ms } }

/-- An eviction of block 8 to a host tier of one frame, and an ALLOC fill of block 20 in a kern that holds nothing. Which frame
is taken is a free value, so no test names it. -/
theorem test_wit_move_start :
    let s := moving (pooled (bind (ready [(flRgnBlocks, 0, 1)]) [(8, mantleBlock 8)]) (5, 5) (5, 5)) [queued 8 .evict .host]
    quiet s unMover = false ∧ s.tiers.moves.any (moveDead s) = false ∧ (candidates s).length = 1 ∧
      (candidates s).all (fun x => x.dest != .mantle) = true ∧
      (pickNow s 64 true (moverReqs s (candidates s)) s.tiers.arb).1.any (fun q => q.key = 0) = true ∧
      (candidates s)[0]?.any (fun c => !c.fill && (frameFor s c).isSome) = true := by decide +kernel

theorem test_wit_fill_start :
    let o := { running (runOf 1 0 20 1 0) with total := 1, units := [0] }
    let s := pooled (withOps (ready lineFields) 0 [o]) (5, 5) (5, 5)
    (candidates s).length = 1 ∧ (candidates s).all (fun x => x.dest = .kern) = true ∧
      (pickNow s 64 true (moverReqs s (candidates s)) s.tiers.arb).1.any (fun q => q.key = 0) = true ∧
      (candidates s)[0]?.any (fun c => c.fill && c.op == some (0, 0) && (frameFor s c).isSome) = true := by decide +kernel

/-- Block 8 on its way from kern to frame 0 of the mantle, and an ALLOC fill of block 20. -/
theorem test_wit_move_retire :
    let m := { queued 8 (.op 0 0) .mantle with started := true }
    let s := moving (bind (inFlight [] (runOf 0 1 8 1 0)) [(8, { kernBlock 8 with state := .moving })]) [m]
    moveOf s 8 = some m ∧ s.wf = true ∧ m.fill = false ∧ m.held = [] ∧ m.freeAtRetire = false ∧ (htGet s 8).tier ≠ .host ∧
      m.dest ≠ .host ∧ frameBase .kern 8 + blockBytes ≤ hostFrames ∧ frameBase m.dest m.destFrame + blockBytes ≤ hostFrames ∧
      collOps s = [] ∧ opFind s 0 0 = some (running (runOf 0 1 8 1 0)) := by decide +kernel

/-- A bank of block 8's destination frame runs an atom; without one neither frame is held. -/
theorem test_wit_move_held :
    let m := { queued 8 (.op 0 0) .mantle with started := true }
    let s := moving (bind (inFlight [] (runOf 0 1 8 1 0)) [(8, { kernBlock 8 with state := .moving })]) [m]
    let p := bankPlace s.fuses.variant (frameBase .mantle 0)
    frameHeld s .kern 8 false = false ∧ frameHeld s .mantle 0 true = false ∧
      frameHeld (bankSet s (bk p.1 p.2.1) { Bank.reset with atom := some (0, 0, 1) }) .mantle 0 true = true := by decide +kernel

theorem test_wit_move_retire_tiles (k : Nat) :
    ∀ x ∈ (strandGet (moving (stage []) [queued 8 (.op 0 0) .mantle]) k).tiles, x.bight = false ∨ x.stage = .last ∨ x.stage = .drained := by
  intro x hx
  exact absurd hx (List.not_mem_nil)

theorem test_wit_fill :
    let m := { queued 20 (.op 0 0) .kern with fill := true, started := true, destFrame := 20 }
    let s := moving (inFlight [] (runOf 1 0 20 1 0)) [m]
    moveOf s 20 = some m ∧ s.wf = true ∧ m.fill = true ∧ opFind s 0 0 = some (running (runOf 1 0 20 1 0)) ∧ m.dest ≠ .host ∧
      frameBase m.dest m.destFrame + blockBytes ≤ hostFrames ∧ frameHeld s m.dest m.destFrame true = false := by decide +kernel

theorem test_wit_release :
    let s := { stage [] with tiers := { (stage []).tiers with releasing := [(Tier.kern, 8, 0)] } }
    s.tiers.releasing.find? (fun r => r.1 = .kern && r.2.1 = (8 : BitVec 24).toNat) = some (.kern, 8, 0) := by decide +kernel

/-- A demand move into a kern with no free frame: block 6 is the victim, or none is where the mantle's HARD is 0. -/
def starved (hardM : Nat) : State :=
  moving (pooled (bind (stage [(flCleatHardM, 0, hardM)]) [(8, mantleBlock 8)]) (0, 0) (5, 5)) [queued 8 (.demand 0 0) .kern]

theorem test_wit_eviction :
    below .kern = some .mantle ∧ (starved 9).tiers.moves.any (moveDead (starved 9)) = false ∧ ((frameWaiters (starved 9) .kern).drop (evicting (starved 9) .kern)).length = 1 ∧
      (victim (starved 9) .kern (some 0)).isSome = true ∧
      ((frameWaiters (starved 0) .kern).drop (evicting (starved 0) .kern)).length = 1 ∧ victim (starved 0) .kern (some 0) = none := by
  decide +kernel

theorem test_wit_soft :
    let s := { pooled (stage [(flCleatHardM, 0, 9)]) (5, 5) (5, 5) with tiers := { (pooled (stage []) (5, 5) (5, 5)).tiers with
      ht := (stage []).tiers.ht, charged := [(ct 0 .kern, 1)] } }
    (frameWaiters s .kern).drop (evicting s .kern) = [] ∧ ((softExcess s .kern).findSome? (fun a => ownVictim s a .kern)).isSome = true ∧
      (poolGet (pooled s (5, 0) (5, 5)) .kern).reserve + evicting (pooled s (5, 0) (5, 5)) .kern < reserveSize s .kern ∧
      (victim s .kern none).isSome = true := by decide +kernel

/-- A VEC_OP whose X lies in a block of the host tier. -/
theorem test_wit_demand :
    let s := bind (withOps (stage [(flCleatHardK, 0, 1)]) 0 [vecOpEnt]) [(8, { HtEntry.reset with state := .home, tier := .host })]
    let t := bind (withOps (stage []) 0 [vecOpEnt]) [(8, { HtEntry.reset with state := .home, tier := .host })]
    opFind s 0 0 = some vecOpEnt ∧ vecOpEnt.dispatched = true ∧ wantsDemand s vecOpEnt 8 = true ∧ 8 ∈ demandBlocks s 0 vecOpEnt ∧
      (htGet s 8).account = lineAcct s 0 ∧ charge s 0 (demandTier vecOpEnt (htGet s 8)) < hardOf s 0 (demandTier vecOpEnt (htGet s 8)) ∧
      hardOf t 0 (demandTier vecOpEnt (htGet t 8)) ≤ charge t 0 (demandTier vecOpEnt (htGet t 8)) ∧ collOps t = [] := by decide +kernel

/-- An SPL operation in flight on arena 15, which is the first slab of the mantle; its stream lies in the arena's first block. -/
def splOp (upd : Bool) : OpEnt :=
  { running (spl upd) with total := 1, par := bytesOf 8 (1 <<< 52) ++ List.replicate 248 0, prog := bytesOf 4 0x31 ++ List.replicate 124 0 }

def splRunning (e : HtEntry) : State :=
  bind (withOps (stage [(flArenaValid, 15, 1), (flArenaSlabs, 15, 1), (flCleatHardM, 0, 1)]) 0 [splOp true]) [(blockNo mantleBase, e)]

theorem test_wit_landing_move :
    let b := blockNo mantleBase
    let s := splRunning { HtEntry.reset with state := .home, tier := .host }
    let e := htGet s b
    opFind s 0 0 = some (splOp true) ∧ opcodeOf (splOp true).desc = opSplUpd ∧ e.state = .home ∧ e.tier = .host ∧ (arenaOf s b).isSome = true ∧
      e.account = lineAcct s 0 ∧ refused (splOp true) b = false ∧ s.tiers.moves = [] ∧ charge s 0 .mantle < hardOf s 0 .mantle := by
  decide +kernel

/-- A block in the mantle whose slot of one landed chunk is to be merged. -/
theorem test_wit_landing :
    let b := blockNo mantleBase
    let x : LandSlot := { block := b, offset := 65280, fmt := 0, replace := true, landed := [(0, 64)] }
    let s0 := bind (stage []) [(b, { mantleBlock 0 with land := true })]
    let s := { s0 with tiers := { s0.tiers with merging := [b], land := [(0, x)] } }
    s.tiers.merging.contains b = true ∧ (htGet s b).land = true ∧ (htGet s b).tier = .mantle ∧
      plainSpan s (frameBase .mantle (htGet s b).frame) 512 = true ∧ s.tiers.mergeHeld = [] ∧ collOps s = [] ∧
      x.offset + 256 ≤ blockBytes ∧ 0 + 64 * elemBytes ((Fmt.ofCode x.fmt).getD .w32) ≤ 256 ∧
      s.tiers.land.filter (fun p => p.2.block = b) = [(0, x)] := by decide +kernel

theorem no_raw_slots : (List.range 16).all (fun k => flRawValid.get (stage []).cfg.act k != 1) = true := by decide +kernel

/-- Without a RAW slab and without posted writes every byte below the host's frames is plain. -/
theorem test_wit_landing_plain : plainSpan (stage []) (frameBase .mantle 0) blockBytes = true := by
  have h : ∀ fa : Nat, rawSlotOf (stage []).cfg.act (stage []).fuses.variant fa = none := fun fa => by
    unfold rawSlotOf
    split
    · rfl
    · refine List.find?_eq_none.mpr (fun k hk => ?_)
      have := List.all_eq_true.mp no_raw_slots k hk
      simp only [bne_iff_ne, ne_eq] at this
      simp [this]
  unfold plainSpan
  rw [Bool.and_eq_true, Bool.and_eq_true]
  exact ⟨⟨by decide +kernel, List.all_eq_true.mpr (fun i _ => by rw [h]; rfl)⟩, by decide +kernel⟩

theorem test_wit_chunk :
    let s := splRunning (mantleBlock 0)
    (0 : BitVec 10).toNat < nchan s.fuses.variant ∧ quiet s unSplicer = false ∧
      (pickNow s 4096 false (splReqs s 0) (mapGet Arb.reset s.splArb 0)).1.any (fun q => q.key = 0) = true ∧
      ((lineGet s 0).ops.filter (fun o => splRuns o && (nextChunk s 0 o 0).isSome)).head? = some (splOp true) ∧
      nextChunk s 0 (splOp true) 0 = some 0 ∧ chunkCase s 0 (splOp true) 0 = .run ∧
      chunkCase (splRunning { kernBlock 0 with state := .chafed }) 0 (splOp true) 0 = .skipChafed := by decide +kernel

theorem test_wit_chunk_failed :
    let b := blockNo mantleBase
    let o := { splOp true with wset := [(b, 0)] }
    let s := withOps (splRunning { HtEntry.reset with state := .home, tier := .host }) 0 [o]
    nextChunk s 0 o 0 = some 0 ∧ chunkCase s 0 o 0 = .skipFailed := by decide +kernel

theorem test_wit_chunk_banks (bank : Nat) : (bankGet (splRunning (mantleBlock 0)) (bk 0 bank)).parity = [] := rfl

theorem test_wit_snapshot_read :
    let o := { running snap with total := 1 }
    let s := bind (withOps (stage [(flArenaValid, 15, 1), (flArenaSlabs, 15, 1)]) 0 [o]) [(blockNo mantleBase, mantleBlock 0)]
    opFind s 0 0 = some o ∧ o.track = .running ∧ o.units.contains 0 = false ∧ (snBlocks s o.desc)[0]? = some (blockNo mantleBase) ∧
      snPeer o.desc = false ∧ hostBase ≤ snDest o.desc ∧ o.dispatched = true ∧ opcodeOf o.desc = opSnapshot ∧ o.failed = false ∧
      quiet s unMover = false ∧ readsHeld s (snReads s o.desc (blockNo mantleBase)) = false ∧
      readsHeld { s with tiers := { s.tiers with merging := [blockNo mantleBase] } } (snReads s o.desc (blockNo mantleBase)) = true := by decide +kernel

/-- The last granule of the mantle's first block. -/
theorem test_wit_fid :
    let s := bind (ready []) [(blockNo mantleBase, mantleBlock 0)]
    let a := mantleBase + (blockBytes - 32)
    let fa := frameBase .mantle 0 + (blockBytes - 32)
    unitOn s 6 = true ∧ quiet s unChannels = false ∧ badName s (some 0) a = false ∧ fidFrame s 0 a = some fa ∧ fidFrame s 1 a = none ∧
      fidWaits s a fa false false = false ∧ fidWaits s a fa false true = false ∧ fidWaits s a fa true true = false ∧
      (let t := { s with tiers := { s.tiers with merging := [blockNo mantleBase] } }
       fidWaits t a fa false false = true ∧ fidWaits t a fa false true = true ∧ fidWaits t a fa true true = true) ∧
      (htGet s (blockNo a)).state ≠ .moving ∧ plainSpan s fa 32 = true ∧ badName s (some 1) a = true := by decide +kernel

/-- ADD_I32 on lane 7 of a granule of zeros puts the lane's data there, modulo 2^32 (R189). -/
theorem test_fid_add : (match exec (.fidAddI32 0 0 (BitVec.ofNat 48 mantleBase) (BitVec.allOnes 256) 0x80)
      (bind (ready []) [(blockNo mantleBase, mantleBlock 0)]) with
    | .next t => (List.range 32).map (fun j => rawByte t (frameBase .mantle 0 + j))
    | _ => []) = List.replicate 28 0 ++ List.replicate 4 0xFF := by decide +kernel

/-- A word of row logic: OP, LMODE, DWR, sources and destination. -/
def rowWordOf (op lmode dwr a b c dst : Nat) : Nat := op + lmode <<< 4 + dwr <<< 6 + a <<< 12 + b <<< 24 + c <<< 36 + dst <<< 48

/-- A bank whose first run is at its only word, with RAW slot 15 in slab 2. -/
def rowState (w : Nat) (atom : Option (Nat × Nat × Nat)) (parity : List (Nat × Nat × Nat × Nat)) : State :=
  let o := { running rows with prog := bytesOf 8 w, inflight := 1 }
  let s := withOps (stage [(flRawValid, 15, 1), (flRawSlab, 15, 2), (flRawParSlab, 0, 1)]) 0 [o]
  bankSet s (bk 767 31) { Bank.reset with runs := [{ newRun 0 o (bk 767 31) with pc := 0 }], atom := atom, parity := parity }

theorem test_wit_row_op :
    let w := rowWordOf 7 2 1 0x800 0x800 0x780 0x7FF
    let s := rowState w (some (0, 0, 1)) []
    (bankGet s (bk 767 31)).atom = some (0, 0, 0 + 1) ∧ (bankGet s (bk 767 31)).runs.length = 1 ∧ (opFind s 0 0).isSome = true ∧
      rwOp w = 7 ∧ (767 : BitVec 10).toNat < nchan s.fuses.variant ∧ 128 * actF s flRawSlab (rwDst w / 128) + rwDst w % 128 < 2 ^ 15 := by
  decide +kernel

theorem test_wit_atom :
    let s := rowState (rowWordOf 0 1 0 0xFFF 0xFFF 0xFFF 0xFFF) none []
    (bankGet s (bk 767 31)).atom = none ∧ quiet s unRow = false ∧ atomsOf s 767 < 8 ∧ bankTurn s 767 = none ∧
      (bankGet s (bk 767 31)).runs.all (fun r => !bankBusy s 767 31 (freshRun r)) = true ∧ bankAwaited s (bk 767 31) = false ∧
      (refreshGet s (rk (4 + 767 / 96) (767 % 96) 31)).owed = 0 ∧ (bankGet s (bk 767 31)).heldAccesses = 0 ∧
      (bankGet s (bk 767 31)).parity = [] ∧
      (allOps s).all (fun p => !mayRun 767 31 p.2 || (bankGet s (bk 767 31)).runs.any (fun r => r.line = p.1 && r.seq = p.2.seq)) = true ∧
      (bankGet (rowState 0 (some (0, 0, 0)) []) (bk 767 31)).atom = some (0, 0, 0) := by decide +kernel

theorem test_wit_parity :
    let s := rowState 0 none [(15, 7, 0, 0)]
    (bankGet s (bk 767 31)).parity = [(15, 7, 0, 0)] ∧ parityRow s 15 7 < 2 ^ 15 := by decide +kernel

/-! ### Micro-ops -/

/-- A strand's vector engine with one lane: v0 and v1. -/
def lane (x y : W32) : State :=
  strandSet (ready []) 3 { strandGet (ready []) 3 with lanes := { regs := [[x, y, 0, 0, 0, 0, 0, 0]], flags := [0], konst := [] } }

/-- What a command leaves in v7 and the flags of that lane. -/
def v7 (c : Instr) (s : State) : W32 × Byte :=
  match exec c s with
  | .next t => (((strandGet t 3).lanes.regs.getD 0 []).getD 7 0, (strandGet t 3).lanes.flags.getD 0 0)
  | _ => (0, 0)

/-- 1.0 + 1.0 is 2.0; a shift by 33 is by 1; 2^31 − 1 as a W32 is 2^31; MAX puts +0 above −0; MOV writes a NaN as the canonical
NaN with its own sign (R103, R443). -/
theorem test_micro_ops :
    v7 (.add (.vec 3) 7 0 1) (lane 0x3F800000 0x3F800000) = (0x40000000, 0) ∧
      v7 (.ishl 3 7 0 1) (lane 1 33) = (2, 0) ∧ (v7 (.cvtif 3 7 0) (lane 0x7FFFFFFF 0)).1 = 0x4F000000 ∧
      (v7 (.max (.vec 3) 7 0 1) (lane 0x80000000 0)).1 = 0 ∧ v7 (.mov (.vec 3) 7 1) (lane 5 0xFFFFFFFF) = (0xFFC00000, 2) := by
  decide +kernel

/-- The worked conversions of R54: 464 and 480 to E4M3, 65,536 to E5M2, 2^-149 to B16. -/
theorem test_conversions :
    storeElems .e4m3 [0x43E80000, 0x43F00000] = ([0x7E, 0x7E], [], [0, 8]) ∧ storeElems .e5m2 [0x47800000] = ([0x7B], [], [8]) ∧
      storeElems .b16 [1] = ([0], [], [16]) := by decide +kernel

/-- CMPLT with a NaN reports the NaN and answers 0 (R443). -/
theorem test_cmplt_nan : (v7 (.cmplt (.vec 3) 7 0 1) (lane 0x7FC00000 0x3F800000)).1 = 0 := by decide +kernel

/-! ### Channels, temperature, power and time: hypotheses met -/

/-- Device 5, with route entry 0xEE of its own; links 0 and 1 on port 0 to device 7, link 23 on port 11 to device 9. -/
def netConf (ps : List (Fld × Nat × Nat)) : SMap W32 :=
  cwSet (conf (ps ++ [(flUnitEn, 0, 0x7F), (flLinkEn, 0, 1), (flLinkEn, 1, 1), (flLinkEn, 23, 1), (flLinkPort, 23, 11), (flPortNbr, 0, 7),
    (flPortNbr, 11, 9)])) 0x1010004 0xEE00

/-- That module with the links in some states. -/
def netted (ps : List (Fld × Nat × Nat)) (ls : List (Nat × Link)) : State :=
  ls.foldl (fun t p => linkSet t p.1 p.2) { ready [] with cfg := { (ready []).cfg with act := netConf ps } }

/-- A link that is UP. -/
def upLink : Link := { Link.reset with state := .up, lastTx := 9999998000, lastRx := 9999980000 }

/-- The last granule of the last mantle channel, and a kern granule, of variant F. -/
theorem test_wit_scrub :
    (granAt .f (.mantle 7) 95 (2 ^ 25 - 1)).any (fun fa => !accessHeld (ready []) fa false) = true ∧
      (granAt .f (.kern 3) 63 (2 ^ 24 - 1)).any (fun fa => !accessHeld (ready []) fa false && decide (fa < mantleBase) &&
        (stackOf .f fa).isSome && !granChafed (ready []) fa && (rawSlotOf (ready []).cfg.act .f fa).isNone) = true ∧
      passEnd .f (.mantle 7) 95 (2 ^ 25 - 1) = true := by decide +kernel

/-- A mantle granule outside RAW data, with two symbols at fault. -/
theorem test_wit_symbols :
    (granAt (ready []).fuses.variant (.mantle 7) 95 (2 ^ 25 - 1)).any (fun fa => !accessHeld (ready []) fa false &&
        decide (mantleBase ≤ fa) && (stackOf .f fa).isSome && (rawSlotOf (ready []).cfg.act .f fa).isNone && !granChafed (ready []) fa) = true ∧
      (0 : Fin 20) ≠ 19 ∧ (1 : BitVec 16) ≠ 0 ∧ (0x8000 : BitVec 16) ≠ 0 := by decide +kernel

/-- RAW slot 15 in slab 2, its parity in slab 1. -/
theorem test_wit_raw_scrub :
    let s := stage [(flRawValid, 15, 1), (flRawSlab, 15, 2), (flRawParSlab, 0, 1)]
    actF s flRawValid 15 = 1 ∧ (767 : BitVec 10).toNat < nchan s.fuses.variant ∧ groupStale (bankGet s (bk 767 31)) (15, 7) = false ∧
      (bankGet s (bk 767 31)).atom = none ∧ (refreshGet s (rk (4 + 767 / 96) (767 % 96) 31)).hold = false ∧ actF s flRawSlab 15 ≠ actF s flRawParSlab 0 := by decide +kernel

/-- The parity of a group differs from its row in the first of the 32 ranges. -/
theorem test_wit_raw_differs :
    let s := stage [(flRawValid, 15, 1), (flRawSlab, 15, 2), (flRawParSlab, 0, 1)]
    let t := putByte s (rowAddr .f 767 31 (128 * 2 + 16 * 7) 0) 1
    groupByte t 767 31 2 7 0 = 1 ∧ rawByte t (rowAddr .f 767 31 (128 + 8 * 15 + 7) 0) = 0 := by decide +kernel

/-- A bank that owes two refreshes and one that owes four, a tREFI after the last became due. -/
theorem test_wit_refresh :
    let s := refreshSet (ready []) (rk (stackNo (.mantle 7)) 95 31) (Refresh.mk 4 (10000000000 - 3900) true)
    fitted s.fuses.variant (.mantle 7) 95 = true ∧
      (refreshGet s (rk (stackNo (.mantle 7)) 95 31)).lastDue + (if (stackGet s 11).hot then 1950 else 3900) ≤ s.clk ∧
      0 < (refreshGet s (rk (stackNo (.mantle 7)) 95 31)).owed ∧ (bankGet s (bk (96 * 7 + 95) 31)).atom = none := by decide +kernel

/-- A repair that has waited REPAIR_WAIT_US. -/
theorem test_wit_repair_timeout :
    let s := { stage [(flRepairWaitUs, 0, 10)] with net := { (ready []).net with repairs := [Repair.mk 8 0 9999990000 0 1 []] } }
    s.net.repairs.find? (fun r => r.name = blockNo (BitVec.ofNat 48 (8 * blockBytes)).toNat) = some (Repair.mk 8 0 9999990000 0 1 []) ∧
      9999990000 + actF s flRepairWaitUs (htGet s 8).account * 1000 ≤ tbNow s := by decide +kernel

/-- T_THROTTLE 95, T_CRIT 105, HYST 5. -/
def warm (x : StackSt) : State :=
  stackSet (ready [(flTThrottle, 0, 95), (flTCrit, 0, 105), (flTHyst, 0, 5)]) 11 x

theorem test_wit_stack_temp :
    let s := warm { StackSt.reset with level := 2, lastChange := 9999000000, lastReport := 9999700000 }
    let thr := actF s flTThrottle 0
    stackReports s 11 = true ∧ stackReports s 12 = false ∧ thr = 95 ∧ actF s flTHyst 0 = 5 ∧ actF s flTCrit 0 = 105 ∧
      (stackGet s 11).level = 2 ∧ (stackGet s 11).lastChange + 1000000 ≤ s.clk ∧ (stackGet s 11).lastReport + 300000 ≤ s.clk ∧
      (s.power.standby && !s.power.trip) = true := by decide +kernel

/-- A report of 90, HYST below the threshold, raises the level by one step; one of 91 does not (R203). -/
theorem test_stack_hysteresis :
    let s := warm { StackSt.reset with level := 2, lastChange := 9999000000 }
    (match exec (.stackTempReport (.mantle 7) 90) s with | .next t => (stackGet t 11).level | _ => 9) = 1 ∧
      (match exec (.stackTempReport (.mantle 7) 91) s with | .next t => (stackGet t 11).level | _ => 9) = 2 := by decide +kernel

/-- The states of SLOW in which its four events act. -/
def slowState (slow hold : Bool) (left below above : Option Nat) : State :=
  { ready [] with gov := { (ready []).gov with slow := slow, stackHold := hold, criticalLeftAt := left, railBelowAt := below, railAboveAt := above } }

theorem test_wit_slow :
    (let s := slowState true true (some 9999000000) none (some 9999000000)
     s.gov.stackHold = true ∧ s.stackSt.all (fun p => p.2.thermal != .critical) = true ∧ s.gov.criticalLeftAt = some 9999000000 ∧
       9999000000 + 1000000 ≤ s.clk ∧ s.gov.railBelowAt = none ∧ s.gov.railAboveAt.all (fun a => a + 1000000 ≤ s.clk) = true) ∧
    (slowState true true (some 9999000000) (some 0) none).gov.railBelowAt ≠ none ∧
    (let s := slowState true true (some 9999000000) none (some 9999000001)
     s.gov.railAboveAt.any (fun a => s.clk < a + 1000000) = true) ∧
    (let s := slowState false false none (some 9999900000) none
     s.gov.slow = false ∧ s.gov.railBelowAt = some 9999900000 ∧ 9999900000 + 100000 ≤ s.clk) ∧
    (let s := slowState true false none none (some 9999000000)
     s.gov.slow = true ∧ s.gov.stackHold = false ∧ s.gov.railBelowAt = none ∧
       s.gov.railAboveAt.all (fun a => a + 1000000 ≤ s.clk) = true) := by decide +kernel

/-- A module under a limit of 1,000 W and 95 degrees that has stayed below 97% for 50 us. -/
theorem test_wit_governor :
    let s0 := ready [(flLimitW, 0, 1000), (flTjLimit, 0, 95), (flVmaxMv, 0, 850), (flSlowMv, 0, 650)]
    let s := { s0 with gov := { s0.gov with below97At := some 9999950000, vcore := 700, samples := List.replicate 3 100 } }
    s.power.rails = true ∧ s.power.perstActed = false ∧ actF s flLimitW 0 = 1000 ∧ actF s flTjLimit 0 = 95 ∧
      s.gov.below97At = some 9999950000 ∧ 9999950000 + 50000 ≤ s.clk ∧ actF s flVmaxMv 0 = 850 ∧ actF s flSlowMv 0 = 650 := by
  decide +kernel

/-- A sample at the limit, with the mean between 97% and 100% of it, leaves the rail (R34). -/
theorem test_governor_excess :
    let s0 := ready [(flLimitW, 0, 1000), (flTjLimit, 0, 95), (flVmaxMv, 0, 850)]
    let s := { s0 with gov := { s0.gov with vcore := 700, samples := List.replicate 3 990 } }
    (match exec (.governorSample 1000 []) s with | .next t => t.gov.vcore | _ => 0) = 700 := by decide +kernel

theorem test_wit_sync :
    let s := netted [(flTbParent, 0, 11), (flTbAlt, 0, 15)] [(23, upLink)]
    actF s flTbRoot 0 ≠ 1 ∧ s.tb.running = true ∧ syncPort s = some 11 ∧ (portLinks s 11).find? (linkUp s) = some 23 ∧
      syncPort (netted [(flTbParent, 0, 0), (flTbAlt, 0, 15)] [(23, upLink)]) = none := by decide +kernel

/-- A frame of device 7 with its CRC. -/
def heardFrame (typ tc : BitVec 4) (tag : W32) (addr : W64) (aux : W32) (payload : List Byte) : Frame :=
  sealFrame { typ := typ, tc := tc, vc := 0, plen := BitVec.ofNat 4 (payload.length / 32), hdim := 0, slow := false, draining := false,
              maint := false, src := 7, dst := 5, lseq := 1, ack := 0, tag := tag, addr := addr, aux := aux, crc := 0, payload := payload }

theorem test_wit_sync_frames :
    let s0 := netted [] [(23, upLink)]
    let s := { s0 with tb := { s0.tb with pendingReq := some (23, 16000) } }
    linkUp s 23 = true ∧ (heardFrame ftSyncReq 0 0 16000 0 []).typ = ftSyncReq ∧ frameGood (heardFrame ftSyncReq 0 0 16000 0 []) = true ∧
      (heardFrame ftSyncRsp 0 1 32000 160 []).typ = ftSyncRsp ∧ frameGood (heardFrame ftSyncRsp 0 1 32000 160 []) = true ∧
      s.tb.pendingReq = some ((23 : LinkNo).val, 16000) ∧ actF s flTbRoot 0 = 0 := by decide +kernel

/-- Times in 1/16 ns: t1 = 16,000, t2 = 32,000, AUX = 160 (10 ns), t4 = 16,480 when the timebase is at 1,030 ns: ((16,000) − (−15,680)) / 32 = 990 ns (R356). -/
theorem test_sync_offset :
    let s0 := netted [] [(23, upLink)]
    let s := { s0 with tb := { s0.tb with now := 1030, pendingReq := some (23, 16000) } }
    (match exec (.syncRsp 23 (heardFrame ftSyncRsp 0 1 32000 160 []) 0) s with
      | .next t => (t.tb.offset, t.tb.now) | _ => (0, 0)) = (990, 2020) := by decide +kernel

theorem test_wit_refclk :
    (ready []).tb.running = true ∧ unitOn (ready []) 3 = true ∧ (ready []).tb.copyDelta = 0 ∧
      2 < { (ready []).tb with copyDelta := -3 }.copyDelta.natAbs ∧ (ready []).power.rails = true ∧ (ready []).pins.refclkOk = true := by decide +kernel

/-! ### Links and frames between devices: hypotheses met -/

theorem test_wit_link_training :
    (let s := netted [] [(23, { Link.reset with trainAt := some 9990000000 })]
     lanesLive s = true ∧ 6 ≤ s.boot.phase ∧ s.pins.refclkOk = true ∧ linkOn s 23 = true ∧ (linkGet s 23).state ≠ .up ∧
       (linkGet s 23).trainAt = some 9990000000 ∧ 9990000000 + 10000000 ≤ s.clk) ∧
    (let s := netted [] [(23, { Link.reset with state := .training })]
     lanesLive s = true ∧ s.pins.refclkOk = true ∧ linkOn s 23 = true ∧ (linkGet s 23).state = .training ∧ (linkGet s 23).helloWait = false) := by decide +kernel

/-- A HELLO of device 7 is good on port 0, and a miswire on port 11, unless ANY is set. -/
theorem test_wit_hello :
    let f := heardFrame ftHello 0 1 0 0 []
    let s (a : Nat) := netted [(flPortAny, 11, a)] [(0, { Link.reset with state := .training, helloWait := true }),
      (23, { Link.reset with state := .training, helloWait := true })]
    linkOn (s 0) 0 = true ∧ linkOn (s 0) 23 = true ∧ f.typ = ftHello ∧ frameGood f = true ∧ (linkGet (s 0) 23).state ≠ .up ∧
      (linkGet (s 0) 23).helloWait = true ∧ actF (s 1) flPortAny (actF (s 1) flLinkPort 23) = 1 ∧
      f.src.toNat = actF (s 0) flPortNbr (actF (s 0) flLinkPort 0) ∧ actF (s 0) flPortAny (actF (s 0) flLinkPort 23) ≠ 1 ∧
      f.src.toNat ≠ actF (s 0) flPortNbr (actF (s 0) flLinkPort 23) := by decide +kernel

/-- Link 0 of port 0 falls with and without link 1. -/
theorem test_wit_link_falls :
    let s := netted [] [(0, upLink), (1, upLink), (23, upLink)]
    let t := netted [] [(0, upLink), (23, upLink)]
    linkUp s 0 = true ∧ upLink.lastTx + 2000 ≤ s.clk ∧ upLink.lastRx + 20000 ≤ s.clk ∧ (portLinks s (actF s flLinkPort 0)) = [0, 1] ∧
      linkUp s 1 = true ∧ linkUp t 1 = false ∧ peerGone t (neighbourOf t 0 (linkGet t 0)) = false ∧ linkUp t 23 = true := by decide +kernel

/-- A frame of device 7 whose CRC is wrong. -/
def badFrame (typ : BitVec 4) : Frame :=
  let f := heardFrame typ 0 0 0 0 []
  { f with crc := f.crc + 1 }

theorem test_wit_local_bad :
    [ftTug, ftSlip, ftCredit, ftNak, ftNotice, ftSyncReq, ftSyncRsp].all (fun t => (badFrame t).typ == t && !frameGood (badFrame t)) = true := by
  decide +kernel

theorem test_wit_tug :
    let f := heardFrame ftTug 0 9 0 0 []
    let s := netted [] [(23, upLink)]
    linkUp s 23 = true ∧ f.typ = ftTug ∧ frameGood f = true ∧ f.src.toNat < 16384 ∧ (peerGet s f.src.toNat).state = .unknown ∧
      f.slow = false := by decide +kernel

theorem test_wit_credit :
    let f := heardFrame ftCredit 0 9 0x0001000200030004 0 []
    frameGood f = true ∧ f.typ = ftCredit ∧ f.tag.toNat % 16 ≤ 9 := by decide +kernel

/-- A replay buffer of one frame, numbered 5, resent no time and 8 times, and NAKs that name it or a later one. -/
def replaying (n : Nat) : Link := { upLink with replay := [{ heardFrame ftPut 1 0 0 0 [] with lseq := 5 }], resends := n, ackAt := 9999990000 }

theorem test_wit_nak :
    let f := heardFrame ftNak 0 5 0 0 []
    let g := heardFrame ftNak 0 6 0 0 []
    let again (x : Frame) := (replaying 0).replay.filter (fun y => lseqLe (x.tag.setWidth 16) y.lseq)
    f.typ = ftNak ∧ frameGood f = true ∧ frameGood g = true ∧ (replaying 0).txQueue = [] ∧
      (replaying 0).replay.all (fun y => !lseqLe y.lseq f.ack) = true ∧ again f ≠ [] ∧ again g = [] ∧ (replaying 7).resends < 8 ∧
      8 ≤ (replaying 8).resends ∧ (replaying 8).ackAt + 10000 ≤ (netted [] []).clk ∧ linkUp (netted [] [(23, replaying 8)]) 23 = true := by
  decide +kernel

theorem test_wit_slip :
    let f (r : W32) := heardFrame ftSlip 0 r 0 0 []
    let s := netted [] [(0, upLink), (1, upLink)]
    let t := netted [] [(0, upLink)]
    (f 1).typ = ftSlip ∧ frameGood (f 1) = true ∧ frameGood (f 3) = true ∧ frameGood (f 4) = true ∧ (f 1).tag.toNat % 16 = 1 ∧
      (f 3).tag.toNat % 16 = 3 ∧ (f 4).tag.toNat % 16 = 4 ∧ linkUp s 0 = true ∧ linkUp t 0 = true ∧
      peerGone s (neighbourOf s (actF s flLinkPort 0) (linkGet s 0)) = false ∧
      (portLinks t (actF t flLinkPort 0)).all (fun j => j = 0 || !linkUp t j) = true ∧ linkUp s 1 = true := by decide +kernel

/-- NOTICEs about device 9: LOST, and STATUS with count 1. -/
theorem test_wit_notice :
    let lost := heardFrame ftNotice 0 9 0 1 []
    let stat := heardFrame ftNotice 0 0x10009 0 2 []
    let s := netted [] [(0, upLink), (23, upLink)]
    let t := peerSet s 9 { peerGet s 9 with state := .lost }
    lost.typ = ftNotice ∧ frameGood lost = true ∧ frameGood stat = true ∧ lost.tag.toNat % 65536 ≠ ownId s ∧
      lost.tag.toNat % 65536 < 16384 ∧ lost.aux.getLsbD 0 = true ∧ stat.aux.getLsbD 0 = false ∧ peerGone s 9 = false ∧ peerGone t 9 = true ∧
      linkUp t 0 = true ∧ 0 < (BitVec.ofNat 16 (stat.tag.toNat / 65536) - (peerGet s 9).noticeCount).toInt := by decide +kernel

/-- A sequenced frame of device 7 on link 0, in order; its LSEQ is 1, the first. -/
def arrives (c : Frame) (s : State) : Bool := inOrder s 0 c && !isLocal c

theorem test_wit_in_order :
    let s := netted [] [(0, upLink)]
    [heardFrame ftRepairReq 1 0 0 0 [], heardFrame ftRepairRsp 1 0 0 0 [], heardFrame ftPut 1 0 0 0 [], heardFrame ftPutAck 1 0 0 0 [],
     heardFrame ftFlush 1 0 0 0 [], heardFrame ftFlushAck 1 0 0 0 [], heardFrame ftColl 9 0 0 0 [], heardFrame ftCollCtl 9 0 0 0 [],
     heardFrame ftCollCtl 9 0 0 3 []].all (fun f => arrives f s) = true := by decide +kernel

theorem test_wit_out_of_order :
    let f := heardFrame ftPut 1 0 0 0 []
    let s (n : BitVec 16) (d : Bool) := netted [] [(0, { upLink with rxLast := n, discarding := d })]
    frameGood f = true ∧ isLocal f = false ∧ linkUp (s 1 false) 0 = true ∧ f.lseq ≠ (linkGet (s 1 false) 0).rxLast + 1 ∧
      lseqLe f.lseq (linkGet (s 1 false) 0).rxLast = true ∧ f.lseq ≠ (linkGet (s 0xFFFE false) 0).rxLast + 1 ∧
      lseqLe f.lseq (linkGet (s 0xFFFE false) 0).rxLast = false ∧ (linkGet (s 0xFFFE true) 0).discarding = true := by decide +kernel

/-- A frame of device 7 for device 9 leaves by link 1 of port 0. -/
theorem test_wit_forward :
    let f := sealFrame { heardFrame ftPut 1 0 0 0 [] with dst := 9 }
    let s := netted [] [(1, upLink)]
    let t := peerSet s 7 { peerGet s 7 with state := .lost }
    linkUp s 1 = true ∧ frameGood f = true ∧ f.lseq = (linkGet s 1).rxLast + 1 ∧ (peerGet s 7).state ≠ .lost ∧ (peerGet t 7).state = .lost ∧
      (match routeOf s f false with | .out p g => carriers s p g false == [1] | _ => false) = true := by decide +kernel

/-- What the module answers leaves by link 0. -/
theorem test_wit_leaves :
    let s := netted [] [(0, upLink)]
    (match routeOf s (mkFrame s ftPutAck 1 2 7 0 0 0 []) true with | .out p g => carriers s p g true == [0] | _ => false) = true := by
  decide +kernel

/-- Block 8 in the four states that a repair request is refused in, and served. -/
theorem test_wit_repair_req :
    let f := heardFrame ftRepairReq 1 0 (BitVec.ofNat 64 (8 * blockBytes)) 0 []
    let s (m : Nat) (e : HtEntry) := bind (netted [(flMaint, 0, m)] [(0, upLink)]) [(8, e)]
    inOrder (s 0 HtEntry.reset) 0 f = true ∧ f.typ = ftRepairReq ∧ blockNo (f.addr.toNat % 2 ^ 48 / blockBytes * blockBytes) = 8 ∧
      (htGet (s 0 HtEntry.reset) 8).state = .unbound ∧ (htGet (s 0 { kernBlock 8 with state := .chafed }) 8).state = .chafed ∧
      (htGet (s 0 { kernBlock 8 with gen := 3 }) 8).gen.toNat ≠ f.aux.toNat % 65536 ∧ actF (s 1 (kernBlock 8)) flMaint 0 = 1 ∧
      (htGet (s 0 (kernBlock 8)) 8).gen.toNat = f.aux.toNat % 65536 ∧
      blockMarked (chafe (s 0 (kernBlock 8)) (frameBase .kern 8)) (kernBlock 8) = true := by decide +kernel

/-- The frame of a kern block holds no RAW data and no posted write. -/
theorem kern_plain (s : State) (fa n : Nat) (h : fa + n ≤ mantleBase) (hp : s.mem.posted = []) : plainSpan s fa n = true := by
  have hh : mantleBase ≤ hostFrames := by decide
  unfold plainSpan
  rw [hp]
  simp only [List.all_nil, Bool.and_true, Bool.and_eq_true, decide_eq_true_eq, List.all_eq_true, List.mem_range]
  refine ⟨Nat.le_trans h hh, fun i hi => ?_⟩
  have hlt : fa + i < mantleBase := Nat.lt_of_lt_of_le (Nat.add_lt_add_left hi fa) h
  simp [rawSlotOf, hlt]

/-- A repair of block 8 with n of its pieces received. -/
def repairing (n : Nat) : Repair := Repair.mk 8 0 0 0 77 ((List.range n).map (fun i => (256 * i, [])))

def repairs (n : Nat) : State :=
  let s0 := bind (netted [] [(0, upLink)]) [(8, kernBlock 8)]
  { s0 with net := { s0.net with repairs := [repairing n] } }

/-- The last piece of block 8. -/
def lastPiece : Frame := heardFrame ftRepairRsp 1 77 (BitVec.ofNat 64 (8 * blockBytes + 256 * 255)) 0 (List.replicate 32 1)

theorem test_wit_repair_rsp :
    inOrder (repairs 255) 0 lastPiece = true ∧ lastPiece.typ = ftRepairRsp ∧ lastPiece.aux.toNat % 8 = 0 ∧
      lastPiece.addr.toNat % 2 ^ 48 - 8 * blockBytes = 256 * 255 := by decide +kernel

theorem test_wit_repair_found :
    ((heard (repairs 255) 0 lastPiece).net.repairs.map (fun r => (r.reqId, r.name))) = [(lastPiece.tag.toNat, 8)] ∧
      ((repairing 255).got.any (fun p => p.1 = 256 * 255)) = false ∧ ((repairing 255).got).length + 1 = 256 ∧
      ((repairing 0).got).length + 1 ≠ 256 := by decide +kernel

theorem test_wit_repair_span : plainSpan (repairs 255) (frameBase .kern 8) blockBytes = true :=
  kern_plain _ _ _ (by decide +kernel) rfl

/-- Axis 7 of devices 5 and 7 over link 0, and line 0 with operations in flight. -/
def axisConf (fs : List (Fld × Nat × Nat)) : SMap W32 :=
  cwSet (netConf (lineFields ++ [(flAxSize, 7, 2), (flAxLinks, 7, 1), (flAxTimeout, 7, 100), (flAxSlowMult, 7, 4)] ++ fs)) 0x1078000 0x70005

def sailing (fs : List (Fld × Nat × Nat)) (os : List OpEnt) : State :=
  let s := netted [] [(0, upLink)]
  bind (withOps { s with cfg := { s.cfg with act := axisConf fs } } 0 os) [(4, kernBlock 4), (5, kernBlock 5), (8, kernBlock 8)]

/-- A window of 64 bytes in block 8 on axis 7. -/
def windowed : State := sailing [(flRxValid, 3, 1), (flRxBase, 3, 8 * blockBytes), (flRxSize, 3, 64), (flRxAxis, 3, 7)] []

/-- A PUT of 32 bytes at the end of the window, and one past it. -/
theorem test_wit_put :
    let f (a : Nat) := heardFrame ftPut 1 0 (BitVec.ofNat 64 (8 * blockBytes + a)) 1 (List.replicate 32 3)
    let ws := (List.range (f 32).plen.toNat).map (fun j => ((f 32).addr.toNat + 32 * j, ((f 32).payload.drop (32 * j)).take 32))
    inOrder windowed 0 (f 32) = true ∧ inOrder windowed 0 (f 64) = true ∧ putAccepted windowed (f 32) = true ∧ putAccepted windowed (f 64) = false ∧
      putHeld windowed (f 32) = false ∧ ws.all (fun w => kernHome windowed w.1 32 && !derivedName windowed (blockNo w.1)) = true ∧
      (let d := bind windowed [(8, { kernBlock 8 with derived := true })]
       putAccepted d (f 32) = true ∧ putHeld d (f 32) = false ∧ inOrder d 0 (f 32) = true ∧
        ws.all (fun w => decide (w.1 < straightBase) && derivedName d (blockNo w.1)) = true) ∧
      (let m := bind windowed [(8, { kernBlock 8 with state := .moving })]
       putAccepted m (f 32) = true ∧ putHeld m (f 32) = true ∧ inOrder m 0 (f 32) = true) ∧ apart (ws.map (fun w => (frameAt windowed w.1, 32))) = true ∧
      (f 32).aux.getLsbD 0 = true := by decide +kernel

/-- A FLUSH of a sender with and without a PUT whose answer is owed. -/
theorem test_wit_flush :
    let f := heardFrame ftFlush 1 0 0 0 []
    let s := netted [] [(0, upLink)]
    let t := { s with net := { s.net with owed := [heardFrame ftPut 1 0 0 0 []] } }
    inOrder s 0 f = true ∧ f.typ = ftFlush ∧ s.net.owed = [] ∧ inOrder t 0 f = true ∧ t.net.owed.any (fun x => x.src == f.src) = true := by
  decide +kernel

/-- A peer export whose PUT is acknowledged, or refused. -/
theorem test_wit_put_ack :
    let o := { running snap with total := 2, units := [0] }
    let s0 := sailing [] [o]
    let s := { s0 with net := { s0.net with puts := [PutStream.mk 0 0 4 1 false] } }
    let f (a : W64) := heardFrame ftPutAck 1 4 a 0 []
    inOrder s 0 (f 0) = true ∧ inOrder s 0 (f 0xFFFFFFFFFFFFFFFF) = true ∧
      (heard s 0 (f 0)).net.puts.find? (fun p => p.id = (f 0).tag.toNat) = some (PutStream.mk 0 0 4 1 false) ∧
      opFind (heard s 0 (f 0)) 0 0 = some o ∧ o.units.length ≠ o.total ∧ recordOpen (heard s 0 (f 0)) 0 = true := by decide +kernel

/-- Two collectives of axis 7, number 1: a RECV and a SEND of the pair, and a BARRIER; this module is rank 0. -/
def sailOp (op : Nat) (c : Coll) : OpEnt := { running (coll op 1) with coll := { c with nums := [(7, 1)] } }

def signature (op : Nat) (sig : W64) (kind : W32) : Frame := heardFrame ftCollCtl 9 (BitVec.ofNat 32 (1 + op * 2 ^ 24)) sig kind (List.replicate 32 0)

/-- A RECV's partner signs with its TAG; a member of a BARRIER signs, or signs with another COUNT. -/
theorem test_wit_signature :
    let r := sailOp cxRecv { Coll.reset with started := true, sigWait := [7] }
    let b := sailOp cxBarrier { Coll.reset with started := true, sigWait := [7] }
    let f := signature 0 (ccSig r.desc) 0
    let g := signature 1 (ccSig b.desc + 0x2000000) 0
    inOrder (sailing [] [r]) 0 f = true ∧ collFor (heard (sailing [] [r]) 0 f) f (f.addr.toNat % 16 = cxSend) cxRecv = some (0, r) ∧
      opFind (heard (sailing [] [r]) 0 f) 0 r.seq = some r ∧ f.addr = ccSig r.desc ∧
      BitVec.ofNat 32 (natOfBytes (f.payload.take 4)) = ccTag r.desc ∧ r.coll.started = true ∧ r.coll.early = [] ∧
      f.aux.toNat % 4 = 0 ∧ f.tc = 9 ∧
      collFor (heard (sailing [] [b]) 0 g) g (g.addr.toNat % 16 = cxSend) cxRecv = some (0, b) ∧ g.addr ≠ ccSig b.desc ∧
      ccOutCount (heard (sailing [] [b]) 0 g) b.desc = 0 ∧ recordOpen (heard (sailing [] [b]) 0 g) 0 = true ∧
      inOrder (sailing [] [b]) 0 g = true := by decide +kernel

/-- CLEAR, ABORT and ACK of a SEND. -/
theorem test_wit_collective_control :
    let g : Frame := { heardFrame ftColl 9 1 0 0 (List.replicate 32 1) with src := 5, dst := 7 }
    let x := sailOp cxSend { Coll.reset with started := true, clearWait := [7], ackWait := [7], txWait := [g] }
    let f (k : W32) := signature 0 (ccSig x.desc) k
    let s := sailing [] [x]
    [1, 2, 3].all (fun k => inOrder s 0 (f k) && decide ((f k).aux.toNat % 4 = k.toNat) &&
        (opFind (heard s 0 (f k)) 0 x.seq == some x)) = true ∧
      collFor (heard s 0 (f 1)) (f 1) ((f 1).addr.toNat % 16 = cxSend) cxSend = some (0, x) ∧
      collFor (heard s 0 (f 3)) (f 3) ((f 3).addr.toNat % 16 = cxSend) cxSend = some (0, x) ∧
      collFor (heard s 0 (f 2)) (f 2) true cxRecv = none ∧ collFor (heard s 0 (f 2)) (f 2) true cxSend = some (0, x) ∧
      ccOutCount (heard s 0 (f 2)) x.desc = 0 ∧ recordOpen (heard s 0 (f 2)) 0 = true := by decide +kernel

/-- What a waiting data frame leaves by. -/
theorem test_wit_collective_leaves :
    let x := { heardFrame ftColl 9 1 0 0 (List.replicate 32 1) with src := 5, dst := 7 }
    let s := sailing [] []
    (match routeOf s x true with | .out p g => carriers s p g true == [0] | _ => false) = true ∧
      (match routeOf s (ctlFrame s (sailOp cxRecv Coll.reset) 7 1 0) true with | .out p g => carriers s p g true == [0] | _ => false) = true := by
  decide +kernel

/-- Data of a RECV. -/
theorem test_wit_coll_data :
    let r := sailOp cxRecv { Coll.reset with started := true, rxWait := [(7, 64)] }
    let f := heardFrame ftColl 9 1 0 0 (List.replicate 32 1)
    let s := sailing [] [r]
    inOrder s 0 f = true ∧ f.typ = ftColl ∧ f.tc = 9 ∧ collFor (heard s 0 f) f (decide (f.tag.toNat / 2 ^ 24 = 0)) cxRecv = some (0, r) ∧
      opFind (heard s 0 f) 0 r.seq = some r ∧ r.coll.early = [] ∧ quiet s unLinks = false ∧
      (rxData (heard s 0 f) r f).any (fun x => decide (0 < x.count)) = true := by decide +kernel

/-- A signature of a RECV and of an axis collective not dispatched here yet. -/
theorem test_wit_early :
    let s := sailing [] []
    [signature 0 (ccSig (coll cxRecv 1)) 0, signature 1 (ccSig (coll cxBarrier 0)) 0].all (fun f => inOrder s 0 f &&
      (collFor (heard s 0 f) f (f.addr.toNat % 16 = cxSend) cxRecv).isNone && !numTaken (heard s 0 f) f &&
      (heard s 0 f).net.earlySigs.isEmpty) = true := by decide +kernel

/-- A BARRIER and a SYSTEM stopper past their timeouts. -/
theorem test_wit_collective_timeout :
    let b := sailOp cxBarrier { Coll.reset with sigWait := [7], waitSince := 9999900000 }
    let p := { running (words [(0, 0, opStopper), (8, 0, 4), (8, 3, 7)]) with total := 1 }
    let s := sailing [] [b]
    let t0 := sailing [] [p]
    let t := { t0 with net := { t0.net with flushes := [FlushSt.mk 0 0 0 7 [7]] } }
    opFind s 0 0 = some b ∧ recordOpen s 0 = true ∧ isColl b = true ∧ awaited b = [7] ∧ b.track ≠ .cancelPending ∧
      b.coll.waitSince + collTimeoutUs s b * 1000 ≤ tbNow s ∧ ccOutCount s b.desc = 0 ∧
      opFind t 0 0 = some p ∧ recordOpen t 0 = true ∧ opcodeOf p.desc = opStopper ∧ stopScope p.desc = 4 ∧ p.total = 1 ∧
      p.track = .running ∧ t.net.flushes.any (fun x => x.line == 0 && x.seq == p.seq && !x.waiting.isEmpty) = true ∧
      p.cDisp + p.n2 + actF t flAxTimeout (stopAxis p.desc) * actF t flAxSlowMult (stopAxis p.desc) * 1000 ≤ tbNow t := by decide +kernel

/-! ### Power, resets and boot: hypotheses met -/

/-- The bytes of an image of 4,096 bytes up to its last section: device ID from the pins, and the registers of `routed`. -/
def imageHead : List Byte :=
  (bytesOf 64 0x5a4c574c000001000700000000100000000007000a00000000000000000000000000000000000000000000000000000000000000000000000000000000000000).reverse ++
  (bytesOf 64 0x04aa87ca22be8b05378eb1c71ef320ad746e1d3b628ba79b9859f741e082542a385502f25dbf55296c3a545e3872760ab73617de4a96262c6f5d9e98bf9292dc).reverse ++
  (bytesOf 64 0x29f8f41dbd289a147ce9da3113b5f0b8c00a60b1ce1d7e819d7a431d7c90ea0e5f00000000000000000000000000000000000000000000000000000000000000).reverse ++
  (bytesOf 64 0x00000000000000000000000000000000000000000000000000000000000000000000000000000000000000000000000000000000000000000000000000000000).reverse ++
  (bytesOf 64 0x01000100a0010000300000002f3002c502000100d0010000000000000000000003000100d0010000000000000000000004000100d001000040000000f540e830).reverse ++
  (bytesOf 64 0x050001001002000000000000000000000700010010020000080000008ab2288c0800010018020000000000000000000009000100180200000000000000000000).reverse ++
  (bytesOf 64 0x0a0001001802000000000000000000000b00010018020000080000008ab2288c0000010000000000000000000000000074657374000000000000000000000000).reverse ++
  (bytesOf 64 0x000000000000000000000000000000000c0000010400000000400000000000000001000104000000100000000000000000040001040000000700000000000000).reverse ++
  (bytesOf 32 0x040001010400000000ee00000000000000000000000000000000000000000000).reverse

/-- Its signature, by the key pair whose private key is 1. -/
def imageSig : List Byte := (bytesOf 96 0xaa87ca22be8b05378eb1c71ef320ad746e1d3b628ba79b9859f741e082542a385502f25dbf55296c3a545e3872760ab7dc387ea7f64f3646c3b5160f7abc03395f41f3ce9ec8b62d62ffd05c1d0901c25465073988af19c9c76f70f4d6bac872).reverse

/-- What is fused for that key. -/
def keyFused : Nat := 0x8c4f262412b7f9ed867606705a130de5212fd048fbaf8c3842f4a240f4b45ba0c90f82194ccdda3ed89c96b0afe1d51d

/-- The image in slot A, the rest of the flash erased, in a module in reset. -/
def bootable : State :=
  { State.reset with
    flash := ((imageHead.zipIdx.map (fun (p : Byte × Nat) => (p.2, p.1))) ++ (imageSig.zipIdx.map (fun (p : Byte × Nat) => (4000 + p.2, p.1)))).filter (fun (p : Nat × Byte) => p.2 != 0xFF)
    fuses := { State.reset.fuses with keyValid := 1, keyHash := [BitVec.ofNat 384 keyFused] } }

/-- The hash that the image's signature signs. -/
def imageHash : Nat := 0x31b0b48537c4310f35034ef0879b55c4f124b86c13211a9509088e7b9ab4d789ff6214dbc959f05d8d1b12bc6444bdbb

theorem shaBlocks_add (m : Nat) : ∀ (n : Nat) (h : List W64) (bs : List Byte),
    shaBlocks (n + m) h bs = shaBlocks m (shaBlocks n h bs) (bs.drop (128 * n))
  | 0, h, bs => by simp [shaBlocks]
  | n + 1, h, bs => by
    rw [Nat.add_right_comm, shaBlocks, shaBlocks, shaBlocks_add m n, List.drop_drop]
    congr 2
    omega

theorem sha384_blocks (bs : List Byte) :
    sha384 bs = ((shaBlocks ((shaPad bs).length / 128) shaH (shaPad bs)).take 6).foldl (fun n x => n * 2 ^ 64 + x.toNat) 0 := rfl

/-- The signed bytes of the image: its head, then erased flash. -/
theorem boot_bytes : slotBytes (risen bootable 5) 0 0 (imgLength (risen bootable 5) 0 - 96) = imageHead ++ List.replicate 3456 0xFF := by
  decide +kernel

/-- Those bytes with their padding: 32 blocks. -/
def bootMsg : List Byte := shaPad (imageHead ++ List.replicate 3456 0xFF)

def bootH1 : List W64 := [5172613176182005485, 3611101596919662538, 463798758622476711, 2655302765362971599, 16901828933235903655, 5552872118825760099, 6939777133961559563, 9651519212382423802]
def bootH2 : List W64 := [16086336793349114102, 13967031656014077433, 7312148552106413594, 4980095563072434166, 6272688827534856082, 10840856624308705258, 1299780300418937156, 8501646500269092125]
def bootH3 : List W64 := [14579776050778225911, 8333890266274098235, 18435999901345005233, 5396330197669229599, 1565047166970593383, 3655776015176159814, 15870795885370331435, 5695376292593679303]
def bootH4 : List W64 := [3580560188018798863, 3819983703914534340, 17376216036619131541, 650926807682701193, 18402293961597775965, 10167741184064404923, 15534195280787765101, 12714590610870958985]

theorem boot_blocks : bootMsg.length / 128 = 8 + (8 + (8 + 8)) := by decide +kernel
theorem boot_hash_1 : shaBlocks 8 shaH bootMsg = bootH1 := by decide +kernel
theorem boot_hash_2 : shaBlocks 8 bootH1 (bootMsg.drop (128 * 8)) = bootH2 := by decide +kernel
theorem boot_hash_3 : shaBlocks 8 bootH2 ((bootMsg.drop (128 * 8)).drop (128 * 8)) = bootH3 := by decide +kernel
theorem boot_hash_4 : shaBlocks 8 bootH3 (((bootMsg.drop (128 * 8)).drop (128 * 8)).drop (128 * 8)) = bootH4 := by decide +kernel

theorem boot_hash : sha384 (slotBytes (risen bootable 5) 0 0 (imgLength (risen bootable 5) 0 - 96)) = imageHash := by
  rw [boot_bytes, sha384_blocks, ← bootMsg, boot_blocks, shaBlocks_add, shaBlocks_add, shaBlocks_add, boot_hash_1, boot_hash_2, boot_hash_3, boot_hash_4]
  decide +kernel
theorem boot_sig : ecdsaOk imageHash (imgKey (risen bootable 5) 0) (slotBytes (risen bootable 5) 0 (imgLength (risen bootable 5) 0 - 96) 96) = true := by
  decide +kernel
theorem boot_key : keySlotOf (risen bootable 5) 0 = some 0 := by decide +kernel
theorem boot_header : headerCause (risen bootable 5) 0 = 0 ∧ (imgVariants (risen bootable 5) 0).testBit (variantBit (risen bootable 5).fuses.variant) = true ∧
    ¬ imgSvn (risen bootable 5) 0 < (risen bootable 5).fuses.svnFloor.toNat := by decide +kernel
theorem boot_table : tableOk (risen bootable 5) 0 = true := by decide +kernel
theorem boot_crc : (imgTable (risen bootable 5) 0).any (fun x => (crc32c (secBytes (risen bootable 5) 0 x)).toNat != x.crc) = false := by
  decide +kernel
theorem boot_conf : (imageConf (risen bootable 5) 0 5).map (fun c => (c.act, c.devId)) = some (routed, 5) := by decide +kernel

/-- The whole-state check reads no state but the variant, the device ID, PERSONALITY, the active configuration, the tiers and
CXLM_LIVE. -/
theorem coil_eq (s t : State) (m : SMap W32) (h0 : s.fuses.variant = t.fuses.variant) (h1 : s.boot.devId = t.boot.devId)
    (h2 : s.boot.personality = t.boot.personality) (h3 : s.cfg.act = t.cfg.act) (h4 : s.tiers = t.tiers)
    (h5 : s.port.cxlmLive = t.port.cxlmLive) : coilCheck s m = coilCheck t m := by
  obtain ⟨sp, sf, sc, ⟨⟩, spi, spo, ⟨⟩, sfl, stb, sr, ⟨⟩, si, sb, ⟨⟩⟩ := s
  obtain ⟨tp, tf, tc, ⟨⟩, tpi, tpo, ⟨⟩, tfl, ttb, tr, ⟨⟩, ti, tb, ⟨⟩⟩ := t
  simp only at h0 h1 h2 h3 h4 h5
  subst h0 h1 h2 h3 h4 h5
  rfl

theorem coil_passes_at (s : State) (h0 : s.fuses.variant = (taking routed).fuses.variant) (h1 : s.boot.devId = (taking routed).boot.devId)
    (h2 : s.boot.personality = (taking routed).boot.personality) (h3 : s.cfg.act = (taking routed).cfg.act)
    (h4 : s.tiers = (taking routed).tiers) (h5 : s.port.cxlmLive = (taking routed).port.cxlmLive) : coilCheck s routed = none :=
  (coil_eq s (taking routed) routed h0 h1 h2 h3 h4 h5).trans test_wit_coil_check

/-- The module after it has examined slot A. -/
def examinedA : State :=
  let s := risen bootable 5
  { s with boot := { s.boot with slots := s.boot.slots.set 0 { generation := 7, cause := 0, svn := 0, keySlot := 0 } } }

/-- And slot B, which holds no image: one record in the log. -/
def examinedB : State :=
  logWrite { examinedA with boot := { examinedA.boot with slots := examinedA.boot.slots.set 1 { SlotInfo.reset with cause := 1 } } }
    logSlotBad 1 1 0

theorem boot_cause : imageCause (risen bootable 5) 0 5 = 0 := by
  have hc : imageConf (risen bootable 5) 0 5 ≠ none := by
    intro h
    have := boot_conf
    rw [h] at this
    exact absurd this (by decide)
  unfold imageCause
  rw [boot_hash, boot_sig, boot_key, boot_header.1, boot_header.2.1, if_neg (by decide : ¬ ((0 : Nat) != 0) = true), boot_table, boot_crc]
  rw [if_neg (by decide), if_neg (by decide), if_neg boot_header.2.2, if_neg (by decide), if_neg (by decide), if_neg (by decide)]
  cases h : imageConf (risen bootable 5) 0 5 with
  | none => exact absurd h hc
  | some c => rfl

theorem boot_fields : imgGeneration (risen bootable 5) 0 = 7 ∧ imgSvn (risen bootable 5) 0 = 0 := by decide +kernel

theorem boot_examine : examine (risen bootable 5) 0 5 = examinedA := by
  unfold examine
  rw [boot_cause, boot_fields.1, boot_fields.2, boot_key]
  rfl

theorem boot_other_cause : imageCause examinedA 1 5 = 1 := by decide +kernel

theorem boot_examine_other : examine examinedA 1 5 = examinedB := by
  unfold examine
  rw [boot_other_cause]
  rfl

theorem boot_image : imageConf examinedB 0 5 = some { act := routed, devId := 5, fromPins := true, style := 0, personality := 0 } := by
  decide +kernel

theorem boot_unforced : forcedBits examinedB routed = [] := by decide +kernel
theorem boot_units : cwSet routed 0x14 (cwGet routed 0x14) = routed := by decide +kernel

theorem logWrite_read (s : State) (code slot d0 d1 : Nat) :
    (logWrite s code slot d0 d1).fuses = s.fuses ∧ (logWrite s code slot d0 d1).cfg = s.cfg ∧ (logWrite s code slot d0 d1).tiers = s.tiers ∧
      (logWrite s code slot d0 d1).port = s.port := by
  unfold logWrite
  dsimp only
  split <;> exact ⟨rfl, rfl, rfl, rfl⟩

theorem bootBelay_passes (s : State) (k modId : Nat) (c : ImageConf) (hi : imageConf s k modId = some c) (hf : forcedBits s c.act = [])
    (hm : cwSet c.act 0x14 (cwGet c.act 0x14) = c.act) (hp : c.personality = 0)
    (h : ∀ t : State, t.fuses = s.fuses → t.cfg = s.cfg → t.tiers = s.tiers → t.port = s.port → t.boot.devId = BitVec.ofNat 14 c.devId →
      t.boot.personality = 0 → coilCheck t c.act = none) : (bootBelay s k modId).2 = true := by
  unfold bootBelay
  rw [hi]
  dsimp only
  rw [hf]
  dsimp only [List.foldl]
  rw [hm, hp, if_neg (by simp)]
  generalize hg : coilCheck _ c.act = r
  rw [h] at hg
  · subst hg
    rfl
  all_goals rfl

theorem boot_same : examinedB.fuses.variant = (taking routed).fuses.variant ∧ examinedB.cfg.act = (taking routed).cfg.act ∧
    examinedB.tiers = (taking routed).tiers ∧ examinedB.port.cxlmLive = (taking routed).port.cxlmLive := by
  unfold examinedB
  rw [(logWrite_read ..).1, (logWrite_read ..).2.1, (logWrite_read ..).2.2.1, (logWrite_read ..).2.2.2]
  exact ⟨rfl, rfl, rfl, rfl⟩

/-- The image's configuration passes the boot belay. -/
theorem boot_belay : (bootBelay examinedB 0 5).2 = true :=
  bootBelay_passes _ _ _ _ boot_image boot_unforced boot_units rfl (fun t hf hc ht hp hd hq =>
    coil_passes_at t ((congrArg (·.variant) hf).trans boot_same.1) (hd.trans rfl) (hq.trans rfl) ((congrArg (·.act) hc).trans boot_same.2.1)
      (ht.trans boot_same.2.2.1) ((congrArg (·.cxlmLive) hp).trans boot_same.2.2.2))

/-- Slot A passes its checks and its boot belay. -/
theorem test_wit_boot :
    let x := examine (examine (risen bootable 5) 0 (5 : BitVec 5).toNat) 1 (5 : BitVec 5).toNat
    bootable.pins.perstN = false ∧ bootable.power.rails = true ∧ bootable.power.perstActed = true ∧ bootable.boot.safe = false ∧
      bootable.boot.forceSafe = false ∧ slotOrder x = [0] ∧ (slotInfo x 0).cause = 0 ∧ (bootBelay x 0 (5 : BitVec 5).toNat).2 = true := by
  have h : examine (examine (risen bootable 5) 0 (5 : BitVec 5).toNat) 1 (5 : BitVec 5).toNat = examinedB :=
    (congrArg (fun y => examine y 1 5) boot_examine).trans boot_examine_other
  simp only [h]
  exact ⟨by decide, by decide, by decide, by decide, by decide, by decide +kernel, by decide +kernel, boot_belay⟩

/-- FORCE_SAFE, or an erased flash: no slot passes. -/
theorem test_wit_boot_safe :
    let s := risen State.reset 0
    let x := examine (examine s 0 (0 : BitVec 5).toNat) 1 (0 : BitVec 5).toNat
    State.reset.pins.perstN = false ∧ State.reset.power.rails = true ∧ State.reset.power.perstActed = true ∧ State.reset.boot.safe = false ∧
      State.reset.boot.forceSafe = false ∧ (slotInfo x 0).cause ≠ 0 ∧ (slotInfo x 1).cause ≠ 0 ∧
      (let f := { State.reset with boot := { State.reset.boot with forceSafe := true } }
       f.boot.forceSafe = true ∧ f.boot.safe = false ∧ f.power.perstActed = true) ∧
      (let g := { State.reset with power := { State.reset.power with perstActed := false } }
       g.power.perstActed = false ∧ g.pins.perstN = false ∧ g.power.rails = true) := by decide +kernel

theorem test_wit_training :
    let s (p : Nat) := { ready [] with boot := { (ready []).boot with phase := p } }
    lanesLive (s 4) = true ∧ (s 4).boot.phase = 4 ∧ (s 5).boot.phase = 5 ∧
      ([Stack.mantle 7, .mantle 0].all (fun x => !stackIn .f .kern x)) = true ∧ stackIn .f .kern (.kern 3) = true ∧
      stackIn .f .mantle (.mantle 7) = true ∧ (s 4).fuses.variant = .f := by decide +kernel

/-- LINKS ends once its links are up, or after 600 ms. -/
theorem test_wit_links_end :
    let s := { netted [] [(0, upLink), (1, upLink), (23, upLink)] with boot := { (ready []).boot with phase := 6 } }
    let t := { netted [] [] with boot := { (ready []).boot with phase := 6, linksAt := 9400000000 } }
    s.boot.phase = 6 ∧ lanesLive s = true ∧ linksSettled s = true ∧ linksSettled t = false ∧ t.boot.linksAt + 600000000 ≤ t.clk := by
  decide +kernel

theorem test_wit_update : (ready []).power.standby = true ∧ ([1, 2, 3] : List Byte).length ≤ 0x2000000 := by decide

/-- The power states in which each event acts. -/
theorem test_wit_power :
    let s := ready []
    let off := { s with power := { s.power with standby := false } }
    let low := { s with power := { s.power with rails := false, pwrEnLowAt := some 9000000000 }, pins := { s.pins with pwrEn := false } }
    let held := { low with power := { low.power with trip := true } }
    let on := { s with pins := { s.pins with pwrEn := true } }
    let wait := { s with pins := { s.pins with perstN := false }, power := { s.power with perstLowAt := some 9999900000 } }
    off.power.standby = false ∧ s.power.standby = true ∧ s.power.trip = false ∧ s.power.rails = true ∧
      (low.power.standby = true ∧ low.pins.pwrEn = false ∧ low.power.pwrEnLowAt = some 9000000000 ∧ 9000000000 + 1000000000 ≤ low.clk ∧
        low.power.rails = false ∧ low.power.trip = false ∧ low.power.faulted = false) ∧
      held.power.trip = true ∧ on.pins.pwrEn = true ∧ s.pins.perstN = true ∧
      (wait.power.rails = true ∧ wait.power.perstActed = false ∧ wait.pins.perstN = false ∧ wait.power.perstLowAt = some 9999900000 ∧
        9999900000 + 100000 ≤ wait.clk) ∧
      sourceFitted .f (.ioDie 1) = true ∧ sourceFitted .f (.stack (.mantle 7)) = true ∧ linkUp (netted [] [(23, upLink)]) 23 = true := by
  decide +kernel

theorem test_wit_event_read :
    let s := { ready [] with power := { (ready []).power with events := [PldmEvent.mk (.ioDie 0)] } }
    s.power.events = PldmEvent.mk (.ioDie 0) :: [] ∧ (38000 : Nat) - 1 < 38000 ∧ 36000 ≤ (36000 : Nat) := by decide

/-- The input lost and returned at the ends of its ranges (R433). -/
theorem test_input_fault :
    let s := { ready [] with pins := { (ready []).pins with pwrEn := true } }
    (match exec (.inputFault 37999) s with | .next t => (t.power.faulted, t.power.rails) | _ => (false, true)) = (true, false) ∧
      (match exec (.inputFault 38000) s with | .next t => t.power.faulted | _ => true) = false := by decide +kernel


end Sys2Proof.Tests
end

section
/-! SUPPORT. The canonical form along a step (O3), and which commands leave the active configuration (O7). -/

set_option Elab.async false

namespace Sys2Proof.Machine

open Sys2Proof

/-- A part outside a list of parts is the same in two states that differ in the list at most. -/
theorem Keeps.same {ps : List Part} {s t : State} (h : Keeps ps s t) (p : Part) (hp : ps.contains p = false) : p.same s t :=
  h.only p (by simpa using hp)

/-! ### The host's turn -/

theorem hostReach_of_hostTurn {s : State} (h : hostTurn s = true) : hostReach s = true := by
  rw [hostTurn, Bool.and_eq_true] at h
  exact h.1

theorem hostWaits_of_hostTurn {s : State} (h : hostTurn s = true) : hostWaits s = false := by
  rw [hostTurn, Bool.and_eq_true] at h
  simpa using h.2

/-- A register access that finds no host request waiting runs now (R299). -/
theorem hostLane_of_not_waits {s : State} (h : hostWaits s = false) (c : Instr) (run : State → Out) : hostLane c run s = run s := by
  simp [hostLane, hostAccess, h]

/-- A register access either joins the port's queue or runs. -/
theorem hostLane_eq (c : Instr) (run : State → Out) (s : State) :
    hostLane c run s = .next (holdReq s c true 0 0 false) ∨ hostLane c run s = run s := by
  cases h : hostWaits s with
  | true => exact Or.inl (by simp [hostLane, hostAccess, h])
  | false => exact Or.inr (hostLane_of_not_waits h c run)

/-! ### The canonical form along a step -/

/-- A command and the idle step keep the stores canonical; the queue is no store. -/
theorem step_keeps_wf {s t : State} (hs : s.wf = true) (h : step s = .next t) : t.wf = true := by
  unfold step at h
  split at h
  · exact (idle_keeps s t h).wf hs
  · exact (exec_keeps _ _ t h).wf hs

/-- Settles O3, from what every command and the idle step keep. -/
theorem everyStepKeepsStoresCanonical : Obligations.EveryStepKeepsStoresCanonical :=
  fun _ _ hs h => step_keeps_wf hs h

/-! ### The active configuration -/

@[simp] theorem coilStage_act (s : State) (off : Nat) (v : W32) : (coilStage s off v).cfg.act = s.cfg.act := rfl

@[simp] theorem countWrites_act (s : State) (n : Nat) : (countWrites s n).cfg.act = s.cfg.act := rfl

@[simp] theorem stageAccess_act (s : State) (off size : Nat) (val : W64) : (stageAccess s off size val).cfg.act = s.cfg.act := by
  unfold stageAccess
  dsimp only
  split <;> split <;> rfl

/-- A staging write leaves the active configuration, whether it acts or waits (R5). -/
theorem execCoilStageWrite_act {off : BitVec 26} {size : Nat} {val : W64} {s t : State}
    (h : execCoilStageWrite off size val s = .next t) : t.cfg.act = s.cfg.act := by
  rcases hostLane_eq (.coilStageWrite off size val) (coilStageWriteNow off size val) s with hq | hr
  · rw [execCoilStageWrite, hq] at h
    injection h with h
    exact h ▸ rfl
  · rw [execCoilStageWrite, hr] at h
    unfold coilStageWriteNow at h
    dsimp only at h
    split at h <;> injection h with h
    · rw [← h, countWrites_act, stageAccess_act]
    · rw [h]

/-- What a staging write leaves behind has the same active configuration. -/
theorem after_execCoilStageWrite_act (off : BitVec 26) (size : Nat) (val : W64) (s : State) :
    (after (execCoilStageWrite off size val s) s).cfg.act = s.cfg.act := by
  unfold after
  split
  · rename_i h
    exact execCoilStageWrite_act h
  · rfl

/-- A host register write leaves the active configuration: it stages at most, and no other field that it writes is part of the
configuration (R5, R386). -/
theorem execRegisterWrite_act {off : BitVec 26} {size : Nat} {val : W64} {s t : State}
    (h : execRegisterWrite off size val s = .next t) : t.cfg.act = s.cfg.act := by
  rcases hostLane_eq (.registerWrite off size val) (registerWriteNow off size val) s with hq | hr
  · rw [execRegisterWrite, hq] at h
    injection h with h
    exact h ▸ rfl
  · rw [execRegisterWrite, hr] at h
    unfold registerWriteNow at h
    dsimp only at h
    split at h
    · injection h with h
      exact h ▸ congrArg Config.act ((unreached_keeps s).same .cfg rfl)
    split at h
    · exact congrArg Config.act ((execBadMmioAccess_keeps _ _ _ _ _ t h).same .cfg rfl)
    split at h
    · exact congrArg Config.act ((execActViewWrite_keeps _ _ _ _ t h).same .cfg rfl)
    · injection h with h
      rw [← h, ← after_execCoilStageWrite_act off size val s]
      exact congrArg Config.act ((plainWrite_keeps _ _ _ _).same .cfg rfl)

/-- The end of an FLR sets the coil back to the active configuration, which stays as it was (R366). -/
theorem execFlrComplete_act {s t : State} (h : execFlrComplete s = .next t) : t.cfg.act = s.cfg.act := by
  have hst : (flrStops s).cfg = s.cfg := (flrStops_keeps s).same .cfg rfl
  unfold execFlrComplete at h
  dsimp only at h
  split at h
  · injection h with h
    rw [h]
  split at h
  · injection h with h
    rw [← h, hst]
  · injection h with h
    rw [← h]
    have hdrop : Keeps [.regs, .port, .belay, .lines, .tiers, .net, .pmu] (flrStops s)
        ((allOps (flrStops s)).foldl (fun t p => opRelease (opDrop t p.1 p.2.seq) p.1 p.2.seq) (flrStops s)) :=
      (Keeps.refl _ _).foldl (fun u p hu => (hu.step (opDrop_keeps u p.1 p.2.seq) rfl).step (opRelease_keeps ..) rfl)
    have hcfg := hdrop.same .cfg rfl
    refine (congrArg Config.act ((noteAll_keeps _).same .cfg rfl)).trans ?_
    exact (congrArg Config.act hcfg).trans (congrArg Config.act hst)

/-- The commands that may change the active configuration: the belay steps that reach the belay point, boot and training, and the
events that reset the module (R5, R386). -/
def appliesCoil : Instr → Bool
  | .belayBarrierReady | .belayEngineTake | .belayPoint | .bootStart _ | .stackTrainingDone _ _ _ | .stackTempReport _ _
  | .thermalTrip _ | .standbyPowerLoss _ | .shutdown | .inputFault _ | .warmReset => true
  | _ => false

/-- The commands that write the configuration and apply no coil: host writes, which stage, and the end of an FLR. -/
def stagesOnly : Instr → Bool
  | .registerWrite _ _ _ | .coilStageWrite _ _ _ | .flrComplete => true
  | _ => false

/-- No other command writes the configuration at all. -/
theorem writesCfg_cases (c : Instr) : (!(partsOf c).contains .cfg || appliesCoil c || stagesOnly c) = true := by
  cases c <;> rfl

theorem exec_act_of_stagesOnly {c : Instr} {s t : State} (hc : stagesOnly c = true) (h : exec c s = .next t) :
    t.cfg.act = s.cfg.act := by
  unfold stagesOnly at hc
  split at hc
  · exact execRegisterWrite_act h
  · exact execCoilStageWrite_act h
  · exact execFlrComplete_act h
  · cases hc

/-- A command that applies no coil leaves the active configuration. -/
theorem exec_act {c : Instr} {s t : State} (hc : appliesCoil c = false) (h : exec c s = .next t) : t.cfg.act = s.cfg.act := by
  have hcases := writesCfg_cases c
  rw [hc, Bool.or_false, Bool.or_eq_true, Bool.not_eq_true'] at hcases
  rcases hcases with hp | hst
  · exact congrArg Config.act (exec_same c s t h .cfg hp)
  · exact exec_act_of_stagesOnly hst h

/-- Settles O7: the commands that write the configuration and apply no coil write the coil only. -/
theorem onlyBelayAndBootApplyCoil : Obligations.OnlyBelayAndBootApplyCoil := by
  intro c s t hc h
  have hnot : (!appliesCoil c) = true := by
    revert hc
    cases c <;> exact id
  exact exec_act (by simpa using hnot) h

end Sys2Proof.Machine
end

section
/-! SUPPORT. What a host write stages and latches (O12). -/

set_option Elab.async false

namespace Sys2Proof.Machine

open Sys2Proof

/-! ### Staging a write -/

theorem cwGet_cwSet_self (m : SMap W32) (off : Nat) (w : W32) : cwGet (cwSet m off w) off = w := by
  simp only [cwGet, cwSet, mapFind_mapUpd_self]
  split
  · rename_i h
    exact h.symm
  · rfl

theorem cwGet_cwSet_ne (m : SMap W32) {off o : Nat} (w : W32) (h : o ≠ off) : cwGet (cwSet m off w) o = cwGet m o := by
  simp only [cwGet, cwSet, mapFind_mapUpd_ne _ _ _ _ h]

/-- The word at `o` of the coil with the CW bits that a write of `v` reaches (R386). -/
def stagedWord (s : State) (o : Nat) (v : W32) : W32 := (cwGet s.cfg.coil o &&& ~~~ stageMask s o) ||| (v &&& stageMask s o)

/-- A word without CW bits keeps its value. -/
theorem stagedWord_of_mask_zero {s : State} {o : Nat} (h : stageMask s o = 0) (v : W32) : stagedWord s o v = cwGet s.cfg.coil o := by
  rw [stagedWord, h]
  change (cwGet s.cfg.coil o &&& BitVec.allOnes 32) ||| (v &&& 0#32) = _
  rw [BitVec.and_allOnes, BitVec.and_zero, BitVec.or_zero]

/-- One word of an access staged: a word without CW bits is not written. -/
def stageIfCw (s : State) (off : Nat) (v : W32) : State := if stageMask s off != 0 then coilStage s off v else s

@[simp] theorem stageIfCw_mask (s : State) (off : Nat) (v : W32) : stageMask (stageIfCw s off v) = stageMask s := by
  unfold stageIfCw
  split <;> rfl

/-- The coil after one word was staged. -/
theorem stageIfCw_get (s : State) (off : Nat) (v : W32) (o : Nat) :
    cwGet (stageIfCw s off v).cfg.coil o = if o = off then stagedWord s o v else cwGet s.cfg.coil o := by
  unfold stageIfCw
  by_cases hm : stageMask s off = 0
  · rw [if_neg (by simp [hm])]
    by_cases ho : o = off
    · rw [if_pos ho, stagedWord_of_mask_zero (ho ▸ hm)]
    · rw [if_neg ho]
  · rw [if_pos (bne_iff_ne.2 hm)]
    by_cases ho : o = off
    · subst ho
      rw [if_pos rfl]
      exact cwGet_cwSet_self _ _ _
    · rw [if_neg ho]
      exact cwGet_cwSet_ne _ _ ho

/-- An access stages its words one after the other. -/
theorem stageAccess_eq (s : State) (off size : Nat) (val : W64) : stageAccess s off size val =
    if size = 8 then stageIfCw (stageIfCw s off (val.truncate 32)) (off + 4) ((val >>> 32).truncate 32)
    else stageIfCw s off (val.truncate 32) := by
  by_cases h8 : size = 8
  · rw [if_pos h8, stageIfCw, stageIfCw_mask]
    simp [stageAccess, stageIfCw, h8]
  · simp [stageAccess, stageIfCw, h8]

/-- The coil after an access: each word that it covers has taken its CW bits, every other word stays. -/
theorem stageAccess_get (s : State) (off size : Nat) (val : W64) (o : Nat) : cwGet (stageAccess s off size val).cfg.coil o =
    if o = off then stagedWord s o (val.truncate 32)
    else if size = 8 ∧ o = off + 4 then stagedWord s o ((val >>> 32).truncate 32)
    else cwGet s.cfg.coil o := by
  rw [stageAccess_eq]
  by_cases h8 : size = 8
  · rw [if_pos h8, stageIfCw_get, stageIfCw_get]
    by_cases h4 : o = off + 4
    · have hne : o ≠ off := by omega
      rw [if_pos h4, if_neg hne, if_pos ⟨h8, h4⟩, stagedWord, stagedWord, stageIfCw_mask, stageIfCw_get, if_neg hne]
    · have hno : ¬ (size = 8 ∧ o = off + 4) := fun h => h4 h.2
      rw [if_neg h4, if_neg hno]
  · have hno : ¬ (size = 8 ∧ o = off + 4) := fun h => h8 h.1
    rw [if_neg h8, stageIfCw_get, if_neg hno]

/-- WRITES counts at most once a word (R427). -/
theorem stageCount_le (s : State) {off size : Nat} (h : goodAccess off size = true) : stageCount s off size ≤ size / 4 := by
  have hsize : size = 4 ∨ size = 8 := by
    simp only [goodAccess, Bool.and_eq_true, Bool.or_eq_true, decide_eq_true_eq] at h
    exact h.1
  have hone (k : Nat) : (if stageMask s k != 0 then 1 else 0) ≤ 1 := by split <;> omega
  have ha := hone off
  have hb := hone (off + 4)
  simp only [stageCount]
  generalize (if stageMask s off != 0 then 1 else 0) = a at ha ⊢
  generalize (if stageMask s (off + 4) != 0 then 1 else 0) = b at hb ⊢
  rcases hsize with rfl | rfl
  · rw [if_neg (by omega)]
    exact ha
  · rw [if_pos rfl]
    split <;> omega

theorem satAdd_le (top x n : Nat) : satAdd top x n ≤ x + n := Nat.min_le_right _ _

/-- A staging write in the host's turn (R386, R427). -/
theorem execCoilStageWrite_turn {s : State} (ht : hostTurn s = true) {off : BitVec 26} {size : Nat}
    (hg : goodAccess off.toNat size = true) (ha : off.toNat < actBase) (val : W64) :
    execCoilStageWrite off size val s =
      .next (countWrites (stageAccess s off.toNat size val) (stageCount s off.toNat size)) := by
  rw [execCoilStageWrite, hostLane_of_not_waits (hostWaits_of_hostTurn ht)]
  simp [coilStageWriteNow, hostReach_of_hostTurn ht, hg, ha]

/-- A register write in the host's turn, below the ACT view: it stages, then acts on the fields that are not CW (R2). -/
theorem execRegisterWrite_turn {s : State} (ht : hostTurn s = true) {off : BitVec 26} {size : Nat}
    (hg : goodAccess off.toNat size = true) (ha : off.toNat < actBase) (val : W64) :
    execRegisterWrite off size val s =
      .next (plainWrite (countWrites (stageAccess s off.toNat size val) (stageCount s off.toNat size)) off.toNat size val) := by
  rw [execRegisterWrite, hostLane_of_not_waits (hostWaits_of_hostTurn ht)]
  have hact : ¬ actBase ≤ off.toNat := by omega
  simp [registerWriteNow, hostReach_of_hostTurn ht, hg, hact, execCoilStageWrite_turn ht hg ha, after]

/-- A write at an offset with no other field than CW fields does nothing beyond its staging (R3). -/
theorem plainWrite_eq_self {off size : Nat} (hw : woAt off = none) (h0 : wrRegs.find? (fun r => r.holds off) = none)
    (h4 : wrRegs.find? (fun r => r.holds (off + 4)) = none) (s : State) (val : W64) : plainWrite s off size val = s := by
  simp [plainWrite, hw, writeWord, h0, h4]

/-! ### The half latch and BOOT_FLASH_PAGE -/

/-- The lower half of a command register, written in the host's turn, is latched (R2). -/
theorem execWoHalfLatch_turn {s : State} (ht : hostTurn s = true) {off : BitVec 26} (hw : woRegs.contains off.toNat = true)
    (val : W32) : execWoHalfLatch off val s =
      .next { s with regs := { s.regs with woLatch := mapUpd s.regs.woLatch off.toNat (some val) } } := by
  rw [execWoHalfLatch, hostLane_of_not_waits (hostWaits_of_hostTurn ht)]
  simp only [woHalfLatchNow, hostReach_of_hostTurn ht, hw, Bool.and_self, if_true]

/-- The offset of BOOT_FLASH_PAGE. -/
def flashPageOff : Nat := 0x100030

theorem cwMask_flashPage : cwMask flashPageOff = 0 := by decide +kernel

theorem stageMask_flashPage (s : State) : stageMask s flashPageOff = 0 := by
  unfold stageMask
  split
  · rfl
  · exact cwMask_flashPage

/-- A 4-byte write of BOOT_FLASH_PAGE stages nothing. -/
theorem stageAccess_flashPage (s : State) (val : W64) : stageAccess s flashPageOff 4 val = s := by
  simp [stageAccess_eq, stageIfCw, stageMask_flashPage]

/-- A 4-byte write of BOOT_FLASH_PAGE sets the page. -/
theorem plainWrite_flashPage (s : State) (val : W64) :
    plainWrite s flashPageOff 4 val = { s with regs := { s.regs with flashPage := (val.truncate 32).truncate 11 } } := rfl

/-! ### The statement -/

/-- What a write below the ACT view leaves of the configuration. -/
theorem coilStageWrite_answers {s : State} (ht : hostTurn s = true) {off : BitVec 26} {size : Nat}
    (hg : goodAccess off.toNat size = true) (ha : off.toNat < actBase) (val : W64) :
    Answers (.coilStageWrite off size val) s (fun t =>
      (∀ o : Nat, cwGet t.cfg.coil o =
        if o = off.toNat then stagedWord s o (val.truncate 32)
        else if size = 8 ∧ o = off.toNat + 4 then stagedWord s o ((val >>> 32).truncate 32)
        else cwGet s.cfg.coil o) ∧
      t.cfg.act = s.cfg.act ∧ t.cfg.writes ≤ s.cfg.writes + size / 4 ∧ OnlyIn [.cfg] s t) := by
  refine ⟨_, execCoilStageWrite_turn ht hg ha val, stageAccess_get s off.toNat size val, stageAccess_act .., ?_, ?_⟩
  · have hw : (stageAccess s off.toNat size val).cfg.writes = s.cfg.writes := by
      unfold stageAccess
      dsimp only
      split <;> split <;> rfl
    have hc := stageCount_le s hg
    calc satAdd 65535 (stageAccess s off.toNat size val).cfg.writes (stageCount s off.toNat size)
        ≤ (stageAccess s off.toNat size val).cfg.writes + stageCount s off.toNat size := satAdd_le ..
      _ ≤ s.cfg.writes + size / 4 := by omega
  · exact ((stageAccess_keeps s off.toNat size val).step (countWrites_keeps ..) rfl).only

theorem woHalfLatch_answers {s : State} (ht : hostTurn s = true) {off : BitVec 26} (hw : woRegs.contains off.toNat = true)
    (val : W32) : Answers (.woHalfLatch off val) s (fun t =>
      mapFind t.regs.woLatch off.toNat = some val ∧
      (∀ o : Nat, o ≠ off.toNat → mapFind t.regs.woLatch o = mapFind s.regs.woLatch o) ∧ OnlyIn [.regs] s t) :=
  ⟨_, execWoHalfLatch_turn ht hw val, mapFind_mapUpd_self s.regs.woLatch _ (some val),
    fun o ho => mapFind_mapUpd_ne s.regs.woLatch _ o (some val) ho,
    (Keeps.upd (Keeps.refl [.regs] s)).only⟩

theorem flashPageWrite_answers {s : State} (ht : hostTurn s = true) (val : W64) :
    Answers (.registerWrite 0x100030 4 val) s (fun t =>
      t.regs = { s.regs with flashPage := val.truncate 11 } ∧ t.cfg.coil = s.cfg.coil ∧ t.cfg.act = s.cfg.act) := by
  have hrun := execRegisterWrite_turn (off := 0x100030) (size := 4) ht rfl (by decide) val
  have hoff : (0x100030 : BitVec 26).toNat = flashPageOff := rfl
  rw [hoff, stageAccess_flashPage, plainWrite_flashPage] at hrun
  have htr : (val.truncate 32).truncate 11 = val.truncate 11 := BitVec.setWidth_setWidth_of_le val (by decide)
  exact ⟨_, hrun, by rw [htr]; rfl, rfl, rfl⟩

/-- Settles O12: each word of an access takes exactly its CW bits, and a register without another field does nothing more. -/
theorem hostWritesStage : Obligations.HostWritesStage := by
  intro off size val s ht
  refine ⟨fun hg ha => coilStageWrite_answers ht hg ha val, fun hg ha hw h0 h4 => ?_,
    fun hw => woHalfLatch_answers ht hw _, flashPageWrite_answers ht val⟩
  have hreg := execRegisterWrite_turn ht hg ha val
  rw [plainWrite_eq_self hw h0 h4] at hreg
  exact hreg.trans (execCoilStageWrite_turn ht hg ha val).symm

end Sys2Proof.Machine
end

section
/-! SUPPORT. A read that clears LINK_DOWNS (O13). -/

set_option Elab.async false

namespace Sys2Proof.Machine

open Sys2Proof

/-- Offset of the upper half of HST_ERR_STAT, which holds HOST_ERR, BAD_MMIO and LINK_DOWNS. -/
def linkDownsOff : BitVec 26 := 0x140000C

/-- A read of the upper half clears LINK_DOWNS (R4). -/
theorem clearWord_linkDowns (s : State) : (clearWord s linkDownsOff.toNat).port.linkDowns = 0 := rfl

theorem plainRead_linkDowns (s : State) : (plainRead s linkDownsOff.toNat 4).port.linkDowns = 0 := by
  unfold plainRead
  dsimp only
  rw [if_neg (by decide), drawn_port, clearWord_linkDowns]

/-- A good 4-byte read of an ordinary register (R4). -/
theorem execReadClear_plain {s : State} (h : hostReach s = true) {off : BitVec 26} (hg : goodAccess off.toNat 4 = true)
    (ha : off.toNat < actBase) (h0 : off.toNat ≠ 0x100) (h4 : off.toNat ≠ 0x104) :
    execReadClear off 4 s = .next (plainRead s off.toNat 4) := by
  have hact : ¬ actBase ≤ off.toNat := by omega
  simp [execReadClear, h, hg, hact, h0, h4]

/-- The port is reachable and its link went down once. -/
def lostLinkOnce : State :=
  { State.reset with
    power := { State.reset.power with rails := true, perstActed := false }
    boot := { State.reset.boot with phase := 7 }
    port := { State.reset.port with linkUp := true, linkDowns := 1 } }

/-- Refutes O13: a read of LINK_DOWNS clears it (R4), so the host's link state, which the frame of an ordinary read leaves out
of the parts that may change, does change. -/
theorem not_hostReads : ¬ Obligations.HostReads := by
  intro h
  obtain ⟨hread, -⟩ := h linkDownsOff 4 0 lostLinkOnce rfl
  obtain ⟨t, ht, -, honly⟩ := hread rfl (by decide) (Or.inl (by decide))
  have hrun := execReadClear_plain (s := lostLinkOnce) (off := linkDownsOff) rfl rfl (by decide) (by decide) (by decide)
  have heq : t = plainRead lostLinkOnce linkDownsOff.toNat 4 := Host.Outcome.next.inj (ht.symm.trans hrun)
  have hclear : t.port.linkDowns = 0 := heq ▸ plainRead_linkDowns lostLinkOnce
  have hlink : (t.port.linkUp, t.port.linkDowns, t.port.flrAt) = (true, 1, none) := honly .link (by decide)
  rw [Prod.mk.injEq, Prod.mk.injEq, hclear] at hlink
  exact absurd hlink.2.1 (by decide)

end Sys2Proof.Machine
end

section
/-! SUPPORT. A link-local frame sent on an UP link goes onto its wire, and the wires outlive a reset (R328, R348). -/

set_option Elab.async false

namespace Sys2Proof.Machine

open Sys2Proof

/-! ### What a link's transmitter keeps -/

/-- From link state `l` to `l'`: the wire has only grown, and the link's state and the ACK that it sends are the same. -/
structure Sends (l l' : Link) : Prop where
  state : l'.state = l.state
  rxLast : l'.rxLast = l.rxLast
  wire : ∃ sent : List Frame, l'.wire = l.wire ++ sent

theorem Sends.refl (l : Link) : Sends l l := ⟨rfl, rfl, [], by simp⟩

theorem Sends.trans {a b c : Link} (h1 : Sends a b) (h2 : Sends b c) : Sends a c := by
  obtain ⟨x, hx⟩ := h1.wire
  obtain ⟨y, hy⟩ := h2.wire
  exact ⟨h2.state.trans h1.state, h2.rxLast.trans h1.rxLast, x ++ y, by rw [hy, hx, List.append_assoc]⟩

/-- The frame `f` is among what the link put onto its wire, with the link's ACK and its CRC. -/
def Sent (l l' : Link) (f : Frame) : Prop :=
  ∃ sent : List Frame, l'.wire = l.wire ++ sent ∧ sealFrame { f with ack := l.rxLast } ∈ sent

theorem Sent.then_sends {a b c : Link} {f : Frame} (h1 : Sent a b f) (h2 : Sends b c) : Sent a c f := by
  obtain ⟨x, hx, hf⟩ := h1
  obtain ⟨y, hy⟩ := h2.wire
  exact ⟨x ++ y, by rw [hy, hx, List.append_assoc], List.mem_append_left y hf⟩

theorem Sends.then_sent {a b c : Link} {f : Frame} (h1 : Sends a b) (h2 : Sent b c f) : Sent a c f := by
  obtain ⟨x, hx⟩ := h1.wire
  obtain ⟨y, hy, hf⟩ := h2
  exact ⟨x ++ y, by rw [hy, hx, List.append_assoc], List.mem_append_right x (h1.rxLast ▸ hf)⟩

/-- The choice of a sequenced frame changes the link's deficits and the axis' turn at most (R328). -/
theorem nextSequenced_sends {own : BitVec 16} {cw dw : Nat} {l l1 : Link} {q : List Frame} {f : Frame}
    (h : nextSequenced own cw dw l q = some (f, l1)) : Sends l l1 := by
  unfold nextSequenced at h
  dsimp only at h
  split at h
  · cases h
    exact Sends.refl _
  split at h
  · cases h
  · cases h
    exact ⟨rfl, rfl, [], by simp⟩
  · cases h
    exact ⟨rfl, rfl, [], by simp⟩
  · split_ifs at h <;> cases h <;> exact ⟨rfl, rfl, [], by simp⟩

theorem pumpLink_sends (own : BitVec 16) (cw dw clk fuel : Nat) (l : Link) : Sends l (pumpLink own cw dw clk fuel l) := by
  induction fuel generalizing l with
  | zero => exact Sends.refl l
  | succ fuel ih =>
    rw [pumpLink]
    split
    · refine Sends.trans ?_ (ih _)
      exact ⟨rfl, rfl, _, rfl⟩
    split
    · exact Sends.refl l
    · rename_i h
      split
      · exact Sends.refl l
      · refine ((nextSequenced_sends h).trans ?_).trans (ih _)
        exact ⟨rfl, rfl, _, rfl⟩

/-- One step of the search for the first frame of the smallest rank. -/
def betterLocal (acc : Option Frame) (f : Frame) : Option Frame :=
  match acc with
  | none => some f
  | some g => if localRank f < localRank g then some f else some g

theorem firstLocal_eq_foldl (q : List Frame) : firstLocal q = (q.filter isLocal).foldl betterLocal none := rfl

theorem betterLocal_eq (acc : Option Frame) (f : Frame) : betterLocal acc f = some f ∨ acc.isSome ∧ betterLocal acc f = acc := by
  cases acc with
  | none => exact Or.inl rfl
  | some g =>
    unfold betterLocal
    dsimp only
    split
    · exact Or.inl rfl
    · exact Or.inr ⟨rfl, rfl⟩

theorem foldl_betterLocal (l : List Frame) (acc : Option Frame) (h : acc.isSome ∨ l ≠ []) :
    ∃ g : Frame, l.foldl betterLocal acc = some g ∧ (acc = some g ∨ g ∈ l) := by
  induction l generalizing acc with
  | nil =>
    obtain ⟨g, hg⟩ := Option.isSome_iff_exists.1 (h.resolve_right (fun hn => hn rfl))
    exact ⟨g, hg, Or.inl hg⟩
  | cons f l ih =>
    rw [List.foldl_cons]
    rcases betterLocal_eq acc f with hf | ⟨hs, ha⟩
    · obtain ⟨g, hg, hm⟩ := ih (betterLocal acc f) (Or.inl (by rw [hf]; rfl))
      refine ⟨g, hg, Or.inr ?_⟩
      rcases hm with hm | hm
      · rw [hf] at hm
        exact Option.some.inj hm ▸ List.mem_cons_self
      · exact List.mem_cons_of_mem f hm
    · rw [ha]
      obtain ⟨g, hg, hm⟩ := ih acc (Or.inl hs)
      exact ⟨g, hg, hm.imp_right (List.mem_cons_of_mem f)⟩

/-- A queue with a link-local frame has one that goes next (R328, rule 1). -/
theorem firstLocal_exists {q : List Frame} {f : Frame} (hf : f ∈ q) (hl : isLocal f = true) :
    ∃ g ∈ q, firstLocal q = some g := by
  have hm : f ∈ q.filter isLocal := List.mem_filter.2 ⟨hf, hl⟩
  obtain ⟨g, hg, hc⟩ := foldl_betterLocal (q.filter isLocal) none (Or.inr (List.ne_nil_of_mem hm))
  exact ⟨g, List.mem_of_mem_filter (hc.resolve_left (by simp)), (firstLocal_eq_foldl q).trans hg⟩

/-- Every link-local frame of the queue goes onto the wire: it needs no credit, and goes before every sequenced frame. -/
theorem pumpLink_sent_local (own : BitVec 16) (cw dw clk fuel : Nat) {l : Link} {f : Frame} (hf : f ∈ l.txQueue)
    (hl : isLocal f = true) (hfuel : l.txQueue.length ≤ fuel) : Sent l (pumpLink own cw dw clk fuel l) f := by
  induction fuel generalizing l with
  | zero => exact absurd hfuel (by have := List.length_pos_of_mem hf; omega)
  | succ fuel ih =>
    obtain ⟨g, hg, hfirst⟩ := firstLocal_exists hf hl
    rw [pumpLink, hfirst]
    dsimp only
    by_cases hgf : f = g
    · subst hgf
      exact Sent.then_sends ⟨[onWire l f], rfl, List.mem_singleton_self _⟩ (pumpLink_sends ..)
    · have hlen := List.length_erase_of_mem hg
      refine Sends.then_sent ?_ (ih ((List.mem_erase_of_ne hgf).2 hf) (by dsimp only; omega))
      exact ⟨rfl, rfl, _, rfl⟩

/-! ### What sending on a link leaves on every link -/

theorem linkGet_congr {s t : State} (h : t.net = s.net) (k : Nat) : linkGet t k = linkGet s k := by
  rw [linkGet, linkGet, h]

/-- The transmitter of an UP link has run. -/
theorem linkGet_pump_self {s : State} {k : Nat} (h : (linkGet s k).state = .up) : linkGet (pump s k) k =
    noteStall (BitVec.ofNat 16 (ownId s)) (tbNow s) (pumpLink (BitVec.ofNat 16 (ownId s)) (actF s flCollWeight 0) (actF s flDataWeight 0)
      s.clk (linkGet s k).txQueue.length (linkGet s k)) := by
  unfold pump
  dsimp only
  rw [if_pos (by simp [h]), linkGet_congr ((countSent_keeps _ _ _).same .net rfl), linkGet_linkSet_self]

/-- The transmitter of a link leaves every other link. -/
theorem linkGet_pump_ne (s : State) {k j : Nat} (h : j ≠ k) : linkGet (pump s k) j = linkGet s j := by
  unfold pump
  dsimp only
  split
  · rw [linkGet_congr ((countSent_keeps _ _ _).same .net rfl), linkGet_linkSet_ne _ _ _ _ h]
  · rfl

theorem linkGet_sendOn_ne (s : State) (f : Frame) {k j : Nat} (h : j ≠ k) : linkGet (sendOn s k f) j = linkGet s j := by
  unfold sendOn
  dsimp only
  rw [linkGet_pump_ne _ h, linkGet_linkSet_ne _ _ _ _ h]

/-- A link-local frame sent on an UP link goes onto its wire at once. -/
theorem sendOn_sent_local {s : State} {k : Nat} {f : Frame} (hup : (linkGet s k).state = .up) (hl : isLocal f = true) :
    Sent (linkGet s k) (linkGet (sendOn s k f) k) f := by
  unfold sendOn
  dsimp only
  rw [linkGet_pump_self (by simpa using hup), linkGet_linkSet_self]
  have hsent := pumpLink_sent_local (l := { linkGet s k with txQueue := (linkGet s k).txQueue ++ [f] })
    (BitVec.ofNat 16 (ownId s)) (actF s flCollWeight 0) (actF s flDataWeight 0) s.clk _ (by simp) hl (Nat.le_refl _)
  exact hsent

/-- Sending on an UP link only extends wires. -/
theorem sendOn_sends {s : State} {k : Nat} (f : Frame) (hup : (linkGet s k).state = .up) (j : Nat) :
    Sends (linkGet s j) (linkGet (sendOn s k f) j) := by
  by_cases hj : j = k
  · subst hj
    unfold sendOn
    dsimp only
    rw [linkGet_pump_self (by simpa using hup), linkGet_linkSet_self]
    have hs := pumpLink_sends (BitVec.ofNat 16 (ownId s)) (actF s flCollWeight 0) (actF s flDataWeight 0) s.clk
      ((linkGet s j).txQueue ++ [f]).length { linkGet s j with txQueue := (linkGet s j).txQueue ++ [f] }
    exact ⟨hs.state, hs.rxLast, hs.wire⟩
  · rw [linkGet_sendOn_ne s f hj]
    exact Sends.refl _

/-! ### SLIP series (R348) -/

/-- The SLIP frame of a reason. -/
def slipFrame (s : State) (reason : Nat) : Frame := mkLocal s ftSlip (BitVec.ofNat 32 reason) 0 0

/-- A link-local frame depends on the module's status, its number and its configuration only. -/
theorem slipFrame_congr {s t : State} (h : Keeps [.regs, .port, .net, .pmu] s t) (reason : Nat) :
    slipFrame t reason = slipFrame s reason := by
  have hg : t.gov = s.gov := h.same .gov rfl
  have hb : t.boot = s.boot := h.same .boot rfl
  have hbl : t.belay = s.belay := h.same .belay rfl
  have hc : t.cfg = s.cfg := h.same .cfg rfl
  have hown : ownId t = ownId s := by rw [ownId, ownId, hb]
  have hdrain : draining t = draining s := by rw [draining, draining, hbl]
  have hmaint : actF t flMaint 0 = actF s flMaint 0 := by rw [actF, actF, hc]
  simp only [slipFrame, mkLocal, mkFrame, hg, hown, hdrain, hmaint]

theorem slipLink_eq (s : State) (k reason : Nat) : slipLink s k reason =
    sendOn (sendOn (sendOn s k (slipFrame s reason)) k (slipFrame s reason)) k (slipFrame s reason) := rfl

theorem slipLink_sends {s : State} {k : Nat} (hup : (linkGet s k).state = .up) (reason j : Nat) :
    Sends (linkGet s j) (linkGet (slipLink s k reason) j) := by
  rw [slipLink_eq]
  have h1 := sendOn_sends (slipFrame s reason) hup
  have hup1 := (h1 k).state.trans hup
  have h2 := sendOn_sends (slipFrame s reason) hup1
  have hup2 := (h2 k).state.trans hup1
  exact ((h1 j).trans (h2 j)).trans (sendOn_sends (slipFrame s reason) hup2 j)

/-- A SLIP series on an UP link goes onto its wire. -/
theorem slipLink_sent {s : State} {k : Nat} (hup : (linkGet s k).state = .up) (reason : Nat) :
    Sent (linkGet s k) (linkGet (slipLink s k reason) k) (slipFrame s reason) := by
  rw [slipLink_eq]
  have h1 := sendOn_sends (slipFrame s reason) hup k
  have hup1 := h1.state.trans hup
  have h2 := sendOn_sends (slipFrame s reason) hup1 k
  have hup2 := h2.state.trans hup1
  exact (h1.trans h2).then_sent (sendOn_sent_local hup2 rfl)

/-- A SLIP series on each of a list of UP links goes onto the wire of each. -/
theorem slipLinks_sent (reason : Nat) (ks : List Nat) (s : State) (hup : ∀ k ∈ ks, (linkGet s k).state = .up) :
    (∀ j : Nat, Sends (linkGet s j) (linkGet (ks.foldl (fun t k => slipLink t k reason) s) j)) ∧
    ∀ k ∈ ks, Sent (linkGet s k) (linkGet (ks.foldl (fun t k => slipLink t k reason) s) k) (slipFrame s reason) := by
  induction ks generalizing s with
  | nil => exact ⟨fun _ => Sends.refl _, fun k hk => absurd hk List.not_mem_nil⟩
  | cons i ks ih =>
    have hi := hup i List.mem_cons_self
    have hstep := slipLink_sends hi reason
    obtain ⟨hrest, hsent⟩ := ih (slipLink s i reason)
      (fun k hk => (hstep k).state.trans (hup k (List.mem_cons_of_mem i hk)))
    rw [List.foldl_cons]
    refine ⟨fun j => (hstep j).trans (hrest j), fun k hk => ?_⟩
    rcases List.mem_cons.1 hk with rfl | hk
    · exact (slipLink_sent hi reason).then_sends (hrest k)
    · have hk' := hsent k hk
      rw [slipFrame_congr (slipLink_keeps s i reason)] at hk'
      exact (hstep k).then_sent hk'

/-- SLIP has gone onto the wire of every UP link. -/
theorem slipAll_sent (s : State) (reason : Nat) {k : Nat} (hk : k < 24) (hup : linkUp s k = true) :
    Sent (linkGet s k) (linkGet (slipAll s reason) k) (slipFrame s reason) := by
  refine (slipLinks_sent reason ((List.range 24).filter (linkUp s)) s (fun j hj => ?_)).2 k
    (List.mem_filter.2 ⟨List.mem_range.2 hk, hup⟩)
  have hj := (List.mem_filter.1 hj).2
  rw [linkUp, Bool.and_eq_true, decide_eq_true_eq] at hj
  exact hj.2

/-! ### What a reset leaves of the links -/

/-- A link's entry after a reset: its wire alone. -/
theorem mapFind_wires (m : SMap Link) (k : Nat) {l : Link} (h : mapFind m k = some l) (hw : l.wire ≠ []) :
    mapFind ((m.filter (fun p => !p.2.wire.isEmpty)).map (fun p => (p.1, { Link.reset with wire := p.2.wire }))) k =
      some { Link.reset with wire := l.wire } := by
  induction m with
  | nil => cases h
  | cons p m ih =>
    rw [mapFind] at h
    by_cases hp : p.1 = k
    · rw [if_pos hp] at h
      cases h
      have hne : p.2.wire.isEmpty = false := by simpa using hw
      rw [List.filter_cons_of_pos (by simp [hne]), List.map_cons, mapFind, if_pos hp]
    · rw [if_neg hp] at h
      by_cases hne : p.2.wire.isEmpty = true
      · rw [List.filter_cons_of_neg (by simp [hne])]
        exact ih h
      · rw [List.filter_cons_of_pos (by simp [hne]), List.map_cons, mapFind, if_neg hp]
        exact ih h

/-- A link that has put frames onto its wire keeps them over a reset. -/
theorem cleared_wire {s : State} {k : Nat} (h : (linkGet s k).wire ≠ []) :
    (linkGet (cleared s) k).wire = (linkGet s k).wire := by
  unfold linkGet mapGet at h ⊢
  cases hf : mapFind s.net.links k with
  | none =>
    rw [hf] at h
    exact absurd rfl h
  | some l =>
    rw [hf] at h
    rw [show (cleared s).net.links = wiresOf s from rfl, wiresOf, mapFind_wires _ _ hf h]
    rfl

theorem mem_of_mapFind {V : Type} {m : SMap V} {k : Nat} {v : V} (h : mapFind m k = some v) : (k, v) ∈ m := by
  induction m with
  | nil => cases h
  | cons p m ih =>
    rw [mapFind] at h
    split at h
    · rename_i hp
      cases h
      exact hp ▸ List.mem_cons_self
    · exact List.mem_cons_of_mem p (ih h)

/-- Every link is DOWN after a reset (R435). -/
theorem cleared_link_down (s : State) (k : Nat) : (linkGet (cleared s) k).state = .down := by
  unfold linkGet mapGet
  cases hf : mapFind (cleared s).net.links k with
  | none => rfl
  | some l =>
    obtain ⟨p, -, hp⟩ := List.mem_map.1 (mem_of_mapFind hf)
    rw [Prod.mk.injEq] at hp
    rw [← hp.2]
    rfl

/-- SLIP of a reason has gone onto every link that was UP (R348). -/
def SlipsSent (s t : State) (reason : Nat) : Prop :=
  ∀ k : Nat, k < 24 → linkUp s k = true → Emitted s t k (mkLocal s ftSlip (BitVec.ofNat 32 reason) 0 0)

/-- The SLIP series that goes before a reset stands on the wires after it. -/
theorem cleared_slipAll_sent (s : State) (reason : Nat) : SlipsSent s (cleared (slipAll s reason)) reason := by
  intro k hk hup
  obtain ⟨sent, hw, hf⟩ := slipAll_sent s reason hk hup
  have hne : (linkGet (slipAll s reason) k).wire ≠ [] := by
    rw [hw]
    exact List.append_ne_nil_of_right_ne_nil _ (List.ne_nil_of_mem hf)
  exact ⟨sent, _, (cleared_wire hne).trans hw, hf, Or.inl rfl⟩

end Sys2Proof.Machine
end

section
/-! SUPPORT. The events of power and reset (O59). -/

set_option Elab.async false

namespace Sys2Proof.Machine

open Sys2Proof

/-! ### The rails going down (R436) -/

theorem slipAll_host (s : State) (reason : Nat) : (slipAll s reason).mem.host = s.mem.host :=
  congrArg Mem.host ((slipAll_keeps s reason).same .mem rfl)

theorem slipAll_forceSafe (s : State) (reason : Nat) : (slipAll s reason).boot.forceSafe = s.boot.forceSafe :=
  congrArg Boot.forceSafe ((slipAll_keeps s reason).same .boot rfl)

theorem railsDown_off {s : State} (h : s.power.rails = false) (reason : Nat) : railsDown s reason = s := by
  unfold railsDown
  rw [if_pos (by simp [h])]

/-- Rails that were up go down after the SLIP series, with everything that a reset clears. -/
theorem railsDown_on {s : State} (h : s.power.rails = true) (reason : Nat) : railsDown s reason =
    { cleared (slipAll s reason) with
      power := { (cleared (slipAll s reason)).power with rails := false, perstActed := true }
      pins := { (cleared (slipAll s reason)).pins with pwrGood := false } } := by
  unfold railsDown
  rw [if_neg (by simp [h])]

/-- Power after the rails went down: a second fall changes nothing. -/
theorem railsDown_power (s : State) (reason : Nat) : (railsDown s reason).power =
    { s.power with rails := false, perstActed := s.power.perstActed || s.power.rails } := by
  cases hr : s.power.rails with
  | false => rw [railsDown_off hr, Bool.or_false, ← hr]
  | true =>
    have hp : (slipAll s reason).power = s.power := (slipAll_keeps s reason).same .power rfl
    rw [railsDown_on hr, Bool.or_true, ← hp]
    rfl

theorem railsDown_fuses (s : State) (reason : Nat) : (railsDown s reason).fuses = s.fuses :=
  (railsDown_keeps s reason).same .fuses rfl

/-- The flash outlives the rails. -/
theorem railsDown_flash (s : State) (reason : Nat) : (railsDown s reason).flash = s.flash := by
  unfold railsDown
  split
  · rfl
  · exact (slipAll_keeps s reason).same .flash rfl

theorem railsDown_rails (s : State) (reason : Nat) : (railsDown s reason).power.rails = false := by rw [railsDown_power]

theorem railsDown_trip (s : State) (reason : Nat) : (railsDown s reason).power.trip = s.power.trip := by rw [railsDown_power]

theorem railsDown_standby (s : State) (reason : Nat) : (railsDown s reason).power.standby = s.power.standby := by
  rw [railsDown_power]

theorem railsDown_events (s : State) (reason : Nat) : (railsDown s reason).power.events = s.power.events := by
  rw [railsDown_power]

/-- Host memory outlives the rails. -/
theorem railsDown_host (s : State) (reason : Nat) : (railsDown s reason).mem.host = s.mem.host := by
  unfold railsDown
  split
  · rfl
  · exact slipAll_host s reason

/-- What the fall of rails that were up shows: SLIP on every UP link, no line, PWR_GOOD low. -/
theorem railsDown_falls {s : State} (h : s.power.rails = true) (reason : Nat) :
    SlipsSent s (railsDown s reason) reason ∧ (railsDown s reason).lines = [] ∧ (railsDown s reason).pins.pwrGood = false := by
  rw [railsDown_on h]
  exact ⟨cleared_slipAll_sent s reason, rfl, rfl⟩

/-! ### The rails coming up (R434) -/

/-- The rails are up, PWR_GOOD is released, the module is in reset, and the reports of every fitted stack begin. -/
def Risen (s t : State) : Prop :=
  t.power.rails = true ∧ t.power.perstActed = true ∧ t.pins.pwrGood = true ∧
    (∀ k : Nat, k < 4 + mantleCount s.fuses.variant → (stackGet t k).lastReport = s.clk)

/-- Setting one value at each key of a list leaves it there, and leaves every other key. -/
theorem mapGet_foldl_mapSet {V : Type} [DecidableEq V] (d v : V) (ks : List Nat) (m : SMap V) (k : Nat) :
    mapGet d (ks.foldl (fun m k => mapSet d m k v) m) k = if k ∈ ks then v else mapGet d m k := by
  induction ks generalizing m with
  | nil => simp
  | cons i ks ih =>
    rw [List.foldl_cons, ih]
    by_cases hk : k ∈ ks
    · rw [if_pos hk, if_pos (List.mem_cons_of_mem i hk)]
    · rw [if_neg hk]
      by_cases hi : k = i
      · rw [hi, mapGet_mapSet_self, if_pos List.mem_cons_self]
      · rw [mapGet_mapSet_ne d m i k v hi, if_neg (by simp [hi, hk])]

/-- Nothing keeps the rails down. -/
theorem railsUp_risen {s : State} (hr : s.power.rails = false) (hst : s.power.standby = true) (ht : s.power.trip = false)
    (hf : s.power.faulted = false) (hp : s.pins.pwrEn = true) : Risen s (railsUp s) := by
  unfold railsUp
  rw [if_neg (by simp [hr, hst, ht, hf, hp])]
  refine ⟨rfl, rfl, rfl, fun k hk => ?_⟩
  have hm : k ∈ fittedStacks s.fuses.variant := List.mem_range.2 hk
  have hget := mapGet_foldl_mapSet StackSt.reset { StackSt.reset with lastReport := s.clk, lastChange := s.clk }
    (fittedStacks s.fuses.variant) [] k
  rw [if_pos hm] at hget
  exact congrArg StackSt.lastReport hget

/-- The rails coming up leaves PWR_EN. -/
theorem railsUp_pwrEn (s : State) : (railsUp s).pins.pwrEn = s.pins.pwrEn := by
  unfold railsUp
  split <;> rfl

theorem railsUp_faulted (s : State) : (railsUp s).power.faulted = s.power.faulted := by
  unfold railsUp
  split <;> rfl

theorem railsUp_vinMv (s : State) : (railsUp s).pins.vinMv = s.pins.vinMv := by
  unfold railsUp
  split <;> rfl

/-- A trip, an input fault or PWR_EN low keeps the rails as they are. -/
theorem railsUp_held {s : State} (h : s.pins.pwrEn = false ∨ s.power.trip = true ∨ s.power.faulted = true) : railsUp s = s := by
  unfold railsUp
  rw [if_pos]
  rcases h with h | h | h <;> simp [h]

/-- PWR_EN has been low for 1 s, if it fell at all. -/
def LowForSecond (s : State) : Prop := ∀ a : Nat, s.power.pwrEnLowAt = some a → a + 1000000000 ≤ s.clk

/-- A level that began at least `ns` ago, if it began at all. -/
theorem lowFor_of_since {s : State} {since : Option Nat} {ns : Nat} (h : ∀ a : Nat, since = some a → a + ns ≤ s.clk) :
    lowFor s since ns = true := by
  unfold lowFor
  cases since with
  | none => rfl
  | some a => exact decide_eq_true (h a rfl)

/-- The end of an input fault noted, with the input's voltage. -/
def inputBack (s : State) (mv : Nat) : State :=
  { s with power := { s.power with faulted := false }, pins := { s.pins with vinMv := mv } }

/-! ### The events -/

theorem standbyPowerUp_answers {s : State} {mv : Nat} (hst : s.power.standby = false) (hlo : 36000 ≤ mv) (hhi : mv ≤ 64000) :
    Answers (.standbyPowerUp mv) s (fun t =>
      t.power = { s.power with standby := true } ∧ t.pins = { s.pins with vinMv := mv } ∧ OnlyIn [.pins, .power] s t) := by
  have hrun : execStandbyPowerUp mv s =
      .next { s with power := { s.power with standby := true }, pins := { s.pins with vinMv := mv } } := by
    simp [execStandbyPowerUp, hst, hlo, hhi]
  exact ⟨_, hrun, rfl, rfl, (execStandbyPowerUp_keeps mv s _ hrun).only⟩

theorem standbyPowerLoss_answers {s : State} {mv : Nat} (hst : s.power.standby = true) (hmv : mv < 36000 ∨ 64000 < mv) :
    Answers (.standbyPowerLoss mv) s (fun t =>
      t.power.standby = false ∧ t.power.trip = false ∧ t.power.tripSource = none ∧ t.power.events = [] ∧ t.power.rails = false ∧
      t.pins.thermTripN = true ∧ t.pins.alertN = true ∧ t.pins.vinMv = mv ∧ t.flash = s.flash ∧ t.fuses = s.fuses ∧
      (s.power.rails = true → SlipsSent s t 2 ∧ t.lines = [] ∧ t.pins.pwrGood = false)) := by
  have hrun : execStandbyPowerLoss mv s = .next { standbyLost s with pins := { (standbyLost s).pins with vinMv := mv } } := by
    simp [execStandbyPowerLoss, hst, hmv]
  exact ⟨_, hrun, rfl, rfl, rfl, rfl, railsDown_rails .., rfl, rfl, rfl, railsDown_flash ..,
    railsDown_fuses .., fun hr => railsDown_falls hr slipShutdown⟩

/-- PWR_EN noted as high. -/
def pwrEnHigh (s : State) : State := { s with pins := { s.pins with pwrEn := true }, power := { s.power with pwrEnLowAt := none } }

/-- PWR_EN rises after at least 1 s low (R434). -/
theorem execPowerUp_rise {s : State} (hst : s.power.standby = true) (hp : s.pins.pwrEn = false) (hlow : LowForSecond s) :
    execPowerUp s = .next (railsUp (pwrEnHigh s)) := by
  simp [execPowerUp, pwrEnHigh, hst, hp, lowFor_of_since hlow]

theorem powerUp_answers {s : State} (hst : s.power.standby = true) (hp : s.pins.pwrEn = false) (hlow : LowForSecond s)
    (hr : s.power.rails = false) (ht : s.power.trip = false) (hf : s.power.faulted = false) :
    Answers .powerUp s (fun t => Risen s t ∧ t.pins.pwrEn = true ∧ OnlyIn [.pins, .power, .stackSt] s t) := by
  have hrun := execPowerUp_rise hst hp hlow
  exact ⟨_, hrun, railsUp_risen hr hst ht hf rfl, railsUp_pwrEn _, (execPowerUp_keeps s _ hrun).only⟩

/-- With a trip latched or an input fault PWR_EN is noted, and the rails stay down. -/
theorem powerUp_answers_held {s : State} (hst : s.power.standby = true) (hp : s.pins.pwrEn = false) (hlow : LowForSecond s)
    (hb : s.power.trip = true ∨ s.power.faulted = true) : Answers .powerUp s (fun t =>
      t.pins = { s.pins with pwrEn := true } ∧ t.power = { s.power with pwrEnLowAt := none } ∧ OnlyIn [.pins, .power] s t) := by
  have hrun := execPowerUp_rise hst hp hlow
  rw [railsUp_held (s := pwrEnHigh s) (Or.inr hb)] at hrun
  exact ⟨_, hrun, rfl, rfl, (Keeps.upd (Keeps.refl [.pins, .power] s)).only⟩

theorem shutdown_answers {s : State} (hp : s.pins.pwrEn = true) : Answers .shutdown s (fun t =>
    t.pins.pwrEn = false ∧ t.power.pwrEnLowAt = some s.clk ∧ t.power.rails = false ∧ t.power.trip = s.power.trip ∧
    t.power.standby = s.power.standby ∧ t.flash = s.flash ∧ t.fuses = s.fuses ∧
    (s.power.rails = true → SlipsSent s t 2 ∧ t.pins.pwrGood = false ∧ t.lines = [] ∧ t.mem.host = s.mem.host)) := by
  have hrun : execShutdown s = .next { railsDown s slipShutdown with
      pins := { (railsDown s slipShutdown).pins with pwrEn := false }
      power := { (railsDown s slipShutdown).power with pwrEnLowAt := some s.clk } } := by
    simp [execShutdown, hp]
  refine ⟨_, hrun, rfl, rfl, railsDown_rails .., railsDown_trip .., railsDown_standby ..,
    railsDown_flash .., railsDown_fuses .., fun hr => ?_⟩
  obtain ⟨hslip, hlines, hgood⟩ := railsDown_falls hr slipShutdown
  exact ⟨hslip, hgood, hlines, railsDown_host ..⟩

/-- An input fault that leaves the standby domain in range (R433). -/
theorem inputFault_answers {s : State} {mv : Nat} (hst : s.power.standby = true)
    (hmv : mv < 38000 ∧ 36000 ≤ mv ∨ 62000 < mv ∧ mv ≤ 64000) : Answers (.inputFault mv) s (fun t =>
      t.power.faulted = true ∧ t.power.rails = false ∧ t.power.standby = true ∧ t.power.trip = s.power.trip ∧
      t.power.events = s.power.events ∧ t.pins.vinMv = mv ∧
      (s.power.rails = true → SlipsSent s t 2 ∧ t.pins.pwrGood = false)) := by
  have hout : mv < 38000 ∨ 62000 < mv := by omega
  have hin : ¬ (mv < 36000 ∨ 64000 < mv) := by omega
  have hrun : execInputFault mv s = .next { railsDown s slipShutdown with
      power := { (railsDown s slipShutdown).power with faulted := true }
      pins := { (railsDown s slipShutdown).pins with vinMv := mv } } := by
    simp [execInputFault, hst, hout, hin]
  refine ⟨_, hrun, rfl, railsDown_rails .., (railsDown_standby ..).trans hst, railsDown_trip ..,
    railsDown_events .., rfl, fun hr => ?_⟩
  obtain ⟨hslip, -, hgood⟩ := railsDown_falls hr slipShutdown
  exact ⟨hslip, hgood⟩

theorem inputRecovery_answers {s : State} {mv : Nat} (hst : s.power.standby = true) (hlo : 40000 ≤ mv) (hhi : mv ≤ 60000) :
    Answers (.inputRecovery mv) s (fun t =>
      t.power.faulted = false ∧ t.pins.vinMv = mv ∧
      (s.pins.pwrEn = true → s.power.rails = false → s.power.trip = false → Risen s t) ∧
      ((s.pins.pwrEn = false ∨ s.power.trip = true) → t.power.rails = s.power.rails) ∧
      OnlyIn [.pins, .power, .stackSt] s t) := by
  have hrun : execInputRecovery mv s = .next (railsUp (inputBack s mv)) := by
    simp [execInputRecovery, inputBack, hst, hlo, hhi]
  refine ⟨_, hrun, railsUp_faulted _, railsUp_vinMv _, fun hp hr ht => railsUp_risen hr hst ht rfl hp, fun hb => ?_,
    (execInputRecovery_keeps mv s _ hrun).only⟩
  rw [railsUp_held (s := inputBack s mv) (hb.imp_right Or.inl)]
  rfl

theorem perstNAssert_answers {s : State} (hp : s.pins.perstN = true) : Answers .perstNAssert s (fun t =>
    t.pins = { s.pins with perstN := false } ∧ t.power = { s.power with perstLowAt := some s.clk } ∧
    OnlyIn [.pins, .power] s t) := by
  have hrun : execPerstNAssert s =
      .next { s with pins := { s.pins with perstN := false }, power := { s.power with perstLowAt := some s.clk } } := by
    simp [execPerstNAssert, hp]
  exact ⟨_, hrun, rfl, rfl, (execPerstNAssert_keeps s _ hrun).only⟩

/-- PERST_N low for 100 µs (R435): what it clears is as after reset, what it keeps is as before. -/
theorem warmReset_answers {s : State} {a : Nat} (hr : s.power.rails = true) (hact : s.power.perstActed = false)
    (hp : s.pins.perstN = false) (ha : s.power.perstLowAt = some a) (hlow : a + 100000 ≤ s.clk) :
    Answers .warmReset s (fun t =>
      SlipsSent s t 1 ∧ t.power = { s.power with perstActed := true } ∧ t.pins = s.pins ∧ t.lines = [] ∧ t.hitches = [] ∧
      t.tiers = Tiers.reset ∧ t.cfg = Config.reset ∧ t.belay = Belay.reset ∧ t.mem.host = s.mem.host ∧ t.tb = s.tb ∧
      t.boot.forceSafe = s.boot.forceSafe ∧ t.boot.phase = 0 ∧ t.gov = s.gov ∧ t.flash = s.flash ∧ t.fuses = s.fuses ∧
      (∀ k : Nat, k < 24 → (linkGet t k).state = .down)) := by
  have hrun : execWarmReset s = .next { warmed (slipAll s slipReset) with
      power := { (warmed (slipAll s slipReset)).power with perstActed := true } } := by
    have hsince : s.power.perstLowAt.any (fun t => t + 100000 ≤ s.clk) = true := by
      rw [ha, Option.any_some]
      exact decide_eq_true hlow
    simp only [execWarmReset, hr, hact, hp, hsince, Bool.not_false, Bool.and_self, if_true]
  have hslip := cleared_slipAll_sent s slipReset
  have hkeep := slipAll_keeps s slipReset
  generalize slipAll s slipReset = u at hrun hslip hkeep
  have hpow : u.power = s.power := hkeep.same .power rfl
  have hmem : u.mem = s.mem := hkeep.same .mem rfl
  have hboot : u.boot = s.boot := hkeep.same .boot rfl
  exact ⟨_, hrun, hslip, congrArg (fun p : Power => { p with perstActed := true }) hpow, hkeep.same .pins rfl, rfl, rfl, rfl, rfl, rfl,
    congrArg (·.host) hmem, hkeep.same .tb rfl, congrArg (·.forceSafe) hboot, rfl, hkeep.same .gov rfl, hkeep.same .flash rfl,
    hkeep.same .fuses rfl, fun k _ => cleared_link_down u k⟩

theorem thermalTrip_answers {s : State} {source : TripSource} (hst : s.power.standby = true) (ht : s.power.trip = false)
    (hfit : sourceFitted s.fuses.variant source = true) : Answers (.thermalTrip source) s (fun t =>
      t.power.trip = true ∧ t.power.tripSource = some source ∧ t.power.events = s.power.events ++ [PldmEvent.mk source] ∧
      t.power.rails = false ∧ t.power.standby = true ∧ t.pins.thermTripN = false ∧ t.pins.alertN = false ∧
      (s.power.rails = true → SlipsSent s t 3 ∧ t.pins.pwrGood = false ∧ t.lines = [])) := by
  have htrip : trip s source = { railsDown s slipTrip with
      power := { (railsDown s slipTrip).power with
        trip := true, tripSource := some source, events := (railsDown s slipTrip).power.events ++ [{ source := source }] }
      pins := { (railsDown s slipTrip).pins with thermTripN := false, alertN := false } } := by
    simp [trip, hst, ht, hfit]
  have hrun : execThermalTrip source s = .next _ := congrArg Host.Outcome.next htrip
  refine ⟨_, hrun, rfl, rfl, congrArg (· ++ [PldmEvent.mk source]) (railsDown_events ..), railsDown_rails ..,
    (railsDown_standby ..).trans hst, rfl, rfl, fun hr => ?_⟩
  obtain ⟨hslip, hlines, hgood⟩ := railsDown_falls hr slipTrip
  exact ⟨hslip, hgood, hlines⟩

theorem tripRelease_answers {s : State} (ht : s.power.trip = true) (hp : s.pins.pwrEn = false) (hlow : LowForSecond s) :
    Answers (.tripRelease true) s (fun t =>
      t.power = { s.power with trip := false } ∧ t.pins = { s.pins with thermTripN := true } ∧ OnlyIn [.pins, .power] s t) := by
  have hrun : execTripRelease true s =
      .next { s with power := { s.power with trip := false }, pins := { s.pins with thermTripN := true } } := by
    simp [execTripRelease, ht, hp, lowFor_of_since hlow]
  exact ⟨_, hrun, rfl, rfl, (execTripRelease_keeps true s _ hrun).only⟩

theorem pldmEventRead_answers {s : State} {e : PldmEvent} {rest : List PldmEvent} (he : s.power.events = e :: rest) :
    Answers .pldmEventRead s (fun t =>
      t.power = { s.power with events := rest } ∧ t.pins = { s.pins with alertN := rest.isEmpty } ∧ OnlyIn [.pins, .power] s t) := by
  have hrun : execPldmEventRead s =
      .next { s with power := { s.power with events := rest }, pins := { s.pins with alertN := rest.isEmpty } } := by
    simp [execPldmEventRead, he]
  exact ⟨_, hrun, rfl, rfl, (execPldmEventRead_keeps s _ hrun).only⟩

theorem mctpMessage_answers {s : State} (hst : s.power.standby = true) (body : List Byte) : Answers (.mctpMessage body) s (fun t =>
    t.power = { s.power with mctp := s.power.mctp ++ [body] } ∧ OnlyIn [.power] s t) := by
  have hrun : execMctpMessage body s = .next { s with power := { s.power with mctp := s.power.mctp ++ [body] } } := by
    simp [execMctpMessage, hst]
  exact ⟨_, hrun, rfl, (execMctpMessage_keeps body s _ hrun).only⟩

/-- Settles O59, event by event: the SLIP series stands on the wires that outlive the reset. -/
theorem powerAndResets : Obligations.PowerAndResets := by
  intro s slips longLow risen
  refine ⟨fun _ hst hlo hhi => standbyPowerUp_answers hst hlo hhi, fun _ hst hmv => standbyPowerLoss_answers hst hmv,
    fun hst hp hlow hr => ⟨fun ht hf => powerUp_answers hst hp hlow hr ht hf, fun hb => powerUp_answers_held hst hp hlow hb⟩,
    fun hp => shutdown_answers hp,
    fun _ hst => ⟨fun hmv => inputFault_answers hst hmv, fun hlo hhi => inputRecovery_answers hst hlo hhi⟩,
    fun hp => perstNAssert_answers hp, fun _ hr hact hp ha hlow => warmReset_answers hr hact hp ha hlow,
    fun _ hst ht hfit => thermalTrip_answers hst ht hfit, fun ht hp hlow => tripRelease_answers ht hp hlow,
    fun _ _ he => pldmEventRead_answers he, fun body hst => mctpMessage_answers hst body⟩

end Sys2Proof.Machine
end

section
/-! SUPPORT. The fuses along a step: only SVN_FLOOR is ever written (R380), so CFG_CAP, which the part's fuses give, never changes
(O5, R21). -/

set_option Elab.async false

namespace Sys2Proof.Machine

open Sys2Proof

/-! ### The fuses of two states that differ in SVN_FLOOR at most -/

/-- The fuses of `t` are those of `s`, SVN_FLOOR excepted. -/
def OnlySvnFloor (s t : State) : Prop := ∃ floor : BitVec 6, t.fuses = { s.fuses with svnFloor := floor }

theorem OnlySvnFloor.of_fuses {s t : State} (h : t.fuses = s.fuses) : OnlySvnFloor s t := ⟨s.fuses.svnFloor, h⟩

theorem OnlySvnFloor.trans {s t u : State} (h1 : OnlySvnFloor s t) (h2 : OnlySvnFloor t u) : OnlySvnFloor s u := by
  obtain ⟨x, hx⟩ := h1
  obtain ⟨y, hy⟩ := h2
  exact ⟨y, by rw [hy, hx]⟩

theorem OnlySvnFloor.variant {s t : State} (h : OnlySvnFloor s t) : t.fuses.variant = s.fuses.variant := by
  obtain ⟨_, h⟩ := h
  rw [h]

theorem OnlySvnFloor.after {s : State} {o : Out} (h : ∀ t : State, o = .next t → OnlySvnFloor s t) : OnlySvnFloor s (after o s) := by
  unfold Machine.after
  split
  · exact h _ rfl
  · exact .of_fuses rfl

/-- An operation that has no fuse among its parts leaves the fuses, whatever becomes of its outcome. -/
theorem KeepsOut.after_fuses {ps : List Part} {s : State} {o : Out} (h : KeepsOut ps s o) (hp : ps.contains .fuses = false) :
    (after o s).fuses = s.fuses :=
  ((Keeps.refl ps s).outThen h).same .fuses hp

/-! ### SVN COMMIT and the host's register writes -/

/-- SVN COMMIT writes SVN_FLOOR, or waits, or does nothing (R380, R299). -/
theorem execSvnCommit_onlySvnFloor {val : W32} {s t : State} (h : execSvnCommit val s = .next t) : OnlySvnFloor s t := by
  rcases hostLane_eq (.svnCommit val) (svnCommitNow val) s with hq | hr
  · rw [execSvnCommit, hq] at h
    injection h with h
    exact .of_fuses (h ▸ rfl)
  · rw [execSvnCommit, hr] at h
    unfold svnCommitNow at h
    split at h <;> injection h with h <;> subst h
    · exact ⟨_, rfl⟩
    · exact .of_fuses rfl

/-- A register that the host writes leaves the fuses, BOOT_SEC excepted, whose write is a SVN COMMIT. -/
theorem wrRegs_put_fuses : ∀ r ∈ wrRegs, ∀ (i : Nat) (v : W32) (s : State),
    (r.put i v s).fuses = s.fuses ∨ r.put i v s = after (execSvnCommit v s) s := by
  -- What is left are the registers whose effect is a function of its own, or depends on the value written.
  simp only [wrRegs, List.forall_mem_cons, or_true, true_or, implies_true, true_and]
  refine ⟨?_, ?_, ?_, ?_, ?_, ?_, ?_, ?_, ?_, ?_, ?_, ?_, ?_, ?_, ?_, ?_, fun r hr => absurd hr List.not_mem_nil⟩ <;>
    intro i v s <;> left
  · split <;> rfl
  · split <;> rfl
  · exact (execIrqCauseClear_keeps v s).after_fuses rfl
  · exact (execIrqEnableWrite_keeps v s).after_fuses rfl
  · exact (lineCmd_keeps v s).same .fuses rfl
  · exact (execWfcRelease_keeps v s).after_fuses rfl
  · split <;> rfl
  · exact (chafeStatWrite_keeps i v s).same .fuses rfl
  · exact (htNameHalf_keeps i v s).same .fuses rfl
  · exact (sensorErrWrite_keeps i v s).same .fuses rfl
  · exact (sensorErrWrite_keeps (4 + i) v s).same .fuses rfl
  · split <;> rfl
  · exact (execPeerClear_keeps _ v s).after_fuses rfl
  · exact (msixWrite_keeps i v s).same .fuses rfl
  · exact (ovfWrite_keeps i v s).same .fuses rfl
  · split
    · exact (execNipRequest_keeps _ s).after_fuses rfl
    · rfl

theorem writeWord_onlySvnFloor (s : State) (off : Nat) (v : W32) : OnlySvnFloor s (writeWord s off v) := by
  unfold writeWord
  split
  · rename_i r hr
    rcases wrRegs_put_fuses r (List.mem_of_find?_eq_some hr) ((off - r.base) / r.stride) v s with hf | hc
    · exact .of_fuses hf
    · exact hc ▸ .after (fun _ => execSvnCommit_onlySvnFloor)
  · exact .of_fuses rfl

theorem plainWrite_onlySvnFloor (s : State) (off size : Nat) (val : W64) : OnlySvnFloor s (plainWrite s off size val) := by
  unfold plainWrite
  split
  · exact .of_fuses ((woWrite_keeps ..).same .fuses rfl)
  · dsimp only
    split
    · exact (writeWord_onlySvnFloor ..).trans (writeWord_onlySvnFloor ..)
    · exact writeWord_onlySvnFloor ..

/-- A host register write reaches no fuse but SVN_FLOOR, whether it acts or waits (R2, R299). -/
theorem execRegisterWrite_onlySvnFloor {off : BitVec 26} {size : Nat} {val : W64} {s t : State}
    (h : execRegisterWrite off size val s = .next t) : OnlySvnFloor s t := by
  rcases hostLane_eq (.registerWrite off size val) (registerWriteNow off size val) s with hq | hr
  · rw [execRegisterWrite, hq] at h
    injection h with h
    exact .of_fuses (h ▸ rfl)
  · rw [execRegisterWrite, hr] at h
    unfold registerWriteNow at h
    dsimp only at h
    split at h
    · injection h with h
      exact .of_fuses (h ▸ (unreached_keeps s).same .fuses rfl)
    split at h
    · exact .of_fuses ((execBadMmioAccess_keeps _ _ _ _ _ t h).same .fuses rfl)
    split at h
    · exact .of_fuses ((execActViewWrite_keeps _ _ _ _ t h).same .fuses rfl)
    · injection h with h
      have hstage := (execCoilStageWrite_keeps off size val s).after_fuses rfl
      exact h ▸ (OnlySvnFloor.of_fuses hstage).trans (plainWrite_onlySvnFloor ..)

/-! ### Every command and every step -/

/-- The commands that may write a fuse. -/
def writesSvnFloor : Instr → Bool
  | .registerWrite _ _ _ | .svnCommit _ => true
  | _ => false

/-- No other command has the fuses among its parts: resets, PERST_N, FLR and belays leave them. -/
theorem writesFuses_cases (c : Instr) : (!(partsOf c).contains .fuses || writesSvnFloor c) = true := by
  cases c <;> rfl

/-- No command writes a fuse other than SVN_FLOOR (R380). -/
theorem exec_onlySvnFloor {c : Instr} {s t : State} (h : exec c s = .next t) : OnlySvnFloor s t := by
  have hcases := writesFuses_cases c
  rw [Bool.or_eq_true, Bool.not_eq_true'] at hcases
  rcases hcases with hp | hw
  · exact .of_fuses (exec_same c s t h .fuses hp)
  · unfold writesSvnFloor at hw
    split at hw
    · exact execRegisterWrite_onlySvnFloor h
    · exact execSvnCommit_onlySvnFloor h
    · cases hw

/-- A waiting request that is served does what its command does (R299). -/
theorem serveOne_onlySvnFloor {s t : State} {r : HeldReq} (h : serveOne s r = some (.next t)) : OnlySvnFloor s t := by
  unfold serveOne at h
  split at h
  · rename_i u hu
    obtain ⟨floor, hfloor⟩ := exec_onlySvnFloor hu
    split at h
    · injection h with h
      injection h with h
      subst h
      exact ⟨floor, hfloor⟩
    · cases h
  · injection h with h
    obtain ⟨floor, hfloor⟩ := exec_onlySvnFloor h
    exact ⟨floor, hfloor⟩

theorem serveHeld_onlySvnFloor {s t : State} (h : serveHeld s = .next t) : OnlySvnFloor s t := by
  unfold serveHeld at h
  cases hf : (s.ingress.queue.filter (mayServe s)).findSome? (serveOne s) with
  | none =>
    rw [hf] at h
    injection h with h
    exact .of_fuses (h ▸ rfl)
  | some o =>
    rw [hf] at h
    obtain ⟨r, -, hr⟩ := List.exists_of_findSome?_eq_some hf
    exact serveOne_onlySvnFloor (hr.trans (congrArg some h))

/-- The units' work of an idle step, before a waiting request is served, leaves the fuses. -/
theorem idle_units_fuses (s : State) : (answerOwed (settleTransit (stampReady (tick s)))).fuses = s.fuses := by
  rw [(answerOwed_keeps _).same .fuses rfl, (settleTransit_keeps _).same .fuses rfl]
  exact ((stampReady_keeps _).same .fuses rfl).trans ((tick_keeps s).same .fuses rfl)

/-- No step writes a fuse other than SVN_FLOOR: a command, or the nanosecond in which a waiting request may be served. -/
theorem step_onlySvnFloor {s t : State} (h : step s = .next t) : OnlySvnFloor s t := by
  unfold step at h
  split at h
  · exact (OnlySvnFloor.of_fuses (idle_units_fuses s)).trans (serveHeld_onlySvnFloor h)
  · obtain ⟨floor, hfloor⟩ := exec_onlySvnFloor h
    exact ⟨floor, hfloor⟩

/-! ### CFG_CAP -/

/-- The offset of CFG_CAP. -/
def capOff : Nat := 0x10

theorem cwMask_cap : cwMask capOff = 0 := by decide +kernel

theorem cwWord_cap (s : State) (m : SMap W32) : cwWord s m capOff = 0 := by
  unfold cwWord
  split
  · rfl
  · rw [cwMask_cap]
    exact BitVec.and_zero

theorem plainWord_cap (s : State) : plainWord s capOff = capWord s.fuses.variant :=
  BitVec.ofNat_toNat ..

/-- CFG_CAP holds no CW field: it reads the word of the part that the fuses name (R20). -/
theorem regWord_cap (s : State) : regWord s 0x10 = capWord s.fuses.variant := by
  change cwWord s s.cfg.coil capOff ||| plainWord s capOff = _
  rw [cwWord_cap, plainWord_cap]
  exact BitVec.zero_or

/-- No part has row logic without splicers (R21). -/
theorem capWord_spl_of_rowl (v : Variant) (h : (capWord v).getLsbD 0 = true) : (capWord v).getLsbD 1 = true := by
  cases v with
  | f => rfl
  | e => exact absurd h (by decide)
  | c => rfl

/-- Settles O5: CFG_CAP reads the part's word, and no step writes the fuse that names the part. -/
theorem capabilityWordNeverChanges : Obligations.CapabilityWordNeverChanges := by
  refine ⟨fun s h => ?_, fun s t h => ?_⟩
  · rw [regWord_cap] at h ⊢
    exact capWord_spl_of_rowl _ h
  · rw [regWord_cap, regWord_cap, (step_onlySvnFloor h).variant]

end Sys2Proof.Machine
end

section
/-! SUPPORT. The causes raised by an event, and the governor's sample (O54, R30 to R36). -/

set_option Elab.async false

namespace Sys2Proof.Machine

open Sys2Proof

/-! ### The cause that an event raises (R423) -/

theorem sendVec_regs (s : State) (v : Nat) : (sendVec s v).regs = s.regs := (sendVec_keeps s v).same .regs rfl

theorem setIrq_cause (s : State) (cause en : W32) (force : Bool) : (setIrq s cause en force).regs.irqCause = cause := by
  unfold setIrq
  dsimp only
  split
  · rw [sendVec_regs]
  · rfl

/-- An event leaves its cause bit set. -/
theorem raiseCause_cause (s : State) {b : Nat} (hb : b < 32) : (raiseCause s b).regs.irqCause.getLsbD b = true := by
  unfold raiseCause
  rw [setIrq_cause, BitVec.getLsbD_or, BitVec.getLsbD_ofNat, Nat.testBit_two_pow_self, Bool.and_true, decide_eq_true hb, Bool.or_true]

/-! ### The strands of a sample (R30, R32) -/

/-- Changing the entries of distinct keys, each by its own function, changes each listed entry once. -/
theorem mapGet_foldl_mapMod {V : Type} [DecidableEq V] (d : V) (g : Nat → V → V) {ks : List Nat} (hks : ks.Nodup) (m : SMap V) (k : Nat) :
    mapGet d (ks.foldl (fun m k => mapMod d m k (g k)) m) k = if k ∈ ks then g k (mapGet d m k) else mapGet d m k := by
  induction ks generalizing m with
  | nil => simp
  | cons i ks ih =>
    obtain ⟨hi, hks⟩ := List.nodup_cons.1 hks
    rw [List.foldl_cons, ih hks]
    by_cases hk : k = i
    · subst hk
      rw [if_neg hi, if_pos List.mem_cons_self, mapMod, mapGet_mapSet_self]
    · rw [mapMod, mapGet_mapSet_ne d m i k _ hk]
      simp [hk]

/-- The measured rate is at or above the floor of its corner, within the field's width (R30, R32). -/
theorem measuredRate_bounds (k mv tj : Nat) : min 4095 (waveFloor mv tj) ≤ measuredRate k mv tj ∧ measuredRate k mv tj ≤ 4095 := by
  unfold measuredRate
  omega

/-- The junction temperature of a strand after a sample: that of the sample, where it has one. -/
def sampledTj (s : State) (tj : List (BitVec 7)) (k : Nat) : Nat :=
  match tj[k]? with
  | some x => x.toNat
  | none => (strandGet s k).tj

theorem sampledTj_eq (s : State) (tj : List (BitVec 7)) (k : Nat) :
    sampledTj s tj k = ((tj[k]?).map BitVec.toNat).getD (strandGet s k).tj := by
  unfold sampledTj
  split <;> rename_i h <;> rw [h] <;> rfl

/-! ### What a sample computes (R34, R35) -/

/-- The window of input-power samples after a sample. -/
def powerWindow (s : State) (watts : BitVec 12) : List Nat := (watts.toNat :: s.gov.samples).take 1000

/-- A junction is above TJ_LIMIT. -/
def tjOver (s : State) (tj : List (BitVec 7)) : Bool := tj.any (fun x => actF s flTjLimit 0 < x.toNat)

/-- The mean or the sample exceeds LIMIT_W. -/
def powerExcess (s : State) (watts : BitVec 12) : Bool :=
  actF s flLimitW 0 * (powerWindow s watts).length < total (powerWindow s watts) || actF s flLimitW 0 < watts.toNat

/-- The mean is below 97% of LIMIT_W. -/
@[reducible] def PowerLow (s : State) (watts : BitVec 12) : Prop :=
  100 * total (powerWindow s watts) < 97 * actF s flLimitW 0 * (powerWindow s watts).length

/-- Since when the mean has been below 97% of LIMIT_W. -/
def lowSince (s : State) (watts : BitVec 12) : Option Nat := if PowerLow s watts then some (s.gov.below97At.getD s.clk) else none

/-- The rail that the rules ask for, before its limits. -/
def railAsked (s : State) (watts : BitVec 12) (tj : List (BitVec 7)) : Nat :=
  if tjOver s tj || powerExcess s watts then s.gov.vcore - railStep s
  else if (lowSince s watts).any (fun t => t + 50000 ≤ s.clk) then s.gov.vcore + railStep s else s.gov.vcore

/-- A voltage within the rail's limits. -/
def railClamp (s : State) (v : Nat) : Nat := max 600 (min (vmax s) v)

/-- The governor after a sample, before the rail is held against SLOW_MV. -/
def sampledGov (s : State) (watts : BitVec 12) (tj : List (BitVec 7)) : Governor :=
  { s.gov with
    vcore := railClamp s (railAsked s watts tj), samples := powerWindow s watts
    inputW := total (powerWindow s watts) / (powerWindow s watts).length, below97At := lowSince s watts
    capping := railClamp s (railAsked s watts tj) < vmax s &&
      (powerExcess s watts || (!tjOver s tj && !PowerLow s watts) || s.gov.capping)
    tjHold := tjOver s tj }

/-- The strands after a sample. -/
def sampledStrands (s : State) (tj : List (BitVec 7)) : SMap Strand :=
  (List.range 4).foldl (fun m k => mapMod Strand.reset m k (noteRate k s.gov.vcore (sampledTj s tj k))) s.strands

/-- The state after a sample, before the cause that it may raise. -/
def sampled (s : State) (watts : BitVec 12) (tj : List (BitVec 7)) : State :=
  noteRail { drawn s with gov := sampledGov s watts tj, strands := sampledStrands s tj }

theorem execGovernorSample_eq {s : State} (watts : BitVec 12) (tj : List (BitVec 7)) (hr : s.power.rails = true)
    (hp : s.power.perstActed = false) : execGovernorSample watts tj s =
      .next (if tjOver s tj && !s.gov.tjHold then raiseCause (sampled s watts tj) irqPower else sampled s watts tj) := by
  unfold execGovernorSample
  rw [if_neg (by simp [hr, hp])]
  rfl

/-- What a sample leaves: the governor and the strands that it computes, and the POWER cause where TJ_HOLD rises. -/
theorem execGovernorSample_next {s : State} (watts : BitVec 12) (tj : List (BitVec 7)) (hr : s.power.rails = true)
    (hp : s.power.perstActed = false) : ∃ t : State, execGovernorSample watts tj s = .next t ∧
      t.gov = (sampled s watts tj).gov ∧ t.strands = sampledStrands s tj ∧
      (tjOver s tj = true → s.gov.tjHold = false → t.regs.irqCause.getLsbD 6 = true) := by
  refine ⟨_, execGovernorSample_eq watts tj hr hp, ?_⟩
  split
  · have hkeep := raiseCause_keeps (sampled s watts tj) irqPower
    exact ⟨hkeep.same .gov rfl, hkeep.same .strands rfl, fun _ _ => raiseCause_cause _ (by decide)⟩
  · rename_i hn
    exact ⟨rfl, rfl, fun hhot hold => absurd (by simp [hhot, hold]) hn⟩

/-! ### The rail (R34, R36) -/

theorem powerExcess_iff (s : State) (watts : BitVec 12) : powerExcess s watts = true ↔
    actF s flLimitW 0 * (powerWindow s watts).length < total (powerWindow s watts) ∨ actF s flLimitW 0 < watts.toNat := by
  simp [powerExcess]

theorem railStep_cases (s : State) : railStep s = 5 ∨ railStep s = 10 := by
  unfold railStep
  split
  · exact Or.inr rfl
  · exact Or.inl rfl

theorem railAsked_down {s : State} {watts : BitVec 12} {tj : List (BitVec 7)} (h : tjOver s tj = true ∨ powerExcess s watts = true) :
    railAsked s watts tj = s.gov.vcore - railStep s := by
  unfold railAsked
  rw [if_pos (by simpa using h)]

theorem railAsked_calm {s : State} {watts : BitVec 12} {tj : List (BitVec 7)} (hhot : tjOver s tj = false)
    (hx : ¬ powerExcess s watts = true) : railAsked s watts tj =
      if (lowSince s watts).any (fun t => t + 50000 ≤ s.clk) then s.gov.vcore + railStep s else s.gov.vcore := by
  unfold railAsked
  rw [if_neg (by simp [hhot, hx])]

theorem railAsked_up {s : State} {watts : BitVec 12} {tj : List (BitVec 7)} (hhot : tjOver s tj = false)
    (hx : ¬ powerExcess s watts = true) (hlow : PowerLow s watts) {a : Nat} (ha : s.gov.below97At = some a)
    (hlong : a + 50000 ≤ s.clk) : railAsked s watts tj = s.gov.vcore + railStep s := by
  rw [railAsked_calm hhot hx, lowSince, if_pos hlow, ha, if_pos (by simpa using hlong)]

/-- A mean that is not low, or has been low for less than 50 µs, leaves the rail. -/
theorem railAsked_stays {s : State} {watts : BitVec 12} {tj : List (BitVec 7)} (hhot : tjOver s tj = false)
    (hx : ¬ powerExcess s watts = true)
    (hshort : ¬ PowerLow s watts ∨ ∀ a : Nat, s.gov.below97At = some a → s.clk < a + 50000) :
    railAsked s watts tj = s.gov.vcore := by
  rw [railAsked_calm hhot hx, if_neg]
  unfold lowSince
  split
  · rename_i hlow
    have hshort := hshort.resolve_left (fun hn => hn hlow)
    cases ha : s.gov.below97At with
    | none => simp
    | some a => simpa using hshort a ha
  · simp

theorem railClamp_bounds (s : State) (v : Nat) : 600 ≤ railClamp s v ∧ railClamp s v ≤ max 600 (vmax s) := by
  unfold railClamp
  omega

/-- The instants since which the rail stands below SLOW_MV, or at or above it. -/
theorem sampled_rail (s : State) (watts : BitVec 12) (tj : List (BitVec 7)) :
    ((sampled s watts tj).gov.vcore < actF s flSlowMv 0 →
      (sampled s watts tj).gov.railBelowAt = some (s.gov.railBelowAt.getD s.clk) ∧ (sampled s watts tj).gov.railAboveAt = none) ∧
    (actF s flSlowMv 0 ≤ (sampled s watts tj).gov.vcore →
      (sampled s watts tj).gov.railBelowAt = none ∧
        (sampled s watts tj).gov.railAboveAt = some (s.gov.railAboveAt.getD s.clk)) :=
  ⟨fun h => ⟨if_pos h, if_pos h⟩, fun h => ⟨if_neg (Nat.not_lt.2 h), if_neg (Nat.not_lt.2 h)⟩⟩

/-- Every strand reports the mean of the last 100 rates, the newest of which is at or above its floor (R32). -/
theorem sampledStrands_get (s : State) (tj : List (BitVec 7)) {k : Nat} (hk : k < 4) :
    mapGet Strand.reset (sampledStrands s tj) k = noteRate k s.gov.vcore (sampledTj s tj k) (strandGet s k) := by
  unfold sampledStrands
  rw [mapGet_foldl_mapMod Strand.reset (fun k => noteRate k s.gov.vcore (sampledTj s tj k)) List.nodup_range,
    if_pos (List.mem_range.2 hk)]
  rfl

/-- Settles O54, rule by rule: the sample's frame, the rail's moves, the strands' rates. -/
theorem governorMovesTheRail : Obligations.GovernorMovesTheRail := by
  intro watts tj s hr hp
  obtain ⟨t, hrun, hgov, hstrands, hcause⟩ := execGovernorSample_next watts tj hr hp
  have honly := (execGovernorSample_keeps watts tj s t hrun).only
  have hvcore : t.gov.vcore = railClamp s (railAsked s watts tj) := by rw [hgov]; rfl
  have hbounds := railClamp_bounds s (railAsked s watts tj)
  rw [← hvcore] at hbounds
  obtain ⟨hbelow, habove⟩ := sampled_rail s watts tj
  rw [← hgov] at hbelow habove
  have hexcess := powerExcess_iff s watts
  refine ⟨t, hrun, by rw [hgov]; rfl, by rw [hgov]; rfl, by rw [hgov]; rfl, fun h => ?_, fun hhot hx hlow hlong => ?_,
    fun hhot hx hshort => ?_, hbounds.1, hbounds.2, fun hlow => ?_, fun hlow => ?_, hbelow, habove, fun k hk => ?_, hcause,
    by rw [hgov]; rfl, by rw [hgov]; rfl, honly⟩
  · exact ⟨railStep s, railStep_cases s, hvcore.trans (congrArg (railClamp s) (railAsked_down (h.imp_right hexcess.2)))⟩
  · obtain ⟨a, ha, hlong⟩ := hlong
    exact ⟨railStep s, railStep_cases s,
      hvcore.trans (congrArg (railClamp s) (railAsked_up hhot (fun h => hx (hexcess.1 h)) hlow ha hlong))⟩
  · exact hvcore.trans (congrArg (railClamp s) (railAsked_stays hhot (fun h => hx (hexcess.1 h)) hshort))
  · exact (congrArg Governor.below97At hgov).trans (if_pos hlow)
  · exact (congrArg Governor.below97At hgov).trans (if_neg hlow)
  · obtain ⟨hfloor, htop⟩ := measuredRate_bounds k s.gov.vcore (sampledTj s tj k)
    rw [sampledTj_eq] at hfloor htop
    refine ⟨_, hfloor, htop, ?_⟩
    change strandGet t k = _
    rw [strandGet, hstrands, sampledStrands_get s tj hk, sampledTj_eq]
    rfl

end Sys2Proof.Machine
end

section
/-! SUPPORT. The stacks' temperatures and SLOW (O53, R36, R200 to R207). -/

set_option Elab.async false

namespace Sys2Proof.Machine

open Sys2Proof

/-- An active field depends on the configuration only. -/
theorem actF_congr {s t : State} (h : t.cfg = s.cfg) (f : Fld) (i : Nat) : actF t f i = actF s f i := by rw [actF, actF, h]

/-! ### SLOW (R36, R206) -/

theorem noteStatus_gov (s t : State) : (noteStatus s t).gov = t.gov := (noteStatus_keeps s t).same .gov rfl

/-- SLOW is raised, and nothing else of the governor changes. -/
theorem slowOn_gov (s : State) : (slowOn s).gov = { s.gov with slow := true } := by
  unfold slowOn
  split
  · rename_i h
    exact congrArg (fun b => { s.gov with slow := b }) h
  · rw [noteStatus_gov]

/-- An instant noted lies at least `ns` back. -/
theorem any_since {o : Option Nat} {a ns clk : Nat} (ho : o = some a) (h : a + ns ≤ clk) : o.any (fun t => t + ns ≤ clk) = true := by
  rw [ho, Option.any_some]
  exact decide_eq_true h

/-- A rail that went below SLOW_MV, and came back, at the instants noted does not hold SLOW: it has been back for `ns`. -/
def RailClear (below above : Option Nat) (ns clk : Nat) : Prop := below = none ∧ ∀ a : Nat, above = some a → a + ns ≤ clk

theorem railClear_iff (below above : Option Nat) (ns clk : Nat) :
    RailClear below above ns clk ↔ (above.all (fun t => t + ns ≤ clk) && below.isNone) = true := by
  unfold RailClear
  rw [Bool.and_eq_true, Option.isNone_iff_eq_none, Option.all_eq_true]
  simp only [decide_eq_true_eq]
  exact and_comm

/-- The rail of a state does not hold SLOW: it stands at or above SLOW_MV, and has for 1 ms. -/
def RailOk (s : State) : Prop := RailClear s.gov.railBelowAt s.gov.railAboveAt 1000000 s.clk

/-- With nothing that holds it, SLOW clears. -/
theorem slowOff_gov_clear {s : State} (hh : s.gov.stackHold = false) (hr : RailOk s) :
    (slowOff s).gov = { s.gov with slow := false } := by
  unfold slowOff
  rcases Bool.eq_false_or_eq_true s.gov.slow with hs | hs
  · have hc : (s.gov.slow && !s.gov.stackHold && s.gov.railAboveAt.all (fun t => t + 1000000 ≤ s.clk) &&
        s.gov.railBelowAt.isNone) = true := by
      rw [Bool.and_assoc, (railClear_iff ..).1 hr, hs, hh]
      rfl
    rw [if_pos hc, noteStatus_gov]
  · rw [if_neg (by simp [hs])]
    exact congrArg (fun b => { s.gov with slow := b }) hs

/-- A rail that has not stayed at or above SLOW_MV for 1 ms holds SLOW. -/
theorem slowOff_held {s : State} (hr : ¬ RailOk s) : slowOff s = s := by
  unfold slowOff
  rw [Bool.and_assoc, Bool.eq_false_iff.2 (fun h => hr ((railClear_iff ..).2 h)), Bool.and_false, if_neg Bool.false_ne_true]

theorem slowRaise_answers {s : State} {since : Nat} (hs : s.gov.slow = false) (hb : s.gov.railBelowAt = some since)
    (hlong : since + 100000 ≤ s.clk) : Answers .slowRaise s (fun t =>
      t.gov = { s.gov with slow := true } ∧ t.regs.irqCause.getLsbD 6 = true ∧ OnlyIn [.regs, .port, .gov, .net, .pmu] s t) := by
  have hrun : execSlowRaise s = .next (raiseCause (slowOn s) irqPower) := by
    unfold execSlowRaise
    rw [if_pos (by rw [hs, any_since hb hlong]; rfl)]
  exact ⟨_, hrun, ((raiseCause_keeps (slowOn s) irqPower).same .gov rfl).trans (slowOn_gov s), raiseCause_cause _ (by decide),
    (execSlowRaise_keeps s _ hrun).only⟩

theorem slowClear_answers {s : State} (hh : s.gov.stackHold = false) (hr : RailOk s) :
    Answers .slowClear s (fun t => t.gov = { s.gov with slow := false } ∧ OnlyIn [.regs, .port, .gov, .net, .pmu] s t) :=
  ⟨_, rfl, slowOff_gov_clear hh hr, (slowOff_keeps s).only⟩

/-- The stacks' hold on SLOW ended. -/
def holdEnded (s : State) : State := { s with gov := { s.gov with stackHold := false, criticalLeftAt := none } }

theorem slowHoldEnd_answers {s : State} {since : Nat} (hh : s.gov.stackHold = true) (hc : ∀ p ∈ s.stackSt, p.2.thermal ≠ .critical)
    (hl : s.gov.criticalLeftAt = some since) (hlong : since + 1000000 ≤ s.clk) : Answers .slowHoldEnd s (fun t =>
      t.gov.stackHold = false ∧ t.gov.criticalLeftAt = none ∧
      (s.gov.railBelowAt = none → (∀ a : Nat, s.gov.railAboveAt = some a → a + 1000000 ≤ s.clk) → t.gov.slow = false) ∧
      ((s.gov.railBelowAt ≠ none ∨ ∃ a : Nat, s.gov.railAboveAt = some a ∧ s.clk < a + 1000000) → t.gov.slow = s.gov.slow) ∧
      OnlyIn [.regs, .port, .gov, .net, .pmu] s t) := by
  have hnone : s.stackSt.any (fun p => p.2.thermal = .critical) = false := by simpa using fun a b h => hc (a, b) h
  have hrun : execSlowHoldEnd s = .next (slowOff (holdEnded s)) := by
    unfold execSlowHoldEnd
    rw [if_pos (by rw [hh, any_since hl hlong, hnone]; rfl)]
    rfl
  have honly := (execSlowHoldEnd_keeps s _ hrun).only
  by_cases hr : RailOk s
  · have hgov : (slowOff (holdEnded s)).gov = { (holdEnded s).gov with slow := false } := slowOff_gov_clear rfl hr
    refine ⟨_, hrun, by rw [hgov]; rfl, by rw [hgov]; rfl, fun _ _ => by rw [hgov], fun hhold => ?_, honly⟩
    rcases hhold with hb | ⟨a, ha, hlt⟩
    · exact absurd hr.1 hb
    · exact absurd (hr.2 a ha) (Nat.not_le.2 hlt)
  · have hsame : slowOff (holdEnded s) = holdEnded s := slowOff_held hr
    rw [hsame] at hrun honly
    exact ⟨_, hrun, rfl, rfl, fun hb ha => absurd ⟨hb, ha⟩ hr, fun _ => rfl, honly⟩

/-! ### The level and the state after a report (R203) -/

theorem levelAfter_hot {s : State} {x : StackSt} {temp : Nat} (h : actF s flTThrottle 0 ≤ temp) :
    levelAfter s x temp = min 3 (x.level + 1) := by
  rw [levelAfter, if_pos h]

theorem levelAfter_cool {s : State} {x : StackSt} {temp : Nat} (h : temp < actF s flTThrottle 0)
    (hy : temp + actF s flTHyst 0 ≤ actF s flTThrottle 0) (hl : 0 < x.level) (hc : x.lastChange + 1000000 ≤ s.clk) :
    levelAfter s x temp = x.level - 1 := by
  rw [levelAfter, if_neg (Nat.not_le.2 h), if_pos (by simp [hy, hl, hc])]

theorem levelAfter_stays {s : State} {x : StackSt} {temp : Nat} (h : temp < actF s flTThrottle 0)
    (hn : actF s flTThrottle 0 < temp + actF s flTHyst 0 ∨ x.level = 0 ∨ s.clk < x.lastChange + 1000000) :
    levelAfter s x temp = x.level := by
  rw [levelAfter, if_neg (Nat.not_le.2 h), if_neg]
  simp only [Bool.and_eq_true, decide_eq_true_eq]
  omega

theorem thermalAfter_critical {s : State} {x : StackSt} {temp level : Nat} (h : actF s flTCrit 0 ≤ temp) :
    thermalAfter s x temp level = .critical := by
  rw [thermalAfter, if_pos h]

theorem thermalAfter_throttle {s : State} {x : StackSt} {temp level : Nat} (h : temp < actF s flTCrit 0)
    (ht : actF s flTThrottle 0 ≤ temp) (hx : x.thermal ≠ .critical) : thermalAfter s x temp level = .throttle := by
  rw [thermalAfter, if_neg (Nat.not_le.2 h)]
  split
  · exact absurd ‹_› hx
  · exact if_pos ht

theorem thermalAfter_normal {s : State} {x : StackSt} {temp level : Nat} (h : temp < actF s flTCrit 0)
    (ht : temp < actF s flTThrottle 0) (hx : x.thermal ≠ .critical) (hl : level = 0) : thermalAfter s x temp level = .normal := by
  rw [thermalAfter, if_neg (Nat.not_le.2 h)]
  split
  · exact absurd ‹_› hx
  · rw [if_neg (Nat.not_le.2 ht), if_pos hl]

/-- The short tREFI of a stack after a report: it begins above 85 °C, ends at or below 83 °C, and stays in between (R200). -/
def hotAfter (x : StackSt) (temp : Nat) : Bool := if 85 < temp then true else if temp ≤ 83 then false else x.hot

/-- A stack's entry after a report. -/
def stackAfter (s : State) (x : StackSt) (temp : Nat) : StackSt :=
  { x with
    level := levelAfter s x temp, thermal := thermalAfter s x temp (levelAfter s x temp)
    lastChange := if levelAfter s x temp = x.level then x.lastChange else s.clk, hot := hotAfter x temp }

/-! ### What a report leaves (R202, R203, R206) -/

/-- A report sets its stack's entry and no other. -/
theorem thermalReport_stackSt (s : State) (st temp : Nat) :
    (thermalReport s st temp).stackSt = (stackSet s st (stackAfter s (stackGet s st) temp)).stackSt := by
  unfold thermalReport
  extract_lets x lv th x1 s1 entered s2
  have h2 : s2.stackSt = s1.stackSt := by
    dsimp only [s2]
    split
    · exact (raiseCause_keeps s1 irqThermal).same .stackSt rfl
    · rfl
  split
  · exact ((slowOn_keeps _).same .stackSt rfl).trans h2
  · split
    · exact h2
    · exact h2

theorem stackGet_thermalReport_self (s : State) (st temp : Nat) :
    stackGet (thermalReport s st temp) st = stackAfter s (stackGet s st) temp := by
  rw [stackGet, thermalReport_stackSt]
  exact stackGet_stackSet_self s st _

theorem stackGet_thermalReport_ne (s : State) (temp : Nat) {st k : Nat} (hk : k ≠ st) :
    stackGet (thermalReport s st temp) k = stackGet s k := by
  rw [stackGet, thermalReport_stackSt]
  exact stackGet_stackSet_ne s st k _ hk

/-- A stack at or above T_CRIT raises SLOW and holds it. -/
theorem thermalReport_slow {s : State} {st temp : Nat} (h : actF s flTCrit 0 ≤ temp) :
    (thermalReport s st temp).gov.slow = true ∧ (thermalReport s st temp).gov.stackHold = true := by
  unfold thermalReport
  dsimp only
  rw [thermalAfter_critical h, if_pos rfl, slowOn_gov]
  exact ⟨rfl, rfl⟩

/-- A report noted, with its instant. -/
def reportNoted (s : State) (st temp : Nat) : State := stackSet s st { stackGet s st with temp := temp, lastReport := s.clk }

theorem execStackTempReport_eq {stack : Stack} (temp : BitVec 8) {s : State} (h : stackReports s (stackNo stack) = true) :
    execStackTempReport stack temp s = .next (if 115 ≤ temp.toNat
      then trip (thermalReport (reportNoted s (stackNo stack) temp.toNat) (stackNo stack) temp.toNat) (.stack stack)
      else thermalReport (reportNoted s (stackNo stack) temp.toNat) (stackNo stack) temp.toNat) := by
  unfold execStackTempReport
  dsimp only
  rw [if_neg (by simp [h])]
  rfl

theorem reported_keeps (s : State) (st temp : Nat) :
    Keeps [.regs, .port, .stackSt, .gov, .net, .pmu] s (thermalReport (reportNoted s st temp) st temp) :=
  ((Keeps.refl _ s).step (stackSet_keeps ..) rfl).step (thermalReport_keeps ..) rfl

/-- The entry of a stack after its report: the temperature and the instant, and what R203 makes of them. -/
theorem stackGet_reported_self (s : State) (st temp : Nat) : stackGet (thermalReport (reportNoted s st temp) st temp) st =
    stackAfter s { stackGet s st with temp := temp, lastReport := s.clk } temp := by
  rw [stackGet_thermalReport_self]
  exact congrArg (stackAfter s · temp) (stackGet_stackSet_self ..)

theorem stackGet_reported_ne (s : State) (temp : Nat) {st k : Nat} (hk : k ≠ st) :
    stackGet (thermalReport (reportNoted s st temp) st temp) k = stackGet s k :=
  (stackGet_thermalReport_ne _ temp hk).trans (stackGet_stackSet_ne _ _ _ _ hk)

/-- A stack that reports is fitted. -/
theorem sourceFitted_of_reports {s : State} {stack : Stack} (h : stackReports s (stackNo stack) = true) :
    sourceFitted s.fuses.variant (.stack stack) = true := by
  cases stack with
  | kern k => rfl
  | mantle m =>
    rw [stackReports, Bool.and_eq_true, decide_eq_true_eq] at h
    exact decide_eq_true (Nat.lt_of_add_lt_add_left h.2)

theorem trip_flash (s : State) (source : TripSource) : (trip s source).flash = s.flash := by
  unfold trip
  split
  · rfl
  · exact railsDown_flash ..

/-- A report at or above 115 °C (R207, R438). -/
theorem stackTempReport_trips {s : State} {stack : Stack} {temp : BitVec 8} (h : stackReports s (stackNo stack) = true)
    (hw : 115 ≤ temp.toNat) (hst : s.power.standby = true) (ht : s.power.trip = false) :
    Answers (.stackTempReport stack temp) s (fun t =>
      t.power.trip = true ∧ t.power.tripSource = some (.stack stack) ∧ t.power.rails = false ∧ t.pins.thermTripN = false ∧
      t.pins.alertN = false ∧ t.pins.pwrGood = false ∧ t.flash = s.flash ∧ t.fuses = s.fuses) := by
  have hrun := execStackTempReport_eq temp h
  rw [if_pos hw] at hrun
  have hkeep := reported_keeps s (stackNo stack) temp.toNat
  generalize thermalReport (reportNoted s (stackNo stack) temp.toNat) (stackNo stack) temp.toNat = u at hrun hkeep
  have hpow : u.power = s.power := hkeep.same .power rfl
  have hfuses : u.fuses = s.fuses := hkeep.same .fuses rfl
  have hrails : u.power.rails = true := by
    rw [stackReports, Bool.and_eq_true] at h
    rw [hpow, h.1]
  have hanswer := thermalTrip_answers (s := u) (source := .stack stack) (by rw [hpow, hst]) (by rw [hpow, ht])
    (by rw [hfuses]; exact sourceFitted_of_reports h)
  obtain ⟨t, htrip, hlatch, hsource, -, hdown, -, htherm, halert, hfall⟩ := hanswer
  obtain ⟨-, hgood, -⟩ := hfall hrails
  have heq : trip u (.stack stack) = t := Host.Outcome.next.inj htrip
  subst heq
  exact ⟨_, hrun, hlatch, hsource, hdown, htherm, halert, hgood, (trip_flash ..).trans (hkeep.same .flash rfl),
    ((trip_keeps u _).same .fuses rfl).trans hfuses⟩

/-- SENSOR_ERR set for a stack whose report is missing, with the cause that it raises when it was not set. -/
def sensorLost (s : State) (st : Nat) : State :=
  if (stackGet s st).sensorErr then stackSet s st { stackGet s st with sensorErr := true }
  else raiseCause (stackSet s st { stackGet s st with sensorErr := true }) irqThermal

theorem sensorLost_keeps (s : State) (st : Nat) : Keeps [.regs, .port, .pmu]
    (stackSet s st { stackGet s st with sensorErr := true }) (sensorLost s st) := by
  unfold sensorLost
  split
  · exact Keeps.refl _ _
  · exact raiseCause_keeps ..

/-- A report missing for 300 µs acts as T_CRIT (R202). -/
theorem sensorTimeout_answers {s : State} {stack : Stack} (h : stackReports s (stackNo stack) = true)
    (hlong : (stackGet s (stackNo stack)).lastReport + 300000 ≤ s.clk) : Answers (.sensorTimeout stack) s (fun t =>
      (stackGet t (stackNo stack)).sensorErr = true ∧ (stackGet t (stackNo stack)).thermal = .critical ∧
      (stackGet t (stackNo stack)).temp = (stackGet s (stackNo stack)).temp ∧ t.gov.slow = true ∧ t.gov.stackHold = true ∧
      (∀ k : Nat, k ≠ stackNo stack → stackGet t k = stackGet s k) ∧ OnlyIn [.regs, .port, .stackSt, .gov, .net, .pmu] s t) := by
  have hrun : execSensorTimeout stack s =
      .next (thermalReport (sensorLost s (stackNo stack)) (stackNo stack) (actF s flTCrit 0)) := by
    unfold execSensorTimeout
    dsimp only
    rw [if_neg (by simp [h, hlong])]
    rfl
  have hkeep := sensorLost_keeps s (stackNo stack)
  generalize sensorLost s (stackNo stack) = u at hrun hkeep
  have hstacks : u.stackSt = (stackSet s (stackNo stack) { stackGet s (stackNo stack) with sensorErr := true }).stackSt :=
    hkeep.same .stackSt rfl
  have hself : stackGet u (stackNo stack) = { stackGet s (stackNo stack) with sensorErr := true } := by
    rw [stackGet, hstacks]
    exact stackGet_stackSet_self ..
  have hcrit : actF u flTCrit 0 ≤ actF s flTCrit 0 := Nat.le_of_eq (actF_congr (hkeep.same .cfg rfl) flTCrit 0)
  obtain ⟨hslow, hhold⟩ := thermalReport_slow (st := stackNo stack) hcrit
  have hget := stackGet_thermalReport_self u (stackNo stack) (actF s flTCrit 0)
  rw [hself] at hget
  refine ⟨_, hrun, by rw [hget]; rfl, by rw [hget]; exact thermalAfter_critical hcrit, by rw [hget]; rfl, hslow, hhold,
    fun k hk => ?_, (execSensorTimeout_keeps stack s _ hrun).only⟩
  rw [stackGet_thermalReport_ne _ _ hk, stackGet, hstacks]
  exact stackGet_stackSet_ne _ _ _ _ hk

/-- Settles O53, event by event. -/
theorem stackTemperatureAndSlow : Obligations.StackTemperatureAndSlow := by
  intro s
  refine ⟨?_, fun _ hh hc hl hlong => slowHoldEnd_answers hh hc hl hlong, fun _ hs hb hlong => slowRaise_answers hs hb hlong,
    fun _ hh hb ha => slowClear_answers hh ⟨hb, ha⟩⟩
  intro stack temp st x w thr hrep
  refine ⟨fun hw => ?_, fun hw hst ht => stackTempReport_trips hrep hw hst ht, fun hlong => sensorTimeout_answers hrep hlong⟩
  have hrun := execStackTempReport_eq temp hrep
  rw [if_neg (Nat.not_le.2 hw)] at hrun
  refine ⟨_, hrun, ?_, fun k hk => stackGet_reported_ne s w hk, (reported_keeps s st w).only⟩
  intro y
  have hy : y = stackAfter s { x with temp := w, lastReport := s.clk } w := stackGet_reported_self s st w
  clear_value y
  subst hy
  exact ⟨rfl, rfl, fun h => levelAfter_hot h, fun h hhyst hl hc => levelAfter_cool h hhyst hl hc,
    fun h hn => levelAfter_stays h hn, fun hne => if_neg hne,
    fun h => ⟨thermalAfter_critical h, thermalReport_slow (s := reportNoted s st w) h⟩,
    fun h ht hx => thermalAfter_throttle h ht hx, fun h ht hx hl => thermalAfter_normal h ht hx hl,
    fun h => if_pos h, fun h => (if_neg (by omega)).trans (if_pos h), fun h h' => (if_neg (by omega)).trans (if_neg (by omega)),
    rfl, rfl, rfl, rfl⟩

end Sys2Proof.Machine
end

section
/-! SUPPORT. Nothing but training and HELLO brings a link into service: what every operation that sends frames, ends operations or
tells of a loss leaves of the links that are DOWN (R322, R349). -/

set_option Elab.async false

namespace Sys2Proof.Machine

open Sys2Proof

/-- Every link that is DOWN in `s` is DOWN in `t`. -/
structure DownStays (s t : State) : Prop where
  down : ∀ k : Nat, (linkGet s k).state = .down → (linkGet t k).state = .down

theorem DownStays.refl (s : State) : DownStays s s := ⟨fun _ => id⟩

theorem DownStays.trans {s t u : State} (h1 : DownStays s t) (h2 : DownStays t u) : DownStays s u :=
  ⟨fun k h => h2.down k (h1.down k h)⟩

/-- An update of other parts of the network leaves the links. -/
theorem DownStays.of_links {s t : State} (h : t.net.links = s.net.links) : DownStays s t := by
  refine ⟨fun k hk => ?_⟩
  rwa [linkGet, h]

/-- An operation that leaves the network leaves the links. -/
theorem Keeps.downStays {ps : List Part} {s t : State} (h : Keeps ps s t) (hp : ps.contains .net = false) : DownStays s t :=
  .of_links (congrArg Net.links (h.same .net hp))

/-- A further step that leaves the network. -/
theorem DownStays.keeps {ps : List Part} {s t u : State} (h : DownStays s t) (hk : Keeps ps t u) (hp : ps.contains .net = false) :
    DownStays s u := h.trans (hk.downStays hp)

theorem DownStays.foldl {B : Type} {s t : State} {f : State → B → State} {l : List B} (h : DownStays s t)
    (hf : ∀ (u : State) (b : B), DownStays u (f u b)) : DownStays s (l.foldl f t) :=
  foldl_keeps (DownStays s) f l t h (fun u b hu => hu.trans (hf u b))

/-- A link's entry replaced by one that is DOWN if the entry was. -/
theorem linkSet_downStays {s : State} {k : Nat} {l : Link} (h : (linkGet s k).state = .down → l.state = .down) :
    DownStays s (linkSet s k l) := by
  refine ⟨fun j hj => ?_⟩
  by_cases hk : j = k
  · subst hk
    rw [linkGet_linkSet_self]
    exact h hj
  · rwa [linkGet_linkSet_ne _ _ _ _ hk]

/-! ### Sending frames (R328, R330) -/

theorem pump_downStays (s : State) (k : Nat) : DownStays s (pump s k) := by
  unfold pump
  dsimp only
  split
  · refine (linkSet_downStays (fun h => ?_)).keeps (countSent_keeps ..) rfl
    exact ((pumpLink_sends _ _ _ _ _ (linkGet s k)).state).trans h
  · exact .refl s

theorem sendOn_downStays (s : State) (k : Nat) (f : Frame) : DownStays s (sendOn s k f) := by
  unfold sendOn
  refine DownStays.trans ?_ (pump_downStays ..)
  exact linkSet_downStays id

theorem countDrop_downStays (s : State) (p : Nat) : DownStays s (countDrop s p) := by
  unfold countDrop
  split
  · exact linkSet_downStays id
  · exact .refl s

theorem routeFrame_downStays (s : State) (f : Frame) (originated : Bool) : DownStays s (routeFrame s f originated) := by
  unfold routeFrame
  split
  · exact .refl s
  · exact countDrop_downStays ..
  · split
    · exact countDrop_downStays ..
    · refine DownStays.trans ?_ (sendOn_downStays ..)
      exact .of_links rfl

theorem sendFrame_downStays (s : State) (f : Frame) : DownStays s (sendFrame s f) := routeFrame_downStays s f true

theorem sendAllUp_downStays (s : State) (f : Frame) (skip : List Nat) : DownStays s (sendAllUp s f skip) :=
  (DownStays.refl s).foldl (fun u k => sendOn_downStays u k f)

/-! ### Repairs and the error policy (R178, R353) -/

theorem askRepair_downStays (s : State) (name axis rank began : Nat) : DownStays s (askRepair s name axis rank began) := by
  unfold askRepair
  refine DownStays.trans ?_ (sendFrame_downStays ..)
  exact .of_links rfl

theorem repairFail_downStays (s : State) (name : Nat) : DownStays s (repairFail s name) := by
  unfold repairFail
  refine (DownStays.keeps ?_ (pmuAdd_keeps ..) rfl).keeps (raiseCause_keeps ..) rfl
  exact .of_links rfl

theorem repairNext_downStays (s : State) (name axis after began : Nat) : DownStays s (repairNext s name axis after began) := by
  unfold repairNext
  dsimp only
  split
  · exact askRepair_downStays ..
  · exact repairFail_downStays ..

theorem startRepair_downStays (s : State) (name : Nat) : DownStays s (startRepair s name) :=
  ((htSet_keeps ..).downStays rfl).trans (repairNext_downStays ..)

theorem chafePolicy_downStays (s : State) (name : Nat) : DownStays s (chafePolicy s name) := by
  unfold chafePolicy
  dsimp only
  split
  · exact .refl s
  · split
    · split
      · exact .refl s
      · refine DownStays.keeps ?_ (raiseCause_keeps ..) rfl
        split
        · exact .refl s
        · exact startRepair_downStays ..
    · exact ((haltAccount_keeps ..).downStays rfl).keeps (raiseCause_keeps ..) rfl
    · exact ((abortAccount_keeps ..).downStays rfl).keeps (raiseCause_keeps ..) rfl

/-! ### Writes by device address, and records (R162, R273) -/

theorem wroteMarked_downStays (before after : State) (name fa n : Nat) :
    DownStays after (wroteMarked before after name fa n) := by
  unfold wroteMarked
  dsimp only
  refine DownStays.trans ?_ (chafePolicy_downStays ..)
  split
  · exact .refl _
  · exact (pmuAdd_keeps ..).downStays rfl

theorem frameWrite_downStays (before s : State) (name fa : Nat) (bs : List Byte) (mark : Bool) :
    DownStays s (frameWrite before s name fa bs mark) := by
  have hstore : DownStays s (syncChafe (storeAt s fa bs mark) name) :=
    ((storeAt_keeps ..).downStays rfl).keeps (syncChafe_keeps ..) rfl
  unfold frameWrite
  dsimp only
  split
  · exact hstore.trans (wroteMarked_downStays ..)
  · exact hstore

theorem straightWrite_downStays (s : State) (fa : Nat) (bs : List Byte) (mark : Bool) :
    DownStays s (straightWrite s fa bs mark) := by
  unfold straightWrite
  split
  · exact frameWrite_downStays ..
  · exact (storeAt_keeps ..).downStays rfl

theorem writePiece_downStays (relaxed : Bool) (acct : Option Nat) (mark : Bool) (acc : State × Bool) (p : Nat × List Byte) :
    DownStays acc.1 (writePiece relaxed acct mark acc p).1 := by
  unfold writePiece
  dsimp only
  split
  · split
    · split
      · exact (busWrite_keeps ..).downStays rfl
      · exact .refl _
    · exact .refl _
  · split
    · exact straightWrite_downStays ..
    · exact .refl _
  · exact .refl _
  · split
    · exact .refl _
    · split
      · exact (holdWrite_keeps ..).downStays rfl
      · split
        · exact (holdMerge_keeps ..).downStays rfl
        · split
          · exact .refl _
          · exact ((tierWrite_keeps ..).downStays rfl).trans (frameWrite_downStays ..)

theorem devWriteAs_downStays (relaxed : Bool) (s : State) (acct : Option Nat) (a : Nat) (bs : List Byte) (mark : Bool) :
    DownStays s (devWriteAs relaxed s acct a bs mark).1 := by
  have hwrite := foldl_keeps (fun x : State × Bool => DownStays s x.1) (writePiece relaxed acct mark) (pieces a bs) (s, false)
    (DownStays.refl s) (fun u p hu => hu.trans (writePiece_downStays ..))
  unfold devWriteAs
  dsimp only
  split
  · exact hwrite.keeps (badAccess_keeps ..) rfl
  · exact hwrite

theorem writeRecord_downStays (s : State) (n : Nat) (record : List Byte) : DownStays s (writeRecord s n record) :=
  (devWriteAs_downStays ..).keeps (lineSet_keeps ..) rfl

theorem finalRecord_downStays (s : State) (n seq status : Nat) (flags : Byte) (epoch : BitVec 16) (d : BitVec 512)
    (opb : List Byte) (sig irq : Bool) : DownStays s (finalRecord s n seq status flags epoch d opb sig irq) := by
  unfold finalRecord
  split
  · exact (noteLine_keeps ..).downStays rfl
  · exact ((writeRecord_downStays ..).keeps (afterRecord_keeps ..) rfl).keeps (noteLine_keeps ..) rfl

theorem finishOp_downStays (s : State) (n : Nat) (o : OpEnt) (st : Nat) (opb : List Byte) : DownStays s (finishOp s n o st opb) := by
  unfold finishOp
  dsimp only
  refine DownStays.trans (DownStays.keeps ?_ (opDrop_keeps ..) rfl) (finalRecord_downStays ..)
  split
  · exact (pmuAdd_keeps ..).downStays rfl
  · exact .refl s

/-! ### Collectives (R337 to R345) -/

theorem rxCount_downStays (s : State) (n : Nat) (o : OpEnt) (dev k : Nat) : DownStays s (rxCount s n o dev k).1 := by
  unfold rxCount
  dsimp only
  split
  · exact ((opSet_keeps ..).downStays rfl).trans (sendFrame_downStays ..)
  · exact (opSet_keeps ..).downStays rfl

theorem sendElems_downStays (s : State) (n : Nat) (o : OpEnt) (xs : List CollTx) : DownStays s (sendElems s n o xs) := by
  unfold sendElems
  exact ((opSet_keeps ..).downStays rfl).foldl sendFrame_downStays

theorem rxOne_downStays {s t : State} {n : Nat} {o : OpEnt} (h : rxOne s n o = some t) : DownStays s t := by
  unfold rxOne at h
  split at h
  · cases h
  · obtain ⟨r, -, rfl⟩ := Option.map_eq_some_iff.1 h
    exact (rxCount_downStays ..).trans (sendElems_downStays ..)

theorem rxAll_downStays (n seq fuel : Nat) (s : State) : DownStays s (rxAll n seq fuel s) := by
  induction fuel generalizing s with
  | zero => exact .refl s
  | succ fuel ih =>
    unfold rxAll
    split
    · exact .refl s
    · split
      · exact (rxOne_downStays ‹_›).trans (ih _)
      · exact .refl s

theorem collPump_downStays (s : State) (n seq : Nat) : DownStays s (collPump s n seq) := by
  unfold collPump
  split
  · exact .refl s
  · split
    · exact .refl s
    · split
      · exact rxAll_downStays ..
      · split
        · exact .refl s
        · exact (((noteAccess_keeps ..).downStays rfl).trans (sendElems_downStays ..)).trans (rxAll_downStays ..)

theorem collPumpAll_downStays (s : State) : DownStays s (collPumpAll s) := (DownStays.refl s).foldl (fun _ _ => collPump_downStays ..)

theorem scribbleByte_downStays (s : State) (strand acct : Nat) (p : Place) (b : Byte) :
    DownStays s (scribbleByte s strand acct p b) := by
  unfold scribbleByte placeWrite
  dsimp only
  split
  · exact (eyeWrite_keeps ..).downStays rfl
  · exact devWriteAs_downStays ..

theorem collFail_downStays (s : State) (n : Nat) (o : OpEnt) (st : Nat) : DownStays s (collFail s n o st) := by
  unfold collFail scribbleOut
  dsimp only
  refine DownStays.trans (DownStays.keeps (DownStays.keeps ?_ (drawn_keeps _) rfl) (countColl_keeps ..) rfl) (finishOp_downStays ..)
  exact (DownStays.refl s).foldl (fun _ _ => scribbleByte_downStays ..)

/-! ### The loss of a peer, of a link and of the port (R349, R350, R367) -/

theorem endColls_downStays (s : State) (dev : Nat) : DownStays s (endColls s dev) := by
  unfold endColls
  refine (DownStays.refl s).foldl (fun u p => ?_)
  split
  · exact collFail_downStays ..
  · exact .refl u

theorem endFlushes_downStays (s : State) (dev : Nat) : DownStays s (endFlushes s dev) := by
  unfold endFlushes
  refine (DownStays.refl s).foldl (fun u f => ?_)
  dsimp only
  split
  · refine DownStays.trans ?_ (finishOp_downStays ..)
    exact .of_links rfl
  · exact .of_links rfl

theorem snapEnd_downStays (s : State) (n : Nat) (o : OpEnt) (st : Nat) : DownStays s (snapEnd s n o st) := by
  unfold snapEnd
  refine DownStays.trans ?_ (finishOp_downStays ..)
  exact .of_links rfl

theorem endPuts_downStays (s : State) (dev : Nat) : DownStays s (endPuts s dev) :=
  (DownStays.refl s).foldl (fun _ _ => snapEnd_downStays ..)

theorem moveRepairs_downStays (s : State) (dev : Nat) : DownStays s (moveRepairs s dev) := by
  unfold moveRepairs
  refine (DownStays.refl s).foldl (fun u r => ?_)
  dsimp only
  split
  · exact repairNext_downStays ..
  · exact .refl u

theorem peerDown_downStays (s : State) (dev : Nat) (st : PeerState) (cause : Nat) : DownStays s (peerDown s dev st cause) := by
  unfold peerDown
  split
  · exact .refl s
  · refine ((((DownStays.keeps ?_ (raiseCause_keeps ..) rfl).trans (endColls_downStays ..)).trans
      (endFlushes_downStays ..)).trans (endPuts_downStays ..)).trans (moveRepairs_downStays ..)
    exact .of_links rfl

theorem markUnreachable_downStays (s : State) (cause : Nat) : DownStays s (markUnreachable s cause) :=
  (DownStays.refl s).foldl (fun _ _ => peerDown_downStays ..)

theorem declareLost_downStays (s : State) (dev cause : Nat) : DownStays s (declareLost s dev cause) := by
  unfold declareLost
  split
  · exact .refl s
  · exact (peerDown_downStays ..).trans (sendAllUp_downStays ..)

/-- The loss of a link brings none into service. -/
theorem linkLost_downStays (s : State) (k cause : Nat) (orderly : Option Nat) : DownStays s (linkLost s k cause orderly) := by
  unfold linkLost
  extract_lets l p dev s1 up s2 reason s3 s4
  have h2 : DownStays s s2 := by
    have h1 : DownStays s s1 := linkSet_downStays (fun _ => rfl)
    dsimp only [s2]
    split
    · exact h1.keeps (raiseCause_keeps ..) rfl
    · exact h1
  have h3 : DownStays s s3 := by
    dsimp only [s3]
    split
    · exact h2.trans (declareLost_downStays ..)
    · split
      · exact h2
      · split
        · exact h2.trans (peerDown_downStays ..)
        · exact h2.trans (declareLost_downStays ..)
  have h4 : DownStays s s4 := by
    dsimp only [s4]
    split
    · exact h3
    · exact h3.trans (markUnreachable_downStays ..)
  exact h4.keeps (syncPath_keeps ..) rfl

theorem failFlushes_downStays (s : State) : DownStays s (failFlushes s) := by
  unfold failFlushes
  refine (DownStays.refl s).foldl (fun u n => ?_)
  split
  · split
    · unfold flushFailed
      refine DownStays.trans (DownStays.keeps ?_ (raiseCause_keeps ..) rfl) (finishOp_downStays ..)
      exact .of_links rfl
    · exact .refl u
  · exact .refl u

/-- The loss of the host port brings no link into service. -/
theorem portDown_downStays (s : State) : DownStays s (portDown s) := by
  unfold portDown
  split
  · exact .refl s
  extract_lets p s0 hostMove s1 s2 q s3
  have h0 : DownStays s s0 := .of_links rfl
  have h1 : DownStays s s1 := h0.foldl (fun u m => (dropMove_keeps u m).downStays rfl)
  have h2 : DownStays s s2 := h1.foldl (fun u name => (chafeHostBlock_keeps u name).downStays rfl)
  have h3 : DownStays s s3 := by
    refine DownStays.trans ?_ (failFlushes_downStays _)
    exact h2.trans (.of_links rfl)
  exact (((h3.keeps (noteAll_keeps s3) rfl).keeps (advanceRuns_keeps _) rfl).keeps (advanceBight_keeps _) rfl).trans
    (collPumpAll_downStays _)

end Sys2Proof.Machine
end

section
/-! SUPPORT. The timebase's sync exchange, its copy, and the loss of REFCLK (O55, R37 to R41, R356 to R358). -/

set_option Elab.async false

namespace Sys2Proof.Machine

open Sys2Proof

/-! ### What a received frame leaves of its link (R323) -/

theorem up_of_linkUp {s : State} {k : Nat} (h : linkUp s k = true) : (linkGet s k).state = .up := by
  rw [linkUp, Bool.and_eq_true, decide_eq_true_eq] at h
  exact h.2

theorem lt_of_linkUp {s : State} {k : Nat} (h : linkUp s k = true) : k < 24 := by
  rw [linkUp, linkOn, Bool.and_eq_true, Bool.and_eq_true, Bool.and_eq_true, decide_eq_true_eq] at h
  have hcount : linkCount s ≤ 24 := by
    unfold linkCount
    split <;> omega
  exact Nat.lt_of_lt_of_le h.1.1.1 hcount

theorem emitted_of_sent {s t : State} {k : Nat} {f : Frame} (h : Sent (linkGet s k) (linkGet t k) f) : Emitted s t k f := by
  obtain ⟨sent, hw, hf⟩ := h
  exact ⟨sent, _, hw, hf, Or.inl rfl⟩

theorem nextSequenced_lastRx {own : BitVec 16} {cw dw : Nat} {l l1 : Link} {q : List Frame} {f : Frame}
    (h : nextSequenced own cw dw l q = some (f, l1)) : l1.lastRx = l.lastRx := by
  unfold nextSequenced at h
  dsimp only at h
  split at h
  · cases h
    rfl
  split at h
  · cases h
  · cases h
    rfl
  · cases h
    rfl
  · split_ifs at h <;> cases h <;> rfl

/-- Sending says nothing of what was received. -/
theorem pumpLink_lastRx (own : BitVec 16) (cw dw clk fuel : Nat) (l : Link) :
    (pumpLink own cw dw clk fuel l).lastRx = l.lastRx := by
  induction fuel generalizing l with
  | zero => rfl
  | succ fuel ih =>
    rw [pumpLink]
    split
    · rw [ih]
    split
    · rfl
    · rename_i h
      split
      · rfl
      · have hrx := nextSequenced_lastRx h
        rw [ih]
        exact hrx

theorem pump_lastRx {s : State} {k : Nat} (h : (linkGet s k).state = .up) : (linkGet (pump s k) k).lastRx = (linkGet s k).lastRx := by
  rw [linkGet_pump_self h]
  exact pumpLink_lastRx ..

theorem sendOn_lastRx {s : State} {k : Nat} (f : Frame) (h : (linkGet s k).state = .up) :
    (linkGet (sendOn s k f) k).lastRx = (linkGet s k).lastRx := by
  unfold sendOn
  dsimp only
  rw [pump_lastRx (by simpa using h), linkGet_linkSet_self]

theorem pump_sends {s : State} {k : Nat} (h : (linkGet s k).state = .up) : Sends (linkGet s k) (linkGet (pump s k) k) := by
  rw [linkGet_pump_self h]
  have hs := pumpLink_sends (BitVec.ofNat 16 (ownId s)) (actF s flCollWeight 0) (actF s flDataWeight 0) s.clk
    (linkGet s k).txQueue.length (linkGet s k)
  exact ⟨hs.state, hs.rxLast, hs.wire⟩

/-- Hearing of a device changes no link. -/
theorem linkGet_peerHeard (s : State) (dev : Nat) (stat : BitVec 3) (k : Nat) : linkGet (peerHeard s dev stat) k = linkGet s k := by
  unfold peerHeard
  dsimp only
  split
  · exact linkGet_congr ((noteSlow_keeps _ _).same .net rfl) k
  · rfl

/-- An ACK bears on the replay buffer only. -/
theorem takeAck_sends (clk : Nat) (ack : BitVec 16) (l : Link) : Sends l (takeAck clk ack l) ∧ (takeAck clk ack l).lastRx = l.lastRx := by
  unfold takeAck
  dsimp only
  split
  · exact ⟨⟨rfl, rfl, [], by simp⟩, rfl⟩
  · exact ⟨Sends.refl l, rfl⟩

/-- A good frame on an UP link: the link stays UP, sends on, and notes the instant. -/
theorem heard_link {s : State} {k : Nat} (f : Frame) (h : (linkGet s k).state = .up) :
    Sends (linkGet s k) (linkGet (heard s k f) k) ∧ (linkGet (heard s k f) k).lastRx = s.clk := by
  obtain ⟨hack, hrx⟩ := takeAck_sends s.clk f.ack { linkGet s k with lastRx := s.clk }
  have hnoted : Sends (linkGet s k) (takeAck s.clk f.ack { linkGet s k with lastRx := s.clk }) :=
    Sends.trans (b := { linkGet s k with lastRx := s.clk }) ⟨rfl, rfl, [], by simp⟩ hack
  unfold heard
  extract_lets l s1 s2
  have h1 : linkGet (pmuAdd s1 (0x158 + k) (cellsOf f) (cellAttr f)) k =
      takeAck s.clk f.ack { linkGet s k with lastRx := s.clk } :=
    (linkGet_congr ((pmuAdd_keeps ..).same .net rfl) k).trans (linkGet_linkSet_self ..)
  have hup : (linkGet (pmuAdd s1 (0x158 + k) (cellsOf f) (cellAttr f)) k).state = .up := by rw [h1, hnoted.state, h]
  have h2 : Sends (linkGet s k) (linkGet s2 k) ∧ (linkGet s2 k).lastRx = s.clk := by
    refine ⟨Sends.trans ?_ (pump_sends hup), (pump_lastRx hup).trans ?_⟩
    · rw [h1]
      exact hnoted
    · rw [h1, hrx]
  split
  · rw [linkGet_peerHeard]
    exact h2
  · exact h2

/-- A frame of its type, good and on an UP link, is heard and acts. -/
theorem localRx_eq {k : LinkNo} {f : Frame} {typ : BitVec 4} (act : State → State) {s : State} (hup : linkUp s k.val = true)
    (ht : f.typ = typ) (hg : frameGood f = true) : localRx k f typ act s = .next (act (heard s k.val f)) := by
  unfold localRx
  rw [if_neg (by simp [hup, ht]), if_neg (by simp [hg])]

/-- A link-local frame depends on the module's status, its number and its configuration only. -/
theorem mkLocal_congr {s t : State} (hg : t.gov = s.gov) (hb : t.boot = s.boot) (hbl : t.belay = s.belay) (hc : t.cfg = s.cfg)
    (typ : BitVec 4) (tag : W32) (addr : W64) (aux : W32) : mkLocal t typ tag addr aux = mkLocal s typ tag addr aux := by
  have hown : ownId t = ownId s := by rw [ownId, ownId, hb]
  have hdrain : draining t = draining s := by rw [draining, draining, hbl]
  simp only [mkLocal, mkFrame, hg, hown, hdrain, actF_congr hc]

theorem laneTime_congr {s t : State} (h : t.tb = s.tb) (k : Nat) (part : BitVec 4) : laneTime t k part = laneTime s k part := by
  rw [laneTime, laneTime, h]

/-! ### The sync period (R356, R358) -/

theorem linkOn_congr {s t : State} (hc : t.cfg = s.cfg) (hf : t.fuses = s.fuses) (k : Nat) : linkOn t k = linkOn s k := by
  have hcap : ∀ b : Nat, capBit t b = capBit s b := fun b => by rw [capBit, capBit, hf]
  rw [linkOn, linkOn, linkCount, linkCount, unitOn, unitOn, hcap, actF_congr hc flLinkEn, actF_congr hc flUnitEn]

theorem linkUp_congr {s t : State} (hc : t.cfg = s.cfg) (hf : t.fuses = s.fuses) (hn : t.net = s.net) (k : Nat) :
    linkUp t k = linkUp s k := by
  rw [linkUp, linkUp, linkOn_congr hc hf, linkGet_congr hn]

/-- The sync port depends on the configuration, the part and the links only. -/
theorem syncPort_congr {s t : State} (hc : t.cfg = s.cfg) (hf : t.fuses = s.fuses) (hn : t.net = s.net) :
    syncPort t = syncPort s := by
  have hup : linkUp t = linkUp s := funext (linkUp_congr hc hf hn)
  have hlinks : ∀ p : Nat, portLinks t p = portLinks s p := fun p =>
    List.filter_congr (fun k _ => by rw [linkOn_congr hc hf, actF_congr hc])
  have hport : ∀ p : Nat, portUp t p = portUp s p := fun p => by rw [portUp, portUp, hlinks, hup]
  rw [syncPort, syncPort, hport, hport, actF_congr hc flTbParent, actF_congr hc flTbAlt]

/-- The request of a sync period, noted with its departure. -/
def syncAsked (s : State) (p k : Nat) : State :=
  { drawn s with tb := { s.tb with
      onAlt := p != actF s flTbParent 0, pendingReq := some (k, laneTime s k (departPart s)) } }

theorem execSyncPeriod_asks {s : State} {p k : Nat} (hroot : actF s flTbRoot 0 ≠ 1) (hrun : s.tb.running = true)
    (hp : syncPort s = some p) (hk : (portLinks s p).find? (linkUp s) = some k) : execSyncPeriod s =
      .next (sendOn (syncAsked s p k) k (mkLocal s ftSyncReq 0 (laneTime s k (departPart s)) 0)) := by
  have hpath : syncPath s = { s with tb := { s.tb with onAlt := p != actF s flTbParent 0 } } := by
    unfold syncPath
    rw [if_neg hroot, hp]
  have hbind : (syncPort (syncPath s)).bind (fun p => (portLinks (syncPath s) p).find? (linkUp (syncPath s))) = some k := by
    rw [hpath]
    exact (congrArg (Option.bind · _) hp).trans hk
  unfold execSyncPeriod
  rw [if_neg (by simp [hroot, hrun])]
  dsimp only
  rw [hbind, hpath]
  rfl

theorem syncPeriod_answers {s : State} {p k : Nat} (hroot : actF s flTbRoot 0 ≠ 1) (hrun : s.tb.running = true)
    (hp : syncPort s = some p) (hk : (portLinks s p).find? (linkUp s) = some k) : Answers .syncPeriod s (fun t =>
      (∃ part : BitVec 4,
        t.tb = { s.tb with onAlt := p != actF s flTbParent 0, pendingReq := some (k, laneTime s k part) } ∧
        Emitted s t k (mkLocal s ftSyncReq 0 (laneTime s k part) 0)) ∧ (∀ j : Nat, j ≠ k → linkGet t j = linkGet s j) ∧
      OnlyIn [.free, .tb, .regs, .port, .net, .pmu] s t) := by
  have hexec := execSyncPeriod_asks hroot hrun hp hk
  have hup : (linkGet (syncAsked s p k) k).state = .up := up_of_linkUp (List.find?_some hk)
  exact ⟨_, hexec, ⟨departPart s, (sendOn_keeps ..).same .tb rfl, emitted_of_sent (sendOn_sent_local hup rfl)⟩,
    fun j hj => linkGet_sendOn_ne _ _ hj, (execSyncPeriod_keeps s _ hexec).only⟩

/-- The lock lost: its fall raises the cause (R40, R424). -/
theorem setLocked_false (s : State) : (setLocked s false).tb = { s.tb with locked := false, goodExchanges := 0 } ∧
    (s.tb.locked = true → (setLocked s false).regs.irqCause.getLsbD 7 = true) := by
  unfold setLocked
  dsimp only
  cases hl : s.tb.locked with
  | true => exact ⟨(raiseCause_keeps ..).same .tb rfl, fun _ => raiseCause_cause _ (by decide)⟩
  | false => exact ⟨rfl, fun h => absurd h (by decide)⟩

theorem syncPath_none {s : State} (hroot : actF s flTbRoot 0 ≠ 1) (hp : syncPort s = none) :
    syncPath s = setLocked { s with tb := { s.tb with pendingReq := none } } false := by
  unfold syncPath
  rw [if_neg hroot, hp]

theorem syncPeriod_answers_lost {s : State} (hroot : actF s flTbRoot 0 ≠ 1) (hrun : s.tb.running = true)
    (hp : syncPort s = none) : Answers .syncPeriod s (fun t =>
      t.tb = { s.tb with pendingReq := none, locked := false, goodExchanges := 0 } ∧
      (s.tb.locked = true → t.regs.irqCause.getLsbD 7 = true) ∧ OnlyIn [.tb, .regs, .port, .net, .pmu] s t) := by
  have hkeep := syncPath_keeps s
  have hexec : execSyncPeriod s = .next (syncPath s) := by
    have hnone : syncPort (syncPath s) = none :=
      (syncPort_congr (hkeep.same .cfg rfl) (hkeep.same .fuses rfl) (hkeep.same .net rfl)).trans hp
    unfold execSyncPeriod
    rw [if_neg (by simp [hroot, hrun])]
    dsimp only
    rw [hnone, Option.bind_none]
  have hlock := setLocked_false { s with tb := { s.tb with pendingReq := none } }
  rw [← syncPath_none hroot hp] at hlock
  exact ⟨_, hexec, hlock.1, hlock.2, (hkeep.mono rfl).only⟩

/-! ### The exchange (R324, R356, R357) -/

theorem syncReq_answers {s : State} {link : LinkNo} {f : Frame} (t2 t3 : BitVec 4) (hup : linkUp s link.val = true)
    (ht : f.typ = ftSyncReq) (hg : frameGood f = true) : Answers (.syncReq link f t2 t3) s (fun t =>
      Emitted s t link.val (mkLocal s ftSyncRsp (if s.tb.locked then 1 else 0) (laneTime s link.val t2)
        (if t2 ≤ t3 then (t3 - t2).setWidth 32 else 0)) ∧
      (linkGet t link.val).lastRx = s.clk ∧ OnlyIn [.regs, .port, .lines, .net, .pmu] s t) := by
  have hexec : execSyncReq link f t2 t3 s = .next _ := localRx_eq _ hup ht hg
  obtain ⟨hsends, hrx⟩ := heard_link f (up_of_linkUp hup)
  have hstate := hsends.state.trans (up_of_linkUp hup)
  have hkeep := heard_keeps s link.val f
  have htb : (heard s link.val f).tb = s.tb := hkeep.same .tb rfl
  refine ⟨_, hexec, ?_, (sendOn_lastRx _ hstate).trans hrx, (execSyncReq_keeps link f t2 t3 s _ hexec).only⟩
  rw [mkLocal_congr (hkeep.same .gov rfl) (hkeep.same .boot rfl) (hkeep.same .belay rfl) (hkeep.same .cfg rfl),
    laneTime_congr htb, htb]
  exact emitted_of_sent (hsends.then_sent (sendOn_sent_local hstate rfl))

/-- The exchanges in a row within 4 ns of a locked parent. -/
def goodAfter (good : Nat) (x : Int) (parentLocked : Bool) : Nat := if x.natAbs ≤ 128 && parentLocked then min 8 (good + 1) else 0

/-- The timebase after an offset of `ns`: a step the first time, a slew afterwards (R39). -/
def corrected (tb : Timebase) (ns : Int) : Timebase :=
  if tb.stepped || tb.firstLock then { tb with slew := ns }
  else { tb with now := tb.now + BitVec.ofInt 64 ns, step := BitVec.ofInt 64 ns, stepped := true }

theorem applyOffset_tb (s : State) (x : Int) (parentLocked : Bool) : (applyOffset s x parentLocked).tb =
    { corrected s.tb (wholeNs s x) with
      offset := wholeNs s x, goodExchanges := goodAfter s.tb.goodExchanges x parentLocked, pendingReq := none
      locked := if 8 ≤ goodAfter s.tb.goodExchanges x parentLocked then true else s.tb.locked
      firstLock := if 8 ≤ goodAfter s.tb.goodExchanges x parentLocked then true else s.tb.firstLock } := by
  have hgood : (if x.natAbs ≤ 128 && parentLocked then min 8 ((drawn s).tb.goodExchanges + 1) else 0) =
      goodAfter s.tb.goodExchanges x parentLocked := rfl
  unfold applyOffset corrected
  dsimp only
  rw [hgood]
  generalize goodAfter s.tb.goodExchanges x parentLocked = good
  by_cases hl : 8 ≤ good <;> by_cases hc : (s.tb.stepped || s.tb.firstLock) = true <;> simp [hl, hc]

/-- The whole number of nanoseconds is one of the two neighbours of the offset (log entry 22). -/
theorem wholeNs_near (s : State) (x : Int) :
    32 * wholeNs s x < x + 32 ∧ x < 32 * wholeNs s x + 32 ∧ (x = 32 * (x / 32) → 32 * wholeNs s x = x) := by
  have hdiv := Int.mul_fdiv_add_fmod x 32
  have hlo := Int.fmod_nonneg_of_pos x (b := 32) (by decide)
  have hhi := Int.fmod_lt_of_pos x (b := 32) (by decide)
  unfold wholeNs
  dsimp only
  split
  · omega
  · split <;> omega

/-- What a response to the pending request sets (R356, R357). -/
structure Synced (tb : Timebase) (x : Int) (parentLocked : Bool) (tb' : Timebase) : Prop where
  offset : ∃ ns : Int, tb'.offset = ns ∧ 32 * ns < x + 32 ∧ x < 32 * ns + 32 ∧ (x = 32 * (x / 32) → 32 * ns = x) ∧
    (tb.stepped = false → tb.firstLock = false → tb'.now = tb.now + BitVec.ofInt 64 ns ∧
      tb'.step = BitVec.ofInt 64 ns ∧ tb'.stepped = true ∧ tb'.slew = tb.slew) ∧
    ((tb.stepped = true ∨ tb.firstLock = true) → tb'.now = tb.now ∧ tb'.slew = ns ∧ tb'.step = tb.step)
  pending : tb'.pendingReq = none
  good : tb'.goodExchanges = if x.natAbs ≤ 128 ∧ parentLocked = true then min 8 (tb.goodExchanges + 1) else 0
  locks : tb'.goodExchanges = 8 → tb'.locked = true ∧ tb'.firstLock = true
  waits : tb'.goodExchanges < 8 → tb'.locked = tb.locked ∧ tb'.firstLock = tb.firstLock

theorem applyOffset_synced (s : State) (x : Int) (parentLocked : Bool) :
    Synced s.tb x parentLocked (applyOffset s x parentLocked).tb := by
  obtain ⟨hlo, hhi, hexact⟩ := wholeNs_near s x
  rw [applyOffset_tb]
  refine ⟨⟨wholeNs s x, rfl, hlo, hhi, hexact, fun hs hf => ?_, fun h => ?_⟩, rfl, ?_, fun h => ?_, fun h => ?_⟩
  · have hc : ¬ (s.tb.stepped || s.tb.firstLock) = true := by simp [hs, hf]
    simp [corrected, hc]
  · have hc : (s.tb.stepped || s.tb.firstLock) = true := by simpa using h
    simp [corrected, hc]
  · simp [goodAfter]
  · exact ⟨if_pos (Nat.le_of_eq h.symm), if_pos (Nat.le_of_eq h.symm)⟩
  · exact ⟨if_neg (Nat.not_le.2 h), if_neg (Nat.not_le.2 h)⟩

theorem syncRsp_synced {s : State} {link : LinkNo} {f : Frame} {t1 : W64} (t4 : BitVec 4) (hup : linkUp s link.val = true)
    (ht : f.typ = ftSyncRsp) (hg : frameGood f = true) (hp : s.tb.pendingReq = some (link.val, t1)) (hroot : actF s flTbRoot 0 = 0) :
    Answers (.syncRsp link f t4) s (fun t =>
      Synced s.tb (syncOffset32 t1 f.addr (f.aux.setWidth 64) (laneTime s link.val t4)) (f.tag.getLsbD 0) t.tb ∧
      OnlyIn [.free, .tb, .regs, .port, .lines, .net, .pmu] s t) := by
  have hkeep := heard_keeps s link.val f
  have htb : (heard s link.val f).tb = s.tb := hkeep.same .tb rfl
  have hexec : execSyncRsp link f t4 s = .next (applyOffset (heard s link.val f)
      (syncOffset32 t1 f.addr (f.aux.setWidth 64) (laneTime s link.val t4)) (f.tag.getLsbD 0)) := by
    unfold execSyncRsp
    rw [localRx_eq _ hup ht hg]
    simp [htb, hp, actF_congr (hkeep.same .cfg rfl), hroot, laneTime_congr htb]
  have hsync := applyOffset_synced (heard s link.val f)
    (syncOffset32 t1 f.addr (f.aux.setWidth 64) (laneTime s link.val t4)) (f.tag.getLsbD 0)
  rw [htb] at hsync
  exact ⟨_, hexec, hsync, (execSyncRsp_keeps link f t4 s _ hexec).only⟩

/-! ### The copy of the count (R38, R424) -/

theorem tbCopyReload_answers {s : State} (hrun : s.tb.running = true) (hu : unitOn s 3 = true) (hd : 2 < s.tb.copyDelta.natAbs) :
    Answers .tbCopyReload s (fun t =>
      t.tb = { s.tb with copyErr := true, copyDelta := 0 } ∧ t.regs.irqCause.getLsbD 7 = true ∧
      OnlyIn [.tb, .regs, .port, .pmu] s t) := by
  have hexec : execTbCopyReload s =
      .next (raiseCause { s with tb := { s.tb with copyErr := true, copyDelta := 0 } } irqTimebase) := by
    simp [execTbCopyReload, hrun, hu, hd]
  exact ⟨_, hexec, (raiseCause_keeps ..).same .tb rfl, raiseCause_cause _ (by decide), (execTbCopyReload_keeps s _ hexec).only⟩

/-- No copy, or a copy within 2 ns: nothing happens. -/
theorem execTbCopyReload_idle {s : State} (h : s.tb.running = false ∨ unitOn s 3 = false ∨ s.tb.copyDelta.natAbs ≤ 2) :
    execTbCopyReload s = .next s := by
  unfold execTbCopyReload
  rw [if_neg]
  simp only [Bool.and_eq_true, decide_eq_true_eq]
  rintro ⟨⟨hrun, hu⟩, hd⟩
  rcases h with h | h | h
  · rw [h] at hrun
    cases hrun
  · rw [h] at hu
    cases hu
  · omega

/-! ### The loss of REFCLK (R41) -/

/-- The timebase's run, its count and its holdover. -/
def clockOf (s : State) : Bool × W64 × Bool := (s.tb.running, s.tb.now, s.tb.holdover)

/-- The state of the sync path bears on the lock, not on the count. -/
theorem syncPath_clock (s : State) : clockOf (syncPath s) = clockOf s := by
  unfold syncPath
  split
  · rfl
  · split
    · rfl
    · rw [clockOf, (setLocked_false _).1]
      rfl

theorem Keeps.clock {ps : List Part} {s t : State} (h : Keeps ps s t) (hp : ps.contains .tb = false) : clockOf t = clockOf s := by
  rw [clockOf, clockOf, h.same .tb hp]

theorem linkLost_clock (s : State) (k cause : Nat) (orderly : Option Nat) : clockOf (linkLost s k cause orderly) = clockOf s := by
  unfold linkLost
  extract_lets l p dev s1 up s2 reason s3 s4
  have h2 : clockOf s2 = clockOf s := by
    have h1 : clockOf s1 = clockOf s := rfl
    dsimp only [s2]
    split
    · exact ((raiseCause_keeps ..).clock rfl).trans h1
    · exact h1
  have h3 : clockOf s3 = clockOf s := by
    dsimp only [s3]
    split
    · exact ((declareLost_keeps ..).clock rfl).trans h2
    · split
      · exact h2
      · split
        · exact ((peerDown_keeps ..).clock rfl).trans h2
        · exact ((declareLost_keeps ..).clock rfl).trans h2
  have h4 : clockOf s4 = clockOf s := by
    dsimp only [s4]
    split
    · exact h3
    · exact ((markUnreachable_keeps ..).clock rfl).trans h3
  exact (syncPath_clock s4).trans h4

/-- A lane without its reference: a link in service, or in training, is DOWN. -/
def laneDark (s : State) (k : Nat) : State :=
  let l := linkGet s k
  if l.state = .up || l.state = .training then linkSet s k (linkOff l .down (if l.state = .up then causeLos else l.cause)) else s

theorem lanesDark_eq (s : State) : lanesDark s = (List.range 24).foldl laneDark s := rfl

theorem laneDark_self {s : State} {k : Nat} (h : (linkGet s k).state = .up) : (linkGet (laneDark s k) k).state = .down := by
  unfold laneDark
  dsimp only
  rw [if_pos (by simp [h]), linkGet_linkSet_self]
  rfl

theorem laneDark_ne (s : State) {k j : Nat} (h : j ≠ k) : linkGet (laneDark s k) j = linkGet s j := by
  unfold laneDark
  dsimp only
  split
  · exact linkGet_linkSet_ne _ _ _ _ h
  · rfl

theorem laneDark_downStays (s : State) (k : Nat) : DownStays s (laneDark s k) := by
  unfold laneDark
  dsimp only
  split
  · exact linkSet_downStays (fun _ => rfl)
  · exact .refl s

/-- Every listed link that was UP is DOWN once the lanes are dark. -/
theorem laneDark_foldl {ks : List Nat} {s : State} {k : Nat} (hk : k ∈ ks) (h : (linkGet s k).state = .up) :
    (linkGet (ks.foldl laneDark s) k).state = .down := by
  induction ks generalizing s with
  | nil => cases hk
  | cons i ks ih =>
    rw [List.foldl_cons]
    by_cases hi : k = i
    · subst hi
      exact ((DownStays.refl _).foldl laneDark_downStays).down k (laneDark_self h)
    · exact ih ((List.mem_cons.1 hk).resolve_left hi) (by rw [laneDark_ne s hi, h])

/-- The port is down after its loss (R367). -/
theorem portDown_linkUp (s : State) : (portDown s).port.linkUp = false := by
  unfold portDown
  split
  · rename_i h
    simpa using h
  extract_lets p s0 hostMove s1 s2 q s3
  have h1 : Keeps [.regs, .port, .ingress, .lines, .hitches, .strands, .mem, .tiers, .net, .pmu] s0 s1 :=
    (Keeps.refl _ _).foldl (fun u m hu => hu.step (dropMove_keeps u m) rfl)
  have h2 : Keeps [.regs, .port, .ingress, .lines, .hitches, .strands, .mem, .tiers, .net, .pmu] s0 s2 :=
    h1.foldl (fun u name hu => hu.step (chafeHostBlock_keeps u name) rfl)
  have h3 : Keeps [.regs, .port, .ingress, .lines, .hitches, .strands, .mem, .tiers, .net, .pmu] s0 s3 := by
    refine Keeps.step ?_ (failFlushes_keeps ..) rfl
    exact Keeps.upd h2
  have hend := (((h3.step (noteAll_keeps s3) rfl).step (advanceRuns_keeps _) rfl).step (advanceBight_keeps _) rfl).step
    (collPumpAll_keeps _) rfl
  have hlink : (_, _, _) = (s0.port.linkUp, s0.port.linkDowns, s0.port.flrAt) := hend.same .link rfl
  rw [Prod.mk.injEq] at hlink
  exact hlink.1

/-- The state in which REFCLK has failed, before any link is told lost. -/
def refclkLost (s : State) : State :=
  raiseCause { s with pins := { s.pins with refclkOk := false }, tb := { s.tb with holdover := true } } irqTimebase

/-- The links told lost after their lanes went dark. -/
def refclkLinks (s : State) : State :=
  ((List.range 24).filter (linkUp (refclkLost s))).foldl (fun t k => linkLost t k causeLos none) (lanesDark (refclkLost s))

theorem execRefclkFail_eq {s : State} (hr : s.power.rails = true) (hp : s.pins.refclkOk = true) :
    execRefclkFail s = .next (portDown (refclkLinks s)) := by
  unfold execRefclkFail
  rw [if_neg (by simp [hr, hp])]
  rfl

theorem refclkLinks_clock (s : State) : clockOf (refclkLinks s) = (s.tb.running, s.tb.now, true) := by
  unfold refclkLinks
  refine foldl_keeps (fun u => clockOf u = (s.tb.running, s.tb.now, true)) _ _ _ ?_ (fun u k hu => (linkLost_clock u k _ _).trans hu)
  exact ((lanesDark_keeps _).clock rfl).trans ((raiseCause_keeps ..).clock rfl)

theorem refclkLinks_pins (s : State) : (refclkLinks s).pins = { s.pins with refclkOk := false } := by
  unfold refclkLinks
  refine foldl_keeps (fun u => u.pins = { s.pins with refclkOk := false }) _ _ _ ?_
    (fun u k hu => ((linkLost_keeps u k _ _).same .pins rfl).trans hu)
  exact ((lanesDark_keeps _).same .pins rfl).trans ((raiseCause_keeps ..).same .pins rfl)

/-- Every link that was UP is DOWN once all are told lost. -/
theorem refclkLinks_down {s : State} {k : Nat} (h : linkUp s k = true) : (linkGet (refclkLinks s) k).state = .down := by
  have hup : (linkGet (refclkLost s) k).state = .up :=
    (congrArg Link.state (linkGet_congr ((raiseCause_keeps ..).same .net rfl) k)).trans (up_of_linkUp h)
  have hdark : (linkGet (lanesDark (refclkLost s)) k).state = .down := by
    rw [lanesDark_eq]
    exact laneDark_foldl (List.mem_range.2 (lt_of_linkUp h)) hup
  exact ((DownStays.refl _).foldl (fun u k => linkLost_downStays u k causeLos none)).down k hdark

theorem refclkFail_answers {s : State} (hr : s.power.rails = true) (hp : s.pins.refclkOk = true) : Answers .refclkFail s (fun t =>
    t.pins = { s.pins with refclkOk := false } ∧ t.tb.holdover = true ∧ t.tb.running = s.tb.running ∧ t.tb.now = s.tb.now ∧
    t.port.linkUp = false ∧ (∀ k : Nat, linkUp s k = true → (linkGet t k).state = .down)) := by
  have hclock := ((portDown_keeps (refclkLinks s)).clock rfl).trans (refclkLinks_clock s)
  rw [clockOf, Prod.mk.injEq, Prod.mk.injEq] at hclock
  obtain ⟨hrun, hnow, hhold⟩ := hclock
  exact ⟨_, execRefclkFail_eq hr hp, ((portDown_keeps _).same .pins rfl).trans (refclkLinks_pins s), hhold, hrun, hnow,
    portDown_linkUp _, fun k hk => (portDown_downStays _).down k (refclkLinks_down hk)⟩

/-- Settles O55, event by event. -/
theorem timebaseSync : Obligations.TimebaseSync := by
  intro s
  refine ⟨fun p k hroot hrun hp hk => syncPeriod_answers hroot hrun hp hk,
    fun hroot hrun hp => syncPeriod_answers_lost hroot hrun hp, fun link f t2 t3 hup ht hg => syncReq_answers t2 t3 hup ht hg,
    ?_, fun hrun hu hd => tbCopyReload_answers hrun hu hd, fun h => execTbCopyReload_idle h,
    fun hr hp => refclkFail_answers hr hp⟩
  intro link f t4 t1 hup ht hg hp hroot x
  obtain ⟨t, hexec, hsync, honly⟩ := syncRsp_synced t4 hup ht hg hp hroot
  exact ⟨t, hexec, hsync.offset, hsync.pending, hsync.good, hsync.locks, hsync.waits, honly⟩

end Sys2Proof.Machine
end

section
/-! SUPPORT. The boot flash: what the boot log and a firmware update write, and what they leave (R374, R384). -/

set_option Elab.async false

namespace Sys2Proof.Machine

open Sys2Proof

/-! ### Sparse maps built from lists of bytes -/

theorem mapFind_append {V : Type} (m n : SMap V) (k : Nat) : mapFind (m ++ n) k = (mapFind m k).or (mapFind n k) := by
  induction m with
  | nil => rfl
  | cons p m ih =>
    rw [List.cons_append, mapFind, mapFind]
    split
    · rfl
    · exact ih

theorem mapFind_eq_none {V : Type} {m : SMap V} {k : Nat} (h : ∀ p ∈ m, p.1 ≠ k) : mapFind m k = none := by
  cases hf : mapFind m k with
  | none => rfl
  | some v => exact absurd rfl (h _ (mem_of_mapFind hf))

/-- The entries whose keys pass a test. -/
theorem mapFind_filter_key {V : Type} (m : SMap V) (q : Nat → Bool) (k : Nat) :
    mapFind (m.filter (fun p => q p.1)) k = if q k then mapFind m k else none := by
  induction m with
  | nil => simp [mapFind]
  | cons p m ih =>
    by_cases hp : p.1 = k
    · subst hp
      by_cases hq : q p.1 = true
      · simp [hq, mapFind]
      · simpa [hq] using ih
    · by_cases hq : q p.1 = true
      · simpa [hq, mapFind, hp] using ih
      · simpa [hq, mapFind, hp] using ih

/-- Bytes written one after another leave what lies below them. -/
theorem mapGet_foldl_zipIdx_below {V : Type} [DecidableEq V] (d : V) (bs : List V) (b : Nat) {n a : Nat} (m : SMap V) (ha : a < b + n) :
    mapGet d ((bs.zipIdx n).foldl (fun m p => mapSet d m (b + p.2) p.1) m) a = mapGet d m a := by
  induction bs generalizing n m with
  | nil => rfl
  | cons c bs ih =>
    rw [List.zipIdx_cons, List.foldl_cons, ih _ (by omega), mapGet_mapSet_ne d m _ _ c (by omega)]

/-- Bytes written one after another are read back. -/
theorem mapGet_foldl_zipIdx {V : Type} [DecidableEq V] (d : V) (bs : List V) (b n : Nat) {i : Nat} (m : SMap V) (hi : i < bs.length) :
    mapGet d ((bs.zipIdx n).foldl (fun m p => mapSet d m (b + p.2) p.1) m) (b + n + i) = bs.getD i d := by
  induction bs generalizing n i m with
  | nil => cases hi
  | cons c bs ih =>
    rw [List.zipIdx_cons, List.foldl_cons]
    cases i with
    | zero => rw [mapGet_foldl_zipIdx_below d bs b _ (by omega), Nat.add_zero, mapGet_mapSet_self, List.getD_cons_zero]
    | succ i =>
      have hplace : b + n + (i + 1) = b + (n + 1) + i := by omega
      rw [hplace, ih (n + 1) _ (Nat.lt_of_succ_lt_succ hi), List.getD_cons_succ]

/-- Bytes kept at consecutive keys, those that equal the default left out. -/
def bytesAt {V : Type} [DecidableEq V] (d : V) (b n : Nat) (bs : List V) : SMap V :=
  ((bs.zipIdx n).filter (fun p => p.1 != d)).map (fun p => (b + p.2, p.1))

theorem bytesAt_keys {V : Type} [DecidableEq V] {d : V} {b n : Nat} {bs : List V} {p : Nat × V} (hp : p ∈ bytesAt d b n bs) :
    b + n ≤ p.1 ∧ p.1 < b + n + bs.length := by
  obtain ⟨q, hq, rfl⟩ := List.mem_map.1 hp
  have := (zipIdx_keys bs n).2 q (List.mem_of_mem_filter hq)
  dsimp only
  omega

theorem bytesAt_cons_default {V : Type} [DecidableEq V] (d : V) (b n : Nat) (bs : List V) :
    bytesAt d b n (d :: bs) = bytesAt d b (n + 1) bs := by
  unfold bytesAt
  rw [List.zipIdx_cons, List.filter_cons_of_neg (by simp)]

theorem bytesAt_cons {V : Type} [DecidableEq V] {d c : V} (h : c ≠ d) (b n : Nat) (bs : List V) :
    bytesAt d b n (c :: bs) = (b + n, c) :: bytesAt d b (n + 1) bs := by
  unfold bytesAt
  rw [List.zipIdx_cons, List.filter_cons_of_pos (by simpa using h), List.map_cons]

/-- Every byte is read back, and the default past the last. -/
theorem mapGet_bytesAt {V : Type} [DecidableEq V] (d : V) (b n : Nat) (bs : List V) (i : Nat) :
    mapGet d (bytesAt d b n bs) (b + n + i) = bs.getD i d := by
  induction bs generalizing n i with
  | nil => rfl
  | cons c bs ih =>
    cases i with
    | zero =>
      by_cases hc : c = d
      · subst hc
        rw [bytesAt_cons_default, mapGet, mapFind_eq_none]
        · rfl
        · intro p hp
          have := bytesAt_keys hp
          omega
      · rw [bytesAt_cons hc, mapGet, mapFind, if_pos (Nat.add_zero _).symm]
        rfl
    | succ i =>
      have hplace : b + n + (i + 1) = b + (n + 1) + i := by omega
      rw [hplace, List.getD_cons_succ, ← ih (n + 1) i]
      by_cases hc : c = d
      · rw [hc, bytesAt_cons_default]
      · rw [bytesAt_cons hc, mapGet, mapFind, if_neg (by omega), mapGet]

/-! ### The boot log (R384) -/

/-- The bytes of a log record. -/
def logBytes (s : State) (code slot d0 d1 : Nat) : List Byte :=
  bytesOf 4 s.boot.count.toNat ++ bytesOf 2 code ++ bytesOf 1 slot ++ bytesOf 1 0 ++ bytesOf 8 s.tb.now.toNat ++ bytesOf 8 d0 ++ bytesOf 8 d1

theorem logBytes_length (s : State) (code slot d0 d1 : Nat) : (logBytes s code slot d0 d1).length = 32 := by
  simp [logBytes, bytesOf_length]

/-- A log record changes the boot status in the next index only. -/
theorem logWrite_boot (s : State) (code slot d0 d1 : Nat) :
    (logWrite s code slot d0 d1).boot = { s.boot with logNext := (s.boot.logNext + 1) % logRecords } := by
  unfold logWrite
  dsimp only
  split <;> rfl

/-- The flash before a record's bytes are written: the next sector is erased first. -/
def logErased (s : State) : State := if s.boot.logNext % 2048 = 0 then eraseFlash s (logBase + 32 * s.boot.logNext) 65536 else s

theorem logWrite_flash (s : State) (code slot d0 d1 : Nat) : (logWrite s code slot d0 d1).flash =
    ((logBytes s code slot d0 d1).zipIdx).foldl (fun m p => mapSet 0xFF m (logBase + 32 * s.boot.logNext + p.2) p.1) (logErased s).flash := by
  unfold logWrite logErased
  dsimp only
  split <;> rfl

theorem flashByte_logWrite (s : State) (code slot d0 d1 : Nat) {i : Nat} (hi : i < 32) :
    flashByte (logWrite s code slot d0 d1) (logBase + 32 * s.boot.logNext + i) = (logBytes s code slot d0 d1).getD i 0xFF := by
  rw [flashByte, logWrite_flash]
  exact mapGet_foldl_zipIdx 0xFF _ (logBase + 32 * s.boot.logNext) 0 _ (by rw [logBytes_length]; exact hi)

/-- The log lies above the slots, which a record leaves. -/
theorem flashByte_logWrite_below (s : State) (code slot d0 d1 : Nat) {a : Nat} (ha : a < logBase) :
    flashByte (logWrite s code slot d0 d1) a = flashByte s a := by
  have herased : mapGet 0xFF (logErased s).flash a = flashByte s a := by
    unfold logErased
    split
    · have hkey := mapFind_filter_key s.flash (fun k => k < logBase + 32 * s.boot.logNext || logBase + 32 * s.boot.logNext + 65536 ≤ k) a
      rw [if_pos (by rw [decide_eq_true (by omega : a < logBase + 32 * s.boot.logNext), Bool.true_or])] at hkey
      exact congrArg (Option.getD · 0xFF) hkey
    · rfl
  rw [flashByte, logWrite_flash]
  exact (mapGet_foldl_zipIdx_below 0xFF _ _ _ (by omega)).trans herased

/-- The bytes of a record before its slot: BOOT_COUNT and the code. -/
theorem logBytes_head (s : State) (code slot d0 d1 : Nat) {i : Nat} (hi : i < 6) :
    (logBytes s code slot d0 d1).getD i 0xFF = (bytesOf 4 s.boot.count.toNat ++ bytesOf 2 code).getD i 0xFF := by
  unfold logBytes
  rw [List.append_assoc, List.append_assoc, List.append_assoc, List.append_assoc]
  exact List.getD_append _ _ _ _ (by simpa [bytesOf_length] using hi)

/-! ### Firmware update (R374) -/

/-- A slot replaced by an image: the image, erased flash behind it, and nothing changed elsewhere. -/
theorem mapGet_replaced (m : SMap Byte) (b n : Nat) {image : List Byte} (hl : image.length ≤ n) (a : Nat) :
    mapGet 0xFF (m.filter (fun p => p.1 < b) ++ bytesAt 0xFF b 0 image ++ m.filter (fun p => b + n ≤ p.1)) a =
      if b ≤ a ∧ a < b + n then image.getD (a - b) 0xFF else mapGet 0xFF m a := by
  have hlow := mapFind_filter_key m (fun k => k < b) a
  have hhigh := mapFind_filter_key m (fun k => b + n ≤ k) a
  rw [mapGet, mapFind_append, mapFind_append, hlow, hhigh]
  by_cases ha : b ≤ a ∧ a < b + n
  · have hget := mapGet_bytesAt 0xFF b 0 image (a - b)
    rw [show b + 0 + (a - b) = a by omega] at hget
    rw [if_neg (by rw [decide_eq_true_eq]; omega), if_neg (by rw [decide_eq_true_eq]; omega), if_pos ha, Option.none_or, Option.or_none]
    exact hget
  · have hout : mapFind (bytesAt 0xFF b 0 image) a = none := mapFind_eq_none (fun p hp => by
      have := bytesAt_keys hp
      omega)
    rw [if_neg ha, hout, Option.or_none]
    by_cases hb : a < b
    · rw [if_pos (decide_eq_true hb), if_neg (by rw [decide_eq_true_eq]; omega), Option.or_none]
      rfl
    · rw [if_neg (by rw [decide_eq_true_eq]; omega), if_pos (decide_eq_true (by omega)), Option.none_or]
      rfl

theorem updateSlot_free (s : State) : updateSlot s < 2 ∧ updateSlot s ≠ s.boot.slot := by
  unfold updateSlot
  split
  · omega
  · split
    · omega
    · have := Nat.mod_lt (Config.freeWord s.free).toNat (show 2 > 0 by decide)
      omega

/-- Bytes of a slot. -/
def slotSpan : Nat := 0x2000000

/-- The state with an image in the slot not booted. -/
def slotUpdated (s : State) (image : List Byte) : State :=
  { drawn s with
    flash := s.flash.filter (fun p => p.1 < slotBase (updateSlot s)) ++ bytesAt 0xFF (slotBase (updateSlot s)) 0 image ++
      s.flash.filter (fun p => slotBase (updateSlot s) + slotSpan ≤ p.1) }

theorem execPldmFirmwareUpdate_eq {s : State} {image : List Byte} (hst : s.power.standby = true) (hl : image.length ≤ slotSpan) :
    execPldmFirmwareUpdate image s = .next (slotUpdated s image) := by
  unfold execPldmFirmwareUpdate
  rw [if_neg]
  · rfl
  · rw [hst]
    exact fun h => absurd (of_decide_eq_true h) (Nat.not_lt.2 hl)

theorem flashByte_slotUpdated {s : State} {image : List Byte} (hl : image.length ≤ slotSpan) (a : Nat) :
    flashByte (slotUpdated s image) a =
      if slotBase (updateSlot s) ≤ a ∧ a < slotBase (updateSlot s) + slotSpan then image.getD (a - slotBase (updateSlot s)) 0xFF
      else flashByte s a := mapGet_replaced s.flash _ _ hl a

theorem pldmFirmwareUpdate_answers {s : State} {image : List Byte} (hst : s.power.standby = true) (hl : image.length ≤ slotSpan) :
    Answers (.pldmFirmwareUpdate image) s (fun t => ∃ slot : Nat, slot < 2 ∧ slot ≠ s.boot.slot ∧
      (∀ i : Nat, i < image.length → flashByte t (slotBase slot + i) = image.getD i 0xFF) ∧
      (∀ i : Nat, image.length ≤ i → i < slotSpan → flashByte t (slotBase slot + i) = 0xFF) ∧
      (∀ a : Nat, ¬ (slotBase slot ≤ a ∧ a < slotBase slot + slotSpan) → flashByte t a = flashByte s a) ∧
      OnlyIn [.free, .flash] s t) := by
  obtain ⟨hslot, hfree⟩ := updateSlot_free s
  have hexec := execPldmFirmwareUpdate_eq hst hl
  have hin : ∀ i : Nat, i < slotSpan → flashByte (slotUpdated s image) (slotBase (updateSlot s) + i) = image.getD i 0xFF :=
    fun i hi => by
      rw [flashByte_slotUpdated hl, if_pos ⟨Nat.le_add_right .., Nat.add_lt_add_left hi _⟩, Nat.add_sub_cancel_left]
  exact ⟨_, hexec, updateSlot s, hslot, hfree, fun i hi => hin i (Nat.lt_of_lt_of_le hi hl),
    fun i hi hn => (hin i hn).trans (List.getD_eq_default _ _ hi), fun a ha => (flashByte_slotUpdated hl a).trans (if_neg ha),
    (execPldmFirmwareUpdate_keeps image s _ hexec).only⟩

/-! ### The end of the LINKS phase (R382) -/

/-- The module READY, before the log says so. -/
def linksReady (s : State) : State := { s with boot := { s.boot with phase := 7 } }

/-- The log record of a boot's end. -/
def bootDone (s : State) : State :=
  logWrite s logBootDone (logSlot s) (slotInfo s s.boot.slot).generation.toNat (bootStatus s)

theorem execLinksPhaseEnd_eq {s : State} (hp : s.boot.phase = 6) (hl : lanesLive s = true)
    (hend : linksSettled s = true ∨ s.boot.linksAt + 600000000 ≤ s.clk) :
    execLinksPhaseEnd s = .next (noteAll (bootDone (linksReady s))) := by
  have hgo : (linksSettled s || decide (s.boot.linksAt + 600000000 ≤ s.clk)) = true := by
    rw [Bool.or_eq_true, decide_eq_true_eq]
    exact hend
  unfold execLinksPhaseEnd
  rw [if_neg]
  · rfl
  · rw [hp, hl, hgo]
    decide

/-- A record's first bytes: BOOT_COUNT and the code. -/
theorem flashByte_bootDone (s : State) {i : Nat} (hi : i < 6) : flashByte (bootDone s) (logBase + 32 * s.boot.logNext + i) =
    (bytesOf 4 s.boot.count.toNat ++ bytesOf 2 logBootDone).getD i 0xFF :=
  (flashByte_logWrite _ _ _ _ _ (Nat.lt_trans hi (by decide))).trans (logBytes_head _ _ _ _ _ hi)

theorem flashByte_noteAll (s : State) (a : Nat) : flashByte (noteAll s) a = flashByte s a := by
  rw [flashByte, flashByte, (noteAll_keeps s).same .flash rfl]

theorem linksPhaseEnd_answers {s : State} (hp : s.boot.phase = 6) (hl : lanesLive s = true)
    (hend : linksSettled s = true ∨ s.boot.linksAt + 600000000 ≤ s.clk) : Answers .linksPhaseEnd s (fun t =>
      t.boot = { s.boot with phase := 7, logNext := (s.boot.logNext + 1) % logRecords } ∧
      (∀ i : Nat, i < 4 → flashByte t (logBase + 32 * s.boot.logNext + i) = (bytesOf 4 s.boot.count.toNat).getD i 0) ∧
      flashByte t (logBase + 32 * s.boot.logNext + 4) = 0x01 ∧ flashByte t (logBase + 32 * s.boot.logNext + 5) = 0x00 ∧
      (∀ a : Nat, a < logBase → flashByte t a = flashByte s a) ∧ t.cfg = s.cfg ∧ t.mem = s.mem) := by
  have hexec := execLinksPhaseEnd_eq hp hl hend
  have hkeep := execLinksPhaseEnd_keeps s _ hexec
  have hrec : ∀ i : Nat, i < 6 → flashByte (noteAll (bootDone (linksReady s))) (logBase + 32 * s.boot.logNext + i) =
      (bytesOf 4 s.boot.count.toNat ++ bytesOf 2 logBootDone).getD i 0xFF := fun i hi =>
    (flashByte_noteAll ..).trans (flashByte_bootDone (linksReady s) hi)
  have hlen : (bytesOf 4 s.boot.count.toNat).length = 4 := bytesOf_length ..
  refine ⟨_, hexec, ((noteAll_keeps _).same .boot rfl).trans (logWrite_boot ..), fun i hi => ?_, ?_, ?_, fun a ha => ?_,
    hkeep.same .cfg rfl, hkeep.same .mem rfl⟩
  · rw [hrec i (by omega), List.getD_append _ _ _ _ (by omega), List.getD_eq_getElem _ _ (by omega), List.getD_eq_getElem _ _ (by omega)]
  · rw [hrec 4 (by decide), List.getD_append_right _ _ _ _ (by omega), hlen]
    rfl
  · rw [hrec 5 (by decide), List.getD_append_right _ _ _ _ (by omega), hlen]
    rfl
  · exact (flashByte_noteAll ..).trans (flashByte_logWrite_below (linksReady s) _ _ _ _ ha)

end Sys2Proof.Machine
end

section
/-! SUPPORT. The boot: what a configuration applied at boot leaves, safe mode, the slots tried in turn, and the training of the
stacks (O60, R380 to R385). -/

set_option Elab.async false

namespace Sys2Proof.Machine

open Sys2Proof

/-! ### A configuration applied where none was (R381) -/

/-- The image defaults enable no link. -/
theorem linkEn_default : ∀ k < 24, flLinkEn.get [] k = 0 := by decide +kernel

theorem linkOn_unconfigured {s : State} (h : s.cfg.act = []) {k : Nat} (hk : k < 24) : linkOn s k = false := by
  have hen : actF s flLinkEn k = 0 := by rw [actF, h, linkEn_default k hk]
  rw [linkOn, hen]
  simp

theorem offLinks_unconfigured {s : State} (h : s.cfg.act = []) (m : SMap W32) : offLinks s m = [] := by
  refine List.filter_eq_nil_iff.2 (fun k hk => ?_)
  rw [linkOn_unconfigured h (List.mem_range.1 hk)]
  simp

/-- A module without a configuration closes no link and loses none: what a snapshot does to it. -/
theorem applySnapshot_unconfigured {s : State} (h : s.cfg.act = []) (m : SMap W32) : ∃ v : State,
    Keeps [.cfg, .mem, .tiers] s v ∧ v.cfg.act = m ∧
      applySnapshot s m = noteAll (changePmu (changeRoot (clearPeers (changeLines v []) []) []) []) := by
  have hclose : closeLinks s m = s := by
    rw [closeLinks, offLinks_unconfigured h]
    rfl
  have hlost : (offLinks s m).any (linkUp s) = false := by rw [offLinks_unconfigured h, List.any_nil]
  unfold applySnapshot
  rw [hclose, hlost, h]
  dsimp only
  rw [if_neg Bool.false_ne_true]
  have hbound : ∀ (u : State) (new : List (Nat × Nat)) (par slots : List Nat) (old : SMap W32) (ps : List (Nat × Nat)),
      Keeps [.mem, .tiers] u (zeroPages (resizePools (bindSlabs u new par slots) old) ps) := fun u new par slots old ps =>
    (((Keeps.refl _ u).step (bindSlabs_keeps ..) rfl).step (resizePools_keeps ..) rfl).step (zeroPages_keeps ..) rfl
  refine ⟨_, ?_, ?_, rfl⟩
  · exact (((Keeps.refl _ s).step (unbindSlabs_keeps ..) rfl).step (withAct_keeps ..) rfl).step (hbound ..) rfl
  · exact congrArg Config.act ((hbound ..).same .cfg rfl)

/-- No line has work. -/
def NoOps (s : State) : Prop := ∀ n : Nat, (lineGet s n).ops = []

theorem NoOps.congr {s t : State} (h : NoOps s) (hl : t.lines = s.lines) : NoOps t := fun n => by rw [lineGet_congr hl, h n]

theorem noteLine_noOps {s : State} (h : NoOps s) (n : Nat) : NoOps (noteLine s n) := by
  intro m
  by_cases hm : m = n
  · subst hm
    obtain ⟨seen, since, ready, heq⟩ := noteLine_line s m
    rw [heq]
    exact h m
  · rw [noteLine_line_ne s n m hm, h m]

theorem noteAll_noOps {s : State} (h : NoOps s) : NoOps (noteAll s) :=
  foldl_keeps NoOps noteLine _ _ h (fun _ n hu => noteLine_noOps hu n)

theorem lineSet_noOps {s : State} (h : NoOps s) (n : Nat) {l : Line} (hl : l.ops = []) : NoOps (lineSet s n l) := by
  intro m
  by_cases hm : m = n
  · rw [hm, lineGet_lineSet_self, hl]
  · rw [lineGet_lineSet_ne _ _ _ _ hm, h m]

theorem changeLines_noOps {s : State} (h : NoOps s) (old : SMap W32) : NoOps (changeLines s old) := by
  unfold changeLines
  refine foldl_keeps NoOps _ _ _ (foldl_keeps NoOps _ _ _ h (fun u n hu => ?_)) (fun u n hu => ?_)
  · exact noteLine_noOps (lineSet_noOps hu n rfl) n
  · exact noteLine_noOps (lineSet_noOps hu n rfl) n

theorem changeRoot_clock (s : State) (old : SMap W32) : clockOf (changeRoot s old) = clockOf s := by
  unfold changeRoot
  dsimp only
  split
  · rfl
  · split
    · rw [syncPath_clock, clockOf, (setLocked_false s).1]
      rfl
    · rfl

/-- Without a line enabled before or after, the lines stay as they are. -/
theorem changeLines_idle {s : State} (h : enabledLines s.cfg.act = []) : changeLines s [] = s := by
  have hold : enabledLines [] = [] := rfl
  unfold changeLines
  rw [hold, h]
  rfl

theorem noteAll_idle {s : State} (h : s.lines = []) : noteAll s = s := by
  unfold noteAll
  rw [h]
  rfl

/-- What a boot configuration leaves of a module: it alone is active and staged, no line has work, and the count runs on. -/
structure BootApplied (s : State) (m : SMap W32) (t : State) : Prop where
  act : t.cfg.act = m
  coil : t.cfg.coil = m
  belay : t.belay = Belay.reset
  hitches : t.hitches = []
  noOps : NoOps t
  lines : enabledLines m = [] → t.lines = []
  clock : clockOf t = clockOf s
  boot : t.boot = s.boot

/-- The module before a boot configuration: no configuration, fresh tiers, no line and no hitch. -/
def bootBare (s : State) : State :=
  freshPools { s with
    cfg := Config.reset
    tiers := Tiers.reset
    lines := []
    hitches := []
    mem := { s.mem with eye := [], eyeChafed := [] } }

theorem bootBare_keeps (s : State) : Keeps [.cfg, .tiers, .lines, .hitches, .mem] s (bootBare s) := by
  unfold bootBare
  refine Keeps.step ?_ (freshPools_keeps ..) rfl
  exact Keeps.updMem (Keeps.refl _ _)

theorem bootBare_cfg (s : State) : (bootBare s).cfg = Config.reset := (freshPools_keeps _).same .cfg rfl

theorem bootBare_lines (s : State) : (bootBare s).lines = [] := (freshPools_keeps _).same .lines rfl

theorem bootBare_hitches (s : State) : (bootBare s).hitches = [] := (freshPools_keeps _).same .hitches rfl

theorem applyBoot_eq (s : State) (m : SMap W32) : applyBoot s m =
    { applySnapshot (bootBare s) m with
      cfg := { (applySnapshot (bootBare s) m).cfg with coil := m, writes := 0 }, belay := Belay.reset } := rfl

theorem applyBoot_applied (s : State) (m : SMap W32) : BootApplied s m (applyBoot s m) := by
  obtain ⟨v, hv, hact, heq⟩ := applySnapshot_unconfigured (congrArg Config.act (bootBare_cfg s)) m
  have hlines : v.lines = [] := (hv.same .lines rfl).trans (bootBare_lines s)
  have hchanged : Keeps [.port, .lines, .net, .tb, .regs, .pmu, .strands] v (applySnapshot (bootBare s) m) := by
    rw [heq]
    exact (((((Keeps.refl _ v).step (changeLines_keeps ..) rfl).step (clearPeers_keeps ..) rfl).step (changeRoot_keeps ..) rfl).step
      (changePmu_keeps ..) rfl).step (noteAll_keeps _) rfl
  have hrest : ∀ u : State, (changePmu (changeRoot (clearPeers u []) []) []).lines = u.lines := fun u =>
    (((Keeps.refl [.net, .tb, .regs, .port, .pmu, .strands] u).step (clearPeers_keeps ..) rfl).step (changeRoot_keeps ..) rfl).step
      (changePmu_keeps ..) rfl |>.same .lines rfl
  rw [applyBoot_eq]
  refine ⟨(congrArg Config.act (hchanged.same .cfg rfl)).trans hact, rfl, rfl,
    (hchanged.same .hitches rfl).trans ((hv.same .hitches rfl).trans (bootBare_hitches s)), ?_, fun hnone => ?_, ?_,
    (applyBoot_keeps s m).same .boot rfl⟩
  · have hbare : NoOps v := fun n => by rw [lineGet, hlines]; rfl
    have hops : NoOps (applySnapshot (bootBare s) m) := by
      rw [heq]
      exact noteAll_noOps ((changeLines_noOps hbare []).congr (hrest _))
    exact hops.congr rfl
  · have hidle := hrest v
    rw [hlines] at hidle
    change (applySnapshot (bootBare s) m).lines = []
    rw [heq, changeLines_idle (by rw [hact, hnone]), noteAll_idle hidle, hidle]
  · change clockOf (applySnapshot (bootBare s) m) = clockOf s
    rw [heq]
    calc clockOf (noteAll (changePmu (changeRoot (clearPeers (changeLines v []) []) []) []))
        = clockOf (changePmu (changeRoot (clearPeers (changeLines v []) []) []) []) := (noteAll_keeps _).clock rfl
      _ = clockOf (changeRoot (clearPeers (changeLines v []) []) []) := (changePmu_keeps ..).clock rfl
      _ = clockOf (clearPeers (changeLines v []) []) := changeRoot_clock ..
      _ = clockOf (changeLines v []) := (clearPeers_keeps ..).clock rfl
      _ = clockOf v := (changeLines_keeps ..).clock rfl
      _ = clockOf (bootBare s) := hv.clock rfl
      _ = clockOf s := (bootBare_keeps s).clock rfl

/-! ### Safe mode (R385) -/

/-- Boot status in safe mode. -/
def safeBoot (b : Boot) : Boot :=
  { b with safe := true, forceSafe := false, devId := 0, idFromPins := false, personality := 0, style := 0 }

theorem enabledLines_safeAct : enabledLines safeAct = [] := by decide +kernel

theorem enterSafe_already {s : State} (h : s.boot.safe = true) (reason : Nat) : enterSafe s reason = s := by
  unfold enterSafe
  rw [if_pos h]

/-- Safe mode entered: the ROM configuration is applied, with no link's entry but its wire. -/
theorem enterSafe_applied {s : State} (h : s.boot.safe = false) (reason : Nat) : ∃ u : State, clockOf u = clockOf s ∧
    u.boot = safeBoot { s.boot with logNext := (s.boot.logNext + 1) % logRecords } ∧ BootApplied u safeAct (enterSafe s reason) := by
  have hlog := logWrite_boot s logSafe 0xFF reason 0
  have hclock := (logWrite_keeps s logSafe 0xFF reason 0).clock rfl
  unfold enterSafe
  rw [if_neg (by simp [h])]
  dsimp only
  refine ⟨_, ?_, ?_, applyBoot_applied ..⟩
  · exact hclock
  · exact congrArg safeBoot hlog

/-- What every entry into safe mode shows. -/
structure InSafeMode (t : State) : Prop where
  safe : t.boot.safe = true
  forceSafe : t.boot.forceSafe = false
  devId : t.boot.devId = 0
  personality : t.boot.personality = 0
  style : t.boot.style = 0
  act : t.cfg.act = safeAct
  coil : t.cfg.coil = safeAct
  belay : t.belay = Belay.reset
  lines : t.lines = []

theorem enterSafe_inSafeMode {s : State} (h : s.boot.safe = false) (reason : Nat) : InSafeMode (enterSafe s reason) := by
  obtain ⟨u, -, hu, happlied⟩ := enterSafe_applied h reason
  have hboot := happlied.boot.trans hu
  exact ⟨by rw [hboot]; rfl, by rw [hboot]; rfl, by rw [hboot]; rfl, by rw [hboot]; rfl, by rw [hboot]; rfl, happlied.act,
    happlied.coil, happlied.belay, happlied.lines enabledLines_safeAct⟩

/-- Safe mode keeps what the slots and the training showed. -/
theorem enterSafe_boot (s : State) (reason : Nat) : (enterSafe s reason).boot.safe = true ∧
    (enterSafe s reason).boot.slots = s.boot.slots ∧ (enterSafe s reason).boot.trainRetry = s.boot.trainRetry ∧
    (enterSafe s reason).boot.kernLost = s.boot.kernLost ∧ (enterSafe s reason).boot.mantleLost = s.boot.mantleLost := by
  cases h : s.boot.safe with
  | true =>
    rw [enterSafe_already h]
    exact ⟨h, rfl, rfl, rfl, rfl⟩
  | false =>
    obtain ⟨u, -, hu, happlied⟩ := enterSafe_applied h reason
    rw [happlied.boot.trans hu]
    exact ⟨rfl, rfl, rfl, rfl, rfl⟩

/-! ### What the boot's phases leave (R37, R381) -/

/-- Boot goes on from `s` to `t`: the boot's count, the module ID and the timebase are the same. -/
structure BootRuns (s t : State) : Prop where
  count : t.boot.count = s.boot.count
  modId : t.boot.modId = s.boot.modId
  clock : clockOf t = clockOf s

theorem BootRuns.refl (s : State) : BootRuns s s := ⟨rfl, rfl, rfl⟩

theorem BootRuns.trans {s t u : State} (h1 : BootRuns s t) (h2 : BootRuns t u) : BootRuns s u :=
  ⟨h2.count.trans h1.count, h2.modId.trans h1.modId, h2.clock.trans h1.clock⟩

theorem BootApplied.runs {s t : State} {m : SMap W32} (h : BootApplied s m t) : BootRuns s t :=
  ⟨congrArg Boot.count h.boot, congrArg Boot.modId h.boot, h.clock⟩

theorem logWrite_runs (s : State) (code slot d0 d1 : Nat) : BootRuns s (logWrite s code slot d0 d1) :=
  ⟨by rw [logWrite_boot], by rw [logWrite_boot], (logWrite_keeps ..).clock rfl⟩

/-- Boot status written, but for the count and the module ID. -/
theorem BootRuns.setBoot {s t : State} (h : BootRuns s t) {b : Boot} (hc : b.count = t.boot.count) (hm : b.modId = t.boot.modId) :
    BootRuns s { t with boot := b } := ⟨hc.trans h.count, hm.trans h.modId, h.clock⟩

theorem examine_runs (s : State) (k modId : Nat) : BootRuns s (examine s k modId) := by
  unfold examine
  dsimp only
  split
  · exact (BootRuns.refl s).setBoot rfl rfl
  · refine BootRuns.trans ?_ (logWrite_runs ..)
    exact (BootRuns.refl s).setBoot rfl rfl

theorem examine_safe (s : State) (k modId : Nat) : (examine s k modId).boot.safe = s.boot.safe := by
  unfold examine
  dsimp only
  split
  · rfl
  · rw [logWrite_boot]

theorem enterSafe_runs (s : State) (reason : Nat) : BootRuns s (enterSafe s reason) := by
  cases h : s.boot.safe with
  | true =>
    rw [enterSafe_already h]
    exact BootRuns.refl s
  | false =>
    obtain ⟨u, hclock, hu, happlied⟩ := enterSafe_applied h reason
    exact BootRuns.trans ⟨by rw [hu]; rfl, by rw [hu]; rfl, hclock⟩ happlied.runs

/-- The log records of a slot's forced enable bits and of its lowered PERSONALITY (R23, R368). -/
def belayLogged (s : State) (k : Nat) (forced : List Nat) (lower : Bool) : State :=
  let s1 := forced.foldl (fun t b => logWrite t logForced k b 1) s
  if lower then logWrite s1 logPersonality k 0 0 else s1

theorem logged_runs {s t : State} (h : BootRuns s t ∧ t.boot.safe = s.boot.safe) (code slot d0 d1 : Nat) :
    BootRuns s (logWrite t code slot d0 d1) ∧ (logWrite t code slot d0 d1).boot.safe = s.boot.safe :=
  ⟨h.1.trans (logWrite_runs ..), by rw [logWrite_boot]; exact h.2⟩

theorem belayLogged_runs (s : State) (k : Nat) (forced : List Nat) (lower : Bool) :
    BootRuns s (belayLogged s k forced lower) ∧ (belayLogged s k forced lower).boot.safe = s.boot.safe := by
  have hforced := foldl_keeps (fun t => BootRuns s t ∧ t.boot.safe = s.boot.safe) (fun t b => logWrite t logForced k b 1) forced s
    ⟨BootRuns.refl s, rfl⟩ (fun t b h => logged_runs h ..)
  unfold belayLogged
  dsimp only
  split
  · exact logged_runs hforced ..
  · exact hforced

/-- The boot belay of a slot fails and leaves the module without its configuration, or applies it under the slot's number. -/
theorem bootBelay_cases (s : State) (k modId : Nat) :
    ((bootBelay s k modId).2 = false ∧ BootRuns s (bootBelay s k modId).1) ∨
    ∃ (u : State) (m : SMap W32), BootRuns s u ∧ u.boot.safe = s.boot.safe ∧ u.boot.slot = k ∧
      BootApplied u m (bootBelay s k modId).1 := by
  rw [bootBelay]
  split
  · exact Or.inl ⟨rfl, BootRuns.refl s⟩
  · rename_i c hc
    have hlogged := belayLogged_runs s k (forcedBits s c.act) (c.personality = 2 && !capBit s 4)
    extract_lets forced m lower s1 s2 before b
    obtain ⟨hruns, hsafe⟩ : BootRuns s s2 ∧ s2.boot.safe = s.boot.safe := hlogged
    clear_value s2
    have hset : BootRuns s { s2 with boot := b } := hruns.setBoot rfl rfl
    have hslot : b.slot = k := rfl
    split
    · refine Or.inl ⟨rfl, BootRuns.trans ?_ (logWrite_runs ..)⟩
      exact hruns.setBoot rfl rfl
    · refine Or.inr ⟨{ s2 with boot := b }, m, hset, hsafe, hslot, ?_⟩
      exact applyBoot_applied { s2 with boot := b } m

theorem bootBelay_runs (s : State) (k modId : Nat) : BootRuns s (bootBelay s k modId).1 := by
  rcases bootBelay_cases s k modId with ⟨-, h⟩ | ⟨u, m, hu, -, -, happlied⟩
  · exact h
  · exact hu.trans happlied.runs

/-- A slot that booted, with the record of a link retrain for another PERSONALITY (R383). -/
def slotBooted (s : State) (k first : Nat) : State :=
  match slotPersonality s first with
  | some p => if k != first && p != s.boot.personality then logWrite s logRetrained k p s.boot.personality else s
  | none => s

theorem slotBooted_first (s : State) (k : Nat) : slotBooted s k k = s := by
  unfold slotBooted
  split
  · rw [if_neg (by simp)]
  · rfl

theorem slotBooted_runs (s : State) (k first : Nat) : BootRuns s (slotBooted s k first) := by
  unfold slotBooted
  split
  · split
    · exact logWrite_runs ..
    · exact BootRuns.refl s
  · exact BootRuns.refl s

/-- FALLBACK of a slot that booted. -/
def fallbackSet (s : State) (k first : Nat) : State := { s with boot := { s.boot with fallback := k != first } }

theorem tryBoot_cons (modId first k : Nat) (ks : List Nat) (s : State) : tryBoot modId first (k :: ks) s =
    if (slotInfo s k).cause != 0 then tryBoot modId first ks s
    else if (bootBelay s k modId).2 then slotBooted (fallbackSet (bootBelay s k modId).1 k first) k first
    else tryBoot modId first ks (bootBelay s k modId).1 := rfl

theorem tryBoot_runs (modId first : Nat) (ks : List Nat) (s : State) : BootRuns s (tryBoot modId first ks s) := by
  induction ks generalizing s with
  | nil => exact enterSafe_runs ..
  | cons k ks ih =>
    have hbelay := bootBelay_runs s k modId
    rw [tryBoot_cons]
    split
    · exact ih s
    · split
      · refine BootRuns.trans ?_ (slotBooted_runs ..)
        exact hbelay.setBoot rfl rfl
      · exact hbelay.trans (ih _)

/-- No slot of the order passed its checks: safe mode. -/
theorem tryBoot_none {modId first : Nat} {ks : List Nat} {s : State} (h : ∀ k ∈ ks, (slotInfo s k).cause ≠ 0) :
    tryBoot modId first ks s = enterSafe s safeNoSlot := by
  induction ks with
  | nil => rfl
  | cons k ks ih =>
    rw [tryBoot_cons, if_pos (by simpa using h k List.mem_cons_self)]
    exact ih (fun j hj => h j (List.mem_cons_of_mem k hj))

/-- The newest slot boots: FALLBACK is 0. -/
theorem tryBoot_first {modId k : Nat} {rest : List Nat} {s : State} (hc : (slotInfo s k).cause = 0)
    (hb : (bootBelay s k modId).2 = true) : tryBoot modId k (k :: rest) s = fallbackSet (bootBelay s k modId).1 k k := by
  rw [tryBoot_cons, if_neg (by simp [hc]), if_pos hb, slotBooted_first]

theorem slotOrder_mem {s : State} {k : Nat} (h : k ∈ slotOrder s) : k = 0 ∨ k = 1 := by
  unfold slotOrder at h
  have h := List.mem_of_mem_filter h
  split at h
  · simpa [or_comm] using h
  · simpa using h

/-- Both slots left unread (R385). -/
def slotsSkipped (s : State) : State :=
  { s with boot := { s.boot with slots := [{ SlotInfo.reset with cause := 0xFF }, { SlotInfo.reset with cause := 0xFF }] } }

theorem slotsSkipped_runs (s : State) : BootRuns s (slotsSkipped s) := ⟨rfl, rfl, rfl⟩

theorem bootSlots_forced {s : State} (modId : Nat) (h : s.boot.forceSafe = true) :
    bootSlots s modId = enterSafe (slotsSkipped s) safeForced := if_pos h

theorem bootSlots_examined {s x : State} {modId : Nat} (h : s.boot.forceSafe = false) (hx : examine (examine s 0 modId) 1 modId = x) :
    bootSlots s modId = tryBoot modId ((slotOrder x).headD 0) (slotOrder x) x := by
  subst hx
  unfold bootSlots
  rw [if_neg (by simp [h])]

theorem bothExamined_runs {s x : State} {modId : Nat} (hx : examine (examine s 0 modId) 1 modId = x) : BootRuns s x := by
  rw [← hx]
  exact (examine_runs s 0 modId).trans (examine_runs _ 1 modId)

theorem bothExamined_safe {s x : State} {modId : Nat} (hx : examine (examine s 0 modId) 1 modId = x) : x.boot.safe = s.boot.safe := by
  rw [← hx, examine_safe, examine_safe]

theorem bootSlots_runs (s : State) (modId : Nat) : BootRuns s (bootSlots s modId) := by
  cases hf : s.boot.forceSafe with
  | true =>
    rw [bootSlots_forced modId hf]
    exact (slotsSkipped_runs s).trans (enterSafe_runs ..)
  | false =>
    rw [bootSlots_examined hf rfl]
    exact (bothExamined_runs rfl).trans (tryBoot_runs ..)

/-! ### PERST_N rises (R37, R381, R434, R435) -/

theorem execBootStart_eq {s : State} (modId : BitVec 5) (hp : s.pins.perstN = false) (hr : s.power.rails = true)
    (ha : s.power.perstActed = true) : execBootStart modId s = .next (kernPhase (bootSlots (risen s modId) modId.toNat)) := by
  unfold execBootStart
  rw [if_neg (by simp [hp, hr]), if_neg (by simp [ha])]
  rfl

/-- A low pulse that did not last changes the pin alone. -/
theorem bootStart_ignored {s : State} (modId : BitVec 5) (hp : s.pins.perstN = false) (hr : s.power.rails = true)
    (ha : s.power.perstActed = false) : Answers (.bootStart modId) s (fun t =>
      t.pins = { s.pins with perstN := true } ∧ t.power = { s.power with perstLowAt := none } ∧ OnlyIn [.pins, .power] s t) := by
  have hexec : execBootStart modId s =
      .next { s with pins := { s.pins with perstN := true }, power := { s.power with perstLowAt := none } } := by
    unfold execBootStart
    rw [if_neg (by simp [hp, hr]), if_pos (by simp [ha])]
  exact ⟨_, hexec, rfl, rfl, (Keeps.upd (Keeps.refl [.pins, .power] s)).only⟩

theorem bootStart_reachesKern {s : State} (modId : BitVec 5) (hp : s.pins.perstN = false) (hr : s.power.rails = true)
    (ha : s.power.perstActed = true) : Answers (.bootStart modId) s (fun t =>
      t.boot.phase = 4 ∧ t.boot.count = s.boot.count + 1 ∧ t.boot.modId = modId ∧
      t.pins = { s.pins with perstN := true, modId := modId, refclkOk := true } ∧ t.power.perstActed = false ∧
      (s.tb.running = false → t.tb.now = 0 ∧ t.tb.running = true) ∧
      (s.tb.running = true → t.tb.now = s.tb.now ∧ t.tb.holdover = false) ∧ t.fuses = s.fuses) := by
  have hruns := bootSlots_runs (risen s modId) modId.toNat
  have hkeep := (bootSlots_keeps (risen s modId) modId.toNat).step (kernPhase_keeps _) rfl
  have hclock : clockOf (kernPhase (bootSlots (risen s modId) modId.toNat)) = clockOf (risen s modId) := hruns.clock
  rw [clockOf, clockOf, Prod.mk.injEq, Prod.mk.injEq] at hclock
  obtain ⟨hrun, hnow, hhold⟩ := hclock
  refine ⟨_, execBootStart_eq modId hp hr ha, rfl, hruns.count, hruns.modId, hkeep.same .pins rfl,
    congrArg Power.perstActed (hkeep.same .power rfl), fun h => ?_, fun h => ?_, hkeep.same .fuses rfl⟩
  · rw [hnow, hrun]
    simp [risen, h, Timebase.reset]
  · rw [hnow, hhold]
    simp [risen, h]

/-- The phase is not part of what safe mode shows. -/
theorem InSafeMode.kernPhase {t : State} (h : InSafeMode t) : InSafeMode (kernPhase t) :=
  ⟨h.safe, h.forceSafe, h.devId, h.personality, h.style, h.act, h.coil, h.belay, h.lines⟩

theorem bootStart_forced {s : State} (modId : BitVec 5) (hp : s.pins.perstN = false) (hr : s.power.rails = true)
    (ha : s.power.perstActed = true) (hs : s.boot.safe = false) (hf : s.boot.forceSafe = true) :
    Answers (.bootStart modId) s (fun t => InSafeMode t ∧ ∀ k : Nat, k < 2 → (slotInfo t k).cause = 0xFF) := by
  have hexec := execBootStart_eq modId hp hr ha
  rw [bootSlots_forced (s := risen s modId) modId.toNat hf] at hexec
  have hsafe := enterSafe_inSafeMode (s := slotsSkipped (risen s modId)) hs safeForced
  obtain ⟨-, hkept, -⟩ := enterSafe_boot (slotsSkipped (risen s modId)) safeForced
  generalize enterSafe (slotsSkipped (risen s modId)) safeForced = u at hexec hsafe hkept
  refine ⟨_, hexec, hsafe.kernPhase, fun k hk => ?_⟩
  have hinfo : slotInfo (kernPhase u) k = slotInfo (slotsSkipped (risen s modId)) k :=
    congrArg (fun l => l.getD k SlotInfo.reset) hkept
  rw [hinfo]
  match k, hk with
  | 0, _ => rfl
  | 1, _ => rfl

theorem bootStart_noSlot {s x : State} (modId : BitVec 5) (hp : s.pins.perstN = false) (hr : s.power.rails = true)
    (ha : s.power.perstActed = true) (hs : s.boot.safe = false) (hf : s.boot.forceSafe = false)
    (hx : examine (examine (risen s modId) 0 modId.toNat) 1 modId.toNat = x)
    (h0 : (slotInfo x 0).cause ≠ 0) (h1 : (slotInfo x 1).cause ≠ 0) : Answers (.bootStart modId) s InSafeMode := by
  have hnone : ∀ k ∈ slotOrder x, (slotInfo x k).cause ≠ 0 := fun k hk => by
    rcases slotOrder_mem hk with rfl | rfl
    · exact h0
    · exact h1
  have hexec := execBootStart_eq modId hp hr ha
  rw [bootSlots_examined (s := risen s modId) hf hx, tryBoot_none hnone] at hexec
  exact ⟨_, hexec, (enterSafe_inSafeMode ((bothExamined_safe hx).trans hs) safeNoSlot).kernPhase⟩

theorem bootStart_newest {s x : State} (modId : BitVec 5) (hp : s.pins.perstN = false) (hr : s.power.rails = true)
    (ha : s.power.perstActed = true) (hs : s.boot.safe = false) (hf : s.boot.forceSafe = false)
    (hx : examine (examine (risen s modId) 0 modId.toNat) 1 modId.toNat = x) {k : Nat} {rest : List Nat}
    (ho : slotOrder x = k :: rest) (hc : (slotInfo x k).cause = 0) (hb : (bootBelay x k modId.toNat).2 = true) :
    Answers (.bootStart modId) s (fun t =>
      t.boot.slot = k ∧ t.boot.safe = false ∧ t.boot.fallback = false ∧ t.belay = Belay.reset ∧ t.hitches = [] ∧
      (∀ n : Nat, (lineGet t n).ops = []) ∧ t.cfg.coil = (bootBelay x k modId.toNat).1.cfg.coil) := by
  have hexec := execBootStart_eq modId hp hr ha
  rw [bootSlots_examined (s := risen s modId) hf hx, ho, List.headD_cons, tryBoot_first hc hb] at hexec
  rcases bootBelay_cases x k modId.toNat with ⟨hfail, -⟩ | ⟨u, m, -, hsafe, hslot, happlied⟩
  · rw [hb] at hfail
    cases hfail
  · generalize (bootBelay x k modId.toNat).1 = v at hexec happlied
    exact ⟨_, hexec, (congrArg Boot.slot happlied.boot).trans hslot,
      (congrArg Boot.safe happlied.boot).trans (hsafe.trans ((bothExamined_safe hx).trans hs)), bne_self_eq_false k,
      happlied.belay, happlied.hitches, happlied.noOps.congr rfl, rfl⟩

/-! ### The training of the stacks (R382) -/

/-- The phase in which a tier's stacks train. -/
def trainPhase : Tier → Nat
  | .kern => 4
  | .mantle => 5
  | .host => 0

/-- The stacks of a tier that failed twice, and those that failed once only. -/
def failedTwice (s : State) (tier : Tier) (twice : List Stack) : List Stack := twice.filter (stackIn s.fuses.variant tier)
def failedOnce (s : State) (tier : Tier) (once twice : List Stack) : List Stack :=
  (once.filter (stackIn s.fuses.variant tier)).filter (fun x => !(failedTwice s tier twice).contains x)

/-- The log records of the stacks that failed. -/
def trainLogged (s : State) (once twice : List Stack) : State :=
  twice.foldl (fun t x => logWrite (logWrite t logTraining (logSlot t) (stackCode x) 1) logTraining (logSlot t) (stackCode x) 2)
    (once.foldl (fun t x => logWrite t logTraining (logSlot t) (stackCode x) 1) s)

/-- Boot status after a tier's training. -/
def trainBoot (b : Boot) (tier : Tier) (once twice : List Stack) : Boot :=
  { b with
    trainRetry := b.trainRetry || !(once ++ twice).isEmpty
    kernLost := b.kernLost || (tier = .kern && !twice.isEmpty)
    mantleLost := b.mantleLost || (tier = .mantle && !twice.isEmpty) }

/-- The outcome of a tier's training noted, before a failure enters safe mode. -/
def trained (s : State) (tier : Tier) (once twice : List Stack) : State :=
  { trainLogged s once twice with boot := trainBoot (trainLogged s once twice).boot tier once twice }

/-- The phase after a tier's training. -/
def afterTraining (s : State) (tier : Tier) : State :=
  if tier = .kern then { s with boot := { s.boot with phase := 5 } } else afterMantle s

theorem execStackTrainingDone_eq {s : State} {tier : Tier} (once twice : List Stack) (hl : lanesLive s = true)
    (hp : s.boot.phase = trainPhase tier) : execStackTrainingDone tier once twice s =
      .next (afterTraining (if (failedTwice s tier twice).isEmpty
        then trained s tier (failedOnce s tier once twice) (failedTwice s tier twice)
        else enterSafe (trained s tier (failedOnce s tier once twice) (failedTwice s tier twice)) safeTraining) tier) := by
  unfold execStackTrainingDone
  cases tier <;>
  · have hp : s.boot.phase = _ := hp
    dsimp only
    rw [if_neg (by simp [hp, hl, trainPhase])]
    rfl

theorem trained_none (s : State) (tier : Tier) : trained s tier [] [] = s := by
  have hboot : trainBoot s.boot tier [] [] = s.boot := by
    unfold trainBoot
    simp
  exact congrArg (fun b => { s with boot := b }) hboot

/-- No stack of the tier failed: the next phase begins. -/
theorem stackTrainingDone_passes {s : State} {tier : Tier} {once twice : List Stack} (hl : lanesLive s = true)
    (hp : s.boot.phase = trainPhase tier) (hnone : ∀ x ∈ once ++ twice, stackIn s.fuses.variant tier x = false) :
    Answers (.stackTrainingDone tier once twice) s (fun t =>
      t.boot = (if tier = .kern then { s.boot with phase := 5 } else if s.boot.safe then { s.boot with phase := 8 }
        else { s.boot with phase := 6, linksAt := s.clk }) ∧ OnlyIn [.boot] s t) := by
  have htwice : failedTwice s tier twice = [] :=
    List.filter_eq_nil_iff.2 (fun x hx => by simp [hnone x (List.mem_append_right once hx)])
  have honce : failedOnce s tier once twice = [] := by
    have hin : once.filter (stackIn s.fuses.variant tier) = [] :=
      List.filter_eq_nil_iff.2 (fun x hx => by simp [hnone x (List.mem_append_left twice hx)])
    rw [failedOnce, hin, List.filter_nil]
  have hexec := execStackTrainingDone_eq once twice hl hp
  rw [htwice, honce, if_pos List.isEmpty_nil, trained_none] at hexec
  refine ⟨_, hexec, ?_, ?_⟩
  · unfold afterTraining afterMantle
    split
    · rfl
    · split <;> rfl
  · unfold afterTraining
    split
    · exact (Keeps.upd (Keeps.refl [.boot] s)).only
    · exact (afterMantle_keeps s).only

/-- A stack that failed twice marks its tier lost and enters safe mode (R385). -/
theorem stackTrainingDone_fails {s : State} {tier : Tier} {once twice : List Stack} (hl : lanesLive s = true)
    (hp : s.boot.phase = trainPhase tier) (hsome : ∃ x ∈ twice, stackIn s.fuses.variant tier x = true) :
    Answers (.stackTrainingDone tier once twice) s (fun t =>
      t.boot.safe = true ∧ t.boot.trainRetry = true ∧ (tier = .kern → t.boot.kernLost = true ∧ t.boot.phase = 5) ∧
      (tier = .mantle → t.boot.mantleLost = true ∧ t.boot.phase = 8)) := by
  obtain ⟨x, hx, hin⟩ := hsome
  have hmem : x ∈ failedTwice s tier twice := List.mem_filter.2 ⟨hx, hin⟩
  have hexec := execStackTrainingDone_eq once twice hl hp
  generalize failedTwice s tier twice = bad at hmem hexec
  generalize failedOnce s tier once twice = again at hexec
  have hbad : bad.isEmpty = false := List.isEmpty_eq_false_iff.2 (List.ne_nil_of_mem hmem)
  rw [if_neg (by simp [hbad])] at hexec
  obtain ⟨hsafe, -, hretry, hkern, hmantle⟩ := enterSafe_boot (trained s tier again bad) safeTraining
  generalize enterSafe (trained s tier again bad) safeTraining = u at hexec hsafe hretry hkern hmantle
  have hflag : u.boot.trainRetry = true := by
    rw [hretry]
    simp [trained, trainBoot, List.ne_nil_of_mem hmem]
  cases tier with
  | kern =>
    have hlost : u.boot.kernLost = true := hkern.trans (by simp [trained, trainBoot, List.ne_nil_of_mem hmem])
    exact ⟨_, hexec, hsafe, hflag, fun _ => ⟨hlost, rfl⟩, nofun⟩
  | mantle =>
    have hlost : u.boot.mantleLost = true := hmantle.trans (by simp [trained, trainBoot, List.ne_nil_of_mem hmem])
    have hafter : afterTraining u .mantle = { u with boot := { u.boot with phase := 8 } } := if_pos hsafe
    rw [hafter] at hexec
    exact ⟨_, hexec, hsafe, hflag, nofun, fun _ => ⟨hlost, rfl⟩⟩
  | host =>
    cases x with
    | kern k => simp [stackIn] at hin
    | mantle m => simp [stackIn] at hin

/-- Settles O60, event by event. -/
theorem bootAndUpdate : Obligations.BootAndUpdate := by
  intro s
  refine ⟨fun modId hp hr => ⟨fun ha => bootStart_ignored modId hp hr ha, fun ha => ⟨bootStart_reachesKern modId hp hr ha, ?_⟩⟩,
    fun tier once twice hl hphase => ?_, fun hp hl hend => linksPhaseEnd_answers hp hl hend,
    fun image hst hlen => pldmFirmwareUpdate_answers hst hlen⟩
  · intro hs
    generalize hx : examine (examine (risen s modId) 0 modId.toNat) 1 modId.toNat = x
    intro _ safe
    have hall : ∀ t : State, InSafeMode t → safe t := fun t h =>
      ⟨h.safe, h.forceSafe, h.devId, h.personality, h.style, h.act, h.coil, h.belay, h.lines⟩
    refine ⟨fun hf => ?_, fun hf h0 h1 => ?_, fun k rest hf ho hc hb => bootStart_newest modId hp hr ha hs hf hx ho hc hb⟩
    · obtain ⟨t, hexec, hsafe, hcause⟩ := bootStart_forced modId hp hr ha hs hf
      exact ⟨t, hexec, hall t hsafe, hcause⟩
    · obtain ⟨t, hexec, hsafe⟩ := bootStart_noSlot modId hp hr ha hs hf hx h0 h1
      exact ⟨t, hexec, hall t hsafe⟩
  · have hp : s.boot.phase = trainPhase tier := by
      rcases hphase with ⟨rfl, hp⟩ | ⟨rfl, hp⟩ <;> exact hp
    exact ⟨fun hnone => stackTrainingDone_passes hl hp hnone, fun hsome => stackTrainingDone_fails hl hp hsome⟩

end Sys2Proof.Machine
end

section
/-! SUPPORT. The waves and the drain of a tile-op (O38, R59, R75, R80, R84, R92, R94, R100, R134, R145). -/

set_option Elab.async false

namespace Sys2Proof.Machine

open Sys2Proof

/-! ### What a frame leaves of the strands, the operations and the bytes -/

theorem strandGet_congr {s t : State} (h : t.strands = s.strands) (k : Nat) : strandGet t k = strandGet s k := by
  rw [strandGet, strandGet, h]

theorem opFind_congr {s t : State} (h : t.lines = s.lines) (n q : Nat) : opFind t n q = opFind s n q := by
  rw [opFind, opFind, lineGet_congr h]

/-- What a byte reads depends on memory and the active configuration alone. -/
theorem Keeps.sameBytes {ps : List Part} {s t : State} (h : Keeps ps s t) (hm : ps.contains .mem = false)
    (hc : ps.contains .cfg = false) : SameBytes s t :=
  rawByte_frame (h.same .mem hm) (h.same .cfg hc)

/-- An operation that is found has the number that it was looked up by. -/
theorem seq_of_opFind {s : State} {n q : Nat} {o : OpEnt} (h : opFind s n q = some o) : o.seq = q := by
  simpa using List.find?_some h

/-- An entry set in place of one found is found in its stead. -/
theorem opFind_opSet_of_opFind {s : State} {n q : Nat} {o p : OpEnt} (h : opFind s n q = some o) (hp : p.seq = o.seq) :
    opFind (opSet s n p) n q = some p := by
  have hset := opFind_opSet s n p ⟨o, List.mem_of_find?_eq_some h, hp.symm⟩
  rwa [hp, seq_of_opFind h] at hset

theorem lineGet_opSet_ne (s : State) {n m : Nat} (o : OpEnt) (h : m ≠ n) : lineGet (opSet s n o) m = lineGet s m :=
  lineGet_lineSet_ne _ _ _ _ h

/-! ### Tile-ops of a strand -/

/-- A tile-op set stands in its strand; the strands may have been taken over from another state before and after. -/
theorem tileMoved_of_strands {s u t : State} {k : Nat} {x : TileOp} (hu : u.strands = s.strands)
    (ht : t.strands = (tileSet u k x).strands) : TileMoved s t k x where
  strand := by rw [strandGet_congr ht, tileSet, strandGet_strandSet_self, strandGet_congr hu]
  others m hm := by rw [strandGet_congr ht, tileSet, strandGet_strandSet_ne _ _ _ _ hm, strandGet_congr hu]

theorem tileSet_moved (s : State) (k : Nat) (x : TileOp) : TileMoved s (tileSet s k x) k x := tileMoved_of_strands rfl rfl

theorem tileSet_strands_congr {s u : State} (h : u.strands = s.strands) (k : Nat) (x : TileOp) :
    (tileSet u k x).strands = (tileSet s k x).strands := by
  simp only [tileSet, strandSet, strandGet, h]

/-- Errors outside the spans that are read are not met. -/
theorem foundAll_none {found : List Found} {spans : List (Nat × Nat)} (h : ∀ f ∈ found, foundIn spans f = false)
    (s : State) (strand : Nat) : foundAll s strand spans found = s := by
  rw [foundAll, List.filter_eq_nil_iff.2 (fun f hf => by simp [h f hf]), List.foldl_nil]

/-! ### Sweeps of a strand -/

/-- Two forms of one sweep: the same line, operation and number. -/
def sameSweep (w v : Sweep) : Prop := w.line = v.line ∧ w.seq = v.seq ∧ w.no = v.no

theorem sameSweep.has_eq {w v : Sweep} (h : sameSweep w v) (x : TileOp) : w.has x = v.has x := by
  obtain ⟨hline, hseq, hno⟩ := h
  simp only [Sweep.has, hline, hseq, hno]

/-- The sweep of a tile-op has its line and its operation. -/
theorem keys_of_sweepFor {s : State} {k : Nat} {x : TileOp} {w : Sweep} (h : sweepFor s k x = some w) :
    w.line = x.line ∧ w.seq = x.seq := by
  have hhas := List.find?_some h
  simp only [Sweep.has, Bool.and_eq_true, decide_eq_true_eq] at hhas
  obtain ⟨⟨⟨-, hline⟩, hseq⟩, -⟩ := hhas
  exact ⟨hline.symm, hseq.symm⟩

/-- A sweep set in place of that of a tile-op becomes the tile-op's. -/
theorem sweepFor_sweepSet {s : State} {k : Nat} {x : TileOp} {w v : Sweep} (h : sweepFor s k x = some w) (hv : sameSweep v w) :
    sweepFor (sweepSet s k v) k x = some v := by
  have hhas : ((fun y : Sweep => y.has x) ∘ fun y => if y.line = v.line && y.seq = v.seq && y.no = v.no then v else y) =
      fun y => y.has x := by
    funext y
    rw [Function.comp]
    split
    · rename_i hy
      simp only [Bool.and_eq_true, decide_eq_true_eq] at hy
      obtain ⟨⟨hline, hseq⟩, hno⟩ := hy
      exact sameSweep.has_eq ⟨hline.symm, hseq.symm, hno.symm⟩ x
    · rfl
  obtain ⟨hline, hseq, hno⟩ := hv
  rw [sweepFor] at h
  rw [sweepFor, sweepSet, strandGet_strandSet_self, List.find?_map, hhas, h, Option.map_some, hline, hseq, hno]
  simp

/-- Loading parts changes the parts that a sweep holds and nothing else of it. -/
theorem loadParts_keeps_keys (s : State) (k : Nat) (d : BitVec 512) (x : TileOp) (w : Sweep) (kbs : List Nat) :
    sameSweep (loadParts s k d x w kbs) w ∧ (loadParts s k d x w kbs).fell = w.fell := by
  unfold loadParts
  refine foldl_keeps (fun v => sameSweep v w ∧ v.fell = w.fell) _ kbs w ⟨⟨rfl, rfl, rfl⟩, rfl⟩ (fun v kb hv => ?_)
  dsimp only
  split <;> split <;> exact hv

/-- Of blocks read in place, those that the sweep has not counted yet (R96). -/
def newlyFell (w : Sweep) (bs : List Nat) : List Nat := bs.filter (fun b => !w.fell.contains b)

/-- The sweep that has counted blocks read in place. -/
def fellSweep (w : Sweep) (bs : List Nat) : Sweep := { w with fell := w.fell ++ newlyFell w bs }

/-- The operation whose sweep has read blocks in place for the first time (R93, R96). -/
def fellOp (o : OpEnt) (new : List Nat) : OpEnt :=
  if new = [] then o else opWorse { o with n1 := min (2 ^ 24 - 1) (o.n1 + new.length) } stOkFallback

theorem noteFell_eq {s : State} {w : Sweep} {o : OpEnt} (k acct : Nat) (bs : List Nat) (h : opFind s w.line w.seq = some o) :
    noteFell s k w acct bs = if newlyFell w bs = [] then sweepSet s k (fellSweep w bs)
      else pmuAdd (opSet (sweepSet s k (fellSweep w bs)) w.line (fellOp o (newlyFell w bs))) 0x114 (newlyFell w bs).length
        (attrM acct mBraid) := by
  have hop : opFind (sweepSet s k (fellSweep w bs)) w.line w.seq = some o := (opFind_congr rfl _ _).trans h
  have hnew : bs.filter (fun b => !w.fell.contains b) = newlyFell w bs := rfl
  have hsweep : { w with fell := w.fell ++ newlyFell w bs } = fellSweep w bs := rfl
  unfold noteFell
  dsimp only
  rw [hnew, hsweep, hop]
  by_cases hn : newlyFell w bs = []
  · rw [if_pos (List.isEmpty_iff.2 hn), if_pos hn]
  · rw [if_neg (mt List.isEmpty_iff.1 hn), if_neg hn, fellOp, if_neg hn]
    rfl

/-- Blocks read in place are counted in the strand's sweep and in the operation, and nowhere else in strands and lines. -/
theorem noteFell_spec {s : State} {w : Sweep} {o : OpEnt} (k acct : Nat) (bs : List Nat) (h : opFind s w.line w.seq = some o) :
    (noteFell s k w acct bs).strands = (sweepSet s k (fellSweep w bs)).strands ∧
    opFind (noteFell s k w acct bs) w.line w.seq = some (fellOp o (newlyFell w bs)) ∧
    ∀ n : Nat, n ≠ w.line → lineGet (noteFell s k w acct bs) n = lineGet s n := by
  rw [noteFell_eq k acct bs h]
  by_cases hn : newlyFell w bs = []
  · rw [if_pos hn, fellOp, if_pos hn]
    exact ⟨rfl, (opFind_congr rfl _ _).trans h, fun n _ => lineGet_congr rfl n⟩
  · rw [if_neg hn]
    have hseq : (fellOp o (newlyFell w bs)).seq = o.seq := by
      rw [fellOp, if_neg hn]
      rfl
    have hop : opFind (sweepSet s k (fellSweep w bs)) w.line w.seq = some o := (opFind_congr rfl _ _).trans h
    have hpmu := pmuAdd_keeps (opSet (sweepSet s k (fellSweep w bs)) w.line (fellOp o (newlyFell w bs))) 0x114
      (newlyFell w bs).length (attrM acct mBraid)
    have hlines := hpmu.same .lines rfl
    exact ⟨hpmu.same .strands rfl, (opFind_congr hlines _ _).trans (opFind_opSet_of_opFind hop hseq),
      fun n hne => (lineGet_congr hlines n).trans (lineGet_opSet_ne _ _ hne)⟩

/-- The sweep of a tile-op with the parts of k-blocks loaded and blocks read in place counted (R80, R93, R96). -/
def loadedSweep (s : State) (k : Nat) (d : BitVec 512) (x : TileOp) (w : Sweep) (kbs bs : List Nat) : Sweep :=
  { loadParts s k d x w kbs with fell := w.fell ++ newlyFell w bs }

theorem loadedSweep_same (s : State) (k : Nat) (d : BitVec 512) (x : TileOp) (w : Sweep) (kbs bs : List Nat) :
    sameSweep (loadedSweep s k d x w kbs bs) w :=
  (loadParts_keeps_keys s k d x w kbs).1

theorem sweepFor_congr {s t : State} (h : t.strands = s.strands) (k : Nat) (x : TileOp) : sweepFor t k x = sweepFor s k x := by
  rw [sweepFor, sweepFor, strandGet_congr h]

theorem sweepSet_strands_congr {s u : State} (h : u.strands = s.strands) (k : Nat) (w : Sweep) :
    (sweepSet u k w).strands = (sweepSet s k w).strands := by
  simp only [sweepSet, strandSet, strandGet, h]

/-- From `s`, the sweep of the tile-op `x` of strand `k` has become `v`, and the tile-op's operation `o` has counted the blocks
`new` as read in place; nothing else of the strands, of the lines or of memory has changed. -/
structure SweepLoaded (s u : State) (k : Nat) (x : TileOp) (o : OpEnt) (v : Sweep) (new : List Nat) : Prop where
  strands : u.strands = (sweepSet s k v).strands
  sweep : sweepFor u k x = some v
  entry : opFind u x.line x.seq = some (fellOp o new)
  lines : ∀ n : Nat, n ≠ x.line → lineGet u n = lineGet s n
  keeps : Keeps [.regs, .port, .lines, .strands, .tiers, .pmu] s u

/-- A sweep's loads that nothing holds and that meet no error are done. -/
theorem sweepLoad_done {s : State} {k : Nat} {o : OpEnt} {w : Sweep} {x : TileOp} {kbs : List Nat} {extra spans : List (Nat × Nat)}
    {found : List Found} (hop : opFind s x.line x.seq = some o) (hw : sweepFor s k x = some w)
    (hspans : spans = loadSpans o.desc w x kbs ++ extra) (hf : ∀ f ∈ found, foundIn spans f = false)
    (hr : loadReady s o x.account w.late spans = true) : ∃ u : State, sweepLoad s k o w x kbs extra found = (u, true) ∧
      SweepLoaded s u k x o (loadedSweep s k o.desc x w kbs (fallBlocks s x.account (spansBlocks spans)))
        (newlyFell w (fallBlocks s x.account (spansBlocks spans))) := by
  have hload : sweepLoad s k o w x kbs extra found = (noteFell (noteAccess s x.account (spansBlocks spans)) k
      (loadParts s k o.desc x w kbs) x.account (fallBlocks s x.account (spansBlocks spans)), true) := by
    rw [sweepLoad, ← hspans]
    dsimp only
    rw [foundAll_none hf, hr]
    rfl
  refine ⟨_, hload, ?_⟩
  have haccess := noteAccess_keeps s x.account (spansBlocks spans)
  generalize noteAccess s x.account (spansBlocks spans) = a at haccess ⊢
  generalize fallBlocks s x.account (spansBlocks spans) = bs
  obtain ⟨⟨hline, hseq, -⟩, hfell⟩ := loadParts_keeps_keys s k o.desc x w kbs
  obtain ⟨hwline, hwseq⟩ := keys_of_sweepFor hw
  have hnew : newlyFell (loadParts s k o.desc x w kbs) bs = newlyFell w bs := by rw [newlyFell, newlyFell, hfell]
  have hv : fellSweep (loadParts s k o.desc x w kbs) bs = loadedSweep s k o.desc x w kbs bs := by
    rw [fellSweep, hfell, hnew, loadedSweep]
  have hlines := haccess.same .lines rfl
  obtain ⟨hstrands, hentry, hothers⟩ := noteFell_spec k x.account bs
    (w := loadParts s k o.desc x w kbs) (by rw [opFind_congr hlines, hline, hseq, hwline, hwseq, hop])
  rw [hv, sweepSet_strands_congr (haccess.same .strands rfl)] at hstrands
  rw [hline, hseq, hwline, hwseq, hnew] at hentry
  rw [hline, hwline] at hothers
  exact ⟨hstrands, (sweepFor_congr hstrands _ _).trans (sweepFor_sweepSet hw (loadedSweep_same ..)), hentry,
    fun n hn => (hothers n hn).trans (lineGet_congr hlines n), (haccess.mono rfl).step (noteFell_keeps ..) rfl⟩

/-! ### FIRST_WAVE -/

section
variable {strand : StrandNo} {array : ArrayNo} {x : TileOp} {o : OpEnt} {s : State}

/-- FIRST_WAVE of a READY tile-op with a bank free and no other tile-op's waves in its array (R75, R84). -/
theorem firstWave_answers
    (hop : opFind s x.line x.seq = some o) (htrack : o.track ≠ .cancelPending)
    (hat : tileAt s strand.val array.val .ready = some x) (hbank : banksUsed s strand.val array.val < 2)
    (hfree : tileAt s strand.val array.val .first = none) : Answers (.firstWave strand array) s (fun t =>
      TileMoved s t strand.val { x with stage := .first, tFirst := some s.tb.now } ∧ OnlyIn [.strands] s t) := by
  have hrun : execFirstWave strand array s = .next (tileSet s strand.val { x with stage := .first, tFirst := some s.tb.now }) := by
    unfold execFirstWave
    rw [hat]
    dsimp only
    rw [if_pos (by simp [hbank, hfree, hop, htrack])]
  exact ⟨_, hrun, tileSet_moved .., (tileSet_keeps ..).only⟩

/-! ### LAST_WAVE -/

theorem execLastWave_eq {array : WaveEnd}
    (hat : tileAt s strand.val array.array.val .first = some x) : execLastWave strand array s =
      .next (if x.bight then bightLast s strand.val x array.found array.err else braidLast s strand.val x array.found array.err) := by
  rw [execLastWave, hat]

/-- A corrupted control state ends the operation of the tile-op UNCORRECTABLE (R94). -/
theorem lastWave_control {w : Sweep} (found : List Found) (hop : opFind s x.line x.seq = some o) (htrack : o.track ≠ .cancelPending)
    (hat : tileAt s strand.val array.val .first = some x) (hb : x.bight = false) (hw : sweepFor s strand.val x = some w) :
    Answers (.lastWave strand ⟨array, found, some .control⟩) s (fun t =>
      opFind t x.line x.seq = some { opWorse o stUncorrectable with failed := true } ∧ SameBytes s t ∧ OnlyIn [.lines] s t) := by
  have hrun : execLastWave strand ⟨array, found, some .control⟩ s =
      .next (opSet s x.line { opWorse o stUncorrectable with failed := true }) := by
    rw [execLastWave_eq hat, hb, if_neg Bool.false_ne_true, braidLast, hop, hw]
    dsimp only
    rw [if_neg htrack, if_pos rfl, sweepLost, hop]
  have hkeep := opSet_keeps s x.line { opWorse o stUncorrectable with failed := true }
  exact ⟨_, hrun, opFind_opSet_of_opFind hop rfl, hkeep.sameBytes rfl rfl, hkeep.only⟩

/-- The tile-op of a braid after its last wave: the accumulators that its sweep's parts give (R59 to R66, R94). -/
def wavedTile (now : W64) (d : BitVec 512) (w : Sweep) (x : TileOp) (err : Option ArrayErr) : TileOp :=
  { x with
    stage := .last, tLast := some now, acc := (tileDot d w x).map Prod.fst,
    flags := x.flags ||| flagsOr ((tileDot d w x).map Prod.snd), chafed := x.chafed || partsChafed d w x || err = some .parity }

/-- What LAST_WAVE makes of a braid's tile-op once its loads are done and have left the sweep `v`. -/
theorem braidLast_eq {k : Nat} {w v : Sweep} {u : State} {found : List Found} {err : Option ArrayErr}
    (hop : opFind s x.line x.seq = some o) (htrack : o.track ≠ .cancelPending) (hw : sweepFor s k x = some w)
    (herr : err ≠ some .control) (hload : sweepLoad s k o w x (List.range (bmNkb o.desc)) [] found = (u, true))
    (hv : sweepFor u k x = some v) :
    braidLast s k x found err =
      pmuAdd (tileSet u k (wavedTile s.tb.now o.desc v x err)) (0x014 + k) (tileWaves o.desc x.rows) (tileAttr x) := by
  rw [braidLast, hop, hw]
  dsimp only
  rw [if_neg htrack, if_neg herr, hload]
  dsimp only
  rw [hv]
  rfl

/-- The tile-op and the sweep of a braid set in their strand, and nothing else of any strand. -/
theorem strandGet_tileSet_sweepSet (s : State) (k : Nat) (w : Sweep) (x : TileOp) :
    strandGet (tileSet (sweepSet s k w) k x) k = { strandGet s k with
      tiles := (strandGet s k).tiles.map (fun y => if tileSame y x then x else y),
      sweeps := (strandGet s k).sweeps.map (fun y => if y.line = w.line && y.seq = w.seq && y.no = w.no then w else y) } ∧
    ∀ m : Nat, m ≠ k → strandGet (tileSet (sweepSet s k w) k x) m = strandGet s m := by
  refine ⟨by simp only [tileSet, sweepSet, strandGet_strandSet_self], fun m hm => ?_⟩
  rw [tileSet, strandGet_strandSet_ne _ _ _ _ hm, sweepSet, strandGet_strandSet_ne _ _ _ _ hm]

/-- The last wave of a braid: every k-block stands in the sweep, the tile-op holds the sums, and blocks read in place are counted
(R80, R84, R93, R96). -/
theorem lastWave_braid {w v : Sweep} {found : List Found} {err : Option ArrayErr} {spans : List (Nat × Nat)}
    {fell : List Nat} (hop : opFind s x.line x.seq = some o) (htrack : o.track ≠ .cancelPending)
    (hat : tileAt s strand.val array.val .first = some x) (hb : x.bight = false) (hw : sweepFor s strand.val x = some w)
    (herr : err ≠ some .control) (hspans : spans = loadSpans o.desc w x (List.range (bmNkb o.desc)) ++ [])
    (hfound : ∀ f ∈ found, foundIn spans f = false) (hready : loadReady s o x.account w.late spans = true)
    (hfell : fell = fallBlocks s x.account (spansBlocks spans))
    (hv : v = loadedSweep s strand.val o.desc x w (List.range (bmNkb o.desc)) fell) :
    Answers (.lastWave strand ⟨array, found, err⟩) s (fun t =>
      strandGet t strand.val = { strandGet s strand.val with
        tiles := (strandGet s strand.val).tiles.map (fun y =>
          if tileSame y (wavedTile s.tb.now o.desc v x err) then wavedTile s.tb.now o.desc v x err else y),
        sweeps := (strandGet s strand.val).sweeps.map (fun y => if y.line = w.line && y.seq = w.seq && y.no = w.no then v else y) } ∧
      (∀ k : Nat, k ≠ strand.val → strandGet t k = strandGet s k) ∧
      opFind t x.line x.seq = some (fellOp o (newlyFell w fell)) ∧
      (∀ n : Nat, n ≠ x.line → lineGet t n = lineGet s n) ∧ SameBytes s t) := by
  obtain ⟨u, hload, hu⟩ := sweepLoad_done hop hw hspans hfound hready
  rw [← hfell, ← hv] at hu
  obtain ⟨hline, hseq, hno⟩ : sameSweep v w := hv ▸ loadedSweep_same ..
  have hrun := execLastWave_eq (array := ⟨array, found, err⟩) hat
  rw [hb, if_neg Bool.false_ne_true, braidLast_eq hop htrack hw herr hload hu.sweep] at hrun
  generalize wavedTile s.tb.now o.desc v x err = x1 at hrun ⊢
  have hset := tileSet_keeps u strand.val x1
  have hpmu := pmuAdd_keeps (tileSet u strand.val x1) (0x014 + strand.val) (tileWaves o.desc x.rows) (tileAttr x)
  have hstrands := (hpmu.same .strands rfl).trans (tileSet_strands_congr hu.strands strand.val x1)
  have hlines := (hpmu.same .lines rfl).trans (hset.same .lines rfl)
  obtain ⟨hself, hothers⟩ := strandGet_tileSet_sweepSet s strand.val v x1
  rw [hline, hseq, hno] at hself
  exact ⟨_, hrun, (strandGet_congr hstrands _).trans hself, fun k hk => (strandGet_congr hstrands k).trans (hothers k hk),
    (opFind_congr hlines _ _).trans hu.entry, fun n hn => (lineGet_congr hlines n).trans (hu.lines n hn),
    ((hu.keeps.step hset rfl).step hpmu rfl).sameBytes rfl rfl⟩

/-- The chafe of a bight tile's rows: an accumulator-store parity error chafes them all (R94, R147). -/
def rowMarks (r : BOut) (err : Option ArrayErr) : List Bool := r.marks.map (fun b => b || err = some .parity)

/-- The tile-op of a bight after its last wave: the outputs computed (R134 to R136). -/
def computedTile (now : W64) (r : BOut) (x : TileOp) (err : Option ArrayErr) : TileOp :=
  { x with
    stage := .last, tLast := some now, out := r.elems, bVals := r.stats,
    aVals := (rowMarks r err).map (fun b => if b then 1 else 0), chafed := (rowMarks r err).any id, flags := x.flags ||| r.fl }

/-- The last wave of a bight's tile that has passed all its blocks: its outputs are formed (R134 to R136, R145). -/
theorem lastWave_bight {found : List Found} {err : Option ArrayErr} (hop : opFind s x.line x.seq = some o)
    (htrack : o.track ≠ .cancelPending) (hat : tileAt s strand.val array.val .first = some x) (hb : x.bight = true)
    (herr : err ≠ some .control) (hpassed : (tileBlocks s (opShape o) o (tileSeq o x) x).length ≤ x.col)
    (hfound : ∀ f ∈ found, foundIn (bgtReads (opShape o) o (tileSeq o x) x ++ tilePages s (opShape o) o (tileSeq o x) x) f = false)
    (hready : bgtReady s x.account o (bgtReads (opShape o) o (tileSeq o x) x) [] = true)
    (hheld : readsHeld s (tilePages s (opShape o) o (tileSeq o x) x) = false) :
    Answers (.lastWave strand ⟨array, found, err⟩) s (fun t =>
      TileMoved s t strand.val (computedTile s.tb.now (computeTile s strand.val o x) x err) ∧
      OnlyIn [.free, .regs, .port, .strands, .pmu] s t) := by
  have hrun : bightLast s strand.val x found err =
      pmuAdd (tileSet (drawn s) strand.val (computedTile s.tb.now (computeTile s strand.val o x) x err)) (0x014 + strand.val)
        ((Config.freeWord s.free).toNat % 2 ^ 40) (tileAttr x) := by
    rw [bightLast, hop]
    dsimp only
    rw [if_neg (by simp [htrack, hpassed]), if_neg herr, foundAll_none hfound, if_neg (by simp [hready, hheld])]
    rfl
  generalize computedTile s.tb.now (computeTile s strand.val o x) x err = x1 at hrun ⊢
  generalize (Config.freeWord s.free).toNat % 2 ^ 40 = waves at hrun
  have hexec := execLastWave_eq (array := ⟨array, found, err⟩) hat
  rw [if_pos hb, hrun] at hexec
  have hpmu := pmuAdd_keeps (tileSet (drawn s) strand.val x1) (0x014 + strand.val) waves (tileAttr x)
  have hset := ((drawn_keeps s).mono (ps := [.free, .regs, .port, .strands, .pmu]) rfl).step (tileSet_keeps _ strand.val x1) rfl
  exact ⟨_, hexec, tileMoved_of_strands (drawn_strands s) (hpmu.same .strands rfl), (hset.step hpmu rfl).only⟩

/-! ### DRAIN -/

theorem execTileDrain_eq (hat : tileAt s strand.val array.val .last = some x) : execTileDrain strand array s =
      .next (if x.bight then tileSet s strand.val { x with stage := .drained, tDrain := some s.tb.now }
        else braidDrain s strand.val x) := by
  rw [execTileDrain, hat]

/-- A bight's tile is drained with its outputs as they are. -/
theorem tileDrain_bight (hat : tileAt s strand.val array.val .last = some x) (hb : x.bight = true) :
    Answers (.tileDrain strand array) s (fun t =>
      TileMoved s t strand.val { x with stage := .drained, tDrain := some s.tb.now } ∧ OnlyIn [.strands] s t) := by
  have hrun := execTileDrain_eq hat
  rw [if_pos hb] at hrun
  exact ⟨_, hrun, tileSet_moved .., (tileSet_keeps ..).only⟩

/-- The tile-op of a braid with its accumulators converted to the output format (R92). -/
def drainedTile (now : W64) (d : BitVec 512) (x : TileOp) : TileOp :=
  { x with
    stage := .drained, tDrain := some now, out := (x.acc.map (drainElem (bmDF d))).map Prod.fst,
    flags := x.flags ||| flagsOr ((x.acc.map (drainElem (bmDF d))).map Prod.snd), acc := [] }

/-- A drained tile-op joins the tile buffers of its strand (R100). -/
def bufferTile (s : State) (k : Nat) (x : TileOp) : State :=
  strandSet s k { strandGet s k with bufs := (strandGet s k).bufs ++ [x] }

/-- DRAIN of a braid: it waits while an epilogue finds four buffers full; else the tile is converted, and buffered for an
epilogue. -/
theorem braidDrain_eq (k : Nat) (hop : opFind s x.line x.seq = some o) : braidDrain s k x =
    if bmEpi o.desc then
      if 4 ≤ (strandGet s k).bufs.length then s
      else bufferTile (tileSet s k (drainedTile s.tb.now o.desc x)) k (drainedTile s.tb.now o.desc x)
    else tileSet s k (drainedTile s.tb.now o.desc x) := by
  rw [braidDrain, hop]
  dsimp only
  cases hepi : bmEpi o.desc with
  | false => rfl
  | true =>
    by_cases hfull : 4 ≤ (strandGet s k).bufs.length
    · rw [if_pos (by simp [hfull]), if_pos rfl, if_pos hfull]
    · rw [if_neg (by simp [hfull]), if_pos rfl, if_neg hfull]
      rfl

/-- Without an epilogue the tile is converted and no buffer takes it (R92). -/
theorem tileDrain_plain (hop : opFind s x.line x.seq = some o) (hat : tileAt s strand.val array.val .last = some x)
    (hb : x.bight = false) (hepi : bmEpi o.desc = false) : Answers (.tileDrain strand array) s (fun t =>
      TileMoved s t strand.val (drainedTile s.tb.now o.desc x) ∧ OnlyIn [.strands] s t) := by
  have hrun := execTileDrain_eq hat
  rw [hb, if_neg Bool.false_ne_true, braidDrain_eq _ hop, hepi, if_neg Bool.false_ne_true] at hrun
  exact ⟨_, hrun, tileSet_moved .., (tileSet_keeps ..).only⟩

/-- With an epilogue a free buffer takes the converted tile (R92, R100). -/
theorem tileDrain_buffered (hop : opFind s x.line x.seq = some o) (hat : tileAt s strand.val array.val .last = some x)
    (hb : x.bight = false) (hepi : bmEpi o.desc = true) (hroom : (strandGet s strand.val).bufs.length < 4) :
    Answers (.tileDrain strand array) s (fun t =>
      strandGet t strand.val = { strandGet s strand.val with
        tiles := (strandGet s strand.val).tiles.map (fun y =>
          if tileSame y (drainedTile s.tb.now o.desc x) then drainedTile s.tb.now o.desc x else y),
        bufs := (strandGet s strand.val).bufs ++ [drainedTile s.tb.now o.desc x] } ∧
      (∀ k : Nat, k ≠ strand.val → strandGet t k = strandGet s k) ∧ OnlyIn [.strands] s t) := by
  have hrun := execTileDrain_eq hat
  rw [hb, if_neg Bool.false_ne_true, braidDrain_eq _ hop, hepi, if_pos rfl, if_neg (Nat.not_le.2 hroom)] at hrun
  obtain ⟨hself, hothers⟩ := tileSet_moved s strand.val (drainedTile s.tb.now o.desc x)
  refine ⟨_, hrun, ?_, fun k hk => ?_, ((tileSet_keeps ..).step (strandSet_keeps ..) rfl).only⟩
  · rw [bufferTile, strandGet_strandSet_self, hself]
  · rw [bufferTile, strandGet_strandSet_ne _ _ _ _ hk, hothers k hk]

/-- Four full buffers hold an epilogue's tile in its bank (R100). -/
theorem tileDrain_waits (hop : opFind s x.line x.seq = some o) (hat : tileAt s strand.val array.val .last = some x)
    (hb : x.bight = false) (hepi : bmEpi o.desc = true) (hfull : 4 ≤ (strandGet s strand.val).bufs.length) :
    exec (.tileDrain strand array) s = .next s := by
  have hrun := execTileDrain_eq hat
  rw [hb, if_neg Bool.false_ne_true, braidDrain_eq _ hop, hepi, if_pos rfl, if_pos hfull] at hrun
  exact hrun

end

/-- Settles O38, event by event. -/
theorem tileOpWavesAndDrain : Obligations.TileOpWavesAndDrain := by
  intro strand array x o s hop htrack
  refine ⟨fun hat hbank hfree => firstWave_answers hop htrack hat hbank hfree, fun hat => ⟨fun found w hb hw => ⟨?_, ?_⟩, ?_⟩,
    fun hat => ⟨fun hb => tileDrain_bight hat hb, fun hb hepi => tileDrain_plain hop hat hb hepi,
      fun hb hepi hroom => tileDrain_buffered hop hat hb hepi hroom, fun hb hepi hfull => tileDrain_waits hop hat hb hepi hfull⟩⟩
  · exact lastWave_control found hop htrack hat hb hw
  · intro err herr spans hfound hready
    have hnil : spans ++ [] = spans := List.append_nil spans
    exact lastWave_braid hop htrack hat hb hw herr hnil.symm (hnil ▸ hfound) hready rfl rfl
  · intro found err hb herr hpassed reads pages hfound hready hheld
    exact lastWave_bight hop htrack hat hb herr hpassed hfound hready hheld

end Sys2Proof.Machine
end

section
/-! SUPPORT. What the accesses of a line operation leave of the home table: they move the times of the last touch, and the rest
of every entry stays (R154, R155). -/

set_option Elab.async false

namespace Sys2Proof.Machine

open Sys2Proof

theorem htGet_congr {s t : State} (ht : t.tiers.ht = s.tiers.ht) (hc : t.cfg = s.cfg) (hf : t.fuses = s.fuses) (b : Nat) :
    htGet t b = htGet s b := by
  rw [htGet, htGet, ht, hc, hf]

/-- The tiers of `t` are those of `s` but for the times at which blocks were touched and the counts of bad accesses. -/
structure OnlyTouched (s t : State) : Prop where
  entries : ∀ b : Nat, ∃ w : W64, htGet t b = { htGet s b with touch := w }
  moves : t.tiers.moves = s.tiers.moves
  merging : t.tiers.merging = s.tiers.merging
  mergeHeld : t.tiers.mergeHeld = s.tiers.mergeHeld

theorem OnlyTouched.refl (s : State) : OnlyTouched s s := ⟨fun b => ⟨(htGet s b).touch, rfl⟩, rfl, rfl, rfl⟩

theorem OnlyTouched.trans {s t u : State} (h1 : OnlyTouched s t) (h2 : OnlyTouched t u) : OnlyTouched s u := by
  refine ⟨fun b => ?_, h2.moves.trans h1.moves, h2.merging.trans h1.merging, h2.mergeHeld.trans h1.mergeHeld⟩
  obtain ⟨v, hv⟩ := h1.entries b
  obtain ⟨w, hw⟩ := h2.entries b
  exact ⟨w, by rw [hw, hv]⟩

/-- A step that leaves the tiers, the configuration and the fuses touches nothing. -/
theorem Keeps.onlyTouched {ps : List Part} {s t : State} (h : Keeps ps s t) (ht : ps.contains .tiers = false)
    (hc : ps.contains .cfg = false) (hf : ps.contains .fuses = false) : OnlyTouched s t := by
  have htiers : t.tiers = s.tiers := h.same .tiers ht
  refine ⟨fun b => ⟨(htGet s b).touch, ?_⟩, by rw [htiers], by rw [htiers], by rw [htiers]⟩
  rw [htGet_congr (by rw [htiers]) (h.same .cfg hc) (h.same .fuses hf)]

theorem touchBlock_onlyTouched (s : State) (a : Nat) : OnlyTouched s (touchBlock s a) := by
  unfold touchBlock
  dsimp only
  split
  · exact .refl s
  · refine ⟨fun b => ?_, rfl, rfl, rfl⟩
    by_cases hb : b = blockNo a
    · rw [hb, htGet_htSet_self, touched]
      split
      · exact ⟨s.tb.now, rfl⟩
      · exact ⟨(htGet s (blockNo a)).touch, rfl⟩
    · exact ⟨(htGet s b).touch, htGet_htSet_ne _ _ _ _ hb⟩

theorem badAccess_onlyTouched (s : State) (t : Tier) : OnlyTouched s (badAccess s t) :=
  ⟨fun b => ⟨(htGet s b).touch, rfl⟩, rfl, rfl, rfl⟩

theorem noteAccess_onlyTouched (s : State) (acct : Nat) (bs : List Nat) : OnlyTouched s (noteAccess s acct bs) := by
  unfold noteAccess
  refine foldl_keeps (OnlyTouched s) _ bs s (.refl s) (fun u b hu => hu.trans ?_)
  split
  · exact badAccess_onlyTouched ..
  · exact touchBlock_onlyTouched ..

section
variable {s u : State} (h : OnlyTouched s u)
include h

theorem OnlyTouched.state (b : Nat) : (htGet u b).state = (htGet s b).state := by
  obtain ⟨w, hw⟩ := h.entries b
  rw [hw]

theorem OnlyTouched.tier (b : Nat) : (htGet u b).tier = (htGet s b).tier := by
  obtain ⟨w, hw⟩ := h.entries b
  rw [hw]

theorem OnlyTouched.account (b : Nat) : (htGet u b).account = (htGet s b).account := by
  obtain ⟨w, hw⟩ := h.entries b
  rw [hw]

theorem OnlyTouched.frameAddr (b a : Nat) : frameAddr (htGet u b) a = Machine.frameAddr (htGet s b) a := by
  obtain ⟨w, hw⟩ := h.entries b
  rw [hw]
  rfl

end

/-! ### Final records after an access -/

/-- From `s`, accesses of a line operation have been noted, and nothing else has changed. -/
structure Accessed (s u : State) : Prop where
  keeps : Keeps [.tiers] s u
  touch : OnlyTouched s u

theorem noteAccess_accessed (s : State) (acct : Nat) (bs : List Nat) : Accessed s (noteAccess s acct bs) :=
  ⟨noteAccess_keeps s acct bs, noteAccess_onlyTouched s acct bs⟩

section
variable {s u : State} (h : Accessed s u)
include h

theorem Accessed.lineGet (n : Nat) : lineGet u n = Machine.lineGet s n := lineGet_congr (h.keeps.same .lines rfl) n

theorem Accessed.actF (f : Fld) (i : Nat) : actF u f i = Machine.actF s f i := by
  rw [Machine.actF, Machine.actF, (h.keeps.same .cfg rfl : u.cfg = s.cfg)]

theorem Accessed.recordAt (n : Nat) : recordAt u n = Machine.recordAt s n := by
  rw [Machine.recordAt, Machine.recordAt, h.lineGet, h.actF]

theorem Accessed.recordFrame (n : Nat) : recordFrame u n = Machine.recordFrame s n := by
  rw [Machine.recordFrame, Machine.recordFrame, h.recordAt, h.touch.frameAddr]

theorem Accessed.recordOpen (n : Nat) : recordOpen u n = Machine.recordOpen s n := by
  have hmem : u.mem = s.mem := h.keeps.same .mem rfl
  have hfuses : u.fuses = s.fuses := h.keeps.same .fuses rfl
  have hport : u.port = s.port := h.keeps.same .port rfl
  rw [Machine.recordOpen, Machine.recordOpen, h.recordAt, h.recordFrame, h.touch.state, h.touch.tier, h.touch.merging, hmem, hfuses,
    hport, heldBlocks_congr h.touch.moves h.touch.mergeHeld h.touch.account, lineAcct, lineAcct, h.actF]

theorem Accessed.sameBytes : SameBytes s u := h.keeps.sameBytes rfl rfl

/-- An operation that ends after its accesses were noted has ended. -/
theorem Accessed.finished {t : State} {n seq status : Nat} {flags : Byte} {epoch : BitVec 16} {d : BitVec 512} {opb : List Byte}
    (hf : Finished u t n seq status flags epoch d opb) : Finished s t n seq status flags epoch d opb where
  gone := hf.gone
  others q hq := by rw [hf.others q hq, opFind, opFind, h.lineGet]
  record i hi := by rw [← h.recordFrame, hf.record i hi, (h.keeps.same .tb rfl : u.tb = s.tb)]
  memory a ha := by rw [hf.memory a (by rwa [h.recordFrame]), h.sameBytes]
  cqTail := by rw [hf.cqTail, h.lineGet, cqSize, cqSize, h.actF]
  stopped := by rw [hf.stopped, h.lineGet, stopsAfter_congr (h.keeps.same .cfg rfl)]
  fetch := by rw [hf.fetch, h.lineGet]
  head := by rw [hf.head, h.lineGet]
  tail := by rw [hf.tail, h.lineGet]
  cHead := by rw [hf.cHead, h.lineGet]
  nextSeq := by rw [hf.nextSeq, h.lineGet]
  loop := by rw [hf.loop, h.lineGet]
  lines m hm := by rw [hf.lines m hm, h.lineGet]
  signal k := by rw [hf.signal, hitchGet_congr (h.keeps.same .hitches rfl)]

/-- An operation that enters the tracker after its accesses were noted has entered it. -/
theorem Accessed.entered {t : State} {n : Nat} {o : OpEnt} (he : Entered u t n o) : Entered s t n o := by
  obtain ⟨hentry, hothers, hline, hlines⟩ := he
  refine ⟨hentry, fun q hq => ?_, ?_, fun m hm => ?_⟩
  · rw [hothers q hq, opFind, opFind, h.lineGet]
  · rwa [h.lineGet] at hline
  · rw [hlines m hm, h.lineGet]

end

end Sys2Proof.Machine
end

section
/-! SUPPORT. The dispatch of BRD_MM and of the bight opcodes (O20, R86, R87, R106, R142, R144, R153, R269). -/

set_option Elab.async false

namespace Sys2Proof.Machine

open Sys2Proof

/-! ### What a dispatch ends in -/

/-- A dispatch that ends in a rejection writes its final record (R271). -/
theorem rejectOp_rejects {s : State} {n : Nat} {o : OpEnt} (st : Nat) (hrec : recordOpen s n = true) (htrack : o.track ≠ .cancelPending) :
    Finished s (rejectOp s n o st) n o.seq st 0 s.belay.epoch o.desc [] := by
  have hf := rejectOp_finished s n o st hrec
  rwa [if_neg htrack] at hf

/-- An operation that enters the tracker as `p` in place of `o`. -/
theorem enter_entered {s : State} {n : Nat} {o p : OpEnt} (hu : undispatched s n = some o) (hp : p.seq = o.seq) :
    Entered s (noteLine (opSet s n p) n) n p :=
  entered_opSet s n p (by rw [hp]; exact undispatched_mem s n o hu)

theorem enter_keeps (s : State) (n : Nat) (p : OpEnt) : Keeps [.port, .lines, .pmu] s (noteLine (opSet s n p) n) :=
  ((opSet_keeps s n p).mono rfl).step (noteLine_keeps ..) rfl

/-! ### BRD_MM -/

/-- The program of an epilogue pair, read at dispatch with its chafe; none without an epilogue (R106). -/
def brdProg (s : State) (n : Nat) (o : OpEnt) : List Byte × Bool := if bmEpi o.desc then readProg s n o.desc2 else ([], false)

/-- The dispatch checks fail: a malformed program (R106), or a derived output (R153). -/
def brdFails (s : State) (n : Nat) (o : OpEnt) : Bool :=
  if bmEpi o.desc then !vecProgOk (vcLen o.desc2) (brdProg s n o).1 else !(bmD o.desc).eye && touchesDerived s [bmFootD o.desc]

/-- The entry of a BRD_MM that is dispatched now. -/
def brdEntry (s : State) (n : Nat) (o : OpEnt) : OpEnt :=
  { opDispatch s o with total := bmTiles o.desc, prog := (brdProg s n o).1, chafedProg := (brdProg s n o).2 }

theorem execBrdMm_eq {s : State} {line : LineNo} {o : OpEnt} (h : dispatchable s line.toNat o opBrdMm = true) :
    execBrdMm line s = .next (if brdFails s line.toNat o then rejectOp s line.toNat o stDescInvalid
      else noteLine (opSet s line.toNat (brdEntry s line.toNat o)) line.toNat) := by
  refine (onDispatch_run s line.toNat opBrdMm _ o h).trans (congrArg _ ?_)
  dsimp only
  unfold brdFails brdEntry brdProg
  cases bmEpi o.desc <;> simp

theorem brdMm_enters {s : State} {line : LineNo} {o : OpEnt} (h : dispatchable s line.toNat o opBrdMm = true)
    (hok : brdFails s line.toNat o = false) : Answers (.brdMm line) s (fun t =>
      Entered s t line.toNat (brdEntry s line.toNat o) ∧ SameBytes s t ∧ OnlyIn [.port, .lines, .pmu] s t) := by
  have hrun := execBrdMm_eq h
  rw [hok, if_neg Bool.false_ne_true] at hrun
  have hk := enter_keeps s line.toNat (brdEntry s line.toNat o)
  obtain ⟨hu, -⟩ := dispatchable_iff _ _ _ _ h
  exact ⟨_, hrun, enter_entered hu rfl, hk.sameBytes rfl rfl, hk.only⟩

theorem brdMm_rejects {s : State} {line : LineNo} {o : OpEnt} (h : dispatchable s line.toNat o opBrdMm = true)
    (hfails : brdFails s line.toNat o = true) (hrec : recordOpen s line.toNat = true) : Answers (.brdMm line) s (fun t =>
      Finished s t line.toNat o.seq stDescInvalid 0 s.belay.epoch o.desc []) := by
  have hrun := execBrdMm_eq h
  rw [if_pos hfails] at hrun
  obtain ⟨-, -, -, htrack⟩ := dispatchable_iff _ _ _ _ h
  exact ⟨_, hrun, rejectOp_rejects _ hrec htrack⟩

/-! ### BGT_FWD and BGT_BWD -/

/-- The parameter block and the length table as the dispatch reads them, each with its chafe (R142). -/
def bgtPar (s : State) (n : Nat) (o : OpEnt) : List Byte × Bool := devRead s (some (lineAcct s n)) (bgParam o.desc) 128
def bgtTab (s : State) (n : Nat) (o : OpEnt) : List Byte × Bool := devRead s (some (lineAcct s n)) (bgLt o.desc) (32 * bgNseq o.desc)

/-- One of the two read chafed. -/
def bgtBlocksChafed (s : State) (n : Nat) (o : OpEnt) : Bool := (bgtPar s n o).2 || (bgtTab s n o).2

/-- The entry with the two blocks. -/
def bgtBlocks (s : State) (n : Nat) (o : OpEnt) : OpEnt := { opDispatch s o with par := (bgtPar s n o).1, tab := (bgtTab s n o).1 }

/-- The spans that the dispatch reads: the page table only where the two blocks read unchafed. -/
def bgtSpans (s : State) (n : Nat) (o : OpEnt) : List (Nat × Nat) :=
  [(bgParam o.desc, 128), (bgLt o.desc, 32 * bgNseq o.desc)] ++
    (if bgtBlocksChafed s n o then [] else pageTabSpans (bgtBlocks s n o))

/-- The state with these reads noted (R154, R155). -/
def bgtRead (s : State) (n : Nat) (o : OpEnt) : State := noteAccess s (lineAcct s n) (spansBlocks (bgtSpans s n o))

/-- The entry with every structure that the dispatch reads. -/
def bgtEntry (s : State) (n : Nat) (o : OpEnt) : OpEnt :=
  { bgtBlocks s n o with ptab := readPages (bgtRead s n o) (lineAcct s n) (bgtBlocks s n o) }

/-- A check of R144 fails under a configuration in force, or an output is derived (R153). -/
def bgtFails (s : State) (n : Nat) (o : OpEnt) : Bool :=
  (views (bgtRead s n o)).any
      (fun v => !bgtCheck v (lineStrand (bgtRead s n o) n) (lineAcct s n) (bgShape o.desc (bgtPar s n o).1) (bgtEntry s n o)) ||
    touchesDerived (bgtRead s n o) (bgtOutSpans (bgShape o.desc (bgtPar s n o).1) (bgtEntry s n o))

/-- The entry of a bight operation that is dispatched now. -/
def bgtCounted (s : State) (n : Nat) (o : OpEnt) : OpEnt :=
  { bgtEntry s n o with total := bgTotal (bgShape o.desc (bgtPar s n o).1) (bgtEntry s n o) }

/-- The dispatch of a bight operation, outcome by outcome. -/
theorem dispatchBgt_eq (s : State) (n : Nat) (o : OpEnt) : dispatchBgt s n o =
    if readsHeld s (bgtSpans s n o) then s
    else if bgtBlocksChafed s n o then rejectOp (bgtRead s n o) n o stUncorrectable
    else if bgtFails s n o then rejectOp (bgtRead s n o) n o stDescInvalid
    else noteLine (opSet (bgtRead s n o) n (bgtCounted s n o)) n := rfl

theorem bgtRead_accessed (s : State) (n : Nat) (o : OpEnt) : Accessed s (bgtRead s n o) := noteAccess_accessed ..

section
variable {s : State} {line : LineNo} {o : OpEnt} {bwd : Bool}

/-- Both opcodes dispatch alike. -/
theorem bgtDispatch_eq (h : dispatchable s line.toNat o (if bwd then opBgtBwd else opBgtFwd) = true) :
    exec (if bwd then .bgtBwd line else .bgtFwd line) s = .next (dispatchBgt s line.toNat o) := by
  cases bwd
  · exact onDispatch_run s line.toNat opBgtFwd (dispatchBgt s line.toNat) o h
  · exact onDispatch_run s line.toNat opBgtBwd (dispatchBgt s line.toNat) o h

theorem bgt_waits (h : dispatchable s line.toNat o (if bwd then opBgtBwd else opBgtFwd) = true)
    (hheld : readsHeld s (bgtSpans s line.toNat o) = true) : exec (if bwd then .bgtBwd line else .bgtFwd line) s = .next s := by
  rw [bgtDispatch_eq h, dispatchBgt_eq, if_pos hheld]

theorem bgt_enters (h : dispatchable s line.toNat o (if bwd then opBgtBwd else opBgtFwd) = true)
    (hheld : readsHeld s (bgtSpans s line.toNat o) = false) (hch : bgtBlocksChafed s line.toNat o = false)
    (hok : bgtFails s line.toNat o = false) : Answers (if bwd then .bgtBwd line else .bgtFwd line) s (fun t =>
      Entered s t line.toNat (bgtCounted s line.toNat o) ∧ SameBytes s t ∧ OnlyIn [.port, .lines, .tiers, .pmu] s t) := by
  have hrun := bgtDispatch_eq h
  rw [dispatchBgt_eq, hheld, hch, hok, if_neg Bool.false_ne_true, if_neg Bool.false_ne_true, if_neg Bool.false_ne_true] at hrun
  have hread := bgtRead_accessed s line.toNat o
  obtain ⟨hu, -⟩ := dispatchable_iff _ _ _ _ h
  have hu' : undispatched (bgtRead s line.toNat o) line.toNat = some o := by rw [undispatched, hread.lineGet]; exact hu
  have hk := (hread.keeps.mono (ps := [.port, .lines, .tiers, .pmu]) rfl).step
    (enter_keeps (bgtRead s line.toNat o) line.toNat (bgtCounted s line.toNat o)) rfl
  exact ⟨_, hrun, hread.entered (enter_entered hu' rfl), hk.sameBytes rfl rfl, hk.only⟩

/-- A rejection after the reads were noted writes the final record. -/
theorem bgtRead_rejects (st : Nat) (hrec : recordOpen s line.toNat = true) (htrack : o.track ≠ .cancelPending) :
    Finished s (rejectOp (bgtRead s line.toNat o) line.toNat o st) line.toNat o.seq st 0 s.belay.epoch o.desc [] := by
  have hread := bgtRead_accessed s line.toNat o
  have hf := hread.finished (rejectOp_rejects (o := o) st (by rwa [hread.recordOpen]) htrack)
  rwa [(hread.keeps.same .belay rfl : (bgtRead s line.toNat o).belay = s.belay)] at hf

theorem bgt_rejectsChafed (h : dispatchable s line.toNat o (if bwd then opBgtBwd else opBgtFwd) = true)
    (hheld : readsHeld s (bgtSpans s line.toNat o) = false) (hch : bgtBlocksChafed s line.toNat o = true)
    (hrec : recordOpen s line.toNat = true) : Answers (if bwd then .bgtBwd line else .bgtFwd line) s (fun t =>
      Finished s t line.toNat o.seq stUncorrectable 0 s.belay.epoch o.desc []) := by
  have hrun := bgtDispatch_eq h
  rw [dispatchBgt_eq, hheld, if_neg Bool.false_ne_true, if_pos hch] at hrun
  obtain ⟨-, -, -, htrack⟩ := dispatchable_iff _ _ _ _ h
  exact ⟨_, hrun, bgtRead_rejects _ hrec htrack⟩

theorem bgt_rejectsInvalid (h : dispatchable s line.toNat o (if bwd then opBgtBwd else opBgtFwd) = true)
    (hheld : readsHeld s (bgtSpans s line.toNat o) = false) (hch : bgtBlocksChafed s line.toNat o = false)
    (hfails : bgtFails s line.toNat o = true) (hrec : recordOpen s line.toNat = true) :
    Answers (if bwd then .bgtBwd line else .bgtFwd line) s (fun t =>
      Finished s t line.toNat o.seq stDescInvalid 0 s.belay.epoch o.desc []) := by
  have hrun := bgtDispatch_eq h
  rw [dispatchBgt_eq, hheld, hch, if_neg Bool.false_ne_true, if_neg Bool.false_ne_true, if_pos hfails] at hrun
  obtain ⟨-, -, -, htrack⟩ := dispatchable_iff _ _ _ _ h
  exact ⟨_, hrun, bgtRead_rejects _ hrec htrack⟩

end

/-- Settles O20, outcome by outcome. -/
theorem computeOpcodesDispatch : Obligations.ComputeOpcodesDispatch := by
  intro line o s
  refine ⟨fun h => ⟨fun hok => brdMm_enters h hok, fun hfails hrec => brdMm_rejects h hfails hrec⟩, fun bwd h => ?_⟩
  refine ⟨fun hheld => bgt_waits h hheld, fun hheld => ⟨fun hpar htab hok => ?_, fun hch hrec => bgt_rejectsChafed h hheld hch hrec,
    fun hpar htab hfails hrec => ?_⟩⟩
  · have hch : bgtBlocksChafed s line.toNat o = false := Bool.or_eq_false_iff.2 ⟨hpar, htab⟩
    exact bgt_enters h hheld hch hok
  · have hch : bgtBlocksChafed s line.toNat o = false := Bool.or_eq_false_iff.2 ⟨hpar, htab⟩
    exact bgt_rejectsInvalid h hheld hch hfails hrec

end Sys2Proof.Machine
end

section
/-! SUPPORT. The sweep that the array arbiter issues (O36, R79, R80, R83, R84, R305, R311). -/

set_option Elab.async false

namespace Sys2Proof.Machine

open Sys2Proof

/-! ### The order of an issue, and the size of a sweep -/

/-- An order left open is an order of the whole list, once it may take as many steps as the list is long. -/
theorem freeOrder_perm {α : Type} (draw base : Nat) : ∀ (fuel : Nat) (xs : List α), xs.length ≤ fuel →
    (freeOrder draw base fuel xs).Perm xs
  | 0, xs, h => by rw [List.length_eq_zero_iff.1 (Nat.le_zero.1 h)]; rfl
  | fuel + 1, [], _ => by rfl
  | fuel + 1, x :: xs, h => by
    rw [freeOrder, if_neg (by simp)]
    dsimp only
    generalize hi : Config.orderChoice draw (base + fuel) % (x :: xs).length = i
    have hlt : i < (x :: xs).length := hi ▸ Nat.mod_lt _ (by simp)
    generalize x :: xs = ys at h hlt ⊢
    have hrest : (ys.take i ++ ys.drop (i + 1)).length ≤ fuel := by
      rw [List.length_append, List.length_take, List.length_drop]
      omega
    have hdrop : (ys.drop i).take 1 ++ ys.drop (i + 1) = ys.drop i := by
      rw [← List.drop_drop, List.take_append_drop]
    have hmoved : ((ys.drop i).take 1 ++ (ys.take i ++ ys.drop (i + 1))).Perm (ys.take i ++ ((ys.drop i).take 1 ++ ys.drop (i + 1))) := by
      rw [← List.append_assoc, ← List.append_assoc]
      exact List.perm_append_comm.append_right _
    rw [hdrop, List.take_append_drop] at hmoved
    exact ((freeOrder_perm draw base fuel _ hrest).append_left _).trans hmoved

theorem cover_length_le (g k n : Nat) : (cover g k n).length ≤ g := by
  rw [cover, List.length_map, List.length_range]
  exact Nat.min_le_left ..

/-- A sweep covers at most 16 tiles: G_M × G_N (R80). -/
theorem sweepTiles_length_le (d : BitVec 512) (u : Nat) : (sweepTiles d u).length ≤ 16 := by
  have hlen : (sweepTiles d u).length = (sweepRows d u).length * (sweepCols d u).length := by
    simp [sweepTiles, List.length_flatMap]
  rw [hlen]
  exact (Nat.mul_le_mul (cover_length_le ..) (cover_length_le ..)).trans (Nat.mul_div_le 16 (2 ^ bmSweep d))

theorem grantArrays_length_le (s : State) (k : Nat) : (grantArrays s k).length ≤ 16 :=
  (List.length_filter_le ..).trans (by rw [List.length_range])

theorem grantArrays_nodup (s : State) (k : Nat) : (grantArrays s k).Nodup := List.nodup_range.filter _

theorem holdsArray_congr {s t : State} (hst : t.strands = s.strands) (htb : t.tb = s.tb) (k : Nat) : holdsArray t k = holdsArray s k := by
  funext x
  rw [holdsArray, holdsArray, swapNs, swapNs, strandGet_congr hst, htb]

/-- The arrays that may be granted depend on the strands, the time and the draw alone. -/
theorem grantArrays_congr {s t : State} (hst : t.strands = s.strands) (htb : t.tb = s.tb) (hfree : t.free = s.free) (k : Nat) :
    grantArrays t k = grantArrays s k := by
  have hfrees : freeArrays t k = freeArrays s k := by
    rw [freeArrays, freeArrays, holdsArray_congr hst htb, strandGet_congr hst]
  have hsoon : freesSoon t k = freesSoon s k := by
    funext a
    rw [freesSoon, freesSoon, holdsArray_congr hst htb, strandGet_congr hst, hfree]
  rw [grantArrays, grantArrays, hfrees, hsoon]

/-! ### The tile-ops of a sweep -/

/-- The tile-op `x` of the next sweep of `o` is at ISSUE now, for the tile `p.1` and on the array `p.2` (R79, R84). -/
structure SweepTile (n : Nat) (o : OpEnt) (now : W64) (p : (Nat × Nat) × Nat) (x : TileOp) : Prop where
  place : (x.row, x.col) = p.1
  array : x.array = p.2
  stage : x.stage = .issued
  tIssue : x.tIssue = now
  bight : x.bight = false
  line : x.line = n
  seq : x.seq = o.seq
  sweep : x.sweep = o.next
  batch : x.batch = sweepBatch o.desc o.next
  rows : x.rows = tileRows o.desc x.row
  cols : x.cols = tileCols o.desc x.col

/-- From `s`, strand `k` has gained the tile-ops `new`, its sweeps stand, and so does every other strand. -/
structure TilesAdded (s t : State) (k : Nat) (new : List TileOp) : Prop where
  tiles : (strandGet t k).tiles = (strandGet s k).tiles ++ new
  sweeps : (strandGet t k).sweeps = (strandGet s k).sweeps
  others : ∀ m : Nat, m ≠ k → strandGet t m = strandGet s m

theorem TilesAdded.trans {s t u : State} {k : Nat} {xs ys : List TileOp} (h1 : TilesAdded s t k xs) (h2 : TilesAdded t u k ys) :
    TilesAdded s u k (xs ++ ys) where
  tiles := by rw [h2.tiles, h1.tiles, List.append_assoc]
  sweeps := h2.sweeps.trans h1.sweeps
  others m hm := (h2.others m hm).trans (h1.others m hm)

/-- The tile-op that ISSUE makes for the tile `p.1` on the array `p.2`. -/
def sweepTile (s : State) (k n acct : Nat) (o : OpEnt) (p : (Nat × Nat) × Nat) : TileOp :=
  { tileNew n o acct p.2 s.tb.now with
    sweep := o.next, tile := (sweepBatch o.desc o.next * bmMt o.desc + p.1.1) * bmNt o.desc + p.1.2, batch := sweepBatch o.desc o.next,
    row := p.1.1, col := p.1.2, rows := tileRows o.desc p.1.1, cols := tileCols o.desc p.1.2, tagged := (tagStep s k acct).2 }

theorem issueTile_eq (s : State) (k n acct : Nat) (o : OpEnt) (p : (Nat × Nat) × Nat) :
    issueTile k n acct o (sweepBatch o.desc o.next) s p = strandSet (tagStep s k acct).1 k
      { strandGet (tagStep s k acct).1 k with tiles := (strandGet (tagStep s k acct).1 k).tiles ++ [sweepTile s k n acct o p] } := rfl

/-- The tagging of a tile-op steps the LFSR of its strand, and nothing else of the strands (R411). -/
theorem tagStep_strand (s : State) (k acct : Nat) :
    strandGet (tagStep s k acct).1 k = { strandGet s k with lfsr := lfsrNext (strandGet s k).lfsr } ∧
      ∀ m : Nat, m ≠ k → strandGet (tagStep s k acct).1 m = strandGet s m :=
  ⟨strandGet_strandSet_self .., fun _ hm => strandGet_strandSet_ne _ _ _ _ hm⟩

/-- ISSUE of one tile-op. -/
theorem issueTile_adds (k n acct : Nat) (o : OpEnt) (s : State) (p : (Nat × Nat) × Nat) :
    ∃ x : TileOp, SweepTile n o s.tb.now p x ∧
      TilesAdded s (issueTile k n acct o (sweepBatch o.desc o.next) s p) k [x] := by
  obtain ⟨hself, hothers⟩ := tagStep_strand s k acct
  refine ⟨sweepTile s k n acct o p, ⟨rfl, rfl, rfl, rfl, rfl, rfl, rfl, rfl, rfl, rfl, rfl⟩, ?_, ?_, fun m hm => ?_⟩
  · rw [issueTile_eq, strandGet_strandSet_self, hself]
  · rw [issueTile_eq, strandGet_strandSet_self, hself]
  · rw [issueTile_eq, strandGet_strandSet_ne _ _ _ _ hm, hothers m hm]

/-- ISSUE of a sweep's tile-ops, one after the other at one instant. -/
theorem issueTiles_add (k n acct : Nat) (o : OpEnt) (ps : List ((Nat × Nat) × Nat)) (s : State) :
    ∃ new : List TileOp, List.Forall₂ (SweepTile n o s.tb.now) ps new ∧
      TilesAdded s (ps.foldl (issueTile k n acct o (sweepBatch o.desc o.next)) s) k new := by
  induction ps generalizing s with
  | nil => exact ⟨[], .nil, (List.append_nil _).symm, rfl, fun _ _ => rfl⟩
  | cons p ps ih =>
    obtain ⟨x, hx, hadd⟩ := issueTile_adds k n acct o s p
    obtain ⟨new, hnew, hadds⟩ := ih (issueTile k n acct o (sweepBatch o.desc o.next) s p)
    have htb : (issueTile k n acct o (sweepBatch o.desc o.next) s p).tb = s.tb := (issueTile_keeps ..).same .tb rfl
    rw [htb] at hnew
    exact ⟨x :: new, .cons hx hnew, hadd.trans hadds⟩

/-- The tile-ops of a sweep take the tiles and the arrays that they are zipped from. -/
theorem sweepTiles_places {n : Nat} {o : OpEnt} {now : W64} {ps : List ((Nat × Nat) × Nat)} {new : List TileOp}
    (h : List.Forall₂ (SweepTile n o now) ps new) :
    new.map (fun x => (x.row, x.col)) = ps.map Prod.fst ∧ new.map TileOp.array = ps.map Prod.snd ∧
      ∀ x ∈ new, ∃ p ∈ ps, SweepTile n o now p x := by
  induction h with
  | nil => exact ⟨rfl, rfl, fun x hx => absurd hx (by simp)⟩
  | @cons p x ps new hx _ ih =>
    obtain ⟨hplaces, harrays, hall⟩ := ih
    refine ⟨by rw [List.map_cons, List.map_cons, hx.place, hplaces], by rw [List.map_cons, List.map_cons, hx.array, harrays],
      fun y hy => ?_⟩
    rcases List.mem_cons.1 hy with rfl | hy
    · exact ⟨p, List.mem_cons_self, hx⟩
    · obtain ⟨q, hq, hqy⟩ := hall y hy
      exact ⟨q, List.mem_cons_of_mem _ hq, hqy⟩

/-! ### The issue of a sweep -/

/-- The tile-ops `new` are those of the next sweep of the operation `o` of line `n`: one for each of its tiles, at ISSUE now, each
on a granted array of its own (R80, R83, R84). -/
structure SweepOf (s : State) (k n : Nat) (o : OpEnt) (new : List TileOp) : Prop where
  places : (new.map (fun x => (x.row, x.col))).Perm (sweepTiles o.desc o.next)
  nodup : (new.map TileOp.array).Nodup
  granted : ∀ x ∈ new, x.array ∈ grantArrays s k
  issued : ∀ x ∈ new, ∃ p, SweepTile n o s.tb.now p x

/-- The tiles in their order, each with the array granted to it. -/
def sweepPlan (s : State) (k : Nat) (o : OpEnt) : List ((Nat × Nat) × Nat) :=
  (freeOrder s.free 0 16 (sweepTiles o.desc o.next)).zip (freeOrder s.free 16 16 (grantArrays s k))

/-- Tile-ops issued by the plan are those of the sweep, where the arrays suffice. -/
theorem sweepOf_of_plan {s : State} {k n : Nat} {o : OpEnt} {new : List TileOp}
    (hfit : (sweepTiles o.desc o.next).length ≤ (grantArrays s k).length)
    (h : List.Forall₂ (SweepTile n o s.tb.now) (sweepPlan s k o) new) : SweepOf s k n o new := by
  obtain ⟨hplaces, harrays, hall⟩ := sweepTiles_places h
  have htiles := freeOrder_perm s.free 0 16 (sweepTiles o.desc o.next) (sweepTiles_length_le ..)
  have hgrants := freeOrder_perm s.free 16 16 (grantArrays s k) (grantArrays_length_le ..)
  have hsnd : ((sweepPlan s k o).map Prod.snd).Sublist (freeOrder s.free 16 16 (grantArrays s k)) := by
    rw [sweepPlan, List.zip_eq_zip_take_min, List.map_snd_zip (by simp)]
    exact List.take_sublist ..
  refine ⟨?_, ?_, fun x hx => ?_, fun x hx => ?_⟩
  · rw [hplaces, sweepPlan, List.map_fst_zip (by rw [htiles.length_eq, hgrants.length_eq]; exact hfit)]
    exact htiles
  · rw [harrays]
    exact (hgrants.nodup_iff.2 (grantArrays_nodup s k)).sublist hsnd
  · have hmem : x.array ∈ (sweepPlan s k o).map Prod.snd := harrays ▸ List.mem_map_of_mem hx
    exact hgrants.mem_iff.1 (hsnd.subset hmem)
  · obtain ⟨p, -, hp⟩ := hall x hx
    exact ⟨p, hp⟩

/-- The sweep that an issue adds: it holds no operand yet. -/
def freshSweep (s : State) (n : Nat) (o : OpEnt) : Sweep :=
  { line := n, seq := o.seq, no := o.next, late := bmPast s o, a := [], b := [], fell := [] }

/-- The operation once its next sweep has issued. -/
def sweptOp (o : OpEnt) : OpEnt :=
  { o with next := o.next + 1, inflight := o.inflight + (sweepTiles o.desc o.next).length, readyAt := none, aged := false }

/-- What the issue of a sweep does to the strands and to the lines. -/
structure SweepIssued (s t : State) (k n : Nat) (o : OpEnt) : Prop where
  tiles : ∃ new : List TileOp, (strandGet t k).tiles = (strandGet s k).tiles ++ new ∧ SweepOf s k n o new
  sweeps : (strandGet t k).sweeps = (strandGet s k).sweeps ++ [freshSweep s n o]
  entry : opFind t n o.seq = some (sweptOp o)
  lines : ∀ m : Nat, m ≠ n → lineGet t m = lineGet s m
  strands : ∀ m : Nat, m ≠ k → strandGet t m = strandGet s m

theorem issueSweep_issued {s : State} {k n : Nat} {o : OpEnt} (hin : ∃ x ∈ (lineGet s n).ops, x.seq = o.seq)
    (hfit : (sweepTiles o.desc o.next).length ≤ (grantArrays s k).length) : SweepIssued s (issueSweep s k n o) k n o := by
  generalize hs0 : strandSet (drawn s) k { strandGet s k with sweeps := (strandGet s k).sweeps ++ [freshSweep s n o] } = s0
  have hkeep0 : Keeps [.free, .strands] s s0 := hs0 ▸ ((drawn_keeps s).mono rfl).step (strandSet_keeps ..) rfl
  have hself0 : strandGet s0 k = { strandGet s k with sweeps := (strandGet s k).sweeps ++ [freshSweep s n o] } := by
    rw [← hs0, strandGet_strandSet_self]
  have hothers0 : ∀ m : Nat, m ≠ k → strandGet s0 m = strandGet s m := fun m hm => by
    rw [← hs0, strandGet_strandSet_ne _ _ _ _ hm]
    rfl
  obtain ⟨new, hnew, hadd⟩ := issueTiles_add k n (lineAcct s n) o (sweepPlan s k o) s0
  rw [(hkeep0.same .tb rfl : s0.tb = s.tb)] at hnew
  generalize hs1 : (sweepPlan s k o).foldl (issueTile k n (lineAcct s n) o (sweepBatch o.desc o.next)) s0 = s1 at hadd
  have hkeep1 : Keeps [.free, .strands] s s1 :=
    hs1 ▸ hkeep0.trans' ((Keeps.refl _ _).foldl (fun u p hu => hu.step (issueTile_keeps ..) rfl))
  have hlen : (freeOrder s.free 0 16 (sweepTiles o.desc o.next)).length = (sweepTiles o.desc o.next).length :=
    (freeOrder_perm _ _ _ _ (sweepTiles_length_le ..)).length_eq
  have hrun : issueSweep s k n o = pmuAdd (opSet s1 n (sweptOp o)) (0x01C + k) 1 (attrP (lineAcct s n)) := by
    rw [← hs1, ← hs0, sweptOp, ← hlen]
    rfl
  have hpmu := pmuAdd_keeps (opSet s1 n (sweptOp o)) (0x01C + k) 1 (attrP (lineAcct s n))
  have hstrands : (issueSweep s k n o).strands = s1.strands := hrun ▸ hpmu.same .strands rfl
  have hlines : (issueSweep s k n o).lines = (opSet s1 n (sweptOp o)).lines := hrun ▸ hpmu.same .lines rfl
  have hlines1 : s1.lines = s.lines := hkeep1.same .lines rfl
  refine ⟨⟨new, ?_, sweepOf_of_plan hfit hnew⟩, ?_, ?_, fun m hm => ?_, fun m hm => ?_⟩
  · rw [strandGet_congr hstrands, hadd.tiles, hself0]
  · rw [strandGet_congr hstrands, hadd.sweeps, hself0]
  · rw [opFind_congr hlines]
    exact opFind_opSet s1 n (sweptOp o) (by rw [lineGet_congr hlines1]; exact hin)
  · rw [lineGet_congr hlines, lineGet_opSet_ne _ _ hm, lineGet_congr hlines1]
  · rw [strandGet_congr hstrands, hadd.others m hm, hothers0 m hm]

/-! ### The pick of the array arbiter -/

theorem noteHeldFor_strand (s : State) (k : Nat) : ∃ h : Option Nat,
    strandGet (noteHeldFor s k) k = { strandGet s k with heldFor := h } ∧
      ∀ m : Nat, m ≠ k → strandGet (noteHeldFor s k) m = strandGet s m :=
  ⟨_, strandGet_strandSet_self .., fun _ hm => strandGet_strandSet_ne _ _ _ _ hm⟩

/-- Noting for whom arrays are held leaves what a sweep's issue did. -/
theorem SweepIssued.noteHeldFor {s t : State} {k n : Nat} {o : OpEnt} (h : SweepIssued s t k n o) :
    SweepIssued s (noteHeldFor t k) k n o := by
  obtain ⟨held, hself, hothers⟩ := noteHeldFor_strand t k
  have hlines : (Machine.noteHeldFor t k).lines = t.lines := (noteHeldFor_keeps t k).same .lines rfl
  refine ⟨?_, ?_, ?_, fun m hm => ?_, fun m hm => ?_⟩
  · rw [hself]
    exact h.tiles
  · rw [hself]
    exact h.sweeps
  · rw [opFind_congr hlines]
    exact h.entry
  · rw [lineGet_congr hlines, h.lines m hm]
  · rw [hothers m hm, h.strands m hm]

/-- The state in which a picked sweep issues: the arbiter's turn and the grant are noted. -/
theorem execSweepIssue_eq {strand : StrandNo} {q : Req} {o : OpEnt} {s : State} (hquiet : quiet s unBraid = false)
    (hpick : (pickNow s 65536 false (arrayReqs s strand.val) (mapGet Arb.reset s.braidArb strand.val)).1 = some q)
    (hhead : arrayHead s q.key = some o) (hruns : brdRuns o = true) : ∃ u : State,
      execSweepIssue strand s = .next (noteHeldFor (issueSweep u strand.val q.key o) strand.val) ∧
      Keeps [.regs, .port, .braidArb, .wfc, .pmu] s u := by
  generalize hp : pickNow s 65536 false (arrayReqs s strand.val) (mapGet Arb.reset s.braidArb strand.val) = r at hpick
  have hgrant : Keeps [.regs, .port, .braidArb, .wfc, .pmu] s
      (noteGrant { s with braidArb := mapSet Arb.reset s.braidArb strand.val r.2 } q) :=
    Keeps.step (Keeps.upd (Keeps.refl _ _)) (noteGrant_keeps ..) rfl
  refine ⟨if isAged (actF s flAgeUs 0) (tbNow s) q then
      pmuAdd (noteGrant { s with braidArb := mapSet Arb.reset s.braidArb strand.val r.2 } q) (0x024 + strand.val) 1 (attrP q.acct)
    else noteGrant { s with braidArb := mapSet Arb.reset s.braidArb strand.val r.2 } q, ?_, ?_⟩
  · rw [execSweepIssue, hquiet, if_neg Bool.false_ne_true, arrayPick]
    dsimp only
    rw [hp, hpick]
    dsimp only
    rw [hhead]
    dsimp only
    rw [if_pos hruns]
  · split
    · exact hgrant.step (pmuAdd_keeps ..) rfl
    · exact hgrant

/-- What the issue of a sweep is about depends on the strands, the lines, the time and the draw alone. -/
theorem SweepIssued.of_same {s u t : State} {k n : Nat} {o : OpEnt} (hst : u.strands = s.strands) (hlines : u.lines = s.lines)
    (htb : u.tb = s.tb) (hfree : u.free = s.free) (h : SweepIssued u t k n o) : SweepIssued s t k n o := by
  obtain ⟨⟨new, htiles, hplaces, hnodup, hgranted, hissued⟩, hsweeps, hentry, hothers, hstrands⟩ := h
  refine ⟨⟨new, ?_, hplaces, hnodup, fun x hx => ?_, fun x hx => ?_⟩, ?_, hentry, fun m hm => ?_, fun m hm => ?_⟩
  · rw [htiles, strandGet_congr hst]
  · rw [← grantArrays_congr hst htb hfree]
    exact hgranted x hx
  · rw [← htb]
    exact hissued x hx
  · rw [hsweeps, strandGet_congr hst, freshSweep, freshSweep, bmPast, bmPast, tbNow, tbNow, htb]
  · rw [hothers m hm, lineGet_congr hlines]
  · rw [hstrands m hm, strandGet_congr hst]

/-- The head at the array arbiter is in flight on its line. -/
theorem arrayHead_mem {s : State} {n : Nat} {o : OpEnt} (h : arrayHead s n = some o) : o ∈ (lineGet s n).ops :=
  (List.mem_filter.1 (List.mem_of_mem_head? h)).1

/-- Settles O36: the picked sweep issues whole (R83). -/
theorem sweepIssues : Obligations.SweepIssues := by
  intro strand q o s hquiet hpick hhead hruns hfits
  obtain ⟨u, hrun, hu⟩ := execSweepIssue_eq hquiet hpick hhead hruns
  have hkeep := execSweepIssue_keeps strand s _ hrun
  have hst : u.strands = s.strands := hu.same .strands rfl
  have hlines : u.lines = s.lines := hu.same .lines rfl
  have hfree : u.free = s.free := hu.same .free rfl
  have htb : u.tb = s.tb := hu.same .tb rfl
  have hroom : (sweepTiles o.desc o.next).length ≤ (grantArrays u strand.val).length := by
    rw [grantArrays_congr hst htb hfree]
    simp only [sweepFits, Bool.and_eq_true, decide_eq_true_eq] at hfits
    exact hfits.1
  have hissued : SweepIssued u (issueSweep u strand.val q.key o) strand.val q.key o :=
    issueSweep_issued ⟨o, by rw [lineGet_congr hlines]; exact arrayHead_mem hhead, rfl⟩ hroom
  obtain ⟨⟨new, htiles, hof⟩, hsweeps, hentry, hothers, hstrands⟩ := (hissued.of_same hst hlines htb hfree).noteHeldFor
  refine ⟨_, hrun, ⟨new, htiles, hof.places, hof.nodup, fun x hx => ?_⟩, hsweeps, hentry, hothers, hstrands,
    hkeep.sameBytes rfl rfl, hkeep.only⟩
  obtain ⟨p, hp⟩ := hof.issued x hx
  exact ⟨hof.granted x hx, hp.stage, hp.tIssue, hp.bight, hp.line, hp.seq, hp.sweep, hp.batch, hp.rows, hp.cols⟩

end Sys2Proof.Machine
end

section
/-! SUPPORT. What a reader of the module sees: it rests on memory, the home table without its touch times, the configuration and
the port's link, so an access that is only noted changes no later read (R154, R155, R290, R291). -/

set_option Elab.async false

namespace Sys2Proof.Machine

open Sys2Proof

/-- Every read of the module gives in `t` what it gives in `s`: what reads rest on is the same. -/
structure SameView (s t : State) : Prop where
  fuses : t.fuses = s.fuses
  cfg : t.cfg = s.cfg
  free : t.free = s.free
  mem : t.mem = s.mem
  linkUp : t.port.linkUp = s.port.linkUp
  touch : OnlyTouched s t

theorem SameView.trans {s t u : State} (h1 : SameView s t) (h2 : SameView t u) : SameView s u :=
  ⟨h2.fuses.trans h1.fuses, h2.cfg.trans h1.cfg, h2.free.trans h1.free, h2.mem.trans h1.mem, h2.linkUp.trans h1.linkUp,
    h1.touch.trans h2.touch⟩

/-- A step that leaves the parts on which reads rest changes no read. -/
theorem Keeps.sameView {ps : List Part} {s t : State} (h : Keeps ps s t)
    (hps : ([.fuses, .cfg, .free, .mem, .link, .tiers] : List Part).all (fun p => !ps.contains p) = true) : SameView s t := by
  simp only [List.all_cons, List.all_nil, Bool.and_true, Bool.and_eq_true, Bool.not_eq_true'] at hps
  obtain ⟨hfuses, hcfg, hfree, hmem, hlink, htiers⟩ := hps
  have hport := h.same .link hlink
  exact ⟨h.same .fuses hfuses, h.same .cfg hcfg, h.same .free hfree, h.same .mem hmem, (Prod.mk.inj hport).1,
    h.onlyTouched htiers hcfg hfuses⟩

theorem Accessed.sameView {s u : State} (h : Accessed s u) : SameView s u :=
  ⟨h.keeps.same .fuses rfl, h.keeps.same .cfg rfl, h.keeps.same .free rfl, h.keeps.same .mem rfl,
    (Prod.mk.inj (h.keeps.same .link rfl)).1, h.touch⟩

section
variable {s t : State} (h : SameView s t)
include h

theorem SameView.rawByte : rawByte t = Machine.rawByte s := funext (rawByte_frame h.mem h.cfg)

theorem SameView.viewByte : viewByte t = Machine.viewByte s := by
  funext a
  rw [Machine.viewByte, Machine.viewByte, h.mem, h.free, h.rawByte]

theorem SameView.viewMark : viewMark t = Machine.viewMark s := by
  funext a
  rw [Machine.viewMark, Machine.viewMark, granChafed, granChafed, h.mem, h.free]

theorem SameView.actF (f : Fld) (i : Nat) : actF t f i = Machine.actF s f i := by
  rw [Machine.actF, Machine.actF, h.cfg]

theorem SameView.straightFor (acct : Option Nat) (a : Nat) : straightFor t acct a = Machine.straightFor s acct a := by
  simp only [Machine.straightFor, h.fuses, h.cfg, h.actF]

theorem SameView.locate (acct : Option Nat) (a : Nat) : locate t acct a = Machine.locate s acct a := by
  simp only [Machine.locate, h.fuses, h.touch.state, h.touch.account, h.touch.frameAddr, h.straightFor]

theorem SameView.devByte (acct : Option Nat) (a : Nat) : devByte t acct a = Machine.devByte s acct a := by
  rw [Machine.devByte, Machine.devByte, h.fuses, h.cfg, h.linkUp, h.mem, h.locate, h.viewByte, h.viewMark]

theorem SameView.devRead (acct : Option Nat) (a n : Nat) : devRead t acct a n = Machine.devRead s acct a n := by
  simp only [Machine.devRead, h.devByte]

theorem SameView.eyeRead (k acct off n : Nat) :
    eyeRead t (eyeKey t k acct off) n = Machine.eyeRead s (eyeKey s k acct off) n := by
  rw [Machine.eyeRead, Machine.eyeRead, eyeKey, eyeKey, h.mem, h.actF]

theorem SameView.placeRead (k acct : Nat) (p : Place) (n : Nat) : placeRead t k acct p n = Machine.placeRead s k acct p n := by
  rw [Machine.placeRead, Machine.placeRead, h.eyeRead, h.devRead]

theorem SameView.placeElem (k acct : Nat) (p : Place) (f : Fmt) (x : Nat) :
    placeElem t k acct p f x = Machine.placeElem s k acct p f x := by
  unfold Machine.placeElem placeNat
  split <;> simp only [h.placeRead]

theorem SameView.readC (k : Nat) (d : BitVec 512) (x : TileOp) : readC t k d x = Machine.readC s k d x := by
  simp only [Machine.readC, h.placeElem]

end

end Sys2Proof.Machine
end

section
/-! SUPPORT. READY of a tile-op (O37, R80, R84, R86, R91, R93, R96, R134, R140, R154, R173). -/

set_option Elab.async false

namespace Sys2Proof.Machine

open Sys2Proof

/-! ### The loads of a braid's tile-op -/

section
variable {s : State} {k : Nat} {o : OpEnt} {w : Sweep} {x : TileOp} {kbs : List Nat} {extra : List (Nat × Nat)} {found : List Found}

/-- Loads of which one must wait are not done: they wait at their banks (R219, R220). -/
theorem sweepLoad_waits (hf : ∀ f ∈ found, foundIn (loadSpans o.desc w x kbs ++ extra) f = false)
    (hr : loadReady s o x.account w.late (loadSpans o.desc w x kbs ++ extra) = false) :
    sweepLoad s k o w x kbs extra found = (noteWaits s (loadSpans o.desc w x kbs ++ extra) false, false) := by
  rw [sweepLoad]
  dsimp only
  rw [foundAll_none hf, hr]
  rfl

/-- Loads that meet no error change no later read. -/
theorem sweepLoad_sameView (hf : ∀ f ∈ found, foundIn (loadSpans o.desc w x kbs ++ extra) f = false) :
    SameView s (sweepLoad s k o w x kbs extra found).1 := by
  rw [sweepLoad]
  dsimp only
  rw [foundAll_none hf]
  split
  · exact (noteAccess_accessed ..).sameView.trans ((noteFell_keeps ..).sameView rfl)
  · rw [ite_self]
    exact (noteWaits_keeps ..).sameView rfl

/-- A tile-op set in the strand after its sweep has loaded. -/
theorem SweepLoaded.tileSet {u : State} {v : Sweep} {new : List Nat} (h : SweepLoaded s u k x o v new) (hv : sameSweep v w)
    (x1 : TileOp) :
    strandGet (tileSet u k x1) k = { strandGet s k with
      tiles := (strandGet s k).tiles.map (fun y => if tileSame y x1 then x1 else y),
      sweeps := (strandGet s k).sweeps.map (fun y => if y.line = w.line && y.seq = w.seq && y.no = w.no then v else y) } ∧
    (∀ m : Nat, m ≠ k → strandGet (tileSet u k x1) m = strandGet s m) ∧
    opFind (tileSet u k x1) x.line x.seq = some (fellOp o new) ∧
    (∀ n : Nat, n ≠ x.line → lineGet (tileSet u k x1) n = lineGet s n) ∧ SameBytes s (tileSet u k x1) := by
  obtain ⟨hline, hseq, hno⟩ := hv
  have hstrands := tileSet_strands_congr h.strands k x1
  obtain ⟨hself, hothers⟩ := strandGet_tileSet_sweepSet s k v x1
  rw [hline, hseq, hno] at hself
  exact ⟨(strandGet_congr hstrands k).trans hself, fun m hm => (strandGet_congr hstrands m).trans (hothers m hm),
    h.entry, h.lines, (h.keeps.step (tileSet_keeps u k x1) rfl).sameBytes rfl rfl⟩

end

/-! ### READY of a braid's tile-op -/

/-- The elements of C that a tile starts from, each with its chafe: none unless C_MODE is 0b01 (R91). -/
def tileC (s : State) (k : Nat) (d : BitVec 512) (x : TileOp) : List (Nat × Bool) := if bmCMode d = 1 then readC s k d x else []

/-- The accumulators that elements of C start, each with its flags (R91). -/
def startAccs (d : BitVec 512) (c : List (Nat × Bool)) : List (BitVec 40 × Byte) :=
  c.map (fun p => accStart (some (decodeElem (bmDF d) p.1)))

/-- A braid's tile-op once it is READY with the elements `c` of C. -/
def readyTile (now : W64) (d : BitVec 512) (c : List (Nat × Bool)) (x : TileOp) : TileOp :=
  { x with
    stage := .ready, tReady := some now, acc := (startAccs d c).map Prod.fst,
    flags := x.flags ||| flagsOr ((startAccs d c).map Prod.snd), chafed := x.chafed || c.any Prod.snd }

theorem execTileOpReady_eq {s : State} {strand : StrandNo} {array : ArrayNo} {x : TileOp} (found : List Found)
    (hat : tileAt s strand.val array.val .issued = some x) : execTileOpReady strand array found s =
      .next (if x.bight then bightReady s strand.val x found else braidReady s strand.val x found) := by
  rw [execTileOpReady, hat]

/-- READY of a braid, by whether its loads are done. -/
theorem braidReady_eq {s : State} {k : Nat} {o : OpEnt} {w : Sweep} {x : TileOp} {found : List Found}
    (hop : opFind s x.line x.seq = some o) (htrack : o.track ≠ .cancelPending) (hw : sweepFor s k x = some w) {r : State × Bool}
    (hload : sweepLoad s k o w x [0] (tileSpansC o.desc x) found = r) : braidReady s k x found =
      if r.2 then tileSet r.1 k (readyTile s.tb.now o.desc (tileC r.1 k o.desc x) x) else r.1 := by
  rw [braidReady, hop, hw]
  dsimp only
  rw [if_neg htrack, hload]
  cases r.2 <;> rfl

section
variable {strand : StrandNo} {array : ArrayNo} {found : List Found} {x : TileOp} {o : OpEnt} {s : State}

/-- A braid's tile-op whose first operands may be read is READY: its sweep holds the first k-block, and its accumulators start
from C where C_MODE asks for it (R80, R84, R91, R93, R96). -/
theorem tileOpReady_braid {w : Sweep} {fell : List Nat} {x1 : TileOp} (hop : opFind s x.line x.seq = some o)
    (htrack : o.track ≠ .cancelPending) (hat : tileAt s strand.val array.val .issued = some x) (hb : x.bight = false)
    (hw : sweepFor s strand.val x = some w)
    (hfound : ∀ f ∈ found, foundIn (loadSpans o.desc w x [0] ++ tileSpansC o.desc x) f = false)
    (hready : loadReady s o x.account w.late (loadSpans o.desc w x [0] ++ tileSpansC o.desc x) = true)
    (hfell : fell = fallBlocks s x.account (spansBlocks (loadSpans o.desc w x [0] ++ tileSpansC o.desc x)))
    (hx1 : x1 = readyTile s.tb.now o.desc (tileC s strand.val o.desc x) x) :
    Answers (.tileOpReady strand array found) s (fun t =>
      strandGet t strand.val = { strandGet s strand.val with
        tiles := (strandGet s strand.val).tiles.map (fun y => if tileSame y x1 then x1 else y),
        sweeps := (strandGet s strand.val).sweeps.map (fun y =>
          if y.line = w.line && y.seq = w.seq && y.no = w.no then loadedSweep s strand.val o.desc x w [0] fell else y) } ∧
      (∀ k : Nat, k ≠ strand.val → strandGet t k = strandGet s k) ∧
      opFind t x.line x.seq = some (fellOp o (newlyFell w fell)) ∧
      (∀ n : Nat, n ≠ x.line → lineGet t n = lineGet s n) ∧ SameBytes s t) := by
  obtain ⟨u, hload, hu⟩ := sweepLoad_done hop hw rfl hfound hready
  have hview : SameView s u := by
    have hsame := sweepLoad_sameView (k := strand.val) hfound (s := s)
    rwa [hload] at hsame
  have hC : tileC u strand.val o.desc x = tileC s strand.val o.desc x := by rw [tileC, tileC, hview.readC]
  have hrun := execTileOpReady_eq found hat
  rw [hb, if_neg Bool.false_ne_true, braidReady_eq hop htrack hw hload, if_pos rfl, hC, ← hx1] at hrun
  rw [← hfell] at hu
  exact ⟨_, hrun, hu.tileSet (loadedSweep_same ..) x1⟩

/-- While an operand of a braid's tile-op must wait, nothing is read. -/
theorem tileOpReady_braidWaits {w : Sweep} (hop : opFind s x.line x.seq = some o)
    (htrack : o.track ≠ .cancelPending) (hat : tileAt s strand.val array.val .issued = some x) (hb : x.bight = false)
    (hw : sweepFor s strand.val x = some w)
    (hfound : ∀ f ∈ found, foundIn (loadSpans o.desc w x [0] ++ tileSpansC o.desc x) f = false)
    (hready : loadReady s o x.account w.late (loadSpans o.desc w x [0] ++ tileSpansC o.desc x) = false) :
    Answers (.tileOpReady strand array found) s (fun t => SameBytes s t ∧ OnlyIn [.eng] s t) := by
  have hrun := execTileOpReady_eq found hat
  rw [hb, if_neg Bool.false_ne_true, braidReady_eq hop htrack hw (sweepLoad_waits hfound hready), if_neg Bool.false_ne_true] at hrun
  have hkeep := noteWaits_keeps s (loadSpans o.desc w x [0] ++ tileSpansC o.desc x) false
  exact ⟨_, hrun, hkeep.sameBytes rfl rfl, hkeep.only⟩

/-! ### READY of a bight's tile-op -/

/-- The status that a bight's reads add: OK_FALLBACK where one was in place after a refused move (R173). -/
def bightReadStatus (s : State) (o : OpEnt) (acct : Nat) (reads : List (Nat × Nat)) : Nat :=
  if inPlaceRead s acct o (fun z => z != .kern) (spansBlocks reads) then stOkFallback else stOk

/-- READY of a bight's tile-op that has come to its first block and meets no error, by what holds its reads (R134, R140). -/
theorem bightReady_eq {k : Nat} {reads pages : List (Nat × Nat)} (hop : opFind s x.line x.seq = some o)
    (htrack : o.track ≠ .cancelPending) (hstart : 0 < x.col ∨ tileBlocks s (opShape o) o (tileSeq o x) x = [])
    (hreads : reads = bgtReads (opShape o) o (tileSeq o x) x) (hpages : pages = tilePages s (opShape o) o (tileSeq o x) x)
    (hfound : ∀ f ∈ found, foundIn (reads ++ pages) f = false) : bightReady s k x found =
      if bgtReady s x.account o reads [] = false then noteWaits s reads false
      else if readsHeld s pages then noteWaits s (reads ++ pages) false
      else tileSet (opSet (noteAccess s x.account (spansBlocks (reads ++ pages))) x.line
        (opWorse o (bightReadStatus s o x.account reads))) k { x with stage := .ready, tReady := some s.tb.now } := by
  have hfind : opFind (noteAccess s x.account (spansBlocks (reads ++ pages))) x.line x.seq = some o := by
    rw [opFind, (noteAccess_accessed ..).lineGet]
    exact hop
  rw [bightReady, hop]
  dsimp only
  rw [if_neg (by simpa [htrack, Nat.pos_iff_ne_zero, or_iff_not_imp_left] using hstart), ← hreads, ← hpages, foundAll_none hfound, hfind]
  cases bgtReady s x.account o reads [] <;> cases readsHeld s pages <;> rfl

/-- A bight's tile-op whose reads may be served is READY (R134, R140, R173). -/
theorem tileOpReady_bight {reads pages : List (Nat × Nat)} (hop : opFind s x.line x.seq = some o) (htrack : o.track ≠ .cancelPending)
    (hat : tileAt s strand.val array.val .issued = some x) (hb : x.bight = true)
    (hstart : 0 < x.col ∨ tileBlocks s (opShape o) o (tileSeq o x) x = [])
    (hreads : reads = bgtReads (opShape o) o (tileSeq o x) x) (hpages : pages = tilePages s (opShape o) o (tileSeq o x) x)
    (hfound : ∀ f ∈ found, foundIn (reads ++ pages) f = false) (hready : bgtReady s x.account o reads [] = true)
    (hheld : readsHeld s pages = false) : Answers (.tileOpReady strand array found) s (fun t =>
      TileMoved s t strand.val { x with stage := .ready, tReady := some s.tb.now } ∧
      opFind t x.line x.seq = some (opWorse o (bightReadStatus s o x.account reads)) ∧
      (∀ n : Nat, n ≠ x.line → lineGet t n = lineGet s n) ∧ SameBytes s t) := by
  have hrun := execTileOpReady_eq found hat
  rw [if_pos hb, bightReady_eq hop htrack hstart hreads hpages hfound, hready, hheld, if_neg (by decide),
    if_neg Bool.false_ne_true] at hrun
  have hread := noteAccess_accessed s x.account (spansBlocks (reads ++ pages))
  generalize noteAccess s x.account (spansBlocks (reads ++ pages)) = u at hrun hread
  have hkeep := (hread.keeps.mono (ps := [.lines, .tiers, .strands]) rfl).step
    (opSet_keeps u x.line (opWorse o (bightReadStatus s o x.account reads))) rfl
  have hfind : opFind u x.line x.seq = some o := by
    rw [opFind, hread.lineGet]
    exact hop
  refine ⟨_, hrun, tileMoved_of_strands (hread.keeps.same .strands rfl) rfl, ?_, fun n hn => ?_,
    (hkeep.step (tileSet_keeps ..) rfl).sameBytes rfl rfl⟩
  · exact (opFind_congr rfl _ _).trans (opFind_opSet_of_opFind hfind rfl)
  · exact (lineGet_congr rfl n).trans ((lineGet_opSet_ne _ _ hn).trans (hread.lineGet n))

/-- While a read of a bight's tile-op must wait, nothing is read. -/
theorem tileOpReady_bightWaits {reads pages : List (Nat × Nat)} (hop : opFind s x.line x.seq = some o)
    (htrack : o.track ≠ .cancelPending) (hat : tileAt s strand.val array.val .issued = some x) (hb : x.bight = true)
    (hstart : 0 < x.col ∨ tileBlocks s (opShape o) o (tileSeq o x) x = [])
    (hreads : reads = bgtReads (opShape o) o (tileSeq o x) x) (hpages : pages = tilePages s (opShape o) o (tileSeq o x) x)
    (hfound : ∀ f ∈ found, foundIn (reads ++ pages) f = false)
    (hwait : bgtReady s x.account o reads [] = false ∨ readsHeld s pages = true) :
    Answers (.tileOpReady strand array found) s (fun t => SameBytes s t ∧ OnlyIn [.eng] s t) := by
  have hrun := execTileOpReady_eq found hat
  rw [if_pos hb, bightReady_eq hop htrack hstart hreads hpages hfound] at hrun
  have hwaits : ∃ ss : List (Nat × Nat), exec (.tileOpReady strand array found) s = .next (noteWaits s ss false) := by
    cases hready : bgtReady s x.account o reads [] with
    | false =>
      rw [if_pos hready] at hrun
      exact ⟨_, hrun⟩
    | true =>
      have hheld : readsHeld s pages = true := hwait.resolve_left (by simp [hready])
      rw [hready, if_neg (by decide), if_pos hheld] at hrun
      exact ⟨_, hrun⟩
  obtain ⟨ss, hss⟩ := hwaits
  have hkeep := noteWaits_keeps s ss false
  exact ⟨_, hss, hkeep.sameBytes rfl rfl, hkeep.only⟩

end

/-- Settles O37, event by event. -/
theorem tileOpReadies : Obligations.TileOpReadies := by
  intro strand array found x o s hat hop htrack
  refine ⟨fun w hb hw => ?_, fun hb hstart => ?_⟩
  · intro spans hfound
    exact ⟨fun hready => tileOpReady_braid hop htrack hat hb hw hfound hready rfl rfl,
      fun hready => tileOpReady_braidWaits hop htrack hat hb hw hfound hready⟩
  · intro reads pages hfound
    exact ⟨fun hready hheld => tileOpReady_bight hop htrack hat hb hstart rfl rfl hfound hready hheld,
      fun hwait => tileOpReady_bightWaits hop htrack hat hb hstart rfl rfl hfound hwait⟩

end Sys2Proof.Machine
end

section
/-! SUPPORT. RETIRE of a bight's tile-op whose output lies in the straight window (O39, R136, R178, R183). -/

set_option Elab.async false

namespace Sys2Proof.Machine

open Sys2Proof

/-! ### What RETIRE of a bight leaves of the other lines -/

/-- A tile-op that is not tagged ends with its slots counted, and leaves no sample (R409, R411). -/
theorem tileEnd_untagged_keeps (s : State) (k : Nat) {x : TileOp} (stopped : Bool) (htag : x.tagged = false) :
    Keeps [.regs, .port, .pmu] s (tileEnd s k x stopped) := by
  unfold tileEnd
  extract_lets lost s1 s2
  have h1 : Keeps [.regs, .port, .pmu] s s1 := by
    unfold s1
    split
    · exact Keeps.refl _ _
    · exact pmuAdd_keeps ..
  rw [htag, if_neg Bool.false_ne_true]
  unfold s2
  split
  · exact h1
  · exact h1.step (pmuAdd_keeps ..) rfl

/-- The lines of other operations are after RETIRE what the writes of the tile's outputs have made of them. -/
theorem lineGet_bightRetire_ne {s : State} {k : Nat} {x : TileOp} {o : OpEnt} {n : Nat} (hop : opFind s x.line x.seq = some o)
    (htag : x.tagged = false) (hready : bgtReady s x.account o [] (bgtWrites (opShape o) o (tileSeq o x) x) = true)
    (hn : n ≠ x.line) : lineGet (bightRetire s k x) n = lineGet (writeBight s k o x).st n := by
  unfold bightRetire
  split
  · rename_i hnone
    exact absurd (hop.symm.trans hnone) (by simp)
  · rename_i p hp
    obtain rfl : o = p := Option.some.inj (hop.symm.trans hp)
    extract_lets h writes w good s1 lost s2 s3
    rw [if_neg (by simp [h, writes, hready])]
    have hend := tileEnd_untagged_keeps (drawn s1) k (x := { x with discardSlots := lost }) false htag
    have hkeep : Keeps [.free, .regs, .port, .strands, .tiers, .pmu] w.st s3 :=
      ((((((noteAccess_keeps w.st x.account good).mono rfl).step (drawn_keeps s1) rfl).step hend rfl).step
        (tileDrop_keeps ..) rfl).step (pmuAdd_keeps ..) rfl).step (pmuAdd_keeps ..) rfl
    have hlines : lineGet s3 n = lineGet w.st n := lineGet_congr (hkeep.same .lines rfl) n
    split
    · exact (lineGet_opSet_ne _ _ hn).trans hlines
    · exact hlines

theorem execTileOpRetire_bight {s : State} {strand : StrandNo} {array : ArrayNo} {x : TileOp}
    (hat : tileAt s strand.val array.val .drained = some x) (hb : x.bight = true) :
    exec (.tileOpRetire strand array) s = .next (bightRetire s strand.val x) := by
  have hrun : execTileOpRetire strand array s = .next (if x.bight then bightRetire s strand.val x else braidRetire s strand.val x) := by
    rw [execTileOpRetire, hat]
  rwa [if_pos hb] at hrun

/-! ### An output in a RAW data slab, in a frame that holds another account's block -/

/-- A backward operation of one query row, one head and DL 64, whose dQ lies in the straight window. -/
def straightOp : OpEnt :=
  { opNew 0 0 1 (BitVec.ofNat 512 opBgtBwd) 0 with
    dispatched := true
    par := bytesOf 8 (1 <<< 32 + 64 <<< 48) ++ List.replicate 48 0 ++ bytesOf 8 straightBase
    tab := bytesOf 8 (1 <<< 32) }

/-- Its drained tile of phase B, for account 0: one element, in a chafed row. -/
def straightTile : TileOp :=
  { tileNew 0 straightOp 0 0 0 with
    bight := true, phase := 2, rows := 1, stage := .drained, out := [1], aVals := [1], chafed := true }

/-- An operation of line 256 that runs and may be suspended. -/
def bystander : OpEnt := { opNew 0 0 1 (BitVec.ofNat 512 opBrdMm) 0 with dispatched := true }

/-- Mantle slab 0 is the RAW data slab of account 0; its first frame holds a SHARED block of account 1, which owns line 256 and
halts on chafe. -/
def straightState : State :=
  let act := cwSet (cwSet (cwSet [] (flErrPolicy.off 1) 2) (flPageAcct.off 1) 1) (flRawValid.off 0) 0x10000
  let s0 : State := { State.reset with cfg := { State.reset.cfg with act := act } }
  let s1 := htSet s0 (blockNo mantleBase) { HtEntry.reset with state := .home, tier := .mantle, shared := true, account := 1 }
  let s2 := lineSet (lineSet s1 0 { Line.reset with ops := [straightOp] }) 256 { Line.reset with ops := [bystander] }
  strandSet s2 0 { Strand.reset with tiles := [straightTile] }

/-- The marked write chafes the block of account 1, which halts: the operation of line 256 is to suspend (R178). -/
theorem straightTile_halts_bystander :
    (lineGet (writeBight straightState 0 straightOp straightTile).st 256).ops.map OpEnt.track = [.suspendPending] := by decide +kernel

/-- Refutes O39: the statement asks only that the tile-op's own account does not halt on chafe. An output in the straight window
reaches a RAW data slab of that account (R183), and there the block of another account, whose policy halts the operations of a line
that the statement leaves as it was. (The dispatch checks of R144 let no such output pass; the statement does not ask for them.) -/
theorem not_tileOpRetires : ¬ Obligations.TileOpRetires := by
  intro h
  have hat : tileAt straightState 0 0 .drained = some straightTile := by decide +kernel
  have hop : opFind straightState 0 0 = some straightOp := by decide +kernel
  have hpolicy : actF straightState flErrPolicy 0 ≠ 2 := by decide +kernel
  have hready : bgtReady straightState 0 straightOp []
      (bgtWrites (opShape straightOp) straightOp (tileSeq straightOp straightTile) straightTile) = true := by decide +kernel
  obtain ⟨-, hbight⟩ := h 0 0 straightTile straightOp straightState hat hop rfl
  obtain ⟨-, hretires⟩ := hbight rfl hpolicy
  obtain ⟨t, ht, -, -, hlines, -⟩ := hretires hready
  have hrun : t = bightRetire straightState 0 straightTile := Host.Outcome.next.inj (ht.symm.trans (execTileOpRetire_bight hat rfl))
  have hne : (256 : Nat) ≠ straightTile.line := by decide
  have hwrite : lineGet t 256 = lineGet (writeBight straightState 0 straightOp straightTile).st 256 :=
    hrun ▸ lineGet_bightRetire_ne hop rfl hready hne
  have hruns : (lineGet straightState 256).ops.map OpEnt.track = [.running] := by decide +kernel
  have hhalts := straightTile_halts_bystander
  rw [← hwrite, hlines 256 hne, hruns] at hhalts
  exact absurd hhalts (by decide)

end Sys2Proof.Machine
end

section
/-! SUPPORT. The dispatch of VEC_OP (O21, R106, R178, R235, R253, R275). -/

set_option Elab.async false

namespace Sys2Proof.Machine

open Sys2Proof

/-! ### What a dispatch ends in after its reads were noted -/

/-- An operation that no cancel has reached ends with the status that it is given. -/
theorem endStatus_of_ne {o : OpEnt} {st : Nat} (htrack : o.track ≠ .cancelPending) (hst : st ≠ stOk) : endStatus o st = st := by
  rw [endStatus, if_neg htrack, if_neg hst]

section
variable {s u : State} {n : Nat} {o : OpEnt} (hread : Accessed s u)
include hread

/-- An entry `p` in place of the undispatched operation `o`, over the reads of the dispatch. -/
theorem Accessed.enters {p : OpEnt} (hu : undispatched s n = some o) (hp : p.seq = o.seq) :
    Entered s (noteLine (opSet u n p) n) n p ∧ SameBytes s (noteLine (opSet u n p) n) ∧
      OnlyIn [.port, .lines, .tiers, .pmu] s (noteLine (opSet u n p) n) := by
  have hu' : undispatched u n = some o := by rw [undispatched, hread.lineGet]; exact hu
  have hk := (hread.keeps.mono (ps := [.port, .lines, .tiers, .pmu]) rfl).step (enter_keeps u n p) rfl
  exact ⟨hread.entered (enter_entered hu' hp), hk.sameBytes rfl rfl, hk.only⟩

/-- A rejection over the reads of the dispatch. -/
theorem Accessed.rejects (st : Nat) (hrec : Machine.recordOpen s n = true) (htrack : o.track ≠ .cancelPending) :
    Finished s (rejectOp u n o st) n o.seq st 0 s.belay.epoch o.desc [] := by
  have hf := hread.finished (rejectOp_rejects (o := o) st (by rwa [hread.recordOpen]) htrack)
  rwa [(hread.keeps.same .belay rfl : u.belay = s.belay)] at hf

/-- An end with a status of its own over the reads of the dispatch. -/
theorem Accessed.finishes {st : Nat} (opb : List Byte) (hrec : Machine.recordOpen s n = true) (htrack : o.track ≠ .cancelPending)
    (hst : st ≠ stOk) : Finished s (finishOp u n o st opb) n o.seq st o.flags o.epoch o.desc opb := by
  have hf := hread.finished (finishOp_finished u n o st opb (by rwa [hread.recordOpen]))
  rwa [endStatus_of_ne htrack hst] at hf

end

/-! ### VEC_OP -/

/-- The entry of a VEC_OP that is dispatched now: its program and its number of groups. -/
def vecEntry (s : State) (n : Nat) (o : OpEnt) : OpEnt :=
  { opDispatch s o with
    total := vecGroups o.desc, prog := (readProg s n o.desc).1, chafedProg := (readProg s n o.desc).2 }

/-- Its program is well formed (R106). -/
def vecProgGood (s : State) (n : Nat) (o : OpEnt) : Bool := vecProgOk (vcLen o.desc) (readProg s n o.desc).1

/-- Under COMMIT: an abort is pending, or the step record says skip (R253). -/
def vecSkips (s : State) (n : Nat) (o : OpEnt) : Bool :=
  abortPending s (lineAcct s n) || recSkip (commitRecord s n o.desc).1

/-- The state with the reads of the dispatch noted (R154, R155). -/
def vecRead (s : State) (n : Nat) (o : OpEnt) : State := noteAccess s (lineAcct s n) (spansBlocks (vecDispReads o.desc))

theorem vecRead_accessed (s : State) (n : Nat) (o : OpEnt) : Accessed s (vecRead s n o) := noteAccess_accessed ..

/-- The dispatch of a VEC_OP whose program is well formed: under COMMIT the step record decides (R178, R253). -/
def vecStart (s : State) (n : Nat) (o : OpEnt) : State :=
  if vcCommit o.desc then
    if (commitRecord s n o.desc).2 then finishOp (vecRead s n o) n (vecEntry s n o) stUncorrectable (vecBytes (vecEntry s n o))
    else if vecSkips s n o then
      finishOp (vecRead s n o) n (opFlags (vecEntry s n o) flagSkipped) stOkSkipped (vecBytes (vecEntry s n o))
    else noteLine (opSet (vecRead s n o) n { vecEntry s n o with par := (commitRecord s n o.desc).1 }) n
  else noteLine (opSet (vecRead s n o) n (vecEntry s n o)) n

section
variable {s : State} {line : LineNo} {o : OpEnt} (h : dispatchable s line.toNat o opVecOp = true)
include h

/-- The dispatch of a VEC_OP, outcome by outcome. -/
theorem vecOp_eq : exec (.vecOp line) s = .next (
    if readsHeld s (vecDispReads o.desc) then noteWaits s (vecDispReads o.desc) false
    else if !vecProgGood s line.toNat o then rejectOp (vecRead s line.toNat o) line.toNat o stDescInvalid
    else vecStart s line.toNat o) :=
  onDispatch_run s line.toNat opVecOp _ o h

theorem vecOp_waits (hheld : readsHeld s (vecDispReads o.desc) = true) :
    Answers (.vecOp line) s (fun t => SameBytes s t ∧ OnlyIn [.eng] s t) := by
  have hrun := vecOp_eq h
  rw [if_pos hheld] at hrun
  have hk := noteWaits_keeps s (vecDispReads o.desc) false
  exact ⟨_, hrun, hk.sameBytes rfl rfl, hk.only⟩

section
variable (hheld : readsHeld s (vecDispReads o.desc) = false)
include hheld

theorem vecOp_rejects (hbad : vecProgGood s line.toNat o = false) (hrec : recordOpen s line.toNat = true) :
    Answers (.vecOp line) s (fun t => Finished s t line.toNat o.seq stDescInvalid 0 s.belay.epoch o.desc []) := by
  have hrun := vecOp_eq h
  rw [hheld, hbad, if_neg Bool.false_ne_true, if_pos Bool.not_false] at hrun
  obtain ⟨-, -, -, htrack⟩ := dispatchable_iff _ _ _ _ h
  exact ⟨_, hrun, (vecRead_accessed s line.toNat o).rejects _ hrec htrack⟩

variable (hgood : vecProgGood s line.toNat o = true)
include hgood

/-- A well-formed program starts, or ends by its step record. -/
theorem vecOp_starts : exec (.vecOp line) s = .next (vecStart s line.toNat o) := by
  have hrun := vecOp_eq h
  rwa [hheld, hgood, if_neg Bool.false_ne_true, if_neg (by decide)] at hrun

theorem vecOp_enters (hcommit : vcCommit o.desc = false) : Answers (.vecOp line) s (fun t =>
    Entered s t line.toNat (vecEntry s line.toNat o) ∧ SameBytes s t ∧ OnlyIn [.port, .lines, .tiers, .pmu] s t) := by
  have hrun := vecOp_starts h hheld hgood
  rw [vecStart, hcommit, if_neg Bool.false_ne_true] at hrun
  obtain ⟨hu, -⟩ := dispatchable_iff _ _ _ _ h
  exact ⟨_, hrun, (vecRead_accessed s line.toNat o).enters hu rfl⟩

variable (hcommit : vcCommit o.desc = true)
include hcommit

theorem vecOp_entersRecord (hch : (commitRecord s line.toNat o.desc).2 = false) (hskip : vecSkips s line.toNat o = false) :
    Answers (.vecOp line) s (fun t =>
      Entered s t line.toNat { vecEntry s line.toNat o with par := (commitRecord s line.toNat o.desc).1 } ∧ SameBytes s t ∧
        OnlyIn [.port, .lines, .tiers, .pmu] s t) := by
  have hrun := vecOp_starts h hheld hgood
  rw [vecStart, if_pos hcommit, hch, hskip, if_neg Bool.false_ne_true, if_neg Bool.false_ne_true] at hrun
  obtain ⟨hu, -⟩ := dispatchable_iff _ _ _ _ h
  exact ⟨_, hrun, (vecRead_accessed s line.toNat o).enters hu rfl⟩

theorem vecOp_recordChafed (hch : (commitRecord s line.toNat o.desc).2 = true) (hrec : recordOpen s line.toNat = true) :
    Answers (.vecOp line) s (fun t => Finished s t line.toNat o.seq stUncorrectable o.flags s.belay.epoch o.desc
      (vecBytes (vecEntry s line.toNat o))) := by
  have hrun := vecOp_starts h hheld hgood
  rw [vecStart, if_pos hcommit, if_pos hch] at hrun
  obtain ⟨-, -, -, htrack⟩ := dispatchable_iff _ _ _ _ h
  exact ⟨_, hrun, (vecRead_accessed s line.toNat o).finishes (o := vecEntry s line.toNat o) _ hrec htrack (by decide)⟩

theorem vecOp_skips (hch : (commitRecord s line.toNat o.desc).2 = false) (hskip : vecSkips s line.toNat o = true)
    (hrec : recordOpen s line.toNat = true) :
    Answers (.vecOp line) s (fun t => Finished s t line.toNat o.seq stOkSkipped (o.flags ||| flagSkipped) s.belay.epoch o.desc
      (vecBytes (vecEntry s line.toNat o))) := by
  have hrun := vecOp_starts h hheld hgood
  rw [vecStart, if_pos hcommit, hch, if_neg Bool.false_ne_true, if_pos hskip] at hrun
  obtain ⟨-, -, -, htrack⟩ := dispatchable_iff _ _ _ _ h
  exact ⟨_, hrun,
    (vecRead_accessed s line.toNat o).finishes (o := opFlags (vecEntry s line.toNat o) flagSkipped) _ hrec htrack (by decide)⟩

end

end

/-- Settles O21, outcome by outcome. -/
theorem vectorOpDispatches : Obligations.VectorOpDispatches := by
  intro line o s h
  refine ⟨fun hheld => vecOp_waits h hheld, fun hheld => ⟨fun hbad hrec => vecOp_rejects h hheld hbad hrec,
    fun hgood hcommit => vecOp_enters h hheld hgood hcommit, fun hgood hcommit => ⟨fun hch habort hskip => ?_,
    fun hch hrec => vecOp_recordChafed h hheld hgood hcommit hch hrec,
    fun hch hskip hrec => vecOp_skips h hheld hgood hcommit hch hskip hrec⟩⟩⟩
  have hruns : vecSkips s line.toNat o = false := Bool.or_eq_false_iff.2 ⟨habort, hskip⟩
  exact vecOp_entersRecord h hheld hgood hcommit hch hruns

end Sys2Proof.Machine
end

section
/-! SUPPORT. ISSUE of a bight's tile whose phase 0 writes its statistics in the straight window (O41, R136, R178, R183). -/

set_option Elab.async false

namespace Sys2Proof.Machine

open Sys2Proof

/-! ### Statistics in a RAW data slab, in a frame that holds another account's block -/

/-- The backward operation of one query row, with its statistics at the start of the straight window: one sequence, of one tile on
one array. O and dO lie in block 0, which is not bound, so DELTA of the row is chafed (R155). -/
def straightStatOp : OpEnt :=
  { straightOp with
    desc := BitVec.ofNat 512 (opBgtBwd + straightBase <<< (8 * 0x18) + 1 <<< (8 * 0x20 + 48) + 1 <<< (8 * 0x30 + 48))
    total := 1 }

/-- Its one tile, of phase B: phase 0 of its sequence is still to run. -/
def straightStatTile : TileOp := { tileNew 0 straightStatOp 0 0 0 with bight := true, phase := 2, rows := 1 }

/-- `straightState`, with its RAW data slab of account 0 in which account 1 has a block, and its bystander on line 256 of account 1.
Line 0 holds the operation instead; strand 0 has no tile-op, and one array for bights. -/
def straightIssueState : State :=
  let s1 := lineSet straightState 0 { Line.reset with ops := [straightStatOp] }
  strandSet { s1 with cfg := { s1.cfg with act := cwSet s1.cfg.act (flMaxArrays.off 0) 1 } } 0 Strand.reset

/-- The request that the array arbiter grants. -/
def straightReq : Req :=
  { cls := 0, acct := 0, key := 0, cost := bgtCost straightIssueState straightStatOp straightStatTile, readyAt := 0, deadline := 0,
    fits := true }

/-- Where the operations of a line stand after an outcome. -/
def tracksAfter (n : Nat) : Out → List Track
  | .next t => (lineGet t n).ops.map OpEnt.track
  | _ => []

/-- Phase 0 writes a chafed DELTA into the block of account 1, which halts: the operation of line 256 is to suspend (R178). -/
theorem straightStat_halts_bystander :
    tracksAfter 256 (exec (.bgtTileIssue ⟨0, []⟩) straightIssueState) = [.suspendPending] := by decide +kernel

/-- Refutes O41: where phase 0 is still to run, the statement asks only that the operation's own account does not halt on chafe.
Statistics in the straight window reach a RAW data slab of that account (R183), and there the block of another account, whose policy
halts the operations of a line that the statement leaves as it was. (The dispatch checks of R144 let no such statistics pass; the
statement does not ask for them.) -/
theorem not_bightTilesAndPages : ¬ Obligations.BightTilesAndPages := by
  intro h
  have hpick : (pickNow straightIssueState 65536 false (arrayReqs straightIssueState 0)
      (mapGet Arb.reset straightIssueState.braidArb 0)).1 = some straightReq := by decide +kernel
  have hhead : arrayHead straightIssueState straightReq.key = some straightStatOp := by decide +kernel
  have hop : opFind straightIssueState straightReq.key straightStatOp.seq = some straightStatOp := by decide +kernel
  have hbight : brdRuns straightStatOp = false := by decide +kernel
  have hnext : nextTile straightIssueState straightReq.key straightStatOp = some straightStatTile := by decide +kernel
  have hfree : freeArrays straightIssueState 0 ≠ [] := by decide +kernel
  have hpolicy : actF straightIssueState flErrPolicy (lineAcct straightIssueState straightReq.key) ≠ 2 := by decide +kernel
  obtain ⟨hissues, -, -⟩ := h 0 straightStatOp straightIssueState
  obtain ⟨t, ht, -, -, -, hlines, -, -⟩ := hissues [] straightReq straightStatTile rfl rfl hpick hhead hop hbight hnext hfree
    (fun _ => ⟨rfl, hpolicy⟩)
  have hruns : (lineGet straightIssueState 256).ops.map OpEnt.track = [.running] := by decide +kernel
  have hhalts : (lineGet t 256).ops.map OpEnt.track = [.suspendPending] := by
    have hrun := straightStat_halts_bystander
    rwa [ht] at hrun
  rw [hlines 256 (by decide), hruns] at hhalts
  exact absurd hhalts (by decide)

end Sys2Proof.Machine
end

section
/-! SUPPORT. The interrupt registers, the home-table lookup and the nip (O9, R151, R154, R407, R423, R424). -/

set_option Elab.async false

namespace Sys2Proof.Machine

open Sys2Proof

/-! ### The interrupt registers (R423) -/

theorem linkUp_of_hostReach {s : State} (h : hostReach s = true) : s.port.linkUp = true ∧ s.port.flrAt = none := by
  simp only [hostReach, Bool.and_eq_true, Option.isNone_iff_eq_none] at h
  obtain ⟨⟨⟨⟨-, -⟩, hl⟩, hf⟩, -⟩ := h
  exact ⟨hl, hf⟩

/-- A message due on a vector that is not masked goes out while the link is up and no FLR runs (R365). -/
theorem sendVec_out {s : State} {v : Nat} (hl : s.port.linkUp = true) (hf : s.port.flrAt = none)
    (hm : (mapGet MsixEntry.reset s.port.msix v).mask = false) : (sendVec s v).port.out = s.port.out ++ [.msix v] := by
  simp [sendVec, hl, hf, hm, pmuBase_port]

/-- What a host's write of an interrupt register leaves: the registers, and the message of an enabled cause. -/
theorem setIrq_forced {s : State} (hr : hostReach s = true) (cause en : W32) :
    (setIrq s cause en true).regs = { s.regs with irqCause := cause, irqEn := en } ∧
    (cause &&& en = 0 → (setIrq s cause en true).port = s.port) ∧
    (cause &&& en ≠ 0 → (mapGet MsixEntry.reset s.port.msix (actF s flCauseVec 0)).mask = false →
      (setIrq s cause en true).port.out = s.port.out ++ [.msix (actF s flCauseVec 0)]) ∧
    OnlyIn [.regs, .port, .pmu] s (setIrq s cause en true) := by
  obtain ⟨hl, hf⟩ := linkUp_of_hostReach hr
  have hset : setIrq s cause en true = if cause &&& en = 0 then { s with regs := { s.regs with irqCause := cause, irqEn := en } }
      else sendVec { s with regs := { s.regs with irqCause := cause, irqEn := en } } (actF s flCauseVec 0) := by
    by_cases h : cause &&& en = 0 <;> simp [setIrq, h]
  refine ⟨?_, fun h => ?_, fun h hm => ?_, (setIrq_keeps ..).only⟩
  · rw [hset]
    split
    · rfl
    · rw [sendVec_regs]
  · rw [hset, if_pos h]
  · rw [hset, if_neg h]
    exact sendVec_out hl hf hm

theorem irqCauseClear_answers {s : State} (ht : hostTurn s = true) (val : W32) :
    Answers (.irqCauseClear val) s (fun t =>
      t.regs = { s.regs with irqCause := s.regs.irqCause &&& ~~~ val } ∧
      ((s.regs.irqCause &&& ~~~ val) &&& s.regs.irqEn = 0 → t.port = s.port) ∧
      ((s.regs.irqCause &&& ~~~ val) &&& s.regs.irqEn ≠ 0 →
        (mapGet MsixEntry.reset s.port.msix (actF s flCauseVec 0)).mask = false →
        t.port.out = s.port.out ++ [.msix (actF s flCauseVec 0)]) ∧
      OnlyIn [.regs, .port, .pmu] s t) := by
  have hr := hostReach_of_hostTurn ht
  refine ⟨setIrq s (s.regs.irqCause &&& ~~~ val) s.regs.irqEn true, ?_, setIrq_forced hr _ _⟩
  exact (hostLane_of_not_waits (hostWaits_of_hostTurn ht) _ _).trans (if_pos hr)

theorem irqEnableWrite_answers {s : State} (ht : hostTurn s = true) (val : W32) :
    Answers (.irqEnableWrite val) s (fun t =>
      t.regs = { s.regs with irqEn := val &&& 0x7FFF } ∧
      (s.regs.irqCause &&& (val &&& 0x7FFF) = 0 → t.port = s.port) ∧
      (s.regs.irqCause &&& (val &&& 0x7FFF) ≠ 0 →
        (mapGet MsixEntry.reset s.port.msix (actF s flCauseVec 0)).mask = false →
        t.port.out = s.port.out ++ [.msix (actF s flCauseVec 0)]) ∧
      OnlyIn [.regs, .port, .pmu] s t) := by
  have hr := hostReach_of_hostTurn ht
  refine ⟨setIrq s s.regs.irqCause (val &&& 0x7FFF) true, ?_, setIrq_forced hr _ _⟩
  exact (hostLane_of_not_waits (hostWaits_of_hostTurn ht) _ _).trans (if_pos hr)

/-! ### The lookup (R151, R154) -/

theorem homeTableLookup_answers {s : State} (ht : hostTurn s = true) (name : DevAddr) :
    Answers (.homeTableLookup name) s (fun t =>
      t.regs = { s.regs with
        htName := name, htEntry := htWord (htGet s (blockNo name.toNat)), htTouch := (htGet s (blockNo name.toNat)).touch,
        htAt := s.clk + 200 } ∧ OnlyIn [.regs] s t) :=
  ⟨_, (hostLane_of_not_waits (hostWaits_of_hostTurn ht) _ _).trans (if_pos (hostReach_of_hostTurn ht)), rfl,
    (Keeps.upd (Keeps.refl [.regs] s)).only⟩

/-! ### The nip (R407) -/

/-- The first multiple of `m` at or after `x`. -/
theorem ceilDiv_mul_first (x : Nat) {m : Nat} (hm : 0 < m) :
    x ≤ ceilDiv x m * m ∧ ceilDiv x m * m % m = 0 ∧ ∀ y : Nat, x ≤ y → y % m = 0 → ceilDiv x m * m ≤ y := by
  have hceil : ceilDiv x m = x ⌈/⌉ m := rfl
  refine ⟨?_, Nat.mul_mod_left _ _, fun y hxy hy => ?_⟩
  · rw [hceil, Nat.mul_comm]
    exact le_smul_ceilDiv hm
  · obtain ⟨q, rfl⟩ := Nat.dvd_of_mod_eq_zero hy
    rw [hceil, Nat.mul_comm]
    exact Nat.mul_le_mul_left m ((ceilDiv_le_iff_le_smul hm).2 hxy)

/-- A request in the host's turn, with an ALIGN_LOG2 that the module takes. -/
theorem execNipRequest_turn {s : State} (ht : hostTurn s = true) (hn : nipAvail s = true) {a : BitVec 5}
    (ha : a.toNat = 0 ∨ (10 ≤ a.toNat ∧ a.toNat ≤ 30)) : exec (.nipRequest a) s = .next (nipAsk s a.toNat).1 := by
  have hrun := hostLane_of_not_waits (hostWaits_of_hostTurn ht) (.nipRequest a) (nipRequestNow a)
  refine hrun.trans ?_
  simp [nipRequestNow, hostReach_of_hostTurn ht, hn, ha]

theorem nipRequest_schedules {s : State} (ht : hostTurn s = true) (hn : nipAvail s = true) {a : BitVec 5}
    (ha : a.toNat = 0 ∨ (10 ≤ a.toNat ∧ a.toNat ≤ 30)) (hfree : s.pmu.nipAt = none) :
    Answers (.nipRequest a) s (fun t =>
      (∃ T : Nat, t.pmu = { s.pmu with nipAt := some T } ∧ s.tb.now.toNat + 1000 ≤ T ∧ T % 2 ^ a.toNat = 0 ∧
        (∀ x : Nat, s.tb.now.toNat + 1000 ≤ x → x % 2 ^ a.toNat = 0 → T ≤ x)) ∧ OnlyIn [.pmu] s t) := by
  have hask : (nipAsk s a.toNat).1 = { s with pmu := { s.pmu with nipAt := some (nipInstant s.tb.now.toNat a.toNat) } } := by
    simp [nipAsk, hfree]
  refine ⟨_, execNipRequest_turn ht hn ha, ?_⟩
  rw [hask]
  exact ⟨⟨_, rfl, ceilDiv_mul_first _ (Nat.two_pow_pos _)⟩, (Keeps.upd (Keeps.refl [.pmu] s)).only⟩

theorem nipRequest_overruns {s : State} (ht : hostTurn s = true) (hn : nipAvail s = true) {a : BitVec 5}
    (ha : a.toNat = 0 ∨ (10 ≤ a.toNat ∧ a.toNat ≤ 30)) (hbusy : s.pmu.nipAt ≠ none) :
    Answers (.nipRequest a) s (fun t => t.pmu = { s.pmu with nipOverrun := true } ∧ OnlyIn [.pmu] s t) := by
  have hask : (nipAsk s a.toNat).1 = { s with pmu := { s.pmu with nipOverrun := true } } := by
    simp [nipAsk, Option.isSome_iff_ne_none.2 hbusy]
  refine ⟨_, execNipRequest_turn ht hn ha, ?_⟩
  rw [hask]
  exact ⟨rfl, (Keeps.upd (Keeps.refl [.pmu] s)).only⟩

/-- The copies of a nip hold no counter at the places of the two TAILs. -/
theorem nipCopies_tails (s : State) :
    mapGet 0 (nipCopies s) 384 = s.pmu.knotTail ∧ mapGet 0 (nipCopies s) 385 = s.pmu.sampleTail := by
  obtain ⟨cs, hcs, hlow⟩ : ∃ cs : SMap Nat,
      nipCopies s = (cs ++ [(384, s.pmu.knotTail), (385, s.pmu.sampleTail)]).filter (fun p => p.2 != 0) ∧ ∀ p ∈ cs, p.1 < 384 := by
    refine ⟨_, rfl, fun p hp => ?_⟩
    split at hp <;> obtain ⟨i, hi, rfl⟩ := List.mem_map.1 hp <;> have := List.mem_range.1 hi <;> dsimp only <;> omega
  have hnone (k : Nat) (hk : 384 ≤ k) : mapFind (cs.filter (fun p => p.2 != 0)) k = none := by
    refine mapFind_eq_none (fun p hp => ?_)
    have := hlow p (List.mem_filter.1 hp).1
    omega
  rw [hcs, List.filter_append, mapGet, mapGet, mapFind_append, mapFind_append, hnone _ (by omega), hnone _ (by omega)]
  by_cases hk : s.pmu.knotTail = 0 <;> by_cases hsm : s.pmu.sampleTail = 0 <;> simp [hk, hsm, mapFind]

/-- Counting moves the counters and their overflow bits; the rest of the PMU stays. -/
theorem pmuBase_pmu (s : State) (code n : Nat) (a : Attr) :
    ∃ (alw : SMap Nat) (ovf : List Nat) (blk : SMap Nat),
      (pmuBase s code n a).1.pmu = { s.pmu with alw := alw, ovf := ovf, blk := blk } := by
  unfold pmuBase
  dsimp only
  split
  · split
    · exact ⟨_, _, _, rfl⟩
    · exact ⟨s.pmu.alw, s.pmu.ovf, s.pmu.blk, rfl⟩
  · exact ⟨s.pmu.alw, s.pmu.ovf, _, rfl⟩

theorem sendVec_pmu (s : State) (v : Nat) :
    ∃ (alw : SMap Nat) (ovf : List Nat) (blk : SMap Nat), (sendVec s v).pmu = { s.pmu with alw := alw, ovf := ovf, blk := blk } := by
  unfold sendVec
  split
  · exact pmuBase_pmu ..
  · exact ⟨s.pmu.alw, s.pmu.ovf, s.pmu.blk, rfl⟩

theorem raiseCause_pmu (s : State) (b : Nat) :
    ∃ (alw : SMap Nat) (ovf : List Nat) (blk : SMap Nat), (raiseCause s b).pmu = { s.pmu with alw := alw, ovf := ovf, blk := blk } := by
  unfold raiseCause setIrq
  dsimp only
  split
  · exact sendVec_pmu ..
  · exact ⟨s.pmu.alw, s.pmu.ovf, s.pmu.blk, rfl⟩

/-- The state in which a nip of instant `T` ends, before its cause is raised. -/
def nipShown (s : State) (T : Nat) : State :=
  { s with pmu := { s.pmu with
    shadow := s.pmu.nipHeld.getD (nipCopies s), nipAt := none, nipHeld := none, nipDone := true, nipTime := BitVec.ofNat 64 T } }

theorem nipCapture_answers {s : State} {T : Nat} (hT : s.pmu.nipAt = some T) (hnow : T ≤ s.tb.now.toNat) :
    Answers .nipCapture s (fun t =>
      t.pmu.nipAt = none ∧ t.pmu.nipDone = true ∧ t.pmu.nipTime = BitVec.ofNat 64 T ∧
      (∀ h : SMap Nat, s.pmu.nipHeld = some h → t.pmu.shadow = h) ∧
      (s.pmu.nipHeld = none → mapGet 0 t.pmu.shadow 384 = s.pmu.knotTail ∧ mapGet 0 t.pmu.shadow 385 = s.pmu.sampleTail) ∧
      t.regs.irqCause = s.regs.irqCause ||| 0x400 ∧ OnlyIn [.free, .regs, .port, .pmu] s t) := by
  have hrun : exec .nipCapture s = .next (raiseCause (nipShown s T) irqNip) := by
    simp only [exec, execNipCapture, hT, if_pos hnow]
    rfl
  obtain ⟨alw, ovf, blk, hpmu⟩ := raiseCause_pmu (nipShown s T) irqNip
  have hkeeps : Keeps [.regs, .port, .pmu] s (raiseCause (nipShown s T) irqNip) :=
    (Keeps.upd (Keeps.refl [.pmu] s)).mono rfl |>.step (raiseCause_keeps ..) rfl
  refine ⟨_, hrun, ?_⟩
  beta_reduce
  rw [hpmu]
  refine ⟨rfl, rfl, rfl, fun h hh => ?_, fun hh => ?_, setIrq_cause .., hkeeps.only.mono rfl⟩
  · simp only [nipShown, hh, Option.getD_some]
  · simp only [nipShown, hh, Option.getD_none]
    exact nipCopies_tails s

/-- Settles O9, register by register. -/
theorem interruptLookupAndNip : Obligations.InterruptLookupAndNip :=
  ⟨fun val _ ht => ⟨irqCauseClear_answers ht val, irqEnableWrite_answers ht val⟩, fun _ =>
    ⟨fun name ht => homeTableLookup_answers ht name,
      fun _ ht hn ha => ⟨nipRequest_schedules ht hn ha, nipRequest_overruns ht hn ha⟩,
      fun _ hT hnow => nipCapture_answers hT hnow⟩⟩

end Sys2Proof.Machine
end

section
/-! SUPPORT. The host's command registers (O11, R178, R276, R278, R280, R281, R318, R351, R380). -/

set_option Elab.async false

namespace Sys2Proof.Machine

open Sys2Proof

/-- A host command in its turn runs now. -/
theorem hostLane_turn {s : State} (ht : hostTurn s = true) (c : Instr) (run : State → Out) : hostLane c run s = run s :=
  hostLane_of_not_waits (hostWaits_of_hostTurn ht) c run

/-! ### Hitches and lines (R276, R278, R280) -/

theorem lineHitchAdd_answers {s : State} (ht : hostTurn s = true) (hitch : HitchNo) (add : W32) (hw : heldWrites s = false) :
    Answers (.lineHitchAdd hitch add) s (fun t =>
      (hitchGet t hitch.toNat).count = (hitchGet s hitch.toNat).count + add ∧
      (∀ h : Nat, h ≠ hitch.toNat → hitchGet t h = hitchGet s h) ∧ OnlyIn [.hitches] s t) := by
  refine ⟨hitchAdd s hitch.toNat add none, ?_, hitchAdd_count .., fun h hne => hitchAdd_ne _ _ _ _ _ hne, (hitchAdd_keeps ..).only⟩
  simp [exec, execLineHitchAdd, hostSignal, hostWaits_of_hostTurn ht, hw, lineHitchAddNow, hostReach_of_hostTurn ht]

theorem restart_answers {s : State} (ht : hostTurn s = true) (line : LineNo) (hst : lineState s line.toNat = 3) :
    Answers (.restart line) s (fun t =>
      (∃ seen since ready, lineGet t line.toNat = { lineGet s line.toNat with
        stopped := false, seen := seen, since := since, takeReady := ready }) ∧
      (∀ m : Nat, m ≠ line.toNat → lineGet t m = lineGet s m) ∧ OnlyIn [.port, .lines, .pmu] s t) := by
  have hrun : exec (.restart line) s =
      .next (noteLine (lineSet s line.toNat { lineGet s line.toNat with stopped := false }) line.toNat) := by
    simp [exec, execRestart, hostLane_turn ht, restartNow, hostReach_of_hostTurn ht, hst]
  refine ⟨_, hrun, ?_, fun m hm => ?_, ((lineSet_keeps ..).mono rfl |>.step (noteLine_keeps ..) rfl).only⟩
  · obtain ⟨seen, since, ready, hl⟩ := noteLine_line (lineSet s line.toNat { lineGet s line.toNat with stopped := false }) line.toNat
    exact ⟨seen, since, ready, by rw [hl, lineGet_lineSet_self]⟩
  · rw [noteLine_line_ne _ _ _ hm, lineGet_lineSet_ne _ _ _ _ hm]

theorem restart_ignored {s : State} (ht : hostTurn s = true) (line : LineNo) (hst : lineState s line.toNat ≠ 3) :
    exec (.restart line) s = .next s := by
  simp [exec, execRestart, hostLane_turn ht, restartNow, hst]

theorem break_answers {s : State} (ht : hostTurn s = true) (line : LineNo) (lp : LoopSt)
    (hl : (lineGet s line.toNat).loop = some lp) :
    Answers (.break line) s (fun t =>
      lineGet t line.toNat = { lineGet s line.toNat with loop := some { lp with breakPending := true } } ∧
      (∀ m : Nat, m ≠ line.toNat → lineGet t m = lineGet s m) ∧ OnlyIn [.lines] s t) := by
  refine ⟨lineSet s line.toNat { lineGet s line.toNat with loop := some { lp with breakPending := true } }, ?_,
    lineGet_lineSet_self .., fun m hm => lineGet_lineSet_ne _ _ _ _ hm, (lineSet_keeps ..).only⟩
  simp [exec, execBreak, hostLane_turn ht, breakNow, hostReach_of_hostTurn ht, hl]

theorem break_ignored {s : State} (ht : hostTurn s = true) (line : LineNo) (hl : (lineGet s line.toNat).loop = none) :
    exec (.break line) s = .next s := by
  simp [exec, execBreak, hostLane_turn ht, breakNow, hl]

/-! ### Bits that clear or commit (R178, R318, R351, R380) -/

theorem wfcRelease_answers {s : State} (ht : hostTurn s = true) {val : W32} (hv : val.getLsbD 0 = true) :
    Answers (.wfcRelease val) s (fun t => t.wfc = { s.wfc with valid := false } ∧ OnlyIn [.wfc] s t) := by
  refine ⟨{ s with wfc := { s.wfc with valid := false } }, ?_, rfl, (Keeps.upd (Keeps.refl [.wfc] s)).only⟩
  exact (hostLane_turn ht _ _).trans (if_pos (by rw [hostReach_of_hostTurn ht, hv]; rfl))

theorem haltedClear_answers {s : State} (ht : hostTurn s = true) {val : W32} (account : Acct) (hv : val.getLsbD 25 = true) :
    Answers (.haltedClear account val) s (fun t =>
      mapGet AcctSt.reset t.tiers.acct account.toNat =
        { mapGet AcctSt.reset s.tiers.acct account.toNat with halted := false } ∧
      (∀ a : Nat, a ≠ account.toNat → mapGet AcctSt.reset t.tiers.acct a = mapGet AcctSt.reset s.tiers.acct a) ∧
      OnlyIn [.port, .lines, .tiers, .pmu] s t) := by
  have hrun : exec (.haltedClear account val) s = .next (noteAll { s with tiers := { s.tiers with
      acct := mapMod AcctSt.reset s.tiers.acct account.toNat (fun x => { x with halted := false }) } }) :=
    (hostLane_turn ht _ _).trans (if_pos (by rw [hostReach_of_hostTurn ht, hv]; rfl))
  have htiers := (noteAll_keeps { s with tiers := { s.tiers with
      acct := mapMod AcctSt.reset s.tiers.acct account.toNat (fun x => { x with halted := false }) } }).same .tiers rfl
  refine ⟨_, hrun, ?_, fun a ha => ?_,
    ((Keeps.upd (Keeps.refl [.port, .lines, .tiers, .pmu] s)).step (noteAll_keeps ..) rfl).only⟩
  · rw [htiers]
    exact mapGet_mapSet_self ..
  · rw [htiers]
    exact mapGet_mapSet_ne _ _ _ _ _ ha

theorem peerClear_answers {s : State} (ht : hostTurn s = true) {val : W32} (device : BitVec 14) (hv : val.getLsbD 2 = true)
    (hg : peerGone s device.toNat = true) :
    Answers (.peerClear device val) s (fun t =>
      peerGet t device.toNat = { peerGet s device.toNat with state := .unknown } ∧
      (∀ d : Nat, d ≠ device.toNat → peerGet t d = peerGet s d) ∧ OnlyIn [.net] s t) := by
  refine ⟨peerSet s device.toNat { peerGet s device.toNat with state := .unknown }, ?_, peerGet_peerSet_self ..,
    fun d hd => peerGet_peerSet_ne _ _ _ _ hd, (peerSet_keeps ..).only⟩
  simp only [peerGone, Bool.or_eq_true, decide_eq_true_eq] at hg
  simp [exec, execPeerClear, hostLane_turn ht, peerClearNow, hostReach_of_hostTurn ht, hv, hg]

theorem svnCommit_answers {s : State} (ht : hostTurn s = true) {val : W32} (hv : val.getLsbD 14 = true) (hslot : s.boot.slot < 2) :
    Answers (.svnCommit val) s (fun t =>
      t.fuses.svnFloor.toNat = max s.fuses.svnFloor.toNat (min 63 (s.boot.slots.getD s.boot.slot SlotInfo.reset).svn.toNat) ∧
      OnlyIn [.fuses] s t) := by
  refine ⟨{ s with fuses := { s.fuses with svnFloor := BitVec.ofNat 6 (max s.fuses.svnFloor.toNat (min 63 (bootedSvn s))) } }, ?_, ?_,
    (Keeps.upd (Keeps.refl [.fuses] s)).only⟩
  · exact (hostLane_turn ht _ _).trans (if_pos (by simp [hostReach_of_hostTurn ht, hv, hslot]))
  · have hfloor := s.fuses.svnFloor.isLt
    exact BitVec.toNat_ofNat .. |>.trans (Nat.mod_eq_of_lt (by omega))

/-- Settles O11, register by register. -/
theorem hostCommandRegisters : Obligations.HostCommandRegisters :=
  ⟨fun _ ht => ⟨lineHitchAdd_answers ht, restart_answers ht, restart_ignored ht, break_answers ht, break_ignored ht⟩,
    fun _ _ ht => ⟨wfcRelease_answers ht, haltedClear_answers ht, peerClear_answers ht, svnCommit_answers ht⟩⟩

end Sys2Proof.Machine
end

section
/-! SUPPORT. The retire of a demand move whose block waits in the merge list (O43, R152, R156, R257). -/

set_option Elab.async false

namespace Sys2Proof.Machine

open Sys2Proof

/-- A demand of operation 0 of line 0 that brings block 0 from frame 0 of kern to frame 1 of kern. -/
def demandMove : Move :=
  { name := 0, origin := .demand 0 0, fill := false, dest := .kern, account := 0, cls := 0, deadline := 0, queuedAt := 0,
    readyAt := none, started := true, destFrame := 1, held := [], freeAtRetire := false, chafedBlock := false }

/-- Line 0 holds a running operation that wants its blocks in kern, its account may hold four blocks there, and the landing slots
of block 0 are to be merged before its next access. -/
def demandState : State :=
  let s1 := lineSet State.reset 0 { Line.reset with ops := [straightOp] }
  htSet { s1 with
    cfg := { s1.cfg with act := cwSet s1.cfg.act (flCleatHardK.off 0 + 4) 4 }
    tiers := { s1.tiers with moves := [demandMove], merging := [0] } } 0 { HtEntry.reset with state := .moving }

/-- The moves after an outcome: the block, where it goes, and whether it has begun. -/
def movesAfter : Out → List (Nat × Tier × Bool)
  | .next t => t.tiers.moves.map (fun m => (m.name, m.dest, m.started))
  | _ => []

/-- The retire queues the block's next move, to kern, where its consumer wants it. -/
theorem demandMove_moves_on : movesAfter (exec (.blockMoveRetire 0) demandState) = [(0, .kern, false)] := by decide +kernel

/-- Refutes O43: the statement asks that the retire of a move takes the move away and adds none. When the move serves a demand and
the landing slots of its block are to be merged, the retire queues the block's move to kern (R257). -/
theorem not_blockMovesStartAndEnd : ¬ Obligations.BlockMovesStartAndEnd := by
  intro h
  obtain ⟨-, hretires, -⟩ := h demandState
  obtain ⟨hcopy, -, -⟩ := hretires 0 demandMove (by decide +kernel) (by decide +kernel)
  have hsrc : frameHeld demandState .kern 0 false = false := by decide +kernel
  have hdst : frameHeld demandState .kern 1 true = false := by decide +kernel
  obtain ⟨t, ht, -, -, -, -, hmoves, -, -⟩ := hcopy rfl rfl rfl (by decide +kernel) (by decide +kernel) (by decide +kernel)
    (by decide +kernel) (by decide +kernel) (fun _ _ hx => absurd hx List.not_mem_nil) hsrc hdst
  have hnone : t.tiers.moves = [] := (hmoves (Or.inl (by decide +kernel))).trans (by decide +kernel)
  have hrun := demandMove_moves_on
  rw [ht] at hrun
  simp [movesAfter, hnone] at hrun

end Sys2Proof.Machine
end

section
/-! SUPPORT. The moves that the device queues (O44, R163, R166, R167, R168, R169, R173, R174, R228, R236, R308). -/

set_option Elab.async false

namespace Sys2Proof.Machine

open Sys2Proof

/-- With no dead move in the queue, pruning it changes nothing. -/
theorem pruneMoves_eq_self {s : State} (h : s.tiers.moves.any (moveDead s) = false) : pruneMoves s = s := by
  have hdead : ∀ m ∈ s.tiers.moves, moveDead s m = false := by simpa using h
  have hgone : s.tiers.moves.filter (fun m => !m.started && moveDead s m) = [] :=
    List.filter_eq_nil_iff.2 (fun m hm => by simp [hdead m hm])
  have hkept : s.tiers.moves.filter (fun m => m.started || !moveDead s m) = s.tiers.moves :=
    List.filter_eq_self.2 (fun m hm => by simp [hdead m hm])
  rw [pruneMoves, dropQueued, hgone, hkept]
  rfl

/-- A queued move stands last in the queue, with its charge. -/
theorem queueMove_queued (s : State) (b : Nat) (origin : MoveOrigin) (dest : Tier) (cls deadline : Nat) :
    MoveQueued s (queueMove s b origin dest cls deadline) b origin dest cls deadline where
  moves := rfl
  charged := mapGet_mapSet_self 0 s.tiers.charged (ct (htGet s b).account dest) (charge s (htGet s b).account dest + 1)
  incoming := mapGet_mapSet_self 0 s.tiers.movingIn (ct (htGet s b).account dest) (mapGet 0 s.tiers.movingIn (ct (htGet s b).account dest) + 1)
  entries := fun _ => rfl

theorem queueMove_answers {s : State} {c : Instr} (b : Nat) (origin : MoveOrigin) (dest : Tier) (cls deadline : Nat)
    (hrun : exec c s = .next (queueMove s b origin dest cls deadline)) :
    Answers c s (fun t => MoveQueued s t b origin dest cls deadline ∧ OnlyIn [.tiers] s t) :=
  ⟨_, hrun, queueMove_queued .., (queueMove_keeps ..).only⟩

/-! ### Evictions and refills (R167, R168, R169, R308) -/

section
variable {s : State} (hlive : s.tiers.moves.any (moveDead s) = false) {tier u : Tier} (hu : below tier = some u)
include hlive

include hu in
theorem eviction_queues {c : Cand} {cs : List Cand} (hw : (frameWaiters s tier).drop (evicting s tier) = c :: cs) {b : Nat}
    (hv : victim s tier (some c.account) = some b) :
    exec (.eviction tier) s = .next (queueMove s b .evict u c.cls c.deadline) := by
  simp [exec, execEviction, pruneMoves_eq_self hlive, hw, hv, hu]

theorem eviction_fails {c : Cand} {cs : List Cand} (hw : (frameWaiters s tier).drop (evicting s tier) = c :: cs)
    (hv : victim s tier (some c.account) = none) :
    exec (.eviction tier) s = .next (evictBlocked (failCand s c) tier) := by
  simp [exec, execEviction, pruneMoves_eq_self hlive, hw, hv]

include hu in
theorem softEviction_queues {b : Nat} (hw : (frameWaiters s tier).drop (evicting s tier) = [])
    (hv : (softExcess s tier).findSome? (fun a => ownVictim s a tier) = some b) :
    exec (.eviction tier) s = .next (queueMove s b .evict u (causeOf s (htGet s b).account tier).1
      (causeOf s (htGet s b).account tier).2) := by
  simp [exec, execEviction, pruneMoves_eq_self hlive, hw, hv, hu]

include hu in
theorem reserveRefill_queues {b : Nat} (hr : (poolGet s tier).reserve + evicting s tier < reserveSize s tier)
    (hv : victim s tier none = some b) : exec (.reserveRefill tier) s = .next (queueMove s b .refill u 7 0) := by
  simp [exec, execReserveRefill, pruneMoves_eq_self hlive, hr, hv, hu]

end

theorem failCand_htGet (s : State) (c : Cand) (b : Nat) : htGet (failCand s c) b = htGet s b := by
  have hkeep := failCand_keeps s c
  refine htGet_congr ?_ (hkeep.same .cfg rfl) (hkeep.same .fuses rfl) b
  unfold failCand
  cases hc : c.op with
  | some p =>
    cases ho : opFind s p.1 p.2 with
    | none => simp only [ho]
    | some o =>
      simp only [ho]
      rfl
  | none =>
    dsimp only
    cases c.origin <;> dsimp only
    all_goals repeat' split
    all_goals rfl

/-- The operation whose request fails carries QUOTA_EXCEEDED, unless a worse status stands. -/
theorem failCand_op {s : State} {c : Cand} {n q : Nat} {o : OpEnt} (hc : c.op = some (n, q)) (ho : opFind s n q = some o) :
    ∃ o1 : OpEnt, opFind (failCand s c) n q = some o1 ∧ o1.failed = true ∧ o1.status = worse o.status stQuotaExceeded := by
  simp only [failCand, hc, ho]
  exact ⟨_, opFind_opSet_of_opFind (o := o) ((opFind_congr rfl n q).trans ho) rfl, rfl, rfl⟩

theorem evictBlocked_tiers (s : State) (t : Tier) :
    (evictBlocked s t).tiers = (poolSet s t { poolGet s t with evictBlocked := true }).tiers :=
  (raiseCause_keeps ..).same .tiers rfl

theorem eviction_blocked {s : State} (hlive : s.tiers.moves.any (moveDead s) = false) {tier : Tier} {c : Cand} {cs : List Cand}
    (hw : (frameWaiters s tier).drop (evicting s tier) = c :: cs) (hv : victim s tier (some c.account) = none) :
    Answers (.eviction tier) s (fun t =>
      (poolGet t tier).evictBlocked = true ∧ t.regs.irqCause = s.regs.irqCause ||| 0x8 ∧
      (∀ (n q : Nat) (o : OpEnt), c.op = some (n, q) → opFind s n q = some o →
        ∃ o1 : OpEnt, opFind t n q = some o1 ∧ o1.failed = true ∧ o1.status = worse o.status stQuotaExceeded) ∧
      (∀ b : Nat, htGet t b = htGet s b) ∧ OnlyIn [.regs, .port, .lines, .tiers, .pmu] s t) := by
  have hfail := failCand_keeps s c
  have hblock := evictBlocked_keeps (failCand s c) tier
  refine ⟨_, eviction_fails hlive hw hv, ?_, ?_, fun n q o hc ho => ?_, fun b => ?_, ((hfail.mono rfl).step hblock rfl).only⟩
  · rw [poolGet, evictBlocked_tiers]
    exact congrArg TierSt.evictBlocked (mapGet_mapSet_self ..)
  · have hregs : (failCand s c).regs = s.regs := hfail.same .regs rfl
    have hcause : (evictBlocked (failCand s c) tier).regs.irqCause = (failCand s c).regs.irqCause ||| 0x8 := setIrq_cause ..
    rw [hcause, hregs]
  · obtain ⟨o1, hfind, hends⟩ := failCand_op hc ho
    exact ⟨o1, (opFind_congr (hblock.same .lines rfl) n q).trans hfind, hends⟩
  · have hht : (evictBlocked (failCand s c) tier).tiers.ht = (failCand s c).tiers.ht := by rw [evictBlocked_tiers]; rfl
    rw [htGet_congr hht (hblock.same .cfg rfl) (hblock.same .fuses rfl), failCand_htGet]

/-! ### Demand moves and landing moves (R163, R228, R236) -/

theorem collOps_eq_nil_iff (s : State) : collOps s = [] ↔ ∀ p ∈ s.lines, ∀ x ∈ p.2.ops, isColl x = false := by
  simp only [collOps, allOps, List.filter_eq_nil_iff, List.mem_flatMap, List.mem_map, Bool.not_eq_true]
  exact ⟨fun h p hp x hx => h (p.1, x) ⟨p, hp, x, hx, rfl⟩, fun h _ ⟨p, hp, x, hx, he⟩ => he ▸ h p hp x hx⟩

/-- An operation that is no collective, set over one of a line, makes no collective. -/
theorem collOps_opSet {s : State} (h : collOps s = []) (n : Nat) {o : OpEnt} (ho : isColl o = false) : collOps (opSet s n o) = [] := by
  have hnone := (collOps_eq_nil_iff s).1 h
  have hline : ∀ x ∈ (lineGet s n).ops, isColl x = false := by
    intro x hx
    cases hf : mapFind s.lines n with
    | none => simp [lineGet, mapGet, hf, Line.reset] at hx
    | some l =>
      have hl : lineGet s n = l := by simp [lineGet, mapGet, hf]
      exact hnone (n, l) (mem_of_mapFind hf) x (hl ▸ hx)
  refine (collOps_eq_nil_iff _).2 (fun p hp x hx => ?_)
  rcases mem_mapUpd _ _ _ _ hp with hnew | hold
  · split at hnew
    · cases hnew
    · rw [← Option.some.inj hnew] at hx
      obtain ⟨y, hy, rfl⟩ := List.mem_map.1 hx
      split
      · exact ho
      · exact hline y hy
  · exact hnone p hold x hx

theorem collPumpAll_eq_self {s : State} (h : collOps s = []) : collPumpAll s = s := by
  rw [collPumpAll, h]
  rfl

section
variable {s : State} {line : LineNo} {seq : Seq} {name : DevAddr} {o : OpEnt}
  (hop : opFind s line.toNat seq.toNat = some o) (hd : o.dispatched = true)
  (hacct : (htGet s (blockNo name.toNat)).account = lineAcct s line.toNat)
include hop hd hacct

theorem execDemandMove_eq (hwant : wantsDemand s o (blockNo name.toNat) = true)
    (hmem : blockNo name.toNat ∈ demandBlocks s line.toNat o) :
    let e := htGet s (blockNo name.toNat)
    let s1 := pmuAdd s 0x10C 1 (attrP e.account)
    exec (.demandMove line seq name) s = .next (
      if hardOf s e.account (demandTier o e) ≤ charge s e.account (demandTier o e) then
        collPumpAll (opSet (pmuAdd s1 0x10E 1 (attrP e.account)) line.toNat { o with wset := o.wset ++ [(blockNo name.toNat, 0)] })
      else queueMove s1 (blockNo name.toNat) (.demand line.toNat o.seq) (demandTier o e) (dClass o.desc) (consumerDeadline o)) := by
  dsimp only
  simp only [exec, execDemandMove, hop]
  rw [if_pos (by simp [hd, hwant, hmem, hacct])]
  split <;> rfl

theorem demandMove_queues (hwant : wantsDemand s o (blockNo name.toNat) = true)
    (hmem : blockNo name.toNat ∈ demandBlocks s line.toNat o) :
    let e := htGet s (blockNo name.toNat)
    charge s e.account (demandTier o e) < hardOf s e.account (demandTier o e) →
    Answers (.demandMove line seq name) s (fun t =>
      MoveQueued s t (blockNo name.toNat) (.demand line.toNat o.seq) (demandTier o e) (dClass o.desc) (consumerDeadline o) ∧
      OnlyIn [.regs, .port, .tiers, .pmu] s t) := by
  intro e hroom
  have hrun := execDemandMove_eq hop hd hacct hwant hmem
  dsimp only at hrun
  rw [if_neg (Nat.not_le.2 hroom)] at hrun
  have hpmu := pmuAdd_keeps s 0x10C 1 (attrP e.account)
  have htiers : (pmuAdd s 0x10C 1 (attrP e.account)).tiers = s.tiers := hpmu.same .tiers rfl
  have hht (x : Nat) : htGet (pmuAdd s 0x10C 1 (attrP e.account)) x = htGet s x :=
    htGet_congr (congrArg Tiers.ht htiers) (hpmu.same .cfg rfl) (hpmu.same .fuses rfl) x
  have hnow : tbNow (pmuAdd s 0x10C 1 (attrP e.account)) = tbNow s := congrArg (fun tb => tb.now.toNat) (hpmu.same .tb rfl)
  have hq := queueMove_queued (pmuAdd s 0x10C 1 (attrP e.account)) (blockNo name.toNat) (.demand line.toNat o.seq) (demandTier o e)
    (dClass o.desc) (consumerDeadline o)
  refine ⟨_, hrun, ⟨?_, ?_, ?_, fun x => (hq.entries x).trans (hht x)⟩, ((hpmu.mono rfl).step (queueMove_keeps ..) rfl).only⟩
  · have hmoves := hq.moves
    rwa [htiers, hht, hnow] at hmoves
  · have hcharged := hq.charged
    rwa [hht, charge, charge, htiers] at hcharged
  · have hincoming := hq.incoming
    rwa [hht, htiers] at hincoming

theorem demandMove_refused (hwant : wantsDemand s o (blockNo name.toNat) = true)
    (hmem : blockNo name.toNat ∈ demandBlocks s line.toNat o) :
    let e := htGet s (blockNo name.toNat)
    hardOf s e.account (demandTier o e) ≤ charge s e.account (demandTier o e) → opcodeOf o.desc ≠ opCapColl → collOps s = [] →
    Answers (.demandMove line seq name) s (fun t =>
      opFind t line.toNat o.seq = some { o with wset := o.wset ++ [(blockNo name.toNat, 0)] } ∧ t.tiers = s.tiers ∧
      (∀ m : Nat, m ≠ line.toNat → lineGet t m = lineGet s m) ∧ OnlyIn [.regs, .port, .lines, .pmu] s t) := by
  intro e hfull hopc hcoll
  have hrun := execDemandMove_eq hop hd hacct hwant hmem
  dsimp only at hrun
  rw [if_pos hfull] at hrun
  let s2 := pmuAdd (pmuAdd s 0x10C 1 (attrP e.account)) 0x10E 1 (attrP e.account)
  have hpmu : Keeps [.regs, .port, .pmu] s s2 := (pmuAdd_keeps ..).step (pmuAdd_keeps ..) rfl
  have hlines : s2.lines = s.lines := hpmu.same .lines rfl
  have hcoll2 : collOps (opSet s2 line.toNat { o with wset := o.wset ++ [(blockNo name.toNat, 0)] }) = [] :=
    collOps_opSet (by rw [collOps, allOps, hlines]; exact hcoll) _ (by simp [isColl, hopc])
  rw [collPumpAll_eq_self hcoll2] at hrun
  refine ⟨_, hrun, ?_, hpmu.same .tiers rfl, fun m hm => ?_, ((hpmu.mono rfl).step (opSet_keeps ..) rfl).only⟩
  · have hset := opFind_opSet_of_opFind (p := { o with wset := o.wset ++ [(blockNo name.toNat, 0)] })
      ((opFind_congr hlines line.toNat seq.toNat).trans hop) rfl
    rwa [← seq_of_opFind hop] at hset
  · exact (lineGet_opSet_ne _ _ hm).trans (lineGet_congr hlines m)

theorem landingMove_queues (hopc : opcodeOf o.desc = opSplUpd ∨ opcodeOf o.desc = opSplAcc) :
    let b := blockNo name.toNat
    let e := htGet s b
    (e.state = .home ∨ e.state = .landing) → ¬ (e.tier = .mantle ∧ e.frame = nameFrame b) → (arenaOf s b).isSome = true →
    refused o b = false → (∀ m ∈ s.tiers.moves, m.name ≠ b) →
    (charge s e.account .mantle < hardOf s e.account .mantle ∨ e.tier = .mantle) →
    Answers (.landingMove line seq name) s (fun t =>
      MoveQueued s t b (.landing line.toNat o.seq) .mantle (dClass o.desc) 0 ∧ OnlyIn [.tiers] s t) := by
  intro b e hstate haway harena href hmoves hroom
  refine queueMove_answers _ _ _ _ _ ?_
  have hno : s.tiers.moves.any (fun m => m.name = b) = false := by simpa using hmoves
  simp only [exec, execLandingMove, hop]
  rw [if_pos, if_pos]
  · simpa using hroom
  · simp only [Bool.and_eq_true, Bool.or_eq_true, decide_eq_true_eq, Bool.not_eq_true']
    exact ⟨⟨⟨⟨⟨⟨hd, hopc⟩, hstate, by simpa [b, e] using haway⟩, harena⟩, hacct⟩, href⟩, hno⟩

end

/-- Settles O44, event by event. -/
theorem deviceMovesQueue : Obligations.DeviceMovesQueue := by
  refine fun s hlive => ⟨fun tier u hu => ⟨fun c cs hw => ⟨fun b hv => ?_, eviction_blocked hlive hw⟩, fun b hw hv => ?_,
    fun b hr hv => ?_⟩, fun line seq name o hop hd => ⟨fun hwant hmem hacct => ⟨?_, ?_⟩, fun hopc hstate haway harena hacct => ?_⟩⟩
  · exact queueMove_answers _ _ _ _ _ (eviction_queues hlive hu hw hv)
  · exact queueMove_answers _ _ _ _ _ (softEviction_queues hlive hu hw hv)
  · exact queueMove_answers _ _ _ _ _ (reserveRefill_queues hlive hu hr hv)
  · exact demandMove_queues hop hd hacct hwant hmem
  · exact demandMove_refused hop hd hacct hwant hmem
  · exact landingMove_queues hop hd hacct hopc hstate haway harena

end Sys2Proof.Machine
end

section
/-! SUPPORT. The dispatch of MOVE, ALLOC, FREE and ATTR (O22, R153, R156, R158, R159, R160, R166). -/

set_option Elab.async false

namespace Sys2Proof.Machine

open Sys2Proof

/-! ### What a final record leaves of the charges -/

theorem syncChafe_charged (s : State) (b : Nat) : (syncChafe s b).tiers.charged = s.tiers.charged := by
  unfold syncChafe
  dsimp only
  repeat' split
  all_goals rfl

theorem Keeps.charged {ps : List Part} {s t : State} (h : Keeps ps s t) (ht : ps.contains .tiers = false) :
    t.tiers.charged = s.tiers.charged :=
  congrArg Tiers.charged (h.same .tiers ht)

theorem doneSig_charged (s : State) (n seq h : Nat) : (doneSig s n seq h).tiers.charged = s.tiers.charged := by
  unfold doneSig
  dsimp only
  split <;> rfl

theorem afterRecord_charged (s : State) (n seq status : Nat) (d : BitVec 512) (sig irq : Bool) :
    (afterRecord s n seq status d sig irq).tiers.charged = s.tiers.charged := by
  unfold afterRecord
  extract_lets s1 s2 s3
  have h2 : s2.tiers.charged = s.tiers.charged := by
    unfold s2
    split
    · exact (sendVec_keeps ..).charged rfl
    · rfl
  have h3 : s3.tiers.charged = s.tiers.charged := by
    unfold s3
    split
    · exact (doneSig_charged ..).trans h2
    · exact h2
  split
  · exact h3
  · exact h3

theorem writeRecord_charged {s : State} {n : Nat} {r : List Byte} (hlen : r.length = 32) (hrec : recordOpen s n = true) :
    (writeRecord s n r).tiers.charged = s.tiers.charged := by
  obtain ⟨⟨hregion, hstate, htier, hmerge⟩, -⟩ := recordOpen_iff s n hrec
  have hin : recordAt s n % blockBytes + r.length ≤ blockBytes := by
    have hat : recordAt s n % 32 = 0 := by rw [recordAt]; omega
    have hblock : blockBytes = 65536 := rfl
    rw [hblock, hlen]
    omega
  have hput := putRecord_kern s (recordAt s n) r (List.ne_nil_of_length_pos (by omega)) hin hregion hstate htier hmerge
  have hrun : (writeRecord s n r).tiers = (putRecord s (recordAt s n) r).tiers := rfl
  rw [hrun, hput, syncChafe_charged]
  exact (storeAt_keeps ..).charged rfl

/-- Dropping an operation leaves its line's record where it is. -/
theorem recordOpen_opDrop (s : State) (n seq : Nat) : recordOpen (opDrop s n seq) n = recordOpen s n := by
  have hat : recordAt (opDrop s n seq) n = recordAt s n := by
    rw [recordAt, recordAt, lineGet_opDrop]
    rfl
  rw [recordOpen, recordOpen, recordFrame, recordFrame, hat]
  rfl

theorem finalRecord_charged {s : State} {n : Nat} (seq status : Nat) (flags : Byte) (epoch : BitVec 16) (d : BitVec 512)
    (opb : List Byte) (hrec : recordOpen s n = true) :
    (finalRecord (opDrop s n seq) n seq status flags epoch d opb true true).tiers.charged = s.tiers.charged := by
  unfold finalRecord
  split
  · exact (noteLine_keeps ..).charged rfl
  · rw [(noteLine_keeps ..).charged rfl, afterRecord_charged,
      writeRecord_charged (recordBytes_length ..) ((recordOpen_opDrop s n seq).trans hrec)]
    rfl

theorem rejectOp_charged {s : State} {n : Nat} (o : OpEnt) (st : Nat) (hrec : recordOpen s n = true) :
    (rejectOp s n o st).tiers.charged = s.tiers.charged := by
  have hsame := sameLines_pmuAdd s (0x05C + lineStrand s n) 1 (attrP (lineAcct s n))
  rw [rejectOp, finalRecord_charged _ _ _ _ _ _ ((hsame.recordOpen n).trans hrec)]
  exact (pmuAdd_keeps ..).charged rfl

theorem finishOp_charged {s : State} {n : Nat} (o : OpEnt) (st : Nat) (opb : List Byte) (hrec : recordOpen s n = true) :
    (finishOp s n o st opb).tiers.charged = s.tiers.charged := by
  rw [finishOp]
  split
  · have hsame := sameLines_pmuAdd s 0x10E 1 (attrP (lineAcct s n))
    rw [finalRecord_charged _ _ _ _ _ _ ((hsame.recordOpen n).trans hrec)]
    exact (pmuAdd_keeps ..).charged rfl
  · exact finalRecord_charged _ _ _ _ _ _ hrec

/-! ### What an operation that enters the tracker leaves -/

/-- Steps that leave the lines as they were make no difference to what an operation's entry says of them. -/
theorem Entered.of_lines {s u t : State} {n : Nat} {o : OpEnt} (hl : u.lines = s.lines) (h : Entered u t n o) : Entered s t n o where
  entry := h.entry
  others := fun q hq => (h.others q hq).trans (opFind_congr hl n q)
  line := by
    obtain ⟨a, b, c, hline⟩ := h.line
    exact ⟨a, b, c, by rw [hline, lineGet_congr hl]⟩
  lines := fun m hm => (h.lines m hm).trans (lineGet_congr hl m)

/-- The operation `o` becomes `p` after steps that touch only the tiers. -/
theorem entered_after {s u : State} {n : Nat} {o p : OpEnt} (hk : Keeps [.tiers] s u) (hu : undispatched s n = some o)
    (hp : p.seq = o.seq) :
    Entered s (noteLine (opSet u n p) n) n p ∧ (∀ b : Nat, htGet (noteLine (opSet u n p) n) b = htGet u b) ∧
      SameBytes s (noteLine (opSet u n p) n) := by
  have hl : u.lines = s.lines := hk.same .lines rfl
  have hun : undispatched u n = some o := by rw [undispatched, lineGet_congr hl]; exact hu
  have henter := enter_keeps u n p
  have hkeep : Keeps [.port, .lines, .tiers, .pmu] s (noteLine (opSet u n p) n) := (hk.mono rfl).step henter rfl
  exact ⟨(enter_entered hun hp).of_lines hl,
    htGet_congr (congrArg Tiers.ht (henter.same .tiers rfl)) (henter.same .cfg rfl) (henter.same .fuses rfl), hkeep.sameBytes rfl rfl⟩

/-- A run whose next block needs a move does not advance. -/
theorem moveAdvance_stays {n fuel : Nat} {s : State} {o : OpEnt}
    (h : skipBlock s (lineAcct s n) o.desc (mvBlock o.desc + o.next) = none) : moveAdvance n fuel s o = (s, o) := by
  cases fuel with
  | zero => rfl
  | succ k =>
    rw [moveAdvance]
    split
    · rfl
    · simp only [h]

section
variable {s : State} {line : LineNo} {o : OpEnt} (hdisp : dispatchable s line.toNat o opMove = true)
include hdisp

theorem onMoveOp_run {op : Nat} (hop : mvOp o.desc = op) (f : OpEnt → State) : onMoveOp s line.toNat op f = .next (f o) := by
  obtain ⟨hu, -⟩ := dispatchable_iff _ _ _ _ hdisp
  rw [onMoveOp, hu]
  exact (if_pos hop).trans (onDispatch_run _ _ _ f o hdisp)

/-! ### MOVE and ALLOC (R159, R160) -/

theorem exec_dispatchRun {alloc : Bool} (hop : mvOp o.desc = (if alloc then 1 else 0))
    (hder : alloc = true → mvDerived o.desc = true → mvDest o.desc = .kern) :
    exec (if alloc then .alloc line else .move line) s = .next (dispatchRun s line.toNat o) := by
  cases alloc with
  | false => exact onMoveOp_run hdisp hop _
  | true =>
    refine (onMoveOp_run hdisp hop _).trans (congrArg _ (if_neg ?_))
    cases hd : mvDerived o.desc with
    | false => simp
    | true => simp [hder rfl hd]

omit hdisp in
theorem dispatchRun_begins (hok : runOk s line.toNat o.desc = true)
    (hfits : charge s (lineAcct s line.toNat) (mvDest o.desc) + (chargedBlocks s o.desc).length ≤
      hardOf s (lineAcct s line.toNat) (mvDest o.desc))
    (hnext : o.next = 0) (hskip : skipBlock s (lineAcct s line.toNat) o.desc (mvBlock o.desc) = none) :
    let n := line.toNat
    let ch := chargedBlocks s o.desc
    dispatchRun s n o = noteLine (opSet (chargeAdd s (lineAcct s n) (mvDest o.desc) ch.length ch.length) n
      { opDispatch s o with total := mvCount o.desc, units := ch }) n := by
  intro n ch
  have hfirst : skipBlock s (lineAcct s n) o.desc (mvBlock o.desc + o.next) = none := by rw [hnext]; exact hskip
  unfold dispatchRun
  rw [if_neg (by simp [n, hok])]
  dsimp only
  rw [if_neg (Nat.not_lt.2 hfits), moveAdvance_stays]
  exact hfirst

theorem moveRun_begins {alloc : Bool} (hop : mvOp o.desc = (if alloc then 1 else 0))
    (hder : alloc = true → mvDerived o.desc = true → mvDest o.desc = .kern) (hok : runOk s line.toNat o.desc = true)
    (hfits : charge s (lineAcct s line.toNat) (mvDest o.desc) + (chargedBlocks s o.desc).length ≤
      hardOf s (lineAcct s line.toNat) (mvDest o.desc))
    (hnext : o.next = 0)
    (hskip : skipBlock s (lineAcct s line.toNat) o.desc (mvBlock o.desc) = none) :
    Answers (if alloc then .alloc line else .move line) s (fun t =>
      Entered s t line.toNat { opDispatch s o with total := mvCount o.desc, units := chargedBlocks s o.desc } ∧
      charge t (lineAcct s line.toNat) (mvDest o.desc) =
        charge s (lineAcct s line.toNat) (mvDest o.desc) + (chargedBlocks s o.desc).length ∧
      mapGet 0 t.tiers.movingIn (ct (lineAcct s line.toNat) (mvDest o.desc)) =
        mapGet 0 s.tiers.movingIn (ct (lineAcct s line.toNat) (mvDest o.desc)) + (chargedBlocks s o.desc).length ∧
      (∀ b : Nat, htGet t b = htGet s b) ∧ SameBytes s t) := by
  obtain ⟨hu, -⟩ := dispatchable_iff _ _ _ _ hdisp
  have hrun := exec_dispatchRun hdisp hop hder
  rw [dispatchRun_begins hok hfits hnext hskip] at hrun
  obtain ⟨hentered, hht, hbytes⟩ := entered_after (p := { opDispatch s o with total := mvCount o.desc, units := chargedBlocks s o.desc })
    (chargeAdd_keeps s (lineAcct s line.toNat) (mvDest o.desc) (chargedBlocks s o.desc).length (chargedBlocks s o.desc).length) hu rfl
  refine ⟨_, hrun, hentered, ?_, ?_, hht, hbytes⟩
  · rw [charge, (enter_keeps ..).same .tiers rfl]
    exact mapGet_mapSet_self 0 s.tiers.charged (ct (lineAcct s line.toNat) (mvDest o.desc)) _
  · rw [(enter_keeps ..).same .tiers rfl]
    exact mapGet_mapSet_self 0 s.tiers.movingIn (ct (lineAcct s line.toNat) (mvDest o.desc)) _

theorem moveRun_overHard {alloc : Bool} (hop : mvOp o.desc = (if alloc then 1 else 0))
    (hder : alloc = true → mvDerived o.desc = true → mvDest o.desc = .kern) (hok : runOk s line.toNat o.desc = true)
    (hover : ¬ charge s (lineAcct s line.toNat) (mvDest o.desc) + (chargedBlocks s o.desc).length ≤
      hardOf s (lineAcct s line.toNat) (mvDest o.desc)) (hrec : recordOpen s line.toNat = true) :
    Answers (if alloc then .alloc line else .move line) s (fun t =>
      Finished s t line.toNat o.seq stQuotaExceeded o.flags s.belay.epoch o.desc
        (moveBytes { opDispatch s o with total := mvCount o.desc, n3 := 1 }) ∧ t.tiers.charged = s.tiers.charged) := by
  obtain ⟨-, -, -, htrack⟩ := dispatchable_iff _ _ _ _ hdisp
  let p : OpEnt := { opDispatch s o with total := mvCount o.desc, n3 := 1 }
  have hends : dispatchRun s line.toNat o = finishOp s line.toNat p stQuotaExceeded (moveBytes p) := by
    simp only [dispatchRun, hok, Bool.not_true, Bool.false_eq_true, if_false]
    exact if_pos (Nat.not_le.1 hover)
  have hfin := finishOp_finished s line.toNat p stQuotaExceeded (moveBytes p) hrec
  rw [endStatus_of_ne (o := p) htrack (by decide)] at hfin
  exact ⟨_, (exec_dispatchRun hdisp hop hder).trans (congrArg _ hends), hfin, finishOp_charged _ _ _ hrec⟩

theorem moveRun_rejects {alloc : Bool} (hop : mvOp o.desc = (if alloc then 1 else 0))
    (hder : alloc = true → mvDerived o.desc = true → mvDest o.desc = .kern) (hok : runOk s line.toNat o.desc = false)
    (hrec : recordOpen s line.toNat = true) :
    Answers (if alloc then .alloc line else .move line) s (fun t =>
      Finished s t line.toNat o.seq stDescInvalid 0 s.belay.epoch o.desc [] ∧ t.tiers.charged = s.tiers.charged) := by
  obtain ⟨-, -, -, htrack⟩ := dispatchable_iff _ _ _ _ hdisp
  have hends : dispatchRun s line.toNat o = rejectOp s line.toNat o stDescInvalid := if_pos (by rw [hok]; rfl)
  exact ⟨_, (exec_dispatchRun hdisp hop hder).trans (congrArg _ hends), rejectOp_rejects _ hrec htrack, rejectOp_charged _ _ hrec⟩

end

/-! ### FREE (R156, R164) -/

theorem dropQueued_ht (s : State) (p : Move → Bool) : (dropQueued s p).tiers.ht = s.tiers.ht :=
  foldl_keeps (fun t : State => t.tiers.ht = s.tiers.ht) _ _ _ rfl (fun _ _ h => h)

theorem dropQueued_htGet (s : State) (p : Move → Bool) (b : Nat) : htGet (dropQueued s p) b = htGet s b :=
  htGet_congr (dropQueued_ht s p) ((dropQueued_keeps s p).same .cfg rfl) ((dropQueued_keeps s p).same .fuses rfl) b

theorem releaseFrame_htGet (s : State) (t : Tier) (acct b : Nat) : htGet (releaseFrame s t acct) b = htGet s b := by
  unfold releaseFrame returnFrame
  dsimp only
  split <;> rfl

/-- Unbinding a block resets its entry and no other. -/
theorem htGet_unbind (s : State) (b x : Nat) : htGet (unbind s b) x = if x = b then HtEntry.reset else htGet s x := by
  rw [unbind, releaseFrame_htGet]
  by_cases h : x = b
  · rw [if_pos h, h, htGet_htSet_self]
  · rw [if_neg h, htGet_htSet_ne _ _ _ _ h, dropQueued_htGet]
    split <;> rfl

/-- The blocks of a FREE that are not MOVING, unbound one by one. -/
def unbindAll (s : State) (bs : List Nat) : State := bs.foldl (fun t b => if (htGet t b).state = .moving then t else unbind t b) s

theorem unbindAll_keeps (s : State) (bs : List Nat) : Keeps [.tiers] s (unbindAll s bs) := by
  refine Keeps.foldl (Keeps.refl _ _) (fun u b hu => ?_)
  split
  · exact hu
  · exact hu.step (unbind_keeps ..) rfl

theorem htGet_unbindAll (bs : List Nat) (s : State) (hmv : ∀ b ∈ bs, (htGet s b).state ≠ .moving) (x : Nat) :
    htGet (unbindAll s bs) x = if x ∈ bs then HtEntry.reset else htGet s x := by
  induction bs generalizing s with
  | nil => rfl
  | cons b bs ih =>
    have hstep : unbindAll s (b :: bs) = unbindAll (unbind s b) bs := by
      rw [unbindAll, List.foldl_cons, if_neg (hmv b List.mem_cons_self)]
      rfl
    have hrest : ∀ c ∈ bs, (htGet (unbind s b) c).state ≠ .moving := by
      intro c hc
      rw [htGet_unbind]
      split
      · decide
      · exact hmv c (List.mem_cons_of_mem _ hc)
    rw [hstep, ih _ hrest, htGet_unbind]
    by_cases hx : x ∈ bs <;> by_cases hb : x = b <;> simp [hx, hb]

/-- The blocks of the run of a MOVE descriptor. -/
def runBlocks (d : BitVec 512) : List Nat := (List.range (mvCount d)).map (fun i => mvBlock d + i)

theorem mem_runBlocks (d : BitVec 512) (b : Nat) : b ∈ runBlocks d ↔ mvBlock d ≤ b ∧ b < mvBlock d + mvCount d := by
  simp only [runBlocks, List.mem_map, List.mem_range]
  exact ⟨fun ⟨i, hi, he⟩ => by omega, fun ⟨h1, h2⟩ => ⟨b - mvBlock d, by omega, by omega⟩⟩

theorem runBlock_mem {d : BitVec 512} {i : Nat} (hi : i < mvCount d) : mvBlock d + i ∈ runBlocks d :=
  (mem_runBlocks ..).2 ⟨Nat.le_add_right .., by omega⟩

section
variable {s : State} {line : LineNo} {o : OpEnt} (hdisp : dispatchable s line.toNat o opMove = true)
include hdisp

theorem free_unbinds (hop : mvOp o.desc = 2) (hok : runOk s line.toNat o.desc = true)
    (hmv : ∀ i : Nat, i < mvCount o.desc → (htGet s (mvBlock o.desc + i)).state ≠ .moving) :
    Answers (.free line) s (fun t =>
      Entered s t line.toNat { opDispatch s o with
        total := mvCount o.desc, next := mvCount o.desc, done := mvCount o.desc, inflight := 0, units := [] } ∧
      (∀ i : Nat, i < mvCount o.desc → (htGet t (mvBlock o.desc + i)).state = .unbound) ∧
      (∀ b : Nat, ¬ (mvBlock o.desc ≤ b ∧ b < mvBlock o.desc + mvCount o.desc) → htGet t b = htGet s b) ∧ SameBytes s t) := by
  obtain ⟨hu, -⟩ := dispatchable_iff _ _ _ _ hdisp
  have hstill : ∀ b ∈ runBlocks o.desc, (htGet s b).state ≠ .moving := by
    intro b hb
    obtain ⟨i, hi, rfl⟩ := List.mem_map.1 hb
    exact hmv i (List.mem_range.1 hi)
  have hnone : (runBlocks o.desc).filter (fun b => (htGet s b).state = .moving) = [] :=
    List.filter_eq_nil_iff.2 (fun b hb => by simpa using hstill b hb)
  let s1 := unbindAll (chargeEntries s line.toNat o.desc) (runBlocks o.desc)
  let s2 : State := { s1 with tiers := { s1.tiers with moves := s1.tiers.moves.map (fun m =>
    if m.started && ([] : List Nat).contains m.name then { m with freeAtRetire := true } else m) } }
  let p : OpEnt := { opDispatch s o with
    total := mvCount o.desc, next := mvCount o.desc, done := mvCount o.desc, inflight := 0, units := [] }
  have hrun : exec (.free line) s = .next (noteLine (opSet s2 line.toNat p) line.toNat) := by
    refine (onMoveOp_run hdisp hop _).trans (congrArg _ ?_)
    rw [hok]
    simp only [Bool.not_true, Bool.false_eq_true, if_false]
    rw [show (List.range (mvCount o.desc)).map (fun i => mvBlock o.desc + i) = runBlocks o.desc from rfl, hnone]
    rfl
  have hkeep : Keeps [.tiers] s s2 := Keeps.upd ((chargeEntries_keeps s line.toNat o.desc).step (unbindAll_keeps ..) rfl)
  have hht (b : Nat) : htGet s2 b = if b ∈ runBlocks o.desc then HtEntry.reset else htGet s b :=
    htGet_unbindAll (runBlocks o.desc) (chargeEntries s line.toNat o.desc) hstill b
  obtain ⟨hentered, hsame, hbytes⟩ := entered_after (p := p) hkeep hu rfl
  refine ⟨_, hrun, hentered, fun i hi => ?_, fun b hb => ?_, hbytes⟩
  · rw [hsame, hht, if_pos (runBlock_mem hi)]
    rfl
  · rw [hsame, hht, if_neg (fun h => hb ((mem_runBlocks ..).1 h))]

/-! ### ATTR (R160, R166) -/

omit hdisp in
/-- An update of entries, block by block, changes each listed entry once. -/
theorem htGet_foldl_htSet {f : HtEntry → HtEntry} (hf : ∀ e, f (f e) = f e) (bs : List Nat) (s : State) (x : Nat) :
    htGet (bs.foldl (fun t b => htSet t b (f (htGet t b))) s) x = if x ∈ bs then f (htGet s x) else htGet s x := by
  induction bs generalizing s with
  | nil => rfl
  | cons b bs ih =>
    rw [List.foldl_cons, ih]
    by_cases hb : x = b
    · rw [hb, htGet_htSet_self, hf, ite_self, if_pos List.mem_cons_self]
    · rw [htGet_htSet_ne _ _ _ _ hb]
      simp [hb]

theorem attr_sets (hop : mvOp o.desc = 3) (hok : runOk s line.toNat o.desc = true) :
    Answers (.attr line) s (fun t =>
      Entered s t line.toNat { opDispatch s o with total := mvCount o.desc, next := mvCount o.desc, done := mvCount o.desc } ∧
      (∀ i : Nat, i < mvCount o.desc → htGet t (mvBlock o.desc + i) = { htGet s (mvBlock o.desc + i) with
        derived := mvDerived o.desc, shared := mvShared o.desc, pinned := mvPinned o.desc }) ∧
      (∀ b : Nat, ¬ (mvBlock o.desc ≤ b ∧ b < mvBlock o.desc + mvCount o.desc) → htGet t b = htGet s b) ∧ SameBytes s t) := by
  obtain ⟨hu, -⟩ := dispatchable_iff _ _ _ _ hdisp
  let f : HtEntry → HtEntry := fun e => { e with derived := mvDerived o.desc, shared := mvShared o.desc, pinned := mvPinned o.desc }
  let s1 := (runBlocks o.desc).foldl (fun t b => htSet t b (f (htGet t b))) (chargeEntries s line.toNat o.desc)
  let p : OpEnt := { opDispatch s o with total := mvCount o.desc, next := mvCount o.desc, done := mvCount o.desc }
  have hrun : exec (.attr line) s = .next (noteLine (opSet (pruneMoves s1) line.toNat p) line.toNat) :=
    (onMoveOp_run hdisp hop _).trans (congrArg _ (if_neg (by simp [hok])))
  have hkeep1 : Keeps [.tiers] s s1 :=
    Keeps.foldl (chargeEntries_keeps s line.toNat o.desc) (fun _ _ hu => hu.step (htSet_keeps ..) rfl)
  have hkeep : Keeps [.tiers] s (pruneMoves s1) := hkeep1.step (pruneMoves_keeps _) rfl
  have hht (b : Nat) : htGet (pruneMoves s1) b = if b ∈ runBlocks o.desc then f (htGet s b) else htGet s b :=
    (dropQueued_htGet ..).trans (htGet_foldl_htSet (f := f) (fun _ => rfl) (runBlocks o.desc) (chargeEntries s line.toNat o.desc) b)
  obtain ⟨hentered, hsame, hbytes⟩ := entered_after (p := p) hkeep hu rfl
  refine ⟨_, hrun, hentered, fun i hi => ?_, fun b hb => ?_, hbytes⟩
  · rw [hsame, hht, if_pos (runBlock_mem hi)]
  · rw [hsame, hht, if_neg (fun h => hb ((mem_runBlocks ..).1 h))]

end

/-- Settles O22, opcode by opcode. -/
theorem moveOpcodesDispatch : Obligations.MoveOpcodesDispatch := by
  refine fun line o s hdisp => ⟨fun alloc hop hder => ⟨fun hok hfits _ _ hnext _ hskip => ?_, fun hok hfits hrec => ?_,
    moveRun_rejects hdisp hop hder⟩, free_unbinds hdisp, attr_sets hdisp⟩
  · exact moveRun_begins hdisp hop hder hok (of_decide_eq_true hfits) hnext hskip
  · exact moveRun_overHard hdisp hop hder hok (of_decide_eq_false hfits) hrec

end Sys2Proof.Machine
end

section
/-! SUPPORT. The loss and the return of the port link (O18, R172, R299, R367). -/

set_option Elab.async false

namespace Sys2Proof.Machine

open Sys2Proof

/-! ### The stages of the loss -/

/-- The link is down and counted; moves from and to the host tier are dropped, and the blocks of the host tier are marked. -/
def hostTierLost (s : State) : State :=
  let s0 := { s with port := { s.port with linkUp := false, linkDowns := satAdd 255 s.port.linkDowns 1 } }
  let hostMove (m : Move) : Bool := m.dest = .host || (!m.fill && (htGet s m.name).tier = .host)
  let s1 := (s.tiers.moves.filter hostMove).foldl dropMove s0
  ((s1.tiers.ht.filter (fun p => p.2.state != .unbound && p.2.tier = .host)).map Prod.fst).foldl chafeHostBlock s1

/-- The lines with host rings stop, and the waiting requests of the host are dropped. -/
def hostRingsStop (s : State) : State :=
  { s with
    lines := s.lines.map (fun p => if hostRing s p.1 then (p.1, { p.2 with stopped := true }) else p)
    ingress := { s.ingress with queue := s.ingress.queue.filter (fun r => !r.host) } }

theorem portDown_up {s : State} (h : s.port.linkUp = true) :
    portDown s = collPumpAll (advanceBight (advanceRuns (noteAll (failFlushes (hostRingsStop (hostTierLost s)))))) :=
  if_neg (by simp [h])

/-- What follows the loss in the host tier and on the lines leaves the link and the queue of requests alone. -/
theorem portDown_tail_keeps (s : State) :
    Keeps [.regs, .port, .lines, .hitches, .strands, .mem, .tiers, .net, .pmu] s
      (collPumpAll (advanceBight (advanceRuns (noteAll (failFlushes s))))) :=
  ((failFlushes_keeps s).mono rfl).step (noteAll_keeps _) rfl |>.step (advanceRuns_keeps _) rfl |>.step (advanceBight_keeps _) rfl
    |>.step (collPumpAll_keeps _) rfl

theorem hostTierLost_link (s : State) : (hostTierLost s).port.linkUp = false ∧
    (hostTierLost s).port.linkDowns = min 255 (s.port.linkDowns + 1) ∧ (hostTierLost s).port.flrAt = s.port.flrAt ∧
    (hostTierLost s).ingress = s.ingress := by
  have hkeep : Keeps [.lines, .hitches, .mem, .tiers]
      { s with port := { s.port with linkUp := false, linkDowns := satAdd 255 s.port.linkDowns 1 } } (hostTierLost s) :=
    Keeps.foldl (Keeps.foldl (Keeps.refl _ _) (fun _ _ hu => hu.step (dropMove_keeps ..) rfl))
      (fun _ _ hu => hu.step (chafeHostBlock_keeps ..) rfl)
  have hport := hkeep.same .port rfl
  exact ⟨by rw [hport], by rw [hport]; rfl, by rw [hport], hkeep.same .ingress rfl⟩

theorem linkPart_iff {s t : State} : Part.link.same s t ↔
    t.port.linkUp = s.port.linkUp ∧ t.port.linkDowns = s.port.linkDowns ∧ t.port.flrAt = s.port.flrAt := by
  simp [Part.same]

theorem portLinkDown_takesLink {s : State} (h : s.port.linkUp = true) : Answers .portLinkDown s (fun t =>
    t.port.linkUp = false ∧ t.port.linkDowns = min 255 (s.port.linkDowns + 1) ∧ t.port.flrAt = s.port.flrAt ∧
    t.ingress.queue = s.ingress.queue.filter (fun r => !r.host)) := by
  obtain ⟨hup, hcount, hflr, hingress⟩ := hostTierLost_link s
  have htail := portDown_tail_keeps (hostRingsStop (hostTierLost s))
  have hlink := htail.same .link rfl
  have hqueue := congrArg Ingress.queue (htail.same .ingress rfl)
  rw [← portDown_up h] at hlink hqueue
  obtain ⟨h1, h2, h3⟩ := linkPart_iff.1 hlink
  refine ⟨_, rfl, h1.trans hup, h2.trans hcount, h3.trans hflr, hqueue.trans ?_⟩
  rw [← hingress]
  rfl

/-! ### Marks on host frames -/

theorem mem_foldl_setIns (gs ms : List Nat) (j : Nat) : j ∈ gs.foldl setIns ms ↔ j ∈ ms ∨ j ∈ gs := by
  induction gs generalizing ms with
  | nil => simp
  | cons g gs ih => rw [List.foldl_cons, ih, setIns_mem, List.mem_cons]; tauto

theorem mem_marksAfter_true (ms : List Nat) (fa n j : Nat) : j ∈ marksAfter ms fa n true ↔ j ∈ ms ∨ j ∈ granules fa n :=
  mem_foldl_setIns (granules fa n) ms j

/-- Marking more leaves what is marked. -/
theorem spanChafed_marked {s : State} {a n : Nat} (h : spanChafed s a n = true) (fa m : Nat) :
    spanChafed { s with mem := { s.mem with chafed := marksAfter s.mem.chafed fa m true } } a n = true := by
  obtain ⟨g, hg, hin⟩ := List.any_eq_true.1 h
  exact List.any_eq_true.2 ⟨g, (mem_marksAfter_true ..).2 (Or.inl hg), hin⟩

theorem spanChafed_syncChafe (s : State) (b a n : Nat) : spanChafed (syncChafe s b) a n = spanChafed s a n := by
  rw [spanChafed, spanChafed, syncChafe_mem]

/-- The first granule of a host frame. -/
theorem hostFrame_granule (f : Nat) :
    frameBase .host f ∈ granules (frameBase .host f) blockBytes ∧ granSize (frameBase .host f) = 64 := by
  have hbase : frameBase .host f = (2 ^ 34 + f * 1024) * 64 := by simp [frameBase, hostFrames, blockBytes]; omega
  have hsize : granSize (frameBase .host f) = 64 := by
    rw [granSize, if_neg]
    simp [frameBase]
  refine ⟨List.mem_map.2 ⟨0, ?_, ?_⟩, hsize⟩
  · exact List.mem_range.2 (Nat.succ_pos _)
  · rw [hsize, hbase, Nat.mul_div_cancel _ (by decide), Nat.add_zero]

theorem hostFrame_marked (s : State) (f : Nat) :
    spanChafed { s with mem := { s.mem with chafed := marksAfter s.mem.chafed (frameBase .host f) blockBytes true } }
      (frameBase .host f) blockBytes = true := by
  obtain ⟨hmem, hsize⟩ := hostFrame_granule f
  have hblock : 0 < blockBytes := by decide
  refine List.any_eq_true.2 ⟨frameBase .host f, (mem_marksAfter_true ..).2 (Or.inr hmem), ?_⟩
  simp [hsize, hblock]

/-! ### Blocks of the host tier (R172) -/

/-- A block of the host tier with the entry `e` before is CHAFED, with its frame marked. -/
def HostChafed (s : State) (b : Nat) (e : HtEntry) : Prop :=
  htGet s b = { e with state := .chafed } ∧ spanChafed s (frameBase .host e.frame) blockBytes = true

theorem htGet_syncChafe_ne (s : State) {b x : Nat} (h : x ≠ b) : htGet (syncChafe s b) x = htGet s x := by
  unfold syncChafe
  dsimp only
  split
  · split
    · exact htGet_htSet_ne _ _ _ _ h
    · rfl
  · split
    · exact htGet_htSet_ne _ _ _ _ h
    · rfl
  · split
    · rfl
    · exact htGet_htSet_ne _ _ _ _ h
  · rfl

theorem chafeHostBlock_ne (s : State) {b x : Nat} (h : x ≠ b) : htGet (chafeHostBlock s b) x = htGet s x :=
  htGet_syncChafe_ne _ h

theorem chafeHostBlock_self {s : State} {b : Nat} {e : HtEntry} (he : htGet s b = e) (ht : e.tier = .host)
    (hst : e.state = .home ∨ e.state = .landing ∨ e.state = .chafed) : HostChafed (chafeHostBlock s b) b e := by
  have hmark := hostFrame_marked s e.frame
  let s1 : State := { s with mem := { s.mem with chafed := marksAfter s.mem.chafed (frameBase .host e.frame) blockBytes true } }
  have hrun : chafeHostBlock s b = syncChafe s1 b := by rw [chafeHostBlock, he]
  have he1 : htGet s1 b = e := he
  have hm1 : blockMarked s1 e = true := by rw [blockMarked, ht]; exact hmark
  rw [hrun]
  refine ⟨?_, (spanChafed_syncChafe ..).trans hmark⟩
  rw [syncChafe, he1]
  rcases hst with h | h | h
  · simp [h, hm1]
  · simp [h, hm1]
  · simp only [h, hm1, if_true, he1]
    rw [← h]

theorem HostChafed.step {s : State} {b : Nat} {e : HtEntry} (ht : e.tier = .host) (h : HostChafed s b e) (x : Nat) :
    HostChafed (chafeHostBlock s x) b e := by
  obtain ⟨hentry, hmark⟩ := h
  by_cases hx : b = x
  · exact hx ▸ chafeHostBlock_self (e := { e with state := .chafed }) hentry ht (Or.inr (Or.inr rfl))
  · exact ⟨(chafeHostBlock_ne s hx).trans hentry, (spanChafed_syncChafe ..).trans (spanChafed_marked hmark _ _)⟩

theorem foldl_chafeHostBlock {bs : List Nat} {s : State} {b : Nat} {e : HtEntry} (hb : b ∈ bs) (he : htGet s b = e)
    (ht : e.tier = .host) (hst : e.state = .home ∨ e.state = .landing) : HostChafed (bs.foldl chafeHostBlock s) b e := by
  induction bs generalizing s with
  | nil => cases hb
  | cons x bs ih =>
    by_cases hx : b = x
    · exact foldl_keeps (HostChafed · b e) _ bs _ (hx ▸ chafeHostBlock_self (hx ▸ he) ht (hst.imp_right Or.inl))
        (fun _ y hu => hu.step ht y)
    · exact ih ((List.mem_cons.1 hb).resolve_left hx) ((chafeHostBlock_ne s hx).trans he)

theorem foldl_chafeHostBlock_sameBytes (bs : List Nat) (s : State) : SameBytes s (bs.foldl chafeHostBlock s) := by
  refine foldl_keeps (SameBytes s) _ bs s (fun _ => rfl) (fun u b hu a => (rawByte_congr (fun _ => ?_) ?_ ?_ a).trans (hu a))
  · rw [chafeHostBlock, syncChafe_mem]
  · rw [chafeHostBlock, syncChafe_mem]
  · exact (chafeHostBlock_keeps u b).same .cfg rfl

/-! ### Lines, with no operation anywhere (R367) -/

theorem noOps_of_allOps {s : State} (h : allOps s = []) : NoOps s := by
  intro n
  have hall : ∀ p ∈ s.lines, p.2.ops = [] := by simpa [allOps] using h
  cases hf : mapFind s.lines n with
  | none => simp [lineGet, mapGet, hf, Line.reset]
  | some l =>
    have hl : lineGet s n = l := by simp [lineGet, mapGet, hf]
    exact hl ▸ hall (n, l) (mem_of_mapFind hf)

theorem opFind_of_noOps {s : State} (h : NoOps s) (n q : Nat) : opFind s n q = none := by
  rw [opFind, h n]
  rfl

theorem noteLine_stopped (s : State) (n m : Nat) : (lineGet (noteLine s n) m).stopped = (lineGet s m).stopped := by
  by_cases h : m = n
  · obtain ⟨a, b, c, hl⟩ := noteLine_line s n
    rw [h, hl]
  · rw [noteLine_line_ne _ _ _ h]

theorem noteAll_stopped (s : State) (n : Nat) : (lineGet (noteAll s) n).stopped = (lineGet s n).stopped :=
  foldl_keeps (fun t : State => (lineGet t n).stopped = (lineGet s n).stopped) _ _ s rfl
    (fun _ _ hu => (noteLine_stopped ..).trans hu)

theorem failFlushes_noOps {s : State} (h : NoOps s) : failFlushes s = s := by
  refine foldl_keeps (fun t : State => t = s) _ _ s rfl (fun t n ht => ?_)
  have hnone : stopperOf t n = none := by rw [ht, stopperOf, h n]; rfl
  rw [hnone]
  exact ht

theorem advanceRuns_noOps {s : State} (h : NoOps s) : advanceRuns s = s := by
  refine foldl_keeps (fun t : State => t = s) _ _ s rfl (fun t p ht => ?_)
  rw [ht, opFind_of_noOps h]

theorem collPumpAll_noOps {s : State} (h : NoOps s) : collPumpAll s = s := by
  refine foldl_keeps (fun t : State => t = s) _ _ s rfl (fun t p ht => ?_)
  rw [ht, collPump, opFind_of_noOps h]

theorem advanceBight_noTiles {s : State} (h : ∀ k : Nat, (strandGet s k).tiles = []) : advanceBight s = s := by
  refine foldl_keeps (fun t : State => t = s) _ _ s rfl (fun t k ht => ?_)
  rw [ht, h k]
  rfl

theorem mapFind_map_key {V : Type} (m : SMap V) (c : Nat → Bool) (g : V → V) (k : Nat) :
    mapFind (m.map (fun p => if c p.1 then (p.1, g p.2) else p)) k = (mapFind m k).map (fun v => if c k then g v else v) := by
  induction m with
  | nil => rfl
  | cons p m ih =>
    have hkey : (if c p.1 then (p.1, g p.2) else p).1 = p.1 := by split <;> rfl
    by_cases hp : p.1 = k
    · simp only [List.map_cons, mapFind, hp, if_true, Option.map_some]
      by_cases hc : c k = true
      · simp [hc]
      · simp [hc, hp]
    · simp only [List.map_cons, mapFind, hkey, hp, if_false]
      exact ih

theorem lineGet_hostRingsStop (s : State) (n : Nat) :
    lineGet (hostRingsStop s) n =
      ((mapFind s.lines n).map (fun l => if hostRing s n then { l with stopped := true } else l)).getD Line.reset :=
  congrArg (Option.getD · Line.reset) (mapFind_map_key s.lines (hostRing s) (fun l => { l with stopped := true }) n)

theorem hostRingsStop_noOps {s : State} (h : NoOps s) : NoOps (hostRingsStop s) := by
  intro n
  have hn := h n
  rw [lineGet_hostRingsStop]
  rw [lineGet, mapGet] at hn
  cases hf : mapFind s.lines n with
  | none => rfl
  | some l =>
    rw [hf] at hn
    simp only [Option.map_some, Option.getD_some] at hn ⊢
    split <;> exact hn

theorem hostRingsStop_stopped {s : State} {n : Nat} (hl : (mapFind s.lines n).isSome = true) (hr : hostRing s n = true) :
    (lineGet (hostRingsStop s) n).stopped = true := by
  obtain ⟨l, hl⟩ := Option.isSome_iff_exists.1 hl
  rw [lineGet_hostRingsStop, hl, hr]
  rfl

/-- With no operation, no move and no tile-op anywhere, the loss ends with the lines that stop. -/
theorem portDown_idle {s : State} (h : s.port.linkUp = true) (hops : allOps s = []) (hmv : s.tiers.moves = [])
    (htiles : ∀ k : Nat, (strandGet s k).tiles = []) :
    portDown s = noteAll (hostRingsStop (hostTierLost s)) ∧
      hostTierLost s = ((s.tiers.ht.filter (fun p => p.2.state != .unbound && p.2.tier = .host)).map Prod.fst).foldl chafeHostBlock
        { s with port := { s.port with linkUp := false, linkDowns := satAdd 255 s.port.linkDowns 1 } } := by
  have hlost : hostTierLost s = ((s.tiers.ht.filter (fun p => p.2.state != .unbound && p.2.tier = .host)).map Prod.fst).foldl
      chafeHostBlock { s with port := { s.port with linkUp := false, linkDowns := satAdd 255 s.port.linkDowns 1 } } := by
    rw [hostTierLost, hmv]
    rfl
  have hkeep : Keeps [.port, .link, .mem, .tiers] s (hostTierLost s) :=
    hlost ▸ Keeps.foldl (Keeps.upd (Keeps.refl _ _)) (fun _ _ hu => hu.step (chafeHostBlock_keeps ..) rfl)
  have hno : NoOps (hostRingsStop (hostTierLost s)) :=
    hostRingsStop_noOps ((noOps_of_allOps hops).congr (hkeep.same .lines rfl))
  have htiles2 (k : Nat) : (strandGet (noteAll (hostRingsStop (hostTierLost s))) k).tiles = [] := by
    rw [strandGet, (noteAll_keeps _).same .strands rfl]
    exact (congrArg (fun m => (mapGet Strand.reset m k).tiles) (hkeep.same .strands rfl)).trans (htiles k)
  refine ⟨?_, hlost⟩
  rw [portDown_up h, failFlushes_noOps hno, advanceRuns_noOps (noteAll_noOps hno), advanceBight_noTiles htiles2,
    collPumpAll_noOps (noteAll_noOps hno)]

theorem portLinkDown_chafesAndStops {s : State} (h : s.port.linkUp = true) (hops : allOps s = []) (hmv : s.tiers.moves = [])
    (htiles : ∀ k : Nat, (strandGet s k).tiles = []) :
    Answers .portLinkDown s (fun t =>
      (∀ (name : Nat) (e : HtEntry), mapFind s.tiers.ht name = some e → e.tier = .host → (e.state = .home ∨ e.state = .landing) →
        (htGet t name).state = .chafed) ∧
      (∀ n : Nat, (mapFind s.lines n).isSome = true → hostRing s n = true → (lineGet t n).stopped = true) ∧
      SameBytes s t ∧ OnlyIn [.regs, .port, .link, .ingress, .lines, .strands, .mem, .tiers, .net, .pmu] s t) := by
  obtain ⟨hrun, hlost⟩ := portDown_idle h hops hmv htiles
  generalize hbs : (s.tiers.ht.filter (fun p => p.2.state != .unbound && p.2.tier = .host)).map Prod.fst = bs at hlost
  generalize hs0 : ({ s with port := { s.port with linkUp := false, linkDowns := satAdd 255 s.port.linkDowns 1 } } : State) = s0
    at hlost
  have hkeep0 : Keeps [.port, .link] s s0 := hs0 ▸ Keeps.upd (Keeps.refl _ _)
  have hkeep1 : Keeps [.mem, .tiers] s0 (hostTierLost s) :=
    hlost ▸ Keeps.foldl (Keeps.refl _ _) (fun _ _ hu => hu.step (chafeHostBlock_keeps ..) rfl)
  have hkeep2 : Keeps [.ingress, .lines] (hostTierLost s) (hostRingsStop (hostTierLost s)) := Keeps.upd (Keeps.refl _ _)
  have hkeep3 := noteAll_keeps (hostRingsStop (hostTierLost s))
  have hlines : (hostTierLost s).lines = s.lines := (hkeep1.same .lines rfl).trans (hkeep0.same .lines rfl)
  have hcfg : (hostTierLost s).cfg = s.cfg := (hkeep1.same .cfg rfl).trans (hkeep0.same .cfg rfl)
  have hbytes : SameBytes s0 (hostTierLost s) := hlost ▸ foldl_chafeHostBlock_sameBytes bs s0
  refine ⟨_, congrArg Host.Outcome.next hrun, fun name e hfind htier hst => ?_, fun n hn hring => ?_, fun a => ?_, ?_⟩
  · have hin : name ∈ bs := by
      rw [← hbs]
      refine List.mem_map.2 ⟨(name, e), List.mem_filter.2 ⟨mem_of_mapFind hfind, ?_⟩, rfl⟩
      rcases hst with hst | hst <;> simp [hst, htier]
    have hentry : htGet s0 name = e := by
      rw [← hs0]
      exact (congrArg (Option.getD · _) hfind)
    have hend : htGet (noteAll (hostRingsStop (hostTierLost s))) name = htGet (hostTierLost s) name :=
      htGet_congr (congrArg Tiers.ht (hkeep3.same .tiers rfl)) (hkeep3.same .cfg rfl) (hkeep3.same .fuses rfl) name
    rw [hend, hlost, (foldl_chafeHostBlock hin hentry htier hst).1]
  · rw [noteAll_stopped]
    refine hostRingsStop_stopped (by rw [hlines]; exact hn) ?_
    rw [← hring, hostRing, hostRing, lineOn, lineOn, actF, actF, actF, actF, actF, actF, hcfg]
  · exact ((hkeep3.sameBytes rfl rfl a).trans (hkeep2.sameBytes rfl rfl a)).trans
      ((hbytes a).trans (hkeep0.sameBytes rfl rfl a))
  · exact ((hkeep0.mono rfl).step hkeep1 rfl |>.step hkeep2 rfl |>.step hkeep3 rfl).only

/-! ### The return of the link (R364, R365) -/

/-- Where the pending bits of a module stand as its vectors are flushed: `t` after some of the vectors `vs` from `s`. -/
structure Flushed (s t : State) : Prop where
  link : t.port.linkUp = s.port.linkUp
  width : t.port.width = s.port.width
  rate : t.port.rate = s.port.rate
  flr : t.port.flrAt = s.port.flrAt
  msix : t.port.msix = s.port.msix
  out : ∀ m ∈ s.port.out, m ∈ t.port.out
  pba : ∀ v ∈ t.port.pba, v ∈ s.port.pba
  masked : ∀ v : Nat, (mapGet MsixEntry.reset s.port.msix v).mask = true → t.port.pba.contains v = s.port.pba.contains v
  sent : ∀ v ∈ s.port.pba, v ∉ t.port.pba → HostMsg.msix v ∈ t.port.out

theorem Flushed.refl (s : State) : Flushed s s :=
  ⟨rfl, rfl, rfl, rfl, rfl, fun _ h => h, fun _ h => h, fun _ _ => rfl, fun _ h hn => absurd h hn⟩

/-- One turn of the flush. -/
def flushOne (t : State) (v : Nat) : State :=
  if t.port.pba.contains v && t.port.linkUp && t.port.flrAt.isNone && !(mapGet MsixEntry.reset t.port.msix v).mask then
    sendVec { t with port := { t.port with pba := setDel t.port.pba v } } v
  else t

theorem flushOne_sends {t : State} {v : Nat} (hv : t.port.pba.contains v = true) (hup : t.port.linkUp = true)
    (hflr : t.port.flrAt = none) (hm : (mapGet MsixEntry.reset t.port.msix v).mask = false) :
    (flushOne t v).port = { t.port with pba := setDel t.port.pba v, out := t.port.out ++ [.msix v] } := by
  rw [flushOne, if_pos (by rw [hv]; simp [hup, hflr, hm]), sendVec, if_pos (by simp [hup, hflr, hm]), pmuBase_port]

theorem mem_setDel (ms : List Nat) (k j : Nat) : j ∈ setDel ms k ↔ j ∈ ms ∧ j ≠ k := by simp [setDel]

theorem Flushed.step {s t : State} (h : Flushed s t) (v : Nat) : Flushed s (flushOne t v) := by
  by_cases hc : (t.port.pba.contains v && t.port.linkUp && t.port.flrAt.isNone && !(mapGet MsixEntry.reset t.port.msix v).mask) = true
  · simp only [Bool.and_eq_true, Bool.not_eq_true', Option.isNone_iff_eq_none] at hc
    obtain ⟨⟨⟨hv, hup⟩, hflr⟩, hm⟩ := hc
    have hport := flushOne_sends hv hup hflr hm
    refine ⟨by rw [hport]; exact h.link, by rw [hport]; exact h.width, by rw [hport]; exact h.rate, by rw [hport]; exact h.flr,
      by rw [hport]; exact h.msix, fun m hmem => ?_, fun w hw => ?_, fun w hw => ?_, fun w hw hnot => ?_⟩
    · rw [hport]
      exact List.mem_append_left _ (h.out m hmem)
    · rw [hport] at hw
      exact h.pba w ((mem_setDel ..).1 hw).1
    · have hne : w ≠ v := by
        rintro rfl
        rw [h.msix, hw] at hm
        cases hm
      rw [hport, ← h.masked w hw, Bool.eq_iff_iff]
      simp [mem_setDel, hne]
    · rw [hport] at hnot ⊢
      by_cases hwv : w = v
      · rw [hwv]
        exact List.mem_append_right _ List.mem_cons_self
      · exact List.mem_append_left _ (h.sent w hw (fun hin => hnot ((mem_setDel ..).2 ⟨hin, hwv⟩)))
  · rw [flushOne, if_neg hc]
    exact h

theorem flushMsix_flushed (s : State) (vs : List Nat) : Flushed s (flushMsix s vs) :=
  foldl_keeps (Flushed s) _ vs s (Flushed.refl s) (fun _ v hu => hu.step v)

/-- With the link up and no FLR, an unmasked vector of the list keeps no pending bit. -/
theorem flushMsix_clears {s : State} (hup : s.port.linkUp = true) (hflr : s.port.flrAt = none) {v : Nat}
    (hm : (mapGet MsixEntry.reset s.port.msix v).mask = false) {vs : List Nat} (hv : v ∈ vs) : v ∉ (flushMsix s vs).port.pba := by
  obtain ⟨as, bs, rfl⟩ := List.append_of_mem hv
  have hsplit : flushMsix s (as ++ v :: bs) = flushMsix (flushOne (flushMsix s as) v) bs := List.foldl_append ..
  have ha := flushMsix_flushed s as
  have hone : v ∉ (flushOne (flushMsix s as) v).port.pba := by
    by_cases hc : (flushMsix s as).port.pba.contains v = true
    · rw [flushOne_sends hc (ha.link.trans hup) (ha.flr.trans hflr) (by rw [ha.msix]; exact hm)]
      simp [mem_setDel]
    · rw [flushOne, if_neg (by simp at hc; simp [hc])]
      simpa using hc
  rw [hsplit]
  exact fun hin => hone ((flushMsix_flushed _ bs).pba v hin)

/-- During an FLR nothing is flushed. -/
theorem flushMsix_flr {s : State} (hflr : s.port.flrAt ≠ none) (vs : List Nat) : flushMsix s vs = s := by
  refine foldl_keeps (fun t : State => t = s) _ vs s rfl (fun t v ht => ?_)
  rw [ht, if_neg]
  simp [hflr]

/-- The state in which the link has come up, before what is pending is sent. -/
def linkReturned (s : State) : State :=
  { drawn s with port := { s.port with
    linkUp := true
    width := [1, 4, 8, 16].getD ((Config.freeWord s.free).toNat % 4) 16
    rate := (Config.freeWord s.free).toNat / 4 % 6 } }

theorem linkWidth_mem (w : Nat) : [1, 4, 8, 16].contains ([1, 4, 8, 16].getD (w % 4) 16) = true := by
  have hw : w % 4 < 4 := Nat.mod_lt _ (by decide)
  interval_cases w % 4 <;> rfl

theorem portLinkUp_answers {s : State} (hrails : s.power.rails = true) (hperst : s.power.perstActed = false)
    (hclk : s.pins.refclkOk = true) (hdown : s.port.linkUp = false) (hphase : 1 ≤ s.boot.phase) :
    Answers .portLinkUp s (fun t => t.port.linkUp = true ∧ [1, 4, 8, 16].contains t.port.width = true ∧ t.port.rate < 6 ∧
      (s.port.flrAt = none → ∀ v ∈ s.port.pba, (mapGet MsixEntry.reset s.port.msix v).mask = false →
        HostMsg.msix v ∈ t.port.out ∧ t.port.pba.contains v = false) ∧
      (∀ v : Nat, (mapGet MsixEntry.reset s.port.msix v).mask = true → t.port.pba.contains v = s.port.pba.contains v) ∧
      (s.port.flrAt ≠ none → t.port.pba = s.port.pba ∧ t.port.out = s.port.out) ∧
      OnlyIn [.free, .port, .link, .pmu] s t) := by
  have hrun : exec .portLinkUp s = .next (flushMsix (linkReturned s) s.port.pba) :=
    if_pos (by simp [hrails, hperst, hclk, hdown, hphase])
  have hf := flushMsix_flushed (linkReturned s) s.port.pba
  have hkeep : Keeps [.free, .port, .link, .pmu] s (linkReturned s) :=
    Keeps.upd ((drawn_keeps s).mono rfl)
  refine ⟨_, hrun, hf.link, ?_, ?_, fun hflr v hv hm => ?_, hf.masked, fun hflr => ?_, (hkeep.step (flushMsix_keeps ..) rfl).only⟩
  · rw [hf.width]
    exact linkWidth_mem _
  · rw [hf.rate]
    exact Nat.mod_lt _ (by decide)
  · have hnot := flushMsix_clears (s := linkReturned s) rfl hflr hm hv
    exact ⟨hf.sent v hv hnot, by simpa using hnot⟩
  · rw [flushMsix_flr (s := linkReturned s) hflr]
    exact ⟨rfl, rfl⟩

/-- Settles O18, clause by clause. -/
theorem portLinkDownAndUp : Obligations.PortLinkDownAndUp := fun _ =>
  ⟨portLinkDown_takesLink, fun h => congrArg Host.Outcome.next (if_pos (by simp [h])), portLinkDown_chafesAndStops, portLinkUp_answers⟩

end Sys2Proof.Machine
end

section
/-! SUPPORT. Stores in kern and the mantle outside the RAW slabs that no posted write covers, one piece and several pieces of a
line of one block (R63, R155, R175, R177, R290). -/

set_option Elab.async false

namespace Sys2Proof.Machine

open Sys2Proof

/-! ### One store at a frame address -/

theorem plainSpan_iff (s : State) (fa n : Nat) : plainSpan s fa n = true ↔
    fa + n ≤ hostFrames ∧ (∀ i : Nat, i < n → rawSlotOf s.cfg.act s.fuses.variant (fa + i) = none) ∧ uncovered s fa n := by
  simp [plainSpan, uncovered, and_assoc]

theorem plainSpan_sub {s : State} {fa n fx m : Nat} (h : plainSpan s fa n = true) (hlo : fa ≤ fx) (hhi : fx + m ≤ fa + n) :
    plainSpan s fx m = true := by
  obtain ⟨hend, hraw, hposted⟩ := (plainSpan_iff s fa n).1 h
  refine (plainSpan_iff s fx m).2 ⟨by omega, fun i hi => ?_, fun p hp => ?_⟩
  · have hi' := hraw (fx - fa + i) (by omega)
    rwa [show fa + (fx - fa + i) = fx + i by omega] at hi'
  · have hp' := hposted p hp
    omega

/-- Places and lengths of the posted writes. -/
def postedSpans (s : State) : List (Nat × Nat) := s.mem.posted.map (fun p => (p.addr, p.bytes.length))

theorem uncovered_iff_spans (s : State) (fa n : Nat) :
    uncovered s fa n ↔ ∀ q ∈ postedSpans s, fa + n ≤ q.1 ∨ q.1 + q.2 ≤ fa := by
  simp [uncovered, postedSpans]

/-- What decides whether a span is plain: the configuration, the fuses, and where the posted writes lie. -/
theorem plainSpan_congr {s t : State} (hc : t.cfg = s.cfg) (hf : t.fuses = s.fuses) (hp : postedSpans t = postedSpans s)
    {fa n : Nat} (h : plainSpan s fa n = true) : plainSpan t fa n = true := by
  obtain ⟨hend, hraw, hposted⟩ := (plainSpan_iff s fa n).1 h
  refine (plainSpan_iff t fa n).2 ⟨hend, by rwa [hc, hf], ?_⟩
  rw [uncovered_iff_spans, hp]
  exact (uncovered_iff_spans s fa n).1 hposted

theorem writeByte_plain {s : State} {fa : Nat} (b : Byte) (h : plainSpan s fa 1 = true) :
    writeByte s fa b = { s with mem := memAfterByte s.mem fa b } := by
  obtain ⟨hend, hraw, hposted⟩ := (plainSpan_iff s fa 1).1 h
  have hp : ∀ p ∈ s.mem.posted, ¬ (p.addr ≤ fa ∧ fa < p.addr + p.bytes.length) := fun p hp => by have := hposted p hp; omega
  have hc : (s.mem.posted.any (fun p => p.covers fa)) = false := by
    simp only [List.any_eq_false, Posted.covers, Bool.and_eq_true, decide_eq_true_eq]
    exact hp
  have hpar : parityAddr s.cfg.act s.fuses.variant fa = none := by
    have h0 := hraw 0 (by decide)
    rw [Nat.add_zero] at h0
    rw [parityAddr, h0]
    rfl
  unfold writeByte
  simp only [hc, Bool.false_and, Bool.false_eq_true, if_false]
  rw [hpar, putByte, if_pos (by omega), under_uncovered fa b _ hp]
  rfl

/-- Consecutive bytes in a plain span: the memory holds them, and nothing else of it changes but the read-ahead buffer. -/
theorem writeBytes_plain (bs : List Byte) (s : State) (fa : Nat) (h : plainSpan s fa bs.length = true) :
    ∃ (bytes : SMap Byte) (ahead : SMap (List (Byte × Bool))),
      writeBytes s fa bs = { s with mem := { s.mem with bytes := bytes, ahead := ahead } } ∧
      (∀ i : Nat, i < bs.length → mapGet 0 bytes (fa + i) = bs.getD i 0) ∧
      (∀ a : Nat, ¬ (fa ≤ a ∧ a < fa + bs.length) → mapGet 0 bytes a = mapGet 0 s.mem.bytes a) := by
  induction bs generalizing s fa with
  | nil => exact ⟨s.mem.bytes, s.mem.ahead, rfl, by simp, by simp⟩
  | cons b bs ih =>
    rw [List.length_cons] at h
    have hb := writeByte_plain b (plainSpan_sub h (Nat.le_refl fa) (by omega))
    have hrest : plainSpan s (fa + 1) bs.length = true := plainSpan_sub h (by omega) (by omega)
    obtain ⟨bytes, ahead, hrun, hin, hout⟩ := ih { s with mem := memAfterByte s.mem fa b } (fa + 1)
      (plainSpan_congr (s := s) rfl rfl rfl hrest)
    refine ⟨bytes, ahead, ?_, fun i hi => ?_, fun a ha => ?_⟩
    · rw [writeBytes, hb, hrun]
      rfl
    · cases i with
      | zero =>
        rw [hout (fa + 0) (by omega)]
        exact mapGet_mapSet_self 0 s.mem.bytes fa b
      | succ i =>
        rw [show fa + (i + 1) = fa + 1 + i by omega, hin i (by rw [List.length_cons] at hi; omega)]
        rfl
    · rw [List.length_cons] at ha
      rw [hout a (by omega)]
      exact mapGet_mapSet_ne 0 s.mem.bytes fa a b (by omega)

theorem granSize_pos (fa : Nat) : 32 ≤ granSize fa ∧ 0 < granSize fa := by
  unfold granSize
  split <;> decide

theorem granSize_mantle {fa : Nat} (hlo : mantleBase ≤ fa) (hhi : fa < hostFrames) : granSize fa = 32 := if_pos (by simp [hlo, hhi])

theorem granSize_other {fa : Nat} (h : ¬ (mantleBase ≤ fa ∧ fa < hostFrames)) : granSize fa = 64 := if_neg (by simpa using h)

/-- The granules of an address and of its granule's first byte are of one size. -/
theorem granSize_granOf (fa : Nat) : granSize (granOf fa) = granSize fa := by
  have hmantle : mantleBase = 4294967296 * 64 := rfl
  have hhost : hostFrames = 17179869184 * 64 := rfl
  by_cases h : mantleBase ≤ fa ∧ fa < hostFrames
  · rw [granOf, granSize_mantle h.1 h.2, granSize_mantle (by omega) (by omega)]
  · rw [granOf, granSize_other h, granSize_other (by omega)]

/-- A granule that a span touches meets the span. -/
theorem granules_meet {fa n g : Nat} (h : g ∈ granules fa n) : g < fa + n ∧ fa < g + granSize g := by
  have hpos := (granSize_pos fa).2
  have hfloor : granOf fa ≤ fa ∧ fa < granOf fa + granSize fa := by
    have hdiv := Nat.div_add_mod' fa (granSize fa)
    have hmod := Nat.mod_lt fa hpos
    rw [granOf]
    omega
  rw [granules] at h
  split at h
  next => cases h
  next hn =>
    obtain ⟨i, hi, rfl⟩ := List.mem_map.1 h
    have hi := List.mem_range.1 hi
    have hmono : fa / granSize fa ≤ (fa + n - 1) / granSize fa := Nat.div_le_div_right (by omega)
    have hupper : (fa / granSize fa + i) * granSize fa ≤ fa + n - 1 :=
      (Nat.mul_le_mul_right _ (show fa / granSize fa + i ≤ (fa + n - 1) / granSize fa by omega)).trans (Nat.div_mul_le_self _ _)
    refine ⟨by omega, ?_⟩
    cases i with
    | zero =>
      have hsame := granSize_granOf fa
      rw [Nat.add_zero, ← granOf, hsame]
      exact hfloor.2
    | succ i =>
      have hnext : (fa / granSize fa + 1) * granSize fa ≤ (fa / granSize fa + (i + 1)) * granSize fa :=
        Nat.mul_le_mul_right _ (by omega)
      rw [Nat.add_mul, Nat.one_mul, ← granOf] at hnext
      omega

/-- In a plain span no posted write of a whole granule stays over the write. -/
theorem postedStays_plain {s : State} {fa n : Nat} (h : plainSpan s fa n = true) : (granules fa n).filter (postedStays s) = [] := by
  obtain ⟨-, -, hposted⟩ := (plainSpan_iff s fa n).1 h
  refine List.filter_eq_nil_iff.2 (fun g hg hst => ?_)
  obtain ⟨hlo, hhi⟩ := granules_meet hg
  simp only [postedStays, Bool.and_eq_true, List.any_eq_true, decide_eq_true_eq] at hst
  obtain ⟨⟨p, hp, haddr, hlen⟩, -⟩ := hst
  have := hposted p hp
  omega

theorem rawByte_of_bytes {s t : State} {a : Nat} (hb : mapGet 0 t.mem.bytes a = mapGet 0 s.mem.bytes a)
    (hh : t.mem.host = s.mem.host) (hc : t.cfg = s.cfg) : rawByte t a = rawByte s a := by
  by_cases hlocal : a < hostFrames
  · rw [rawByte_local _ _ hlocal, rawByte_local _ _ hlocal, hb]
  · rw [rawByte, rawByte, if_neg hlocal, if_neg hlocal, hh, hc]

/-- What a store in a plain span leaves: the bytes, the marks, and where the posted writes lie. -/
structure StoredAt (s t : State) (fa : Nat) (bs : List Byte) (mark : Bool) : Prop where
  bytes : ∀ i : Nat, i < bs.length → rawByte t (fa + i) = bs.getD i 0
  others : ∀ a : Nat, ¬ (fa ≤ a ∧ a < fa + bs.length) → rawByte t a = rawByte s a
  chafed : t.mem.chafed = marksAfter s.mem.chafed fa bs.length mark
  posted : postedSpans t = postedSpans s

theorem storeAt_plain {s : State} {fa : Nat} {bs : List Byte} (mark : Bool) (h : plainSpan s fa bs.length = true) :
    StoredAt s (storeAt s fa bs mark) fa bs mark := by
  obtain ⟨bytes, ahead, hrun, hin, hout⟩ := writeBytes_plain bs s fa h
  obtain ⟨hend, -⟩ := (plainSpan_iff s fa _).1 h
  have hstore : storeAt s fa bs mark = { s with mem := { s.mem with
      bytes := bytes, ahead := ahead, chafed := marksAfter s.mem.chafed fa bs.length mark,
      posted := s.mem.posted.map (Posted.underMark fa bs.length mark) } } := by
    rw [storeAt, hrun, postedStays_plain h]
    rfl
  rw [hstore]
  refine ⟨fun i hi => ?_, fun a ha => ?_, rfl, ?_⟩
  · rw [rawByte_local _ _ (by omega)]
    exact hin i hi
  · exact rawByte_of_bytes (hout a ha) rfl rfl
  · rw [postedSpans, List.map_map]
    refine List.map_congr_left (fun p _ => ?_)
    simp only [Function.comp, Posted.underMark]
    split <;> rfl

/-- A write that is shorter than a granule clears no mark. -/
theorem marksAfter_short (ms : List Nat) (fa : Nat) {n : Nat} (h : n < 32) : marksAfter ms fa n false = ms := by
  refine foldl_keeps (fun m : List Nat => m = ms) _ _ ms rfl (fun m g hm => ?_)
  have := (granSize_pos g).1
  simp only [Bool.false_eq_true, if_false]
  rw [if_neg (by simp only [Bool.and_eq_true, decide_eq_true_eq]; omega)]
  exact hm

/-- A write of a whole granule of the mantle clears its mark. -/
theorem marksAfter_granule (ms : List Nat) {fa : Nat} (hlo : mantleBase ≤ fa) (hhi : fa < hostFrames) (ha : fa % 32 = 0) :
    marksAfter ms fa 32 false = setDel ms fa := by
  have hsize := granSize_mantle hlo hhi
  have hone : granules fa 32 = [fa] := by
    have h1 : (fa + 32 - 1) / 32 - fa / 32 + 1 = 1 := by omega
    have h2 : (fa / 32 + 0) * 32 = fa := by omega
    rw [granules, hsize, if_neg (by decide), h1]
    exact congrArg (fun x => [x]) h2
  rw [marksAfter, hone]
  simp [hsize]

/-! ### A piece of a block -/

/-- A span of a block's names is open for a store: the block is bound and not MOVING or merging, its frame begins the span at
`fa`, and the span there is plain. -/
structure LineOpen (s : State) (a fa n : Nat) : Prop where
  inBlock : a % blockBytes + n ≤ blockBytes
  region : regionOf s.fuses.variant a = .kern ∨ regionOf s.fuses.variant a = .mantle
  bound : (htGet s (blockNo a)).state ≠ .unbound
  still : (htGet s (blockNo a)).state ≠ .moving
  merging : s.tiers.merging.contains (blockNo a) = false
  frame : frameAddr (htGet s (blockNo a)) a = fa
  plain : plainSpan s fa n = true

/-- Regions other than windows hold whole blocks. -/
theorem regionOf_block {v : Variant} {a x : Nat} (h : regionOf v a = .kern ∨ regionOf v a = .mantle) (hb : blockNo x = blockNo a) :
    regionOf v x = regionOf v a := by
  have hblocks : x / 65536 = a / 65536 := hb
  have hbase : mantleBase = 4194304 * 65536 := rfl
  have hend : mantleEnd v = (4194304 + nchan v * 16384) * 65536 := by simp only [mantleEnd]; omega
  unfold regionOf at h ⊢
  by_cases h1 : a < mantleBase
  · rw [if_pos h1, if_pos (by omega)]
  · by_cases h2 : a < mantleEnd v
    · rw [if_neg h1, if_pos h2, if_neg (by omega), if_pos (by omega)]
    · rw [if_neg h1, if_neg h2] at h
      split at h
      · rcases h with h | h <;> cases h
      · split at h <;> rcases h with h | h <;> cases h

section
variable {s : State} {a fa n : Nat} (h : LineOpen s a fa n)
include h

theorem LineOpen.blockNo_eq {x : Nat} (hlo : a ≤ x) (hhi : x < a + n) : blockNo x = blockNo a := by
  have hin := h.inBlock
  simp only [blockBytes] at hin
  simp only [blockNo, blockBytes]
  omega

theorem LineOpen.sub {x m : Nat} (hlo : a ≤ x) (hhi : x + m ≤ a + n) (hm : 0 < m) : LineOpen s x (fa + (x - a)) m := by
  have hb : blockNo x = blockNo a := h.blockNo_eq hlo (by omega)
  have hin := h.inBlock
  simp only [blockBytes] at hin
  refine ⟨?_, ?_, by rw [hb]; exact h.bound, by rw [hb]; exact h.still, by rw [hb]; exact h.merging, ?_,
    plainSpan_sub h.plain (by omega) (by omega)⟩
  · simp only [blockBytes]
    omega
  · rw [regionOf_block h.region hb]
    exact h.region
  · have hframe := h.frame
    simp only [frameAddr, blockBytes] at hframe ⊢
    rw [hb]
    omega

/-- The block of the span is not in the host tier. -/
theorem LineOpen.tier (hn : 0 < n) : (htGet s (blockNo a)).tier ≠ .host := by
  intro ht
  obtain ⟨hend, -⟩ := (plainSpan_iff s fa n).1 h.plain
  have hframe := h.frame
  rw [frameAddr, ht] at hframe
  simp only [frameBase] at hframe
  omega

end

/-- An unmarked piece goes to the frame of its block, and the block's state follows its marks. -/
theorem writePiece_plain {s : State} {a fa : Nat} {bs : List Byte} (hn : bs ≠ []) (h : LineOpen s a fa bs.length) (relaxed bad : Bool)
    {acct : Option Nat} (hacct : ∀ x, acct = some x → x = (htGet s (blockNo a)).account) :
    writePiece relaxed acct false (s, bad) (a, bs) = (syncChafe (storeAt s fa bs false) (blockNo a), bad) := by
  have htier := h.tier (List.length_pos_iff.2 hn)
  have hm : blockNo a ∉ s.tiers.merging := by simpa using h.merging
  have hother : (acct.any fun x => x != (htGet s (blockNo a)).account) = false := by
    cases acct with
    | none => rfl
    | some x => simp [hacct x rfl]
  have htw : tierWrite s relaxed (htGet s (blockNo a)) a bs = s := by
    unfold tierWrite
    split
    next ht _ => exact absurd ht htier
    next => rfl
  have hbound := h.bound
  have hstill := h.still
  have hframe := h.frame
  unfold writePiece
  rcases h.region with hr | hr <;> simp only [hr] <;>
    simp [hbound, hstill, hm, htier, htw, hframe, frameWrite, hother]

/-! ### What stores within a line leave -/

/-- From `s`, stores within the span of `n` bytes at frame address `fa`, of block `b`, have changed bytes there, marks, and the
state that the marks give the block. -/
structure StoredIn (s t : State) (b fa n : Nat) : Prop where
  keeps : Keeps [.mem, .tiers] s t
  outside : ∀ x : Nat, ¬ (fa ≤ x ∧ x < fa + n) → rawByte t x = rawByte s x
  entry : ∃ (st : BlockState) (r : Bool), htGet t b = { htGet s b with state := st, repair := r } ∧
    ((htGet s b).state ≠ .unbound → (htGet s b).state ≠ .moving → st ≠ .unbound ∧ st ≠ .moving)
  entries : ∀ x : Nat, x ≠ b → htGet t x = htGet s x
  merging : t.tiers.merging = s.tiers.merging
  posted : postedSpans t = postedSpans s

theorem StoredIn.refl (s : State) (b fa n : Nat) : StoredIn s s b fa n :=
  ⟨Keeps.refl _ _, fun _ _ => rfl, ⟨_, _, rfl, fun h1 h2 => ⟨h1, h2⟩⟩, fun _ _ => rfl, rfl, rfl⟩

theorem StoredIn.trans {s t u : State} {b fa n : Nat} (h1 : StoredIn s t b fa n) (h2 : StoredIn t u b fa n) :
    StoredIn s u b fa n where
  keeps := h1.keeps.step h2.keeps rfl
  outside := fun x hx => (h2.outside x hx).trans (h1.outside x hx)
  entry := by
    obtain ⟨st1, r1, he1, hs1⟩ := h1.entry
    obtain ⟨st2, r2, he2, hs2⟩ := h2.entry
    refine ⟨st2, r2, by rw [he2, he1], fun hb hm => ?_⟩
    have hmid := hs1 hb hm
    exact hs2 (by rw [he1]; exact hmid.1) (by rw [he1]; exact hmid.2)
  entries := fun x hx => (h2.entries x hx).trans (h1.entries x hx)
  merging := h2.merging.trans h1.merging
  posted := h2.posted.trans h1.posted

/-- The span of a store can be any wider one. -/
theorem StoredIn.widen {s t : State} {b fa n fx m : Nat} (h : StoredIn s t b fx m) (hlo : fa ≤ fx) (hhi : fx + m ≤ fa + n) :
    StoredIn s t b fa n :=
  ⟨h.keeps, fun x hx => h.outside x (by omega), h.entry, h.entries, h.merging, h.posted⟩

theorem syncChafe_entry (s : State) (b : Nat) : ∃ (st : BlockState) (r : Bool),
    htGet (syncChafe s b) b = { htGet s b with state := st, repair := r } ∧
    ((htGet s b).state ≠ .unbound → (htGet s b).state ≠ .moving → st ≠ .unbound ∧ st ≠ .moving) := by
  unfold syncChafe
  dsimp only
  split
  · split
    · exact ⟨.chafed, _, htGet_htSet_self .., by simp⟩
    · exact ⟨_, _, rfl, fun h1 h2 => ⟨h1, h2⟩⟩
  · split
    · exact ⟨.chafed, _, htGet_htSet_self .., by simp⟩
    · exact ⟨_, _, rfl, fun h1 h2 => ⟨h1, h2⟩⟩
  · split
    · exact ⟨_, _, rfl, fun h1 h2 => ⟨h1, h2⟩⟩
    · refine ⟨_, _, htGet_htSet_self .., ?_⟩
      split <;> simp
  · exact ⟨_, _, rfl, fun h1 h2 => ⟨h1, h2⟩⟩

theorem syncChafe_merging (s : State) (b : Nat) : (syncChafe s b).tiers.merging = s.tiers.merging := by
  unfold syncChafe
  dsimp only
  repeat' split
  all_goals rfl

theorem rawByte_syncChafe (s : State) (b x : Nat) : rawByte (syncChafe s b) x = rawByte s x :=
  rawByte_congr (fun _ => by rw [syncChafe_mem]) (by rw [syncChafe_mem]) (syncChafe_cfg ..) x

/-- One store with the state of its block brought up to its marks. -/
theorem syncStore_storedIn {s : State} {fa : Nat} {bs : List Byte} (b : Nat) (h : plainSpan s fa bs.length = true) :
    StoredIn s (syncChafe (storeAt s fa bs false) b) b fa bs.length := by
  have hs := storeAt_plain false h
  have hk := storeAt_keeps s fa bs false
  have hht (x : Nat) : htGet (storeAt s fa bs false) x = htGet s x :=
    htGet_congr (congrArg Tiers.ht (hk.same .tiers rfl)) (hk.same .cfg rfl) (hk.same .fuses rfl) x
  refine ⟨(hk.mono rfl).step (syncChafe_keeps ..) rfl, fun x hx => ?_, ?_, fun x hx => ?_, ?_, ?_⟩
  · rw [rawByte_syncChafe]
    exact hs.others x hx
  · rw [← hht b]
    exact syncChafe_entry ..
  · rw [htGet_syncChafe_ne _ hx, hht]
  · rw [syncChafe_merging, hk.same .tiers rfl]
  · rw [postedSpans, syncChafe_mem]
    exact hs.posted

/-- Stores within a block leave its other spans open. -/
theorem LineOpen.after {s t : State} {a fa n fx m : Nat} (h : LineOpen s a fa n) (hst : StoredIn s t (blockNo a) fx m) :
    LineOpen t a fa n := by
  obtain ⟨st, r, hentry, hstate⟩ := hst.entry
  have hkind := hstate h.bound h.still
  have hfuses : t.fuses = s.fuses := hst.keeps.same .fuses rfl
  refine ⟨h.inBlock, by rw [hfuses]; exact h.region, by rw [hentry]; exact hkind.1, by rw [hentry]; exact hkind.2,
    by rw [hst.merging]; exact h.merging, ?_, plainSpan_congr (hst.keeps.same .cfg rfl) hfuses hst.posted h.plain⟩
  rw [hentry]
  exact h.frame

/-- A step that stores its piece of block `b` at its frame while the block's DERIVED bit is `d`. -/
def StoresPiece (b : Nat) (d : Bool) (f : State → Nat × List Byte → State) : Prop :=
  ∀ (t : State) (x fx : Nat) (bs : List Byte), bs ≠ [] → LineOpen t x fx bs.length → blockNo x = b →
    (htGet t b).derived = d → f t (x, bs) = syncChafe (storeAt t fx bs false) b

/-- Pieces of a line, each not empty, that carry the bytes `new` of the line. -/
structure PiecesOf (ps : List (Nat × List Byte)) (a n : Nat) (new : Nat → Byte) : Prop where
  inside : ∀ p ∈ ps, p.2 ≠ [] ∧ a ≤ p.1 ∧ p.1 + p.2.length ≤ a + n
  bytes : ∀ p ∈ ps, ∀ i : Nat, i < p.2.length → p.2.getD i 0 = new (p.1 - a + i)

/-- A byte of the line lies in one of its pieces. -/
def inPieces (ps : List (Nat × List Byte)) (x : Nat) : Bool := ps.any (fun p => p.1 ≤ x && x < p.1 + p.2.length)

/-- Pieces stored one after another: their bytes stand in the line, and every other byte is as before. -/
theorem storePieces {b : Nat} {d : Bool} {f : State → Nat × List Byte → State} (hf : StoresPiece b d f) {a n : Nat} {new : Nat → Byte}
    (ps : List (Nat × List Byte)) (s : State) {fa : Nat} (h : LineOpen s a fa n) (hb : blockNo a = b)
    (hder : (htGet s b).derived = d) (hps : PiecesOf ps a n new) :
    StoredIn s (ps.foldl f s) b fa n ∧
    (∀ j : Nat, j < n → rawByte (ps.foldl f s) (fa + j) = if inPieces ps (a + j) then new j else rawByte s (fa + j)) ∧
    ((∀ p ∈ ps, p.2.length < 32) → (ps.foldl f s).mem.chafed = s.mem.chafed) := by
  induction ps generalizing s with
  | nil => exact ⟨StoredIn.refl .., fun _ _ => (if_neg Bool.false_ne_true).symm, fun _ => rfl⟩
  | cons p ps ih =>
    obtain ⟨hne, hlo, hhi⟩ := hps.inside p List.mem_cons_self
    have hlen := List.length_pos_iff.2 hne
    have hx : blockNo p.1 = b := (h.blockNo_eq hlo (by omega)).trans hb
    have hopen := h.sub hlo hhi hlen
    have hrun : f s p = syncChafe (storeAt s (fa + (p.1 - a)) p.2 false) b := hf s p.1 _ p.2 hne hopen hx hder
    have hone : StoredIn s (f s p) b (fa + (p.1 - a)) p.2.length := hrun ▸ syncStore_storedIn b hopen.plain
    have hbytes := storeAt_plain false hopen.plain
    obtain ⟨st, r, hentry, -⟩ := hone.entry
    obtain ⟨hrest, hget, hmarks⟩ := ih (f s p) (h.after (hb ▸ hone)) (by rw [hentry]; exact hder)
      ⟨fun q hq => hps.inside q (List.mem_cons_of_mem _ hq), fun q hq => hps.bytes q (List.mem_cons_of_mem _ hq)⟩
    have hwide : StoredIn s (f s p) b fa n := hone.widen (by omega) (by omega)
    refine ⟨hwide.trans hrest, fun j hj => ?_, fun hshort => ?_⟩
    · have hhead : inPieces (p :: ps) (a + j) = (decide (p.1 ≤ a + j) && decide (a + j < p.1 + p.2.length) || inPieces ps (a + j)) := rfl
      rw [List.foldl_cons, hget j hj, hhead]
      by_cases htail : inPieces ps (a + j) = true
      · rw [if_pos htail, if_pos (by rw [htail, Bool.or_true])]
      · rw [if_neg htail, Bool.eq_false_iff.2 htail, Bool.or_false, hrun, rawByte_syncChafe]
        by_cases hin : p.1 ≤ a + j ∧ a + j < p.1 + p.2.length
        · rw [if_pos (by simp only [Bool.and_eq_true, decide_eq_true_eq]; exact hin)]
          have hbyte := hbytes.bytes (a + j - p.1) (by omega)
          rw [show fa + (p.1 - a) + (a + j - p.1) = fa + j by omega,
            hps.bytes p List.mem_cons_self _ (by omega), show p.1 - a + (a + j - p.1) = j by omega] at hbyte
          exact hbyte
        · rw [if_neg (by simpa using hin)]
          exact hbytes.others _ (by omega)
    · rw [List.foldl_cons, hmarks (fun q hq => hshort q (List.mem_cons_of_mem _ hq)), hrun, syncChafe_mem, hbytes.chafed,
        marksAfter_short _ _ (hshort p List.mem_cons_self)]

end Sys2Proof.Machine
end

section
/-! SUPPORT. BAR4 reads and writes (O14, R153, R155, R290, R299, R362, R363, R366). -/

set_option Elab.async false

namespace Sys2Proof.Machine

open Sys2Proof

/-! ### Messages at the port -/

/-- From `s`, the port has let messages of vectors out after what it had let out before. -/
def VectorsOut (s t : State) : Prop := ∃ more : List HostMsg, (∀ m ∈ more, ∃ v : Nat, m = .msix v) ∧ t.port.out = s.port.out ++ more

theorem VectorsOut.of_port {s t : State} (h : t.port = s.port) : VectorsOut s t :=
  ⟨[], fun _ hm => absurd hm List.not_mem_nil, by rw [h, List.append_nil]⟩

theorem sendVec_vectorsOut (s : State) (v : Nat) : VectorsOut s (sendVec s v) := by
  unfold sendVec
  split
  · exact ⟨[.msix v], fun m hm => ⟨v, List.mem_singleton.1 hm⟩, by rw [pmuBase_port]⟩
  · exact ⟨[], fun _ hm => absurd hm List.not_mem_nil, by rw [List.append_nil]⟩

theorem raiseCause_vectorsOut (s : State) (b : Nat) : VectorsOut s (raiseCause s b) := by
  unfold raiseCause setIrq
  dsimp only
  split
  · exact sendVec_vectorsOut ..
  · exact VectorsOut.of_port rfl

theorem pmuAdd_vectorsOut (s : State) (code n : Nat) (a : Attr) : VectorsOut s (pmuAdd s code n a) := by
  unfold pmuAdd
  dsimp only
  split
  · obtain ⟨more, hmore, hout⟩ := raiseCause_vectorsOut (pmuBase s code n a).1 irqPmuOvf
    exact ⟨more, hmore, by rw [hout, pmuBase_port]⟩
  · exact VectorsOut.of_port (pmuBase_port ..)

/-! ### Where a host access lands -/

theorem locate_block_iff {s : State} {acct : Option Nat} {a fa : Nat}
    (hr : regionOf s.fuses.variant a = .kern ∨ regionOf s.fuses.variant a = .mantle) :
    locate s acct a = some fa ↔ (htGet s (blockNo a)).state ≠ .unbound ∧
      (∀ x, acct = some x → x = (htGet s (blockNo a)).account) ∧ frameAddr (htGet s (blockNo a)) a = fa := by
  have hrun : locate s acct a = if (htGet s (blockNo a)).state = .unbound || acct.any (fun x => x != (htGet s (blockNo a)).account)
      then none else some (frameAddr (htGet s (blockNo a)) a) := by
    rcases hr with hr | hr <;> simp only [locate, hr]
  rw [hrun]
  cases acct <;> simp [and_assoc]

/-- Within a block, the frame address follows the name. -/
theorem locate_sameBlock {s : State} {acct : Option Nat} {a fa x : Nat}
    (hr : regionOf s.fuses.variant a = .kern ∨ regionOf s.fuses.variant a = .mantle)
    (h : locate s acct a = some fa) (hlo : a ≤ x) (hb : blockNo x = blockNo a) : locate s acct x = some (fa + (x - a)) := by
  obtain ⟨hbound, hacct, hframe⟩ := (locate_block_iff hr).1 h
  have hx : regionOf s.fuses.variant x = regionOf s.fuses.variant a := regionOf_block hr hb
  refine (locate_block_iff (hx ▸ hr)).2 ⟨by rw [hb]; exact hbound, by rw [hb]; exact hacct, ?_⟩
  simp only [blockNo, blockBytes] at hb
  simp only [frameAddr, blockNo, blockBytes] at hframe ⊢
  rw [hb]
  omega

/-- A name below the windows that is located lies in kern or in the mantle. -/
theorem regionOf_located {s : State} {acct : Option Nat} {a fa : Nat} (h : locate s acct a = some fa) (ha : a < straightBase) :
    regionOf s.fuses.variant a = .kern ∨ regionOf s.fuses.variant a = .mantle := by
  have hnot : regionOf s.fuses.variant a ≠ .straight := by
    unfold regionOf
    rw [show decide (straightBase ≤ a) = false from decide_eq_false (Nat.not_le.2 ha)]
    repeat' split
    all_goals simp_all
  unfold locate at h
  cases hr : regionOf s.fuses.variant a <;> simp_all

theorem lineOpen_of_locate {s : State} {acct : Option Nat} {a fa n : Nat}
    (hr : regionOf s.fuses.variant a = .kern ∨ regionOf s.fuses.variant a = .mantle)
    (h : locate s acct a = some fa) (hin : a % blockBytes + n ≤ blockBytes) (hstill : (htGet s (blockNo a)).state ≠ .moving)
    (hmerge : s.tiers.merging.contains (blockNo a) = false) (hplain : plainSpan s fa n = true) : LineOpen s a fa n := by
  obtain ⟨hbound, -, hframe⟩ := (locate_block_iff hr).1 h
  exact ⟨hin, hr, hbound, hstill, hmerge, hframe, hplain⟩

/-- What a host reads where nothing is posted and nothing read ahead: the newest byte and the granule's mark. -/
theorem hostByte_located {s : State} {a fa : Nat} (h : locate s none a = some fa) (hp : s.mem.posted = []) (ha : s.mem.ahead = []) :
    hostByte s a = (rawByte s fa, granChafed s fa) := by
  have hline : aheadLine s fa = none := by rw [aheadLine, ha]; rfl
  have hbyte : viewByte s fa = rawByte s fa := by rw [viewByte, hp]; rfl
  have hmark : viewMark s fa = granChafed s fa := by rw [viewMark, hp]; rfl
  simp only [hostByte, hostFrame, h, hline, hbyte, hmark]

/-! ### Reads (R362, R363) -/

theorem portTurn_iff {s : State} (h : portTurn s = true) : portReach s = true ∧ hostWaits s = false := by
  simpa [portTurn] using h

theorem hostAccess_turn {s : State} (h : hostWaits s = false) (c : Instr) (a n : Nat) (write : Bool) (run : State → Out) :
    hostAccess c a n write run s = run s := if_neg (by simp [h])

/-- The completions of a read, one after another. -/
def bar4Sent (s : State) (a len : Nat) : State :=
  (bar4Completions s a len).foldl (fun t c => portOut t (.data c.1 c.2)) (drawn (readAhead (hostBadNames s a len false) a len))

/-- A read that has completions: what the port lets out, and the counters that move. -/
def bar4Answer (s : State) (a len : Nat) : State :=
  pmuAdd { bar4Sent s a len with port := { (bar4Sent s a len).port with
    chafedReads := satAdd 65535 (bar4Sent s a len).port.chafedReads ((bar4Completions s a len).filter (fun c => c.2)).length } }
    0x174 (ceilDiv len 64) (attrHost a)

theorem foldl_portOut (cs : List (List Byte × Bool)) (s : State) :
    (cs.foldl (fun t c => portOut t (.data c.1 c.2)) s).port.out = s.port.out ++ cs.map (fun c => .data c.1 c.2) := by
  induction cs generalizing s with
  | nil => exact (List.append_nil _).symm
  | cons c cs ih =>
    rw [List.foldl_cons, ih, List.map_cons]
    simp [portOut]

theorem bar4Sent_keeps (s : State) (a len : Nat) : Keeps [.free, .port, .mem, .tiers] s (bar4Sent s a len) :=
  Keeps.foldl (((hostBadNames_keeps ..).mono rfl).step (readAhead_keeps ..) rfl |>.step (drawn_keeps _) rfl)
    (fun _ _ hu => hu.step (portOut_keeps ..) rfl)

theorem bar4Answer_keeps (s : State) (a len : Nat) : Keeps [.free, .regs, .port, .mem, .tiers, .pmu] s (bar4Answer s a len) :=
  ((Keeps.upd (bar4Sent_keeps s a len)).mono rfl).step (pmuAdd_keeps ..) rfl

theorem bar4Answer_out (s : State) (a len : Nat) : ∃ more : List HostMsg, (∀ m ∈ more, ∃ v : Nat, m = .msix v) ∧
    (bar4Answer s a len).port.out = s.port.out ++ (bar4Completions s a len).map (fun c => .data c.1 c.2) ++ more := by
  obtain ⟨more, hmore, hout⟩ := pmuAdd_vectorsOut { bar4Sent s a len with port := { (bar4Sent s a len).port with
    chafedReads := satAdd 65535 (bar4Sent s a len).port.chafedReads ((bar4Completions s a len).filter (fun c => c.2)).length } }
    0x174 (ceilDiv len 64) (attrHost a)
  have hsent := foldl_portOut (bar4Completions s a len) (drawn (readAhead (hostBadNames s a len false) a len))
  have hbase : (drawn (readAhead (hostBadNames s a len false) a len)).port = s.port :=
    ((drawn_keeps _).same .port rfl).trans (((readAhead_keeps ..).same .port rfl).trans ((hostBadNames_keeps ..).same .port rfl))
  rw [hbase] at hsent
  exact ⟨more, hmore, hout.trans (congrArg (· ++ more) hsent)⟩

/-- A read changes no memory but the read-ahead buffer. -/
theorem bar4Answer_mem (s : State) (a len : Nat) :
    SameBytes s (bar4Answer s a len) ∧ (bar4Answer s a len).mem.chafed = s.mem.chafed := by
  have hsent : (bar4Sent s a len).mem = (readAhead (hostBadNames s a len false) a len).mem :=
    (Keeps.foldl (Keeps.refl [.port] _) (fun _ _ hu => hu.step (portOut_keeps ..) rfl) : Keeps [.port] _ (bar4Sent s a len)).same .mem rfl
  have hmem : (bar4Answer s a len).mem = (readAhead (hostBadNames s a len false) a len).mem :=
    ((pmuAdd_keeps ..).same .mem rfl).trans hsent
  have hbase : (hostBadNames s a len false).mem = s.mem := (hostBadNames_keeps ..).same .mem rfl
  refine ⟨rawByte_congr (fun x => ?_) ?_ ((bar4Answer_keeps ..).same .cfg rfl), ?_⟩
  · rw [hmem, ← hbase]
    rfl
  · rw [hmem, ← hbase]
    rfl
  · rw [hmem, ← hbase]
    rfl

section
variable {s : State} (ht : portTurn s = true) (off : BitVec 41)
include ht

theorem bar4Read_answers {len : Nat} (found : List Found) (hlen : 0 < len) (hflr : s.port.flrAt = none)
    (hpop : bar4Unpop s off.toNat len = false) (hlost : tierLost s (bar4Addr off.toNat) = false)
    (hheld : hostHeld s (bar4Addr off.toNat) len false = false) :
    exec (.hostBar4Read off ⟨len, found⟩) s = .next (bar4Answer (foundMem s [(bar4Addr off.toNat, len)] found) (bar4Addr off.toNat) len) := by
  obtain ⟨hreach, hwaits⟩ := portTurn_iff ht
  refine (hostAccess_turn hwaits ..).trans ?_
  simp only [hostBar4ReadNow]
  rw [if_neg (by simp [hreach]; omega), if_neg (by simp [hflr]), if_neg (by simp [hpop]), if_neg (by simp [hlost]),
    if_neg (by simp [hheld])]
  rfl

theorem bar4Read_completes {len : Nat} (found : List Found) (hlen : 0 < len) (hflr : s.port.flrAt = none)
    (hpop : bar4Unpop s off.toNat len = false) (hlost : tierLost s (bar4Addr off.toNat) = false)
    (hheld : hostHeld s (bar4Addr off.toNat) len false = false) :
    Answers (.hostBar4Read off ⟨len, found⟩) s (fun t => ∃ (ds more : List HostMsg),
      ds.length = (bar4Addr off.toNat + len - 1) / 64 + 1 - bar4Addr off.toNat / 64 ∧
      (∀ m ∈ ds, ∃ (bs : List Byte) (p : Bool), m = .data bs p) ∧ (∀ m ∈ more, ∃ v : Nat, m = .msix v) ∧
      t.port.out = (foundMem s [(bar4Addr off.toNat, len)] found).port.out ++ ds ++ more) := by
  obtain ⟨more, hmore, hout⟩ := bar4Answer_out (foundMem s [(bar4Addr off.toNat, len)] found) (bar4Addr off.toNat) len
  refine ⟨_, bar4Read_answers ht off found hlen hflr hpop hlost hheld, _, more, ?_, fun m hm => ?_, hmore, hout⟩
  · rw [List.length_map, bar4Completions, List.length_map, List.length_range]
  · obtain ⟨c, -, rfl⟩ := List.mem_map.1 hm
    exact ⟨c.1, c.2, rfl⟩

omit ht in
/-- A read within a line has one completion, of the bytes of the block's frame. -/
theorem bar4Completions_line {a len fa : Nat} (hlen : 0 < len) (hline : a % 64 + len ≤ 64) (ha : a < straightBase)
    (hloc : locate s none a = some fa) (hp : s.mem.posted = []) (hah : s.mem.ahead = []) :
    bar4Completions s a len = [((List.range len).map (fun i => if granChafed s (fa + i) then 0xFF else rawByte s (fa + i)),
      (List.range len).any (fun i => granChafed s (fa + i)))] := by
  have hr := regionOf_located hloc ha
  have hone : (a + len - 1) / 64 + 1 - a / 64 = 1 := by omega
  have hlo : max a ((a / 64 + 0) * 64) = a := by omega
  have hhi : min (a + len) ((a / 64 + 0 + 1) * 64) - a = len := by omega
  have hbyte : ∀ i : Nat, i < len → hostByte s (a + i) = (rawByte s (fa + i), granChafed s (fa + i)) := by
    intro i hi
    have hblock : blockNo (a + i) = blockNo a := by simp only [blockNo, blockBytes]; omega
    have hi' := locate_sameBlock hr hloc (Nat.le_add_right a i) hblock
    rw [Nat.add_sub_cancel_left] at hi'
    exact hostByte_located hi' hp hah
  rw [bar4Completions, hone]
  simp only [List.range_one, List.map_cons, List.map_nil, hlo, hhi, List.map_map, List.any_map]
  refine congrArg (fun c => [c]) (Prod.ext (List.map_congr_left (fun i hi => ?_)) ?_)
  · simp only [Function.comp, bar4Byte, hbyte i (List.mem_range.1 hi)]
  · rw [Bool.eq_iff_iff, List.any_eq_true, List.any_eq_true]
    refine exists_congr (fun i => and_congr_right (fun hi => ?_))
    simp only [Function.comp, hbyte i (List.mem_range.1 hi)]

theorem bar4Read_line {len fa : Nat} (hlen : 0 < len) (hflr : s.port.flrAt = none)
    (hpop : bar4Unpop s off.toNat len = false) (hlost : tierLost s off.toNat = false) (hoff : off.toNat < 2 ^ 40)
    (hheld : hostHeld s off.toNat len false = false) (hline : off.toNat % 64 + len ≤ 64)
    (hloc : locate s none off.toNat = some fa) (hp : s.mem.posted = []) (hah : s.mem.ahead = []) :
    Answers (.hostBar4Read off ⟨len, []⟩) s (fun t =>
      (∃ more : List HostMsg, (∀ m ∈ more, ∃ v : Nat, m = .msix v) ∧ t.port.out = s.port.out ++ [.data
        ((List.range len).map (fun i => if granChafed s (fa + i) then 0xFF else rawByte s (fa + i)))
        ((List.range len).any (fun i => granChafed s (fa + i)))] ++ more) ∧
      SameBytes s t ∧ t.mem.chafed = s.mem.chafed ∧ OnlyIn [.free, .regs, .port, .mem, .tiers, .pmu] s t) := by
  have haddr : bar4Addr off.toNat = off.toNat := if_pos hoff
  have hrun := bar4Read_answers ht off [] hlen hflr hpop (by rwa [haddr]) (by rwa [haddr])
  obtain ⟨more, hmore, hout⟩ := bar4Answer_out s off.toNat len
  obtain ⟨hbytes, hmarks⟩ := bar4Answer_mem s off.toNat len
  rw [haddr] at hrun
  rw [bar4Completions_line hlen hline (Nat.lt_trans hoff (by decide)) hloc hp hah] at hout
  exact ⟨_, hrun, ⟨more, hmore, hout⟩, hbytes, hmarks, (bar4Answer_keeps ..).only⟩

/-! ### Unused ranges and FLR (R362, R366) -/

/-- The host's write of a block outside the windows goes to its frame, unless the block is DERIVED (R153, R363). -/
theorem hostBar4WriteNow_answers {data : List Byte} (hn : data ≠ []) (hflr : s.port.flrAt = none)
    (hpop : bar4Unpop s off.toNat data.length = false) (hlost : tierLost s (bar4Addr off.toNat) = false)
    (hheld : hostHeld s (bar4Addr off.toNat) data.length true = false) :
    exec (.hostBar4Write off data) s = .next (pmuAdd (drawn ((pieces (bar4Addr off.toNat) data).foldl hostPiece
      (hostBadNames s (bar4Addr off.toNat) data.length true))) 0x175 (ceilDiv data.length 64) (attrHost (bar4Addr off.toNat))) := by
  obtain ⟨hreach, hwaits⟩ := portTurn_iff ht
  refine (hostAccess_turn hwaits ..).trans ?_
  simp only [hostBar4WriteNow]
  rw [if_neg (by simp [hreach, hn]), if_neg (by simp [hflr]), if_neg (by simp [hpop]), if_neg (by simp [hlost]),
    if_neg (by simp [hheld])]

theorem bar4_unpop {len : Nat} (found : List Found) {data : List Byte} (hflr : s.port.flrAt = none) :
    (0 < len → bar4Unpop s off.toNat len = true → Answers (.hostBar4Read off ⟨len, found⟩) s (fun t =>
      t.port = { s.port with unpop := min 65535 (s.port.unpop + 1), out := s.port.out ++ [.ur] } ∧ OnlyIn [.port] s t)) ∧
    (data ≠ [] → bar4Unpop s off.toNat data.length = true → Answers (.hostBar4Write off data) s (fun t =>
      t.port = { s.port with unpop := min 65535 (s.port.unpop + 1), out := s.port.out ++ [.ur] } ∧ OnlyIn [.port] s t)) := by
  obtain ⟨hreach, hwaits⟩ := portTurn_iff ht
  have hkeep : Keeps [.port] s (portOut { s with port := { s.port with unpop := satAdd 65535 s.port.unpop 1 } } .ur) :=
    (Keeps.upd (Keeps.refl _ _)).step (portOut_keeps ..) rfl
  refine ⟨fun hlen hpop => ⟨_, (hostAccess_turn hwaits ..).trans ?_, rfl, hkeep.only⟩,
    fun hn hpop => ⟨_, (hostAccess_turn hwaits ..).trans ?_, rfl, hkeep.only⟩⟩
  · simp only [hostBar4ReadNow]
    rw [if_neg (by simp [hreach]; omega), if_neg (by simp [hflr]), if_pos hpop]
  · simp only [hostBar4WriteNow]
    rw [if_neg (by simp [hreach, hn]), if_neg (by simp [hflr]), if_pos hpop]

theorem bar4_flr {len : Nat} (found : List Found) {data : List Byte} (hflr : s.port.flrAt ≠ none) :
    (0 < len → Answers (.hostBar4Read off ⟨len, found⟩) s (fun t =>
      t.port = { s.port with out := s.port.out ++ [.ur] } ∧ OnlyIn [.port] s t)) ∧
    (data ≠ [] → Answers (.hostBar4Write off data) s (fun t =>
      t.port = { s.port with out := s.port.out ++ [.ur] } ∧ OnlyIn [.port] s t)) := by
  obtain ⟨hreach, hwaits⟩ := portTurn_iff ht
  have hsome : s.port.flrAt.isSome = true := Option.isSome_iff_ne_none.2 hflr
  refine ⟨fun hlen => ⟨_, (hostAccess_turn hwaits ..).trans ?_, rfl, (portOut_keeps s .ur).only⟩,
    fun hn => ⟨_, (hostAccess_turn hwaits ..).trans ?_, rfl, (portOut_keeps s .ur).only⟩⟩
  · simp only [hostBar4ReadNow]
    rw [if_neg (by simp [hreach]; omega), if_pos hsome]
  · simp only [hostBar4WriteNow]
    rw [if_neg (by simp [hreach, hn]), if_pos hsome]

end

/-! ### Writes (R153, R155, R363) -/

/-- Noting names that the host may not use, or may not write, leaves every entry. -/
theorem hostBadNames_storedIn (s : State) (a n : Nat) (write : Bool) (b fa m : Nat) :
    StoredIn s (hostBadNames s a n write) b fa m := by
  refine foldl_keeps (fun t => StoredIn s t b fa m) _ _ s (StoredIn.refl ..) (fun u t hu => hu.trans ?_)
  exact ⟨(badAccess_keeps ..).mono rfl, fun x _ => (badAccess_keeps ..).sameBytes rfl rfl x, ⟨_, _, rfl, fun h1 h2 => ⟨h1, h2⟩⟩, fun _ _ => rfl, rfl, rfl⟩

/-- A host's piece of a block that is not DERIVED is stored. -/
theorem hostPiece_stores (b : Nat) : StoresPiece b false hostPiece := by
  intro t x fx bs hn hopen hb hder
  have hwrite := writePiece_plain (bs := bs) hn hopen true false (acct := none) (fun _ h => nomatch h)
  rw [hostPiece, if_neg (by simp [derivedName, hb, hder]), hwrite, hb]

section
variable {s : State} (ht : portTurn s = true) {off : BitVec 41} {data : List Byte} {fa : Nat} (hn : data ≠ [])
  (hflr : s.port.flrAt = none) (hpop : bar4Unpop s off.toNat data.length = false) (hlost : tierLost s off.toNat = false)
  (hoff : off.toNat < 2 ^ 40) (hheld : hostHeld s off.toNat data.length true = false)
  (hin : off.toNat % blockBytes + data.length ≤ blockBytes)
include ht hn hflr hpop hlost hoff hheld hin

theorem bar4Write_eq : exec (.hostBar4Write off data) s = .next (pmuAdd (drawn (hostPiece
    (hostBadNames s off.toNat data.length true) (off.toNat, data))) 0x175 (ceilDiv data.length 64) (attrHost off.toNat)) := by
  have haddr : bar4Addr off.toNat = off.toNat := if_pos hoff
  have hrun := hostBar4WriteNow_answers ht off hn hflr hpop (by rwa [haddr]) (by rwa [haddr])
  rwa [haddr, pieces_one _ _ hn hin] at hrun

theorem bar4Write_stores (hloc : locate s none off.toNat = some fa) (hstill : (htGet s (blockNo off.toNat)).state ≠ .moving)
    (hmerge : s.tiers.merging.contains (blockNo off.toNat) = false) (hder : (htGet s (blockNo off.toNat)).derived = false)
    (hplain : plainSpan s fa data.length = true) :
    Answers (.hostBar4Write off data) s (fun t => Stored s t fa data ∧ OnlyIn [.free, .regs, .port, .mem, .tiers, .pmu] s t) := by
  have hr := regionOf_located hloc (Nat.lt_trans hoff (by decide))
  have hopen := lineOpen_of_locate hr hloc hin hstill hmerge hplain
  have hbad := hostBadNames_storedIn s off.toNat data.length true (blockNo off.toNat) fa data.length
  obtain ⟨st, r, hentry, -⟩ := hbad.entry
  have hopen1 := hopen.after hbad
  have hpiece := hostPiece_stores _ _ _ _ data hn hopen1 rfl (by rw [hentry]; exact hder)
  have hbytes := storeAt_plain false hopen1.plain
  have hafter := syncStore_storedIn (blockNo off.toNat) hopen1.plain
  let t0 := hostPiece (hostBadNames s off.toNat data.length true) (off.toNat, data)
  have hin0 : StoredIn s t0 (blockNo off.toNat) fa data.length := by
    have hstored := hbad.trans hafter
    rwa [← hpiece] at hstored
  have hend : Keeps [.free, .regs, .port, .pmu] t0 (pmuAdd (drawn t0) 0x175 (ceilDiv data.length 64) (attrHost off.toNat)) :=
    ((drawn_keeps _).mono rfl).step (pmuAdd_keeps ..) rfl
  have hsame := hend.sameBytes rfl rfl
  refine ⟨_, bar4Write_eq ht hn hflr hpop hlost hoff hheld hin, ⟨fun i hi => (hsame _).trans ?_, fun x hx => (hsame x).trans ?_⟩,
    ((hin0.keeps.mono rfl).step hend rfl).only⟩
  · have hbyte := hbytes.bytes i hi
    rw [← rawByte_syncChafe _ (blockNo off.toNat), ← hpiece] at hbyte
    exact hbyte
  · exact hin0.outside x hx

theorem bar4Write_derived (hloc : locate s none off.toNat = some fa) (hder : (htGet s (blockNo off.toNat)).derived = true) :
    Answers (.hostBar4Write off data) s (fun t => t.mem = s.mem ∧ OnlyIn [.free, .regs, .port, .tiers, .pmu] s t) := by
  have hlow : off.toNat < straightBase := Nat.lt_trans hoff (by decide)
  obtain ⟨hbound, -⟩ := (locate_block_iff (regionOf_located hloc hlow)).1 hloc
  have hbad := hostBadNames_storedIn s off.toNat data.length true (blockNo off.toNat) fa data.length
  obtain ⟨st, r, hentry, hstate⟩ := hbad.entry
  have hname : derivedName (hostBadNames s off.toNat data.length true) (blockNo off.toNat) = true := by
    have hht : htGet (hostBadNames s off.toNat data.length true) (blockNo off.toNat) = htGet s (blockNo off.toNat) :=
      foldl_keeps (fun t => htGet t (blockNo off.toNat) = htGet s (blockNo off.toNat)) _ _ s rfl (fun _ _ hu => hu)
    simp [derivedName, hht, hder, hbound]
  have hpiece : hostPiece (hostBadNames s off.toNat data.length true) (off.toNat, data) =
      hostBadNames s off.toNat data.length true := if_pos (by simp [hlow, hname])
  have hrun := bar4Write_eq ht hn hflr hpop hlost hoff hheld hin
  rw [hpiece] at hrun
  have hend : Keeps [.free, .regs, .port, .tiers, .pmu] s (pmuAdd (drawn (hostBadNames s off.toNat data.length true)) 0x175
      (ceilDiv data.length 64) (attrHost off.toNat)) :=
    ((hostBadNames_keeps ..).mono rfl).step (drawn_keeps _) rfl |>.step (pmuAdd_keeps ..) rfl
  exact ⟨_, hrun, hend.same .mem rfl, hend.only⟩

end

/-- An access of a host that has requests waiting joins them (R299). -/
theorem hostAccess_queued {s : State} (hw : hostWaits s = true) (c : Instr) (a n : Nat) (write : Bool) (run : State → Out)
    (hrun : exec c s = hostAccess c a n write run s) : Answers c s (HostQueued c s) :=
  ⟨_, hrun.trans (if_pos hw), ⟨⟨_, rfl, rfl, rfl⟩, (holdReq_keeps ..).only⟩⟩

/-- Settles O14, access by access. -/
theorem bar4Accesses : Obligations.Bar4Accesses := by
  refine ⟨fun off len found fa s ht hlen => ⟨bar4Read_completes ht off found hlen, bar4Read_line ht off hlen,
      fun hflr => (bar4_unpop ht off found (data := []) hflr).1 hlen, fun hflr => (bar4_flr ht off found (data := []) hflr).1 hlen⟩,
    fun off data fa s ht hn => ⟨fun hflr hpop hlost hoff hheld hin hloc hstill hmerge => ⟨fun hder hplain => ?_, fun hder => ?_⟩,
      fun hflr => (bar4_unpop ht off (len := 0) [] hflr).2 hn, fun hflr => (bar4_flr ht off (len := 0) [] hflr).2 hn⟩,
    fun off len found data s hw => ⟨hostAccess_queued hw _ _ _ _ _ rfl, hostAccess_queued hw _ _ _ _ _ rfl⟩⟩
  · exact bar4Write_stores ht hn hflr hpop hlost hoff hheld hin hloc hstill hmerge hder hplain
  · exact bar4Write_derived ht hn hflr hpop hlost hoff hheld hin hloc hder

end Sys2Proof.Machine
end

section
/-! SUPPORT. CXL.mem reads and writes (O15, R177, R299, R368, R369, R370). -/

set_option Elab.async false

namespace Sys2Proof.Machine

open Sys2Proof

/-! ### Names in the exported range (R368) -/

theorem Fld.get_lt (f : Fld) (m : SMap W32) (i : Nat) : f.get m i < 2 ^ f.width := by
  unfold Fld.get
  split <;> exact Nat.mod_lt _ (Nat.two_pow_pos _)

theorem nchan_le (v : Variant) : nchan v ≤ 768 := by cases v <;> decide

theorem cxlName_line {s : State} {dpa a : Nat} (h : cxlName s dpa = some a) : a % 64 = 0 ∧ a < straightBase := by
  rw [cxlName] at h
  split at h
  next hc =>
    simp only [Bool.and_eq_true, decide_eq_true_eq] at hc
    obtain ⟨⟨-, hline⟩, hin⟩ := hc
    have hfirst : actF s flCxlFirst 0 < 256 := Fld.get_lt flCxlFirst s.cfg.act 0
    have hslabs : actF s flCxlSlabs 0 < 512 := Fld.get_lt flCxlSlabs s.cfg.act 0
    have hslab : nchan s.fuses.variant * 2 ^ 22 ≤ 768 * 2 ^ 22 := Nat.mul_le_mul_right _ (nchan_le _)
    have h1 : actF s flCxlFirst 0 * (nchan s.fuses.variant * 2 ^ 22) ≤ 256 * (768 * 2 ^ 22) := Nat.mul_le_mul hfirst.le hslab
    have h2 : actF s flCxlSlabs 0 * (nchan s.fuses.variant * 2 ^ 22) ≤ 512 * (768 * 2 ^ 22) := Nat.mul_le_mul hslabs.le hslab
    have hbase : mantleBase = 274877906944 := rfl
    have hend : straightBase = 17592186044416 := rfl
    have h64 : actF s flCxlFirst 0 * (nchan s.fuses.variant * 2 ^ 22) % 64 = 0 := by
      rw [show (2 : Nat) ^ 22 = 65536 * 64 from rfl, ← Nat.mul_assoc, ← Nat.mul_assoc]
      exact Nat.mul_mod_left ..
    have ha := Option.some.inj h
    omega
  next => cases h

/-! ### Reads (R369) -/

/-- A line's bytes as a read gets them, each with its mark and with the free byte that stands for it where it is chafed. -/
def cxlLine (s : State) (a : Nat) : List ((Byte × Bool) × Byte) :=
  (List.range 64).map (fun i => (hostByte s (a + i), Config.freeByte s.free i))

/-- The bytes that a read answers. -/
def cxlData (s : State) (a : Nat) : List Byte := (cxlLine s a).map (fun x => if x.1.2 then x.2 else x.1.1)

/-- The poison of a read's answer. -/
def cxlPoison (s : State) (a : Nat) : Bool := (cxlLine s a).any (fun x => x.1.2)

/-- What a read leaves. -/
def cxlAnswer (s : State) (a : Nat) : State :=
  let s1 := portOut (drawn (readAhead s a 64)) (.data (cxlData s a) (cxlPoison s a))
  pmuAdd (if cxlPoison s a then { s1 with port := { s1.port with chafedReads := satAdd 65535 s1.port.chafedReads 1 } } else s1)
    0x174 1 (attrHost a)

theorem cxlAnswer_keeps (s : State) (a : Nat) : Keeps [.free, .regs, .port, .mem, .pmu] s (cxlAnswer s a) := by
  have h1 : Keeps [.free, .port, .mem] s (portOut (drawn (readAhead s a 64)) (.data (cxlData s a) (cxlPoison s a))) :=
    ((readAhead_keeps ..).mono rfl).step (drawn_keeps _) rfl |>.step (portOut_keeps ..) rfl
  refine Keeps.step ?_ (pmuAdd_keeps ..) rfl
  split
  · exact (Keeps.upd h1).mono rfl
  · exact h1.mono rfl

theorem cxlAnswer_out (s : State) (a : Nat) : ∃ more : List HostMsg, (∀ m ∈ more, ∃ v : Nat, m = .msix v) ∧
    (cxlAnswer s a).port.out = s.port.out ++ [.data (cxlData s a) (cxlPoison s a)] ++ more := by
  rw [cxlAnswer]
  dsimp only
  split
  · exact pmuAdd_vectorsOut ..
  · exact pmuAdd_vectorsOut ..

theorem cxlAnswer_mem (s : State) (a : Nat) : SameBytes s (cxlAnswer s a) ∧ (cxlAnswer s a).mem.chafed = s.mem.chafed := by
  have hmem : (cxlAnswer s a).mem = (readAhead s a 64).mem := by
    refine ((pmuAdd_keeps ..).same .mem rfl).trans ?_
    split <;> rfl
  exact ⟨rawByte_congr (fun _ => by rw [hmem]; rfl) (by rw [hmem]; rfl) ((cxlAnswer_keeps s a).same .cfg rfl), by rw [hmem]; rfl⟩

theorem cxlData_length (s : State) (a : Nat) : (cxlData s a).length = 64 := by simp [cxlData, cxlLine]

section
variable {s : State} (ht : portTurn s = true) {dpa : BitVec 40}
include ht

theorem cxl_outside (hname : cxlName s dpa.toNat = none) (found : List Found) (data : List Byte) (mask : BitVec 64) :
    exec (.cxlMemRead ⟨dpa, found⟩) s = .next s ∧ exec (.cxlMemWrite dpa data mask) s = .next s := by
  obtain ⟨-, hwaits⟩ := portTurn_iff ht
  refine ⟨(hostAccess_turn hwaits ..).trans ?_, (hostAccess_turn hwaits ..).trans ?_⟩
  · simp only [cxlMemReadNow, hname]
  · simp only [cxlMemWriteNow, hname]

variable {a : Nat} (hname : cxlName s dpa.toNat = some a) (hflr : s.port.flrAt = none)
include hname hflr

theorem cxlMemRead_eq (found : List Found) (hheld : hostHeld s a 64 false = false) :
    exec (.cxlMemRead ⟨dpa, found⟩) s = .next (cxlAnswer (foundMem s [(a, 64)] found) a) := by
  obtain ⟨hreach, hwaits⟩ := portTurn_iff ht
  refine (hostAccess_turn hwaits ..).trans ?_
  simp only [cxlMemReadNow, hname]
  rw [if_neg (by simp [hreach, hflr]), if_neg (by simp [hheld])]
  rfl

theorem cxlMemRead_completes (found : List Found) (hheld : hostHeld s a 64 false = false) :
    Answers (.cxlMemRead ⟨dpa, found⟩) s (fun t => ∃ (bs : List Byte) (p : Bool) (more : List HostMsg),
      bs.length = 64 ∧ (∀ m ∈ more, ∃ v : Nat, m = .msix v) ∧
      t.port.out = (foundMem s [(a, 64)] found).port.out ++ [.data bs p] ++ more) := by
  obtain ⟨more, hmore, hout⟩ := cxlAnswer_out (foundMem s [(a, 64)] found) a
  exact ⟨_, cxlMemRead_eq ht hname hflr found hheld, _, _, more, cxlData_length .., hmore, hout⟩

omit ht hname hflr in
/-- The bytes and marks of an exported line where nothing is posted and nothing read ahead. -/
theorem hostByte_line {fa : Nat} (hline : a % 64 = 0) (hlow : a < straightBase) (hloc : locate s none a = some fa)
    (hp : s.mem.posted = []) (hah : s.mem.ahead = []) {i : Nat} (hi : i < 64) :
    hostByte s (a + i) = (rawByte s (fa + i), granChafed s (fa + i)) := by
  have hblock : blockNo (a + i) = blockNo a := by simp only [blockNo, blockBytes]; omega
  have hi' := locate_sameBlock (regionOf_located hloc hlow) hloc (Nat.le_add_right a i) hblock
  rw [Nat.add_sub_cancel_left] at hi'
  exact hostByte_located hi' hp hah

theorem cxlMemRead_line {fa : Nat} (hloc : locate s none a = some fa) (hheld : hostHeld s a 64 false = false)
    (hp : s.mem.posted = []) (hah : s.mem.ahead = []) :
    Answers (.cxlMemRead ⟨dpa, []⟩) s (fun t =>
      ((List.range 64).any (fun i => granChafed s (fa + i)) = false →
        ∃ more : List HostMsg, (∀ m ∈ more, ∃ v : Nat, m = .msix v) ∧
          t.port.out = s.port.out ++ [.data ((List.range 64).map (fun i => rawByte s (fa + i))) false] ++ more) ∧
      ((List.range 64).any (fun i => granChafed s (fa + i)) = true →
        ∃ (bs : List Byte) (more : List HostMsg), (∀ m ∈ more, ∃ v : Nat, m = .msix v) ∧
          t.port.out = s.port.out ++ [.data bs true] ++ more) ∧
      SameBytes s t ∧ t.mem.chafed = s.mem.chafed ∧ OnlyIn [.free, .regs, .port, .mem, .pmu] s t) := by
  obtain ⟨hline, hlow⟩ := cxlName_line hname
  obtain ⟨more, hmore, hout⟩ := cxlAnswer_out s a
  obtain ⟨hbytes, hmarks⟩ := cxlAnswer_mem s a
  have hbyte (i : Nat) (hi : i < 64) := hostByte_line hline hlow hloc hp hah hi
  have hpoison : cxlPoison s a = (List.range 64).any (fun i => granChafed s (fa + i)) := by
    rw [cxlPoison, cxlLine, List.any_map, Bool.eq_iff_iff, List.any_eq_true, List.any_eq_true]
    refine exists_congr (fun i => and_congr_right (fun hi => ?_))
    simp only [Function.comp, hbyte i (List.mem_range.1 hi)]
  refine ⟨_, cxlMemRead_eq ht hname hflr [] hheld, fun hclean => ?_, fun hchafed => ?_, hbytes, hmarks, (cxlAnswer_keeps s a).only⟩
  · have hdata : cxlData s a = (List.range 64).map (fun i => rawByte s (fa + i)) := by
      rw [cxlData, cxlLine, List.map_map]
      refine List.map_congr_left (fun i hi => ?_)
      have hclean' : granChafed s (fa + i) = false := by simpa using List.any_eq_false.1 hclean i hi
      simp only [Function.comp, hbyte i (List.mem_range.1 hi), hclean', Bool.false_eq_true, if_false]
    rw [hpoison, hclean, hdata] at hout
    exact ⟨more, hmore, hout⟩
  · rw [hpoison, hchafed] at hout
    exact ⟨_, more, hmore, hout⟩

end

/-! ### Writes (R177, R370) -/

/-- The pieces of a masked write: a granule whose mask is full, or one byte. -/
theorem mem_maskedPieces {a : Nat} {data : List Byte} {mask : BitVec 64} {p : Nat × List Byte} :
    p ∈ maskedPieces a data mask ↔ ∃ i : Nat, i < 2 ∧
      ((∀ j : Nat, j < 32 → mask.getLsbD (32 * i + j) = true) ∧
          p = (a + 32 * i, (List.range 32).map (fun j => data.getD (32 * i + j) 0)) ∨
        ¬ (∀ j : Nat, j < 32 → mask.getLsbD (32 * i + j) = true) ∧ ∃ j : Nat, j < 32 ∧ mask.getLsbD (32 * i + j) = true ∧
          p = (a + (32 * i + j), [data.getD (32 * i + j) 0])) := by
  have hall (i : Nat) : ((List.range 32).map (fun j => 32 * i + j)).all (fun j => mask.getLsbD j) = true ↔
      ∀ j : Nat, j < 32 → mask.getLsbD (32 * i + j) = true := by simp
  have hindex : ∀ i : Nat, i ∈ [0, 1] ↔ i < 2 := by simp; omega
  simp only [maskedPieces, List.mem_flatMap, hindex]
  refine exists_congr (fun i => and_congr_right (fun _ => ?_))
  by_cases h : ∀ j : Nat, j < 32 → mask.getLsbD (32 * i + j) = true
  · rw [if_pos ((hall i).2 h)]
    simp only [List.mem_singleton, List.map_map]
    constructor
    · exact fun hp => Or.inl ⟨h, hp⟩
    · exact fun hp => (hp.resolve_right (fun hn => hn.1 h)).2
  · rw [if_neg (fun hc => h ((hall i).1 hc))]
    simp only [List.mem_map, List.mem_filter, List.mem_range]
    constructor
    · rintro ⟨x, ⟨⟨j, hj, rfl⟩, hm⟩, rfl⟩
      exact Or.inr ⟨h, j, hj, hm, rfl⟩
    · rintro (⟨hfull, -⟩ | ⟨-, j, hj, hm, rfl⟩)
      · exact absurd hfull h
      · exact ⟨32 * i + j, ⟨⟨j, hj, rfl⟩, hm⟩, rfl⟩

theorem maskedPieces_pieces (a : Nat) (data : List Byte) (mask : BitVec 64) :
    PiecesOf (maskedPieces a data mask) a 64 (fun j => data.getD j 0) := by
  refine ⟨fun p hp => ?_, fun p hp k hk => ?_⟩
  · obtain ⟨i, hi, ⟨-, rfl⟩ | ⟨-, j, hj, -, rfl⟩⟩ := mem_maskedPieces.1 hp
    · refine ⟨by simp, Nat.le_add_right .., ?_⟩
      simp only [List.length_map, List.length_range]
      omega
    · refine ⟨by simp, Nat.le_add_right .., ?_⟩
      simp only [List.length_singleton]
      omega
  · obtain ⟨i, hi, ⟨-, rfl⟩ | ⟨-, j, hj, -, rfl⟩⟩ := mem_maskedPieces.1 hp
    · simp only [List.length_map, List.length_range] at hk
      simp only [Nat.add_sub_cancel_left]
      rw [List.getD_eq_getElem?_getD, List.getElem?_map, List.getElem?_range hk]
      rfl
    · simp only [List.length_singleton, Nat.lt_one_iff] at hk
      simp only [hk, Nat.add_sub_cancel_left, Nat.add_zero]
      rfl

/-- The pieces hold exactly the bytes whose mask bit is set. -/
theorem inPieces_masked (a : Nat) (data : List Byte) (mask : BitVec 64) {k : Nat} (hk : k < 64) :
    inPieces (maskedPieces a data mask) (a + k) = mask.getLsbD k := by
  rw [Bool.eq_iff_iff, inPieces, List.any_eq_true]
  simp only [Bool.and_eq_true, decide_eq_true_eq]
  constructor
  · rintro ⟨p, hp, hlo, hhi⟩
    obtain ⟨i, hi, ⟨hfull, rfl⟩ | ⟨-, j, hj, hm, rfl⟩⟩ := mem_maskedPieces.1 hp
    · simp only [List.length_map, List.length_range] at hlo hhi
      have hbit := hfull (k - 32 * i) (by omega)
      rwa [show 32 * i + (k - 32 * i) = k by omega] at hbit
    · simp only [List.length_singleton] at hlo hhi
      rwa [show 32 * i + j = k by omega] at hm
  · intro hm
    have hsplit : 32 * (k / 32) + k % 32 = k := Nat.div_add_mod ..
    by_cases hfull : ∀ j : Nat, j < 32 → mask.getLsbD (32 * (k / 32) + j) = true
    · refine ⟨_, mem_maskedPieces.2 ⟨k / 32, by omega, Or.inl ⟨hfull, rfl⟩⟩, ?_⟩
      simp only [List.length_map, List.length_range]
      omega
    · refine ⟨_, mem_maskedPieces.2 ⟨k / 32, by omega, Or.inr ⟨hfull, k % 32, by omega, by rwa [hsplit], rfl⟩⟩, ?_⟩
      simp only [List.length_singleton]
      omega

theorem cxlMemWrite_stores {s : State} (ht : portTurn s = true) {dpa : BitVec 40} {a fa : Nat} (data : List Byte) (mask : BitVec 64)
    (hname : cxlName s dpa.toNat = some a) (hflr : s.port.flrAt = none) (hloc : locate s none a = some fa)
    (hheld : hostHeld s a 64 true = false) (hhome : (htGet s (blockNo a)).state = .home)
    (hder : (htGet s (blockNo a)).derived = false) (hmerge : s.tiers.merging.contains (blockNo a) = false)
    (hplain : plainSpan s fa 64 = true) :
    Answers (.cxlMemWrite dpa data mask) s (fun t =>
      (∀ i : Nat, i < 64 → rawByte t (fa + i) = if mask.getLsbD i then data.getD i 0 else rawByte s (fa + i)) ∧
      (∀ x : Nat, ¬ (fa ≤ x ∧ x < fa + 64) → rawByte t x = rawByte s x) ∧
      OnlyIn [.free, .regs, .port, .mem, .tiers, .pmu] s t) := by
  obtain ⟨hreach, hwaits⟩ := portTurn_iff ht
  obtain ⟨hline, hlow⟩ := cxlName_line hname
  have hin : a % blockBytes + 64 ≤ blockBytes := by simp only [blockBytes]; omega
  have hopen := lineOpen_of_locate (regionOf_located hloc hlow) hloc hin (by rw [hhome]; decide) hmerge hplain
  obtain ⟨hstored, hget, -⟩ := storePieces (hostPiece_stores (blockNo a)) _ s hopen rfl hder (maskedPieces_pieces a data mask)
  let t0 := (maskedPieces a data mask).foldl hostPiece s
  have hrun : exec (.cxlMemWrite dpa data mask) s = .next (pmuAdd (drawn t0) 0x175 1 (attrHost a)) := by
    refine (hostAccess_turn hwaits ..).trans ?_
    simp only [cxlMemWriteNow, hname]
    rw [if_neg (by simp [hreach, hflr]), if_neg (by simp [hheld])]
  have hend : Keeps [.free, .regs, .port, .pmu] t0 (pmuAdd (drawn t0) 0x175 1 (attrHost a)) :=
    ((drawn_keeps _).mono rfl).step (pmuAdd_keeps ..) rfl
  have hsame := hend.sameBytes rfl rfl
  refine ⟨_, hrun, fun i hi => (hsame _).trans ?_, fun x hx => (hsame x).trans (hstored.outside x hx),
    ((hstored.keeps.mono rfl).step hend rfl).only⟩
  rw [hget i hi, inPieces_masked a data mask hi]

/-- Settles O15, access by access. -/
theorem cxlMemAccesses : Obligations.CxlMemAccesses := by
  refine fun dpa data mask found a fa s ht => ⟨fun hname => cxl_outside ht hname found data mask,
    fun hname hflr => cxlMemRead_completes ht hname hflr found, fun hname hflr hloc _ => ⟨fun hheld hp hah => ?_,
      fun hheld hhome hder hmerge hplain => ?_⟩⟩
  · exact cxlMemRead_line ht hname hflr hloc hheld hp hah
  · exact cxlMemWrite_stores ht data mask hname hflr hloc hheld hhome hder hmerge hplain

end Sys2Proof.Machine
end

section
/-! SUPPORT. Fid requests (O47, R63, R155, R176, R177, R188, R189). -/

set_option Elab.async false

namespace Sys2Proof.Machine

open Sys2Proof

/-! ### Bytes of words -/

theorem natOfBytes_bytesOf (n v : Nat) : natOfBytes (bytesOf n v) = v % 256 ^ n := by
  induction n generalizing v with
  | zero => simp [bytesOf, natOfBytes, Nat.mod_one]
  | succ n ih =>
    rw [bytesOf, natOfBytes, ih, Nat.pow_succ', Nat.mod_mul, BitVec.toNat_ofNat]

theorem natOfBytes_lt (bs : List Byte) : natOfBytes bs < 256 ^ bs.length := by
  induction bs with
  | nil => decide
  | cons b bs ih =>
    have hb := b.isLt
    rw [natOfBytes, List.length_cons, Nat.pow_succ']
    omega

/-- The bytes from place `k` on. -/
theorem natOfBytes_drop (bs : List Byte) (k : Nat) : natOfBytes (bs.drop k) = natOfBytes bs / 256 ^ k := by
  induction k generalizing bs with
  | zero => simp
  | succ k ih =>
    cases bs with
    | nil => simp [natOfBytes]
    | cons b bs =>
      have hb := b.isLt
      rw [List.drop_succ_cons, ih, natOfBytes, Nat.pow_succ', ← Nat.div_div_eq_div_mul]
      congr 1
      omega

/-- The first `k` bytes. -/
theorem natOfBytes_take (bs : List Byte) (k : Nat) : natOfBytes (bs.take k) = natOfBytes bs % 256 ^ k := by
  induction k generalizing bs with
  | zero => simp [natOfBytes, Nat.mod_one]
  | succ k ih =>
    cases bs with
    | nil => simp [natOfBytes]
    | cons b bs =>
      have hb := b.isLt
      rw [List.take_succ_cons, natOfBytes, natOfBytes, ih, Nat.pow_succ', Nat.mod_mul]
      congr 1
      · omega
      · congr 2
        omega

/-- A lane of four bytes of a granule. -/
def laneOf (g : Nat → Byte) (i : Nat) : W32 := BitVec.ofNat 32 (natOfBytes ((List.range 4).map (fun j => g (4 * i + j))))

/-- A 4-byte lane of a granule's word. -/
theorem laneOf_word (g : Nat → Byte) {i : Nat} (hi : i < 8) :
    BitVec.ofNat 32 ((BitVec.ofNat 256 (natOfBytes ((List.range 32).map g))).toNat >>> (32 * i)) = laneOf g i := by
  have hlt : natOfBytes ((List.range 32).map g) < 2 ^ 256 := by
    have h := natOfBytes_lt ((List.range 32).map g)
    rw [List.length_map, List.length_range] at h
    exact h.trans_le (by decide)
  have hpow : 2 ^ (32 * i) = 256 ^ (4 * i) := by rw [show (256 : Nat) = 2 ^ 8 from rfl, ← Nat.pow_mul]; congr 1; omega
  have hlane : (((List.range 32).map g).drop (4 * i)).take 4 = (List.range 4).map (fun j => g (4 * i + j)) := by
    refine List.ext_getElem ?_ (fun k h1 h2 => ?_)
    · simp only [List.length_take, List.length_drop, List.length_map, List.length_range]
      omega
    · simp
  have hmod (x : Nat) : BitVec.ofNat 32 x = BitVec.ofNat 32 (x % 256 ^ 4) := by
    apply BitVec.eq_of_toNat_eq
    simp
  rw [BitVec.toNat_ofNat, Nat.mod_eq_of_lt hlt, Nat.shiftRight_eq_div_pow, hpow, hmod, ← natOfBytes_drop, ← natOfBytes_take, hlane]
  rfl

/-- The bytes of a word of a granule. -/
def wordByte (d : BitVec 256) (j : Nat) : Byte := (bytesOf 32 d.toNat).getD j 0

theorem map_getD_range (bs : List Byte) : (List.range bs.length).map (fun j => bs.getD j 0) = bs := by
  refine List.ext_getElem (by simp) (fun k h1 h2 => ?_)
  simp [h2]

theorem laneOf_data (d : BitVec 256) {i : Nat} (hi : i < 8) : BitVec.ofNat 32 (d.toNat >>> (32 * i)) = laneOf (wordByte d) i := by
  have hbytes : (List.range 32).map (wordByte d) = bytesOf 32 d.toNat := by
    have h := map_getD_range (bytesOf 32 d.toNat)
    rwa [bytesOf_length] at h
  have hword := laneOf_word (wordByte d) hi
  rw [hbytes, natOfBytes_bytesOf] at hword
  rw [← hword, BitVec.toNat_ofNat]
  congr 2
  have hd := d.isLt
  rw [Nat.mod_eq_of_lt (show d.toNat < 256 ^ 32 from hd.trans_le (by decide)), Nat.mod_eq_of_lt hd]

/-- A lane into which the bytes of a word have gone. -/
theorem laneOf_bytesOf {g : Nat → Byte} {i : Nat} (w : W32) (h : ∀ j : Nat, j < 4 → g (4 * i + j) = (bytesOf 4 w.toNat).getD j 0) :
    laneOf g i = w := by
  have hbytes : (List.range 4).map (fun j => g (4 * i + j)) = bytesOf 4 w.toNat := by
    have hmap := map_getD_range (bytesOf 4 w.toNat)
    rw [bytesOf_length] at hmap
    rw [← hmap]
    exact List.map_congr_left (fun j hj => h j (List.mem_range.1 hj))
  rw [laneOf, hbytes, natOfBytes_bytesOf]
  apply BitVec.eq_of_toNat_eq
  have hw := w.isLt
  rw [BitVec.toNat_ofNat, Nat.mod_eq_of_lt (show w.toNat < 256 ^ 4 from hw), Nat.mod_eq_of_lt hw]

/-! ### Requests -/

/-- A fid request, counted. -/
def fidCounted (s : State) (strand : StrandNo) (account : Acct) (a : Nat) (rmw : Bool) : State :=
  let at_ : Attr := { attrM account.toNat mVector with addr := some a }
  let s1 := pmuAdd s (0x060 + strand.val) 1 at_
  if rmw then pmuAdd s1 (0x064 + strand.val) 1 at_ else s1

theorem fidCounted_keeps (s : State) (strand : StrandNo) (account : Acct) (a : Nat) (rmw : Bool) :
    Keeps [.regs, .port, .pmu] s (fidCounted s strand account a rmw) := by
  unfold fidCounted
  dsimp only
  split
  · exact (pmuAdd_keeps ..).step (pmuAdd_keeps ..) rfl
  · exact pmuAdd_keeps ..

section
variable {s : State} {strand : StrandNo} {account : Acct} {addr : DevAddr} (hunit : unitOn s 6 = true)
  (hquiet : quiet s unChannels = false) (c : Instr) (rmw write : Bool) (bad : State → State) (act : State → Nat → State)
include hunit hquiet

theorem fidRequest_acts {fa : Nat} (hfa : fidFrame s account.toNat (addr.toNat / 32 * 32) = some fa)
    (hw : fidWaits s (addr.toNat / 32 * 32) fa rmw write = false) :
    fidRequest s c strand account addr rmw write bad act =
      .next (act (fidCounted s strand account (addr.toNat / 32 * 32) rmw) fa) := by
  simp only [fidRequest, hunit, hquiet, hfa, hw, Bool.not_true, Bool.or_false, Bool.false_eq_true, if_false]
  rfl

theorem fidRequest_bad (hfa : fidFrame s account.toNat (addr.toNat / 32 * 32) = none) :
    fidRequest s c strand account addr rmw write bad act = .next (bad (
      if badName s (some account.toNat) (addr.toNat / 32 * 32)
      then badAccess (fidCounted s strand account (addr.toNat / 32 * 32) rmw) (nameTier (blockNo (addr.toNat / 32 * 32)))
      else fidCounted s strand account (addr.toNat / 32 * 32) rmw)) := by
  simp only [fidRequest, hunit, hquiet, hfa, Bool.not_true, Bool.or_false, Bool.false_eq_true, if_false]
  rfl

/-- A request that waits joins the queue of its granule (R189). -/
theorem fidRequest_queued {fa : Nat} (hfa : fidFrame s account.toNat (addr.toNat / 32 * 32) = some fa)
    (hw : fidWaits s (addr.toNat / 32 * 32) fa rmw write = true)
    (hrun : exec c s = fidRequest s c strand account addr rmw write bad act) :
    Answers c s (fun t => (∃ r : HeldReq, r.cmd = c ∧ r.host = false ∧ r.addr = addr.toNat / 32 * 32 ∧
      t.ingress.queue = s.ingress.queue ++ [r]) ∧ SameBytes s t) := by
  let a := addr.toNat / 32 * 32
  let s1 := if accessHeld s fa write then noteHeld s fa else s
  have hend : exec c s = .next (holdReq s1 c false a 32 write) := by
    rw [hrun]
    simp only [fidRequest, hunit, hquiet, hfa, hw, Bool.not_true, Bool.or_false, Bool.false_eq_true, if_false, if_true]
    rfl
  have hkeep : Keeps [.eng] s s1 := by
    unfold s1
    split
    · exact noteHeld_keeps ..
    · exact Keeps.refl _ _
  have hqueue : s1.ingress = s.ingress := hkeep.same .ingress rfl
  have hall : Keeps [.ingress, .eng] s (holdReq s1 c false a 32 write) := (hkeep.mono rfl).step (holdReq_keeps ..) rfl
  exact ⟨_, hend, ⟨_, rfl, rfl, rfl, by rw [← hqueue]; rfl⟩, hall.sameBytes rfl rfl⟩

end

theorem exec_fidRead (strand : StrandNo) (account : Acct) (addr : DevAddr) (err : EccErr) (s : State) :
    exec (.fidRead strand account addr err) s = fidRequest s (.fidRead strand account addr err) strand account addr false false
      (fun t => fidAnswer t strand.val 0 0 true) (fun t fa => drawn (fidReadDone (drawn (meetError t fa err)) strand fa)) := rfl

theorem exec_fidWrite (strand : StrandNo) (account : Acct) (addr : DevAddr) (data : BitVec 256) (mask : BitVec 32) (s : State) :
    exec (.fidWrite strand account addr data mask) s = fidRequest s (.fidWrite strand account addr data mask) strand account addr
      false true id (fun t _ => drawn (fidStore t (addr.toNat / 32 * 32) (maskRuns (bytesOf 32 data.toNat) mask))) := rfl

/-! ### Stores of a granule (R177, R188) -/

theorem unmarkedPiece_stores (b : Nat) (d : Bool) : StoresPiece b d (fun t p => (writePiece true none false (t, false) p).1) := by
  intro t x fx bs hn hopen hb _
  have hwrite := writePiece_plain (bs := bs) hn hopen true false (acct := none) (fun _ h => nomatch h)
  show (writePiece true none false (t, false) (x, bs)).1 = _
  rw [hwrite, hb]

theorem fidStore_eq (s : State) (a : Nat) (runs : List (Nat × List Byte)) :
    fidStore s a runs = (runs.map (fun q => (a + q.1, q.2))).foldl (fun t p => (writePiece true none false (t, false) p).1) s := by
  rw [fidStore, List.foldl_map]

/-- Runs of a granule, each not empty, that carry the bytes `new`. -/
structure RunsOf (runs : List (Nat × List Byte)) (new : Nat → Byte) : Prop where
  inside : ∀ q ∈ runs, q.2 ≠ [] ∧ q.1 + q.2.length ≤ 32
  bytes : ∀ q ∈ runs, ∀ i : Nat, i < q.2.length → q.2.getD i 0 = new (q.1 + i)

theorem RunsOf.pieces {runs : List (Nat × List Byte)} {new : Nat → Byte} (h : RunsOf runs new) (a : Nat) :
    PiecesOf (runs.map (fun q => (a + q.1, q.2))) a 32 new := by
  refine ⟨fun p hp => ?_, fun p hp i hi => ?_⟩
  · obtain ⟨q, hq, rfl⟩ := List.mem_map.1 hp
    obtain ⟨hne, hlen⟩ := h.inside q hq
    exact ⟨hne, Nat.le_add_right .., by dsimp only; omega⟩
  · obtain ⟨q, hq, rfl⟩ := List.mem_map.1 hp
    rw [Nat.add_sub_cancel_left]
    exact h.bytes q hq i hi

theorem inPieces_runs (runs : List (Nat × List Byte)) (a j : Nat) :
    inPieces (runs.map (fun q => (a + q.1, q.2))) (a + j) = true ↔ ∃ q ∈ runs, q.1 ≤ j ∧ j < q.1 + q.2.length := by
  simp only [inPieces, List.any_map, List.any_eq_true, Function.comp, Bool.and_eq_true, decide_eq_true_eq]
  exact exists_congr (fun q => and_congr_right (fun _ => by omega))

/-- The runs of a masked write carry the bytes of its word. -/
theorem maskRuns_runs (d : BitVec 256) (mask : BitVec 32) : RunsOf (maskRuns (bytesOf 32 d.toNat) mask) (wordByte d) := by
  unfold maskRuns
  split
  · refine ⟨fun q hq => ?_, fun q hq i _ => ?_⟩
    · rw [List.mem_singleton.1 hq]
      exact ⟨List.ne_nil_of_length_pos (by rw [bytesOf_length]; decide), by simp [bytesOf_length]⟩
    · rw [List.mem_singleton.1 hq, Nat.zero_add]
      rfl
  · refine ⟨fun q hq => ?_, fun q hq i hi => ?_⟩
    · obtain ⟨j, hj, rfl⟩ := List.mem_map.1 hq
      have hj := List.mem_range.1 (List.mem_filter.1 hj).1
      exact ⟨List.cons_ne_nil _ _, hj⟩
    · obtain ⟨j, -, rfl⟩ := List.mem_map.1 hq
      have h0 : i = 0 := by simpa using hi
      rw [h0]
      rfl

/-- A byte lies in a run of a masked write when its mask bit is set. -/
theorem inPieces_maskRuns (d : BitVec 256) (mask : BitVec 32) (a : Nat) {j : Nat} (hj : j < 32) :
    inPieces ((maskRuns (bytesOf 32 d.toNat) mask).map (fun q => (a + q.1, q.2))) (a + j) = mask.getLsbD j := by
  rw [Bool.eq_iff_iff, inPieces_runs]
  unfold maskRuns
  split
  next hfull => simp [hfull, bytesOf_length, hj, -BitVec.reduceAllOnes]
  next =>
    constructor
    · rintro ⟨q, hq, hlo, hhi⟩
      obtain ⟨i, hi, rfl⟩ := List.mem_map.1 hq
      have hij : i = j := by
        simp only [List.length_singleton] at hlo hhi
        omega
      exact hij ▸ (List.mem_filter.1 hi).2
    · intro hm
      exact ⟨(j, [(bytesOf 32 d.toNat).getD j 0]), List.mem_map.2 ⟨j, List.mem_filter.2 ⟨List.mem_range.2 hj, hm⟩, rfl⟩,
        Nat.le_refl _, Nat.lt_succ_self _⟩

/-- The runs of a read-modify-write: the selected lanes with their new words. -/
def laneRuns (lanes : BitVec 8) (v : Nat → W32) : List (Nat × List Byte) :=
  ((List.range 8).filter (fun i => lanes.getLsbD i)).map (fun i => (4 * i, bytesOf 4 (v i).toNat))

theorem mem_laneRuns {lanes : BitVec 8} {v : Nat → W32} {q : Nat × List Byte} :
    q ∈ laneRuns lanes v ↔ ∃ i : Nat, i < 8 ∧ lanes.getLsbD i = true ∧ q = (4 * i, bytesOf 4 (v i).toNat) := by
  simp only [laneRuns, List.mem_map, List.mem_filter, List.mem_range, and_assoc]
  exact exists_congr (fun i => and_congr_right (fun _ => and_congr_right (fun _ => eq_comm)))

theorem laneRuns_runs (lanes : BitVec 8) (v : Nat → W32) :
    RunsOf (laneRuns lanes v) (fun j => (bytesOf 4 (v (j / 4)).toNat).getD (j % 4) 0) := by
  refine ⟨fun q hq => ?_, fun q hq k hk => ?_⟩
  · obtain ⟨i, hi, -, rfl⟩ := mem_laneRuns.1 hq
    refine ⟨List.ne_nil_of_length_pos (by rw [bytesOf_length]; decide), ?_⟩
    simp only [bytesOf_length]
    omega
  · obtain ⟨i, -, -, rfl⟩ := mem_laneRuns.1 hq
    simp only [bytesOf_length] at hk
    rw [show (4 * i + k) / 4 = i by omega, show (4 * i + k) % 4 = k by omega]

theorem inPieces_laneRuns (lanes : BitVec 8) (v : Nat → W32) (a : Nat) {i k : Nat} (hi : i < 8) (hk : k < 4) :
    inPieces ((laneRuns lanes v).map (fun q => (a + q.1, q.2))) (a + (4 * i + k)) = lanes.getLsbD i := by
  rw [Bool.eq_iff_iff, inPieces_runs]
  constructor
  · rintro ⟨q, hq, hlo, hhi⟩
    obtain ⟨i', -, hl, rfl⟩ := mem_laneRuns.1 hq
    simp only [bytesOf_length] at hlo hhi
    rwa [show i = i' by omega]
  · intro hl
    refine ⟨_, mem_laneRuns.2 ⟨i, hi, hl, rfl⟩, ?_⟩
    simp only [bytesOf_length]
    omega

/-! ### What a request does -/

section
variable {s : State} {strand : StrandNo} {account : Acct} {addr : DevAddr} (hunit : unitOn s 6 = true)
  (hquiet : quiet s unChannels = false)
include hunit hquiet

omit hunit hquiet in
theorem viewByte_congr {s t : State} (hmem : t.mem = s.mem) (hfree : t.free = s.free) (hcfg : t.cfg = s.cfg) (x : Nat) :
    viewByte t x = viewByte s x := by
  rw [viewByte, viewByte, hmem, hfree, rawByte_congr (fun _ => by rw [hmem]) (by rw [hmem]) hcfg x]

theorem fidRead_answers {fa : Nat} (hfa : fidFrame s account.toNat (addr.toNat / 32 * 32) = some fa)
    (hw : fidWaits s (addr.toNat / 32 * 32) fa false false = false) :
    Answers (.fidRead strand account addr .none) s (fun t =>
      (strandGet t strand.val).fidData = granWord (drawn s) fa ∧ (strandGet t strand.val).fidChafed = viewMark (drawn s) fa ∧
      SameBytes s t) := by
  let s1 := drawn (fidCounted s strand account (addr.toNat / 32 * 32) false)
  have hrun : exec (.fidRead strand account addr .none) s = .next (drawn (fidReadDone s1 strand fa)) :=
    (exec_fidRead ..).trans (fidRequest_acts (strand := strand) hunit hquiet _ false false _ _ hfa hw)
  have hcount := fidCounted_keeps s strand account (addr.toNat / 32 * 32) false
  have hmem : s1.mem = s.mem := hcount.same .mem rfl
  have hfree : s1.free = (drawn s).free := congrArg (· + 1) (hcount.same .free rfl)
  have hcfg : s1.cfg = s.cfg := hcount.same .cfg rfl
  have hbyte := viewByte_congr (s := drawn s) (t := s1) hmem hfree hcfg
  have hself : strandGet (drawn (fidReadDone s1 strand fa)) strand.val =
      { strandGet s1 strand.val with fidData := granWord s1 fa, fidFlags := 0, fidChafed := viewMark s1 fa } :=
    mapGet_mapSet_self Strand.reset s1.strands strand.val _
  have hkeep : Keeps [.free, .regs, .port, .strands, .pmu] s (drawn (fidReadDone s1 strand fa)) :=
    (hcount.mono rfl).step (drawn_keeps _) rfl |>.step (fidAnswer_keeps ..) rfl |>.step (drawn_keeps _) rfl
  refine ⟨_, hrun, ?_, ?_, hkeep.sameBytes rfl rfl⟩
  · rw [hself]
    show granWord s1 fa = _
    rw [granWord, granWord, viewBytes, viewBytes, List.map_congr_left (fun i _ => hbyte (fa + i))]
  · rw [hself]
    show viewMark s1 fa = _
    rw [viewMark, viewMark, granChafed, granChafed, hmem, hfree]
    rfl

/-- A name that the account may not use: BAD_ACCESS counts it, and no byte changes (R155). -/
theorem fidRequest_bad_answers (c : Instr) (rmw write : Bool) {bad : State → State} (act : State → Nat → State)
    (hbad : ∀ t, Keeps [.strands] t (bad t)) (hfa : fidFrame s account.toNat (addr.toNat / 32 * 32) = none)
    (hrun : exec c s = fidRequest s c strand account addr rmw write bad act) :
    ∃ u : State, exec c s = .next (bad u) ∧ SameBytes s (bad u) ∧
      (badName s (some account.toNat) (addr.toNat / 32 * 32) = true →
        (poolGet (bad u) (nameTier (blockNo (addr.toNat / 32 * 32)))).badAccess =
          min 15 ((poolGet s (nameTier (blockNo (addr.toNat / 32 * 32)))).badAccess + 1)) := by
  let s1 := fidCounted s strand account (addr.toNat / 32 * 32) rmw
  let tier := nameTier (blockNo (addr.toNat / 32 * 32))
  have hcount : Keeps [.regs, .port, .pmu] s s1 := fidCounted_keeps ..
  have hend := fidRequest_bad (strand := strand) hunit hquiet c rmw write bad act hfa
  refine ⟨_, hrun.trans hend, ?_, fun hname => ?_⟩
  · have hkeep : Keeps [.regs, .port, .tiers, .pmu] s
        (if badName s (some account.toNat) (addr.toNat / 32 * 32) then badAccess s1 tier else s1) := by
      split
      · exact (hcount.mono rfl).step (badAccess_keeps ..) rfl
      · exact hcount.mono rfl
    exact ((hkeep.mono rfl).step (hbad _) rfl : Keeps [.regs, .port, .strands, .tiers, .pmu] s _).sameBytes rfl rfl
  · rw [if_pos hname, poolGet, (hbad _).same .tiers rfl]
    have hpool := congrArg TierSt.badAccess (mapGet_mapSet_self TierSt.reset s1.tiers.pools (tierCode tier)
      { mapGet TierSt.reset s1.tiers.pools (tierCode tier) with
        badAccess := satAdd 15 (mapGet TierSt.reset s1.tiers.pools (tierCode tier)).badAccess 1 })
    refine hpool.trans ?_
    rw [hcount.same .tiers rfl]
    rfl

end

section
variable {s : State} {a fa : Nat} (ha : a % 32 = 0)
include ha

/-- The granule that a fid request names, where stores may go. -/
theorem fidGranule_open {acct : Nat} (hfa : fidFrame s acct a = some fa) {rmw write : Bool} (hw : fidWaits s a fa rmw write = false)
    (hstill : regionOf s.fuses.variant a = .straight ∨ (htGet s (blockNo a)).state ≠ .moving) (hplain : plainSpan s fa 32 = true) :
    LineOpen s a fa 32 := by
  have hin : a % blockBytes + 32 ≤ blockBytes := by simp only [blockBytes]; omega
  have hregion : (regionOf s.fuses.variant a = .kern ∨ regionOf s.fuses.variant a = .mantle) ∨ regionOf s.fuses.variant a = .straight := by
    rw [fidFrame, locate] at hfa
    cases hr : regionOf s.fuses.variant a <;> simp [hr] at hfa ⊢
  have hr : regionOf s.fuses.variant a = .kern ∨ regionOf s.fuses.variant a = .mantle := by
    refine hregion.resolve_right (fun hs => ?_)
    obtain ⟨-, hraw, -⟩ := (plainSpan_iff s fa 32).1 hplain
    have hslot : (rawSlotOf s.cfg.act s.fuses.variant fa).isSome = true := by
      simp only [fidFrame, locate, hs, straightFor, Option.filter_eq_some_iff, Option.all_some, Option.any_eq_true] at hfa
      obtain ⟨-, k, hk, -⟩ := hfa
      simp [hk]
    rw [← Nat.add_zero fa, hraw 0 (by decide)] at hslot
    cases hslot
  have hmoving : (htGet s (blockNo a)).state ≠ .moving := by
    refine hstill.resolve_left (fun hs => ?_)
    rcases hr with hr | hr <;> rw [hs] at hr <;> cases hr
  have hlow : a < straightBase := by
    have hend : straightBase = 2 ^ 44 := rfl
    have hn := nchan_le s.fuses.variant
    by_contra hge
    have hm : ¬ a < mantleBase := by simp only [mantleBase]; omega
    have hm2 : ¬ a < mantleEnd s.fuses.variant := by simp only [mantleEnd]; omega
    rw [regionOf, if_neg hm, if_neg hm2] at hr
    split at hr
    · rcases hr with hr | hr <;> cases hr
    · split at hr <;> rcases hr with hr | hr <;> cases hr
  have hmerge : s.tiers.merging.contains (blockNo a) = false := by
    simp only [fidWaits, hlow, decide_true, Bool.true_and, Bool.or_eq_false_iff] at hw
    exact hw.2.1.1
  exact lineOpen_of_locate hr hfa hin hmoving hmerge hplain

/-- The granule of an aligned name begins at its frame address. -/
theorem LineOpen.granule (h : LineOpen s a fa 32) : fa % 32 = 0 := by
  have hframe := h.frame
  have hbase : mantleBase = 8589934592 * 32 := rfl
  have hhost : hostFrames = 34359738368 * 32 := rfl
  unfold frameAddr frameBase at hframe
  simp only [blockBytes] at hframe
  split at hframe <;> omega

end

theorem LineOpen.of_keeps {ps : List Part} {s t : State} {a fa n : Nat} (h : LineOpen s a fa n) (hk : Keeps ps s t)
    (ht : ps.contains .tiers = false) (hm : ps.contains .mem = false) (hc : ps.contains .cfg = false)
    (hf : ps.contains .fuses = false) : LineOpen t a fa n := by
  have htiers : t.tiers = s.tiers := hk.same .tiers ht
  have hmem : t.mem = s.mem := hk.same .mem hm
  have hht (x : Nat) : htGet t x = htGet s x := htGet_congr (congrArg Tiers.ht htiers) (hk.same .cfg hc) (hk.same .fuses hf) x
  have hfuses : t.fuses = s.fuses := hk.same .fuses hf
  refine ⟨h.inBlock, by rw [hfuses]; exact h.region, by rw [hht]; exact h.bound, by rw [hht]; exact h.still,
    by rw [htiers]; exact h.merging, by rw [hht]; exact h.frame,
    plainSpan_congr (hk.same .cfg hc) hfuses (by rw [postedSpans, postedSpans, hmem]) h.plain⟩

/-- What the stores of a request's runs leave, after the request is counted. -/
theorem fidStore_stored {s : State} {strand : StrandNo} {account : Acct} {a fa : Nat} {runs : List (Nat × List Byte)}
    {new : Nat → Byte} (rmw : Bool) (hopen : LineOpen s a fa 32) (hruns : RunsOf runs new) :
    let t := fidStore (fidCounted s strand account a rmw) a runs
    Keeps [.regs, .port, .mem, .tiers, .pmu] s t ∧ OutsideFrame s t fa 32 ∧
    (∀ j : Nat, j < 32 → rawByte t (fa + j) =
      if inPieces (runs.map (fun q => (a + q.1, q.2))) (a + j) then new j else rawByte s (fa + j)) ∧
    ((∀ q ∈ runs, q.2.length < 32) → t.mem.chafed = s.mem.chafed) := by
  intro t
  have hcount := fidCounted_keeps s strand account a rmw
  have hopen1 := hopen.of_keeps hcount rfl rfl rfl rfl
  obtain ⟨hstored, hget, hmarks⟩ := storePieces (unmarkedPiece_stores (blockNo a) _) _ _ hopen1 rfl rfl (hruns.pieces a)
  rw [← fidStore_eq] at hstored hget hmarks
  have hbytes := hcount.sameBytes rfl rfl
  refine ⟨(hcount.mono rfl).step hstored.keeps rfl, fun x hx => (hstored.outside x hx).trans (hbytes x), fun j hj => ?_, fun hq => ?_⟩
  · rw [hget j hj, hbytes]
  · refine (hmarks (fun p hp => ?_)).trans (congrArg Mem.chafed (hcount.same .mem rfl))
    obtain ⟨q, hq', rfl⟩ := List.mem_map.1 hp
    exact hq q hq'

theorem granChafed_of_marks {s t : State} (h : t.mem.chafed = s.mem.chafed) (fa : Nat) : granChafed t fa = granChafed s fa := by
  rw [granChafed, granChafed, h]

/-- A write of a whole granule of the mantle leaves it unmarked (R177). -/
theorem fidStore_full {s : State} {strand : StrandNo} {account : Acct} {a fa : Nat} {bs : List Byte} (hlen : bs.length = 32)
    (hopen : LineOpen s a fa 32) (hfa : fa % 32 = 0) (hlo : mantleBase ≤ fa) :
    granChafed (fidStore (fidCounted s strand account a false) a [(0, bs)]) fa = false := by
  have hopen1 := hopen.of_keeps (fidCounted_keeps s strand account a false) rfl rfl rfl rfl
  have hhi : fa < hostFrames := by
    obtain ⟨hend, -⟩ := (plainSpan_iff s fa 32).1 hopen.plain
    omega
  rw [← hlen] at hopen1
  have hwrite := writePiece_plain (List.ne_nil_of_length_pos (by rw [hlen]; decide)) hopen1 true false (acct := none) (fun _ h => nomatch h)
  have hmarks := (storeAt_plain false hopen1.plain).chafed
  rw [hlen, marksAfter_granule _ hlo hhi hfa] at hmarks
  have hgran : granOf fa = fa := by rw [granOf, granSize_mantle hlo hhi]; omega
  have hrun : fidStore (fidCounted s strand account a false) a [(0, bs)] =
      syncChafe (storeAt (fidCounted s strand account a false) fa bs false) (blockNo a) := congrArg Prod.fst hwrite
  rw [hrun, granChafed, hgran, syncChafe_mem, hmarks]
  simp [setDel]

section
variable {s : State} {strand : StrandNo} {account : Acct} {addr : DevAddr} {data : BitVec 256} {fa : Nat} (hunit : unitOn s 6 = true)
  (hquiet : quiet s unChannels = false) (hfa : fidFrame s account.toNat (addr.toNat / 32 * 32) = some fa)
  (hstill : regionOf s.fuses.variant (addr.toNat / 32 * 32) = .straight ∨
    (htGet s (blockNo (addr.toNat / 32 * 32))).state ≠ .moving) (hplain : plainSpan s fa 32 = true)
include hunit hquiet hfa hstill hplain

theorem fidWrite_answers (mask : BitVec 32) (hw : fidWaits s (addr.toNat / 32 * 32) fa false true = false) :
    Answers (.fidWrite strand account addr data mask) s (fun t =>
      (∀ j : Nat, j < 32 → rawByte t (fa + j) = if mask.getLsbD j then wordByte data j else rawByte s (fa + j)) ∧
      OutsideFrame s t fa 32 ∧ (mask ≠ BitVec.allOnes 32 → granChafed t fa = granChafed s fa) ∧
      (mask = BitVec.allOnes 32 → mantleBase ≤ fa → granChafed t fa = false) ∧ (∀ m : Nat, lineGet t m = lineGet s m) ∧
      ∀ m : Nat, strandGet t m = strandGet s m) := by
  let a := addr.toNat / 32 * 32
  have ha : a % 32 = 0 := Nat.mul_mod_left ..
  have hopen := fidGranule_open ha hfa hw hstill hplain
  let t0 := fidStore (fidCounted s strand account a false) a (maskRuns (bytesOf 32 data.toNat) mask)
  obtain ⟨hkeep, hout, hget, hmarks⟩ := fidStore_stored (strand := strand) (account := account) false hopen (maskRuns_runs data mask)
  have hrun : exec (.fidWrite strand account addr data mask) s = .next (drawn t0) :=
    (exec_fidWrite ..).trans (fidRequest_acts (strand := strand) hunit hquiet _ false true _ _ hfa hw)
  have hsame : SameBytes t0 (drawn t0) := (drawn_keeps t0).sameBytes rfl rfl
  have hall := (hkeep.mono rfl).step (drawn_keeps t0) rfl (ps := [.free, .regs, .port, .mem, .tiers, .pmu])
  refine ⟨_, hrun, fun j hj => ?_, fun x hx => (hsame x).trans (hout x hx), fun hpart => ?_, fun hfull hlo => ?_,
    lineGet_congr (hall.same .lines rfl), fun m => ?_⟩
  · rw [hsame, hget j hj, inPieces_maskRuns data mask _ hj]
  · refine granChafed_of_marks (s := s) (t := drawn t0) (hmarks (fun q hq => ?_)) fa
    rw [maskRuns, if_neg hpart] at hq
    obtain ⟨j, -, rfl⟩ := List.mem_map.1 hq
    exact Nat.succ_lt_succ (Nat.succ_pos 30)
  · have hruns : maskRuns (bytesOf 32 data.toNat) mask = [(0, bytesOf 32 data.toNat)] := if_pos hfull
    show granChafed t0 fa = false
    simp only [t0, hruns]
    exact fidStore_full (bytesOf_length ..) hopen (hopen.granule ha) hlo
  · rw [strandGet, strandGet, hall.same .strands rfl]

/-- A read-modify-write whose function is `f`, whatever flags it gives. -/
theorem fidRmw_answers {lanes : BitVec 8} {c : Instr} {f : W32 → W32 → W32} {g : W32 → W32 → W32 × Byte} (hfg : ∀ x y, (g x y).1 = f x y)
    (hrun : exec c s = fidRmw c strand account addr data lanes g s) (hw : fidWaits s (addr.toNat / 32 * 32) fa true true = false) :
    Answers c s (fun t =>
      (∀ i : Nat, i < 8 → laneOf (fun j => rawByte t (fa + j)) i =
        if lanes.getLsbD i then f (laneOf (fun j => rawByte s (fa + j)) i) (laneOf (wordByte data) i)
        else laneOf (fun j => rawByte s (fa + j)) i) ∧
      (strandGet t strand.val).fidData = BitVec.ofNat 256 (natOfBytes ((List.range 32).map (fun j => rawByte s (fa + j)))) ∧
      (strandGet t strand.val).fidChafed = viewMark s fa ∧ granChafed t fa = granChafed s fa ∧ OutsideFrame s t fa 32 ∧
      (∀ m : Nat, m ≠ strand.val → strandGet t m = strandGet s m) ∧ (∀ m : Nat, lineGet t m = lineGet s m)) := by
  let a := addr.toNat / 32 * 32
  have ha : a % 32 = 0 := Nat.mul_mod_left ..
  have hopen := fidGranule_open ha hfa hw hstill hplain
  let s1 := fidCounted s strand account a true
  have hcount : Keeps [.regs, .port, .pmu] s s1 := fidCounted_keeps ..
  have hmem : s1.mem = s.mem := hcount.same .mem rfl
  -- no posted write covers the granule, so it reads as it is stored
  have hold : granWord s1 fa = BitVec.ofNat 256 (natOfBytes ((List.range 32).map (fun j => rawByte s (fa + j)))) := by
    obtain ⟨-, -, hposted⟩ := (plainSpan_iff s fa 32).1 hplain
    refine congrArg (fun bs => BitVec.ofNat 256 (natOfBytes bs)) (List.map_congr_left (fun j hj => ?_))
    have hj := List.mem_range.1 hj
    rw [viewByte_congr hmem (hcount.same .free rfl) (hcount.same .cfg rfl), viewByte, List.find?_eq_none.2]
    intro p hp
    have hp := hposted p hp
    simp only [Posted.covers, Bool.and_eq_true, decide_eq_true_eq]
    omega
  have hmark : viewMark s1 fa = viewMark s fa := by
    rw [viewMark, viewMark, granChafed, granChafed, hmem, hcount.same .free rfl]
  let v (i : Nat) : W32 := f (laneOf (fun j => rawByte s (fa + j)) i) (laneOf (wordByte data) i)
  obtain ⟨hkeep, hout, hget, hmarks⟩ := fidStore_stored (strand := strand) (account := account) true hopen (laneRuns_runs lanes v)
  let t0 := fidStore s1 a (laneRuns lanes v)
  let rs := ((List.range 8).filter (fun i => lanes.getLsbD i)).map (fun i =>
    (4 * i, g (BitVec.ofNat 32 ((granWord s1 fa).toNat >>> (32 * i))) (BitVec.ofNat 32 (data.toNat >>> (32 * i)))))
  have hlanes : rs.map (fun r => (r.1, bytesOf 4 r.2.1.toNat)) = laneRuns lanes v := by
    rw [List.map_map]
    refine List.map_congr_left (fun i hi => ?_)
    have hi := List.mem_range.1 (List.mem_filter.1 hi).1
    simp only [Function.comp]
    rw [hfg, hold, laneOf_word _ hi, laneOf_data data hi]
  let flags : Byte := flagsOr (rs.map (fun r => r.2.2))
  have hend : exec c s = .next (fidAnswer (drawn t0) strand.val (granWord s1 fa) flags (viewMark s1 fa)) := by
    refine hrun.trans ((fidRequest_acts (strand := strand) hunit hquiet c true true _ _ hfa hw).trans ?_)
    show Host.Outcome.next (fidAnswer (drawn (fidStore s1 a (rs.map (fun r => (r.1, bytesOf 4 r.2.1.toNat))))) strand.val
      (granWord s1 fa) flags (viewMark s1 fa)) = _
    rw [hlanes]
  have hself : strandGet (fidAnswer (drawn t0) strand.val (granWord s1 fa) flags (viewMark s1 fa)) strand.val =
      { strandGet (drawn t0) strand.val with fidData := granWord s1 fa, fidFlags := flags, fidChafed := viewMark s1 fa } :=
    mapGet_mapSet_self Strand.reset (drawn t0).strands strand.val _
  have hanswer : Keeps [.free, .strands] t0 (fidAnswer (drawn t0) strand.val (granWord s1 fa) flags (viewMark s1 fa)) :=
    ((drawn_keeps t0).mono rfl).step (fidAnswer_keeps ..) rfl
  have hsame := hanswer.sameBytes rfl rfl
  refine ⟨_, hend, fun i hi => ?_, ?_, ?_, granChafed_of_marks ((congrArg Mem.chafed (hanswer.same .mem rfl)).trans
      (hmarks (fun q hq => ?_))) fa, fun x hx => (hsame x).trans (hout x hx), fun m hm => ?_,
    lineGet_congr ((hanswer.same .lines rfl).trans (hkeep.same .lines rfl))⟩
  · have hbyte (j : Nat) (hj : j < 4) : rawByte (fidAnswer (drawn t0) strand.val (granWord s1 fa) flags (viewMark s1 fa)) (fa + (4 * i + j)) =
        if lanes.getLsbD i then (bytesOf 4 (v i).toNat).getD j 0 else rawByte s (fa + (4 * i + j)) := by
      rw [hsame, hget _ (by omega), inPieces_laneRuns lanes v _ hi hj, show (4 * i + j) / 4 = i by omega,
        show (4 * i + j) % 4 = j by omega]
    by_cases hl : lanes.getLsbD i = true
    · rw [if_pos hl]
      exact laneOf_bytesOf (v i) (fun j hj => (hbyte j hj).trans (if_pos hl))
    · rw [if_neg hl]
      exact congrArg (fun bs => BitVec.ofNat 32 (natOfBytes bs))
        (List.map_congr_left (fun j hj => (hbyte j (List.mem_range.1 hj)).trans (if_neg hl)))
  · rw [hself]
    exact hold
  · rw [hself]
    exact hmark
  · obtain ⟨i, -, -, rfl⟩ := mem_laneRuns.1 hq
    simp [bytesOf_length]
  · have hother := mapGet_mapSet_ne Strand.reset (drawn t0).strands strand.val m
      { strandGet (drawn t0) strand.val with fidData := granWord s1 fa, fidFlags := flags, fidChafed := viewMark s1 fa } hm
    exact hother.trans (congrArg (fun x => mapGet Strand.reset x m) (hkeep.same .strands rfl))

end

/-- The four read-modify-writes, with the function of a lane and what each runs. -/
theorem fidRmw_cases {strand : StrandNo} {account : Acct} {addr : DevAddr} {data : BitVec 256} {lanes : BitVec 8} {s : State}
    {c : Instr} {f : W32 → W32 → W32} (h : (c, f) ∈ ([
      (.fidAddI32 strand account addr data lanes, fun x y => x + y),
      (.fidAddW32 strand account addr data lanes, fun x y => (opAdd x y 0).1),
      (.fidMaxW32 strand account addr data lanes, fun x y => (opMax x y 0).1),
      (.fidOr strand account addr data lanes, fun x y => x ||| y)] : List (Instr × (W32 → W32 → W32)))) :
    ∃ g : W32 → W32 → W32 × Byte, (∀ x y, (g x y).1 = f x y) ∧ exec c s = fidRmw c strand account addr data lanes g s := by
  simp only [List.mem_cons, Prod.mk.injEq, List.not_mem_nil, or_false] at h
  rcases h with ⟨rfl, rfl⟩ | ⟨rfl, rfl⟩ | ⟨rfl, rfl⟩ | ⟨rfl, rfl⟩
  · exact ⟨fun x y => (x + y, 0), fun _ _ => rfl, rfl⟩
  · exact ⟨fun x y => opAdd x y 0, fun _ _ => rfl, rfl⟩
  · exact ⟨fun x y => opMax x y 0, fun _ _ => rfl, rfl⟩
  · exact ⟨fun x y => (x ||| y, 0), fun _ _ => rfl, rfl⟩

/-- Settles O47, request by request. -/
theorem fidRequestsAnswer : Obligations.FidRequestsAnswer := by
  intro strand account addr data mask lanes fa s hunit hquiet a k word new still rmws queued
  have hanswer (t : State) : Keeps [.strands] t (fidAnswer t strand.val 0 0 true) := fidAnswer_keeps ..
  have hself (t : State) : (strandGet (fidAnswer t strand.val 0 0 true) k).fidChafed = true :=
    congrArg Strand.fidChafed (mapGet_mapSet_self Strand.reset t.strands strand.val _)
  refine ⟨fun hfa => ⟨fun hw => ?_, fun hw => ?_, fun hw p hp => ?_, fidRead_answers hunit hquiet hfa, fun hw hstill hplain => ?_,
    fun hw hstill hplain c f hc => ?_⟩, fun hfa => ?_⟩
  · exact fidRequest_queued hunit hquiet _ _ _ _ _ hfa hw (exec_fidRead ..)
  · exact fidRequest_queued hunit hquiet _ _ _ _ _ hfa hw (exec_fidWrite ..)
  · obtain ⟨g, -, hrun⟩ := fidRmw_cases (s := s) hp
    exact fidRequest_queued hunit hquiet _ _ _ _ _ hfa hw hrun
  · exact fidWrite_answers hunit hquiet hfa hstill hplain mask hw
  · obtain ⟨g, hfg, hrun⟩ := fidRmw_cases (s := s) hc
    exact fidRmw_answers hunit hquiet hfa hstill hplain hfg hrun hw
  · intro counted
    refine ⟨?_, ?_, fun p hp => ?_⟩
    · obtain ⟨u, hend, hbytes, hcount⟩ := fidRequest_bad_answers hunit hquiet (.fidRead strand account addr .none) false false _ hanswer hfa
        (exec_fidRead ..)
      exact ⟨_, hend, hself u, hbytes, hcount⟩
    · obtain ⟨u, hend, hbytes, hcount⟩ := fidRequest_bad_answers hunit hquiet (.fidWrite strand account addr data mask) false true _
        (fun t => (Keeps.refl _ t : Keeps [.strands] t (id t))) hfa (exec_fidWrite ..)
      exact ⟨_, hend, hbytes, hcount⟩
    · obtain ⟨g, -, hrun⟩ := fidRmw_cases (s := s) hp
      obtain ⟨u, hend, hbytes, hcount⟩ := fidRequest_bad_answers hunit hquiet p.1 true true _ hanswer hfa hrun
      exact ⟨_, hend, hself u, hbytes, hcount⟩

end Sys2Proof.Machine
end

section
/-! SUPPORT. Causes that stay set through the error policy (R178, R353, R424). -/

set_option Elab.async false

namespace Sys2Proof.Machine

open Sys2Proof

/-- Every cause that is set in `s` is set in `t`. -/
structure CausesStay (s t : State) : Prop where
  stay : ∀ i : Nat, s.regs.irqCause.getLsbD i = true → t.regs.irqCause.getLsbD i = true

theorem CausesStay.refl (s : State) : CausesStay s s := ⟨fun _ h => h⟩

theorem CausesStay.trans {s t u : State} (h1 : CausesStay s t) (h2 : CausesStay t u) : CausesStay s u :=
  ⟨fun i h => h2.stay i (h1.stay i h)⟩

theorem CausesStay.of_regs {s t : State} (h : t.regs = s.regs) : CausesStay s t := ⟨fun i hi => by rwa [h]⟩

theorem Keeps.causesStay {ps : List Part} {s t : State} (h : Keeps ps s t) (hp : ps.contains .regs = false) : CausesStay s t :=
  .of_regs (h.same .regs hp)

theorem CausesStay.foldl {B : Type} {s t : State} {f : State → B → State} {l : List B} (h : CausesStay s t)
    (hf : ∀ (u : State) (b : B), CausesStay u (f u b)) : CausesStay s (l.foldl f t) :=
  foldl_keeps (CausesStay s) f l t h (fun u b hu => hu.trans (hf u b))

theorem raiseCause_causesStay (s : State) (b : Nat) : CausesStay s (raiseCause s b) := by
  refine ⟨fun i hi => ?_⟩
  rw [raiseCause, setIrq_cause, BitVec.getLsbD_or, hi, Bool.true_or]

theorem pmuAdd_causesStay (s : State) (code n : Nat) (a : Attr) : CausesStay s (pmuAdd s code n a) := by
  have hbase : CausesStay s (pmuBase s code n a).1 := (pmuBase_keeps ..).causesStay rfl
  unfold pmuAdd
  dsimp only
  split
  · exact hbase.trans (raiseCause_causesStay ..)
  · exact hbase

theorem countSent_causesStay (s : State) (k : Nat) (fs : List Frame) : CausesStay s (countSent s k fs) := by
  refine (CausesStay.refl s).foldl (fun u f => ?_)
  split
  · exact (pmuAdd_causesStay ..).trans (pmuAdd_causesStay ..)
  · exact pmuAdd_causesStay ..

theorem pump_causesStay (s : State) (k : Nat) : CausesStay s (pump s k) := by
  unfold pump
  dsimp only
  split
  · exact ((linkSet_keeps ..).causesStay rfl).trans (countSent_causesStay ..)
  · exact .refl s

theorem sendOn_causesStay (s : State) (k : Nat) (f : Frame) : CausesStay s (sendOn s k f) :=
  ((linkSet_keeps ..).causesStay rfl).trans (pump_causesStay ..)

theorem routeFrame_causesStay (s : State) (f : Frame) (originated : Bool) : CausesStay s (routeFrame s f originated) := by
  unfold routeFrame
  split
  · exact .refl s
  · exact (countDrop_keeps ..).causesStay rfl
  · split
    · exact (countDrop_keeps ..).causesStay rfl
    · refine CausesStay.trans ?_ (sendOn_causesStay ..)
      exact .of_regs rfl

theorem askRepair_causesStay (s : State) (name axis rank began : Nat) : CausesStay s (askRepair s name axis rank began) := by
  unfold askRepair sendFrame
  refine CausesStay.trans ?_ (routeFrame_causesStay ..)
  exact .of_regs rfl

theorem repairFail_causesStay (s : State) (name : Nat) : CausesStay s (repairFail s name) := by
  unfold repairFail
  refine CausesStay.trans ?_ ((pmuAdd_causesStay ..).trans (raiseCause_causesStay ..))
  exact .of_regs rfl

theorem repairNext_causesStay (s : State) (name axis after began : Nat) : CausesStay s (repairNext s name axis after began) := by
  unfold repairNext
  dsimp only
  split
  · exact askRepair_causesStay ..
  · exact repairFail_causesStay ..

theorem startRepair_causesStay (s : State) (name : Nat) : CausesStay s (startRepair s name) :=
  ((htSet_keeps ..).causesStay rfl).trans (repairNext_causesStay ..)

theorem chafePolicy_causesStay (s : State) (name : Nat) : CausesStay s (chafePolicy s name) := by
  unfold chafePolicy
  dsimp only
  split
  · exact .refl s
  · split
    · split
      · exact .refl s
      · refine CausesStay.trans ?_ (raiseCause_causesStay ..)
        split
        · exact .refl s
        · exact startRepair_causesStay ..
    · exact ((haltAccount_keeps ..).causesStay rfl).trans (raiseCause_causesStay ..)
    · exact ((abortAccount_keeps ..).causesStay rfl).trans (raiseCause_causesStay ..)

theorem chafeAt_causesStay (s : State) (name fa : Nat) : CausesStay s (chafeAt s name fa) := by
  unfold chafeAt
  dsimp only
  refine CausesStay.trans ?_ (((syncChafe_keeps ..).causesStay rfl).trans (chafePolicy_causesStay ..))
  split
  · exact .refl s
  · exact ((markGran_keeps ..).causesStay rfl).trans (pmuAdd_causesStay ..)

end Sys2Proof.Machine
end

section
/-! SUPPORT. The patrol scrub, the parity scrub, refreshes and the timeout of a repair (O51, R175, R179, R191, R193, R195, R197, R199,
R200, R201). -/

set_option Elab.async false

namespace Sys2Proof.Machine

open Sys2Proof

/-! ### A granule found chafed -/

/-- A granule chafed, with its block's state and the account's policy: of the memory only its mark changes. -/
theorem chafeAt_mem (s : State) (name fa : Nat) :
    (chafeAt s name fa).mem = { s.mem with chafed := if granChafed s fa then s.mem.chafed else setIns s.mem.chafed (granOf fa) } := by
  unfold chafeAt
  dsimp only
  rw [(chafePolicy_keeps ..).same .mem rfl, syncChafe_mem]
  split
  · rfl
  · exact (pmuAdd_keeps ..).same .mem rfl

theorem chafeAt_sameBytes (s : State) (name fa : Nat) : SameBytes s (chafeAt s name fa) :=
  rawByte_congr (fun _ => by rw [chafeAt_mem]) (by rw [chafeAt_mem]) ((chafeAt_keeps ..).same .cfg rfl)

theorem mem_chafeAt (s : State) (name fa g : Nat) :
    g ∈ (chafeAt s name fa).mem.chafed ↔ g = granOf fa ∨ g ∈ s.mem.chafed := by
  rw [chafeAt_mem]
  by_cases h : granChafed s fa = true
  · have hin : granOf fa ∈ s.mem.chafed := by simpa [granChafed] using h
    simp only [h, if_true]
    exact ⟨Or.inr, fun hg => hg.elim (fun he => he ▸ hin) id⟩
  · simp only [h, Bool.false_eq_true, if_false, setIns_mem]

theorem granChafed_chafeAt (s : State) (name fa : Nat) : granChafed (chafeAt s name fa) fa = true := by
  simpa [granChafed] using (mem_chafeAt s name fa (granOf fa)).2 (Or.inl rfl)

/-! ### The patrol scrub (R193, R195) -/

theorem countUe_stack (s : State) (st k : Nat) : stackGet (countUe s st) k =
    stackGet (stackSet s st { stackGet s st with ue := satAdd 4095 (stackGet s st).ue 1 }) k := by
  unfold countUe
  dsimp only
  rw [stackGet, (raiseCause_keeps ..).same .stackSt rfl]
  split
  · rw [(pmuAdd_keeps ..).same .stackSt rfl]
    rfl
  · rfl

theorem countUe_cause (s : State) (st : Nat) : (countUe s st).regs.irqCause.getLsbD 4 = true := raiseCause_cause _ (by decide)

/-- What an uncorrectable error leaves: its granule marked, its stack's UE counted and its cause set. -/
theorem ueFoundAt_finds {s : State} {fa st : Nat} (hst : stackOf s.fuses.variant fa = some st) (hclean : granChafed s fa = false) :
    granChafed (ueFoundAt s fa) fa = true ∧
    (∀ k : Nat, stackGet (ueFoundAt s fa) k = stackGet (countUe s st) k) ∧
    (ueFoundAt s fa).regs.irqCause.getLsbD 4 = true ∧ SameBytes s (ueFoundAt s fa) := by
  have hcount := countUe_keeps s st
  have hbytes := hcount.sameBytes rfl rfl
  have hstill : granChafed (countUe s st) fa = false := by rw [granChafed, hcount.same .mem rfl]; exact hclean
  cases hname : nameOfFrame (countUe s st) fa with
  | some b =>
    have hrun : ueFoundAt s fa = chafeAt (countUe s st) b fa := by
      simp only [ueFoundAt, hst, hname]
    rw [hrun]
    refine ⟨granChafed_chafeAt .., fun k => ?_, (chafeAt_causesStay ..).stay 4 (countUe_cause ..),
      fun a => (chafeAt_sameBytes ..).trans (hbytes a)⟩
    rw [stackGet, (chafeAt_keeps ..).same .stackSt rfl]
    rfl
  | none =>
    have hrun : ueFoundAt s fa = pmuAdd (markGran (countUe s st) fa) 0x10F 1 attr0 := by
      simp only [ueFoundAt, hst, hstill, hname, Bool.false_eq_true, if_false]
    rw [hrun]
    have hmark : Keeps [.regs, .port, .mem, .pmu] (countUe s st) (pmuAdd (markGran (countUe s st) fa) 0x10F 1 attr0) :=
      ((markGran_keeps ..).mono rfl).step (pmuAdd_keeps ..) rfl
    have hmem : (pmuAdd (markGran (countUe s st) fa) 0x10F 1 attr0).mem = (markGran (countUe s st) fa).mem :=
      (pmuAdd_keeps ..).same .mem rfl
    refine ⟨?_, fun k => ?_, ?_, fun a => (rawByte_congr (fun _ => ?_) ?_ (hmark.same .cfg rfl) a).trans (hbytes a)⟩
    · rw [granChafed, hmem]
      simp [markGran, setIns_mem]
    · rw [stackGet, hmark.same .stackSt rfl]
      rfl
    · exact (((markGran_keeps ..).causesStay rfl).trans (pmuAdd_causesStay ..)).stay 4 (countUe_cause ..)
    · rw [hmem]
      rfl
    · rw [hmem]
      rfl

section
variable {s : State} {stack : Stack} {chan : BitVec 7} {granule : BitVec 25} {fa : Nat}
  (hat : granAt s.fuses.variant stack chan.toNat granule.toNat = some fa) (hfree : accessHeld s fa false = false)
include hat hfree

/-- A pass that ends counts, whatever its last granule met. -/
theorem scrubRead_eq (err : EccErr) : exec (.scrubRead stack chan granule err) s = .next (
    if passEnd s.fuses.variant stack chan.toNat granule.toNat then
      { meetError s fa err with eng := { (meetError s fa err).eng with
        scrubPasses := satAdd 65535 (meetError s fa err).eng.scrubPasses 1 } }
    else meetError s fa err) := by
  simp only [exec, execScrubRead, hat, hfree, Bool.false_eq_true, if_false]

theorem scrubRead_clean : Answers (.scrubRead stack chan granule .none) s (fun t =>
    t.eng = (if passEnd s.fuses.variant stack chan.toNat granule.toNat then
      { s.eng with scrubPasses := satAdd 65535 s.eng.scrubPasses 1 } else s.eng) ∧ OnlyIn [.eng] s t) := by
  refine ⟨_, scrubRead_eq hat hfree .none, ?_⟩
  have hnone : meetError s fa .none = s := rfl
  rw [hnone]
  split
  · exact ⟨rfl, (Keeps.upd (Keeps.refl [.eng] s)).only⟩
  · exact ⟨rfl, (Keeps.refl [.eng] s).only⟩

theorem scrubRead_passes (err : EccErr) : Answers (.scrubRead stack chan granule err) s (fun t =>
    t.eng.scrubPasses = (if passEnd s.fuses.variant stack chan.toNat granule.toNat then
      satAdd 65535 s.eng.scrubPasses 1 else s.eng.scrubPasses)) := by
  have heng : (meetError s fa err).eng = s.eng := (meetError_keeps s fa err).same .eng rfl
  refine ⟨_, scrubRead_eq hat hfree err, ?_⟩
  split
  · exact congrArg (fun e : Engines => satAdd 65535 e.scrubPasses 1) heng
  · exact congrArg Engines.scrubPasses heng

theorem scrubRead_beat {n st : Nat} (hkern : fa < mantleBase) (hn : 4 ≤ n) (hst : stackOf s.fuses.variant fa = some st)
    (hclean : granChafed s fa = false) :
    Answers (.scrubRead stack chan granule (.beat n)) s (fun t =>
      granChafed t fa = true ∧
      stackGet t st = { stackGet s st with
        linkRetry := satAdd 65535 (stackGet s st).linkRetry 3, ue := satAdd 4095 (stackGet s st).ue 1 } ∧
      (∀ k : Nat, k ≠ st → stackGet t k = stackGet s k) ∧ t.regs.irqCause.getLsbD 4 = true ∧ SameBytes s t ∧
      OnlyIn [.free, .regs, .port, .lines, .mem, .tiers, .eng, .stackSt, .net, .pmu] s t) := by
  have hk : min n 3 = 3 := by omega
  let s1 := stackSet s st { stackGet s st with linkRetry := satAdd 65535 (stackGet s st).linkRetry 3 }
  let s2 := pmuAdd s1 (0x098 + st) 3 attr0
  have hkeep2 : Keeps [.regs, .port, .stackSt, .pmu] s s2 := ((stackSet_keeps ..).mono rfl).step (pmuAdd_keeps ..) rfl
  have hmeet : meetError s fa (.beat n) = ueFoundAt s2 fa := by
    simp only [meetError, hst, Option.getD_some, hk]
    rw [if_neg (Nat.not_le.2 hkern), if_pos hn]
  have hvariant : s2.fuses = s.fuses := hkeep2.same .fuses rfl
  obtain ⟨hmarked, hstack, hcause, hbytes⟩ := ueFoundAt_finds (s := s2) (by rw [hvariant]; exact hst)
    (by rw [granChafed, hkeep2.same .mem rfl]; exact hclean)
  have hs2 (j : Nat) : stackGet s2 j = stackGet s1 j := by rw [stackGet, (pmuAdd_keeps ..).same .stackSt rfl]; rfl
  have hall : Keeps [.free, .regs, .port, .lines, .mem, .tiers, .eng, .stackSt, .net, .pmu] s (meetError s fa (.beat n)) :=
    (meetError_keeps ..).mono rfl
  -- the counters of the stacks, before the pass is counted
  have hself : stackGet (ueFoundAt s2 fa) st = { stackGet s st with
      linkRetry := satAdd 65535 (stackGet s st).linkRetry 3, ue := satAdd 4095 (stackGet s st).ue 1 } := by
    rw [hstack, countUe_stack, stackGet_stackSet_self, hs2, stackGet_stackSet_self]
  have hothers (j : Nat) (hj : j ≠ st) : stackGet (ueFoundAt s2 fa) j = stackGet s j := by
    rw [hstack, countUe_stack, stackGet_stackSet_ne _ _ _ _ hj, hs2, stackGet_stackSet_ne _ _ _ _ hj]
  have hsame (a : Nat) : rawByte (ueFoundAt s2 fa) a = rawByte s a := (hbytes a).trans (hkeep2.sameBytes rfl rfl a)
  rw [hmeet] at hall
  have hrun := scrubRead_eq hat hfree (.beat n)
  rw [hmeet] at hrun
  split at hrun
  · have hpass : Keeps [.eng] (ueFoundAt s2 fa) { ueFoundAt s2 fa with eng := { (ueFoundAt s2 fa).eng with
        scrubPasses := satAdd 65535 (ueFoundAt s2 fa).eng.scrubPasses 1 } } := Keeps.upd (Keeps.refl _ _)
    exact ⟨_, hrun, hmarked, hself, hothers, hcause, fun a => (hpass.sameBytes rfl rfl a).trans (hsame a), (Keeps.upd hall).only⟩
  · exact ⟨_, hrun, hmarked, hself, hothers, hcause, hsame, hall.only⟩

end

end Sys2Proof.Machine
end

section
/-! SUPPORT. Refreshes, the timeout of a repair, and the parity scrub of a RAW group (O51, R179, R197, R199, R200, R201). -/

set_option Elab.async false

namespace Sys2Proof.Machine

open Sys2Proof

/-! ### Refreshes (R200, R201) -/

theorem refreshDue_answers {s : State} {stack : Stack} {chan : BitVec 7} {bank : BankNo}
    (hfit : fitted s.fuses.variant stack chan.toNat = true) :
    let k := rk (stackNo stack) chan.toNat bank.val
    let r := refreshGet s k
    r.lastDue + (if (stackGet s (stackNo stack)).hot then 1950 else 3900) ≤ s.clk →
    Answers (.refreshDue stack chan bank) s (fun t =>
      refreshGet t k = Refresh.mk (min 4 (r.owed + 1)) s.clk (r.hold || 3 ≤ min 4 (r.owed + 1)) ∧
      (∀ j : Nat, j ≠ k → refreshGet t j = refreshGet s j) ∧ OnlyIn [.refresh] s t) := by
  intro k r hdue
  refine ⟨_, if_pos ?_, refreshGet_refreshSet_self .., fun j hj => refreshGet_refreshSet_ne _ _ _ _ hj, (refreshSet_keeps ..).only⟩
  rw [hfit, Bool.true_and]
  exact decide_eq_true hdue

theorem refresh_answers {s : State} {stack : Stack} {chan : BitVec 7} {bank : BankNo} :
    let k := rk (stackNo stack) chan.toNat bank.val
    let r := refreshGet s k
    0 < r.owed → (∀ m : Fin 8, stack = .mantle m → (bankGet s (bk (96 * m.val + chan.toNat) bank.val)).atom = none) →
    Answers (.refresh stack chan bank) s (fun t =>
      refreshGet t k = Refresh.mk (r.owed - 1) r.lastDue (r.hold && 3 ≤ r.owed - 1) ∧
      (∀ j : Nat, j ≠ k → refreshGet t j = refreshGet s j) ∧ OnlyIn [.refresh, .regs, .port, .pmu] s t) := by
  intro k r howed hidle
  let u := refreshSet s k { r with owed := r.owed - 1, hold := r.hold && 3 ≤ r.owed - 1 }
  have hrun : exec (.refresh stack chan bank) s = .next (pmuAdd u (stackEvent 0x08C 0x0F0 (stackNo stack)) 1 attr0) := by
    refine if_pos ?_
    cases stack with
    | kern m => simpa using howed
    | mantle m => simpa [hidle m rfl] using howed
  have hpmu (j : Nat) : refreshGet (pmuAdd u (stackEvent 0x08C 0x0F0 (stackNo stack)) 1 attr0) j = refreshGet u j := by
    rw [refreshGet, (pmuAdd_keeps ..).same .refresh rfl]
    rfl
  refine ⟨_, hrun, (hpmu k).trans (refreshGet_refreshSet_self ..), fun j hj => (hpmu j).trans (refreshGet_refreshSet_ne _ _ _ _ hj),
    (((refreshSet_keeps ..).mono rfl).step (pmuAdd_keeps ..) rfl).only⟩

/-! ### The timeout of a repair (R179) -/

theorem repairTimeout_answers {s : State} {name : DevAddr} {r : Repair} :
    let b := blockNo name.toNat
    let e := htGet s b
    s.net.repairs.find? (fun r => r.name = b) = some r → r.beganAt + actF s flRepairWaitUs e.account * 1000 ≤ tbNow s →
    Answers (.repairTimeout name) s (fun t =>
      htGet t b = { e with repair := false } ∧ (∀ x : Nat, x ≠ b → htGet t x = htGet s x) ∧
      t.net.repairs = s.net.repairs.filter (fun r => r.name != b) ∧ t.regs.irqCause.getLsbD 0 = true ∧
      mapGet AcctSt.reset t.tiers.acct e.account =
        (let a := mapGet AcctSt.reset s.tiers.acct e.account
         { a with repairFailed := satAdd 4095 a.repairFailed 1, abortPending := true }) ∧
      OnlyIn [.regs, .port, .tiers, .net, .pmu] s t) := by
  intro b e hr hwait
  have hrun : exec (.repairTimeout name) s = .next (repairFail s b) := by
    simp only [exec, execRepairTimeout, b, hr]
    exact if_pos hwait
  -- the state before the counter and the cause
  let s1 := htSet s b { e with repair := false }
  let s2 : State := { s1 with
    tiers := { s1.tiers with acct := mapMod AcctSt.reset s1.tiers.acct e.account (fun x =>
      { x with repairFailed := satAdd 4095 x.repairFailed 1, abortPending := true }) }
    net := { s1.net with repairs := s1.net.repairs.filter (fun r => r.name != b) } }
  have hend : repairFail s b = raiseCause (pmuAdd s2 0x111 1 (attrP e.account)) irqChafe := rfl
  have hkeep : Keeps [.regs, .port, .pmu] s2 (repairFail s b) :=
    hend ▸ (pmuAdd_keeps ..).step (raiseCause_keeps ..) rfl
  have hht (x : Nat) : htGet (repairFail s b) x = htGet s1 x :=
    htGet_congr (congrArg Tiers.ht (hkeep.same .tiers rfl)) (hkeep.same .cfg rfl) (hkeep.same .fuses rfl) x
  refine ⟨_, hrun, (hht b).trans (htGet_htSet_self ..), fun x hx => (hht x).trans (htGet_htSet_ne _ _ _ _ hx),
    congrArg Net.repairs (hkeep.same .net rfl), ?_, ?_, (repairFail_keeps s b).only⟩
  · rw [hend]
    exact raiseCause_cause _ (by decide)
  · rw [hkeep.same .tiers rfl]
    exact mapGet_mapSet_self AcctSt.reset s1.tiers.acct e.account _

/-! ### Rows of the mantle (R185, R186) -/

/-- The hash of R185 before the mantle's base is added: XOR of a number with its halves shifted down. -/
def mixed (h : Nat) : Nat := h ^^^ (h >>> 12) ^^^ (h >>> 24)

/-- Below 2^36 the mixing is undone by one XOR (R185). -/
theorem mixed_unmix {h : Nat} (hh : h < 2 ^ 36) : mixed h ^^^ (mixed h >>> 12) = h := by
  have hzero : h >>> 36 = 0 := Nat.shiftRight_eq_zero h 36 hh
  refine Nat.eq_of_testBit_eq (fun i => ?_)
  have hbit : h.testBit (i + 36) = false := by
    have hz := congrArg (fun x => Nat.testBit x i) hzero
    simpa [Nat.testBit_shiftRight, Nat.add_comm] using hz
  have h1 : 12 + (12 + i) = 24 + i := by omega
  have h2 : 24 + (12 + i) = i + 36 := by omega
  simp only [mixed, Nat.testBit_xor, Nat.testBit_shiftRight, h1, h2, hbit]
  cases h.testBit i <;> cases h.testBit (12 + i) <;> cases h.testBit (24 + i) <;> rfl

theorem mixed_inj {h k : Nat} (hh : h < 2 ^ 36) (hk : k < 2 ^ 36) (he : mixed h = mixed k) : h = k := by
  rw [← mixed_unmix hh, ← mixed_unmix hk, he]

/-- The mixing leaves the bits from 30 on of a number below 2^42. -/
theorem mixed_high {h : Nat} (hh : h < 2 ^ 42) : mixed h / 2 ^ 30 = h / 2 ^ 30 := by
  have h12 : h >>> 12 >>> 30 = 0 := by rw [← Nat.shiftRight_add]; exact Nat.shiftRight_eq_zero h 42 hh
  have h24 : h >>> 24 >>> 30 = 0 := by
    rw [← Nat.shiftRight_add]
    exact Nat.shiftRight_eq_zero h 54 (hh.trans (by decide))
  rw [← Nat.shiftRight_eq_div_pow, ← Nat.shiftRight_eq_div_pow, mixed, Nat.shiftRight_xor_distrib, Nat.shiftRight_xor_distrib, h12, h24,
    Nat.xor_zero, Nat.xor_zero]

section
variable {v : Variant} {gc bank row byte : Nat} (hgc : gc < nchan v) (hbank : bank < 32) (hrow : row < 2 ^ 15) (hbyte : byte < 1024)

/-- The hashed number of a 256 B piece of a row. -/
def rowPiece (v : Variant) (gc bank row byte : Nat) : Nat := (row * 2 ^ 15 + bank * 1024 + byte) / 256 * nchan v + gc

theorem rowAddr_eq (v : Variant) (gc bank row byte : Nat) :
    rowAddr v gc bank row byte = mantleBase + mixed (rowPiece v gc bank row byte) * 256 + (row * 2 ^ 15 + bank * 1024 + byte) % 256 := by
  have hpiece : ((row * 2 ^ 15 + bank * 1024 + byte) >>> 8) * nchan v + gc / 96 * 96 + gc % 96 = rowPiece v gc bank row byte := by
    rw [Nat.shiftRight_eq_div_pow, Nat.add_assoc, Nat.div_add_mod']
    rfl
  rw [rowAddr, mantleUnhash, hpiece]
  rfl

include hgc hbank hrow hbyte

theorem rowPiece_lt : rowPiece v gc bank row byte < 768 * 2 ^ 22 := by
  have hn := nchan_le v
  have hlocal : (row * 2 ^ 15 + bank * 1024 + byte) / 256 ≤ 2 ^ 22 - 1 := by omega
  have hmul : (row * 2 ^ 15 + bank * 1024 + byte) / 256 * nchan v ≤ (2 ^ 22 - 1) * nchan v := Nat.mul_le_mul_right _ hlocal
  have hsum : (2 ^ 22 - 1) * nchan v + gc < 2 ^ 22 * nchan v := by rw [Nat.sub_mul]; omega
  have hall : 2 ^ 22 * nchan v ≤ 2 ^ 22 * 768 := Nat.mul_le_mul_left _ hn
  rw [rowPiece]
  omega

/-- A row's bytes lie in the mantle. -/
theorem rowAddr_lt : rowAddr v gc bank row byte < hostFrames := by
  have hlt := rowPiece_lt hgc hbank hrow hbyte
  have hhigh := mixed_high (hlt.trans (by decide))
  have hbase : mantleBase = 2 ^ 38 := rfl
  have hend : hostFrames = 2 ^ 40 := rfl
  rw [rowAddr_eq, hbase, hend]
  omega

/-- Two bytes of rows of a bank at one address are one byte of one row. -/
theorem rowAddr_inj {row' byte' : Nat} (hrow' : row' < 2 ^ 15) (hbyte' : byte' < 1024)
    (he : rowAddr v gc bank row byte = rowAddr v gc bank row' byte') : row = row' ∧ byte = byte' := by
  rw [rowAddr_eq, rowAddr_eq] at he
  have hlow := Nat.mod_lt (row * 2 ^ 15 + bank * 1024 + byte) (show 0 < 256 by decide)
  have hlow' := Nat.mod_lt (row' * 2 ^ 15 + bank * 1024 + byte') (show 0 < 256 by decide)
  have hmix : mixed (rowPiece v gc bank row byte) = mixed (rowPiece v gc bank row' byte') := by omega
  have hpiece := mixed_inj ((rowPiece_lt hgc hbank hrow hbyte).trans (by decide))
    ((rowPiece_lt hgc hbank hrow' hbyte').trans (by decide)) hmix
  rw [rowPiece, rowPiece] at hpiece
  have hdiv := Nat.eq_of_mul_eq_mul_right (Nat.zero_lt_of_lt hgc) (Nat.add_right_cancel hpiece)
  omega

end

/-! ### The parity row of a group (R197, R199) -/

theorem rawByte_putByte {s : State} {fa : Nat} (b : Byte) (h : fa < hostFrames) (a : Nat) :
    rawByte (putByte s fa b) a = if a = fa then b else rawByte s a := by
  have hput : putByte s fa b = { s with mem := { s.mem with bytes := mapSet 0 s.mem.bytes fa b } } := if_pos h
  rw [hput]
  by_cases ha : a = fa
  · rw [if_pos ha, ha, rawByte_local _ _ h]
    exact mapGet_mapSet_self ..
  · rw [if_neg ha]
    exact rawByte_of_bytes (mapGet_mapSet_ne 0 s.mem.bytes fa a b ha) rfl rfl

theorem putByte_chafed (s : State) (fa : Nat) (b : Byte) : (putByte s fa b).mem.chafed = s.mem.chafed := by
  unfold putByte
  split
  · rfl
  · split <;> rfl

/-- Bytes of places written one after another, each place at an address of its own. -/
theorem foldl_putByte {A : Nat → Nat} {val : Nat → Byte} (cs : List Nat) (s : State) (hA : ∀ c ∈ cs, A c < hostFrames)
    (hinj : ∀ c ∈ cs, ∀ c' ∈ cs, A c = A c' → c = c') :
    let t := cs.foldl (fun u c => putByte u (A c) (val c)) s
    Keeps [.mem] s t ∧ (∀ c ∈ cs, rawByte t (A c) = val c) ∧ (∀ a : Nat, (∀ c ∈ cs, A c ≠ a) → rawByte t a = rawByte s a) ∧
      t.mem.chafed = s.mem.chafed := by
  induction cs generalizing s with
  | nil => exact ⟨Keeps.refl _ _, fun _ h => absurd h List.not_mem_nil, fun _ _ => rfl, rfl⟩
  | cons c cs ih =>
    obtain ⟨hkeep, hin, hout, hmarks⟩ := ih (putByte s (A c) (val c)) (fun d hd => hA d (List.mem_cons_of_mem _ hd))
      (fun d hd d' hd' => hinj d (List.mem_cons_of_mem _ hd) d' (List.mem_cons_of_mem _ hd'))
    have hc := hA c List.mem_cons_self
    refine ⟨(putByte_keeps ..).step hkeep rfl, fun d hd => ?_, fun a ha => ?_, hmarks.trans (putByte_chafed ..)⟩
    · by_cases hdc : d ∈ cs
      · exact hin d hdc
      · have hd : d = c := (List.mem_cons.1 hd).resolve_right hdc
        rw [hd] at hdc ⊢
        refine (hout (A c) (fun e he heq => hdc ?_)).trans ((rawByte_putByte _ hc _).trans (if_pos rfl))
        exact hinj e (List.mem_cons_of_mem _ he) c List.mem_cons_self heq ▸ he
    · exact (hout a (fun d hd => ha d (List.mem_cons_of_mem _ hd))).trans
        ((rawByte_putByte _ hc _).trans (if_neg (Ne.symm (ha c List.mem_cons_self))))

end Sys2Proof.Machine
end

section
/-! SUPPORT. The parity scrub of a RAW group, range by range, and the statement O51 (R197, R199). -/

set_option Elab.async false

namespace Sys2Proof.Machine

open Sys2Proof

/-- A group of rows of a RAW slab in one bank and its parity row (R197). -/
structure RawGroup where
  v : Variant
  chan : Nat
  bank : Nat
  slab : Nat
  group : Nat
  par : Nat

namespace RawGroup

/-- The address of a byte of a data row. -/
def data (G : RawGroup) (r c : Nat) : Nat := rowAddr G.v G.chan G.bank (128 * G.slab + 16 * G.group + r) c

/-- The address of a byte of the parity row. -/
def parity (G : RawGroup) (c : Nat) : Nat := rowAddr G.v G.chan G.bank G.par c

/-- XOR of a column's data bytes. -/
def xors (G : RawGroup) (s : State) (c : Nat) : Byte := (List.range 16).foldl (fun x r => x ^^^ rawByte s (G.data r c)) 0

/-- A 32 B range of the parity row differs from the data rows. -/
def differs (G : RawGroup) (s : State) (j : Nat) : Bool :=
  (List.range 32).any (fun i => G.xors s (32 * j + i) != rawByte s (G.parity (32 * j + i)))

/-- The columns of a range. -/
def cols (j : Nat) : List Nat := (List.range 32).map (fun i => 32 * j + i)

/-- A data granule of a range found chafed in every row. -/
def mark (G : RawGroup) (s : State) (j : Nat) : State :=
  (List.range 16).foldl (fun u r => chafeAt u (blockNo (G.data r (32 * j))) (G.data r (32 * j))) s

/-- What the scrub does with one range. -/
def scrub (G : RawGroup) (s : State) (j : Nat) : State :=
  if (cols j).any (fun c => groupByte s G.chan G.bank G.slab G.group c != rawByte s (G.parity c)) then
    G.mark (countUe ((cols j).foldl (fun u c => putByte u (G.parity c) (groupByte s G.chan G.bank G.slab G.group c)) s)
      (4 + G.chan / 96)) j
  else s

/-- The group's rows are rows of a fitted bank, and the parity row is none of the data rows. -/
structure Fits (G : RawGroup) : Prop where
  chan : G.chan < nchan G.v
  bank : G.bank < 32
  slab : G.slab < 256
  group : G.group < 8
  par : G.par < 2 ^ 15
  apart : ∀ r : Nat, r < 16 → 128 * G.slab + 16 * G.group + r ≠ G.par

theorem mem_cols {j c : Nat} : c ∈ cols j ↔ 32 * j ≤ c ∧ c < 32 * j + 32 := by
  simp only [cols, List.mem_map, List.mem_range]
  constructor
  · rintro ⟨i, hi, rfl⟩
    omega
  · rintro ⟨hlo, hhi⟩
    exact ⟨c - 32 * j, by omega, by omega⟩

theorem groupByte_eq {G : RawGroup} {s : State} (hv : s.fuses.variant = G.v) (c : Nat) :
    groupByte s G.chan G.bank G.slab G.group c = G.xors s c := by
  rw [groupByte, hv]
  rfl

theorem xors_congr {G : RawGroup} {s t : State} {c : Nat} (h : ∀ r : Nat, r < 16 → rawByte t (G.data r c) = rawByte s (G.data r c)) :
    G.xors t c = G.xors s c :=
  List.foldl_ext _ _ _ (fun x r hr => by rw [h r (List.mem_range.1 hr)])

theorem cols_differ {G : RawGroup} {s : State} (hv : s.fuses.variant = G.v) (j : Nat) :
    (cols j).any (fun c => groupByte s G.chan G.bank G.slab G.group c != rawByte s (G.parity c)) = G.differs s j := by
  rw [cols, List.any_map, differs]
  exact congrArg (List.any (List.range 32)) (funext fun i => congrArg (fun b : Byte => b != rawByte s (G.parity (32 * j + i))) (groupByte_eq hv _))

/-! ### The marks of a range -/

theorem foldl_chafeAt (A : Nat → Nat) (rs : List Nat) (s : State) :
    let t := rs.foldl (fun u r => chafeAt u (blockNo (A r)) (A r)) s
    Keeps [.regs, .port, .lines, .mem, .tiers, .net, .pmu] s t ∧ SameBytes s t ∧ (∀ g ∈ s.mem.chafed, g ∈ t.mem.chafed) ∧
      ∀ r ∈ rs, granChafed t (A r) = true := by
  induction rs generalizing s with
  | nil => exact ⟨Keeps.refl _ _, fun _ => rfl, fun _ h => h, fun _ h => absurd h List.not_mem_nil⟩
  | cons r rs ih =>
    obtain ⟨hkeep, hbytes, hmarks, hin⟩ := ih (chafeAt s (blockNo (A r)) (A r))
    refine ⟨(chafeAt_keeps ..).step hkeep rfl, fun a => (hbytes a).trans (chafeAt_sameBytes s _ _ a),
      fun g hg => hmarks g ((mem_chafeAt ..).2 (Or.inr hg)), fun q hq => ?_⟩
    rcases List.mem_cons.1 hq with rfl | hq
    · simpa [granChafed] using hmarks _ ((mem_chafeAt s (blockNo (A q)) (A q) _).2 (Or.inl rfl))
    · exact hin q hq

/-- The granules of a range marked: no byte changes and no mark goes. -/
theorem mark_marks (G : RawGroup) (s : State) (j : Nat) :
    Keeps [.regs, .port, .lines, .mem, .tiers, .net, .pmu] s (G.mark s j) ∧ SameBytes s (G.mark s j) ∧
      (∀ g ∈ s.mem.chafed, g ∈ (G.mark s j).mem.chafed) ∧ ∀ r ∈ List.range 16, granChafed (G.mark s j) (G.data r (32 * j)) = true := by
  unfold mark
  exact foldl_chafeAt (fun r => G.data r (32 * j)) (List.range 16) s

section
variable {G : RawGroup} (hG : G.Fits)
include hG

theorem Fits.row {r : Nat} (hr : r < 16) : 128 * G.slab + 16 * G.group + r < 2 ^ 15 := by
  have hslab := hG.slab
  have hgroup := hG.group
  omega

theorem Fits.parity_local {c : Nat} (hc : c < 1024) : G.parity c < hostFrames := rowAddr_lt hG.chan hG.bank hG.par hc

theorem Fits.parity_inj {c d : Nat} (hc : c < 1024) (hd : d < 1024) (he : G.parity c = G.parity d) : c = d :=
  (rowAddr_inj hG.chan hG.bank hG.par hc hG.par hd he).2

theorem Fits.parity_ne_data {r c d : Nat} (hr : r < 16) (hc : c < 1024) (hd : d < 1024) : G.parity d ≠ G.data r c :=
  fun he => hG.apart r hr (rowAddr_inj hG.chan hG.bank hG.par hd (hG.row hr) hc he).1.symm

/-- A range that differs: its parity bytes are rewritten, its granules are marked and UE counts one. -/
theorem scrub_differs {s : State} {j : Nat} (hv : s.fuses.variant = G.v) (hj : j < 32) (hd : G.differs s j = true) :
    Keeps [.regs, .port, .lines, .mem, .tiers, .stackSt, .net, .pmu] s (G.scrub s j) ∧
    (∀ c ∈ cols j, rawByte (G.scrub s j) (G.parity c) = G.xors s c) ∧
    (∀ a : Nat, (∀ c ∈ cols j, G.parity c ≠ a) → rawByte (G.scrub s j) a = rawByte s a) ∧
    (∀ g ∈ s.mem.chafed, g ∈ (G.scrub s j).mem.chafed) ∧
    (∀ r : Nat, r < 16 → granChafed (G.scrub s j) (G.data r (32 * j)) = true) ∧
    (stackGet (G.scrub s j) (4 + G.chan / 96)).ue = satAdd 4095 (stackGet s (4 + G.chan / 96)).ue 1 := by
  let s1 := (cols j).foldl (fun u c => putByte u (G.parity c) (groupByte s G.chan G.bank G.slab G.group c)) s
  let s2 := countUe s1 (4 + G.chan / 96)
  have hrun : G.scrub s j = G.mark s2 j := by rw [scrub, cols_differ hv j, hd, if_pos rfl]
  have hcol {c : Nat} (hc : c ∈ cols j) : c < 1024 := by rw [mem_cols] at hc; omega
  obtain ⟨hkeep1, hin1, hout1, hmarks1⟩ := foldl_putByte (A := G.parity)
    (val := fun c => groupByte s G.chan G.bank G.slab G.group c) (cols j) s (fun c hc => hG.parity_local (hcol hc))
    (fun c hc d hd => hG.parity_inj (hcol hc) (hcol hd))
  have hkeep2 : Keeps [.regs, .port, .stackSt, .pmu] s1 s2 := countUe_keeps ..
  obtain ⟨hkeep3, hbytes3, hmarks3, hin3⟩ := mark_marks G s2 j
  have hbytes (a : Nat) : rawByte (G.mark s2 j) a = rawByte s1 a := (hbytes3 a).trans (hkeep2.sameBytes rfl rfl a)
  rw [hrun]
  refine ⟨((hkeep1.mono rfl).step hkeep2 rfl).step hkeep3 rfl, fun c hc => ?_, fun a ha => (hbytes a).trans (hout1 a ha),
    fun g hg => hmarks3 g ?_, fun r hr => ?_, ?_⟩
  · exact (hbytes _).trans ((hin1 c hc).trans (groupByte_eq hv c))
  · rw [hkeep2.same .mem rfl, hmarks1]
    exact hg
  · rw [hin3 r (List.mem_range.2 hr)]
  · have h3 : stackGet (G.mark s2 j) (4 + G.chan / 96) = stackGet s2 (4 + G.chan / 96) := by
      rw [stackGet, hkeep3.same .stackSt rfl]
      rfl
    have h1 : stackGet s1 (4 + G.chan / 96) = stackGet s (4 + G.chan / 96) := by
      rw [stackGet, hkeep1.same .stackSt rfl]
      rfl
    rw [h3, countUe_stack, stackGet_stackSet_self, h1]

end

/-! ### The ranges one after another -/

/-- What the scrub has done after its first `k` ranges. -/
structure Scrubbed (G : RawGroup) (s t : State) (k : Nat) : Prop where
  keeps : Keeps [.regs, .port, .lines, .mem, .tiers, .stackSt, .net, .pmu] s t
  parity : ∀ c : Nat, c < 32 * k → rawByte t (G.parity c) = G.xors s c
  others : ∀ a : Nat, (∀ c : Nat, c < 32 * k → G.parity c ≠ a) → rawByte t a = rawByte s a
  marked : ∀ j : Nat, j < k → G.differs s j = true → ∀ r : Nat, r < 16 → granChafed t (G.data r (32 * j)) = true
  counted : (stackGet s (4 + G.chan / 96)).ue ≤ 4095 →
    (stackGet t (4 + G.chan / 96)).ue = min 4095 ((stackGet s (4 + G.chan / 96)).ue + ((List.range k).filter (G.differs s)).length)
  same : (∀ j : Nat, j < k → G.differs s j = false) → t = s

theorem Scrubbed.refl (G : RawGroup) (s : State) : Scrubbed G s s 0 where
  keeps := Keeps.refl _ _
  parity c hc := by omega
  others _ _ := rfl
  marked j hj := by omega
  counted h := by simpa using h
  same _ := rfl

section
variable {G : RawGroup} (hG : G.Fits) {s t : State} {k : Nat}
include hG

/-- The scrub leaves the data rows. -/
theorem Scrubbed.xors (h : Scrubbed G s t k) (hk : k ≤ 32) {c : Nat} (hc : c < 1024) : G.xors t c = G.xors s c :=
  xors_congr (fun r hr => h.others _ (fun d hd => hG.parity_ne_data hr hc (by omega)))

/-- The scrub leaves the ranges that it has not reached. -/
theorem Scrubbed.differs (h : Scrubbed G s t k) (hk : k < 32) : G.differs t k = G.differs s k := by
  rw [Bool.eq_iff_iff, RawGroup.differs, RawGroup.differs, List.any_eq_true, List.any_eq_true]
  refine exists_congr (fun i => and_congr_right (fun hmem => ?_))
  have hi := List.mem_range.1 hmem
  rw [h.xors hG (by omega) (by omega), h.others _ (fun c hc he => ?_)]
  have := hG.parity_inj (by omega) (by omega) he
  omega

theorem Scrubbed.step (h : Scrubbed G s t k) (hv : s.fuses.variant = G.v) (hk : k < 32) : Scrubbed G s (G.scrub t k) (k + 1) := by
  have hvt : t.fuses.variant = G.v := by rw [h.keeps.same .fuses rfl]; exact hv
  have hsame := h.differs hG hk
  cases hd : G.differs s k with
  | false =>
    have hrun : G.scrub t k = t := by rw [scrub, cols_differ hvt, hsame, hd, if_neg Bool.false_ne_true]
    rw [hrun]
    refine ⟨h.keeps, fun c hc => ?_, fun a ha => h.others a (fun c hc => ha c (by omega)), fun j hj hdj => ?_, fun hue => ?_,
      fun hno => h.same (fun j hj => hno j (by omega))⟩
    · by_cases hck : c < 32 * k
      · exact h.parity c hck
      · -- a range that agrees already holds the XOR
        have hagree : (G.xors s c != rawByte s (G.parity c)) = false := by
          have hall := List.any_eq_false.1 hd (c - 32 * k) (List.mem_range.2 (by omega))
          rw [show 32 * k + (c - 32 * k) = c by omega] at hall
          simpa using hall
        rw [h.others _ (fun d hd he => ?_)]
        · exact (by simpa using hagree : G.xors s c = _).symm
        · have := hG.parity_inj (by omega) (by omega) he
          omega
    · have hne : j ≠ k := fun he => by rw [he, hd] at hdj; cases hdj
      exact h.marked j (by omega) hdj
    · rw [h.counted hue, List.range_succ, List.filter_append, List.filter_cons_of_neg (by simp [hd]), List.filter_nil, List.append_nil]
  | true =>
    obtain ⟨hkeep, hin, hout, hmarks, hmark, hcount⟩ := scrub_differs hG hvt hk (hsame.trans hd)
    refine ⟨h.keeps.step hkeep rfl, fun c hc => ?_, fun a ha => ?_, fun j hj hdj r hr => ?_, fun hue => ?_, fun hno => ?_⟩
    · by_cases hck : c < 32 * k
      · rw [hout _ (fun d hd he => ?_)]
        · exact h.parity c hck
        · rw [mem_cols] at hd
          have := hG.parity_inj (by omega) (by omega) he
          omega
      · rw [hin c (mem_cols.2 (by omega))]
        exact h.xors hG (by omega) (by omega)
    · rw [hout a (fun c hc => ha c (by rw [mem_cols] at hc; omega))]
      exact h.others a (fun c hc => ha c (by omega))
    · by_cases hjk : j = k
      · rw [hjk, hmark r hr]
      · have hold := h.marked j (by omega) hdj r hr
        simpa [granChafed] using hmarks _ (by simpa [granChafed] using hold)
    · rw [hcount, h.counted hue, List.range_succ, List.filter_append, List.filter_cons_of_pos hd, List.filter_nil, List.length_append,
        List.length_singleton, satAdd]
      omega
    · exact absurd (hno k (by omega)) (by rw [hd]; decide)

theorem scrubbed (hv : s.fuses.variant = G.v) (hk : k ≤ 32) : Scrubbed G s ((List.range k).foldl G.scrub s) k := by
  induction k with
  | zero => exact Scrubbed.refl G s
  | succ k ih =>
    rw [List.range_succ, List.foldl_append]
    exact (ih (by omega)).step hG hv (by omega)

end

end RawGroup

/-- The scrub of a RAW group in an idle bank. -/
theorem rawParityScrub_answers {s : State} {slot : Fin 16} {chan : BitVec 10} {bank : BankNo} {group : Fin 8} :
    let gc := chan.toNat
    let v := s.fuses.variant
    let slab := actF s flRawSlab slot.val
    let row (r : Nat) := 128 * slab + 16 * group.val + r
    let par := 128 * actF s flRawParSlab 0 + 8 * slot.val + group.val
    let xors (i : Nat) : Byte := (List.range 16).foldl (fun x r => x ^^^ rawByte s (rowAddr v gc bank.val (row r) i)) 0
    let differs (j : Nat) : Bool :=
      (List.range 32).any (fun i => xors (32 * j + i) != rawByte s (rowAddr v gc bank.val par (32 * j + i)))
    actF s flRawValid slot.val = 1 → gc < nchan v → groupStale (bankGet s (bk gc bank.val)) (slot.val, group.val) = false →
    (bankGet s (bk gc bank.val)).atom = none → (refreshGet s (rk (4 + gc / 96) (gc % 96) bank.val)).hold = false →
    slab ≠ actF s flRawParSlab 0 →
    Answers (.rawParityScrub slot chan bank group) s (fun t =>
      ((∀ j : Nat, j < 32 → differs j = false) → t = s) ∧
      (∀ i : Nat, i < 1024 → rawByte t (rowAddr v gc bank.val par i) = xors i) ∧
      (∀ a : Nat, (∀ i : Nat, i < 1024 → rowAddr v gc bank.val par i ≠ a) → rawByte t a = rawByte s a) ∧
      (∀ j : Nat, j < 32 → differs j = true → ∀ r : Nat, r < 16 → granChafed t (rowAddr v gc bank.val (row r) (32 * j)) = true) ∧
      ((stackGet s (4 + gc / 96)).ue ≤ 4095 → (stackGet t (4 + gc / 96)).ue =
        min 4095 ((stackGet s (4 + gc / 96)).ue + ((List.range 32).filter differs).length)) ∧
      OnlyIn [.regs, .port, .lines, .mem, .tiers, .eng, .stackSt, .net, .pmu] s t) := by
  intro gc v slab row par xors differs hvalid hgc hstale hatom hhold hslab
  let G : RawGroup := ⟨v, gc, bank.val, slab, group.val, par⟩
  have hfits : G.Fits := by
    have hslabLt : slab < 2 ^ 8 := Fld.get_lt flRawSlab s.cfg.act slot.val
    have hparLt : actF s flRawParSlab 0 < 2 ^ 8 := Fld.get_lt flRawParSlab s.cfg.act 0
    have hpar : G.par = 128 * actF s flRawParSlab 0 + 8 * slot.val + group.val := rfl
    have hslot := slot.isLt
    have hgroup := group.isLt
    refine ⟨hgc, bank.isLt, hslabLt, hgroup, by omega, fun r hr he => hslab ?_⟩
    change 128 * slab + 16 * group.val + r = _ at he
    omega
  have hrun : exec (.rawParityScrub slot chan bank group) s = .next ((List.range 32).foldl G.scrub s) := by
    have hgo : (actF s flRawValid slot.val != 1 || nchan v ≤ gc || groupStale (bankGet s (bk gc bank.val)) (slot.val, group.val)) = false := by
      simp [hvalid, hstale, Nat.not_le.2 hgc]
    have hidle : ((bankGet s (bk gc bank.val)).atom.isSome || (refreshGet s (rk (4 + gc / 96) (gc % 96) bank.val)).hold) = false := by
      simp [hatom, hhold]
    refine (if_neg (by rw [hgo]; decide)).trans ((if_neg (by rw [hidle]; decide)).trans ?_)
    rfl
  obtain ⟨hkeep, hparity, hothers, hmarked, hcounted, hsame⟩ := RawGroup.scrubbed (k := 32) hfits (s := s) rfl (Nat.le_refl 32)
  exact ⟨_, hrun, hsame, hparity, hothers, hmarked, hcounted, (hkeep.mono rfl).only⟩

/-- Settles O51, clause by clause: the patrol scrub, the parity scrub, the refreshes and the timeout of a repair. -/
theorem scrubRefreshAndRepairTimeout : Obligations.ScrubRefreshAndRepairTimeout := fun _ =>
  ⟨fun _ _ _ _ hat hfree => ⟨scrubRead_clean hat hfree,
      fun _ _ hkern hn hst hclean _ => scrubRead_beat hat hfree hkern hn hst hclean, fun err _ => scrubRead_passes hat hfree err⟩,
    fun _ _ _ _ => rawParityScrub_answers, fun _ _ _ => ⟨refreshDue_answers, refresh_answers⟩, fun _ _ => repairTimeout_answers⟩

end Sys2Proof.Machine
end

section
/-! SUPPORT. A CLEAR for a collective that keeps a link-local frame for its sender (O58, R328, R339). -/

set_option Elab.async false

namespace Sys2Proof.Machine

open Sys2Proof

/-- Device 0's CLEAR, on axis 0, of collective 0; it is the next frame of the link and its route ends here, at device 1. -/
def clearFrame : Frame :=
  sealFrame { typ := ftCollCtl, tc := 2, vc := 0, plen := 0, hdim := 0, slow := false, draining := false, maint := false,
              src := 0, dst := 1, lseq := 1, ack := 0, tag := 0, addr := 0, aux := 1, crc := 0, payload := [] }

/-- A TUG for device 0, a frame of the kind that no replay buffer takes. -/
def keptTug : Frame := { clearFrame with typ := ftTug, tc := 0, src := 1, dst := 0, lseq := 0, aux := 0 }

/-- An ALL_REDUCE in flight, number 0 of axis 0, that keeps the TUG until device 0 clears it. -/
def clearedOp : OpEnt :=
  { opNew 0 0 1 (BitVec.ofNat 512 opCapColl) 0 with
    dispatched := true, coll := { Coll.reset with nums := [(0, 0)], txWait := [keptTug] } }

/-- Line 0 holds the collective; link 0, of port 0, is UP and leads to device 0. -/
def clearedState : State :=
  let s1 := linkSet (lineSet State.reset 0 { Line.reset with ops := [clearedOp] }) 0 { Link.reset with state := .up }
  { s1 with cfg := { s1.cfg with
      act := cwSet (cwSet (cwSet s1.cfg.act (flUnitEn.off 0) 0x7F) (flLinkEn.off 0) 0x10) 0x1010000 0xE00 } }

/-- The queue and the replay buffer of link 0 after an outcome. -/
def linkHolds : Out → List Frame × List Frame
  | .next t => ((linkGet t 0).txQueue, (linkGet t 0).replay)
  | _ => ([clearFrame], [])

/-- The TUG goes onto the wire at once, and neither the queue nor the replay buffer keeps it. -/
theorem clear_sends_tug : linkHolds (exec (.collClear 0 clearFrame) clearedState) = ([], []) := by decide +kernel

/-- The TUG leaves by link 0. -/
theorem keptTug_leaves : leavesBy (heard clearedState 0 clearFrame) keptTug 0 keptTug := ⟨0, by decide +kernel, by decide +kernel⟩

/-- Refutes O58: every kept frame that a CLEAR lets flow is to stand in a queue or a replay buffer. A state may keep a link-local
frame for the sender, and such a frame goes onto the wire with no copy in the replay buffer (R325, R328). -/
theorem not_sequencedFrames : ¬ Obligations.SequencedFrames := by
  intro h
  obtain ⟨-, hordered, -⟩ := h 0 clearFrame clearedState
  obtain ⟨-, -, -, -, -, -, -, hcolls, -⟩ := hordered (by decide +kernel)
  obtain ⟨-, hclear, -⟩ := hcolls 0 clearedOp (by decide +kernel)
  obtain ⟨t, ht, -, hgo, -⟩ := hclear (by decide +kernel) (by decide +kernel)
  have hrun := clear_sends_tug
  rw [ht] at hrun
  obtain ⟨hqueue, hreplay⟩ := Prod.mk.inj hrun
  rcases hgo keptTug (by decide +kernel) 0 keptTug keptTug_leaves with hq | ⟨sent, n, a, -, -, hr⟩
  · exact List.not_mem_nil (hqueue ▸ hq)
  · exact List.not_mem_nil (hreplay ▸ hr)

end Sys2Proof.Machine
end

section
/-! SUPPORT. The symbol code of the mantle and the scrub read of a granule with one or two wrong symbols (O52, R192, R193, R195). -/

set_option Elab.async false

namespace Sys2Proof.Machine

open Sys2Proof

/-! ### Maps of symbols that keep XOR -/

/-- A map of symbols, seen as vectors of bits, is linear. -/
def KeepsXor (f : BitVec 16 → BitVec 16) : Prop := ∀ a b : BitVec 16, f (a ^^^ b) = f a ^^^ f b

theorem KeepsXor.comp {f g : BitVec 16 → BitVec 16} (hf : KeepsXor f) (hg : KeepsXor g) : KeepsXor (fun a => f (g a)) :=
  fun a b => (congrArg f (hg a b)).trans (hf ..)

theorem KeepsXor.xor {f g : BitVec 16 → BitVec 16} (hf : KeepsXor f) (hg : KeepsXor g) : KeepsXor (fun a => f a ^^^ g a) :=
  fun a b => by simp only [hf a b, hg a b]; ac_rfl

theorem KeepsXor.id : KeepsXor (fun a => a) := fun _ _ => rfl

theorem KeepsXor.zero {f : BitVec 16 → BitVec 16} (hf : KeepsXor f) : f 0 = 0 := by
  have h := hf 0 0
  rwa [BitVec.xor_self, BitVec.xor_self] at h

/-- Linear maps that agree on every single bit are equal. -/
theorem KeepsXor.ext {f g : BitVec 16 → BitVec 16} (hf : KeepsXor f) (hg : KeepsXor g)
    (h : ∀ i < 16, f (BitVec.twoPow 16 i) = g (BitVec.twoPow 16 i)) (a : BitVec 16) : f a = g a := by
  -- symbols whose bits from `n` on are clear
  have hlow (n : Nat) (hn : n ≤ 16) : ∀ a : BitVec 16, (∀ i, n ≤ i → a.getLsbD i = false) → f a = g a := by
    induction n with
    | zero =>
      intro a ha
      have hzero : a = 0 := BitVec.eq_of_getLsbD_eq fun i _ => by simp [ha i (Nat.zero_le i)]
      rw [hzero, hf.zero, hg.zero]
    | succ n ih =>
      intro a ha
      cases hbit : a.getLsbD n with
      | false => exact ih (by omega) a (fun i hi => (Nat.eq_or_lt_of_le hi).elim (fun he => he ▸ hbit) (ha i))
      | true =>
        let b := a ^^^ BitVec.twoPow 16 n
        have hb : f b = g b := ih (by omega) b (fun i hi => by
          rcases Nat.eq_or_lt_of_le hi with rfl | hlt
          · simp [b, hbit, show n < 16 by omega]
          · simp [b, ha i hlt, Nat.ne_of_lt hlt])
        have hab : a = b ^^^ BitVec.twoPow 16 n := by rw [BitVec.xor_assoc, BitVec.xor_self, BitVec.xor_zero]
        rw [hab, hf, hg, hb, h n (by omega)]
  exact hlow 16 (Nat.le_refl 16) a (fun i hi => BitVec.getLsbD_of_ge a i hi)

/-! ### Powers of α (R192) -/

theorem xor_xor_cancel (a b c : BitVec 16) : (a ^^^ c) ^^^ (b ^^^ c) = a ^^^ b := by
  rw [BitVec.xor_comm b c, BitVec.xor_assoc, ← BitVec.xor_assoc c c, BitVec.xor_self, BitVec.zero_xor]

theorem xor_swap {a b c d : BitVec 16} (h : a ^^^ b = c ^^^ d) : a ^^^ c = b ^^^ d := by
  rw [← xor_xor_cancel a c b, h, BitVec.xor_comm c d, BitVec.xor_comm c b, xor_xor_cancel, BitVec.xor_comm]

theorem gfDouble_keepsXor : KeepsXor gfDouble := by
  intro a b
  have hbit : (a ^^^ b).getLsbD 15 = Bool.xor (a.getLsbD 15) (b.getLsbD 15) := BitVec.getLsbD_xor
  simp only [gfDouble, hbit, BitVec.shiftLeft_xor_distrib]
  cases a.getLsbD 15 <;> cases b.getLsbD 15 <;> simp only [Bool.xor_false, Bool.xor_true, Bool.not_true, Bool.not_false,
    Bool.false_eq_true, if_true, if_false]
  · ac_rfl
  · ac_rfl
  · exact (xor_xor_cancel ..).symm

theorem gfShift_eq_iterate (n : Nat) : gfShift n = gfDouble^[n] := by
  induction n with
  | zero => rfl
  | succ n ih =>
    funext a
    rw [gfShift, ih, Function.iterate_succ_apply]

theorem gfShift_keepsXor (n : Nat) : KeepsXor (gfShift n) := by
  induction n with
  | zero => exact fun _ _ => rfl
  | succ n ih => exact ih.comp gfDouble_keepsXor

theorem gfShift_add (m n : Nat) (a : BitVec 16) : gfShift (m + n) a = gfShift m (gfShift n a) := by
  simp only [gfShift_eq_iterate, Function.iterate_add_apply]

theorem gfShift_comm (m n : Nat) (a : BitVec 16) : gfShift m (gfShift n a) = gfShift n (gfShift m a) := by
  rw [← gfShift_add, Nat.add_comm, gfShift_add]

/-- The product of a polynomial in x, given by its coefficients, with a symbol. -/
def gfMul (q a : BitVec 16) : BitVec 16 := (List.range 16).foldr (fun i z => gfDouble z ^^^ (if q.getLsbD i then a else 0)) 0

theorem gfMul_keepsXor (q : BitVec 16) : KeepsXor (gfMul q) := by
  unfold gfMul
  induction List.range 16 with
  | nil => exact fun _ _ => BitVec.xor_self.symm
  | cons i is ih =>
    refine (gfDouble_keepsXor.comp ih).xor (fun a b => ?_)
    cases q.getLsbD i
    · exact BitVec.xor_self.symm
    · rfl

/-- The inverses of x + 1, x^2 + 1, …, x^19 + 1 in the field. -/
def gfCofactors : List (BitVec 16) :=
  [0xF006, 0x5002, 0x26DA, 0xB004, 0x952C, 0x6F3F, 0xC50D, 0xFBBD, 0x949F, 0x91A1,
   0xE2BC, 0xC272, 0xBDB4, 0x25A0, 0x04CA, 0x078C, 0xEECF, 0xC4AF, 0xE4B2]

theorem gfMul_cofactor {k : Nat} (hk : k < 19) (a : BitVec 16) :
    gfMul (gfCofactors.getD k 0) (gfShift (k + 1) a ^^^ a) = a := by
  have hbits : ∀ k < 19, ∀ i < 16, gfMul (gfCofactors.getD k 0)
      (gfShift (k + 1) (BitVec.twoPow 16 i) ^^^ BitVec.twoPow 16 i) = BitVec.twoPow 16 i := by decide +kernel
  exact KeepsXor.ext (f := fun a => gfMul (gfCofactors.getD k 0) (gfShift (k + 1) a ^^^ a)) (g := fun a => a)
    ((gfMul_keepsXor _).comp ((gfShift_keepsXor (k + 1)).xor .id)) .id (hbits k hk) a

/-- 0x8805 is the inverse of x. -/
theorem gfMul_gfDouble (a : BitVec 16) : gfMul 0x8805 (gfDouble a) = a :=
  KeepsXor.ext (f := fun a => gfMul 0x8805 (gfDouble a)) (g := fun a => a) ((gfMul_keepsXor _).comp gfDouble_keepsXor) .id
    (by decide +kernel) a

theorem gfShift_injective (n : Nat) : Function.Injective (gfShift n) := by
  rw [gfShift_eq_iterate]
  exact Function.Injective.iterate (Function.LeftInverse.injective gfMul_gfDouble) n

/-- A symbol other than 0 times different powers of α below 20 gives different symbols. -/
theorem gfShift_exponent {p q : Nat} (hp : p < 20) (hq : q < 20) {a : BitVec 16} (ha : a ≠ 0) (h : gfShift p a = gfShift q a) :
    p = q := by
  wlog hlt : p < q generalizing p q
  · rcases Nat.eq_or_lt_of_le (Nat.not_lt.1 hlt) with he | hgt
    · exact he.symm
    · exact (this hq hp h.symm hgt).symm
  obtain ⟨k, rfl⟩ : ∃ k, q = p + (k + 1) := ⟨q - p - 1, by omega⟩
  rw [gfShift_add] at h
  have hsame : gfShift (k + 1) a ^^^ a = 0 := by rw [← gfShift_injective p h]; exact BitVec.xor_self
  have hzero := gfMul_cofactor (show k < 19 by omega) a
  rw [hsame, (gfMul_keepsXor _).zero] at hzero
  exact absurd hzero.symm ha

/-! ### Syndromes (R192) -/

theorem symPower_lt {i : Nat} (hi : i < 20) : symPower i < 20 := by
  unfold symPower
  split <;> omega

theorem symPower_inj {i j : Nat} (hi : i < 20) (hj : j < 20) (h : symPower i = symPower j) : i = j := by
  unfold symPower at h
  split at h <;> split at h <;> omega

/-- Syndrome `j` of errors, by symbol. -/
def syndrome (e : List (Nat × BitVec 16)) (j : Nat) : BitVec 16 := e.foldl (fun a p => a ^^^ gfShift (j * symPower p.1) p.2) 0

/-- The syndromes are those of one wrong symbol, `i`. -/
def pointsAt (e : List (Nat × BitVec 16)) (i : Nat) : Bool :=
  syndrome e 0 != 0 && syndrome e 1 = gfShift (symPower i) (syndrome e 0) && syndrome e 2 = gfShift (symPower i) (syndrome e 1)

theorem pointsAt_iff {e : List (Nat × BitVec 16)} {i : Nat} : pointsAt e i = true ↔ syndrome e 0 ≠ 0 ∧
    syndrome e 1 = gfShift (symPower i) (syndrome e 0) ∧ syndrome e 2 = gfShift (symPower i) (syndrome e 1) := by
  simp [pointsAt, and_assoc]

/-- The decode, by whether an error shows and where its syndromes point. -/
theorem rsDecode_eq (e : List (Nat × BitVec 16)) : rsDecode e =
    if syndrome e 0 = 0 && syndrome e 1 = 0 && syndrome e 2 = 0 then .clean e
    else match (List.range 20).find? (pointsAt e) with
      | some i =>
        let old := (e.filter (fun p => p.1 = i)).foldl (fun a p => a ^^^ p.2) 0
        .fixed (e.filter (fun p => p.1 != i) ++ (if old = syndrome e 0 then [] else [(i, old ^^^ syndrome e 0)]))
      | none => .bad := rfl

theorem syndrome_single (i : Nat) (x : BitVec 16) (j : Nat) : syndrome [(i, x)] j = gfShift (j * symPower i) x :=
  BitVec.zero_xor

theorem syndrome_pair (p q : Nat) (x y : BitVec 16) (j : Nat) :
    syndrome [(p, x), (q, y)] j = gfShift (j * symPower p) x ^^^ gfShift (j * symPower q) y := by
  simp [syndrome]

theorem gfShift_twice (p : Nat) (x : BitVec 16) : gfShift (2 * p) x = gfShift p (gfShift p x) := by
  rw [Nat.two_mul, gfShift_add]

/-- One wrong symbol is corrected. -/
theorem rsDecode_single {i : Nat} (hi : i < 20) {x : BitVec 16} (hx : x ≠ 0) : rsDecode [(i, x)] = .fixed [] := by
  have h0 : syndrome [(i, x)] 0 = x := by rw [syndrome_single, Nat.zero_mul, gfShift]
  have h1 : syndrome [(i, x)] 1 = gfShift (symPower i) x := by rw [syndrome_single, Nat.one_mul]
  have h2 : syndrome [(i, x)] 2 = gfShift (symPower i) (gfShift (symPower i) x) := by rw [syndrome_single, gfShift_twice]
  have hpoints (k : Nat) (hk : k < 20) : pointsAt [(i, x)] k = true ↔ k = i := by
    rw [pointsAt_iff, h0, h1, h2]
    constructor
    · rintro ⟨-, hk1, -⟩
      exact (symPower_inj hi hk (gfShift_exponent (symPower_lt hi) (symPower_lt hk) hx hk1)).symm
    · rintro rfl
      exact ⟨hx, rfl, rfl⟩
  have hfind : (List.range 20).find? (pointsAt [(i, x)]) = some i := by
    refine List.find?_range_eq_some.2 ⟨(hpoints i hi).2 rfl, List.mem_range.2 hi, fun j hj => ?_⟩
    have hne := mt (hpoints j (by omega)).1 (Nat.ne_of_lt hj)
    simpa using hne
  have hshown : (syndrome [(i, x)] 0 = 0 && syndrome [(i, x)] 1 = 0 && syndrome [(i, x)] 2 = 0) = false := by
    rw [Bool.and_assoc, Bool.and_eq_false_iff, h0]
    exact Or.inl (by simpa using hx)
  rw [rsDecode_eq, hshown, hfind, h0]
  simp

/-- No one symbol has the syndromes of two wrong ones. -/
theorem pair_points_nowhere {p q r : Nat} (hp : p < 20) (hq : q < 20) (hr : r < 20) (hne : p ≠ q) {x y : BitVec 16} (hx : x ≠ 0)
    (hy : y ≠ 0) (h1 : gfShift p x ^^^ gfShift q y = gfShift r (x ^^^ y))
    (h2 : gfShift p (gfShift p x) ^^^ gfShift q (gfShift q y) = gfShift r (gfShift p x ^^^ gfShift q y)) : False := by
  -- what moves one error to the place `r` moves the other alike
  have hmove : gfShift p x ^^^ gfShift r x = gfShift q y ^^^ gfShift r y := by
    rw [gfShift_keepsXor r] at h1
    exact xor_swap h1
  have hagain : gfShift p (gfShift p x ^^^ gfShift r x) = gfShift q (gfShift q y ^^^ gfShift r y) := by
    rw [gfShift_keepsXor r, gfShift_comm r p, gfShift_comm r q] at h2
    rw [gfShift_keepsXor p, gfShift_keepsXor q]
    exact xor_swap h2
  have hstay : gfShift p x ^^^ gfShift r x = 0 := by_contra fun hz => hne (gfShift_exponent hp hq hz (hagain.trans (by rw [hmove])))
  have hpr : p = r := gfShift_exponent hp hr hx (BitVec.xor_eq_zero_iff.1 hstay)
  have hqr : q = r := gfShift_exponent hq hr hy (BitVec.xor_eq_zero_iff.1 (hmove.symm.trans hstay))
  exact hne (hpr.trans hqr.symm)

/-- Two wrong symbols are detected. -/
theorem rsDecode_pair {p q : Nat} (hp : p < 20) (hq : q < 20) (hne : p ≠ q) {x y : BitVec 16} (hx : x ≠ 0) (hy : y ≠ 0) :
    rsDecode [(p, x), (q, y)] = .bad := by
  have h0 : syndrome [(p, x), (q, y)] 0 = x ^^^ y := by rw [syndrome_pair, Nat.zero_mul, Nat.zero_mul, gfShift, gfShift]
  have h1 : syndrome [(p, x), (q, y)] 1 = gfShift (symPower p) x ^^^ gfShift (symPower q) y := by
    rw [syndrome_pair, Nat.one_mul, Nat.one_mul]
  have h2 : syndrome [(p, x), (q, y)] 2 =
      gfShift (symPower p) (gfShift (symPower p) x) ^^^ gfShift (symPower q) (gfShift (symPower q) y) := by
    rw [syndrome_pair, gfShift_twice, gfShift_twice]
  have hpow : symPower p ≠ symPower q := mt (symPower_inj hp hq) hne
  have hseen : (syndrome [(p, x), (q, y)] 0 = 0 && syndrome [(p, x), (q, y)] 1 = 0 && syndrome [(p, x), (q, y)] 2 = 0) = false := by
    rw [Bool.and_eq_false_iff, ← Bool.not_eq_true, Bool.and_eq_true, decide_eq_true_eq, decide_eq_true_eq, h0, h1]
    refine Or.inl (fun ⟨hz0, hz1⟩ => hpow ?_)
    obtain rfl : x = y := BitVec.xor_eq_zero_iff.1 hz0
    exact gfShift_exponent (symPower_lt hp) (symPower_lt hq) hx (BitVec.xor_eq_zero_iff.1 hz1)
  have hfind : (List.range 20).find? (pointsAt [(p, x), (q, y)]) = none := by
    refine List.find?_eq_none.2 (fun r hr hpt => ?_)
    obtain ⟨-, hr1, hr2⟩ := pointsAt_iff.1 hpt
    rw [h0, h1] at hr1
    rw [h1, h2] at hr2
    exact pair_points_nowhere (symPower_lt hp) (symPower_lt hq) (symPower_lt (List.mem_range.1 hr)) hpow hx hy hr1 hr2
  rw [rsDecode_eq, hseen, hfind]
  rfl

/-! ### The errors of a granule by symbol -/

/-- The error of symbol `k`. -/
def symError (e : List (Fin 20 × BitVec 16)) (k : Nat) : BitVec 16 := (e.filter (fun p => p.1.val = k)).foldl (fun a p => a ^^^ p.2) 0

/-- The entry of symbol `k` among the errors, if it has one. -/
def symEntry (e : List (Fin 20 × BitVec 16)) (k : Nat) : Option (Nat × BitVec 16) :=
  if symError e k = 0 then none else some (k, symError e k)

theorem symErrors_eq (e : List (Fin 20 × BitVec 16)) : symErrors e = (List.range 20).filterMap (symEntry e) := rfl

theorem symEntry_zero {e : List (Fin 20 × BitVec 16)} {k : Nat} (h : symError e k = 0) : symEntry e k = none := if_pos h

theorem symEntry_wrong {e : List (Fin 20 × BitVec 16)} {k : Nat} {x : BitVec 16} (h : symError e k = x) (hx : x ≠ 0) :
    symEntry e k = some (k, x) := by
  subst h
  exact if_neg hx

theorem filterMap_eq_singleton {B : Type} {f : Nat → Option B} {l : List Nat} {i : Nat} {b : B} (hl : l.Nodup) (hi : i ∈ l)
    (hb : f i = some b) (hnone : ∀ k ∈ l, k ≠ i → f k = none) : l.filterMap f = [b] := by
  obtain ⟨l1, l2, rfl⟩ := List.append_of_mem hi
  obtain ⟨-, hl2, hdis⟩ := List.nodup_append.1 hl
  have h1 : l1.filterMap f = [] := List.filterMap_eq_nil_iff.2 (fun k hk =>
    hnone k (List.mem_append_left _ hk) (hdis k hk i List.mem_cons_self))
  have h2 : l2.filterMap f = [] := List.filterMap_eq_nil_iff.2 (fun k hk =>
    hnone k (List.mem_append_right _ (List.mem_cons_of_mem _ hk)) (fun he => (List.nodup_cons.1 hl2).1 (he ▸ hk)))
  rw [List.filterMap_append, List.filterMap_cons_some hb, h1, h2]
  rfl

theorem filterMap_eq_pair {B : Type} {f : Nat → Option B} {l : List Nat} {i j : Nat} {b c : B} (hl : l.Nodup) (hi : i ∈ l)
    (hj : j ∈ l) (hij : i ≠ j) (hb : f i = some b) (hc : f j = some c) (hnone : ∀ k ∈ l, k ≠ i → k ≠ j → f k = none) :
    l.filterMap f = [b, c] ∨ l.filterMap f = [c, b] := by
  obtain ⟨l1, l2, rfl⟩ := List.append_of_mem hi
  obtain ⟨hl1, hl2, hdis⟩ := List.nodup_append.1 hl
  obtain ⟨hi2, hl2⟩ := List.nodup_cons.1 hl2
  have hne1 (k : Nat) (hk : k ∈ l1) : k ≠ i := hdis k hk i List.mem_cons_self
  have hne2 (k : Nat) (hk : k ∈ l2) : k ≠ i := fun he => hi2 (he ▸ hk)
  have hsub1 (k : Nat) (hk : k ∈ l1) : k ≠ j → f k = none := hnone k (List.mem_append_left _ hk) (hne1 k hk)
  have hsub2 (k : Nat) (hk : k ∈ l2) : k ≠ j → f k = none :=
    hnone k (List.mem_append_right _ (List.mem_cons_of_mem _ hk)) (hne2 k hk)
  rw [List.filterMap_append, List.filterMap_cons_some hb]
  rcases List.mem_append.1 hj with hj1 | hj2
  · have h2 : l2.filterMap f = [] := List.filterMap_eq_nil_iff.2 (fun k hk =>
      hsub2 k hk (fun he => hdis j hj1 j (List.mem_cons_of_mem _ (he ▸ hk)) rfl))
    rw [filterMap_eq_singleton hl1 hj1 hc hsub1, h2]
    exact Or.inr rfl
  · have hj2 : j ∈ l2 := (List.mem_cons.1 hj2).resolve_left (Ne.symm hij)
    have h1 : l1.filterMap f = [] := List.filterMap_eq_nil_iff.2 (fun k hk =>
      hsub1 k hk (hdis k hk j (List.mem_cons_of_mem _ hj2)))
    rw [filterMap_eq_singleton hl2 hj2 hc hsub2, h1]
    exact Or.inl rfl

theorem symErrors_single (i : Fin 20) {x : BitVec 16} (hx : x ≠ 0) : symErrors [(i, x)] = [(i.val, x)] := by
  rw [symErrors_eq]
  refine filterMap_eq_singleton List.nodup_range (List.mem_range.2 i.isLt) (symEntry_wrong ?_ hx) (fun k _ hk => symEntry_zero ?_)
  · simp [symError]
  · simp [symError, Ne.symm hk]

theorem symErrors_pair {i j : Fin 20} (hij : i ≠ j) {x y : BitVec 16} (hx : x ≠ 0) (hy : y ≠ 0) :
    symErrors [(i, x), (j, y)] = [(i.val, x), (j.val, y)] ∨ symErrors [(i, x), (j, y)] = [(j.val, y), (i.val, x)] := by
  have hval : i.val ≠ j.val := Fin.val_ne_of_ne hij
  rw [symErrors_eq]
  refine filterMap_eq_pair List.nodup_range (List.mem_range.2 i.isLt) (List.mem_range.2 j.isLt) hval (symEntry_wrong ?_ hx)
    (symEntry_wrong ?_ hy) (fun k _ hki hkj => symEntry_zero ?_)
  · simp [symError, Ne.symm hval]
  · simp [symError, hval]
  · simp [symError, Ne.symm hki, Ne.symm hkj]

/-! ### The scrub read (R193, R195) -/

theorem stackGet_congr {s t : State} (h : t.stackSt = s.stackSt) (k : Nat) : stackGet t k = stackGet s k := by
  rw [stackGet, stackGet, h]

theorem countCe_stack (s : State) (st k : Nat) : stackGet (countCe s st) k =
    stackGet (stackSet s st { stackGet s st with ce := satAdd 65535 (stackGet s st).ce 1 }) k := by
  unfold countCe
  dsimp only
  split
  · exact stackGet_congr ((pmuAdd_keeps ..).same .stackSt rfl) k
  · rfl

/-- A decode that leaves no bit wrong changes nothing. -/
theorem leftWrong_nil (s : State) (fa : Nat) : leftWrong s fa [] = s :=
  if_pos (Bool.xor_false _).symm

section
variable {s : State} {fa : Nat} (hmantle : mantleBase ≤ fa) (hraw : rawSlotOf s.cfg.act s.fuses.variant fa = none)
include hmantle hraw

/-- Outside RAW data slabs an error that the code corrects counts in CE. -/
theorem meetError_fixed {e : List (Fin 20 × BitVec 16)} {w : List (Nat × BitVec 16)} (h : rsDecode (symErrors e) = .fixed w) :
    meetError s fa (.symbols e) = leftWrong (countCe s ((stackOf s.fuses.variant fa).getD 0)) fa w := by
  simp [meetError, h, hraw, Nat.not_lt.2 hmantle]

/-- Outside RAW data slabs an error that the code detects makes the granule uncorrectable. -/
theorem meetError_bad {e : List (Fin 20 × BitVec 16)} (h : rsDecode (symErrors e) = .bad) :
    meetError s fa (.symbols e) = ueFoundAt s fa := by
  simp [meetError, h, hraw, Nat.not_lt.2 hmantle]

theorem meetError_oneSymbol {st : Nat} (hst : stackOf s.fuses.variant fa = some st) (i : Fin 20) {x : BitVec 16} (hx : x ≠ 0) :
    meetError s fa (.symbols [(i, x)]) = countCe s st := by
  have hfixed : rsDecode (symErrors [(i, x)]) = .fixed [] := by rw [symErrors_single i hx, rsDecode_single i.isLt hx]
  rw [meetError_fixed hmantle hraw hfixed, hst, leftWrong_nil]
  rfl

theorem meetError_twoSymbols {i j : Fin 20} (hij : i ≠ j) {x y : BitVec 16} (hx : x ≠ 0) (hy : y ≠ 0) :
    meetError s fa (.symbols [(i, x), (j, y)]) = ueFoundAt s fa := by
  have hval : i.val ≠ j.val := Fin.val_ne_of_ne hij
  refine meetError_bad hmantle hraw ?_
  rcases symErrors_pair hij hx hy with he | he
  · rw [he, rsDecode_pair i.isLt j.isLt hval hx hy]
  · rw [he, rsDecode_pair j.isLt i.isLt hval.symm hy hx]

end

/-- A scrub read leaves the state that the error met left, but for the count of passes. -/
theorem scrubRead_leaves {s : State} {stack : Stack} {chan : BitVec 7} {granule : BitVec 25} {fa : Nat}
    (hat : granAt s.fuses.variant stack chan.toNat granule.toNat = some fa) (hfree : accessHeld s fa false = false) (err : EccErr) :
    Answers (.scrubRead stack chan granule err) s (Keeps [.eng] (meetError s fa err)) := by
  refine ⟨_, scrubRead_eq hat hfree err, ?_⟩
  split
  · exact Keeps.upd (Keeps.refl _ _)
  · exact Keeps.refl _ _

/-- Settles O52: the code points at the one wrong symbol, and at none when two are wrong. -/
theorem symbolCodeCorrectsOnePin : Obligations.SymbolCodeCorrectsOnePin := by
  intro stack chan granule fa st i j x y s hat hfree hmantle hst hraw hclean hx
  constructor
  · obtain ⟨t, hrun, hleft⟩ := scrubRead_leaves hat hfree (.symbols [(i, x)])
    rw [meetError_oneSymbol hmantle hraw hst i hx] at hleft
    have hstack (k : Nat) : stackGet t k = stackGet (countCe s st) k := stackGet_congr (hleft.same .stackSt rfl) k
    have hcount := countCe_keeps s st
    refine ⟨t, hrun, (hleft.same .mem rfl).trans (hcount.same .mem rfl), ?_, fun k hk => ?_, ((hcount.mono rfl).step hleft rfl).only⟩
    · rw [hstack, countCe_stack, stackGet_stackSet_self]
    · rw [hstack, countCe_stack, stackGet_stackSet_ne _ _ _ _ hk]
  · intro hij hy
    obtain ⟨t, hrun, hleft⟩ := scrubRead_leaves hat hfree (.symbols [(i, x), (j, y)])
    rw [meetError_twoSymbols hmantle hraw hij hx hy] at hleft
    have hstack (k : Nat) : stackGet t k = stackGet (ueFoundAt s fa) k := stackGet_congr (hleft.same .stackSt rfl) k
    obtain ⟨hmarked, hcounted, hcause, hbytes⟩ := ueFoundAt_finds hst hclean
    refine ⟨t, hrun, fun a => (hleft.sameBytes rfl rfl a).trans (hbytes a), ?_, ?_, fun k hk => ?_, ?_,
      (((ueFoundAt_keeps s fa).mono rfl).step hleft rfl).only⟩
    · rw [granChafed, hleft.same .mem rfl]
      exact hmarked
    · rw [hstack, hcounted, countUe_stack, stackGet_stackSet_self]
    · rw [hstack, hcounted, countUe_stack, stackGet_stackSet_ne _ _ _ _ hk]
    · rw [hleft.same .regs rfl]
      exact hcause

end Sys2Proof.Machine
end

section
/-! SUPPORT. Rows written from the base die, atoms of a bank and the parity recompute (O49, R197, R218, R219, R220, R222, R224). -/

set_option Elab.async false

namespace Sys2Proof.Machine

open Sys2Proof

/-! ### Writes from the base die -/

theorem putBytes_stored (bs : List Byte) (s : State) (fa : Nat) (h : fa + bs.length ≤ hostFrames) :
    Stored s (putBytes s fa bs) fa bs := by
  induction bs generalizing s fa with
  | nil => exact ⟨fun i hi => absurd hi (Nat.not_lt_zero i), fun _ _ => rfl⟩
  | cons b bs ih =>
    rw [List.length_cons] at h
    have hbyte := rawByte_putByte (s := s) b (show fa < hostFrames by omega)
    obtain ⟨hin, hout⟩ := ih (putByte s fa b) (fa + 1) (by omega)
    refine ⟨fun i hi => ?_, fun a ha => ?_⟩
    · cases i with
      | zero => exact (hout fa (by omega)).trans ((hbyte fa).trans (if_pos rfl))
      | succ i =>
        have hlt : i < bs.length := by simpa using hi
        rw [show fa + (i + 1) = fa + 1 + i by omega]
        exact hin i hlt
    · rw [List.length_cons] at ha
      exact (hout a (by omega)).trans ((hbyte a).trans (if_neg (by omega)))

theorem granRuns_granule {fa : Nat} {bs : List Byte} (hlo : mantleBase ≤ fa) (hhi : fa < hostFrames) (ha : fa % 32 = 0)
    (hlen : bs.length = 32) : granRuns (bs.length + 1) fa bs = [(fa, bs)] := by
  have hne : bs.isEmpty = false := by rw [List.isEmpty_eq_false_iff_exists_mem]; exact List.exists_mem_of_length_pos (by omega)
  rw [granRuns, hne, granSize_mantle hlo hhi, ha, if_neg Bool.false_ne_true]
  dsimp only
  rw [List.take_of_length_le (by omega), List.drop_of_length_le (by omega), hlen]
  rfl

/-- A posted write of one granule of the mantle: the newest bytes are its bytes. -/
theorem postAt_granule {s : State} {fa : Nat} {bs : List Byte} (hlo : mantleBase ≤ fa) (hhi : fa + 32 ≤ hostFrames) (ha : fa % 32 = 0)
    (hlen : bs.length = 32) (line seq acct : Nat) (mark : Bool) : Stored s (postAt s line seq acct fa bs mark) fa bs := by
  have hput := putBytes_stored bs s fa (by omega)
  have hsame (a : Nat) : rawByte (postAt s line seq acct fa bs mark) a = rawByte (putBytes s fa bs) a := by
    rw [postAt, granRuns_granule hlo (by omega) ha hlen]
    exact rawByte_of_bytes rfl rfl rfl
  exact ⟨fun i hi => (hsame _).trans (hput.bytes i hi), fun a ha => (hsame a).trans (hput.others a ha)⟩

/-- The first `k` column ranges of a row written from the base die, range by range. -/
def postRow (line seq acct : Nat) (v : Variant) (gc bank row : Nat) (val : Nat → Byte) (s : State) (k : Nat) : State :=
  (List.range k).foldl (fun t j =>
    postAt t line seq acct (rowAddr v gc bank row (32 * j)) ((List.range 32).map (fun i => val (32 * j + i))) false) s

theorem postRow_keeps (line seq acct : Nat) (v : Variant) (gc bank row : Nat) (val : Nat → Byte) (s : State) (k : Nat) :
    Keeps [.mem] s (postRow line seq acct v gc bank row val s k) :=
  Keeps.foldl (Keeps.refl _ _) (fun _ _ h => h.step (postAt_keeps ..) rfl)

theorem rowAddr_mantle (v : Variant) (gc bank row byte : Nat) : mantleBase ≤ rowAddr v gc bank row byte := by
  rw [rowAddr_eq]
  omega

theorem rowAddr_range_aligned (v : Variant) (gc bank row j : Nat) : rowAddr v gc bank row (32 * j) % 32 = 0 := by
  have hbase : mantleBase = 2 ^ 38 := rfl
  rw [rowAddr_eq, hbase]
  omega

/-- The 32 bytes of a column range of a row lie one after another (R181, R186). -/
theorem rowAddr_range (v : Variant) (gc bank row j : Nat) {i : Nat} (hi : i < 32) :
    rowAddr v gc bank row (32 * j + i) = rowAddr v gc bank row (32 * j) + i := by
  have hpiece : rowPiece v gc bank row (32 * j + i) = rowPiece v gc bank row (32 * j) := by
    have hdiv : (row * 2 ^ 15 + bank * 1024 + (32 * j + i)) / 256 = (row * 2 ^ 15 + bank * 1024 + 32 * j) / 256 := by omega
    rw [rowPiece, rowPiece, hdiv]
  rw [rowAddr_eq, rowAddr_eq, hpiece]
  omega

/-- The bytes of a row's first `k` ranges are those written, and every other byte reads as before. -/
theorem postRow_stored {v : Variant} {gc bank row : Nat} (hgc : gc < nchan v) (hbank : bank < 32) (hrow : row < 2 ^ 15)
    (line seq acct : Nat) (val : Nat → Byte) (s : State) {k : Nat} (hk : k ≤ 32) :
    (∀ c : Nat, c < 32 * k → rawByte (postRow line seq acct v gc bank row val s k) (rowAddr v gc bank row c) = val c) ∧
    ∀ a : Nat, (∀ c : Nat, c < 32 * k → rowAddr v gc bank row c ≠ a) →
      rawByte (postRow line seq acct v gc bank row val s k) a = rawByte s a := by
  induction k with
  | zero => exact ⟨fun c hc => by omega, fun _ _ => rfl⟩
  | succ k ih =>
    obtain ⟨hin, hout⟩ := ih (by omega)
    let t := postRow line seq acct v gc bank row val s k
    let bs := (List.range 32).map (fun i => val (32 * k + i))
    have hlen : bs.length = 32 := by simp [bs]
    have hlast := rowAddr_lt hgc hbank hrow (show 32 * k + 31 < 1024 by omega)
    rw [rowAddr_range v gc bank row k (by decide)] at hlast
    have hpost : Stored t (postAt t line seq acct (rowAddr v gc bank row (32 * k)) bs false) (rowAddr v gc bank row (32 * k)) bs :=
      postAt_granule (rowAddr_mantle ..) (by omega) (rowAddr_range_aligned ..) hlen line seq acct false
    have hrun : postRow line seq acct v gc bank row val s (k + 1) =
        postAt t line seq acct (rowAddr v gc bank row (32 * k)) bs false := by
      rw [postRow, List.range_succ (n := k), List.foldl_append]
      rfl
    rw [hrun]
    refine ⟨fun c hc => ?_, fun a ha => ?_⟩
    · by_cases hck : c < 32 * k
      · refine (hpost.others _ (fun ⟨hge, hlt⟩ => ?_)).trans (hin c hck)
        -- a byte of the range written last is another byte of the row
        obtain ⟨i, hi⟩ := Nat.exists_eq_add_of_le hge
        have hi32 : i < 32 := by omega
        rw [← rowAddr_range v gc bank row k hi32] at hi
        have := (rowAddr_inj hgc hbank hrow (by omega) hrow (by omega) hi).2
        omega
      · obtain ⟨i, rfl⟩ := Nat.exists_eq_add_of_le (Nat.not_lt.1 hck)
        have hi : i < 32 := by omega
        rw [rowAddr_range v gc bank row k hi, hpost.bytes i (by omega)]
        simp [bs, hi]
    · refine (hpost.others a (fun ⟨hge, hlt⟩ => ?_)).trans (hout a (fun c hc => ha c (by omega)))
      obtain ⟨i, rfl⟩ := Nat.exists_eq_add_of_le hge
      rw [hlen] at hlt
      exact ha (32 * k + i) (by omega) (rowAddr_range v gc bank row k (by omega))

/-! ### One bank -/

/-- A bank set, with what may come before and after leaving the banks. -/
theorem bankGet_of_bankSet {s u t : State} {k : Nat} {b : Bank} (hu : u.eng.banks = s.eng.banks)
    (ht : t.eng.banks = (bankSet u k b).eng.banks) : bankGet t k = b ∧ ∀ j : Nat, j ≠ k → bankGet t j = bankGet s j := by
  have hbank (j : Nat) : bankGet t j = bankGet (bankSet u k b) j := congrArg (fun m => mapGet Bank.reset m j) ht
  refine ⟨(hbank k).trans (bankGet_bankSet_self ..), fun j hj => (hbank j).trans ((bankGet_bankSet_ne _ _ _ _ hj).trans ?_)⟩
  exact congrArg (fun m => mapGet Bank.reset m j) hu

/-- With every sequence that may run in a bank among its runs, none joins. -/
theorem joinRuns_eq_self {s : State} {gc bank : Nat}
    (h : ∀ p ∈ allOps s, mayRun gc bank p.2 = true → ∃ r ∈ (bankGet s (bk gc bank)).runs, r.line = p.1 ∧ r.seq = p.2.seq) :
    joinRuns s gc bank = s := by
  have hnone : (allOps s).filter (fun p => mayRun gc bank p.2 &&
      !((bankGet s (bk gc bank)).runs.any (fun r => r.line = p.1 && r.seq = p.2.seq))) = [] := by
    refine List.filter_eq_nil_iff.2 (fun p hp hjoins => ?_)
    obtain ⟨hmay, hnew⟩ := Bool.and_eq_true_iff.1 hjoins
    obtain ⟨r, hr, hline, hseq⟩ := h p hp hmay
    have hin : (bankGet s (bk gc bank)).runs.any (fun r => r.line = p.1 && r.seq = p.2.seq) = true :=
      List.any_eq_true.2 ⟨r, hr, by simp [hline, hseq]⟩
    rw [hin] at hnew
    cases hnew
  unfold joinRuns
  dsimp only
  rw [hnone]
  rfl

/-- The bank after an atom's end with its latch spilled, its run at the back and the spill counted (R219). -/
def yielded (s : State) (gc k : Nat) (b : Bank) (r : BankRun) (rest : List BankRun) : State :=
  let s2 := bankSet s k { b with
    atom := none, heldAccesses := 0, runs := rest ++ [{ r with spilled := true, spillRow := r.latch, spillMarks := r.marks }] }
  { s2 with eng := { s2.eng with spills := mapMod 0 s2.eng.spills (gc / 96) (fun x => satAdd 65535 x 1) } }

section
variable {s : State} {chan : BitVec 10} {bank : BankNo} {b : Bank} (hb : bankGet s (bk chan.toNat bank.val) = b)
include hb

/-! ### Atoms (R218, R219, R220, R224) -/

section
variable {r : BankRun} {rest : List BankRun} {o : OpEnt} (hruns : b.runs = r :: rest)
include hruns

/-- A run that ends leaves its bank, and its groups wait for their parity. -/
theorem endRun_bank (hatom : b.atom = some (r.line, r.seq, 0)) :
    (endRun s (bk chan.toNat bank.val) r).eng.banks = (bankSet s (bk chan.toNat bank.val) { b with
      atom := none, runs := rest.filter (fun x => !(x.line = r.line && x.seq = r.seq)),
      parity := b.parity ++ r.written.map (fun g => (g / 8, g % 8, r.line, r.seq)) }).eng.banks := by
  have hgone : (r :: rest).filter (fun x => !(x.line = r.line && x.seq = r.seq)) =
      rest.filter (fun x => !(x.line = r.line && x.seq = r.seq)) := List.filter_cons_of_neg (by simp)
  have hended : (some (r.line, r.seq, 0)).filter (fun a : Nat × Nat × Nat => !(a.1 = r.line && a.2.1 = r.seq)) = none := by simp
  unfold endRun
  dsimp only
  rw [hb, hruns, hatom, hgone, hended]
  split <;> rfl

section
variable (ho : opFind s r.line r.seq = some o)
include ho

section
variable (hjoined : joinRuns s chan.toNat bank.val = s) (htrack : o.track ≠ .cancelPending) (hstop : r.stopped = false)
  (hpc : r.pc < rsProgLen o.desc)
include hjoined htrack hstop hpc

theorem atomStart_starts (hgc : chan.toNat < nchan s.fuses.variant) (hidle : b.atom = none) (hquiet : quiet s unRow = false)
    (hatoms : atomsOf s chan.toNat < 8) (hbusy : bankBusy s chan.toNat bank.val (freshRun r) = false)
    (hturn : ∀ x : Nat, bankTurn s chan.toNat = some x → x = bank.val) :
    Answers (.atomStart chan bank) s (fun t =>
      bankGet t (bk chan.toNat bank.val) =
        { b with runs := restored r :: rest, atom := some (r.line, r.seq, min 24 (rsProgLen o.desc - r.pc)) } ∧
      (∀ j : Nat, j ≠ bk chan.toNat bank.val → bankGet t j = bankGet s j) ∧ OnlyIn [.eng] s t) := by
  have hopen : (nchan s.fuses.variant ≤ chan.toNat || b.atom.isSome || quiet s unRow) = false := by
    simp [hidle, hquiet, Nat.not_le.2 hgc]
  have hlive : (o.track = .cancelPending || r.stopped || r.pc = rsProgLen o.desc) = false := by
    simp [htrack, hstop, Nat.ne_of_lt hpc]
  have hmine : (bankTurn s chan.toNat).any (fun x => x != bank.val) = false := by
    cases hx : bankTurn s chan.toNat with
    | none => rfl
    | some x => simp [hturn x hx]
  have hfree : (8 ≤ atomsOf s chan.toNat || bankBusy s chan.toNat bank.val (freshRun r) ||
      (bankTurn s chan.toNat).any (fun x => x != bank.val)) = false := by
    simp [hmine, hbusy, Nat.not_le.2 hatoms]
  let b1 : Bank := { b with runs := restored r :: rest, atom := some (r.line, r.seq, min 24 (rsProgLen o.desc - r.pc)) }
  let s2 := bankSet s (bk chan.toNat bank.val) b1
  let t : State := { s2 with eng := { s2.eng with atomTurn := mapSet 0 s2.eng.atomTurn chan.toNat ((bank.val + 1) % 32) } }
  have hrun : exec (.atomStart chan bank) s = .next t := by
    simp only [exec, execAtomStart, hjoined, hb, hruns, ho, hopen, hlive, hfree, Bool.false_eq_true, if_false]
    rfl
  have hkeep : Keeps [.eng] s t := Keeps.upd (bankSet_keeps ..)
  obtain ⟨hself, hothers⟩ := bankGet_of_bankSet (s := s) (u := s) (t := t) (k := bk chan.toNat bank.val) (b := b1) rfl rfl
  exact ⟨t, hrun, hself, hothers, hkeep.only⟩

theorem atomEnd_run {n q : Nat} (hatom : b.atom = some (n, q, 0)) : exec (.atomEnd chan bank) s = .next (
    if 0 < (refreshGet s (rk (4 + chan.toNat / 96) (chan.toNat % 96) bank.val)).owed || 0 < b.heldAccesses ||
        bankAwaited s (bk chan.toNat bank.val) || 1 < b.runs.length then
      pmuAdd (yielded s chan.toNat (bk chan.toNat bank.val) b r rest) (0x0E0 + chan.toNat / 96) 1 attr0
    else bankSet s (bk chan.toNat bank.val) { b with atom := none }) := by
  have hlive : (r.stopped || r.pc = rsProgLen o.desc || o.track = .cancelPending) = false := by
    simp [htrack, hstop, Nat.ne_of_lt hpc]
  simp only [exec, execAtomEnd, hjoined, hb, hatom, hruns, ho, hlive, Bool.false_eq_true, if_false]
  split <;> rfl

theorem atomEnd_spills {n q : Nat} (hatom : b.atom = some (n, q, 0))
    (hyield : 0 < (refreshGet s (rk (4 + chan.toNat / 96) (chan.toNat % 96) bank.val)).owed ∨ 0 < b.heldAccesses ∨
      bankAwaited s (bk chan.toNat bank.val) = true ∨ rest ≠ []) :
    Answers (.atomEnd chan bank) s (fun t =>
      bankGet t (bk chan.toNat bank.val) = { b with
        atom := none, heldAccesses := 0, runs := rest ++ [{ r with spilled := true, spillRow := r.latch, spillMarks := r.marks }] } ∧
      (∀ j : Nat, j ≠ bk chan.toNat bank.val → bankGet t j = bankGet s j) ∧ OnlyIn [.regs, .port, .eng, .pmu] s t) := by
  have hrun := atomEnd_run hb hruns ho hjoined htrack hstop hpc hatom
  rw [if_pos (by simpa [hruns, List.length_pos_iff, or_assoc] using hyield)] at hrun
  have hyielded : Keeps [.eng] s (yielded s chan.toNat (bk chan.toNat bank.val) b r rest) := Keeps.upd (bankSet_keeps ..)
  have hcount := pmuAdd_keeps (yielded s chan.toNat (bk chan.toNat bank.val) b r rest) (0x0E0 + chan.toNat / 96) 1 attr0
  have heng := congrArg Engines.banks (hcount.same .eng rfl)
  exact ⟨_, hrun, and_assoc.1 ⟨bankGet_of_bankSet (u := s) rfl heng, ((hyielded.mono rfl).step hcount rfl).only⟩⟩

theorem atomEnd_stays {n q : Nat} (hatom : b.atom = some (n, q, 0))
    (howed : (refreshGet s (rk (4 + chan.toNat / 96) (chan.toNat % 96) bank.val)).owed = 0) (hheld : b.heldAccesses = 0)
    (hawaited : bankAwaited s (bk chan.toNat bank.val) = false) (hrest : rest = []) :
    Answers (.atomEnd chan bank) s (fun t =>
      bankGet t (bk chan.toNat bank.val) = { b with atom := none } ∧
      (∀ j : Nat, j ≠ bk chan.toNat bank.val → bankGet t j = bankGet s j) ∧ OnlyIn [.eng] s t) := by
  have hrun := atomEnd_run hb hruns ho hjoined htrack hstop hpc hatom
  rw [if_neg (by simp [howed, hheld, hawaited, hruns, hrest])] at hrun
  exact ⟨_, hrun, and_assoc.1 ⟨bankGet_of_bankSet rfl rfl, (bankSet_keeps ..).only⟩⟩

end

theorem atomEnd_ends (hatom : b.atom = some (r.line, r.seq, 0))
    (hend : r.stopped = true ∨ r.pc = rsProgLen o.desc ∨ o.track = .cancelPending) :
    Answers (.atomEnd chan bank) s (fun t =>
      bankGet t (bk chan.toNat bank.val) = { b with
        atom := none, heldAccesses := 0, runs := rest.filter (fun x => !(x.line = r.line && x.seq = r.seq)),
        parity := b.parity ++ r.written.map (fun g => (g / 8, g % 8, r.line, r.seq)) } ∧
      (∀ j : Nat, j ≠ bk chan.toNat bank.val → bankGet t j = bankGet s j) ∧ OnlyIn [.lines, .eng] s t) := by
  let u := endRun s (bk chan.toNat bank.val) r
  have hover : (r.stopped || r.pc = rsProgLen o.desc || o.track = .cancelPending) = true := by simpa [or_assoc] using hend
  have hrun : exec (.atomEnd chan bank) s = .next (bankSet u (bk chan.toNat bank.val)
      { bankGet u (bk chan.toNat bank.val) with heldAccesses := 0 }) := by
    simp only [exec, execAtomEnd, hb, hatom, hruns, ho, hover, if_true]
    rfl
  obtain ⟨hself, hothers⟩ := bankGet_of_bankSet (u := s) rfl (endRun_bank hb hruns hatom)
  refine ⟨_, hrun, ?_, fun j hj => ?_, ((endRun_keeps ..).step (bankSet_keeps ..) rfl).only⟩
  · rw [bankGet_bankSet_self, hself]
  · rw [bankGet_bankSet_ne _ _ _ _ hj, hothers j hj]

end

end

/-! ### The parity recompute (R197, R222) -/

/-- The recompute writes the parity row; then the bank drops the group and its operation counts it. -/
theorem parityRecompute_run {slot g n q : Nat} {rest : List (Nat × Nat × Nat × Nat)} (hpar : b.parity = (slot, g, n, q) :: rest) :
    Answers (.parityRecompute chan bank) s (Keeps [.lines] (bankSet
      (postRow n q (lineAcct s n) s.fuses.variant chan.toNat bank.val (parityRow s slot g)
        (groupByte s chan.toNat bank.val (actF s flRawSlab slot) g) s 32)
      (bk chan.toNat bank.val) { b with parity := rest })) := by
  simp only [Answers, exec, execParityRecompute, hb, hpar]
  split
  · exact ⟨_, rfl, Keeps.refl _ _⟩
  · exact ⟨_, rfl, opSet_keeps ..⟩

theorem parityRecompute_answers {slot g n q : Nat} {rest : List (Nat × Nat × Nat × Nat)} (hgc : chan.toNat < nchan s.fuses.variant)
    (hpar : b.parity = (slot, g, n, q) :: rest) (hrow : parityRow s slot g < 2 ^ 15) :
    Answers (.parityRecompute chan bank) s (fun t =>
      (∀ i : Nat, i < 1024 → rawByte t (rowAddr s.fuses.variant chan.toNat bank.val (parityRow s slot g) i) =
        groupByte s chan.toNat bank.val (actF s flRawSlab slot) g i) ∧
      (∀ f : Nat, (∀ i : Nat, i < 1024 → rowAddr s.fuses.variant chan.toNat bank.val (parityRow s slot g) i ≠ f) →
        rawByte t f = rawByte s f) ∧
      bankGet t (bk chan.toNat bank.val) = { b with parity := rest } ∧
      (∀ j : Nat, j ≠ bk chan.toNat bank.val → bankGet t j = bankGet s j) ∧ OnlyIn [.lines, .mem, .eng] s t) := by
  let val := groupByte s chan.toNat bank.val (actF s flRawSlab slot) g
  let s1 := postRow n q (lineAcct s n) s.fuses.variant chan.toNat bank.val (parityRow s slot g) val s 32
  let s2 := bankSet s1 (bk chan.toNat bank.val) { b with parity := rest }
  obtain ⟨t, hrun, hleft⟩ := parityRecompute_run hb hpar
  obtain ⟨hin, hout⟩ := postRow_stored hgc bank.isLt hrow n q (lineAcct s n) val s (Nat.le_refl 32)
  have hkeep1 : Keeps [.mem] s s1 := postRow_keeps ..
  have hkeep2 : Keeps [.eng] s1 s2 := bankSet_keeps ..
  have hbytes (a : Nat) : rawByte t a = rawByte s1 a := (hleft.sameBytes rfl rfl a).trans (hkeep2.sameBytes rfl rfl a)
  refine ⟨t, hrun, fun i hi => (hbytes _).trans (hin i hi), fun f hf => (hbytes f).trans (hout f hf), and_assoc.1
    ⟨bankGet_of_bankSet (congrArg Engines.banks (hkeep1.same .eng rfl)) (congrArg Engines.banks (hleft.same .eng rfl)), ?_⟩⟩
  exact (((hkeep1.mono rfl).step hkeep2 rfl).step hleft rfl).only

end

/-- Settles O49, clause by clause. -/
theorem atomsAndParity : Obligations.AtomsAndParity := by
  intro chan bank s gc k b owed hgc hjoined
  have hself : joinRuns s gc bank.val = s := joinRuns_eq_self hjoined
  refine ⟨fun r rest o hruns ho htrack hstop hpc => ⟨?_, fun n q hatom => ⟨?_, ?_⟩⟩, fun r rest o hruns hatom ho => ?_,
    fun slot g n q rest hpar => ?_⟩
  · exact atomStart_starts rfl hruns ho hself htrack hstop hpc hgc
  · exact atomEnd_spills rfl hruns ho hself htrack hstop hpc hatom
  · exact atomEnd_stays rfl hruns ho hself htrack hstop hpc hatom
  · exact atomEnd_ends rfl hruns ho hatom
  · exact parityRecompute_answers rfl hgc hpar

end Sys2Proof.Machine
end

section
/-! SUPPORT. The dispatch of ROW_SEQ, SPL_UPD, SPL_ACC and SNAPSHOT (O23, R216, R217, R234, R235, R250, R261, R262, R445). -/

set_option Elab.async false

namespace Sys2Proof.Machine

open Sys2Proof

/-- A dispatch whose reads are held waits: banks note the waiting accesses, and nothing else changes (R179, R220). -/
theorem answers_of_noteWaits {c : Instr} {s : State} {spans : List (Nat × Nat)} (hrun : exec c s = .next (noteWaits s spans false)) :
    Answers c s (fun t => SameBytes s t ∧ OnlyIn [.eng] s t) := by
  have hk := noteWaits_keeps s spans false
  exact ⟨_, hrun, hk.sameBytes rfl rfl, hk.only⟩

/-! ### ROW_SEQ -/

/-- The words of the program. -/
def rowSpans (o : OpEnt) : List (Nat × Nat) := [(rsProgAddr o.desc, 8 * rsProgLen o.desc)]

/-- The program as the dispatch reads it, and whether it reads chafed (R217). -/
def rowProg (s : State) (n : Nat) (o : OpEnt) : List Byte × Bool :=
  devRead s (some (lineAcct s n)) (rsProgAddr o.desc) (8 * rsProgLen o.desc)

/-- Some word of the program is malformed under a configuration in force (R217, R391). -/
def rowProgBad (s : State) (n : Nat) (o : OpEnt) : Bool :=
  (views s).any (fun v => !((List.range (rsProgLen o.desc)).all (fun i => rowWordOk v (lineAcct s n) (rowWord (rowProg s n o).1 i))))

/-- The state with the read of the program noted (R154, R155). -/
def rowRead (s : State) (n : Nat) (o : OpEnt) : State := noteAccess s (lineAcct s n) (spansBlocks (rowSpans o))

theorem rowRead_accessed (s : State) (n : Nat) (o : OpEnt) : Accessed s (rowRead s n o) := noteAccess_accessed ..

/-- The entry of a ROW_SEQ that is dispatched now: its program and the size of its set of banks. -/
def rowEntry (s : State) (n : Nat) (o : OpEnt) : OpEnt :=
  { opDispatch s o with prog := (rowProg s n o).1, total := setSize o.desc }

section
variable {s : State} {line : LineNo} {o : OpEnt} (h : dispatchable s line.toNat o opRowSeq = true)
include h

/-- The dispatch of a ROW_SEQ, outcome by outcome. -/
theorem rowSeq_eq : exec (.rowSeq line) s = .next (
    if readsHeld s (rowSpans o) then noteWaits s (rowSpans o) false
    else if (rowProg s line.toNat o).2 then rejectOp (rowRead s line.toNat o) line.toNat o stUncorrectable
    else if rowProgBad s line.toNat o then rejectOp (rowRead s line.toNat o) line.toNat o stDescInvalid
    else noteLine (opSet (rowRead s line.toNat o) line.toNat (rowEntry s line.toNat o)) line.toNat) :=
  onDispatch_run s line.toNat opRowSeq _ o h

theorem rowSeq_waits (hheld : readsHeld s (rowSpans o) = true) :
    Answers (.rowSeq line) s (fun t => SameBytes s t ∧ OnlyIn [.eng] s t) := by
  have hrun := rowSeq_eq h
  rw [if_pos hheld] at hrun
  exact answers_of_noteWaits hrun

variable (hheld : readsHeld s (rowSpans o) = false)
include hheld

theorem rowSeq_chafed (hch : (rowProg s line.toNat o).2 = true) (hrec : recordOpen s line.toNat = true) :
    Answers (.rowSeq line) s (fun t => Finished s t line.toNat o.seq stUncorrectable 0 s.belay.epoch o.desc []) := by
  have hrun := rowSeq_eq h
  rw [hheld, if_neg Bool.false_ne_true, if_pos hch] at hrun
  obtain ⟨-, -, -, htrack⟩ := dispatchable_iff _ _ _ _ h
  exact ⟨_, hrun, (rowRead_accessed s line.toNat o).rejects _ hrec htrack⟩

variable (hch : (rowProg s line.toNat o).2 = false)
include hch

theorem rowSeq_rejects (hbad : rowProgBad s line.toNat o = true) (hrec : recordOpen s line.toNat = true) :
    Answers (.rowSeq line) s (fun t => Finished s t line.toNat o.seq stDescInvalid 0 s.belay.epoch o.desc []) := by
  have hrun := rowSeq_eq h
  rw [hheld, hch, if_neg Bool.false_ne_true, if_neg Bool.false_ne_true, if_pos hbad] at hrun
  obtain ⟨-, -, -, htrack⟩ := dispatchable_iff _ _ _ _ h
  exact ⟨_, hrun, (rowRead_accessed s line.toNat o).rejects _ hrec htrack⟩

theorem rowSeq_enters (hgood : rowProgBad s line.toNat o = false) : Answers (.rowSeq line) s (fun t =>
    Entered s t line.toNat (rowEntry s line.toNat o) ∧ SameBytes s t ∧ OnlyIn [.port, .lines, .tiers, .pmu] s t) := by
  have hrun := rowSeq_eq h
  rw [hheld, hch, hgood, if_neg Bool.false_ne_true, if_neg Bool.false_ne_true, if_neg Bool.false_ne_true] at hrun
  obtain ⟨hu, -⟩ := dispatchable_iff _ _ _ _ h
  exact ⟨_, hrun, (rowRead_accessed s line.toNat o).enters hu rfl⟩

end

/-! ### SPL_UPD and SPL_ACC -/

/-- The parameter block as the dispatch reads it, and whether it reads chafed (R445). -/
def splPar (s : State) (n : Nat) (o : OpEnt) : List Byte × Bool := devRead s (some (lineAcct s n)) (spParam o.desc) 256

/-- The program block as the dispatch reads it, and whether it reads chafed (R445). -/
def splProg (s : State) (n : Nat) (o : OpEnt) : List Byte × Bool := devRead s (some (lineAcct s n)) (spProg o.desc) 128

/-- The operation is an SPL_UPD that names a step record (R250). -/
def splNamesRecord (s : State) (n : Nat) (upd : Bool) (o : OpEnt) : Bool := upd && spVerdict (splPar s n o).1 != 0

/-- What the dispatch reads: the two blocks and the step record. -/
def splSpans (s : State) (n : Nat) (upd : Bool) (o : OpEnt) : List (Nat × Nat) :=
  [(spParam o.desc, 256), (spProg o.desc, 128)] ++ (if splNamesRecord s n upd o then [(spVerdict (splPar s n o).1, 64)] else [])

/-- The state with the reads of the dispatch noted (R154, R155). -/
def splRead (s : State) (n : Nat) (upd : Bool) (o : OpEnt) : State :=
  noteAccess s (lineAcct s n) (spansBlocks (splSpans s n upd o))

theorem splRead_accessed (s : State) (n : Nat) (upd : Bool) (o : OpEnt) : Accessed s (splRead s n upd o) := noteAccess_accessed ..

/-- The first of rows 3 to 6 of R234 that fails under a configuration in force. -/
def splFault (s : State) (n : Nat) (upd : Bool) (o : OpEnt) : Option Nat :=
  (views (splRead s n upd o)).findSome? (fun v => splDispatchCheck v n o (splPar s n o).1 (splProg s n o).1)

/-- The step record as the dispatch reads it (R245). -/
def splRecord (s : State) (n : Nat) (upd : Bool) (o : OpEnt) : List Byte × Bool :=
  devRead (splRead s n upd o) (some (lineAcct s n)) (spVerdict (splPar s n o).1) 64

/-- An SPL_UPD whose account has an abort pending, or whose step record says skip (R235). -/
def splSkips (s : State) (n : Nat) (upd : Bool) (o : OpEnt) : Bool :=
  upd && (abortPending (splRead s n upd o) (lineAcct s n) ||
    (spVerdict (splPar s n o).1 != 0 && recSkip (splRecord s n upd o).1))

/-- The entry of an operation that is dispatched now: its blocks, the record's values in place of the parameters, and one unit
for each 64 elements (R250). -/
def splEntry (s : State) (n : Nat) (upd : Bool) (o : OpEnt) : OpEnt :=
  { opDispatch s o with
    par := if splNamesRecord s n upd o then withRecord (splPar s n o).1 (splRecord s n upd o).1 else (splPar s n o).1,
    prog := (splProg s n o).1, total := ceilDiv (spN o.desc) 64 }

/-- The dispatch of an operation that passes its checks: the step record and a pending abort decide (R178, R235). -/
def splStart (s : State) (n : Nat) (upd : Bool) (o : OpEnt) : State :=
  let u := splRead s n upd o
  if splNamesRecord s n upd o && (splRecord s n upd o).2 then rejectOp u n o stUncorrectable
  else if splSkips s n upd o then finishOp u n { opDispatch s o with flags := flagSkipped } stOkSkipped (splBytes (opDispatch s o))
  else noteLine (opSet u n (splEntry s n upd o)) n

/-- The dispatch that SPL_UPD and SPL_ACC share, outcome by outcome. -/
theorem dispatchSpl_eq {s : State} {n : Nat} {upd : Bool} {o : OpEnt} (hupd : upd = decide (opcodeOf o.desc = opSplUpd)) :
    dispatchSpl s n o =
      if readsHeld s (splSpans s n upd o) then noteWaits s (splSpans s n upd o) false
      else if (splPar s n o).2 || (splProg s n o).2 then rejectOp (splRead s n upd o) n o stUncorrectable
      else (splFault s n upd o).elim (splStart s n upd o) (rejectOp (splRead s n upd o) n o) := by
  subst hupd
  refine if_congr Iff.rfl rfl (if_congr Iff.rfl rfl ?_)
  split
  next st hfault =>
    rw [show splFault s n _ o = some st from hfault]
    rfl
  next hfault =>
    rw [show splFault s n _ o = none from hfault]
    rfl

section
variable {s : State} {line : LineNo} {upd : Bool} {o : OpEnt}
  (h : dispatchable s line.toNat o (if upd then opSplUpd else opSplAcc) = true)
include h

theorem exec_dispatchSpl : exec (if upd then .splUpd line else .splAcc line) s = .next (dispatchSpl s line.toNat o) := by
  cases upd with
  | false => exact onDispatch_run s line.toNat opSplAcc _ o h
  | true => exact onDispatch_run s line.toNat opSplUpd _ o h

theorem isUpd_of_dispatchable : upd = decide (opcodeOf o.desc = opSplUpd) := by
  obtain ⟨-, hopc, -⟩ := dispatchable_iff _ _ _ _ h
  rw [hopc]
  cases upd <;> rfl

theorem spl_waits (hheld : readsHeld s (splSpans s line.toNat upd o) = true) :
    Answers (if upd then .splUpd line else .splAcc line) s (fun t => SameBytes s t ∧ OnlyIn [.eng] s t) := by
  have hrun := exec_dispatchSpl h
  rw [dispatchSpl_eq (isUpd_of_dispatchable h), if_pos hheld] at hrun
  exact answers_of_noteWaits hrun

variable (hheld : readsHeld s (splSpans s line.toNat upd o) = false)
include hheld

theorem spl_chafed (hch : ((splPar s line.toNat o).2 || (splProg s line.toNat o).2) = true) (hrec : recordOpen s line.toNat = true) :
    Answers (if upd then .splUpd line else .splAcc line) s (fun t =>
      Finished s t line.toNat o.seq stUncorrectable 0 s.belay.epoch o.desc []) := by
  have hrun := exec_dispatchSpl h
  rw [dispatchSpl_eq (isUpd_of_dispatchable h), hheld, if_neg Bool.false_ne_true, if_pos hch] at hrun
  obtain ⟨-, -, -, htrack⟩ := dispatchable_iff _ _ _ _ h
  exact ⟨_, hrun, (splRead_accessed s line.toNat upd o).rejects _ hrec htrack⟩

variable (hch : ((splPar s line.toNat o).2 || (splProg s line.toNat o).2) = false) (hgood : splFault s line.toNat upd o = none)
  (hrecord : (splNamesRecord s line.toNat upd o && (splRecord s line.toNat upd o).2) = false)
include hch hgood hrecord

/-- With its blocks and its step record unchafed and its checks passed, the operation is skipped or starts. -/
theorem spl_starts : exec (if upd then .splUpd line else .splAcc line) s = .next (
    if splSkips s line.toNat upd o then
      finishOp (splRead s line.toNat upd o) line.toNat { opDispatch s o with flags := flagSkipped } stOkSkipped
        (splBytes (opDispatch s o))
    else noteLine (opSet (splRead s line.toNat upd o) line.toNat (splEntry s line.toNat upd o)) line.toNat) := by
  rw [exec_dispatchSpl h, dispatchSpl_eq (isUpd_of_dispatchable h), hheld, hch, hgood, if_neg Bool.false_ne_true,
    if_neg Bool.false_ne_true, Option.elim_none, splStart, hrecord, if_neg Bool.false_ne_true]

theorem spl_enters (hskip : splSkips s line.toNat upd o = false) : Answers (if upd then .splUpd line else .splAcc line) s (fun t =>
    Entered s t line.toNat (splEntry s line.toNat upd o) ∧ SameBytes s t ∧ OnlyIn [.port, .lines, .tiers, .pmu] s t) := by
  have hrun := spl_starts h hheld hch hgood hrecord
  rw [hskip, if_neg Bool.false_ne_true] at hrun
  obtain ⟨hu, -⟩ := dispatchable_iff _ _ _ _ h
  exact ⟨_, hrun, (splRead_accessed s line.toNat upd o).enters hu rfl⟩

theorem spl_skips (hskip : splSkips s line.toNat upd o = true) (hrec : recordOpen s line.toNat = true) :
    Answers (if upd then .splUpd line else .splAcc line) s (fun t =>
      Finished s t line.toNat o.seq stOkSkipped flagSkipped s.belay.epoch o.desc (splBytes (opDispatch s o))) := by
  have hrun := spl_starts h hheld hch hgood hrecord
  rw [if_pos hskip] at hrun
  obtain ⟨-, -, -, htrack⟩ := dispatchable_iff _ _ _ _ h
  exact ⟨_, hrun, (splRead_accessed s line.toNat upd o).finishes (o := { opDispatch s o with flags := flagSkipped }) _ hrec htrack
    (by decide)⟩

end

/-! ### SNAPSHOT -/

/-- The entry of a SNAPSHOT without a step record that is dispatched now: STEP 0, and its source blocks counted. -/
def snapEntry (s : State) (o : OpEnt) : OpEnt :=
  { opDispatch s o with par := List.replicate 8 0, total := (snBlocks s o.desc).length }

/-- The state with the source blocks of a SNAPSHOT held, as R261 asks. -/
def snapHeld (s : State) (n : Nat) (o : OpEnt) : State :=
  { s with tiers := { s.tiers with exportHold := s.tiers.exportHold ++ (snHolds s o.desc).map (fun b => (b, n, o.seq)) } }

theorem snapHeld_keeps (s : State) (n : Nat) (o : OpEnt) : Keeps [.tiers] s (snapHeld s n o) := Keeps.upd (Keeps.refl ..)

/-- A SNAPSHOT to the host without a step record, whose ranges pass, takes its holds and enters. -/
theorem snapshot_run {s : State} {line : LineNo} {o : OpEnt} (h : dispatchable s line.toNat o opSnapshot = true)
    (hok : (views s).any (fun v => !snDispatchOk v line.toNat o.desc) = false) (hrec : snRec o.desc = 0)
    (hhost : snPeer o.desc = false) :
    exec (.snapshot line) s = .next (noteLine (opSet (snapHeld s line.toNat o) line.toNat (snapEntry s o)) line.toNat) := by
  refine (onDispatch_run s line.toNat opSnapshot _ o h).trans (congrArg _ ?_)
  have hspans : snRecSpans o.desc = [] := if_pos hrec
  dsimp only
  rw [hok, hspans, if_pos hrec, hhost]
  rfl

theorem snapshot_enters {s : State} {line : LineNo} {o : OpEnt} (h : dispatchable s line.toNat o opSnapshot = true)
    (hok : (views s).any (fun v => !snDispatchOk v line.toNat o.desc) = false) (hrec : snRec o.desc = 0)
    (hhost : snPeer o.desc = false) : Answers (.snapshot line) s (fun t =>
      Entered s t line.toNat (snapEntry s o) ∧
      t.tiers.exportHold = s.tiers.exportHold ++ (snHolds s o.desc).map (fun b => (b, line.toNat, o.seq)) ∧
      SameBytes s t ∧ OnlyIn [.port, .lines, .tiers, .pmu] s t) := by
  obtain ⟨hu, -⟩ := dispatchable_iff _ _ _ _ h
  have hheld := snapHeld_keeps s line.toNat o
  have henter := enter_keeps (snapHeld s line.toNat o) line.toNat (snapEntry s o)
  obtain ⟨hentered, -, hbytes⟩ := entered_after (p := snapEntry s o) hheld hu rfl
  exact ⟨_, snapshot_run h hok hrec hhost, hentered, congrArg Tiers.exportHold (henter.same .tiers rfl), hbytes,
    ((hheld.mono rfl).step henter rfl).only⟩

/-- Settles O23, opcode by opcode. -/
theorem bankOpcodesDispatch : Obligations.BankOpcodesDispatch := by
  intro line o s
  refine ⟨fun h => ⟨rowSeq_waits h, fun hheld => ⟨rowSeq_enters h hheld, rowSeq_rejects h hheld, rowSeq_chafed h hheld⟩⟩,
    fun upd h => ⟨spl_waits h, fun hheld => ⟨spl_chafed h hheld, spl_enters h hheld, spl_skips h hheld⟩⟩, snapshot_enters⟩

end Sys2Proof.Machine
end

section
/-! SUPPORT. The state after reset and the doorbells (O4, O10, R266, R277, R287). -/

set_option Elab.async false

namespace Sys2Proof.Machine

open Sys2Proof

/-! ### The state after reset -/

theorem reset_wf : State.reset.wf = true := (State.wf_iff _).2 ⟨(Mem.wf_iff _).2 ⟨rfl, rfl, rfl, rfl, rfl, rfl, rfl⟩, rfl⟩

theorem lineGet_reset (n : Nat) : lineGet State.reset n = Line.reset := rfl

theorem hitchGet_reset (h : Nat) : hitchGet State.reset h = Hitch.reset := rfl

/-- Settles O4: the stores are empty, and no line or hitch has an entry of its own. -/
theorem resetIsCanonical : Obligations.ResetIsCanonical := by
  refine ⟨reset_wf, rfl, fun n => ?_, fun h => ?_⟩
  · rw [lineGet_reset]
    exact ⟨rfl, rfl, rfl, rfl, rfl, rfl, rfl⟩
  · rw [hitchGet_reset]
    rfl

/-! ### A line set and noted -/

/-- What a line set and noted leaves: the line but for what is noted of it, and every other line. -/
theorem noteLine_lineSet (s : State) (n : Nat) (l : Line) :
    (∃ seen since ready, lineGet (noteLine (lineSet s n l) n) n = { l with seen := seen, since := since, takeReady := ready }) ∧
    (∀ m : Nat, m ≠ n → lineGet (noteLine (lineSet s n l) n) m = lineGet s m) ∧
    Keeps [.port, .lines, .pmu] s (noteLine (lineSet s n l) n) := by
  refine ⟨?_, fun m hm => ?_, ((lineSet_keeps s n l).mono rfl).step (noteLine_keeps ..) rfl⟩
  · obtain ⟨seen, since, ready, h⟩ := noteLine_line (lineSet s n l) n
    exact ⟨seen, since, ready, by rw [h, lineGet_lineSet_self]⟩
  · rw [noteLine_line_ne _ _ _ hm, lineGet_lineSet_ne _ _ _ _ hm]

/-! ### Doorbell writes (R266, R299) -/

/-- A signalling access in the host's turn runs now, unless a write is held. -/
theorem hostSignal_turn {s : State} (ht : hostTurn s = true) (hw : heldWrites s = false) (c : Instr) (run : State → Out) :
    hostSignal c run s = run s := by
  simp [hostSignal, hostWaits_of_hostTurn ht, hw]

/-- A request that joins the port's queue waits there behind the others, and nothing else has changed. -/
theorem holdReq_queued (s : State) (c : Instr) (a n : Nat) (write : Bool) : HostQueued c s (holdReq s c true a n write) :=
  ⟨⟨_, rfl, rfl, rfl⟩, (holdReq_keeps s c true a n write).only⟩

section
variable {s : State} (line : LineNo) (val : W32)

theorem doorbellTailWrite_eq (ht : hostTurn s = true) (hw : heldWrites s = false) :
    exec (.doorbellTailWrite line val) s = .next (if lineOn s line.toNat then
      noteLine (lineSet s line.toNat { lineGet s line.toNat with tail := val.toNat % 2 ^ 20 % ringSize s line.toNat }) line.toNat
      else s) := by
  refine (hostSignal_turn ht hw _ _).trans ?_
  unfold doorbellTailWriteNow
  dsimp only
  rw [hostReach_of_hostTurn ht, Bool.true_and]
  split <;> rfl

theorem completionHeadWrite_eq (ht : hostTurn s = true) :
    exec (.completionHeadWrite line val) s = .next (if lineOn s line.toNat then
      noteLine (lineSet s line.toNat { lineGet s line.toNat with cHead := val.toNat % 2 ^ 20 % cqSize s line.toNat }) line.toNat
      else s) := by
  refine (hostLane_turn ht _ _).trans ?_
  unfold completionHeadWriteNow
  dsimp only
  rw [hostReach_of_hostTurn ht, Bool.true_and]
  split <;> rfl

theorem doorbellTailWrite_answers (ht : hostTurn s = true) (hw : heldWrites s = false) (hon : lineOn s line.toNat = true) :
    Answers (.doorbellTailWrite line val) s (fun t =>
      (∃ seen since ready, lineGet t line.toNat = { lineGet s line.toNat with
        tail := val.toNat % 2 ^ 20 % ringSize s line.toNat, seen := seen, since := since, takeReady := ready }) ∧
      (∀ m : Nat, m ≠ line.toNat → lineGet t m = lineGet s m) ∧ OnlyIn [.port, .lines, .pmu] s t) := by
  obtain ⟨hline, hlines, hk⟩ := noteLine_lineSet s line.toNat
    { lineGet s line.toNat with tail := val.toNat % 2 ^ 20 % ringSize s line.toNat }
  exact ⟨_, (doorbellTailWrite_eq line val ht hw).trans (by rw [if_pos hon]), hline, hlines, hk.only⟩

theorem completionHeadWrite_answers (ht : hostTurn s = true) (hon : lineOn s line.toNat = true) :
    Answers (.completionHeadWrite line val) s (fun t =>
      (∃ seen since ready, lineGet t line.toNat = { lineGet s line.toNat with
        cHead := val.toNat % 2 ^ 20 % cqSize s line.toNat, seen := seen, since := since, takeReady := ready }) ∧
      (∀ m : Nat, m ≠ line.toNat → lineGet t m = lineGet s m) ∧ OnlyIn [.port, .lines, .pmu] s t) := by
  obtain ⟨hline, hlines, hk⟩ := noteLine_lineSet s line.toNat
    { lineGet s line.toNat with cHead := val.toNat % 2 ^ 20 % cqSize s line.toNat }
  exact ⟨_, (completionHeadWrite_eq line val ht).trans (by rw [if_pos hon]), hline, hlines, hk.only⟩

theorem doorbellTailWrite_queues (h : hostWaits s = true ∨ heldWrites s = true) :
    Answers (.doorbellTailWrite line val) s (HostQueued (.doorbellTailWrite line val) s) :=
  ⟨_, if_pos (by simpa using h), holdReq_queued ..⟩

theorem completionHeadWrite_queues (h : hostWaits s = true) :
    Answers (.completionHeadWrite line val) s (HostQueued (.completionHeadWrite line val) s) :=
  ⟨_, if_pos h, holdReq_queued ..⟩

end

/-! ### Doorbell reads (R266) -/

/-- A doorbell's offset lies within the 1 MiB of the doorbells. -/
theorem doorbellOffset_toNat (line : LineNo) {b : Nat} (hb : b < 16) :
    (BitVec.ofNat 26 (16 * line.toNat + b)).toNat = 16 * line.toNat + b := by
  have hline : line.toNat < 2 ^ 16 := line.isLt
  rw [BitVec.toNat_ofNat, Nat.mod_eq_of_lt (by omega)]

/-- A read that R266 serves is answered. -/
theorem doorbellRead_answers {s : State} (hr : hostReach s = true) {off : BitVec 26} (hg : goodDoorbell off.toNat 4 = true) :
    Answers (.badMmioAccess .bar2 false off 4) s (fun t =>
      t.port = { s.port with out := s.port.out ++ [.reg 4 (doorbellRead s off.toNat)] } ∧ OnlyIn [.port] s t) := by
  have hrun : exec (.badMmioAccess .bar2 false off 4) s = .next (regOut s 4 (doorbellRead s off.toNat)) := by
    rw [show exec (.badMmioAccess .bar2 false off 4) s = execBadMmioAccess .bar2 false off 4 s from rfl]
    simp [execBadMmioAccess, hr, hg]
  exact ⟨_, hrun, rfl, (portOut_keeps s _).only⟩

theorem doorbellRead_zero (s : State) (n : Nat) :
    doorbellRead s (16 * n) = BitVec.ofNat 64 ((lineGet s n).head % 2 ^ 20 + lineState s n % 8 * 2 ^ 20) := by
  simp [doorbellRead, at_]

theorem doorbellRead_eight (s : State) (n : Nat) :
    doorbellRead s (16 * n + 8) = BitVec.ofNat 64 ((lineGet s n).cqTail % 2 ^ 20) := by
  have hn : (16 * n + 8) / 16 = n := by omega
  have hb : (16 * n + 8) % 16 = 8 := by omega
  simp [doorbellRead, at_, hn, hb]

/-- Settles O10, access by access. -/
theorem doorbellAccesses : Obligations.DoorbellAccesses := by
  refine ⟨fun line val s ht hw => ⟨fun hon => ⟨doorbellTailWrite_answers line val ht hw hon,
      completionHeadWrite_answers line val ht hon⟩, fun hoff => ⟨?_, ?_⟩⟩,
    fun line val s => ⟨doorbellTailWrite_queues line val, completionHeadWrite_queues line val⟩, fun line s hr => ?_⟩
  · rw [doorbellTailWrite_eq line val ht hw, hoff]
    rfl
  · rw [completionHeadWrite_eq line val ht, hoff]
    rfl
  · have hline : line.toNat < 2 ^ 16 := line.isLt
    have h0 := doorbellOffset_toNat line (b := 0) (by decide)
    have h8 := doorbellOffset_toNat line (b := 8) (by decide)
    have hread0 := doorbellRead_answers hr (off := BitVec.ofNat 26 (16 * line.toNat + 0)) (by rw [h0]; simp [goodDoorbell]; omega)
    have hread8 := doorbellRead_answers hr (off := BitVec.ofNat 26 (16 * line.toNat + 8)) (by rw [h8]; simp [goodDoorbell]; omega)
    rw [h0, Nat.add_zero, doorbellRead_zero] at hread0
    rw [h8, doorbellRead_eight] at hread8
    exact ⟨hread0, hread8⟩

end Sys2Proof.Machine
end

section
/-! SUPPORT. What a final record rests on, and what it leaves of memory and of the lines whatever ends in it (R273, R276). -/

set_option Elab.async false

namespace Sys2Proof.Machine

open Sys2Proof

/-! ### States alike to a final record -/

/-- `u` is as `s` in all that a final record rests on but the lines: the configuration, the hitches, the home table, the moves
under way, the bytes of memory, the posted writes, the time and the FLR. -/
structure RecordSame (s u : State) : Prop where
  cfg : u.cfg = s.cfg
  fuses : u.fuses = s.fuses
  tb : u.tb = s.tb
  hitches : u.hitches = s.hitches
  ht : u.tiers.ht = s.tiers.ht
  moves : u.tiers.moves.filter Move.started = s.tiers.moves.filter Move.started
  merging : u.tiers.merging = s.tiers.merging
  mergeHeld : u.tiers.mergeHeld = s.tiers.mergeHeld
  bytes : u.mem.bytes = s.mem.bytes
  host : u.mem.host = s.mem.host
  posted : u.mem.posted = s.mem.posted
  flr : u.port.flrAt = s.port.flrAt

theorem RecordSame.refl (s : State) : RecordSame s s := ⟨rfl, rfl, rfl, rfl, rfl, rfl, rfl, rfl, rfl, rfl, rfl, rfl⟩

theorem RecordSame.trans {s u t : State} (h1 : RecordSame s u) (h2 : RecordSame u t) : RecordSame s t where
  cfg := h2.cfg.trans h1.cfg
  fuses := h2.fuses.trans h1.fuses
  tb := h2.tb.trans h1.tb
  hitches := h2.hitches.trans h1.hitches
  ht := h2.ht.trans h1.ht
  moves := h2.moves.trans h1.moves
  merging := h2.merging.trans h1.merging
  mergeHeld := h2.mergeHeld.trans h1.mergeHeld
  bytes := h2.bytes.trans h1.bytes
  host := h2.host.trans h1.host
  posted := h2.posted.trans h1.posted
  flr := h2.flr.trans h1.flr

/-- The parts on which a final record rests. -/
def recordParts : List Part := [.cfg, .fuses, .tb, .hitches, .tiers, .mem, .link]

/-- A step that leaves the parts on which a final record rests. -/
theorem Keeps.recordSame {ps : List Part} {s u : State} (h : Keeps ps s u) (hp : recordParts.all (fun p => !ps.contains p) = true) :
    RecordSame s u := by
  have hsame : ∀ p ∈ recordParts, p.same s u := fun p hm => h.same p (by simpa using List.all_eq_true.1 hp p hm)
  have htiers : u.tiers = s.tiers := hsame .tiers (by decide)
  have hmem : u.mem = s.mem := hsame .mem (by decide)
  have hlink : (u.port.linkUp, u.port.linkDowns, u.port.flrAt) = (s.port.linkUp, s.port.linkDowns, s.port.flrAt) :=
    hsame .link (by decide)
  exact ⟨hsame .cfg (by decide), hsame .fuses (by decide), hsame .tb (by decide), hsame .hitches (by decide), by rw [htiers],
    by rw [htiers], by rw [htiers], by rw [htiers], by rw [hmem], by rw [hmem], by rw [hmem], congrArg (fun p => p.2.2) hlink⟩

section
variable {s u : State} (h : RecordSame s u)
include h

theorem RecordSame.actF (f : Fld) (i : Nat) : actF u f i = Machine.actF s f i := by rw [Machine.actF, Machine.actF, h.cfg]

theorem RecordSame.htGet (b : Nat) : htGet u b = Machine.htGet s b := htGet_congr h.ht h.cfg h.fuses b

theorem RecordSame.sameBytes : SameBytes s u := rawByte_congr (fun _ => by rw [h.bytes]) h.host h.cfg

theorem RecordSame.heldBlocks (acct : Nat) : heldBlocks u acct = Machine.heldBlocks s acct := by
  have hstarted (t : State) : t.tiers.moves.filter (fun m => m.started && m.account = acct && !m.held.isEmpty) =
      (t.tiers.moves.filter Move.started).filter (fun m => m.account = acct && !m.held.isEmpty) := by
    rw [List.filter_filter]
    refine List.filter_congr (fun m _ => ?_)
    cases m.started <;> simp
  rw [Machine.heldBlocks, Machine.heldBlocks, hstarted, hstarted, h.moves, h.mergeHeld]
  simp only [h.htGet]

variable {n : Nat} (htail : (lineGet u n).cqTail = (lineGet s n).cqTail)
include htail

theorem RecordSame.recordFrame : recordFrame u n = Machine.recordFrame s n := by
  have hat : recordAt u n = recordAt s n := by rw [recordAt, recordAt, htail, h.actF]
  rw [Machine.recordFrame, Machine.recordFrame, hat, h.htGet]

theorem RecordSame.recordOpen : recordOpen u n = Machine.recordOpen s n := by
  have hat : recordAt u n = recordAt s n := by rw [recordAt, recordAt, htail, h.actF]
  rw [Machine.recordOpen, Machine.recordOpen, h.recordFrame htail, hat, h.htGet, h.fuses, h.merging, h.heldBlocks, h.posted, h.flr,
    lineAcct, lineAcct, h.actF]

end

/-- An operation that ends from a state alike, with the same lines, has ended. -/
theorem RecordSame.finished {s u t : State} {n seq status : Nat} {flags : Byte} {epoch : BitVec 16} {d : BitVec 512}
    {opb : List Byte} (h : RecordSame s u) (hl : u.lines = s.lines) (hf : Finished u t n seq status flags epoch d opb) :
    Finished s t n seq status flags epoch d opb := by
  have hline : ∀ m, lineGet u m = lineGet s m := lineGet_congr hl
  have hframe : Machine.recordFrame u n = Machine.recordFrame s n := h.recordFrame (by rw [hline])
  exact {
    gone := hf.gone
    others := fun q hq => (hf.others q hq).trans (opFind_congr hl n q)
    record := fun i hi => by rw [← hframe, hf.record i hi, h.tb]
    memory := fun a ha => by rw [hf.memory a (by rwa [hframe]), h.sameBytes]
    cqTail := by rw [hf.cqTail, hline, cqSize, cqSize, h.actF]
    stopped := by rw [hf.stopped, hline, stopsAfter_congr h.cfg]
    fetch := by rw [hf.fetch, hline]
    head := by rw [hf.head, hline]
    tail := by rw [hf.tail, hline]
    cHead := by rw [hf.cHead, hline]
    nextSeq := by rw [hf.nextSeq, hline]
    loop := by rw [hf.loop, hline]
    lines := fun m hm => by rw [hf.lines m hm, hline]
    signal := fun k => by rw [hf.signal, hitchGet_congr h.hitches] }

/-! ### What a final record leaves -/

theorem doneSig_bytes (s : State) (n seq h : Nat) : SameBytes s (doneSig s n seq h) := by
  have hmem : (doneSig s n seq h).mem = (drainPosted s (fun x => x.line = n && x.seq = seq)).mem := by
    unfold doneSig
    dsimp only
    split <;> rfl
  exact rawByte_congr (fun _ => by rw [hmem]; rfl) (by rw [hmem]; rfl) ((doneSig_keeps s n seq h).same .cfg rfl)

/-- What follows a final record: the vector and the signal, then the stop (R276, R279). -/
theorem afterRecord_eq (s : State) (n seq status : Nat) (d : BitVec 512) (sig irq : Bool) :
    ∃ u : State, Keeps [.port, .hitches, .mem, .tiers, .pmu] s u ∧ SameBytes s u ∧
      afterRecord s n seq status d sig irq = if stopsAfter u n status then lineSet u n { lineGet u n with stopped := true } else u := by
  let s1 := postedFinal s n seq
  let s2 := if irq && dIrq d then sendVec s1 (actF s1 flLineVector n) else s1
  let s3 := if sig && dDoneSig d then doneSig s2 n seq (dDoneHitch d) else s2
  have h2 : Keeps [.port, .pmu] s1 s2 := by
    unfold s2
    split
    · exact sendVec_keeps ..
    · exact .refl _ _
  have h3 : Keeps [.hitches, .mem, .tiers] s2 s3 ∧ SameBytes s2 s3 := by
    unfold s3
    split
    · exact ⟨doneSig_keeps .., doneSig_bytes _ _ _ _⟩
    · exact ⟨.refl _ _, fun _ => rfl⟩
  have h1 : SameBytes s s1 := rawByte_congr (fun _ => rfl) rfl rfl
  exact ⟨s3, (((postedFinal_keeps s n seq).mono rfl).step h2 rfl).step h3.1 rfl,
    fun a => ((h3.2 a).trans (h2.sameBytes rfl rfl a)).trans (h1 a), by rw [afterRecord]⟩

/-- What follows a final record changes the line's stop alone, whatever it signals (R276, R279). -/
theorem afterRecord_lines (s : State) (n seq status : Nat) (d : BitVec 512) (sig irq : Bool) :
    SameBytes s (afterRecord s n seq status d sig irq) ∧
    lineGet (afterRecord s n seq status d sig irq) n =
      { lineGet s n with stopped := (lineGet s n).stopped || stopsAfter s n status } ∧
    (∀ m : Nat, m ≠ n → lineGet (afterRecord s n seq status d sig irq) m = lineGet s m) := by
  obtain ⟨u, hk, hbytes, hrun⟩ := afterRecord_eq s n seq status d sig irq
  have hlines : ∀ m, lineGet u m = lineGet s m := lineGet_congr (hk.same .lines rfl)
  rw [hrun, stopsAfter_congr (hk.same .cfg rfl)]
  cases stopsAfter s n status with
  | true =>
    rw [if_pos rfl]
    refine ⟨fun a => (rawByte_frame (lineSet_mem ..) (lineSet_cfg ..) a).trans (hbytes a), ?_, fun m hm => ?_⟩
    · rw [lineGet_lineSet_self, hlines, Bool.or_true]
    · rw [lineGet_lineSet_ne _ _ _ _ hm, hlines]
  | false =>
    rw [if_neg Bool.false_ne_true]
    refine ⟨hbytes, ?_, fun m _ => hlines m⟩
    rw [hlines, Bool.or_false]

/-- A final record stands at CQ_TAIL, which advances; the line may stop, and nothing else of the lines or of memory changes. -/
theorem finalRecord_lines {s : State} {n : Nat} (seq status : Nat) (flags : Byte) (epoch : BitVec 16) (d : BitVec 512)
    (opb : List Byte) (sig irq : Bool) (h : recordOpen s n = true) :
    let t := finalRecord s n seq status flags epoch d opb sig irq
    (∀ i : Nat, i < 32 → rawByte t (recordFrame s n + i) = (recordBytes seq status flags epoch s.tb.now opb).getD i 0) ∧
    OutsideFrame s t (recordFrame s n) 32 ∧
    (∃ seen since ready, lineGet t n = { lineGet s n with
      cqTail := ((lineGet s n).cqTail + 1) % cqSize s n, stopped := (lineGet s n).stopped || stopsAfter s n status,
      seen := seen, since := since, takeReady := ready }) ∧
    (∀ m : Nat, m ≠ n → lineGet t m = lineGet s m) := by
  intro t
  let w := writeRecord s n (recordBytes seq status flags epoch s.tb.now opb)
  obtain ⟨hrecord, houtside, hself, hothers, -⟩ := writeRecord_spec s n _ (recordBytes_length seq status flags epoch s.tb.now opb) h
  obtain ⟨hbytes, hstop, hlines⟩ := afterRecord_lines w n seq status d sig irq
  have ht : t = noteLine (afterRecord w n seq status d sig irq) n := by
    obtain ⟨-, -, -, -, hflr⟩ := recordOpen_iff s n h
    exact if_neg (by rw [hflr]; decide)
  have hnoted : SameBytes (afterRecord w n seq status d sig irq) t := by
    rw [ht]
    exact (noteLine_keeps ..).sameBytes rfl rfl
  have hcfg : w.cfg = s.cfg := (writeRecord_keeps ..).same .cfg rfl
  refine ⟨fun i hi => ?_, fun a ha => ?_, ?_, fun m hm => ?_⟩
  · rw [hnoted, hbytes, hrecord i hi]
  · rw [hnoted, hbytes, houtside a ha]
  · obtain ⟨seen, since, ready, hline⟩ := noteLine_line (afterRecord w n seq status d sig irq) n
    exact ⟨seen, since, ready, by rw [ht, hline, hstop, hself, stopsAfter_congr hcfg]⟩
  · rw [ht, noteLine_line_ne _ _ _ hm, hlines m hm, hothers m hm]

end Sys2Proof.Machine
end

section
/-! SUPPORT. The take of a descriptor (O19, R266 to R273, R305). -/

set_option Elab.async false

namespace Sys2Proof.Machine

open Sys2Proof

/-! ### The slots read and the line past them -/

theorem slotRead_recordSame (s : State) (a : Nat) : RecordSame s (slotRead s a) := by
  unfold slotRead
  split <;> exact ⟨rfl, rfl, rfl, rfl, rfl, rfl, rfl, rfl, rfl, rfl, rfl, rfl⟩

theorem readSlots_recordSame (s : State) (n : Nat) (v : TakeView) : RecordSame s (readSlots s n v) :=
  foldl_keeps (RecordSame s) _ _ s (.refl s) (fun u _ hu => hu.trans (slotRead_recordSame u _))

/-- What the line holds once its slots are taken: FETCH past them, the next sequence number, and HEAD after FETCH unless a loop is
active (R267, R269). -/
structure TakenLine (s : State) (n : Nat) (v : TakeView) (l : Line) : Prop where
  ops : l.ops = (lineGet s n).ops
  fetch : l.fetch = ((lineGet s n).fetch + v.slots) % ringSize s n
  nextSeq : l.nextSeq = ((lineGet s n).nextSeq + 1) % 2 ^ 32
  head : l.head = if (lineGet s n).loop.isSome then (lineGet s n).head else l.fetch
  cqTail : l.cqTail = (lineGet s n).cqTail

theorem takeLine_taken (s : State) (n : Nat) (v : TakeView) : TakenLine s n v (takeLine s n v) := by
  unfold takeLine headFollows
  dsimp only
  split
  next hloop => exact ⟨rfl, rfl, rfl, by rw [if_pos hloop], rfl⟩
  next hloop => exact ⟨rfl, rfl, rfl, by rw [if_neg hloop], rfl⟩

/-- The grant of the request leaves the line and the configuration that the take reads. -/
theorem takeLine_congr {s g : State} (h : Keeps [.lineArb, .wfc] s g) (n : Nat) (v : TakeView) : takeLine g n v = takeLine s n v := by
  rw [takeLine, takeLine, lineGet_congr (h.same .lines rfl), ringSize, ringSize, (h.recordSame rfl).actF]

/-- From `s`, the state in which the submission checks of the take run. -/
structure Fetched (s u : State) (n : Nat) (v : TakeView) : Prop where
  keeps : Keeps [.regs, .port, .lines, .lineArb, .mem, .tiers, .wfc, .pmu] s u
  same : RecordSame s u
  line : TakenLine s n v (lineGet u n)
  lines : ∀ m : Nat, m ≠ n → lineGet u m = lineGet s m

theorem takeFetched_fetched (s : State) (n : Nat) (q : Req) (v : TakeView) :
    Fetched s (takeFetched (takeGranted s n q) n v) n v := by
  have hgrant := takeGranted_keeps s n q
  generalize takeGranted s n q = g at hgrant ⊢
  let u := pmuAdd (readSlots g n v) (0x058 + lineStrand g n) 1 (attrP (lineAcct g n))
  have hcount : Keeps [.regs, .port, .pmu] (readSlots g n v) u := pmuAdd_keeps ..
  have hset : Keeps [.lines] u (takeFetched g n v) := lineSet_keeps ..
  have hlines : u.lines = s.lines :=
    (hcount.same .lines rfl).trans (((readSlots_keeps g n v).same .lines rfl).trans (hgrant.same .lines rfl))
  exact {
    keeps := (hgrant.mono rfl).step (takeFetched_keeps g n v) rfl
    same := ((hgrant.recordSame rfl).trans (readSlots_recordSame g n v)).trans ((hcount.recordSame rfl).trans (hset.recordSame rfl))
    line := by
      rw [takeFetched, lineGet_lineSet_self, takeLine_congr hgrant]
      exact takeLine_taken s n v
    lines := fun m hm => (lineGet_lineSet_ne _ _ _ _ hm).trans (lineGet_congr hlines m) }

/-- An occurrence counted changes nothing that the take leaves. -/
theorem Fetched.counted {s u : State} {n : Nat} {v : TakeView} (h : Fetched s u n v) (code k : Nat) (a : Attr) :
    Fetched s (pmuAdd u code k a) n v := by
  have hcount := pmuAdd_keeps u code k a
  have hlines : (pmuAdd u code k a).lines = u.lines := hcount.same .lines rfl
  exact ⟨h.keeps.step hcount rfl, h.same.trans (hcount.recordSame rfl), by rw [lineGet_congr hlines]; exact h.line,
    fun m hm => (lineGet_congr hlines m).trans (h.lines m hm)⟩

/-! ### The outcomes of the take -/

/-- The operation of a descriptor taken at FETCH (R283). -/
def takenOp (s : State) (n : Nat) (v : TakeView) : OpEnt :=
  { opNew (lineGet s n).nextSeq (lineGet s n).fetch v.slots v.d v.d2 with entry := freeEntry (lineGet s n).ops }

/-- The line with one more operation in flight. -/
def withOp (l : Line) (o : OpEnt) : Line := { l with ops := l.ops ++ [o] }

section
variable {s : State} {line : LineNo} {q : Req} (hreq : (takeReq s line.toNat).isSome = true)
  (hpick : (takePick s line.toNat).1 = some q) (hkey : q.key = line.toNat)
include hreq hpick hkey

/-- The take of the line that its arbiter picks, by what the checks say of the descriptor. -/
theorem lineTake_eq :
    let n := line.toNat
    let v := takeView s n
    let u := takeFetched (takeGranted s n q) n v
    let c := submitStatus u n v.d v.d2
    exec (.lineTake line) s = .next (
      if v.chafed then finalRecord u n (lineGet s n).nextSeq stUncorrectable 0 s.belay.epoch v.d [] false false
      else if c.1 = stOk then noteLine (lineSet u n (withOp (lineGet u n) (takenOp s n v))) n
      else finalRecord (pmuAdd u (0x05C + lineStrand s n) 1 (attrP (lineAcct s n))) n (lineGet s n).nextSeq c.1 0 s.belay.epoch v.d []
        c.2 true) := by
  intro n v u c
  have hgrant := takeGranted_keeps s n q
  have hcfg : ∀ f i, actF (takeGranted s n q) f i = actF s f i := (hgrant.recordSame rfl).actF
  have hrun : exec (.lineTake line) s = .next (takeNow (takeGranted s n q) n v) := by
    have hsome : (takeReq s n).isNone = false := by rwa [Option.isNone_eq_false_iff]
    rw [show exec (.lineTake line) s = execLineTake line s from rfl, execLineTake]
    simp only [show line.toNat = n from rfl, hsome, show (takePick s n).1 = some q from hpick, Bool.false_eq_true, if_false]
    exact if_pos hkey
  rw [hrun, takeNow, lineGet_congr (hgrant.same .lines rfl) n, (hgrant.same .belay rfl : (takeGranted s n q).belay = s.belay), lineStrand,
    lineAcct, hcfg, hcfg]
  rfl

/-- A descriptor that passes the checks is the line's new operation (R269, R283). -/
theorem lineTake_takes (hch : (takeView s line.toNat).chafed = false)
    (hok : (submitStatus (takeFetched (takeGranted s line.toNat q) line.toNat (takeView s line.toNat)) line.toNat
      (takeView s line.toNat).d (takeView s line.toNat).d2).1 = stOk) :
    Answers (.lineTake line) s (fun t =>
      (lineGet t line.toNat).ops = (lineGet s line.toNat).ops ++ [takenOp s line.toNat (takeView s line.toNat)] ∧
      (lineGet t line.toNat).fetch = ((lineGet s line.toNat).fetch + (takeView s line.toNat).slots) % ringSize s line.toNat ∧
      (lineGet t line.toNat).nextSeq = ((lineGet s line.toNat).nextSeq + 1) % 2 ^ 32 ∧
      (lineGet t line.toNat).head = (if (lineGet s line.toNat).loop.isSome then (lineGet s line.toNat).head
        else (lineGet t line.toNat).fetch) ∧
      (lineGet t line.toNat).cqTail = (lineGet s line.toNat).cqTail ∧
      (∀ m : Nat, m ≠ line.toNat → lineGet t m = lineGet s m) ∧ SameBytes s t ∧
      OnlyIn [.regs, .port, .lines, .lineArb, .mem, .tiers, .wfc, .pmu] s t) := by
  have hrun := lineTake_eq hreq hpick hkey
  have hfetched := takeFetched_fetched s line.toNat q (takeView s line.toNat)
  dsimp only at hrun
  rw [if_neg (by rw [hch]; decide), if_pos hok] at hrun
  generalize takeFetched (takeGranted s line.toNat q) line.toNat (takeView s line.toNat) = u at hrun hfetched
  obtain ⟨hk, hsame, hline, hlines⟩ := hfetched
  obtain ⟨⟨seen, since, ready, hnew⟩, hothers, hnote⟩ :=
    noteLine_lineSet u line.toNat (withOp (lineGet u line.toNat) (takenOp s line.toNat (takeView s line.toNat)))
  refine ⟨_, hrun, ?_⟩
  simp only [hnew]
  exact ⟨congrArg (· ++ _) hline.ops, hline.fetch, hline.nextSeq, hline.head, hline.cqTail,
    fun m hm => (hothers m hm).trans (hlines m hm), fun a => (hnote.sameBytes rfl rfl a).trans (hsame.sameBytes a),
    (hk.step hnote rfl).only⟩

/-- The record of a descriptor that fails the checks or reads chafed (R271). -/
theorem lineTake_records {status : Nat}
    (hst : if (takeView s line.toNat).chafed then status = stUncorrectable
      else status ≠ stOk ∧ (submitStatus (takeFetched (takeGranted s line.toNat q) line.toNat (takeView s line.toNat)) line.toNat
        (takeView s line.toNat).d (takeView s line.toNat).d2).1 = status) :
    ∃ (u : State) (sig irq : Bool), Fetched s u line.toNat (takeView s line.toNat) ∧ exec (.lineTake line) s = .next
      (finalRecord u line.toNat (lineGet s line.toNat).nextSeq status 0 s.belay.epoch (takeView s line.toNat).d [] sig irq) := by
  have hrun := lineTake_eq hreq hpick hkey
  have hfetched := takeFetched_fetched s line.toNat q (takeView s line.toNat)
  dsimp only at hrun
  cases hch : (takeView s line.toNat).chafed with
  | true =>
    rw [if_pos hch] at hrun hst
    exact ⟨_, _, _, hfetched, by rw [hrun, hst]⟩
  | false =>
    rw [if_neg (by rw [hch]; decide)] at hrun hst
    obtain ⟨hbad, hcheck⟩ := hst
    rw [hcheck, if_neg hbad] at hrun
    exact ⟨_, _, _, hfetched.counted .., hrun⟩

/-- A descriptor that fails them, or that reads chafed, gets its record and enters nothing (R271, R273). -/
theorem lineTake_rejects {status : Nat} (hrec : recordOpen s line.toNat = true)
    (hst : if (takeView s line.toNat).chafed then status = stUncorrectable
      else status ≠ stOk ∧ (submitStatus (takeFetched (takeGranted s line.toNat q) line.toNat (takeView s line.toNat)) line.toNat
        (takeView s line.toNat).d (takeView s line.toNat).d2).1 = status) :
    Answers (.lineTake line) s (fun t =>
      (∀ i : Nat, i < 32 → rawByte t (recordFrame s line.toNat + i) =
        (recordBytes (lineGet s line.toNat).nextSeq status 0 s.belay.epoch s.tb.now []).getD i 0) ∧
      OutsideFrame s t (recordFrame s line.toNat) 32 ∧
      (lineGet t line.toNat).ops = (lineGet s line.toNat).ops ∧
      (lineGet t line.toNat).cqTail = ((lineGet s line.toNat).cqTail + 1) % cqSize s line.toNat ∧
      (lineGet t line.toNat).fetch = ((lineGet s line.toNat).fetch + (takeView s line.toNat).slots) % ringSize s line.toNat ∧
      (lineGet t line.toNat).nextSeq = ((lineGet s line.toNat).nextSeq + 1) % 2 ^ 32 ∧
      (∀ m : Nat, m ≠ line.toNat → lineGet t m = lineGet s m)) := by
  obtain ⟨u, sig, irq, ⟨-, hsame, hline, hlines⟩, hrun⟩ := lineTake_records hreq hpick hkey hst
  have hframe := hsame.recordFrame hline.cqTail
  obtain ⟨hrecord, houtside, ⟨seen, since, ready, hnew⟩, hothers⟩ := finalRecord_lines (lineGet s line.toNat).nextSeq status 0
    s.belay.epoch (takeView s line.toNat).d [] sig irq ((hsame.recordOpen hline.cqTail).trans hrec)
  rw [hframe] at hrecord houtside
  rw [hsame.tb] at hrecord
  refine ⟨_, hrun, hrecord, fun a ha => (houtside a ha).trans (hsame.sameBytes a), ?_⟩
  simp only [hnew]
  exact ⟨hline.ops, by rw [hline.cqTail, cqSize, cqSize, hsame.actF], hline.fetch, hline.nextSeq,
    fun m hm => (hothers m hm).trans (hlines m hm)⟩

end

/-- Settles O19: the descriptor taken, or its rejection's record. -/
theorem lineTakesAtFetch : Obligations.LineTakesAtFetch :=
  fun _ _ _ hreq hpick hkey => ⟨fun h => lineTake_takes hreq hpick hkey h.1 h.2,
    fun _ hrec hst => lineTake_rejects hreq hpick hkey hrec hst⟩

end Sys2Proof.Machine
end

section
/-! SUPPORT. HITCH_WAIT, HITCH_SIG and LOOP (O26, O28, R277 to R281, R298). -/

set_option Elab.async false

namespace Sys2Proof.Machine

open Sys2Proof

/-! ### Ends with OK -/

/-- An operation that no cancel has reached and that ends OK reports its own status. -/
theorem endStatus_ok {o : OpEnt} (htrack : o.track ≠ .cancelPending) : endStatus o stOk = o.status := by
  rw [endStatus, if_neg htrack, if_pos rfl]

/-- An operation that is dispatched and retires at once ends with its own status, in the epoch of now. -/
theorem finishOp_dispatched {s u : State} {n : Nat} {o : OpEnt} (opb : List Byte) (hrec : recordOpen u n = true)
    (htrack : o.track ≠ .cancelPending) :
    Finished u (finishOp u n (opDispatch s o) stOk opb) n o.seq o.status o.flags s.belay.epoch o.desc opb := by
  have hf := finishOp_finished u n (opDispatch s o) stOk opb hrec
  rwa [endStatus_ok (o := opDispatch s o) htrack] at hf

/-! ### HITCH_WAIT (R278, R298) -/

theorem hitchMet_iff (s : State) (h : Nat) (value : W32) : hitchMet s h value = true ↔ 0 ≤ ((hitchGet s h).count - value).toInt :=
  decide_eq_true_iff

/-- At its dispatch a wait has lasted 0 ns. -/
theorem hitchWaitBytes_dispatched (s : State) (o : OpEnt) :
    hitchWaitBytes s (opDispatch s o) = bytesOf 4 (hitchGet s (hwHitch o.desc)).count.toNat ++ bytesOf 4 0 := by
  rw [hitchWaitBytes, show (opDispatch s o).cDisp = tbNow s from rfl, Nat.sub_self, Nat.min_eq_right (Nat.zero_le _)]
  rfl

/-- A dispatched wait is running. -/
theorem waiting_running {s : State} {n : Nat} {o : OpEnt} (h : waiting s n = some o) : o.track = .running := by
  have hrun := List.find?_some h
  simp only [Bool.and_eq_true, decide_eq_true_eq] at hrun
  exact hrun.2

section
variable {s : State} {line : LineNo} {o : OpEnt}

/-- A wait that is satisfied at its dispatch retires. -/
theorem hitchWait_retires (h : dispatchable s line.toNat o opHitchWait = true)
    (hmet : hitchMet s (hwHitch o.desc) (hwValue o.desc) = true) (hrec : recordOpen s line.toNat = true) :
    Answers (.hitchWait line) s (fun t => Finished s t line.toNat o.seq o.status o.flags s.belay.epoch o.desc
      (bytesOf 4 (hitchGet s (hwHitch o.desc)).count.toNat ++ bytesOf 4 0)) := by
  obtain ⟨-, -, -, htrack⟩ := dispatchable_iff _ _ _ _ h
  have hf := finishOp_dispatched (s := s) (hitchWaitBytes s (opDispatch s o)) hrec htrack
  rw [hitchWaitBytes_dispatched] at hf
  exact ⟨_, (onDispatch_run s line.toNat opHitchWait _ o h).trans (congrArg _ (if_pos hmet)), by rwa [hitchWaitBytes_dispatched]⟩

/-- A wait that is not satisfied at its dispatch enters the tracker. -/
theorem hitchWait_enters (h : dispatchable s line.toNat o opHitchWait = true)
    (hmet : ¬ hitchMet s (hwHitch o.desc) (hwValue o.desc) = true) :
    Answers (.hitchWait line) s (fun t =>
      Entered s t line.toNat (opDispatch s o) ∧ SameBytes s t ∧ OnlyIn [.port, .lines, .pmu] s t) := by
  obtain ⟨hu, -⟩ := dispatchable_iff _ _ _ _ h
  have hk := enter_keeps s line.toNat (opDispatch s o)
  exact ⟨_, (onDispatch_run s line.toNat opHitchWait _ o h).trans (congrArg _ (if_neg hmet)), enter_entered hu rfl,
    hk.sameBytes rfl rfl, hk.only⟩

section
variable (hw : waiting s line.toNat = some o)
include hw

theorem hitchWaitSatisfied_retires (hmet : hitchMet s (hwHitch o.desc) (hwValue o.desc) = true)
    (hrec : recordOpen s line.toNat = true) :
    Answers (.hitchWaitSatisfied line) s (fun t =>
      Finished s t line.toNat o.seq o.status o.flags o.epoch o.desc (hitchWaitBytes s o)) := by
  have hrun : exec (.hitchWaitSatisfied line) s = .next (finishOp s line.toNat o stOk (hitchWaitBytes s o)) := by
    rw [show exec (.hitchWaitSatisfied line) s = execHitchWaitSatisfied line s from rfl, execHitchWaitSatisfied, hw]
    exact if_pos hmet
  have hf := finishOp_finished s line.toNat o stOk (hitchWaitBytes s o) hrec
  rw [endStatus_ok (by rw [waiting_running hw]; decide)] at hf
  exact ⟨_, hrun, hf⟩

/-- The timeout of a wait, by its conditions. -/
theorem hitchTimeout_eq : exec (.hitchTimeout line) s = .next (
    if !hitchMet s (hwHitch o.desc) (hwValue o.desc) && hwTimeout o.desc != 0 && o.cDisp + hwTimeout o.desc ≤ tbNow s then
      finishOp s line.toNat o stHitchTimeout (hitchWaitBytes s o) else s) := by
  rw [show exec (.hitchTimeout line) s = execHitchTimeout line s from rfl, execHitchTimeout, hw]
  dsimp only
  split <;> rfl

theorem hitchTimeout_ends (hmet : ¬ hitchMet s (hwHitch o.desc) (hwValue o.desc) = true) (hset : hwTimeout o.desc ≠ 0)
    (hdue : o.cDisp + hwTimeout o.desc ≤ tbNow s) (hrec : recordOpen s line.toNat = true) :
    Answers (.hitchTimeout line) s (fun t =>
      Finished s t line.toNat o.seq stHitchTimeout o.flags o.epoch o.desc (hitchWaitBytes s o)) := by
  have hf := finishOp_finished s line.toNat o stHitchTimeout (hitchWaitBytes s o) hrec
  rw [endStatus_of_ne (by rw [waiting_running hw]; decide) (by decide)] at hf
  exact ⟨_, (hitchTimeout_eq hw).trans (congrArg _ (if_pos (by simp [hmet, hset, hdue]))), hf⟩

theorem hitchTimeout_stays (h : hitchMet s (hwHitch o.desc) (hwValue o.desc) = true ∨ hwTimeout o.desc = 0 ∨
    tbNow s < o.cDisp + hwTimeout o.desc) : exec (.hitchTimeout line) s = .next s := by
  refine (hitchTimeout_eq hw).trans (congrArg _ (if_neg ?_))
  rcases h with hmet | hzero | hearly
  · simp [hmet]
  · simp [hzero]
  · simp [Nat.not_le.2 hearly]

end

/-! ### HITCH_SIG (R278, R279) -/

/-- Every hitch's count after an addition to one. -/
theorem hitchAdd_counts (s : State) (h j : Nat) (add : W32) (by_ : Option Nat) :
    (hitchGet (hitchAdd s h add by_) j).count = (hitchGet s j).count + if j = h then add else 0 := by
  by_cases hj : j = h
  · rw [hj, hitchAdd_count, if_pos rfl]
  · rw [hitchAdd_ne _ _ _ _ _ hj, if_neg hj]
    exact (BitVec.add_zero _).symm

theorem hitchSig_adds (h : dispatchable s line.toNat o opHitchSig = true) (hrec : recordOpen s line.toNat = true) :
    Answers (.hitchSig line) s (fun t =>
      Finished (hitchAdd s (hwHitch o.desc) (hwValue o.desc) (some line.toNat)) t line.toNat o.seq o.status o.flags s.belay.epoch
        o.desc (bytesOf 4 ((hitchGet s (hwHitch o.desc)).count + hwValue o.desc).toNat) ∧
      (∀ j : Nat, (hitchGet t j).count = (hitchGet s j).count + (if j = hwHitch o.desc then hwValue o.desc else 0) +
        (if dDoneSig o.desc && j == dDoneHitch o.desc then 1 else 0))) := by
  obtain ⟨-, -, -, htrack⟩ := dispatchable_iff _ _ _ _ h
  have hf := finishOp_dispatched (s := s) (u := hitchAdd s (hwHitch o.desc) (hwValue o.desc) (some line.toNat))
    (bytesOf 4 (hitchGet (hitchAdd s (hwHitch o.desc) (hwValue o.desc) (some line.toNat)) (hwHitch o.desc)).count.toNat) hrec htrack
  have hrun := onDispatch_run s line.toNat opHitchSig (fun o =>
    let s1 := hitchAdd s (hwHitch o.desc) (hwValue o.desc) (some line.toNat)
    finishOp s1 line.toNat (opDispatch s o) stOk (bytesOf 4 (hitchGet s1 (hwHitch o.desc)).count.toNat)) o h
  rw [hitchAdd_count] at hf
  dsimp only at hrun
  rw [hitchAdd_count] at hrun
  exact ⟨_, hrun, hf, fun j => by rw [hf.signal, hitchAdd_counts]⟩

end

/-- Settles O26, opcode by opcode. -/
theorem hitchOperations : Obligations.HitchOperations := by
  intro line o s
  simp only [← hitchMet_iff]
  exact ⟨fun h => ⟨hitchWait_retires h, hitchWait_enters h⟩,
    fun hw hrec => ⟨fun hmet => hitchWaitSatisfied_retires hw hmet hrec,
      fun hmet hset hdue => hitchTimeout_ends hw hmet hset hdue hrec, hitchTimeout_stays hw⟩, hitchSig_adds⟩

/-! ### LOOP (R280, R281) -/

/-- The loop that a LOOP dispatches into: the active one, or the one that it activates. -/
def loopOf (l : Line) (o : OpEnt) : LoopSt :=
  l.loop.getD { slot := o.slot, dist := loopDist o.desc, left := loopCount o.desc, breakPending := false }

/-- A loop that is broken or spent ends (R280, R281). -/
theorem loopStep_ends {ring : Nat} {l : Line} {slot : Nat} {lp : LoopSt} (h : lp.breakPending = true ∨ lp.left = 0) :
    loopStep ring l slot lp =
      ({ l with loop := none, fetch := (slot + 1) % ring, head := (slot + 1) % ring }, lp.left, false) := by
  rw [loopStep, if_pos (by simpa using h)]

/-- A loop that goes on returns FETCH by its distance (R280). -/
theorem loopStep_goesOn {ring : Nat} {l : Line} {slot : Nat} {lp : LoopSt} (hbreak : lp.breakPending = false) (hleft : lp.left ≠ 0) :
    let left := if lp.left = 0xFFFFFFFF then lp.left else lp.left - 1
    let first := (slot + ring - lp.dist) % ring
    loopStep ring l slot lp = ({ l with loop := some { lp with left := left }, fetch := first, head := first }, left, true) := by
  intro left first
  rw [loopStep, if_neg (by simpa [hbreak] using hleft)]

section
variable {s : State} {line : LineNo} {o : OpEnt} (h : dispatchable s line.toNat o opLoop = true)
  (hrec : recordOpen s line.toNat = true)
include h hrec

/-- A LOOP into a loop at its own slot steps it, and ends OK. -/
theorem loop_steps {lp : LoopSt} {l : Line} {left : W32} {taken : Bool} (hlp : loopOf (lineGet s line.toNat) o = lp)
    (hslot : lp.slot = o.slot)
    (hstep : loopStep (ringSize s line.toNat) (lineGet s line.toNat) o.slot lp = (l, left, taken))
    (hcq : l.cqTail = (lineGet s line.toNat).cqTail) :
    Answers (.loop line) s (fun t => Finished (lineSet s line.toNat l) t line.toNat o.seq o.status o.flags s.belay.epoch o.desc
      (bytesOf 4 left.toNat ++ bytesOf 4 (if taken then 1 else 0))) := by
  have hrun : exec (.loop line) s = .next (finishOp (lineSet s line.toNat l) line.toNat (opDispatch s o) stOk
      (bytesOf 4 left.toNat ++ bytesOf 4 (if taken then 1 else 0))) := by
    refine (onDispatch_run s line.toNat opLoop _ o h).trans ?_
    subst hlp
    unfold loopOf at hslot hstep
    dsimp only
    cases hl : (lineGet s line.toNat).loop with
    | none =>
      rw [hl, Option.getD_none] at hstep
      dsimp only
      rw [hstep]
    | some lp =>
      rw [hl, Option.getD_some] at hslot hstep
      dsimp only
      rw [if_pos hslot, hstep]
  obtain ⟨-, -, -, htrack⟩ := dispatchable_iff _ _ _ _ h
  have hopen : recordOpen (lineSet s line.toNat l) line.toNat = true := by
    rw [((lineSet_keeps s line.toNat l).recordSame rfl).recordOpen (by rw [lineGet_lineSet_self, hcq]), hrec]
  exact ⟨_, hrun, finishOp_dispatched _ hopen htrack⟩

/-- A LOOP at another slot than the active loop's is rejected, and the loop stays (R280). -/
theorem loop_rejects {lp : LoopSt} (hl : (lineGet s line.toNat).loop = some lp) (hslot : lp.slot ≠ o.slot) :
    Answers (.loop line) s (fun t =>
      Finished s t line.toNat o.seq stDescInvalid 0 s.belay.epoch o.desc [] ∧ (lineGet t line.toNat).loop = some lp) := by
  obtain ⟨-, -, -, htrack⟩ := dispatchable_iff _ _ _ _ h
  have hf := rejectOp_rejects stDescInvalid hrec htrack
  have hrun : exec (.loop line) s = .next (rejectOp s line.toNat o stDescInvalid) := by
    refine (onDispatch_run s line.toNat opLoop _ o h).trans ?_
    simp only [hl]
    exact congrArg _ (if_neg hslot)
  exact ⟨_, hrun, hf, hf.loop.trans hl⟩

end

/-- Settles O28: a LOOP at its own slot ends its loop or goes on, one at another slot is rejected. -/
theorem loopDispatches : Obligations.LoopDispatches := by
  intro line o lp s h hrec
  refine ⟨fun hlp => ?_, fun hl hslot => loop_rejects h hrec hl hslot⟩
  have hof : loopOf (lineGet s line.toNat) o = lp ∧ lp.slot = o.slot := by
    rcases hlp with ⟨hl, hslot⟩ | ⟨hl, rfl⟩
    · exact ⟨by rw [loopOf, hl]; rfl, hslot⟩
    · exact ⟨by rw [loopOf, hl]; rfl, rfl⟩
  obtain ⟨hlp, hslot⟩ := hof
  exact ⟨fun hend => loop_steps h hrec hlp hslot (loopStep_ends hend) rfl,
    fun hbreak hleft => loop_steps h hrec hlp hslot (loopStep_goesOn hbreak hleft) rfl⟩

end Sys2Proof.Machine
end

section
/-! SUPPORT. What an entry set leaves, and the resumes that wait for an operation (R282 to R286). -/

set_option Elab.async false

namespace Sys2Proof.Machine

open Sys2Proof

/-! ### An entry set -/

/-- An entry set leaves every operation with another number. -/
theorem opFind_opSet_seq_ne (s : State) (n : Nat) (p : OpEnt) {q : Nat} (hq : q ≠ p.seq) : opFind (opSet s n p) n q = opFind s n q := by
  have hcomp : (fun x : OpEnt => decide (x.seq = q)) ∘ (fun x => if x.seq = p.seq then p else x) = fun x => decide (x.seq = q) := by
    funext x
    by_cases hx : x.seq = p.seq <;> simp [hx]
  rw [opFind, opFind, lineGet_opSet, List.find?_map, hcomp]
  cases hf : (lineGet s n).ops.find? (fun x => decide (x.seq = q)) with
  | none => rfl
  | some x =>
    have hx : x.seq = q := by simpa using List.find?_some hf
    rw [Option.map_some, if_neg (by rwa [hx])]

/-- Each operation's entry after one is set in place of an operation found. -/
theorem opFind_opSet_eq {s : State} {n q : Nat} {o p : OpEnt} (h : opFind s n q = some o) (hp : p.seq = o.seq) (m k : Nat) :
    opFind (opSet s n p) m k = if m = n ∧ k = q then some p else opFind s m k := by
  have hq : p.seq = q := hp.trans (seq_of_opFind h)
  by_cases hm : m = n
  · subst hm
    by_cases hk : k = q
    · rw [hk, if_pos ⟨rfl, rfl⟩, opFind_opSet_of_opFind h hp]
    · rw [if_neg (fun e => hk e.2), opFind_opSet_seq_ne _ _ _ (by rwa [hq])]
  · rw [if_neg (fun e => hm e.1), opFind, opFind, lineGet_opSet_ne _ _ hm]

/-- An operation found is in flight under the number of its new entry. -/
theorem mem_of_opFind {s : State} {n q : Nat} {o p : OpEnt} (h : opFind s n q = some o) (hp : p.seq = o.seq) :
    ∃ x ∈ (lineGet s n).ops, x.seq = p.seq :=
  ⟨o, List.mem_of_find?_eq_some h, hp.symm⟩

/-- An entry set in place of one found: every clause of `Entered`. -/
theorem opSet_entered {s : State} {n q : Nat} {o p : OpEnt} (h : opFind s n q = some o) (hp : p.seq = o.seq) :
    Entered s (opSet s n p) n p where
  entry := opFind_opSet s n p (mem_of_opFind h hp)
  others := fun _ hk => opFind_opSet_seq_ne s n p hk
  line := ⟨(lineGet s n).seen, (lineGet s n).since, (lineGet s n).takeReady, lineGet_opSet s n p⟩
  lines := fun _ hm => lineGet_opSet_ne s p hm

/-- An entry stands in every state with the same lines. -/
theorem Entered.lines_eq {s t u : State} {n : Nat} {o : OpEnt} (h : Entered s t n o) (hl : u.lines = t.lines) : Entered s u n o where
  entry := (opFind_congr hl n o.seq).trans h.entry
  others := fun q hq => (opFind_congr hl n q).trans (h.others q hq)
  line := by
    rw [lineGet_congr hl]
    exact h.line
  lines := fun m hm => (lineGet_congr hl m).trans (h.lines m hm)

/-! ### The CTRL descriptors that wait for a resume (R286) -/

/-- The operation is a CTRL that waits for the resume of operation `seq` of line `n`. -/
def waitsFor (n seq : Nat) (x : OpEnt) : Bool :=
  opcodeOf x.desc = opCtrl && x.dispatched && x.resumeBy == some (some (n, seq)) && x.track = .running

theorem resumeWaiters_eq (s : State) (n seq : Nat) :
    resumeWaiters s n seq = s.lines.flatMap (fun p => (p.2.ops.filter (waitsFor n seq)).map (Prod.mk p.1)) := rfl

/-- A CTRL that waits is running. -/
theorem running_of_resumeWaiters {s : State} {n seq m : Nat} {x : OpEnt} (h : (m, x) ∈ resumeWaiters s n seq) :
    x.track = .running := by
  rw [resumeWaiters_eq, List.mem_flatMap] at h
  obtain ⟨p, -, hp⟩ := h
  obtain ⟨y, hy, hyx⟩ := List.mem_map.1 hp
  obtain rfl : y = x := congrArg Prod.snd hyx
  have hw := (List.mem_filter.1 hy).2
  simp only [waitsFor, Bool.and_eq_true, decide_eq_true_eq] at hw
  exact hw.2

/-- A map written at a key whose entries give nothing, before and after, gives what it gave. -/
theorem flatMap_mapSet {V β : Type} [DecidableEq V] (d : V) (f : Nat × V → List β) {m : SMap V} {k : Nat} {v : V}
    (hold : ∀ p ∈ m, p.1 = k → f p = []) (hnew : f (k, v) = []) : (mapSet d m k v).flatMap f = m.flatMap f := by
  have hins : (mapIns m k v).flatMap f = m.flatMap f := by
    induction m with
    | nil => simp [mapIns, hnew]
    | cons p m ih =>
      have hrest := ih (fun x hx => hold x (List.mem_cons_of_mem _ hx))
      rw [mapIns]
      split
      · simp [hrest]
      · split
        next hk => simp [hnew, hold p List.mem_cons_self hk]
        · simp [hnew]
  have hdel : (m.filter (fun p => p.1 != k)).flatMap f = m.flatMap f := by
    clear hins
    induction m with
    | nil => rfl
    | cons p m ih =>
      have hrest := ih (fun x hx => hold x (List.mem_cons_of_mem _ hx))
      by_cases hk : p.1 = k
      · simp [hk, hrest, hold p List.mem_cons_self hk]
      · simp [hk, hrest]
  rw [mapSet]
  split
  · exact hdel
  · exact hins

/-- No CTRL of a line waits for the resume. -/
def NoWaiter (s : State) (k n seq : Nat) : Prop := ∀ x ∈ (lineGet s k).ops, waitsFor n seq x = false

/-- Where no CTRL that waits is of line `k`, its entries hold none. -/
theorem filter_waitsFor_nil {s : State} {k n seq : Nat} (h : ∀ y ∈ resumeWaiters s n seq, y.1 ≠ k) {l : Line} (hl : (k, l) ∈ s.lines) :
    l.ops.filter (waitsFor n seq) = [] := by
  refine List.eq_nil_iff_forall_not_mem.2 (fun x hx => ?_)
  refine h (k, x) ?_ rfl
  rw [resumeWaiters_eq]
  exact List.mem_flatMap.2 ⟨(k, l), hl, List.mem_map.2 ⟨x, hx, rfl⟩⟩

theorem noWaiter_of {s : State} {k n seq : Nat} (h : ∀ y ∈ resumeWaiters s n seq, y.1 ≠ k) : NoWaiter s k n seq := by
  intro x hx
  cases hf : mapFind s.lines k with
  | none =>
    rw [lineGet, mapGet, hf] at hx
    cases hx
  | some l =>
    rw [lineGet, mapGet, hf] at hx
    have hnil := List.filter_eq_nil_iff.1 (filter_waitsFor_nil h (mem_of_mapFind hf)) x hx
    simpa using hnil

/-- A line written with no CTRL that waits, where none waited, leaves the CTRLs that wait. -/
theorem resumeWaiters_lineSet {s : State} {k n seq : Nat} {l : Line} (h : ∀ y ∈ resumeWaiters s n seq, y.1 ≠ k)
    (hl : ∀ x ∈ l.ops, waitsFor n seq x = false) : resumeWaiters (lineSet s k l) n seq = resumeWaiters s n seq := by
  rw [resumeWaiters_eq, resumeWaiters_eq]
  refine flatMap_mapSet Line.reset _ (fun p hp hk => ?_) ?_
  · subst hk
    rw [filter_waitsFor_nil h hp]
    rfl
  · rw [List.filter_eq_nil_iff.2 (fun x hx => by simp [hl x hx])]
    rfl

theorem resumeWaiters_congr {s t : State} (h : t.lines = s.lines) (n seq : Nat) : resumeWaiters t n seq = resumeWaiters s n seq := by
  rw [resumeWaiters, resumeWaiters, h]

theorem resumeWaiters_noteLine {s : State} {k n seq : Nat} (h : ∀ y ∈ resumeWaiters s n seq, y.1 ≠ k) :
    resumeWaiters (noteLine s k) n seq = resumeWaiters s n seq := by
  unfold noteLine
  dsimp only
  split
  · exact resumeWaiters_lineSet h (noWaiter_of h)
  · split
    · rw [resumeWaiters_congr ((sendVec_keeps ..).same .lines rfl)]
      exact resumeWaiters_lineSet h (noWaiter_of h)
    · exact resumeWaiters_lineSet h (noWaiter_of h)

/-- An entry that waits for nothing, set where none waited, leaves the CTRLs that wait. -/
theorem resumeWaiters_opSet {s : State} {k n seq : Nat} {o : OpEnt} (h : ∀ y ∈ resumeWaiters s n seq, y.1 ≠ k)
    (ho : o.resumeBy = none) : resumeWaiters (opSet s k o) n seq = resumeWaiters s n seq := by
  refine resumeWaiters_lineSet h (fun x hx => ?_)
  obtain ⟨y, hy, rfl⟩ := List.mem_map.1 hx
  split
  · simp [waitsFor, ho]
  · exact noWaiter_of h y hy

/-! ### Resumes that settle (R284, R286) -/

/-- The host's request, if one waits, reads OK and is no longer busy. -/
def hostAnsweredOk (s : State) (host : Bool) : State :=
  if host then { s with regs := { s.regs with ctrlBusy := false, ctrlStatus := BitVec.ofNat 8 stOk } } else s

theorem hostAnsweredOk_keeps (s : State) (host : Bool) : Keeps [.regs] s (hostAnsweredOk s host) := by
  unfold hostAnsweredOk
  split
  · exact Keeps.upd (Keeps.refl _ _)
  · exact .refl _ _

theorem settleResumes_eq (s : State) (n seq : Nat) (host : Bool) :
    settleResumes s n seq host =
      (resumeWaiters s n seq).foldl (fun t p => finishOp t p.1 p.2 stOk (ctrlBytes p.2.desc)) (hostAnsweredOk s host) := by
  have hsame := resumeWaiters_congr ((hostAnsweredOk_keeps s host).same .lines rfl) n seq
  rw [← hsame]
  rfl

/-- The entry of a suspended operation that a resume sets running. -/
def resumed (o : OpEnt) : OpEnt :=
  { o with track := .running, resumeBy := none, suspendedBy := none, readyAt := none, splReady := [] }

@[simp] theorem resumed_seq (o : OpEnt) : (resumed o).seq = o.seq := rfl

/-- A resume takes effect: the entry, and what waits for it. -/
theorem resumeOp_eq {s : State} {n q : Nat} {o : OpEnt} (hseq : o.seq = q) (h : ∀ y ∈ resumeWaiters s n q, y.1 ≠ n) :
    resumeOp s n o = (resumeWaiters s n q).foldl (fun t p => finishOp t p.1 p.2 stOk (ctrlBytes p.2.desc))
      (hostAnsweredOk (noteLine (opSet s n (resumed o)) n) (o.resumeBy == some none)) := by
  have hset := resumeWaiters_opSet (o := resumed o) h rfl
  have hnote := resumeWaiters_noteLine (s := opSet s n (resumed o)) (by rwa [hset])
  rw [show resumeOp s n o = settleResumes (noteLine (opSet s n (resumed o)) n) n o.seq (o.resumeBy == some none) from rfl,
    settleResumes_eq, hseq, hnote, hset]

/-- A resume for which no CTRL waits sets the operation running. -/
theorem resumeOp_alone {s : State} {n q : Nat} {o : OpEnt} (h : opFind s n q = some o) (hw : resumeWaiters s n q = []) :
    resumeOp s n o = hostAnsweredOk (noteLine (opSet s n (resumed o)) n) (o.resumeBy == some none) ∧
    Entered s (resumeOp s n o) n (resumed o) ∧ Keeps [.regs, .port, .lines, .pmu] s (resumeOp s n o) := by
  have heq := resumeOp_eq (seq_of_opFind h) (s := s) (n := n) (by simp [hw])
  rw [hw] at heq
  have hanswer := hostAnsweredOk_keeps (noteLine (opSet s n (resumed o)) n) (o.resumeBy == some none)
  refine ⟨heq, ?_, ?_⟩
  · rw [heq]
    exact (entered_opSet s n (resumed o) (mem_of_opFind h rfl)).lines_eq (hanswer.same .lines rfl)
  · rw [heq]
    exact ((enter_keeps ..).mono rfl).step hanswer rfl

/-! ### The entry that a cancel leaves (R275, R283) -/

/-- The entry of an operation that a cancel has reached. -/
def cancelled (cause : Nat) (o : OpEnt) : OpEnt :=
  { o with track := .cancelPending, cancelStatus := cause, resumeBy := if opcodeOf o.desc = opCtrl then o.resumeBy else none }

@[simp] theorem cancelled_seq (cause : Nat) (o : OpEnt) : (cancelled cause o).seq = o.seq := rfl

/-- A cancel of an operation that runs or is about to suspend changes its entry alone. -/
theorem cancelOp_eq {o : OpEnt} (s : State) (n cause : Nat) (h1 : o.track ≠ .cancelPending) (h2 : o.track ≠ .suspended) :
    cancelOp s n o cause = opSet s n (cancelled cause o) := by
  rw [cancelOp, if_neg h1, if_neg h2]
  rfl

end Sys2Proof.Machine
end

section
/-! SUPPORT. SUSPEND, RESUME and CANCEL, by the host and by a CTRL descriptor (O29, O30, O31, R274, R282 to R288). -/

set_option Elab.async false

namespace Sys2Proof.Machine

open Sys2Proof

/-! ### The outcome on the target (R284) -/

/-- The request of an action: SUSPEND, RESUME, CANCEL. -/
def ctrlInstr (act : Nat) (src : CtrlSrc) : Instr :=
  if act = 0 then .suspend src else if act = 1 then .resume src else .cancel src

/-- The outcome of an action on an operation. -/
def ctrlOn (s : State) (act n q : Nat) (by_ : Option Nat) : State × Option Nat := ctrlApply endSuspended s act n q by_

section
variable {s : State} {n q : Nat} (by_ : Option Nat)

theorem ctrlOn_gone (act : Nat) (h : opFind s n q = none) : ctrlOn s act n q by_ = (s, some stAlreadyDone) := by
  rw [ctrlOn, ctrlApply, h]

variable {o : OpEnt} (h : opFind s n q = some o)
include h

theorem ctrlOn_unsuspendable {act : Nat} (hact : act ≠ 2) (hs : suspendable (opcodeOf o.desc) = false) :
    ctrlOn s act n q by_ = (s, some stDescInvalid) := by
  simp [ctrlOn, ctrlApply, h, hact, hs]

theorem ctrlOn_neverCancelled (hc : neverCancelled (opcodeOf o.desc) = true) : ctrlOn s 2 n q by_ = (s, some stAlreadyDone) := by
  simp [ctrlOn, ctrlApply, h, hc]

theorem ctrlOn_suspends (hs : suspendable (opcodeOf o.desc) = true) (ht : o.track = .running) :
    ctrlOn s 0 n q by_ = (opSet s n { o with track := .suspendPending, suspendedBy := by_ }, some stOk) := by
  simp [ctrlOn, ctrlApply, h, hs, ht]

theorem ctrlOn_unsuspends (hs : suspendable (opcodeOf o.desc) = true) (ht : o.track = .suspendPending) :
    ctrlOn s 1 n q by_ = (opSet s n { o with track := .running, suspendedBy := none }, some stOk) := by
  simp [ctrlOn, ctrlApply, h, hs, ht]

theorem ctrlOn_resumes (hs : suspendable (opcodeOf o.desc) = true) (ht : o.track = .suspended) (hroom : resumeRoom s n = true) :
    ctrlOn s 1 n q by_ = (resumeOp s n o, some stOk) := by
  simp [ctrlOn, ctrlApply, h, hs, ht, hroom]

theorem ctrlOn_waits (hs : suspendable (opcodeOf o.desc) = true) (ht : o.track = .suspended) (hroom : resumeRoom s n = false) :
    ctrlOn s 1 n q by_ = (s, none) := by
  simp [ctrlOn, ctrlApply, h, hs, ht, hroom]

theorem ctrlOn_cancels (hc : neverCancelled (opcodeOf o.desc) = false) (ht : o.track = .running ∨ o.track = .suspendPending) :
    ctrlOn s 2 n q by_ = (opSet s n (cancelled stCancelled o), some stOk) := by
  have h1 : o.track ≠ .cancelPending := by rcases ht with ht | ht <;> rw [ht] <;> decide
  have h2 : o.track ≠ .suspended := by rcases ht with ht | ht <;> rw [ht] <;> decide
  simp [ctrlOn, ctrlApply, h, hc, h2, cancelOp_eq s n stCancelled h1 h2]

/-- A cancel of a suspended operation ends it. -/
theorem ctrlOn_ends {o1 : OpEnt} (hc : neverCancelled (opcodeOf o.desc) = false) (ht : o.track = .suspended)
    (h1 : opFind (cancelOp s n o stCancelled) n q = some o1) :
    ctrlOn s 2 n q by_ = (endSuspended (cancelOp s n o stCancelled) n o1, some stOk) := by
  simp [ctrlOn, ctrlApply, h, hc, ht, h1]

end

/-! ### The host's requests (R282, R284, R299) -/

/-- The host's status after a request. -/
def ctrlAnswered (s : State) (st : Nat) : State := { s with regs := { s.regs with ctrlStatus := BitVec.ofNat 8 st } }

theorem ctrlAnswered_keeps (s : State) (st : Nat) : Keeps [.regs] s (ctrlAnswered s st) := Keeps.upd (Keeps.refl _ _)

section
variable {s : State} {target : LineNo} {seq : Seq} (ht : hostTurn s = true) (hb : s.regs.ctrlBusy = false)
include ht

/-- A request of the host in its turn. -/
theorem hostCtrl_run {act : Nat} (hact : act ≤ 2) :
    exec (ctrlInstr act (.host target seq)) s = ctrlNow endSuspended act (.host target seq) s := by
  interval_cases act <;> exact hostLane_turn ht _ _

include hb

/-- A request that LINE_CTRL takes: on an enabled line, with a number that the line has assigned (R282, R284). -/
theorem hostCtrl_eq {act : Nat} (hact : act ≤ 2) :
    exec (ctrlInstr act (.host target seq)) s =
      if !lineOn s target.toNat || unassigned s target.toNat seq.toNat then .next (ctrlAnswered s stDescInvalid)
      else match (ctrlOn s act target.toNat seq.toNat none).2 with
        | some st => .next (ctrlAnswered (ctrlOn s act target.toNat seq.toNat none).1 st)
        | none => match opFind s target.toNat seq.toNat with
          | some o => .next { opSet s target.toNat { o with resumeBy := some none } with regs := { s.regs with ctrlBusy := true } }
          | none => .next s := by
  rw [hostCtrl_run ht hact, ctrlNow]
  dsimp only
  rw [if_neg (by simp [hostReach_of_hostTurn ht, hb])]
  rfl

/-- A request on a disabled line, or with a number not assigned yet, reads DESC_INVALID. -/
theorem hostCtrl_refused {act : Nat} (hact : act ≤ 2) (h : lineOn s target.toNat = false ∨ unassigned s target.toNat seq.toNat = true) :
    exec (ctrlInstr act (.host target seq)) s = .next (ctrlAnswered s stDescInvalid) :=
  (hostCtrl_eq ht hb hact).trans (if_pos (by rcases h with h | h <;> simp [h]))

variable (hon : lineOn s target.toNat = true) (hassigned : unassigned s target.toNat seq.toNat = false)
include hon hassigned

/-- A request whose outcome has a status reads it. -/
theorem hostCtrl_answered {act st : Nat} {u : State} (hact : act ≤ 2)
    (h : ctrlOn s act target.toNat seq.toNat none = (u, some st)) :
    exec (ctrlInstr act (.host target seq)) s = .next (ctrlAnswered u st) := by
  rw [hostCtrl_eq ht hb hact, if_neg (by simp [hon, hassigned]), h]

/-- A resume without ring room waits, and the host's request stays busy. -/
theorem hostCtrl_waits {act : Nat} {o : OpEnt} (hact : act ≤ 2) (ho : opFind s target.toNat seq.toNat = some o)
    (h : ctrlOn s act target.toNat seq.toNat none = (s, none)) :
    exec (ctrlInstr act (.host target seq)) s =
      .next { opSet s target.toNat { o with resumeBy := some none } with regs := { s.regs with ctrlBusy := true } } := by
  rw [hostCtrl_eq ht hb hact, if_neg (by simp [hon, hassigned]), h, ho]

/-- A request that sets the operation's entry to `p` reads OK. -/
theorem hostCtrl_sets {act : Nat} {o p : OpEnt} (hact : act ≤ 2) (ho : opFind s target.toNat seq.toNat = some o) (hp : p.seq = o.seq)
    (h : ctrlOn s act target.toNat seq.toNat none = (opSet s target.toNat p, some stOk)) :
    Answers (ctrlInstr act (.host target seq)) s (fun t =>
      Entered s t target.toNat p ∧ t.regs = { s.regs with ctrlStatus := BitVec.ofNat 8 stOk } ∧ OnlyIn [.regs, .lines] s t) :=
  ⟨_, hostCtrl_answered ht hb hon hassigned hact h, (opSet_entered ho hp).lines_eq rfl, rfl,
    (((opSet_keeps ..).mono rfl).step (ctrlAnswered_keeps ..) rfl).only⟩

/-- A resume with ring room, for which no CTRL waits, sets the operation running. -/
theorem hostCtrl_resumes {o : OpEnt} (ho : opFind s target.toNat seq.toNat = some o) (hs : suspendable (opcodeOf o.desc) = true)
    (htrack : o.track = .suspended) (hroom : resumeRoom s target.toNat = true)
    (hw : resumeWaiters s target.toNat seq.toNat = []) :
    Answers (.resume (.host target seq)) s (fun t =>
      Entered s t target.toNat (resumed o) ∧ t.regs.ctrlStatus = BitVec.ofNat 8 stOk ∧ t.regs.ctrlBusy = false ∧
        OnlyIn [.regs, .port, .lines, .pmu] s t) := by
  have hrun := hostCtrl_answered ht hb hon hassigned (act := 1) (by decide) (ctrlOn_resumes none ho hs htrack hroom)
  obtain ⟨heq, hentered, hk⟩ := resumeOp_alone ho hw
  have hbusy : (resumeOp s target.toNat o).regs.ctrlBusy = false := by
    have hregs : (noteLine (opSet s target.toNat (resumed o)) target.toNat).regs = s.regs := (enter_keeps ..).same .regs rfl
    rw [heq, hostAnsweredOk]
    split
    · rfl
    · rw [hregs, hb]
  exact ⟨_, hrun, hentered.lines_eq rfl, rfl, hbusy, (hk.step (ctrlAnswered_keeps ..) rfl).only⟩

end

/-- Settles O29, action by action. -/
theorem hostControlsOperations : Obligations.HostControlsOperations := by
  intro target seq s ht hb n src answer
  refine ⟨fun h => ⟨hostCtrl_refused ht hb (act := 0) (by decide) h, hostCtrl_refused ht hb (act := 1) (by decide) h,
    hostCtrl_refused ht hb (act := 2) (by decide) h⟩, fun hon hassigned => ?_⟩
  have hanswer {act st : Nat} (hact : act ≤ 2) (h : ctrlOn s act n seq.toNat none = (s, some st)) : answer (ctrlInstr act src) st :=
    hostCtrl_answered ht hb hon hassigned hact h
  refine ⟨fun hgone => ⟨hanswer (act := 0) (by decide) (ctrlOn_gone none 0 hgone), hanswer (act := 1) (by decide) (ctrlOn_gone none 1 hgone),
    hanswer (act := 2) (by decide) (ctrlOn_gone none 2 hgone)⟩, fun o ho => ⟨fun hs => ?_, fun hc => ?_, fun hs => ⟨fun htrack => ?_,
      fun htrack => ?_, fun htrack hroom hw => ?_, fun htrack hroom => ?_⟩, fun hc htrack => ?_⟩⟩
  · exact ⟨hanswer (act := 0) (by decide) (ctrlOn_unsuspendable none ho (by decide) hs),
      hanswer (act := 1) (by decide) (ctrlOn_unsuspendable none ho (by decide) hs)⟩
  · exact hanswer (act := 2) (by decide) (ctrlOn_neverCancelled none ho hc)
  · exact hostCtrl_sets ht hb hon hassigned (act := 0) (by decide) ho rfl (ctrlOn_suspends none ho hs htrack)
  · exact hostCtrl_sets ht hb hon hassigned (act := 1) (by decide) ho rfl (ctrlOn_unsuspends none ho hs htrack)
  · exact hostCtrl_resumes ht hb hon hassigned ho hs htrack hroom hw
  · refine ⟨_, hostCtrl_waits ht hb hon hassigned (act := 1) (by decide) ho (ctrlOn_waits none ho hs htrack hroom),
      (opSet_entered (p := { o with resumeBy := some none }) ho rfl).lines_eq rfl, rfl, ?_⟩
    exact (Keeps.upd ((opSet_keeps ..).mono rfl)).only
  · exact hostCtrl_sets ht hb hon hassigned (act := 2) (by decide) ho rfl (ctrlOn_cancels none ho hc htrack)

/-! ### CTRL descriptors (R282, R286) -/

/-- The dispatch of a CTRL descriptor, by the outcome on its target. -/
def ctrlRun (s : State) (act n : Nat) (o : OpEnt) : State :=
  let r := ctrlOn s act (ctrlLine o.desc) (ctrlSeq o.desc) (some n)
  match r.2 with
  | some st => finishOp r.1 n (opDispatch s o) st (ctrlBytes o.desc)
  | none => noteLine (opSet s n { opDispatch s o with resumeBy := some (some (ctrlLine o.desc, ctrlSeq o.desc)) }) n

section
variable {s : State} {line : LineNo} {o : OpEnt} (h : dispatchable s line.toNat o opCtrl = true)
  (hact : ctrlAction o.desc ≤ 2)
include h hact

theorem descCtrl_eq : exec (ctrlInstr (ctrlAction o.desc) (.desc line)) s = .next (ctrlRun s (ctrlAction o.desc) line.toNat o) := by
  obtain ⟨hu, hop, -, -⟩ := dispatchable_iff _ _ _ _ h
  generalize ha : ctrlAction o.desc = act at hact ⊢
  have hnow : ctrlNow endSuspended act (.desc line) s = .next (ctrlRun s act line.toNat o) := by
    rw [ctrlNow]
    dsimp only
    rw [hu]
    dsimp only
    rw [if_pos (by simp [hop, ha])]
    exact onDispatch_run s line.toNat opCtrl _ o h
  interval_cases act <;> exact hnow

/-- A CTRL whose outcome has a status gets its record. -/
theorem descCtrl_ends {u : State} {st : Nat}
    (hon : ctrlOn s (ctrlAction o.desc) (ctrlLine o.desc) (ctrlSeq o.desc) (some line.toNat) = (u, some st))
    (hrec : recordOpen u line.toNat = true) :
    Answers (ctrlInstr (ctrlAction o.desc) (.desc line)) s (fun t =>
      Finished u t line.toNat o.seq (if st = stOk then o.status else st) o.flags s.belay.epoch o.desc (ctrlBytes o.desc)) := by
  have hrun := descCtrl_eq h hact
  rw [ctrlRun, hon] at hrun
  obtain ⟨-, -, -, htrack⟩ := dispatchable_iff _ _ _ _ h
  have hf := finishOp_finished u line.toNat (opDispatch s o) st (ctrlBytes o.desc) hrec
  rw [endStatus, if_neg (show (opDispatch s o).track ≠ .cancelPending from htrack)] at hf
  exact ⟨_, hrun, hf⟩

/-- A CTRL whose resume must wait for ring room enters the tracker. -/
theorem descCtrl_waits
    (hon : ctrlOn s (ctrlAction o.desc) (ctrlLine o.desc) (ctrlSeq o.desc) (some line.toNat) = (s, none)) :
    Answers (ctrlInstr (ctrlAction o.desc) (.desc line)) s (fun t =>
      Entered s t line.toNat { opDispatch s o with resumeBy := some (some (ctrlLine o.desc, ctrlSeq o.desc)) } ∧ SameBytes s t ∧
        OnlyIn [.port, .lines, .pmu] s t) := by
  have hrun := descCtrl_eq h hact
  rw [ctrlRun, hon] at hrun
  obtain ⟨hu, -⟩ := dispatchable_iff _ _ _ _ h
  have hk := enter_keeps s line.toNat { opDispatch s o with resumeBy := some (some (ctrlLine o.desc, ctrlSeq o.desc)) }
  exact ⟨_, hrun, enter_entered hu rfl, hk.sameBytes rfl rfl, hk.only⟩

end

/-- Settles O30, action by action. -/
theorem ctrlDescriptorsControl : Obligations.CtrlDescriptorsControl := by
  intro line o s h n m q act c ends hact _
  have hends {u : State} {st : Nat} (hon : ctrlOn s act m q (some n) = (u, some st)) : ends u (if st = stOk then o.status else st) :=
    descCtrl_ends h hact hon
  refine ⟨fun hgone => hends (ctrlOn_gone _ act hgone), fun x hx => ⟨fun ha hs => hends (ctrlOn_unsuspendable _ hx ha hs),
    fun ha hc => ?_, fun ha hs ht => ?_, fun ha hs ht => ?_, fun ha hs ht hroom => ?_, fun ha hs ht hroom => ?_,
    fun ha hc ht => ?_⟩⟩
  · exact hends (st := stAlreadyDone) (by rw [ha]; exact ctrlOn_neverCancelled _ hx hc)
  · exact hends (st := stOk) (by rw [ha]; exact ctrlOn_suspends _ hx hs ht)
  · exact hends (st := stOk) (by rw [ha]; exact ctrlOn_unsuspends _ hx hs ht)
  · exact hends (st := stOk) (by rw [ha]; exact ctrlOn_resumes _ hx hs ht hroom)
  · refine descCtrl_waits h hact ?_
    rw [show ctrlAction o.desc = 1 from ha]
    exact ctrlOn_waits _ hx hs ht hroom
  · exact hends (st := stOk) (by rw [ha]; exact ctrlOn_cancels _ hx hc ht)

/-! ### A waiting resume (R286) -/

section
variable {s : State} {line : LineNo} {seq : Seq} {o : OpEnt} (ho : opFind s line.toNat seq.toNat = some o)
include ho

theorem resumeTakesEffect_eq : exec (.resumeTakesEffect line seq) s = .next (
    if o.track = .suspended && resumeRoom s line.toNat &&
      (!(resumeWaiters s line.toNat seq.toNat).isEmpty || o.resumeBy == some none) then resumeOp s line.toNat o else s) := by
  rw [show exec (.resumeTakesEffect line seq) s = execResumeTakesEffect line seq s from rfl, execResumeTakesEffect]
  simp only [ho, seq_of_opFind ho]
  split <;> rfl

/-- Without room or without a waiting resume nothing happens. -/
theorem resumeTakesEffect_stays (h : resumeRoom s line.toNat = false ∨
    (resumeWaiters s line.toNat seq.toNat = [] ∧ o.resumeBy ≠ some none)) : exec (.resumeTakesEffect line seq) s = .next s := by
  refine (resumeTakesEffect_eq ho).trans (congrArg _ (if_neg ?_))
  rcases h with hroom | ⟨hw, hby⟩
  · simp [hroom]
  · simp [hw, hby]

/-- The host's waiting resume sets the operation running and reads OK. -/
theorem resumeTakesEffect_host (hs : o.track = .suspended) (hroom : resumeRoom s line.toNat = true)
    (hw : resumeWaiters s line.toNat seq.toNat = []) (hby : o.resumeBy = some none) :
    Answers (.resumeTakesEffect line seq) s (fun t =>
      Entered s t line.toNat (resumed o) ∧ t.regs.ctrlBusy = false ∧ t.regs.ctrlStatus = BitVec.ofNat 8 stOk ∧ SameBytes s t ∧
        OnlyIn [.regs, .port, .lines, .pmu] s t) := by
  obtain ⟨heq, hentered, hk⟩ := resumeOp_alone ho hw
  refine ⟨_, (resumeTakesEffect_eq ho).trans (congrArg _ (if_pos (by simp [hs, hroom, hby]))), hentered, ?_, ?_,
    hk.sameBytes rfl rfl, hk.only⟩
  · rw [heq, hby]
    rfl
  · rw [heq, hby]
    rfl

end

/-! ### What a final record leaves of LINE_CTRL's status -/

/-- BUSY and STATUS of LINE_CTRL. -/
def ctrlRegs (s : State) : Bool × BitVec 8 := (s.regs.ctrlBusy, s.regs.ctrlStatus)

theorem Keeps.ctrlRegs {ps : List Part} {s t : State} (h : Keeps ps s t) (hp : ps.contains .regs = false) :
    ctrlRegs t = Machine.ctrlRegs s := by
  rw [Machine.ctrlRegs, Machine.ctrlRegs, (h.same .regs hp : t.regs = s.regs)]

theorem raiseCause_ctrlRegs (s : State) (b : Nat) : ctrlRegs (raiseCause s b) = ctrlRegs s := by
  unfold raiseCause setIrq
  dsimp only
  split
  · exact (sendVec_keeps ..).ctrlRegs rfl
  · rfl

theorem pmuAdd_ctrlRegs (s : State) (code n : Nat) (a : Attr) : ctrlRegs (pmuAdd s code n a) = ctrlRegs s := by
  unfold pmuAdd
  dsimp only
  split
  · exact (raiseCause_ctrlRegs ..).trans ((pmuBase_keeps ..).ctrlRegs rfl)
  · exact (pmuBase_keeps ..).ctrlRegs rfl

/-- A record written where the ring is open is stored in its block, and no error policy runs. -/
theorem writeRecord_ctrlRegs {s : State} {n : Nat} {r : List Byte} (hlen : r.length = 32) (hrec : recordOpen s n = true) :
    ctrlRegs (writeRecord s n r) = ctrlRegs s := by
  obtain ⟨⟨hregion, hstate, htier, hmerge⟩, -⟩ := recordOpen_iff s n hrec
  have hin : recordAt s n % blockBytes + r.length ≤ blockBytes := by
    have hat : recordAt s n % 32 = 0 := by rw [recordAt]; omega
    have hblock : blockBytes = 65536 := rfl
    rw [hblock, hlen]
    omega
  have hput := putRecord_kern s (recordAt s n) r (List.ne_nil_of_length_pos (by omega)) hin hregion hstate htier hmerge
  have hrun : ctrlRegs (writeRecord s n r) = ctrlRegs (putRecord s (recordAt s n) r) := rfl
  rw [hrun, hput]
  exact ((syncChafe_keeps ..).ctrlRegs rfl).trans ((storeAt_keeps ..).ctrlRegs rfl)

theorem finalRecord_ctrlRegs {s : State} {n : Nat} (seq status : Nat) (flags : Byte) (epoch : BitVec 16) (d : BitVec 512)
    (opb : List Byte) (sig irq : Bool) (hrec : recordOpen s n = true) :
    ctrlRegs (finalRecord s n seq status flags epoch d opb sig irq) = ctrlRegs s := by
  unfold finalRecord
  split
  · exact (noteLine_keeps ..).ctrlRegs rfl
  · exact ((noteLine_keeps ..).ctrlRegs rfl).trans
      (((afterRecord_keeps ..).ctrlRegs rfl).trans (writeRecord_ctrlRegs (recordBytes_length ..) hrec))

theorem finishOp_ctrlRegs {s : State} {n : Nat} (o : OpEnt) (st : Nat) (opb : List Byte) (hrec : recordOpen s n = true) :
    ctrlRegs (finishOp s n o st opb) = ctrlRegs s := by
  unfold finishOp
  extract_lets u
  have hu : ctrlRegs u = ctrlRegs s ∧ recordOpen u n = true := by
    unfold u
    split
    · exact ⟨pmuAdd_ctrlRegs .., ((sameLines_pmuAdd ..).recordOpen n).trans hrec⟩
    · exact ⟨rfl, hrec⟩
  exact (finalRecord_ctrlRegs _ _ _ _ _ _ _ _ ((recordOpen_opDrop ..).trans hu.2)).trans hu.1

/-- A CTRL of another line that waits gets its record once the operation runs (R286). -/
theorem resumeTakesEffect_desc {s : State} {line : LineNo} {seq : Seq} {o : OpEnt} {m : Nat} {x : OpEnt}
    (ho : opFind s line.toNat seq.toNat = some o) (hs : o.track = .suspended) (hroom : resumeRoom s line.toNat = true)
    (hw : resumeWaiters s line.toNat seq.toNat = [(m, x)]) (hm : m ≠ line.toNat) :
    let s1 := noteLine (opSet s line.toNat (resumed o)) line.toNat
    recordOpen s1 m = true → Answers (.resumeTakesEffect line seq) s (fun t =>
      Finished s1 t m x.seq x.status x.flags x.epoch x.desc (ctrlBytes x.desc) ∧ opFind t line.toNat seq.toNat = some (resumed o) ∧
        (o.resumeBy = some none → t.regs.ctrlBusy = false ∧ t.regs.ctrlStatus = BitVec.ofNat 8 stOk)) := by
  intro s1 hrec
  let u := hostAnsweredOk s1 (o.resumeBy == some none)
  have heq : resumeOp s line.toNat o = finishOp u m x stOk (ctrlBytes x.desc) := by
    rw [resumeOp_eq (seq_of_opFind ho) (by rw [hw]; simpa using hm), hw]
    rfl
  have hu : Keeps [.regs] s1 u := hostAnsweredOk_keeps ..
  have hlines : u.lines = s1.lines := hu.same .lines rfl
  have hopen : recordOpen u m = true := ((hu.recordSame rfl).recordOpen (by rw [lineGet_congr hlines])).trans hrec
  have hfu := finishOp_finished u m x stOk (ctrlBytes x.desc) hopen
  have hf := (hu.recordSame rfl).finished hlines hfu
  have hrun : x.track = .running := running_of_resumeWaiters (by rw [hw]; exact List.mem_singleton_self _)
  rw [endStatus_ok (by rw [hrun]; decide)] at hf
  have hentry : opFind s1 line.toNat seq.toNat = some (resumed o) := by
    have he := (entered_opSet s line.toNat (resumed o) (mem_of_opFind ho rfl)).entry
    rwa [resumed_seq, seq_of_opFind ho] at he
  refine ⟨_, (resumeTakesEffect_eq ho).trans (congrArg _ ((if_pos (by simp [hs, hroom, hw])).trans heq)), hf, ?_, fun hby => ?_⟩
  · rw [opFind, hf.lines _ hm.symm]
    exact hentry
  · have hregs := finishOp_ctrlRegs x stOk (ctrlBytes x.desc) hopen
    have hanswer : ctrlRegs u = (false, BitVec.ofNat 8 stOk) := by
      unfold u
      rw [hby]
      rfl
    exact Prod.mk.inj (hregs.trans hanswer)

/-! ### A cancel of a suspended vector operation (R284) -/

/-- Queued moves that leave the queue are no part of what a record rests on. -/
theorem dropQueued_recordSame (s : State) (p : Move → Bool) : RecordSame s (dropQueued s p) := by
  unfold dropQueued
  dsimp only
  refine foldl_keeps (RecordSame s) _ _ _ ⟨rfl, rfl, rfl, rfl, rfl, ?_, rfl, rfl, rfl, rfl, rfl, rfl⟩
    (fun u m hu => hu.trans ⟨rfl, rfl, rfl, rfl, rfl, rfl, rfl, rfl, rfl, rfl, rfl, rfl⟩)
  rw [List.filter_filter]
  refine List.filter_congr (fun m _ => ?_)
  cases m.started <;> simp

/-- What an operation leaves behind is no part of what a record rests on. -/
theorem opRelease_recordSame (s : State) (n seq : Nat) : RecordSame s (opRelease s n seq) := by
  unfold opRelease
  dsimp only
  refine RecordSame.trans ?_ ((noteStatus_keeps ..).recordSame rfl)
  exact ⟨rfl, rfl, rfl, rfl, rfl, rfl, rfl, rfl, rfl, rfl, rfl, rfl⟩

/-- The end of an operation after its entry was set is its end. -/
theorem Finished.of_opSet {s t : State} {n status : Nat} {p : OpEnt} {flags : Byte} {epoch : BitVec 16} {d : BitVec 512}
    {opb : List Byte} (hf : Finished (opSet s n p) t n p.seq status flags epoch d opb) :
    Finished s t n p.seq status flags epoch d opb := by
  have hself := lineGet_opSet s n p
  have hframe : recordFrame (opSet s n p) n = recordFrame s n :=
    ((opSet_keeps s n p).recordSame rfl).recordFrame (by rw [hself])
  exact {
    gone := hf.gone
    others := fun q hq => (hf.others q hq).trans (opFind_opSet_seq_ne s n p hq)
    record := fun i hi => by rw [← hframe, hf.record i hi, opSet_tb]
    memory := fun a ha => (hf.memory a (by rwa [hframe])).trans (rawByte_frame (opSet_mem s n p) (opSet_cfg s n p) a)
    cqTail := by rw [hf.cqTail, hself]; rfl
    stopped := by rw [hf.stopped, hself]; rfl
    fetch := by rw [hf.fetch, hself]
    head := by rw [hf.head, hself]
    tail := by rw [hf.tail, hself]
    cHead := by rw [hf.cHead, hself]
    nextSeq := by rw [hf.nextSeq, hself]
    loop := by rw [hf.loop, hself]
    lines := fun m hm => (hf.lines m hm).trans (lineGet_opSet_ne s p hm)
    signal := hf.signal }

/-- An end stands when only the host's status changes after it. -/
theorem Finished.answered {s t : State} {n seq status : Nat} {flags : Byte} {epoch : BitVec 16} {d : BitVec 512}
    {opb : List Byte} (hf : Finished s t n seq status flags epoch d opb) (st : Nat) :
    Finished s (ctrlAnswered t st) n seq status flags epoch d opb :=
  have hbytes : SameBytes t (ctrlAnswered t st) := (ctrlAnswered_keeps t st).sameBytes rfl rfl
  ⟨hf.gone, hf.others, fun i hi => (hbytes _).trans (hf.record i hi), fun a ha => (hbytes a).trans (hf.memory a ha), hf.cqTail,
    hf.stopped, hf.fetch, hf.head, hf.tail, hf.cHead, hf.nextSeq, hf.loop, hf.lines, hf.signal⟩

/-- The end of a dispatched VEC_OP that has no census to write. -/
theorem endOp_vec {s : State} {n : Nat} {o : OpEnt} (hop : opcodeOf o.desc = opVecOp) (hd : o.dispatched = true)
    (hcensus : censusKey o = none) : endOp s n o = finishOp (opRelease s n o.seq) n o stOk (vecBytes o) := by
  have hret : retireCensus s n o = (s, o) := by rw [retireCensus, hcensus]
  have hbytes : opBytes s n o = vecBytes o := by rw [opBytes, hop]; rfl
  unfold endOp
  rw [if_neg (by simp [hop, opVecOp, opCapColl]), hret, ite_self]
  simp only [hd, if_true, hbytes]

/-- What a cancelled VEC_OP stops at once: its moves that have not started. -/
theorem stopOp_vec {s : State} {n : Nat} {o : OpEnt} (hop : opcodeOf o.desc = opVecOp) (hd : o.dispatched = true) :
    stopOp s n o = dropQueued s (fun m => moveFor m.origin = some (n, o.seq)) := by
  unfold stopOp
  simp [hop, hd, isBgt, opVecOp, opBrdMm, opBgtFwd, opBgtBwd, opMove, opRowSeq]

section
variable {s : State} {n q : Nat} {o : OpEnt} (ho : opFind s n q = some o) (hs : o.track = .suspended)
  (hw : resumeWaiters s n q = [])
include ho hs hw

/-- A cancel of a suspended operation for which no CTRL waits. -/
theorem cancelOp_suspended (hop : opcodeOf o.desc ≠ opCtrl) :
    cancelOp s n o stCancelled = hostAnsweredOk (opSet s n (cancelled stCancelled o)) (o.resumeBy == some none) := by
  have hby : (cancelled stCancelled o).resumeBy = none := if_neg hop
  have hnone := resumeWaiters_opSet (s := s) (k := n) (n := n) (seq := q) (by simp [hw]) hby
  have hrun : cancelOp s n o stCancelled =
      settleResumes (opSet s n (cancelled stCancelled o)) n o.seq (o.resumeBy == some none) := by
    rw [cancelOp, if_neg (by rw [hs]; decide)]
    exact if_pos hs
  rw [hrun, settleResumes_eq, seq_of_opFind ho, hnone, hw]
  rfl

/-- A cancel of a suspended VEC_OP ends it with CANCELLED, unless UNCORRECTABLE outranks it (R275, R284). -/
theorem endSuspended_vec (hop : opcodeOf o.desc = opVecOp) (hd : o.dispatched = true) (hcensus : censusKey o = none)
    (hrec : recordOpen s n = true) :
    ctrlOn s 2 n q none = (endSuspended (cancelOp s n o stCancelled) n (cancelled stCancelled o), some stOk) ∧
    Finished s (endSuspended (cancelOp s n o stCancelled) n (cancelled stCancelled o)) n o.seq
      (if o.status = stUncorrectable then stUncorrectable else stCancelled) o.flags o.epoch o.desc (vecBytes o) := by
  let p := cancelled stCancelled o
  let s1 := cancelOp s n o stCancelled
  let s2 := dropQueued s1 (fun m => moveFor m.origin = some (n, p.seq))
  have h1 : Keeps [.regs] (opSet s n p) s1 := by
    unfold s1
    rw [cancelOp_suspended ho hs hw (by rw [hop]; decide)]
    exact hostAnsweredOk_keeps ..
  have hsame : RecordSame (opSet s n p) (opRelease s2 n p.seq) :=
    ((h1.recordSame rfl).trans (dropQueued_recordSame ..)).trans (opRelease_recordSame ..)
  have hlines2 : s2.lines = (opSet s n p).lines := ((dropQueued_keeps ..).same .lines rfl).trans (h1.same .lines rfl)
  have hlines : (opRelease s2 n p.seq).lines = (opSet s n p).lines := ((opRelease_keeps ..).same .lines rfl).trans hlines2
  have hfind : opFind (opSet s n p) n q = some p := opFind_opSet_of_opFind ho rfl
  have hend : endSuspended s1 n p = finishOp (opRelease s2 n p.seq) n p stOk (vecBytes p) := by
    have hfind2 : opFind s2 n p.seq = some p := by
      rw [opFind_congr hlines2, cancelled_seq, seq_of_opFind ho, hfind]
    unfold endSuspended
    rw [stopOp_vec (o := p) hop hd]
    dsimp only
    rw [show opFind (dropQueued s1 _) n p.seq = some p from hfind2]
    exact endOp_vec (o := p) hop hd hcensus
  have hset : Keeps [.lines] s (opSet s n p) := opSet_keeps ..
  have hopen : recordOpen (opRelease s2 n p.seq) n = true := by
    refine (((hset.recordSame rfl).trans hsame).recordOpen ?_).trans hrec
    rw [lineGet_congr hlines, lineGet_opSet]
  refine ⟨ctrlOn_ends none ho (by rw [hop]; decide) hs ((opFind_congr (h1.same .lines rfl) n q).trans hfind), ?_⟩
  have hf := (hsame.finished hlines (finishOp_finished _ n p stOk (vecBytes p) hopen)).of_opSet
  rw [hend]
  exact hf

end

/-- Settles O31: the resume takes effect once the ring has room, and the suspended VEC_OP ends. -/
theorem waitingResumeAndCancelOfSuspended : Obligations.WaitingResumeAndCancelOfSuspended := by
  intro line seq o s ho hs n o1 s1
  refine ⟨fun hroom hw hby => resumeTakesEffect_host ho hs hroom hw hby,
    fun m x hroom hw _ hm hrec => resumeTakesEffect_desc ho hs hroom hw hm hrec, resumeTakesEffect_stays ho,
    fun ht hb hon hassigned hop hd hcensus hw hrec _ _ _ => ?_⟩
  obtain ⟨hend, hf⟩ := endSuspended_vec ho hs hw hop hd hcensus hrec
  exact ⟨_, hostCtrl_answered ht hb hon hassigned (act := 2) (by decide) hend, hf.answered stOk, rfl⟩

end Sys2Proof.Machine
end

section
/-! SUPPORT. The end of a belay's drain budget (O34, R275, R287, R390, R392). -/

set_option Elab.async false

namespace Sys2Proof.Machine

open Sys2Proof

/-- A belay's cancel reaches an operation: it may be cancelled, and no cancel has reached it before (R287). -/
def belayReaches (o : OpEnt) : Bool := !neverCancelled (opcodeOf o.desc) && o.track != .cancelPending

/-- The entry of an operation of line `n` once the operations of a list have been cancelled. -/
def entryAfter (ops : List (Nat × OpEnt)) (n : Nat) (o : OpEnt) : OpEnt :=
  if ops.contains (n, o) && belayReaches o then cancelled stCancelledDisable o else o

/-- Every operation's entry in `u` is its entry in `s` after the operations of the list have been cancelled, and nothing but the
lines has changed. -/
structure Cancelled (ops : List (Nat × OpEnt)) (s u : State) : Prop where
  entries : ∀ n q : Nat, opFind u n q = (opFind s n q).map (entryAfter ops n)
  keeps : Keeps [.lines] s u

theorem Cancelled.refl (s : State) : Cancelled [] s s where
  entries n q := by
    have hid : entryAfter [] n = id := rfl
    rw [hid, Option.map_id, id]
  keeps := .refl _ _

/-- One step of `cancelAll`. -/
def cancelStep (acc : State × Nat) (p : Nat × OpEnt) : State × Nat :=
  match opFind acc.1 p.1 p.2.seq with
  | none => acc
  | some o =>
    if neverCancelled (opcodeOf o.desc) || o.track = .cancelPending then acc
    else
      let s1 := cancelOp acc.1 p.1 o stCancelledDisable
      let s2 := if o.track = .suspended then (match opFind s1 p.1 o.seq with
        | some o1 => endSuspended s1 p.1 o1
        | none => s1) else s1
      (s2, acc.2 + 1)

theorem cancelAll_eq (s : State) (ops : List (Nat × OpEnt)) : cancelAll s ops = ops.foldl cancelStep (s, 0) := rfl

/-- A step on an operation that is not suspended sets its entry, where the cancel reaches it. -/
theorem cancelStep_state {acc : State × Nat} {p : Nat × OpEnt} {o : OpEnt} (h : opFind acc.1 p.1 p.2.seq = some o)
    (hs : o.track ≠ .suspended) : (cancelStep acc p).1 =
      if belayReaches o then opSet acc.1 p.1 (cancelled stCancelledDisable o) else acc.1 := by
  unfold cancelStep
  rw [h]
  dsimp only
  by_cases hr : belayReaches o = true
  · have hr' := hr
    simp only [belayReaches, Bool.and_eq_true, Bool.not_eq_true', bne_iff_ne] at hr'
    rw [if_pos hr, if_neg (by simp [hr'.1, hr'.2])]
    dsimp only
    rw [if_neg hs, cancelOp_eq _ _ _ hr'.2 hs]
  · have hr' : (neverCancelled (opcodeOf o.desc) || decide (o.track = .cancelPending)) = true := by
      simpa [belayReaches, Bool.and_eq_true, imp_iff_not_or] using hr
    rw [if_neg hr, if_pos hr']

theorem entryAfter_cases (ops : List (Nat × OpEnt)) (n : Nat) (o : OpEnt) :
    entryAfter ops n o = o ∨ entryAfter ops n o = cancelled stCancelledDisable o := by
  unfold entryAfter
  split
  · exact Or.inr rfl
  · exact Or.inl rfl

/-- A cancel reaches no operation that one has reached. -/
theorem belayReaches_cancelled (o : OpEnt) : belayReaches (cancelled stCancelledDisable o) = false := by
  simp [belayReaches, cancelled]

/-- An operation that a cancel still reaches has its first entry. -/
theorem entryAfter_of_reaches {ops : List (Nat × OpEnt)} {n : Nat} {o : OpEnt} (h : belayReaches (entryAfter ops n o) = true) :
    entryAfter ops n o = o := by
  rcases entryAfter_cases ops n o with he | he
  · exact he
  · rw [he, belayReaches_cancelled] at h
    cases h

theorem entryAfter_append (ops : List (Nat × OpEnt)) (p : Nat × OpEnt) (n : Nat) (o : OpEnt) :
    entryAfter (ops ++ [p]) n o =
      if (n, o) = p ∧ belayReaches o = true then cancelled stCancelledDisable o else entryAfter ops n o := by
  unfold entryAfter
  by_cases hp : (n, o) = p
  · cases hr : belayReaches o <;> simp [hp]
  · simp [hp]

/-- A step cancels its operation, once. -/
theorem Cancelled.step {ops : List (Nat × OpEnt)} {s : State} {acc : State × Nat} {p : Nat × OpEnt} (h : Cancelled ops s acc.1)
    (hp : opFind s p.1 p.2.seq = some p.2) (hs : p.2.track ≠ .suspended) : Cancelled (ops ++ [p]) s (cancelStep acc p).1 := by
  have hfind : opFind acc.1 p.1 p.2.seq = some (entryAfter ops p.1 p.2) := by
    rw [h.entries, hp]
    rfl
  have hsusp : (entryAfter ops p.1 p.2).track ≠ .suspended := by
    rcases entryAfter_cases ops p.1 p.2 with he | he
    · rwa [he]
    · rw [he]
      simp [cancelled]
  rw [cancelStep_state hfind hsusp]
  by_cases hr : belayReaches (entryAfter ops p.1 p.2) = true
  · have hfirst := entryAfter_of_reaches hr
    rw [if_pos hr]
    rw [hfirst] at hr hfind ⊢
    refine ⟨fun n k => ?_, h.keeps.step (opSet_keeps ..) rfl⟩
    rw [opFind_opSet_eq hfind (cancelled_seq ..)]
    by_cases hnk : n = p.1 ∧ k = p.2.seq
    · rw [if_pos hnk, hnk.1, hnk.2, hp, Option.map_some, entryAfter_append, if_pos ⟨rfl, hr⟩]
    · rw [if_neg hnk, h.entries]
      refine Option.map_congr (fun o ho => ?_)
      rw [entryAfter_append, if_neg]
      rintro ⟨rfl, -⟩
      exact hnk ⟨rfl, (seq_of_opFind ho).symm⟩
  · rw [if_neg hr]
    refine ⟨fun n k => ?_, h.keeps⟩
    rw [h.entries]
    refine Option.map_congr (fun o _ => ?_)
    rw [entryAfter_append]
    split
    next hlast =>
      obtain ⟨rfl, hreach⟩ := hlast
      rcases entryAfter_cases ops n o with he | he
      · exact absurd ((congrArg belayReaches he).trans hreach) hr
      · exact he
    · rfl

theorem foldl_cancelStep {s : State} {ops : List (Nat × OpEnt)} :
    ∀ {done : List (Nat × OpEnt)} {acc : State × Nat}, Cancelled done s acc.1 →
      (∀ p ∈ ops, opFind s p.1 p.2.seq = some p.2 ∧ p.2.track ≠ .suspended) →
      Cancelled (done ++ ops) s (ops.foldl cancelStep acc).1 := by
  induction ops with
  | nil =>
    intro done acc h _
    rwa [List.append_nil]
  | cons p ops ih =>
    intro done acc h hops
    obtain ⟨hp, hs⟩ := hops p List.mem_cons_self
    rw [List.foldl_cons, ← List.singleton_append, ← List.append_assoc]
    exact ih (h.step hp hs) (fun x hx => hops x (List.mem_cons_of_mem _ hx))

/-- The operations of the list, none of them suspended, each cancelled. -/
theorem cancelAll_cancelled {s : State} {ops : List (Nat × OpEnt)}
    (h : ∀ p ∈ ops, opFind s p.1 p.2.seq = some p.2 ∧ p.2.track ≠ .suspended) : Cancelled ops s (cancelAll s ops).1 := by
  rw [cancelAll_eq]
  exact foldl_cancelStep (done := []) (acc := (s, 0)) (.refl s) h

/-- The end of the drain budget, by its time (R392). -/
theorem belayDrainBudgetExpiry_eq {s : State} {r : BelayRun} (h : runAt s .drain = some r) :
    exec .belayDrainBudgetExpiry s =
      if r.fenceAt + r.req.drainUs * 1000 ≤ tbNow s then
        let c := cancelAll s (dependentsNow s r)
        .next { c.1 with belay := { c.1.belay with run := some { r with cancelled := r.cancelled + c.2 } } }
      else .next s := by
  rw [show exec .belayDrainBudgetExpiry s = execBelayDrainBudgetExpiry s from rfl, execBelayDrainBudgetExpiry, h]

/-- Settles O34: the dependents are cancelled one by one, and each keeps its entry but for the cancel. -/
theorem belayDrainBudgetCancels : Obligations.BelayDrainBudgetCancels := by
  intro r s hrun
  refine ⟨fun hearly => (belayDrainBudgetExpiry_eq hrun).trans (if_neg (Nat.not_le.2 hearly)), fun hdue hops => ?_⟩
  have hc := cancelAll_cancelled hops
  let t : State := { (cancelAll s (dependentsNow s r)).1 with belay := { (cancelAll s (dependentsNow s r)).1.belay with
    run := some { r with cancelled := r.cancelled + (cancelAll s (dependentsNow s r)).2 } } }
  have hk : Keeps [.belay, .lines] s t := Keeps.upd (hc.keeps.mono rfl)
  have hfind (n q : Nat) : opFind t n q = (opFind s n q).map (entryAfter (dependentsNow s r) n) := hc.entries n q
  refine ⟨t, (belayDrainBudgetExpiry_eq hrun).trans (if_pos hdue), fun n q o ho hmem hc htrack => ?_, fun n q hnone => ?_,
    hk.same .cfg rfl, hk.same .hitches rfl, hk.sameBytes rfl rfl, hk.only⟩
  · have hreach : belayReaches o = true := by rcases htrack with ht | ht <;> simp [belayReaches, hc, ht]
    rw [hfind, ho, Option.map_some, entryAfter, if_pos (by simp [hmem, hreach])]
    rfl
  · rw [hfind]
    cases ho : opFind s n q with
    | none => rfl
    | some o =>
      have hout : (n, o) ∉ dependentsNow s r := fun hmem => hnone o hmem (seq_of_opFind ho)
      rw [Option.map_some, entryAfter, if_neg (by simp [hout])]

end Sys2Proof.Machine
end
